-- ==== Sys2Proof/Types.lean ====
section
/-! DEFINITION. The data that commands bring into the block from outside: what a host writes, what a frame holds. -/

namespace Sys2Proof

/-- One descriptor of a data list (R237). -/
structure Descriptor where
  addr : Nat
  len  : Nat
  deriving DecidableEq, Repr

/-- What the host bus returned with one submission entry (R236, R684): the 64 bytes as one number, the bytes of the
descriptor list when `data_list_count` is above 1 (R237), the key bytes of a long key, and the write data of at most
4,096 bytes. `none` is a failed read of the host bus (R111). -/
structure Fetched where
  entry : Nat
  list  : Option Bytes
  key   : Option Bytes
  data  : Option Bytes
  deriving DecidableEq, Repr

/-- One client datagram with the lane and the source it came from (R329, Table 06-10). -/
structure Dgram where
  lane     : Nat
  srcAddr  : Nat
  srcPort  : Nat
  magic    : Nat
  version  : Nat
  kind     : Nat
  final    : Bool
  session  : Nat
  sequence : Nat
  wordA    : Nat
  wordB    : Nat
  bodyLen  : Nat
  body     : Bytes
  deriving DecidableEq, Repr

/-- The Walin header of a fabric frame (R291, Table 06-4). -/
structure Hdr where
  version  : Nat
  kind     : Nat
  hop      : Nat
  adaptive : Bool
  bounded  : Bool
  via      : Nat
  dst      : Nat
  src      : Nat
  laneSeq  : Nat
  payload  : Nat
  session  : Nat
  sequence : Nat
  word     : Nat
  deriving DecidableEq, Repr

/-- What SHARD_HOLD and REBUILD_WRITE carry of one shard (R314, Table 09-2). -/
structure Shard where
  ns         : Nat
  key        : Bytes
  digest     : Nat
  stampTime  : Nat
  stampTie   : Nat
  stampNode  : Nat
  version    : Nat
  suit       : Nat
  index      : Nat
  whole      : Nat
  spreadK    : Nat
  spreadM    : Nat
  tombstone  : Bool
  value      : Bytes
  deriving DecidableEq, Repr

/-- The answer of a lead to ORDER (R311). -/
inductive OrderAnswer where
  | writeOrder (version : Nat)
  | readGrant  (version : Nat) (holders : List Nat)
  | busy       (until_ : Nat)
  | mismatch
  deriving DecidableEq, Repr

/-- A TIME frame (R321): a child's request with its send time, or the parent's answer. Times count units of
0.625 ns. -/
inductive TimeMsg where
  | request (t1 : Nat)
  | reply   (t1 t2 t3 t4 : Nat)
  deriving DecidableEq, Repr

/-- Why a fabric lane is declared failed (R280). -/
inductive LaneFault where
  | lockLost | nakRepeated | creditSilent | helloSilent
  deriving DecidableEq, Repr

/-- Why a fabric-lane frame is dropped (R290, R291, R292). -/
inductive FrameFault where
  | vlanTag | etherType | pause | reservedType | version
  deriving DecidableEq, Repr

/-- Where a read of a port's memory space lands: the BAR and the offset in it (R223, R224). -/
structure BarPlace where
  bar    : Nat
  offset : Nat
  deriving DecidableEq, Repr

/-- A request to a port's configuration space: the register's byte offset, and the word that a write carries (R215, R220). -/
structure ConfigCycle where
  port  : Nat
  reg   : Nat
  write : Option Nat
  deriving DecidableEq, Repr

/-- The times of a SHARD_HOLD: its hold deadline and the write's deadline slot (R314). -/
structure HoldTimes where
  hold : Nat
  slot : Nat
  deriving DecidableEq, Repr

/-- What a port reset came from (R219). -/
inductive PortResetCause where
  | hotReset | flr | perst | linkDown | busMasterOff
  deriving DecidableEq, Repr

/-- How far a codeword read got on the ladder of R451. -/
inductive ReadResult where
  | clean | corrected | shifted | soft | reconstructed | lost
  deriving DecidableEq, Repr

/-- What a codeword read found: the step of the ladder at which it ended, and the byte positions that failed in it (R451, R453). -/
structure CodewordRead where
  res : ReadResult
  bad : List Nat
  deriving DecidableEq, Repr

/-- What die or plane reported a failed program (R474). -/
structure ProgFail where
  die   : Nat
  plane : Nat
  deriving DecidableEq, Repr

/-- A DRAM region (Table 10-2). -/
inductive Region where
  | index | protected_ | contexts | stream
  deriving DecidableEq, Repr

/-- A request that a requester port sends: a line of a region, named by its offset (R497, R502). `whole` is false for a
write of less than a line. `owner` is the command, by session and sequence, whose staged data the line holds, and `flushed`
says that the protected region holds a flushed copy of a context line (R527). -/
structure DramIn where
  port   : Nat
  region : Region
  offset : Nat
  write  : Bool
  whole  : Bool
  urgent : Bool
  owner  : Option (Nat × Nat) := none
  flushed : Bool := false
  deriving DecidableEq, Repr

/-- A line that the patrol scrub found with wrong symbols, of the 80 of its code (R493, R495). -/
structure ScrubLine where
  sub  : Nat
  bank : Nat
  row  : Nat
  col  : Nat
  bad  : List Nat
  deriving DecidableEq, Repr

/-- A classifier unit found bad: by a mismatch with the DRAM copy, by a parity failure on a match, or because the DRAM
copy itself fails its CRC (R426, R427). -/
structure CamError where
  unit    : Nat
  parity  : Bool
  dramBad : Bool
  deriving DecidableEq, Repr

/-- A cause of a bank fault (Table 12-5). -/
inductive BankFaultKind where
  | absent | reversed | chargeTimeout | overVoltage | pathFailed
  deriving DecidableEq, Repr

/-- The samples of one measurement of the hold-up bank (R572), in µV: the step of the voltage 2 µs after the current starts, and
its fall over the last 0.9 ms. -/
structure BankMeasure where
  stepUv : Nat
  fallUv : Nat
  deriving DecidableEq, Repr

/-- Why a cipher engine is retired (R558). -/
inductive EngineCause where
  | knownAnswer | parity | noProgress | lockFault
  deriving DecidableEq, Repr

/-- Why a channel controller is taken for failed (R528). -/
inductive ChannelCause where
  | noAnswer | training | uncorrectable
  deriving DecidableEq, Repr

/-- Which ledger a checker found out of balance (Table 02-5, Table 02-7; R92 for the two of the fabric). -/
inductive Ledger where
  | commands | kitty | talonStock | antes | cells | cipherLocks | queueSlots | sessionOrder
  | linkCredits | sessionCredits
  deriving DecidableEq, Repr

/-- What the power-on sequence found (Table 15-12, R596, R612, R614, R518, R556): RECOV_N as sampled, whether a copy of the boot
record has a CRC that holds and whether the newer one has, whether the parts of the slot verified, the channels whose training failed, the engines whose
known-answer test failed, whether every generator passed, and the SMB_ADR strap. -/
structure BootInput where
  recovLow      : Bool
  recordOk      : Bool
  partsOk       : Bool
  badChannels   : List Nat
  badEngines    : List Nat
  generatorsOk  : Bool
  noiseA        : Bool
  noiseB        : Bool
  smbAdr        : Bool
  newerOk       : Bool := true
  deriving DecidableEq, Repr

/-- A data page whose footer cannot be read in a full scan, and whether its data cannot be read either (R483, R485). -/
structure LostPage where
  meld     : Nat
  page     : Nat
  dataLost : Bool
  deriving DecidableEq, Repr

/-- What recovery found on flash (R481, R407, R483 to R486). -/
structure RecoveryInput where
  rootOk        : Bool
  imagesOk      : Bool
  deltasOk      : Bool
  lost          : List LostPage
  deriving DecidableEq, Repr

/-- What a test run reported (R644): `none` is a pass, `some c` a failure with cause c. -/
abbrev TestResult := Option Nat

/-- An answer a recorder gave about a pending shard (R317). -/
inductive Recorded where
  | commit | discard | noRecord
  deriving DecidableEq, Repr

end Sys2Proof
end

