-- ==== Sys2Proof/Config.lean ====
section
/-! DEFINITION. What the part fixes: figures of the manual used in more than one place, the identity of the individual
part, and the values the manual leaves open (opaque constants without a body). -/

namespace Sys2Proof.Config

/-- A value the manual leaves open, `w` bits wide, the `n`-th drawn (log entry 1). -/
opaque freeValue (w n : Nat) : BitVec w

/-- The part's silicon stepping (Table 05-6, "per part"). -/
opaque stepping : BitVec 8
/-- Year, week and sequence of the part's serial number (R680, "per part"). -/
opaque serialYear : Fin 100
/-- The week of the serial number (R680). -/
opaque serialWeek : Fin 100
/-- The sequence of the serial number (R680). -/
opaque serialSeq : Fin 1000000

/-- `k` decimal digits of `n` in ASCII, most significant first. -/
def digits (n : Nat) : Nat → List Nat
  | 0 => []
  | k + 1 => (48 + n / 10 ^ k % 10) :: digits n k

/-- The part's serial number: the letter Z, a two-digit year, a two-digit week and a six-digit sequence in ASCII, the first
character lowest, padded with zero bytes (R680, Table 05-6). -/
def serial : Nat :=
  ([0x5A] ++ digits serialYear.val 2 ++ digits serialWeek.val 2 ++ digits serialSeq.val 6).foldr (fun b v => b + 256 * v) 0
/-- The part's MAC base address; its low nine bits are 0 (R679). -/
opaque macUpper : BitVec 39
/-- SHA-384 hash of signing key `i` held in one-time-programmable memory (R599). -/
opaque otpKeyHash (i : Nat) : BitVec 384
/-- Whether signing key `i` is revoked in one-time-programmable memory (R599). -/
opaque otpKeyRevoked (i : Nat) : Bool
/-- Bundle version of the slot the part left the factory with (R596). -/
opaque factoryVersion : BitVec 32
/-- Version of a part of the bundle the part left the factory with (R596). -/
opaque factoryPart (t : Nat) : BitVec 32
/-- Lowest and highest version of part type `u` that part `t` of that bundle was tested with (R600). -/
opaque factoryLow (t u : Nat) : BitVec 32
opaque factoryHigh (t u : Nat) : BitVec 32
/-- The media key slot's key, made at manufacture (R537). -/
opaque mediaKey : BitVec 512
/-- The fabric time at which the media key slot's key was loaded, at manufacture (R537, Table 11-1). -/
opaque mediaKeyLoadedAt : BitVec 64
/-- Length of the freeze chain in bits, which differs by stepping (R649). -/
opaque chainBits : BitVec 48

/-- Temperature of die `d` in °C, as its sensor reads at fabric time `t` (log entry 41). -/
opaque dieTemp (d t : Nat) : BitVec 8
/-- Bad byte columns of a plane, up to 64 (R453, log entry 42). -/
opaque badColumns (die plane : Nat) : Fin 65
/-- Input power in units of 0.1 W at fabric time `t` (log entry 41). -/
opaque inputPower (t : Nat) : BitVec 16
/-- Output current of a running charger in mA at fabric time `t`, at most 1.5 A (R569, log entry 41). -/
opaque chargeCurrent (t : Nat) : Fin 1501
/-- The host's reference clock is present at fabric time `t` (R216, log entry 41). -/
opaque hostClock (t : Nat) : Bool
/-- The root PLL is locked again after `n` losses of lock at fabric time `t` (Table 01-11, log entry 15). -/
opaque rootRelocked (n t : Nat) : Bool
/-- What an internal memory, or the internal state of a chain segment, holds: 1 keys, key schedules, tweak values, generator states,
digest keys and the device secret; 2 the packet buffer and the data cells of the cipher pipelines; 0 neither (R649, log entry 40). -/
opaque frzKind (n : Nat) : Fin 3
/-- Line of segment 7 of the stream channels that takes the line `n` of failed channel `c` (R528, log entry 107). -/
opaque movedLine (c n : Nat) : Nat
/-- Offset of the crystal from the time master in parts per billion, signed (log entry 41). -/
opaque crystalOffset (t : Nat) : BitVec 32

/-- The MAC base address (R679). -/
def macBase : Nat := macUpper.toNat * 512

/-- Nanoseconds of a calendar slot (R184). -/
def slotNs : Nat := 16000
/-- Slots of the horizon (R184). -/
def horizon : Nat := 65536
/-- Cells of the packet buffer (R36). -/
def cells : Nat := 262144
/-- Entries of the detail ring (R73). -/
def ringEntries : Nat := 16777216
/-- Entries of the overlap table (R153). -/
def overlapMax : Nat := 65536
/-- Requests that wait for the Ante unit before the Dealer stops taking in work: what it decides in one slot at 200 M
requests/s (R192, R209, log entry 87). -/
def anteBacklog : Nat := 3200
/-- Largest value (R103). -/
def maxValue : Nat := 67108864
/-- Buckets of the index (R377). -/
def buckets : Nat := 4831838208
/-- Groups of the index (R377). -/
def groups : Nat := 1179648
/-- Objects the index holds at most (R395). -/
def maxObjects : Nat := 17179869184
/-- Meld numbers (R438). -/
def melds : Nat := 43712
/-- Units of 512 bytes that one meld number spans (R439). -/
def meldSpan : Nat := 2949120
/-- Blocks of a plane (R436). -/
def planeBlocks : Nat := 1366
/-- Blocks in all (R436). -/
def blkTotal : Nat := 2797568
/-- Pages of the array: 1,536 to a block; a header search reads the footer of each (R436, R483). -/
def scanPages : Nat := 4297064448
/-- User capacity in bytes (R4). -/
def userCapacity : Nat := 51200000000000
/-- Bytes of TOMBSTONE and HINT records held at most (R477). -/
def tombReserve : Nat := 68719476736
/-- Exit latency in µs of P1, P2 and P3 (Table 12-8). -/
def exitUs : Nat → Nat
  | 1 => 5
  | 2 => 250
  | 3 => 40000
  | _ => 0

end Sys2Proof.Config
end

