-- ==== Sys2Proof/Syntax.lean ====
section
/-! DEFINITION. The commands of the block: one constructor for each row of spec/opcode_table.json, with what the
command brings from outside as its operands. -/

namespace Sys2Proof

/-- A command. Each constructor names the rule of spec/ that governs the row. -/
inductive Instr where
  /-- SQ_TAIL_WRITE (R244). -/
  | sqTailWrite (port ctx tail : Nat) (head : Option Nat)
  /-- CQ_HEAD_WRITE (R245). -/
  | cqHeadWrite (port ctx head : Nat)
  /-- SUBMISSION_ENTRY_FETCH (R267). -/
  | submissionEntryFetch (ctx : Nat) (res : Option Fetched)
  /-- INTAKE_BACKLOG_RESUME (R209). -/
  | intakeBacklogResume
  /-- ADMISSION_STEP (R40). -/
  | admissionStep (session : Nat)
  /-- HELD_SEQUENCE_RELEASE (R142). -/
  | heldSequenceRelease (session : Nat)
  /-- HOLD_LIMIT_EXPIRY (R146). -/
  | holdLimitExpiry (session seq : Nat)
  /-- GET (R114). -/
  | get (session seq : Nat) (fault : Option Nat)
  /-- PUT (R116). -/
  | put (session seq : Nat) (data : Option Bytes)
  /-- DELETE (R118). -/
  | delete (session seq : Nat)
  /-- PUT_AT (R120). -/
  | putAt (session seq : Nat) (data : Option Bytes)
  /-- APPEND (R122). -/
  | append (session seq : Nat) (data : Option Bytes)
  /-- EXISTS (R124). -/
  | existsKey (session seq : Nat)
  /-- COMPARE_AND_PUT (R117). -/
  | compareAndPut (session seq : Nat) (data : Option Bytes)
  /-- EXPIRE_HINT (R125). -/
  | expireHint (session seq : Nat)
  /-- ENUMERATE (R130). -/
  | enumerate (session seq : Nat) (fault : Option Nat)
  /-- TRICK (R161). -/
  | trick (session seq : Nat) (data : List (Option Bytes)) (faults : List (Option Nat))
  /-- FLUSH_SESSION (R133). -/
  | flushSession (session seq : Nat)
  /-- JOURNAL_QUERY (R135). -/
  | journalQuery (session seq : Nat) (fault : Option Nat)
  /-- OVERLAP_RELEASE (R156). -/
  | overlapRelease (session seq : Nat)
  /-- COMMIT_STEP (R29). -/
  | commitStep (session seq : Nat)
  /-- POST_HELD_COMPLETION (R79). -/
  | postHeldCompletion (ctx : Nat)
  /-- COALESCE_TIMER_EXPIRY (R249). -/
  | coalesceTimerExpiry (ctx : Nat)
  /-- CORE_FAILURE (R32). -/
  | coreFailure (core : Nat)
  /-- CORE_ROLE_DRAIN (R25). -/
  | coreRoleDrain (core : Nat)
  /-- SETTING_READ (R251). -/
  | settingRead (box : Nat)
  /-- SETTING_WRITE (R254). -/
  | settingWrite (box : Nat)
  /-- NAMESPACE_RELEASE (R100). -/
  | namespaceRelease (box : Nat)
  /-- NAMESPACE_FREED (R100). -/
  | namespaceFreed (ns : Nat)
  /-- KEY_GENERATE (R540). -/
  | keyGenerate (box : Nat)
  /-- KEY_IMPORT (R540). -/
  | keyImport (box : Nat)
  /-- KEY_ZEROIZE (R540). -/
  | keyZeroize (box : Nat)
  /-- KIK_INSTALL (R544). -/
  | kikInstall (box : Nat)
  /-- KIK_LOCK (R544). -/
  | kikLock (box : Nat)
  /-- TIME_SET (R324). -/
  | timeSet (box : Nat)
  /-- CALENDAR_SET (R633). -/
  | calendarSet (box : Nat)
  /-- EVENT_STORE_CLEAR (R628). -/
  | eventStoreClear (box : Nat)
  /-- CLASSIFIER_ORDERED_INSERT (R424). -/
  | classifierOrderedInsert (box : Nat)
  /-- QUEUE_CREATE (R256). -/
  | queueCreate (box : Nat)
  /-- QUEUE_DELETE (R260). -/
  | queueDelete (box : Nat)
  /-- QUEUE_DELETE_COMPLETE (R264). -/
  | queueDeleteComplete (ctx : Nat)
  /-- SESSION_RELEASE (R266). -/
  | sessionRelease (box : Nat)
  /-- SESSION_LIST (R268). -/
  | sessionList (box : Nat)
  /-- MBX_JOURNAL_QUERY (R269). -/
  | mbxJournalQuery (box : Nat)
  /-- LEDGER_SNAPSHOT (R85). -/
  | ledgerSnapshot (box : Nat)
  /-- EVENT_READ (R636). -/
  | eventRead (box : Nat)
  /-- DIAG_UNLOCK (R228). -/
  | diagUnlock (box : Nat)
  /-- DIAG_UNLOCK_EXPIRY (R228). -/
  | diagUnlockExpiry (port : Nat)
  /-- MAILBOX_UNKNOWN_COMMAND (R251). -/
  | mailboxUnknownCommand (box : Nat)
  /-- UPDATE_BEGIN (R599). -/
  | updateBegin (box : Nat)
  /-- UPDATE_DATA (R603). -/
  | updateData (box : Nat)
  /-- UPDATE_FINISH (R603). -/
  | updateFinish (box : Nat)
  /-- UPDATE_ACTIVATE (R604). -/
  | updateActivate (box : Nat)
  /-- UPDATE_COMMIT (R611). -/
  | updateCommit (box : Nat)
  /-- UPDATE_ABORT (R603). -/
  | updateAbort (box : Nat)
  /-- UPDATE_STATUS (R619). -/
  | updateStatus (box : Nat)
  /-- ACTIVATION_PRELOAD (R605). -/
  | activationPreload (digestsOk : Bool)
  /-- ACTIVATION_WINDOW_START (R606). -/
  | activationWindowStart
  /-- ACTIVATION_MIDPOINT (R607). -/
  | activationMidpoint (ready : Bool)
  /-- ACTIVATION_WINDOW_END (R607). -/
  | activationWindowEnd (ready : Bool)
  /-- AUTO_COMMIT (R611). -/
  | autoCommit
  /-- BOOT_TIMEOUT (R612). -/
  | bootTimeout
  /-- MODULE_RESET (R63). -/
  | moduleReset (set : Nat)
  /-- MODULE_RESET_EXECUTE (R675). -/
  | moduleResetExecute
  /-- SELF_TEST (R645). -/
  | selfTest (set : Nat) (results : List TestResult)
  /-- EVENT_TAIL (R637). -/
  | eventTail (set : Nat)
  /-- RECOVERY_WRITE (R615). -/
  | recoveryWrite (set : Nat)
  /-- RECOVERY_COMMIT (R616). -/
  | recoveryCommit (set : Nat)
  /-- UART_RECOVERY_WRITE (R617). -/
  | uartRecoveryWrite (frame : Bytes)
  /-- UART_RECOVERY_COMMIT (R617). -/
  | uartRecoveryCommit (frame : Bytes)
  /-- UART_RECOVERY_STATUS (R617). -/
  | uartRecoveryStatus (frame : Bytes)
  /-- SMBUS_RECOVERY_WRITE (R616). -/
  | smbusRecoveryWrite (block : Bytes) (pec : Option Byte)
  /-- SMBUS_RECOVERY_COMMIT (R616). -/
  | smbusRecoveryCommit (block : Bytes) (pec : Option Byte)
  /-- SMBUS_RECOVERY_STATUS (R616). -/
  | smbusRecoveryStatus (pec : Bool)
  /-- SIDEBAND_IDENTITY_READ (R677). -/
  | sidebandIdentityRead (pec : Bool)
  /-- SIDEBAND_STATUS_READ (R677). -/
  | sidebandStatusRead (lidTemp : Nat) (pec : Bool)
  /-- REGISTER_WRITE (R15). -/
  | registerWrite (port bar offset size value : Nat)
  /-- RC_REGISTER_READ (R15). -/
  | rcRegisterRead (port : Nat) (place : BarPlace) (size : Nat)
  /-- REGISTER_LOW_HALF_READ (R224). -/
  | registerLowHalfRead (port offset : Nat)
  /-- BAR_BAD_ACCESS (R224). -/
  | barBadAccess (port bar offset size : Nat) (write : Bool)
  /-- CONFIG_REQUEST (R220). -/
  | configRequest (cycle : ConfigCycle)
  /-- PERST_DEASSERT (R213). -/
  | perstDeassert (port bifSel : Nat) (clkSep : Bool)
  /-- PORT_RESET (R219). -/
  | portReset (port : Nat) (cause : PortResetCause)
  /-- ALL_PORTS_RESET (R62). -/
  | allPortsReset
  /-- HOST_LINK_CHANGE (R217). -/
  | hostLinkChange (port : Nat) (inL0 : Bool) (width rate : Nat)
  /-- WAKE_RELEASE (R661). -/
  | wakeRelease
  /-- CLIENT_OPEN (R335). -/
  | clientOpen (d : Dgram)
  /-- CLIENT_COMMAND (R331). -/
  | clientCommand (d : Dgram)
  /-- CLIENT_STAGE (R332). -/
  | clientStage (d : Dgram)
  /-- CLIENT_WITHDRAW (R169). -/
  | clientWithdraw (d : Dgram)
  /-- CLIENT_CLOSE (R337). -/
  | clientClose (d : Dgram)
  /-- CLIENT_CLOSE_COMPLETE (R337). -/
  | clientCloseComplete (session : Nat)
  /-- CLIENT_SESSION_IDLE (R337). -/
  | clientSessionIdle (session : Nat)
  /-- STAGE_IDLE_EXPIRY (R332). -/
  | stageIdleExpiry (session handle : Nat)
  /-- CLIENT_DATAGRAM_DROP (R692). -/
  | clientDatagramDrop (d : Dgram)
  /-- CLIENT_FRAME_FILTERED (R357). -/
  | clientFrameFiltered (lane : Nat)
  /-- NEIGHBOUR_DISCOVERY (R326). -/
  | neighbourDiscovery (lane : Nat) (v6 : Bool) (target sender senderMac : Nat)
  /-- CLIENT_COMPLETION_DISCARD (R690). -/
  | clientCompletionDiscard (trunk : Nat)
  /-- HELLO (R277). -/
  | hello (lane node : Nat) (valid : Bool) (farLane mac serial : Nat)
  /-- HELLO_TIMER (R277). -/
  | helloTimer
  /-- CREDIT (R279). -/
  | credit (lane nextExp : Nat) (nak : Bool) (counts : List Nat)
  /-- CREDIT_RETURN_TIMER (R296). -/
  | creditReturnTimer (lane : Nat)
  /-- TIME (R321). -/
  | timeFrame (lane : Nat) (msg : TimeMsg)
  /-- TIME_EXCHANGE_TIMER (R321). -/
  | timeExchangeTimer
  /-- REVOKE (R281). -/
  | revoke (lane revoked final : Nat) (ack : Bool)
  /-- LANE_FAILURE (R280). -/
  | laneFailure (lane : Nat) (cause : LaneFault)
  /-- ROUTE (R285). -/
  | route (src serial : Nat) (trunks : List Nat) (valid : Bool) (validAt : Nat)
  /-- ROUTE_FLOOD_TIMER (R285). -/
  | routeFloodTimer
  /-- ROUTE_RECOMPUTE (R285). -/
  | routeRecompute
  /-- FABRIC_FORWARD (R287). -/
  | fabricForward (lane : Nat) (h : Hdr)
  /-- FABRIC_FRAME_DROP (R290). -/
  | fabricFrameDrop (lane : Nat) (cause : FrameFault)
  /-- NOCREDIT_DROP (R297). -/
  | nocreditDrop (lane : Nat) (h : Hdr)
  /-- VOID_FRAME (R293). -/
  | voidFrame (lane : Nat) (h : Hdr)
  /-- FABRIC_OPEN (R300). -/
  | fabricOpen (src request : Nat)
  /-- FABRIC_OPEN_REPLY (R300). -/
  | fabricOpenReply (src request session status : Nat)
  /-- FABRIC_ACK (R302). -/
  | fabricAck (peer through grant : Nat) (pairs : List (Nat × Nat))
  /-- FABRIC_CLOSE (R292). -/
  | fabricClose (session : Nat)
  /-- SESSION_RETRANSMIT (R301). -/
  | sessionRetransmit (peer seq : Nat)
  /-- CREDIT_RETURN (R305). -/
  | creditReturn (session seq units : Nat)
  /-- IDLE_CREDIT_RETURN_TIMER (R305). -/
  | idleCreditReturnTimer (peer : Nat)
  /-- SHARD_HOLD (R314). -/
  | shardHold (session seq wanted : Nat) (times : HoldTimes) (sh : Shard) (medium : Bool)
  /-- SHARD_COMMIT (R314). -/
  | shardCommit (session seq ns digest stampTime stampTie stampNode : Nat)
  /-- SHARD_DISCARD (R314). -/
  | shardDiscard (session seq ns digest stampTime stampTie stampNode : Nat)
  /-- DECIDE (R314). -/
  | decide (session seq ns digest stampTime stampTie stampNode : Nat) (ok : Bool)
  /-- SHARD_READ (R318). -/
  | shardRead (session seq ns : Nat) (key : Bytes)
  /-- REBUILD_WRITE (R319). -/
  | rebuildWrite (session seq : Nat) (sh : Shard)
  /-- FABRIC_REQUEST_INVALID (R292). -/
  | fabricRequestInvalid (session seq code : Nat)
  /-- ORDER (R311). -/
  | orderRequest (src request ns digest mapCrc : Nat) (write : Bool) (until_ : Nat)
  /-- ORDER_REPLY (R311). -/
  | orderReply (src request : Nat) (ans : OrderAnswer)
  /-- ORDER_TIMEOUT (R311). -/
  | orderTimeout (request : Nat)
  /-- WRITE_ORDER_EXPIRY (R312). -/
  | writeOrderExpiry (ns digest : Nat)
  /-- SHARD_HOLD_DEADLINE (R315). -/
  | shardHoldDeadline (session seq : Nat)
  /-- DECIDE_TIMEOUT (R314). -/
  | decideTimeout (session seq : Nat)
  /-- PENDING_SHARD_RESOLVE (R317). -/
  | pendingShardResolve (stampTime stampTie stampNode : Nat) (answer : Recorded)
  /-- PEER_FAILURE (R319). -/
  | peerFailure (node : Nat)
  /-- LEAD_HORIZON_END (R313). -/
  | leadHorizonEnd (node : Nat)
  /-- SHARD_REBUILD (R315). -/
  | shardRebuild (ns digest : Nat)
  /-- LANE_RETRAIN_WINDOW_START (R346). -/
  | laneRetrainWindowStart (lane : Nat)
  /-- LANE_TRAINING_DONE (R352). -/
  | laneTrainingDone (lane pre main post : Nat)
  /-- LANE_TRAINING_TIMEOUT (R347). -/
  | laneTrainingTimeout (lane : Nat)
  /-- BLOCK_LOCK (R348). -/
  | blockLock (lane : Nat)
  /-- CONFIRM_PASS (R349). -/
  | confirmPass (lane : Nat)
  /-- FALSE_LOCK (R349). -/
  | falseLock (lane : Nat)
  /-- LOCK_LOSS (R351). -/
  | lockLoss (lane : Nat)
  /-- HI_BER_WINDOW (R350). -/
  | hiBerWindow (lane invalid : Nat)
  /-- ATTEMPT_COUNT_RESET (R347). -/
  | attemptCountReset (lane : Nat)
  /-- LANE_FRAME_RECEIVE (R359). -/
  | laneFrameReceive (lane : Nat) (frame : Bytes) (invalidBlocks : Nat)
  /-- LANE_FRAME_TRANSMIT (R353). -/
  | laneFrameTransmit (lane : Nat)
  /-- PAUSE_RECEIVED (R361). -/
  | pauseReceived (lane : Nat) (pfc : Option Nat) (quanta : Nat)
  /-- PAUSE_EXPIRY (R361). -/
  | pauseExpiry (lane : Nat)
  /-- PAUSE_REPEAT_TIMER (R361). -/
  | pauseRepeatTimer (lane : Nat)
  /-- RING_FRAME_TAKEN (R361). -/
  | ringFrameTaken (lane : Nat)
  /-- PAUSE_WATCHDOG (R362). -/
  | pauseWatchdog (lane : Nat)
  /-- PAUSE_HOLDOFF_END (R362). -/
  | pauseHoldoffEnd (lane : Nat)
  /-- LPI_ENTRY (R365). -/
  | lpiEntry (lane : Nat)
  /-- LPI_WAKE (R366). -/
  | lpiWake (lane : Nat)
  /-- SLOT_BOUNDARY (R184). -/
  | slotBoundary
  /-- MAINTENANCE_RESERVATION_START (R48). -/
  | maintenanceReservationStart (resv : Nat)
  /-- BACKGROUND_GC (R469). -/
  | backgroundGc (set : Nat)
  /-- FOREGROUND_GC (R470). -/
  | foregroundGc (set : Nat)
  /-- GC_FACTOR_UPDATE (R470). -/
  | gcFactorUpdate
  /-- LEDGER_FAULT (R87). -/
  | ledgerFault (ledger : Ledger) (lhs rhs unit : Nat)
  /-- LEDGER_RECOUNT_WINDOW (R91). -/
  | ledgerRecountWindow
  /-- EVENT_HOLD_EXPIRY (R630). -/
  | eventHoldExpiry
  /-- EVENT_STORE_WRITE_DONE (R626). -/
  | eventStoreWriteDone
  /-- STASH_RETRY_PASS (R392). -/
  | stashRetryPass
  /-- CHECKPOINT_GROUP_COPY (R402). -/
  | checkpointGroupCopy
  /-- INDEX_SWEEP_PASS (R461). -/
  | indexSweepPass
  /-- INDEX_GROUP_REBUILD (R410). -/
  | indexGroupRebuild (group : Nat)
  /-- CLASSIFIER_SCRUB (R427). -/
  | classifierScrub (found : List CamError)
  /-- CLASSIFIER_BANK_REBUILD (R432). -/
  | classifierBankRebuild (bank : Nat) (verified : Bool)
  /-- ROW_SEAL_TIMER (R448). -/
  | rowSealTimer (meld : Nat)
  /-- ROW_PROGRAM_START (R447). -/
  | rowProgramStart (meld : Nat)
  /-- ROW_PROGRAM_COMPLETE (R449). -/
  | rowProgramComplete (meld : Nat) (failed : List ProgFail)
  /-- INDEX_MOVE_TO_MEDIA (R450). -/
  | indexMoveToMedia (addr : Nat)
  /-- CODEWORD_READ_COMPLETE (R451, R453): the codeword, and what its read found. -/
  | codewordReadComplete (addr : Nat) (found : CodewordRead)
  /-- DIE_FAILURE (R455). -/
  | dieFailure (die : Nat)
  /-- DIE_REBUILD (R456). -/
  | dieRebuild (die : Nat)
  /-- EXPIRY_EVALUATION (R460). -/
  | expiryEvaluation
  /-- HINT_RECLAIM (R462). -/
  | hintReclaim
  /-- MELD_AGE_CLOSE (R465). -/
  | meldAgeClose (meld : Nat)
  /-- MELD_ERASE_COMPLETE (R465). -/
  | meldEraseComplete (meld : Nat) (failed : List Nat)
  /-- REFRESH_RELOCATION (R472). -/
  | refreshRelocation (meld : Nat)
  /-- WEAR_LEVEL_RELOCATION (R473). -/
  | wearLevelRelocation (channel plane : Nat)
  /-- MELD_TABLE_SNAPSHOT (R480). -/
  | meldTableSnapshot
  /-- POWER_LOSS_RECOVERY (R481). -/
  | powerLossRecovery (found : RecoveryInput)
  /-- FULL_SCAN_REBUILD (R483). -/
  | fullScanRebuild (found : RecoveryInput)
  /-- FLUSH_SET_ERASE (R582). -/
  | flushSetErase (setB : Bool)
  /-- DRAM_REQUEST (R506). -/
  | dramRequest (channel sub : Nat) (arrived : List DramIn) (bad : List Nat)
  /-- REFRESH_COMMAND (R513). -/
  | refreshCommand (channel sub : Nat)
  /-- TEMP_MODE_READ (R513). -/
  | tempModeRead (channel : Nat) (above : Bool)
  /-- ACTIVATE_WINDOW_RESET (R515). -/
  | activateWindowReset (channel : Nat)
  /-- THROTTLE_END (R517). -/
  | throttleEnd (channel sub port : Nat)
  /-- TRUMP_LONG (R510). -/
  | trumpLong
  /-- PATROL_SCRUB (R495). -/
  | patrolScrub (channel lines : Nat) (found : List ScrubLine)
  /-- DRIFT_CHECK (R519). -/
  | driftCheck (channel driftPct : Nat) (tempMoved : Bool)
  /-- DRAM_LIVE_RETRAIN (R520). -/
  | dramLiveRetrain (channel : Nat) (finished : Bool) (eyes : List (Nat × Nat))
  /-- DRAM_CHANNEL_FAILURE (R528). -/
  | dramChannelFailure (channel : Nat) (cause : ChannelCause)
  /-- CIPHER_CLAIM (R546). -/
  | cipherClaim (requester keySlot : Nat) (urgent encrypt : Bool) (tweak nextBlock blocks : Nat)
  /-- CIPHER_RELEASE (R550). -/
  | cipherRelease (engine : Nat)
  /-- CIPHER_ENGINE_RETIRE (R558). -/
  | cipherEngineRetire (engine : Nat) (cause : EngineCause)
  /-- GENERATOR_RESEED (R553). -/
  | generatorReseed (gen : Nat)
  /-- NOISE_SOURCE_FAIL (R554). -/
  | noiseSourceFail (sourceB repetition : Bool)
  /-- NOISE_SOURCE_REJOIN (R554). -/
  | noiseSourceRejoin (sourceB : Bool)
  /-- MASK_GENERATOR_STOP (R555). -/
  | maskGeneratorStop (gen : Nat)
  /-- SUPPLY_V_WARN (R564). -/
  | supplyVWarn (mv : Nat)
  /-- SUPPLY_ABOVE_V_RESUME (R563). -/
  | supplyAboveVResume (mv : Nat)
  /-- SUPPLY_BELOW_V_RESUME (R563). -/
  | supplyBelowVResume (mv : Nat)
  /-- RESUME_HOLD_END (R565). -/
  | resumeHoldEnd
  /-- SUPPLY_V_BOR (R566). -/
  | supplyVBor (mv : Nat)
  /-- DIP_TIMEOUT (R563). -/
  | dipTimeout
  /-- SUPPLY_HIGH (R561). -/
  | supplyHigh (mv : Nat)
  /-- FLUSH_COMPLETE (R584). -/
  | flushComplete (durUs energyMj endMv : Nat)
  /-- BANK_EXHAUSTED (R585). -/
  | bankExhausted (mv : Nat)
  /-- COLD_START (R675). -/
  | coldStart (boot : BootInput)
  /-- BANK_MEASUREMENT (R572). -/
  | bankMeasurement (res : Option BankMeasure)
  /-- BANK_FAULT (R570). -/
  | bankFault (kind : BankFaultKind) (mv : Nat)
  /-- BANK_FAULT_RETRY (R570). -/
  | bankFaultRetry (res : Option BankMeasure)
  /-- BANK_BELOW_35V (R687). -/
  | bankBelow35v (mv : Nat)
  /-- BANK_BELOW_2V (R687). -/
  | bankBelow2v (mv : Nat)
  /-- BANK_CHARGED (R574). -/
  | bankCharged (mv : Nat)
  /-- HEALTH_STALE (R575). -/
  | healthStale
  /-- POWER_STATE_ENTRY (R588). -/
  | powerStateEntry
  /-- POWER_STATE_EXIT (R590). -/
  | powerStateExit
  /-- IST_SLICE (R640). -/
  | istSlice (res : TestResult) (measure : Option BankMeasure)
  /-- TEST_OVERDUE (R643). -/
  | testOverdue (target inst : Nat)
  /-- FREEZE_ENTRY (R647). -/
  | freezeEntry
  /-- THAW (R650). -/
  | thaw
  /-- FRZ_STATUS (R648). -/
  | frzStatus
  /-- FRZ_CHAIN (R649). -/
  | frzChain
  /-- FRZ_MEM (R648). -/
  | frzMem (memory word : Nat)
  /-- SUPPLY_ABOVE_7V (R47). -/
  | supplyAbove7v (mv : Nat)
  /-- SUPPLY_BELOW_7V (R47). -/
  | supplyBelow7v (mv : Nat)
  /-- PLL_LOCK_LOSS (R51). -/
  | pllLockLoss (pll : Nat)
  /-- MANAGEMENT_TAKEOVER_COMPLETE (R31). -/
  | managementTakeoverComplete
  /-- POWER_STATE_EXIT_COMPLETE (R204). -/
  | powerStateExitComplete
  /-- TASK_CODE_INVALID (R259). -/
  | taskCodeInvalid (set : Nat)
  /-- SHARD_READ_DATA (R318). -/
  | shardReadData (session seq holder : Nat) (committed : Bool) (version : Nat) (sh : Shard)
  /-- SHARD_READ_ALLOWANCE_EXPIRY (R318). -/
  | shardReadAllowanceExpiry (session seq : Nat)
  /-- RX_LOW_POWER_IDLE (R367). -/
  | rxLowPowerIdle (lane : Nat) (enter : Bool)
  deriving DecidableEq, Repr

end Sys2Proof
end

