-- ==== Sys2Proof/WellFormed.lean ====
section
/-! DEFINITION. Well-formed commands: each operand in the range that the manual gives the register, index or field it
stands for. A meaning is defined on ill-formed commands too; it answers a next state in which nothing happens wherever the
manual's tables have no such row. -/

namespace Sys2Proof

/-- A value of `w` bits. -/
def fits (w x : Nat) : Bool := decide (x < 2 ^ w)

/-- A number below `n`. -/
def below (n x : Nat) : Bool := decide (x < n)

/-- The fields of a client datagram (Table 06-10) with its trunk lane. -/
def dgramFits (d : Dgram) : Bool :=
  below 512 d.lane && fits 128 d.srcAddr && fits 16 d.srcPort && fits 16 d.magic && fits 4 d.version && fits 8 d.kind &&
    fits 64 d.session && fits 32 d.sequence && fits 32 d.wordA && fits 32 d.wordB

/-- The fields of a Walin header (Table 06-4). -/
def hdrFits (h : Hdr) : Bool :=
  fits 4 h.version && fits 4 h.kind && fits 3 h.hop && fits 5 h.via && fits 11 h.dst && fits 11 h.src && fits 16 h.laneSeq &&
    fits 16 h.payload && fits 64 h.session && fits 32 h.sequence && fits 64 h.word

/-- A shard's fields (Table 09-2), its key of 1 to 256 bytes (R93) and its value of at most 64 MiB (R103). -/
def shardFits (h : Shard) : Bool :=
  below 4096 h.ns && fits 128 h.digest && fits 64 h.stampTime && fits 16 h.stampTie && fits 11 h.stampNode && fits 64 h.version &&
    fits 4 h.suit && decide (1 ≤ h.key.length ∧ h.key.length ≤ 256 ∧ h.whole ≤ Config.maxValue ∧ h.value.length ≤ Config.maxValue)

/-- Requests of requester ports (Table 10-4). -/
def dramInsFit (l : List DramIn) : Bool :=
  l.all (fun r => below 16 r.port && (match r.owner with | some o => fits 32 o.2 | none => true))

/-- Symbols of a line's code word (R493): 80 in all. -/
def symbolsFit (l : List Nat) : Bool := l.all (below 80)

/-- Lines of a sub-channel (R491, R496). -/
def scrubFits (l : List ScrubLine) : Bool :=
  l.all (fun x => below 2 x.sub && below 32 x.bank && below 65536 x.row && below 128 x.col && symbolsFit x.bad)

/-- A measurement whose results fit their fields (R572, Table 12-10): 24 bits of µF, 16 bits of 0.1 mΩ. -/
def measureFits : Option BankMeasure → Bool
  | none => true
  | some m => decide (269 ≤ m.fallUv) && below (65536 * 500) m.stepUv

/-- Pages that a scan cannot read are data pages of melds of the part (R438, R439). -/
def foundFits (r : RecoveryInput) : Bool := r.lost.all (fun x => below Config.melds x.meld && below 92160 x.page)

/-- Dies and planes of the part (R436). -/
def progFailsFit (l : List ProgFail) : Bool := l.all (fun f => below 512 f.die && below 4 f.plane)

/-- Units of the classifier. -/
def camErrorsFit (l : List CamError) : Bool := l.all (fun e => below 32768 e.unit)

/-- An entry of 64 bytes (R236). -/
def fetchedFits : Option Fetched → Bool
  | none => true
  | some f => fits 512 f.entry

/-- Channels and engines of the part. -/
def bootFits (b : BootInput) : Bool := b.badChannels.all (below 12) && b.badEngines.all (below 16)

/-- The command's operands lie in the ranges of the manual. -/
def wellFormed : Instr → Bool
  | .sqTailWrite port ctx tail head =>
    below 4 port && below 1040384 ctx && fits 16 tail && (match head with | none => true | some h => fits 16 h)
  | .cqHeadWrite port ctx head => below 4 port && below 1040384 ctx && fits 16 head
  | .submissionEntryFetch ctx res => below 1040384 ctx && fetchedFits res
  | .intakeBacklogResume => true
  | .admissionStep session => fits 64 session
  | .heldSequenceRelease session => fits 64 session
  | .holdLimitExpiry session seq => fits 64 session && fits 32 seq
  | .get session seq _ => fits 64 session && fits 32 seq
  | .put session seq _ => fits 64 session && fits 32 seq
  | .delete session seq => fits 64 session && fits 32 seq
  | .putAt session seq _ => fits 64 session && fits 32 seq
  | .append session seq _ => fits 64 session && fits 32 seq
  | .existsKey session seq => fits 64 session && fits 32 seq
  | .compareAndPut session seq _ => fits 64 session && fits 32 seq
  | .expireHint session seq => fits 64 session && fits 32 seq
  | .enumerate session seq _ => fits 64 session && fits 32 seq
  | .trick session seq _ _ => fits 64 session && fits 32 seq
  | .flushSession session seq => fits 64 session && fits 32 seq
  | .journalQuery session seq _ => fits 64 session && fits 32 seq
  | .overlapRelease session seq => fits 64 session && fits 32 seq
  | .commitStep session seq => fits 64 session && fits 32 seq
  | .postHeldCompletion ctx => below 1040384 ctx
  | .coalesceTimerExpiry ctx => below 1040384 ctx
  | .coreFailure core => below 32 core
  | .coreRoleDrain core => below 32 core
  | .settingRead box => below 64 box
  | .settingWrite box => below 64 box
  | .namespaceRelease box => below 64 box
  | .namespaceFreed ns => below 4096 ns
  | .keyGenerate box => below 64 box
  | .keyImport box => below 64 box
  | .keyZeroize box => below 64 box
  | .kikInstall box => below 64 box
  | .kikLock box => below 64 box
  | .timeSet box => below 64 box
  | .calendarSet box => below 64 box
  | .eventStoreClear box => below 64 box
  | .classifierOrderedInsert box => below 64 box
  | .queueCreate box => below 64 box
  | .queueDelete box => below 64 box
  | .queueDeleteComplete ctx => below 1040384 ctx
  | .sessionRelease box => below 64 box
  | .sessionList box => below 64 box
  | .mbxJournalQuery box => below 64 box
  | .ledgerSnapshot box => below 64 box
  | .eventRead box => below 64 box
  | .diagUnlock box => below 64 box
  | .diagUnlockExpiry port => below 4 port
  | .mailboxUnknownCommand box => below 64 box
  | .updateBegin box => below 64 box
  | .updateData box => below 64 box
  | .updateFinish box => below 64 box
  | .updateActivate box => below 64 box
  | .updateCommit box => below 64 box
  | .updateAbort box => below 64 box
  | .updateStatus box => below 64 box
  | .activationPreload _ => true
  | .activationWindowStart => true
  | .activationMidpoint _ => true
  | .activationWindowEnd _ => true
  | .autoCommit => true
  | .bootTimeout => true
  | .moduleReset set => below 16 set
  | .moduleResetExecute => true
  | .selfTest set _ => below 16 set
  | .eventTail set => below 16 set
  | .recoveryWrite set => below 16 set
  | .recoveryCommit set => below 16 set
  | .uartRecoveryWrite _ => true
  | .uartRecoveryCommit _ => true
  | .uartRecoveryStatus _ => true
  | .smbusRecoveryWrite _ _ => true
  | .smbusRecoveryCommit _ _ => true
  | .smbusRecoveryStatus _ => true
  | .sidebandIdentityRead _ => true
  | .sidebandStatusRead lidTemp _ => fits 8 lidTemp
  | .registerWrite port bar offset size value =>
    below 4 port && below 6 bar && fits 64 offset && fits 8 size && fits 64 value
  | .rcRegisterRead port place size => below 4 port && below 6 place.bar && fits 64 place.offset && fits 8 size
  | .registerLowHalfRead port offset => below 4 port && fits 64 offset
  | .barBadAccess port bar offset size _ => below 4 port && below 6 bar && fits 64 offset && fits 8 size
  | .configRequest c => below 4 c.port && fits 12 c.reg && (match c.write with | none => true | some v => fits 32 v)
  | .perstDeassert port bifSel _ => below 4 port && below 4 bifSel
  | .portReset port _ => below 4 port
  | .allPortsReset => true
  | .hostLinkChange port _ width rate => below 4 port && below 17 width && fits 8 rate
  | .wakeRelease => true
  | .clientOpen d => dgramFits d
  | .clientCommand d => dgramFits d
  | .clientStage d => dgramFits d
  | .clientWithdraw d => dgramFits d
  | .clientClose d => dgramFits d
  | .clientCloseComplete session => fits 64 session
  | .clientSessionIdle session => fits 64 session
  | .stageIdleExpiry session handle => fits 64 session && fits 16 handle
  | .clientDatagramDrop d => dgramFits d
  | .clientFrameFiltered lane => below 512 lane
  | .neighbourDiscovery lane _ target sender senderMac =>
    below 512 lane && fits 128 target && fits 128 sender && fits 48 senderMac
  | .clientCompletionDiscard trunk => below 64 trunk
  | .hello lane node _ farLane mac serial =>
    below 512 lane && below 2048 node && below 512 farLane && fits 48 mac && fits 128 serial
  | .helloTimer => true
  | .credit lane nextExp _ counts =>
    below 512 lane && fits 16 nextExp && (decide (counts.length = 5) && counts.all (fits 16))
  | .creditReturnTimer lane => below 512 lane
  | .timeFrame lane _ => below 512 lane
  | .timeExchangeTimer => true
  | .revoke lane revoked final _ => below 512 lane && below 512 revoked && fits 16 final
  | .laneFailure lane _ => below 512 lane
  | .route src serial trunks _ validAt =>
    below 2048 src && fits 128 serial && (trunks.all (below 2048) && decide (trunks.length ≤ 512)) &&
    fits 64 validAt
  | .routeFloodTimer => true
  | .routeRecompute => true
  | .fabricForward lane h => below 512 lane && hdrFits h
  | .fabricFrameDrop lane _ => below 512 lane
  | .nocreditDrop lane h => below 512 lane && hdrFits h
  | .voidFrame lane h => below 512 lane && hdrFits h
  | .fabricOpen src request => below 2048 src && fits 32 request
  | .fabricOpenReply src request session status =>
    below 2048 src && fits 32 request && fits 64 session && fits 16 status
  | .fabricAck peer through grant pairs =>
    below 2048 peer && fits 32 through && fits 32 grant && pairs.all (fun p => fits 32 p.1 && fits 16 p.2)
  | .fabricClose session => fits 64 session
  | .sessionRetransmit peer seq => below 2048 peer && fits 32 seq
  | .creditReturn session seq units => fits 64 session && fits 32 seq && fits 32 units
  | .idleCreditReturnTimer peer => below 2048 peer
  | .shardHold session seq wanted times sh _ =>
    fits 64 session && fits 32 seq && fits 32 wanted && fits 64 times.hold && fits 60 times.slot && shardFits sh
  | .shardCommit session seq ns digest stampTime stampTie stampNode =>
    fits 64 session && fits 32 seq && below 4096 ns && fits 128 digest && fits 64 stampTime &&
    fits 16 stampTie && below 2048 stampNode
  | .shardDiscard session seq ns digest stampTime stampTie stampNode =>
    fits 64 session && fits 32 seq && below 4096 ns && fits 128 digest && fits 64 stampTime &&
    fits 16 stampTie && below 2048 stampNode
  | .decide session seq ns digest stampTime stampTie stampNode _ =>
    fits 64 session && fits 32 seq && below 4096 ns && fits 128 digest && fits 64 stampTime &&
    fits 16 stampTie && below 2048 stampNode
  | .shardRead session seq ns _ => fits 64 session && fits 32 seq && below 4096 ns
  | .rebuildWrite session seq sh => fits 64 session && fits 32 seq && shardFits sh
  | .fabricRequestInvalid session seq code => fits 64 session && fits 32 seq && fits 8 code
  | .orderRequest src request ns digest mapCrc _ until_ =>
    below 2048 src && fits 32 request && below 4096 ns && fits 128 digest && fits 32 mapCrc && fits 64 until_
  | .orderReply src request _ => below 2048 src && fits 32 request
  | .orderTimeout request => fits 32 request
  | .writeOrderExpiry ns digest => below 4096 ns && fits 128 digest
  | .shardHoldDeadline session seq => fits 64 session && fits 32 seq
  | .decideTimeout session seq => fits 64 session && fits 32 seq
  | .pendingShardResolve stampTime stampTie stampNode _ => fits 64 stampTime && fits 16 stampTie && below 2048 stampNode
  | .peerFailure node => below 2048 node
  | .leadHorizonEnd node => below 2048 node
  | .shardRebuild ns digest => below 4096 ns && fits 128 digest
  | .laneRetrainWindowStart lane => below 512 lane
  | .laneTrainingDone lane pre main post => below 512 lane && fits 6 pre && fits 6 main && fits 6 post
  | .laneTrainingTimeout lane => below 512 lane
  | .blockLock lane => below 512 lane
  | .confirmPass lane => below 512 lane
  | .falseLock lane => below 512 lane
  | .lockLoss lane => below 512 lane
  | .hiBerWindow lane _ => below 512 lane
  | .attemptCountReset lane => below 512 lane
  | .laneFrameReceive lane _ _ => below 512 lane
  | .laneFrameTransmit lane => below 512 lane
  | .pauseReceived lane pfc quanta =>
    below 512 lane && (match pfc with | none => true | some p => below 8 p) && fits 16 quanta
  | .pauseExpiry lane => below 512 lane
  | .pauseRepeatTimer lane => below 512 lane
  | .ringFrameTaken lane => below 512 lane
  | .pauseWatchdog lane => below 512 lane
  | .pauseHoldoffEnd lane => below 512 lane
  | .lpiEntry lane => below 512 lane
  | .lpiWake lane => below 512 lane
  | .slotBoundary => true
  | .maintenanceReservationStart _ => true
  | .backgroundGc set => below 32 set
  | .foregroundGc set => below 32 set
  | .gcFactorUpdate => true
  | .ledgerFault _ _ _ _ => true
  | .ledgerRecountWindow => true
  | .eventHoldExpiry => true
  | .eventStoreWriteDone => true
  | .stashRetryPass => true
  | .checkpointGroupCopy => true
  | .indexSweepPass => true
  | .indexGroupRebuild group => below Config.groups group
  | .classifierScrub found => camErrorsFit found
  | .classifierBankRebuild bank _ => below 16 bank
  | .rowSealTimer meld => below Config.melds meld
  | .rowProgramStart meld => below Config.melds meld
  | .rowProgramComplete meld failed => below Config.melds meld && progFailsFit failed
  | .indexMoveToMedia addr => fits 40 addr
  | .codewordReadComplete addr found => fits 40 addr && found.bad.all (below 4480)
  | .dieFailure die => below 512 die
  | .dieRebuild die => below 512 die
  | .expiryEvaluation => true
  | .hintReclaim => true
  | .meldAgeClose meld => below Config.melds meld
  | .meldEraseComplete meld failed => below Config.melds meld && failed.all (below Config.blkTotal)
  | .refreshRelocation meld => below Config.melds meld
  | .wearLevelRelocation channel plane => below 32 channel && below 4 plane
  | .meldTableSnapshot => true
  | .powerLossRecovery found => foundFits found
  | .fullScanRebuild found => foundFits found
  | .flushSetErase _ => true
  | .dramRequest channel sub arrived bad => below 12 channel && below 2 sub && dramInsFit arrived && symbolsFit bad
  | .refreshCommand channel sub => below 12 channel && below 2 sub
  | .tempModeRead channel _ => below 12 channel
  | .activateWindowReset channel => below 12 channel
  | .throttleEnd channel sub port => below 12 channel && below 2 sub && below 16 port
  | .trumpLong => true
  | .patrolScrub channel _ found => below 12 channel && scrubFits found
  | .driftCheck channel _ _ => below 12 channel
  | .dramLiveRetrain channel _ eyes => below 12 channel && eyes.all (fun e => below 65 e.1 && below 65 e.2)
  | .dramChannelFailure channel _ => below 12 channel
  | .cipherClaim requester keySlot _ _ tweak _ _ => below 16 requester && below 4097 keySlot && fits 128 tweak
  | .cipherRelease engine => below 16 engine
  | .cipherEngineRetire engine _ => below 16 engine
  | .generatorReseed gen => below 17 gen
  | .noiseSourceFail _ _ => true
  | .noiseSourceRejoin _ => true
  | .maskGeneratorStop gen => below 17 gen
  | .supplyVWarn mv => decide (mv ≤ 10706)
  | .supplyAboveVResume mv => fits 16 mv && decide (10890 ≤ mv)
  | .supplyBelowVResume mv => decide (mv ≤ 11110)
  | .resumeHoldEnd => true
  | .supplyVBor mv => decide (mv ≤ 9090)
  | .dipTimeout => true
  | .supplyHigh mv => fits 16 mv && decide (13068 ≤ mv)
  | .flushComplete _ _ _ => true
  | .bankExhausted mv => fits 16 mv
  | .coldStart boot => bootFits boot
  | .bankMeasurement res => measureFits res
  | .bankFault _ mv => fits 16 mv
  | .bankFaultRetry res => measureFits res
  | .bankBelow35v mv => fits 16 mv
  | .bankBelow2v mv => fits 16 mv
  | .bankCharged mv => fits 16 mv
  | .healthStale => true
  | .powerStateEntry => true
  | .powerStateExit => true
  | .istSlice _ _ => true
  | .testOverdue target inst => below 7 target && below 1024 inst
  | .freezeEntry => true
  | .thaw => true
  | .frzStatus => true
  | .frzChain => true
  | .frzMem memory word => fits 32 memory && fits 32 word
  | .supplyAbove7v mv => fits 16 mv
  | .supplyBelow7v mv => fits 16 mv
  | .pllLockLoss pll => below 513 pll
  | .managementTakeoverComplete => true
  | .powerStateExitComplete => true
  | .taskCodeInvalid set => below 16 set
  | .shardReadData session seq holder _ version sh =>
    fits 64 session && fits 32 seq && below 2048 holder && fits 64 version && shardFits sh
  | .shardReadAllowanceExpiry session seq => fits 64 session && fits 32 seq
  | .rxLowPowerIdle lane _ => below 512 lane

/-- A command whose operands lie in the ranges of the manual. -/
abbrev WellFormed (i : Instr) : Prop := wellFormed i = true

end Sys2Proof
end

