-- ==== Sys2Proof/Decode.lean ====
section
/-! DEFINITION. The command that a word of the opcode table spells. No row of the table gives bits, so no word spells a
command. -/

namespace Sys2Proof

/-- The command of a word `w` of `nbits` bits, numbered as the opcode table numbers them: none of its rows gives bits. -/
def decodeTableWord (_nbits _w : Nat) : Option Instr := none

end Sys2Proof
end

