-- ==== Sys2Proof/Machine/State.lean ====
section
/-! DEFINITION. The state of the block as plain data, block by block, and the state right after reset. -/

namespace Sys2Proof.Machine

open Sys2Proof

/-! ## Commands, sessions and the journal -/

/-- An acceptance stamp (R57): fabric time, tie-break counter, accepting node. -/
structure Stamp where
  time : Nat := 0
  tie  : Nat := 0
  node : Nat := 0
  deriving DecidableEq, Repr

/-- The fields of a command (R108, Table 03-4), with what the Dealer has read for it: the buffers of its data list,
the key bytes, and the write data when it is already in the module. -/
structure Cmd where
  opcode     : Nat := 0
  ns         : Nat := 0
  cls        : Nat := 0
  suitGiven  : Bool := false
  suit       : Nat := 0
  keyLength  : Nat := 0
  key        : Bytes := []
  length     : Nat := 0
  aux        : Nat := 0
  area       : Nat := 0
  listCount  : Nat := 0
  buffers    : List Descriptor := []
  listBad    : Bool := false
  dmaBad     : Bool := false
  short      : Bool := false
  stage      : Nat := 0
  data       : Option Bytes := none
  deriving DecidableEq, Repr

/-- A command that has arrived and is neither accepted nor refused: a fetched submission entry, or a datagram held in
the reorder window (R142, R161). `queued` says it waits for its admission step. -/
structure Arrived where
  session : Nat
  seq     : Nat
  cmd     : Cmd
  at_     : Nat
  queued  : Bool
  deriving DecidableEq, Repr

/-- The effect a command brings about in its commit step (R29). -/
inductive Effect where
  | none
  | store  (ns : Nat) (key value : Bytes) (suit : Nat)
  | delete (ns : Nat) (key : Bytes)
  | hint   (ns scope suit lo hi : Nat)
  | trick
  deriving DecidableEq, Repr

/-- What an executed command will answer: its status, version, value length and read data, and its effect. -/
structure Plan where
  status   : Nat := 0
  version  : Nat := 0
  vlen     : Nat := 0
  data     : Bytes := []
  effect   : Effect := .none
  deriving DecidableEq, Repr

/-- How far an accepted command has come. -/
inductive Phase where
  | waiting | ready | planned
  deriving DecidableEq, Repr

/-- The coordinator's account of a protected command (R311 to R318). -/
structure Protect where
  digest    : Nat := 0
  holders   : List Nat := []
  answered  : List Nat := []
  version   : Nat := 0
  deadline  : Nat := 0
  decided   : Option Bool := Option.none
  recorded  : List Nat := []
  decideAt  : Nat := 0
  shards    : List Shard := []
  asked     : Nat := 0
  sent      : List Nat := []
  gone      : List Nat := []
  read      : Bool := false
  failed    : Bool := false
  deriving DecidableEq, Repr

/-- An accepted command without an outcome. -/
structure InFlight where
  session  : Nat
  seq      : Nat
  cmd      : Cmd
  ns       : Nat
  stamp    : Stamp
  medium   : Bool
  suit     : Nat
  fast     : Bool
  core     : Nat := 0
  deadline : Nat
  bound    : Nat
  phase    : Phase := .waiting
  plan     : Plan := {}
  kitty    : Nat := 0
  units    : Nat := 0
  record   : Nat := 0
  tomb     : Nat := 0
  creates  : Bool := false
  trick    : Option Nat := Option.none
  qos      : Nat := 0
  tenant   : Nat := 0
  scan     : Nat := 0
  row      : Option Nat := Option.none
  placed   : Option Nat := Option.none
  landed   : Bool := false
  prot     : Option Protect := Option.none
  asked    : Nat := 0
  carried  : Bool := false
  /-- A line of its staged data was lost (R527). -/
  spoiled  : Bool := false
  deriving DecidableEq, Repr

/-- An entry of the overlap table (R153). `stop` is none for a range to the end of the value or the whole key. -/
structure Overlap where
  session  : Nat
  seq      : Nat
  ns       : Nat
  digest   : Nat
  start    : Nat
  stop     : Option Nat
  write    : Bool
  stamp    : Stamp
  deadline : Nat
  deriving DecidableEq, Repr

/-- An outcome record (R72, Table 02-3). -/
structure Outcome where
  status    : Nat := 0
  done      : Bool := false
  delivered : Bool := false
  cls       : Nat := 0
  vlen      : Nat := 0
  seqCheck  : Nat := 0
  deriving DecidableEq, Repr

/-- A detail ring entry (R73, Table 02-4); its CRC is computed when the entry is read. -/
structure RingEntry where
  session   : Nat
  seq       : Nat
  opcode    : Nat
  done      : Bool
  delivered : Bool
  member    : Bool
  fast      : Bool
  status    : Nat
  digest    : Nat
  stamp     : Stamp
  vlen      : Nat
  ns        : Nat
  suit      : Nat
  cls       : Nat
  compNs    : Nat := 0
  deriving DecidableEq, Repr

/-- A completion, before it is written to a queue or sent as a datagram (R240, R333). -/
structure Completion where
  session : Nat
  seq     : Nat
  stamp   : Nat
  version : Nat
  status  : Nat
  orig    : Nat := 0
  vlen    : Nat
  data    : Bytes := []
  /-- The buffers that the data goes to, in list order (R237). -/
  bufs    : List Descriptor := []
  deriving DecidableEq, Repr

/-- The kinds of session (R138). -/
inductive Kind where
  | host | client | fabric
  deriving DecidableEq, Repr

/-- A fabric request sent and not yet covered by an ACK (Table 06-8), kept to be resent (R301). `own` names the
coordinator's command it belongs to. -/
structure Request where
  seq      : Nat := 0
  units    : Nat
  at_      : Nat := 0
  code     : Nat
  own      : Nat × Nat
  /-- Its frames are of bounded traffic (Table 06-4). -/
  bounded  : Bool := true
  /-- A shard returned to its reader, not a request of Table 06-8; `own` names the SHARD_READ. -/
  answer   : Bool := false
  ns       : Nat := 0
  digest   : Nat := 0
  stamp    : Stamp := {}
  ok       : Bool := false
  key      : Bytes := []
  sh       : Option Shard := Option.none
  deadline : Nat := 0
  /-- The write's deadline slot (R317). -/
  slot     : Nat := 0
  medium   : Bool := false
  version  : Nat := 0
  deriving DecidableEq, Repr

/-- What a fabric request asks of its receiver (Table 06-8). -/
inductive FabReq where
  | creditReturn (units : Nat)
  | hold (sh : Shard) (slot : Nat) (medium : Bool)
  | commit (ns digest : Nat) (stamp : Stamp)
  | discard (ns digest : Nat) (stamp : Stamp)
  | decide (ns digest : Nat) (stamp : Stamp) (ok : Bool)
  | read (ns : Nat) (key : Bytes)
  | rebuild (sh : Shard)
  | invalid
  deriving DecidableEq, Repr

/-- A fabric session at its receiver (R299 to R305): the opener's node, the units granted and used, the sequence
completed through, and later sequences done out of order with their status. -/
structure Credit where
  peer    : Nat := 0
  grant   : Nat := 0
  used    : Nat := 0
  through : Nat := 0
  ahead   : List (Nat × Nat) := []
  deriving DecidableEq, Repr

/-- A fabric session at its opener: the identifier the receiver gave, what it granted and what was charged, the requests
not yet acknowledged, and the units wanted for them. -/
structure PeerLink where
  session  : Nat
  grant    : Nat := 0
  charged  : Nat := 0
  unacked  : List Request := []
  idleAt   : Nat := 0
  wanted   : Nat := 0
  nextSeq  : Nat := 1
  deriving DecidableEq, Repr

/-- A session that has not been released (R70, R72, R138, R142, R143). -/
structure Session where
  kind      : Kind
  ctx       : Nat
  port      : Nat := 0
  clientId  : Nat := 0
  trunk     : Nat := 0
  addr      : Nat := 0
  udp       : Nat := 0
  maxDgram  : Nat := 0
  highest   : Nat := 0
  any       : Bool := false
  wrapped   : Bool := false
  next      : Nat := 1
  withdrawn : List Nat := []
  refusal   : Option (Nat × Nat) := Option.none
  draining  : Bool := false
  deleted   : Bool := false
  release   : Bool := false
  closer    : Option (Nat × Nat) := Option.none
  lastAt    : Nat := 0
  store     : Tbl Outcome := []
  /-- Completions sent to a client, by sequence mod 4,096, to be sent again on WITHDRAW (R169). -/
  sent      : Tbl Completion := []
  credit    : Credit := {}
  deriving DecidableEq, Repr

/-- A stage of write data (R332). -/
structure Stage where
  handle : Nat
  bytes  : List Host.Cell := []
  total  : Option Nat := Option.none
  at_    : Nat
  deriving DecidableEq, Repr

/-- A host queue pair (R230 to R232, R241, R243 to R249, R256). -/
structure Queue where
  session  : Nat
  port     : Nat
  sqSize   : Nat
  cqSize   : Nat
  sqBase   : Nat
  cqBase   : Nat
  vector   : Nat
  irq      : Bool
  coCount  : Nat
  coTime   : Nat
  fetch    : Nat := 0
  tail     : Nat := 0
  nextSeq  : Nat := 1
  retried  : Bool := false
  error    : Bool := false
  cqHead   : Nat := 0
  cqTail   : Nat := 0
  phase    : Bool := true
  unsig    : Nat := 0
  unsigAt  : Nat := 0
  held     : List Completion := []
  deleting : Bool := false
  box      : Option Nat := Option.none
  deriving DecidableEq, Repr

/-- A queue context (R230, R234, R235). -/
structure Ctx where
  generation : Nat := 0
  spent      : Bool := false
  session    : Option Nat := Option.none
  queue      : Option Queue := Option.none
  deriving DecidableEq, Repr

/-- The Dealer (Table 01-10, R153, R209). -/
structure Dealer where
  taken       : Nat := 0
  fastPath    : Nat := 0
  corePath    : Nat := 0
  dups        : Nat := 0
  withdrawn   : Nat := 0
  oow         : Nat := 0
  discards    : Nat := 0
  stalls      : Nat := 0
  /-- The slot last counted in `stalls` (Table 01-10). -/
  stallSlot   : Option Nat := Option.none
  /-- The slot whose fallback searches are counted, and their number (R431). -/
  searchSlot  : Nat := 0
  searchUsed  : Nat := 0
  overlapFull : Nat := 0
  redispatch  : Nat := 0
  unrecorded  : Nat := 0
  arrived     : List Arrived := []
  inflight    : List InFlight := []
  overlap     : List Overlap := []
  fetches     : List Nat := []
  backlog     : List Nat := []
  cached      : List Nat := []
  deriving DecidableEq, Repr

/-- The journal (R70 to R76, R79, R86 to R92, Tables 02-6 to 02-8). -/
structure Journal where
  ring        : Tbl RingEntry := []
  ringHead    : Nat := 0
  openLost    : Nat := 0
  accepted    : Nat := 0
  completed   : Nat := 0
  fault       : Nat := 0
  recounts    : Nat := 0
  resets      : Nat := 0
  refusing    : List Ledger := []
  window      : Option Nat := Option.none
  lastRecount : List (Ledger × Nat) := []
  lastReset   : List (Ledger × Nat) := []
  resetAsked  : Bool := false
  deriving DecidableEq, Repr

/-- Namespace settings and state (Tables 03-1 to 03-3, 06-6). `spare` is what page 0x0505 holds in the holder fields beyond
the holder count. -/
structure Namespace where
  state    : Nat := 0
  medium   : Bool := false
  imported : Bool := false
  protect  : Nat := 0
  mirror   : Nat := 0
  spreadK  : Nat := 0
  spreadM  : Nat := 0
  suit     : Nat := 0
  keySlot  : Nat := 0
  quota    : Nat := 0
  wroteKey : Nat := 0
  digestKey : Nat := 0
  bytes    : Nat := 0
  objects  : Nat := 0
  writes   : Nat := 0
  holders  : List Nat := []
  spare    : List Nat := []
  deriving DecidableEq, Repr

/-! ## The Ante unit -/

/-- A calendar resource (Table 04-3). -/
inductive Res where
  | die (d : Nat)
  | plane (p : Nat)
  | channel (c : Nat)
  | trunk (client : Bool) (t : Nat)
  | hostIn (p : Nat)
  | hostOut (p : Nat)
  | core (role : Nat)
  | dram
  | cipher
  | index
  deriving DecidableEq, Repr

/-- The holder of a reservation. -/
inductive Owner where
  | command (session seq : Nat)
  | row (meld : Nat)
  | maint (id : Nat)
  deriving DecidableEq, Repr

/-- Kinds of maintenance reservation (Table 04-7). -/
inductive Maint where
  | backgroundGc | foregroundGc | expiryErase | relocation | dramRetrain | laneRetrain | testSlice
  | bankRebuild | roleDrain | activation | recount | flushErase | groupRebuild | shardRebuild | sweep
  deriving DecidableEq, Repr

/-- One reservation: `amount` of `res` in the slot with number `slot` (fabric time div 16,000 ns). -/
structure Resv where
  res    : Res
  slot   : Nat
  amount : Nat
  owner  : Owner
  qos    : Nat := 0
  d7     : Bool := false
  moves  : Nat := 0
  deriving DecidableEq, Repr

/-- A maintenance reservation as a whole. -/
structure MaintResv where
  id      : Nat
  kind    : Maint
  target  : Nat
  first   : Nat
  slots   : Nat
  firm    : Bool
  started : Bool := false
  /-- A role drain drawn from the fault reserve of its pool (R32). -/
  drawn   : Bool := false
  deriving DecidableEq, Repr

/-- A deferred program debit (R196); `bytes` of record stand for the channel, cipher and DRAM bytes booked with it (R193). -/
structure Debit where
  set    : Nat
  amount : Nat
  bytes  : Nat
  owner  : Owner
  until_ : Nat
  deriving DecidableEq, Repr

/-- The Ante unit (ch 04). -/
structure Ante where
  bounds       : List Nat := [100, 500, 2000, 10000, 50000, 250000, 2000000]
  maxExitUs    : Nat := 250
  d7Limit      : Nat := 8
  gcPct        : Nat := 10
  relocPct     : Nat := 2
  testPct      : Nat := 5
  floors       : List Nat := [0, 0, 0, 0, 0, 0, 0, 0]
  ceilings     : List Nat := [100, 100, 100, 100, 100, 100, 100, 100]
  slot         : Nat := 0
  resv         : List Resv := []
  maint        : List MaintResv := []
  nextId       : Nat := 1
  /-- The first slot that standing reservations hold: those of the last 4,096 slots of the first horizon (Table 04-7). -/
  standFrom    : Nat := 61440
  debits       : List Debit := []
  grants       : Nat := 0
  refRetry     : Nat := 0
  refNever     : Nat := 0
  d7Moves      : Nat := 0
  trims        : List Int := []
  requests     : Nat := 0
  decideNsMax  : Nat := 0
  yielded      : Nat := 0
  d7Pinned     : Nat := 0
  exitRefuse   : Nat := 0
  windowRefuse : Nat := 0
  deriving DecidableEq, Repr

/-! ## Host ports -/

/-- One MSI-X vector: masked, pending. -/
structure Vec where
  addr    : Nat := 0
  data    : Nat := 0
  masked  : Bool := true
  pending : Bool := false
  deriving DecidableEq, Repr

/-- A host port (Tables 05-1, 05-6, R213 to R220, R228). -/
structure Port where
  inL0      : Bool := false
  width     : Nat := 0
  rate      : Nat := 0
  perst     : Bool := true
  /-- When PERST# was last asserted (R62). -/
  perstAt   : Nat := 0
  cfgAt     : Nat := 0
  cause     : Nat := 0
  mask      : Nat := 0
  unlock    : Option Nat := Option.none
  latch     : Option (Nat × Nat) := Option.none
  retrains  : Nat := 0
  /-- The link has been in L0 since the port's first training. -/
  wasUp     : Bool := false
  vecs      : Tbl Vec := []
  /-- Configuration space that software writes (R215, R223, log entry 90): Command, BAR0, BAR2, Device Control, Link Control
  and the masks of Advanced Error Reporting. -/
  command   : Nat := 0
  bar0      : Nat := 0
  bar2      : Nat := 0
  devCtl    : Nat := 0
  linkCtl   : Nat := 0
  aerMask   : Nat := 0
  aerCorr   : Nat := 0
  deriving DecidableEq, Repr

/-- A mailbox (Table 05-12). -/
structure Mailbox where
  busy     : Bool := false
  irq      : Bool := false
  status   : Nat := 0
  command  : Nat := 0
  page     : Nat := 0
  format   : Nat := 0
  target   : Nat := 0
  inLen    : Nat := 0
  outLen   : Nat := 0
  payload  : List Host.Cell := []
  deriving DecidableEq, Repr

/-- A task register set (Table 05-15). -/
structure Task where
  busy    : Bool := false
  code    : Nat := 0
  status  : Nat := 0
  arg     : Nat := 0
  result  : Nat := 0
  dataLen : Nat := 0
  data    : List Host.Cell := []
  deriving DecidableEq, Repr

/-- The host attachment (ch 05). -/
structure HostBlock where
  sampled   : Bool := false
  bifSel    : Nat := 0
  clkSep    : Bool := false
  ctxLimit  : Nat := 917504
  mgmtMask  : Nat := 15
  ctxMaxes  : List Nat := [917504, 917504, 917504, 917504]
  ports     : Tbl Port := []
  boxes     : Tbl Mailbox := []
  goQueue   : List Nat := []
  tasks     : Tbl Task := []
  ctxs      : Tbl Ctx := []
  doorErr   : Nat := 0
  badAccess : Nat := 0
  ctxMiss   : Nat := 0
  fetchRetry : Nat := 0
  wake      : Bool := false
  wakeAt    : Nat := 0
  /-- SMBALERT# is asserted (R677). -/
  alert     : Bool := false
  /-- PERST# deassertions before the 25 ms of R676: port and straps. -/
  early     : List (Nat × Nat × Bool) := []
  deriving DecidableEq, Repr

/-! ## Lanes and the fabric -/

/-- Lane states (Table 07-2, codes of LN_STATUS). -/
inductive LaneState where
  | off | waiting | training | locking | confirm | up | failed
  deriving DecidableEq, Repr

/-- Lane settings (Table 07-1). -/
structure LaneCfg where
  enabled   : Bool := true
  client    : Bool := false
  backplane : Bool := true
  flow      : Nat := 0
  vlanTag   : Bool := false
  wakeEn    : Bool := false
  txPcp     : Nat := 0
  vlanId    : Nat := 0
  pfcMask   : Nat := 0
  maxFrame  : Nat := 0
  lpiIdleUs : Nat := 0
  ringCells : Nat := 192
  xoff      : Nat := 64
  xon       : Nat := 24
  quanta    : Nat := 65535
  watchMs   : Nat := 50
  holdoffMs : Nat := 1000
  ringFrames : Nat := 256
  mac       : Option Nat := Option.none
  deriving DecidableEq, Repr

/-- How a received frame is marked (R354, R356). -/
inductive Mark where
  | good | void | bad | truncated
  deriving DecidableEq, Repr

/-- A frame in a receive ring: its stored bytes, its marks, the cells it holds of the lane's reserve and of the shared pool,
and whether link credit of the lane stands behind them. -/
structure RxFrame where
  bytes    : Bytes
  mark     : Mark
  reserve  : Nat
  shared   : Nat
  paid     : Bool := false
  deriving DecidableEq, Repr

/-- A frame queued for transmission. `seq` is the lane sequence of a credited frame, `hopClass` its class, `source` the lane
and class whose credit its cells hold; `cells` counts all the cells it holds, `reserve` those of them that are of the reserve
of fabric control frames (R37); `stomp` says that it leaves with the complemented FCS (R293), `resent` that it leaves first,
under R279. -/
structure TxFrame where
  bytes    : Bytes
  bounded  : Bool := true
  pause    : Bool := false
  pfc      : Bool := false
  credited : Bool := false
  hopClass : Nat := 0
  cells    : Nat := 0
  reserve  : Nat := 0
  seq      : Nat := 0
  at_      : Nat := 0
  resent   : Bool := false
  completes : Option (Nat × Nat) := Option.none
  source   : Option (Nat × Nat) := Option.none
  stomp    : Bool := false
  deriving DecidableEq, Repr

/-- A lane (ch 07) with its fabric side (R277 to R281, R294 to R297). -/
structure Lane where
  cfg        : LaneCfg := {}
  state      : LaneState := .off
  pending    : Option LaneCfg := Option.none
  since      : Nat := 0
  upAt       : Nat := 0
  attempts   : Nat := 0
  hiBer      : Bool := false
  hiBerAt    : Nat := 0
  rx         : List RxFrame := []
  tx         : List TxFrame := []
  counters   : Tbl Nat := []
  rollPend   : Nat := 0
  taps       : Nat × Nat × Nat := (0, 0, 0)
  trained    : Bool := false
  held       : Option Nat := Option.none
  heldFrom   : Nat := 0
  holdoff    : Option Nat := Option.none
  pauseSent  : Bool := false
  pauseAt    : Nat := 0
  txLpi      : Bool := false
  rxLpi      : Bool := false
  emptyAt    : Nat := 0
  wakeSlot   : Option Nat := Option.none
  hellos     : Nat := 0
  helloAt    : Nat := 0
  farNode    : Option Nat := Option.none
  farLane    : Nat := 0
  farMac     : Option Nat := Option.none
  inTrunk    : Bool := false
  revoking   : Bool := false
  seqOut     : Nat := 0
  seqIn      : Nat := 0
  kept       : List TxFrame := []
  creditAt   : Nat := 0
  naks       : List (Nat × Nat) := []
  creditCells : Nat := 48
  credit     : List Nat := [0, 0, 0, 0, 0]
  returned   : List Nat := [0, 0, 0, 0, 0]
  peerBack   : List Nat := [0, 0, 0, 0, 0]
  charged    : List Nat := [0, 0, 0, 0, 0]
  owed       : List Nat := [0, 0, 0, 0, 0]
  owedAt     : Nat := 0
  noCredit   : List Nat := []
  /-- The slot whose transit bytes are counted, and their number (R43, R289). -/
  shareSlot  : Nat := 0
  shareBytes : Nat := 0
  /-- The lane has left its fabric trunk and not joined one since (Table 06-15). -/
  outOf      : Bool := false
  deriving DecidableEq, Repr

/-- A client trunk (Table 06-9). -/
structure ClientTrunk where
  mask    : Nat := 0
  enabled : Bool := false
  v4      : Bool := false
  v6      : Bool := false
  pre4    : Nat := 0
  pre6    : Nat := 0
  addr4   : Nat := 0
  gw4     : Nat := 0
  addr6   : Nat := 0
  gw6     : Nat := 0
  waiting : List TxFrame := []
  peers   : List (Nat × Nat) := []
  deriving DecidableEq, Repr

/-- What a ROUTE frame told of one node (R285, R275). -/
structure NodeInfo where
  serial  : Nat := 0
  trunks  : List Nat := []
  valid   : Bool := false
  validAt : Nat := 0
  /-- When its list was last passed on (R285). -/
  passedAt : Nat := 0
  deriving DecidableEq, Repr

/-- A route (Table 06-3, Table 08-8). -/
structure Route where
  primary   : Option Nat := Option.none
  alternate : Option Nat := Option.none
  hops      : Nat := 0
  deriving DecidableEq, Repr

/-- A pending shard at a holder (R314, R317). -/
structure Pending where
  sh       : Shard
  session  : Nat
  seq      : Nat
  deadline : Nat
  kitty    : Nat
  medium   : Bool
  addr     : Nat
  deriving DecidableEq, Repr

/-- A write order or a recorded outcome at a lead or recorder (R311 to R314). -/
structure WriteOrder where
  ns      : Nat
  digest  : Nat
  src     : Nat
  until_  : Nat
  deriving DecidableEq, Repr

/-- An outcome that DECIDE recorded here (R314). -/
structure Decision where
  ns        : Nat
  digest    : Nat
  stampTime : Nat
  stampTie  : Nat
  stampNode : Nat
  ok        : Bool
  version   : Nat
  deriving DecidableEq, Repr

/-- An ORDER this module sent and waits for (R311). -/
structure OrderOut where
  request : Nat
  session : Nat
  seq     : Nat
  ns      : Nat
  digest  : Nat
  write   : Bool
  lead    : Nat
  at_     : Nat
  answer  : Option OrderAnswer := Option.none
  deriving DecidableEq, Repr

/-- A shard owed to a holder (R315, R319). -/
structure Owed where
  ns     : Nat
  digest : Nat
  holder : Nat
  deriving DecidableEq, Repr

/-- The fabric: what pages 0x0501 to 0x0505 set, what is known of the other modules, and the work in progress between them
(chapter 06). -/
structure Fabric where
  nodeId      : Nat := 0
  nodeValid   : Bool := false
  validAt     : Nat := 0
  etherType   : Nat := 0x88B5
  eligible    : Bool := true
  conflict    : Bool := false
  linkCells   : Nat := 48
  transitPct  : Nat := 50
  allowUs     : Nat := 60
  retransUs   : Nat := 500
  peerFailMs  : Nat := 20
  windowMib   : Nat := 68
  kittyPct    : Nat := 50
  idleMs      : Nat := 20
  adaptCells  : Nat := 256
  readPct     : Nat := 10
  udpPort     : Nat := 46318
  holdMs      : Nat := 100
  stageMib    : Nat := 128
  stageIdleMs : Nat := 1000
  idleS       : Nat := 600
  clientMax   : Nat := 65536
  trunks      : Tbl ClientTrunk := []
  nodes       : Tbl NodeInfo := []
  routes      : Tbl Route := []
  lastSeen    : Tbl Nat := []
  failedPeers : List (Nat × Nat) := []
  rotor       : Nat := 0
  helloAt     : Nat := 0
  routeAt     : Nat := 0
  timeAt      : Nat := 0
  routeDue    : Option Nat := Option.none
  timeSent    : Option Nat := Option.none
  offsetNs    : Int := 0
  slewNs      : Int := 0
  locked      : Bool := false
  parentLow   : Bool := false
  opens       : List (Nat × Nat) := []
  /-- Peers that have just answered an OPEN with QUEUE_INVALID (R300). -/
  noOpens     : List Nat := []
  orders      : List WriteOrder := []
  reads       : List (Nat × Nat × Nat) := []
  decisions   : List Decision := []
  orderOut    : List OrderOut := []
  nextReq     : Nat := 1
  pend        : List Pending := []
  owedList    : List Owed := []
  leadFrom    : Tbl Nat := []
  dead        : List Nat := []
  rebuilding  : List (Nat × Nat) := []
  openAnswers : List (Nat × Nat × Nat × Nat × Nat) := []
  closeAnswers : List (Nat × Nat × Nat × Nat × Nat × Nat) := []
  stages      : List (Nat × Stage) := []
  owners      : Tbl Nat := []
  early       : List (Nat × Nat × Nat × FabReq) := []
  links       : Tbl PeerLink := []
  /-- Requests that wait for a session to their peer, or for its credit (R300, R302). -/
  unsent      : List (Nat × Request) := []
  gather      : List Shard := []
  deriving DecidableEq, Repr

/-- The RC counters of the FAB range (Table 06-16), in the order of their offsets. -/
structure FabCounters where
  revokes      : Nat := 0
  noCredit     : Nat := 0
  hopDrop      : Nat := 0
  linkRetx     : Nat := 0
  stomps       : Nat := 0
  typeDrop     : Nat := 0
  routeChanges : Nat := 0
  lateHolders  : Nat := 0
  sessionRetx  : Nat := 0
  stageDrop    : Nat := 0
  clientDrop   : Nat := 0
  deriving DecidableEq, Repr

/-- Wake patterns and rollover notice (Table 07-4). -/
structure Wake where
  rollPort : Nat := 0
  rollIrq  : Bool := false
  rollVec  : Nat := 0
  masks    : List Nat := [0, 0, 0, 0, 0, 0, 0, 0]
  checks   : List Nat := [0, 0, 0, 0, 0, 0, 0, 0]
  deriving DecidableEq, Repr

/-! ## Index and classifier -/

/-- An index entry (R379, Table 08-1). -/
structure Entry where
  tag    : Nat
  loc    : Nat
  code   : Nat
  suit   : Nat
  vfilt  : Nat
  inDram : Bool
  nsChk  : Nat
  deriving DecidableEq, Repr

/-- A delta record (Table 08-2); the entry is none for a clear or a removal. -/
structure Delta where
  entry  : Option Entry
  bucket : Nat
  slot   : Nat
  op     : Nat
  seq    : Nat
  deriving DecidableEq, Repr

/-- A group image on flash (R402). -/
structure Image where
  seq   : Nat
  slots : Tbl Entry
  stash : List (Nat × Entry)
  deriving DecidableEq, Repr

/-- The index engine (ch 08). -/
structure Index where
  slots     : Tbl Entry := []
  stash     : List (Nat × Entry) := []
  victims   : Tbl Nat := []
  deltas    : List Delta := []
  deltaSeq  : Nat := 1
  images    : Tbl Image := []
  ckptGroup : Nat := 0
  passes    : Nat := 0
  stashIn   : Nat := 0
  displaced : Nat := 0
  tagFalse  : Nat := 0
  rebuilds  : Nat := 0
  longWalks : Nat := 0
  failed    : List Nat := []
  mode      : Nat := 0
  passS     : Nat := 120
  scanMax   : Nat := 16
  deriving DecidableEq, Repr

/-- A classifier entry (Table 08-9). -/
structure CamEntry where
  priority : Nat
  result   : Nat
  key      : Nat
  mask     : Nat
  /-- The fabric cores wrote it: an entry of the routing table (R284). -/
  core     : Bool := false
  deriving DecidableEq, Repr

/-- A classifier bank (Tables 08-10, 08-11). -/
structure Bank where
  width   : Nat := 1
  profile : Nat := 0
  state   : Nat := 1
  fails   : List Nat := []
  deriving DecidableEq, Repr

/-- The classifier (ch 08). `entries` holds the entries by address, as the units, the DRAM copy and the durable store all
hold them. -/
structure Cam where
  banks     : Tbl Bank := []
  entries   : Tbl CamEntry := []
  prefPos   : List Nat := [0, 0, 0, 0]
  prefEn    : Nat := 15
  missHost  : Bool := true
  qosHost   : Nat := 0
  missFab   : Bool := true
  qosFab    : Nat := 7
  missCli   : Bool := false
  qosCli    : Nat := 0
  scrubMs   : Nat := 50
  fbCores   : Nat := 4
  searches  : Nat := 0
  scrubErr  : Nat := 0
  parityErr : Nat := 0
  lastUnit  : Nat := 0
  fallbacks : Nat := 0
  passes    : Nat := 0
  misses    : List Nat := [0, 0, 0, 0]
  crcFixes  : Nat := 0
  deriving DecidableEq, Repr

/-! ## Media -/

/-- A record (R441, Table 09-2, Table 09-3). -/
structure Record where
  kind    : Nat
  suit    : Nat
  ns      : Nat
  key     : Bytes
  value   : Bytes
  units   : Nat
  version : Nat
  time    : Nat
  digest  : Nat
  medium  : Bool := false
  rebuilt : Bool := false
  whole   : Nat := 0
  index   : Nat := 0
  k       : Nat := 0
  m       : Nat := 0
  /-- The contents of a HINT or system record, from which its value bytes follow (Table 09-3). -/
  words   : List Nat := []
  recCrc  : Nat := 0
  hdrCrc  : Nat := 0
  deriving DecidableEq, Repr

/-- States of a block (Table 09-7). -/
inductive BlkState where
  | stock | talon | open_ | full | retired
  deriving DecidableEq, Repr

/-- A block: its state, erase count and reads since its erase (R472, R473). -/
structure Blk where
  state : BlkState
  erases : Nat := 0
  reads : Nat := 0
  lent : Option Nat := Option.none
  deriving DecidableEq, Repr

/-- States of a meld (Table 09-8). -/
inductive MeldState where
  | free | open_ | full | dead | erasing
  deriving DecidableEq, Repr

/-- A record placed in a row being assembled: its media address, where it was before (held in DRAM, or at a media
address for a copy), its kitty bytes, and the command that wrote it. -/
structure Placed where
  addr  : Nat
  item  : Record
  dram  : Option Nat
  src   : Option Nat
  kitty : Nat
  owner : Option (Nat × Nat)
  medium : Bool
  deriving DecidableEq, Repr

/-- A meld (R438, R447, R460 to R465). Rows below `row` are on flash, rows up to the one being assembled are closed;
`programs` holds the row programs reserved: row and start slot. -/
structure Meld where
  state    : MeldState := .free
  stream   : Nat := 0
  narrow   : Option Nat := Option.none
  blocks   : List Nat := []
  row      : Nat := 0
  next     : Nat := 0
  asm      : List Placed := []
  asmAt    : Option Nat := Option.none
  headers  : Nat := 0
  programs : List (Nat × Nat) := []
  running  : Option Nat := Option.none
  minStamp : Nat := 0
  maxStamp : Nat := 0
  nss      : List Nat := []
  bytes    : Nat := 0
  openAt   : Nat := 0
  seq0     : Nat := 0
  progAt   : Nat := 0
  lastEnd  : Nat := 0
  shut     : Bool := false
  degraded : Bool := false
  deadAt   : Nat := 0
  bySweep  : Bool := false
  eraseAt  : Option Nat := Option.none
  /-- Codewords that needed step 2 of the ladder, with how often (R472). -/
  retries  : Tbl Nat := []
  soft     : Bool := false
  /-- prog_seq of each row on flash (R447). -/
  seqs     : List Nat := []
  /-- Opened at talon_floor: the meld takes TOMBSTONE records alone (R468). -/
  tombs    : Bool := false
  deriving DecidableEq, Repr

/-- An EXPIRE_HINT still being reclaimed (R462). -/
structure Hint where
  ns    : Nat
  scope : Nat
  suit  : Nat
  lo    : Nat
  hi    : Nat
  time  : Nat
  /-- Its footer reads are done (R462). -/
  swept : Bool := false
  deriving DecidableEq, Repr

/-- The die registers (Table 09-15). -/
structure Die where
  state : Nat := 0
  deep  : List Nat := []
  deriving DecidableEq, Repr

/-- The counters of one flash channel (Table 09-14). -/
structure Chan where
  corrected : Nat := 0
  retried   : Nat := 0
  repaired  : Nat := 0
  lost      : Nat := 0
  progFail  : Nat := 0
  deriving DecidableEq, Repr

/-- The media engine (ch 09). -/
structure Media where
  retention  : List Nat := [0, 0, 0, 0, 0, 0, 0, 0, 0, 0, 0, 0, 0, 0, 0, 0]
  talonBg    : Nat := 16
  talonFg    : Nat := 6
  sealMs     : Nat := 20
  gcSkipH    : Nat := 72
  openMaxH   : Nat := 24
  softK      : Nat := 100
  hardK      : Nat := 250
  ageD       : Nat := 180
  wlGap      : Nat := 300
  sweepPct   : Nat := 3
  hintPct    : Nat := 2
  blocks     : Tbl Blk := []
  melds      : Tbl Meld := []
  flash      : Tbl Record := []
  moves      : List (Nat × Bool × Nat) := []
  lost       : List Nat := []
  /-- Bad byte columns found in service: plane (4 × die + plane) and byte position (R453). -/
  columns    : List (Nat × Nat) := []
  /-- Byte positions that failed in codewords of a plane, with the codeword, until they become columns (R453). -/
  colFails   : List (Nat × Nat × Nat) := []
  hints      : List Hint := []
  deaths     : List (Nat × Nat) := []
  dies       : Tbl Die := []
  chans      : Tbl Chan := []
  progSeq    : Nat := 1
  sweepAt    : Nat := 0
  aborted    : List (Nat × Nat) := []
  factor     : Nat := 256
  tombBytes  : Nat := 0
  recovery   : Nat := 0
  progress   : Nat := 0
  scanPages  : Nat := 0
  syncFalse  : Nat := 0
  syncPages  : Nat := 0
  torn       : Nat := 0
  rootSeq    : Nat := 0
  /-- Media addresses of the system records that recovery still needs (R403, R443, R480). -/
  system     : List Nat := []
  /-- System records written so far; the number names the owner of a debit (R404). -/
  systemSeq  : Nat := 0
  /-- Delta records below this sequence are in DELTA_PAGE records (R401). -/
  pagedTo    : Nat := 1
  /-- The next eight melds of the system stream that the last snapshot names (R480). -/
  nextMelds  : Option (List Nat) := Option.none
  retProg    : Nat := 0
  retErase   : Nat := 0
  retDie     : Nat := 0
  cwCorr     : Nat := 0
  cwRetry    : Nat := 0
  repairs    : Nat := 0
  unrec      : Nat := 0
  tempMax    : Int := 0
  tempNs     : List Nat := [0, 0, 0, 0, 0]
  bytesUser  : Nat := 0
  bytesProg  : Nat := 0
  held       : List Nat := []
  deriving DecidableEq, Repr

/-! ## Memory -/

/-- What a line holds, as far as its loss matters (R527): a bucket of an index group, the protected region, a queue context
(with a flushed copy or without), or staged data of a command. -/
inductive DramUse where
  | plain
  | group (g : Nat)
  | mirrored
  | context (n : Nat) (flushed : Bool)
  | staging (session seq : Nat)
  deriving DecidableEq, Repr

/-- A request queued at a sub-channel: its line, decoded into bank, row and column (R498, R499). -/
structure DramReq where
  port   : Nat
  bank   : Nat
  row    : Nat
  col    : Nat
  write  : Bool
  urgent : Bool
  at_    : Nat
  /-- The write of less than a line whose merge read this is (R504). -/
  merge  : Bool := false
  use    : DramUse := .plain
  /-- The channel whose copy of the protected region gave no line (R524). -/
  mirror : Option Nat := Option.none
  deriving DecidableEq, Repr

/-- A DRAM sub-channel (R503 to R517). -/
structure SubChan where
  reads   : List DramReq := []
  writes  : List DramReq := []
  writing : Bool := false
  opened  : Tbl Nat := []
  last    : List (Nat × Nat) := []
  acts    : List (Nat × Nat × Nat) := []
  lastAct : Tbl Nat := []
  failed  : List Nat := []
  ce      : List (Nat × Nat) := []
  rfmWait : List (Nat × Nat) := []
  /-- When a request last reached the sub-channel (Table 10-7). -/
  askedAt : Nat := 0
  throttle : Tbl Nat := []
  refBank : Nat := 0
  deriving DecidableEq, Repr

/-- A DRAM channel (Table 10-11). -/
structure Channel where
  state    : Nat := 0
  doubled  : Bool := false
  atBase   : Nat := 0
  ce       : Nat := 0
  ue       : Nat := 0
  ueAt     : List Nat := []
  rfm      : Nat := 0
  rqMax    : Nat := 0
  wqMax    : Nat := 0
  trained  : Nat := 0
  eyes     : List (Nat × Nat) := []
  subs     : List SubChan := [{}, {}]
  deriving DecidableEq, Repr

/-- The memory subsystem (ch 10). -/
structure Memory where
  grain      : Nat := 4096
  grainNow   : Nat := 4096
  xor        : List Nat := [33, 66, 132, 264, 528]
  xorNow     : List Nat := [33, 66, 132, 264, 528]
  privMask   : Nat := 0x041
  privNow    : Nat := 0x041
  trumpEn    : Bool := true
  trumpLow   : Nat := 8192
  trumpHigh  : Nat := 16384
  wqHigh     : Nat := 48
  wqLow      : Nat := 16
  ageNs      : Nat := 500
  actMax     : Nat := 4096
  gapNs      : Nat := 1000
  throttleMs : Nat := 1
  retrainH   : Nat := 24
  driftPct   : Nat := 25
  chans      : Tbl Channel := []
  fill       : Nat := 0
  trump      : Bool := false
  trumpAt    : Nat := 0
  trumpLong  : Bool := false
  raises     : Nat := 0
  trumpNs    : Nat := 0
  forwarded  : Nat := 0
  merges     : Nat := 0
  throttles  : Nat := 0
  scrubAt    : Nat := 0
  scrubLines : Nat := 0
  single     : Bool := false
  devices    : Nat := 0
  held       : Tbl Record := []
  nextHeld   : Nat := 0
  /-- Requests stalled at the crossbar, oldest first: channel, sub-channel and request (R503). -/
  waiting    : List (Nat × Nat × DramReq) := []
  deriving DecidableEq, Repr

/-! ## Cipher -/

/-- A resume point or a message at an engine (R545, R547). -/
structure Msg where
  requester : Nat
  keySlot   : Nat
  urgent    : Bool
  encrypt   : Bool
  tweak     : Nat
  next      : Nat
  blocks    : Nat
  deriving DecidableEq, Repr

/-- An engine (Table 11-5). -/
structure Engine where
  owner    : Option Msg := Option.none
  at_      : Nat := 0
  /-- The message that leaves the engine until `at_`, when the lock passes to the owner (R547). -/
  leaving  : Option Msg := Option.none
  retired  : Bool := false
  bytes    : Nat := 0
  suspends : Nat := 0
  checkErr : Nat := 0
  cause    : Nat := 0
  deriving DecidableEq, Repr

/-- A key slot (Table 11-1). -/
structure KeySlot where
  key      : Option (BitVec 512) := Option.none
  imported : Bool := false
  loadedAt : Nat := 0
  deriving DecidableEq, Repr

/-- A generator (R551, R553, R555). -/
structure Gen where
  requests : Nat := 0
  at_      : Nat := 0
  stopped  : Bool := false
  deriving DecidableEq, Repr

/-- The cipher block (ch 11). -/
structure Cipher where
  slots     : Tbl KeySlot := []
  kik       : Option (BitVec 256) := Option.none
  kikLocked : Bool := false
  katH      : Nat := 24
  reseedMs  : Nat := 1000
  engines   : Tbl Engine := []
  waiting   : List Msg := []
  gens      : Tbl Gen := []
  aOk       : Bool := true
  bOk       : Bool := true
  rct       : Nat := 0
  apt       : Nat := 0
  reseeds   : Nat := 0
  waits     : Nat := 0
  lockFault : Nat := 0
  unseeded  : Nat := 0
  deriving DecidableEq, Repr

/-! ## Power -/

/-- Supervisor states (Table 12-2). -/
inductive Sup where
  | normal | dip | resume | flush | spent | off
  deriving DecidableEq, Repr

/-- The power block (ch 12). -/
structure Power where
  kittyMax   : Nat := 8
  healthH    : Nat := 24
  dipMaxMs   : Nat := 50
  p1Us       : Nat := 20
  p2Ms       : Nat := 100
  p3S        : Nat := 60
  chargeW    : Nat := 30
  sup        : Sup := .normal
  leftAt     : Nat := 0
  aboveAt    : Nat := 0
  state      : Nat := 0
  exiting    : Option Nat := Option.none
  /-- Since when the module has been idle, for each of P1 to P3 (R588). -/
  idleAt     : Tbl Nat := []
  fault      : Nat := 0
  faultAt    : Nat := 0
  low        : Bool := false
  valid      : Bool := false
  stale      : Bool := false
  aReady     : Bool := true
  bReady     : Bool := true
  aErase     : Option Nat := Option.none
  bErase     : Option Nat := Option.none
  written    : Option Bool := Option.none
  complete   : Bool := true
  /-- The closing record of the last flush: the length of every part, in entries, and its CRC (R584). -/
  closing    : Option (List Nat × Nat) := Option.none
  health     : Nat := 0
  limit      : Nat := 0
  supplyMv   : Nat := 12000
  bankMv     : Nat := 0
  capUf      : Nat := 0
  esr        : Nat := 0
  availMj    : Nat := 0
  measAt     : Nat := 0
  wanted     : Bool := false
  dips       : Nat := 0
  flushes    : Nat := 0
  brownouts  : Nat := 0
  timeouts   : Nat := 0
  charger    : Bool := false
  /-- When the charger last started (Table 12-5). -/
  chargeFrom : Nat := 0
  input      : Bool := false
  bleed      : Bool := false
  measuring  : Bool := false
  rcDips     : Nat := 0
  dipMaxUs   : Nat := 0
  rcHeld     : Nat := 0
  flushUs    : Nat := 0
  flushMj    : Nat := 0
  flushMv    : Nat := 0
  meas       : Nat := 0
  p1n        : Nat := 0
  p2n        : Nat := 0
  p3n        : Nat := 0
  target     : Nat := 0
  cap        : Nat := 0
  pending    : Nat := 0
  exposed    : Nat := 0
  pinZero    : Bool := false
  deriving DecidableEq, Repr

/-! ## Firmware update, records, test, freeze -/

/-- One part of a bundle or of a slot (Tables 13-1, 13-3). -/
structure Part where
  kind    : Nat
  version : Nat
  offset  : Nat
  length  : Nat
  digest  : Nat
  ranges  : List (Nat × Nat × Nat)
  deriving DecidableEq, Repr

/-- A manifest as judged (Table 13-2). -/
structure Manifest where
  bundle   : Nat := 0
  rollback : Nat := 0
  cold     : Bool := false
  windowUs : Nat := 0
  length   : Nat := 0
  size     : Nat := 0
  parts    : List Part := []
  pages    : List (Nat × Nat) := []
  deriving DecidableEq, Repr

/-- A slot of the boot store (R596). -/
structure Slot where
  version  : Nat := 0
  empty    : Bool := true
  rollback : Nat := 0
  parts    : List Part := []
  deriving DecidableEq, Repr

/-- What the boot record holds (R596). -/
structure BootRec where
  activeB : Bool := false
  trial   : Bool := false
  fails   : Nat := 0
  deriving DecidableEq, Repr

/-- States of an update (Table 13-8). -/
inductive UpdState where
  | idle | receiving | staged | scheduled | activating | trial
  deriving DecidableEq, Repr

/-- The firmware slots, the update in progress and the recovery image (chapter 13). `saved` holds the setting pages an update
may reset, as they stood before it (R601, R613). -/
structure Update where
  state    : UpdState := .idle
  activeB  : Bool := false
  slotA    : Slot := { empty := false }
  slotB    : Slot := {}
  trial    : Bool := false
  fails    : Nat := 0
  /-- The older copy of the boot record, and the sequence number of the newer (R596). -/
  older    : BootRec := {}
  recSeq   : Nat := 0
  counter  : Nat := 0
  last     : Nat := 0
  man      : Manifest := {}
  image    : List Host.Cell := []
  received : Nat := 0
  window   : Option Nat := Option.none
  loaded   : Bool := false
  reset    : List Nat := []
  saved    : List (Nat × Nat × Nat) := []
  formats  : Tbl Nat := []
  rollbacks : Nat := 0
  trialAt  : Nat := 0
  switched : Bool := false
  bothBad  : Bool := false
  autoH    : Nat := 72
  bootS    : Nat := 300
  rImage   : List Host.Cell := []
  rBytes   : Nat := 0
  rStatus  : Nat := 0
  deriving DecidableEq, Repr

/-- An event record (Table 14-1). -/
structure EvRec where
  seq      : Nat
  code     : Nat
  sev      : Nat
  calValid : Bool
  varied   : Bool
  epoch    : Nat
  folded   : Nat
  opSec    : Nat
  cycles   : Nat
  time     : Nat
  lastOp   : Nat
  calS     : Nat
  payload  : List Nat
  until_   : Nat
  deriving DecidableEq, Repr

/-- The event recorder (ch 14). -/
structure Recorder where
  stopFull : Bool := false
  minSev   : Nat := 0
  holdMs   : Nat := 100
  calendar : Option (Nat × Nat) := Option.none
  calOld   : Option Nat := Option.none
  epoch    : Nat := 0
  nextSeq  : Nat := 1
  pending  : List EvRec := []
  writing  : Option EvRec := Option.none
  store    : List (Nat × EvRec) := []
  sector   : Nat := 0
  offset   : Nat := 0
  stopped  : Bool := false
  last239  : Bool := false
  dropped  : Nat := 0
  folded   : Nat := 0
  counts   : List Nat := [0, 0, 0, 0, 0]
  /-- A loss of supply is still to be recorded at recovery (R629). -/
  lossDue  : Bool := false
  deriving DecidableEq, Repr

/-- In-service test (ch 14). -/
structure Ist where
  enable   : Nat := 0x7F
  coreH    : Nat := 168
  dieH     : Nat := 24
  dramH    : Nat := 24
  flushH   : Nat := 1
  bootH    : Nat := 24
  lastRun  : Tbl Nat := []
  runAt    : Tbl Nat := []
  failures : Tbl Nat := []
  overdue  : List Nat := []
  /-- The core that a placed core test drains (Table 14-4). -/
  draining : Option Nat := Option.none
  deriving DecidableEq, Repr

/-- Freeze (ch 14). -/
structure Freeze where
  mode     : Nat := 1
  state    : Nat := 0
  count    : Nat := 0
  lastNs   : Nat := 0
  shifts   : Nat := 0
  at_      : Nat := 0
  /-- FRZ_N counts as asserted (R646). -/
  asserted : Bool := false
  deriving DecidableEq, Repr

/-- Clocks, reset and the AON counters (Table 01-11, R47, R621). -/
structure Clk where
  time     : Nat := 0
  opNs     : Nat := 0
  cycles   : Nat := 1
  cause    : Nat := 0
  rootLock : Bool := false
  rootLost : Bool := false
  unlocked : List Nat := []
  unlocks  : Nat := 0
  aon      : Bool := true
  stamp    : Stamp := {}
  stamped  : Bool := false
  first    : Bool := false
  deriving DecidableEq, Repr

/-- Boot (Table 05-6, R612, Table 15-12). -/
structure Boot where
  stage    : Nat := 0
  readOnly : Bool := false
  roCause  : Nat := 0
  coldOp   : Nat := 0
  /-- The fabric time from which PERST# deassertions take effect (R676). -/
  perstFrom : Nat := 20000000
  smbAdr   : Bool := false
  input    : BootInput :=
    { recovLow := false, recordOk := true, partsOk := true, badChannels := [], badEngines := [],
      generatorsOk := true, noiseA := true, noiseB := true, smbAdr := false }
  recover  : Bool := false
  chanFail : Option Nat := Option.none
  deriving DecidableEq, Repr

/-- Core roles (Tables 01-2, 01-3). `standIn` names the failed core and the service core that holds its role. -/
structure Cores where
  roles    : Tbl Nat := []
  draining : List (Nat × Nat) := []
  queued   : List (List Nat) := []
  standIn  : Option (Nat × Nat) := Option.none
  takeover : Bool := false
  takeAt   : Nat := 0
  deriving DecidableEq, Repr

/-- The reserves of the packet buffer (R37, Table 01-5). -/
structure Buffer where
  perLane  : Nat := 16
  perHost  : Nat := 1024
  fabric   : Nat := 2048
  deriving DecidableEq, Repr

/-- What the block puts out, oldest first: the entries and messages it writes to a host, the frames it sends, the
words it returns on a read, and the levels of its pins. -/
inductive Out where
  /-- A memory write to the host of a port; `relaxed` is the Relaxed Ordering attribute (Table 05-2). -/
  | hostWrite (port addr : Nat) (relaxed : Bool) (bytes : Bytes)
  /-- A memory read from the host of a port. -/
  | hostRead (port addr len : Nat)
  | msix (port vector : Nat)
  | readData (port offset value : Nat)
  | cfgRetry (port : Nat)
  | cfgAnswer (port value : Nat)
  | frame (lane : Nat) (bytes : Bytes)
  | smbus (data : Bytes)
  | nack
  | uart (kind status : Nat)
  | jtag (data : List Nat)
  | wake (asserted : Bool)
  | alert (asserted : Bool)
  | refresh (channel sub bank : Nat) (rfm : Bool)
  | dram (channel sub port bank row col : Nat) (write poisoned : Bool)
  | resume (engine : Nat) (m : Msg)
  deriving DecidableEq, Repr

/-- The state of the block. -/
structure State where
  /-- The commands that wait, first in, first out. -/
  pending  : List Instr := []
  clk      : Clk := {}
  boot     : Boot := {}
  cores    : Cores := {}
  buf      : Buffer := {}
  dlr      : Dealer := {}
  jnl      : Journal := {}
  sessions : Tbl Session := []
  nss      : Tbl Namespace := []
  /-- The running count of commit steps that changed an object (R106), durable. -/
  commits  : Nat := 0
  ante     : Ante := {}
  host     : HostBlock := {}
  lanes    : Tbl Lane := []
  wake     : Wake := {}
  fab      : Fabric := {}
  fabc     : FabCounters := {}
  idx      : Index := {}
  cam      : Cam := {}
  med      : Media := {}
  mem      : Memory := {}
  xts      : Cipher := {}
  pwr      : Power := {}
  upd      : Update := {}
  evr      : Recorder := {}
  ist      : Ist := {}
  frz      : Freeze := {}
  /-- What the block has put out, oldest first. -/
  out      : List Out := []
  /-- The model's own counter of free values drawn (log entry 1). -/
  draws    : Nat := 0
  deriving DecidableEq, Repr

/-- What stops the block. -/
inductive Fault where
  /-- Raised by SLOT_BOUNDARY and by a tick when fabric time would pass 2^64 ns, which R320's 64-bit count cannot hold
  and the manual does not treat. Safe: the model stops where hardware would count on. -/
  | fabricTimeExhausted
  deriving DecidableEq, Repr

/-- A command without a meaning. -/
inductive Refusal where
  /-- A command that has no meaning yet; raised by the arms of exec alone. Safe: the model stops. -/
  | notModelled (mnemonic : String)
  deriving DecidableEq, Repr

/-- The block right after a cold start of a factory-fresh part (R17, R675): reset released, boot_stage 0, the mask ROM
running, the bank empty and charging, every setting page as it left the factory; no noise source has passed its test and no
flush set has been found ready (log entry 7). -/
def State.reset : State :=
  { xts := { aOk := false, bOk := false }, pwr := { aReady := false, bReady := false } }

/-- The outcome of a meaning. -/
abbrev R := Host.Outcome State Fault Refusal

end Sys2Proof.Machine
end

