-- ==== Sys2Proof/Machine/Ops.lean ====
section
/-! DEFINITION. The named operations that every meaning is written with: sparse tables, bit fields, byte strings, free
values, interrupts, the cause bits and the event recorder. -/

namespace Sys2Proof.Machine

open Sys2Proof

/-! ## Sparse tables -/

/-- What key `k` of a sparse table holds; `d` gives what an unlisted key holds. -/
def tget {α : Type} (d : Nat → α) : Tbl α → Nat → α
  | [], k => d k
  | (j, a) :: t, k => if j = k then a else tget d t k

/-- The entry of key `k`, if the table lists one. -/
def tfind {α : Type} : Tbl α → Nat → Option α
  | [], _ => none
  | (j, a) :: t, k => if j = k then some a else tfind t k

/-- The table with `a` listed under `k`; keys stay strictly rising. -/
def tput {α : Type} : Tbl α → Nat → α → Tbl α
  | [], k, a => [(k, a)]
  | (j, b) :: t, k, a =>
    if k < j then (k, a) :: (j, b) :: t
    else if k = j then (k, a) :: t
    else (j, b) :: tput t k a

/-- The table without key `k`. -/
def tdel {α : Type} : Tbl α → Nat → Tbl α
  | [], _ => []
  | (j, b) :: t, k => if j = k then tdel t k else (j, b) :: tdel t k

/-- The table in which key `k` holds `a`: a value that an unlisted key holds anyway is not listed. -/
def tset {α : Type} [DecidableEq α] (d : Nat → α) (t : Tbl α) (k : Nat) (a : α) : Tbl α :=
  if a = d k then tdel t k else tput t k a

/-- The table with key `k` changed by `f`. -/
def tmod {α : Type} [DecidableEq α] (d : Nat → α) (t : Tbl α) (k : Nat) (f : α → α) : Tbl α :=
  tset d t k (f (tget d t k))

/-- The table with the entry of key `k` changed by `f`, where there is one. -/
def tadj {α : Type} : Tbl α → Nat → (α → α) → Tbl α
  | [], _, _ => []
  | (j, b) :: t, k, f => if j = k then (j, f b) :: t else (j, b) :: tadj t k f

/-- Keys strictly rising: the canonical form of a table whose entries may be absent. -/
def keysRise {α : Type} : Tbl α → Bool
  | [] => true
  | [_] => true
  | (i, _) :: (j, b) :: t => decide (i < j) && keysRise ((j, b) :: t)

/-- The canonical form of a table with a default: keys strictly rising, no entry equal to the default. -/
def tblWf {α : Type} [DecidableEq α] (d : Nat → α) (t : Tbl α) : Bool :=
  keysRise t && t.all (fun p => decide (p.2 ≠ d p.1))

/-! ## Byte memories -/

/-- What a byte of a memory window reads that nothing has written (log entry 4). -/
def blank : Nat → Byte := fun _ => 0

/-- The byte at `a`. -/
def byteAt (m : List Host.Cell) (a : Nat) : Byte := tget blank m a

/-- The memory with byte `b` at `a`. -/
def byteSet (m : List Host.Cell) (a : Nat) (b : Byte) : List Host.Cell := tset blank m a b

/-- The memory with `bs` from address `a` on. -/
def bytesSet (m : List Host.Cell) (a : Nat) : Bytes → List Host.Cell
  | [] => m
  | b :: bs => bytesSet (byteSet m a b) (a + 1) bs

/-- `n` bytes from address `a` on. -/
def bytesAt (m : List Host.Cell) (a : Nat) : Nat → Bytes
  | 0 => []
  | n + 1 => byteAt m a :: bytesAt m (a + 1) n

/-- The canonical form of a byte memory. -/
abbrev Memory.wf (m : List Host.Cell) : Bool := tblWf blank m

/-! ## Bit fields and byte order (R13: little-endian) -/

/-- Bits `hi` down to `lo` of `v`. -/
def bits (v hi lo : Nat) : Nat := v / 2 ^ lo % 2 ^ (hi + 1 - lo)

/-- Bit `i` of `v`. -/
def bit (v i : Nat) : Bool := v / 2 ^ i % 2 = 1

/-- A flag as a bit. -/
def b2n (b : Bool) : Nat := if b then 1 else 0

/-- The word with each `(lo, width, value)` in its place. -/
def pack : List (Nat × Nat × Nat) → Nat
  | [] => 0
  | (lo, w, v) :: t => v % 2 ^ w * 2 ^ lo + pack t

/-- `v` with bits `hi` down to `lo` replaced by `x`. -/
def setBits (v hi lo x : Nat) : Nat :=
  v / 2 ^ (hi + 1) * 2 ^ (hi + 1) + x % 2 ^ (hi + 1 - lo) * 2 ^ lo + v % 2 ^ lo

/-- A little-endian byte string as a number. -/
def leNat : Bytes → Nat
  | [] => 0
  | b :: t => b.toNat + 256 * leNat t

/-- The `n` lowest bytes of `v`, little-endian. -/
def natLe : Nat → Nat → Bytes
  | 0, _ => []
  | n + 1, v => BitVec.ofNat 8 v :: natLe n (v / 256)

/-- A big-endian byte string as a number. -/
def beNat (b : Bytes) : Nat := leNat b.reverse

/-- The `n` lowest bytes of `v`, big-endian. -/
def natBe (n v : Nat) : Bytes := (natLe n v).reverse

/-- The ASCII codes of a text as one little-endian number. -/
def asciiNat (t : String) : Nat := t.toList.foldr (fun c n => c.toNat % 256 + 256 * n) 0

/-- Division rounding up. -/
def ceilDiv (a b : Nat) : Nat := (a + b - 1) / b

/-- Sum of `f` over a list. -/
def sumOf {α : Type} (f : α → Nat) : List α → Nat
  | [] => 0
  | a :: t => f a + sumOf f t

/-- Least value of `f` over a list, `d` for an empty list. -/
def leastOf {α : Type} (f : α → Nat) (d : Nat) : List α → Nat
  | [] => d
  | a :: t => min (f a) (leastOf f d t)

/-- Apply `f` for each element of a list, first to last. -/
def each {α : Type} (f : α → State → State) : List α → State → State
  | [], s => s
  | a :: t, s => each f t (f a s)

/-- Two's complement of a signed value in `w` bits. -/
def signed (w : Nat) (v : Int) : Nat := (v % (2 ^ w : Int)).toNat

/-! ## Time, free values, output -/

/-- Fabric time in ns. -/
def now (s : State) : Nat := s.clk.time

/-- Operating seconds (R621). -/
def opSeconds (s : State) : Nat := s.clk.opNs / 1000000000

/-- Calendar time in seconds, none while the calendar is not set (R633). -/
def calendarNow (s : State) : Option Nat :=
  match s.evr.calendar with
  | none => none
  | some (c, op) => some ((c + (opSeconds s - op)) % 2 ^ 32)

/-- The next free value of `w` bits (log entry 1). -/
def fresh (w : Nat) (s : State) : Nat := (Config.freeValue w s.draws).toNat

/-- The state after a free value has been drawn. -/
def drawn (s : State) : State := { s with draws := s.draws + 1 }

/-- The block puts `o` out. -/
def emit (o : Out) (s : State) : State := { s with out := s.out ++ [o] }

/-! ## When the block acts -/

/-- The part runs: the supervisor is in NORMAL, DIP or RESUME (Table 12-2) and the module is not frozen (R647). -/
def running (s : State) : Bool :=
  (match s.pwr.sup with
   | .normal => true | .dip => true | .resume => true
   | .flush => false | .spent => false | .off => false) && decide (s.frz.state = 0)

/-- A command that needs the part running: with the part unpowered, in the flush or frozen, nothing happens (log entry
3). -/
def whenRunning (f : State → State) (s : State) : R := .next (if running s then f s else s)

/-- An event whose own condition must hold: it changes nothing where the condition does not hold (log entry 2). -/
def guard (c : Bool) (f : State → State) (s : State) : State := if c then f s else s

/-! ## Interrupts and cause bits (R247, Table 05-6) -/

/-- A vector of a port that nothing has set up: masked, as after a reset. -/
def vecBlank : Nat → Vec := fun _ => {}

/-- Port `p` becomes `x`. -/
def setPort (p : Nat) (x : Port) (s : State) : State :=
  { s with host := { s.host with ports := tput s.host.ports p x } }

/-- Port `p` is changed by `f`, if it exists. -/
def modPort (p : Nat) (f : Port → Port) (s : State) : State :=
  { s with host := { s.host with ports := tadj s.host.ports p f } }

/-- Port `p`'s vector `v` is signalled: a masked vector becomes pending, an unmasked one sends its message. -/
def msix (p v : Nat) (s : State) : State :=
  match tfind s.host.ports p with
  | none => s
  | some port =>
    if (tget vecBlank port.vecs v).masked then
      setPort p { port with vecs := tmod vecBlank port.vecs v (fun x => { x with pending := true }) } s
    else emit (.msix p v) s

/-- Cause bit `b` of port `p` is set; vector 0 is signalled when the bit rises under an enabled mask bit. DESIGN CHOICE, log
entry 91: a cause that is set already, and a mask bit enabled over one, signal nothing. -/
def raiseOn (b p : Nat) (s : State) : State :=
  match tfind s.host.ports p with
  | none => s
  | some port =>
    if bit port.cause b then s
    else
      let s1 := setPort p { port with cause := port.cause + 2 ^ b } s
      if bit port.mask b then msix p 0 s1 else s1

/-- Cause bit `b` of every port is set. -/
def raiseAll (b : Nat) (s : State) : State := each (fun p => raiseOn b p.1) s.host.ports s

/-- SMBALERT# follows event_warning, cause bit 1, of the ports (R677). -/
def followAlert (s : State) : State :=
  let b := s.host.ports.any (fun p => bit p.2.cause 1)
  if b = s.host.alert then s else emit (.alert b) { s with host := { s.host with alert := b } }

/-- event_warning is set on every port (R623, R677). -/
def warn (s : State) : State := followAlert (raiseAll 1 s)

/-- The ledger-fault message (R89, R247): cause bit 0 is set, and every fault signals vector 0 of each port whose mask enables
it, whether or not software has cleared the bit since the last one. -/
def raiseLedger (s : State) : State :=
  each (fun p s =>
    let s1 := modPort p.1 (fun x => { x with cause := if bit x.cause 0 then x.cause else x.cause + 1 }) s
    if bit p.2.mask 0 then msix p.1 0 s1 else s1) s.host.ports s

/-! ## The event recorder (ch 14) -/

/-- Severity of an event code (Table 14-3). -/
def severity (code : Nat) : Nat :=
  if code ∈ [0x0002, 0x0004, 0x0603, 0x0604, 0x0A04, 0x0C04, 0x0C05, 0x0F01] then 1
  else if code ∈ [0x0001, 0x0003, 0x0401, 0x0501, 0x0702, 0x0703, 0x0902, 0x0A02, 0x0B01, 0x0C01, 0x0C02, 0x0E02] then 2
  else if code ∈ [0x0605, 0x0606, 0x0C06] then 4
  else 3

/-- Bytes of a record (R620, R622). -/
def recBytes (r : EvRec) : Nat := 48 + 8 * r.payload.length

/-- Bytes in the pending buffer, the record being written among them (R629, R631). -/
def pendingBytes (e : Recorder) : Nat :=
  sumOf recBytes e.pending + (match e.writing with | none => 0 | some r => recBytes r)

/-- A new record (Table 14-1), with the sequence the recorder gives it. -/
def newRecord (code : Nat) (payload : List Nat) (s : State) : EvRec :=
  { seq := s.evr.nextSeq, code := code, sev := severity code, calValid := (calendarNow s).isSome, varied := false,
    epoch := s.evr.epoch % 256, folded := 0, opSec := opSeconds s, cycles := s.clk.cycles, time := now s,
    lastOp := opSeconds s, calS := (calendarNow s).getD 0, payload := payload, until_ := now s + s.evr.holdMs * 1000000 }

/-- A record of severity `sev` is displaced or dropped and counted (R632). -/
def countDrop (sev : Nat) (e : Recorder) : Recorder :=
  { e with dropped := e.dropped + 1, counts := e.counts.set sev (e.counts.getD sev 0 + 1) }

/-- The sectors that hold records (Table 14-11). -/
def sectorsUsed (e : Recorder) : Nat := ((e.store.map (·.1)).dedup).length

/-- Bytes the records of sector `k` take. -/
def sectorBytes (e : Recorder) (k : Nat) : Nat :=
  sumOf (fun p => if p.1 = k then recBytes p.2 else 0) e.store

/-- The recorder moves to the next sector and takes the one after it as the erased sector ahead (R626, R627). -/
def nextSector (e : Recorder) : Recorder :=
  let k := (e.sector + 1) % 240
  let a := (k + 1) % 240
  { e with sector := k, store := e.store.filter (fun p => decide (p.1 ≠ a ∧ p.1 ≠ k)) }

/-- Whether moving on would erase records: the sector after the next one holds some (R627). -/
def lastSector (e : Recorder) : Bool := e.store.any (fun p => decide (p.1 = (e.sector + 2) % 240))

/-- The record goes into the current sector, or into the next one when it does not fit (R625). -/
def storeRecord (r : EvRec) (e : Recorder) : Recorder :=
  let e1 := if sectorBytes e e.sector + recBytes r > 65536 then
      (if e.last239 then e else nextSector e) else e
  { e1 with store := e1.store ++ [(e1.sector, r)] }

/-- While the store is stopped, a record of severity 0 to 2 is dropped, and every record once the last sector is full
(R627). -/
def storeTakes (sev bytes : Nat) (e : Recorder) : Bool :=
  if e.last239 then decide (3 ≤ sev) && decide (sectorBytes e e.sector + pendingBytes e + bytes ≤ 65536) else true

/-- The write of the oldest pending record begins, once its hold has ended and no write is in progress (R626, R630).
Under policy 1, a record that finds sectors 0 to 238 full makes the recorder create STORE_FULL and drop the pending
records that the stopped store does not take (R627, log entry 9). -/
def startWrite (s : State) : State :=
  match s.evr.writing, s.evr.pending with
  | none, r :: t =>
    if r.until_ ≤ now s then
      if s.evr.stopFull ∧ s.evr.last239 = false ∧ lastSector (nextSector s.evr) = true
          ∧ sectorBytes s.evr s.evr.sector + recBytes r > 65536 then
        let keep := s.evr.pending.filter (fun x => decide (3 ≤ x.sev))
        let gone := s.evr.pending.filter (fun x => decide (x.sev < 3))
        let full := { newRecord 0x0001 [] s with until_ := now s }
        let e1 := gone.foldl (fun e x => countDrop x.sev e) s.evr
        let q := keep.map (fun x => { x with until_ := now s }) ++ [full]
        warn { s with evr := { e1 with sector := (e1.sector + 1) % 240, last239 := true, nextSeq := e1.nextSeq + 1,
                                       pending := q.tail, writing := q.head? } }
      else { s with evr := { s.evr with pending := t, writing := some r } }
    else s
  | _, _ => s

/-- Fold an event into the newest pending record that matches (R631); `none` when none matches. -/
def foldInto (code : Nat) (payload : List Nat) (loose : Bool) (op : Nat) : List EvRec → Option (List EvRec)
  | [] => none
  | r :: t =>
    match foldInto code payload loose op t with
    | some t' => some (r :: t')
    | none =>
      if r.code = code ∧ (r.payload = payload ∨ loose = true) then
        some ({ r with folded := min 65535 (r.folded + 1), lastOp := op,
                       varied := r.varied || decide (r.payload ≠ payload) } :: t)
      else none

/-- Drop the newest pending record of severity 0 or 1 (R632). -/
def dropNewest : List EvRec → Option (EvRec × List EvRec)
  | [] => none
  | r :: t =>
    match dropNewest t with
    | some (x, t') => some (x, r :: t')
    | none => if r.sev ≤ 1 then some (r, t) else none

/-- Displace pending records of severity 0 or 1, newest first, until `need` bytes fit (R632). -/
def displace (need : Nat) : Nat → Recorder → Recorder
  | 0, e => e
  | n + 1, e =>
    if pendingBytes e + need ≤ 65536 then e
    else
      match dropNewest e.pending with
      | none => e
      | some (x, t) => displace need n (countDrop x.sev { e with pending := t })

/-- The pending buffer takes the record, or drops it (R630, R632). A record of severity 3 or 4 ends every hold, and so does
one that fills the buffer more than half. -/
def enqueue (r : EvRec) (s : State) : State :=
  if storeTakes r.sev (recBytes r) s.evr = false then { s with evr := countDrop r.sev s.evr }
  else
    let e := if 2 ≤ r.sev then displace (recBytes r) s.evr.pending.length s.evr else s.evr
    if pendingBytes e + recBytes r > 65536 then { s with evr := countDrop r.sev e }
    else
      let ends := decide (3 ≤ r.sev) || decide (2 * (pendingBytes e + recBytes r) > 65536)
      let q := if ends = true then e.pending.map (fun x => { x with until_ := min x.until_ (now s) }) else e.pending
      let r' := if ends = true then { r with until_ := now s } else r
      let s1 := startWrite { s with evr := { e with pending := q ++ [r'], nextSeq := e.nextSeq + 1 } }
      if 2 ≤ r.sev then warn s1 else s1

/-- EVENTS_DROPPED is created as soon as the buffer has room and the store takes it (R632). -/
def reportDrops (s : State) : State :=
  if sumOf id s.evr.counts = 0 ∨ s.evr.last239 = true ∨ pendingBytes s.evr + 88 > 65536 then s
  else
    let r := newRecord 0x0003 s.evr.counts s
    enqueue r { s with evr := { s.evr with counts := [0, 0, 0, 0, 0] } }

/-- The mask ROM runs (R629). -/
def inRom (s : State) : Bool := decide (s.boot.stage = 0 ∨ s.boot.stage = 0xE)

/-- An event with its payload (R622, R623, R629 to R632, page 0x0B01 for min_severity). -/
def event (code : Nat) (payload : List Nat) (s : State) : State :=
  if severity code < s.evr.minSev ∧ ¬ (1 ≤ code ∧ code ≤ 4) then s
  else if inRom s then
    let r := newRecord code payload s
    if storeTakes r.sev (recBytes r) s.evr = false then { s with evr := countDrop r.sev s.evr }
    else
      let s1 := { s with evr := { storeRecord r s.evr with nextSeq := s.evr.nextSeq + 1 } }
      if 2 ≤ r.sev then warn s1 else s1
  else
    let loose := decide (severity code ≤ 1) && decide (4 * pendingBytes s.evr ≥ 3 * 65536)
    match foldInto code payload loose (opSeconds s) s.evr.pending with
    | some q =>
      let s1 := { s with evr := { s.evr with pending := q, folded := s.evr.folded + 1 } }
      if 2 ≤ severity code then warn s1 else s1
    | none => enqueue (newRecord code payload s) s

/-- The oldest record held, or the next sequence when the store holds none (Table 14-11). -/
def oldestSeq (e : Recorder) : Nat := match e.store with | [] => e.nextSeq | (_, r) :: _ => r.seq

/-- READ_ONLY_MODE is entered (R66, R92, R478): an event with what its rule names, and the cause bit. Causes: 1 stock,
2 DRAM channel controller, 3 ledger hardware (Table 09-12). -/
def enterReadOnly (cause : Nat) (payload : List Nat) (s : State) : State :=
  if s.boot.readOnly then s
  else raiseAll 2 (event 0x0606 payload { s with boot := { s.boot with readOnly := true, roCause := cause } })

end Sys2Proof.Machine
end

