-- ==== Sys2Proof/Machine/Crypto.lean ====
section
/-! DEFINITION. The published functions the manual names: CRC-32C and CRC-32, SipHash-2-4-128, AES-256 with XTS and
key wrap, SHA-384 and ECDSA over P-384. -/

namespace Sys2Proof.Machine

open Sys2Proof

/-! ## Cyclic redundancy checks -/

/-- One bit of a reflected CRC with polynomial `poly`. -/
def crcBit (poly c : Nat) : Nat := if c % 2 = 1 then (c / 2) ^^^ poly else c / 2

/-- One byte of a reflected CRC. -/
def crcByte (poly c : Nat) (b : Byte) : Nat :=
  let f := crcBit poly
  f (f (f (f (f (f (f (f (c ^^^ b.toNat))))))))

/-- A reflected 32-bit CRC, initial value and final exclusive-or all ones. -/
def crc32With (poly : Nat) (m : Bytes) : Nat := (m.foldl (crcByte poly) 0xFFFFFFFF) ^^^ 0xFFFFFFFF

/-- CRC-32C (Castagnoli). -/
def crc32c (m : Bytes) : Nat := crc32With 0x82F63B78 m

/-- CRC-32 of the Ethernet frame check sequence. -/
def crc32 (m : Bytes) : Nat := crc32With 0xEDB88320 m

/-! ## SipHash-2-4 with a 128-bit result -/

/-- Addition modulo 2^64. -/
def add64 (a b : Nat) : Nat := (a + b) % 2 ^ 64

/-- Rotation to the left in 64 bits. -/
def rotl64 (a n : Nat) : Nat := a * 2 ^ n % 2 ^ 64 + a / 2 ^ (64 - n)

/-- The four words of the SipHash state. -/
abbrev Sip := Nat × Nat × Nat × Nat

/-- One SipRound. -/
def sipRound : Sip → Sip
  | (v0, v1, v2, v3) =>
    let v0 := add64 v0 v1
    let v1 := rotl64 v1 13 ^^^ v0
    let v0 := rotl64 v0 32
    let v2 := add64 v2 v3
    let v3 := rotl64 v3 16 ^^^ v2
    let v0 := add64 v0 v3
    let v3 := rotl64 v3 21 ^^^ v0
    let v2 := add64 v2 v1
    let v1 := rotl64 v1 17 ^^^ v2
    let v2 := rotl64 v2 32
    (v0, v1, v2, v3)

/-- Absorb one 64-bit word. -/
def sipWord (m : Nat) : Sip → Sip
  | (v0, v1, v2, v3) =>
    match sipRound (sipRound (v0, v1, v2, v3 ^^^ m)) with
    | (w0, w1, w2, w3) => (w0 ^^^ m, w1, w2, w3)

/-- Absorb the whole words of a message; `n` bounds their number. -/
def sipWords : Nat → Bytes → Sip → Sip
  | 0, _, s => s
  | n + 1, m, s => sipWords n (m.drop 8) (sipWord (leNat (m.take 8)) s)

/-- Four finalisation rounds and the exclusive-or of the state. -/
def sipFinal (s : Sip) : Sip × Nat :=
  match sipRound (sipRound (sipRound (sipRound s))) with
  | (a, b, c, d) => ((a, b, c, d), a ^^^ b ^^^ c ^^^ d)

/-- SipHash-2-4 with a 128-bit result under a 128-bit key, both as little-endian numbers. -/
def sipHash128 (key : Nat) (m : Bytes) : Nat :=
  let k0 := key % 2 ^ 64
  let k1 := key / 2 ^ 64 % 2 ^ 64
  let s0 : Sip := (k0 ^^^ 0x736f6d6570736575, k1 ^^^ 0x646f72616e646f6d ^^^ 0xee,
                   k0 ^^^ 0x6c7967656e657261, k1 ^^^ 0x7465646279746573)
  let whole := m.length / 8
  let s1 := sipWords whole m s0
  let last := leNat (m.drop (8 * whole)) + m.length % 256 * 2 ^ 56
  match sipWord last s1 with
  | (a, b, c, d) =>
    let r := sipFinal (a, b, c ^^^ 0xee, d)
    match r.1 with
    | (e, f, g, h) => r.2 + 2 ^ 64 * (sipFinal (e, f ^^^ 0xdd, g, h)).2

/-! ## AES-256 -/

/-- Multiplication by x in GF(2^8) with polynomial 0x11B. -/
def xtime (a : Nat) : Nat := if a < 128 then 2 * a else (2 * a) ^^^ 0x11B

/-- Multiplication in GF(2^8); the first argument counts the bits of `b` left. -/
def gmulBits : Nat → Nat → Nat → Nat
  | 0, _, _ => 0
  | n + 1, a, b => (if b % 2 = 1 then a else 0) ^^^ gmulBits n (xtime a) (b / 2)

/-- Multiplication in GF(2^8). -/
def gmul (a b : Nat) : Nat := gmulBits 8 a b

/-- Inverse in GF(2^8), 0 for 0. -/
def ginv (x : Nat) : Nat :=
  let x2 := gmul x x
  let x3 := gmul x2 x
  let x6 := gmul x3 x3
  let x12 := gmul x6 x6
  let x15 := gmul x12 x3
  let x30 := gmul x15 x15
  let x60 := gmul x30 x30
  let x120 := gmul x60 x60
  let x126 := gmul x120 x6
  let x127 := gmul x126 x
  gmul x127 x127

/-- Rotation to the left in 8 bits. -/
def rotl8 (a n : Nat) : Nat := a * 2 ^ n % 256 + a / 2 ^ (8 - n)

/-- The AES substitution. -/
def sbox (x : Nat) : Nat :=
  let b := ginv x
  b ^^^ rotl8 b 1 ^^^ rotl8 b 2 ^^^ rotl8 b 3 ^^^ rotl8 b 4 ^^^ 0x63

/-- The inverse substitution. -/
def sboxInv (y : Nat) : Nat := ginv (rotl8 y 1 ^^^ rotl8 y 3 ^^^ rotl8 y 6 ^^^ 5)

/-- Byte-wise exclusive-or. -/
def xorBytes (a b : List Nat) : List Nat := List.zipWith (· ^^^ ·) a b

/-- Key schedule: `n` further words, newest word first in the accumulator; `i` is the number of words held. -/
def keyWords : Nat → Nat → Nat → List (List Nat) → List (List Nat)
  | 0, _, _, ws => ws
  | n + 1, i, rcon, ws =>
    let prev := ws.headD []
    let back := ws.getD 7 []
    if i % 8 = 0 then
      let t := ((prev.drop 1) ++ (prev.take 1)).map sbox
      let t := xorBytes t [rcon, 0, 0, 0]
      keyWords n (i + 1) (xtime rcon) (xorBytes back t :: ws)
    else if i % 8 = 4 then keyWords n (i + 1) rcon (xorBytes back (prev.map sbox) :: ws)
    else keyWords n (i + 1) rcon (xorBytes back prev :: ws)

/-- Cut a list into pieces of `k`. -/
def pieces {α : Type} (k : Nat) : Nat → List α → List (List α)
  | 0, _ => []
  | n + 1, l => l.take k :: pieces k n (l.drop k)

/-- The fifteen round keys of a 32-byte key. -/
def roundKeys (key : List Nat) : List (List Nat) :=
  let ws := (keyWords 52 8 1 (pieces 4 8 key).reverse).reverse
  (pieces 4 15 ws).map List.flatten

/-- Row shift of the state, column by column. -/
def shiftRows (s : List Nat) : List Nat :=
  [0, 5, 10, 15, 4, 9, 14, 3, 8, 13, 2, 7, 12, 1, 6, 11].map (fun i => s.getD i 0)

/-- The inverse row shift. -/
def shiftRowsInv (s : List Nat) : List Nat :=
  [0, 13, 10, 7, 4, 1, 14, 11, 8, 5, 2, 15, 12, 9, 6, 3].map (fun i => s.getD i 0)

/-- One column times the circulant matrix of `a b c d`. -/
def mixColumn (a b c d : Nat) (k : List Nat) : List Nat :=
  let x := k.getD 0 0
  let y := k.getD 1 0
  let z := k.getD 2 0
  let w := k.getD 3 0
  [gmul a x ^^^ gmul b y ^^^ gmul c z ^^^ gmul d w, gmul d x ^^^ gmul a y ^^^ gmul b z ^^^ gmul c w,
   gmul c x ^^^ gmul d y ^^^ gmul a z ^^^ gmul b w, gmul b x ^^^ gmul c y ^^^ gmul d z ^^^ gmul a w]

/-- The column mixing of the whole state. -/
def mixColumns (a b c d : Nat) (s : List Nat) : List Nat := ((pieces 4 4 s).map (mixColumn a b c d)).flatten

/-- The rounds of encryption for the round keys left. -/
def aesRounds : List (List Nat) → List Nat → List Nat
  | [], s => s
  | [k], s => xorBytes (shiftRows (s.map sbox)) k
  | k :: ks, s => aesRounds ks (xorBytes (mixColumns 2 3 1 1 (shiftRows (s.map sbox))) k)

/-- AES-256 encryption of one block. -/
def aesEncrypt (key block : List Nat) : List Nat :=
  match roundKeys key with
  | [] => block
  | k :: ks => aesRounds ks (xorBytes block k)

/-- The rounds of decryption, round keys last to first. -/
def aesRoundsInv : List (List Nat) → List Nat → List Nat
  | [], s => s
  | [k], s => xorBytes ((shiftRowsInv s).map sboxInv) k
  | k :: ks, s => aesRoundsInv ks (mixColumns 14 11 13 9 (xorBytes ((shiftRowsInv s).map sboxInv) k))

/-- AES-256 decryption of one block. -/
def aesDecrypt (key block : List Nat) : List Nat :=
  match (roundKeys key).reverse with
  | [] => block
  | k :: ks => aesRoundsInv ks (xorBytes block k)

/-- A number as bytes, little-endian, for the block functions. -/
def natBytes (n v : Nat) : List Nat := (natLe n v).map BitVec.toNat

/-- Bytes as a little-endian number. -/
def bytesNat : List Nat → Nat
  | [] => 0
  | b :: t => b + 256 * bytesNat t

/-- Multiplication of an XTS tweak value by x in GF(2^128) (IEEE 1619). -/
def xtsNext (t : Nat) : Nat := (2 * t % 2 ^ 128) ^^^ (if t / 2 ^ 127 % 2 = 1 then 0x87 else 0)

/-- The tweak value of block `j` of a data unit (R532, R535, R548). -/
def xtsValue (key2 : List Nat) (tweak : Nat) : Nat → Nat
  | 0 => bytesNat (aesEncrypt key2 (natBytes 16 tweak))
  | j + 1 => xtsNext (xtsValue key2 tweak j)

/-- XTS-AES-256 encryption of block `j` of a data unit (R532). The 64-byte key is Key1 then Key2. -/
def xtsEncrypt (key : List Nat) (tweak j : Nat) (block : List Nat) : List Nat :=
  let t := natBytes 16 (xtsValue (key.drop 32) tweak j)
  xorBytes (aesEncrypt (key.take 32) (xorBytes block t)) t

/-- XTS-AES-256 decryption of block `j` of a data unit (R532). -/
def xtsDecrypt (key : List Nat) (tweak j : Nat) (block : List Nat) : List Nat :=
  let t := natBytes 16 (xtsValue (key.drop 32) tweak j)
  xorBytes (aesDecrypt (key.take 32) (xorBytes block t)) t

/-- One step of key unwrapping: `t` is the step number, `i` the place of the semiblock. -/
def unwrapStep (kek : List Nat) (t i : Nat) (s : List Nat × List (List Nat)) : List Nat × List (List Nat) :=
  let a := xorBytes s.1 (natBytes 8 t).reverse
  let b := aesDecrypt kek (a ++ s.2.getD i [])
  (b.take 8, s.2.set i (b.drop 8))

/-- Steps `t` down to 1 of key unwrapping over `n` semiblocks. -/
def unwrapSteps (kek : List Nat) (n : Nat) : Nat → List Nat × List (List Nat) → List Nat × List (List Nat)
  | 0, s => s
  | t + 1, s => unwrapSteps kek n t (unwrapStep kek (t + 1) (t % n) s)

/-- AES key unwrap (KW, R540) of a 72-byte wrapped key; `none` when the integrity check fails. -/
def keyUnwrap (kek wrapped : List Nat) : Option (List Nat) :=
  let r := unwrapSteps kek 8 48 (wrapped.take 8, pieces 8 8 (wrapped.drop 8))
  if r.1 = [0xA6, 0xA6, 0xA6, 0xA6, 0xA6, 0xA6, 0xA6, 0xA6] then some r.2.flatten else none

/-- The key check value of a 64-byte key (R541). -/
def keyCheck (key : List Nat) : Nat :=
  bytesNat ((aesEncrypt (key.take 32) (List.replicate 16 0)).take 4)

/-! ## SHA-384 -/

/-- Round constants 0 to 9 of SHA-384. -/
def shaK0 : List Nat :=
  [0x428a2f98d728ae22, 0x7137449123ef65cd, 0xb5c0fbcfec4d3b2f, 0xe9b5dba58189dbbc, 0x3956c25bf348b538,
   0x59f111f1b605d019, 0x923f82a4af194f9b, 0xab1c5ed5da6d8118, 0xd807aa98a3030242, 0x12835b0145706fbe]

/-- Round constants 10 to 19 of SHA-384. -/
def shaK1 : List Nat :=
  [0x243185be4ee4b28c, 0x550c7dc3d5ffb4e2, 0x72be5d74f27b896f, 0x80deb1fe3b1696b1, 0x9bdc06a725c71235,
   0xc19bf174cf692694, 0xe49b69c19ef14ad2, 0xefbe4786384f25e3, 0x0fc19dc68b8cd5b5, 0x240ca1cc77ac9c65]

/-- Round constants 20 to 29 of SHA-384. -/
def shaK2 : List Nat :=
  [0x2de92c6f592b0275, 0x4a7484aa6ea6e483, 0x5cb0a9dcbd41fbd4, 0x76f988da831153b5, 0x983e5152ee66dfab,
   0xa831c66d2db43210, 0xb00327c898fb213f, 0xbf597fc7beef0ee4, 0xc6e00bf33da88fc2, 0xd5a79147930aa725]

/-- Round constants 30 to 39 of SHA-384. -/
def shaK3 : List Nat :=
  [0x06ca6351e003826f, 0x142929670a0e6e70, 0x27b70a8546d22ffc, 0x2e1b21385c26c926, 0x4d2c6dfc5ac42aed,
   0x53380d139d95b3df, 0x650a73548baf63de, 0x766a0abb3c77b2a8, 0x81c2c92e47edaee6, 0x92722c851482353b]

/-- Round constants 40 to 49 of SHA-384. -/
def shaK4 : List Nat :=
  [0xa2bfe8a14cf10364, 0xa81a664bbc423001, 0xc24b8b70d0f89791, 0xc76c51a30654be30, 0xd192e819d6ef5218,
   0xd69906245565a910, 0xf40e35855771202a, 0x106aa07032bbd1b8, 0x19a4c116b8d2d0c8, 0x1e376c085141ab53]

/-- Round constants 50 to 59 of SHA-384. -/
def shaK5 : List Nat :=
  [0x2748774cdf8eeb99, 0x34b0bcb5e19b48a8, 0x391c0cb3c5c95a63, 0x4ed8aa4ae3418acb, 0x5b9cca4f7763e373,
   0x682e6ff3d6b2b8a3, 0x748f82ee5defb2fc, 0x78a5636f43172f60, 0x84c87814a1f0ab72, 0x8cc702081a6439ec]

/-- Round constants 60 to 69 of SHA-384. -/
def shaK6 : List Nat :=
  [0x90befffa23631e28, 0xa4506cebde82bde9, 0xbef9a3f7b2c67915, 0xc67178f2e372532b, 0xca273eceea26619c,
   0xd186b8c721c0c207, 0xeada7dd6cde0eb1e, 0xf57d4f7fee6ed178, 0x06f067aa72176fba, 0x0a637dc5a2c898a6]

/-- Round constants 70 to 79 of SHA-384. -/
def shaK7 : List Nat :=
  [0x113f9804bef90dae, 0x1b710b35131c471b, 0x28db77f523047d84, 0x32caab7b40c72493, 0x3c9ebe0a15c9bebc,
   0x431d67c49c100d4c, 0x4cc5d4becb3e42b6, 0x597f299cfc657e2a, 0x5fcb6fab3ad6faec, 0x6c44198c4a475817]

/-- The round constants of SHA-384. -/
def shaK : List Nat := shaK0 ++ shaK1 ++ shaK2 ++ shaK3 ++ shaK4 ++ shaK5 ++ shaK6 ++ shaK7

/-- The initial hash value of SHA-384. -/
def shaH : List Nat :=
  [0xcbbb9d5dc1059ed8, 0x629a292a367cd507, 0x9159015a3070dd17, 0x152fecd8f70e5939,
   0x67332667ffc00b31, 0x8eb44a8768581511, 0xdb0c2e0d64f98fa7, 0x47b5481dbefa4fa4]

/-- Rotation to the right in 64 bits. -/
def rotr64 (a n : Nat) : Nat := a / 2 ^ n + a % 2 ^ n * 2 ^ (64 - n)

/-- The message schedule, newest word first: `n` further words. -/
def shaWords : Nat → List Nat → List Nat
  | 0, ws => ws
  | n + 1, ws =>
    let a := ws.getD 14 0
    let b := ws.getD 1 0
    let s0 := rotr64 a 1 ^^^ rotr64 a 8 ^^^ (a / 2 ^ 7)
    let s1 := rotr64 b 19 ^^^ rotr64 b 61 ^^^ (b / 2 ^ 6)
    shaWords n (((ws.getD 15 0 + s0 + ws.getD 6 0 + s1) % 2 ^ 64) :: ws)

/-- One round over the eight working variables. -/
def shaRound (kw : Nat) : List Nat → List Nat
  | [a, b, c, d, e, f, g, h] =>
    let s1 := rotr64 e 14 ^^^ rotr64 e 18 ^^^ rotr64 e 41
    let ch := (e &&& f) ^^^ ((2 ^ 64 - 1 - e) &&& g)
    let t1 := h + s1 + ch + kw
    let s0 := rotr64 a 28 ^^^ rotr64 a 34 ^^^ rotr64 a 39
    let mj := (a &&& b) ^^^ (a &&& c) ^^^ (b &&& c)
    [(t1 + s0 + mj) % 2 ^ 64, a, b, c, (d + t1) % 2 ^ 64, e, f, g]
  | l => l

/-- The compression of one 128-byte block. -/
def shaBlock (h : List Nat) (block : Bytes) : List Nat :=
  let ws := (shaWords 64 ((pieces 8 16 block).map beNat).reverse).reverse
  let r := (List.zipWith (· + ·) shaK ws).foldl (fun v kw => shaRound kw v) h
  List.zipWith (fun x y => (x + y) % 2 ^ 64) h r

/-- SHA-384 of a byte string, as a big-endian number. -/
def sha384 (m : Bytes) : Nat :=
  let pad := (239 - m.length % 128) % 128
  let padded := m ++ [0x80#8] ++ List.replicate pad 0#8 ++ natBe 16 (8 * m.length)
  let h := (pieces 128 (padded.length / 128) padded).foldl shaBlock shaH
  (h.take 6).foldl (fun a w => a * 2 ^ 64 + w) 0

/-! ## ECDSA over P-384 -/

/-- The prime of P-384. -/
def p384p : Nat := 2 ^ 384 - 2 ^ 128 - 2 ^ 96 + 2 ^ 32 - 1
/-- The coefficient b of P-384. -/
def p384b : Nat :=
  0xb3312fa7e23ee7e4988e056be3f82d19181d9c6efe8141120314088f5013875ac656398d8a2ed19d2a85c8edd3ec2aef
/-- The order of the base point. -/
def p384n : Nat :=
  0xffffffffffffffffffffffffffffffffffffffffffffffffc7634d81f4372ddf581a0db248b0a77aecec196accc52973
/-- The base point. -/
def p384g : Nat × Nat :=
  (0xaa87ca22be8b05378eb1c71ef320ad746e1d3b628ba79b9859f741e082542a385502f25dbf55296c3a545e3872760ab7,
   0x3617de4a96262c6f5d9e98bf9292dc29f8f41dbd289a147ce9da3113b5f0b8c00a60b1ce1d7e819d7a431d7c90ea0e5f)

/-- Modular power; the first argument bounds the bits of the exponent. -/
def powMod (m : Nat) : Nat → Nat → Nat → Nat
  | 0, _, _ => 1 % m
  | k + 1, x, e =>
    let r := powMod m k (x * x % m) (e / 2)
    if e % 2 = 1 then x * r % m else r

/-- Inverse modulo a prime of 384 bits. -/
def invMod (m x : Nat) : Nat := powMod m 384 (x % m) (m - 2)

/-- Sum of two points of P-384; `none` is the point at infinity. -/
def p384Add : Option (Nat × Nat) → Option (Nat × Nat) → Option (Nat × Nat)
  | none, q => q
  | p, none => p
  | some (x1, y1), some (x2, y2) =>
    if x1 = x2 ∧ (y1 + y2) % p384p = 0 then none
    else
      let l := if x1 = x2 then (3 * x1 * x1 + (p384p - 3)) * invMod p384p (2 * y1) % p384p
        else (y2 + p384p - y1) * invMod p384p (x2 + p384p - x1) % p384p
      let x3 := (l * l + 2 * p384p - x1 - x2) % p384p
      some (x3, (l * (x1 + p384p - x3) + p384p - y1) % p384p)

/-- Multiple of a point; the first argument bounds the bits of the factor. -/
def p384Mul : Nat → Nat → Option (Nat × Nat) → Option (Nat × Nat)
  | 0, _, _ => none
  | k + 1, e, p =>
    let r := p384Mul k (e / 2) (p384Add p p)
    if e % 2 = 1 then p384Add p r else r

/-- The point lies on the curve. -/
def p384On (x y : Nat) : Bool :=
  decide (x < p384p ∧ y < p384p ∧ (x * x * x + (p384p - 3) * x + p384b) % p384p = y * y % p384p)

/-- ECDSA verification over P-384 of signature `(r, s)` on hash `h` under public key `(x, y)`. -/
def ecdsaVerify (h r s x y : Nat) : Bool :=
  if r = 0 ∨ s = 0 ∨ p384n ≤ r ∨ p384n ≤ s ∨ p384On x y = false then false
  else
    let w := invMod p384n s
    match p384Add (p384Mul 384 (h * w % p384n) (some p384g)) (p384Mul 384 (r * w % p384n) (some (x, y))) with
    | none => false
    | some (px, _) => decide (px % p384n = r)

end Sys2Proof.Machine
end

