-- ==== Sys2Proof/Machine/Cipher.lean ====
section
/-! DEFINITION. The cipher block (ch 11): tweaks, key slots, engine locks, generators and noise sources. -/

namespace Sys2Proof.Machine

open Sys2Proof

/-- An engine after a cold start: free, not retired. -/
def engineBlank : Nat → Engine := fun _ => {}

/-- A generator after its start-up reseed. -/
def genBlank : Nat → Gen := fun _ => {}

/-- A key slot that holds no key. -/
def keyBlank : Nat → KeySlot := fun _ => {}

/-- The tweak of a codeword of a meld: space 0 and the media address of its first unit (R535). -/
def mediaTweak (addr : Nat) : Nat := addr % 2 ^ 40

/-- The tweak of a codeword of a flush set (space 1) or a root block (space 2) (R535). -/
def blockTweak (space die plane block page cw : Nat) : Nat :=
  pack [(0, 9, die), (9, 2, plane), (11, 11, block), (22, 9, page), (31, 2, cw), (120, 8, space)]

/-- Engine `n`. -/
def engineAt (s : State) (n : Nat) : Engine := tget engineBlank s.xts.engines n

/-- Engine `n` becomes `e`. -/
def setEngine (n : Nat) (e : Engine) (s : State) : State :=
  { s with xts := { s.xts with engines := tset engineBlank s.xts.engines n e } }

/-- Generator `g`: 0 to 15 are the mask generators of the engines, 16 is the key generator (R551). -/
def genAt (s : State) (g : Nat) : Gen := tget genBlank s.xts.gens g

/-- Engines not retired (R559). -/
def enginesLeft (s : State) : Nat := ((List.range 16).filter (fun n => !(engineAt s n).retired)).length


/-- A noise source passes, so a generator can be reseeded (R555). -/
def noisePasses (s : State) : Bool := s.xts.aOk || s.xts.bOk

/-- An engine that may take a new message: not retired, its mask generator not stopped (R555, R558). -/
def engineTakes (s : State) (n : Nat) : Bool := !(engineAt s n).retired && !(genAt s n).stopped

/-- Bytes of cipher work the calendar may grant in a slot (R559); none once every mask generator has stopped, when work on the
media waits and is then refused (R555). -/
def cipherGrantable (s : State) : Nat :=
  if (List.range 16).any (engineTakes s) then (enginesLeft s - 1) * 204800 else 0

/-- The lowest-numbered free engine (R546). -/
def freeEngine (s : State) : Option Nat :=
  (List.range 16).find? (fun n => engineTakes s n && (engineAt s n).owner.isNone)

/-- The lowest-numbered engine whose owner runs a normal message (R546). -/
def normalEngine (s : State) : Option Nat :=
  (List.range 16).find? (fun n => engineTakes s n &&
    (match (engineAt s n).owner with | some m => !m.urgent | none => false))

/-- Blocks of the message that have entered the engine: the first 40 ns after the grant, one each 1.25 ns (R549). -/
def blocksTaken (e : Engine) (m : Msg) (t : Nat) : Nat :=
  if t < e.at_ + 40 then 0 else min (m.blocks - m.next) ((t - e.at_ - 40) * 4 / 5 + 1)

/-- Blocks of the message that the engine has released: a block is in the pipeline for 20 ns (R549). -/
def blocksOut (e : Engine) (m : Msg) (t : Nat) : Nat := if t < 20 then 0 else blocksTaken e m (t - 20)

/-- Engine `n` is granted to message `m`. -/
def grantEngine (n : Nat) (m : Msg) (s : State) : State :=
  setEngine n { engineAt s n with owner := some m, at_ := now s, leaving := none } s

/-- The waiting claim that is granted next: flush, then other urgent claims, then normal claims, each in arrival order
(R546). -/
def nextClaim (w : List Msg) : Option Msg :=
  match w.find? (fun m => decide (m.requester = 5)) with
  | some m => some m
  | none =>
    match w.find? (fun m => m.urgent) with
    | some m => some m
    | none => w.head?

/-- Waiting claims are granted while engines are free; the count bounds the grants. -/
def grantWaiting : Nat → State → State
  | 0, s => s
  | k + 1, s =>
    match freeEngine s, nextClaim s.xts.waiting with
    | some n, some m =>
      grantWaiting k (grantEngine n m { s with xts := { s.xts with waiting := s.xts.waiting.erase m } })
    | _, _ => s

/-- A claim that found no engine free waits (R546). -/
def waitClaim (m : Msg) (s : State) : State :=
  { s with xts := { s.xts with waiting := s.xts.waiting ++ [m] } }

/-- Blocks leave engine `n`: the bytes released and the mask requests of the data units (R551, R553, R560). -/
def blocksReleased (n k : Nat) (s : State) : State :=
  let e := engineAt s n
  let g := genAt s n
  let s1 := setEngine n { e with bytes := e.bytes + 16 * k } s
  let q := g.requests + ceilDiv k 256
  { s1 with xts := { s1.xts with gens := tset genBlank s1.xts.gens n { g with requests := q },
                                 unseeded := min 0xFFFFFFFF (max s1.xts.unseeded q) } }

/-- Engine `n` suspends its message for an urgent claim: the resume point goes back to its requester, which claims
again (R547, R548). -/
def suspendEngine (n : Nat) (m : Msg) (s : State) : State :=
  let e := engineAt s n
  let k := blocksTaken e m (now s)
  let r := { m with next := m.next + k }
  let s1 := blocksReleased n k s
  let s2 := setEngine n { engineAt s1 n with suspends := e.suspends + 1, owner := none } s1
  waitClaim r (emit (.resume n r) { s2 with xts := { s2.xts with waits := s2.xts.waits + 1 } })

/-- The engine of a normal message passes to an urgent one. A message whose last block has been released is released, not
suspended (R550); otherwise the lock passes once the pipeline is empty, 20 ns later (R547). -/
def takeOver (n : Nat) (v m : Msg) (s : State) : State :=
  let e := engineAt s n
  if blocksOut e v (now s) = v.blocks - v.next then grantEngine n m (blocksReleased n (v.blocks - v.next) s)
  else
    let s1 := suspendEngine n v s
    setEngine n { engineAt s1 n with owner := some m, at_ := now s + 20, leaving := some v } s1

/-- A claim under R546. Claims of one CK_FAB cycle come one by one, in ascending requester code (log entry 109). -/
def claim (m : Msg) (s : State) : State :=
  match freeEngine s with
  | some n => grantEngine n m s
  | none =>
    let s1 := { s with xts := { s.xts with waits := s.xts.waits + 1 } }
    if m.urgent then
      match normalEngine s1 with
      | some n =>
        match (engineAt s1 n).owner with
        | some v => takeOver n v m s1
        | none => s1
      | none => waitClaim m s1
    else waitClaim m s1

/-- Requester codes 1 to 6 and slots up to 4,096 are the claims the block knows (Table 11-3, R536); the power block's
flush is always urgent, the drain, relocation, recovery and self-test never. -/
def claimValid (m : Msg) : Bool :=
  decide (1 ≤ m.requester ∧ m.requester ≤ 6 ∧ m.keySlot ≤ 4096 ∧ m.next ≤ m.blocks) &&
  (if m.requester = 5 then m.urgent else if m.requester = 2 then true else !m.urgent)

/-- The code of a retirement cause (Table 11-5). -/
def engineCause : EngineCause → Nat
  | .knownAnswer => 1 | .parity => 2 | .noProgress => 3 | .lockFault => 4

/-- An engine is retired (R558, R559): its message is claimed again from its first unreleased block, ahead of every waiting
claim of its urgency. -/
def retireEngine (n : Nat) (c : EngineCause) (s : State) : State :=
  let e := engineAt s n
  if e.retired ∨ 16 ≤ n then s
  else
    let out := match e.owner with
      | some m => blocksOut e m (now s)
      | none => 0
    let again := match e.owner with
      | some m => [{ m with next := m.next + out }]
      | none => []
    let s := blocksReleased n out s
    let e := engineAt s n
    let e' := { e with retired := true, owner := none, cause := engineCause c,
                       checkErr := e.checkErr + (match c with | .parity => 1 | _ => 0) }
    let s1 := setEngine n e' s
    let s2 := { s1 with xts := { s1.xts with waiting := again ++ s1.xts.waiting,
                                             lockFault := s1.xts.lockFault + (match c with | .lockFault => 1 | _ => 0) } }
    let s3 := grantWaiting 16 (event 0x0802 [engineCause c] s2)
    if enginesLeft s3 = 1 then event 0x0802 [] s3 else s3

/-- Reseed generator `g` (R553). -/
def reseed (g : Nat) (s : State) : State :=
  { s with xts := { s.xts with gens := tset genBlank s.xts.gens g { requests := 0, at_ := now s, stopped := false },
                               reseeds := s.xts.reseeds + 1 } }

/-! ## Key slots (R536 to R542) -/

/-- The key of slot `n`: 0 to 4,095 the namespace slots, 4,096 the media key slot (R536, R537). -/
def keyOf (s : State) (n : Nat) : Option (BitVec 512) :=
  if n = 4096 then some Config.mediaKey else (tget keyBlank s.xts.slots n).key

/-- Namespaces not FREE whose cipher_key_slot names slot `n` (Table 11-1). -/
def slotUsers (s : State) (n : Nat) : Nat :=
  (s.nss.filter (fun p => decide (p.2.state ≠ 0 ∧ p.2.keySlot = n))).length

/-- A key is loaded into slot `n`. -/
def loadKey (n : Nat) (k : BitVec 512) (imported : Bool) (s : State) : State :=
  { s with xts := { s.xts with slots := tset keyBlank s.xts.slots n
                                          { key := some k, imported := imported, loadedAt := now s } } }

/-- The halves of a 64-byte key are equal (R540, R542). -/
def halvesEqual (k : Nat) : Bool := decide (k % 2 ^ 256 = k / 2 ^ 256)

/-- A drawn key: 64 bytes from the key generator, the halves never equal (R540). The value is free (log entry 1); where
it has equal halves the module draws again, which is taken here as its complement in the upper half. -/
def drawnKey (s : State) : BitVec 512 :=
  let k := fresh 512 s
  if halvesEqual k then BitVec.ofNat 512 (k ^^^ 2 ^ 511) else BitVec.ofNat 512 k

/-- Generate: the key generator reseeds and a key is drawn (R540, R553). -/
def keyGenerate (n : Nat) (s : State) : State :=
  let s1 := reseed 16 s
  drawn (loadKey n (drawnKey s1) false s1)

/-- The 64-byte key that `wrapped` holds under the key-import key (R540); none where R542 refuses it. -/
def importedKey (kik : BitVec 256) (wrapped : Nat) : Option (BitVec 512) :=
  match keyUnwrap (natBytes 32 kik.toNat) (natBytes 72 wrapped) with
  | none => none
  | some k => if halvesEqual (bytesNat k) then none else some (BitVec.ofNat 512 (bytesNat k))

/-- Zeroize: the slot and every stored copy of it are overwritten (R540). -/
def keyZeroize (n : Nat) (s : State) : State :=
  { s with xts := { s.xts with slots := tset keyBlank s.xts.slots n {} } }

/-- The cipher block serves: it is powered, and its clock is not gated by a freeze (Table 12-2, R647). -/
def cipherOn (s : State) : Bool :=
  decide (s.frz.state = 0) && (match s.pwr.sup with
    | .normal => true | .dip => true | .resume => true | .flush => true | .spent => false | .off => false)

/-! ## Meanings -/

/-- CIPHER_CLAIM (R546): a requester claims an engine for a message. -/
def execCipherClaim (requester keySlot : Nat) (urgent encrypt : Bool) (tweak nextBlock blocks : Nat) (s : State) : R :=
  let m : Msg := { requester := requester, keySlot := keySlot, urgent := urgent, encrypt := encrypt,
                   tweak := tweak % 2 ^ 128, next := nextBlock, blocks := blocks }
  .next (guard (cipherOn s && claimValid m) (claim m) s)

/-- CIPHER_RELEASE (R550): the owner releases the lock; the engine is free and a waiting claim is granted. -/
def execCipherRelease (engine : Nat) (s : State) : R :=
  .next (guard (cipherOn s)
    (fun s => match (engineAt s engine).owner with
      | none => s
      | some m =>
        let s1 := blocksReleased engine (m.blocks - m.next) s
        grantWaiting 16 (setEngine engine { engineAt s1 engine with owner := none } s1)) s)

/-- The condition of R558 as far as the engine shows it: an engine makes no progress only while it has been owned for 2 µs. -/
def engineFails (s : State) (n : Nat) : EngineCause → Bool
  | .knownAnswer => true
  | .parity => true
  | .noProgress => (engineAt s n).owner.isSome && decide ((engineAt s n).at_ + 2000 ≤ now s)
  | .lockFault => true

/-- CIPHER_ENGINE_RETIRE (R558): an engine is retired. -/
def execCipherEngineRetire (engine : Nat) (cause : EngineCause) (s : State) : R :=
  whenRunning (guard (engineFails s engine cause) (retireEngine engine cause)) s

/-- GENERATOR_RESEED (R553): after 1,048,576 requests or reseed_ms, while a noise source passes. -/
def execGeneratorReseed (gen : Nat) (s : State) : R :=
  whenRunning (guard (noisePasses s && decide (gen ≤ 16 ∧
    (1048576 ≤ (genAt s gen).requests ∨ (genAt s gen).at_ + s.xts.reseedMs * 1000000 ≤ now s))) (reseed gen)) s

/-- NOISE_SOURCE_FAIL (R554, R555): a noise source fails a test and is excluded. -/
def execNoiseSourceFail (sourceB repetition : Bool) (s : State) : R :=
  whenRunning (fun s =>
    let ok := if sourceB then s.xts.bOk else s.xts.aOk
    if ok = false then s
    else
      let x := { s.xts with aOk := s.xts.aOk && sourceB, bOk := s.xts.bOk && !sourceB,
                            rct := s.xts.rct + b2n repetition, apt := s.xts.apt + b2n (!repetition) }
      let s1 := event 0x0801 [] { s with xts := x }
      if noisePasses s1 then s1 else event 0x0801 [] s1) s

/-- NOISE_SOURCE_REJOIN (R554): the source passes a new start-up test. -/
def execNoiseSourceRejoin (sourceB : Bool) (s : State) : R :=
  whenRunning (fun s =>
    { s with xts := { s.xts with aOk := s.xts.aOk || !sourceB, bOk := s.xts.bOk || sourceB } }) s

/-- MASK_GENERATOR_STOP (R555): with neither source passing, a mask generator stops after 2^32 requests. -/
def execMaskGeneratorStop (gen : Nat) (s : State) : R :=
  whenRunning (guard (decide (noisePasses s = false ∧ gen < 16 ∧ 2 ^ 32 ≤ (genAt s gen).requests))
    (fun s => event 0x0801 []
      { s with xts := { s.xts with gens := tset genBlank s.xts.gens gen { genAt s gen with stopped := true } } })) s

end Sys2Proof.Machine
end

