-- ==== Sys2Proof/Machine/HoldUp.lean ====
section
/-! DEFINITION. The kitty cap and the hold-up bank (ch 12): health, kitty target, bank faults and measurements. -/

namespace Sys2Proof.Machine

open Sys2Proof

/-- One GiB. -/
def gib : Nat := 1073741824

/-- v_floor of R573, in units of 0.1 mV. -/
def vFloor (esr : Nat) : Nat := 140000 + 5 * esr

/-- Capacitance in µF times the difference of squares of R573, in units of 1e-14 J halves. -/
def bankEnergy (capUf esr : Nat) : Nat := capUf * (360000 * 360000 - vFloor esr * vFloor esr)

/-- ESR in 0.1 mΩ: the step divided by 5.0 A (R572). -/
def esrOf (m : BankMeasure) : Nat := m.stepUv / 500

/-- Capacitance in µF: 5.0 A for 0.900 ms divided by the fall (R572). -/
def capOf (m : BankMeasure) : Nat := 4500000000 / m.fallUv

/-- e_avail of R573 in mJ. -/
def availMj (capUf esr : Nat) : Nat := bankEnergy capUf esr / 200000000000

/-- health_pct of R573, saturating at 255. -/
def healthPct (capUf esr : Nat) : Nat := min 255 (5 * bankEnergy capUf esr / 121000000000000)

/-- Kitty limit by health, in bytes (Table 12-6). -/
def healthLimit (h : Nat) : Nat :=
  if 95 ≤ h then 4 * gib else if 80 ≤ h then 2 * gib else if 60 ≤ h then gib else 0

/-- The health limit after a measurement: a fall applies at once, a rise only two points above the bound (R579). -/
def limitAfter (old h : Nat) : Nat :=
  if healthLimit h ≤ old then healthLimit h else max old (healthLimit (h - 2))

/-- kitty_target in bytes (R575, R578, R580, Table 02-9). -/
def kittyTarget (p : Power) : Nat :=
  if p.valid = false ∨ p.fault ≠ 0 ∨ p.low = true ∨ (p.aReady = false ∧ p.bReady = false) ∨ p.pinZero = true then 0
  else min (p.kittyMax * 268435456) (if p.stale then min p.limit gib else p.limit)

/-- kitty_cap: the target, or what is held when that is more (R81, R581). -/
def kittyCap (p : Power) : Nat := max p.target (p.pending + p.exposed)

/-- kitty_target is computed afresh; a change sets kitty_cap_changed and records an event (R583). -/
def retarget (s : State) : State :=
  let t := kittyTarget s.pwr
  let p := { s.pwr with target := t }
  let s1 := { s with pwr := { p with cap := kittyCap p } }
  if t = s.pwr.target then s1 else raiseAll 3 (event 0x0C05 [s.pwr.target, t, s.pwr.health] s1)

/-- Kitty bytes are reserved at admission (R80). -/
def kittyReserve (n : Nat) (s : State) : State :=
  let p := { s.pwr with pending := s.pwr.pending + n }
  { s with pwr := { p with cap := kittyCap p } }

/-- Reserved kitty bytes become exposed when the write is acknowledged (R80). -/
def kittyExpose (n : Nat) (s : State) : State :=
  { s with pwr := { s.pwr with pending := s.pwr.pending - n, exposed := s.pwr.exposed + n } }

/-- Kitty bytes that were never acknowledged are given back. -/
def kittyCancel (n : Nat) (s : State) : State :=
  let p := { s.pwr with pending := s.pwr.pending - n }
  { s with pwr := { p with cap := kittyCap p } }

/-- Kitty bytes are freed when the write is on flash (R80). -/
def kittyFree (n : Nat) (s : State) : State :=
  let p := { s.pwr with exposed := s.pwr.exposed - n }
  { s with pwr := { p with cap := kittyCap p } }

/-- Whether `n` more kitty bytes may be reserved (R80, R81). -/
def kittyFits (n : Nat) (s : State) : Bool :=
  decide (s.pwr.pending + s.pwr.exposed + n ≤ min s.pwr.target s.pwr.cap)

/-- The rails are in regulation, the root PLL is locked and the charger starts (Table 15-12, log entry 15). -/
def railsUp (s : State) : State :=
  let starts := !s.clk.rootLock && decide (s.pwr.sup = .normal ∧ s.pwr.fault = 0)
  { s with clk := { s.clk with rootLock := true },
           pwr := { s.pwr with input := true, charger := s.pwr.charger || starts,
                               chargeFrom := if starts && !s.pwr.charger then now s else s.pwr.chargeFrom } }

/-- The start of a measurement: the charger stops (R572). -/
def beginMeasure (s : State) : State :=
  { s with pwr := { s.pwr with measuring := true, charger := false, wanted := false } }

/-- A bank fault: the charger stops, the target falls to 0, an event is recorded (R570). -/
def bankFaulted (code : Nat) (s : State) : State :=
  retarget (event 0x0C03 [] { s with pwr := { s.pwr with fault := code, faultAt := now s, charger := false,
                                                         measuring := false } })

/-- A measurement succeeds (R573, R574, R579): health and its registers follow, a fault clears, the charger restarts. Where the
last measurement no longer counts, the limit is that of the new one (DEDUCED, log entry 110). -/
def measured (m : BankMeasure) (s : State) : State :=
  let h := healthPct (capOf m) (esrOf m)
  let p := s.pwr
  let changed := decide (p.valid = true ∧ (h + 5 < p.health ∨ p.health + 5 < h))
  let s1 := { s with pwr :=
    { p with valid := true, stale := false, fault := 0, measuring := false, charger := decide (p.sup = .normal), chargeFrom := now s, wanted := false,
             health := h, limit := (if p.valid then limitAfter p.limit h else healthLimit h),
             capUf := capOf m, esr := esrOf m, availMj := availMj (capOf m) (esrOf m), measAt := now s,
             meas := p.meas + 1 } }
  retarget (if changed then event 0x0C04 [] s1 else s1)

/-- A measurement ends: none is a bank from which 5 A could not be drawn, fault 5 (R570, R572). -/
def endMeasure (res : Option BankMeasure) (s : State) : State :=
  match res with
  | some m => measured m s
  | none =>
    bankFaulted 5 { s with pwr := { s.pwr with meas := s.pwr.meas + 1 } }

/-- The code of a bank fault (Table 12-5). -/
def bankFaultCode : BankFaultKind → Nat
  | .absent => 1 | .reversed => 2 | .chargeTimeout => 3 | .overVoltage => 4 | .pathFailed => 5

/-- The condition of Table 12-5, with the sense pair reading `mv`. A reading below −0.5 V shows as 0. -/
def faultSeen (s : State) (mv : Nat) : BankFaultKind → Bool
  | .absent => s.pwr.charger && decide (s.pwr.chargeFrom + 100000000 ≤ now s ∧ mv < 2000)
  | .reversed => decide (mv = 0)
  | .chargeTimeout => s.pwr.charger && decide (s.pwr.chargeFrom + 3000000000 ≤ now s ∧ mv < 35640)
  | .overVoltage => decide (38000 < mv)
  | .pathFailed => s.pwr.measuring

/-- The power block watches the bank: every state but FLUSH, SPENT and OFF (R687). A freeze does not stop it (R647). -/
def watching (s : State) : Bool :=
  match s.pwr.sup with
  | .normal => true | .dip => true | .resume => true | .flush => false | .spent => false | .off => false

/-! ## Meanings -/

/-- BANK_MEASUREMENT (R572): a measurement under way ends. -/
def execBankMeasurement (res : Option BankMeasure) (s : State) : R :=
  .next (guard (watching s && s.pwr.measuring) (endMeasure res) s)

/-- BANK_FAULT (R570): the charger finds a fault of Table 12-5. -/
def execBankFault (kind : BankFaultKind) (mv : Nat) (s : State) : R :=
  .next (guard (watching s && faultSeen s mv kind)
    (fun s => bankFaulted (bankFaultCode kind) { s with pwr := { s.pwr with bankMv := mv } }) s)

/-- BANK_FAULT_RETRY (R570): every 10 s the module attempts a new measurement while a fault holds. One that fails leaves the fault
as it was first found (DESIGN CHOICE, log entry 110). A measurement runs in NORMAL alone (R576). -/
def execBankFaultRetry (res : Option BankMeasure) (s : State) : R :=
  .next (guard (decide (s.pwr.sup = .normal ∧ s.pwr.fault ≠ 0 ∧ s.pwr.faultAt + 10000000000 ≤ now s))
    (fun s => match res with
      | some m => measured m s
      | none => { s with pwr := { s.pwr with faultAt := now s, meas := s.pwr.meas + 1 } }) s)

/-- BANK_BELOW_35V (R687): outside a measurement and outside FLUSH, the target falls to 0 and the last measurement no
longer counts. -/
def execBankBelow35v (mv : Nat) (s : State) : R :=
  .next (guard (watching s && !s.pwr.measuring && decide (mv < 35000))
    (fun s => retarget { s with pwr := { s.pwr with low := true, valid := false, bankMv := mv } }) s)

/-- BANK_BELOW_2V (R687): the charger starts afresh as for an empty bank. -/
def execBankBelow2v (mv : Nat) (s : State) : R :=
  .next (guard (watching s && !s.pwr.measuring && decide (mv < 2000))
    (fun s => retarget { s with pwr :=
      { s.pwr with low := true, valid := false, bankMv := mv, chargeFrom := now s, charger := decide (s.pwr.fault = 0 ∧ s.pwr.sup = .normal) } }) s)

/-- BANK_CHARGED (R574, R687): at 35.5 V the first measurement after a cold start begins with no reservation; later, a
measurement in a test slice is asked for. -/
def execBankCharged (mv : Nat) (s : State) : R :=
  .next (guard (watching s && decide (35500 ≤ mv))
    (fun s =>
      let s1 := { s with pwr := { s.pwr with low := false, bankMv := mv } }
      if s.pwr.valid ∨ s.pwr.fault ≠ 0 then retarget s1
      else if s.boot.stage < 4 ∧ s.pwr.sup = .normal then beginMeasure (retarget s1)
      else retarget { s1 with pwr := { s1.pwr with wanted := true } }) s)

/-- HEALTH_STALE (R575): no measurement has succeeded within two health periods. -/
def execHealthStale (s : State) : R :=
  .next (guard (watching s && decide (s.pwr.measAt + 2 * s.pwr.healthH * 3600000000000 ≤ now s))
    (fun s => retarget { s with pwr := { s.pwr with stale := true } }) s)

/-- FLUSH_SET_ERASE (R582): the erase of a flush set has ended; the set is ready. -/
def execFlushSetErase (setB : Bool) (s : State) : R :=
  whenRunning (fun s =>
    if setB then
      match s.pwr.bErase with
      | some t => guard (decide (t ≤ now s))
          (fun s => retarget { s with pwr := { s.pwr with bReady := true, bErase := none } }) s
      | none => s
    else
      match s.pwr.aErase with
      | some t => guard (decide (t ≤ now s))
          (fun s => retarget { s with pwr := { s.pwr with aReady := true, aErase := none } }) s
      | none => s) s

end Sys2Proof.Machine
end

