-- ==== Sys2Proof/Machine/Ante.lean ====
section
/-! DEFINITION. The Ante unit (ch 04): calendar, cost stages, placement, refusals, maintenance reservations. Amounts are
bytes, operations, plane-µs for dies, and hundredths of a core-µs for core pools. -/

namespace Sys2Proof.Machine

open Sys2Proof

/-! ## Cores and their roles (R22, Table 01-2) -/

/-- The role a core has at shipment. -/
def roleAtShipment (c : Nat) : Nat := if c < 24 then 0 else if c < 28 then 1 else if c < 30 then 2 else if c = 30 then 3 else 4

/-- The role core `c` holds. -/
def roleOf (s : State) (c : Nat) : Nat := tget roleAtShipment s.cores.roles c

/-- Cores that hold role `r`; a service core that stands in counts in the role it holds (R24). -/
def roleCount (s : State) (r : Nat) : Nat := ((List.range 32).filter (fun c => decide (roleOf s c = r))).length

/-- A service core is present and not standing in. -/
def serviceFree (s : State) : Bool := decide (0 < roleCount s 4)

/-! ## Slots -/

/-- Number of the slot that holds fabric time `t`, counted without wrap (R184). -/
def slotOf (t : Nat) : Nat := t / Config.slotNs

/-- The last slot of the horizon (R184). -/
def horizonEnd (t : Nat) : Nat := slotOf t + 65535

/-- The deadline slot of a command with stamp time `t`, class `cls` and bound in µs (R188). -/
def deadlineSlot (t cls bound : Nat) : Nat :=
  if cls = 7 then horizonEnd t else min (horizonEnd t) ((t + bound * 1000 - 2000) / Config.slotNs - 1)

/-! ## Capacities (Table 04-3) -/

/-- Lanes that serve a trunk: UP, in the trunk, none of them being revoked or in its retraining window. -/
def trunkLanes (s : State) (client : Bool) (t slot : Nat) : Nat :=
  (s.lanes.filter (fun p =>
    decide (p.2.state = .up) && decide (p.2.cfg.client = client) && p.2.inTrunk && !p.2.revoking &&
    decide (p.2.wakeSlot ≠ some slot) &&
    (if client then bit (tget (fun _ => ({} : ClientTrunk)) s.fab.trunks t).mask p.1 else decide (p.2.farNode = some t)) &&
    !s.ante.maint.any (fun m => decide (m.kind = .laneRetrain ∧ m.target = p.1 ∧ m.first ≤ slot ∧
        slot < m.first + m.slots)))).length

/-- Maintenance of kind `k` holds `slot`. -/
def maintIn (s : State) (k : Maint) (slot : Nat) : Nat :=
  (s.ante.maint.filter (fun m => decide (m.kind = k ∧ m.first ≤ slot ∧ slot < m.first + m.slots))).length

/-- Cores of the command pool held for fallback searches: for each FAILED bank always (R433), for a bank being rebuilt
within its reservation (R430). -/
def fallbackCores (s : State) (slot : Nat) : Nat :=
  s.cam.fbCores * ((s.cam.banks.filter (fun p => decide (p.2.state = 3))).length + maintIn s .bankRebuild slot)

/-- Cores of a role that drains and fallback searches hold in `slot` (Table 04-7). -/
def coresHeld (s : State) (role slot : Nat) : Nat :=
  (if role = 0 then fallbackCores s slot else 0) +
  (s.ante.maint.filter (fun m => decide (m.kind = .roleDrain ∧ m.drawn = false ∧ roleOf s m.target = role ∧ m.first ≤ slot ∧
    slot < m.first + m.slots))).length

/-- Bytes per PCIe lane and slot at a rate code (Table 05-3, Table 05-6). -/
def laneBytes (rate : Nat) : Nat :=
  if rate = 0 then 3789 else if rate = 1 then 7578 else if rate = 2 then 15156 else if rate = 3 then 30312
  else if rate = 4 then 60625 else 121250

/-- Cores of a role that a drain drawn from the fault reserve holds in `slot` (R32). -/
def coresDrawn (s : State) (role slot : Nat) : Nat :=
  (s.ante.maint.filter (fun m => decide (m.kind = .roleDrain ∧ m.drawn = true ∧ roleOf s m.target = role ∧ m.first ≤ slot ∧
    slot < m.first + m.slots))).length

/-- The module is joined to the fabric (R274, R275). -/
def joined (s : State) : Bool := s.fab.nodeValid && !s.fab.conflict

/-- An amount of die, channel or cipher time without the standing reservation from which a joined module serves the reads of its
peers (R304). -/
def lessReads (s : State) (g : Nat) : Nat := if joined s then g - g * s.fab.readPct / 100 else g

/-- Trunk bytes of `n` lanes; on a fabric trunk those that the standing reservation of transit frames leaves (R43). -/
def trunkBytes (s : State) (client : Bool) (n : Nat) : Nat :=
  if client then n * 20000 else n * 20000 - n * 20000 * s.fab.transitPct / 100

/-- DRAM bytes of a slot without the yielding reservations of a retraining, and of the index sweep while a meld that expiry or a
hint made DEAD waits for a pass (R461, log entry 83). -/
def dramGrant (s : State) (slot : Nat) : Nat :=
  let sweep := if s.med.melds.any (fun p => decide (p.2.state = .dead) && p.2.bySweep) then s.med.sweepPct else 0
  6881280 - 6881280 * sweep / 100 - 819200 * maintIn s .dramRetrain slot

/-- An amount of die or channel time without the standing reservation for peers' reads (R304), and without the yielding
reservations of footer reads while a hint is still being swept (R462, log entry 83). -/
def dieGrant (s : State) (g : Nat) : Nat :=
  lessReads s g - (if s.med.hints.all (·.swept) then 0 else g * s.med.hintPct / 100)

/-- What the calendar may grant of a resource in a whole slot, the fault reserve left out (Table 04-3). -/
def grantable (s : State) (d7 : Bool) (slot : Nat) : Res → Nat
  | .die d => if decide ((tget (fun _ => ({} : Die)) s.med.dies d).state = 0) then dieGrant s 60 else 0
  | .plane p => if decide ((tget (fun _ => ({} : Die)) s.med.dies (p / 4)).state = 0) then 15 else 0
  | .channel _ => dieGrant s 49152
  | .trunk client t =>
    let n := trunkLanes s client t slot
    trunkBytes s client (if n = 1 then b2n d7 else n - 1)
  | .hostIn p => match tfind s.host.ports p with
    | some x => if x.inL0 then laneBytes x.rate * x.width else 0
    | none => 0
  | .hostOut p => match tfind s.host.ports p with
    | some x => if x.inL0 then laneBytes x.rate * x.width else 0
    | none => 0
  | .core r => 1600 * (roleCount s r - coresHeld s r slot - max (if serviceFree s then 0 else 1) (coresDrawn s r slot))
  | .dram => dramGrant s slot
  | .cipher => lessReads s (cipherGrantable s)
  | .index => 2400

/-- What a resource holds in a whole slot for recovery work: the grantable amount with the fault reserve (Table 04-3). -/
def capacity (s : State) (slot : Nat) (r : Res) : Nat :=
  match r with
  | .die d => if decide ((tget (fun _ => ({} : Die)) s.med.dies d).state = 0) then lessReads s 60 + 4 else 0
  | .plane p => if decide ((tget (fun _ => ({} : Die)) s.med.dies (p / 4)).state = 0) then 16 else 0
  | .channel _ => lessReads s 49152 + 2048
  | .trunk client t => trunkBytes s client (trunkLanes s client t slot)
  | .core c => 1600 * (roleCount s c - coresHeld s c slot)
  | .dram => 9830400 - 819200 * maintIn s .dramRetrain slot
  | .cipher => lessReads s (cipherGrantable s) + (enginesLeft s * 204800 - cipherGrantable s)
  | r => grantable s false slot r

/-! ## Standing shares of maintenance (R199, R682, Table 04-7) -/

/-- The die set of a die (R437). -/
def dieSet (d : Nat) : Nat := 16 * (d / 256) + d % 16

/-- Slots from one standing program of a die set to the next, so that its 63 segment slots are the share that
gc_standing_pct and relocation_pct give together; 0 where both are 0 (log entry 83). -/
def standPeriod (s : State) : Nat := if s.ante.gcPct + s.ante.relocPct = 0 then 0 else ceilDiv 6300 (s.ante.gcPct + s.ante.relocPct)

/-- Position of a slot in the standing pattern of die set `k`: the sets take their standing programs in turn. -/
def standPhase (p k slot : Nat) : Nat := (slot + p * k / 32) % p

/-- A segment slot of the standing garbage collection and relocation reservations of die set `k`. -/
def standing (s : State) (k slot : Nat) : Bool :=
  let p := standPeriod s
  decide (p ≠ 0 ∧ s.ante.standFrom ≤ slot ∧ standPhase p k slot < 69 ∧ standPhase p k slot % 24 < 21)

/-- Standing segment slots of die set `k` among the `n` slots from `a` on: 63 in each whole period, and those of the rest. -/
def standingIn (s : State) (k a n : Nat) : Nat :=
  let p := standPeriod s
  let b := max a s.ante.standFrom
  if p = 0 ∨ a + n ≤ b then 0
  else
    let m := a + n - b
    m / p * 63 + ((List.range (m % p)).filter (fun i => standing s k (b + i))).length

/-- A firmware activation window is running (R606, R608). -/
def inActivation (s : State) : Bool :=
  s.ante.maint.any (fun m => decide (m.kind = .activation ∧ m.first ≤ slotOf (now s)))

/-- A quiesce window holds the slot (R201). -/
def inWindow (s : State) (slot : Nat) : Bool :=
  decide (0 < maintIn s .activation slot + maintIn s .recount slot)

/-- First slot of the next quiesce window from `slot` on, if one is placed (R201). -/
def nextQuiesce (s : State) (slot : Nat) : Option MaintResv :=
  (s.ante.maint.filter (fun m => decide ((m.kind = .activation ∨ m.kind = .recount) ∧ slot < m.first + m.slots))).foldl
    (fun a m => match a with
      | none => some m
      | some b => if m.first < b.first then some m else some b) none

/-- The supervisor is in DIP or RESUME (R564). -/
def inDip (s : State) : Bool :=
  match s.pwr.sup with
  | .dip => true | .resume => true | .normal => false | .flush => false | .spent => false | .off => false

/-- The exit from a power state under way or still to start ends then (R204). -/
def exitEnd (s : State) (t : Nat) : Nat :=
  match s.pwr.exiting with
  | some e => e
  | none => if s.pwr.state = 0 then 0 else t + Config.exitUs s.pwr.state * 1000

/-- The slot has no grantable capacity at all: it begins within 5 ms of a dip (R564), before an exit from a power state
ends (R204), in a quiesce window (R201), or while neither flush set is ready (R582). -/
def slotClosed (s : State) (t slot : Nat) : Bool :=
  (inDip s && decide (slot * Config.slotNs < t + 5000000)) || decide (slot * Config.slotNs < exitEnd s t) ||
  inWindow s slot || (!s.pwr.aReady && !s.pwr.bReady)

/-- What a placement is made against: the time asked, the last slot, the kind of work. `recovery` work draws on the fault
reserve (R187, R200); `rolling` work is what the standing reservations of Table 04-7 stand for. -/
structure Plot where
  t    : Nat
  last : Nat
  d7   : Bool
  qos  : Nat
  who  : Owner
  recovery : Bool := false
  rolling  : Bool := false
  deriving DecidableEq, Repr

/-- The QoS code of work that no classifier class covers: maintenance and the programs of buffer-mode rows. -/
def qosNone : Nat := 8

/-- A slot's amount as it may be granted at time `t`: in the current slot, the share of the time left in it (R189). -/
def prorated (t slot g : Nat) : Nat :=
  if slot = slotOf t then g * (Config.slotNs - t % Config.slotNs) / Config.slotNs else g

/-- The part of a slot's amount that a placement may take. -/
def available (s : State) (p : Plot) (slot : Nat) (r : Res) : Nat :=
  if slotClosed s p.t slot then 0
  else prorated p.t slot (if p.recovery then capacity s slot r else grantable s p.d7 slot r)

/-! ## Fitting a stage into a slot (R187, R207) -/

/-- Amount of `r` reserved in `slot`. -/
def reserved (l : List Resv) (r : Res) (slot : Nat) : Nat :=
  sumOf (fun x => if x.res = r ∧ x.slot = slot then x.amount else 0) l

/-- Amount of `r` reserved in `slot` by maintenance. -/
def reservedMaint (l : List Resv) (r : Res) (slot : Nat) : Nat :=
  sumOf (fun x => if x.res = r ∧ x.slot = slot then (match x.owner with | .maint _ => x.amount | _ => 0) else 0) l

/-- Amount of `r` reserved in `slot` by QoS class `q`. -/
def reservedQos (l : List Resv) (r : Res) (slot q : Nat) : Nat :=
  sumOf (fun x => if x.res = r ∧ x.slot = slot ∧ x.qos = q then x.amount else 0) l

/-- What the floors of the other QoS classes still keep back (R207). -/
def floorsHeld (s : State) (l : List Resv) (r : Res) (slot q base : Nat) : Nat :=
  sumOf (fun p => if p = q then 0
    else base * s.ante.floors.getD p 0 / 100 - reservedQos l r slot p) (List.range 8)

/-- `amount` of `a` that QoS class `q` may still take in `slot`, when `base` is the amount that shares are counted of; work
without a class meets no share. -/
def shared (s : State) (l : List Resv) (r : Res) (slot q a base : Nat) : Nat :=
  if q = qosNone then a - reserved l r slot
  else
    min (a - reserved l r slot - floorsHeld s l r slot q base)
        (base * s.ante.ceilings.getD q 0 / 100 - reservedQos l r slot q)

/-- How much of `r` a stage of the placement may still take in `slot`. -/
def room (s : State) (l : List Resv) (p : Plot) (slot : Nat) (r : Res) : Nat :=
  let whole := if p.recovery then capacity s slot r else grantable s p.d7 slot r
  shared s l r slot p.qos (available s p slot r) (whole - reservedMaint l r slot)

/-! ## Cost stages (R190, R193, R685) -/

/-- A codeword read: die, plane, channel, and whether it reconstructs a codeword of a failed die (R455). -/
structure ReadAt where
  die      : Nat
  plane    : Nat
  channel  : Nat
  recovery : Bool := false
  deriving DecidableEq, Repr

/-- One stage of a cost shape. -/
inductive Cost where
  /-- An amount of one resource. -/
  | use (r : Res) (amount : Nat)
  /-- Codeword reads placed together (R685). -/
  | reads (l : List ReadAt)
  /-- The program of one row on these dies and their channels from one common start slot, not before slot `after`, with
  `bytes` of record in the row (R193, R683). -/
  | program (dies : List Nat) (after meld bytes : Nat)
  /-- Slots in which the command only waits, as for the fabric allowance (R316). -/
  | wait (slots : Nat)
  deriving DecidableEq, Repr

/-- A new reservation of the placement. -/
def resv (p : Plot) (r : Res) (slot amount : Nat) : Resv :=
  { res := r, slot := slot, amount := amount, owner := p.who, qos := p.qos, d7 := p.d7 }

/-- The earliest slot from `slot` on where the whole amount fits; the count bounds the search. -/
def fitWhole (s : State) (l : List Resv) (p : Plot) (r : Res) (amount : Nat) : Nat → Nat → Option Nat
  | 0, _ => none
  | n + 1, slot =>
    if p.last < slot then none
    else if amount ≤ room s l p slot r then some slot
    else fitWhole s l p r amount n (slot + 1)

/-- An amount above one slot's share takes what each slot from the first free one on can give. -/
def fillSlots (s : State) (p : Plot) (r : Res) : Nat → Nat → Nat → List Resv → Option (Nat × List Resv)
  | 0, _, _, _ => none
  | n + 1, amount, slot, l =>
    if p.last < slot then none
    else
      let g := min amount (room s l p slot r)
      let l1 := if g = 0 then l else l ++ [resv p r slot g]
      if amount ≤ g then some (slot, l1) else fillSlots s p r n (amount - g) (slot + 1) l1

/-- Place an amount of one resource from `slot` on; answers the slot where the stage ends. DESIGN CHOICE, log entry 84: an
amount that one slot may grant lies whole in one slot, a larger one takes what each slot can give. -/
def placeUse (s : State) (p : Plot) (r : Res) (amount slot : Nat) (l : List Resv) : Option (Nat × List Resv) :=
  if amount = 0 then some (slot, l)
  else if amount ≤ (if p.recovery then capacity s slot r else grantable s p.d7 slot r) then
    match fitWhole s l p r amount 65536 slot with
    | some k => some (k, l ++ [resv p r k amount])
    | none => none
  else fillSlots s p r 65536 amount slot l

/-- The plane of a codeword read. -/
def planeOf (x : ReadAt) : Res := .plane (4 * x.die + x.plane)

/-- A codeword read may start in `slot`: 15 plane-µs of its plane in three slots, channel and cipher bytes in the last
(R685). -/
def readFits (s : State) (l : List Resv) (p : Plot) (x : ReadAt) (slot : Nat) : Bool :=
  [slot, slot + 1, slot + 2].all (fun k =>
    decide (15 ≤ room s l p k (planeOf x) ∧ 15 ≤ room s l p k (.die x.die))) &&
  decide (4096 ≤ room s l p (slot + 2) (.channel x.channel) ∧ 4096 ≤ room s l p (slot + 2) .cipher)

/-- The reservations of a codeword read that starts in `slot`. -/
def readResv (p : Plot) (x : ReadAt) (slot : Nat) : List Resv :=
  [slot, slot + 1, slot + 2].flatMap (fun k => [resv p (planeOf x) k 15, resv p (.die x.die) k 15]) ++
  [resv p (.channel x.channel) (slot + 2) 4096, resv p .cipher (slot + 2) 4096]

/-- The earliest slot from `slot` on in which a codeword read may start and end by the last slot. -/
def fitRead (s : State) (l : List Resv) (p : Plot) (x : ReadAt) : Nat → Nat → Option Nat
  | 0, _ => none
  | n + 1, slot =>
    if p.last < slot + 2 then none
    else if readFits s l p x slot then some slot
    else fitRead s l p x n (slot + 1)

/-- Codeword reads placed together: each takes its earliest slots, one that reconstructs draws on the fault reserve too
(R187); the stage ends with the last slot held (R685). -/
def placeReads (s : State) (p : Plot) (slot : Nat) : List ReadAt → Nat → List Resv → Option (Nat × List Resv)
  | [], e, l => some (e, l)
  | x :: t, e, l =>
    let q := { p with recovery := p.recovery || x.recovery }
    match fitRead s l q x 65536 slot with
    | none => none
    | some k => placeReads s p slot t (max e (k + 2)) (l ++ readResv q x k)

/-- The slots of the program segments of a program or erase of `n` slots that starts in `slot`: segments of 21 slots
with read openings of 3 between them (Table 04-4). -/
def segmentSlots (slot n : Nat) : List Nat :=
  ((List.range n).filter (fun i => decide (i % 24 < 21))).map (fun i => slot + i)

/-- A segment may take the whole die in slot `k`: nothing is held there, the slot is open and not begun, no standing
reservation has it, and the shares of its class allow it (R189, R207, R682). -/
def segmentFits (s : State) (l : List Resv) (p : Plot) (k d : Nat) : Bool :=
  decide (reserved l (.die d) k = 0 ∧ 64 ≤ prorated p.t k 64 ∧ 64 ≤ shared s l (.die d) k p.qos 64 64) &&
  (p.rolling || !standing s (dieSet d) k)

/-- A program may start in `slot`: every die free in every segment slot (R196). -/
def programFits (s : State) (l : List Resv) (p : Plot) (dies : List Nat) (slot n : Nat) : Bool :=
  (segmentSlots slot n).all (fun k => !slotClosed s p.t k && dies.all (segmentFits s l p k))

/-- The earliest start of a program on these dies; the count bounds the search. -/
def fitProgram (s : State) (l : List Resv) (p : Plot) (dies : List Nat) (n : Nat) : Nat → Nat → Option Nat
  | 0, _ => none
  | k + 1, slot =>
    if p.last < slot + (n - 1) then none
    else if programFits s l p dies slot n then some slot
    else fitProgram s l p dies n k (slot + 1)

/-- The reservations of a program or erase: the whole 64 plane-µs of each die in each segment slot (Table 04-3). -/
def programResv (p : Plot) (dies : List Nat) (slot n : Nat) : List Resv :=
  (segmentSlots slot n).flatMap (fun k => dies.map (fun d => resv p (.die d) k 64))

/-- What a row with `bytes` of record moves beside its die time (Table 04-4): 16/15 of them over the channels of its dies,
the bytes through the cipher pool, and as many out of DRAM. -/
def rowMoves (dies : List Nat) (bytes : Nat) : List (Res × Nat) :=
  dies.map (fun d => (Res.channel (d / 16), ceilDiv (bytes * 16) (15 * dies.length))) ++ [(.cipher, bytes), (.dram, bytes)]

/-- Each amount in turn fills what the slots of the program can give. -/
def fillAll (s : State) (p : Plot) (slot : Nat) : List (Res × Nat) → List Resv → Option (List Resv)
  | [], l => some l
  | (r, a) :: t, l =>
    if a = 0 then fillAll s p slot t l
    else
      match fillSlots s p r 69 a slot l with
      | none => none
      | some (_, l1) => fillAll s p slot t l1

/-- The reservations of a row program: the earliest start from `slot` on at which the dies, and within its 69 slots the
channels, the cipher pool and DRAM, can take it; the count bounds the search. -/
def fitRow (s : State) (p : Plot) (dies : List Nat) (bytes : Nat) (l : List Resv) : Nat → Nat → Option (Nat × List Resv)
  | 0, _ => none
  | n + 1, slot =>
    if p.last < slot + 68 then none
    else
      match (if programFits s l p dies slot 69 then
          fillAll s { p with last := slot + 68 } slot (rowMoves dies bytes) (l ++ programResv p dies slot 69) else none) with
      | some l1 => some (slot, l1)
      | none => fitRow s p dies bytes l n (slot + 1)

/-- Place one stage from `slot` on. -/
def placeStage (s : State) (p : Plot) (slot : Nat) (l : List Resv) : Cost → Option (Nat × List Resv)
  | .use r n => placeUse s p r n slot l
  | .reads xs => placeReads s p slot xs slot l
  | .program dies after meld bytes =>
    match fitRow s { p with who := .row meld } dies bytes l 65536 (max slot after) with
    | none => none
    | some (k, l1) => some (k + 68, l1)
  | .wait n => if p.last < slot + n then none else some (slot + n, l)

/-- Place a cost shape stage by stage (R190); none when a stage does not fit by the last slot. -/
def placeShape (s : State) (p : Plot) : List Cost → Nat → List Resv → Option (List Resv)
  | [], _, l => some l
  | x :: t, slot, l =>
    match placeStage s p slot l x with
    | none => none
    | some (e, l1) => placeShape s p t e l1

/-- The placement of a request made at `t`. -/
def plot (t cls bound qos : Nat) (who : Owner) : Plot :=
  { t := t, last := deadlineSlot t cls bound, d7 := decide (cls = 7), qos := qos, who := who }

/-- A stage as an empty calendar holds it: no earlier row of the meld is programmed. -/
def freeStage : Cost → Cost
  | .program dies _ meld bytes => .program dies 0 meld bytes
  | c => c

/-- The shape would not end by the deadline slot even on an empty calendar with every resource at its grantable amount
(R197). DEDUCED, log entry 44: the shares of page 0x0302 take no part in this test, so a stage that only a floor or a ceiling
keeps out is refused with RETRY_AFTER. -/
def unattainable (s : State) (cls bound qos : Nat) (who : Owner) (shape : List Cost) : Bool :=
  let e := { s with ante := { s.ante with maint := [], floors := List.replicate 8 0, ceilings := List.replicate 8 100,
                                          gcPct := 0, relocPct := 0 },
                    pwr := { s.pwr with sup := .normal, exiting := none, state := 0, aReady := true } }
  let p := plot (now s) cls bound qos who
  (placeShape e p (shape.map freeStage) (slotOf (now s)) []).isNone

/-- The last slot that a placement may use: before the next quiesce window where one is placed (R201). -/
def stopAt (s : State) (slot last : Nat) : Nat :=
  match nextQuiesce s slot with
  | some m => min last (m.first - 1)
  | none => last

/-- A slot from which the same shape, admitted at its start against the reservations now held, would fit (R194). -/
def fitsFrom (s : State) (cls bound qos : Nat) (who : Owner) (shape : List Cost) (slot : Nat) : Bool :=
  let p := plot (slot * Config.slotNs) cls bound qos who
  (placeShape s { p with last := stopAt s slot p.last } shape slot s.ante.resv).isSome

/-- The earliest such slot; the count bounds the search. -/
def earliestFrom (s : State) (cls bound qos : Nat) (who : Owner) (shape : List Cost) : Nat → Nat → Option Nat
  | 0, _ => none
  | n + 1, slot =>
    if fitsFrom s cls bound qos who shape slot then some slot
    else earliestFrom s cls bound qos who shape n (slot + 1)

/-- The end of the horizon as a time. -/
def horizonTime (s : State) : Nat := (horizonEnd (now s) + 1) * Config.slotNs

/-- The calendar's earliest time (R194). -/
def calendarTime (s : State) (cls bound qos : Nat) (who : Owner) (shape : List Cost) : Nat :=
  match earliestFrom s cls bound qos who shape 65535 (slotOf (now s) + 1) with
  | some k => k * Config.slotNs
  | none => horizonTime s

/-! ## Displacing D7 reservations and yielding maintenance (R200, R205) -/

/-- The resources that a stage holds. -/
def stageRes : Cost → List Res
  | .use r _ => [r]
  | .reads xs => xs.flatMap (fun x => [(planeOf x), .die x.die, .channel x.channel]) ++ (if xs = [] then [] else [.cipher])
  | .program dies _ _ bytes => dies.map .die ++ (rowMoves dies bytes).map (·.1)
  | .wait _ => []

/-- The D7 reservation that is moved: the first in the order of the calendar's list that holds one of these resources in
these slots, belongs to a command and has not been moved d7_displace_limit times. DESIGN CHOICE, log entry 85: the manual does
not say which of several is moved. -/
def movable (s : State) (rs : List Res) (from_ last : Nat) (l : List Resv) : Option Resv :=
  l.find? (fun x => x.d7 && decide (x.res ∈ rs ∧ from_ ≤ x.slot ∧ x.slot ≤ last ∧ x.moves < s.ante.d7Limit) &&
    (match x.owner with | .command _ _ => true | _ => false))

/-- The codeword read that reservation `x` is part of, as its plane and first slot; none when `x` is no part of one. -/
def readOf (l : List Resv) (x : Resv) : Option (Nat × Nat) :=
  let near := fun (y : Resv) => decide (y.owner = x.owner ∧ y.d7 = true ∧ y.moves = x.moves)
  l.findSome? (fun y =>
    match y.res with
    | .plane q =>
      let mine := match x.res with
        | .plane q' => decide (q' = q ∧ y.slot ≤ x.slot ∧ x.slot ≤ y.slot + 2)
        | .die d => decide (q / 4 = d ∧ y.slot ≤ x.slot ∧ x.slot ≤ y.slot + 2)
        | .channel c => decide (q / 64 = c ∧ x.slot = y.slot + 2)
        | .cipher => decide (x.amount = 4096 ∧ x.slot = y.slot + 2)
        | _ => false
      let first := decide (((l.filter (fun z => near z && decide (z.res = y.res ∧ z.slot < y.slot))).length) % 3 = 0)
      if near y && mine && first then some (q, y.slot) else none
    | _ => none)

/-- A moved reservation, counted once more. -/
def moved (x y : Resv) : Resv := { y with moves := x.moves + 1 }

/-- Move one D7 reservation of these resources out of the slots up to the last one; a codeword read moves whole. It must
fit later, before the next quiesce window and inside the horizon. DESIGN CHOICE, log entry 85: it goes past the last slot of
the work it makes room for. Answers the new list and whether the reservation is pinned now. -/
def moveD7 (s : State) (p : Plot) (rs : List Res) (slot : Nat) (l : List Resv) : Option (List Resv × Bool) :=
  match movable s rs slot p.last l with
  | none => none
  | some x =>
    let q : Plot := { t := p.t, last := stopAt s slot (horizonEnd p.t), d7 := true, qos := x.qos, who := x.owner }
    let pin := decide (x.moves + 1 = s.ante.d7Limit)
    match readOf l x with
    | some (plane, k) =>
      let r : ReadAt := { die := plane / 4, plane := plane % 4, channel := plane / 64 }
      let rest := (readResv q r k).foldl (fun l y => l.erase { y with moves := x.moves }) l
      match fitRead s rest q r 65536 (p.last + 1) with
      | none => none
      | some j => some (rest ++ (readResv q r j).map (moved x), pin)
    | none =>
      let rest := l.erase x
      match fitWhole s rest q x.res x.amount 65536 (p.last + 1) with
      | none => none
      | some j => some (rest ++ [moved x { x with slot := j }], pin)

/-- The calendar with its counts of moved and pinned reservations. -/
abbrev Moves := List Resv × Nat × Nat

/-- Place a shape, moving D7 reservations of a stage's resources when a bounded stage fits nowhere; the count bounds the
moves. -/
def placeMoving (s : State) (p : Plot) : Nat → List Cost → Nat → Moves → Option Moves
  | _, [], _, m => some m
  | 0, _ :: _, _, _ => none
  | n + 1, x :: t, slot, (l, a, b) =>
    match placeStage s p slot l x with
    | some (e, l1) => placeMoving s p n t e (l1, a, b)
    | none =>
      if p.d7 then none
      else
        match moveD7 s p (stageRes x) slot l with
        | none => none
        | some (l1, pin) => placeMoving s p n (x :: t) slot (l1, a + 1, b + b2n pin)

/-- The yielding maintenance reservation, not of an erase, that holds one of these resources in these slots. -/
def yielding (s : State) (rs : List Res) (from_ last : Nat) : Option MaintResv :=
  s.ante.maint.find? (fun m => !m.firm && decide (m.kind ≠ .expiryErase) &&
    s.ante.resv.any (fun x => decide (x.owner = .maint m.id ∧ x.res ∈ rs ∧ from_ ≤ x.slot ∧ x.slot ≤ last)))

/-- A yielding maintenance reservation is cancelled for recovery work (R198, R200). -/
def cancelMaint (m : MaintResv) (s : State) : State :=
  { s with ante := { s.ante with maint := s.ante.maint.filter (fun x => decide (x.id ≠ m.id)),
                                 resv := s.ante.resv.filter (fun x => decide (x.owner ≠ .maint m.id)),
                                 yielded := s.ante.yielded + 1 } }

/-- Recovery work placed on the grantable amounts and the fault reserve (R200). -/
def drawReserve (p : Plot) (shape : List Cost) (slot : Nat) (s : State) : Option State :=
  (placeShape s { p with recovery := true } shape slot s.ante.resv).map (fun l => { s with ante := { s.ante with resv := l } })

/-- Recovery work placed with D7 reservations moved out of its way (R200). -/
def displaceD7 (p : Plot) (shape : List Cost) (slot : Nat) (s : State) : Option State :=
  (placeMoving s { p with recovery := true } 4096 shape slot (s.ante.resv, 0, 0)).map (fun x =>
    { s with ante := { s.ante with resv := x.1, d7Moves := s.ante.d7Moves + x.2.1, d7Pinned := s.ante.d7Pinned + x.2.2 } })

/-- Place the shape of recovery work: on the grantable amounts and the fault reserve first; where that does not do, yielding
maintenance is cancelled, at most as many as the count says, then D7 reservations are moved (R200). -/
def placeRecovery (p : Plot) (shape : List Cost) (slot : Nat) : Nat → State → Option State
  | 0, s => (drawReserve p shape slot s).or (displaceD7 p shape slot s)
  | n + 1, s =>
    match drawReserve p shape slot s with
    | some t => some t
    | none =>
      match yielding s (shape.flatMap stageRes) slot p.last with
      | some m => placeRecovery p shape slot n (cancelMaint m s)
      | none => displaceD7 p shape slot s

/-- Maintenance or recovery work obtains its antes before it begins (R48): the shape is placed from the next slot on, and
held under a reservation of its kind. None when it does not fit within the horizon. -/
def takeAntes (kind : Maint) (firm recovery : Bool) (target : Nat) (shape : List Cost) (s : State) : Option State :=
  let slot := slotOf (now s) + 1
  let p : Plot := { t := now s, last := stopAt s slot (horizonEnd (now s)), d7 := false, qos := qosNone,
                    who := .maint s.ante.nextId, rolling := true }
  let got := if recovery then placeRecovery p shape slot s.ante.maint.length s
    else (placeShape s p shape slot s.ante.resv).map (fun l => { s with ante := { s.ante with resv := l } })
  got.map (fun s1 =>
    let last := (s1.ante.resv.filter (fun x => decide (x.owner = p.who))).foldl (fun e x => max e x.slot) slot
    { s1 with ante := { s1.ante with nextId := s1.ante.nextId + 1, maint := s1.ante.maint ++
        [{ id := s.ante.nextId, kind := kind, target := target, first := slot, slots := last + 1 - slot, firm := firm,
           started := true }] } })

/-! ## The deferred program pool (R196) -/

/-- Dies of die set `k`: position k mod 16 on channels 16 × (k div 16) to 16 × (k div 16) + 15 (R437). -/
def setDies (k : Nat) : List Nat := (List.range 16).map (fun j => (16 * (k / 16) + j) * 16 + k % 16)

/-- The firmware activation window that lies ahead, if one is placed (R604). -/
def activationAhead (s : State) : Option MaintResv :=
  s.ante.maint.find? (fun m => decide (m.kind = .activation ∧ slotOf (now s) < m.first))

/-- The last slot that a deferred program may take: the end of the horizon, or the slot before an activation window (R196, R604). -/
def debitEnd (s : State) : Nat :=
  match activationAhead s with
  | some m => min (horizonEnd (now s)) (m.first - 1)
  | none => horizonEnd (now s)

/-- Program time left in die set `k`, in fifteenths of a plane-µs: the slots up to the last in which every
die of the set is free, less the standing reservations on the set (R682), the windows, and the debits. -/
def poolLeft (s : State) (k : Nat) : Nat :=
  let a := slotOf (now s)
  let n := debitEnd s - a
  let busy := ((s.ante.resv.filter (fun x => (match x.res with | .die d => decide (dieSet d = k) | _ => false) &&
      decide (a < x.slot ∧ x.slot ≤ a + n) && !standing s k x.slot)).map (·.slot)).dedup.length
  let closed := sumOf (fun m => if m.kind = .activation ∨ m.kind = .recount then
      min (m.first + m.slots) (a + n + 1) - max m.first (a + 1) else 0) s.ante.maint
  (n - busy - closed - standingIn s k (a + 1) n) * 64 * 16 * 15 -
    sumOf (fun d => if d.set = k then d.amount else 0) s.ante.debits

/-- Program cost of record bytes, in fifteenths of a plane-µs: 23 × 16/15 plane-µs for each KiB (Table 04-4). -/
def programCost (bytes : Nat) : Nat := bytes * 23 * 16 / 1024

/-- The die set of the list with the most room for a debit, if one has room. -/
def poolSet (s : State) (cost : Nat) (sets : List Nat) : Option Nat := sets.find? (fun k => decide (cost ≤ poolLeft s k))

/-- Slots that must enter the horizon after its last one until `missing` program time of die set `k` has entered with them:
a standing segment slot brings none (R194, R682). The count bounds the search. -/
def slotsFor (s : State) (k : Nat) : Nat → Nat → Nat → Nat
  | 0, _, _ => 0
  | n + 1, slot, missing =>
    if missing = 0 then 0
    else 1 + slotsFor s k n (slot + 1) (if standing s k slot then missing else missing - 64 * 16 * 15)

/-- The start of the first slot by which enough program time has entered the horizon (R194); the end of an activation window that
cuts the horizon short (R604). -/
def poolTime (s : State) (cost : Nat) (sets : List Nat) : Nat :=
  match (if debitEnd s < horizonEnd (now s) then activationAhead s else none) with
  | some m => (m.first + m.slots) * Config.slotNs
  | none =>
  match sets.map (fun k => slotsFor s k 65535 (horizonEnd (now s) + 1) (cost - poolLeft s k)) with
  | [] => horizonTime s
  | a :: t => min (horizonTime s) ((slotOf (now s) + max 1 (leastOf id a t)) * Config.slotNs)

/-- A debit is made (R196), with the record bytes whose channel, cipher and DRAM share is booked with it (R193). -/
def debit (k cost bytes : Nat) (who : Owner) (s : State) : State :=
  { s with ante := { s.ante with debits := s.ante.debits ++
      [{ set := k, amount := cost, bytes := bytes, owner := who, until_ := debitEnd s }] } }

/-- The debit of a write is turned into the program of its row, or given back. -/
def undebit (who : Owner) (s : State) : State :=
  { s with ante := { s.ante with debits := s.ante.debits.filter (fun d => decide (d.owner ≠ who)) } }

/-! ## Answering a request (R190, R192) -/

/-- The Ante unit's answer. -/
inductive Answer where
  | grant
  | retry (time : Nat)
  | never
  deriving DecidableEq, Repr

/-- A request is counted; the time taken to answer it is at most 300 ns and otherwise free (R192, log entry 1). -/
def countRequest (s : State) : State :=
  drawn { s with ante := { s.ante with requests := s.ante.requests + 1,
                                       decideNsMax := max s.ante.decideNsMax (fresh 9 s % 301) } }

/-- A refusal with an earliest time is counted. -/
def refuseRetry (s : State) : State := { s with ante := { s.ante with refRetry := s.ante.refRetry + 1 } }

/-- A refusal with DEADLINE_UNATTAINABLE is counted. -/
def refuseNever (s : State) : State := { s with ante := { s.ante with refNever := s.ante.refNever + 1 } }

/-- The first request in P1 to P3 starts the exit (R204, R590); it ends the time the module has been idle. -/
def startExit (s : State) : State :=
  if s.pwr.state = 0 ∨ s.pwr.exiting.isSome then { s with pwr := { s.pwr with idleAt := [] } }
  else
    let s1 := { s with pwr := { s.pwr with exiting := some (now s + Config.exitUs s.pwr.state * 1000), idleAt := [] } }
    if 2 ≤ s.pwr.state ∧ s.host.ports.any (fun p => !p.2.inL0) = true ∧ s.host.wake = false then
      emit (.wake true) { s1 with host := { s1.host with wake := true, wakeAt := now s } }
    else s1

/-- The shape needs something in or after the first slot of a placed quiesce window, its bound reaching there (R201). -/
def meetsWindow (s : State) (cls bound : Nat) (shape : List Cost) : Option MaintResv :=
  if shape.isEmpty then none
  else
    match nextQuiesce s (slotOf (now s)) with
    | none => none
    | some m => if m.first ≤ deadlineSlot (now s) cls bound then some m else none

/-- The Ante unit decides a request: the calendar side of R190, R197, R201, R204 and R582. The reservations are held
when it grants; they lie at or after slot `from_`, past the bounds of the commands it waits on (R157). -/
def decideShape (cls bound qos : Nat) (who : Owner) (shape : List Cost) (from_ : Nat) (s0 : State) : State × Answer :=
  let s := startExit (countRequest s0)
  if unattainable s cls bound qos who shape then (refuseNever s, .never)
  else
    let p := plot (now s) cls bound qos who
    match placeMoving s { p with last := stopAt s (slotOf (now s)) p.last } 4096 shape (max from_ (slotOf (now s))) (s.ante.resv, 0, 0) with
    | some (l, a, b) =>
      ({ s with ante := { s.ante with resv := l, grants := s.ante.grants + 1, d7Moves := s.ante.d7Moves + a,
                                      d7Pinned := s.ante.d7Pinned + b } }, .grant)
    | none =>
      if s.pwr.state ≠ 0 then
        (refuseRetry { s with ante := { s.ante with exitRefuse := s.ante.exitRefuse + 1 } }, .retry (exitEnd s (now s)))
      else if s.pwr.aReady = false ∧ s.pwr.bReady = false then
        (refuseRetry s, .retry (match s.pwr.aErase, s.pwr.bErase with
          | some a, some b => min a b
          | some a, none => a
          | none, some b => b
          | none, none => horizonTime s))
      else
        match meetsWindow s cls bound shape with
        | some m =>
          (refuseRetry { s with ante := { s.ante with windowRefuse := s.ante.windowRefuse + 1 } },
           .retry ((m.first + m.slots) * Config.slotNs))
        | none => (refuseRetry s, .retry (calendarTime s cls bound qos who shape))

/-- The reservations of a command are given back. -/
def releaseResv (who : Owner) (s : State) : State :=
  { s with ante := { s.ante with resv := s.ante.resv.filter (fun x => decide (x.owner ≠ who)) } }

/-- The calendar as it stood before a grant that another check of R195 does not uphold: nothing of the grant is kept (R190,
R210). -/
def withoutGrant (before s : State) : State :=
  { s with ante := { s.ante with resv := before.ante.resv, grants := before.ante.grants, d7Moves := before.ante.d7Moves,
                                 d7Pinned := before.ante.d7Pinned } }

/-! ## Maintenance reservations (Table 04-7) -/

/-- Length in slots that a kind of maintenance takes at most (Table 04-7). -/
def maintSlots : Maint → Nat
  | .dramRetrain => 125
  | .laneRetrain => 31250
  | .testSlice => 63
  | .roleDrain => 125
  | .recount => 625
  | .flushErase => 357
  | .expiryErase => 357
  | .activation => 31250
  | .bankRebuild => 63
  | _ => 69

/-- Slots ahead at which a kind of maintenance may start (Table 04-7). -/
def maintAhead : Maint → Nat
  | .dramRetrain => 4096
  | .laneRetrain => 4096
  | .activation => 65536
  | .recount => 65536
  | _ => 1

/-- A kind of maintenance is kept once granted (Table 04-7). -/
def maintFirm : Maint → Bool
  | .backgroundGc => false
  | .expiryErase => false
  | .relocation => false
  | .testSlice => false
  | .groupRebuild => false
  | .shardRebuild => false
  | .sweep => false
  | .foregroundGc => true
  | .dramRetrain => true
  | .laneRetrain => true
  | .bankRebuild => true
  | .roleDrain => true
  | .activation => true
  | .recount => true
  | .flushErase => true

/-- Whether the reservations held still fit once `m` lowers the capacity of its slots. -/
def maintFits (s : State) (m : MaintResv) : Bool :=
  let s1 := { s with ante := { s.ante with maint := s.ante.maint ++ [m] } }
  !s.ante.maint.any (fun x => decide ((x.kind = .activation ∨ x.kind = .recount) ∧ x.first < m.first + m.slots ∧
      m.first < x.first + x.slots)) &&
  s.ante.resv.all (fun x => decide (x.slot < m.first ∨ m.first + m.slots ≤ x.slot) ||
    (!(decide (m.kind = .activation ∨ m.kind = .recount)) &&
      (match x.res with
       | .die _ => true
       | .plane _ => true
       | r => decide (reserved s.ante.resv r x.slot ≤ grantable s1 x.d7 x.slot r))))

/-- The earliest start of a maintenance reservation: the first candidate slot, the base or one past a held
reservation or window, where it fits. -/
def maintFirst (s : State) (m : MaintResv) (base : Nat) : Nat :=
  let cands := base :: (s.ante.resv.map (fun x => x.slot + 1) ++ s.ante.maint.map (fun x => x.first + x.slots))
  let good := cands.filter (fun c => decide (base ≤ c) && maintFits s { m with first := c })
  match good with
  | [] => horizonEnd (now s) + 1
  | a :: t => leastOf id a t

/-- A maintenance reservation is asked for and placed (R48, R198). -/
def reserveMaint (kind : Maint) (target slots : Nat) (s : State) : State :=
  let m : MaintResv := { id := s.ante.nextId, kind := kind, target := target, first := 0, slots := slots,
                         firm := maintFirm kind }
  let f := maintFirst s m (slotOf (now s) + maintAhead kind)
  { s with ante := { s.ante with maint := s.ante.maint ++ [{ m with first := f }], nextId := s.ante.nextId + 1 } }

/-- The maintenance reservation of a kind and target, if one is held. -/
def findMaint (s : State) (kind : Maint) (target : Nat) : Option MaintResv :=
  s.ante.maint.find? (fun m => decide (m.kind = kind ∧ m.target = target))

/-- A maintenance reservation ends. -/
def dropMaint (id : Nat) (s : State) : State :=
  { s with ante := { s.ante with maint := s.ante.maint.filter (fun m => decide (m.id ≠ id)),
                                 resv := s.ante.resv.filter (fun x => decide (x.owner ≠ .maint id)) } }

/-- An erase of `n` slots on the dies of each group at that group's earliest fit, held under one reservation of its kind; answers
the time the last of them ends (R437, R582, Table 04-7). -/
def reserveErase (kind : Maint) (target : Nat) (groups : List (List Nat)) (n : Nat) (s : State) : State × Nat :=
  let id := s.ante.nextId
  let p : Plot := { t := now s, last := horizonEnd (now s), d7 := false, qos := qosNone, who := .maint id, rolling := !maintFirm kind }
  let open_ := { s with pwr := { s.pwr with aReady := true } }
  let at_ := groups.filterMap (fun g => (fitProgram open_ s.ante.resv p g n 65536 (slotOf (now s) + 1)).map (fun k => (g, k)))
  match at_ with
  | [] => (s, horizonTime s)
  | a :: t =>
    if at_.length < groups.length then (s, horizonTime s)
    else
      let first := leastOf (fun x => x) a.2 (t.map (·.2))
      let stop := t.foldl (fun e x => max e x.2) a.2 + n
      ({ s with ante := { s.ante with
          resv := s.ante.resv ++ at_.flatMap (fun x => programResv p x.1 x.2 n), nextId := id + 1,
          maint := s.ante.maint ++
            [{ id := id, kind := kind, target := target, first := first, slots := stop - first, firm := maintFirm kind }] } },
       stop * Config.slotNs)

end Sys2Proof.Machine
end

