-- ==== Sys2Proof/Machine/Memory.lean ====
section
/-! DEFINITION. The memory subsystem (ch 10): address mapping, scheduling, refresh, row activates, training, errors. -/

namespace Sys2Proof.Machine

open Sys2Proof

/-- A channel after a cold start. -/
def chanBlank : Nat → Channel := fun _ => {}

/-- Channel `c`. -/
def chanAt (s : State) (c : Nat) : Channel := tget chanBlank s.mem.chans c

/-- Channel `c` becomes `x`. -/
def setChan (c : Nat) (x : Channel) (s : State) : State :=
  { s with mem := { s.mem with chans := tset chanBlank s.mem.chans c x } }

/-- Sub-channel `u` of a channel. -/
def subAt (x : Channel) (u : Nat) : SubChan := x.subs.getD u {}

/-- Sub-channel `u` of channel `c` becomes `q`. -/
def setSub (c u : Nat) (q : SubChan) (s : State) : State :=
  let x := chanAt s c
  setChan c { x with subs := x.subs.set u q } s

/-! ## Address mapping (R498, R499) -/

/-- Parity of the bits of `v`; the first argument counts the bits left. -/
def parity : Nat → Nat → Nat
  | 0, _ => 0
  | n + 1, v => (v + parity n (v / 2)) % 2

/-- A place in DRAM: channel, sub-channel, bank, row, column. -/
structure Place where
  chan : Nat
  sub  : Nat
  bank : Nat
  row  : Nat
  col  : Nat
  deriving DecidableEq, Repr

/-- The ten channels of the contexts and of the stream region, ascending (Table 10-2). -/
def tenChannels : List Nat := [1, 2, 3, 4, 5, 7, 8, 9, 10, 11]

/-- The table-class mapping over a channel list, from a base row (R498). -/
def tableMap (masks chans : List Nat) (base a : Nat) : Place :=
  let line := a / 64
  let n := 2 * chans.length
  let k := line % n
  let r := line / n
  let fold := fun i => (bits r (7 + i) (7 + i) + parity 16 (bits r 27 12 &&& masks.getD i 0)) % 2
  { chan := chans.getD (k / 2) 0, sub := k % 2, bank := sumOf (fun i => fold i * 2 ^ i) (List.range 5),
    row := base + r / 4096, col := r % 128 }

/-- The stream-class mapping (R499, R500: a grain of 0 is 256). -/
def streamMap (grain a : Nat) : Place :=
  let g := if grain = 0 then 256 else grain
  let chunk := a / g
  let off := chunk / 10 * g + a % g
  let line := off / 64
  let r := line / 2
  { chan := tenChannels.getD (chunk % 10) 0, sub := line % 2, bank := bits r 11 7, row := 57344 + r / 4096, col := r % 128 }

/-- The failed channel controller, if any (R528); one is enough for READ_ONLY_MODE. -/
def deadChannel (s : State) (c : Nat) : Bool := decide ((chanAt s c).state = 4)

/-- Size of a region in bytes (Table 10-2). After the failure of a channel its 24 GiB of the index, and of one of the ten its
4 GiB of contexts and of stream region, take room of the stream region (R528). -/
def regionSize (s : State) : Region → Nat
  | .index => 288 * gib
  | .protected_ => 8 * gib
  | .contexts => 40 * gib
  | .stream => (40 - min 40 (sumOf (fun c => if deadChannel s c then (if c = 0 ∨ c = 6 then 24 else 32) else 0) (List.range 12))) * gib

/-- The place of a line: one on a failed channel lies in segment 7 of a stream channel that serves, at a line that the manual
leaves open (R528). DESIGN CHOICE, log entry 107. -/
def livePlace (s : State) (p : Place) : Place :=
  if deadChannel s p.chan then
    let l := tenChannels.filter (fun c => !deadChannel s c)
    let n := Config.movedLine p.chan (((p.row * 32 + p.bank) * 2 + p.sub) * 128 + p.col)
    let r := n / (2 * l.length)
    { chan := l.getD (n % l.length) p.chan, sub := n / l.length % 2, bank := bits r 11 7, row := 57344 + r / 4096 % 8192,
      col := r % 128 }
  else p

/-- The places a request goes to: a write of the protected region goes to both copies (R522), a read to the copy with
the fewer queued reads, copy A when equal (R524), the other copy when one has failed. -/
def placesOf (s : State) (q : DramIn) : List Place :=
  let m := s.mem
  if regionSize s q.region ≤ q.offset then []
  else
    match q.region with
    | .index => [livePlace s (tableMap m.xorNow (List.range 12) 0 q.offset)]
    | .contexts => [livePlace s (tableMap m.xorNow tenChannels 49152 q.offset)]
    | .stream => [livePlace s (streamMap m.grainNow q.offset)]
    | .protected_ =>
      let a := tableMap m.xorNow [0] 49152 q.offset
      let b := tableMap m.xorNow [6] 49152 q.offset
      let ra := (subAt (chanAt s 0) a.sub).reads.length
      let rb := (subAt (chanAt s 6) b.sub).reads.length
      if deadChannel s 0 then [b]
      else if deadChannel s 6 then [a]
      else if q.write then [a, b]
      else if rb < ra then [b] else [a]

/-- What the line of a request holds (R410, R496, R527): a group of the index has 256 KiB of buckets, a context 33 KiB. -/
def useOf (q : DramIn) : DramUse :=
  match q.region with
  | .index => .group (q.offset / 262144)
  | .protected_ => .mirrored
  | .contexts => .context (q.offset / 33792) q.flushed
  | .stream => match q.owner with
    | some o => .staging o.1 o.2
    | none => .plain

/-! ## Trump (R509, R510) -/

/-- Trump after the real-time buffer's fill has changed (R509). -/
def trumpUpdate (s : State) : State :=
  let m := s.mem
  if m.trump = false ∧ m.trumpEn = true ∧ m.fill < m.trumpLow then
    { s with mem := { m with trump := true, trumpAt := now s, trumpLong := false, raises := m.raises + 1 } }
  else if m.trump = true ∧ (m.trumpHigh ≤ m.fill ∨ m.trumpEn = false) then
    { s with mem := { m with trump := false, trumpNs := m.trumpNs + (now s - m.trumpAt) } }
  else s

/-- Lines enter the real-time buffer. -/
def prefetched (n : Nat) (s : State) : State :=
  trumpUpdate { s with mem := { s.mem with fill := min 32768 (s.mem.fill + n) } }

/-- Lines leave the real-time buffer. -/
def egressed (n : Nat) (s : State) : State :=
  trumpUpdate { s with mem := { s.mem with fill := s.mem.fill - n } }

/-! ## Queues (R503 to R506) -/

/-- Two requests for one line. -/
def sameLine (a b : DramReq) : Bool := decide (a.bank = b.bank ∧ a.row = b.row ∧ a.col = b.col)

/-- A request of the real-time port while trump is raised (R502). -/
def realTime (s : State) (q : DramReq) : Bool := s.mem.trump && decide (q.port = 0)

/-- Some write of the line is queued. -/
def writeQueued (b : SubChan) (q : DramReq) : Bool := b.writes.any (sameLine q)

/-- A request finds room: a line in the write queue takes writes and answers reads at any time, a write of a whole line needs
the write queue, and a read, or the read that a merge needs, the read queue (R503 to R505). -/
def dramRoom (s : State) (c u : Nat) (q : DramReq) : Bool :=
  let b := subAt (chanAt s c) u
  writeQueued b q || (if q.write && !q.merge then decide (b.writes.length < 64) else decide (b.reads.length < 64))

/-- An idle sub-channel has entered power-down in P1 after 100 ns, which closed its rows (R507, Table 10-7). -/
def powerDown (s : State) (b : SubChan) : SubChan :=
  let idle := decide (s.pwr.state = 1 ∧ b.reads = [] ∧ b.writes = [] ∧ b.askedAt + 100 ≤ now s)
  { b with opened := if idle then [] else b.opened, askedAt := now s }

/-- A read is answered: the data, or a poisoned line, go to the requester. -/
def answerRead (c u : Nat) (q : DramReq) (poisoned : Bool) (s : State) : State :=
  emit (.dram c u q.port q.bank q.row q.col false poisoned) (if q.port = 0 then prefetched 1 s else s)

/-- A request is queued: a read of a line in the write queue is answered from it (R505), a write to a queued line replaces
its bytes, and a write of less than a line that is not queued begins with a read of the device (R504). -/
def takeDram (c u : Nat) (q : DramReq) (s : State) : State :=
  let x := chanAt s c
  let b := powerDown s (subAt x u)
  if writeQueued b q then
    let s1 := setSub c u b s
    if q.write = false then answerRead c u q false { s1 with mem := { s1.mem with forwarded := s1.mem.forwarded + 1 } }
    else if q.merge then { s1 with mem := { s1.mem with merges := s1.mem.merges + 1 } }
    else s1
  else if q.write && !q.merge then
    setChan c { x with subs := x.subs.set u { b with writes := b.writes ++ [q] }, wqMax := max x.wqMax (b.writes.length + 1) } s
  else
    setChan c { x with subs := x.subs.set u { b with reads := b.reads ++ [q] }, rqMax := max x.rqMax (b.reads.length + 1) } s

/-- A request reaches the controller, or waits at the crossbar behind a full queue and behind the older requests of its port
(R503, R508). -/
def enqueueDram (c u : Nat) (q : DramReq) (s : State) : State :=
  if dramRoom s c u q && !s.mem.waiting.any (fun w => decide (w.2.2.port = q.port)) then takeDram c u q s
  else { s with mem := { s.mem with waiting := s.mem.waiting ++ [(c, u, q)] } }

/-- A requester's request is decoded and sent to its controllers (R497, R502). -/
def arriveDram (q : DramIn) (s : State) : State :=
  each (fun p => enqueueDram p.chan p.sub
    { port := q.port, bank := p.bank, row := p.row, col := p.col, write := q.write, urgent := q.urgent, at_ := now s,
      merge := q.write && !q.whole, use := useOf q }) (placesOf s q) s

/-- Requests that wait at the crossbar try again, oldest first. -/
def unstall (s : State) : State :=
  each (fun w => enqueueDram w.1 w.2.1 w.2.2) s.mem.waiting { s with mem := { s.mem with waiting := [] } }

/-- The mode of the sub-channel for the next issue (R506). -/
def writeMode (s : State) (b : SubChan) : Bool :=
  if b.reads.any (fun q => q.urgent || realTime s q) then false
  else decide ((if b.writing then s.mem.wqLow + 1 else s.mem.wqHigh) ≤ b.writes.length) ||
    (decide (b.reads = []) && decide (b.writes ≠ []))

/-- Port `p` may be throttled (Table 10-4). -/
def throttleable (p : Nat) : Bool := decide (p ∈ [11, 12, 14, 15])

/-- The request needs no activate, or its port is not held back by throttling (R517). -/
def mayIssue (s : State) (b : SubChan) (q : DramReq) : Bool :=
  decide (tfind b.opened q.bank = some q.row) ||
  (match tfind b.throttle q.port with
   | none => true
   | some t => decide (t ≤ now s ∨ tget (fun _ => 0) b.lastAct q.port + s.mem.gapNs ≤ now s))

/-- A queued read may go: no older write of less than a line is being merged into its line (R508), and the line that it
merges itself will find room in the write queue. -/
def readMay (s : State) (b : SubChan) (q : DramReq) : Bool :=
  mayIssue s b q && !(b.reads.takeWhile (fun x => decide (x ≠ q))).any (fun x => x.merge && sameLine x q) &&
  (!q.merge || decide (b.writes.length < 64))

/-- A queued write may go: the reads of its line that came before it are done (R508). -/
def writeMay (s : State) (b : SubChan) (q : DramReq) : Bool := mayIssue s b q && !b.reads.any (sameLine q)

/-- The read issued next in read mode (R506). A sub-channel in read mode issues reads alone (DEDUCED, log entry 108). -/
def nextRead (s : State) (b : SubChan) : Option DramReq :=
  let r := b.reads.filter (readMay s b)
  match r.find? (fun q => q.urgent) with
  | some q => some q
  | none =>
    match r.find? (realTime s) with
    | some q => some q
    | none =>
      match r.find? (fun q => decide (s.mem.ageNs ≠ 0 ∧ q.at_ + s.mem.ageNs < now s)) with
      | some q => some q
      | none =>
        match r.find? (fun q => decide (tfind b.opened q.bank = some q.row)) with
        | some q => some q
        | none => r.head?

/-! ## Row activates (R515 to R517) -/

/-- The count of a row in the table of a bank; an entry is bank, row, count. -/
def actCount (b : SubChan) (bank row : Nat) : Nat :=
  match b.acts.find? (fun a => decide (a.1 = bank ∧ a.2.1 = row)) with
  | some a => a.2.2
  | none => 0

/-- The table of the 16 most-activated rows of each bank with the row at a new count (R515). A row that is not in a full table
takes the place of one with no higher count. DESIGN CHOICE, log entry 108: the row that leaves among equals. -/
def setAct (b : SubChan) (bank row n : Nat) : List (Nat × Nat × Nat) :=
  let others := b.acts.filter (fun a => decide (a.1 ≠ bank ∨ a.2.1 ≠ row))
  let mine := others.filter (fun a => decide (a.1 = bank))
  if mine.length < 16 then others ++ [(bank, row, n)]
  else
    match mine.find? (fun a => decide (a.2.2 = leastOf (fun x => x.2.2) n mine)) with
    | some a => (others.erase a) ++ [(bank, row, n)]
    | none => b.acts

/-- The throttleable port with the most activates to the bank among the bank's last 256 (R517); the lowest port among
equals. DEDUCED, log entry 108: "its last 256 activates" are the bank's. -/
def topPort (b : SubChan) (bank : Nat) : Option Nat :=
  let l := (b.last.filter (fun x => decide (x.1 = bank) && throttleable x.2)).map (·.2)
  [11, 12, 14, 15].foldl (fun a p =>
    if l.count p = 0 then a
    else match a with
      | none => some p
      | some q => if l.count q < l.count p then some p else some q) none

/-- Port `p` is throttled on a sub-channel (R517). -/
def throttlePort (c u p : Nat) (s : State) : State :=
  if s.mem.gapNs = 0 then s
  else
    let b := subAt (chanAt s c) u
    let s1 := setSub c u { b with throttle := tput b.throttle p (now s + s.mem.throttleMs * 1000000) } s
    event 0x0703 [p] { s1 with mem := { s1.mem with throttles := s1.mem.throttles + 1 } }

/-- A refresh-management command goes to a bank: its neighbours are refreshed, the row closes (R507, R515). -/
def issueRfm (c u bank : Nat) (s : State) : State :=
  let x := chanAt s c
  let b := subAt x u
  let b1 := { b with opened := tdel b.opened bank, rfmWait := b.rfmWait.filter (fun w => decide (w.1 ≠ bank)) }
  let s1 := setChan c { x with rfm := x.rfm + 1, subs := x.subs.set u b1 } s
  let s2 := emit (.refresh c u bank true) s1
  match topPort b bank with
  | some p => throttlePort c u p s2
  | none => s2

/-- Refresh-management commands that wait go out once their bank has no queued urgent or real-time read, or after 2 µs
(R516). -/
def issueWaitingRfm (c u : Nat) (s : State) : State :=
  each (fun w s =>
    let b := subAt (chanAt s c) u
    if b.reads.any (fun q => decide (q.bank = w.1) && (q.urgent || realTime s q)) && decide (now s < w.2 + 2000) then s
    else issueRfm c u w.1 s) (subAt (chanAt s c) u).rfmWait s

/-- An activate of a row is counted; at act_threshold a refresh-management command is due (R515). -/
def activate (c u : Nat) (q : DramReq) (s : State) : State :=
  let b := subAt (chanAt s c) u
  let n := actCount b q.bank q.row + 1
  let due := decide (s.mem.actMax ≤ n)
  let mine := (b.last ++ [(q.bank, q.port)]).filter (fun x => decide (x.1 = q.bank))
  let rest := b.last.filter (fun x => decide (x.1 ≠ q.bank))
  let b1 := { b with opened := tput b.opened q.bank q.row, acts := setAct b q.bank q.row (if due then 0 else n),
                     last := rest ++ mine.drop (mine.length - 256), lastAct := tput b.lastAct q.port (now s),
                     rfmWait := if due then b.rfmWait ++ [(q.bank, now s)] else b.rfmWait }
  setSub c u b1 s

/-! ## Errors (R493, R494, R524, R527) -/

/-- A corrected line on one device: 16 of them within an hour mark the device failed (R494). -/
def deviceCorrected (c u d : Nat) (s : State) : State :=
  let x := chanAt s c
  let b := subAt x u
  let hist := (b.ce ++ [(d, now s)]).filter (fun e => decide (now s < e.2 + 3600000000000))
  let n := (hist.filter (fun e => decide (e.1 = d))).length
  if d ∉ b.failed ∧ 16 ≤ n ∧ d < 10 then
    let s1 := setChan c { x with ce := x.ce + 1, subs := x.subs.set u { b with ce := hist, failed := b.failed ++ [d] } } s
    event 0x0701 [c, u, d] { s1 with mem := { s1.mem with devices := s1.mem.devices + 1 } }
  else setChan c { x with ce := x.ce + 1, subs := x.subs.set u { b with ce := hist } } s

/-- How a line read with wrong symbols ends (R493): clean, corrected (on the one device that holds them all, if so), or
uncorrectable. -/
inductive LineResult where
  | clean
  | corrected (device : Option Nat)
  | uncorrectable
  deriving DecidableEq, Repr

/-- The device that holds every one of the wrong symbols, eight symbols a device (R493). -/
def oneDevice (bad : List Nat) : Option Nat :=
  match bad with
  | [] => none
  | x :: t => if t.all (fun y => decide (y / 8 = x / 8)) then some (x / 8) else none

/-- The code's verdict (R493): all errors of one device; with a device marked failed, its symbols as erasures and up to four
further wrong symbols. Of two marked devices, which is a concurrent failure, the one marked first is erased (DEDUCED, log
entry 108). -/
def verdict (b : SubChan) (bad : List Nat) : LineResult :=
  let wrong := bad.eraseDups
  let erased := b.failed.head?
  let further := wrong.filter (fun y => decide (some (y / 8) ≠ erased))
  if wrong = [] then .clean
  else if (oneDevice wrong).isSome then .corrected (oneDevice wrong)
  else if erased.isSome && decide (further.length ≤ 4) then .corrected none
  else .uncorrectable

/-- A corrected line: it is counted, and the errors of one device are that device's (R494). -/
def lineCorrected (c u : Nat) (dev : Option Nat) (s : State) : State :=
  match dev with
  | some d => deviceCorrected c u d s
  | none => setChan c { chanAt s c with ce := (chanAt s c).ce + 1 } s

/-- The commands in flight of a session lose staged data or their context: they will complete with MEDIA_UNRECOVERABLE, and one
that was worked out already is worked out again (R527, Table 02-2). -/
def spoil (hit : InFlight → Bool) (s : State) : State :=
  let tricks := (s.dlr.inflight.filter hit).map (fun f => (f.session, f.trick))
  let again := fun (f : InFlight) => hit f || (f.trick.isSome && decide ((f.session, f.trick) ∈ tricks))
  { s with dlr := { s.dlr with inflight := s.dlr.inflight.map (fun f =>
      if f.landed then f
      else { f with spoiled := f.spoiled || hit f, phase := if again f && decide (f.phase = .planned) then .ready else f.phase }) } }

/-- A poisoned line reaches its requester (R527): a bucket of the index fails its group, whose rebuild is asked for (R410); a
context is read again from its flushed copy, or else the commands in flight of its session complete under Table 02-2; staged
data end the command that owns them. -/
def poisonTaken (c u : Nat) (q : DramReq) (s : State) : State :=
  match q.use with
  | .group g =>
    let s1 := answerRead c u q true s
    if g ∈ s1.idx.failed then s1
    else reserveMaint .groupRebuild g 1 { s1 with idx := { s1.idx with failed := s1.idx.failed ++ [g] } }
  | .context n flushed =>
    if flushed then answerRead c u q false s
    else spoil (fun f => match tfind s.sessions f.session with
      | some x => decide (x.ctx = n)
      | none => false) (answerRead c u q true s)
  | .staging session seq => spoil (fun f => decide (f.session = session ∧ f.seq = seq)) (answerRead c u q true s)
  | .mirrored => answerRead c u q true s
  | .plain => answerRead c u q true s

/-- An uncorrectable line is counted. The other copy of the protected region is read in its place; when both are uncorrectable,
and for every other region, the line is poisoned (R524, R527). -/
def linePoisoned (c u : Nat) (q : DramReq) (s : State) : State :=
  let x := chanAt s c
  let recent := (x.ueAt ++ [now s]).filter (fun t => decide (now s < t + 1000000000))
  let s1 := setChan c { x with ue := x.ue + 1, ueAt := recent } s
  let other := if c = 0 then 6 else 0
  if decide (q.use = .mirrored ∧ q.mirror = none) && !deadChannel s other then
    enqueueDram other u { q with mirror := some c } s1
  else poisonTaken c u q s1

/-- Requests of a line behind a merge that is now in the write queue: reads are answered from it, writes go into it (R504,
R505). -/
def afterMerge (c u : Nat) (q : DramReq) (s : State) : State :=
  let b := subAt (chanAt s c) u
  let same := b.reads.filter (sameLine q)
  each (takeDram c u) same (setSub c u { b with reads := b.reads.filter (fun x => !sameLine q x) } s)

/-- A line has been read: a merge queues its whole line, any other read is answered, and the bad copy of the protected region is
rewritten from the other (R504, R524). -/
def lineGiven (c u : Nat) (q : DramReq) (s : State) : State :=
  let s1 := match q.mirror with
    | some bad => enqueueDram bad u { q with write := true, merge := false, mirror := none, at_ := now s } s
    | none => s
  if q.merge then
    afterMerge c u q (takeDram c u { q with merge := false, write := true, mirror := none }
      { s1 with mem := { s1.mem with merges := s1.mem.merges + 1 } })
  else answerRead c u q false s1

/-- What a line read brought (R493); a corrected line is written back (R495). -/
def lineRead (c u : Nat) (q : DramReq) (bad : List Nat) (s : State) : State :=
  match verdict (subAt (chanAt s c) u) bad with
  | .clean => lineGiven c u q s
  | .corrected d =>
    let s1 := lineGiven c u q (lineCorrected c u d s)
    if q.merge then s1 else enqueueDram c u { q with write := true, mirror := none, at_ := now s } s1
  | .uncorrectable => linePoisoned c u q s

/-- The controller issues one request (R506, R507). In write mode a write whose line has an older read queued waits for it, and
reads go meanwhile (R508). -/
def issueDram (c u : Nat) (bad : List Nat) (s : State) : State :=
  let b := subAt (chanAt s c) u
  let w := writeMode s b
  let s1 := setSub c u { b with writing := w } s
  let write := if w then (b.writes.filter (writeMay s b)).head? else none
  let read := if write.isNone then nextRead s b else none
  let row := fun (q : DramReq) => if tfind b.opened q.bank = some q.row then s1 else activate c u q s1
  match write, read with
  | some q, _ =>
    let s2 := row q
    let b2 := subAt (chanAt s2 c) u
    emit (.dram c u q.port q.bank q.row q.col true false) (setSub c u { b2 with writes := b2.writes.erase q } s2)
  | none, some q =>
    let s2 := row q
    let b2 := subAt (chanAt s2 c) u
    lineRead c u q bad (setSub c u { b2 with reads := b2.reads.erase q } s2)
  | none, none => s1

/-! ## Training (R518 to R520) -/

/-- A byte lane whose window is narrower than 0.30 UI fails, in 1/64 UI (R518). -/
def eyeFails (e : Nat × Nat) : Bool := decide (100 * e.1 < 1920) || decide (100 * e.2 < 1920)

/-- A live retraining of the channel is asked for; at most one channel retrains at a time (R519). -/
def askRetrain (c : Nat) (s : State) : State :=
  if s.ante.maint.any (fun m => decide (m.kind = .dramRetrain)) then s else reserveMaint .dramRetrain c 125 s

/-! ## Meanings -/

/-- A channel that serves or retrains. -/
def chanServes (s : State) (c : Nat) : Bool := decide (c < 12 ∧ ((chanAt s c).state = 1 ∨ (chanAt s c).state = 3))

/-- DRAM_REQUEST (R502 to R508): requests reach their controllers, and the sub-channel issues one. -/
def execDramRequest (channel sub : Nat) (arrived : List DramIn) (bad : List Nat) (s : State) : R :=
  whenRunning (guard (chanServes s channel && decide (sub < 2)) (fun s =>
    let s1 := each arriveDram arrived (unstall s)
    issueDram channel sub bad (issueWaitingRfm channel sub s1))) s

/-- The bank number refreshed next: in rotation, on a privileged channel the first with no queued request (R513). -/
def refreshBank (s : State) (c : Nat) (b : SubChan) : Nat :=
  let order := (List.range 4).map (fun i => (b.refBank + i) % 4)
  if bit s.mem.privNow c then
    match order.find? (fun n => !(b.reads ++ b.writes).any (fun q => decide (q.bank % 4 = n))) with
    | some n => n
    | none => b.refBank
  else b.refBank

/-- REFRESH_COMMAND (R513): one bank number is refreshed in every bank group; its rows close (R507). -/
def execRefreshCommand (channel sub : Nat) (s : State) : R :=
  whenRunning (guard (chanServes s channel && decide (sub < 2)) (fun s =>
    let b := subAt (chanAt s channel) sub
    let n := refreshBank s channel b
    emit (.refresh channel sub n false)
      (setSub channel sub { b with refBank := (n + 1) % 4, opened := b.opened.filter (fun o => decide (o.1 % 4 ≠ n)) } s))) s

/-- TEMP_MODE_READ (R513): doubled while a device asks for it, base again after two readings at the base rate. -/
def execTempModeRead (channel : Nat) (above : Bool) (s : State) : R :=
  whenRunning (guard (decide (channel < 12) && !bit s.mem.privNow channel) (fun s =>
    let x := chanAt s channel
    if above then setChan channel { x with doubled := true, atBase := 0 } s
    else if x.atBase = 0 then setChan channel { x with atBase := 1 } s
    else setChan channel { x with doubled := false, atBase := 2 } s)) s

/-- ACTIVATE_WINDOW_RESET (R515): the counts start again at 0. -/
def execActivateWindowReset (channel : Nat) (s : State) : R :=
  whenRunning (guard (decide (channel < 12)) (fun s =>
    let x := chanAt s channel
    setChan channel { x with subs := x.subs.map (fun b => { b with acts := [] }) } s)) s

/-- THROTTLE_END (R517): throttle_ms has passed. -/
def execThrottleEnd (channel sub port : Nat) (s : State) : R :=
  whenRunning (fun s =>
    let b := subAt (chanAt s channel) sub
    match tfind b.throttle port with
    | none => s
    | some t => guard (decide (channel < 12 ∧ sub < 2 ∧ t ≤ now s))
        (setSub channel sub { b with throttle := tdel b.throttle port }) s) s

/-- TRUMP_LONG (R510): a raise has lasted longer than 1 ms; one event with its length. -/
def execTrumpLong (s : State) : R :=
  whenRunning (guard (s.mem.trump && !s.mem.trumpLong && decide (s.mem.trumpAt + 1000000 < now s))
    (fun s => event 0x0702 [now s - s.mem.trumpAt] { s with mem := { s.mem with trumpLong := true } })) s

/-- Lines of the module (R495). -/
def allLines : Nat := 6442450944

/-- What stands at a place of the table class (R496, R498): the index has the rows below 49,152, where the mapping is undone to
the line; segments 6 and 7 of channels 0 and 6 are the protected region. -/
def useAt (s : State) (c : Nat) (x : ScrubLine) : DramUse :=
  let fold := fun i => (bits x.bank i i + parity 16 (bits (x.row * 4096) 27 12 &&& s.mem.xorNow.getD i 0)) % 2
  if x.row < 49152 then
    let r := x.row * 4096 + sumOf (fun i => fold i * 2 ^ (7 + i)) (List.range 5) + x.col
    .group ((r * 24 + 2 * c + x.sub) * 64 / 262144)
  else if c = 0 ∨ c = 6 then .mirrored else .plain

/-- One line that the scrub found bad (R495, R527). -/
def scrubbedLine (c : Nat) (x : ScrubLine) (s : State) : State :=
  lineRead c x.sub { port := 15, bank := x.bank, row := x.row, col := x.col, write := false, urgent := false, at_ := now s,
                     use := useAt s c x } x.bad s

/-- The controller has idle cycles: nothing is queued on either sub-channel (R495). -/
def chanIdle (s : State) (c : Nat) : Bool := (chanAt s c).subs.all (fun b => b.reads.isEmpty && b.writes.isEmpty)

/-- PATROL_SCRUB (R495): lines are read in idle cycles, lines found bad are corrected and written back, or poisoned. -/
def execPatrolScrub (channel lines : Nat) (found : List ScrubLine) (s : State) : R :=
  whenRunning (guard (chanServes s channel && chanIdle s channel) (fun s =>
    let s1 := each (scrubbedLine channel) found s
    if allLines ≤ s1.mem.scrubLines + lines then { s1 with mem := { s1.mem with scrubLines := 0, scrubAt := now s1 } }
    else { s1 with mem := { s1.mem with scrubLines := s1.mem.scrubLines + lines } })) s

/-- DRIFT_CHECK (R519): drift, temperature or age asks for a live retraining. -/
def execDriftCheck (channel driftPct : Nat) (tempMoved : Bool) (s : State) : R :=
  whenRunning (guard (decide (channel < 12 ∧ (chanAt s channel).state = 1) &&
      (decide (s.mem.driftPct < driftPct) || tempMoved ||
       decide (s.mem.retrainH ≠ 0 ∧ (chanAt s channel).trained + s.mem.retrainH * 3600000000000 ≤ now s)))
    (askRetrain channel)) s

end Sys2Proof.Machine
end

