-- ==== Sys2Proof/Machine/Index.lean ====
section
/-! DEFINITION. The index engine (ch 08): digest, candidate buckets, lookup, insert with displacement and stash, delta
log, checkpoint. -/

namespace Sys2Proof.Machine

open Sys2Proof

/-- A namespace as at shipment (Tables 03-1, 03-2). -/
def nsBlank : Nat → Namespace := fun _ => {}

/-- Namespace `n`. -/
def nsAt (s : State) (n : Nat) : Namespace := tget nsBlank s.nss n

/-- Namespace `n` becomes `x`. -/
def setNs (n : Nat) (x : Namespace) (s : State) : State := { s with nss := tset nsBlank s.nss n x }

/-- The digest of a key in a namespace (R374, R375). -/
def digestOf (s : State) (ns : Nat) (key : Bytes) : Nat := sipHash128 (nsAt s ns).digestKey key

/-! ## Geometry (R378) -/

/-- First candidate bucket of a digest. -/
def bucket1 (d : Nat) : Nat := d / 2 ^ 88 * Config.buckets / 2 ^ 40

/-- The other candidate of an entry with this tag in bucket `b`; its own inverse. -/
def otherBucket (b tag : Nat) : Nat :=
  b / 4096 * 4096 + ((b % 4096) ^^^ (tag % 4096 % 4095 + 1))

/-- Second candidate bucket of a digest. -/
def bucket2 (d : Nat) : Nat := otherBucket (bucket1 d) d

/-- Group of a bucket. -/
def groupOf (b : Nat) : Nat := b / 4096

/-- The lowest digest whose first candidate lies in group `g` (R378). -/
def groupDigest (g : Nat) : Nat := ceilDiv (g * 8388608) 9 * 2 ^ 88

/-! ## Entries (Table 08-1) -/

/-- length_code of a record of `n` bytes (R380). -/
def lengthCode (n : Nat) : Nat := if n ≤ 16776704 then n / 512 else 32768 + ceilDiv n 4096

/-- The bytes a length code bounds (R380). -/
def codeBytes (c : Nat) : Nat := if c < 32768 then c * 512 else (c - 32768) * 4096

/-- The entry as its 128 bits (Table 08-1). -/
def entryWord (e : Entry) : Nat :=
  pack [(0, 40, e.tag), (40, 40, e.loc), (80, 16, e.code), (96, 4, e.suit), (100, 20, e.vfilt), (120, 1, 1),
        (121, 1, b2n e.inDram), (122, 6, e.nsChk)]

/-- Size of a record in 512-byte units (R441). -/
def recUnits (key value : Nat) : Nat := ceilDiv (64 + key + value) 512

/-- The entry of a record at a place (Table 08-1). -/
def entryOf (d : Nat) (r : Record) (loc : Nat) (inDram : Bool) : Entry :=
  { tag := d % 2 ^ 40, loc := loc, code := lengthCode (512 * r.units), suit := r.suit, vfilt := r.version % 2 ^ 20,
    inDram := inDram, nsChk := r.ns % 64 }

/-- Valid entries plus stash entries (IDX_OBJECTS). -/
def objectCount (s : State) : Nat := s.idx.slots.length + s.idx.stash.length

/-! ## Lookup (R382 to R385) -/

/-- Where an entry stands: a slot of the table (4 × bucket + slot), or a place in the stash. -/
inductive Spot where
  | slot (k : Nat)
  | stash (i : Nat)
  deriving DecidableEq, Repr

/-- The record an entry points to: held in DRAM, or on flash. -/
def recordAt (s : State) (e : Entry) : Option Record :=
  if e.inDram then tfind s.mem.held e.loc else tfind s.med.flash e.loc

/-- A media address lies in a DEAD or ERASING meld, so it fails verification without a read (R461). -/
def deadAddr (s : State) (a : Nat) : Bool :=
  match (tget (fun _ => ({} : Meld)) s.med.melds (a / Config.meldSpan)).state with
  | .dead => true
  | .erasing => true
  | _ => false

/-- The candidates of a digest in a namespace, in the order they are verified: bucket, slot, then stash (R382, R383). The table's
slots stand in that order. -/
def candidates (s : State) (ns d : Nat) : List (Spot × Entry) :=
  let fits := fun (e : Entry) => decide (e.tag = d % 2 ^ 40 ∧ e.nsChk = ns % 64)
  let near := fun (b : Nat) => decide (b = bucket1 d ∨ b = bucket2 d)
  s.idx.slots.filterMap (fun p => if near (p.1 / 4) && fits p.2 then some (Spot.slot p.1, p.2) else none) ++
  (s.idx.stash.zipIdx).filterMap (fun p =>
    if groupOf p.1.1 = groupOf (bucket1 d) ∧ fits p.1.2 = true then some (Spot.stash p.2, p.1.2) else none)

/-- The candidate verifies: its record is of the namespace and holds the key (R383, R386). -/
def verifies (s : State) (ns : Nat) (key : Bytes) (e : Entry) : Bool :=
  if !e.inDram && deadAddr s e.loc then false
  else match recordAt s e with
    | some r => decide (r.ns = ns ∧ r.key = key)
    | none => false

/-- What a lookup finds. -/
structure Found where
  spot : Spot
  entry : Entry
  item : Record
  deriving DecidableEq, Repr

/-- The first candidate that verifies; none when the key is absent (R383). -/
def lookup (s : State) (ns : Nat) (key : Bytes) : Option Found :=
  match (candidates s ns (digestOf s ns key)).find? (fun c => verifies s ns key c.2) with
  | none => none
  | some c =>
    match recordAt s c.2 with
    | some r => some { spot := c.1, entry := c.2, item := r }
    | none => none

/-- Candidates of a lookup that their header rejects, counted in IDX_TAG_FALSE (R384); one in a DEAD meld is rejected without a
read (R461). -/
def falseTags (s : State) (ns : Nat) (key : Bytes) : Nat :=
  (((candidates s ns (digestOf s ns key)).takeWhile (fun c => !verifies s ns key c.2)).filter
    (fun c => c.2.inDram || !deadAddr s c.2.loc)).length

/-- A lookup's false candidates are counted. -/
def countLookup (ns : Nat) (key : Bytes) (s : State) : State :=
  { s with idx := { s.idx with tagFalse := s.idx.tagFalse + falseTags s ns key } }

/-! ## Delta log (R400) -/

/-- One delta record is appended. -/
def logDelta (entry : Option Entry) (bucket slot op : Nat) (x : Index) : Index :=
  { x with deltas := x.deltas ++ [{ entry := entry, bucket := bucket, slot := slot, op := op, seq := x.deltaSeq }],
           deltaSeq := x.deltaSeq + 1 }

/-- Slot `k` takes an entry, with its delta record. -/
def putSlot (k : Nat) (e : Entry) (x : Index) : Index :=
  logDelta (some e) (k / 4) (k % 4) 0 { x with slots := tput x.slots k e }

/-- Slot `k` is cleared, with its delta record. -/
def clearSlot (k : Nat) (x : Index) : Index := logDelta none (k / 4) (k % 4) 1 { x with slots := tdel x.slots k }

/-- Insert into the stash, ordered by group (R392). -/
def stashInsert (b : Nat) (e : Entry) : List (Nat × Entry) → List (Nat × Entry)
  | [] => [(b, e)]
  | p :: t => if groupOf b < groupOf p.1 then (b, e) :: p :: t else p :: stashInsert b e t

/-- An entry goes to the stash (R390). -/
def putStash (b : Nat) (e : Entry) (x : Index) : Index :=
  logDelta (some e) b 0 2 { x with stash := stashInsert b e x.stash, stashIn := x.stashIn + 1 }

/-- Place `i` of the stash is cleared (R391). -/
def clearStash (i : Nat) (x : Index) : Index :=
  match x.stash[i]? with
  | none => x
  | some p => logDelta (some p.2) p.1 0 3 { x with stash := x.stash.eraseIdx i }

/-- The entry at a spot is removed (R391). -/
def clearSpot (p : Spot) (x : Index) : Index :=
  match p with
  | .slot k => clearSlot k x
  | .stash i => clearStash i x

/-- The entry at a spot is rewritten in place (R390). -/
def rewriteSpot (p : Spot) (e : Entry) (x : Index) : Index :=
  match p with
  | .slot k => putSlot k e x
  | .stash i =>
    match x.stash[i]? with
    | none => x
    | some q => logDelta (some e) q.1 0 2 (logDelta (some q.2) q.1 0 3 { x with stash := x.stash.set i (q.1, e) })

/-! ## Insert (R390, R394) -/

/-- The lowest free slot of a bucket. -/
def freeSlot (x : Index) (b : Nat) : Option Nat :=
  ([0, 1, 2, 3].map (fun i => 4 * b + i)).find? (fun k => (tfind x.slots k).isNone)

/-- Free slots of a bucket. -/
def freeCount (x : Index) (b : Nat) : Nat :=
  (([0, 1, 2, 3].map (fun i => 4 * b + i)).filter (fun k => (tfind x.slots k).isNone)).length

/-- A displacement walk of at most `n` moves: `e` takes the victim slot of full bucket `b`, and the entry found there
goes on to its own other candidate. `pick` names the victim slot of a move. Answers the entry left without a slot and
the bucket it stood before, if the walk ended without one. -/
def walk (pick : Nat → Nat) : Nat → Nat → Entry → Index → Index × Option (Nat × Entry)
  | 0, b, e, x =>
    match freeSlot x b with
    | some k => (putSlot k e x, none)
    | none => (x, some (b, e))
  | n + 1, b, e, x =>
    match freeSlot x b with
    | some k => (putSlot k e x, none)
    | none =>
      let v := tget (fun _ => 0) x.victims (groupOf b)
      let k := 4 * b + pick v % 4
      match tfind x.slots k with
      | none => (putSlot k e x, none)
      | some d =>
        walk pick n (otherBucket b d.tag) d
          (putSlot k e { x with victims := tset (fun _ => 0) x.victims (groupOf b) ((v + 1) % 4) })

/-- Insert a new entry whose candidates are `b1` and `b2`; `first` gives the first candidate of an entry that goes to the stash
(R392). Answers whether entries were moved and whether the walk went beyond 8 moves. -/
def insertEntry (first : Nat → Entry → Nat) (b1 b2 : Nat) (e : Entry) (x : Index) : Index × Bool × Bool :=
  let b := if freeCount x b1 < freeCount x b2 then b2 else b1
  match freeSlot x b with
  | some k => (putSlot k e x, false, false)
  | none =>
    match walk id 8 b1 e x with
    | (x1, none) => (x1, true, false)
    | (x1, some (c, d)) =>
      if x1.stash.length < 65536 then (putStash (first c d) d x1, true, false)
      else
        match walk id 4088 c d x1 with
        | (x2, none) => (x2, true, true)
        | (x2, some (c2, d2)) => (putStash (first c2 d2) d2 x2, true, true)

/-- First candidate bucket of an entry found in bucket `b`: by the digest in its record's header, `b` where it has no record yet. -/
def firstBucket (s : State) (b : Nat) (e : Entry) : Nat :=
  match recordAt s e with
  | some r => bucket1 r.digest
  | none => b

/-- The commit step's insertion, counted; a walk beyond 8 moves records an event (R394). -/
def insertNew (d : Nat) (e : Entry) (s : State) : State :=
  match insertEntry (firstBucket s) (bucket1 d) (bucket2 d) e s.idx with
  | (x, moved, long) =>
    let s1 := { s with idx := { x with displaced := x.displaced + b2n moved, longWalks := x.longWalks + b2n long } }
    if long then event 0x0401 [] s1 else s1

/-- The entry that was found is rewritten in place, or a new one is inserted when none was (R390). -/
def putFound (found : Option Found) (d : Nat) (e : Entry) (s : State) : State :=
  match found with
  | some f => { s with idx := rewriteSpot f.spot e s.idx }
  | none => insertNew d e s

/-- The entry that was found is removed (R391, R397). -/
def removeFound (found : Option Found) (s : State) : State :=
  match found with
  | some f => { s with idx := clearSpot f.spot s.idx }
  | none => s

/-- The entry of an object is rewritten in place, or inserted when it has none (R390). -/
def indexPut (ns : Nat) (key : Bytes) (d : Nat) (e : Entry) (s : State) : State := putFound (lookup s ns key) d e s

/-- The object's entry is removed (R391, R397). -/
def indexRemove (ns : Nat) (key : Bytes) (s : State) : State := removeFound (lookup s ns key) s

/-- Every entry of the table and the stash, with its spot. -/
def allEntries (s : State) : List (Spot × Entry) :=
  s.idx.slots.map (fun p => (Spot.slot p.1, p.2)) ++ (s.idx.stash.zipIdx).map (fun p => (Spot.stash p.2, p.1.2))

/-- The entry that points to a place, if one does. -/
def entryFor (s : State) (inDram : Bool) (loc : Nat) : Option (Spot × Entry) :=
  (allEntries s).find? (fun p => decide (p.2.inDram = inDram ∧ p.2.loc = loc))

/-- A record has moved: the entry that points to the old place points to the new one, its version unchanged; an entry
that already points elsewhere is left (R396). -/
def moveEntry (oldDram : Bool) (old : Nat) (newDram : Bool) (new : Nat) (s : State) : State :=
  match entryFor s oldDram old with
  | none => s
  | some (p, e) => { s with idx := rewriteSpot p { e with inDram := newDram, loc := new } s.idx }

/-- Entries reserved for admitted commands that may create an object (R395). -/
def createReserved (s : State) : Nat := (s.dlr.inflight.filter (fun f => f.creates)).length

/-- The stash refuses commands that may create an object (R393). -/
def stashFull (s : State) : Bool := decide (57344 ≤ s.idx.stash.length)

/-! ## Meanings -/

/-- The retry of one stash entry: into the candidate bucket with more free slots, or else by a walk of up to 64 moves with victims
at random (R390, R392, log entry 1). The entry that such a walk leaves without a slot is a stash entry from then on (log entry
106). -/
def retryStash (p : Nat × Entry) (s : State) : State :=
  match s.idx.stash.idxOf? p with
  | none => s
  | some i =>
    let seed := fresh 16 s
    let x0 := clearStash i s.idx
    let other := otherBucket p.1 p.2.tag
    let b := if freeCount x0 p.1 < freeCount x0 other then other else p.1
    match walk (fun v => seed + v) 64 b p.2 x0 with
    | (x, none) => drawn { s with idx := { x with victims := x0.victims } }
    | (x, some (c, e)) =>
      let k := firstBucket s c e
      drawn { s with idx := logDelta (some e) k 0 2 { x with stash := stashInsert k e x.stash, victims := x0.victims } }

/-- STASH_RETRY_PASS (R392): the insertion of every stash entry is tried again. -/
def execStashRetryPass (s : State) : R := whenRunning (fun s => each retryStash s.idx.stash s) s

/-- A group that no image has been copied of: empty, from the first delta record on. -/
def imageBlank : Nat → Image := fun _ => { seq := 1, slots := [], stash := [] }

/-- The lowest image_seq held (R403, Table 08-4); a group that no image was copied of stands at the first delta record. -/
def oldestImage (x : Index) : Nat :=
  if x.images.length < Config.groups then 1 else x.images.foldl (fun m p => min m p.2.seq) x.deltaSeq

/-- One delta record is applied to a group's slots and stash (R405, R406). -/
def applyDelta (m : Image) (d : Delta) : Image :=
  match d.op, d.entry with
  | 0, some e => { m with slots := tput m.slots (4 * d.bucket + d.slot) e }
  | 1, _ => { m with slots := tdel m.slots (4 * d.bucket + d.slot) }
  | 2, some e => if (d.bucket, e) ∈ m.stash then m else { m with stash := stashInsert d.bucket e m.stash }
  | 3, some e => { m with stash := m.stash.erase (d.bucket, e) }
  | _, _ => m

/-- A group as its latest image and the delta records at or above its image_seq give it (R405). -/
def rebuiltGroup (x : Index) (g : Nat) : Image :=
  let im := tget imageBlank x.images g
  (x.deltas.filter (fun d => decide (groupOf d.bucket = g ∧ im.seq ≤ d.seq))).foldl applyDelta im

/-- The rebuild of a failed group may run: its reservation has begun, or it holds none. -/
def groupWindow (s : State) (g : Nat) : Bool :=
  match findMaint s .groupRebuild g with
  | some m => decide (m.first ≤ slotOf (now s))
  | none => true

/-- The group's reservation ends. -/
def endGroupWindow (g : Nat) (s : State) : State :=
  match findMaint s .groupRebuild g with
  | some m => dropMaint m.id s
  | none => s

/-- INDEX_GROUP_REBUILD (R410): in its reservation, a failed group is rebuilt from its image and the delta log. -/
def execIndexGroupRebuild (group : Nat) (s : State) : R :=
  whenRunning (guard (decide (group ∈ s.idx.failed) && groupWindow s group) (fun s =>
    let x := s.idx
    let m := rebuiltGroup x group
    let others := x.slots.filter (fun p => decide (p.1 / 16384 ≠ group))
    let slots := m.slots.foldl (fun t p => tput t p.1 p.2) others
    let stash := m.stash.foldl (fun l p => stashInsert p.1 p.2 l) (x.stash.filter (fun p => decide (groupOf p.1 ≠ group)))
    endGroupWindow group { s with idx := { x with slots := slots, stash := stash, rebuilds := x.rebuilds + 1,
                                                  failed := x.failed.erase group } })) s

end Sys2Proof.Machine
end

