-- ==== Sys2Proof/Machine/Classifier.lean ====
section
/-! DEFINITION. The classifier (ch 08): banks, searches, entry edits, scrub and bank rebuild. -/

namespace Sys2Proof.Machine

open Sys2Proof

/-- A bank as at shipment (Table 08-11). -/
def bankBlank (b : Nat) : Bank :=
  if b < 12 then { width := 1, profile := 0, state := 1 }
  else if b < 14 then { width := 1, profile := 2, state := 1 }
  else { width := 0, profile := 0, state := 0 }

/-- Bank `b`. -/
def bankAt (s : State) (b : Nat) : Bank := tget bankBlank s.cam.banks b

/-- Bank `b` becomes `x`. -/
def setBank (b : Nat) (x : Bank) (s : State) : State :=
  { s with cam := { s.cam with banks := tset bankBlank s.cam.banks b x } }

/-- Units of an entry of a bank with this width code (Table 08-11). -/
def widthUnits (w : Nat) : Nat := if w = 1 then 1 else if w = 2 then 2 else if w = 3 then 4 else 0

/-- The width code of a profile (Table 08-6). -/
def profileWidth (p : Nat) : Nat := if p = 1 then 2 else if p = 3 then 3 else 1

/-- Banks of profile `p` that are not disabled (R413). -/
def banksOf (s : State) (p : Nat) : List Nat :=
  (List.range 16).filter (fun b => decide ((bankAt s b).profile = p ∧ (bankAt s b).state ≠ 0))

/-- The entry's key bits agree with the search key wherever its mask cares (R414). -/
def entryMatches (e : CamEntry) (key : Nat) : Bool := decide ((e.key ^^^ key) &&& e.mask = 0)

/-- The match of two that wins: higher priority, then lower address (R414). -/
def betterEntry (a b : Nat × CamEntry) : Nat × CamEntry :=
  if a.2.priority < b.2.priority then b else if a.2.priority = b.2.priority ∧ b.1 < a.1 then b else a

/-- The winning entry of a profile for a search key (R414). -/
def searchProfile (s : State) (p key : Nat) : Option CamEntry :=
  let hits := s.cam.entries.filter (fun e => decide ((bankAt s (e.1 / 2048)).profile = p ∧
    (bankAt s (e.1 / 2048)).state ≠ 0) && entryMatches e.2 key)
  match hits with
  | [] => none
  | a :: t => some (t.foldl betterEntry a).2

/-- Banks of a profile in fallback: OFFLINE or FAILED (R429). -/
def banksBack (s : State) (p : Nat) : Nat :=
  ((banksOf s p).filter (fun b => decide ((bankAt s b).state = 2 ∨ (bankAt s b).state = 3))).length

/-- A search is counted: itself, its miss, and the fallback searches of banks OFFLINE or FAILED (R429, Table 08-12). -/
def countSearch (p key : Nat) (s : State) : State :=
  let c := s.cam
  let miss := (searchProfile s p key).isNone
  { s with cam := { c with searches := c.searches + 1, fallbacks := c.fallbacks + banksBack s p,
                           misses := if miss then c.misses.set p (min 255 (c.misses.getD p 0 + 1)) else c.misses } }

/-- What the classifier answers for a command (Table 08-8). -/
structure Rule where
  permit : Bool
  qos    : Nat
  tenant : Nat
  remap  : Option Nat
  deriving DecidableEq, Repr

/-- The rule a result word spells (Table 08-8). -/
def ruleOf (r : Nat) : Rule :=
  { permit := bit r 0, qos := bits r 3 1, tenant := bits r 15 4, remap := if bit r 16 then some (bits r 28 17) else none }

/-- The command key (Table 08-7). -/
def commandKey (source port ns opcode cls ctx origin : Nat) : Nat :=
  pack [(78, 2, source), (72, 6, port), (60, 12, ns), (52, 8, opcode), (49, 3, cls), (29, 20, ctx), (13, 16, origin)]

/-- The key of the key-prefix profile: the command key and key bytes 0 to 29 (Table 08-6). -/
def prefixKey (cmd : Nat) (key : Bytes) : Nat :=
  cmd * 2 ^ 240 + beNat ((key ++ List.replicate 30 0#8).take 30)

/-- The key of the client-address profile (Table 08-6). -/
def addressKey (addr port trunk : Nat) : Nat := pack [(32, 128, addr), (16, 16, port), (10, 6, trunk)]

/-- The miss result of page 0x0600 for a source: 0 host, 1 client, 2 fabric (R417). -/
def missRule (s : State) (source : Nat) : Rule :=
  if source = 0 then { permit := s.cam.missHost, qos := s.cam.qosHost, tenant := 0, remap := none }
  else if source = 2 then { permit := s.cam.missFab, qos := s.cam.qosFab, tenant := 0, remap := none }
  else { permit := s.cam.missCli, qos := s.cam.qosCli, tenant := 0, remap := none }

/-- The rule of a command: key prefix, then command profile, then the miss result (R417). -/
def classify (s : State) (source cmdKey : Nat) (key : Bytes) : Rule :=
  let pre := if key = [] then none else searchProfile s 3 (prefixKey cmdKey key)
  match pre with
  | some e => ruleOf e.result
  | none =>
    match searchProfile s 0 cmdKey with
    | some e => ruleOf e.result
    | none => missRule s source

/-- Fallback searches held for a slot (R430, R433): 32 for the banks whose rebuild reservation has not begun, and those of
fallback_cores cores, 32 each, for every bank in its reservation or FAILED. -/
def searchesHeld (s : State) (slot : Nat) : Nat :=
  let waiting := s.cam.banks.any (fun p => decide (p.2.state = 2) &&
    !s.ante.maint.any (fun m => decide (m.kind = .bankRebuild ∧ m.target = p.1 ∧ m.first ≤ slot)))
  (if waiting then 32 else 0) + 32 * fallbackCores s slot

/-- Fallback searches that a command needs: one for each bank in fallback of the profiles it is searched in (R430). -/
def searchesNeeded (s : State) (keyed : Bool) : Nat := banksBack s 0 + (if keyed then banksBack s 3 else 0)

/-- The fallback searches held for this slot do not cover a further command (R431). -/
def searchesSpent (s : State) (keyed : Bool) : Bool :=
  let used := if s.dlr.searchSlot = slotOf (now s) then s.dlr.searchUsed else 0
  decide (searchesNeeded s keyed ≠ 0 ∧ searchesHeld s (slotOf (now s)) < used + searchesNeeded s keyed)

/-- The fallback searches of a command taken in are drawn from those held for the slot. -/
def spendSearches (keyed : Bool) (s : State) : State :=
  let used := if s.dlr.searchSlot = slotOf (now s) then s.dlr.searchUsed else 0
  { s with dlr := { s.dlr with searchSlot := slotOf (now s), searchUsed := used + searchesNeeded s keyed } }

/-- A slot in which the Dealer leaves input untaken is counted once (Table 01-10). -/
def countStall (s : State) : State :=
  if s.dlr.stallSlot = some (slotOf (now s)) then s
  else { s with dlr := { s.dlr with stalls := s.dlr.stalls + 1, stallSlot := some (slotOf (now s)) } }

/-- More requests wait for the Ante unit than it decides in a slot, so the Dealer takes in no work (R209). -/
def anteBehind (s : State) : Bool := decide (Config.anteBacklog ≤ (s.dlr.arrived.filter (·.queued)).length)

/-- The Dealer leaves a command of this kind where it is (R209, R431). -/
def intakeHeld (s : State) (keyed : Bool) : Bool := anteBehind s || searchesSpent s keyed

/-- The searches a command makes are counted: the command profile always, the key prefix when a bank has it. -/
def countClassify (cmdKey : Nat) (key : Bytes) (s : State) : State :=
  let s1 := countSearch 0 cmdKey s
  if key = [] ∨ banksOf s 3 = [] then s1 else countSearch 3 (prefixKey cmdKey key) s1

/-! ## Editing entries (R422 to R425) -/

/-- The fields of pages 0x0601 and 0x0602 (Table 08-9). -/
structure EntryPage where
  valid    : Bool
  priority : Nat
  result   : Nat
  key      : Nat
  mask     : Nat
  deriving DecidableEq, Repr

/-- The fields of Table 08-9 in a page payload, shifted by `base` bits. -/
def entryPage (v base : Nat) : EntryPage :=
  { valid := bit v base, priority := bits v (base + 15) (base + 4), result := bits v (base + 127) (base + 64),
    key := bits v (base + 447) (base + 128), mask := bits v (base + 767) (base + 448) }

/-- A result word whose reserved bits are 0 for the profile (Table 08-8, R423); node fields are eleven bits, so none
lies above 2,047. -/
def resultOk (profile r : Nat) : Bool :=
  if profile = 1 then decide (r < 2 ^ 17) else if profile = 2 then decide (r < 2 ^ 27) else decide (r < 2 ^ 29)

/-- Page 0x0601 is accepted for address `a` (R423). -/
def entryOk (s : State) (a : Nat) (e : EntryPage) : Bool :=
  let b := bankAt s (a / 2048)
  let w := widthUnits b.width
  decide (a < 32768 ∧ b.state ≠ 0 ∧ b.state ≠ 3 ∧ w ≠ 0 ∧ a % w = 0 ∧ e.key < 2 ^ (80 * w) ∧ e.mask < 2 ^ (80 * w)) &&
  resultOk b.profile e.result

/-- The entry at address `a` is written; valid 0 makes it a hole (R422). -/
def writeEntry (a : Nat) (e : EntryPage) (s : State) : State :=
  let x : CamEntry := { priority := e.priority, result := e.result, key := e.key, mask := e.mask }
  let t := if e.valid then tput s.cam.entries a x else tdel s.cam.entries a
  { s with cam := { s.cam with entries := t } }

/-- Page 0x0602 is accepted for target `a` and hole `h` (R424). -/
def insertOk (s : State) (a h : Nat) (e : EntryPage) : Bool :=
  let w := widthUnits (bankAt s (a / 2048)).width
  entryOk s a e && decide (h / 2048 = a / 2048 ∧ h % w = 0 ∧ h ≠ a ∧ tfind s.cam.entries h = none) &&
  decide ((if a < h then h - a else a - h) ≤ 63 * w)

/-- Copy the entry at `src` to address `dst`; a hole moves as a hole. -/
def copyEntry (src dst : Nat) (t : Tbl CamEntry) : Tbl CamEntry :=
  match tfind t src with
  | some e => tput t dst e
  | none => tdel t dst

/-- The entries from `a` to `h` − 1 move up by one entry, `n` of them, beginning next to the hole (R424, R425). -/
def shiftUp (w a : Nat) : Nat → Tbl CamEntry → Tbl CamEntry
  | 0, t => t
  | n + 1, t => shiftUp w a n (copyEntry (a + n * w) (a + (n + 1) * w) t)

/-- The entries from the hole on up to `a` move down by one entry, `n` of them, beginning next to the hole at `h`. -/
def shiftDown (w h : Nat) : Nat → Nat → Tbl CamEntry → Tbl CamEntry
  | 0, _, t => t
  | n + 1, i, t => shiftDown w h n (i + 1) (copyEntry (h + (i + 1) * w) (h + i * w) t)

/-- The ordered insert (R424). -/
def orderedInsert (a h : Nat) (e : EntryPage) (s : State) : State :=
  let w := widthUnits (bankAt s (a / 2048)).width
  let t := if a < h then shiftUp w a ((h - a) / w) s.cam.entries else shiftDown w h ((a - h) / w) 0 s.cam.entries
  writeEntry a e { s with cam := { s.cam with entries := t } }

/-! ## Scrub and rebuild (R426 to R433) -/

/-- The service core's test slice gives way to fallback searches (R200, R430). -/
def yieldSlices (s : State) : State :=
  if serviceFree s then each cancelMaint (s.ante.maint.filter (fun m => decide (m.kind = .testSlice))) s else s

/-- A bank goes OFFLINE: an event names bank and unit, and a firm rebuild is reserved (R429, R432). -/
def bankOffline (unit : Nat) (s : State) : State :=
  let b := unit / 2048
  let x := bankAt s b
  if x.state ≠ 1 then s
  else reserveMaint .bankRebuild b 63 (yieldSlices (event 0x0501 [b, unit] (setBank b { x with state := 2 } s)))

/-- One error found: a bad DRAM copy is rewritten, another error takes the bank offline (R426, R427). -/
def camError (e : CamError) (s : State) : State :=
  if e.dramBad then { s with cam := { s.cam with crcFixes := s.cam.crcFixes + 1 } }
  else
    bankOffline e.unit { s with cam :=
      { s.cam with lastUnit := e.unit, scrubErr := s.cam.scrubErr + b2n (!e.parity),
                   parityErr := s.cam.parityErr + b2n e.parity } }

/-- CLASSIFIER_SCRUB (R427): a pass over all units ends, with the errors found in it. -/
def execClassifierScrub (found : List CamError) (s : State) : R :=
  whenRunning (fun s =>
    let s1 := each camError (found.filter (fun e => decide (e.unit < 32768))) s
    { s1 with cam := { s1.cam with passes := s1.cam.passes + 1 } }) s

/-- CLASSIFIER_BANK_REBUILD (R432, Table 08-10): the reserved rebuild ends. A third failure within 24 hours fails the
bank, an earlier one reserves the next rebuild. -/
def execClassifierBankRebuild (bank : Nat) (verified : Bool) (s : State) : R :=
  whenRunning (fun s =>
    match findMaint s .bankRebuild bank with
    | none => s
    | some m =>
      let x := bankAt s bank
      let s1 := dropMaint m.id s
      if (x.state ≠ 2 ∧ x.state ≠ 3) ∨ slotOf (now s) < m.first then s
      else if verified then setBank bank { x with state := 1, fails := [] } s1
      else
        let fails := (x.fails ++ [now s]).filter (fun t => decide (now s < t + 86400000000000))
        if x.state = 3 ∨ 3 ≤ fails.length then setBank bank { x with state := 3, fails := fails } s1
        else reserveMaint .bankRebuild bank 63 (setBank bank { x with fails := fails } s1)) s

end Sys2Proof.Machine
end

