-- ==== Sys2Proof/Machine/Records.lean ====
section
/-! DEFINITION. Records as the bytes they are on flash: the header, the values of the system records, the two CRCs bound to the
media address (R441 to R443), and the check of a record that is read (R385, R454). -/

namespace Sys2Proof.Machine

open Sys2Proof

/-! ## Record types (Table 09-3) -/

/-- PAD. -/
def padKind : Nat := 3

/-- The record belongs to the system stream: types 4 to 8, and the HINT records that R462 leaves there (log entry 103). -/
def systemKind (kind : Nat) : Bool := decide (kind = 2 ∨ (4 ≤ kind ∧ kind ≤ 8))

/-- Bytes of a group image beside its stash entries: 4,096 buckets of 64 bytes, the group, the image_seq, the CRC (R402, log
entry 103). -/
def imageLength : Nat := 262144 + 16

/-- The value length of a record of another type than VALUE, TOMBSTONE and PAD, whose value its words give. -/
def wordsLength (kind : Nat) (w : List Nat) : Nat :=
  match kind with
  | 2 => 40
  | 4 => imageLength + 20 * w.getD 2 0
  | 5 => 32 * w.length
  | _ => 8 * w.length

/-- The value length of a record (Table 09-2). -/
def valueSize (r : Record) : Nat :=
  if r.kind = padKind then 512 * r.units - 64 else if systemKind r.kind then wordsLength r.kind r.words else r.value.length

/-! ## Values of system records -/

/-- A HINT's 40 bytes: scope, suit, lo, hi (Table 09-3, log entry 103). -/
def hintBytes (w : List Nat) : Bytes :=
  natLe 4 (w.getD 0 0) ++ natLe 4 (w.getD 1 0) ++ natLe 16 (w.getD 2 0) ++ natLe 16 (w.getD 3 0)

/-- Pairs of a list of words. -/
def wordPairs : List Nat → List (Nat × Nat)
  | a :: b :: t => (a, b) :: wordPairs t
  | _ => []

/-- A group image: every slot of the group, its stash entries with their buckets, the group number, the image_seq and a CRC-32C over
all of it (R402). Its words are the group, the image_seq, the number of stash entries, then pairs of a slot, or a stash entry's
bucket, and the entry; the stash entries come first. -/
def imageValue (w : List Nat) : Bytes :=
  let pairs := wordPairs (w.drop 3)
  let stash := pairs.take (w.getD 2 0)
  let slots := pairs.drop (w.getD 2 0)
  let b := (List.range 16384).flatMap (fun i => natLe 16 (((slots.find? (fun p => decide (p.1 % 16384 = i))).map (·.2)).getD 0)) ++
    stash.flatMap (fun p => natLe 4 p.1 ++ natLe 16 p.2) ++ natLe 4 (w.getD 0 0) ++ natLe 8 (w.getD 1 0)
  b ++ natLe 4 (crc32c b)

/-- The value bytes of a record. -/
def valueBytes (r : Record) : Bytes :=
  if r.kind = padKind then List.replicate (512 * r.units - 64) 0
  else if systemKind r.kind then
    match r.kind with
    | 2 => hintBytes r.words
    | 4 => imageValue r.words
    | 5 => r.words.flatMap (natLe 32)
    | _ => r.words.flatMap (natLe 8)
  else r.value

/-! ## The header and its CRCs (R441, R442) -/

/-- The header without its CRCs (Table 09-2). -/
def headerWord (r : Record) : Nat :=
  pack [(0, 32, 0x5EC04D17), (32, 4, r.kind), (36, 4, r.suit), (40, 12, r.ns), (52, 9, r.key.length), (61, 1, b2n r.medium),
        (62, 1, b2n r.rebuilt), (64, 27, valueSize r), (96, 18, r.units), (128, 64, r.version), (192, 64, r.time),
        (256, 128, r.digest), (384, 27, r.whole), (411, 5, r.index), (416, 5, r.k), (421, 3, r.m)]

/-- Key, value and padding of a record. -/
def bodyBytes (r : Record) : Bytes :=
  let b := r.key ++ valueBytes r
  b ++ List.replicate (512 * r.units - 64 - b.length) 0

/-- The 60 bytes that hdr_crc covers, rec_crc `rc` among them. -/
def headerStart (r : Record) (rc : Nat) : Bytes := natLe 56 (headerWord r) ++ natLe 4 rc

/-- rec_crc of a record at media address `a` (R442). -/
def recCrcAt (a : Nat) (r : Record) : Nat := crc32c (bodyBytes r ++ natLe 8 a)

/-- hdr_crc of a record at media address `a` (R442). -/
def hdrCrcAt (a rc : Nat) (r : Record) : Nat := crc32c (headerStart r rc ++ natLe 8 a)

/-- The record as it is written at media address `a`: with new CRCs (R442). -/
def sealRecord (a : Nat) (r : Record) : Record :=
  { r with recCrc := recCrcAt a r, hdrCrc := hdrCrcAt a (recCrcAt a r) r }

/-- The bytes of a stored record: header, key, value, padding. -/
def recordImage (r : Record) : Bytes := headerStart r r.recCrc ++ natLe 4 r.hdrCrc ++ bodyBytes r

/-! ## Checking a record that is read (R385, R454) -/

/-- The header of the record read at `a` holds. -/
def headerHolds (a : Nat) (r : Record) : Bool := decide (r.hdrCrc = hdrCrcAt a r.recCrc r)

/-- Key, value and padding of the record read at `a` hold. -/
def bodyHolds (a : Nat) (r : Record) : Bool := decide (r.recCrc = recCrcAt a r)

/-- The record that an entry points to is unreadable: its version differs from the entry's filter (R385), or on flash its header,
or where the whole of it is read its contents, fail their CRC (R454, log entry 104). Reconstruction from the meld gives what was
programmed, so the check fails again. -/
def unreadable (e : Entry) (r : Record) (whole : Bool) : Bool :=
  decide (r.version % 2 ^ 20 ≠ e.vfilt) ||
  (!e.inDram && (!headerHolds e.loc r || (whole && !bodyHolds e.loc r)))

/-- The value of an entry as a word (Table 08-1), for the group images and delta pages. -/
def deltaWord (d : Delta) : Nat :=
  pack [(0, 128, match d.entry with | some e => entryWord e | none => 0), (128, 33, d.bucket), (161, 2, d.slot), (163, 2, d.op),
        (192, 64, d.seq)]

/-- The words of a group image. -/
def imageWords (g : Nat) (im : Image) : List Nat :=
  [g, im.seq, im.stash.length] ++ im.stash.flatMap (fun p => [p.1, entryWord p.2]) ++
    im.slots.flatMap (fun p => [p.1, entryWord p.2])

end Sys2Proof.Machine
end

