-- ==== Sys2Proof/Machine/Media.lean ====
section
/-! DEFINITION. The media engine (ch 09): geometry, blocks and melds, placing records in rows, row programs, reading and
repair, and the choice of what is reclaimed. -/

namespace Sys2Proof.Machine

open Sys2Proof

/-! ## Geometry (R436 to R439) -/

/-- A meld number that is not in use. -/
def meldBlank : Nat → Meld := fun _ => {}

/-- Meld `n`. -/
def meldAt (s : State) (n : Nat) : Meld := tget meldBlank s.med.melds n

/-- Meld `n` becomes `m`. -/
def setMeld (n : Nat) (m : Meld) (s : State) : State :=
  { s with med := { s.med with melds := tset meldBlank s.med.melds n m } }

/-- A die as at shipment. -/
def dieBlank : Nat → Die := fun _ => {}

/-- Die `d`. -/
def dieAt (s : State) (d : Nat) : Die := tget dieBlank s.med.dies d

/-- Die `d` becomes `x`. -/
def setDie (d : Nat) (x : Die) (s : State) : State :=
  { s with med := { s.med with dies := tset dieBlank s.med.dies d x } }

/-- A flash channel's counters after a cold start. -/
def flashChanBlank : Nat → Chan := fun _ => {}

/-- The counters of flash channel `c` are changed. -/
def modFlashChan (c : Nat) (f : Chan → Chan) (s : State) : State :=
  { s with med := { s.med with chans := tmod flashChanBlank s.med.chans c f } }

/-- Number of block `b` of a plane of a die. -/
def blockId (die plane b : Nat) : Nat := (4 * die + plane) * Config.planeBlocks + b

/-- The die a block is on. -/
def blockDie (id : Nat) : Nat := id / (4 * Config.planeBlocks)

/-- The plane a block is on. -/
def blockPlane (id : Nat) : Nat := id / Config.planeBlocks % 4

/-- Die set of a meld number (R438). -/
def meldSet (n : Nat) : Nat := n / Config.planeBlocks

/-- The parity slot (R438): n mod 16, or the next slot when that channel is the one a narrow meld lacks. -/
def paritySlot (n : Nat) (narrow : Option Nat) : Nat :=
  if narrow = some (n % 16) then (n + 1) % 16 else n % 16

/-- The data slots in ascending order (R438). -/
def dataSlots (n : Nat) (narrow : Option Nat) : List Nat :=
  (List.range 16).filter (fun j => decide (j ≠ paritySlot n narrow ∧ narrow ≠ some j))

/-- Where a media address lies (R439). -/
structure Location where
  meld  : Nat
  row   : Nat
  dslot : Nat
  plane : Nat
  page  : Nat
  byte  : Nat
  deriving DecidableEq, Repr

/-- The mapping of R439 for a meld with `w` data slots; none for an invalid address. -/
def locate (w addr : Nat) : Option Location :=
  let n := addr / Config.meldSpan
  let u := addr % Config.meldSpan
  let q := u / 32
  let k := q % (12 * w)
  if w = 0 ∨ 512 * 12 * w ≤ q ∨ Config.melds ≤ n then none
  else some { meld := n, row := q / (12 * w), dslot := k % w, plane := k / w % 4, page := 3 * (q / (12 * w)) + k / (4 * w),
              byte := u % 32 * 512 }

/-- Data slots of a meld: 15, or 14 for a narrow one. -/
def width (m : Meld) : Nat := if m.narrow.isNone then 15 else 14

/-- Units of one row of a meld. -/
def rowUnits (m : Meld) : Nat := 12 * width m * 32

/-- The codeword read that a media address needs: die, plane, channel. -/
def readPlace (s : State) (addr : Nat) : ReadAt :=
  let n := addr / Config.meldSpan
  let m := meldAt s n
  match locate (width m) addr with
  | none => { die := 0, plane := 0, channel := 0 }
  | some l =>
    let slot := (dataSlots n m.narrow).getD l.dslot 0
    let d := match m.blocks[4 * slot + l.plane]? with
      | some b => blockDie b
      | none => (setDies (meldSet n)).getD slot 0
    { die := d, plane := l.plane, channel := d / 16 }

/-- The reads a codeword costs: itself, or one on each other slot of the meld when its die has failed (R455). -/
def codewordReads (s : State) (addr : Nat) : List ReadAt :=
  let x := readPlace s addr
  if (dieAt s x.die).state = 0 then [x]
  else
    let n := addr / Config.meldSpan
    ((setDies (meldSet n)).filter (fun d => decide (d ≠ x.die))).map
      (fun d => { die := d, plane := x.plane, channel := d / 16, recovery := true })

/-- Media addresses of the codewords that hold `count` units from `addr` on. -/
def codewordsOf (addr count : Nat) : List Nat :=
  (List.range ((addr + count - 1) / 8 - addr / 8 + 1)).map (fun i => (addr / 8 + i) * 8)

/-! ## Blocks (R464 to R467, Table 09-7) -/

/-- A block at shipment, no block bad (R467, log entry 12): block 1,365 of each plane is the flush block, blocks 0 to 7
of plane 0 on dies 0 and 272 are root blocks, blocks 1,331 to 1,364 are stock, the rest is talon. -/
def blkBlank (id : Nat) : Blk :=
  let b := id % Config.planeBlocks
  if b = 1365 ∨ (blockPlane id = 0 ∧ (blockDie id = 0 ∨ blockDie id = 272) ∧ b < 8) then { state := .open_ }
  else if 1331 ≤ b then { state := .stock }
  else { state := .talon }

/-- Block `id`. -/
def blkAt (s : State) (id : Nat) : Blk := tget blkBlank s.med.blocks id

/-- Block `id` becomes `b`. -/
def setBlk (id : Nat) (b : Blk) (s : State) : State :=
  { s with med := { s.med with blocks := tset blkBlank s.med.blocks id b } }

/-- How many blocks of a listed plane changed into a state, less those that changed out of it. -/
def blkChange (l : Tbl Blk) (st : BlkState) (keep : Nat → Bool) : Int :=
  match l with
  | [] => 0
  | (id, b) :: t =>
    (if keep id then (if b.state = st then 1 else 0) - (if (blkBlank id).state = st then 1 else 0) else 0) +
    blkChange t st keep

/-- Blocks of a plane in a state at shipment. -/
def planeAtShipment (die plane : Nat) (st : BlkState) : Nat :=
  let root := if plane = 0 ∧ (die = 0 ∨ die = 272) then 8 else 0
  match st with
  | .stock => 34
  | .talon => 1331 - root
  | .open_ => 1 + root
  | .full => 0
  | .retired => 0

/-- Blocks of a plane in a state. -/
def planeCount (s : State) (die plane : Nat) (st : BlkState) : Nat :=
  ((planeAtShipment die plane st : Int) +
    blkChange s.med.blocks st (fun id => decide (id / Config.planeBlocks = 4 * die + plane))).toNat

/-- Blocks of the module in a state (Table 02-6). -/
def blkCount (s : State) (st : BlkState) : Nat :=
  let base : Int := match st with
    | .stock => 69632
    | .open_ => 2064
    | .talon => 2797568 - 69632 - 2064
    | .full => 0
    | .retired => 0
  (base + blkChange s.med.blocks st (fun _ => true)).toNat

/-- The TALON blocks that serve slot `j`, plane `p` of die set `k`: those of its die, none of them lent away, and those
lent to it (R466). -/
def servesSlot (s : State) (k j p id : Nat) : Bool :=
  let b := blkAt s id
  decide (b.state = .talon ∧ blockPlane id = p) &&
  (match b.lent with
   | some x => decide (x = k ∧ blockDie id / 16 = 16 * (k / 16) + j)
   | none => decide ((setDies k).getD j 0 = blockDie id))

/-- STOCK blocks of a plane on the dies in service of a channel. -/
def channelStock (s : State) (c p : Nat) : Nat :=
  sumOf (fun i => if (dieAt s (16 * c + i)).state = 0 then planeCount s (16 * c + i) p .stock else 0) (List.range 16)

/-- Talon of die set `k` at slot `j`, plane `p`, with blocks that could be borrowed once its own stock is gone or its die is lost
(R466, R468). -/
def slotTalon (s : State) (k j p : Nat) : Nat :=
  let d := (setDies k).getD j 0
  let lent := (s.med.blocks.filter (fun b => decide (b.2.lent = some k) && servesSlot s k j p b.1)).length
  if (dieAt s d).state ≠ 0 then lent + channelStock s (d / 16) p
  else
    let away := (s.med.blocks.filter (fun b => decide (b.2.state = .talon ∧ b.2.lent ≠ none ∧ b.1 / Config.planeBlocks = 4 * d + p))).length
    let own := planeCount s d p .talon - away
    let borrow := if planeCount s d p .stock = 0 then channelStock s (d / 16) p else 0
    own + lent + borrow

/-- The talon of die set `k` in melds (R468). -/
def setTalon (s : State) (k : Nat) : Nat :=
  let l := (List.range 64).map (fun i => slotTalon s k (i / 4) (i % 4))
  leastOf id (l.headD 0) l

/-- The talon summed over the die sets (R470). -/
def talonSum (s : State) : Nat := sumOf (setTalon s) (List.range 32)

/-- The least-worn TALON block for slot `j`, plane `p` of set `k`, lowest number among equals (R473). -/
def leastWorn (s : State) (k j p : Nat) : Option Nat :=
  let d := (setDies k).getD j 0
  let own := if (dieAt s d).state = 0 then (List.range Config.planeBlocks).map (blockId d p) else []
  match own.find? (fun id => servesSlot s k j p id && decide ((blkAt s id).erases = 0)) with
  | some id => some id
  | none =>
    let all := (own ++ (s.med.blocks.map (·.1)).filter (fun id => decide ((blkAt s id).lent = some k))).filter (servesSlot s k j p)
    match all with
    | [] => none
    | a :: t => some (t.foldl (fun x y => if (blkAt s y).erases < (blkAt s x).erases then y else x) a)

/-- The first STOCK block of a plane of a die in service; a failed die lends none (R466). -/
def stockBlock (s : State) (p die : Nat) : Option Nat :=
  if (dieAt s die).state ≠ 0 then none
  else ((List.range Config.planeBlocks).map (blockId die p)).find? (fun x => decide ((blkAt s x).state = .stock))

/-- A retired block is replaced from stock of its die and plane, else by the lowest-positioned stock block of the same
channel and plane, which then serves the die set (R466). -/
def replaceBlock (id : Nat) (s : State) : State :=
  let d := blockDie id
  let p := blockPlane id
  let k := 16 * (d / 256) + d % 16
  let stockOf := stockBlock s p
  match stockOf d with
  | some x => setBlk x { blkAt s x with state := .talon } s
  | none =>
    match ((List.range 16).map (fun i => 16 * (d / 16) + i)).findSome? stockOf with
    | some x => setBlk x { blkAt s x with state := .talon, lent := some k } s
    | none => s

/-- READ_ONLY_MODE when blk_stock has fallen below 1 % of blk_total (R478). -/
def checkStock (s : State) : State :=
  if blkCount s .stock < 27976 then enterReadOnly 1 [1, blkCount s .stock] s else s

/-- A block is retired and replaced (R466, R474, R475). -/
def retireBlock (id : Nat) (s : State) : State :=
  checkStock (replaceBlock id (setBlk id { blkAt s id with state := .retired } s))

/-! ## Streams and open melds (R459) -/

/-- Melds in a state. -/
def meldsIn (s : State) (st : MeldState) : List (Nat × Meld) := s.med.melds.filter (fun p => decide (p.2.state = st))

/-- Open melds of a stream that take further records. -/
def openOf (s : State) (stream : Nat) : List (Nat × Meld) :=
  (meldsIn s .open_).filter (fun p => decide (p.2.stream = stream ∧ p.2.shut = false ∧ p.2.next < 512 * rowUnits p.2))

/-- A FREE meld number of die set `k` for a stream, the lowest one: between two snapshots the system stream opens none but the melds
that the last one names, and no other stream takes these (R480). -/
def freeMeld (s : State) (stream k : Nat) : Option Nat :=
  let named := s.med.nextMelds.getD []
  if stream = 32 ∧ s.med.nextMelds.isSome then
    named.find? (fun n => decide (meldSet n = k ∧ (meldAt s n).state = .free))
  else
    ((List.range Config.planeBlocks).map (fun i => k * Config.planeBlocks + i)).find?
      (fun n => decide ((meldAt s n).state = .free ∧ n ∉ named))

/-- Slots of die set `k` that have no block for a new meld on some plane. -/
def bareSlots (s : State) (k : Nat) : List Nat :=
  (List.range 16).filter (fun j => (List.range 4).any (fun p => decide (slotTalon s k j p = 0)))

/-- A meld can be opened on set `k`: every slot has its blocks, or one channel whose die is lost has none, and the meld is narrow
(R438, R466). -/
def blocksThere (s : State) (k : Nat) : Bool :=
  match bareSlots s k with
  | [] => true
  | [j] => decide ((dieAt s ((setDies k).getD j 0)).state ≠ 0)
  | _ => false

/-- The set is at talon_floor (R468). -/
def atFloor (s : State) (k : Nat) : Bool := decide (setTalon s k ≤ 2)

/-- The stream may open a meld on set `k`: at talon_floor only relocation and system streams may, and a host stream for rows of
TOMBSTONE records alone (`tomb`, R468), and no more than 96 melds are open (R459). In READ_ONLY_MODE the media engine writes no new
user data, and opens melds all the same for what was accepted (R478). -/
def mayOpen (s : State) (stream : Nat) (tomb : Bool) (k : Nat) : Bool :=
  decide ((meldsIn s .open_).length < 96 ∧ (openOf s stream).length < 32) && (freeMeld s stream k).isSome &&
  (if atFloor s k then decide (16 ≤ stream) || tomb else true) && blocksThere s k

/-- Die sets in the order a stream tries them (log entry 13). -/
def setOrder (stream : Nat) : List Nat := (List.range 32).map (fun i => (stream + i) % 32)

/-- Open melds of a stream that take a record, a TOMBSTONE where `tomb` (R468). -/
def openFor (s : State) (stream : Nat) (tomb : Bool) : List (Nat × Meld) := (openOf s stream).filter (fun p => tomb || !p.2.tombs)

/-- Die sets that can take a write of the stream (R196): those of its open melds first, then those where it may open
one. -/
def streamSets (s : State) (stream : Nat) (tomb : Bool) : List Nat :=
  let l := (openFor s stream tomb).map (fun p => meldSet p.1)
  l ++ (setOrder stream).filter (fun k => decide (k ∉ l) && mayOpen s stream tomb k)

/-- The block that a new meld takes for slot `j`, plane `p` of set `k`: the least-worn TALON block, or where the die is lost a STOCK
block borrowed from another die of the channel, lowest position first (R438, R466, R473). -/
def slotBlock (s : State) (k j p : Nat) : Option Nat :=
  let d := (setDies k).getD j 0
  match leastWorn s k j p with
  | some id => some id
  | none => if (dieAt s d).state = 0 then none else ((List.range 16).map (fun i => 16 * (d / 16) + i)).findSome? (stockBlock s p)

/-- A block is taken into a meld of die set `k`; one of another die serves that set from now on (R466). -/
def takeBlock (k id : Nat) (s : State) : State :=
  let b := blkAt s id
  setBlk id { b with state := .open_, lent := if blockDie id ∈ setDies k then b.lent else some k } s

/-- Open meld `n` for a stream with a block for each slot and plane; a slot without one makes the meld narrow (R438, R465, R466,
R473). -/
def openMeld (stream : Nat) (tomb : Bool) (n : Nat) (s : State) : State :=
  let k := meldSet n
  let pick := (List.range 64).map (fun i => slotBlock s k (i / 4) (i % 4))
  let lost := (List.range 16).find? (fun j => (pick.drop (4 * j)).take 4 |>.any Option.isNone)
  let ids := (pick.zipIdx).filterMap (fun p => if lost = some (p.2 / 4) then none else p.1)
  let s1 := each (takeBlock k) ids s
  let blocks := (pick.zipIdx).map (fun p => if lost = some (p.2 / 4) then blockId 0 0 0 else p.1.getD 0)
  setMeld n { state := .open_, stream := stream, narrow := lost, blocks := blocks, openAt := now s,
              minStamp := 2 ^ 64, tombs := tomb && decide (stream < 16) && atFloor s k } s1

/-- An open meld of the stream on set `k`, opened if need be. -/
def meldOn (stream : Nat) (tomb : Bool) (k : Nat) (s : State) : Option (Nat × State) :=
  match (openFor s stream tomb).find? (fun p => decide (meldSet p.1 = k)) with
  | some p => some (p.1, s)
  | none =>
    match freeMeld s stream k with
    | some n => some (n, openMeld stream tomb n s)
    | none => none

/-! ## Rows (R440, R444 to R448) -/

/-- The row a meld assembles. -/
def asmRow (m : Meld) : Nat := m.next / rowUnits m

/-- Start unit of a record of `units` that stays within one codeword if it has at most 4,096 bytes (R440). -/
def wordUnit (m : Meld) (units : Nat) : Nat :=
  if units ≤ 8 ∧ 8 < m.next % 8 + units then (m.next / 8 + 1) * 8 else m.next

/-- Start unit of a record of `units` in a meld: no page begins more than 24 records, a PAD record before the codeword boundary among
them (R440, R446). -/
def alignUnit (m : Meld) (units : Nat) : Nat :=
  let u := wordUnit m units
  if u / 32 = m.next / 32 ∧ 24 ≤ m.headers + b2n (decide (u ≠ m.next)) then (u / 32 + 1) * 32 else u

/-- A record fits in the rest of the meld (R444). -/
def fitsMeld (m : Meld) (units : Nat) : Bool := decide (alignUnit m units + units ≤ 512 * rowUnits m)

/-- Dies of a meld. -/
def meldDies (n : Nat) (m : Meld) : List Nat :=
  if m.blocks = [] then setDies (meldSet n)
  else ((List.range 16).filter (fun j => decide (m.narrow ≠ some j))).map (fun j => blockDie (m.blocks.getD (4 * j) 0))

/-- Units of record in row `r` of a meld: the parts of the records being assembled that lie in it. -/
def unitsIn (m : Meld) (r : Nat) : Nat :=
  sumOf (fun x =>
    let u := x.addr % Config.meldSpan
    min (u + x.item.units) ((r + 1) * rowUnits m) - max u (r * rowUnits m)) m.asm

/-- The slot by which the rows up to `r` of a meld are to be programmed: the least end of horizon of the debits that its
records hold (R196). -/
def rowBy (s : State) (m : Meld) (r : Nat) : Nat :=
  let owners := (m.asm.filter (fun x => decide (x.addr % Config.meldSpan / rowUnits m ≤ r))).filterMap (·.owner)
  leastOf id (horizonEnd (now s)) ((s.ante.debits.filter (fun d => owners.any (fun o => decide (d.owner = .command o.1 o.2)))).map
    (·.until_))

/-- Row `r` of a meld is closed: its program is reserved at the earliest fit after the previous row's, before the horizon of
its records' debits ends, and the debits are met (R193, R196, R448). Where no slot of the horizon takes it, the row stays
without a program, and the seal timer asks again (R186; DESIGN CHOICE, log entry 113). -/
def closeRow (n r : Nat) (s : State) : State :=
  let m := meldAt s n
  let p : Plot := { t := now s, last := rowBy s m r, d7 := false, qos := qosNone, who := .row n, rolling := decide (16 ≤ m.stream) }
  let start := max (slotOf (now s) + 1) (m.lastEnd + 1)
  let at_ := fun last => fitRow s { p with last := last } (meldDies n m) (512 * unitsIn m r) s.ante.resv 65536 start
  match (match at_ p.last with | some x => some x | none => at_ (horizonEnd (now s))) with
  | none => s
  | some (k, l) =>
    let done := m.asm.filter (fun x => decide (x.addr % Config.meldSpan / rowUnits m ≤ r))
    let s1 := each (fun x s => match x.owner with
      | some (a, b) => undebit (.command a b) s
      | none => s) done { s with ante := { s.ante with resv := l } }
    setMeld n { m with programs := m.programs ++ [(r, k)], lastEnd := k + 68, asmAt := none } s1

/-- Close the full rows from `r` on, `c` of them. -/
def closeRows (n r : Nat) : Nat → State → State
  | 0, s => s
  | c + 1, s => closeRows n (r + 1) c (closeRow n r s)

/-- The row being assembled is closed as it stands; a PAD record fills it (R448). -/
def sealRow (n : Nat) (s : State) : State :=
  let m := meldAt s n
  if m.next % rowUnits m = 0 then s
  else closeRow n (asmRow m) (setMeld n { m with next := (asmRow m + 1) * rowUnits m, headers := 0 } s)

/-- The rows of a meld whose contents are closed and that hold no program yet, in order. -/
def unreserved (m : Meld) : List Nat :=
  let rows := (m.asm.map (fun x => (x.addr % Config.meldSpan + x.item.units - 1) / rowUnits m)).dedup
  rows.filter (fun r => decide (r < asmRow m ∧ m.row ≤ r) && !m.programs.any (fun p => decide (p.1 = r)) &&
    !(m.running.isSome && decide (r = m.row)))

/-- A meld that has nothing left to program and takes no record becomes FULL (Table 09-8). -/
def settleMeld (n : Nat) (s : State) : State :=
  let m := meldAt s n
  if m.state = .open_ ∧ m.programs = [] ∧ m.running = none ∧ (m.shut = true ∨ m.row = 512) then
    each (fun id s => if (blkAt s id).state = .open_ then setBlk id { blkAt s id with state := .full } s else s) m.blocks
      (setMeld n { m with state := .full } s)
  else s

/-- A meld is closed short: it takes no further record (R444, R465). -/
def shutMeld (n : Nat) (s : State) : State :=
  let s1 := sealRow n s
  settleMeld n (setMeld n { meldAt s1 n with shut := true } s1)

/-- The record is placed in meld `n`; full rows are closed. -/
def placeIn (n : Nat) (r : Record) (dram src : Option Nat) (kitty : Nat) (owner : Option (Nat × Nat)) (medium : Bool)
    (s : State) : State :=
  let m := meldAt s n
  let u := alignUnit m r.units
  let e := u + r.units
  let x : Placed := { addr := n * Config.meldSpan + u, item := r, dram := dram, src := src, kitty := kitty,
                      owner := owner, medium := medium }
  let h := if u / 32 = m.next / 32 then m.headers + 1 + b2n (decide (u ≠ m.next)) else 1
  let m1 := { m with next := e, asm := m.asm ++ [x], headers := if e / 32 = u / 32 then h else 0,
                     asmAt := if m.asmAt.isNone ∨ asmRow m ≠ e / rowUnits m then some (now s) else m.asmAt,
                     minStamp := min m.minStamp r.time, maxStamp := max m.maxStamp r.time,
                     nss := if r.ns ∈ m.nss then m.nss else m.nss ++ [r.ns] }
  closeRows n (m.next / rowUnits m) (e / rowUnits m - m.next / rowUnits m) (setMeld n m1 s)

/-- The first set of a list on which a meld of the stream can take a record; one that has no room is closed short first (R444). -/
def meldAmong (stream : Nat) (tomb : Bool) (units : Nat) (s : State) : List Nat → Option (Nat × State)
  | [] => none
  | k :: t =>
    match meldOn stream tomb k s with
    | none => meldAmong stream tomb units s t
    | some (n, s1) =>
      if fitsMeld (meldAt s1 n) units then some (n, s1)
      else
        match meldOn stream tomb k (shutMeld n s1) with
        | some x => some x
        | none => meldAmong stream tomb units s t

/-- The meld of a stream for a record: on the wanted set, then on any set of the stream. -/
def meldFor (stream : Nat) (tomb : Bool) (set : Option Nat) (units : Nat) (s : State) : Option (Nat × State) :=
  meldAmong stream tomb units s ((match set with | some k => [k] | none => []) ++ streamSets s stream tomb)

/-- A record is placed in a row of its stream. -/
def placeRecord (stream : Nat) (set : Option Nat) (r : Record) (dram src : Option Nat) (kitty : Nat)
    (owner : Option (Nat × Nat)) (s : State) : State :=
  match meldFor stream (decide (r.kind = 1)) set r.units s with
  | none => s
  | some (n, s1) => placeIn n r dram src kitty owner false s1

/-! ## Live data (R469) -/

/-- The entry points to this media address. -/
def liveAddr (s : State) (a : Nat) : Bool := (entryFor s false a).isSome

/-- Records on flash in meld `n`: address and record. -/
def meldRecords (s : State) (n : Nat) : List (Nat × Record) :=
  s.med.flash.filter (fun p => decide (p.1 / Config.meldSpan = n))

/-- prog_seq of the row that media address `a` lies in (R447). -/
def seqAt (s : State) (a : Nat) : Nat :=
  let m := meldAt s (a / Config.meldSpan)
  m.seqs.getD (a % Config.meldSpan / rowUnits m) 0

/-- A meld that is not FREE holds a record of the namespace with a lower prog_seq, so the tombstone or hint at `a` is still needed
(R463). -/
def tombNeeded (s : State) (a : Nat) (r : Record) : Bool :=
  s.med.flash.any (fun q => decide (q.2.ns = r.ns ∧ q.2.kind ≤ 2 ∧ seqAt s q.1 < seqAt s a))

/-- Two records of one write, one the copy of the other. -/
def sameRecord (a b : Record) : Bool :=
  decide (a.kind = b.kind ∧ a.ns = b.ns ∧ a.key = b.key ∧ a.version = b.version ∧ a.time = b.time ∧ a.words = b.words)

/-- A record that a copy of its meld must carry along: a value the index points to, a tombstone or hint that is still needed and has
no copy elsewhere (R463), a system record that recovery needs. -/
def isLive (s : State) (a : Nat) (r : Record) : Bool :=
  if r.kind = 0 then liveAddr s a
  else if r.kind ≤ 2 then tombNeeded s a r && s.med.flash.all (fun q => decide (q.1 = a) || !sameRecord q.2 r || deadAddr s q.1)
  else decide (a ∈ s.med.system)

/-- Live records of a meld. -/
def liveRecords (s : State) (n : Nat) : List (Nat × Record) := (meldRecords s n).filter (fun p => isLive s p.1 p.2)

/-- live_bytes of a meld. -/
def liveBytes (s : State) (n : Nat) : Nat := sumOf (fun p => 512 * p.2.units) (liveRecords s n)

/-- Live fraction in units of 1/65,536. -/
def liveShare (s : State) (n : Nat) : Nat :=
  let b := (meldAt s n).bytes
  if b = 0 then 0 else liveBytes s n * 65536 / b

/-- Retention of the suit of a meld's stream in ns; none when it never expires (R457, R460). -/
def expiryOf (s : State) (m : Meld) : Option Nat :=
  let r := s.med.retention.getD (m.stream % 16) 0
  if r = 0 ∨ 32 ≤ m.stream then none else some (m.maxStamp + r * 1000000000)

/-- A record of the system stream, or a HINT, is written (R443): its program time is debited from the deferred program pool as it is
produced (R404), under an owner that no session bears. -/
def placeSystem (r : Record) (s : State) : State :=
  let who : Nat × Nat := (2 ^ 64, s.med.systemSeq)
  let bytes := 512 * r.units
  match streamSets s 32 false with
  | [] => s
  | k :: t =>
    let set := (poolSet s (programCost bytes) (k :: t)).getD k
    placeRecord 32 (some set) r none none 0 (some who)
      (debit set (programCost bytes) bytes (.command who.1 who.2)
        { s with med := { s.med with systemSeq := s.med.systemSeq + 1 } })

/-- A record of the system stream with its contents (Table 09-3). -/
def systemRecord (kind : Nat) (w : List Nat) (s : State) : Record :=
  { kind := kind, suit := 0, ns := 0, key := [], value := [], units := recUnits 0 (wordsLength kind w), version := 0,
    time := now s, digest := 0, words := w }

/-- A meld becomes DEAD (Table 09-8); by expiry or a hint a DEATH record is written first and the sweep must pass, by
copying it is erased at once (R461). -/
def killMeld (n : Nat) (byReclaim : Bool) (s : State) : State :=
  let m := meldAt s n
  let s0 := if byReclaim then placeSystem (systemRecord 8 [n, m.seq0] s) s else s
  let s1 := setMeld n { m with state := .dead, deadAt := now s, bySweep := byReclaim } s0
  if byReclaim then { s1 with med := { s1.med with deaths := s1.med.deaths ++ [(n, m.seq0)] } } else s1

/-- A DEAD meld becomes ERASING: its erase is reserved, a yielding one where expiry or a hint killed it (R437, R465, Table
04-7). -/
def startErase (n : Nat) (s : State) : State :=
  let m := meldAt s n
  match reserveErase (if m.bySweep then .expiryErase else .foregroundGc) n [meldDies n m] 357 s with
  | (s1, t) => setMeld n { m with state := .erasing, eraseAt := some t } s1

/-- A FULL meld whose last live record has moved is DEAD and erased at once (Table 09-8). -/
def settleCopied (n : Nat) (s : State) : State :=
  if (meldAt s n).state = .full ∧ liveRecords s n = [] ∧
      s.med.melds.all (fun p => p.2.asm.all (fun x => decide (x.src.map (· / Config.meldSpan) ≠ some n))) ∧
      s.med.moves.all (fun x => decide (x.2.1 = true ∨ x.2.2 / Config.meldSpan ≠ n)) then
    startErase n (killMeld n false s)
  else s

/-- What the copy of records costs beside the row programs of their streams: a read of each of their codewords, and the bytes
through DRAM (R471, Table 04-7). -/
def copyShape (s : State) (l : List (Nat × Record)) : List Cost :=
  let words := (l.flatMap (fun p => (List.range ((p.1 + p.2.units - 1) / 8 - p.1 / 8 + 1)).map (fun i => (p.1 / 8 + i) * 8))).dedup
  if l = [] then [] else [.reads (words.flatMap (codewordReads s)), .use .dram (sumOf (fun p => 512 * p.2.units) l)]

/-- The record at `a` passes the checks of a read of all of it: none of its codewords is lost, its CRCs hold, and its version where an
entry points to it (R385, R452, R454, R471). -/
def readsWell (s : State) (a : Nat) (r : Record) : Bool :=
  (codewordsOf a r.units).all (fun c => decide (c ∉ s.med.lost)) &&
  match entryFor s false a with
  | some (_, e) => !unreadable e r true
  | none => headerHolds a r && bodyHolds a r

/-- The stream that a copy of a record goes to: the relocation stream of its suit, or the system stream (R459, R471). -/
def copyStream (n : Nat) (s : State) (r : Record) : Nat := if 32 ≤ (meldAt s n).stream then 32 else 16 + r.suit

/-- Copy the live records of a meld to the relocation streams of their suits (R471), once the antes of this kind of work are
held (R48); recovery work takes them under R200. A record that cannot be read keeps its entry and is not copied (R475). A victim with
none left is DEAD at once. In READ_ONLY_MODE the media engine writes the system stream alone, and copies no other meld (R478). -/
def relocateMeld (kind : Maint) (firm recovery : Bool) (n : Nat) (s : State) : State :=
  let live := (liveRecords s n).filter (fun p =>
    s.med.melds.all (fun q => q.2.asm.all (fun x => decide (x.src ≠ some p.1))) &&
    s.med.moves.all (fun x => decide (x.2.1 = true ∨ x.2.2 ≠ p.1)))
  if live = [] then settleCopied n s
  else if s.boot.readOnly ∧ (meldAt s n).stream < 32 then s
  else
    match takeAntes kind firm recovery n (copyShape s live) s with
    | none => s
    | some s1 =>
      settleCopied n (each (fun p s =>
        if readsWell s p.1 p.2 then placeRecord (copyStream n s p.2) none p.2 none (some p.1) 0 none s else s) live s1)

/-- The FULL meld with the lowest live fraction among those of a list (R469, R470). -/
def bestVictim (s : State) (l : List Nat) : Option Nat :=
  match l with
  | [] => none
  | a :: t => some (t.foldl (fun x y => if liveShare s y < liveShare s x then y else x) a)

/-- FULL melds of a set whose expiry falls after time `t`; one without expiry always counts. -/
def victims (s : State) (k : Option Nat) (t : Nat) : List Nat :=
  ((meldsIn s .full).filter (fun p => decide (k = none ∨ k = some (meldSet p.1)) &&
    (match expiryOf s p.2 with | none => true | some e => decide (t < e)))).map (·.1)

/-! ## Removing objects (R397, R462) -/

/-- An entry is removed in a commit step of its own, and its namespace counts one object less. -/
def removeEntry (p : Spot) (e : Entry) (s : State) : State :=
  let s1 := { s with idx := clearSpot p s.idx }
  match recordAt s e with
  | none => s1
  | some r =>
    let x := nsAt s r.ns
    setNs r.ns { x with objects := x.objects - 1, bytes := x.bytes - r.value.length } s1

/-- A record lies in the scope of a hint: scope 0 the namespace, scope 1 a suit, scope 2 a digest range (R125). -/
def hintCovers (h : Hint) (r : Record) : Bool :=
  decide (r.kind = 0 ∧ r.ns = h.ns ∧ r.time < h.time) &&
  (if h.scope = 0 then true else if h.scope = 1 then decide (r.suit = h.suit)
   else decide (h.lo ≤ r.digest ∧ r.digest ≤ h.hi))

/-! ## Meanings -/

/-- ROW_SEAL_TIMER (R448): row_seal_ms after its first record the row is padded and closed; a closed row that found no
program before asks again. -/
def execRowSealTimer (meld : Nat) (s : State) : R :=
  whenRunning (fun s0 =>
    let s := if (meldAt s0 meld).state = .open_ then each (closeRow meld) (unreserved (meldAt s0 meld)) s0 else s0
    match (meldAt s meld).asmAt with
    | none => s
    | some t => guard (decide (s.med.sealMs ≠ 0 ∧ t + s.med.sealMs * 1000000 ≤ now s ∧ (meldAt s meld).state = .open_))
        (sealRow meld) s) s

/-- Every medium-mode write placed in row `r` of meld `n` knows its contents (R684). -/
def rowReady (s : State) (n r : Nat) : Bool :=
  s.dlr.inflight.all (fun f => match f.placed, f.phase with
    | some a, .waiting => decide (a / Config.meldSpan ≠ n ∨ r < a % Config.meldSpan / rowUnits (meldAt s n))
    | some a, .ready => decide (a / Config.meldSpan ≠ n ∨ r < a % Config.meldSpan / rowUnits (meldAt s n))
    | _, _ => true)

/-- ROW_PROGRAM_START (R447): the reserved program of the meld's next row begins, its contents known; in DIP and RESUME
it is held (R564). -/
def execRowProgramStart (meld : Nat) (s : State) : R :=
  whenRunning (fun s =>
    let m := meldAt s meld
    match m.programs with
    | [] => s
    | p :: _ =>
      if m.running.isSome ∨ slotOf (now s) < p.2 ∨ m.state ≠ .open_ ∨ rowReady s meld p.1 = false then s
      else if inDip s then
        if meld ∈ s.med.held then s
        else { s with med := { s.med with held := s.med.held ++ [meld] }, pwr := { s.pwr with rcHeld := s.pwr.rcHeld + 1 } }
      else setMeld meld { m with running := some (now s + 69 * Config.slotNs) } s) s

/-- INDEX_MOVE_TO_MEDIA (R396, R450): the entry of a record that has reached flash moves to the media address; the copy
in DRAM, or the source of a copy, is given up. A record whose meld was reclaimed meanwhile stays removed (R128). -/
def execIndexMoveToMedia (addr : Nat) (s : State) : R :=
  whenRunning (fun s =>
    match s.med.moves.find? (fun x => decide (x.1 = addr)) with
    | none => s
    | some (a, fromDram, old) =>
      let s1 := if !fromDram && deadAddr s old then s else moveEntry fromDram old false a s
      let s2 := { s1 with med := { s1.med with moves := s1.med.moves.erase (a, fromDram, old) } }
      if fromDram then { s2 with mem := { s2.mem with held := tdel s2.mem.held old } }
      else settleCopied (old / Config.meldSpan) s2) s

/-- A codeword was repaired by meld reconstruction (R452). -/
def codewordRepaired (addr : Nat) (s : State) : State :=
  modFlashChan (readPlace s addr).channel (fun c => { c with repaired := c.repaired + 1 })
    { s with med := { s.med with repairs := s.med.repairs + 1 } }

/-- Melds with live records that hold a block of a die (R456). -/
def meldsOnDie (s : State) (die : Nat) : List Nat :=
  ((s.med.melds).filter (fun p => decide ((p.2.state = .full ∨ p.2.state = .open_) ∧ p.2.blocks.any (fun b => decide (blockDie b = die)) = true))).map (·.1)

/-- DIE_REBUILD (R456): the melds of a failed die are copied out and made DEAD; when none is left the rebuild is
complete. -/
def execDieRebuild (die : Nat) (s : State) : R :=
  whenRunning (guard (decide (die < 512 ∧ (dieAt s die).state = 1)) (fun s =>
    let s1 := each (relocateMeld .relocation true true) ((meldsOnDie s die).filter (fun n => decide ((meldAt s n).state = .full))) s
    if meldsOnDie s1 die = [] then event 0x0603 [] (setDie die { dieAt s1 die with state := 2 } s1) else s1)) s

/-- EXPIRY_EVALUATION (R458, R460): FULL melds past their retention become DEAD. -/
def execExpiryEvaluation (s : State) : R :=
  whenRunning (fun s =>
    each (fun p s => match expiryOf s p.2 with
      | some t => if t < now s then killMeld p.1 true s else s
      | none => s) (meldsIn s .full) s) s

/-- One hint: whole melds (R462). -/
def hintMelds (h : Hint) (s : State) : State :=
  each (fun p s =>
    if p.2.maxStamp < h.time ∧ p.2.nss = [h.ns] ∧ (h.scope = 0 ∨ (h.scope = 1 ∧ p.2.stream % 16 = h.suit)) ∧ p.2.stream < 32
    then killMeld p.1 true s else s) (meldsIn s .full) s

/-- One hint: records of partly covered melds, whose entry still points to them (R462). -/
def hintRecords (h : Hint) (s : State) : State :=
  if s.med.hintPct = 0 then s
  else
    each (fun p s =>
      if hintCovers h p.2 ∧ deadAddr s p.1 = false then
        match entryFor s false p.1 with
        | some (q, e) => removeEntry q e s
        | none => s
      else s) s.med.flash s

/-- HINT_RECLAIM (R462): every hint kills whole melds and removes covered records; its footer reads are over when the protected
region holds no record that it covers. -/
def execHintReclaim (s : State) : R :=
  whenRunning (fun s =>
    let s1 := each (fun h s => hintRecords h (hintMelds h s)) s.med.hints s
    { s1 with med := { s1.med with hints := s1.med.hints.map (fun h =>
        { h with swept := h.swept || (decide (s.med.hintPct ≠ 0) && !s.mem.held.any (fun p => hintCovers h p.2)) }) } }) s

/-- MELD_AGE_CLOSE (R465): a meld OPEN for meld_open_max_h is closed short. -/
def execMeldAgeClose (meld : Nat) (s : State) : R :=
  whenRunning (guard (decide ((meldAt s meld).state = .open_ ∧ s.med.openMaxH ≠ 0 ∧
      (meldAt s meld).openAt + s.med.openMaxH * 3600000000000 ≤ now s)) (shutMeld meld)) s

/-- One block of an erased meld: retired when it failed or its die has, else back to the talon (R466, R475). -/
def eraseBlock (failed : List Nat) (id : Nat) (s : State) : State :=
  let b := blkAt s id
  if b.state ≠ .full then s
  else if (dieAt s (blockDie id)).state ≠ 0 then
    let s1 := { s with med := { s.med with retDie := s.med.retDie + 1 } }
    retireBlock id s1
  else if id ∈ failed then
    let s1 := { s with med := { s.med with retErase := s.med.retErase + 1 } }
    retireBlock id s1
  else setBlk id { b with state := .talon, erases := b.erases + 1, reads := 0 } s

/-- The HINT record of an EXPIRE_HINT (Table 09-3). -/
def hintRecord (h : Hint) : Record :=
  { kind := 2, suit := h.suit, ns := h.ns, key := [], value := [], units := 1, version := 0, time := h.time, digest := 0,
    words := [h.scope, h.suit, h.lo, h.hi] }

/-- The record is that of the hint. -/
def hintRecordOf (h : Hint) (r : Record) : Bool := sameRecord (hintRecord h) r

/-- MELD_ERASE_COMPLETE (R465, R475): every block of an ERASING meld is erased or retired; the meld is FREE. A hint
whose record goes with it is forgotten (R463). -/
def execMeldEraseComplete (meld : Nat) (failed : List Nat) (s : State) : R :=
  whenRunning (fun s =>
    let m := meldAt s meld
    match m.eraseAt with
    | none => s
    | some t => guard (decide (m.state = .erasing ∧ t ≤ now s)) (fun s =>
        let s1 := each (eraseBlock failed) m.blocks s
        let gone := sumOf (fun p => if p.2.kind = 1 ∨ p.2.kind = 2 then 512 else 0) (meldRecords s meld)
        let flash := s1.med.flash.filter (fun p => decide (p.1 / Config.meldSpan ≠ meld))
        let dropped := ((meldRecords s meld).filter (fun p => decide (p.2.kind = 2) && !flash.any (fun q => sameRecord q.2 p.2))).map (·.2)
        setMeld meld {} { s1 with med := { s1.med with
          flash := flash, hints := s1.med.hints.filter (fun h => !dropped.any (hintRecordOf h)),
          system := s1.med.system.filter (fun a => decide (a / Config.meldSpan ≠ meld) &&
            !(match tfind s1.med.flash a with | some r => decide (r.kind = 8 ∧ r.words = [meld, m.seq0]) | none => false)),
          lost := s1.med.lost.filter (fun a => decide (a / Config.meldSpan ≠ meld)),
          tombBytes := s1.med.tombBytes - gone } }) s) s

/-- A meld is due for refresh: read count, correction history or age (R472). -/
def refreshDue (s : State) (m : Meld) : Bool :=
  m.blocks.any (fun b => decide (s.med.softK * 1000 ≤ (blkAt s b).reads)) || m.soft || m.retries.any (fun p => decide (2 < p.2)) ||
  decide (s.med.ageD ≠ 0 ∧ m.progAt + s.med.ageD * 86400000000000 ≤ now s)

/-- A block of the meld has reached the hard read limit, which makes its relocation firm (R472). -/
def hardRead (s : State) (m : Meld) : Bool := m.blocks.any (fun b => decide (s.med.hardK * 1000 ≤ (blkAt s b).reads))

/-- REFRESH_RELOCATION (R472): a meld due for refresh is relocated; none in yielding reservations while relocation_pct is
0, unless a block has reached the hard limit. -/
def execRefreshRelocation (meld : Nat) (s : State) : R :=
  whenRunning (guard (decide ((meldAt s meld).state = .full) && refreshDue s (meldAt s meld) &&
      (decide (s.ante.relocPct ≠ 0) || hardRead s (meldAt s meld)))
    (fun s => relocateMeld .relocation (hardRead s (meldAt s meld)) false meld s)) s

/-- The erase counts of the TALON blocks of a channel and plane: least and most. -/
def talonWear (s : State) (channel plane : Nat) : Nat × Nat :=
  let ids := (List.range 16).flatMap (fun i => (List.range Config.planeBlocks).map (blockId (16 * channel + i) plane))
  let l := (ids.filter (fun id => decide ((blkAt s id).state = .talon))).map (fun id => (blkAt s id).erases)
  (leastOf id (l.headD 0) l, l.foldl max 0)

/-- Erases of a meld's blocks on a channel and plane. -/
def meldWear (s : State) (m : Meld) (channel plane : Nat) : Option Nat :=
  (m.blocks.find? (fun b => decide (blockDie b / 16 = channel ∧ blockPlane b = plane))).map (fun b => (blkAt s b).erases)

/-- WEAR_LEVEL_RELOCATION (R473): when the erase counts of the talon differ by more than wl_gap, the least-worn FULL meld
of the channel is relocated. -/
def execWearLevelRelocation (channel plane : Nat) (s : State) : R :=
  whenRunning (fun s =>
    let w := talonWear s channel plane
    if s.med.wlGap = 0 ∨ w.2 - w.1 ≤ s.med.wlGap then s
    else
      let l := (meldsIn s .full).filterMap (fun p => (meldWear s p.2 channel plane).map (fun e => (p.1, e)))
      match l with
      | [] => s
      | a :: t => relocateMeld .relocation false false (t.foldl (fun x y => if y.2 < x.2 then y else x) a).1 s) s

/-- BACKGROUND_GC (R469): below talon_bg the best victim beyond gc_skip_h is copied out. READ_ONLY_MODE ends it
(R478). -/
def execBackgroundGc (set : Nat) (s : State) : R :=
  whenRunning (guard (decide (set < 32 ∧ s.ante.gcPct ≠ 0 ∧ setTalon s set < s.med.talonBg) && !s.boot.readOnly) (fun s =>
    match bestVictim s (victims s (some set) (now s + s.med.gcSkipH * 3600000000000)) with
    | none => s
    | some n => relocateMeld .backgroundGc false false n s)) s

/-- FOREGROUND_GC (R468, R470): below talon_fg the best victim beyond the horizon is copied out. -/
def execForegroundGc (set : Nat) (s : State) : R :=
  whenRunning (guard (decide (set < 32 ∧ setTalon s set < s.med.talonFg)) (fun s =>
    match bestVictim s (victims s (some set) (horizonTime s)) with
    | none => s
    | some n => relocateMeld .foregroundGc true false n s)) s

/-- 1 / (1 − u) in units of 1/256, u at most 15/16 (R470). -/
def gcFactor (u : Nat) : Nat := 256 * 65536 / (65536 - min u 61440)

/-- GC_FACTOR_UPDATE (R470): the throttling factor follows the best victim's live fraction. -/
def execGcFactorUpdate (s : State) : R :=
  whenRunning (fun s =>
    let f := if talonSum s < 32 * s.med.talonFg then
        (match bestVictim s (victims s none (horizonTime s)) with
         | some n => gcFactor (liveShare s n)
         | none => 256)
      else 256
    { s with med := { s.med with factor := f } }) s

/-- The code of a meld state in a MELD_TABLE record (log entry 103). -/
def meldCode : MeldState → Nat
  | .free => 0 | .open_ => 1 | .full => 2 | .dead => 3 | .erasing => 4

/-- The next eight melds of the system stream: the lowest FREE one of each die set in the order in which the stream tries them
(R480, log entry 13). -/
def nextEight (s : State) : List Nat :=
  ((setOrder 32).filterMap (freeMeld { s with med := { s.med with nextMelds := none } } 32)).take 8

/-- The contents of a MELD_TABLE record: the system stream's open melds, the melds it opens next, the meld table, the image
directory (R480, Table 09-3, log entry 103). -/
def tableWords (s : State) : List Nat :=
  let opens := (openOf s 32).map (·.1)
  let next := nextEight s
  let images := s.med.system.filterMap (fun a => match tfind s.med.flash a with
    | some r => if r.kind = 4 then some (r.words.getD 0 0, a) else none
    | none => none)
  [opens.length] ++ opens ++ [next.length] ++ next ++ [s.med.melds.length] ++
    s.med.melds.flatMap (fun p => [p.1, meldCode p.2.state, p.2.stream, p.2.row, p.2.seq0]) ++
    images.flatMap (fun p => [p.1, p.2])

/-! ## The checkpoint (R401 to R404) -/

/-- Delta records of one DELTA_PAGE record: what fits in one page with the header (R401, log entry 103). -/
def deltaPage : Nat := 510

/-- Filled delta-log pages are written in the order of their records (R401); the count bounds them. -/
def writeDeltas : Nat → State → State
  | 0, s => s
  | n + 1, s =>
    let l := s.idx.deltas.filter (fun d => decide (s.med.pagedTo ≤ d.seq))
    if l.length < deltaPage then s
    else
      let page := l.take deltaPage
      writeDeltas n (placeSystem (systemRecord 5 (page.map deltaWord) s)
        { s with med := { s.med with pagedTo := page.foldl (fun k d => max k (d.seq + 1)) s.med.pagedTo } })

/-- CHECKPOINT_GROUP_COPY (R402 to R404): the next group's image is copied into an INDEX_IMAGE record, filled delta-log pages are
written, older delta records are freed. A failed group is not copied before its rebuild (R410). -/
def execCheckpointGroupCopy (s : State) : R :=
  whenRunning (guard (decide (s.idx.ckptGroup ∉ s.idx.failed)) (fun s =>
    let x := s.idx
    let g := x.ckptGroup
    let im : Image := { seq := x.deltaSeq, slots := x.slots.filter (fun p => decide (p.1 / 16384 = g)),
                        stash := x.stash.filter (fun p => decide (groupOf p.1 = g)) }
    let last := decide (g + 1 = Config.groups)
    let x1 := { x with images := tset imageBlank x.images g im, ckptGroup := if last then 0 else g + 1,
                       passes := x.passes + b2n last }
    let s1 := placeSystem (systemRecord 4 (imageWords g im) s) (writeDeltas (x.deltas.length / deltaPage + 1) s)
    { s1 with idx := { x1 with deltas := x1.deltas.filter (fun d => decide (oldestImage x1 ≤ d.seq)) } })) s

/-- INDEX_SWEEP_PASS (R461): a whole pass ends: every entry that points into a DEAD meld is removed, and the melds that
were dead before the pass began are erased. The next pass begins. -/
def execIndexSweepPass (s : State) : R :=
  whenRunning (fun s =>
    let gone := (allEntries s).filter (fun p => !p.2.inDram && deadAddr s p.2.loc)
    let s1 := each (fun p s => match entryFor s false p.2.loc with
      | some (q, e) => removeEntry q e s
      | none => s) gone s
    let s2 := each (fun p s => if p.2.bySweep ∧ p.2.deadAt ≤ s.med.sweepAt then startErase p.1 s else s) (meldsIn s1 .dead) s1
    { s2 with med := { s2.med with sweepAt := now s } }) s

end Sys2Proof.Machine
end

