-- ==== Sys2Proof/Machine/Flash.lean ====
section
/-! DEFINITION. What the pages of the flash hold: records and PAD records unit by unit, data-slot codewords enciphered under the
key slots of their records (R443, R534, R535), page footers (R445), meld parity over ciphertext (R447), and the header search of a
full scan (R485, R486). -/

namespace Sys2Proof.Machine

open Sys2Proof

/-! ## Units of a meld (R439 to R441, R446, R448) -/

/-- Records placed in meld `n`: on flash, and in the rows being assembled. -/
def placedIn (s : State) (n : Nat) : List (Nat × Record) :=
  meldRecords s n ++ (meldAt s n).asm.map (fun x => (x.addr, sealRecord x.addr x.item))

/-- The record of a list that holds the unit at media address `a`, with its own address. -/
def holding (l : List (Nat × Record)) (a : Nat) : Option (Nat × Record) :=
  l.find? (fun p => decide (p.1 ≤ a ∧ a < p.1 + p.2.units))

/-- The row of a meld that media address `a` lies in. -/
def rowOf (m : Meld) (a : Nat) : Nat := a % Config.meldSpan / rowUnits m

/-- First media address of row `r` of meld `n`. -/
def rowStart (n : Nat) (m : Meld) (r : Nat) : Nat := n * Config.meldSpan + r * rowUnits m

/-- The PAD record that fills the units around `a` that no record holds, from the last record before to the next record or the end of
the row (R440, R446, R448, log entry 103). -/
def padOver (s : State) (n a : Nat) : Nat × Record :=
  let m := meldAt s n
  let l := placedIn s n
  let r := rowOf m a
  let lo := (l.map (fun p => p.1 + p.2.units)).foldl (fun x e => if e ≤ a then max x e else x) (rowStart n m r)
  let hi := (l.map (·.1)).foldl (fun x b => if a < b then min x b else x) (rowStart n m (r + 1))
  (lo, sealRecord lo { kind := padKind, suit := 0, ns := 0, key := [], value := [], units := hi - lo, version := 0, time := 0,
                       digest := 0 })

/-- What the unit at media address `a` of a programmed row belongs to. -/
def unitOwner (s : State) (n a : Nat) : Nat × Record := (holding (placedIn s n) a).getD (padOver s n a)

/-- The 512 plain bytes of the unit at `a`. -/
def unitPlain (s : State) (n a : Nat) : Bytes :=
  match unitOwner s n a with
  | (b, r) => ((recordImage r).drop (512 * (a - b))).take 512

/-! ## Ciphertext (R443, R533 to R536) -/

/-- The key slot of a record: the namespace's for types 0 to 2, the media key slot for the system stream, and for a PAD record, of
which the manual says nothing (DESIGN CHOICE, log entry 103). -/
def recordSlot (s : State) (r : Record) : Nat := if r.kind ≤ 2 then (nsAt s r.ns).keySlot else 4096

/-- A key as the bytes of R532; a slot that was zeroized gives none. -/
def keyBytes (s : State) (slot : Nat) : List Nat := ((keyOf s slot).map (fun k => natBytes 64 k.toNat)).getD []

/-- The 32 enciphered blocks of unit `i` of the data unit whose first media address is `a` (R533, R535). -/
def unitCipher (s : State) (n a i : Nat) : Bytes :=
  let key := keyBytes s (recordSlot s (unitOwner s n (a + i)).2)
  let plain := (unitPlain s n (a + i)).map BitVec.toNat
  (List.range 32).flatMap (fun j =>
    (xtsEncrypt key (mediaTweak a) (32 * i + j) ((plain.drop (16 * j)).take 16)).map (BitVec.ofNat 8))

/-- The payload of the data-slot codeword at media address `a`, as it stands on flash (R534). -/
def codewordCipher (s : State) (a : Nat) : Bytes :=
  (List.range 8).flatMap (unitCipher s (a / Config.meldSpan) (a / 8 * 8))

/-- The four codeword payloads of data page `q` of meld `n`. -/
def pageCipher (s : State) (n q : Nat) : Bytes :=
  (List.range 4).flatMap (fun c => codewordCipher s (n * Config.meldSpan + 32 * q + 8 * c))

/-! ## Rows and parity (R438, R439, R447) -/

/-- Data page of row `r`, page `p` of its wordline, plane `pl`, data slot `d` (the inverse of R439). -/
def dataPage (m : Meld) (r p pl d : Nat) : Nat := r * (12 * width m) + (p * 4 + pl) * width m + d

/-- Bytewise exclusive-or of pages. -/
def xorPages (l : List Bytes) : Bytes :=
  match l with
  | [] => []
  | a :: t => t.foldl (fun x y => List.zipWith (· ^^^ ·) x y) a

/-- The page of the parity slot in row `r`: the exclusive-or of the pages with its plane and page number in every data slot, over
their ciphertext (R447, R534). -/
def parityPage (s : State) (n r p pl : Nat) : Bytes :=
  let m := meldAt s n
  xorPages ((List.range (width m)).map (fun d => pageCipher s n (dataPage m r p pl d)))

/-- The page that a data slot gives back when it is reconstructed: the exclusive-or of the parity page and the other data pages
(R452). -/
def rebuiltPage (s : State) (n r p pl d : Nat) : Bytes :=
  let m := meldAt s n
  xorPages (parityPage s n r p pl ::
    ((List.range (width m)).filter (fun e => decide (e ≠ d))).map (fun e => pageCipher s n (dataPage m r p pl e)))

/-! ## Footers (R445, Tables 09-4 and 09-5) -/

/-- The records whose header begins in data page `q` of meld `n`, PAD records among them, with the unit of the page. -/
def headersIn (s : State) (n q : Nat) : List (Nat × Record) :=
  (List.range 32).filterMap (fun u =>
    let a := n * Config.meldSpan + 32 * q + u
    match unitOwner s n a with
    | (b, r) => if b = a then some (u, r) else none)

/-- A footer entry (Table 09-5). -/
def footerEntry (p : Nat × Record) : Bytes :=
  let r := p.2
  natLe 40 (pack [(0, 128, r.digest), (128, 64, r.version), (192, 64, r.time), (256, 5, p.1), (261, 4, r.kind), (265, 4, r.suit),
                  (269, 12, r.ns), (281, 18, r.units)])

/-- prog_seq of a programmed row (R447). -/
def rowSeq (m : Meld) (r : Nat) : Nat := m.seqs.getD r 0

/-- A footer payload: the header of Table 09-4 with foot_crc, the entries, zeros (R445). `l` are the headers of the page; a page of
the parity slot has none. There is room for 24 entries (log entry 103). -/
def footerBytes (n : Nat) (m : Meld) (r p slot : Nat) (parity : Bool) (l : List (Nat × Record)) : Bytes :=
  let entries := (l.take 24).flatMap footerEntry
  let start := natLe 60 (pack [(0, 16, n), (16, 9, r), (25, 2, p), (27, 4, slot), (31, 1, b2n parity), (32, 64, rowSeq m r),
    (96, 5, min 24 l.length), (101, 6, match l with | [] => 63 | h :: _ => h.1), (107, 1, 0), (108, 6, m.stream)])
  let b := start ++ natLe 4 (crc32c (start ++ entries)) ++ entries
  b ++ List.replicate (1024 - b.length) 0

/-- The footer of a page of the data slot `d`. -/
def dataFooter (s : State) (n r p pl d : Nat) : Bytes :=
  let m := meldAt s n
  footerBytes n m r p ((dataSlots n m.narrow).getD d 0) false (headersIn s n (dataPage m r p pl d))

/-- The footer of a page of the parity slot. -/
def parityFooter (s : State) (n r p : Nat) : Bytes :=
  let m := meldAt s n
  footerBytes n m r p (paritySlot n m.narrow) true []

/-! ## The header search (R483, R485, R486) -/

/-- The page fault reported for data page `q` of meld `n`. -/
def faultAt (l : List LostPage) (n q : Nat) : Option LostPage := l.find? (fun x => decide (x.meld = n ∧ x.page = q))

/-- The data slots of a row with a page that cannot be read: a row with one is repaired, one with two or more is searched
(R483). -/
def lostSlots (l : List LostPage) (n : Nat) (m : Meld) (r : Nat) : List Nat :=
  ((l.filter (fun x => decide (x.meld = n ∧ x.page / (12 * width m) = r))).map (fun x => x.page % (12 * width m) % width m)).dedup

/-- The row needs a header search. -/
def searched (l : List LostPage) (n : Nat) (m : Meld) (r : Nat) : Bool := decide (2 ≤ (lostSlots l n m r).length)

/-- The header of the record at `a` is known from a footer: its page is not lost, or its row is repaired. -/
def footerKnown (l : List LostPage) (n : Nat) (m : Meld) (a : Nat) : Bool :=
  (faultAt l n (a % Config.meldSpan / 32)).isNone || !searched l n m (rowOf m a)

/-- The unit at `a` decrypts: its page's data can be read, and its record's key slot is one of those named by the readable footers of
the row and of the row before (R485). -/
def unitReads (s : State) (l : List LostPage) (n : Nat) (a : Nat) : Bool :=
  let m := meldAt s n
  let r := rowOf m a
  let near := (placedIn s n).filter (fun p => footerKnown l n m p.1 && decide (rowOf m p.1 = r ∨ rowOf m p.1 + 1 = r))
  let slots := 4096 :: near.map (fun p => recordSlot s p.2)
  (match faultAt l n (a % Config.meldSpan / 32) with | some x => !x.dataLost | none => true) &&
  decide (recordSlot s (unitOwner s n a).2 ∈ slots)

/-- `count` units from `a` as they decrypt; none where one does not. -/
def unitsRead (s : State) (l : List LostPage) (n a count : Nat) : Option Bytes :=
  let as_ := (List.range count).map (a + ·)
  if as_.all (unitReads s l n) then some (as_.flatMap (unitPlain s n)) else none

/-- The units that a record beginning at `a` claims, when its sync word, its CRCs and its size hold (R485). -/
def candidateUnits (s : State) (l : List LostPage) (n a : Nat) : Option Nat :=
  match unitsRead s l n a 1 with
  | none => none
  | some h =>
    let units := bits (leNat (h.take 64)) 113 96
    let last := n * Config.meldSpan + 512 * rowUnits (meldAt s n)
    if leNat (h.take 4) ≠ 0x5EC04D17 ∨ leNat ((h.drop 60).take 4) ≠ crc32c (h.take 60 ++ natLe 8 a) ∨ units = 0 ∨
        last < a + units then none
    else
      match unitsRead s l n a units with
      | none => none
      | some b => if leNat ((b.drop 56).take 4) = crc32c (b.drop 64 ++ natLe 8 a) then some units else none

/-- A position begins a record: its own checks hold, and its end is the end of the meld's data space, a header known from a footer,
or again a position that begins a record (R485); the count bounds the chain. -/
def beginsRecord (s : State) (l : List LostPage) (n : Nat) : Nat → Nat → Bool
  | 0, _ => false
  | k + 1, a =>
    match candidateUnits s l n a with
    | none => false
    | some u =>
      let m := meldAt s n
      let e := a + u
      decide (e = n * Config.meldSpan + 512 * rowUnits m) ||
      (decide ((unitOwner s n e).1 = e) && footerKnown l n m e) || beginsRecord s l n k e

/-- One position of a search: the first position not yet covered, the headers found, the candidates rejected. -/
structure Search where
  from_  : Nat
  found  : List Nat := []
  false_ : Nat := 0
  deriving DecidableEq, Repr

/-- The position `a` is covered by a record known from a footer. -/
def covered (s : State) (l : List LostPage) (n a : Nat) : Bool :=
  (placedIn s n).any (fun p => footerKnown l n (meldAt s n) p.1 && decide (p.1 ≤ a ∧ a < p.1 + p.2.units))

/-- The search passes position `a` (R485). -/
def searchAt (s : State) (l : List LostPage) (n : Nat) (x : Search) (a : Nat) : Search :=
  if a < x.from_ ∨ covered s l n a = true then x
  else
    let looks := (unitsRead s l n a 1).map (fun h => decide (leNat (h.take 4) = 0x5EC04D17))
    if beginsRecord s l n (rowUnits (meldAt s n)) a then
      { x with found := x.found ++ [a], from_ := a + (candidateUnits s l n a).getD 1 }
    else if looks = some true then { x with false_ := x.false_ + 1 } else x

/-- Pages of the searched rows of the lost list: the pages of each row with their first media addresses. -/
def searchedRows (s : State) (l : List LostPage) : List (Nat × Nat) :=
  ((l.map (fun x => (x.meld, x.page / (12 * width (meldAt s x.meld))))).dedup).filter (fun p => searched l p.1 (meldAt s p.1) p.2)

/-- The search of one row: its positions in ascending order. -/
def searchRow (s : State) (l : List LostPage) (p : Nat × Nat) : Search :=
  let m := meldAt s p.1
  ((List.range (rowUnits m)).map (rowStart p.1 m p.2 + ·)).foldl (searchAt s l p.1) { from_ := 0 }

/-- What the search of every such row finds: the headers, the candidates rejected, the pages searched. -/
def searchAll (s : State) (l : List LostPage) : List Nat × Nat × Nat :=
  (searchedRows s l).foldl (fun t p =>
    let x := searchRow s l p
    (t.1 ++ x.found, t.2.1 + x.false_, t.2.2 + 12 * width (meldAt s p.1))) ([], 0, 0)

/-- The records that a full scan finds no header of (R486). A position that passes where no record was programmed brings none
in (DEDUCED, log entry 115). -/
def lostRecords (s : State) (l : List LostPage) (found : List Nat) : List Nat :=
  (s.med.flash.filter (fun p =>
    let n := p.1 / Config.meldSpan
    !footerKnown l n (meldAt s n) p.1 && decide (p.1 ∉ found))).map (·.1)

end Sys2Proof.Machine
end

