-- ==== Sys2Proof/Machine/Frames.lean ====
section
/-! DEFINITION. Lanes as places that frames are queued on, and the datagrams of the client transport: their bytes from
the Ethernet header to the client body, and the choice of the lane that sends one (ch 06, ch 07). -/

namespace Sys2Proof.Machine

open Sys2Proof

/-! ## Lanes -/

/-- A lane as it leaves the factory: lanes 500 to 511 are client lanes (Table 07-1). -/
def laneBlank (n : Nat) : Lane := { cfg := { client := decide (500 ≤ n) } }

/-- Lane `n`. -/
def laneAt (s : State) (n : Nat) : Lane := tget laneBlank s.lanes n

/-- Lane `n` becomes `x`. -/
def setLane (n : Nat) (x : Lane) (s : State) : State := { s with lanes := tset laneBlank s.lanes n x }

/-- Lane `n` is changed by `f`. -/
def modLane (n : Nat) (f : Lane → Lane) (s : State) : State := setLane n (f (laneAt s n)) s

/-- Counter `k` of a lane (Table 07-5). -/
def laneCount (l : Lane) (k : Nat) : Nat := tget (fun _ => 0) l.counters k

/-- Counter `k` of lane `n` counts `v` more; a change of its bit 47 sets the counter's rollover bit, and a bit that rises is
signalled where page 0x0401 asks for it (R370 to R372). -/
def countLane (n k v : Nat) (s : State) : State :=
  let l := laneAt s n
  let a := laneCount l k
  let b := (a + v) % 2 ^ 48
  let l1 := { l with counters := tset (fun _ => 0) l.counters k b }
  if bit a 47 = bit b 47 then setLane n l1 s
  else if bit l.rollPend k then setLane n l1 s
  else
    let s1 := setLane n { l1 with rollPend := l.rollPend + 2 ^ k } s
    if s.wake.rollIrq ∧ s.wake.rollVec < 2048 / (max 1 s.host.ports.length) then msix s.wake.rollPort s.wake.rollVec s1 else s1

/-- The lane's MAC address (Table 07-1, R679). -/
def laneMac (s : State) (n : Nat) : Nat := (laneAt s n).cfg.mac.getD (Config.macBase + n)

/-- The effective max_frame (Table 07-1). -/
def maxFrame (c : LaneCfg) : Nat := if c.maxFrame = 0 then (if c.client then 9014 else 8242) else c.maxFrame

/-- Bytes queued on a lane. -/
def queuedBytes (l : Lane) : Nat := sumOf (fun f => f.bytes.length) l.tx

/-- The lane of a list with the fewest queued bytes, the lowest number among equals (R278, R327). -/
def leastLoaded (s : State) : List Nat → Option Nat
  | [] => none
  | a :: t => some (t.foldl (fun x y => if queuedBytes (laneAt s y) < queuedBytes (laneAt s x) then y else x) a)

/-! ## Client trunks (R326, R327, R346) -/

/-- A client trunk that is not declared. -/
def trunkBlank : Nat → ClientTrunk := fun _ => {}

/-- Client trunk `t`. -/
def trunkAt (s : State) (t : Nat) : ClientTrunk := tget trunkBlank s.fab.trunks t

/-- Client trunk `t` becomes `x`. -/
def setTrunk (t : Nat) (x : ClientTrunk) (s : State) : State :=
  { s with fab := { s.fab with trunks := tset trunkBlank s.fab.trunks t x } }

/-- The lanes that count in a client trunk now: client lanes of its mask in UP. -/
def clientLanes (s : State) (t : Nat) : List Nat :=
  if (trunkAt s t).enabled then
    (s.lanes.filter (fun p => bit (trunkAt s t).mask p.1 && p.2.cfg.client && decide (p.2.state = .up))).map (·.1)
  else []

/-- The enabled trunk a lane belongs to. -/
def trunkOf (s : State) (lane : Nat) : Option Nat :=
  (s.fab.trunks.find? (fun p => p.2.enabled && bit p.2.mask lane)).map (·.1)

/-- Received pause holds a lane (R361). -/
def heldLane (s : State) (n : Nat) : Bool :=
  match (laneAt s n).held with
  | none => false
  | some t => decide (now s < t)

/-- The lane that sends toward a client: the one with the fewest queued bytes among those that can carry a frame of this
length; a held lane only when every lane of the trunk is held (R327, R358, R363). -/
def clientLane (s : State) (t len : Nat) : Option Nat :=
  let l := (clientLanes s t).filter (fun n => decide (len ≤ maxFrame (laneAt s n).cfg))
  let free := (clientLanes s t).filter (fun n => !heldLane s n)
  leastLoaded s (if free = [] then l else l.filter (fun n => decide (n ∈ free)))

/-! ## Datagram bytes (R329, R358, Table 06-10) -/

/-- The client header (Table 06-10), most significant byte first. -/
def clientHeader (kind : Nat) (final : Bool) (session seq wordA wordB len : Nat) : Bytes :=
  natBe 2 0x574C ++ natBe 1 (16 + kind) ++ natBe 1 (b2n final) ++ natBe 8 session ++ natBe 4 seq ++ natBe 8 wordA ++
    natBe 4 wordB ++ natBe 2 len ++ natBe 2 0

/-- Sum of the 16-bit words of a byte string, most significant byte first. -/
def words16 : Bytes → Nat
  | [] => 0
  | [a] => a.toNat * 256
  | a :: b :: t => a.toNat * 256 + b.toNat + words16 t

/-- The Internet checksum of a byte string: the complement of the one's complement sum. -/
def ipSum (b : Bytes) : Nat :=
  let x := words16 b
  let y := x % 65536 + x / 65536 % 65536 + x / 4294967296
  65535 - (y % 65536 + y / 65536)

/-- An IPv4-mapped address (Table 08-6). -/
def isV4 (addr : Nat) : Bool := decide (addr / 2 ^ 32 = 0xFFFF)

/-- A UDP datagram with its checksum; a checksum that computes to 0 is sent as 0xFFFF. -/
def udpBytes (pseudo : Bytes) (src dst : Nat) (payload : Bytes) : Bytes :=
  let n := payload.length + 8
  let head := natBe 2 src ++ natBe 2 dst ++ natBe 2 n
  let c := ipSum (pseudo ++ head ++ natBe 2 0 ++ payload)
  head ++ natBe 2 (if c = 0 then 65535 else c) ++ payload

/-- The IP packet toward a client, from the trunk's address and udp_port, Don't Fragment set for IPv4 (R358). Time to live
and hop limit are 64 (log entry 17). -/
def ipPacket (s : State) (t addr udp : Nat) (payload : Bytes) : Bytes :=
  let k := trunkAt s t
  let n := payload.length + 8
  if isV4 addr then
    let a := natBe 4 k.addr4 ++ natBe 4 (addr % 2 ^ 32)
    let h1 := natBe 2 0x4500 ++ natBe 2 (n + 20) ++ natBe 2 0 ++ natBe 2 0x4000 ++ natBe 2 (64 * 256 + 17)
    h1 ++ natBe 2 (ipSum (h1 ++ natBe 2 0 ++ a)) ++ a ++
      udpBytes (a ++ natBe 2 17 ++ natBe 2 n) s.fab.udpPort udp payload
  else
    let a := natBe 16 k.addr6 ++ natBe 16 addr
    natBe 4 0x60000000 ++ natBe 2 n ++ natBe 2 (17 * 256 + 64) ++ a ++
      udpBytes (a ++ natBe 4 n ++ natBe 4 17) s.fab.udpPort udp payload

/-- The next hop toward an address: the address itself on the trunk's subnet, else the gateway (R326). -/
def nextHop (k : ClientTrunk) (addr : Nat) : Nat :=
  if isV4 addr then
    let a := addr % 2 ^ 32
    if a / 2 ^ (32 - k.pre4) = k.addr4 / 2 ^ (32 - k.pre4) ∨ k.gw4 = 0 then addr else 0xFFFF * 2 ^ 32 + k.gw4
  else if addr / 2 ^ (128 - k.pre6) = k.addr6 / 2 ^ (128 - k.pre6) ∨ k.gw6 = 0 then addr else k.gw6

/-- The MAC address of a peer, as discovery has learnt it; one not yet learnt is a free value (log entry 1). -/
def peerMac (s : State) (t addr : Nat) : Nat :=
  let hop := nextHop (trunkAt s t) addr
  match (trunkAt s t).peers.find? (fun p => decide (p.1 = hop)) with
  | some p => p.2
  | none => fresh 48 s

/-- The Ethernet header of a lane, with its tag when vlan_tag is 1 (Table 07-1). -/
def ethHeader (s : State) (lane dst etherType : Nat) : Bytes :=
  let c := (laneAt s lane).cfg
  natBe 6 dst ++ natBe 6 (laneMac s lane) ++
    (if c.vlanTag then natBe 2 0x8100 ++ natBe 2 (c.txPcp * 8192 + c.vlanId) else []) ++ natBe 2 etherType

/-- Bytes of a frame that carries a UDP payload, FCS included. -/
def frameLen (s : State) (t addr n : Nat) : Nat :=
  14 + 4 + 8 + n + (if isV4 addr then 20 else 40) +
    (if (clientLanes s t).any (fun l => (laneAt s l).cfg.vlanTag) then 4 else 0)

/-- One datagram of the client transport goes to a lane of its trunk; while no lane counts in the trunk it waits to be
discarded (R690). `completes` names the command whose completion it is. -/
def sendDatagram (t addr udp : Nat) (payload : Bytes) (completes : Option (Nat × Nat)) (s : State) : State :=
  match clientLane s t (frameLen s t addr payload.length) with
  | none =>
    let k := trunkAt s t
    setTrunk t { k with waiting := k.waiting ++ [{ bytes := payload, completes := completes, at_ := now s }] } s
  | some n =>
    let kind := if isV4 addr then 0x0800 else 0x86DD
    let bytes := ethHeader s n (peerMac s t addr) kind ++ ipPacket s t addr udp payload
    let f : TxFrame := { bytes := bytes, cells := ceilDiv (bytes.length + 4) 256, completes := completes, at_ := now s }
    let l := laneAt s n
    drawn (setLane n { l with tx := l.tx ++ [f] } s)

/-- One client datagram: header and body (Table 06-11). -/
def sendClient (t addr udp kind : Nat) (final : Bool) (session seq wordB : Nat) (body : Bytes)
    (completes : Option (Nat × Nat)) (s : State) : State :=
  sendDatagram t addr udp (clientHeader kind final session seq 0 wordB body.length ++ body) completes s

/-- Read data in DATA segments of at most `m` bytes of data each (R686, Table 06-10). -/
def sendData (t addr udp session seq m : Nat) : Nat → Nat → Bytes → State → State
  | 0, _, _, s => s
  | n + 1, off, d, s =>
    if d = [] then s
    else
      sendData t addr udp session seq m n (off + m) (d.drop m)
        (sendClient t addr udp 6 (decide (d.length ≤ m)) session seq off (d.take m) none s)

/-- The answer to ARP or to IPv6 neighbour discovery for the trunk's address, with the lane's MAC address (R326). PRESUMED, log
entry 17: the layouts are those of ARP and of the neighbour advertisement. -/
def neighbourAnswer (s : State) (lane : Nat) (v6 : Bool) (target sender senderMac : Nat) : Bytes :=
  if v6 then
    let a := natBe 16 target ++ natBe 16 sender
    let head := natBe 2 0x8800
    let body := natBe 4 0x60000000 ++ natBe 16 target ++ natBe 2 0x0201 ++ natBe 6 (laneMac s lane)
    ethHeader s lane senderMac 0x86DD ++ natBe 4 0x60000000 ++ natBe 2 32 ++ natBe 2 (58 * 256 + 255) ++ a ++ head ++
      natBe 2 (ipSum (a ++ natBe 4 32 ++ natBe 4 58 ++ head ++ natBe 2 0 ++ body)) ++ body
  else
    ethHeader s lane senderMac 0x0806 ++ natBe 8 0x0001080006040002 ++ natBe 6 (laneMac s lane) ++ natBe 4 target ++
      natBe 6 senderMac ++ natBe 4 sender

/-- A frame is queued on a lane as it is. -/
def queueFrame (n : Nat) (b : Bytes) (s : State) : State :=
  modLane n (fun l => { l with tx := l.tx ++ [{ bytes := b, cells := ceilDiv (b.length + 4) 256, at_ := now s }] }) s

/-- Bytes that a datagram costs beside its UDP payload (R686). -/
def datagramOver (s : State) (t addr : Nat) : Nat :=
  (if isV4 addr then 66 else 86) + (if (clientLanes s t).any (fun l => (laneAt s l).cfg.vlanTag) then 4 else 0)

end Sys2Proof.Machine
end

