-- ==== Sys2Proof/Machine/Wire.lean ====
section
/-! DEFINITION. What the fabric unit puts on its lanes: trunks, link credits, the Walin header, the choice of an egress, the
frames of the module's own and the frames in transit (R271 to R296). -/

namespace Sys2Proof.Machine

open Sys2Proof

/-! ## Trunks (R274, R277) -/

/-- The lane counts in a fabric trunk. -/
def inFabricTrunk (l : Lane) : Bool := l.inTrunk && !l.cfg.client && !l.revoking

/-- Fabric lanes that form trunks: the neighbours they lead to. -/
def fabricTrunks (s : State) : List Nat :=
  (s.lanes.filterMap (fun p => if inFabricTrunk p.2 then p.2.farNode else none)).dedup

/-- Lanes of the trunk to a neighbour, lowest first. -/
def lanesTo (s : State) (node : Nat) : List Nat :=
  (s.lanes.filter (fun p => inFabricTrunk p.2 && decide (p.2.farNode = some node ∧ p.2.state = .up))).map (·.1)

/-- Group of a node (R271). -/
def groupOfNode (n : Nat) : Nat := n / 64

/-! ## The Walin header (Table 06-4) -/

/-- Bytes `a` on of a frame, as a number, most significant first. -/
def beAt (b : Bytes) (a n : Nat) : Nat := beNat ((b.drop a).take n)

/-- The Walin header of a frame on a fabric lane. -/
def headerOf (b : Bytes) : Hdr :=
  let v := beAt b 14 1
  let h := beAt b 15 1
  { version := v / 16, kind := v % 16, hop := h / 32, adaptive := bit h 4, bounded := bit h 3, via := beAt b 16 2 / 2048,
    dst := beAt b 16 2 % 2048, src := beAt b 18 2 % 2048, laneSeq := beAt b 20 2, payload := beAt b 22 2,
    session := beAt b 26 8, sequence := beAt b 34 4, word := beAt b 38 8 }

/-- The 32 bytes of a Walin header, most significant byte first. -/
def headerBytes (h : Hdr) : Bytes :=
  natBe 1 (h.version * 16 + h.kind) ++ natBe 1 (h.hop * 32 + b2n h.adaptive * 16 + b2n h.bounded * 8) ++
    natBe 2 (h.via * 2048 + h.dst) ++ natBe 2 h.src ++ natBe 2 h.laneSeq ++ natBe 2 h.payload ++ natBe 2 0 ++
    natBe 8 h.session ++ natBe 4 h.sequence ++ natBe 8 h.word

/-- Types that are credited (Table 06-5). -/
def creditedType (k : Nat) : Bool := decide (4 ≤ k ∧ k ≤ 0xB)

/-- Cells that a credited frame costs (R294). -/
def frameCost (payload : Nat) : Nat := ceilDiv (46 + payload) 256

/-- A frame without its FCS: Ethernet header of lane `n`, Walin header, payload (R290). The neighbour's address is broadcast
until HELLO has told it. -/
def walinFrame (s : State) (n : Nat) (h : Hdr) (payload : Bytes) : Bytes :=
  natBe 6 ((laneAt s n).farMac.getD 0xFFFFFFFFFFFF) ++ natBe 6 (laneMac s n) ++ natBe 2 s.fab.etherType ++ headerBytes h ++ payload

/-- The frame with its Ethernet addresses, hop, adaptive bit, intermediate group and lane sequence replaced. -/
def readdress (s : State) (n : Nat) (f : Bytes) (hop via seq : Nat) (adaptive : Bool) : Bytes :=
  let h := headerOf f
  natBe 6 ((laneAt s n).farMac.getD 0xFFFFFFFFFFFF) ++ natBe 6 (laneMac s n) ++ (f.drop 12).take 3 ++
    natBe 1 (hop * 32 + b2n adaptive * 16 + b2n h.bounded * 8) ++ natBe 2 (via * 2048 + h.dst) ++ (f.drop 18).take 2 ++
    natBe 2 seq ++ f.drop 22

/-! ## The bytes of a frame as it leaves (R293, R353, Table 07-5) -/

/-- The frame check sequence over a byte string, as its four bytes count. -/
def fcsOf (b : Bytes) : Nat := crc32 b

/-- Counter of the size bin of a sent frame (Table 07-5). -/
def txBin (len : Nat) : Nat :=
  if len ≤ 64 then 30 else if len ≤ 127 then 31 else if len ≤ 255 then 32 else if len ≤ 511 then 33
  else if len ≤ 1023 then 34 else if len ≤ 1518 then 35 else 36

/-- The counters of a sent frame (Table 07-5). -/
def countSent (n : Nat) (f : TxFrame) (b : Bytes) (s : State) : State :=
  let s1 := if f.stomp then countLane n 37 1 s
    else countLane n (if bit (beAt b 0 6) 40 then 27 else 26) 1 (countLane n 25 b.length (countLane n 24 1 s))
  let s2 := countLane n (txBin b.length) 1 s1
  if f.pause then countLane n (if f.pfc then 29 else 28) 1 s2 else s2

/-- The bytes as they leave: padded to 60 bytes, with the FCS or its complement (R293, R353). -/
def wireBytes (f : TxFrame) (b : Bytes) : Bytes :=
  let p := b ++ List.replicate (60 - b.length) 0
  p ++ natLe 4 (if f.stomp then 0xFFFFFFFF - fcsOf p else fcsOf p)

/-- The lane leaves low-power idle: in this slot it adds nothing to its trunk (R366). -/
def wakeLane (n : Nat) (s : State) : State :=
  modLane n (fun l => if l.txLpi then { l with txLpi := false, wakeSlot := some (slotOf (now s)), emptyAt := now s } else l) s

/-- A link frame leaves a lane at once, ahead of what is queued there: it needs no credit and bears no lane sequence (R292).
It names the neighbour as its destination. -/
def sendLink (n kind word : Nat) (payload : Bytes) (s : State) : State :=
  let h : Hdr := { version := 1, kind := kind, hop := 0, adaptive := false, bounded := true, via := 0,
                   dst := (laneAt s n).farNode.getD 0, src := s.fab.nodeId, laneSeq := 0, payload := payload.length,
                   session := 0, sequence := 0, word := word }
  let f : TxFrame := { bytes := walinFrame s n h payload }
  let b := wireBytes f f.bytes
  emit (.frame n b) (countSent n f b (wakeLane n s))

/-- CREDIT: the next-expected lane sequence, whether it is a NAK, and the running counts of cells returned (Table 06-5). -/
def creditFrame (n nextExp : Nat) (nak : Bool) (counts : List Nat) (s : State) : State :=
  sendLink n 1 (pack [(48, 16, nextExp), (47, 1, b2n nak)]) (counts.flatMap (natBe 2)) s

/-- REVOKE: the lane, its final sequence, and whether it is the answer (Table 06-5). -/
def revokeFrame (n lane final : Nat) (ack : Bool) (s : State) : State :=
  sendLink n 3 (pack [(0, 9, lane), (16, 16, final), (32, 1, b2n ack)]) [] s

/-- HELLO: node ID, node_valid, lane number, serial number (Table 06-5). DESIGN CHOICE, log entry 96: the widths of the
payload's fields. -/
def helloFrame (n : Nat) (s : State) : State :=
  sendLink n 0 0 (natBe 2 s.fab.nodeId ++ natBe 1 (b2n (joined s)) ++ natBe 2 n ++ natLe 16 Config.serial) s

/-- TIME (Table 06-5, R321): the word tells a request from an answer, the payload holds the times (log entry 96). -/
def timeFrame (n : Nat) (m : TimeMsg) (s : State) : State :=
  match m with
  | .request t1 => sendLink n 2 0 (natBe 8 t1) s
  | .reply t1 t2 t3 t4 => sendLink n 2 1 (natBe 8 t1 ++ natBe 8 t2 ++ natBe 8 t3 ++ natBe 8 t4) s

/-! ## Link credits (R294 to R296) -/

/-- Element `i` of a list counts `k` more, modulo 65,536. -/
def addAt (l : List Nat) (i k : Nat) : List Nat := l.set i ((l.getD i 0 + k) % 65536)

/-- Difference of two running 16-bit counts. -/
def since16 (a b : Nat) : Nat := (a + 65536 - b % 65536) % 65536

/-- Sequence `a` is at or after `b` (R278). -/
def from16 (a b : Nat) : Bool := decide (since16 a b < 32768)

/-- Cells of credit that the lane still has toward its neighbour in a hop class (R296). -/
def creditToSend (l : Lane) (c : Nat) : Nat := l.creditCells - since16 (l.credit.getD c 0) (l.peerBack.getD c 0)

/-- Cells of credit that the neighbour still has in a hop class: what was advertised, less what it has charged and has not
been told of (R296, R297). -/
def creditOfPeer (l : Lane) (c : Nat) : Nat :=
  l.creditCells - (since16 (l.charged.getD c 0) (l.returned.getD c 0) + l.owed.getD c 0)

/-- Cells set aside for credit that neighbours have not used (R295). -/
def cellsCommitted (s : State) : Nat :=
  sumOf (fun p => if inFabricTrunk p.2 then
      sumOf (fun c => p.2.creditCells - since16 (p.2.charged.getD c 0) (p.2.returned.getD c 0)) [0, 1, 2, 3, 4] else 0) s.lanes

/-- CREDIT is sent on a lane: its next-expected sequence and what has been returned (R279, R296). -/
def sendCredit (n : Nat) (nak : Bool) (s : State) : State :=
  let l := laneAt s n
  creditFrame n l.seqIn nak l.returned (setLane n { l with owed := [0, 0, 0, 0, 0] } s)

/-- Cells of a hop class are freed: they are owed to the neighbour, at once from 16 on (R296). -/
def freeCells (n c k : Nat) (s : State) : State :=
  let l := laneAt s n
  if inFabricTrunk l = false ∨ k = 0 then s
  else
    let l1 := { l with returned := addAt l.returned c k, owed := addAt l.owed c k,
                       owedAt := if sumOf id l.owed = 0 then now s else l.owedAt }
    let s1 := setLane n l1 s
    if 16 ≤ sumOf id l1.owed then sendCredit n false s1 else s1

/-- A frame that the lane held is gone: the cells it held are freed, and the credit behind them returned. -/
def frameGone (f : TxFrame) (s : State) : State :=
  match f.source with
  | some (n, c) => freeCells n c f.cells s
  | none => s

/-- A frame in transit between other modules (R289): one that was forwarded to reach this lane. -/
def inTransit (f : TxFrame) : Bool := f.credited && decide (f.hopClass ≠ 0)

/-! ## The packet buffer (R36, R37, R295) -/

/-- Cells that receive rings, queued frames and kept frames hold. A transfer to or from a host holds its cells within the one
command that makes it (log entry 98). -/
def cellsHeld (s : State) : Nat :=
  sumOf (fun p => sumOf (fun f => f.reserve + f.shared) p.2.rx + sumOf (fun f => f.cells) p.2.tx + sumOf (fun f => f.cells) p.2.kept)
    s.lanes

/-- Cells counted at the input and at the output at once: those of a transit frame for one frame time of its lane, 10 Gb/s,
after it was passed on (R38). -/
def cellsDual (s : State) : Nat :=
  sumOf (fun p => sumOf (fun f => if inTransit f ∧ now s < f.at_ + (f.bytes.length + 4) * 4 / 5 then f.cells else 0) p.2.tx) s.lanes

/-- Cells of the reserve of fabric control frames that no frame of the module's own holds (R37, Table 01-5). -/
def fabricFree (s : State) : Nat :=
  s.buf.fabric - sumOf (fun p => sumOf (fun f => f.reserve) p.2.tx + sumOf (fun f => f.reserve) p.2.kept) s.lanes

/-- Cells of the shared pool that no frame holds and no credit has set aside (R37, R295). -/
def sharedFree (s : State) : Nat :=
  Config.cells - 512 * s.buf.perLane - (s.host.ports.length) * s.buf.perHost - s.buf.fabric - cellsCommitted s -
    sumOf (fun p => sumOf (fun f => f.shared) p.2.rx + sumOf (fun f => f.cells - f.reserve) p.2.tx +
      sumOf (fun f => f.cells - f.reserve) p.2.kept) s.lanes

/-! ## The choice of an egress (R276, R283, R286 to R288) -/

/-- The trunk to a neighbour stands. -/
def stands (s : State) (n : Nat) : Bool := decide (lanesTo s n ≠ [])

/-- The first hop toward a group: a global trunk to it, else the first hop of a known route into it. -/
def hopToGroup (s : State) (g : Nat) : Option Nat :=
  match (fabricTrunks s).filter (fun n => decide (groupOfNode n = g) && stands s n) with
  | a :: t => some (leastOf id a t)
  | [] => (s.fab.routes.find? (fun p => decide (groupOfNode p.1 = g) && p.2.primary.any (stands s))).bind (·.2.primary)

/-- The groups through which a frame may go round the minimal routes: they hold a trunk into the destination's group
(R288). -/
def viaGroups (s : State) (g : Nat) : List Nat :=
  (List.range 32).filter (fun v => decide (v ≠ g ∧ v ≠ groupOfNode s.fab.nodeId) && (hopToGroup s v).isSome &&
    s.fab.nodes.any (fun p => decide (groupOfNode p.1 = v) && p.2.trunks.any (fun t => decide (groupOfNode t = g))))

/-- The first hop toward a destination: the route's primary trunk, the alternate where that is lost (R283, Table 06-3). -/
def hopToNode (s : State) (d : Nat) : Option Nat :=
  match tfind s.fab.routes d with
  | none => none
  | some r => if r.primary.any (stands s) then r.primary else if r.alternate.any (stands s) then r.alternate else none

/-- A minimal route toward the destination stands. -/
def minimalStands (s : State) (d : Nat) : Bool :=
  match tfind s.fab.routes d with
  | none => false
  | some r => r.primary.any (stands s)

/-- An adaptive egress through the group that the rotating pointer gives (R288). -/
def adaptiveHop (s : State) (d : Nat) : Option (Nat × Bool × Nat) :=
  match viaGroups s (groupOfNode d) with
  | [] => none
  | v =>
    let g := v.getD (s.fab.rotor % v.length) 0
    (hopToGroup s g).map (fun n => (n, true, g))

/-- Where a frame goes: its first hop, and its adaptive bit and intermediate group from here on. A frame on an adaptive route
goes to its intermediate group; any other takes a minimal route while one stands, then a route through another group, then
the alternate trunk (R283, R287, R288). -/
def egress (s : State) (h : Hdr) : Option (Nat × Bool × Nat) :=
  let onward := if h.adaptive ∧ h.via ≠ groupOfNode s.fab.nodeId then (hopToGroup s h.via).map (fun n => (n, true, h.via)) else none
  let direct := (hopToNode s h.dst).map (fun n => (n, false, 0))
  onward.or (if minimalStands s h.dst then direct
    else if groupOfNode h.dst = groupOfNode s.fab.nodeId then direct.or (adaptiveHop s h.dst)
    else (adaptiveHop s h.dst).or direct)

/-- Cells queued on the trunk to a neighbour (R288). -/
def trunkCells (s : State) (n : Nat) : Nat := sumOf (fun k => sumOf (fun f => f.cells) (laneAt s k).tx) (lanesTo s n)

/-- The adaptive egress of unbounded traffic at its source: of two groups drawn in turn from the rotating pointer, the one
whose trunk holds fewer queued cells (R288). -/
def adaptiveSource (s : State) (d : Nat) : Option (Nat × Bool × Nat) :=
  match viaGroups s (groupOfNode d) with
  | [] => none
  | v =>
    let a := v.getD (s.fab.rotor % v.length) 0
    let b := v.getD ((s.fab.rotor + 1) % v.length) 0
    match hopToGroup s a, hopToGroup s b with
    | some x, some y => if trunkCells s y < trunkCells s x then some (y, true, b) else some (x, true, a)
    | some x, none => some (x, true, a)
    | none, some y => some (y, true, b)
    | none, none => none

/-- The egress of a frame that leaves its source, and how far the rotating pointer moves (R288). -/
def sourceEgress (s : State) (h : Hdr) : Option (Nat × Bool × Nat) × Nat :=
  let plain := egress s h
  let busy := !h.bounded && decide (groupOfNode h.dst ≠ groupOfNode s.fab.nodeId ∧ s.fab.adaptCells ≠ 0) &&
    (match plain with | some (n, ad, _) => !ad && decide (s.fab.adaptCells < trunkCells s n) | none => false)
  if busy then
    match adaptiveSource s h.dst with
    | some x => (some x, 2)
    | none => (plain, 0)
  else (plain, match plain with | some (_, ad, _) => b2n ad | none => 0)

/-! ## Queued frames (R278, R283) -/

/-- A frame is dropped for want of a route (R283). -/
def dropHop (f : TxFrame) (s : State) : State :=
  frameGone f { s with fabc := { s.fabc with hopDrop := s.fabc.hopDrop + 1 } }

/-- A frame is queued toward a neighbour, on the lane with the fewest queued bytes (R278). -/
def queueTo (node : Nat) (f : TxFrame) (s : State) : State :=
  match leastLoaded s (lanesTo s node) with
  | some n => modLane n (fun l => { l with tx := l.tx ++ [{ f with at_ := now s, resent := false }] }) s
  | none => dropHop f s

/-- A frame of a lost trunk goes where its destination can still be reached: to the other trunk of its route, or through
another group; it is dropped when no route remains (R283). -/
def queueAlternate (f : TxFrame) (s : State) : State :=
  let h := headerOf f.bytes
  match egress s h with
  | some (node, ad, via) => queueTo node { f with bytes := readdress s 0 f.bytes h.hop via 0 ad } s
  | none => dropHop f s

/-! ## Frames of the module's own (R274, R278, R287, R290 to R292) -/

/-- A credited frame of the module's own, its cells from the reserve of fabric control frames first (R37). Its Ethernet
addresses and its lane sequence are written when it leaves. -/
def ownFrame (s : State) (h : Hdr) (payload : Bytes) : TxFrame :=
  let cells := frameCost payload.length
  { bytes := walinFrame s 0 h payload, bounded := h.bounded, credited := true, hopClass := 0, cells := cells,
    reserve := min cells (fabricFree s) }

/-- The header of a credited frame of the module's own. -/
def ownHeader (s : State) (kind dst session seq word len : Nat) (bounded : Bool) : Hdr :=
  { version := 1, kind := kind, hop := 0, adaptive := false, bounded := bounded, via := 0, dst := dst, src := s.fab.nodeId,
    laneSeq := 0, payload := len, session := session, sequence := seq, word := word }

/-- A credited frame of the module's own leaves on its egress trunk; none while the module is not joined (R274). -/
def sendOwn (kind dst session seq word : Nat) (payload : Bytes) (bounded : Bool) (s : State) : State :=
  if joined s = false then s
  else
    let h := ownHeader s kind dst session seq word payload.length bounded
    match sourceEgress s h with
    | (some (node, ad, via), k) =>
      queueTo node (ownFrame s { h with adaptive := ad, via := via } payload) { s with fab := { s.fab with rotor := s.fab.rotor + k } }
    | (none, _) => dropHop (ownFrame s h payload) s

/-- A byte string in frames of at most 8,192 bytes of payload, at least one (R290); the count bounds them. -/
def payloads : Nat → Bytes → List Bytes
  | 0, _ => []
  | n + 1, b => if b.length ≤ 8192 then [b] else b.take 8192 :: payloads n (b.drop 8192)

/-- A message of the module's own in as many frames as its payload needs; all bear the same session, sequence and word
(log entry 96). -/
def sendMessage (kind dst session seq word : Nat) (payload : Bytes) (bounded : Bool) (s : State) : State :=
  each (fun b s => sendOwn kind dst session seq word b bounded s) (payloads (payload.length + 1) payload) s

/-- ROUTE goes to one neighbour: the list of node `src`, its serial number and the time its node_valid was set (Table 06-5,
log entry 96). -/
def routeFrame (node src : Nat) (x : NodeInfo) (s : State) : State :=
  let payload := natBe 2 x.trunks.length ++ x.trunks.flatMap (natBe 2) ++ natLe 16 x.serial ++ natBe 8 x.validAt
  let h := { ownHeader s 4 node 0 0 0 payload.length true with src := src }
  if joined s ∧ stands s node = true then queueTo node (ownFrame s h payload) s else s

/-- ROUTE goes to every neighbour. -/
def passRoute (src : Nat) (x : NodeInfo) (s : State) : State := each (fun n s => routeFrame n src x s) (fabricTrunks s) s

end Sys2Proof.Machine
end

