-- ==== Sys2Proof/Machine/Journal.lean ====
section
/-! DEFINITION. Sessions, stamps, the journal's watermarks, outcome stores and detail ring, and the posting of completions
(ch 02, ch 03, ch 05). -/

namespace Sys2Proof.Machine

open Sys2Proof

/-! ## Statuses (Table 03-11) -/

/-- OK. -/
def stOk : Nat := 0x0000
/-- NOT_FOUND. -/
def stNotFound : Nat := 0x0001
/-- VERSION_MISMATCH. -/
def stVersion : Nat := 0x0002
/-- DUPLICATE_SEQUENCE. -/
def stDuplicate : Nat := 0x0003
/-- TRUNCATED. -/
def stTruncated : Nat := 0x0004
/-- RETRY_AFTER. -/
def stRetry : Nat := 0x0010
/-- DEADLINE_UNATTAINABLE. -/
def stUnattainable : Nat := 0x0011
/-- INPUT_LOST. -/
def stInputLost : Nat := 0x0012
/-- WITHDRAWN. -/
def stWithdrawn : Nat := 0x0013
/-- TRICK_ABANDONED. -/
def stAbandoned : Nat := 0x0014
/-- OPCODE_INVALID. -/
def stOpcode : Nat := 0x0020
/-- KEY_LENGTH_INVALID. -/
def stKeyLength : Nat := 0x0021
/-- RANGE_BEYOND_VALUE. -/
def stRange : Nat := 0x0022
/-- LENGTH_INVALID. -/
def stLength : Nat := 0x0023
/-- NAMESPACE_INVALID. -/
def stNamespace : Nat := 0x0024
/-- SEQUENCE_OUT_OF_WINDOW. -/
def stWindow : Nat := 0x0025
/-- TRICK_INVALID. -/
def stTrick : Nat := 0x0026
/-- SCOPE_INVALID. -/
def stScope : Nat := 0x0027
/-- SCATTER_LIST_INVALID. -/
def stScatter : Nat := 0x0028
/-- DMA_FAULT. -/
def stDma : Nat := 0x0029
/-- CAPACITY_EXHAUSTED. -/
def stCapacity : Nat := 0x0030
/-- READ_ONLY_MODE. -/
def stReadOnly : Nat := 0x0031
/-- QUOTA_EXHAUSTED. -/
def stQuota : Nat := 0x0032
/-- ACCESS_DENIED. -/
def stDenied : Nat := 0x0040
/-- MEDIA_UNRECOVERABLE. -/
def stMedia : Nat := 0x0050
/-- FABRIC_UNREACHABLE. -/
def stFabric : Nat := 0x0060
/-- MGMT_BUSY. -/
def stBusy : Nat := 0x0070
/-- PAGE_UNKNOWN. -/
def stPageUnknown : Nat := 0x0071
/-- PAGE_FIELD_INVALID. -/
def stPageField : Nat := 0x0072
/-- PAGE_FORMAT_MISMATCH. -/
def stPageFormat : Nat := 0x0073
/-- IMAGE_SIGNATURE_INVALID. -/
def stSignature : Nat := 0x0074
/-- ROLLBACK_REFUSED. -/
def stRollback : Nat := 0x0075
/-- COMBINATION_UNTESTED. -/
def stCombination : Nat := 0x0076
/-- ACTIVATION_FAILED. -/
def stActivation : Nat := 0x0077
/-- NOTHING_STAGED. -/
def stNothing : Nat := 0x0078
/-- QUEUE_INVALID. -/
def stQueue : Nat := 0x0079

/-! ## Sequence numbers (R139) -/

/-- `a` lies later than the reference `b`; a number exactly 2^31 from its reference counts as later. -/
def later (a b : Nat) : Bool :=
  decide (1 ≤ (a + 2 ^ 32 - b % 2 ^ 32) % 2 ^ 32 ∧ (a + 2 ^ 32 - b % 2 ^ 32) % 2 ^ 32 ≤ 2 ^ 31)

/-- `a` plus `k`, with wrap. -/
def seqAdd (a k : Nat) : Nat := (a + k) % 2 ^ 32

/-- The sequence 4,096 before. -/
def seqBack (a : Nat) : Nat := (a + 2 ^ 32 - 4096) % 2 ^ 32

/-! ## Sessions -/

/-- The session with an identifier, unless released. -/
def sessFind (s : State) (id : Nat) : Option Session := tfind s.sessions id

/-- Session `id` is changed by `f`. -/
def modSess (id : Nat) (f : Session → Session) (s : State) : State :=
  { s with sessions := tadj s.sessions id f }

/-- Accepted commands of a session without an outcome. -/
def inflightOf (s : State) (id : Nat) : List InFlight := s.dlr.inflight.filter (fun f => decide (f.session = id))

/-- The accepted command with a sequence. -/
def findFlight (s : State) (id seq : Nat) : Option InFlight :=
  s.dlr.inflight.find? (fun f => decide (f.session = id ∧ f.seq = seq))

/-- The accepted command with a sequence is changed by `g`. -/
def modFlight (id seq : Nat) (g : InFlight → InFlight) (s : State) : State :=
  { s with dlr := { s.dlr with inflight := s.dlr.inflight.map (fun f => if f.session = id ∧ f.seq = seq then g f else f) } }

/-- The completed watermark (R70): the sequence before the earliest one in flight, or the highest accepted one. -/
def watermark (s : State) (id : Nat) (x : Session) : Nat :=
  let ages := (inflightOf s id).map (fun f => (x.highest + 2 ^ 32 - f.seq) % 2 ^ 32)
  match ages with
  | [] => x.highest
  | a :: t => (x.highest + 2 ^ 32 - t.foldl max a - 1) % 2 ^ 32

/-! ## Stamps (R57, R58) -/

/-- The stamp as its 128 bits (R57). -/
def stampWord (t : Stamp) : Nat := pack [(0, 64, t.time), (64, 16, t.tie), (80, 11, t.node)]

/-- Stamps compare by time, tie-break, node (R57). -/
def stampBefore (a b : Stamp) : Bool :=
  decide (a.time < b.time ∨ (a.time = b.time ∧ (a.tie < b.tie ∨ (a.tie = b.tie ∧ a.node < b.node))))

/-- The stamp that the next acceptance takes (R58). -/
def nextStamp (s : State) : Stamp :=
  let p := s.clk.stamp
  if s.clk.stamped = false ∨ p.time < now s then { time := now s, tie := 0, node := s.fab.nodeId }
  else if p.tie = 65535 then { time := p.time + 1, tie := 0, node := s.fab.nodeId }
  else { time := p.time, tie := p.tie + 1, node := s.fab.nodeId }

/-- A stamp is issued. -/
def takeStamp (s : State) : State :=
  { s with clk := { s.clk with stamp := nextStamp s, stamped := true, first := true } }

/-! ## The detail ring (R73, R74) -/

/-- An entry is written at the ring's head; one overwritten while open is counted (Table 02-8). -/
def ringWrite (e : RingEntry) (s : State) : State :=
  let k := s.jnl.ringHead % Config.ringEntries
  let lost := match tfind s.jnl.ring k with | some o => b2n (!o.done) | none => 0
  { s with jnl := { s.jnl with ring := tput s.jnl.ring k e, ringHead := s.jnl.ringHead + 1,
                               openLost := s.jnl.openLost + lost } }

/-- The surviving entry of a sequence, if any. -/
def ringFind (s : State) (id seq : Nat) : Option RingEntry :=
  (s.jnl.ring.find? (fun p => decide (p.2.session = id ∧ p.2.seq = seq))).map (·.2)

/-- The surviving entry of a sequence is changed by `g`. -/
def ringMod (id seq : Nat) (g : RingEntry → RingEntry) (s : State) : State :=
  { s with jnl := { s.jnl with ring := s.jnl.ring.map (fun p => if p.2.session = id ∧ p.2.seq = seq then (p.1, g p.2) else p) } }

/-- A detail ring entry as its 64 bytes, CRC-32C included (Table 02-4). -/
def ringBytes (e : RingEntry) : Bytes :=
  let lo := pack [(0, 64, e.session), (64, 32, e.seq), (96, 8, e.opcode), (104, 1, b2n e.done), (105, 1, b2n e.delivered),
    (106, 1, b2n e.member), (107, 1, b2n e.fast), (112, 16, e.status), (128, 128, e.digest), (256, 128, stampWord e.stamp),
    (384, 32, e.vlen), (416, 12, e.ns), (428, 4, e.suit), (432, 3, e.cls), (448, 32, e.compNs)]
  let b := natLe 60 lo
  b ++ natLe 4 (crc32c b)

/-! ## The outcome store (R72, R141, R170) -/

/-- seq_check of a sequence (Table 02-3). -/
def seqCheck (seq : Nat) : Nat := bits seq 24 12

/-- The record of slot (sequence mod 4,096). -/
def storeSlot (x : Session) (seq : Nat) : Option Outcome := tfind x.store (seq % 4096)

/-- The slot holds the record of an earlier sequence that has not completed (R141). -/
def slotBusy (x : Session) (seq : Nat) : Bool :=
  match storeSlot x seq with
  | none => false
  | some r => !r.done && decide (r.seqCheck ≠ seqCheck seq)

/-- A record is written into a sequence's slot. -/
def storeSet (id seq : Nat) (r : Outcome) (s : State) : State :=
  modSess id (fun x => { x with store := tput x.store (seq % 4096) r }) s

/-- An outcome record as its 8 bytes (Table 02-3). -/
def outcomeWord (r : Outcome) : Nat :=
  pack [(0, 16, if r.done then r.status else 0), (16, 1, b2n r.done), (17, 1, b2n r.delivered), (18, 3, r.cls),
        (24, 27, r.vlen), (51, 13, r.seqCheck)]

/-- A completion entry or frame has been sent: delivered is 1 (Table 02-3). -/
def setDelivered (id seq : Nat) (s : State) : State :=
  let s1 := match sessFind s id with
    | none => s
    | some x =>
      match storeSlot x seq with
      | some r => if r.done ∧ r.seqCheck = seqCheck seq then storeSet id seq { r with delivered := true } s else s
      | none => s
  ringMod id seq (fun e => if e.done then { e with delivered := true } else e) s1

/-! ## Fates (R76, Table 03-7) -/

/-- One item of the answer. -/
def fateItem (seq fate : Nat) (delivered : Bool) (status vlen : Nat) (ring : Option RingEntry) : Nat :=
  pack [(0, 32, seq), (32, 3, fate), (35, 1, b2n delivered), (36, 1, b2n ring.isSome), (48, 16, status), (64, 27, vlen),
        (128, 128, match ring with | some e => stampWord e.stamp | none => 0)]

/-- An item answered from the detail ring alone, with a fate of 2 or the given one when no entry survives. -/
def fateRing (seq gone : Nat) (ring : Option RingEntry) (fate : Nat) : Nat :=
  match ring with
  | some e => fateItem seq fate e.delivered e.status e.vlen ring
  | none => fateItem seq gone false 0xFFFF 0 none

/-- A session has used a sequence (R76). -/
def usedSeq (x : Session) (seq : Nat) : Bool := x.wrapped || decide (1 ≤ seq ∧ seq ≤ x.highest)

/-- The fate of one sequence (R76). -/
def fateOf (s : State) (id seq : Nat) : Nat :=
  let ring := ringFind s id seq
  match sessFind s id with
  | none => fateRing seq 4 ring (match ring with | some e => if e.done then 2 else 1 | none => 4)
  | some x =>
    if later seq x.highest then fateItem seq 0 false 0 0 none
    else if usedSeq x seq = false then fateItem seq 0 false 0 0 none
    else if later seq (seqBack x.highest) = false then fateRing seq 3 ring 3
    else
      match storeSlot x seq with
      | none => fateItem seq 5 false 0xFFFF 0 none
      | some r =>
        if r.seqCheck = seqCheck seq then
          if r.done then fateItem seq 2 r.delivered r.status r.vlen ring else fateItem seq 1 false 0 0 ring
        else if r.seqCheck = seqCheck (seqAdd seq 4096) then fateRing seq 3 ring 3
        else fateItem seq 5 false 0xFFFF 0 none

/-- The header of the answer (Table 03-7). -/
def queryHeader (s : State) (id : Nat) : Nat :=
  match sessFind s id with
  | none => pack [(64, 2, 2)]
  | some x => pack [(0, 32, x.highest), (32, 32, watermark s id x), (64, 2, b2n (x.draining || x.deleted))]

/-- The answer to JOURNAL_QUERY for `count` sequences from `first` on (R135, Table 03-7). -/
def queryOutput (s : State) (id first count : Nat) : Bytes :=
  natLe 32 (queryHeader s id) ++
    (List.range count).flatMap (fun i => natLe 32 (fateOf s id (seqAdd first i)))

/-! ## Posting completions (R79, R240 to R249, R333) -/

/-- A context that has never been bound. -/
def ctxBlank : Nat → Ctx := fun _ => {}

/-- Context `c`. -/
def ctxAt (s : State) (c : Nat) : Ctx := tget ctxBlank s.host.ctxs c

/-- Context `c` becomes `x`. -/
def setCtx (c : Nat) (x : Ctx) (s : State) : State :=
  { s with host := { s.host with ctxs := tset ctxBlank s.host.ctxs c x } }

/-- The queue pair of a context becomes `q`. -/
def setQueue (c : Nat) (q : Queue) (s : State) : State := setCtx c { ctxAt s c with queue := some q } s

/-- Entries of the completion queue posted and not yet consumed. -/
def cqUsed (q : Queue) : Nat := (q.cqTail + q.cqSize - q.cqHead) % q.cqSize

/-- A slot is free for a completion entry (R79). -/
def cqFree (q : Queue) : Bool := decide (cqUsed q + 1 < q.cqSize)

/-- The port's link carries data (R218). -/
def portUp (s : State) (p : Nat) : Bool := match tfind s.host.ports p with | some x => x.inL0 | none => false

/-- The queue signals its vector at once, or counts the entry toward coalescing (R248, R249). -/
def signalQueue (c : Nat) (s : State) : State :=
  match (ctxAt s c).queue with
  | none => s
  | some q =>
    if q.irq = false then s
    else if q.coCount ≤ q.unsig + 1 then msix q.port q.vector (setQueue c { q with unsig := 0 } s)
    else setQueue c { q with unsig := q.unsig + 1, unsigAt := if q.unsig = 0 then now s else q.unsigAt } s

/-- Data lands in the buffers in list order, each filled before the next (R237). -/
def fillBuffers (port : Nat) (relaxed : Bool) : List Descriptor → Bytes → State → State
  | [], _, s => s
  | d :: t, b, s =>
    if b = [] then s else fillBuffers port relaxed t (b.drop d.len) (emit (.hostWrite port d.addr relaxed (b.take d.len)) s)

/-- Read data goes to the host's buffers, with Relaxed Ordering where Device Control enables it (Table 05-2). -/
def sendHostData (port : Nat) (c : Completion) (s : State) : State :=
  fillBuffers port (match tfind s.host.ports port with | some x => bit x.devCtl 4 | none => false) c.bufs c.data s

/-- The 32 bytes of a completion entry (R240, Table 05-10). -/
def completionEntry (e : Completion) (sqHead : Nat) (phase : Bool) : Bytes :=
  natLe 32 (pack [(0, 91, e.stamp), (91, 32, e.seq), (128, 64, e.version), (192, 16, e.status), (208, 16, sqHead),
                  (224, 27, e.vlen), (255, 1, b2n phase)])

/-- One completion entry is written into the next slot of the queue's memory, with the phase of this pass (R232, R241). -/
def writeCq (c : Nat) (q : Queue) (e : Completion) (s : State) : State :=
  let s1 := sendHostData q.port e s
  let s2 := emit (.hostWrite q.port (q.cqBase + 32 * q.cqTail) false (completionEntry e q.fetch q.phase)) s1
  let wrap := decide (q.cqTail + 1 = q.cqSize)
  let q1 := { q with cqTail := if wrap then 0 else q.cqTail + 1, phase := if wrap then !q.phase else q.phase }
  signalQueue c (setDelivered e.session e.seq (setQueue c q1 s2))

/-- The completion block of a client (R333). -/
def completionBlock (e : Completion) : Bytes :=
  natLe 32 (pack [(0, 91, e.stamp), (91, 32, e.seq), (128, 64, e.version), (192, 16, e.status), (208, 16, e.orig),
                  (224, 27, e.vlen)])

/-- A completion goes to a client: its DATA segments, then the COMPLETION (R333). `own` says that it settles the
command's own delivered flag. -/
def postClient (x : Session) (e : Completion) (own : Bool) (s : State) : State :=
  let m := x.maxDgram - 32
  let s1 := sendData x.trunk x.addr x.udp e.session e.seq m (e.data.length + 1) 0 e.data s
  sendClient x.trunk x.addr x.udp 5 false e.session e.seq 0 (completionBlock e)
    (if own then some (e.session, e.seq) else none) s1

/-- A completion is posted: a host entry into a free slot or held behind others (R79), a client datagram; nothing after
the draining point of a host queue (R263). -/
def post (e : Completion) (own : Bool) (s : State) : State :=
  match sessFind s e.session with
  | none => s
  | some x =>
    match x.kind with
    | .fabric => s
    | .client =>
      postClient x e own (if own then modSess e.session (fun y =>
        { y with sent := tput y.sent e.seq { e with data := [], bufs := [] } }) s else s)
    | .host =>
      match (ctxAt s x.ctx).queue with
      | none => s
      | some q =>
        if x.draining then (if portUp s q.port then sendHostData q.port e s else s)
        else if q.held = [] ∧ cqFree q = true ∧ portUp s q.port = true then writeCq x.ctx q e s
        else if portUp s q.port then
          setQueue x.ctx { q with held := q.held ++ [{ e with data := [], bufs := [] }] } (sendHostData q.port e s)
        else setQueue x.ctx { q with held := q.held ++ [e] } s

/-- Held completions are posted in the order they were recorded while slots are free (R79); the count bounds them. -/
def postHeld (c : Nat) : Nat → State → State
  | 0, s => s
  | n + 1, s =>
    match (ctxAt s c).queue with
    | none => s
    | some q =>
      match q.held with
      | [] => s
      | e :: t =>
        if cqFree q ∧ portUp s q.port = true then
          let q1 := { q with held := t }
          postHeld c n (writeCq c q1 e (setQueue c q1 s))
        else s

/-! ## Recording outcomes (R53, R69, R70, R72 to R74) -/

/-- Nanoseconds from stamp to completion (Table 02-4). -/
def completionNs (s : State) (t : Stamp) : Nat := min 0xFFFFFFFF (now s - t.time)

/-- The command's overlap entries are freed (R153). -/
def freeOverlap (id seq : Nat) (s : State) : State :=
  { s with dlr := { s.dlr with overlap := s.dlr.overlap.filter (fun o => !decide (o.session = id ∧ o.seq = seq)) } }

/-- The kind of write that changes an object's overlap entry (Table 03-5). -/
def isWrite (op : Nat) : Bool := decide (op ∈ [0x02, 0x03, 0x04, 0x05, 0x07])

/-- The opcode names a key (Table 03-5). -/
def isKeyed (op : Nat) : Bool := decide (op ∈ [0x01, 0x02, 0x03, 0x04, 0x05, 0x06, 0x07])

/-- A command carried through recovery delivers no data (R61). -/
def quiet (f : InFlight) (p : Plan) : Plan :=
  if isWrite f.cmd.opcode then p else { p with data := [], vlen := if f.cmd.opcode = 0x06 then p.vlen else 0 }

/-- The detail ring entry of a command carried through recovery, written afresh when it completes (R75). -/
def carriedEntry (s : State) (f : InFlight) (p : Plan) : RingEntry :=
  { session := f.session, seq := f.seq, opcode := f.cmd.opcode, done := true, delivered := false, member := f.trick.isSome,
    fast := f.fast, status := p.status, digest := if isKeyed f.cmd.opcode then digestOf s f.ns f.cmd.key else 0,
    stamp := f.stamp, vlen := p.vlen, ns := f.ns, suit := if isWrite f.cmd.opcode then f.suit else 0, cls := f.cmd.cls,
    compNs := completionNs s f.stamp }

/-- The ring tells how a command ended: in its entry, or for a carried one in a new entry (R74, R75). -/
def ringDone (f : InFlight) (p : Plan) (s : State) : State :=
  if f.carried then ringWrite (carriedEntry s f p) s
  else
    let ns := completionNs s f.stamp
    ringMod f.session f.seq (fun e => { e with done := true, status := p.status, vlen := p.vlen, compNs := ns }) s

/-- A completion as a client session keeps it, to be sent again (R169). -/
def keepSent (e : Completion) (s : State) : State :=
  modSess e.session (fun y => match y.kind with
    | .client => { y with sent := tput y.sent e.seq { e with data := [], bufs := [] } }
    | _ => y) s

/-- The outcome of an accepted command is recorded, its antes are given back, and its completion is posted; that of a command
carried through recovery is not (R60). -/
def recordOutcome (f : InFlight) (plan : Plan) (s : State) : State :=
  let p := if f.carried then quiet f plan else plan
  let r : Outcome := { status := p.status, done := true, delivered := false, cls := f.cmd.cls, vlen := p.vlen,
                       seqCheck := seqCheck f.seq }
  let s2 := ringDone f p (storeSet f.session f.seq r s)
  let s3 := releaseResv (.command f.session f.seq) (freeOverlap f.session f.seq s2)
  let s4 := { s3 with
    jnl := { s3.jnl with completed := s3.jnl.completed + 1 },
    dlr := { s3.dlr with inflight := s3.dlr.inflight.filter (fun g => !decide (g.session = f.session ∧ g.seq = f.seq)) } }
  let e : Completion := { session := f.session, seq := f.seq, stamp := stampWord f.stamp, version := p.version,
                          status := p.status, vlen := p.vlen, data := p.data, bufs := f.cmd.buffers }
  if f.carried then keepSent e s4 else post e true s4

/-- An accepted command enters the journal: watermark, outcome record, ring entry, counts (R70 to R73, R86). -/
def accept (f : InFlight) (digest : Nat) (s : State) : State :=
  let s1 := modSess f.session (fun x =>
    { x with highest := f.seq, any := true, wrapped := x.wrapped || decide (f.seq < x.highest),
             store := tput x.store (f.seq % 4096) { cls := f.cmd.cls, seqCheck := seqCheck f.seq } }) s
  let e : RingEntry :=
    { session := f.session, seq := f.seq, opcode := f.cmd.opcode, done := false, delivered := false,
      member := f.trick.isSome, fast := f.fast, status := 0, digest := digest, stamp := f.stamp, vlen := 0, ns := f.ns,
      suit := if isWrite f.cmd.opcode then f.suit else 0, cls := f.cmd.cls }
  let s2 := ringWrite e s1
  { s2 with
    jnl := { s2.jnl with accepted := s2.jnl.accepted + 1 },
    dlr := { s2.dlr with inflight := s2.dlr.inflight ++ [f], fastPath := s2.dlr.fastPath + b2n f.fast,
                         corePath := s2.dlr.corePath + b2n (!f.fast) } }

/-! ## Answers and refusals (R141, R144, R175) -/

/-- An answer or refusal without a stamp of its own is posted. -/
def answer (id seq status stamp orig : Nat) (s : State) : State :=
  post { session := id, seq := seq, stamp := stamp, version := 0, status := status, orig := orig, vlen := 0 } false s

/-- A duplicate of a completed sequence: the recorded status, and the original stamp while its ring entry survives
(R144). -/
def answerDuplicate (id seq : Nat) (s : State) : State :=
  let ring := ringFind s id seq
  let stored := match sessFind s id with
    | none => none
    | some x => match storeSlot x seq with
      | some r => if r.done ∧ r.seqCheck = seqCheck seq then some r.status else none
      | none => none
  let orig := match stored, ring with
    | some v, _ => v
    | none, some e => if e.done then e.status else 0xFFFF
    | none, none => 0xFFFF
  let stamp := match ring with | some e => stampWord e.stamp | none => 0
  answer id seq stDuplicate stamp orig { s with dlr := { s.dlr with dups := s.dlr.dups + 1 } }

/-- A refusal of a host-queue entry: the status in its outcome slot unless an earlier command still holds it, and a
completion entry (R141, R175). -/
def refuseHost (id seq cls status time : Nat) (s : State) : State :=
  let e : Completion := { session := id, seq := seq, stamp := if status = stRetry then time else 0, version := 0,
                          status := status, vlen := 0 }
  match sessFind s id with
  | none => s
  | some x =>
    if slotBusy x seq then post e false { s with dlr := { s.dlr with unrecorded := s.dlr.unrecorded + 1 } }
    else post e true (storeSet id seq { status := status, done := true, cls := cls, seqCheck := seqCheck seq } s)

/-! ## Meanings -/

/-- POST_HELD_COMPLETION (R79): held completions are posted as slots free. -/
def execPostHeldCompletion (ctx : Nat) (s : State) : R :=
  whenRunning (fun s =>
    match (ctxAt s ctx).queue with
    | none => s
    | some q => guard (decide (s.boot.stage = 4)) (postHeld ctx q.held.length) s) s

/-- COALESCE_TIMER_EXPIRY (R249): coalesce_time_us after the first unsignalled entry, the vector is signalled. -/
def execCoalesceTimerExpiry (ctx : Nat) (s : State) : R :=
  whenRunning (fun s =>
    match (ctxAt s ctx).queue with
    | none => s
    | some q => guard (decide (q.coTime ≠ 0 ∧ q.unsig ≠ 0 ∧ q.unsigAt + q.coTime * 1000 ≤ now s) && q.irq && !q.deleting)
        (fun s => msix q.port q.vector (setQueue ctx { q with unsig := 0 } s)) s) s

end Sys2Proof.Machine
end

