-- ==== Sys2Proof/Machine/Operands.lean ====
section
/-! DEFINITION. Operand forms: the command that a submission entry or a command block spells, with the key, data list and
write data it names (Tables 03-4, 05-9, R104, R236 to R238, R331, R684). -/

namespace Sys2Proof.Machine

open Sys2Proof

/-- The opcode moves data through a data list (Table 03-4, R110). -/
def movesData (op : Nat) : Bool := decide (op ∈ [0x01, 0x02, 0x04, 0x05, 0x07, 0x09, 0x12])

/-- The opcode carries write data (Table 03-4). -/
def carriesData (op : Nat) : Bool := decide (op ∈ [0x02, 0x04, 0x05, 0x07])

/-- Offset of a GET or PUT_AT (Table 05-9). -/
def offsetOf (c : Cmd) : Nat := bits c.aux 26 0

/-- Members of a TRICK (Table 05-9). -/
def trickCount (c : Cmd) : Nat := bits c.aux 6 0

/-- Scope of an EXPIRE_HINT (Table 05-9). -/
def scopeOf (c : Cmd) : Nat := bits c.aux 1 0

/-- to_medium of a FLUSH_SESSION (Table 03-4). -/
def toMedium (c : Cmd) : Bool := bit c.aux 0

/-- max_entries of an ENUMERATE (Table 05-9). -/
def maxEntries (c : Cmd) : Nat := bits c.aux 15 0

/-- Bytes 0 to 15 of the inline key area: the start digest, or lo (R126, R130). -/
def areaLo (c : Cmd) : Nat := bits c.area 127 0

/-- Bytes 16 to 31 of the inline key area: hi (R126). -/
def areaHi (c : Cmd) : Nat := bits c.area 255 128

/-- Target session of a JOURNAL_QUERY (R135). -/
def queryTarget (area : Nat) : Nat := bits area 63 0

/-- First sequence of a JOURNAL_QUERY (R135). -/
def queryFirst (area : Nat) : Nat := bits area 95 64

/-- Count of a JOURNAL_QUERY (R135). -/
def queryCount (area : Nat) : Nat := bits area 111 96

/-- Total of the data list. -/
def listTotal (c : Cmd) : Nat := sumOf (·.len) c.buffers

/-- Buffer bytes of an ENUMERATE or JOURNAL_QUERY (R131, R136). -/
def bufferBytes (c : Cmd) : Nat := if c.length = 0 then listTotal c else c.length

/-- The fields of Table 05-9 that every form of a command shares. -/
def entryFields (v : Nat) : Cmd :=
  { opcode := bits v 7 0, ns := bits v 19 8, cls := bits v 22 20, suitGiven := bit v 23, suit := bits v 27 24,
    keyLength := bits v 40 32, listCount := bits v 63 48, length := bits v 90 64, aux := bits v 191 128,
    area := bits v 511 256 }

/-- The descriptors of a list of `n`, 16 little-endian bytes each (R237); none when the list holds fewer. -/
def descriptorsOf : Nat → Bytes → Option (List Descriptor)
  | 0, _ => some []
  | n + 1, b =>
    if b.length < 16 then none
    else
      let v := leNat (b.take 16)
      (descriptorsOf n (b.drop 16)).map (fun t => { addr := bits v 63 0, len := bits v 95 64 } :: t)

/-- A data list that R238 refuses whatever the command moves: too many buffers, a list off its 16-byte alignment, or a
buffer of 0 or of more than 67,108,864 bytes. -/
def badList (count addr single : Nat) (list : Option (List Descriptor)) : Bool :=
  decide (4096 < count) || (decide (1 < count ∧ addr % 16 ≠ 0)) || (decide (count = 1 ∧ single = 0)) ||
  (decide (1 < count) && (match list with
    | some l => l.any (fun d => decide (d.len = 0 ∨ Config.maxValue < d.len))
    | none => false))

/-- The key of a command: inline up to 32 bytes, else as the bus or the datagram brought it (R104). -/
def keyOfCmd (c : Cmd) (long : Option Bytes) : Option Bytes :=
  if isKeyed c.opcode = false ∨ c.keyLength = 0 ∨ 256 < c.keyLength then some []
  else if c.keyLength ≤ 32 then some (natLe c.keyLength c.area)
  else long.map (fun k => k.take c.keyLength)

/-- A fetched submission entry as a command (R236 to R238, R684). -/
def hostCmd (f : Fetched) : Cmd :=
  let c := entryFields f.entry
  let single := bits f.entry 127 96
  let addr := bits f.entry 255 192
  let uses := movesData c.opcode
  let list := if c.listCount ≤ 1 ∨ 4096 < c.listCount then none else f.list.bind (descriptorsOf c.listCount)
  let bad := uses && badList c.listCount addr single list
  let bufs := if c.listCount = 0 then [] else if c.listCount = 1 then [{ addr := addr, len := single }] else list.getD []
  let key := keyOfCmd c f.key
  let small := carriesData c.opcode && decide (0 < c.length ∧ c.length ≤ 4096 ∧ c.listCount ≠ 0)
  let data := if c.length = 0 then some []
    else if small then f.data.bind (fun d => if d.length < c.length then none else some (d.take c.length)) else none
  let listLost := uses && !bad && decide (1 < c.listCount) && list.isNone
  { c with buffers := bufs, listBad := bad, key := key.getD [],
           dmaBad := key.isNone || listLost || (small && !bad && data.isNone),
           data := if carriesData c.opcode then data else none }

/-- A client's command block with the key and write data after it (R331, R332, R691). Staged data is found when the
command reaches admission. -/
def clientCmd (body : Bytes) : Cmd :=
  let v := leNat (body.take 64)
  let c := entryFields v
  let rest := body.drop 64
  let long := isKeyed c.opcode && decide (32 < c.keyLength ∧ c.keyLength ≤ 256)
  let klen := if long then c.keyLength else 0
  let buf := bits v 127 96
  let inline := rest.drop klen
  let stage := bits v 255 192
  let data := if c.length = 0 then some []
    else if stage = 0 ∧ c.length ≤ inline.length then some (inline.take c.length) else none
  { c with buffers := if c.listCount = 0 then [] else [{ addr := 0, len := buf }],
           key := (keyOfCmd c (some (rest.take klen))).getD [],
           short := decide (body.length < 64) || decide (rest.length < klen),
           listBad := movesData c.opcode && decide (c.listCount = 1 ∧ buf = 0),
           stage := stage, data := if carriesData c.opcode then data else none }

end Sys2Proof.Machine
end

