-- ==== Sys2Proof/Machine/Flags.lean ====
section
/-! DEFINITION. What a command's own fields decide: its field errors and their order (R110, R121, R126, R131, R136, R159,
R177, R238). -/

namespace Sys2Proof.Machine

open Sys2Proof

/-- Opcodes of Table 03-5. -/
def knownOp (op : Nat) : Bool :=
  decide (op ∈ [0x01, 0x02, 0x03, 0x04, 0x05, 0x06, 0x07, 0x08, 0x09, 0x10, 0x11, 0x12])

/-- Opcodes that a trick may hold (R159). -/
def memberOp (op : Nat) : Bool := decide (op ∈ [0x01, 0x02, 0x03, 0x04, 0x05, 0x06, 0x07])

/-- The opcode uses the length field (Table 03-4). -/
def usesLength (op : Nat) : Bool := movesData op

/-- Position of a status in the order of R177. -/
def rank (st : Nat) : Nat :=
  if st = stDuplicate ∨ st = stWithdrawn ∨ st = stWindow then 1
  else if st = stNamespace then 3
  else if st = stDenied then 4
  else if st = stReadOnly then 5
  else if st = stQuota then 6
  else if st = stCapacity then 7
  else if st = stFabric then 8
  else if st = stUnattainable then 9
  else if st = stRetry then 10
  else 2

/-- `a` comes before `b` in the order of R177; among field errors the lower value. -/
def ranksBefore (a b : Nat) : Bool := decide (rank a < rank b ∨ (rank a = rank b ∧ a < b))

/-- The first status of a list in the order of R177, none when the list is empty. -/
def firstStatus : List Nat → Option Nat
  | [] => none
  | a :: t => some (t.foldl (fun x y => if ranksBefore y x then y else x) a)

/-- A condition gives a status. -/
def errIf (c : Bool) (st : Nat) : List Nat := if c then [st] else []

/-- The field errors of one command (R177, position 2). A short client COMMAND has no other (R691). -/
def fieldErrors (c : Cmd) : List Nat :=
  if c.short then [stLength]
  else if knownOp c.opcode = false then [stOpcode]
  else
    let op := c.opcode
    let n := queryCount c.area
    errIf (isKeyed op && decide (c.keyLength = 0 ∨ 256 < c.keyLength)) stKeyLength ++
    errIf (usesLength op && decide (Config.maxValue < c.length)) stLength ++
    errIf (decide (op = 0x04 ∧ Config.maxValue < offsetOf c + c.length)) stLength ++
    errIf (decide (op = 0x09 ∧ bufferBytes c < 320)) stLength ++
    errIf (decide (op = 0x12 ∧ (4096 < n ∨ bufferBytes c < 32 + 32 * n))) stLength ++
    errIf (decide (op = 0x10 ∧ 64 < trickCount c)) stTrick ++
    errIf (decide (op = 0x08 ∧ (scopeOf c = 3 ∨ (scopeOf c = 2 ∧ areaHi c < areaLo c)))) stScope ++
    errIf (decide (c.listCount = 0) && (decide (op ∈ [0x01, 0x09, 0x12]) || (carriesData op && decide (0 < c.length))))
      stScatter ++
    errIf (c.listBad || (carriesData op && decide (c.listCount ≠ 0 ∧ listTotal c < c.length)) ||
      (decide (op ∈ [0x09, 0x12] ∧ c.listCount ≠ 0 ∧ listTotal c < c.length))) stScatter ++
    errIf c.dmaBad stDma

/-- The field errors of a trick as a whole (R159): a member of another kind or namespace, or lengths that sum to more than
the largest value. -/
def trickErrors (h : Cmd) (members : List Cmd) : List Nat :=
  errIf (members.any (fun m => !memberOp m.opcode || decide (m.ns ≠ h.ns)) ||
    decide (Config.maxValue < sumOf (fun m => if usesLength m.opcode then m.length else 0) members)) stTrick

/-- Statuses that Table 03-11 gives for a field error, so that a trick's other members carry TRICK_INVALID (R160). -/
def isFieldError (st : Nat) : Bool := decide (rank st = 2)

end Sys2Proof.Machine
end

