-- ==== Sys2Proof/Machine/Protect.lean ====
section
/-! DEFINITION. What mirror and spread coordination is built from (ch 06): holder sets, shards, the lead's answers, and the
sending of requests over fabric sessions. -/

namespace Sys2Proof.Machine

open Sys2Proof

/-! ## Holders (R307 to R309) -/

/-- Page 0x0505 of a namespace as a number, map_crc left 0 (Table 06-6). -/
def holderPage (x : Namespace) : Nat :=
  x.holders.length % 128 +
    sumOf (fun p => (p.1 % 2048 + 32768) * 2 ^ (16 * p.2 + 64)) x.holders.zipIdx +
    sumOf (fun p => p.1 % 2048 * 2 ^ (16 * (x.holders.length + p.2) + 64)) x.spare.zipIdx

/-- map_crc: CRC-32C of bits [31:0] and [1087:64] of the page (Table 06-6). -/
def mapCrc (x : Namespace) : Nat :=
  let v := holderPage x
  crc32c (natLe 4 v ++ natLe 128 (v / 2 ^ 64))

/-- Modules that hold a shard of one object (R309). -/
def shardCount (x : Namespace) : Nat := if x.protect = 1 then x.mirror else if x.protect = 2 then x.spreadK + x.spreadM else 1

/-- Shards that may be missing (R314). -/
def tolerance (x : Namespace) : Nat := if x.protect = 2 then x.spreadM else x.mirror - 1

/-- Holders of a key with digest `d`, holder 0 first (R309). -/
def keyHolders (s : State) (ns d : Nat) : List Nat :=
  let x := nsAt s ns
  let n := x.holders.length
  if n = 0 then []
  else (List.range (shardCount x)).map (fun i => x.holders.getD ((d / 2 ^ 96 % n + i) % n) 0)

/-- The key's recorders: holders 0 to t (R314). -/
def recorders (s : State) (ns d : Nat) : List Nat := (keyHolders s ns d).take (tolerance (nsAt s ns) + 1)

/-- The lead: the first holder that the fabric has not declared failed (R309, R313). -/
def leadOf (s : State) (ns d : Nat) : Option Nat := (keyHolders s ns d).find? (fun n => decide (n ∉ s.fab.dead))

/-- A module can be reached: this one, or one with a route that has not been declared failed. -/
def reachable (s : State) (n : Nat) : Bool :=
  decide (n = s.fab.nodeId) ||
  (decide (n ∉ s.fab.dead) && (match tfind s.fab.routes n with
    | some r => r.primary.isSome || r.alternate.isSome
    | none => false))

/-- A shard of this object is owed to the holder (R315). -/
def shardOwed (s : State) (ns d n : Nat) : Bool := s.fab.owedList.any (fun o => decide (o.ns = ns ∧ o.digest = d ∧ o.holder = n))

/-- The holder counts as failed for an object: it is out of reach, its shard is owed to it (R315), or it replaces a failed
holder and the rebuild of its namespace is not complete (R319). -/
def holderFailed (s : State) (ns d n : Nat) : Bool :=
  !reachable s n || shardOwed s ns d n || decide ((ns, n) ∈ s.fab.rebuilding)

/-- Too many holders of a key are failed for a write to succeed, or for a read to be served (R67, R318, Table 06-12). -/
def cutOff (s : State) (ns d : Nat) : Bool :=
  decide (tolerance (nsAt s ns) < ((keyHolders s ns d).filter (holderFailed s ns d)).length)

/-! ## Shards of a spread (R310) -/

/-- Multiplication by x in GF(2^8) with the polynomial 0x11D. -/
def gfDouble (a : Nat) : Nat := if 2 * a < 256 then 2 * a else (2 * a) ^^^ 0x11D

/-- The product of two field elements, over `n` bits of the second. -/
def gfMulBits : Nat → Nat → Nat → Nat
  | 0, _, _ => 0
  | n + 1, a, b => (if b % 2 = 1 then a else 0) ^^^ gfMulBits n (gfDouble a) (b / 2)

/-- The product of two field elements. -/
def gfMul (a b : Nat) : Nat := gfMulBits 8 a b

/-- `a` squared `n` times, each power multiplied in: a^(2 + 4 + … + 2^n). -/
def gfPow : Nat → Nat → Nat
  | 0, _ => 1
  | n + 1, a => gfMul (gfMul a a) (gfPow n (gfMul a a))

/-- The inverse a^254. -/
def gfInv (a : Nat) : Nat := gfPow 7 a

/-- c(j, i) of a spread with m parity shards. -/
def gfCoef (m j i : Nat) : Nat := gfInv (j ^^^ (m + i))

/-- Shard length of a value (R310). -/
def shardLen (k len : Nat) : Nat := ceilDiv (ceilDiv len k) 512 * 512

/-- The sum of `c` times each byte string, position by position. -/
def gfRow (n : Nat) : List (Nat × Bytes) → Bytes
  | [] => List.replicate n 0
  | (c, b) :: t => List.zipWith (fun (x y : Byte) => BitVec.ofNat 8 (gfMul c x.toNat) ^^^ y) b (gfRow n t)

/-- Data shards of a value. -/
def dataShards (k : Nat) (value : Bytes) : List Bytes :=
  let n := shardLen k value.length
  let v := value ++ List.replicate (k * n - value.length) 0
  (List.range k).map (fun i => (v.drop (i * n)).take n)

/-- All shards of a value: for a mirror the whole value each time, for a spread the data then the parity shards. -/
def shardBytes (x : Namespace) (value : Bytes) : List Bytes :=
  if x.protect = 2 then
    let d := dataShards x.spreadK value
    let n := shardLen x.spreadK value.length
    d ++ (List.range x.spreadM).map (fun j => gfRow n (d.zipIdx.map (fun p => (gfCoef x.spreadM j p.2, p.1))))
  else List.replicate x.mirror value

/-- The row of the code matrix that shard `i` stands for: data shards the unit rows, parity shards their coefficients. -/
def codeRow (k m i : Nat) : List Nat :=
  if i < k then (List.range k).map (fun c => if c = i then 1 else 0)
  else (List.range k).map (fun c => gfCoef m (i - k) c)

/-- One row scaled. -/
def gfScale (c : Nat) (r : List Nat × Bytes) : List Nat × Bytes :=
  (r.1.map (gfMul c), r.2.map (fun b => BitVec.ofNat 8 (gfMul c b.toNat)))

/-- One row added to another. -/
def gfAdd (a b : List Nat × Bytes) : List Nat × Bytes :=
  (List.zipWith (· ^^^ ·) a.1 b.1, List.zipWith (· ^^^ ·) a.2 b.2)

/-- Gaussian elimination from column `c` on, `n` columns left: rows done, rows to do. -/
def gfSolve : Nat → Nat → List (List Nat × Bytes) → List (List Nat × Bytes) → List (List Nat × Bytes)
  | 0, _, d, _ => d
  | n + 1, c, d, r =>
    match r.find? (fun x => decide (x.1.getD c 0 ≠ 0)) with
    | none => d
    | some p =>
      let q := gfScale (gfInv (p.1.getD c 0)) p
      let clear := fun (x : List Nat × Bytes) => gfAdd x (gfScale (x.1.getD c 0) q)
      gfSolve n (c + 1) (d.map clear ++ [q]) ((r.erase p).map clear)

/-- The value rebuilt from shards of one object (R310, R318). -/
def joinShards (x : Namespace) (l : List Shard) : Bytes :=
  match l with
  | [] => []
  | a :: _ =>
    if x.protect = 2 then
      let rows := (l.take x.spreadK).map (fun h => (codeRow x.spreadK x.spreadM h.index, h.value))
      (((gfSolve x.spreadK 0 [] rows).map (·.2)).flatten).take a.whole
    else a.value

/-! ## Sessions to peers (R299 to R306) -/

/-- The fabric session that this module has opened to a peer. -/
def linkTo (s : State) (node : Nat) : Option PeerLink := tfind s.fab.links node

/-- The session to a peer becomes `x`. -/
def setLink (node : Nat) (x : PeerLink) (s : State) : State :=
  { s with fab := { s.fab with links := tput s.fab.links node x } }

/-- The opener's credit (R302). -/
def creditLeft (c : PeerLink) : Nat := (c.grant + 2 ^ 32 - c.charged) % 2 ^ 32

/-- Units that a SHARD_HOLD costs (Table 06-8). -/
def holdUnits (key value : Nat) : Nat := recUnits key value + 1

/-- OPEN goes to a peer that can be reached and that no session leads to yet (R300); the request number stands in the sequence (log entry 96). -/
def openPeer (node : Nat) (s : State) : State :=
  if (linkTo s node).isSome ∨ s.fab.opens.any (fun p => decide (p.2 = node)) = true ∨ joined s = false ∨
      reachable s node = false then s
  else
    sendOwn 5 node 0 s.fab.nextReq 0 [] true
      { s with fab := { s.fab with opens := s.fab.opens ++ [(s.fab.nextReq, node)], nextReq := s.fab.nextReq + 1 } }

/-- The 64-byte block of a request (log entry 96): code, flags, namespace, deadline slot or units returned, digest, stamp,
version, hold deadline, suit, shard index, key length, whole length, k, m. A shard returned to a reader names the session and
the sequence of the SHARD_READ in place of the stamp. -/
def requestBlock (r : Request) : Bytes :=
  let h := r.sh
  let n := fun (g : Shard → Nat) => (h.map g).getD 0
  natBe 1 (if r.answer then 5 else r.code) ++
    natBe 1 (b2n r.ok + 2 * b2n r.medium + 4 * b2n (h.any (·.tombstone)) + 8 * b2n r.answer) ++ natBe 2 r.ns ++
    natBe 4 (if r.code = 0 then r.units else r.slot) ++ natBe 16 r.digest ++
    (if r.answer then natBe 8 r.own.1 ++ natBe 4 r.own.2 else natBe 12 (stampWord r.stamp)) ++ natBe 8 r.version ++
    natBe 8 r.deadline ++ natBe 1 (n (·.suit)) ++ natBe 1 (n (·.index)) ++ natBe 2 ((h.map (·.key)).getD r.key).length ++
    natBe 4 (n (·.whole)) ++ natBe 1 (n (·.spreadK)) ++ natBe 1 (n (·.spreadM)) ++ natBe 2 0

/-- The payload of a request in DATA frames: its block, its key, its shard (R314). -/
def requestBytes (r : Request) : Bytes :=
  requestBlock r ++ (r.sh.map (·.key)).getD r.key ++ (r.sh.map (·.value)).getD []

/-- Units of the requests that wait for a peer's session or credit (R302). -/
def unsentUnits (s : State) (node : Nat) : Nat := sumOf (fun p => if p.1 = node then p.2.units else 0) s.fab.unsent

/-- A request leaves in DATA frames of the session to a peer. The word states as wanted what is charged and not yet
acknowledged and what waits for credit (R303). -/
def dataFrame (node session wanted : Nat) (r : Request) (s : State) : State :=
  sendMessage 7 node session r.seq (wanted % 2 ^ 32) (requestBytes r) r.bounded s

/-- A request is numbered, charged, kept until acknowledged, and sent (R301, R302). A shard returned to a reader is no request of
Table 06-8: it goes in DATA frames of the session without a sequence of its own (log entry 21). -/
def launch (node : Nat) (x : PeerLink) (r : Request) (s : State) : State :=
  if r.answer then dataFrame node x.session (x.wanted + unsentUnits s node) r s
  else
  let q := { r with seq := x.nextSeq, at_ := now s }
  let y := { x with nextSeq := seqAdd x.nextSeq 1, charged := (x.charged + r.units) % 2 ^ 32,
                    unacked := x.unacked ++ [q], wanted := x.wanted + r.units, idleAt := now s }
  dataFrame node x.session (y.wanted + unsentUnits s node) q (setLink node y s)

/-- A request to a peer is sent within the session's credit; one that finds no session yet or not enough credit waits in
turn (R300, R302). -/
def sendRequest (node : Nat) (r : Request) (s : State) : State :=
  let later_ := { s with fab := { s.fab with unsent := s.fab.unsent ++ [(node, r)] } }
  match linkTo s node with
  | none => openPeer node later_
  | some x =>
    if s.fab.unsent.any (fun p => decide (p.1 = node)) = true ∨ creditLeft x < r.units then later_ else launch node x r s

/-- Waiting requests to a peer follow in their order as far as its credit goes; the count bounds them. -/
def drainUnsent (node : Nat) : Nat → State → State
  | 0, s => s
  | n + 1, s =>
    match linkTo s node, s.fab.unsent.find? (fun p => decide (p.1 = node)) with
    | some x, some p =>
      if creditLeft x < p.2.units then s
      else drainUnsent node n (launch node x p.2 { s with fab := { s.fab with unsent := s.fab.unsent.erase p } })
    | _, _ => s

/-- Every request that waits for a peer is tried. -/
def drainPeer (node : Nat) (s : State) : State := drainUnsent node (s.fab.unsent.length + 1) s

/-! ## The lead (R311 to R313) -/

/-- The highest version that this module knows for a key: of its own shard and of the outcomes recorded here (R313). -/
def knownVersion (s : State) (ns d : Nat) (key : Option Bytes) : Nat :=
  let mine := match (candidates s ns d).filterMap (fun c => match recordAt s c.2 with
      | some r => if r.ns = ns ∧ r.digest = d ∧ (key = none ∨ key = some r.key) then some r.version else none
      | none => none) with
    | [] => 0
    | a :: t => t.foldl max a
  let said := ((s.fab.decisions.filter (fun x => decide (x.ns = ns ∧ x.digest = d) && x.ok)).map (·.version)).foldl max 0
  max mine said

/-- Holders that hold the key committed, as far as the lead knows: every holder not declared failed and not owed a shard
(R311, R315, R319). -/
def committedHolders (s : State) (ns d : Nat) : List Nat :=
  (keyHolders s ns d).filter (fun n => decide (n ∉ s.fab.dead) && !shardOwed s ns d n)

/-- A write order still held on a digest (R312). -/
def heldOrder (s : State) (ns d : Nat) : Option WriteOrder :=
  s.fab.orders.find? (fun o => decide (o.ns = ns ∧ o.digest = d ∧ now s < o.until_))

/-- With node `n` failed, this module is the lead of keys that `n` comes before it as a holder of (R309, R313). -/
def succeeds (s : State) (n : Nat) : Bool :=
  s.nss.any (fun p => decide (p.2.protect ≠ 0) && (List.range p.2.holders.length).any (fun i =>
    let l := (List.range (shardCount p.2)).map (fun j => p.2.holders.getD ((i + j) % p.2.holders.length) 0)
    let before := l.takeWhile (fun m => decide (m ≠ s.fab.nodeId))
    decide (s.fab.nodeId ∈ l ∧ n ∈ before) && before.all (fun m => decide (m = n ∨ m ∈ s.fab.dead))))

/-- This module has become lead and still waits one horizon after its predecessor was declared failed: it grants no order on any
digest until then (R313). -/
def leadWaits (s : State) : Option Nat :=
  match (s.fab.leadFrom.filter (fun p => decide (now s < p.2))).map (·.2) with
  | [] => none
  | a :: t => some (t.foldl max a)

/-- The lead answers ORDER (R311). Reads under way keep no order: a write waits for none of them. -/
def leadAnswer (ns d crc : Nat) (write : Bool) (src until_ : Nat) (s : State) : State × OrderAnswer :=
  if crc ≠ mapCrc (nsAt s ns) then (s, .mismatch)
  else
    match leadWaits s with
    | some t => (s, .busy t)
    | none =>
      match heldOrder s ns d with
      | some o => (s, .busy o.until_)
      | none =>
        let v := knownVersion s ns d none
        if write then
          let rest := s.fab.orders.filter (fun o => !decide (o.ns = ns ∧ o.digest = d))
          ({ s with fab := { s.fab with orders := rest ++ [{ ns := ns, digest := d, src := src, until_ := until_ }] } },
           .writeOrder v)
        else (s, .readGrant v (committedHolders s ns d))

/-- A write order on a digest ends (R312). -/
def endOrder (ns d : Nat) (s : State) : State :=
  { s with fab := { s.fab with orders := s.fab.orders.filter (fun o => !decide (o.ns = ns ∧ o.digest = d)) } }

/-- A command's order, if it has asked for one. -/
def orderFor (s : State) (id seq : Nat) : Option OrderOut :=
  s.fab.orderOut.find? (fun o => decide (o.session = id ∧ o.seq = seq))

/-- ORDER (R311): the digest, the map_crc, read or write; the end of the coordinator's deadline slot goes with it (R312), and 0
there returns the order (log entries 23 and 96). -/
def orderFrame (lead request ns d crc : Nat) (write : Bool) (until_ : Nat) (s : State) : State :=
  sendOwn 10 lead 0 request 0 (natBe 2 ns ++ natBe 16 d ++ natBe 4 crc ++ natBe 1 (b2n write) ++ natBe 8 until_) true s

/-- A command asks the lead for an order: this module answers itself when it is the lead, else ORDER is sent (R311,
Table 06-5). -/
def askOrder (id seq ns d until_ : Nat) (write : Bool) (s : State) : State :=
  match leadOf s ns d with
  | none => s
  | some l =>
    let o : OrderOut := { request := s.fab.nextReq, session := id, seq := seq, ns := ns, digest := d, write := write,
                          lead := l, at_ := now s }
    let crc := mapCrc (nsAt s ns)
    let s1 := { s with fab := { s.fab with nextReq := s.fab.nextReq + 1 } }
    if l = s.fab.nodeId then
      match leadAnswer ns d crc write l until_ s1 with
      | (s2, a) => { s2 with fab := { s2.fab with orderOut := s2.fab.orderOut ++ [{ o with answer := some a }] } }
    else
      orderFrame l o.request ns d crc write until_
        { s1 with fab := { s1.fab with orderOut := s1.fab.orderOut ++ [o] } }

/-- A command's order is given up; a write order granted by the lead is returned at once (R312). -/
def dropOrder (id seq : Nat) (s : State) : State :=
  match orderFor s id seq with
  | none => s
  | some o =>
    let s1 := { s with fab := { s.fab with orderOut := s.fab.orderOut.filter (fun x => !decide (x.session = id ∧ x.seq = seq)) } }
    match o.answer with
    | some (.writeOrder _) =>
      if o.lead = s.fab.nodeId then endOrder o.ns o.digest s1
      else orderFrame o.lead o.request o.ns o.digest 0 true 0 s1
    | _ => s1

/-- A command keeps what its order said and the order request is settled. -/
def takeOrder (id seq : Nat) (s : State) : State :=
  { s with fab := { s.fab with orderOut := s.fab.orderOut.filter (fun x => !decide (x.session = id ∧ x.seq = seq)) } }

end Sys2Proof.Machine
end

