-- ==== Sys2Proof/Machine/Costing.lean ====
section
/-! DEFINITION. What a command costs (Tables 04-4, 04-5, 01-6): its path, its cost shape, kitty bytes, pool debits and
the row of a medium-mode write. -/

namespace Sys2Proof.Machine

open Sys2Proof

/-! ## Modes and paths -/

/-- The effective mode is medium (R148). -/
def mediumNow (s : State) (ns : Nat) : Bool :=
  (nsAt s ns).medium || decide (s.pwr.cap = 0) || (s.pwr.valid && decide (s.pwr.health < 60))

/-- Every namespace completes in medium mode (Table 05-6). -/
def forcedMedium (s : State) : Bool := decide (s.pwr.cap = 0) || (s.pwr.valid && decide (s.pwr.health < 60))

/-- forced_medium_all of Table 05-6: 0 until the module serves (R17, log entry 15). -/
def forcedAll (s : State) : Bool := decide (s.boot.stage = 4) && forcedMedium s

/-- A command with what admission resolved for it: the namespace acted on, digest, suit, mode and classifier result. -/
structure Job where
  session : Nat
  seq     : Nat
  cmd     : Cmd
  ns      : Nat
  digest  : Nat
  suit    : Nat
  medium  : Bool
  trick   : Option Nat
  qos     : Nat
  tenant  : Nat
  deriving DecidableEq, Repr

/-- The namespace of a job is protected and the job works on a key of it (R311). -/
def guarded (s : State) (j : Job) : Bool := isKeyed j.cmd.opcode && decide ((nsAt s j.ns).protect ≠ 0)

/-- Overlap entries of a digest exist. -/
def digestBusy (s : State) (ns d : Nat) : Bool := s.dlr.overlap.any (fun o => decide (o.ns = ns ∧ o.digest = d))

/-- The fast path (R39, Table 01-6). -/
def fastPath (s : State) (j : Job) : Bool :=
  let c := j.cmd
  decide (c.keyLength ≤ 32) && j.trick.isNone &&
  (match c.opcode with
   | 0x01 => match lookup s j.ns c.key with
     | none => true
     | some f => decide (f.item.value.length ≤ 4096) || (f.entry.inDram && decide (f.item.value.length ≤ 65536))
   | 0x06 => true
   | 0x02 => decide (c.length ≤ 4096) && !j.medium && decide ((nsAt s j.ns).protect = 0) && !digestBusy s j.ns j.digest
   | 0x03 => decide ((nsAt s j.ns).protect = 0)
   | _ => false)

/-! ## Stages -/

/-- What a command or a trick's member costs. A debit gives the stream, its program time and its record bytes; `stuck` says
that no meld can take a medium-mode write. -/
structure Bill where
  shape  : List Cost := []
  kitty  : Nat := 0
  debits : List (Nat × Nat × Nat) := []
  record : Nat := 0
  tomb   : Nat := 0
  /-- Units of the request that carries a shard of a protected write to another holder (Table 06-8). -/
  units  : Nat := 0
  stuck  : Bool := false
  deriving DecidableEq, Repr

/-- Record bytes (Table 04-4). -/
def recordBytes (written key : Nat) : Nat := 512 * recUnits key written

/-- Outbound bytes of read data (Table 04-5, R686). -/
def outStage (s : State) (x : Session) (n : Nat) : List Cost :=
  if n = 0 then []
  else match x.kind with
    | .client => [.use (.trunk true x.trunk)
        (n + ceilDiv n (x.maxDgram - 32) * (32 + datagramOver s x.trunk x.addr))]
    | _ => [.use (.hostOut x.port) n]

/-- The completion (Table 04-4, R686). -/
def doneStage (s : State) (x : Session) : List Cost :=
  match x.kind with
  | .client => [.use (.trunk true x.trunk) (64 + datagramOver s x.trunk x.addr)]
  | _ => [.use (.hostOut x.port) 32]

/-- The core path (Table 04-4), with `more` hundredths of a core-µs on top. -/
def coreStage (fast : Bool) (moved more : Nat) : List Cost :=
  if fast then [] else [.use (.core 0) (150 + 10 * ceilDiv moved 65536 + more)]

/-- Codeword addresses that bytes `first` to `first + n - 1` of the record at `loc` lie in. -/
def codewordsAt (loc first n : Nat) : List Nat :=
  if n = 0 then []
  else (List.range ((loc * 512 + first + n - 1) / 4096 - (loc * 512 + first) / 4096 + 1)).map
    (fun i => ((loc * 512 + first) / 4096 + i) * 8)

/-- A stage of codeword reads (R685). -/
def readStage (s : State) (l : List Nat) : List Cost :=
  if l = [] then [] else [.reads (l.flatMap (codewordReads s))]

/-- The codeword of a record's header. -/
def headerRead (f : Found) : List Nat := if f.entry.inDram then [] else [f.entry.loc / 8 * 8]

/-- The codewords of a record that a write of bytes `a` to `b - 1` of it does not wholly replace (Table 04-5). -/
def keptReads (f : Found) (a b : Nat) : List Nat :=
  if f.entry.inDram then []
  else
    let lo := f.entry.loc * 512
    let hi := lo + 512 * f.item.units
    (codewordsAt f.entry.loc 0 (512 * f.item.units)).filter (fun c =>
      !decide (lo + a ≤ max (c * 512) lo ∧ min (c * 512 + 4096) hi ≤ lo + b))

/-- The value length of a stored record as its index entry bounds it (R380). -/
def boundLength (f : Found) : Nat := codeBytes f.entry.code - 64 - f.item.key.length

/-- The bytes of a range that a GET returns, before the data list cuts them (R115). -/
def getRange (c : Cmd) (len : Nat) : Nat :=
  if len < offsetOf c then 0 else if c.length = 0 then len - offsetOf c else min c.length (len - offsetOf c)

/-- Program time that a write debits: its own, throttled with the reads of R470. -/
def debitCost (s : State) (record : Nat) : Nat :=
  programCost record * s.med.factor / 256 + record * 675 * (s.med.factor - 256) / (256 * 4096)

/-- The row programs of a medium-mode record in the meld of its stream: the meld, the state with that meld ready, and the
stages (R683). -/
def rowStages (stream : Nat) (tomb : Bool) (set : Option Nat) (units : Nat) (s : State) : Option (Nat × Nat × State × List Cost) :=
  match meldFor stream tomb set units s with
  | none => none
  | some (n, s1) =>
    let m := meldAt s1 n
    let ru := rowUnits m
    let u := alignUnit m units
    let first := if m.next % ru = 0 then u / ru else m.next / ru
    let count := (u + units - 1) / ru - first + 1
    let mine := fun r => min (u + units) ((r + 1) * ru) - max u (r * ru)
    let stages := (List.range count).map (fun i =>
      Cost.program (meldDies n m) (if i = 0 then m.lastEnd + 1 else 0) n (512 * (unitsIn m (first + i) + mine (first + i))))
    some (n, count, s1, stages)

/-- The state in which a row of the meld has been given to a medium-mode record, for costing the next one. -/
def rowTaken (n units : Nat) (s : State) : State :=
  let m := meldAt s n
  setMeld n { m with next := (alignUnit m units + units + rowUnits m - 1) / rowUnits m * rowUnits m, headers := 0 } s

/-- A write of a record (Table 04-5): inbound data, index, core path, reads before the hold, the hold, then the pool debit
and kitty bytes of buffer mode or the row programs of medium mode, then the completion. -/
def billWrite (x : Session) (j : Job) (set : Option Nat) (fast : Bool) (record suit : Nat) (pre : List Nat) (moved : Nat)
    (s : State) : Bill × State :=
  let inb := match x.kind with
    | .host => if 4096 < moved then [Cost.use (.hostIn x.port) moved] else []
    | _ => []
  let front := inb ++ [.use .index 2] ++ coreStage fast moved 0 ++ readStage s pre ++ [.use .dram (2 * record)]
  if j.medium then
    match rowStages suit (decide (j.cmd.opcode = 0x03)) set (record / 512) s with
    | none => ({ shape := front ++ [.wait 69] ++ doneStage s x, record := record, stuck := true }, s)
    | some (n, _, s1, p) => ({ shape := front ++ p ++ doneStage s x, record := record }, rowTaken n (record / 512) s1)
  else
    ({ shape := front ++ doneStage s x, kitty := record, debits := [(suit, debitCost s record, record)], record := record }, s)

/-- The extra stages of a protected command at its coordinator: the shards' egress, parity work and the fabric allowance
(Table 04-5, R316). `bytes` is the value moved. -/
def fabricStages (s : State) (j : Job) (bytes : Nat) (write : Bool) : List Cost :=
  let x := nsAt s j.ns
  let shard := if x.protect = 2 then shardLen x.spreadK bytes else bytes
  let payload := 64 + j.cmd.keyLength + (if write then shard else 0)
  let peers := (keyHolders s j.ns j.digest).filter (fun n => decide (n ≠ s.fab.nodeId))
  let hop := fun n => match tfind s.fab.routes n with | some r => r.primary.getD n | none => n
  let egress := peers.map (fun n => Cost.use (.trunk false (hop n)) (payload + 70 * max 1 (ceilDiv payload 8192)))
  let parity := if x.protect = 2 ∧ write = true then [Cost.use (.core 0) (ceilDiv (100 * bytes) 1048576)] else []
  let gap := s.fab.allowUs + (if j.medium ∧ write = true then 1500 else 0)
  parity ++ egress ++ [.wait (ceilDiv (gap * 1000) Config.slotNs)]

/-- The local part of a protected command (Table 04-5): index, core path, the shard held here, the fabric, completion. -/
def billGuarded (x : Session) (j : Job) (set : Option Nat) (s : State) : Bill × State :=
  let n := nsAt s j.ns
  let c := j.cmd
  let write := isWrite c.opcode
  let stored := match lookup s j.ns c.key with
    | some f => if n.protect = 2 then f.item.whole else f.item.value.length
    | none => 0
  let whole := match c.opcode with
    | 0x03 => 0
    | 0x04 => max stored (offsetOf c + c.length)
    | 0x05 => stored + c.length
    | 0x01 => stored
    | _ => c.length
  let shard := if n.protect = 2 then shardLen n.spreadK whole else whole
  let record := if c.opcode = 0x03 then 512 else recordBytes shard c.keyLength
  let mine := decide (s.fab.nodeId ∈ keyHolders s j.ns j.digest)
  let fab := fabricStages s j whole write
  if write then
    if mine then
      match billWrite x j set false record j.suit [] (if carriesData c.opcode then c.length else 0) s with
      | (b, s1) =>
        let tomb := decide (c.opcode = 0x03)
        ({ b with shape := b.shape.dropLast ++ fab ++ doneStage s x, record := if tomb then 0 else b.record,
                  tomb := if tomb then 512 else 0, units := record / 512 + 1 }, s1)
    else
      let inb := match x.kind with
        | .host => if 4096 < c.length ∧ carriesData c.opcode then [Cost.use (.hostIn x.port) c.length] else []
        | _ => []
      ({ shape := inb ++ [.use .index 2] ++ coreStage false c.length 0 ++ fab ++ doneStage s x, units := record / 512 + 1 }, s)
  else
    let out := if c.opcode = 0x01 then outStage s x (min (getRange c stored) (listTotal c)) else []
    ({ shape := [.use .index 1] ++ fab ++ out ++ doneStage s x ++ coreStage (fastPath s j) 0 0, units := 1 }, s)

/-- The bill of one unguarded command whose object's entry, if it has one, is `found` (Table 04-5). -/
def billPlain (x : Session) (j : Job) (set : Option Nat) (fast : Bool) (found : Option Found) (s : State) : Bill × State :=
  let c := j.cmd
  match c.opcode with
  | 0x01 =>
    match found with
    | none => ({ shape := [.use .index 1] ++ doneStage s x ++ coreStage fast 0 0 }, s)
    | some f =>
      let n := getRange c f.item.value.length
      let got := min n (listTotal c)
      if f.entry.inDram then
        ({ shape := [.use .index 1] ++ (if n = 0 then [] else [.use .dram (2 * n)]) ++ outStage s x got ++ doneStage s x ++
                    coreStage fast got 0 }, s)
      else
        let w := codewordsAt f.entry.loc (64 + f.item.key.length + offsetOf c) n
        let h := f.entry.loc / 8 * 8
        let l := if h ∈ w then w else h :: w
        let stage := if (fast = false ∨ 4096 < n) ∧ n ≠ 0 then [Cost.use .dram (2 * n)] else []
        ({ shape := [.use .index 1] ++ readStage s l ++ stage ++ outStage s x got ++ doneStage s x ++
                    coreStage fast got 0 }, s)
  | 0x06 =>
    let l := match found with | some f => headerRead f | none => []
    ({ shape := [.use .index 1] ++ readStage s l ++ doneStage s x ++ coreStage fast 0 0 }, s)
  | 0x02 => billWrite x j set fast (recordBytes c.length c.keyLength) j.suit [] c.length s
  | 0x07 =>
    let l := match found with | some f => headerRead f | none => []
    billWrite x j set fast (recordBytes c.length c.keyLength) j.suit l c.length s
  | 0x03 =>
    let suit := match found with | some f => f.item.suit | none => j.suit
    match billWrite x j set fast 512 suit [] 0 s with
    | (b, s1) => ({ b with record := 0, tomb := 512 }, s1)
  | 0x04 =>
    match found with
    | none => billWrite x j set fast (recordBytes (offsetOf c + c.length) c.keyLength) j.suit [] c.length s
    | some f =>
      let a := 64 + f.item.key.length + offsetOf c
      billWrite x j set fast (recordBytes (max (boundLength f) (offsetOf c + c.length)) c.keyLength) f.item.suit
        (keptReads f a (a + c.length)) c.length s
  | 0x05 =>
    match found with
    | none => billWrite x j set fast (recordBytes c.length c.keyLength) j.suit [] c.length s
    | some f =>
      billWrite x j set fast (recordBytes (boundLength f + c.length) c.keyLength) f.item.suit (keptReads f 0 0) c.length s
  | 0x08 => ({ shape := coreStage false 0 0 ++ [.use .index 1] ++ doneStage s x, tomb := 512 }, s)
  | 0x09 =>
    let room := bufferBytes c
    let n := if maxEntries c = 0 then (room - 32) / 40 else maxEntries c
    let first := groupOf (bucket1 (areaLo c))
    let found := (allEntries s).filter (fun p => !p.2.inDram && (match recordAt s p.2 with
      | some r => decide (r.ns = j.ns ∧ r.kind = 0 ∧ areaLo c ≤ r.digest ∧ groupOf (bucket1 r.digest) < first + s.idx.scanMax)
      | none => false))
    let l := (found.take n).map (fun p => p.2.loc / 8 * 8)
    ({ shape := coreStage false room (100 * ceilDiv n 16) ++ [.use .dram (262144 * s.idx.scanMax)] ++ readStage s l ++
                outStage s x room ++ doneStage s x }, s)
  | 0x12 =>
    let n := queryCount c.area
    ({ shape := coreStage false (32 + 32 * n) n ++ (if n = 0 then [] else [.use .dram (8 * n)]) ++
                outStage s x (32 + 32 * n) ++ doneStage s x }, s)
  | _ => ({ shape := doneStage s x }, s)

/-- The bill of one command other than a trick's header (Table 04-5). -/
def billOf (x : Session) (j : Job) (set : Option Nat) (s : State) : Bill × State :=
  if guarded s j then billGuarded x j set s else billPlain x j set (fastPath s j) (lookup s j.ns j.cmd.key) s

/-- Bills of commands one after another, each against the state the earlier ones leave for costing. -/
def billAll (x : Session) (set : Option Nat) : List Job → State → List Bill
  | [], _ => []
  | j :: t, s =>
    match billOf x j set s with
    | (b, s1) => b :: billAll x set t s1

/-- The bill of an admission step: a command alone, or a trick's header with its members in member order (Table
04-5). -/
def billStep (x : Session) (set : Option Nat) (h : Job) (members : List Job) (s : State) : Bill × List Bill :=
  if h.cmd.opcode = 0x10 then
    let l := billAll x set members s
    ({ shape := [.use (.core 0) 200] ++ l.flatMap (·.shape) ++ doneStage s x, stuck := l.any (·.stuck) }, l)
  else
    match billOf x h set s with
    | (b, _) => (b, [])

end Sys2Proof.Machine
end

