-- ==== Sys2Proof/Machine/Dealer.lean ====
section
/-! DEFINITION. The Dealer's admission step (R40): field checks, classifier, orders of protected keys, the Ante unit, and
either refusal or acceptance (ch 02 to ch 04). -/

namespace Sys2Proof.Machine

open Sys2Proof

/-! ## Resolving a command -/

/-- The staged write data of a handle, once the stage is complete (R332). -/
def stageData (s : State) (id handle : Nat) : Option Bytes :=
  match s.fab.stages.find? (fun p => decide (p.1 = id ∧ p.2.handle = handle)) with
  | none => none
  | some p => match p.2.total with
    | none => none
    | some n => if (p.2.bytes.filter (fun c => decide (c.1 < n))).length = n then some ((p.2.bytes.take n).map (·.2)) else none

/-- A client's command with its staged data in place; a write whose data is incomplete or short is refused with
SCATTER_LIST_INVALID (R332). -/
def withStage (s : State) (x : Session) (id : Nat) (c : Cmd) : Cmd × List Nat :=
  match x.kind with
  | .client =>
    if carriesData c.opcode = false ∨ c.data.isSome = true ∨ c.short = true then (c, [])
    else if c.stage = 0 then (c, [stScatter])
    else
      match stageData s id c.stage with
      | some d => if d.length < c.length then (c, [stScatter]) else ({ c with data := some (d.take c.length) }, [])
      | none => (c, [stScatter])
  | _ => (c, [])

/-- The source code of a session for the classifier (Table 08-7). -/
def sourceOf (x : Session) : Nat := match x.kind with | .host => 0 | .client => 1 | .fabric => 2

/-- The command key of a command of a session: a member is searched with its header's namespace and class (R688, Table
08-7). -/
def keyFor (x : Session) (c : Cmd) (ns cls : Nat) : Nat :=
  commandKey (sourceOf x) (match x.kind with | .host => x.port | .client => x.trunk | .fabric => 0) ns c.opcode cls x.ctx
    (match x.kind with | .client => x.clientId | .fabric => x.credit.peer | .host => 0)

/-- The opcode names a namespace (Table 03-4). -/
def namesNs (op : Nat) : Bool := decide (op ≠ 0x11 ∧ op ≠ 0x12)

/-- A JOURNAL_QUERY may not ask for its target (R137). -/
def queryDenied (s : State) (x : Session) (target : Nat) : Bool :=
  match x.kind with
  | .host => !decide (target / 2 ^ 52 = 0 ∧ bits target 51 50 = x.port)
  | .client => !decide (tfind s.fab.owners target = some x.clientId)
  | .fabric => true

/-- The suit field takes part in a command (R109, Table 03-5): DELETE and PUT_AT do not use it. -/
def usesSuit (op : Nat) : Bool := decide (op ≠ 0x03 ∧ op ≠ 0x04)

/-- What admission resolves for one command of the step; `head` is the trick's header or the command itself. -/
def jobOf (s : State) (r : Rule) (id seq : Nat) (head c : Cmd) (trick : Option Nat) : Job :=
  let ns := match r.remap with | some n => n | none => head.ns
  let digest := if isKeyed c.opcode then digestOf s ns c.key else 0
  { session := id, seq := seq, cmd := { c with cls := head.cls }, ns := ns, digest := digest,
    suit := if c.suitGiven ∧ usesSuit c.opcode = true then c.suit else (nsAt s ns).suit,
    medium := mediumNow s ns, trick := trick, qos := r.qos, tenant := r.tenant }

/-! ## Refusals of ranks 5 to 9 (R177 to R179, R395, R476, R477) -/

/-- expiring_bytes (R476). -/
def expiringBytes (s : State) : Nat :=
  sumOf (fun p => match expiryOf s p.2 with
    | some t => if t < horizonTime s then liveBytes s p.1 else 0
    | none => 0) (meldsIn s .full)

/-- user_bytes (R476): every VALUE record that an entry points to, and every admitted write not yet committed. -/
def userBytes (s : State) : Nat :=
  sumOf (fun p => match recordAt s p.2 with
    | some r => if r.kind = 0 then 512 * r.units else 0
    | none => 0) (allEntries s) +
  sumOf (fun f => f.record) s.dlr.inflight

/-- The length of the stored value of a key, of the whole value where it is spread; 0 when none is stored. -/
def storedLength (s : State) (ns : Nat) (key : Bytes) : Nat :=
  match lookup s ns key with
  | some f => if (nsAt s ns).protect = 2 then f.item.whole else f.item.value.length
  | none => 0

/-- The growth that the quota check counts (R179). -/
def growth (s : State) (j : Job) : Int :=
  match j.cmd.opcode with
  | 0x02 => (j.cmd.length : Int) - storedLength s j.ns j.cmd.key
  | 0x07 => (j.cmd.length : Int) - storedLength s j.ns j.cmd.key
  | 0x04 => j.cmd.length
  | 0x05 => j.cmd.length
  | _ => 0

/-- The command may create an object (R393, R395). -/
def mayCreate (op : Nat) : Bool := decide (op ∈ [0x02, 0x05, 0x07])

/-- Running sums over the members of a trick: growth, record bytes, created objects. -/
abbrev Sums := Int × Nat × Nat

/-- The refusals of ranks 5 to 8 that one command meets, and the sums after it. -/
def laterErrors (s : State) (j : Job) (b : Bill) (m : Sums) : List Nat × Sums :=
  let op := j.cmd.opcode
  let g := growth s j
  let x := nsAt s j.ns
  let value := isWrite op && decide (op ≠ 0x03)
  let errs :=
    errIf (s.boot.readOnly && (isWrite op || decide (op = 0x08))) stReadOnly ++
    errIf (value && decide (x.quota ≠ 0 ∧ 0 < g ∧ (x.quota : Int) < x.bytes + m.1 + g)) stQuota ++
    errIf (value && decide (Config.userCapacity + expiringBytes s < userBytes s + m.2.1 + b.record)) stCapacity ++
    errIf (decide (op ∈ [0x03, 0x08] ∧ Config.tombReserve < s.med.tombBytes)) stCapacity ++
    errIf (mayCreate op && decide (Config.maxObjects < objectCount s + createReserved s + m.2.2 + 1)) stCapacity ++
    errIf (guarded s j && (cutOff s j.ns j.digest || (leadOf s j.ns j.digest).isNone)) stFabric
  (errs, (m.1 + g, m.2.1 + b.record, m.2.2 + b2n (mayCreate op)))

/-- The refusals of ranks 5 to 8 of each command of the step in turn. DESIGN CHOICE, log entry 86: the members of a trick are
checked in member order against the sums over the members before them, a shrinking member's growth among them. -/
def laterAll (s : State) : List (Job × Bill) → Sums → List (List Nat)
  | [], _ => []
  | (j, b) :: t, m =>
    match laterErrors s j b m with
    | (e, m1) => e :: laterAll s t m1

/-- The bound of a class in µs; D7 has none (R180). -/
def boundOf (s : State) (cls : Nat) : Nat := s.ante.bounds.getD cls 0

/-- DEADLINE_UNATTAINABLE beside the calendar: ENUMERATE outside D6 and D7 (R113), medium-mode writes and to_medium below
the minimum (R134, R151), D0 without its memory conditions (R512), a shard beyond the session window. -/
def hopeless (s : State) (cls : Nat) (j : Job) (b : Bill) : Bool :=
  let op := j.cmd.opcode
  decide (op = 0x09 ∧ cls < 6) ||
  (decide (cls < 7 ∧ boundOf s cls < 1500) && ((isWrite op && j.medium) || (decide (op = 0x11) && toMedium j.cmd))) ||
  (decide (cls = 0) && (!s.mem.trumpEn || !bit s.mem.privNow 0 || !bit s.mem.privNow 6)) ||
  (guarded s j && isWrite op && decide (s.fab.windowMib * 1048576 < b.record))

/-! ## Overlap (R153 to R157) -/

/-- The overlap range of a command (Table 03-5). -/
def overlapRange (c : Cmd) : Nat × Option Nat :=
  match c.opcode with
  | 0x01 => (offsetOf c, if c.length = 0 then none else some (offsetOf c + c.length))
  | 0x04 => (offsetOf c, some (offsetOf c + c.length))
  | _ => (0, none)

/-- Two ranges overlap (R155): they share a byte, or one runs to the end of the value or is the whole key. -/
def rangesMeet (a b : Nat × Option Nat) : Bool :=
  match a.2, b.2 with
  | none, _ => true
  | _, none => true
  | some x, some y => decide (max a.1 b.1 < min x y)

/-- The entries that a command waits on (R156): overlapping ones with earlier stamps, a read only on writes. -/
def waitsOn (l : List Overlap) (ns d : Nat) (c : Cmd) : List Overlap :=
  l.filter (fun o => decide (o.ns = ns ∧ o.digest = d) && (isWrite c.opcode || o.write) &&
    rangesMeet (overlapRange c) (o.start, o.stop))

/-! ## Earliest times (R194) -/

/-- When each row that holds buffer-mode bytes frees them: time and bytes. -/
def kittyRows (s : State) : List (Nat × Nat) :=
  s.med.melds.flatMap (fun p => (p.2.asm.filter (fun y => decide (0 < y.kitty))).map (fun y =>
    let row := y.addr % Config.meldSpan / rowUnits p.2
    let t := match p.2.programs.find? (fun q => decide (q.1 = row)) with
      | some q => (q.2 + 69) * Config.slotNs
      | none =>
        if s.med.sealMs = 0 then horizonTime s
        else min (horizonTime s)
          ((slotOf ((p.2.asmAt.getD (now s)) + s.med.sealMs * 1000000) + 70) * Config.slotNs)
    (t, y.kitty)))

/-- The end of the slot in which `need` more kitty bytes will have been freed. -/
def kittyTime (s : State) (need : Nat) : Nat :=
  let rows := kittyRows s
  let times := (rows.map (·.1)).filter (fun t => decide (need ≤ sumOf (fun r => if r.1 ≤ t then r.2 else 0) rows))
  match times with
  | [] => horizonTime s
  | a :: t => leastOf id a t

/-- The deadline of an accepted command: its stamp time plus its bound, the end of its deadline slot for D7. -/
def deadlineOf (f : InFlight) : Nat :=
  if f.cmd.cls = 7 then (f.deadline + 1) * Config.slotNs else f.stamp.time + f.bound * 1000

/-- The command at or before sequence s − 4,096 that is still in flight (R71). -/
def windowBlock (s : State) (id seq : Nat) : Option InFlight :=
  (inflightOf s id).find? (fun f => !later f.seq (seqBack seq))

/-- The start of the next slot. -/
def nextSlotTime (s : State) : Nat := (slotOf (now s) + 1) * Config.slotNs

/-- Peers that a protected command needs a session to: the other holders of its key that can be reached; none for a read that
this module's own copy of a mirror serves (R318). -/
def peersOf (s : State) (j : Job) : List Nat :=
  let hs := keyHolders s j.ns j.digest
  if guarded s j = false then []
  else if isWrite j.cmd.opcode = false ∧ (nsAt s j.ns).protect = 1 ∧ s.fab.nodeId ∈ hs then []
  else hs.filter (fun n => decide (n ≠ s.fab.nodeId) && reachable s n)

/-- Units that an accepted protected command still reserves of the session credit of peer `n`: the request it has yet to send,
and the DECIDE after a write (R42, Table 06-8). -/
def creditHeld (s : State) (n : Nat) : Nat :=
  sumOf (fun f => match f.prot with
    | none => 0
    | some p =>
      if n ∉ p.holders then 0
      else match f.phase with
        | .planned => if isWrite f.cmd.opcode && p.decided.isNone then 1 else 0
        | _ => f.units + b2n (isWrite f.cmd.opcode)) s.dlr.inflight

/-- The peers whose session credit does not suffice for all the commands of the step together (R42). -/
def lacking (s : State) (l : List (Job × Bill)) : List Nat :=
  ((l.flatMap (fun p => peersOf s p.1)).dedup).filter (fun n =>
    match linkTo s n with
    | none => true
    | some k =>
      let need := sumOf (fun p => if n ∈ peersOf s p.1 then p.2.units + b2n (isWrite p.1.cmd.opcode) else 0) l
      decide (creditLeft k < need + creditHeld s n + unsentUnits s n))

/-- The earliest time for a lack of session credit (R306): the next ACK expected from a peer that lacks it, taken as the resend
time of the oldest request to it not yet acknowledged, or the start of the next slot when that is later (log entry 18). -/
def creditTime (s : State) (peers : List Nat) : Nat :=
  let due := peers.filterMap (fun n => match linkTo s n with
    | none => none
    | some k => match k.unacked.map (fun r => r.at_ + s.fab.retransUs * 1000) with
      | [] => none
      | a :: t => some (leastOf id a t))
  due.foldl max (nextSlotTime s)

/-- A faulted ledger keeps commands of this kind out until its recount (R91, R92). -/
def ledgerBars (s : State) (x : Session) (j : Job) (l : Ledger) : Bool :=
  match l with
  | .commands => true
  | .antes => true
  | .sessionOrder => true
  | .cells => true
  | .kitty => isWrite j.cmd.opcode && !j.medium
  | .talonStock => isWrite j.cmd.opcode || decide (j.cmd.opcode = 0x08)
  | .queueSlots => (match x.kind with | .host => true | _ => false)
  | .cipherLocks => false
  | .linkCredits => guarded s j
  | .sessionCredits => guarded s j

/-- The end of the recount window placed, or of the horizon. -/
def recountTime (s : State) : Nat :=
  match s.ante.maint.find? (fun m => decide (m.kind = .recount)) with
  | some m => (m.first + m.slots) * Config.slotNs
  | none => horizonTime s

/-- Debits one after another: the state with them made, or the time by which the first that does not fit would (R196). -/
def makeDebits (who : Owner) (tomb : Bool) : List (Nat × Nat × Nat) → State → Except Nat State
  | [], s => .ok s
  | (stream, cost, bytes) :: t, s =>
    let sets := streamSets s stream tomb
    match poolSet s cost sets with
    | some k => makeDebits who tomb t (debit k cost bytes who s)
    | none => .error (poolTime s cost sets)

/-- The debits of every command of the step. -/
def debitAll : List (Job × Bill) → State → Except Nat State
  | [], s => .ok s
  | (j, b) :: t, s =>
    match makeDebits (.command j.session j.seq) (decide (j.cmd.opcode = 0x03)) b.debits s with
    | .ok s1 => debitAll t s1
    | .error e => .error e

/-- The first cause of RETRY_AFTER beside the calendar (R194, R195), with its earliest time. -/
def retryCause (s : State) (id : Nat) (x : Session) (l : List (Job × Bill)) : Option Nat :=
  let kitty := sumOf (fun p => p.2.kitty) l
  let slots := (l.filter (fun p => isKeyed p.1.cmd.opcode)).length
  match l.findSome? (fun p => windowBlock s id p.1.seq) with
  | some f =>
    if kittyFits kitty s = false ∧ kitty ≠ 0 then
      some (kittyTime s (s.pwr.pending + s.pwr.exposed + kitty - min s.pwr.target s.pwr.cap))
    else some (deadlineOf f)
  | none =>
    if kittyFits kitty s = false ∧ kitty ≠ 0 then
      some (kittyTime s (s.pwr.pending + s.pwr.exposed + kitty - min s.pwr.target s.pwr.cap))
    else if Config.overlapMax < s.dlr.overlap.length + slots then some (nextSlotTime s)
    else
      match debitAll l s with
      | .error t => some t
      | .ok _ =>
        if lacking s l ≠ [] then some (creditTime s (lacking s l))
        else if l.any (fun p => mayCreate p.1.cmd.opcode) = true ∧ stashFull s = true then some (now s + 1000000)
        else if l.any (fun p => s.jnl.refusing.any (ledgerBars s x p.1)) then some (recountTime s)
        else none

/-! ## Refusing (R141, R143, R160) -/

/-- Arrived commands with these sequences are no longer waiting. -/
def dropArrived (id : Nat) (seqs : List Nat) (s : State) : State :=
  { s with dlr := { s.dlr with arrived := s.dlr.arrived.filter (fun a => !decide (a.session = id ∧ a.seq ∈ seqs)) } }

/-- One command of a host queue or a client session is refused: the host entry under R141, the client's answer. -/
def refuseOne (id : Nat) (x : Session) (a : Arrived) (st time : Nat) (s : State) : State :=
  match x.kind with
  | .host => refuseHost id a.seq a.cmd.cls st time s
  | _ => answer id a.seq st (if st = stRetry then time else 0) 0 s

/-- Every held sequence of a client session is refused with the same status (R143). -/
def refuseHeld (id : Nat) (x : Session) (st time : Nat) (s : State) : State :=
  match x.kind with
  | .host => s
  | _ =>
    let held := s.dlr.arrived.filter (fun a => decide (a.session = id))
    let s1 := each (fun a s => refuseOne id x a st time s) held s
    modSess id (fun y => { y with refusal := some (st, time) }) (dropArrived id (held.map (·.seq)) s1)

/-- The step refuses its command, or a trick's header and members (R160): the carrier keeps its status, the rest carry
TRICK_INVALID for a field error and the same status otherwise. A member's own class field is ignored (R158). -/
def refuseStep (id : Nat) (x : Session) (items : List Arrived) (st time : Nat) (carrier : Nat) (s : State) : State :=
  let other := if isFieldError st then stTrick else st
  let s0 := each (fun a s => dropOrder id a.seq s) items s
  let s1 := dropArrived id (items.map (·.seq)) s0
  let cls := match items with | a :: _ => a.cmd.cls | [] => 0
  let s2 := each (fun a s => refuseOne id x { a with cmd := { a.cmd with cls := cls } } (if a.seq = carrier ∨ items.length = 1 then st else other) time s) items s1
  let head := match items with | a :: _ => (if a.seq = carrier ∨ items.length = 1 then st else other) | [] => st
  refuseHeld id x head time s2

/-- The first status over the commands of a step in the order of R177, and the command that carries it. -/
def pick : List (Nat × List Nat) → Option (Nat × Nat)
  | [] => none
  | (seq, l) :: t =>
    match firstStatus l, pick t with
    | none, r => r
    | some a, none => some (a, seq)
    | some a, some (b, k) => if ranksBefore b a then some (b, k) else some (a, seq)

/-! ## Accepting (R52 to R58, R153) -/

/-- The starts of `n` row programs reserved for meld `m` after slot `last`. -/
def programStarts (s : State) (m last : Nat) (die : Nat) : Nat → List Nat → List Nat
  | 0, _ => []
  | n + 1, l =>
    match l with
    | [] => []
    | a :: _ => a :: programStarts s m last die n (l.drop 63)

/-- A medium-mode record is placed in the row being assembled, which closes; the row programs granted to it are those of
the meld after its last one (R683). -/
def placeMedium (n : Nat) (r : Record) (owner : Nat × Nat) (s : State) : State :=
  let m := meldAt s n
  let ru := rowUnits m
  let u := alignUnit m r.units
  let e := u + r.units
  let first := if m.next % ru = 0 then u / ru else m.next / ru
  let count := (e - 1) / ru - first + 1
  let die := (meldDies n m).headD 0
  let slots := (s.ante.resv.filter (fun v => decide (v.owner = .row n ∧ v.res = .die die ∧ (m.lastEnd < v.slot ∨ m.lastEnd = 0)))).map
    (·.slot)
  let starts := programStarts s n m.lastEnd die count slots
  let p : Placed := { addr := n * Config.meldSpan + u, item := r, dram := none, src := none, kitty := 0,
                      owner := some owner, medium := true }
  let s1 := each (fun y s => match y.owner with | some (a, b) => undebit (.command a b) s | none => s) m.asm s
  setMeld n { m with next := (e + ru - 1) / ru * ru, asm := m.asm ++ [p], headers := 0, asmAt := none,
                     programs := m.programs ++ (starts.zipIdx).map (fun q => (first + q.2, q.1)),
                     lastEnd := (starts.getLast?.map (· + 68)).getD m.lastEnd,
                     minStamp := min m.minStamp r.time, maxStamp := max m.maxStamp r.time,
                     nss := if r.ns ∈ m.nss then m.nss else m.nss ++ [r.ns] } s1

/-- The row of a medium-mode write is given to it. Its contents are known only later, so the record stands there with its
key and size (log entry 19). -/
def placeRow (set : Option Nat) (f : InFlight) (digest units suit kind : Nat) (s : State) : State :=
  match meldFor suit (decide (kind = 1)) set units s with
  | none => s
  | some (n, s1) =>
    let r : Record := { kind := kind, suit := suit, ns := f.ns, key := f.cmd.key, value := [], units := units, version := 0,
                        time := f.stamp.time, digest := digest, medium := true }
    let u := alignUnit (meldAt s1 n) units
    modFlight f.session f.seq (fun g => { g with row := some n, placed := some (n * Config.meldSpan + u) })
      (placeMedium n r (f.session, f.seq) s1)

/-- What the coordinator keeps of a protected command's order: digest, holders, the version the lead gave (R311,
R313). -/
def protectOf (s : State) (j : Job) : Option Protect :=
  if guarded s j then
    let v := match orderFor s j.session j.seq with
      | some o => match o.answer with
        | some (.writeOrder v) => v
        | some (.readGrant v _) => v
        | _ => 0
      | none => 0
    let from_ := match orderFor s j.session j.seq with
      | some o => match o.answer with
        | some (.readGrant _ l) => l
        | _ => keyHolders s j.ns j.digest
      | none => []
    some { digest := j.digest, holders := from_, version := v }
  else none

/-- Cores that take command work: those of the command role that do not drain (R25). -/
def commandCores (s : State) : List Nat :=
  (List.range 32).filter (fun c => decide (roleOf s c = 0) &&
    !s.ante.maint.any (fun m => decide (m.kind = .roleDrain ∧ m.target = c ∧ m.first ≤ slotOf (now s))))

/-- The command cores that take new work: not the one that a core test drains, unless it is the only one (R25, Table 14-4). -/
def dispatchCores (s : State) : List Nat :=
  let l := (commandCores s).filter (fun c => decide (s.ist.draining ≠ some c))
  if l.isEmpty then commandCores s else l

/-- The core that a command is dispatched to; which of the command cores it is, the manual leaves open (log entry 1). -/
def pickCore (s : State) : Nat :=
  (dispatchCores s).getD (fresh 5 s % (dispatchCores s).length) 0

/-- The suit a write goes to: the stored value's for DELETE, PUT_AT and APPEND of a key that is held, else the one asked
for (R118, R120, R122). -/
def writeSuit (s : State) (j : Job) : Nat :=
  match j.cmd.opcode with
  | 0x03 => (match lookup s j.ns j.cmd.key with | some f => f.item.suit | none => j.suit)
  | 0x04 => (match lookup s j.ns j.cmd.key with | some f => f.item.suit | none => j.suit)
  | 0x05 => (match lookup s j.ns j.cmd.key with | some f => f.item.suit | none => j.suit)
  | _ => j.suit

/-- The command in flight that a job becomes, with its acceptance stamp. -/
def flightOf (cls bound : Nat) (wait : Bool) (j : Job) (b : Bill) (s : State) : InFlight :=
  let st := nextStamp s
  let prot := (protectOf s j).map (fun x =>
    if isWrite j.cmd.opcode then { x with version := max st.time (x.version + 1) } else x)
  { session := j.session, seq := j.seq, cmd := j.cmd, ns := j.ns, stamp := st, medium := j.medium, suit := writeSuit s j,
    fast := fastPath s j, core := pickCore s, deadline := deadlineSlot st.time cls bound, bound := bound,
    phase := if wait then .waiting else .ready, kitty := b.kitty, units := b.units,
    record := b.record, tomb := b.tomb, creates := mayCreate j.cmd.opcode, trick := j.trick, qos := j.qos,
    tenant := j.tenant, scan := s.idx.scanMax, prot := prot, asked := j.suit }

/-- A command with a key enters the overlap table (R153). -/
def enterOverlap (f : InFlight) (j : Job) (s : State) : State :=
  if isKeyed j.cmd.opcode then
    { s with dlr := { s.dlr with overlap := s.dlr.overlap ++
        [{ session := j.session, seq := j.seq, ns := j.ns, digest := j.digest, start := (overlapRange j.cmd).1,
           stop := (overlapRange j.cmd).2, write := isWrite j.cmd.opcode, stamp := f.stamp, deadline := f.deadline }] } }
  else s

/-- An accepted write is counted in its namespace (Table 03-2). -/
def countWrite (j : Job) (s : State) : State :=
  if isWrite j.cmd.opcode then setNs j.ns { nsAt s j.ns with writes := (nsAt s j.ns).writes + 1 } s else s

/-- The row of a medium-mode write is placed at admission (R683, log entry 19), on the module that keeps it. -/
def placeMediumRow (set : Option Nat) (f : InFlight) (j : Job) (b : Bill) (mine : Bool) (s : State) : State :=
  if j.medium ∧ isWrite j.cmd.opcode ∧ b.record + b.tomb ≠ 0 ∧ (f.prot.isNone ∨ mine = true) then
    placeRow set f j.digest ((b.record + b.tomb) / 512) f.suit (if j.cmd.opcode = 0x03 then 1 else 0) s
  else s

/-- The stage that an accepted write names is used up (R332). -/
def takeStage (j : Job) (s : State) : State :=
  if (match j.cmd.stage with | 0 => false | _ => true) && carriesData j.cmd.opcode then
    { s with fab := { s.fab with stages := s.fab.stages.filter (fun q => !decide (q.1 = j.session ∧ q.2.handle = j.cmd.stage)) } }
  else s

/-- One command of the step is accepted: stamp, journal, overlap entry, counts. -/
def acceptOne (cls bound : Nat) (set : Option Nat) (wait : Bool) (p : Job × Bill) (s : State) : State :=
  let f := flightOf cls bound wait p.1 p.2 s
  let mine := decide (s.fab.nodeId ∈ keyHolders s p.1.ns p.1.digest)
  takeStage p.1 (placeMediumRow set f p.1 p.2 mine (takeOrder p.1.session p.1.seq (countWrite p.1
    (enterOverlap f p.1 (accept f p.1.digest (takeStamp (drawn s)))))))

/-- The next sequence of a client session: the lowest one neither accepted nor withdrawn (R142). -/
def advance (withdrawn : List Nat) : Nat → Nat → Nat
  | 0, n => n
  | k + 1, n => if n ∈ withdrawn then advance withdrawn k (seqAdd n 1) else n

/-- A withdrawn sequence is remembered until its number can come again: as one ahead of `m`, or fewer than 2^31 behind
(R139, R142). -/
def rememberWithdrawn (m w : Nat) : Bool :=
  decide ((w + 2 ^ 32 - m) % 2 ^ 32 ≤ 8191 ∨ 2 ^ 31 < (w + 2 ^ 32 - m) % 2 ^ 32)

/-- The step accepts: every command in order with consecutive stamps (R161), then the session moves on. -/
def acceptStep (id cls bound : Nat) (set : Option Nat) (wait : Bool) (l : List (Job × Bill)) (seqs : List Nat)
    (s : State) : State :=
  let kitty := sumOf (fun p => p.2.kitty) l
  let s1 := match debitAll l s with | .ok t => t | .error _ => s
  let s2 := each (acceptOne cls bound set wait) l (kittyReserve kitty s1)
  let s3 := dropArrived id seqs s2
  modSess id (fun y =>
    let n := seqAdd (seqs.getLast?.getD y.next) 1
    let m := advance y.withdrawn 4096 n
    { y with next := m, refusal := none, withdrawn := y.withdrawn.filter (rememberWithdrawn m) }) s3

/-! ## The step -/

/-- A context is pinned in the cache: its session has a command in flight, or its queue holds a completion (R235). -/
def ctxPinned (s : State) (c : Nat) : Bool :=
  (match (ctxAt s c).session with | some id => !(inflightOf s id).isEmpty | none => false) ||
  (match (ctxAt s c).queue with | some q => decide (q.held ≠ []) | none => false)

/-- A queue context that is not in the on-chip cache is fetched, which HQ_CTX_MISS counts; the context cached longest
among those not pinned leaves a full cache (R235). DESIGN CHOICE, log entry 93: the manual does not say which unpinned line leaves. -/
def touchCtx (c : Nat) (s : State) : State :=
  if c ∈ s.dlr.cached then s
  else
    let l := if s.dlr.cached.length < 16384 then s.dlr.cached
      else match s.dlr.cached.find? (fun x => !ctxPinned s x) with
        | some x => s.dlr.cached.erase x
        | none => s.dlr.cached
    { s with host := { s.host with ctxMiss := s.host.ctxMiss + 1 }, dlr := { s.dlr with cached := l ++ [c] } }

/-- The context cannot be taken into the cache: every line is pinned (R235). -/
def cacheFull (s : State) (c : Nat) : Bool :=
  decide (c ∉ s.dlr.cached ∧ 16384 ≤ s.dlr.cached.length) && s.dlr.cached.all (ctxPinned s)

/-- Die sets that a medium-mode write of the step may try in turn; one for anything else (R683). -/
def setChoices (s : State) (l : List (Job × Bill)) : List (Option Nat) :=
  match l with
  | [(j, _)] => if j.medium ∧ isWrite j.cmd.opcode then
      (match streamSets s j.suit (decide (j.cmd.opcode = 0x03)) with | [] => [none] | t => t.map some) else [none]
  | _ => [none]

/-- The shape would be granted now. -/
def fitsNow (s : State) (cls bound qos : Nat) (who : Owner) (b : Bill) (from_ : Nat) : Bool :=
  !b.stuck && (match decideShape cls bound qos who b.shape from_ s with | (_, .grant) => true | _ => false)

/-- The command is DEADLINE_UNATTAINABLE whatever the calendar holds (R113, R134, R151, R177, R197, R512); `trial` is its
bill. -/
def neverFits (id : Nat) (h : Job) (members : List Job) (trial : Bill × List Bill) (s : State) : Bool :=
  let pairs := if h.cmd.opcode = 0x10 then members.zip trial.2 else [(h, trial.1)]
  pairs.any (fun p => hopeless s h.cmd.cls p.1 p.2) || hopeless s h.cmd.cls h trial.1 ||
  unattainable s h.cmd.cls (boundOf s h.cmd.cls) h.qos (.command id h.seq) trial.1.shape

/-- The last part of the step: the Ante unit is asked, and the command is accepted or refused (R190, R194, R195). A refusal
after the grant leaves the calendar as it was before (R190, R210). -/
def anteStep (id : Nat) (x : Session) (items : List Arrived) (h : Job) (members : List Job) (s : State) : State :=
  let cls := h.cmd.cls
  let bound := boundOf s cls
  let who : Owner := .command id h.seq
  let trial := billStep x none h members s
  let trialPairs := if h.cmd.opcode = 0x10 then members.zip trial.2 else [(h, trial.1)]
  let refuse := fun st time (s : State) => refuseStep id x items st time h.seq s
  let waits := (h :: members).flatMap (fun j => if isKeyed j.cmd.opcode then waitsOn s.dlr.overlap j.ns j.digest j.cmd else [])
  let latest := (waits.map (·.deadline + 1)).foldl max 0
  let choices := setChoices s trialPairs
  let set := (choices.find? (fun k => fitsNow s cls bound h.qos who (billStep x k h members s).1 latest)).getD (choices.headD none)
  let b := billStep x set h members s
  let pairs := if h.cmd.opcode = 0x10 then
      (h, { b.1 with shape := [], kitty := 0, debits := [], record := 0, tomb := 0 }) :: members.zip b.2 else [(h, b.1)]
  if b.1.stuck then refuse stRetry (horizonTime s) (refuseRetry (startExit (countRequest s)))
  else
    match decideShape cls bound h.qos who b.1.shape latest s with
    | (s1, .never) => refuse stUnattainable 0 s1
    | (s1, .retry t) =>
      let first := slotOf (now s)
      let gap := latest - deadlineSlot (first * Config.slotNs) cls bound
      refuse stRetry (if waits = [] then t else max t ((first + gap) * Config.slotNs)) s1
    | (s1, .grant) =>
      match retryCause (withoutGrant s s1) id x pairs with
      | some t =>
        let full := decide (Config.overlapMax < s.dlr.overlap.length + (pairs.filter (fun p => isKeyed p.1.cmd.opcode)).length)
        let s2 := refuseRetry (withoutGrant s s1)
        refuse stRetry t { s2 with dlr := { s2.dlr with overlapFull := s2.dlr.overlapFull + b2n full } }
      | none => acceptStep id cls bound set (!waits.isEmpty) pairs (items.map (·.seq)) s1

/-- The answer of the lead to each protected command of the step: none while one is still awaited, else the refusals it
means (R311). -/
def orderErrors (s : State) (l : List Job) : Option (List (Nat × List Nat) × Nat) :=
  l.foldl (fun acc j =>
    match acc with
    | none => none
    | some (errs, t) =>
      if guarded s j = false then some (errs, t)
      else
        match orderFor s j.session j.seq with
        | none => none
        | some o =>
          match o.answer with
          | none => none
          | some (.busy u) => some (errs ++ [(j.seq, [stRetry])], max t u)
          | some .mismatch => some (errs ++ [(j.seq, [stFabric])], t)
          | some (.writeOrder _) => some (errs, t)
          | some (.readGrant _ _) => some (errs, t)) (some ([], 0))

/-- Peers that the commands of the step need and that no session leads to (R300). -/
def unopened (s : State) (l : List Job) : List Nat := ((l.flatMap (peersOf s)).filter (fun n => (linkTo s n).isNone)).dedup

/-- A job whose key a job before it in the step has asked an order for shares that order (R311, R162). -/
def shareOrder (s : State) (l : List Job) (j : Job) : Option OrderOut :=
  (l.find? (fun i => decide (i.ns = j.ns ∧ i.digest = j.digest))).bind (fun i => orderFor s i.session i.seq)

/-- ORDER is sent for each protected key of the step that has not been asked for yet: one order serves all members of a trick
that name the key, a write order when one of them writes. -/
def askOrders (cls bound : Nat) (l : List Job) (s : State) : State :=
  each (fun j s =>
    if guarded s j = false ∨ (orderFor s j.session j.seq).isSome then s
    else
      match shareOrder s l j with
      | some o => { s with fab := { s.fab with orderOut := s.fab.orderOut ++ [{ o with session := j.session, seq := j.seq }] } }
      | none =>
        let write := l.any (fun i => decide (i.ns = j.ns ∧ i.digest = j.digest) && isWrite i.cmd.opcode)
        askOrder j.session j.seq j.ns j.digest ((deadlineSlot (now s) cls bound + 1) * Config.slotNs) write s) l s

/-- The orders of the protected writes of a step are at hand or asked for, then the Ante unit decides (R177, R311). -/
def admitOrdered (id : Nat) (x : Session) (items : List Arrived) (h : Job) (members : List Job) (cls : Nat) (jobs : List Job)
    (s : State) : State :=
  let s3 := askOrders cls (boundOf s cls) jobs s
  match orderErrors s3 jobs with
  | none => s3
  | some (errs, t) =>
    match pick errs with
    | some (st, k) =>
      let s4 := if st = stFabric then event 0x0A03 [] s3 else s3
      refuseStep id x items st t k (if st = stRetry then refuseRetry s4 else s4)
    | none => anteStep id x items h members s3

/-- The last checks of an admission step (R177): what could never fit is UNATTAINABLE, the sessions to the peers that it needs are
opened first (R300), then its orders are asked for. -/
def admitPeers (id : Nat) (x : Session) (items : List Arrived) (h : Job) (members : List Job) (trial : Bill × List Bill)
    (seq cls : Nat) (jobs : List Job) (s : State) : State :=
  if neverFits id h members trial s then
    refuseStep id x items stUnattainable 0 seq (refuseNever (startExit (countRequest s)))
  else if (unopened s jobs).any (fun n => decide (n ∈ s.fab.noOpens)) = true then
    refuseStep id x items stRetry (nextSlotTime s) seq (refuseRetry { s with fab := { s.fab with
      noOpens := s.fab.noOpens.filter (fun n => decide (n ∉ unopened s jobs)) } })
  else if unopened s jobs ≠ [] then each openPeer (unopened s jobs) s
  else admitOrdered id x items h members cls jobs s

/-- The admission step of a command, or of a trick's header with its members (R40, R161, R177). A command that needs a peer
waits for the session to it before it asks for its order (R300). -/
def admitItems (id : Nat) (x : Session) (items : List Arrived) (s0 : State) : State :=
  match items with
  | [] => s0
  | a :: rest =>
    let s := touchCtx x.ctx s0
    let staged := (a :: rest).map (fun y => (y.seq, withStage s x id y.cmd))
    let hc := (withStage s x id a.cmd).1
    let trick := decide (hc.opcode = 0x10)
    let mem := rest.map (fun y => (y.seq, (withStage s x id y.cmd).1))
    let fieldList := staged.map (fun p => (p.1, fieldErrors p.2.1 ++ p.2.2))
    let whole := if trick then [(a.seq, trickErrors hc (mem.map (·.2)))] else []
    match pick (fieldList ++ whole) with
    | some (st, k) => refuseStep id x items st 0 k s
    | none =>
      let keyH := keyFor x hc hc.ns hc.cls
      let r := classify s (sourceOf x) keyH (if isKeyed hc.opcode then hc.key else [])
      let s1 := countClassify keyH (if isKeyed hc.opcode then hc.key else []) s
      let s2 := each (fun p s => countClassify (keyFor x p.2 hc.ns hc.cls) p.2.key s) mem s1
      let h := jobOf s r id a.seq hc hc (if trick then some a.seq else none)
      let members := mem.map (fun p => jobOf s r id p.1 hc p.2 (some a.seq))
      let denied := (a.seq, errIf (!r.permit || (decide (hc.opcode = 0x12) && queryDenied s x (queryTarget hc.area))) stDenied) ::
        mem.map (fun p => (p.1, errIf (!(classify s (sourceOf x) (keyFor x p.2 hc.ns hc.cls) p.2.key).permit) stDenied))
      if namesNs hc.opcode ∧ ¬ ((nsAt s h.ns).state = 1 ∧ h.ns < 4096) then refuseStep id x items stNamespace 0 a.seq s2
      else
        match pick denied with
        | some (st, k) => refuseStep id x items st 0 k s2
        | none =>
          let jobs := if trick then h :: members else [h]
          let trial := billStep x none h members s2
          let bills := if trick then { } :: trial.2 else [trial.1]
          match pick ((jobs.map (·.seq)).zip (laterAll s2 (jobs.zip bills) (0, 0, 0))) with
          | some (st, k) => refuseStep id x items st 0 k s2
          | none =>
            admitPeers id x items h members trial a.seq hc.cls jobs s2

/-- The commands of the next admission step of a session: the earliest waiting arrival, with its members when it is a
trick whose members have all arrived (R161, R239, R331). -/
def nextItems (s : State) (id : Nat) : List Arrived :=
  let l := s.dlr.arrived.filter (fun a => decide (a.session = id))
  match l.find? (fun a => a.queued) with
  | none => []
  | some a =>
    if a.cmd.opcode = 0x10 ∧ a.cmd.short = false then
      let seqs := (List.range (trickCount a.cmd)).map (fun i => seqAdd a.seq (i + 1))
      let m := seqs.filterMap (fun q => l.find? (fun b => decide (b.seq = q)))
      if m.length = seqs.length then a :: m else []
    else [a]

/-- The Dealer answers: boot_stage 4, fabric time not held back by R322, no memory channel just failed (R528, R689). -/
def dealerOn (s : State) : Bool := decide (s.boot.stage = 4) && !s.fab.parentLow && s.boot.chanFail.isNone

/-! ## Meanings -/

/-- ADMISSION_STEP (R40). -/
def execAdmissionStep (session : Nat) (s : State) : R :=
  whenRunning (fun s =>
    match sessFind s session with
    | none => s
    | some x =>
      if cacheFull s x.ctx then countStall s
      else guard (dealerOn s && !x.draining) (admitItems session x (nextItems s session)) s) s

/-- HELD_SEQUENCE_RELEASE (R142): a held sequence that n has reached goes to admission. -/
def execHeldSequenceRelease (session : Nat) (s : State) : R :=
  whenRunning (fun s =>
    match sessFind s session with
    | none => s
    | some x =>
      { s with dlr := { s.dlr with arrived := s.dlr.arrived.map (fun a =>
          if a.session = session ∧ a.seq = x.next then { a with queued := true } else a) } }) s

/-- HOLD_LIMIT_EXPIRY (R146): a held sequence that has waited hold_limit_ms is discarded without answer or record. -/
def execHoldLimitExpiry (session seq : Nat) (s : State) : R :=
  whenRunning (fun s =>
    match s.dlr.arrived.find? (fun a => decide (a.session = session ∧ a.seq = seq)) with
    | none =>
      let gone := s.fab.early.filter (fun e => decide (e.1 = session ∧ e.2.1 = seq ∧ e.2.2.1 + s.fab.holdMs * 1000000 ≤ now s))
      { s with fab := { s.fab with early := s.fab.early.filter (fun e => decide (e ∉ gone)) },
               dlr := { s.dlr with discards := s.dlr.discards + gone.length } }
    | some a => guard (decide (a.at_ + s.fab.holdMs * 1000000 ≤ now s) && !a.queued)
        (fun s =>
          let s1 := dropArrived session [seq] s
          { s1 with dlr := { s1.dlr with discards := s1.dlr.discards + 1 } }) s) s

/-- OVERLAP_RELEASE (R156): a waiting command proceeds once every earlier overlapping entry is freed; a trick once none of
its members waits. -/
def execOverlapRelease (session seq : Nat) (s : State) : R :=
  whenRunning (fun s =>
    match findFlight s session seq with
    | none => s
    | some f =>
      let group := s.dlr.inflight.filter (fun g => decide (g.session = session ∧ (g.seq = seq ∨ (g.trick ≠ none ∧ g.trick = f.trick))))
      let blocked := group.any (fun g => isKeyed g.cmd.opcode &&
        (waitsOn (s.dlr.overlap.filter (fun o => stampBefore o.stamp g.stamp &&
          !group.any (fun m => decide (m.session = o.session ∧ m.seq = o.seq)))) g.ns
          (match s.dlr.overlap.find? (fun o => decide (o.session = g.session ∧ o.seq = g.seq)) with
            | some o => o.digest | none => 0) g.cmd) ≠ [])
      if blocked then s
      else each (fun g => modFlight g.session g.seq (fun y =>
        match y.phase with | .waiting => { y with phase := .ready } | _ => y)) group s) s

end Sys2Proof.Machine
end

