-- ==== Sys2Proof/Machine/Store.lean ====
section
/-! DEFINITION. The commit step's effect on the index, the records held in DRAM and the namespace counts (R29, R105, R106,
R149, R153). -/

namespace Sys2Proof.Machine

open Sys2Proof

/-- Another commit step has changed an object (R106). -/
def countCommit (s : State) : State := { s with commits := s.commits + 1 }

/-- The version that the next commit step of an unprotected namespace gives (R106). -/
def nextVersion (s : State) : Nat := s.commits + 1

/-- The counts of a namespace after an object of `old` value bytes has become one of `new` (Table 03-3). -/
def countObject (ns : Nat) (old new : Option Nat) (s : State) : State :=
  let x := nsAt s ns
  setNs ns { x with bytes := x.bytes - old.getD 0 + new.getD 0,
                    objects := x.objects - b2n old.isSome + b2n new.isSome } s

/-- A record is taken into the protected region (R149): the state and the name it has there. -/
def holdRecord (r : Record) (s : State) : State × Nat :=
  ({ s with mem := { s.mem with held := tput s.mem.held s.mem.nextHeld r, nextHeld := s.mem.nextHeld + 1 } }, s.mem.nextHeld)

/-- Where a committed record rests: in the protected region, to be programmed with its kitty bytes into a row of the
stream on a die set; or on flash already. -/
inductive Rest where
  | buffer (set : Option Nat) (kitty : Nat) (owner : Nat × Nat)
  | flash (addr : Nat)
  deriving DecidableEq, Repr

/-- A value record is committed: its entry points to it from now on, and its namespace counts it (R29, R105). -/
def commitValue (r : Record) (at_ : Rest) (s : State) : State :=
  let old := (lookup s r.ns r.key).map (fun f => f.item.value.length)
  let s1 := countCommit (countObject r.ns old (some r.value.length) s)
  match at_ with
  | .flash a =>
    indexPut r.ns r.key r.digest (entryOf r.digest r a false)
      { s1 with med := { s1.med with flash := tput s1.med.flash a (sealRecord a r) } }
  | .buffer set kitty owner =>
    match holdRecord r s1 with
    | (s2, id) => placeRecord r.suit set r (some id) none kitty (some owner)
        (indexPut r.ns r.key r.digest (entryOf r.digest r id true) s2)

/-- A tombstone record takes its place. -/
def placeTomb (r : Record) (at_ : Rest) (s : State) : State :=
  match at_ with
  | .flash a => { s with med := { s.med with flash := tput s.med.flash a (sealRecord a r) } }
  | .buffer set kitty owner =>
    match holdRecord r s with
    | (s1, id) => placeRecord r.suit set r (some id) none kitty (some owner) s1

/-- The bytes of one more tombstone. -/
def countTomb (s : State) : State := { s with med := { s.med with tombBytes := s.med.tombBytes + 512 } }

/-- The length of the value an object holds, if it is held. -/
def lengthHeld (s : State) (ns : Nat) (key : Bytes) : Option Nat := (lookup s ns key).map (fun f => f.item.value.length)

/-- A tombstone is committed: the object's entry is removed, and the tombstone record is kept (R118, R119, R391). -/
def commitTomb (r : Record) (at_ : Rest) (s : State) : State :=
  placeTomb r at_ (countTomb (indexRemove r.ns r.key (countCommit (countObject r.ns (lengthHeld s r.ns r.key) none s))))

/-- A record of either kind is committed. -/
def commitRecord (r : Record) (at_ : Rest) (s : State) : State :=
  if r.kind = 1 then commitTomb r at_ s else commitValue r at_ s

/-- The record of a value that a command stores. -/
def valueRecord (f : InFlight) (ns digest version suit : Nat) (key value : Bytes) : Record :=
  { kind := 0, suit := suit, ns := ns, key := key, value := value, units := recUnits key.length value.length,
    version := version, time := f.stamp.time, digest := digest, medium := f.medium }

/-- The tombstone that a DELETE stores, in the key's suit (R118). -/
def tombRecord (f : InFlight) (ns digest version suit : Nat) (key : Bytes) : Record :=
  { kind := 1, suit := suit, ns := ns, key := key, value := [], units := 1, version := version, time := f.stamp.time,
    digest := digest, medium := f.medium }

/-- The record of a shard (R59, R310, R314). -/
def shardRecord (h : Shard) (medium : Bool) : Record :=
  { kind := if h.tombstone then 1 else 0, suit := h.suit, ns := h.ns, key := h.key, value := h.value,
    units := if h.tombstone then 1 else recUnits h.key.length h.value.length, version := h.version, time := h.stampTime,
    digest := h.digest, medium := medium, whole := h.whole, index := h.index, k := h.spreadK, m := h.spreadM }

/-- A stored record as the shard it is. -/
def recordShard (r : Record) : Shard :=
  { ns := r.ns, key := r.key, digest := r.digest, stampTime := r.time, stampTie := 0, stampNode := 0, version := r.version,
    suit := r.suit, index := r.index, whole := r.whole, spreadK := r.k, spreadM := r.m, tombstone := decide (r.kind = 1),
    value := r.value }

/-- A hint is taken into the journal, and from there to a HINT record (R125, R477). -/
def commitHint (h : Hint) (s : State) : State :=
  placeSystem (hintRecord h) { s with med := { s.med with hints := s.med.hints ++ [h], tombBytes := s.med.tombBytes + 512 } }

/-- Kitty bytes reserved for a write become exposed as far as its record takes them, the rest is given back (R80). -/
def settleKitty (reserved used : Nat) (s : State) : State := kittyExpose used (kittyCancel (reserved - used) s)

/-- The die set debited for a command (R196). -/
def debitSet (s : State) (id seq : Nat) : Option Nat :=
  (s.ante.debits.find? (fun d => decide (d.owner = .command id seq))).map (·.set)

end Sys2Proof.Machine
end

