-- ==== Sys2Proof/Machine/Coord.lean ====
section
/-! DEFINITION. The coordinator of a protected command (R311 to R318): reading shards, sending them to be held, deciding,
recording the outcome, and telling the holders. -/

namespace Sys2Proof.Machine

open Sys2Proof

/-- The account of a protected command is changed by `g`. -/
def modProt (id seq : Nat) (g : Protect → Protect) (s : State) : State :=
  modFlight id seq (fun f => { f with prot := f.prot.map g }) s

/-- This module's own shard of a key, if it holds one committed. -/
def ownShard (s : State) (ns : Nat) (key : Bytes) : Option Shard := (lookup s ns key).map (fun f => recordShard f.item)

/-- Shards that make a value: one copy of a mirror, k of a spread (R318). -/
def shardsNeeded (x : Namespace) : Nat := if x.protect = 2 then x.spreadK else 1

/-- The highest version among shards. -/
def topVersion (l : List Shard) : Nat := (l.map (·.version)).foldl max 0

/-- The shards of the highest version. -/
def topShards (l : List Shard) : List Shard := l.filter (fun h => decide (h.version = topVersion l))

/-- The read of a protected value has ended: enough shards of one version are in, or every holder asked has answered that
it holds none (R318). -/
def readEnded (x : Namespace) (p : Protect) : Bool :=
  decide (shardsNeeded x ≤ (topShards p.shards).length) ||
  (decide (p.shards = [] ∧ p.gone ≠ []) && p.sent.all (fun n => decide (n ∈ p.gone)))

/-- The holders that a read asks: of a mirror its own copy or the first holder listed in the grant; of a spread the data
shards, those of failed holders replaced by parity shards (R318). -/
def readTargets (s : State) (x : Namespace) (p : Protect) (d ns : Nat) : List Nat :=
  if x.protect = 1 then
    let l := p.holders.filter (fun n => decide (n ∉ s.fab.dead))
    if s.fab.nodeId ∈ l then [s.fab.nodeId] else l.take 1
  else ((keyHolders s ns d).filter (fun n => decide (n ∈ p.holders ∧ n ∉ s.fab.dead))).take (shardsNeeded x)

/-- A request of a command, its frames bounded as the command is (Table 06-4). -/
def requestOf (f : InFlight) (p : Protect) (code units : Nat) : Request :=
  { units := units, code := code, own := (f.session, f.seq), bounded := decide (f.cmd.cls ≠ 7), ns := f.ns, digest := p.digest,
    stamp := f.stamp, slot := f.deadline, medium := f.medium, version := p.version }

/-- SHARD_READ is sent for a command's key; this module's own shard is read at once. -/
def startRead (f : InFlight) (p : Protect) (s : State) : State :=
  let x := nsAt s f.ns
  let l := readTargets s x p p.digest f.ns
  let far := l.filter (fun n => decide (n ≠ s.fab.nodeId))
  let mine := if s.fab.nodeId ∈ l then (ownShard s f.ns f.cmd.key).toList else []
  let none_ := if s.fab.nodeId ∈ l ∧ mine = [] then [s.fab.nodeId] else []
  let q := { p with shards := mine, sent := l, gone := none_, asked := now s }
  let s1 := modFlight f.session f.seq (fun g => { g with prot := some { q with read := readEnded x q } }) s
  each (fun n => sendRequest n { requestOf f p 5 1 with key := f.cmd.key }) far s1

/-- The opcode needs the current value of a protected key (R318). DELETE needs it to answer NOT_FOUND (R118). -/
def needsValue (op : Nat) : Bool := decide (op ≠ 0x02)

/-- The shard for holder `i` of what a protected write stores (R310, R314). -/
def shardFor (x : Namespace) (f : InFlight) (d version suit : Nat) (tomb : Bool) (value : Bytes) (i : Nat) : Shard :=
  { ns := f.ns, key := f.cmd.key, digest := d, stampTime := f.stamp.time, stampTie := f.stamp.tie, stampNode := f.stamp.node,
    version := version, suit := suit, index := i, whole := value.length, spreadK := if x.protect = 2 then x.spreadK else 0,
    spreadM := if x.protect = 2 then x.spreadM else 0, tombstone := tomb,
    value := if tomb then [] else (shardBytes x value).getD i [] }

/-- The shard that this module itself holds of a write, if it is a holder of the key. -/
def myShard (s : State) (f : InFlight) (p : Protect) (suit : Nat) (tomb : Bool) (value : Bytes) : Option Shard :=
  ((keyHolders s f.ns p.digest).idxOf? s.fab.nodeId).map
    (fun i => shardFor (nsAt s f.ns) f p.digest p.version suit tomb value i)

/-- The outcome is recorded in this module's journal (R314); at the lead the order ends (R312). -/
def recordHere (ns d : Nat) (t : Stamp) (ok : Bool) (version : Nat) (s : State) : State :=
  let s1 := if s.fab.decisions.any (fun x => decide (x.ns = ns ∧ x.digest = d ∧ x.stampTime = t.time ∧ x.stampTie = t.tie ∧
      x.stampNode = t.node)) then s
    else
      { s with fab := { s.fab with decisions := s.fab.decisions ++
        [{ ns := ns, digest := d, stampTime := t.time, stampTie := t.tie, stampNode := t.node, ok := ok, version := version }] } }
  if leadOf s ns d = some s.fab.nodeId then endOrder ns d s1 else s1

/-- A DECIDE of the command is on its way to a recorder: sent and not yet acknowledged, or waiting to be sent. -/
def deciding (s : State) (f : InFlight) (n : Nat) : Bool :=
  let mine := fun (r : Request) => decide (r.code = 4 ∧ r.own = (f.session, f.seq))
  (linkTo s n).any (fun x => x.unacked.any mine) || s.fab.unsent.any (fun p => decide (p.1 = n) && mine p.2)

/-- DECIDE goes to recorders; this module records at once when it is one of them (R314). One that is on its way already is resent
by its session (R301). -/
def sendDecide (f : InFlight) (p : Protect) (ok : Bool) (l : List Nat) (s : State) : State :=
  each (fun n s =>
    if n = s.fab.nodeId then
      modProt f.session f.seq (fun q => { q with recorded := q.recorded ++ [n] })
        (recordHere f.ns p.digest f.stamp ok p.version s)
    else
      if deciding s f n then s else sendRequest n { requestOf f p 4 1 with ok := ok } s) l s

/-- The plan stores, removes or hints something. -/
def hasEffect (p : Plan) : Bool :=
  match p.effect with
  | .none => false
  | .store _ _ _ _ => true
  | .delete _ _ => true
  | .hint _ _ _ _ _ => true
  | .trick => true

/-- The commands of one trick, header first, or the command alone. -/
def groupOfFlight (s : State) (f : InFlight) : List InFlight :=
  match f.trick with
  | none => [f]
  | some h => s.dlr.inflight.filter (fun g => decide (g.session = f.session ∧ g.trick = some h))

/-- Holders that have not answered SHARD_HOLD (R314, R315). -/
def lateHolders (s : State) (f : InFlight) : List Nat :=
  match f.prot with
  | none => []
  | some p => (keyHolders s f.ns p.digest).filter (fun n => decide (n ∉ p.answered))

/-- Enough holders have answered for the write to be OK (R314). -/
def heldEnough (s : State) (f : InFlight) : Bool :=
  decide ((lateHolders s f).length ≤ tolerance (nsAt s f.ns))

/-- The write can be decided: its shards were sent, and every holder has answered or the hold deadline has come (R314). -/
def decidable (s : State) (f : InFlight) : Bool :=
  match f.prot with
  | none => false
  | some p => decide (p.deadline ≠ 0) && p.decided.isNone && (decide (p.deadline ≤ now s) || (lateHolders s f).isEmpty)

/-- The coordinator decides a write (R314, R315). Holders that have not answered go on the rebuild list; of the object as the
write leaves it, the others hold their shards (R315). -/
def decideNow (ok : Bool) (f : InFlight) (s : State) : State :=
  match f.prot with
  | none => s
  | some p =>
    let late := lateHolders s f
    let owed := late.map (fun n => ({ ns := f.ns, digest := p.digest, holder := n } : Owed))
    let other := s.fab.owedList.filter (fun o => !decide (o.ns = f.ns ∧ o.digest = p.digest))
    let s1 := { s with fab := { s.fab with owedList := if ok then other ++ owed else s.fab.owedList },
                       fabc := { s.fabc with lateHolders := s.fabc.lateHolders + late.length } }
    let s2 := modProt f.session f.seq (fun q => { q with decided := some ok, decideAt := now s }) s1
    sendDecide f p ok ((recorders s f.ns p.digest).take 2) s2

/-- The writes that are decided together: a trick of two or more members is one effect, so one member that cannot be held
abandons them all (R163, R314). -/
def decidedWith (s : State) (f : InFlight) : List InFlight :=
  (groupOfFlight s f).filter (fun g => g.prot.isSome && hasEffect g.plan)

/-- Members of a trick beside its header. -/
def membersOf (s : State) (f : InFlight) : List InFlight :=
  match f.trick with
  | none => [f]
  | some h => (groupOfFlight s f).filter (fun g => decide (g.seq ≠ h))

/-- A trick of two or more members fails with its member `bad`: the others and the header are TRICK_ABANDONED (R163). -/
def abandonTrick (f : InFlight) (bad : Nat) (s : State) : State :=
  if (membersOf s f).length < 2 then s
  else each (fun g => modFlight g.session g.seq (fun y =>
    { y with plan := { y.plan with status := if y.seq = bad then 0x0060 else 0x0014, data := [],
                                   vlen := 0 } })) (groupOfFlight s f) s

/-- The coordinator decides once every holder has answered, at the hold deadline at the latest; the writes of a trick are decided
together (R163, R314). -/
def tryDecide (id seq : Nat) (s : State) : State :=
  match findFlight s id seq with
  | none => s
  | some f =>
    let l := decidedWith s f
    let planned := (membersOf s f).all (fun g => decide (g.phase = .planned))
    if l = [] ∨ planned = false ∨ l.all (decidable s) = false then s
    else
      match l.find? (fun g => !heldEnough s g) with
      | none => each (decideNow true) l s
      | some g => abandonTrick f g.seq (each (decideNow false) l s)

/-- SHARD_HOLD goes to every holder (R314); this module's own shard is in its protected region at once, or with its row
in medium mode. -/
def holdShards (f : InFlight) (p : Protect) (suit : Nat) (tomb : Bool) (value : Bytes) (s : State) : State :=
  let x := nsAt s f.ns
  let hs := keyHolders s f.ns p.digest
  let deadline := now s + s.fab.allowUs * 2000 / 3 + (if f.medium then 1500000 else 0)
  let own := if s.fab.nodeId ∈ hs ∧ (f.medium = false ∨ f.landed = true) then [s.fab.nodeId] else []
  let s1 := modProt f.session f.seq (fun q => { q with answered := own, deadline := deadline, shards := [] }) s
  let s2 := each (fun n s =>
    if n.1 = s.fab.nodeId then s
    else
      let h := shardFor x f p.digest p.version suit tomb value n.2
      sendRequest n.1 { requestOf f p 1 (holdUnits h.key.length h.value.length) with sh := some h, deadline := deadline } s) hs.zipIdx s1
  tryDecide f.session f.seq s2

/-- Another member of the trick still uses the order of this digest. -/
def orderShared (s : State) (f : InFlight) (p : Protect) : Bool :=
  f.trick.isSome && (groupOfFlight s f).any (fun g => decide (g.seq ≠ f.seq ∧ (g.prot.map (·.digest)) = some p.digest) &&
    hasEffect g.plan)

/-- A write order that the coordinator does not use is returned (R312). -/
def returnOrder (f : InFlight) (p : Protect) (s : State) : State :=
  if isWrite f.cmd.opcode = false ∨ orderShared s f p = true then s
  else match leadOf s f.ns p.digest with
    | none => s
    | some l =>
      if l = s.fab.nodeId then endOrder f.ns p.digest s else orderFrame l 0 f.ns p.digest 0 true 0 s

/-- After its commit step the coordinator tells the other holders, and the recorders that have not recorded yet
(R314). -/
def tellHolders (f : InFlight) (p : Protect) (ok : Bool) (s : State) : State :=
  let hs := keyHolders s f.ns p.digest
  let s1 := each (fun n s =>
    if n = s.fab.nodeId then s
    else
      sendRequest n { requestOf f p (if ok then 2 else 3) 0 with ok := ok } s) (hs.drop 2) s
  sendDecide f p ok ((recorders s f.ns p.digest).filter (fun n => decide (n ∉ p.recorded))) s1

end Sys2Proof.Machine
end

