-- ==== Sys2Proof/Machine/KeyValue.lean ====
section
/-! DEFINITION. The key-value service (ch 03): what each opcode answers and stores, tricks, and the commit step (R29). -/

namespace Sys2Proof.Machine

open Sys2Proof

/-! ## The value an opcode works on -/

/-- The stored value of a key: its bytes, version and suit. -/
structure Cur where
  value   : Bytes
  version : Nat
  suit    : Nat
  deriving DecidableEq, Repr

/-- The current value of a command's key: from the index, or for a protected key from the shards read (R318). -/
def curOf (s : State) (f : InFlight) : Option Cur :=
  match f.prot with
  | none => (lookup s f.ns f.cmd.key).map (fun x => { value := x.item.value, version := x.item.version, suit := x.item.suit })
  | some p =>
    match topShards p.shards with
    | [] => none
    | h :: t => if h.tombstone then none
      else some { value := joinShards (nsAt s f.ns) (h :: t), version := h.version, suit := h.suit }

/-- A bucket of the key lies in a failed group, whose lookups and commit steps are held (R410). -/
def groupHeld (s : State) (f : InFlight) : Bool :=
  isKeyed f.cmd.opcode && decide (groupOf (bucket1 (digestOf s f.ns f.cmd.key)) ∈ s.idx.failed)

/-- Codewords that a command must read of a stored record: its header and range for a GET, its header alone for EXISTS and
COMPARE_AND_PUT, the whole record for PUT_AT and APPEND (Table 04-5). -/
def neededReads (c : Cmd) (f : Found) : List Nat :=
  if f.entry.inDram then []
  else
    let h := f.entry.loc / 8 * 8
    match c.opcode with
    | 0x01 => h :: codewordsAt f.entry.loc (64 + f.item.key.length + offsetOf c) (getRange c f.item.value.length)
    | 0x04 => codewordsOf f.entry.loc f.item.units
    | 0x05 => codewordsOf f.entry.loc f.item.units
    | _ => [h]

/-- The command reads the whole of a stored record, so that rec_crc is checked too (log entry 104). -/
def readsWhole (c : Cmd) (f : Found) : Bool :=
  decide (c.opcode = 0x04 ∨ c.opcode = 0x05) ||
  (decide (c.opcode = 0x01) && (codewordsOf f.entry.loc f.item.units).all (fun a => decide (a ∈ neededReads c f)))

/-- The command reads the record that this module holds under its key: PUT and DELETE need none, and a protected command reads
it where this module is a holder that its read asks (R318). -/
def readsHere (s : State) (f : InFlight) : Bool :=
  decide (f.cmd.opcode ∈ [0x01, 0x04, 0x05, 0x06, 0x07]) &&
  (match f.prot with
   | none => true
   | some p => decide (s.fab.nodeId ∈ p.sent))

/-- The record that a command reads here and the check of it fails (R385, R454). -/
def failsCheck (s : State) (f : InFlight) : Option Found :=
  match lookup s f.ns f.cmd.key with
  | some x => if readsHere s f && unreadable x.entry x.item (readsWhole f.cmd x || f.prot.isSome) then some x else none
  | none => none

/-- The data a command needs cannot be reconstructed (Table 02-2, R452), a line of its staged data was lost (R527), or the record fails its check again after its
repair (R454). -/
def mediaLost (s : State) (f : InFlight) : Bool :=
  f.spoiled || (failsCheck s f).isSome ||
  (readsHere s f &&
    (match lookup s f.ns f.cmd.key with
     | some x => (neededReads f.cmd x).any (fun a => decide (a ∈ s.med.lost))
     | none => false))

/-- The codewords of a record that failed its check are repaired by meld reconstruction, before it is checked again (R454). -/
def repairFailed (s0 : State) (f : InFlight) (s : State) : State :=
  match failsCheck s0 f with
  | some x => if x.entry.inDram then s else each codewordRepaired (codewordsOf x.entry.loc x.item.units) s
  | none => s

/-! ## Plans: what each opcode answers (R114 to R124) -/

/-- GET (R114, R115, R111): `fault` is the number of bytes delivered before the host bus failed. -/
def planGet (c : Cmd) (cur : Option Cur) (fault : Option Nat) : Plan :=
  match cur with
  | none => { status := stNotFound }
  | some x =>
    if x.value.length < offsetOf c then { status := stRange }
    else
      let n := getRange c x.value.length
      let got := min n (listTotal c)
      let data := (x.value.drop (offsetOf c)).take got
      match fault with
      | some k => if k < got then { status := stDma, version := x.version, vlen := k, data := data.take k }
        else { status := if got < n then stTruncated else stOk, version := x.version, vlen := got, data := data }
      | none => { status := if got < n then stTruncated else stOk, version := x.version, vlen := got, data := data }

/-- EXISTS (R124). -/
def planExists (cur : Option Cur) : Plan :=
  match cur with
  | none => { status := stNotFound }
  | some x => { status := stOk, version := x.version, vlen := x.value.length }

/-- The whole value is replaced or created (R116). -/
def planPut (f : InFlight) (version : Nat) (data : Bytes) : Plan :=
  { status := stOk, version := version, vlen := f.cmd.length, effect := .store f.ns f.cmd.key data f.suit }

/-- COMPARE_AND_PUT (R117). -/
def planCompare (f : InFlight) (cur : Option Cur) (version : Nat) (data : Bytes) : Plan :=
  match cur with
  | none => if f.cmd.aux % 2 ^ 64 = 0 then planPut f version data else { status := stVersion }
  | some x => if x.version = f.cmd.aux % 2 ^ 64 then planPut f version data else { status := stVersion, version := x.version }

/-- DELETE (R118). -/
def planDelete (f : InFlight) (cur : Option Cur) : Plan :=
  match cur with
  | none => { status := stNotFound }
  | some _ => { status := stOk, effect := .delete f.ns f.cmd.key }

/-- The value after `data` has been written at `off`. -/
def overlay (v data : Bytes) (off : Nat) : Bytes := v.take off ++ data ++ v.drop (off + data.length)

/-- PUT_AT (R120, R121). -/
def planPutAt (f : InFlight) (cur : Option Cur) (version : Nat) (data : Bytes) : Plan :=
  match cur with
  | none => { status := stNotFound }
  | some x =>
    if x.value.length < offsetOf f.cmd then { status := stRange }
    else if f.cmd.length = 0 then { status := stOk, version := x.version }
    else { status := stOk, version := version, vlen := f.cmd.length,
           effect := .store f.ns f.cmd.key (overlay x.value data (offsetOf f.cmd)) x.suit }

/-- APPEND (R122, R123): a key that no value is stored under is created in the command's own suit. -/
def planAppend (f : InFlight) (cur : Option Cur) (version : Nat) (data : Bytes) : Plan :=
  match cur with
  | none => planPut { f with suit := f.asked } version data
  | some x =>
    if Config.maxValue < x.value.length + f.cmd.length then { status := stLength }
    else if f.cmd.length = 0 then { status := stOk, version := x.version }
    else { status := stOk, version := version, vlen := f.cmd.length,
           effect := .store f.ns f.cmd.key (x.value ++ data) x.suit }

/-- The version that the command's commit step will give, as far as it is known now (R106, R313). -/
def versionFor (s : State) (f : InFlight) : Nat :=
  match f.prot with
  | none => nextVersion s
  | some p => p.version

/-- The plan of a keyed command. `input` is its write data, none when reading it failed (R111). -/
def planKeyed (s : State) (f : InFlight) (input : Option Bytes) (fault : Option Nat) : Plan :=
  let cur := curOf s f
  let v := versionFor s f
  if (match f.prot with | some p => p.failed | none => false) then { status := stFabric }
  else if carriesData f.cmd.opcode && input.isNone then { status := stDma }
  else if mediaLost s f then { status := stMedia }
  else
    let d := input.getD []
    match f.cmd.opcode with
    | 0x01 => planGet f.cmd cur fault
    | 0x02 => planPut f v d
    | 0x03 => planDelete f cur
    | 0x04 => planPutAt f cur v d
    | 0x05 => planAppend f cur v d
    | 0x06 => planExists cur
    | 0x07 => planCompare f cur v d
    | _ => {}

/-! ## ENUMERATE (R130 to R132, R398, R399) -/

/-- Order of two keys of equal digest: by length, then by bytes (R398). -/
def keyLe (a b : Bytes) : Bool :=
  if a.length = b.length then decide (beNat a ≤ beNat b) else decide (a.length < b.length)

/-- Order of the objects listed (R398). -/
def listLe (a b : Record) : Bool := if a.digest = b.digest then keyLe a.key b.key else decide (a.digest < b.digest)

/-- Insert into a sorted list. -/
def listInsert (r : Record) : List Record → List Record
  | [] => [r]
  | a :: t => if listLe r a then r :: a :: t else a :: listInsert r t

/-- Objects of a namespace in `count` groups from the start digest's group on, in list order (R398). -/
def scanned (s : State) (ns start count : Nat) : List Record :=
  let g := groupOf (bucket1 start)
  let l := (allEntries s).filterMap (fun p => match recordAt s p.2 with
    | some r => if r.ns = ns ∧ r.kind = 0 ∧ start ≤ r.digest ∧ groupOf (bucket1 r.digest) < g + count ∧
        (p.2.inDram || !deadAddr s p.2.loc) = true then some r else none
    | none => none)
  l.foldl (fun t r => listInsert r t) []

/-- Length of the value an object holds; for a shard of a spread, of the whole value. -/
def valueLength (r : Record) : Nat := if r.k = 0 then r.value.length else r.whole

/-- One entry (Table 03-6). -/
def enumEntry (r : Record) : Bytes :=
  natLe 32 (pack [(0, 128, r.digest), (128, 64, r.version), (192, 27, valueLength r), (224, 9, r.key.length)]) ++
  r.key ++ List.replicate (ceilDiv r.key.length 8 * 8 - r.key.length) 0

/-- Runs of equal digest at the head of a sorted list. -/
def sameDigest (d : Nat) (l : List Record) : List Record × List Record :=
  (l.takeWhile (fun r => decide (r.digest = d)), l.dropWhile (fun r => decide (r.digest = d)))

/-- What a listing holds: its entries, its bytes, and why it stopped: none at the end of the objects, or the digest and
bytes of the run that did not fit. -/
def listing (room limit : Nat) : Nat → List Record → List Record → Nat → List Record × Option (Nat × Nat)
  | 0, _, acc, _ => (acc, none)
  | _ + 1, [], acc, _ => (acc, none)
  | n + 1, r :: t, acc, used =>
    match sameDigest r.digest (r :: t) with
    | (run, rest) =>
      let size := sumOf (fun x => (enumEntry x).length) run
      if room < used + size ∨ (acc ≠ [] ∧ limit < acc.length + run.length) then (acc, some (r.digest, size))
      else listing room limit n rest (acc ++ run) (used + size)

/-- The output of ENUMERATE (Table 03-6). -/
def enumOutput (s : State) (f : InFlight) : Bytes :=
  let start := areaLo f.cmd
  let room := bufferBytes f.cmd
  let limit := if maxEntries f.cmd = 0 then room else maxEntries f.cmd
  let objs := scanned s f.ns start f.scan
  let next := groupOf (bucket1 start) + f.scan
  match listing room limit objs.length objs [] 32 with
  | (l, stop) =>
    let short := decide (l = []) && stop.isSome
    let last := match l.getLast? with | some r => (r.digest + 1) % 2 ^ 128 | none => 0
    let more := stop.isSome || decide (next < Config.groups)
    let nd := match stop with
      | some (d, _) => if short then d else last
      | none => if next < Config.groups then groupDigest next else 0
    let need := match stop with | some (_, n) => if short then 32 + n else 0 | none => 0
    natLe 32 (pack [(0, 32, l.length), (32, 1, b2n more), (33, 1, b2n short), (64, 32, need), (128, 128, nd)]) ++
      l.flatMap enumEntry

/-- A header that the scan of ENUMERATE reads is lost or fails its check (R398, R452, R454): of the entries of its groups with the
namespace's ns_check. -/
def scanUnread (s : State) (f : InFlight) : Bool :=
  let g := groupOf (bucket1 (areaLo f.cmd))
  (allEntries s).any (fun p =>
    let k := match p.1 with
      | .slot n => groupOf (n / 4)
      | .stash i => groupOf ((s.idx.stash[i]?).getD (0, p.2)).1
    decide (p.2.nsChk = f.ns % 64 ∧ g ≤ k ∧ k < g + f.scan) && (p.2.inDram || !deadAddr s p.2.loc) &&
    (match recordAt s p.2 with
     | some r => unreadable p.2 r false || (!p.2.inDram && decide (p.2.loc / 8 * 8 ∈ s.med.lost))
     | none => false))

/-- An answer of data to a list: cut where the host bus failed (R111). -/
def planData (d : Bytes) (fault : Option Nat) : Plan :=
  match fault with
  | some k => if k < d.length then { status := stDma, vlen := k, data := d.take k } else { vlen := d.length, data := d }
  | none => { vlen := d.length, data := d }

/-! ## Making an effect (R29) -/

/-- The record that a command's effect stores here: none at a coordinator that holds no shard of the key. -/
def effectRecord (s : State) (f : InFlight) (e : Effect) : Option Record :=
  match e with
  | .store ns key value suit =>
    match f.prot with
    | none => some (valueRecord f ns (digestOf s ns key) (nextVersion s) suit key value)
    | some p => (myShard s f p suit false value).map (fun h => shardRecord h f.medium)
  | .delete ns key =>
    let suit := match lookup s ns key with | some x => x.item.suit | none => f.suit
    match f.prot with
    | none => some (tombRecord f ns (digestOf s ns key) (nextVersion s) suit key)
    | some p => (myShard s f p suit true []).map (fun h => shardRecord h f.medium)
  | _ => none

/-- The effect is applied: the record is committed, or the hint journalled. -/
def applyEffect (f : InFlight) (e : Effect) (s : State) : State :=
  match e with
  | .hint ns scope suit lo hi =>
    commitHint { ns := ns, scope := scope, suit := suit, lo := lo, hi := hi, time := f.stamp.time } s
  | _ =>
    match effectRecord s f e with
    | none => kittyCancel f.kitty s
    | some r =>
      if f.medium then
        match f.placed with
        | some a => commitRecord r (.flash a) s
        | none => s
      else
        let used := min f.kitty (512 * r.units)
        settleKitty f.kitty used
          (commitRecord r (.buffer (debitSet s f.session f.seq) used (f.session, f.seq)) s)

/-- A command without an effect gives back its kitty bytes and its debit. -/
def noEffect (f : InFlight) (s : State) : State :=
  kittyCancel f.kitty (undebit (.command f.session f.seq) s)

/-- The completion's version of a write is that of its commit step. -/
def finalVersion (s : State) (f : InFlight) (p : Plan) : Nat :=
  match p.effect, f.prot with
  | .store _ _ _ _, none => nextVersion s
  | _, _ => p.version

/-- The status of a protected write that is not applied: FABRIC_UNREACHABLE, or what its trick gave it (R163, R314). -/
def undecided (p : Plan) : Nat := if p.status = stOk then stFabric else p.status

/-- The commit step of one command: its effect, its outcome, its completion (R29, R53). A protected write answers
FABRIC_UNREACHABLE without effect when that was decided (R314). -/
def commitFlight (f : InFlight) (s : State) : State :=
  match f.prot with
  | none =>
    if hasEffect f.plan then
      recordOutcome f { f.plan with version := finalVersion s f f.plan } (applyEffect f f.plan.effect s)
    else recordOutcome f f.plan (noEffect f s)
  | some p =>
    if hasEffect f.plan then
      match p.decided with
      | some true => tellHolders f p true (recordOutcome f f.plan (applyEffect f f.plan.effect s))
      | _ => tellHolders f p false (recordOutcome f { status := undecided f.plan } (noEffect f s))
    else recordOutcome f f.plan (returnOrder f p (noEffect f s))

/-! ## When a commit step may happen -/

/-- Writes, hints and tricks accepted before in the same session come first (R56). -/
def sessionFirst (s : State) (f : InFlight) : Bool :=
  s.dlr.inflight.any (fun g => decide (g.session = f.session) && later f.seq g.seq &&
    !decide (g.trick ≠ none ∧ g.trick = f.trick) && (isWrite g.cmd.opcode || decide (g.cmd.opcode = 0x08)))

/-- Writes of the same key with earlier stamps come first (R56, R105). -/
def keyFirst (s : State) (f : InFlight) : Bool :=
  isWrite f.cmd.opcode && s.dlr.inflight.any (fun g => isWrite g.cmd.opcode && decide (g.ns = f.ns ∧ g.cmd.key = f.cmd.key) &&
    stampBefore g.stamp f.stamp && !decide (g.trick ≠ none ∧ g.trick = f.trick))

/-- What a command waits for beside other commands: its row on flash with parity in medium mode (R150), and for a
protected write one recorder (R314). -/
def settled (f : InFlight) : Bool :=
  match f.phase with
  | .planned =>
    if hasEffect f.plan then
      (!f.medium || f.placed.isNone || f.landed) &&
      (match f.prot with
       | none => true
       | some p => p.decided.isSome && decide (p.recorded ≠ []))
    else true
  | _ => false

/-- The commit step may happen now. -/
def committable (s : State) (f : InFlight) : Bool :=
  let l := groupOfFlight s f
  l.all (fun g => settled g && !groupHeld s g && !(hasEffect g.plan && sessionFirst s g))

/-- The versions that a trick's members took from members before them follow the commit steps made since (R162). -/
def shiftVersion (base : Nat) (s : State) (f : InFlight) : InFlight :=
  match f.prot with
  | some _ => f
  | none => if base < f.plan.version then { f with plan := { f.plan with version := f.plan.version + (s.commits - base) } } else f

/-- The commit step of a command, or of a trick in member order (R162, R165). The header's plan keeps the count of commit
steps at which the trick was worked out. -/
def commitGroup (f : InFlight) (s : State) : State :=
  match f.trick with
  | none => commitFlight f s
  | some h =>
    match findFlight s f.session h with
    | none => s
    | some hd =>
      let base := hd.plan.version
      let s0 := s
      each (fun g => commitFlight (shiftVersion base s0 g))
        ({ hd with plan := { hd.plan with version := 0 } } :: (groupOfFlight s f).filter (fun g => decide (g.seq ≠ h))) s

/-- The commit step, if it may happen: none before boot_stage 4 (R689). -/
def tryCommit (id seq : Nat) (s : State) : State :=
  match findFlight s id seq with
  | none => s
  | some f =>
    if s.boot.stage ≠ 4 ∨ (f.trick.isSome ∧ f.trick ≠ some seq) then s
    else if committable s f then commitGroup f s
    else s

/-! ## Running a command -/

/-- The command has what it needs to run: it is ready, earlier writes of its key are committed, its groups serve. -/
def mayRun (s : State) (f : InFlight) : Bool :=
  (match f.phase with | .ready => true | _ => false) && !keyFirst s f && !groupHeld s f

/-- A protected command still has to read the current value (R318). -/
def mustRead (f : InFlight) : Bool :=
  match f.prot with
  | none => false
  | some p => needsValue f.cmd.opcode && !p.read

/-- The write data of a command: what the module holds already, or what the host bus brings now (R684); of no bytes there is
nothing to bring. -/
def inputOf (f : InFlight) (data : Option Bytes) : Option Bytes :=
  match f.cmd.data with
  | some d => some d
  | none => match data with
    | some d => if d.length < f.cmd.length then none else some (d.take f.cmd.length)
    | none => if f.cmd.length = 0 then some [] else none

/-- The bytes of a read have been taken: its overlap entry is freed (R153). -/
def readTaken (f : InFlight) (s : State) : State :=
  if isKeyed f.cmd.opcode && !isWrite f.cmd.opcode then freeOverlap f.session f.seq s else s

/-- A command is planned, and a protected write with an effect sends its shards (R314). -/
def setPlan (f : InFlight) (p : Plan) (s : State) : State :=
  let s1 := modFlight f.session f.seq (fun g => { g with plan := p, phase := .planned }) s
  match f.prot with
  | none => s1
  | some q =>
    match p.effect with
    | .store _ _ value suit => holdShards f q suit false value s1
    | .delete _ _ => holdShards f q ((curOf s f).map (·.suit) |>.getD f.suit) true [] s1
    | _ => s1

/-- A keyed command outside a trick runs. -/
def runKeyed (op session seq : Nat) (data : Option Bytes) (fault : Option Nat) (s : State) : State :=
  match findFlight s session seq with
  | none => s
  | some f =>
    if f.cmd.opcode ≠ op ∨ f.trick.isSome ∨ mayRun s f = false then s
    else if mustRead f then
      match f.prot with
      | some p => if p.asked = 0 then startRead f p s else s
      | none => s
    else
      readTaken f (setPlan f (planKeyed s f (inputOf f data) fault)
        (if f.prot.isNone then countLookup f.ns f.cmd.key (repairFailed s f s) else repairFailed s f s))

/-! ## Tricks (R158 to R166) -/

/-- Shards that hold what a member's effect leaves of its key. -/
def shardsAfter (s : State) (f : InFlight) (q : Protect) (e : Effect) : List Shard :=
  let x := nsAt s f.ns
  let l := List.range (shardCount x)
  match e with
  | .store _ _ value suit => l.map (shardFor x f q.digest q.version suit false value)
  | .delete _ _ => l.map (shardFor x f q.digest q.version f.suit true [])
  | _ => q.shards

/-- A member of the same protected key sees the effect of a member before it (R162). -/
def seeEffect (s : State) (f : InFlight) (p : Plan) (g : InFlight) : InFlight :=
  match f.prot, g.prot with
  | some q, some r =>
    if hasEffect p ∧ g.cmd.key = f.cmd.key then { g with prot := some { r with shards := shardsAfter s f q p.effect } } else g
  | _, _ => g

/-- Members one after another, each on the state that the earlier ones leave (R162): the plans, and the first member that
fails the trick (R163); the count bounds them. -/
def runFrom : Nat → List (InFlight × Option Bytes × Option Nat) → State → List (InFlight × Plan) × Option Nat
  | 0, _, _ => ([], none)
  | _ + 1, [], _ => ([], none)
  | k + 1, (f, d, n) :: t, s =>
    let p := planKeyed s f (inputOf f d) n
    let bad := isWrite f.cmd.opcode && decide (p.status ≠ stOk)
    let s1 := if hasEffect p ∧ f.prot.isNone then applyEffect { f with medium := false } p.effect s else s
    match runFrom k (t.map (fun x => (seeEffect s f p x.1, x.2))) s1 with
    | (l, b) => ((f, p) :: l, if bad then some f.seq else b)

/-- All members of a trick worked out in member order. -/
def runMembers (l : List (InFlight × Option Bytes × Option Nat)) (s : State) : List (InFlight × Plan) × Option Nat :=
  runFrom l.length l s

/-- The trick applies or is abandoned (R163 to R166). -/
def settleTrick (l : List (InFlight × Plan)) (failed : Option Nat) : List (InFlight × Plan) :=
  match failed with
  | none => l
  | some k =>
    if l.length < 2 then l
    else l.map (fun p => (p.1, if p.1.seq = k then { p.2 with effect := .none, data := [] }
      else { status := stAbandoned }))

/-- The header's status: OK, or TRICK_ABANDONED when the trick failed (R163, R165, R166). -/
def headerStatus (l : List (InFlight × Plan)) (failed : Option Nat) : Nat :=
  if failed.isSome ∧ 2 ≤ l.length then stAbandoned else stOk

/-- A trick runs: every member ready, protected values read, then all of it worked out at once; the bytes of its reads are
taken then (R153). -/
def runTrick (session seq : Nat) (data : List (Option Bytes)) (faults : List (Option Nat)) (s : State) : State :=
  match findFlight s session seq with
  | none => s
  | some h =>
    let members := (groupOfFlight s h).filter (fun g => decide (g.seq ≠ seq))
    if h.cmd.opcode ≠ 0x10 ∨ h.trick ≠ some seq ∨ mayRun s h = false ∨ members.all (mayRun s) = false then s
    else if members.any mustRead then
      each (fun g s => match g.prot with
        | some p => if mustRead g ∧ p.asked = 0 then startRead g p s else s
        | none => s) members s
    else
      let inputs := members.zipIdx.map (fun p => (p.1, (data.getD p.2 none), (faults.getD p.2 none)))
      match runMembers inputs s with
      | (l, failed) =>
        let s0 := modFlight session seq (fun g =>
          { g with plan := { status := headerStatus l failed, version := s.commits }, phase := .planned })
          (each (repairFailed s) members s)
        let s1 := each (fun p s => readTaken p.1 (setPlan p.1 p.2 s)) (settleTrick l failed) s0
        each (fun g => tryDecide g.session g.seq) members s1

/-! ## Commands without a key -/

/-- A command of this opcode that is ready. -/
def readyFor (s : State) (op session seq : Nat) : Option InFlight :=
  match findFlight s session seq with
  | none => none
  | some f => match f.phase with
    | .ready => if f.cmd.opcode = op then some f else none
    | _ => none

/-- Commands accepted before in the same session that have not completed (R133). -/
def earlierOpen (s : State) (f : InFlight) : Bool :=
  s.dlr.inflight.any (fun g => decide (g.session = f.session) && later f.seq g.seq)

/-- A write of the namespace accepted before is not committed yet (R56, R119). -/
def writesBefore (s : State) (f : InFlight) : Bool :=
  s.dlr.inflight.any (fun g => isWrite g.cmd.opcode && decide (g.ns = f.ns) && stampBefore g.stamp f.stamp)

/-- Writes of the session accepted before that are not programmed to flash yet (R133). DESIGN CHOICE, log entry 102: of a
protected write the records in this module's own rows count, not the shards at other holders. -/
def earlierUnprogrammed (s : State) (f : InFlight) : Bool :=
  s.med.melds.any (fun p => p.2.asm.any (fun y => match y.owner with
    | some (a, b) => decide (a = f.session) && later f.seq b
    | none => false))

/-! ## Meanings -/

/-- GET (R114, R115, R153): the bytes are taken, and the completion is worked out. -/
def execGet (session seq : Nat) (fault : Option Nat) (s : State) : R :=
  whenRunning (runKeyed 0x01 session seq none fault) s

/-- PUT (R116). -/
def execPut (session seq : Nat) (data : Option Bytes) (s : State) : R :=
  whenRunning (runKeyed 0x02 session seq data none) s

/-- DELETE (R118). -/
def execDelete (session seq : Nat) (s : State) : R := whenRunning (runKeyed 0x03 session seq none none) s

/-- PUT_AT (R120, R121). -/
def execPutAt (session seq : Nat) (data : Option Bytes) (s : State) : R :=
  whenRunning (runKeyed 0x04 session seq data none) s

/-- APPEND (R122, R123). -/
def execAppend (session seq : Nat) (data : Option Bytes) (s : State) : R :=
  whenRunning (runKeyed 0x05 session seq data none) s

/-- EXISTS (R124). -/
def execExistsKey (session seq : Nat) (s : State) : R := whenRunning (runKeyed 0x06 session seq none none) s

/-- COMPARE_AND_PUT (R117). -/
def execCompareAndPut (session seq : Nat) (data : Option Bytes) (s : State) : R :=
  whenRunning (runKeyed 0x07 session seq data none) s

/-- EXPIRE_HINT (R125, R126). -/
def execExpireHint (session seq : Nat) (s : State) : R :=
  whenRunning (fun s =>
    match readyFor s 0x08 session seq with
    | none => s
    | some f =>
      let e := Effect.hint f.ns (scopeOf f.cmd) f.cmd.suit (areaLo f.cmd) (areaHi f.cmd)
      modFlight session seq (fun g => { g with plan := { effect := e }, phase := .planned }) s) s

/-- ENUMERATE (R130 to R132): held while a group of its scan is failed (R410), and until the writes of its namespace accepted
before it are committed (R56, R119). -/
def execEnumerate (session seq : Nat) (fault : Option Nat) (s : State) : R :=
  whenRunning (fun s =>
    match readyFor s 0x09 session seq with
    | none => s
    | some f =>
      let g := groupOf (bucket1 (areaLo f.cmd))
      if s.idx.failed.any (fun k => decide (g ≤ k ∧ k < g + f.scan)) || writesBefore s f then s
      else modFlight session seq (fun x =>
          { x with plan := if f.spoiled || scanUnread s f then { status := stMedia } else planData (enumOutput s f) fault, phase := .planned }) s) s

/-- TRICK (R161 to R166). -/
def execTrick (session seq : Nat) (data : List (Option Bytes)) (faults : List (Option Nat)) (s : State) : R :=
  whenRunning (runTrick session seq data faults) s

/-- FLUSH_SESSION (R133). -/
def execFlushSession (session seq : Nat) (s : State) : R :=
  whenRunning (fun s =>
    match readyFor s 0x11 session seq with
    | none => s
    | some f =>
      if earlierOpen s f || (toMedium f.cmd && earlierUnprogrammed s f) then s
      else modFlight session seq (fun x => { x with phase := .planned }) s) s

/-- JOURNAL_QUERY (R135, R136). -/
def execJournalQuery (session seq : Nat) (fault : Option Nat) (s : State) : R :=
  whenRunning (fun s =>
    match readyFor s 0x12 session seq with
    | none => s
    | some f =>
      let d := queryOutput s (queryTarget f.cmd.area) (queryFirst f.cmd.area) (queryCount f.cmd.area)
      modFlight session seq (fun x => { x with plan := planData d fault, phase := .planned }) s) s

/-- COMMIT_STEP (R29): the effect, the index entry, the version and the journal outcome in one action; then the completion
is posted. -/
def execCommitStep (session seq : Nat) (s : State) : R := whenRunning (tryCommit session seq) s

end Sys2Proof.Machine
end

