-- ==== Sys2Proof/Machine/Sessions.lean ====
section
/-! DEFINITION. Sessions from their opening to their release: contexts, sequences as they arrive, withdrawals, draining
(R138 to R147, R167 to R172, R230 to R235, R260 to R266). -/

namespace Sys2Proof.Machine

open Sys2Proof

/-! ## Contexts (R230 to R234) -/

/-- A session identifier (Table 05-8, R299). -/
def sessionId (ctx gen port kind : Nat) : Nat := pack [(0, 20, ctx), (20, 28, gen), (50, 2, port), (52, 12, kind)]

/-- A context that a new session may be bound to. -/
def ctxFree (s : State) (c : Nat) : Bool :=
  decide (c < 2 ^ 20) && (ctxAt s c).session.isNone && !(ctxAt s c).spent

/-- The lowest free context for a client or fabric session (R230). -/
def freeCtx (s : State) : Option Nat :=
  ((List.range (s.host.ctxs.length + 1)).map (fun i => s.host.ctxLimit + i)).find? (ctxFree s)

/-- Context `c` is bound to a new session: its identifier, and the generation count goes up (R234). -/
def bindCtx (c port kind : Nat) (s : State) : State × Nat :=
  let x := ctxAt s c
  let id := sessionId c x.generation port kind
  (setCtx c { x with generation := x.generation + 1, spent := decide (0x0FFFFFFF ≤ x.generation + 1), session := some id } s,
   id)

/-- Session `id` is opened. -/
def openSession (id : Nat) (x : Session) (s : State) : State := { s with sessions := tput s.sessions id x }

/-- A session is released: its outcome store, its stages and its context are freed (R266, R332). -/
def releaseSession (id : Nat) (s : State) : State :=
  match sessFind s id with
  | none => s
  | some x =>
    let s1 := { s with sessions := tdel s.sessions id,
                       fab := { s.fab with stages := s.fab.stages.filter (fun p => decide (p.1 ≠ id)),
                                           early := s.fab.early.filter (fun p => decide (p.1 ≠ id)) } }
    setCtx x.ctx { ctxAt s1 x.ctx with session := none, queue := none } s1

/-! ## Draining (R261 to R263) -/

/-- The draining point of a session: what is not accepted is discarded without a record, completions held stay in the
journal only. -/
def drain (id : Nat) (s : State) : State :=
  match sessFind s id with
  | none => s
  | some x =>
    let gone := s.dlr.arrived.filter (fun a => decide (a.session = id))
    let s1 := each (fun a s => dropOrder id a.seq s) gone s
    let s2 := modSess id (fun y => { y with draining := true }) (dropArrived id (gone.map (·.seq)) s1)
    let s3 := { s2 with dlr := { s2.dlr with fetches := s2.dlr.fetches.filter (fun c => decide (c ≠ x.ctx)),
                                             backlog := s2.dlr.backlog.filter (fun c => decide (c ≠ x.ctx)) } }
    match (ctxAt s3 x.ctx).queue with
    | none => s3
    | some q => setQueue x.ctx { q with held := [] } s3

/-! ## Mailboxes and how their commands end (R252, R253, R255) -/

/-- A mailbox at rest. -/
def boxBlank : Nat → Mailbox := fun _ => {}

/-- Mailbox `b`; mailboxes 16p to 16p + 15 belong to port p. -/
def boxAt (s : State) (b : Nat) : Mailbox := tget boxBlank s.host.boxes b

/-- Mailbox `b` becomes `x`. -/
def setBox (b : Nat) (x : Mailbox) (s : State) : State :=
  { s with host := { s.host with boxes := tset boxBlank s.host.boxes b x } }

/-- The port of a mailbox. -/
def boxPort (b : Nat) : Nat := b / 16

/-- A mailbox command is done: output and status, then busy and go cleared, then vector 0 if asked for (R253). -/
def finishBox (b status : Nat) (out : Bytes) (s : State) : State :=
  let x := boxAt s b
  let s1 := setBox b { x with busy := false, status := status, outLen := out.length,
                              payload := bytesSet x.payload 0 out } s
  if x.irq then msix (boxPort b) 0 s1 else s1

/-! ## Deleting queues (R260 to R266) -/

/-- A queue's deletion begins; `box` is the mailbox that waits for it. -/
def startDelete (c : Nat) (release : Bool) (box : Option Nat) (s : State) : State :=
  match (ctxAt s c).session, (ctxAt s c).queue with
  | some id, some q =>
    modSess id (fun y => { y with release := release })
      (drain id (setQueue c { q with deleting := true, box := box, unsig := 0 } s))
  | _, _ => s

/-- The deletion completes: the response with highest accepted sequence and watermark is written, and the session is
deleted or released (R264, R266). -/
def finishDelete (c : Nat) (s : State) : State :=
  match (ctxAt s c).session, (ctxAt s c).queue with
  | some id, some q =>
    match sessFind s id with
    | none => s
    | some x =>
      let out := natLe 4 x.highest ++ natLe 4 (watermark s id x)
      let s1 := setCtx c { ctxAt s c with queue := none } (modSess id (fun y => { y with deleted := true }) s)
      let s2 := match q.box with | some b => finishBox b stOk out s1 | none => s1
      if x.release then releaseSession id s2 else s2
  | _, _ => s

/-! ## Sequences as they arrive (R142 to R145) -/

/-- The sequence was withdrawn (R170). -/
def wasWithdrawn (x : Session) (seq : Nat) : Bool :=
  decide (seq ∈ x.withdrawn) ||
  (match storeSlot x seq with
   | some r => r.done && decide (r.status = stWithdrawn ∧ r.seqCheck = seqCheck seq)
   | none => false)

/-- A command is taken in (Table 01-10). -/
def countTaken (s : State) : State := { s with dlr := { s.dlr with taken := s.dlr.taken + 1 } }

/-- A command arrives on a client session (Table 03-8, R143 to R145). -/
def arriveSeq (id seq : Nat) (x : Session) (c : Cmd) (s : State) : State :=
  let a : Arrived := { session := id, seq := seq, cmd := c, at_ := now s, queued := decide (seq = x.next) }
  let here := s.dlr.arrived.any (fun b => decide (b.session = id ∧ b.seq = seq))
  let put := fun (s : State) => if here || x.draining then s else { s with dlr := { s.dlr with arrived := s.dlr.arrived ++ [a] } }
  if seq = x.next then put s
  else if later seq x.next then
    if (seq + 2 ^ 32 - x.next) % 2 ^ 32 ≤ 4095 then
      if wasWithdrawn x seq then answer id seq stWithdrawn 0 0 s
      else
        match x.refusal with
        | some (st, t) => answer id seq st (if st = stRetry then t else 0) 0 s
        | none => put s
    else answer id seq stWindow 0 0 { s with dlr := { s.dlr with oow := s.dlr.oow + 1 } }
  else if wasWithdrawn x seq then answer id seq stWithdrawn 0 0 s
  else if (findFlight s id seq).isSome then s
  else answerDuplicate id seq s

/-! ## Withdrawing (R167 to R172) -/

/-- The sequences that a WITHDRAW of `seq` withdraws: the whole trick of a header not yet accepted (R171). -/
def withdrawGroup (s : State) (id seq : Nat) : List Nat :=
  match s.dlr.arrived.find? (fun a => decide (a.session = id ∧ a.cmd.opcode = 0x10) && !a.cmd.short &&
      decide ((seq + 2 ^ 32 - a.seq) % 2 ^ 32 ≤ trickCount a.cmd)) with
  | some a => (List.range (trickCount a.cmd + 1)).map (seqAdd a.seq)
  | none => [seq]

/-- One sequence is withdrawn: its record, unless the slot still holds an earlier command's, and its held datagram goes
(R170). -/
def withdrawOne (id seq : Nat) (s : State) : State :=
  let s0 := dropOrder id seq s
  let s1 := dropArrived id [seq] s0
  let s2 := match sessFind s1 id with
    | none => s1
    | some x =>
      if slotBusy x seq then s1
      else storeSet id seq { status := stWithdrawn, done := true, delivered := true, seqCheck := seqCheck seq } s1
  modSess id (fun y => { y with withdrawn := if seq ∈ y.withdrawn then y.withdrawn else y.withdrawn ++ [seq] }) s2

/-- n passes beyond withdrawn sequences (Table 03-8); a refusal of n ends with it (R143). -/
def passWithdrawn (id : Nat) (s : State) : State :=
  modSess id (fun y =>
    let m := advance y.withdrawn 8192 y.next
    if m = y.next then y
    else { y with next := m, refusal := none, withdrawn := y.withdrawn.filter (rememberWithdrawn m) }) s

/-- A WITHDRAW is decided (R168 to R172). -/
def withdraw (id seq : Nat) (x : Session) (s : State) : State :=
  if later seq x.next && decide (4095 < (seq + 2 ^ 32 - x.next) % 2 ^ 32) then
    answer id seq stWindow 0 0 { s with dlr := { s.dlr with oow := s.dlr.oow + 1 } }
  else if wasWithdrawn x seq then
    answer id seq stWithdrawn 0 0 { s with dlr := { s.dlr with withdrawn := s.dlr.withdrawn + 1 } }
  else if decide (seq = x.next) || later seq x.next then
    let s1 := passWithdrawn id (each (withdrawOne id) (withdrawGroup s id seq) s)
    answer id seq stWithdrawn 0 0 { s1 with dlr := { s1.dlr with withdrawn := s1.dlr.withdrawn + 1 } }
  else if (findFlight s id seq).isSome then s
  else
    match tfind x.sent seq with
    | some e => postClient x e true s
    | none => answerDuplicate id seq s

end Sys2Proof.Machine
end

