-- ==== Sys2Proof/Machine/HostPort.lean ====
section
/-! DEFINITION. The host ports (ch 05): straps, links, resets, doorbells and the fetching of submission entries. -/

namespace Sys2Proof.Machine

open Sys2Proof

/-! ## Ports (R213 to R219) -/

/-- Ports of a bifurcation (Table 05-1); the reserved code counts as 0b00. -/
def portCount (sel : Nat) : Nat := if sel = 1 then 2 else if sel = 2 then 4 else 1

/-- MSI-X vectors of each port (Table 05-1). -/
def vectorCount (sel : Nat) : Nat := 2048 / portCount sel

/-- PERST# of a port is deasserted (R213, R216, R220): the first deassertion after power-on samples the straps and fixes the ports.
DESIGN CHOICE, log entry 92: Request Retry Status ends 100 ms after the deassertion, the latest instant that R220 allows. -/
def deassertPerst (port bifSel : Nat) (clkSep : Bool) (s : State) : State :=
  let s1 := if s.host.sampled then s
    else
      let b := bifSel % 4
      let ports := (List.range (portCount b)).map (fun p => (p, ({} : Port)))
      let s0 := { s with host := { s.host with sampled := true, bifSel := b, clkSep := clkSep, ports := ports } }
      if b = 3 then event 0x0B01 [] s0 else s0
  modPort port (fun x => { x with perst := false, cfgAt := now s1 + 100000000 }) (railsUp s1)

/-- PERST_DEASSERT (R213, R676): a deassertion earlier than 25 ms after the supply came takes effect then. -/
def execPerstDeassert (port bifSel : Nat) (clkSep : Bool) (s : State) : R :=
  whenRunning (fun s =>
    if now s < s.boot.perstFrom then { s with host := { s.host with early := s.host.early ++ [(port, bifSel, clkSep)] } }
    else deassertPerst port bifSel clkSep s) s

/-- The early deassertions take effect once their time has come (R676). -/
def lateDeassert (s : State) : State :=
  if s.host.early.isEmpty ∨ now s < s.boot.perstFrom then s
  else each (fun x => deassertPerst x.1 x.2.1 x.2.2) s.host.early { s with host := { s.host with early := [] } }

/-- PCIe lanes of a port (Table 05-1). -/
def portLanes (sel : Nat) : Nat := 16 / portCount sel

/-- A word of configuration space (R215, R223, R678, Table 05-2). PRESUMED, log entry 90: the registers stand where the PCI Express
base specification has them; every other word reads 0. -/
def configWord (sel : Nat) (x : Port) (reg : Nat) : Nat :=
  match reg with
  | 0x000 => pack [(0, 16, 0x1F3A), (16, 16, 0x5120)]
  | 0x004 => pack [(0, 16, x.command), (20, 1, 1)]
  | 0x008 => pack [(0, 8, Config.stepping.toNat), (8, 24, 0x018000)]
  | 0x010 => x.bar0 % 2 ^ 32 + 4
  | 0x014 => x.bar0 / 2 ^ 32
  | 0x018 => x.bar2 % 2 ^ 32 + 4
  | 0x01C => x.bar2 / 2 ^ 32
  | 0x02C => pack [(0, 16, 0x1F3A), (16, 16, 0x0064)]
  | 0x034 => 0x40
  | 0x040 => pack [(0, 8, 0x10), (16, 4, 2)]
  | 0x044 => pack [(0, 3, 5), (5, 1, 1), (28, 1, 1)]
  | 0x048 => x.devCtl
  | 0x04C => pack [(0, 4, 6), (4, 6, portLanes sel), (10, 2, 2)]
  | 0x050 => pack [(0, 16, x.linkCtl), (16, 4, if x.inL0 then x.rate + 1 else 0), (20, 6, if x.inL0 then x.width else 0)]
  | 0x100 => pack [(0, 16, 1), (16, 4, 2)]
  | 0x108 => x.aerMask
  | 0x114 => x.aerCorr
  | _ => 0

/-- A write to configuration space: Command, the BARs to their sizes of 16 MiB and 8 MiB, Device Control with payload and
read request sizes of 128 to 4,096 bytes, ASPM L1 without L0s, the error masks. -/
def writeConfig (reg v : Nat) (x : Port) : Port :=
  match reg with
  | 0x004 => { x with command := pack [(1, 1, bits v 1 1), (2, 1, bits v 2 2), (6, 1, bits v 6 6), (8, 1, bits v 8 8), (10, 1, bits v 10 10)] }
  | 0x010 => { x with bar0 := x.bar0 / 2 ^ 32 * 2 ^ 32 + v % 2 ^ 32 / 2 ^ 24 * 2 ^ 24 }
  | 0x014 => { x with bar0 := v % 2 ^ 32 * 2 ^ 32 + x.bar0 % 2 ^ 32 }
  | 0x018 => { x with bar2 := x.bar2 / 2 ^ 32 * 2 ^ 32 + v % 2 ^ 32 / 2 ^ 23 * 2 ^ 23 }
  | 0x01C => { x with bar2 := v % 2 ^ 32 * 2 ^ 32 + x.bar2 % 2 ^ 32 }
  | 0x048 => { x with devCtl := pack [(0, 5, bits v 4 0), (5, 3, min 5 (bits v 7 5)), (8, 4, bits v 11 8), (12, 3, min 5 (bits v 14 12))] }
  | 0x050 => { x with linkCtl := pack [(1, 1, bits v 1 1), (3, 13, bits v 15 3)] }
  | 0x108 => { x with aerMask := v % 2 ^ 32 }
  | 0x114 => { x with aerCorr := v % 2 ^ 32 }
  | _ => x

/-- HOST_LINK_CHANGE (R215, R217, R218): the negotiated width, rate and whether the link is in L0. A width above the port's, or
a rate that Table 05-2 does not list, is none that the link takes. A return to L0, or another width or rate in L0, is a
retrain (Table 05-19). -/
def execHostLinkChange (port : Nat) (inL0 : Bool) (width rate : Nat) (s : State) : R :=
  whenRunning (guard (decide (width ∈ [1, 2, 4, 8, 16] ∧ width ≤ portLanes s.host.bifSel ∧ rate ≤ 5)) (modPort port (fun x =>
    let again := inL0 && (if x.inL0 then decide (x.width ≠ width ∨ x.rate ≠ rate) else x.wasUp)
    { x with inL0 := inL0, width := width, rate := rate, wasUp := x.wasUp || inL0,
             retrains := min 15 (x.retrains + b2n again) }))) s

/-- Contexts bound to host sessions of a port. -/
def portCtxs (s : State) (p : Nat) : List (Nat × Ctx) :=
  s.host.ctxs.filter (fun c => match c.2.session with
    | some id => decide (id / 2 ^ 52 = 0 ∧ bits id 51 50 = p)
    | none => false)

/-- The mailboxes of a port read idle after its reset (R255). A command that runs, a queue deletion, goes on without a mailbox
for its output. DESIGN CHOICE, log entry 94: a command that the management core has not taken yet does not run, so it ends
with the reset; a go written after the reset starts the next command as ever. -/
def resetBoxes (p : Nat) (s : State) : State :=
  let free := fun (q : Queue) => if q.box.map boxPort = some p then { q with box := none } else q
  { s with host := { s.host with
      boxes := s.host.boxes.filter (fun b => decide (boxPort b.1 ≠ p)),
      goQueue := s.host.goQueue.filter (fun b => decide (boxPort b ≠ p)),
      ctxs := s.host.ctxs.map (fun c => (c.1, { c.2 with queue := c.2.queue.map free })) } }

/-- The task set with its running task abandoned; a MODULE_RESET already requested stays so (R259). -/
def resetTasks (p : Nat) (s : State) : State :=
  let l := s.host.tasks.map (fun t => if t.1 / 4 = p then (t.1, { t.2 with busy := false }) else t)
  { s with host := { s.host with tasks := l } }

/-- The queues of a port are deleted, the reset being the draining point (R219). -/
def deletePort (p : Nat) (s : State) : State :=
  each (fun c s => match c.2.queue with
    | some q => if q.deleting then s else startDelete c.1 false none s
    | none => s) (portCtxs s p) s

/-- The reset takes the link down. -/
def takesDown : PortResetCause → Bool
  | .perst => true | .linkDown => true | .hotReset => false | .flr => false | .busMasterOff => false

/-- PERST# is asserted. -/
def isPerst : PortResetCause → Bool
  | .perst => true | .linkDown => false | .hotReset => false | .flr => false | .busMasterOff => false

/-- A port is reset (R219, R228, R255, R259, R675): of the registers, its cause bits and its mask alone. -/
def resetPort (p : Nat) (cause : PortResetCause) (s : State) : State :=
  followAlert (modPort p (fun x =>
    { x with unlock := none, latch := none, cause := 0, mask := 0, inL0 := x.inL0 && !takesDown cause,
             perst := x.perst || isPerst cause, perstAt := if isPerst cause && !x.perst then now s else x.perstAt })
    (resetTasks p (resetBoxes p (deletePort p s))))

/-- PORT_RESET (R219). -/
def execPortReset (port : Nat) (cause : PortResetCause) (s : State) : R :=
  whenRunning (fun s =>
    let s := if isPerst cause then { s with host := { s.host with early := s.host.early.filter (fun x => decide (x.1 ≠ port)) } } else s
    guard (tfind s.host.ports port).isSome (resetPort port cause) s) s

/-- WAKE_RELEASE (R661): every present link in L0, or 100 ms. -/
def execWakeRelease (s : State) : R :=
  whenRunning (guard (s.host.wake && (s.host.ports.all (fun p => p.2.inL0) || decide (s.host.wakeAt + 100000000 ≤ now s)))
    (fun s => emit (.wake false) { s with host := { s.host with wake := false } })) s

/-- CONFIG_REQUEST (R215, R219, R220): retry status until 100 ms after PERST# deassertion; from then on a read answers with
the word of configuration space and a write changes it. Clearing Bus Master Enable resets the port. -/
def execConfigRequest (cycle : ConfigCycle) (s : State) : R :=
  whenRunning (fun s =>
    let port := cycle.port
    let reg := cycle.reg
    match tfind s.host.ports port with
    | none => s
    | some x =>
      if x.perst then s
      else if now s < x.cfgAt then emit (.cfgRetry port) s
      else
        match cycle.write with
        | none => emit (.cfgAnswer port (configWord s.host.bifSel x reg)) s
        | some v =>
          let s1 := emit (.cfgAnswer port 0) (modPort port (writeConfig reg v) s)
          if reg = 0x004 ∧ bit x.command 2 = true ∧ bit v 2 = false then resetPort port .busMasterOff s1 else s1) s

/-! ## Doorbells (R243 to R246) -/

/-- The doorbell write is in error: doorbell_error on the port that wrote, and the count (R246). -/
def doorbellError (p : Nat) (s : State) : State :=
  raiseOn 4 p { s with host := { s.host with doorErr := s.host.doorErr + 1 } }

/-- The new head frees only slots that hold posted entries (R245, R246). -/
def headOk (q : Queue) (head : Nat) : Bool :=
  decide (head < q.cqSize ∧ (head + q.cqSize - q.cqHead) % q.cqSize ≤ cqUsed q)

/-- The tail is written: the entries up to it are submitted, and their fetch is queued (R244). -/
def writeTail (c : Nat) (q : Queue) (tail : Nat) (s : State) : State :=
  if tail = q.tail then s
  else
    let s1 := setQueue c { q with tail := tail } s
    if tail = q.fetch ∨ q.error ∨ c ∈ s.dlr.fetches then s1
    else { s1 with dlr := { s1.dlr with fetches := s1.dlr.fetches ++ [c] } }

/-- A doorbell write of either field or both, ignored as R246 gives. -/
def doorbell (p c : Nat) (tail head : Option Nat) (s : State) : State :=
  match (ctxAt s c).queue with
  | none => s
  | some q =>
    if q.deleting then s
    else
      let ok := decide (q.port = p) && (match tail with | some t => decide (t < q.sqSize) | none => true) &&
        (match head with | some h => headOk q h | none => true)
      if ok = false then doorbellError p s
      else
        let q1 := match head with | some h => { q with cqHead := h } | none => q
        match tail with
        | some t => writeTail c q1 t (setQueue c q1 s)
        | none => setQueue c q1 s

/-- SQ_TAIL_WRITE (R243, R244, R246, R590); `head` is the other half of a 64-bit write. -/
def execSqTailWrite (port ctx tail : Nat) (head : Option Nat) (s : State) : R :=
  whenRunning (fun s => doorbell port ctx (some tail) head (startExit s)) s

/-- CQ_HEAD_WRITE (R243, R245, R246, R590). -/
def execCqHeadWrite (port ctx head : Nat) (s : State) : R :=
  whenRunning (fun s => doorbell port ctx none (some head) (startExit s)) s

/-! ## Fetching (R209, R235, R244, R267, R689) -/

/-- The Dealer leaves the input of a context untaken: every cache line is pinned (R235). -/
def leftUntaken (c : Nat) (s : State) : State :=
  if c ∈ s.dlr.backlog then s
  else
    let s1 := countStall s
    { s1 with dlr := { s1.dlr with backlog := s1.dlr.backlog ++ [c], fetches := s1.dlr.fetches.filter (fun x => decide (x ≠ c)) } }

/-- A failed fetch is repeated once; the second failure puts the queue in the error state (R267). -/
def fetchFailed (c : Nat) (q : Queue) (s : State) : State :=
  if q.retried then
    let s1 := setQueue c { q with error := true, retried := false } s
    raiseOn 5 q.port { s1 with dlr := { s1.dlr with fetches := s1.dlr.fetches.filter (fun x => decide (x ≠ c)) } }
  else
    let s1 := setQueue c { q with retried := true } s
    { s1 with host := { s1.host with fetchRetry := s1.host.fetchRetry + 1 } }

/-- A fetched entry is taken in: it has the next sequence of its queue (R140), and waits for its admission step. -/
def entryFetched (c : Nat) (q : Queue) (f : Fetched) (s : State) : State :=
  let a : Arrived := { session := q.session, seq := q.nextSeq, cmd := hostCmd f, at_ := now s, queued := true }
  let next := if q.fetch + 1 = q.sqSize then 0 else q.fetch + 1
  let s1 := setQueue c { q with fetch := next, nextSeq := seqAdd q.nextSeq 1, retried := false } (countTaken s)
  let rest := s1.dlr.fetches.filter (fun x => decide (x ≠ c))
  { s1 with dlr := { s1.dlr with arrived := s1.dlr.arrived ++ [a], fetches := if next = q.tail then rest else rest ++ [c] } }

/-- An entry of the context can be fetched. -/
def fetchable (s : State) (c : Nat) : Bool :=
  match (ctxAt s c).queue with
  | none => false
  | some q => !q.deleting && !q.error && decide (q.fetch ≠ q.tail)

/-- The context whose turn it is: the first of those that wait, in round-robin order, with an entry to fetch (R209). -/
def nextFetch (s : State) : Option Nat := s.dlr.fetches.find? (fetchable s)

/-- The command of a fetched entry is searched by its key as well (R417). -/
def fetchedKeyed (res : Option Fetched) : Bool := match res with | some f => isKeyed (bits f.entry 7 0) | none => false

/-- SUBMISSION_ENTRY_FETCH (R209, R232, R236, R244, R267, R431): the entry at the fetch position of the queue whose turn it is
arrives from host memory, or its fetch fails. -/
def execSubmissionEntryFetch (ctx : Nat) (res : Option Fetched) (s : State) : R :=
  whenRunning (fun s =>
    match (ctxAt s ctx).queue with
    | none => s
    | some q =>
      if dealerOn s = false ∨ nextFetch s ≠ some ctx then s
      else if cacheFull s ctx then leftUntaken ctx s
      else if intakeHeld s (fetchedKeyed res) then countStall s
      else
        let s1 := emit (.hostRead q.port (q.sqBase + 64 * q.fetch) 64) s
        match res with
        | none => fetchFailed ctx q s1
        | some f => entryFetched ctx q f (spendSearches (fetchedKeyed res) s1)) s

/-- INTAKE_BACKLOG_RESUME (R209, R235): contexts left untaken are taken up again in round-robin order while their lines
can be cached. -/
def execIntakeBacklogResume (s : State) : R :=
  whenRunning (guard (dealerOn s) (fun s =>
    let ready := s.dlr.backlog.filter (fun c => !cacheFull s c)
    { s with dlr := { s.dlr with backlog := s.dlr.backlog.filter (fun c => decide (c ∉ ready)),
                                 fetches := s.dlr.fetches ++ ready.filter (fun c => decide (c ∉ s.dlr.fetches)) } })) s

/-- QUEUE_DELETE_COMPLETE (R264): no command of the session is in flight. -/
def execQueueDeleteComplete (ctx : Nat) (s : State) : R :=
  whenRunning (fun s =>
    match (ctxAt s ctx).session, (ctxAt s ctx).queue with
    | some id, some q => guard (q.deleting && (inflightOf s id).isEmpty) (finishDelete ctx) s
    | _, _ => s) s

end Sys2Proof.Machine
end

