-- ==== Sys2Proof/Machine/Client.lean ====
section
/-! DEFINITION. The client transport (R326 to R337, R690 to R692): sessions of remote clients, their datagrams, staged
data, and the discovery of peers. -/

namespace Sys2Proof.Machine

open Sys2Proof

/-! ## Which datagrams are taken (R329, R357, R689, R692) -/

/-- The trunk serves the address family of a source (R357). -/
def serves (k : ClientTrunk) (addr : Nat) : Bool := if isV4 addr then k.v4 else k.v6

/-- The trunk a datagram arrives on, if its lane's frames are passed on to the client transport (R357, R689, R590). -/
def arrivalTrunk (s : State) (d : Dgram) : Option Nat :=
  match trunkOf s d.lane with
  | none => none
  | some t =>
    if (laneAt s d.lane).cfg.client && serves (trunkAt s t) d.srcAddr && dealerOn s && decide (s.pwr.state < 2) then some t
    else none

/-- A datagram is dropped and counted in FAB_CLIENT_DROP. -/
def dropClient (s : State) : State := { s with fabc := { s.fabc with clientDrop := s.fabc.clientDrop + 1 } }

/-- A datagram is dropped and counted in FAB_TYPE_DROP. -/
def dropType (s : State) : State := { s with fabc := { s.fabc with typeDrop := s.fabc.typeDrop + 1 } }

/-- A frame is dropped on a lane and counted as filtered (R357). -/
def dropFiltered (lane : Nat) (s : State) : State := countLane lane 22 1 s

/-- The client header is one that the module takes (Table 06-10). -/
def headerOk (d : Dgram) : Bool := decide (d.magic = 0x574C ∧ d.version = 1)

/-- A datagram that is not taken for its length: its body is cut short, or its UDP payload exceeds 8,944 bytes (R329). DESIGN CHOICE,
log entry 105: the second is counted in FAB_CLIENT_DROP like the first. -/
def tooShortOrLong (d : Dgram) : Bool := decide (d.body.length < d.bodyLen ∨ 8944 < 32 + d.body.length)

/-- Types that a client sends (Table 06-11). -/
def clientType (k : Nat) : Bool := decide (k ∈ [1, 3, 4, 7, 8])

/-- The client session that a datagram names, open and on the trunk it arrived on (R692). -/
def sessionFor (s : State) (d : Dgram) (t : Nat) : Option Session :=
  match sessFind s d.session with
  | none => none
  | some x => match x.kind with
    | .client => if x.trunk = t then some x else none
    | _ => none

/-- A datagram of a type is handled by `f`, or dropped as R329, R357, R689 and R692 give. -/
def handleDatagram (kind : Nat) (d : Dgram) (f : Session → State → State) (s : State) : State :=
  match arrivalTrunk s d with
  | none => dropFiltered d.lane s
  | some t =>
    if headerOk d = false ∨ clientType d.kind = false then dropType s
    else if tooShortOrLong d then dropClient s
    else if d.kind ≠ kind then s
    else
      match sessionFor s d t with
      | none => dropClient s
      | some x => f x (modSess d.session (fun y => { y with lastAt := now s }) s)

/-- The body a datagram declares. -/
def bodyOf (d : Dgram) : Bytes := d.body.take d.bodyLen

/-! ## OPEN (R299, R335, R417) -/

/-- The answer to an OPEN, kept for repeats: session, status, max_datagram, stage limit. -/
def openWord (session status maxd limit : Nat) : Nat := pack [(0, 64, session), (64, 16, status), (80, 16, maxd), (96, 32, limit)]

/-- OPEN_REPLY (Table 06-11). -/
def sendOpenReply (t addr udp word : Nat) (s : State) : State :=
  sendClient t addr udp 2 false (bits word 63 0) 0 0
    (natBe 2 (bits word 79 64) ++ natBe 2 (bits word 95 80) ++ natBe 4 (bits word 127 96)) none s

/-- Client sessions not released. -/
def clientSessions (s : State) : Nat := (s.sessions.filter (fun p => decide (p.2.kind = .client))).length

/-- What an OPEN is answered with: the status, and the client identity when it is permitted. -/
def openStatus (s : State) (d : Dgram) (t : Nat) : Nat × Nat :=
  let b := bodyOf d
  let maxd := beNat (b.take 2)
  if b.length < 2 ∨ maxd < 512 ∨ 8944 < maxd then (stLength, 0)
  else
    match searchProfile s 1 (addressKey d.srcAddr d.srcPort t) with
    | none => (stDenied, 0)
    | some e =>
      if (ruleOf e.result).permit = false then (stDenied, 0)
      else if (freeCtx s).isNone ∨ s.fab.clientMax ≤ clientSessions s then (stQueue, 0)
      else (stOk, bits e.result 16 1)

/-- A client session is opened (R299, R335). -/
def openClient (d : Dgram) (t client : Nat) (s : State) : State × Nat :=
  match freeCtx s with
  | none => (s, 0)
  | some c =>
    match bindCtx c 0 1 s with
    | (s1, id) =>
      let x : Session := { kind := .client, ctx := c, clientId := client, trunk := t, addr := d.srcAddr, udp := d.srcPort,
                           maxDgram := beNat ((bodyOf d).take 2), lastAt := now s }
      let s2 := openSession id x s1
      ({ s2 with fab := { s2.fab with owners := tput s2.fab.owners id client } }, id)

/-- CLIENT_OPEN (R335): a repeated nonce gets the same reply; otherwise the OPEN is answered afresh. -/
def execClientOpen (d : Dgram) (s : State) : R :=
  whenRunning (fun s =>
    match arrivalTrunk s d with
    | none => dropFiltered d.lane s
    | some t =>
      if headerOk d = false ∨ clientType d.kind = false then dropType s
      else if tooShortOrLong d then dropClient s
      else if d.kind ≠ 1 then s
      else
        let recent := s.fab.openAnswers.filter (fun a => decide (now s ≤ a.2.2.2.1 + 10000000000))
        match recent.find? (fun a => decide (a.1 = d.srcAddr ∧ a.2.1 = d.srcPort ∧ a.2.2.1 = d.wordA)) with
        | some a => sendOpenReply t d.srcAddr d.srcPort a.2.2.2.2 { s with fab := { s.fab with openAnswers := recent } }
        | none =>
          let s0 := countSearch 1 (addressKey d.srcAddr d.srcPort t) s
          match openStatus s d t with
          | (st, client) =>
            let r := if st = stOk then openClient d t client s0 else (s0, 0)
            let word := if st = stOk then openWord r.2 st (beNat ((bodyOf d).take 2)) (s.fab.stageMib * 1048576)
              else openWord 0 st 0 0
            let s1 := r.1
            sendOpenReply t d.srcAddr d.srcPort word
              { s1 with fab := { s1.fab with openAnswers := recent ++ [(d.srcAddr, d.srcPort, d.wordA, now s, word)] } }) s

/-! ## COMMAND, STAGE, WITHDRAW (R331, R332, R336) -/

/-- A trick header that arrives after a WITHDRAW named one of its members is withdrawn with all of them (R171). -/
def withdrawnTrick (x : Session) (seq : Nat) (c : Cmd) : Bool :=
  decide (c.opcode = 0x10) && !c.short && (later seq x.next || decide (seq = x.next)) &&
  (List.range (trickCount c)).any (fun i => wasWithdrawn x (seqAdd seq (i + 1)))

/-- A stage that a command names keeps for stage_idle_ms more (R332). -/
def touchStage (id handle : Nat) (s : State) : State :=
  { s with fab := { s.fab with stages := s.fab.stages.map (fun p =>
      if p.1 = id ∧ p.2.handle = handle then (p.1, { p.2 with at_ := now s }) else p) } }

/-- CLIENT_COMMAND (R331, Table 03-8). -/
def execClientCommand (d : Dgram) (s : State) : R :=
  whenRunning (handleDatagram 3 d (fun x s =>
    let c := clientCmd (bodyOf d)
    let s1 := countTaken (if carriesData c.opcode ∧ c.stage ≠ 0 then touchStage d.session c.stage s else s)
    if withdrawnTrick x d.sequence c then
      answer d.session d.sequence stWithdrawn 0 0 (passWithdrawn d.session
        (each (withdrawOne d.session) ((List.range (trickCount c + 1)).map (seqAdd d.sequence)) s1))
    else arriveSeq d.session d.sequence x c s1)) s

/-- Bytes of `seg` from `off` on, put among staged bytes. -/
def stagePut (bytes : Tbl Byte) (off : Nat) : Bytes → Tbl Byte
  | [] => bytes
  | b :: t => stagePut (tput bytes off b) (off + 1) t

/-- Staged bytes of a session (R332). -/
def stagedBytes (s : State) (id : Nat) : Nat :=
  sumOf (fun p => if p.1 = id then p.2.bytes.length else 0) s.fab.stages

/-- A segment joins its stage, or is dropped and counted when the session would hold too much (R332). -/
def takeSegment (d : Dgram) (s : State) : State :=
  let seg := bodyOf d
  let old := match s.fab.stages.find? (fun p => decide (p.1 = d.session ∧ p.2.handle = d.wordA)) with
    | some p => p.2
    | none => { handle := d.wordA, at_ := now s }
  let bytes := stagePut old.bytes d.wordB seg
  let new : Stage := { old with bytes := bytes, at_ := now s, total := if d.final then some (d.wordB + seg.length) else old.total }
  if s.fab.stageMib * 1048576 < stagedBytes s d.session + (bytes.length - old.bytes.length) then
    { s with fabc := { s.fabc with stageDrop := s.fabc.stageDrop + 1 } }
  else
    { s with fab := { s.fab with
        stages := s.fab.stages.filter (fun p => !decide (p.1 = d.session ∧ p.2.handle = d.wordA)) ++ [(d.session, new)] } }

/-- CLIENT_STAGE (R332). -/
def execClientStage (d : Dgram) (s : State) : R :=
  whenRunning (handleDatagram 4 d (fun _ => takeSegment d)) s

/-- CLIENT_WITHDRAW (R168 to R172, R336). -/
def execClientWithdraw (d : Dgram) (s : State) : R :=
  whenRunning (handleDatagram 7 d (withdraw d.session d.sequence)) s

/-- STAGE_IDLE_EXPIRY (R332): a stage not named for stage_idle_ms is freed. -/
def execStageIdleExpiry (session handle : Nat) (s : State) : R :=
  whenRunning (fun s =>
    match s.fab.stages.find? (fun p => decide (p.1 = session ∧ p.2.handle = handle)) with
    | none => s
    | some p => guard (decide (p.2.at_ + s.fab.stageIdleMs * 1000000 ≤ now s))
        (fun s => { s with fab := { s.fab with stages := s.fab.stages.erase p } }) s) s

/-! ## CLOSE (R337) -/

/-- CLOSE_REPLY (Table 06-11). -/
def sendCloseReply (t addr udp session highest mark : Nat) (s : State) : State :=
  sendClient t addr udp 9 false session 0 0 (natBe 4 highest ++ natBe 4 mark) none s

/-- CLIENT_CLOSE (R337): the draining point of the session; a repeated CLOSE of a session just released gets its reply
again. -/
def execClientClose (d : Dgram) (s : State) : R :=
  whenRunning (fun s =>
    let again := s.fab.closeAnswers.find? (fun a => decide (a.1 = d.session ∧ a.2.1 = d.srcAddr ∧ a.2.2.1 = d.srcPort ∧
      now s ≤ a.2.2.2.1 + 10000000000))
    match arrivalTrunk s d, again, sessFind s d.session with
    | some t, some a, none =>
      if headerOk d ∧ d.kind = 8 ∧ tooShortOrLong d = false then
        sendCloseReply t d.srcAddr d.srcPort d.session a.2.2.2.2.1 a.2.2.2.2.2 s
      else handleDatagram 8 d (fun _ s => s) s
    | _, _, _ =>
      handleDatagram 8 d (fun x s =>
        if x.draining then s
        else modSess d.session (fun y => { y with closer := some (d.srcAddr, d.srcPort) }) (drain d.session s)) s) s

/-- CLIENT_CLOSE_COMPLETE (R337): no command is in flight; CLOSE_REPLY is sent and the session released. -/
def execClientCloseComplete (session : Nat) (s : State) : R :=
  whenRunning (fun s =>
    match sessFind s session with
    | none => s
    | some x =>
      match x.kind, x.closer with
      | .client, some (a, u) => guard (x.draining && (inflightOf s session).isEmpty) (fun s =>
          let w := watermark s session x
          let s1 := releaseSession session (sendCloseReply x.trunk a u session x.highest w s)
          let recent := s1.fab.closeAnswers.filter (fun y => decide (now s ≤ y.2.2.2.1 + 10000000000))
          { s1 with fab := { s1.fab with closeAnswers := recent ++ [(session, a, u, now s, x.highest, w)] } }) s
      | _, _ => s) s

/-- CLIENT_SESSION_IDLE (R337): released after session_idle_s without a datagram and without a command in flight. -/
def execClientSessionIdle (session : Nat) (s : State) : R :=
  whenRunning (fun s =>
    match sessFind s session with
    | none => s
    | some x =>
      match x.kind with
      | .client => guard (decide (s.fab.idleS ≠ 0 ∧ x.lastAt + s.fab.idleS * 1000000000 ≤ now s) &&
          (inflightOf s session).isEmpty && !x.draining)
          (fun s => releaseSession session (drain session s)) s
      | _ => s) s

/-! ## Drops and discovery -/

/-- CLIENT_DATAGRAM_DROP (R329, R692): a datagram that no other row takes is dropped and counted. -/
def execClientDatagramDrop (d : Dgram) (s : State) : R :=
  whenRunning (fun s =>
    if d.kind = 1 then
      (if headerOk d = false then dropType s else if tooShortOrLong d then dropClient s else s)
    else handleDatagram d.kind d (fun _ s => s) s) s

/-- CLIENT_FRAME_FILTERED (R357): a frame that a client lane does not pass on. -/
def execClientFrameFiltered (lane : Nat) (s : State) : R :=
  whenRunning (guard (laneAt s lane).cfg.client (dropFiltered lane)) s

/-- The address in the form the trunk keeps peers in: IPv4 as IPv4-mapped. -/
def mappedAddr (v6 : Bool) (a : Nat) : Nat := if v6 then a else 0xFFFF * 2 ^ 32 + a % 2 ^ 32

/-- NEIGHBOUR_DISCOVERY (R326): the fabric cores answer for the trunk's address, and learn where the sender is. -/
def execNeighbourDiscovery (lane : Nat) (v6 : Bool) (target sender senderMac : Nat) (s : State) : R :=
  whenRunning (fun s =>
    match trunkOf s lane with
    | none => s
    | some t =>
      let k := trunkAt s t
      let mine := if v6 then k.v6 && decide (target = k.addr6) else k.v4 && decide (target = k.addr4)
      if mine = false ∨ inActivation s then s
      else
        let a := mappedAddr v6 sender
        queueFrame lane (neighbourAnswer s lane v6 target sender senderMac)
          (setTrunk t { k with peers := k.peers.filter (fun p => decide (p.1 ≠ a)) ++ [(a, senderMac)] } s)) s

/-- CLIENT_COMPLETION_DISCARD (R690): datagrams that found no lane in their trunk are discarded and counted. -/
def execClientCompletionDiscard (trunk : Nat) (s : State) : R :=
  whenRunning (fun s =>
    let k := trunkAt s trunk
    { setTrunk trunk { k with waiting := [] } s with
      fabc := { s.fabc with clientDrop := s.fabc.clientDrop + k.waiting.length } }) s

end Sys2Proof.Machine
end

