-- ==== Sys2Proof/Machine/Shards.lean ====
section
/-! DEFINITION. Fabric sessions with their credit, the requests of peers, and mirror and spread coordination between
modules (R299 to R319). -/

namespace Sys2Proof.Machine

open Sys2Proof

/-! ## Credit at the receiver (R302 to R305) -/

/-- Units granted and not used on a session. -/
def unusedUnits (c : Credit) : Nat := (c.grant + 2 ^ 32 - c.used) % 2 ^ 32

/-- Units granted and not used over all sessions. -/
def unusedAll (s : State) : Nat := sumOf (fun p => match p.2.kind with | .fabric => unusedUnits p.2.credit | _ => 0) s.sessions

/-- The credit of a session at its receiver is changed by `f`. -/
def modCredit (id : Nat) (f : Credit → Credit) (s : State) : State := modSess id (fun x => { x with credit := f x.credit }) s

/-- Program time that one unit of credit stands for (R303). -/
def unitCost (s : State) : Nat := max 1 (debitCost s 512)

/-- Units spread over die sets, as many on each as its pool has time for. -/
def spreadUnits (s : State) : Nat → List Nat → List (Nat × Nat)
  | _, [] => []
  | n, k :: t =>
    let m := min n (poolLeft s k / unitCost s)
    (if m = 0 then [] else [(k, m)]) ++ spreadUnits s (n - m) t

/-- Units that the pools of all die sets have time for. -/
def poolUnits (s : State) : Nat := sumOf (fun k => poolLeft s k / unitCost s) (setOrder 0)

/-- The pool debits behind the unused credit of a session are set to what is left of it. -/
def redebitFor (found : Option Session) (id : Nat) (s : State) : State :=
  match found with
  | none => s
  | some x =>
    let s1 := undebit (.command id 0) s
    each (fun p => debit p.1 (p.2 * unitCost s1) (512 * p.2) (.command id 0)) (spreadUnits s1 (unusedUnits x.credit) (setOrder 0)) s1

/-- The pool debits behind a session's unused credit are set to what is left of it. -/
def redebit (id : Nat) (s : State) : State := redebitFor (sessFind s id) id s

/-- Units that may be added to a session's grant on demand (R303): within session_window_mib, within fabric_kitty_pct of
kitty_cap, against kitty bytes that can be reserved and program time in the pools; none while the grants exceed the share of a
kitty_target that has fallen, or while the stash refuses what may create an object (R393). -/
def addable (s : State) (c : Credit) (wanted : Nat) : Nat :=
  let cap := min s.pwr.target s.pwr.cap
  let window := s.fab.windowMib * 2048 - unusedUnits c
  let share := s.pwr.cap * s.fab.kittyPct / 100 / 512 - unusedAll s
  let kitty := (cap - s.pwr.pending - s.pwr.exposed) / 512
  if cap * s.fab.kittyPct / 100 / 512 < unusedAll s ∨ stashFull s = true then 0
  else min wanted (min window (min share (min kitty (poolUnits s))))

/-- The grant limit of a session is raised (R303). -/
def raiseGrant (id wanted : Nat) (s : State) : State :=
  match sessFind s id with
  | none => s
  | some x =>
    let n := addable s x.credit wanted
    redebit id (modCredit id (fun c => { c with grant := (c.grant + n) % 2 ^ 32 }) (kittyReserve (512 * n) s))

/-- ACK (Table 06-5): completed-through sequence, grant limit, and pairs of a sequence and its status. -/
def ackFrame (id : Nat) (c : Credit) (pairs : List (Nat × Nat)) (s : State) : State :=
  sendOwn 8 c.peer id 0 (pack [(0, 32, c.grant), (32, 32, c.through)])
    ((pairs.take 64).flatMap (fun p => natBe 4 p.1 ++ natBe 2 p.2)) true s

/-- ACK with the later sequences done out of order. -/
def sendAck (id : Nat) (s : State) : State :=
  match sessFind s id with
  | none => s
  | some x => ackFrame id x.credit x.credit.ahead s

/-- A sequence of a fabric session is done. -/
def seqDone (c : Credit) (seq : Nat) : Bool := !later seq c.through || c.ahead.any (fun p => decide (p.1 = seq))

/-- The completed-through sequence moves over sequences done; the count bounds the moves. -/
def absorb : Nat → Credit → Credit
  | 0, c => c
  | n + 1, c =>
    let k := seqAdd c.through 1
    if c.ahead.any (fun p => decide (p.1 = k)) then
      absorb n { c with through := k, ahead := c.ahead.filter (fun p => decide (p.1 ≠ k)) }
    else c

/-- A request is done with a status: its outcome is recorded, and an ACK covers it. -/
def reqDone (id seq st : Nat) (s : State) : State :=
  match sessFind s id with
  | none => s
  | some x =>
    if seqDone x.credit seq then s
    else
      let s1 := storeSet id seq { status := st, done := true, delivered := true, seqCheck := seqCheck seq } s
      sendAck id (modCredit id (fun c => absorb (c.ahead.length + 1) { c with ahead := c.ahead ++ [(seq, st)] }) s1)

/-! ## What a request does at its receiver (Table 06-8) -/

/-- Units that a request is charged (Table 06-8). -/
def reqUnits : FabReq → Nat
  | .creditReturn n => n
  | .hold sh _ _ => (shardRecord sh false).units + 1
  | .commit _ _ _ => 0
  | .discard _ _ _ => 0
  | .decide _ _ _ _ => 1
  | .read _ _ => 1
  | .rebuild sh => (shardRecord sh false).units
  | .invalid => 0

/-- The pending shard of a write, named by namespace, digest and stamp. -/
def findPend (s : State) (ns d : Nat) (t : Stamp) : Option Pending :=
  s.fab.pend.find? (fun p => decide (p.sh.ns = ns ∧ p.sh.digest = d ∧ p.sh.stampTime = t.time ∧ p.sh.stampTie = t.tie ∧
    p.sh.stampNode = t.node))

/-- A pending shard is no longer pending. -/
def dropPend (p : Pending) (s : State) : State := { s with fab := { s.fab with pend := s.fab.pend.erase p } }

/-- This module holds the object in this version or a later one already. -/
def haveNewer (s : State) (h : Shard) : Bool :=
  match lookup s h.ns h.key with
  | some f => decide (h.version ≤ f.item.version)
  | none => false

/-- The commit step of a pending shard (R29, R59, R80). -/
def commitPend (p : Pending) (s : State) : State :=
  let r := shardRecord p.sh p.medium
  let s1 := dropPend p s
  if haveNewer s p.sh then kittyCancel p.kitty (undebit (.command p.session p.seq) s1)
  else if p.medium then commitRecord r (.flash p.addr) s1
  else
    let used := min p.kitty (512 * r.units)
    settleKitty p.kitty used (commitRecord r (.buffer (debitSet s p.session p.seq) used (p.session, p.seq)) s1)

/-- A pending shard is freed without effect. -/
def discardPend (p : Pending) (s : State) : State := kittyCancel p.kitty (undebit (.command p.session p.seq) (dropPend p s))

/-- A pending shard is settled by an outcome; a SHARD_HOLD not yet answered is done with it. -/
def settleOne (p : Pending) (ok : Bool) (s : State) : State :=
  reqDone p.session p.seq stOk (if ok then commitPend p s else discardPend p s)

/-- The pending shard of a write, if this module holds one, is settled. -/
def settlePend (ns d : Nat) (t : Stamp) (ok : Bool) (s : State) : State :=
  match findPend s ns d t with
  | none => s
  | some p => settleOne p ok s

/-- The program time that session credit had reserved is debited for a shard: on the first die set of its suit with room, or on
the first of all, since the credit stands behind it (R303, R304). -/
def debitShard (id seq suit units : Nat) (s : State) : State × Nat :=
  let cost := debitCost s (512 * units)
  let k := (poolSet s cost (setOrder suit)).getD suit
  (debit k cost (512 * units) (.command id seq) s, k)

/-- A shard is held pending: in the protected region at once, or in a row of its suit that closes with it (R314). A
medium-mode shard is answered when its row is on flash; where no meld can take one it stays in the protected region, and is not
answered as held. -/
def holdPend (id seq slot : Nat) (h : Shard) (medium : Bool) (s : State) : State :=
  let r := shardRecord h medium
  let p : Pending := { sh := h, session := id, seq := seq, deadline := (slot + 1) * Config.slotNs, kitty := 512 * (r.units + 1),
                       medium := false, addr := 0 }
  let add := fun (q : Pending) (s : State) => { s with fab := { s.fab with pend := s.fab.pend ++ [q] } }
  match if medium then meldFor h.suit h.tombstone none r.units s else none with
  | some (n, s1) =>
    let addr := n * Config.meldSpan + alignUnit (meldAt s1 n) r.units
    add { p with medium := true, addr := addr, kitty := 0 } (sealRow n (placeIn n r none none 0 (some (id, seq)) true (kittyCancel p.kitty s1)))
  | none =>
    let s1 := add p (debitShard id seq h.suit r.units s).1
    if medium then s1 else reqDone id seq stOk s1

/-- The answer to SHARD_READ: the shard, or a tombstone of version 0 when none is held committed (log entry 21). -/
def readAnswer (s : State) (ns : Nat) (key : Bytes) : Shard :=
  match ownShard s ns key with
  | some h => h
  | none => { ns := ns, key := key, digest := digestOf s ns key, stampTime := 0, stampTie := 0, stampNode := 0, version := 0,
              suit := 0, index := 0, whole := 0, spreadK := 0, spreadM := 0, tombstone := true, value := [] }

/-- The shard that this module holds of a key cannot be read: a codeword of it is lost, or it fails its check (R452, R454). -/
def shardUnread (s : State) (ns : Nat) (key : Bytes) : Bool :=
  match lookup s ns key with
  | some x => unreadable x.entry x.item true ||
      (!x.entry.inDram && (codewordsOf x.entry.loc x.item.units).any (fun a => decide (a ∈ s.med.lost)))
  | none => false

/-- A shard is returned to its reader in DATA frames of a session that this module opens to it (Table 06-8). With no standing
reservation for reads, or where the shard cannot be read, there is no answer, and the read fails at its reader (R304, R318,
Table 06-13, log entry 104). -/
def returnShard (id seq peer ns : Nat) (key : Bytes) (s : State) : State :=
  if s.fab.readPct = 0 ∨ shardUnread s ns key = true then s
  else
    let h := readAnswer s ns key
    sendRequest peer { units := 0, code := 5, own := (id, seq), answer := true, ns := ns, digest := h.digest, sh := some h,
                       version := h.version } s

/-- What the rebuild of a shard reserves on this module: the spread's reconstruction on a fabric core, and the shard in DRAM
(R319, Table 01-2). -/
def rebuildShape (h : Shard) : List Cost :=
  [.use (.core 2) (max 1 (ceilDiv (100 * h.whole) 1048576)), .use .dram (2 * 512 * recUnits h.key.length h.value.length)]

/-- A shard's rebuild takes its yielding reservation on the module that receives it (R319); its credit was granted before. -/
def rebuildAntes (h : Shard) (s : State) : State := (takeAntes .shardRebuild false true h.digest (rebuildShape h) s).getD s

/-- The holder's place among a key's holders. -/
def holderIndex (s : State) (ns d : Nat) : Option Nat := (keyHolders s ns d).idxOf? s.fab.nodeId

/-- The effect of one request in its turn (Table 06-8). -/
def runReq (id seq : Nat) (x : Session) (q : FabReq) (s : State) : State :=
  match q with
  | .creditReturn n => reqDone id seq stOk (kittyCancel (512 * n) s)
  | .hold sh slot medium => holdPend id seq slot sh medium s
  | .commit ns d t => reqDone id seq stOk (settlePend ns d t true s)
  | .discard ns d t => reqDone id seq stOk (settlePend ns d t false s)
  | .decide ns d t ok =>
    let v := match findPend s ns d t with | some p => p.sh.version | none => 0
    let s1 := recordHere ns d t ok v (kittyCancel 512 s)
    let s2 := match holderIndex s ns d with
      | some i => if i ≤ 1 then settlePend ns d t ok s1 else s1
      | none => s1
    reqDone id seq stOk s2
  | .read ns key => reqDone id seq stOk (returnShard id seq x.credit.peer ns key (kittyCancel 512 s))
  | .rebuild sh =>
    let r := { shardRecord sh false with rebuilt := true }
    let n := 512 * r.units
    if haveNewer s sh then reqDone id seq stOk (kittyCancel n s)
    else
      let s1 := debitShard id seq sh.suit r.units (rebuildAntes sh s)
      reqDone id seq stOk (settleKitty n n (commitRecord r (.buffer (some s1.2) n (id, seq)) s1.1))
  | .invalid => s

/-- A request at the head of its session is accepted: charged, then carried out. -/
def acceptReq (id seq : Nat) (q : FabReq) (s : State) : State :=
  match sessFind s id with
  | none => s
  | some x =>
    let s1 := modSess id (fun y =>
      { y with next := seqAdd seq 1, highest := seq, any := true, wrapped := y.wrapped || decide (seq < y.highest),
               lastAt := now s, credit := { y.credit with used := (y.credit.used + reqUnits q) % 2 ^ 32 } }) s
    runReq id seq x q (redebit id (modSess id (fun y => { y with refusal := none }) s1))

/-- The request is one that its receiver refuses (Table 06-8). -/
def refusable (q : FabReq) : Bool := decide (q = .invalid)

/-- Sequence n of a fabric session is refused: it stays unsettled, and every held request is refused with the same status
(R143). -/
def refuseReq (id seq st : Nat) (x : Session) (s : State) : State :=
  let held := (s.fab.early.filter (fun e => decide (e.1 = id))).map (fun e => (e.2.1, st))
  modSess id (fun y => { y with refusal := some (st, 0) })
    (ackFrame id x.credit ((seq, st) :: held) { s with fab := { s.fab with early := s.fab.early.filter (fun e => decide (e.1 ≠ id)) } })

/-- A duplicate of an accepted request (R144, R145, R301): one that is done is answered with DUPLICATE_SEQUENCE and its recorded
status, 0xFFFF where that is lost, in a second pair (log entry 99); one in flight is not answered. -/
def duplicateReq (id seq : Nat) (x : Session) (s : State) : State :=
  if seqDone x.credit seq then
    let orig := match storeSlot x seq with
      | some r => if r.seqCheck = seqCheck seq then r.status else 0xFFFF
      | none => 0xFFFF
    ackFrame id x.credit [(seq, stDuplicate), (seq, orig)] { s with dlr := { s.dlr with dups := s.dlr.dups + 1 } }
  else s

/-- Requests held in the reorder window follow while they are next; the count bounds them (Table 03-8). -/
def replay (id : Nat) : Nat → State → State
  | 0, s => s
  | n + 1, s =>
    match sessFind s id with
    | none => s
    | some x =>
      match s.fab.early.find? (fun e => decide (e.1 = id ∧ e.2.1 = x.next)) with
      | none => s
      | some e =>
        let s1 := { s with fab := { s.fab with early := s.fab.early.erase e } }
        if refusable e.2.2.2 then refuseReq id x.next stOpcode x s1 else replay id n (acceptReq id x.next e.2.2.2 s1)

/-- A request arrives on a fabric session (Table 03-8, R143 to R145, R301); none is taken while the module is not joined (R274).
A request above the session's credit is not taken (log entry 99). -/
def arriveReq (id seq wanted : Nat) (q : FabReq) (s : State) : State :=
  match sessFind s id with
  | none => s
  | some x =>
    match x.kind with
    | .fabric =>
      if dealerOn s = false ∨ joined s = false ∨ x.draining then s
      else if seq = x.next then
        if refusable q then refuseReq id seq stOpcode x s
        else if unusedUnits x.credit < reqUnits q then s
        else
          let s1 := acceptReq id seq q (raiseGrant id wanted s)
          replay id s1.fab.early.length s1
      else if later seq x.next then
        if (seq + 2 ^ 32 - x.next) % 2 ^ 32 ≤ 4095 then
          match x.refusal with
          | some r => ackFrame id x.credit [(seq, r.1)] s
          | none =>
            if s.fab.early.any (fun e => decide (e.1 = id ∧ e.2.1 = seq)) then s
            else { s with fab := { s.fab with early := s.fab.early ++ [(id, seq, now s, q)] } }
        else ackFrame id x.credit [(seq, stWindow)] { s with dlr := { s.dlr with oow := s.dlr.oow + 1 } }
      else duplicateReq id seq x s
    | _ => s

/-! ## Opening and ending fabric sessions (R299, R300) -/

/-- FABRIC_OPEN (R300): a context is bound, or the OPEN is answered with QUEUE_INVALID. The first credit is granted at once
(log entry 22). -/
def execFabricOpen (src request : Nat) (s : State) : R :=
  whenRunning (guard (dealerOn s && joined s) (fun s =>
    match freeCtx s with
    | none => sendOwn 6 src 0 request 0 (natBe 2 stQueue) true s
    | some c =>
      match bindCtx c 0 2 s with
      | (s1, id) =>
        let x : Session := { kind := .fabric, ctx := c, credit := { peer := src }, lastAt := now s }
        sendAck id (raiseGrant id (s.fab.windowMib * 2048) (sendOwn 6 src 0 request id [] true (openSession id x s1))))) s

/-- FABRIC_OPEN_REPLY (R300): the session stands and what waited for it is sent, or the peer could bind none. -/
def execFabricOpenReply (src request session status : Nat) (s : State) : R :=
  whenRunning (guard (joined s && s.fab.opens.any (fun p => decide (p = (request, src)))) (fun s =>
    let s1 := { s with fab := { s.fab with opens := s.fab.opens.filter (fun p => decide (p ≠ (request, src))) } }
    if session = 0 ∨ status ≠ 0 then
      { s1 with fab := { s1.fab with noOpens := s1.fab.noOpens.filter (fun n => decide (n ≠ src)) ++ [src],
                                     unsent := s1.fab.unsent.filter (fun p => decide (p.1 ≠ src)) } }
    else drainPeer src (setLink src { session := session, idleAt := now s } s1))) s

/-- FABRIC_CLOSE (Table 06-5): the session ends; what its credit reserved is freed. -/
def execFabricClose (session : Nat) (s : State) : R :=
  whenRunning (guard (joined s) (fun s =>
    match sessFind s session with
    | none => s
    | some x =>
      match x.kind with
      | .fabric => releaseSession session (undebit (.command session 0) (kittyCancel (512 * unusedUnits x.credit) s))
      | _ => s)) s

/-- The effect of an acknowledged request at its sender: an answer to SHARD_HOLD, a recorded DECIDE, a shard rebuilt
(R314, R319). -/
def acked (peer : Nat) (r : Request) (st : Nat) (s : State) : State :=
  if st ≠ stOk then s
  else if r.code = 1 then
    tryDecide r.own.1 r.own.2 (modProt r.own.1 r.own.2 (fun p =>
      if peer ∈ p.answered then p else { p with answered := p.answered ++ [peer] }) s)
  else if r.code = 4 then
    modProt r.own.1 r.own.2 (fun p => if peer ∈ p.recorded then p else { p with recorded := p.recorded ++ [peer] }) s
  else if r.code = 6 then
    { s with fab := { s.fab with owedList := s.fab.owedList.filter (fun o =>
        !decide (o.ns = r.ns ∧ o.digest = r.digest ∧ o.holder = peer)) } }
  else s

/-- FABRIC_ACK (R302): requests are covered, and the grant limit rises, never backward; what waited for credit follows. -/
def execFabricAck (peer through grant : Nat) (pairs : List (Nat × Nat)) (s : State) : R :=
  whenRunning (guard (joined s) (fun s =>
    match linkTo s peer with
    | none => s
    | some x =>
      let statusOf := fun (r : Request) => match pairs.find? (fun p => decide (p.1 = r.seq ∧ p.2 ≠ stDuplicate)) with
        | some p => some p.2
        | none => if later r.seq through then none else some stOk
      let done := x.unacked.filter (fun r => (statusOf r).isSome)
      let rest := x.unacked.filter (fun r => (statusOf r).isNone)
      let y := { x with unacked := rest, wanted := sumOf (fun r => r.units) rest,
                        grant := if later grant x.grant then grant else x.grant, idleAt := now s }
      drainPeer peer (each (fun r s => acked peer r ((statusOf r).getD stOk) s) done (setLink peer y s)))) s

/-- SESSION_RETRANSMIT (R301): a request no ACK has covered within retransmit_us is sent again. -/
def execSessionRetransmit (peer seq : Nat) (s : State) : R :=
  whenRunning (fun s =>
    match linkTo s peer with
    | none => s
    | some x =>
      match x.unacked.find? (fun r => decide (r.seq = seq)) with
      | none => s
      | some r => guard (decide (r.at_ + s.fab.retransUs * 1000 ≤ now s)) (fun s =>
          let q := { r with at_ := now s }
          let y := { x with unacked := x.unacked.map (fun z => if z.seq = seq then q else z) }
          let s1 := setLink peer y { s with fabc := { s.fabc with sessionRetx := s.fabc.sessionRetx + 1 } }
          dataFrame peer x.session (x.wanted + unsentUnits s peer) q s1) s) s

/-- IDLE_CREDIT_RETURN_TIMER (R305): unused credit goes back after idle_return_ms without an unacknowledged request. -/
def execIdleCreditReturnTimer (peer : Nat) (s : State) : R :=
  whenRunning (fun s =>
    match linkTo s peer with
    | none => s
    | some x => guard (decide (s.fab.idleMs ≠ 0 ∧ x.unacked = [] ∧ unsentUnits s peer = 0 ∧ creditLeft x ≠ 0 ∧ x.idleAt + s.fab.idleMs * 1000000 ≤ now s))
        (sendRequest peer { units := creditLeft x, code := 0, own := (0, 0) }) s) s

/-! ## Requests (Table 06-8) -/

/-- CREDIT_RETURN (R305). -/
def execCreditReturn (session seq units : Nat) (s : State) : R := whenRunning (arriveReq session seq 0 (.creditReturn units)) s

/-- SHARD_HOLD (R314). The hold deadline is the coordinator's to act on; the holder resolves the shard at the end of the write's
deadline slot (R317). -/
def execShardHold (session seq wanted : Nat) (times : HoldTimes) (sh : Shard) (medium : Bool) (s : State) : R :=
  whenRunning (arriveReq session seq wanted (.hold sh times.slot medium)) s

/-- SHARD_COMMIT (R314). -/
def execShardCommit (session seq ns digest stampTime stampTie stampNode : Nat) (s : State) : R :=
  whenRunning (arriveReq session seq 0 (.commit ns digest { time := stampTime, tie := stampTie, node := stampNode })) s

/-- SHARD_DISCARD (R314). -/
def execShardDiscard (session seq ns digest stampTime stampTie stampNode : Nat) (s : State) : R :=
  whenRunning (arriveReq session seq 0 (.discard ns digest { time := stampTime, tie := stampTie, node := stampNode })) s

/-- DECIDE (R314). -/
def execDecide (session seq ns digest stampTime stampTie stampNode : Nat) (ok : Bool) (s : State) : R :=
  whenRunning (arriveReq session seq 0 (.decide ns digest { time := stampTime, tie := stampTie, node := stampNode } ok)) s

/-- SHARD_READ (R304, R318). -/
def execShardRead (session seq ns : Nat) (key : Bytes) (s : State) : R := whenRunning (arriveReq session seq 0 (.read ns key)) s

/-- REBUILD_WRITE (R319). -/
def execRebuildWrite (session seq : Nat) (sh : Shard) (s : State) : R := whenRunning (arriveReq session seq 0 (.rebuild sh)) s

/-- FABRIC_REQUEST_INVALID (Table 06-8): codes 0x07 to 0xFF are refused with OPCODE_INVALID. -/
def execFabricRequestInvalid (session seq code : Nat) (s : State) : R :=
  whenRunning (guard (decide (7 ≤ code)) (arriveReq session seq 0 .invalid)) s

/-! ## Orders (R311 to R313) -/

/-- The payload of an ORDER_REPLY (log entry 96). -/
def orderBytes : OrderAnswer → Bytes
  | .writeOrder v => natBe 1 0 ++ natBe 8 v
  | .readGrant v l => natBe 1 1 ++ natBe 8 v ++ l.flatMap (natBe 2)
  | .busy t => natBe 1 2 ++ natBe 8 t
  | .mismatch => natBe 1 3

/-- ORDER (R311, R312): the lead answers; an order request whose end is 0 returns the order (log entry 23). -/
def execOrderRequest (src request ns digest mapCrc : Nat) (write : Bool) (until_ : Nat) (s : State) : R :=
  whenRunning (guard (dealerOn s && joined s && decide (leadOf s ns digest = some s.fab.nodeId)) (fun s =>
    if write && decide (until_ = 0) then
      (match heldOrder s ns digest with
       | some o => if o.src = src then endOrder ns digest s else s
       | none => s)
    else
      match leadAnswer ns digest mapCrc write src until_ s with
      | (s1, a) => sendOwn 11 src 0 request 0 (orderBytes a) true s1)) s

/-- ORDER_REPLY (R311): the coordinator takes the lead's answer, and the command goes on through its admission step. -/
def execOrderReply (src request : Nat) (ans : OrderAnswer) (s : State) : R :=
  whenRunning (fun s =>
    match s.fab.orderOut.find? (fun o => joined s && decide (o.request = request ∧ o.lead = src) && o.answer.isNone) with
    | none => s
    | some o =>
      let s1 := { s with fab := { s.fab with orderOut := s.fab.orderOut.map (fun y =>
        if y.request = request then { y with answer := some ans } else y) } }
      match sessFind s1 o.session with
      | none => s1
      | some x => if dealerOn s1 && !x.draining then admitItems o.session x (nextItems s1 o.session) s1 else s1) s

/-- ORDER_TIMEOUT (R311): no answer within 20 µs; the command is refused with RETRY_AFTER and the next slot. -/
def execOrderTimeout (request : Nat) (s : State) : R :=
  whenRunning (fun s =>
    match s.fab.orderOut.find? (fun o => decide (o.request = request) && o.answer.isNone) with
    | none => s
    | some o =>
      if now s < o.at_ + 20000 then s
      else
        match sessFind s o.session with
        | none => dropOrder o.session o.seq s
        | some x => refuseStep o.session x (nextItems s o.session) stRetry (nextSlotTime s) o.seq (refuseRetry s)) s

/-- WRITE_ORDER_EXPIRY (R312): the order ends at the end of the coordinator's deadline slot. -/
def execWriteOrderExpiry (ns digest : Nat) (s : State) : R :=
  whenRunning (fun s =>
    guard (s.fab.orders.any (fun o => decide (o.ns = ns ∧ o.digest = digest ∧ o.until_ ≤ now s))) (endOrder ns digest) s) s

/-- LEAD_HORIZON_END (R313): one horizon after its predecessor failed the new lead grants orders again. -/
def execLeadHorizonEnd (node : Nat) (s : State) : R :=
  whenRunning (fun s =>
    match tfind s.fab.leadFrom node with
    | none => s
    | some t => guard (decide (t ≤ now s)) (fun s => { s with fab := { s.fab with leadFrom := tdel s.fab.leadFrom node } }) s) s

/-! ## Deciding (R314, R315, R317) -/

/-- SHARD_HOLD_DEADLINE (R314, R315). -/
def execShardHoldDeadline (session seq : Nat) (s : State) : R :=
  whenRunning (fun s =>
    match findFlight s session seq with
    | none => s
    | some f => match f.prot with
      | none => s
      | some p => guard (decide (p.deadline ≠ 0 ∧ p.deadline ≤ now s)) (tryDecide session seq) s) s

/-- The DECIDE of a command that is on its way to a recorder is sent again. -/
def pressDecide (f : InFlight) (n : Nat) (s : State) : State :=
  match linkTo s n with
  | none => s
  | some x =>
    each (fun r s => dataFrame n x.session (x.wanted + unsentUnits s n) r s)
      (x.unacked.filter (fun r => decide (r.code = 4 ∧ r.own = (f.session, f.seq)))) s

/-- DECIDE_TIMEOUT (R314): neither lead nor deputy has answered; DECIDE goes to holders 2 to t, and as long as no recorder answers
it is sent again to every one. -/
def execDecideTimeout (session seq : Nat) (s : State) : R :=
  whenRunning (fun s =>
    match findFlight s session seq with
    | none => s
    | some f => match f.prot with
      | none => s
      | some p =>
        match p.decided with
        | none => s
        | some ok => guard (decide (p.recorded = [] ∧ p.decideAt + s.fab.allowUs * 1000 / 6 ≤ now s)) (fun s =>
            let l := recorders s f.ns p.digest
            sendDecide f p ok l (each (pressDecide f) l (modProt session seq (fun q => { q with decideAt := now s }) s))) s) s

/-- The outcome that this module has recorded itself for a pending shard (R317). -/
def ownDecision (s : State) (p : Pending) : Option Bool :=
  (s.fab.decisions.find? (fun x => decide (x.ns = p.sh.ns ∧ x.digest = p.sh.digest ∧ x.stampTime = p.sh.stampTime ∧
    x.stampTie = p.sh.stampTie ∧ x.stampNode = p.sh.stampNode))).map (·.ok)

/-- PENDING_SHARD_RESOLVE (R317): at the end of the write's deadline slot the holder applies the first outcome that the recorders
in their order, and after them the coordinator's journal, give: its own record where it is a recorder, else `answer`. It discards
the shard when none gives one. The question has no frame in Table 06-8; its answer comes with the row (log entry 100). -/
def execPendingShardResolve (stampTime stampTie stampNode : Nat) (answer : Recorded) (s : State) : R :=
  whenRunning (fun s =>
    match s.fab.pend.find? (fun p => decide (p.sh.stampTime = stampTime ∧ p.sh.stampTie = stampTie ∧ p.sh.stampNode = stampNode ∧
        p.deadline ≤ now s)) with
    | none => s
    | some p => match ownDecision s p, answer with
      | some ok, _ => settleOne p ok s
      | none, .commit => settleOne p true s
      | none, .discard => settleOne p false s
      | none, .noRecord => settleOne p false s) s

/-! ## Reading (R318) -/

/-- The next holder to ask in place of one that holds no shard: the next listed in the grant. -/
def nextHolder (s : State) (p : Protect) : Option Nat := p.holders.find? (fun n => decide (n ∉ p.sent ∧ n ∉ s.fab.dead))

/-- A read that has its shards goes on: a GET or EXISTS is answered at once. -/
def goOn (session seq : Nat) (s : State) : State :=
  match findFlight s session seq with
  | none => s
  | some f =>
    if f.trick.isNone ∧ isWrite f.cmd.opcode = false then
      tryCommit session seq (runKeyed f.cmd.opcode session seq none none s)
    else s

/-- A holder's answer to a read of a command. -/
def takeShard (f : InFlight) (p : Protect) (holder : Nat) (committed : Bool) (sh : Shard) (s : State) : State :=
  if committed then
    let q := { p with shards := p.shards ++ [sh] }
    goOn f.session f.seq (modProt f.session f.seq (fun _ => { q with read := readEnded (nsAt s f.ns) q }) s)
  else
    let q := { p with gone := p.gone ++ [holder] }
    if readEnded (nsAt s f.ns) q then goOn f.session f.seq (modProt f.session f.seq (fun _ => { q with read := true }) s)
    else
      match nextHolder s q with
      | none => modProt f.session f.seq (fun _ => q) s
      | some n =>
        sendRequest n { requestOf f p 5 1 with key := f.cmd.key } (modProt f.session f.seq (fun _ => { q with sent := q.sent ++ [n] }) s)

/-- SHARD_READ_DATA (R318): a shard comes in for a command, or for a rebuild of this module's own (session 0). -/
def execShardReadData (session seq holder : Nat) (committed : Bool) (version : Nat) (sh : Shard) (s : State) : R :=
  whenRunning (fun s =>
    let h := { sh with version := version }
    if session = 0 then
      if committed then { s with fab := { s.fab with gather := s.fab.gather ++ [h] } } else s
    else
      match findFlight s session seq with
      | none => s
      | some f => match f.prot with
        | none => s
        | some p =>
          if p.read ∨ holder ∉ p.sent ∨ holder ∈ p.gone ∨ p.shards.any (fun y => decide (y.index = sh.index)) = true then s
          else takeShard f p holder committed h s) s

/-- SHARD_READ_ALLOWANCE_EXPIRY (R318): too few shards within fabric_allowance_us; FABRIC_UNREACHABLE. -/
def execShardReadAllowanceExpiry (session seq : Nat) (s : State) : R :=
  whenRunning (fun s =>
    match findFlight s session seq with
    | none => s
    | some f => match f.prot with
      | none => s
      | some p => guard (decide (p.asked ≠ 0 ∧ p.asked + s.fab.allowUs * 1000 ≤ now s) && !p.read)
          (fun s => goOn session seq (modProt session seq (fun q => { q with read := true, failed := true }) s)) s) s

/-! ## Failed peers and rebuilding (R313, R315, R319) -/

/-- The sessions to and from a failed peer end. -/
def endSessions (node : Nat) (s : State) : State :=
  let s1 := { s with fab := { s.fab with links := tdel s.fab.links node,
                                         opens := s.fab.opens.filter (fun p => decide (p.2 ≠ node)),
                                         unsent := s.fab.unsent.filter (fun p => decide (p.1 ≠ node)) } }
  each (fun p s => match p.2.kind with
    | .fabric => if p.2.credit.peer = node then
        releaseSession p.1 (undebit (.command p.1 0) (kittyCancel (512 * unusedUnits p.2.credit) s)) else s
    | _ => s) s1.sessions s1

/-- PEER_FAILURE (R319): no route has reached the peer for peer_fail_ms. -/
def execPeerFailure (node : Nat) (s : State) : R :=
  whenRunning (guard (decide (node ≠ s.fab.nodeId ∧ node ∉ s.fab.dead) && !reachable s node &&
      decide (tget (fun _ => 0) s.fab.lastSeen node + s.fab.peerFailMs * 1000000 ≤ now s)) (fun s =>
    let s1 := endSessions node s
    let wait := now s + Config.horizon * Config.slotNs
    { s1 with fab := { s1.fab with
        dead := s1.fab.dead ++ [node], failedPeers := s1.fab.failedPeers ++ [(node, now s)],
        leadFrom := if succeeds s1 node then tput s1.fab.leadFrom node wait else s1.fab.leadFrom } })) s

/-- The rebuild of a replaced holder is complete once nothing is owed to it any more; the event names the namespace (R319). -/
def settleRebuild (s : State) : State :=
  let done := s.fab.rebuilding.filter (fun p => !s.fab.owedList.any (fun o => decide (o.ns = p.1 ∧ o.holder = p.2)))
  each (fun p s => event 0x0A04 [p.1] s) done
    { s with fab := { s.fab with rebuilding := s.fab.rebuilding.filter (fun p => decide (p ∉ done)) } }

/-- The shards of an object this module can rebuild from: its own and those read. -/
def sources (s : State) (ns d : Nat) : List Shard :=
  let mine := (candidates s ns d).filterMap (fun c => match recordAt s c.2 with
    | some r => if r.ns = ns ∧ r.digest = d then some (recordShard r) else none
    | none => none)
  topShards (mine ++ s.fab.gather.filter (fun h => decide (h.ns = ns ∧ h.digest = d)))

/-- The shard that a holder lacks, made from the value. -/
def rebuiltShard (x : Namespace) (l : List Shard) (i : Nat) : Option Shard :=
  match l with
  | [] => none
  | h :: _ =>
    if h.tombstone then some { h with index := i }
    else some { h with index := i, value := (shardBytes x (joinShards x l)).getD i [] }

/-- A rebuilt shard is stored here, against kitty bytes and program time of the pool; it waits while either lacks. -/
def storeRebuilt (h : Shard) (s : State) : Option State :=
  let r := shardRecord h false
  let n := 512 * r.units
  if kittyFits n s = false then none
  else
    match makeDebits (.command 0 h.digest) h.tombstone [(h.suit, debitCost s n, n)] s with
    | .error _ => none
    | .ok s1 => some (settleKitty n n (commitRecord r (.buffer (debitSet s1 0 h.digest) n (0, h.digest)) (kittyReserve n s1)))

/-- A REBUILD_WRITE of an owed shard is on its way to its holder. -/
def rebuildSent (s : State) (o : Owed) : Bool :=
  let mine := fun (q : Request) => decide (q.code = 6 ∧ q.ns = o.ns ∧ q.digest = o.digest)
  (linkTo s o.holder).any (fun x => x.unacked.any mine) || s.fab.unsent.any (fun p => decide (p.1 = o.holder) && mine p.2)

/-- One owed shard is rebuilt on its holder: here, or by REBUILD_WRITE, whose frames are unbounded traffic (DEDUCED, log entry
114). -/
def rebuildOn (o : Owed) (h : Shard) (s : State) : State :=
  if o.holder = s.fab.nodeId then
    match if haveNewer s h then some s else storeRebuilt h s with
    | none => s
    | some s2 => settleRebuild { s2 with fab := { s2.fab with owedList := s2.fab.owedList.erase o } }
  else
    sendRequest o.holder { units := (shardRecord h false).units, code := 6, own := (0, 0), bounded := false, ns := o.ns,
                           digest := o.digest, sh := some h, version := h.version } s

/-- The shards of an owed object are read from its other holders. -/
def askSources (o : Owed) (l : List Shard) (s : State) : State :=
  let ask := (keyHolders s o.ns o.digest).filter (fun n => decide (n ≠ s.fab.nodeId ∧ n ≠ o.holder ∧ n ∉ s.fab.dead))
  let r : Request := { units := 1, code := 5, own := (0, 0), bounded := false, ns := o.ns, digest := o.digest,
                       key := match l with | h :: _ => h.key | [] => [] }
  each (fun n => sendRequest n r) ask s

/-- The shards read of an object are let go. -/
def dropGathered (o : Owed) (s : State) : State :=
  { s with fab := { s.fab with gather := s.fab.gather.filter (fun y => !decide (y.ns = o.ns ∧ y.digest = o.digest)) } }

/-- Shard `h`, made from those at hand, is rebuilt once the recovery work has its antes. -/
def rebuildShard (o : Owed) (h : Shard) (s : State) : State :=
  match takeAntes .shardRebuild false true o.digest (rebuildShape h) s with
  | none => s
  | some s1 => rebuildOn o h (dropGathered o s1)

/-- Shard `i` of an owed object is made from the shards at hand; too few are read first. -/
def rebuildFrom (o : Owed) (i : Nat) (s : State) : State :=
  let l := sources s o.ns o.digest
  if l.length < shardsNeeded (nsAt s o.ns) then askSources o l s
  else
    match rebuiltShard (nsAt s o.ns) l i with
    | none => s
    | some h => rebuildShard o h s

/-- The first owed shard of an object whose holder can be reached and has none of it on its way. -/
def owedNext (s : State) (ns digest : Nat) : Option Owed :=
  s.fab.owedList.find? (fun o => decide (o.ns = ns ∧ o.digest = digest) && reachable s o.holder && !rebuildSent s o)

/-- SHARD_REBUILD (R315, R319): one owed shard is rebuilt on its holder under a yielding maintenance reservation, which draws on
the fault reserve first (R200); too few shards at hand are read first. -/
def execShardRebuild (ns digest : Nat) (s : State) : R :=
  whenRunning (fun s =>
    match owedNext s ns digest with
    | none => settleRebuild s
    | some o =>
      match (keyHolders s ns digest).idxOf? o.holder with
      | none => settleRebuild { s with fab := { s.fab with owedList := s.fab.owedList.erase o } }
      | some i => rebuildFrom o i s) s

end Sys2Proof.Machine
end

