-- ==== Sys2Proof/Machine/Rows.lean ====
section
/-! DEFINITION. The end of a row program (R447 to R450, R474): what is on flash then, and what a failed block does to its
meld. -/

namespace Sys2Proof.Machine

open Sys2Proof

/-- The row that holds the last unit of a placed record. -/
def lastRow (m : Meld) (x : Placed) : Nat := (x.addr % Config.meldSpan + x.item.units - 1) / rowUnits m

/-- A record stands at a media address from now on, with the CRCs of that address (R442). -/
def onFlash (a : Nat) (r : Record) (s : State) : State :=
  { s with med := { s.med with flash := tput s.med.flash a (sealRecord a r) } }

/-- The system record `old` is needed no more once `r` is on flash: an image by a later one of its group, a delta page whose records
all lie below the lowest image_seq, a journal page and a snapshot by the next (R403, R480). -/
def superseded (s : State) (r old : Record) : Bool :=
  match old.kind with
  | 4 => decide (r.kind = 4 ∧ r.words.getD 0 0 = old.words.getD 0 0)
  | 5 => decide (r.kind = 4) && old.words.all (fun w => decide (bits w 255 192 < oldestImage s.idx))
  | 6 => decide (r.kind = 6)
  | 7 => decide (r.kind = 7)
  | _ => false

/-- A system record is on flash: it is needed from now on, and what it supersedes is not. -/
def systemLanded (a : Nat) (r : Record) (s : State) : State :=
  if systemKind r.kind = false ∨ r.kind = 2 then s
  else
    let rest := s.med.system.filter (fun b => !(match tfind s.med.flash b with | some old => superseded s r old | none => true))
    { s with med := { s.med with system := rest.filter (fun b => decide (b ≠ a)) ++ [a] } }

/-- A copy of a record is on flash: a tombstone or hint is held twice until its source is erased (R477), and of a system record the
copy is the one that is needed. -/
def copyLanded (a old : Nat) (r : Record) (s : State) : State :=
  let more := if r.kind = 1 ∨ r.kind = 2 then 512 else 0
  { s with med := { s.med with tombBytes := s.med.tombBytes + more,
                               system := s.med.system.map (fun b => if b = old then a else b) } }

/-- The medium-mode shard that a fabric request placed is answered (Table 06-8). -/
def shardLanded (p : Pending) (s : State) : State := reqDone p.session p.seq stOk s

/-- A medium-mode write whose row is on flash with parity goes on to its commit step (R150, R314). -/
def writeLanded (id seq : Nat) (s : State) : State :=
  let mark := fun (f : InFlight) => { f with landed := true, prot := f.prot.map (fun p =>
    { p with answered := if s.fab.nodeId ∈ p.answered then p.answered else p.answered ++ [s.fab.nodeId] }) }
  let s1 := modFlight id seq mark s
  match findFlight s1 id seq with
  | none => s1
  | some f => tryCommit id seq (if f.prot.isSome then tryDecide id seq s1 else s1)

/-- One record of a row that is on flash: kitty bytes are freed and the entry waits to be moved (R80, R450); a medium-mode
record is landed. -/
def recordLanded (x : Placed) (s : State) : State :=
  match x.medium, x.dram, x.src, x.owner with
  | false, some id, _, _ =>
    let s1 := kittyFree x.kitty (onFlash x.addr x.item s)
    { s1 with med := { s1.med with moves := s1.med.moves ++ [(x.addr, true, id)] } }
  | false, none, some old, _ =>
    let s1 := copyLanded x.addr old x.item (onFlash x.addr x.item s)
    { s1 with med := { s1.med with moves := s1.med.moves ++ [(x.addr, false, old)] } }
  | false, none, none, _ => systemLanded x.addr x.item (onFlash x.addr x.item s)
  | true, _, _, some (id, seq) =>
    match s.fab.pend.find? (fun p => decide (p.session = id ∧ p.seq = seq ∧ p.medium = true)) with
    | some p => shardLanded p s
    | none => writeLanded id seq s
  | true, _, _, none => s

/-- Row `r` of meld `n` is on flash (R447, Table 09-12). -/
def rowDone (n r : Nat) (s : State) : State :=
  let m := meldAt s n
  let done := m.asm.filter (fun x => decide (lastRow m x ≤ r))
  let rest := m.asm.filter (fun x => decide (r < lastRow m x))
  let record := sumOf (fun x => 512 * x.item.units) done
  let m1 : Meld := { m with row := r + 1, programs := m.programs.tail, running := none, asm := rest, bytes := m.bytes + record,
                            seqs := m.seqs ++ [s.med.progSeq],
                            progAt := if r = 0 then now s else m.progAt, seq0 := if r = 0 then s.med.progSeq else m.seq0 }
  let med1 : Media := { s.med with progSeq := s.med.progSeq + 1,
                                   bytesUser := s.med.bytesUser + (if m.stream < 16 then record else 0),
                                   bytesProg := s.med.bytesProg + 12 * (width m + 1) * 16384 }
  settleMeld n (each recordLanded done (setMeld n m1 { s with med := med1 }))

/-- A record of a torn row is placed again in another open meld of its stream (R474). -/
def placeAgain (stream : Nat) (x : Placed) (s : State) : State :=
  match meldFor stream (decide (x.item.kind = 1)) none x.item.units s with
  | none => s
  | some (n, s1) =>
    let a := n * Config.meldSpan + alignUnit (meldAt s1 n) x.item.units
    let s2 := placeIn n x.item x.dram x.src x.kitty x.owner x.medium s1
    match x.medium, x.owner with
    | true, some (id, seq) =>
      let s3 := modFlight id seq (fun f => { f with row := some n, placed := some a }) (sealRow n s2)
      { s3 with fab := { s3.fab with pend := s3.fab.pend.map (fun p =>
          if p.session = id ∧ p.seq = seq then { p with addr := a } else p) } }
    | _, _ => s2

/-- Blocks of a meld on a die and plane. -/
def blocksOn (m : Meld) (f : ProgFail) : List Nat :=
  (m.blocks.zipIdx.filter (fun p => decide (blockDie p.1 = f.die ∧ blockPlane p.1 = f.plane ∧ m.narrow ≠ some (p.2 / 4)))).map (·.1)

/-- Meld `n` takes and programs no further row: it is closed short and degraded, and its reserved programs are given back. A row under
way is torn (R474); what was placed and is not on flash is answered. -/
def stopMeld (n : Nat) (s : State) : State × List Placed :=
  let m := meldAt s n
  let m1 : Meld := { m with shut := true, degraded := true, programs := [], running := none, asm := [], asmAt := none }
  let med1 : Media := if m.running.isSome then
      { s.med with progSeq := s.med.progSeq + 1, aborted := s.med.aborted ++ [(n, m.row)], torn := s.med.torn + 1 } else s.med
  let s1 := setMeld n m1 { s with med := med1 }
  ({ s1 with ante := { s1.ante with resv := s1.ante.resv.filter (fun v =>
      !decide (v.owner = .row n ∧ slotOf (now s) < v.slot)) } }, m.asm)

/-- A row of meld `n` is torn (R474): the failed blocks are retired, the meld is closed short at the row before and is
degraded, what was placed in it from that row on is placed again, and the meld is rebuilt (R456). -/
def rowTorn (n : Nat) (failed : List ProgFail) (s : State) : State :=
  let m := meldAt s n
  match stopMeld n s with
  | (s2, gone) =>
    let s3 := each (fun f s => each (fun b s =>
        let s' := retireBlock b s
        let s'' := { s' with med := { s'.med with retProg := s'.med.retProg + 1 } }
        modFlashChan (f.die / 16) (fun c => { c with progFail := c.progFail + 1 }) s'') (blocksOn m f) s) failed s2
    let s4 := each (placeAgain m.stream) gone s3
    relocateMeld .relocation true true n (settleMeld n s4)

/-- An open meld with a block of a failed die writes no further row to it (R455): it is closed short, and what was placed in it and is
not on flash is placed again in other melds. -/
def leaveMeld (n : Nat) (s : State) : State :=
  match stopMeld n s with
  | (s1, gone) => settleMeld n (each (placeAgain (meldAt s n).stream) gone s1)

/-- A die is declared failed; no further row is written to it (R455). -/
def failDie (die : Nat) (s : State) : State :=
  if (dieAt s die).state ≠ 0 then s
  else
    let s1 := event 0x0602 [] (setDie die { dieAt s die with state := 1 } s)
    each (fun p => leaveMeld p.1) ((meldsIn s1 .open_).filter (fun p => decide (die ∈ meldDies p.1 p.2))) s1

/-- DIE_FAILURE (R455). -/
def execDieFailure (die : Nat) (s : State) : R := whenRunning (guard (decide (die < 512)) (failDie die)) s

/-! ## Reads and the ladder (R451 to R455) -/

/-- Bad byte columns of a plane: those found at manufacture and those found since (R453). -/
def columnsOf (s : State) (die plane : Nat) : Nat :=
  (Config.badColumns die plane).val + (s.med.columns.filter (fun c => decide (c.1 = 4 * die + plane))).length

/-- A byte position failed in a codeword of a plane: in the third one it becomes a bad column, the 65th of a plane fails the die
(R453). -/
def columnFails (die plane addr pos : Nat) (s : State) : State :=
  let q := 4 * die + plane
  let x := (q, pos, addr)
  if (q, pos) ∈ s.med.columns ∨ x ∈ s.med.colFails then s
  else
    let l := s.med.colFails ++ [x]
    let mine := l.filter (fun y => decide (y.1 = q ∧ y.2.1 = pos))
    if mine.length < 3 then { s with med := { s.med with colFails := l } }
    else
      let s1 := { s with med := { s.med with colFails := l.filter (fun y => !decide (y.1 = q ∧ y.2.1 = pos)),
                                             columns := s.med.columns ++ [(q, pos)] } }
      if 64 < columnsOf s1 die plane then failDie die s1 else s1

/-- A codeword of a die reached step 4 of the ladder: more than 16 within one second fail the die (R455). -/
def deepRead (die : Nat) (s : State) : State :=
  let d := dieAt s die
  let deep := (d.deep ++ [now s]).filter (fun t => decide (now s < t + 1000000000))
  let s1 := setDie die { d with deep := deep } s
  if 16 < deep.length then failDie die s1 else s1

/-- CODEWORD_READ_COMPLETE (R451 to R455): one codeword read ends at a step of the ladder. -/
def execCodewordReadComplete (addr : Nat) (found : CodewordRead) (s : State) : R :=
  whenRunning (fun s =>
    let x := readPlace s addr
    let n := addr / Config.meldSpan
    let m := meldAt s n
    let word := addr / 8 * 8
    let blk := match locate (width m) addr with
      | none => 0
      | some l => m.blocks.getD (4 * (dataSlots n m.narrow).getD l.dslot 0 + l.plane) 0
    let s1 := each (columnFails x.die x.plane word) found.bad (setBlk blk { blkAt s blk with reads := (blkAt s blk).reads + 1 } s)
    match found.res with
    | .clean => s1
    | .corrected =>
      modFlashChan x.channel (fun c => { c with corrected := c.corrected + 1 })
        { s1 with med := { s1.med with cwCorr := s1.med.cwCorr + 1 } }
    | .shifted =>
      setMeld n { meldAt s1 n with retries := tmod (fun _ => 0) (meldAt s1 n).retries word (· + 1) }
        (modFlashChan x.channel (fun c => { c with retried := c.retried + 1 })
          { s1 with med := { s1.med with cwRetry := s1.med.cwRetry + 1 } })
    | .soft =>
      setMeld n { meldAt s1 n with soft := true }
        (modFlashChan x.channel (fun c => { c with retried := c.retried + 1 })
          { s1 with med := { s1.med with cwRetry := s1.med.cwRetry + 1 } })
    | .reconstructed => deepRead x.die (codewordRepaired addr s1)
    | .lost =>
      event 0x0601 [] (deepRead x.die
        (modFlashChan x.channel (fun c => { c with lost := c.lost + 1 })
          { s1 with med := { s1.med with unrec := s1.med.unrec + 1, lost := s1.med.lost ++ [word] } }))) s

/-- ROW_PROGRAM_COMPLETE (R447, R474): the dies report the program's status. -/
def execRowProgramComplete (meld : Nat) (failed : List ProgFail) (s : State) : R :=
  whenRunning (fun s =>
    let m := meldAt s meld
    match m.running, m.programs with
    | some t, p :: _ =>
      if now s < t then s
      else if (failed.flatMap (blocksOn m)) = [] then rowDone meld p.1 s
      else rowTorn meld failed s
    | _, _ => s) s

/-! ## The snapshot of the meld table (R480) -/

/-- The contents of a JOURNAL_PAGE record: of every session the watermarks and the outcome records (R70, R72, Table 09-3, log entry
103). -/
def journalWords (s : State) : List Nat :=
  s.sessions.flatMap (fun p => [p.1, p.2.highest, watermark s p.1 p.2, p.2.store.length] ++
    p.2.store.flatMap (fun r => [r.1, outcomeWord r.2]))

/-- MELD_TABLE_SNAPSHOT (R480): a JOURNAL_PAGE record of the sessions, a MELD_TABLE record, and the root page that names it; until the
next snapshot the system stream opens none but the melds named. -/
def execMeldTableSnapshot (s : State) : R :=
  whenRunning (fun s =>
    let s1 := if s.sessions = [] then s else placeSystem (systemRecord 6 (journalWords s) s) s
    let s2 := placeSystem (systemRecord 7 (tableWords s1) s1) s1
    { s2 with med := { s2.med with rootSeq := s.med.rootSeq + 1, nextMelds := some (nextEight s1) } }) s

end Sys2Proof.Machine
end

