-- ==== Sys2Proof/Machine/Cores.lean ====
section
/-! DEFINITION. Core roles: the failure of a core and the drains by which roles change (R22 to R32). -/

namespace Sys2Proof.Machine

open Sys2Proof

/-- Core `c` takes role `r`. -/
def setRole (c r : Nat) (s : State) : State :=
  { s with cores := { s.cores with roles := tset roleAtShipment s.cores.roles c r } }

/-- The least count of a role (Table 01-2). -/
def roleMin (r : Nat) : Nat := if r = 0 then 8 else if r = 1 then 2 else if r = 2 then 1 else if r = 3 then 1 else 0

/-- The greatest count of a role (Table 01-2). -/
def roleMax (r : Nat) : Nat := if r = 0 then 28 else if r = 1 then 8 else if r = 2 then 4 else 1

/-- How many cores hold each role, command to service. -/
def roleCounts (s : State) : List Nat := (List.range 5).map (roleCount s)

/-- Cores of a role, lowest first. -/
def coresOf (s : State) (r : Nat) : List Nat := (List.range 32).filter (fun c => decide (roleOf s c = r))

/-- A new core takes over the management role; the mailboxes are busy for at most 50 ms (R31, R32). -/
def beginTakeover (s : State) : State :=
  { s with cores := { s.cores with takeover := true, takeAt := now s + 50000000 } }

/-- Management does not answer (R31). -/
def mgmtBusy (s : State) : Bool := s.cores.takeover && decide (now s < s.cores.takeAt)

/-- One command is dispatched again: to the core that has taken over the role, where one has; else to one of the cores the role
continues on (R30, R32). -/
def redispatchOne (core : Nat) (f : InFlight) (s : State) : State :=
  let c := match s.cores.standIn with
    | some (gone, x) => if gone = core ∧ roleOf s x = 0 then x else pickCore s
    | none => pickCore s
  let s1 := modFlight f.session f.seq (fun g => { g with core := c }) (drawn s)
  { s1 with dlr := { s1.dlr with redispatch := s1.dlr.redispatch + 1 } }

/-- The commands dispatched to a failed core are dispatched again (R30). -/
def redispatch (core : Nat) (s : State) : State :=
  each (redispatchOne core) (s.dlr.inflight.filter (fun f => decide (f.core = core ∧ f.fast = false))) s

/-- The drain of core `c` toward role `r` is reserved (R25, R26). -/
def askDrain (c r : Nat) (s : State) : State :=
  reserveMaint .roleDrain c 125 { s with cores := { s.cores with draining := s.cores.draining ++ [(c, r)] } }

/-- The highest-numbered command core is drained for a role that has too few cores; the drain is drawn from the fault reserve,
so it starts in the current slot (R32). DESIGN CHOICE, log entry 89: a core that already drains to another role is passed
over. -/
def replaceRole (r : Nat) (s : State) : State :=
  match (coresOf s 0).filter (fun c => decide (c ∉ s.cores.draining.map (·.1))) |>.getLast? with
  | none => s
  | some c =>
    let m : MaintResv := { id := s.ante.nextId, kind := .roleDrain, target := c, first := slotOf (now s), slots := 125, firm := true,
                            drawn := true }
    let s1 := { s with cores := { s.cores with draining := s.cores.draining ++ [(c, r)] },
                       ante := { s.ante with maint := s.ante.maint ++ [m], nextId := s.ante.nextId + 1 } }
    if r = 3 then beginTakeover s1 else s1

/-- Core `c`'s drain is given up. -/
def dropDrain (c : Nat) (s : State) : State :=
  let s1 := match findMaint s .roleDrain c with
    | some m => dropMaint m.id s
    | none => s
  { s1 with cores := { s1.cores with draining := s1.cores.draining.filter (fun p => decide (p.1 ≠ c)) } }

/-- The role of a failed core goes on (R28, R32). -/
def passRole (core r : Nat) (s : State) : State :=
  match (coresOf s 4).head? with
  | some x =>
    let s1 := setRole x r { s with cores := { s.cores with standIn := some (core, x) } }
    if r = 3 then beginTakeover s1 else s1
  | none => if r = 0 ∨ roleMin r ≤ roleCount s r then s else replaceRole r s

/-- The drains that a write of page 0x0104 asks for (R25): one per core whose role changes. -/
def startRoles (roles : List Nat) (s : State) : State :=
  each (fun p s => if roleOf s p.2 = p.1 ∨ roleOf s p.2 = 15 then s else askDrain p.2 p.1 s) roles.zipIdx s

/-- Writes of the page that wait are applied in their order as long as no core drains (R27); the count bounds them. -/
def nextWrites : Nat → State → State
  | 0, s => s
  | n + 1, s =>
    match s.cores.draining, s.cores.queued with
    | [], roles :: t => nextWrites n (startRoles roles { s with cores := { s.cores with queued := t } })
    | _, _ => s

/-- The next writes of the page are applied once no core drains. -/
def nextRoles (s : State) : State := nextWrites s.cores.queued.length s

/-- A write of page 0x0104 is applied, after every role change of the ones before (R27). -/
def assignRoles (roles : List Nat) (s : State) : State :=
  nextRoles { s with cores := { s.cores with queued := s.cores.queued ++ [roles] } }

/-- Core `core` is retired, its role goes on elsewhere, its commands are dispatched again (R28, R30, R32). -/
def retireCore (core : Nat) (s : State) : State :=
  if 32 ≤ core ∨ roleOf s core = 15 then s
  else
    let r := roleOf s core
    let wanted := (s.cores.draining.find? (fun p => decide (p.1 = core))).map (·.2)
    let alone := decide (coresOf s 4 = [] ∨ r = 4)
    let s1 := setRole core 15 (dropDrain core s)
    let s2 := match s1.cores.standIn with
      | some (_, x) => if x = core then { s1 with cores := { s1.cores with standIn := none } } else s1
      | none => s1
    let s3 := if r = 4 then s2 else passRole core r s2
    let s4 := match wanted with
      | some w => if roleCount s3 w < roleMin w ∧ w ∉ s3.cores.draining.map (·.2) then replaceRole w s3 else s3
      | none => s3
    nextRoles (redispatch core (event 0x1101 (if alone && decide (r ≠ 4) then roleCounts s4 else []) s4))

/-- CORE_FAILURE (R28, R30, R32). -/
def execCoreFailure (core : Nat) (s : State) : R := whenRunning (retireCore core) s

/-- Work dispatched to a core of the command role and not yet completed (R25). -/
def coreBusy (s : State) (c : Nat) : Bool := s.dlr.inflight.any (fun f => decide (f.core = c ∧ f.fast = false))

/-- CORE_ROLE_DRAIN (R25, R26): in its reservation and with its work done, the core switches role. -/
def execCoreRoleDrain (core : Nat) (s : State) : R :=
  whenRunning (fun s =>
    match s.cores.draining.find? (fun p => decide (p.1 = core)), findMaint s .roleDrain core with
    | some (_, r), some m =>
      if slotOf (now s) < m.first ∨ (roleOf s core = 0 ∧ coreBusy s core = true) then s
      else
        let s1 := setRole core r (dropDrain core s)
        nextRoles (if r = 4 then { s1 with cores := { s1.cores with standIn := none } } else s1)
    | _, _ => s) s

/-- MANAGEMENT_TAKEOVER_COMPLETE (R31, R32): the new management core has taken over. -/
def execManagementTakeoverComplete (s : State) : R :=
  whenRunning (guard (s.cores.takeover && decide (roleCount s 3 = 1)) (fun s =>
    { s with cores := { s.cores with takeover := false } })) s

end Sys2Proof.Machine
end

