-- ==== Sys2Proof/Machine/Links.lean ====
section
/-! DEFINITION. Fabric lanes in and out of their trunks: flooding, membership, revoke, the frames a lane keeps, and how a lane
leaves UP (R277 to R285, R351). -/

namespace Sys2Proof.Machine

open Sys2Proof

/-! ## Flooding (R285) -/

/-- What this module's own ROUTE frames tell (R275, R285). -/
def ownInfo (s : State) : NodeInfo := { serial := Config.serial, trunks := fabricTrunks s, valid := true, validAt := s.fab.validAt }

/-- The module floods its list of trunks (R285). -/
def floodRoute (s : State) : State :=
  if joined s = false then s
  else passRoute s.fab.nodeId (ownInfo s) { s with fab := { s.fab with routeAt := now s } }

/-- The topology has changed: the routes are computed again within 2 ms, and a change of the own trunks is flooded
(R285). -/
def topologyChanged (own : Bool) (s : State) : State :=
  let s1 := { s with fab := { s.fab with routeDue := some (s.fab.routeDue.getD (now s + 2000000)) } }
  if own then floodRoute s1 else s1

/-! ## Queued and kept frames (R283) -/

/-- What a lane keeps and has not sent goes elsewhere: to the other lanes of the trunk, or, the trunk lost, to alternate
trunks. -/
def moveFrames (node : Nat) (l : List TxFrame) (s : State) : State :=
  each (fun f s => if lanesTo s node = [] then queueAlternate f s else queueTo node f s) l s

/-! ## Retraining and revoke (R281, R282, R345) -/

/-- The lane waits for a retraining window; one is reserved unless it is already (R282, R345). -/
def askTraining (n : Nat) (s : State) : State :=
  if (findMaint s .laneRetrain n).isSome then s else reserveMaint .laneRetrain n 31250 s

/-- A lane in FAILED goes to WAITING on a write of its page (Table 07-2). -/
def wakeFailed (n : Nat) (s : State) : State :=
  if (laneAt s n).state = .failed then
    askTraining n (modLane n (fun l => { l with state := .waiting, attempts := 0, since := now s }) s)
  else s

/-- The lane as it stands in WAITING: nothing held, nothing of the link before. -/
def laneWaiting (t : Nat) (l : Lane) : Lane :=
  { l with state := .waiting, since := t, hiBer := false, held := none, holdoff := none, pauseSent := false, txLpi := false,
           rxLpi := false, hellos := 0, inTrunk := false, owed := [0, 0, 0, 0, 0], noCredit := [], naks := [], wakeSlot := none,
           outOf := l.outOf || (l.inTrunk && !l.cfg.client) }

/-- A fabric lane fails (R280 to R283): it leaves its trunk. While other lanes of the trunk remain, REVOKE goes out on the
lowest of them and the kept frames wait for the answer; otherwise the trunk is lost. -/
def revokeLane (n : Nat) (s : State) : State :=
  let l := laneAt s n
  match l.farNode with
  | none => askTraining n (setLane n (laneWaiting (now s) l) s)
  | some node =>
    let was := inFabricTrunk l
    let l1 := laneWaiting (now s) { l with tx := [], kept := if was then l.kept else [], revoking := was }
    let s1 := askTraining n (setLane n l1 s)
    if was = false then s1
    else
      let s2 := { s1 with fabc := { s1.fabc with revokes := s1.fabc.revokes + 1 } }
      match (lanesTo s2 node).head? with
      | some k => moveFrames node l.tx (revokeFrame k n l.seqIn false s2)
      | none =>
        let s3 := setLane n { l1 with kept := [], revoking := false } s2
        topologyChanged true (moveFrames node (l.kept ++ l.tx) s3)

/-- A lane leaves its trunk while its link stays up: what it kept and had queued goes elsewhere (R277, R283). -/
def unjoinLane (n : Nat) (s : State) : State :=
  let l := laneAt s n
  if inFabricTrunk l = false then setLane n { l with hellos := 0 } s
  else
    let s1 := setLane n { l with inTrunk := false, hellos := 0, tx := [], kept := [], outOf := true } s
    topologyChanged (decide (lanesTo s1 (l.farNode.getD 0) = [])) (moveFrames (l.farNode.getD 0) (l.kept ++ l.tx) s1)

/-- Every fabric lane leaves its trunk: the module behaves as under R274. -/
def withdrawNode (s : State) : State := each (fun p s => if p.2.cfg.client then s else unjoinLane p.1 s) s.lanes s

/-- A lane leaves UP for any reason (R351); what a client lane had queued is lost. -/
def leaveUp (n : Nat) (s : State) : State :=
  let l := laneAt s n
  if l.state ≠ .up then s
  else if l.cfg.client then askTraining n (setLane n (laneWaiting (now s) { l with tx := [] }) s)
  else revokeLane n s

end Sys2Proof.Machine
end

