-- ==== Sys2Proof/Machine/PagesA.lean ====
section
/-! DEFINITION. Setting pages of architecture, namespaces, admission and host attachment: what a read of a page gives and
what a write does. A write that answers `none` is refused whole with PAGE_FIELD_INVALID. -/

namespace Sys2Proof.Machine

open Sys2Proof

/-- Bits `hi` to `lo` of a page lie within a range. -/
def fieldIn (v hi lo least most : Nat) : Bool := decide (least ≤ bits v hi lo ∧ bits v hi lo ≤ most)

/-- The write of a page: refused unless `ok`. -/
def pageIf (ok : Bool) (s : State) : Option State := if ok then some s else none

/-- The place of each element of a list of values of `w` bits, `step` bits apart from bit `lo` on. -/
def packEach (lo step w : Nat) : List Nat → Nat
  | [] => 0
  | a :: t => a % 2 ^ w * 2 ^ lo + packEach (lo + step) step w t

/-- The `n` values of a page that lie `step` bits apart from bit `lo` on. -/
def bitsEach (v lo step w : Nat) : Nat → List Nat
  | 0 => []
  | n + 1 => bits v (lo + w - 1) lo :: bitsEach v (lo + step) step w n

/-- A one-based list of flags as a mask. -/
def maskOf (n : Nat) (f : Nat → Bool) : Nat := sumOf (fun i => if f i then 2 ^ i else 0) (List.range n)

/-! ## 0x0104 core roles (R23, R24) -/

/-- The role of core `c` as it was last written (R15): the last write that waits, else the one it drains to, else the one it
holds. -/
def roleWritten (s : State) (c : Nat) : Nat :=
  if roleOf s c = 15 then 15
  else
    match s.cores.queued.getLast?, s.cores.draining.find? (fun p => decide (p.1 = c)) with
    | some l, _ => l.getD c 0
    | none, some p => p.2
    | none, none => roleOf s c

/-- Page 0x0104 (Table 01-3). -/
def read0104 (s : State) : Nat :=
  packEach 0 4 4 ((List.range 32).map (roleWritten s)) + maskOf 32 (fun c => decide (c ∈ s.cores.draining.map (·.1))) * 2 ^ 128 +
  (match s.cores.standIn with
   | none => 0
   | some (failed, _) => (failed + 2 ^ 31) * 2 ^ 160)

/-- A write of page 0x0104 (R24, R27). -/
def write0104 (s : State) (v : Nat) : Option State :=
  let roles := bitsEach v 0 4 4 32
  pageIf (roles.zipIdx.all (fun p => decide (p.1 ≤ 4 ∨ p.1 = 15) && decide (p.1 = 15 ↔ roleOf s p.2 = 15)) &&
      (List.range 5).all (fun r => decide (roleMin r ≤ (roles.filter (fun x => decide (x = r))).length ∧
        (roles.filter (fun x => decide (x = r))).length ≤ roleMax r)))
    (assignRoles roles s)

/-! ## 0x0105 packet buffer reserves (R37; the layout is log entry 24) -/

/-- Page 0x0105. -/
def read0105 (s : State) : Nat := pack [(0, 16, s.buf.perLane), (16, 16, s.buf.perHost), (32, 16, s.buf.fabric)]

/-- A write of page 0x0105 (Table 01-5). -/
def write0105 (s : State) (v : Nat) : Option State :=
  pageIf (fieldIn v 15 0 0 64 && fieldIn v 31 16 256 4096 && fieldIn v 47 32 1024 8192)
    { s with buf := { s.buf with perLane := bits v 15 0, perHost := bits v 31 16, fabric := bits v 47 32 } }

/-! ## 0x0106 host attachment (R221, R222) -/

/-- Contexts bound to host sessions, with the port of each. -/
def hostBound (s : State) : List (Nat × Nat) :=
  s.sessions.filterMap (fun p => match p.2.kind with | .host => some (p.2.ctx, p.2.port) | _ => none)

/-- Contexts that a port holds bound. -/
def portBound (s : State) (p : Nat) : Nat := ((hostBound s).filter (fun x => decide (x.2 = p))).length

/-- Page 0x0106 (Table 05-4). -/
def read0106 (s : State) : Nat :=
  pack [(0, 21, s.host.ctxLimit), (24, 4, s.host.mgmtMask)] + packEach 32 32 21 s.host.ctxMaxes

/-- A write of page 0x0106 (R222). -/
def write0106 (s : State) (v : Nat) : Option State :=
  let maxes := bitsEach v 32 32 21 4
  pageIf (fieldIn v 20 0 4 1040384 && fieldIn v 27 24 1 15 && (hostBound s).all (fun x => decide (x.1 < bits v 20 0)) &&
      maxes.zipIdx.all (fun p => decide (p.1 ≤ 1040384 ∧ portBound s p.2 ≤ p.1)))
    { s with host := { s.host with ctxLimit := bits v 20 0, mgmtMask := bits v 27 24, ctxMaxes := maxes } }

/-! ## 0x0201, 0x0202 namespaces (R94 to R101) -/

/-- Page 0x0201 (Table 03-2). -/
def read0201 (s : State) (ns : Nat) : Nat :=
  let x := nsAt s ns
  pack [(0, 1, b2n (x.state = 1)), (2, 1, b2n x.medium), (3, 1, b2n x.imported), (4, 2, x.protect), (8, 3, x.mirror),
        (16, 5, x.spreadK), (21, 3, x.spreadM), (24, 4, x.suit), (32, 12, x.keySlot), (64, 64, x.quota)]

/-- The module behaves as with node_valid 0 (R274, R275). -/
def unjoined (s : State) : Bool := !joined s

/-- A namespace of these settings may leave FREE (R97, R274, R308, R543, R555). -/
def mayLeaveFree (s : State) (x : Namespace) : Bool :=
  decide (x.protect ≠ 3) && (decide (x.protect = 0) || x.imported) &&
  (decide (x.protect ≠ 1) || decide (2 ≤ x.mirror ∧ x.mirror ≤ 4)) &&
  (decide (x.protect ≠ 2) || decide (2 ≤ x.spreadK ∧ x.spreadK ≤ 16 ∧ 1 ≤ x.spreadM ∧ x.spreadM ≤ 4)) &&
  (decide (x.protect = 0) || (!unjoined s && decide (x.holders ≠ [] ∧ shardCount x ≤ x.holders.length))) &&
  (keyOf s x.keySlot).isSome && (x.imported || noisePasses s)

/-- A namespace leaves FREE: its digest key is fixed, its counts start anew (R99, Table 03-3). A key that the key generator draws
needs its reseeding first, so that without a noise source digest keys can only be imported (R553, R555). -/
def leaveFree (ns : Nat) (x : Namespace) (s : State) : State :=
  if x.imported then setNs ns { x with state := 1, digestKey := x.wroteKey, writes := 0 } s
  else drawn (setNs ns { x with state := 1, digestKey := fresh 128 s, writes := 0 } (reseed 16 s))

/-- A RELEASING namespace begins to lose its objects, as under a hint of namespace scope (R100). -/
def beginRelease (ns : Nat) (s : State) : State :=
  let h : Hint := { ns := ns, scope := 0, suit := 0, lo := 0, hi := 2 ^ 128 - 1, time := (nextStamp s).time + 1 }
  { s with med := { s.med with hints := s.med.hints ++ [h] } }

/-- A write of page 0x0201 (Table 03-1, R97). digest_key reads 0, so 0 written outside FREE leaves it as it is (log entry
25). -/
def write0201 (s : State) (ns v : Nat) : Option State :=
  let x := nsAt s ns
  let enabled := bit v 0
  let release := bit v 1
  let key := if x.state ≠ 0 ∧ bits v 255 128 = 0 then x.wroteKey else bits v 255 128
  let y : Namespace := { x with medium := bit v 2, imported := bit v 3, protect := bits v 5 4, mirror := bits v 10 8,
                                spreadK := bits v 20 16, spreadM := bits v 23 21, suit := bits v 27 24,
                                keySlot := bits v 43 32, quota := bits v 127 64, wroteKey := key }
  let fixedSame := decide (x.protect = y.protect ∧ x.mirror = y.mirror ∧ x.spreadK = y.spreadK ∧ x.spreadM = y.spreadM ∧
    x.keySlot = y.keySlot ∧ x.imported = y.imported ∧ x.wroteKey = y.wroteKey)
  if (x.state ≠ 0 ∧ fixedSame = false) ∨ (release = true ∧ (x.state ≠ 2 ∨ enabled = true)) then none
  else if x.state = 0 then
    if enabled then pageIf (mayLeaveFree s y) (leaveFree ns y s) else some (setNs ns y s)
  else if x.state = 1 then some (setNs ns { y with state := if enabled then 1 else 2 } s)
  else if x.state = 2 then
    if release then some (beginRelease ns (setNs ns { y with state := 3 } s))
    else some (setNs ns { y with state := if enabled then 1 else 2 } s)
  else some (setNs ns y s)

/-- Page 0x0202 (Table 03-3). -/
def read0202 (s : State) (ns : Nat) : Nat :=
  let x := nsAt s ns
  pack [(0, 2, x.state), (2, 1, b2n (mediumNow s ns)), (3, 1, b2n (forcedMedium s && !x.medium)),
        (32, 32, (s.dlr.overlap.filter (fun o => decide (o.ns = ns))).length), (64, 64, x.objects), (128, 64, x.bytes),
        (192, 64, x.writes)]

/-! ## 0x0300 to 0x0303 admission (R181, R199, R206, R211) -/

/-- Page 0x0300 (Table 04-2). -/
def read0300 (s : State) : Nat := packEach 0 32 32 s.ante.bounds + 1500 * 2 ^ 224

/-- Least and greatest bound of D0 to D6 in µs (Table 04-1). -/
def boundRange : List (Nat × Nat) :=
  [(60, 1000), (60, 10000), (60, 100000), (60, 1000000), (60, 5000000), (60, 10000000), (60, 10000000)]

/-- Each number is below the next. -/
def rises : List Nat → Bool
  | a :: b :: t => decide (a < b) && rises (b :: t)
  | _ => true

/-- A write of page 0x0300 (R182). -/
def write0300 (s : State) (v : Nat) : Option State :=
  let l := bitsEach v 0 32 32 7
  pageIf (rises l && (l.zip boundRange).all (fun p => decide (p.2.1 ≤ p.1 ∧ p.1 ≤ p.2.2)))
    { s with ante := { s.ante with bounds := l } }

/-- Page 0x0301 (Table 04-6). -/
def read0301 (s : State) : Nat :=
  pack [(0, 32, s.ante.maxExitUs), (32, 8, s.ante.d7Limit), (40, 8, s.ante.gcPct), (48, 8, s.ante.relocPct),
        (56, 8, s.ante.testPct)]

/-- A write of page 0x0301 (R199). -/
def write0301 (s : State) (v : Nat) : Option State :=
  pageIf (fieldIn v 47 40 0 30 && fieldIn v 55 48 0 10 && fieldIn v 63 56 0 20)
    { s with ante := { s.ante with maxExitUs := bits v 31 0, d7Limit := bits v 39 32, gcPct := bits v 47 40,
                                   relocPct := bits v 55 48, testPct := bits v 63 56 } }

/-- Page 0x0302 (Table 04-9). -/
def read0302 (s : State) : Nat := packEach 0 16 8 s.ante.floors + packEach 8 16 8 s.ante.ceilings

/-- A write of page 0x0302 (R208). -/
def write0302 (s : State) (v : Nat) : Option State :=
  let floors := bitsEach v 0 16 8 8
  let ceilings := bitsEach v 8 16 8 8
  pageIf ((floors.zip ceilings).all (fun p => decide (1 ≤ p.2 ∧ p.2 ≤ 100 ∧ p.1 ≤ p.2)) && decide (sumOf id floors ≤ 90))
    { s with ante := { s.ante with floors := floors, ceilings := ceilings } }

/-- Load kinds of page 0x0303. -/
def loadKind : Res → Nat
  | .die _ => 0 | .plane _ => 0 | .channel _ => 1 | .trunk _ _ => 2 | .hostIn _ => 3 | .hostOut _ => 3 | .core _ => 4
  | .dram => 5 | .cipher => 6 | .index => 7

/-- The resource is counted in plane-µs of a die, not by its planes. -/
def loadCounts : Res → Bool
  | .plane _ => false
  | _ => true

/-- Percentage of the grantable amount of one instance reserved over the 4,096 slots after the current one (R211). -/
def loadOf (s : State) (r : Res) : Nat :=
  let c := slotOf (now s)
  let used := sumOf (fun x => if x.res = r ∧ c < x.slot ∧ x.slot ≤ c + 4096 then x.amount else 0) s.ante.resv
  let can := sumOf (fun i => grantable s false (c + 1 + i) r) (List.range 4096)
  if can = 0 then 0 else min 255 (100 * used / can)

/-- The most loaded instance of a kind. -/
def loadMax (s : State) (k : Nat) : Nat :=
  ((((s.ante.resv.map (·.res)).dedup).filter (fun r => decide (loadKind r = k) && loadCounts r)).map (loadOf s)).foldl max 0

/-- Codes of the window kinds (Table 04-8). -/
def windowKind : Maint → Nat
  | .activation => 1 | .recount => 2 | .dramRetrain => 3 | .laneRetrain => 4 | .roleDrain => 5
  | .backgroundGc => 0 | .foregroundGc => 0 | .expiryErase => 0 | .relocation => 0 | .testSlice => 0 | .bankRebuild => 0
  | .flushErase => 0 | .groupRebuild => 0 | .shardRebuild => 0 | .sweep => 0

/-- The next window placed: the one that begins first among those not yet ended. -/
def nextWindow (s : State) : Option MaintResv :=
  (s.ante.maint.filter (fun m => decide (windowKind m.kind ≠ 0 ∧ slotOf (now s) < m.first + m.slots))).foldl
    (fun a m => match a with
      | none => some m
      | some b => if m.first < b.first then some m else some b) none

/-- Page 0x0303 (Table 04-8). -/
def read0303 (s : State) : Nat :=
  pack [(0, 16, slotOf (now s) % 65536), (32, 64, s.ante.grants), (96, 64, s.ante.refRetry), (160, 64, s.ante.refNever),
        (224, 64, s.ante.d7Moves)] +
  packEach 288 8 8 ((List.range 8).map (loadMax s)) +
  (match nextWindow s with
   | none => 0
   | some m => pack [(352, 16, m.first % 65536), (368, 4, windowKind m.kind), (384, 32, m.slots)])

end Sys2Proof.Machine
end

