-- ==== Sys2Proof/Machine/PagesB.lean ====
section
/-! DEFINITION. Setting pages of lanes, the fabric, client trunks, index and classifier. A write that answers `none` is
refused whole with PAGE_FIELD_INVALID. -/

namespace Sys2Proof.Machine

open Sys2Proof

/-! ## 0x0107 index controls (R411) -/

/-- Page 0x0107 (Table 08-3). -/
def read0107 (s : State) : Nat := pack [(0, 16, s.idx.passS), (16, 8, s.idx.scanMax)]

/-- A write of page 0x0107. -/
def write0107 (s : State) (v : Nat) : Option State :=
  pageIf (fieldIn v 15 0 30 120 && fieldIn v 23 16 1 64)
    { s with idx := { s.idx with passS := bits v 15 0, scanMax := bits v 23 16 } }

/-! ## 0x0400, 0x0401 lanes (R343 to R345, R368) -/

/-- The settings of a lane as last written: a change that waits for its retraining is among them (R345). -/
def laneSettings (s : State) (n : Nat) : LaneCfg := ((laneAt s n).pending).getD (laneAt s n).cfg

/-- Page 0x0400 (Table 07-1). -/
def read0400 (s : State) (n : Nat) : Nat :=
  let c := laneSettings s n
  pack [(0, 1, b2n c.enabled), (1, 1, b2n c.client), (2, 1, b2n c.backplane), (4, 2, c.flow), (6, 1, b2n c.vlanTag),
        (7, 1, b2n c.wakeEn), (8, 3, c.txPcp), (12, 12, c.vlanId), (24, 8, c.pfcMask), (32, 16, c.maxFrame),
        (48, 16, c.lpiIdleUs), (64, 16, c.ringCells), (80, 16, c.xoff), (96, 16, c.xon), (112, 16, c.quanta),
        (128, 16, c.watchMs), (144, 16, c.holdoffMs), (160, 16, c.ringFrames), (192, 48, laneMac s n)]

/-- The fields of a write of page 0x0400. -/
def laneFields (v : Nat) : LaneCfg :=
  { enabled := bit v 0, client := bit v 1, backplane := bit v 2, flow := bits v 5 4, vlanTag := bit v 6, wakeEn := bit v 7,
    txPcp := bits v 10 8, vlanId := bits v 23 12, pfcMask := bits v 31 24, maxFrame := bits v 47 32,
    lpiIdleUs := bits v 63 48, ringCells := bits v 79 64, xoff := bits v 95 80, xon := bits v 111 96,
    quanta := bits v 127 112, watchMs := bits v 143 128, holdoffMs := bits v 159 144, ringFrames := bits v 175 160,
    mac := some (bits v 239 192) }

/-- The lane stands in the mask of an enabled client trunk other than `t`. -/
def laneTaken (s : State) (n : Nat) (but : Option Nat) : Bool :=
  s.fab.trunks.any (fun p => p.2.enabled && bit p.2.mask n && decide (but ≠ some p.1))

/-- Settings that R344 accepts; pause_quanta keeps the range of its field (log entry 26). -/
def laneOk (c : LaneCfg) : Bool :=
  (c.client || (decide (c.flow = 0) && !c.vlanTag && !c.wakeEn)) &&
  decide (c.flow ≠ 3 ∧ (c.flow ≠ 2 ∨ c.pfcMask ≠ 0)) &&
  (decide (c.maxFrame = 0) || (decide (64 ≤ c.maxFrame ∧ c.maxFrame ≤ 9216) && (c.client || decide (8242 ≤ c.maxFrame)))) &&
  decide (16 ≤ c.ringCells ∧ c.ringCells ≤ 1024 ∧ 16 ≤ c.ringFrames ∧ c.ringFrames ≤ 1024) &&
  decide (c.xon < c.xoff ∧ c.xoff < c.ringCells ∧ ceilDiv (maxFrame c) 256 ≤ c.ringCells ∧ 1 ≤ c.quanta) &&
  (match c.mac with
   | some m => decide (m ≠ 0) && !bit m 40
   | none => true)

/-- A write of page 0x0400 (R344, R345). -/
def write0400 (s : State) (n v : Nat) : Option State :=
  let c := laneFields v
  let old := laneSettings s n
  let l := laneAt s n
  let now_ : LaneCfg := { c with enabled := l.cfg.enabled, client := l.cfg.client, backplane := l.cfg.backplane }
  if laneOk c = false ∨ (c.client ≠ old.client ∧ laneTaken s n none = true) then none
  else if c.enabled = l.cfg.enabled ∧ c.client = l.cfg.client ∧ c.backplane = l.cfg.backplane then
    some (wakeFailed n (setLane n { l with cfg := c, pending := none } s))
  else
    some (askTraining n (wakeFailed n (leaveUp n (setLane n { l with cfg := now_, pending := some c } s))))

/-- Page 0x0401 (Table 07-4). -/
def read0401 (s : State) : Nat :=
  pack [(0, 2, s.wake.rollPort), (2, 1, b2n s.wake.rollIrq), (3, 11, s.wake.rollVec)] +
  packEach 256 192 128 s.wake.masks + packEach 384 192 32 s.wake.checks

/-- A write of page 0x0401. -/
def write0401 (s : State) (v : Nat) : Option State :=
  some { s with wake := { rollPort := bits v 1 0, rollIrq := bit v 2, rollVec := bits v 13 3,
                          masks := bitsEach v 256 192 128 8, checks := bitsEach v 384 192 32 8 } }

/-! ## 0x0500, 0x0502 fabric identity, controls, time (R272, R339, R324) -/

/-- Page 0x0500 (Table 06-1). -/
def read0500 (s : State) : Nat :=
  pack [(0, 11, s.fab.nodeId), (11, 1, b2n s.fab.nodeValid), (16, 16, s.fab.etherType), (32, 1, b2n s.fab.eligible)]

/-- A write of page 0x0500 (R273). A new node ID ends a conflict (R275); with node_valid cleared every lane leaves its trunk
(R274). -/
def write0500 (s : State) (v : Nat) : Option State :=
  let id := bits v 10 0
  let valid := bit v 11
  let et := bits v 31 16
  pageIf (!(s.fab.nodeValid && decide (id ≠ s.fab.nodeId)) &&
      !(s.fab.nodeValid && !valid && s.nss.any (fun p => decide (p.2.protect ≠ 0 ∧ p.2.state ≠ 0))) &&
      decide (0x0600 ≤ et ∧ et ∉ [0x0800, 0x0806, 0x86DD, 0x8100, 0x8808, 0x88A8]))
    (let s1 := { s with fab := { s.fab with nodeId := id, nodeValid := valid, etherType := et, eligible := bit v 32,
                                            conflict := s.fab.conflict && decide (id = s.fab.nodeId),
                                            validAt := if valid ∧ s.fab.nodeValid = false then now s else s.fab.validAt } }
     if s.fab.nodeValid ∧ valid = false then withdrawNode s1 else s1)

/-- Nodes that a route reaches. -/
def reachedNodes (s : State) : List Nat :=
  ((s.fab.routes.filter (fun p => p.2.primary.isSome || p.2.alternate.isSome)).map (·.1)).filter
    (fun n => decide (n ∉ s.fab.dead ∧ n ≠ s.fab.nodeId))

/-- The time master (R320): the lowest node ID among this module, when it is joined and eligible, and those it reaches.
No frame carries a peer's eligibility, so every peer counts as eligible (log entry 27). -/
def timeMaster (s : State) : Option Nat :=
  match (if joined s && s.fab.eligible then [s.fab.nodeId] else []) ++ (if joined s then reachedNodes s else []) with
  | [] => none
  | a :: t => some (leastOf id a t)

/-- The module is its own time master (R320, R325). -/
def ownMaster (s : State) : Bool :=
  match timeMaster s with
  | none => true
  | some n => decide (n = s.fab.nodeId)

/-- Fabric time steps to `t`; the calendar keeps its slots, so what is reserved keeps its distance from now (R185,
R322). -/
def stepTime (t : Nat) (s : State) : State :=
  let a := slotOf (now s)
  let b := slotOf t
  let mv := fun (k : Nat) => k + b - a
  { s with clk := { s.clk with time := t }, fab := { s.fab with slewNs := 0 },
           ante := { s.ante with slot := mv s.ante.slot, resv := s.ante.resv.map (fun x => { x with slot := mv x.slot }),
                                 maint := s.ante.maint.map (fun m => { m with first := mv m.first }) } }

/-- time_set (R324): a step before the first acceptance, above the time of the highest stamp (R322); later a slew of at
most 1 s. -/
def setTime (t : Nat) (s : State) : Option State :=
  let d : Int := (t : Int) - (now s : Int)
  if ownMaster s = false then none
  else if s.clk.first = false then pageIf (!s.clk.stamped || decide (s.clk.stamp.time < t))
    (stepTime t s)
  else pageIf (decide (-1000000000 ≤ d ∧ d ≤ 1000000000)) { s with fab := { s.fab with slewNs := d } }

/-- Page 0x0502 (Table 06-13). -/
def read0502 (s : State) : Nat :=
  let f := s.fab
  pack [(0, 8, f.linkCells), (8, 8, f.transitPct), (16, 16, f.allowUs), (32, 16, f.retransUs), (48, 16, f.peerFailMs),
        (64, 8, f.windowMib), (72, 8, f.kittyPct), (80, 16, f.idleMs), (96, 16, f.adaptCells), (112, 8, f.readPct)]

/-- A write of page 0x0502 (R339, R324). -/
def write0502 (s : State) (v : Nat) : Option State :=
  let ok := fieldIn v 7 0 34 255 && fieldIn v 15 8 10 90 && fieldIn v 31 16 10 1000 && fieldIn v 47 32 50 10000 &&
    fieldIn v 63 48 5 1000 && fieldIn v 71 64 1 128 && fieldIn v 79 72 0 90 && fieldIn v 119 112 0 30
  let s1 := { s with fab := { s.fab with
      linkCells := bits v 7 0, transitPct := bits v 15 8, allowUs := bits v 31 16, retransUs := bits v 47 32,
      peerFailMs := bits v 63 48, windowMib := bits v 71 64, kittyPct := bits v 79 72, idleMs := bits v 95 80,
      adaptCells := bits v 111 96, readPct := bits v 119 112 } }
  let t := bits v 191 128
  if ok = false then none else if t = 0 then some s1 else setTime t s1

/-! ## 0x0503, 0x0504 clients (R326, R327, R340) -/

/-- Page 0x0503 (Table 06-9). -/
def read0503 (s : State) (t : Nat) : Nat :=
  let k := trunkAt s t
  pack [(0, 512, k.mask), (512, 1, b2n k.enabled), (513, 1, b2n k.v4), (514, 1, b2n k.v6), (520, 8, k.pre4), (528, 8, k.pre6),
        (544, 32, k.addr4), (576, 32, k.gw4), (608, 128, k.addr6), (736, 128, k.gw6)]

/-- What a client trunk's settings must meet (R327). -/
def clientTrunkOk (s : State) (t v : Nat) : Bool :=
  let mask := bits v 511 0
  (List.range 512).all (fun n => !bit mask n || ((laneSettings s n).client && !laneTaken s n (some t))) &&
    (!bit v 512 || (decide (mask ≠ 0) && (bit v 513 || bit v 514))) &&
    (!bit v 513 || fieldIn v 527 520 1 32) && (!bit v 514 || fieldIn v 535 528 1 128)

/-- A write of page 0x0503 (R327). -/
def write0503 (s : State) (t v : Nat) : Option State :=
  let k := trunkAt s t
  pageIf (clientTrunkOk s t v)
    (setTrunk t { k with mask := bits v 511 0, enabled := bit v 512, v4 := bit v 513, v6 := bit v 514, pre4 := bits v 527 520,
                         pre6 := bits v 535 528, addr4 := bits v 575 544, gw4 := bits v 607 576, addr6 := bits v 735 608,
                         gw6 := bits v 863 736 } s)

/-- Page 0x0504 (Table 06-14). -/
def read0504 (s : State) : Nat :=
  let f := s.fab
  pack [(0, 16, f.udpPort), (16, 16, f.holdMs), (32, 16, f.stageMib), (48, 16, f.stageIdleMs), (64, 32, f.idleS),
        (96, 20, f.clientMax)]

/-- A write of page 0x0504 (R340). -/
def write0504 (s : State) (v : Nat) : Option State :=
  pageIf (fieldIn v 15 0 1024 65535 && fieldIn v 31 16 1 10000 && fieldIn v 47 32 1 1024 && fieldIn v 63 48 10 60000)
    { s with fab := { s.fab with udpPort := bits v 15 0, holdMs := bits v 31 16, stageMib := bits v 47 32,
                                 stageIdleMs := bits v 63 48, idleS := bits v 95 64, clientMax := bits v 115 96 } }

/-! ## 0x0505, 0x0506 holder sets and fabric status (R307, R308, R341) -/

/-- Page 0x0505 (Table 06-6). -/
def read0505 (s : State) (ns : Nat) : Nat := holderPage (nsAt s ns) + mapCrc (nsAt s ns) * 2 ^ 32

/-- Holders that a write replaces: the new node of each changed place. -/
def newHolders (old new : List Nat) : List Nat := ((old.zip new).filter (fun p => decide (p.1 ≠ p.2))).map (·.2)

/-- Objects of a namespace that this module must rebuild onto a new holder: it is the first other holder in reach. -/
def owedTo (s : State) (ns node : Nat) : List Owed :=
  (allEntries s).filterMap (fun p => match recordAt s p.2 with
    | none => none
    | some r =>
      let l := keyHolders s ns r.digest
      if r.ns = ns ∧ node ∈ l ∧ l.find? (fun n => decide (n ≠ node ∧ n ∉ s.fab.dead)) = some s.fab.nodeId then
        some { ns := ns, digest := r.digest, holder := node }
      else none)

/-- The rebuild of a replaced holder begins (R319). -/
def beginRebuild (ns node : Nat) (s : State) : State :=
  settleRebuild { s with fab := { s.fab with owedList := s.fab.owedList ++ owedTo s ns node,
                                             rebuilding := s.fab.rebuilding ++ [(ns, node)] } }

/-- A write of page 0x0505 (R308, R319). -/
def write0505 (s : State) (ns v : Nat) : Option State :=
  let x := nsAt s ns
  let n := bits v 6 0
  let all := bitsEach v 64 16 11 64
  let valid := bitsEach v 79 16 1 64
  let l := all.take n
  let ok := decide (n ≤ 64) && decide (x.protect ≠ 1 ∨ x.mirror ≤ n) && decide (x.protect ≠ 2 ∨ x.spreadK + x.spreadM ≤ n) &&
    decide (l.dedup.length = l.length) && valid.zipIdx.all (fun p => decide (p.1 = 1 ↔ p.2 < n))
  let y := { x with holders := l, spare := all.drop n }
  if ok = false then none
  else if x.state = 0 then some (setNs ns y s)
  else pageIf (decide (n = x.holders.length ∧ y.spare = (if x.spare = [] then List.replicate (64 - n) 0 else x.spare)) &&
      (x.holders.zip l).all (fun p => decide (p.1 = p.2 ∨ p.1 ∈ s.fab.dead)))
    (each (beginRebuild ns) (newHolders x.holders l) (setNs ns y s))

/-- Fabric lanes out of their trunks: they left them, and have not joined again. -/
def lanesRevoked (s : State) : Nat :=
  (s.lanes.filter (fun p => !p.2.cfg.client && p.2.outOf)).length

/-- time_locked (R323, R324): the master of R320 itself, or within 100 ns of it. DEDUCED, log entry 45: a module that is
its own master only under R325 is locked to nothing. -/
def timeLocked (s : State) : Bool :=
  match timeMaster s with
  | none => false
  | some n => decide (n = s.fab.nodeId) || s.fab.locked

/-- Page 0x0506 (Table 06-15). time_master and master_node name this module too when it is its own master under R325
(DEDUCED, log entry 45). -/
def read0506 (s : State) : Nat :=
  pack [(0, 1, b2n (joined s)), (1, 1, b2n s.fab.conflict), (2, 1, b2n (ownMaster s)),
        (3, 1, b2n (timeLocked s)), (16, 11, (timeMaster s).getD s.fab.nodeId), (32, 32, signed 32 s.fab.offsetNs),
        (64, 16, (fabricTrunks s).length), (80, 16, lanesRevoked s), (96, 32, (reachedNodes s).length),
        (128, 32, (s.sessions.filter (fun p => decide (p.2.kind = .fabric))).length + s.fab.links.length),
        (160, 32, clientSessions s), (192, 32, s.fab.pend.length), (224, 32, s.fab.owedList.length)]

/-! ## 0x0600 to 0x0602 classifier (R422 to R424, R433, R434) -/

/-- Page 0x0600 (Table 08-11). -/
def read0600 (s : State) : Nat :=
  let c := s.cam
  packEach 0 2 2 ((List.range 16).map (fun b => (bankAt s b).width)) +
  packEach 32 2 2 ((List.range 16).map (fun b => (bankAt s b).profile)) + packEach 64 72 72 c.prefPos +
  pack [(352, 4, c.prefEn), (360, 1, b2n c.missHost), (361, 3, c.qosHost), (364, 1, b2n c.missFab), (365, 3, c.qosFab),
        (368, 1, b2n c.missCli), (369, 3, c.qosCli), (384, 16, c.scrubMs), (400, 4, c.fbCores)]

/-- A bank holds a valid entry. -/
def bankUsed (s : State) (b : Nat) : Bool := s.cam.entries.any (fun e => decide (e.1 / 2048 = b))

/-- Bank `b` may take a width and profile (R434, Table 08-10). -/
def bankOk (s : State) (b w p : Nat) : Bool :=
  let x := bankAt s b
  (decide (w = x.width ∧ p = x.profile) || !bankUsed s b || decide (x.state = 3 ∧ w = 0)) &&
  decide (w = 0 ∨ w = profileWidth p) && !(decide (x.state = 2 ∧ w = 0))

/-- Bank `b` takes a width and profile: a DISABLED bank comes ONLINE, one set to width 0 is DISABLED and its entries are
discarded (Table 08-10, R433). -/
def configBank (b w p : Nat) (s : State) : State :=
  let x := bankAt s b
  let st := if w = 0 then 0 else if x.state = 0 then 1 else x.state
  let s1 := setBank b { x with width := w, profile := p, state := st, fails := if w = 0 then [] else x.fails } s
  let s2 := if w = 0 then { s1 with cam := { s1.cam with entries := s1.cam.entries.filter (fun e => decide (e.1 / 2048 ≠ b)) } } else s1
  match findMaint s2 .bankRebuild b with
  | some m => if w = 0 then dropMaint m.id s2 else s2
  | none => s2

/-- A write of page 0x0600 (R434). -/
def write0600 (s : State) (v : Nat) : Option State :=
  let ws := bitsEach v 0 2 2 16
  let ps := bitsEach v 32 2 2 16
  let pos := bitsEach v 64 72 72 4
  let banks := (ws.zip ps).zipIdx
  let ok := banks.all (fun x => bankOk s x.2 x.1.1 x.1.2) &&
    pos.zipIdx.all (fun p => (bitsEach p.1 0 9 9 8).all (fun k => decide (k < 80 * widthUnits (profileWidth p.2)))) &&
    fieldIn v 399 384 10 1000 && fieldIn v 403 400 1 8
  let s1 := each (fun x s => configBank x.2 x.1.1 x.1.2 s) banks s
  pageIf ok { s1 with cam := { s1.cam with
    prefPos := pos, prefEn := bits v 355 352, missHost := bit v 360, qosHost := bits v 363 361, missFab := bit v 364,
    qosFab := bits v 367 365, missCli := bit v 368, qosCli := bits v 371 369, scrubMs := bits v 399 384,
    fbCores := bits v 403 400 } }

/-- Page 0x0601 (Table 08-9). -/
def read0601 (s : State) (a : Nat) : Nat :=
  match tfind s.cam.entries a with
  | none => 0
  | some e => pack [(0, 1, 1), (4, 12, e.priority), (64, 64, e.result), (128, 320, e.key), (448, 320, e.mask)]

/-- A write of page 0x0601 (R422, R423). -/
def write0601 (s : State) (a v : Nat) : Option State :=
  let e := entryPage v 0
  pageIf (entryOk s a e) (writeEntry a e s)

/-- Page 0x0602 (R424): the entry at target from bit 64 on. -/
def read0602 (s : State) (a : Nat) : Nat := read0601 s a * 2 ^ 64

/-- A write of page 0x0602 (R424). -/
def write0602 (s : State) (a v : Nat) : Option State :=
  let e := entryPage v 64
  let h := bits v 14 0
  pageIf (insertOk s a h e) (orderedInsert a h e s)

end Sys2Proof.Machine
end

