-- ==== Sys2Proof/Machine/PagesC.lean ====
section
/-! DEFINITION. Setting pages of media, memory, cipher, power and the lifecycle blocks. A write that answers `none` is
refused whole with PAGE_FIELD_INVALID. -/

namespace Sys2Proof.Machine

open Sys2Proof

/-! ## 0x0700 to 0x0702 media (R457, R458, R488, R489) -/

/-- Page 0x0700 (Table 09-6). -/
def read0700 (s : State) : Nat := packEach 0 32 32 s.med.retention

/-- A write of page 0x0700: each change records an event with the suit and both values (R458). -/
def write0700 (s : State) (v : Nat) : Option State :=
  let l := bitsEach v 0 32 32 16
  let changes := ((s.med.retention.zip l).zipIdx).filter (fun p => decide (p.1.1 ≠ p.1.2))
  some (each (fun p s => event 0x0604 [p.2, p.1.1, p.1.2] s) changes { s with med := { s.med with retention := l } })

/-- Page 0x0701 (Table 09-13). -/
def read0701 (s : State) : Nat :=
  let m := s.med
  pack [(0, 8, m.talonBg), (8, 8, m.talonFg), (16, 8, 2), (24, 8, m.sealMs), (32, 16, m.gcSkipH), (48, 16, m.openMaxH),
        (64, 16, m.softK), (80, 16, m.hardK), (96, 16, m.ageD), (112, 16, m.wlGap), (128, 8, m.sweepPct), (136, 8, m.hintPct)]

/-- A write of page 0x0701 (R489). -/
def write0701 (s : State) (v : Nat) : Option State :=
  pageIf (fieldIn v 7 0 4 64 && fieldIn v 15 8 3 32 && fieldIn v 79 64 10 1000 && fieldIn v 95 80 20 2000 &&
      fieldIn v 111 96 0 3650 && fieldIn v 127 112 0 3000 && fieldIn v 135 128 1 20 && fieldIn v 143 136 0 10 &&
      decide (bits v 15 8 < bits v 7 0 ∧ bits v 79 64 < bits v 95 80))
    { s with med := { s.med with
      talonBg := bits v 7 0, talonFg := bits v 15 8, sealMs := bits v 31 24, gcSkipH := bits v 47 32,
      openMaxH := bits v 63 48, softK := bits v 79 64, hardK := bits v 95 80, ageD := bits v 111 96, wlGap := bits v 127 112,
      sweepPct := bits v 135 128, hintPct := bits v 143 136 } }

/-- Blocks not retired. -/
def goodBlocks (s : State) : Nat := Config.blkTotal - blkCount s .retired

/-- Erase counts of the listed blocks not retired; blocks not listed have none. -/
def eraseCounts (s : State) : List Nat :=
  (s.med.blocks.filter (fun p => decide (p.2.state ≠ .retired))).map (fun p => p.2.erases)

/-- Mean erase count of the blocks not retired. -/
def eraseMean (s : State) : Nat := sumOf id (eraseCounts s) / goodBlocks s

/-- Lowest erase count of the blocks not retired. -/
def eraseLeast (s : State) : Nat :=
  if (eraseCounts s).length < goodBlocks s then 0 else leastOf id 65535 (eraseCounts s)

/-- Hottest die now, in °C (log entry 41). -/
def hottest (s : State) : Int :=
  ((List.range 512).map (fun d => (Config.dieTemp d (now s)).toInt)).foldl max (-128)

/-- life_used_pct (Table 09-12). -/
def lifeUsed (s : State) : Nat :=
  min 255 (max (eraseMean s * 100 / 3000) ((69632 - blkCount s .stock) * 100 / (69632 - 27976)))

/-- Page 0x0702 (Table 09-12). -/
def read0702 (s : State) : Nat :=
  let m := s.med
  let stock := blkCount s .stock
  pack [(0, 32, stock), (32, 32, 69632), (64, 8, stock * 100 / 69632), (72, 8, lifeUsed s), (80, 16, eraseMean s),
        (96, 16, (eraseCounts s).foldl max 0), (112, 16, eraseLeast s), (128, 32, m.retProg), (160, 32, m.retErase),
        (192, 32, m.retDie), (224, 16, (m.dies.filter (fun p => decide (p.2.state ≠ 0))).length), (256, 64, m.cwCorr),
        (320, 64, m.cwRetry), (384, 64, m.repairs), (448, 32, m.unrec), (480, 8, signed 8 (hottest s)),
        (488, 8, signed 8 m.tempMax), (672, 64, m.bytesUser), (736, 64, m.bytesProg), (800, 4, s.boot.roCause)] +
  packEach 512 32 32 (m.tempNs.map (· / 3600000000000))

/-! ## 0x0800, 0x0801 memory (R529, R530) -/

/-- Page 0x0800 (Table 10-8). -/
def read0800 (s : State) : Nat :=
  let m := s.mem
  pack [(0, 17, m.grain), (112, 12, m.privMask), (124, 1, b2n m.trumpEn), (128, 16, m.trumpLow), (144, 16, m.trumpHigh),
        (160, 8, m.wqHigh), (168, 8, m.wqLow), (176, 16, m.ageNs), (192, 16, m.actMax), (208, 16, m.gapNs),
        (224, 8, m.throttleMs), (232, 8, m.retrainH), (240, 8, m.driftPct)] + packEach 32 16 16 m.xor

/-- A power of two from 256 to 65,536, or 0 (R500). -/
def grainOk (g : Nat) : Bool := decide (g = 0) || (List.range 9).any (fun i => decide (g = 2 ^ (8 + i)))

/-- A write of page 0x0800 (R529); grain, bank_xor_i and privileged_mask take effect at the next cold start (R500). -/
def write0800 (s : State) (v : Nat) : Option State :=
  let orZero := fun (hi lo a b : Nat) => decide (bits v hi lo = 0) || fieldIn v hi lo a b
  pageIf (grainOk (bits v 16 0) && decide (((List.range 12).filter (fun c => bit v (112 + c))).length ≤ 4) &&
      fieldIn v 143 128 1 32767 && fieldIn v 159 144 2 32768 && fieldIn v 167 160 2 64 && fieldIn v 175 168 0 63 &&
      orZero 191 176 100 10000 && fieldIn v 207 192 256 16384 && orZero 223 208 100 10000 && fieldIn v 231 224 1 100 &&
      fieldIn v 247 240 5 50 && decide (bits v 143 128 < bits v 159 144 ∧ bits v 175 168 < bits v 167 160))
    (trumpUpdate { s with mem := { s.mem with
      grain := bits v 16 0, xor := bitsEach v 32 16 16 5, privMask := bits v 123 112, trumpEn := bit v 124,
      trumpLow := bits v 143 128, trumpHigh := bits v 159 144, wqHigh := bits v 167 160, wqLow := bits v 175 168,
      ageNs := bits v 191 176, actMax := bits v 207 192, gapNs := bits v 223 208, throttleMs := bits v 231 224,
      retrainH := bits v 239 232, driftPct := bits v 247 240 } })

/-- The narrowest window of any byte lane at the last training: reads or writes. -/
def leastEye (s : State) (write : Bool) : Nat :=
  let l := s.mem.chans.flatMap (fun p => p.2.eyes.map (fun e => if write then e.2 else e.1))
  match l with
  | [] => 0
  | a :: t => leastOf id a t

/-- Page 0x0801 (Table 10-9). -/
def read0801 (s : State) : Nat :=
  packEach 0 3 3 ((List.range 12).map (fun c => (chanAt s c).state)) +
  maskOf 12 (fun c => (chanAt s c).doubled) * 2 ^ 36 +
  pack [(48, 1, b2n s.mem.trump), (49, 1, b2n s.mem.single), (64, 8, s.mem.devices), (72, 8, leastEye s false),
        (80, 8, leastEye s true)]

/-! ## 0x0900, 0x0901 cipher (R539 to R544) -/

/-- Page 0x0900 (Table 11-2). -/
def read0900 (s : State) : Nat :=
  pack [(0, 1, b2n s.xts.kik.isSome), (1, 1, b2n s.xts.kikLocked), (16, 8, s.xts.katH), (32, 16, s.xts.reseedMs)]

/-- A write of page 0x0900 (R544). -/
def write0900 (s : State) (v : Nat) : Option State :=
  let kik := bits v 319 64
  pageIf (fieldIn v 23 16 0 168 && fieldIn v 47 32 10 60000 && !(decide (kik ≠ 0) && s.xts.kikLocked) &&
      !(bit v 1 && s.xts.kik.isNone))
    { s with xts := { s.xts with katH := bits v 23 16, reseedMs := bits v 47 32, kikLocked := s.xts.kikLocked || bit v 1,
                                 kik := if kik = 0 then s.xts.kik else some (BitVec.ofNat 256 kik) } }

/-- Page 0x0901 (Table 11-1); slot 4,096 shows state and check value of the media key slot (R539). -/
def read0901 (s : State) (n : Nat) : Nat :=
  let kcv := fun (k : BitVec 512) => keyCheck (natBytes 64 k.toNat)
  if n = 4096 then pack [(0, 2, 1), (32, 32, kcv Config.mediaKey), (64, 64, Config.mediaKeyLoadedAt.toNat)]
  else
    let x := tget keyBlank s.xts.slots n
    match x.key with
    | none => pack [(16, 13, slotUsers s n)]
    | some k => pack [(0, 2, 1), (2, 1, b2n x.imported), (16, 13, slotUsers s n), (32, 32, kcv k), (64, 64, x.loadedAt)]

/-- The action of a write of page 0x0901: 0 none, 1 generate, 2 import, 3 zeroize. -/
def keyAction (v : Nat) : Nat := bits v 5 4

/-- A write of page 0x0901 (R539, R540, R542). -/
def write0901 (s : State) (n v : Nat) : Option State :=
  let a := keyAction v
  if bit v 3 = true ∨ bits v 15 6 ≠ 0 ∨ bits v 31 29 ≠ 0 then none
  else if a = 0 then some s
  else if n = 4096 ∨ slotUsers s n ≠ 0 then none
  else if a = 1 then pageIf (noisePasses s) (keyGenerate n s)
  else if a = 2 then
    match s.xts.kik with
    | none => none
    | some kik => (importedKey kik (bits v 703 128)).map (fun k => loadKey n k true s)
  else some (keyZeroize n s)

/-! ## 0x0A00, 0x0A01 power (R592, R593) -/

/-- Page 0x0A00 (Table 12-9). -/
def read0a00 (s : State) : Nat :=
  let p := s.pwr
  pack [(0, 5, p.kittyMax), (8, 8, p.healthH), (16, 16, p.dipMaxMs), (32, 16, p.p1Us), (48, 16, p.p2Ms), (64, 16, p.p3S),
        (80, 8, p.chargeW)]

/-- A write of page 0x0A00 (R581, R592). -/
def write0a00 (s : State) (v : Nat) : Option State :=
  pageIf (fieldIn v 4 0 0 16 && fieldIn v 15 8 1 168 && fieldIn v 31 16 6 500 && fieldIn v 87 80 10 30)
    (retarget { s with pwr := { s.pwr with
      kittyMax := bits v 4 0, healthH := bits v 15 8, dipMaxMs := bits v 31 16, p1Us := bits v 47 32,
      p2Ms := bits v 63 48, p3S := bits v 79 64, chargeW := bits v 87 80 } })

/-- The code of a supervisor state (Table 12-2). -/
def supCode : Sup → Nat
  | .normal => 0 | .dip => 1 | .resume => 2 | .flush => 3 | .spent => 4 | .off => 5

/-- Page 0x0A01 (Table 12-10). -/
def read0a01 (s : State) : Nat :=
  let p := s.pwr
  pack [(0, 3, supCode p.sup), (3, 3, p.state), (6, 4, p.fault), (10, 1, b2n p.valid), (11, 1, b2n p.stale),
        (12, 1, b2n p.aReady), (13, 1, b2n p.bReady), (16, 8, p.health), (32, 16, p.supplyMv), (48, 16, p.bankMv),
        (64, 24, p.capUf), (96, 16, p.esr), (112, 16, p.availMj), (128, 64, p.measAt), (192, 32, p.dips),
        (224, 32, p.flushes), (256, 32, p.brownouts), (288, 32, p.timeouts)]

/-! ## 0x0B00 to 0x0B03 lifecycle (R618, R653) -/

/-- Page 0x0B00 (Table 13-7). -/
def read0b00 (s : State) : Nat := pack [(0, 16, s.upd.autoH), (16, 12, s.upd.bootS)]

/-- A write of page 0x0B00 (R618). -/
def write0b00 (s : State) (v : Nat) : Option State :=
  pageIf (fieldIn v 15 0 0 720 && fieldIn v 27 16 200 3600)
    { s with upd := { s.upd with autoH := bits v 15 0, bootS := bits v 27 16 } }

/-- The calendar is set to `c`, or cleared by 0 where it was set (R633, R634). -/
def setCalendar (c : Nat) (s : State) : State :=
  let old := (calendarNow s).getD 0
  if c = 0xFFFFFFFF ∨ (c = 0 ∧ s.evr.calendar = none) then s
  else
    let e := { s.evr with calendar := if c = 0 then none else some (c, opSeconds s), epoch := s.evr.epoch + 1 }
    event 0x0004 [old, c] { s with evr := e }

/-- The store is cleared (R628): what is pending is discarded, STORE_CLEARED follows, every sector is erased. -/
def clearStore (s : State) : State :=
  let e := { s.evr with pending := [], writing := none, store := [], sector := 0, last239 := false, stopped := false }
  reportDrops (event 0x0002 [] { s with evr := e })

/-- Page 0x0B01 (Table 14-8). -/
def read0b01 (s : State) : Nat :=
  let e := s.evr
  pack [(0, 1, b2n e.stopFull), (2, 3, e.minSev), (8, 1, b2n (calendarNow s).isSome), (16, 8, e.epoch),
        (32, 32, (calendarNow s).getD 0), (64, 16, e.holdMs)]

/-- A write of page 0x0B01 (R627, R628, R633). -/
def write0b01 (s : State) (v : Nat) : Option State :=
  let s1 := { s with evr := { s.evr with stopFull := bit v 0, minSev := bits v 4 2, holdMs := bits v 79 64 } }
  let s2 := setCalendar (bits v 63 32) s1
  pageIf (fieldIn v 4 2 0 4 && fieldIn v 79 64 0 10000) (if bit v 1 then clearStore s2 else s2)

/-- Page 0x0B02 (Table 14-9). -/
def read0b02 (s : State) : Nat :=
  let t := s.ist
  pack [(0, 7, t.enable), (16, 16, t.coreH), (32, 16, t.dieH), (48, 16, t.dramH), (64, 8, t.flushH), (72, 8, t.bootH)]

/-- A write of page 0x0B02. -/
def write0b02 (s : State) (v : Nat) : Option State :=
  some { s with ist := { s.ist with enable := bits v 6 0, coreH := bits v 31 16, dieH := bits v 47 32, dramH := bits v 63 48,
                                    flushH := bits v 71 64, bootH := bits v 79 72 } }

/-- Page 0x0B03 (Table 14-10). -/
def read0b03 (s : State) : Nat := pack [(0, 2, s.frz.mode)]

/-- A write of page 0x0B03. -/
def write0b03 (s : State) (v : Nat) : Option State :=
  pageIf (fieldIn v 1 0 0 2) { s with frz := { s.frz with mode := bits v 1 0 } }

/-! ## All pages -/

/-- The pages with their sizes in bytes and the number of targets (R250, R254, R326, R343, R422, R539). -/
def pageTable : List (Nat × Nat × Nat) :=
  [(0x0104, 24, 1), (0x0105, 8, 1), (0x0106, 20, 1), (0x0107, 8, 1), (0x0201, 32, 4096), (0x0202, 32, 4096),
   (0x0300, 32, 1), (0x0301, 16, 1), (0x0302, 16, 1), (0x0303, 64, 1), (0x0400, 32, 512), (0x0401, 224, 1),
   (0x0500, 8, 1), (0x0502, 32, 1), (0x0503, 128, 64), (0x0504, 16, 1), (0x0505, 136, 4096), (0x0506, 32, 1)] ++
  [(0x0600, 64, 1), (0x0601, 96, 32768), (0x0602, 104, 32768), (0x0700, 64, 1), (0x0701, 24, 1), (0x0702, 104, 1),
   (0x0800, 32, 1), (0x0801, 16, 1), (0x0900, 40, 1), (0x0901, 88, 4097), (0x0A00, 16, 1), (0x0A01, 48, 1),
   (0x0B00, 8, 1), (0x0B01, 16, 1), (0x0B02, 16, 1), (0x0B03, 8, 1)]

/-- Size and targets of a page that exists. -/
def pageOf (page : Nat) : Option (Nat × Nat) := (pageTable.find? (fun p => decide (p.1 = page))).map (·.2)

/-- The contents of a page, RO fields as the module reports them. -/
def pageRead (s : State) (page t : Nat) : Nat :=
  match page with
  | 0x0104 => read0104 s | 0x0105 => read0105 s | 0x0106 => read0106 s | 0x0107 => read0107 s
  | 0x0201 => read0201 s t | 0x0202 => read0202 s t
  | 0x0300 => read0300 s | 0x0301 => read0301 s | 0x0302 => read0302 s | 0x0303 => read0303 s
  | 0x0400 => read0400 s t | 0x0401 => read0401 s
  | 0x0500 => read0500 s | 0x0502 => read0502 s | 0x0503 => read0503 s t | 0x0504 => read0504 s
  | 0x0505 => read0505 s t | 0x0506 => read0506 s
  | 0x0600 => read0600 s | 0x0601 => read0601 s t | 0x0602 => read0602 s t
  | 0x0700 => read0700 s | 0x0701 => read0701 s | 0x0702 => read0702 s
  | 0x0800 => read0800 s | 0x0801 => read0801 s | 0x0900 => read0900 s | 0x0901 => read0901 s t
  | 0x0A00 => read0a00 s | 0x0A01 => read0a01 s
  | 0x0B00 => read0b00 s | 0x0B01 => read0b01 s | 0x0B02 => read0b02 s | 0x0B03 => read0b03 s
  | _ => 0

/-- The write of a page of groups 0x08 to 0x0B; a page with no settable field takes none. -/
def pageWriteLast (s : State) (page t v : Nat) : Option State :=
  match page with
  | 0x0800 => write0800 s v | 0x0900 => write0900 s v | 0x0901 => write0901 s t v
  | 0x0A00 => write0a00 s v
  | 0x0B00 => write0b00 s v | 0x0B01 => write0b01 s v | 0x0B02 => write0b02 s v | 0x0B03 => write0b03 s v
  | _ => some s

/-- The write of a page of groups 0x06 and 0x07. -/
def pageWriteIndex (s : State) (page t v : Nat) : Option State :=
  match page with
  | 0x0600 => write0600 s v | 0x0601 => write0601 s t v | 0x0602 => write0602 s t v
  | 0x0700 => write0700 s v | 0x0701 => write0701 s v
  | _ => pageWriteLast s page t v

/-- The write of a page of group 0x05. -/
def pageWriteFabric (s : State) (page t v : Nat) : Option State :=
  match page with
  | 0x0500 => write0500 s v | 0x0502 => write0502 s v | 0x0503 => write0503 s t v | 0x0504 => write0504 s v
  | 0x0505 => write0505 s t v
  | _ => pageWriteIndex s page t v

/-- The whole of a page is written (R254); `none` is PAGE_FIELD_INVALID. A page of read-only fields ignores them all. -/
def pageWrite (s : State) (page t v : Nat) : Option State :=
  match page with
  | 0x0104 => write0104 s v | 0x0105 => write0105 s v | 0x0106 => write0106 s v | 0x0107 => write0107 s v
  | 0x0201 => write0201 s t v
  | 0x0300 => write0300 s v | 0x0301 => write0301 s v | 0x0302 => write0302 s v
  | 0x0400 => write0400 s t v | 0x0401 => write0401 s v
  | _ => pageWriteFabric s page t v

/-- The current format version of a page: 0x0001 unless an update changed it (R254, R601). -/
def pageFormat (s : State) (page : Nat) : Nat := tget (fun _ => 1) s.upd.formats page

end Sys2Proof.Machine
end

