-- ==== Sys2Proof/Machine/Mailbox.lean ====
section
/-! DEFINITION. The management mailboxes: how their commands are taken and end, setting pages, queues, sessions, ledgers,
events and the diagnostic unlock (R250 to R269, R85, R636). -/

namespace Sys2Proof.Machine

open Sys2Proof

/-! ## Taking a command (R251, R252) -/

/-- The codes of Table 05-13. -/
def boxCodes : List Nat :=
  [0x0010, 0x0011, 0x0020, 0x0021, 0x0022, 0x0023, 0x0024, 0x0030, 0x0031, 0x0040, 0x0050, 0x0051, 0x0052, 0x0053, 0x0054,
   0x0055, 0x0056]

/-- The port may use commands marked "managing port" (R221, R251). -/
def managing (s : State) (p : Nat) : Bool := bit s.host.mgmtMask p

/-- The checks that come before a command's own: MGMT_BUSY, LENGTH_INVALID, ACCESS_DENIED (R251, R252, R608). DESIGN CHOICE, log
entry 95: the manual gives no order among them and OPCODE_INVALID; a reserved code of the update range is OPCODE_INVALID from
any port. -/
def boxRefusal (s : State) (b : Nat) (x : Mailbox) (onlyManaging : Bool) : Option Nat :=
  if s.boot.stage ≠ 4 ∨ mgmtBusy s = true ∨ inActivation s = true then some stBusy
  else if 4032 < x.inLen then some stLength
  else if onlyManaging ∧ managing s (boxPort b) = false then some stDenied
  else none

/-- The mailbox command at the head of the order of go writes is taken, when `sel` says that it is this row's (R252). -/
def takeBox (b : Nat) (sel : Mailbox → Bool) (onlyManaging : Bool) (f : Mailbox → State → State) (s : State) : State :=
  let x := boxAt s b
  if s.host.goQueue.head? = some b ∧ x.busy = true ∧ sel x = true then
    let s1 := { s with host := { s.host with goQueue := s.host.goQueue.tail } }
    match boxRefusal s b x onlyManaging with
    | some st => finishBox b st [] s1
    | none => f x s1
  else s

/-- The input of a mailbox command. -/
def boxInput (x : Mailbox) (n : Nat) : Bytes := bytesAt x.payload 0 n

/-- The command has a code. -/
def hasCode (code : Nat) (x : Mailbox) : Bool := decide (x.command = code)

/-- MAILBOX_UNKNOWN_COMMAND (R251): a code that Table 05-13 does not list. -/
def execMailboxUnknownCommand (box : Nat) (s : State) : R :=
  whenRunning (takeBox box (fun x => decide (x.command ∉ boxCodes)) false (fun _ s => finishBox box stOpcode [] s)) s

/-! ## Setting pages (R254) -/

/-- SETTING_READ (R254): the page, and its format version. -/
def execSettingRead (box : Nat) (s : State) : R :=
  whenRunning (takeBox box (hasCode 0x0010) false (fun x s =>
    match pageOf x.page with
    | none => finishBox box stPageUnknown [] s
    | some (size, n) =>
      if n ≤ x.target then finishBox box stPageField [] s
      else finishBox box stOk (natLe size (pageRead s x.page x.target)) (setBox box { x with format := pageFormat s x.page } s))) s

/-- A SETTING_WRITE is checked and applied, or refused whole (R254). -/
def settingWrite (box : Nat) (x : Mailbox) (s : State) : State :=
  match pageOf x.page with
  | none => finishBox box stPageUnknown [] s
  | some (size, n) =>
    if x.format ≠ pageFormat s x.page then finishBox box stPageFormat [] s
    else if x.inLen ≠ size ∨ n ≤ x.target then finishBox box stPageField [] s
    else
      match pageWrite s x.page x.target (leNat (boxInput x size)) with
      | none => finishBox box stPageField [] s
      | some s1 => finishBox box stOk [] s1

/-- The value a SETTING_WRITE carries. -/
def writtenPage (x : Mailbox) : Nat := leNat (boxInput x x.inLen)

/-- A SETTING_WRITE of one page that asks for one thing. -/
def writesPage (page : Nat) (asks : Nat → Bool) (x : Mailbox) : Bool :=
  decide (x.command = 0x0011 ∧ x.page = page) && asks (writtenPage x)

/-- SETTING_WRITE (R254). -/
def execSettingWrite (box : Nat) (s : State) : R :=
  whenRunning (takeBox box (hasCode 0x0011) true (settingWrite box)) s

/-- NAMESPACE_RELEASE (Table 03-1, R100): release 1 on page 0x0201. -/
def execNamespaceRelease (box : Nat) (s : State) : R :=
  whenRunning (takeBox box (writesPage 0x0201 (fun v => bit v 1)) true (settingWrite box)) s

/-- KEY_GENERATE (R540): action 1 of page 0x0901. -/
def execKeyGenerate (box : Nat) (s : State) : R :=
  whenRunning (takeBox box (writesPage 0x0901 (fun v => decide (keyAction v = 1))) true (settingWrite box)) s

/-- KEY_IMPORT (R540): action 2 of page 0x0901. -/
def execKeyImport (box : Nat) (s : State) : R :=
  whenRunning (takeBox box (writesPage 0x0901 (fun v => decide (keyAction v = 2))) true (settingWrite box)) s

/-- KEY_ZEROIZE (R540): action 3 of page 0x0901. -/
def execKeyZeroize (box : Nat) (s : State) : R :=
  whenRunning (takeBox box (writesPage 0x0901 (fun v => decide (keyAction v = 3))) true (settingWrite box)) s

/-- KIK_INSTALL (R544): a non-zero kik on page 0x0900. -/
def execKikInstall (box : Nat) (s : State) : R :=
  whenRunning (takeBox box (writesPage 0x0900 (fun v => decide (bits v 319 64 ≠ 0))) true (settingWrite box)) s

/-- KIK_LOCK (R544): kik_locked 1 on page 0x0900. -/
def execKikLock (box : Nat) (s : State) : R :=
  whenRunning (takeBox box (writesPage 0x0900 (fun v => bit v 1)) true (settingWrite box)) s

/-- TIME_SET (R324): a non-zero time_set on page 0x0502. -/
def execTimeSet (box : Nat) (s : State) : R :=
  whenRunning (takeBox box (writesPage 0x0502 (fun v => decide (bits v 191 128 ≠ 0))) true (settingWrite box)) s

/-- CALENDAR_SET (R633, R634): a calendar_now other than 0xFFFF_FFFF on page 0x0B01. -/
def execCalendarSet (box : Nat) (s : State) : R :=
  whenRunning (takeBox box (writesPage 0x0B01 (fun v => decide (bits v 63 32 ≠ 0xFFFFFFFF))) true (settingWrite box)) s

/-- EVENT_STORE_CLEAR (R628): clear 1 on page 0x0B01. -/
def execEventStoreClear (box : Nat) (s : State) : R :=
  whenRunning (takeBox box (writesPage 0x0B01 (fun v => bit v 1)) true (settingWrite box)) s

/-- CLASSIFIER_ORDERED_INSERT (R424): a write of page 0x0602. -/
def execClassifierOrderedInsert (box : Nat) (s : State) : R :=
  whenRunning (takeBox box (writesPage 0x0602 (fun _ => true)) true (settingWrite box)) s

/-- The index holds an entry of a namespace. -/
def nsHasEntry (s : State) (ns : Nat) : Bool :=
  (allEntries s).any (fun p => match recordAt s p.2 with | some r => decide (r.ns = ns) | none => false)

/-- NAMESPACE_FREED (R100): a RELEASING namespace passes to FREE once the index holds no entry of it and no write accepted
before can still create one. -/
def execNamespaceFreed (ns : Nat) (s : State) : R :=
  whenRunning (guard (decide ((nsAt s ns).state = 3) && !nsHasEntry s ns &&
      !s.dlr.inflight.any (fun f => decide (f.ns = ns) && isWrite f.cmd.opcode)) (fun s =>
    setNs ns { nsAt s ns with state := 0, objects := 0, bytes := 0 } s)) s

/-! ## Queues and sessions (R256 to R268) -/

/-- The payload of QUEUE_CREATE has its reserved bits 0 (Table 05-14). -/
def createReservedOk (v : Nat) : Bool :=
  decide (bits v 31 17 = 0 ∧ bits v 63 49 = 0 ∧ bits v 207 204 = 0 ∧ bits v 255 224 = 0)

/-- A queue pair may be created (R231, R232, R256). -/
def createOk (s : State) (p c v : Nat) : Bool :=
  decide (c < s.host.ctxLimit) && ctxFree s c && decide (portBound s p < s.host.ctxMaxes.getD p 0) &&
  fieldIn v 16 0 2 65536 && fieldIn v 48 32 2 65536 && decide (bits v 127 64 % 4096 = 0 ∧ bits v 191 128 % 4096 = 0) &&
  decide (bits v 202 192 < vectorCount s.host.bifSel) && createReservedOk v

/-- The queue pair that a payload describes (Table 05-14, R257). -/
def newQueue (session p v : Nat) : Queue :=
  { session := session, port := p, sqSize := bits v 16 0, cqSize := bits v 48 32, sqBase := bits v 127 64,
    cqBase := bits v 191 128, vector := bits v 202 192, irq := bit v 203, coCount := bits v 215 208, coTime := bits v 223 216 }

/-- QUEUE_CREATE (R256): the context is bound and the session identifier returned. -/
def execQueueCreate (box : Nat) (s : State) : R :=
  whenRunning (takeBox box (hasCode 0x0020) false (fun x s =>
    let p := boxPort box
    let c := x.target
    let v := leNat (boxInput x 32)
    if createOk s p c v then
      match bindCtx c p 0 s with
      | (s1, id) =>
        finishBox box stOk (natLe 8 id)
          (setQueue c (newQueue id p v) (openSession id { kind := .host, ctx := c, port := p } s1))
    else finishBox box stQueue [] s)) s

/-- The context is bound to a host session of port `p` whose queue exists and is not being deleted (R260). -/
def deletable (s : State) (c p : Nat) : Bool :=
  match (ctxAt s c).queue with
  | some q => decide (q.port = p) && !q.deleting
  | none => false

/-- QUEUE_DELETE (R260 to R262): the draining point; the mailbox waits for the deletion to complete. -/
def execQueueDelete (box : Nat) (s : State) : R :=
  whenRunning (takeBox box (hasCode 0x0021) false (fun x s =>
    if deletable s x.target (boxPort box) then startDelete x.target (bit (leNat (boxInput x 1)) 0) (some box) s
    else finishBox box stQueue [] s)) s

/-- SESSION_RELEASE (R266): a deleted host session of the port is released. -/
def execSessionRelease (box : Nat) (s : State) : R :=
  whenRunning (takeBox box (hasCode 0x0022) false (fun x s =>
    let id := leNat (boxInput x 8)
    match sessFind s id with
    | some y =>
      if y.kind = .host ∧ y.port = boxPort box ∧ y.deleted = true ∧ (ctxAt s y.ctx).queue = none then
        finishBox box stOk [] (releaseSession id s)
      else finishBox box stQueue [] s
    | none => finishBox box stQueue [] s)) s

/-- The entry of a session (Table 05-18). -/
def listEntry (s : State) (p : Nat × Session) : Bytes :=
  let err := match (ctxAt s p.2.ctx).queue with | some q => q.error | none => false
  natLe 16 (pack [(0, 64, p.1), (64, 32, p.2.highest), (96, 2, b2n (p.2.draining || p.2.deleted)), (98, 1, b2n err)])

/-- Insert a session into a list in ascending context order. -/
def ctxInsert (x : Nat × Session) : List (Nat × Session) → List (Nat × Session)
  | [] => [x]
  | y :: t => if x.2.ctx < y.2.ctx then x :: y :: t else y :: ctxInsert x t

/-- The host sessions of a port from a context on, in ascending context order (R268). -/
def listedSessions (s : State) (p first : Nat) : List (Nat × Session) :=
  (s.sessions.filter (fun q => decide (q.2.kind = .host ∧ q.2.port = p ∧ first ≤ q.2.ctx))).foldl
    (fun l x => ctxInsert x l) []

/-- SESSION_LIST (R268). -/
def execSessionList (box : Nat) (s : State) : R :=
  whenRunning (takeBox box (hasCode 0x0023) false (fun x s =>
    finishBox box stOk (((listedSessions s (boxPort box) x.target).take 252).flatMap (listEntry s)) s)) s

/-- The port may query a session (R269). A host session that is no longer known shows its port in its identifier. -/
def mayQuery (s : State) (p id : Nat) : Bool :=
  managing s p || decide (id / 2 ^ 52 = 0 ∧ bits id 51 50 = p)

/-- JOURNAL_QUERY by mailbox (R269). -/
def execMbxJournalQuery (box : Nat) (s : State) : R :=
  whenRunning (takeBox box (hasCode 0x0024) false (fun x s =>
    let v := leNat (boxInput x 32)
    if 125 < queryCount v then finishBox box stLength [] s
    else if mayQuery s (boxPort box) (queryTarget v) = false then finishBox box stDenied [] s
    else finishBox box stOk (queryOutput s (queryTarget v) (queryFirst v) (queryCount v)) s)) s

/-! ## Ledgers and events (R85, R636) -/

/-- The ledger snapshot (Table 02-6); no block is between two states. -/
def snapshot (s : State) : Nat :=
  pack [(0, 64, now s), (64, 64, s.jnl.accepted), (128, 64, s.jnl.completed), (192, 32, s.dlr.inflight.length),
        (224, 32, s.sessions.length), (256, 64, s.pwr.cap), (320, 64, s.pwr.target), (384, 64, s.pwr.pending),
        (448, 64, s.pwr.exposed), (512, 32, blkCount s .talon), (544, 32, blkCount s .open_), (576, 32, blkCount s .full),
        (608, 32, blkCount s .retired), (640, 32, blkCount s .stock), (672, 32, 0), (704, 32, Config.blkTotal)] +
  pack [(736, 32, Config.cells - cellsHeld s), (768, 32, cellsHeld s + cellsDual s), (800, 32, cellsDual s),
        (832, 64, s.jnl.ringHead), (896, 32, s.jnl.fault)]

/-- LEDGER_SNAPSHOT (R85). -/
def execLedgerSnapshot (box : Nat) (s : State) : R :=
  whenRunning (takeBox box (hasCode 0x0030) false (fun _ s => finishBox box stOk (natLe 128 (snapshot s)) s)) s

/-- An event record as its bytes (Table 14-1). -/
def eventBytes (r : EvRec) : Bytes :=
  let head := natLe 44 (pack [(0, 16, 0xEC0D), (16, 12, recBytes r), (28, 4, 1), (32, 64, r.seq), (96, 16, r.code),
    (112, 3, r.sev), (115, 1, b2n r.calValid), (116, 1, b2n r.varied), (120, 8, r.epoch), (128, 16, r.folded),
    (160, 32, r.opSec), (192, 32, r.cycles), (224, 64, r.time), (288, 32, r.lastOp), (320, 32, r.calS)])
  let body := r.payload.flatMap (natLe 8)
  head ++ natLe 4 (crc32c (head ++ body)) ++ body

/-- Whole records, oldest first, as many as fit in `room` bytes. -/
def fitRecords (room : Nat) : List EvRec → List EvRec
  | [] => []
  | r :: t => if recBytes r ≤ room then r :: fitRecords (room - recBytes r) t else []

/-- EVENT_READ (R636, R637): stored records from start_seq on, of a severity at least. -/
def execEventRead (box : Nat) (s : State) : R :=
  whenRunning (takeBox box (hasCode 0x0031) false (fun x s =>
    let start := leNat (boxInput x 8)
    let sev := leNat (bytesAt x.payload 8 1)
    let e := s.evr
    let l := fitRecords 4000 ((e.store.map (·.2)).filter (fun r => decide (start ≤ r.seq ∧ sev ≤ r.sev)))
    let head := pack [(0, 64, oldestSeq e), (64, 64, e.nextSeq), (128, 32, e.dropped), (160, 16, l.length),
      (176, 1, b2n (decide (start ≠ 0 ∧ start < oldestSeq e))), (177, 1, b2n e.stopped)]
    finishBox box stOk (natLe 32 head ++ l.flatMap eventBytes) s)) s

/-! ## Diagnostic unlock (R228) -/

/-- DIAG_UNLOCK (R228): the port may write the diagnostic window for 60 s. -/
def execDiagUnlock (box : Nat) (s : State) : R :=
  whenRunning (takeBox box (hasCode 0x0040) true (fun _ s =>
    finishBox box stOk [] (modPort (boxPort box) (fun p => { p with unlock := some (now s + 60000000000) }) s))) s

/-- DIAG_UNLOCK_EXPIRY (R228). -/
def execDiagUnlockExpiry (port : Nat) (s : State) : R :=
  whenRunning (fun s => match tfind s.host.ports port with
    | some p => (match p.unlock with
      | some t => guard (decide (t ≤ now s)) (modPort port (fun p => { p with unlock := none })) s
      | none => s)
    | none => s) s

end Sys2Proof.Machine
end

