-- ==== Sys2Proof/Machine/Supply.lean ====
section
/-! DEFINITION. The supply supervisor (R561 to R567), the loss of supply and its flush (R44, R584 to R586), and the cold
start that follows (R17, R675). -/

namespace Sys2Proof.Machine

open Sys2Proof

/-! ## Thaw (R650 to R652) -/

/-- Accepted commands, and the ranges that later ones wait on, have `k` slots or `d` ns longer (R565, R651). -/
def extendWork (d k : Nat) (s : State) : State :=
  { s with dlr := { s.dlr with
      inflight := s.dlr.inflight.map (fun f => { f with deadline := f.deadline + k, bound := f.bound + ceilDiv d 1000 }),
      overlap := s.dlr.overlap.map (fun o => { o with deadline := o.deadline + k }) } }

/-- Every held reservation moves later by the frozen time, rounded up to whole slots (R651). An erase or a program that has
begun ends by itself (R647). -/
def shiftCalendar (since : Nat) (s : State) : State :=
  let d := now s - since
  let k := ceilDiv d Config.slotNs
  let a := slotOf since
  let late := fun (t : Nat) => if since ≤ t then t + d else t
  let moved := fun (m : Meld) =>
    { m with programs := m.programs.map (fun q => if a ≤ q.2 then (q.1, q.2 + k) else q), lastEnd := m.lastEnd + k,
             eraseAt := m.eraseAt.map late }
  extendWork d k
    { s with
      ante := { s.ante with resv := s.ante.resv.map (fun x => { x with slot := x.slot + k }),
                            maint := s.ante.maint.map (fun m => { m with first := m.first + k }),
                            debits := s.ante.debits.map (fun x => { x with until_ := x.until_ + k }) },
      med := { s.med with melds := s.med.melds.map (fun p => (p.1, moved p.2)) },
      upd := { s.upd with window := s.upd.window.map (· + k) },
      pwr := { s.pwr with aErase := s.pwr.aErase.map late, bErase := s.pwr.bErase.map late } }

/-- Every row closes on entry to self-refresh (R507). -/
def shutRows (x : Channel) : Channel := { x with subs := x.subs.map (fun b => { b with opened := [] }) }

/-- The memory channels in self-refresh, or out of it (Table 10-7). -/
def refreshSelf (on : Bool) (s : State) : State :=
  { s with mem := { s.mem with chans := s.mem.chans.map (fun p =>
      if on ∧ p.2.state = 1 then (p.1, { shutRows p.2 with state := 2 })
      else if on = false ∧ p.2.state = 2 then (p.1, { p.2 with state := 1 }) else p) } }

/-- The module thaws (R650 to R652): the calendar is shifted, lanes go as after a lock loss and ports as after a port reset,
and FREEZE_ENDED is recorded. -/
def thaw (bySupervisor : Bool) (s : State) : State :=
  if s.frz.state = 0 then s
  else
    let d := now s - s.frz.at_
    let s1 := shiftCalendar s.frz.at_ (refreshSelf false { s with frz := { s.frz with state := 0, lastNs := d } })
    let s2 := each (fun p s => leaveUp p.1 s) s1.lanes s1
    let s3 := each (fun p s => resetPort p.1 .linkDown s) s2.host.ports s2
    event 0x0F01 [d, s.frz.shifts, b2n bySupervisor] s3

/-! ## Dips (R564, R565) -/

/-- A measurement under way is discarded (R576). -/
def discardMeasure (s : State) : State := { s with pwr := { s.pwr with measuring := false } }

/-- DIP is entered from NORMAL (R563, R564, R567); a frozen module thaws (R650). -/
def enterDip (mv : Nat) (s0 : State) : State :=
  let s := thaw true s0
  let s1 := discardMeasure s
  { s1 with pwr := { s1.pwr with sup := .dip, leftAt := now s, supplyMv := mv, charger := false, dips := s.pwr.dips + 1,
                                 rcDips := s.pwr.rcDips + 1 } }

/-- The resource lies on one of these dies, or on one of their channels. -/
def onDies (dies : List Nat) : Res → Bool
  | .die d => decide (d ∈ dies)
  | .plane p => decide (p / 4 ∈ dies)
  | .channel c => decide (c ∈ dies.map (· / 16))
  | .trunk _ _ => false
  | .hostIn _ => false
  | .hostOut _ => false
  | .core _ => false
  | .dram => false
  | .cipher => false
  | .index => false

/-- Erases held since `t`: those that had not begun then (R564). -/
def erasesHeld (t : Nat) (m : Meld) : Bool :=
  match m.eraseAt with
  | some e => decide (t + 357 * Config.slotNs ≤ e)
  | none => false

/-- The return to NORMAL (R565): held programs and erases are released, what follows them on their dies and channels moves
later by the time spent outside NORMAL, and accepted commands have that much longer. -/
def leaveDip (s : State) : State :=
  let d := now s - s.pwr.leftAt
  let k := ceilDiv d Config.slotNs
  let a := slotOf s.pwr.leftAt
  let late := s.med.melds.filter (fun p => erasesHeld s.pwr.leftAt p.2)
  let dies := s.med.held.flatMap (fun n => meldDies n (meldAt s n)) ++ late.flatMap (fun p => meldDies p.1 p.2)
  let moved := fun (p : Nat × Meld) =>
    let on := (meldDies p.1 p.2).any (fun x => decide (x ∈ dies))
    let e := if erasesHeld s.pwr.leftAt p.2 then p.2.eraseAt.map (· + d) else p.2.eraseAt
    if on then
      let ps := p.2.programs.zipIdx.map (fun q =>
        if a ≤ q.1.2 ∧ ¬ (q.2 = 0 ∧ p.1 ∈ s.med.held) then (q.1.1, q.1.2 + k) else q.1)
      (p.1, { p.2 with programs := ps, lastEnd := p.2.lastEnd + k, eraseAt := e })
    else (p.1, { p.2 with eraseAt := e })
  extendWork d k
    { s with
    pwr := { s.pwr with sup := .normal, charger := decide (s.pwr.fault = 0), chargeFrom := now s, dipMaxUs := max s.pwr.dipMaxUs (d / 1000),
                        rcHeld := s.pwr.rcHeld + late.length },
    med := { s.med with held := [], melds := s.med.melds.map moved },
    ante := { s.ante with resv := s.ante.resv.map (fun x => if a ≤ x.slot ∧ onDies dies x.res = true then { x with slot := x.slot + k } else x) } }

/-! ## Loss of supply (R44, R523, R584, R689) -/

/-- Every engine that runs a normal message suspends it for the flush (R584). -/
def suspendNormal (s : State) : State :=
  each (fun p s => match p.2.owner with
    | some m => if m.urgent then s else suspendEngine p.1 m s
    | none => s) s.xts.engines s

/-- The write queue of a sub-channel goes to the devices (R523). -/
def drainSub (c u : Nat) (s : State) : State :=
  let b := subAt (chanAt s c) u
  each (fun q => emit (.dram c u q.port q.bank q.row q.col true false)) b.writes (setSub c u { b with writes := [] } s)

/-- Every channel controller drains its write queues (R523, R525). -/
def drainDram (s : State) : State := each (fun p s => drainSub p.1 1 (drainSub p.1 0 s)) s.mem.chans s

/-- Rows whose program runs are aborted and listed (R479). -/
def abortRows (s : State) : State :=
  let rows := s.med.melds.filterMap (fun p => match p.2.running, p.2.programs with
    | some _, q :: _ => some (p.1, q.1)
    | _, _ => none)
  let cut := fun (p : Nat × Meld) => match p.2.running with
    | some _ => (p.1, { p.2 with running := none, programs := p.2.programs.tail, row := p.2.row + 1 })
    | none => p
  { s with med := { s.med with aborted := s.med.aborted ++ rows, melds := s.med.melds.map cut } }

/-- A lane whose transmitter and receiver are off, with the settings that it will start with (R345, R370). -/
def laneOff (p : Nat × Lane) : Nat × Lane := (p.1, { cfg := p.2.pending.getD p.2.cfg })

/-- Lanes and links fall silent, and what the Dealer had taken in and not accepted is discarded (R584, R689). -/
def fallSilent (s : State) : State :=
  let lanes := (s.lanes.map laneOff).filter (fun p => decide (p.2 ≠ laneBlank p.1))
  { s with lanes := lanes,
           host := { s.host with ports := s.host.ports.map (fun p => (p.1, { p.2 with inL0 := false })), wake := false },
           dlr := { s.dlr with arrived := [], fetches := [], backlog := [], cached := [] },
           fab := { s.fab with trunks := s.fab.trunks.map (fun p => (p.1, { p.2 with waiting := [], peers := [] })) } }

/-- The other slot of the boot store is left without a whole set (R597). -/
def dropOther (u : Update) : Update := if u.activeB then { u with slotA := {} } else { u with slotB := {} }

/-- A partial staging and a placed window are lost; a staged slot stays (R603, R609). -/
def updateLoss (u : Update) : Update :=
  match u.state with
  | .receiving => dropOther { u with state := .idle, image := [], received := 0 }
  | .scheduled => if u.man.cold then u else { u with state := .staged, window := none, loaded := false }
  | .activating => { u with state := .staged, window := none, loaded := false, switched := false }
  | .idle => { u with window := none, switched := false }
  | .staged => u
  | .trial => { u with window := none }

/-- The flush set that is ready: A before B (R479). -/
def readySet (p : Power) : Option Bool := if p.aReady then some false else if p.bReady then some true else none

/-- A flush read already stands for this one: the set written before is not recovered yet, and nothing was accepted since
(R481, R689). -/
def unrecovered (s : State) : Bool := s.boot.recover && s.pwr.complete && decide (s.boot.stage ≠ 4)

/-- The steps of the flush up to its parts (R567, R584): the set that is ready is written. The closing record ends it. -/
def beginFlush (s : State) : State :=
  let keep := unrecovered s
  let set := if keep then s.pwr.written else readySet s.pwr
  let s1 := fallSilent (abortRows (drainDram (suspendNormal (refreshSelf false (discardMeasure s)))))
  { s1 with
    pwr := { s1.pwr with written := set, complete := keep, charger := false, state := 0, exiting := none, idleAt := [],
                         closing := if keep then s1.pwr.closing else none, aReady := s1.pwr.aReady && (keep || decide (set ≠ some false)),
                         bReady := s1.pwr.bReady && (keep || decide (set ≠ some true)) },
    boot := { s1.boot with recover := true },
    upd := updateLoss s1.upd,
    evr := { s1.evr with pending := [], writing := none } }

/-- FLUSH is entered: loss of supply is declared (R44, R566); a frozen module thaws (R650). -/
def enterFlush (s : State) : State :=
  let s1 := beginFlush (thaw true s)
  { s1 with pwr := { s1.pwr with sup := .flush, leftAt := now s, input := false, flushes := s.pwr.flushes + 1 },
            evr := { s1.evr with lossDue := true } }

/-- The lengths of the parts of the flush, in their order (R584): bytes of the kitty area; entries of the assembly list, of the
aborted-row list, of the journal tail, of the index delta tail, and the context lines. DESIGN CHOICE, log entry 111: the manual
gives no layout of the parts. -/
def flushParts (s : State) : List Nat :=
  [s.pwr.exposed, (s.med.melds.flatMap (fun p => p.2.asm.filter (fun x => x.dram.isSome))).length, s.med.aborted.length,
   s.sessions.length, (s.idx.deltas.filter (fun d => decide (s.med.pagedTo ≤ d.seq))).length, s.dlr.cached.length]

/-- The flush has ended: with a closing record, which carries the length of every part and a CRC over them, a free value (log entry
111), or without one where no set was ready (R584, R585). -/
def closeFlush (s : State) : State :=
  if s.pwr.written.isSome then
    drawn { s with pwr := { s.pwr with complete := true, closing := some (flushParts s, fresh 32 s) } }
  else { s with pwr := { s.pwr with complete := false } }

/-! ## Cold start (R17, R18, R325, R675) -/

/-- Fabric time after a cold start (R325). -/
def startTime (s : State) : Nat := if s.clk.stamped then s.clk.stamp.time + 1000000 else 0

/-- A host session outlives its queue (R70, R266); the others keep their journal. -/
def sessionAtStart (p : Nat × Session) : Nat × Session :=
  match p.2.kind with
  | .host => (p.1, { p.2 with draining := true, deleted := true, refusal := none })
  | .client => (p.1, { p.2 with closer := none })
  | .fabric => (p.1, { p.2 with credit := { p.2.credit with grant := p.2.credit.used, ahead := [] } })

/-- Host ports after a cold start: none before the straps are sampled after a power-on, otherwise fresh ones (R213, R675,
R676). -/
def hostAtStart (powerOn : Bool) (t : Nat) (h : HostBlock) : HostBlock :=
  let ctxs := h.ctxs.map (fun c => (c.1, { c.2 with queue := none }))
  if powerOn then { alert := h.alert, ctxLimit := h.ctxLimit, mgmtMask := h.mgmtMask, ctxMaxes := h.ctxMaxes, ctxs := ctxs }
  else { alert := h.alert, sampled := h.sampled, bifSel := h.bifSel, clkSep := h.clkSep, ctxLimit := h.ctxLimit, mgmtMask := h.mgmtMask,
         ctxMaxes := h.ctxMaxes, ctxs := ctxs,
         ports := h.ports.map (fun p => (p.1, { perst := p.2.perst, cfgAt := t + 100000000 })) }

/-- What the fabric unit forgets: topology, sessions it opened, orders, stages. Its settings, the pending shards, the
recorded outcomes and the lists of shards owed are kept (R272, R314, R315). -/
def fabricAtStart (f : Fabric) : Fabric :=
  { f with
    trunks := f.trunks.map (fun p => (p.1, { p.2 with waiting := [], peers := [] })), nodes := [], routes := [],
    lastSeen := [], failedPeers := [], rotor := 0, helloAt := 0, routeAt := 0, timeAt := 0, routeDue := none,
    timeSent := none, offsetNs := 0, slewNs := 0, locked := false, parentLow := false, opens := [],
    orders := [], reads := [], orderOut := [], noOpens := [], unsent := [], openAnswers := [], closeAnswers := [],
    stages := [], early := [], links := [], gather := [] }

/-- Roles asked for before the start have taken effect (R18, R27). -/
def rolesAtStart (s : State) : State :=
  let s1 := each (fun p s => if roleOf s p.1 = 15 then s else setRole p.1 p.2 s) s.cores.draining s
  let s2 := each (fun l s => each (fun p s => if roleOf s p.2 = 15 then s else setRole p.2 p.1 s) l.zipIdx s) s1.cores.queued s1
  { s2 with cores := { s2.cores with draining := [], queued := [], takeover := false, takeAt := 0 } }

/-- The classifier's registers start afresh; a bank is reloaded from the durable store, a FAILED one is to be rebuilt once
more (R428). -/
def camAtStart (c : Cam) : Cam :=
  { c with entries := c.entries.filter (fun e => !e.2.core),
           banks := c.banks.map (fun p => (p.1, if p.2.state = 2 then { p.2 with state := 1, fails := [] } else p.2)),
           searches := 0, scrubErr := 0, parityErr := 0, lastUnit := 0, fallbacks := 0, passes := 0,
           misses := [0, 0, 0, 0], crcFixes := 0 }

/-- The media engine's registers start afresh; erases under way begin again. -/
def mediaAtStart (t : Nat) (m : Media) : Media :=
  { m with chans := [], recovery := 0, progress := 0, scanPages := 0, syncFalse := 0, syncPages := 0, torn := 0, held := [],
           sweepAt := 0, factor := 256,
           melds := m.melds.map (fun p => (p.1, { p.2 with running := none, eraseAt := p.2.eraseAt.map (fun _ => t) })) }

/-- The index engine's registers start afresh. -/
def indexAtStart (x : Index) : Index :=
  { x with passes := 0, stashIn := 0, displaced := 0, tagFalse := 0, rebuilds := 0, longWalks := 0, failed := [], mode := 0,
           ckptGroup := 0 }

/-- A channel's registers start afresh; a device marked failed stays so until the module is replaced (R494). -/
def chanAtStart (x : Channel) : Channel := { subs := x.subs.map (fun b => { failed := b.failed }) }

/-- The memory subsystem's registers start afresh, and the mapping settings take effect (R500, R529). -/
def memoryAtStart (t : Nat) (m : Memory) : Memory :=
  { m with grainNow := m.grain, xorNow := m.xor, privNow := m.privMask, chans := (m.chans.map (fun p => (p.1, chanAtStart p.2))).filter (fun p => decide (p.2 ≠ {})), waiting := [], fill := 0, trump := false, trumpAt := 0,
           trumpLong := false, raises := 0, trumpNs := 0, forwarded := 0, merges := 0, throttles := 0, scrubAt := t,
           scrubLines := 0, single := false }

/-- The cipher block: keys stay, engines and generators start afresh, and no noise source has passed its test yet
(Table 11-6). -/
def cipherAtStart (x : Cipher) : Cipher :=
  { slots := x.slots, kik := x.kik, kikLocked := x.kikLocked, katH := x.katH, reseedMs := x.reseedMs, aOk := false, bOk := false }

/-- The supervisor at a cold start: in NORMAL after SPENT and OFF; a cold start with the supply present is none of the
transitions of Table 12-2 and leaves the state as it is (R563, R675, log entry 46). -/
def supAtStart : Sup → Sup
  | .dip => .dip | .resume => .resume | .normal => .normal | .flush => .normal | .spent => .normal | .off => .normal

/-- The power block: nothing is measured yet, so the target is 0 (R574, R580). Counts from manufacture and the values of
the last flush stay, and so does the time spent outside NORMAL, which began at a time before `old` and goes on from `t`. -/
def powerAtStart (t old : Nat) (p : Power) : Power :=
  let on := decide (supAtStart p.sup = .normal)
  let since := fun (x : Nat) => if on then 0 else t - (old - x)
  { p with sup := supAtStart p.sup, leftAt := since p.leftAt, aboveAt := since p.aboveAt, state := 0, exiting := none,
           idleAt := [], fault := 0, faultAt := 0, valid := false, stale := false, health := 0, limit := 0, capUf := 0,
           esr := 0, availMj := 0, measAt := 0, wanted := false, charger := false, input := false, bleed := false,
           measuring := false, rcDips := 0, dipMaxUs := 0, rcHeld := 0, meas := 0, p1n := 0, p2n := 0, p3n := 0, target := 0,
           pinZero := false, cap := p.pending + p.exposed }

/-- The update's registers start afresh; what is known of a bundle still staged stays; the length of its
staging reads 0 (Table 13-8). -/
def updateAtStart (u : Update) : Update :=
  { u with last := 0, received := 0, reset := [], rollbacks := 0, rImage := [], rBytes := 0, rStatus := 0,
           man := if u.state = .staged ∨ u.state = .scheduled then { u.man with length := 0 } else {} }

/-- A cold start (R675): `cause` as RST_CAUSE gives it, 0 and 1 with the supply having been away. -/
def coldStart (cause : Nat) (inp : BootInput) (s0 : State) : State :=
  let s := rolesAtStart s0
  let t := startTime s
  let powerOn := decide (cause ≤ 1)
  followAlert { s with
    clk := { time := t, opNs := s.clk.opNs, cycles := s.clk.cycles + 1, cause := cause, stamp := s.clk.stamp,
             stamped := s.clk.stamped },
    boot := { s.boot with stage := 0, coldOp := opSeconds s, perstFrom := if powerOn then t + 20000000 else 0, smbAdr := if powerOn then inp.smbAdr else s.boot.smbAdr,
                          input := inp, chanFail := none },
    dlr := { inflight := s.dlr.inflight },
    jnl := { lastRecount := s.jnl.lastRecount, lastReset := s.jnl.lastReset },
    sessions := s.sessions.map sessionAtStart,
    ante := { bounds := s.ante.bounds, maxExitUs := s.ante.maxExitUs, d7Limit := s.ante.d7Limit, gcPct := s.ante.gcPct,
              relocPct := s.ante.relocPct, testPct := s.ante.testPct, floors := s.ante.floors,
              ceilings := s.ante.ceilings, slot := slotOf t, standFrom := slotOf t + 61440 },
    host := hostAtStart powerOn t s.host,
    lanes := (s.lanes.map laneOff).filter (fun p => decide (p.2 ≠ laneBlank p.1)),
    fab := fabricAtStart s.fab, fabc := {}, idx := indexAtStart s.idx, cam := camAtStart s.cam, med := mediaAtStart t s.med,
    mem := memoryAtStart t s.mem, xts := cipherAtStart s.xts, pwr := powerAtStart t s.clk.time s.pwr,
    upd := updateAtStart (updateLoss s.upd),
    evr := { s.evr with pending := [], dropped := 0, folded := 0, writing := none, calendar := none, epoch := s.evr.epoch + b2n (calendarNow s).isSome,
                        calOld := if s.evr.calOld.isSome then s.evr.calOld else calendarNow s },
    ist := { s.ist with lastRun := [], failures := [], overdue := [], draining := none },
    frz := { mode := s.frz.mode, asserted := s.frz.asserted } }

/-! ## Meanings -/

/-- The transition to FLUSH that the same sample meets, which is the one taken (R563): the supply lies below V_BOR, or dip_max_ms
has passed outside NORMAL. -/
def flushInstead (mv : Nat) (s : State) : Option State :=
  let p := s.pwr
  if mv < 9000 then some (enterFlush { s with pwr := { p with supplyMv := mv, brownouts := p.brownouts + 1 } })
  else if inDip s ∧ p.leftAt + p.dipMaxMs * 1000000 ≤ now s then
    some (enterFlush { s with pwr := { p with supplyMv := mv, timeouts := p.timeouts + 1 } })
  else none

/-- SUPPLY_V_WARN (R563, R564): DIP from NORMAL. -/
def execSupplyVWarn (mv : Nat) (s : State) : R :=
  .next (match s.pwr.sup with | .normal => (flushInstead mv s).getD (enterDip mv s) | _ => s)

/-- SUPPLY_ABOVE_V_RESUME (R563): RESUME from DIP; its hold begins. -/
def execSupplyAboveVResume (mv : Nat) (s : State) : R :=
  .next (match s.pwr.sup with
    | .dip => (flushInstead mv s).getD { s with pwr := { s.pwr with sup := .resume, aboveAt := now s, supplyMv := mv } }
    | _ => { s with pwr := { s.pwr with supplyMv := mv } })

/-- SUPPLY_BELOW_V_RESUME (R563): DIP from RESUME, an entry to DIP like any other (Tables 12-10, 12-11). -/
def execSupplyBelowVResume (mv : Nat) (s : State) : R :=
  .next (match s.pwr.sup with
    | .resume => (flushInstead mv s).getD
        { s with pwr := { s.pwr with sup := .dip, supplyMv := mv, dips := s.pwr.dips + 1, rcDips := s.pwr.rcDips + 1 } }
    | _ => { s with pwr := { s.pwr with supplyMv := mv } })

/-- RESUME_HOLD_END (R563, R565): 5 ms above V_RESUME. -/
def execResumeHoldEnd (s : State) : R :=
  .next (match s.pwr.sup with
    | .resume => guard (decide (s.pwr.aboveAt + 5000000 ≤ now s))
        (fun s => (flushInstead s.pwr.supplyMv s).getD (leaveDip s)) s
    | _ => s)

/-- SUPPLY_V_BOR (R563, R566): loss of supply. -/
def execSupplyVBor (mv : Nat) (s : State) : R :=
  .next (guard (watching s) (fun s =>
    enterFlush { s with pwr := { s.pwr with supplyMv := mv, brownouts := s.pwr.brownouts + 1 } }) s)

/-- DIP_TIMEOUT (R563): dip_max_ms outside NORMAL. -/
def execDipTimeout (s : State) : R :=
  .next (guard (inDip s && decide (s.pwr.leftAt + s.pwr.dipMaxMs * 1000000 ≤ now s)) (fun s =>
    enterFlush { s with pwr := { s.pwr with timeouts := s.pwr.timeouts + 1 } }) s)

/-- SUPPLY_HIGH (R561): an event and nothing else. -/
def execSupplyHigh (mv : Nat) (s : State) : R :=
  .next (guard (watching s) (fun s => event 0x0C02 [] { s with pwr := { s.pwr with supplyMv := mv } }) s)

/-- FLUSH_COMPLETE (R563, R584): SPENT, with what the flush took (Table 12-11). -/
def execFlushComplete (durUs energyMj endMv : Nat) (s : State) : R :=
  .next (match s.pwr.sup with
    | .flush =>
      let s1 := closeFlush s
      { s1 with pwr := { s1.pwr with sup := .spent, flushUs := durUs, flushMj := energyMj, flushMv := endMv, bankMv := endMv } }
    | _ => s)

/-- BANK_EXHAUSTED (R563, R585, R586): OFF with the bleed on; from FLUSH, the flush is incomplete. -/
def execBankExhausted (mv : Nat) (s : State) : R :=
  let off := { s with pwr := { s.pwr with sup := .off, bleed := true, bankMv := mv },
                      clk := { s.clk with aon := decide (7000 < s.pwr.supplyMv) } }
  .next (if 14000 ≤ mv then s else match s.pwr.sup with
    | .flush => off
    | .spent => off
    | _ => s)

/-- SUPPLY_ABOVE_7V (R47): in OFF the AON domain and the crystal run. -/
def execSupplyAbove7v (mv : Nat) (s : State) : R :=
  .next (match s.pwr.sup with
    | .off => { s with clk := { s.clk with aon := true }, pwr := { s.pwr with supplyMv := mv } }
    | _ => { s with pwr := { s.pwr with supplyMv := mv } })

/-- SUPPLY_BELOW_7V (R47): in OFF the AON domain is unpowered. -/
def execSupplyBelow7v (mv : Nat) (s : State) : R :=
  .next (match s.pwr.sup with
    | .off => { s with clk := { s.clk with aon := false }, pwr := { s.pwr with supplyMv := mv } }
    | _ => { s with pwr := { s.pwr with supplyMv := mv } })

/-- COLD_START (R563, R675): 5 ms above V_RESUME in SPENT or OFF. -/
def execColdStart (boot : BootInput) (s : State) : R :=
  .next (match s.pwr.sup with
    | .spent => coldStart 1 boot s
    | .off => coldStart 0 boot { s with pwr := { s.pwr with low := true } }
    | _ => s)

/-- PLL_LOCK_LOSS (Table 01-11): a PLL loses lock; 0 names the root PLL, n + 1 the SerDes PLL of lane n. When the root PLL
locks again is free (log entry 15). -/
def execPllLockLoss (pll : Nat) (s : State) : R :=
  whenRunning (fun s =>
    { s with clk := { s.clk with unlocks := s.clk.unlocks + 1, rootLost := s.clk.rootLost || decide (pll = 0),
                                 unlocked := if pll = 0 ∨ pll - 1 ∈ s.clk.unlocked then s.clk.unlocked else s.clk.unlocked ++ [pll - 1] } }) s

end Sys2Proof.Machine
end

