-- ==== Sys2Proof/Machine/Lanes.lean ====
section
/-! DEFINITION. The lanes as links: bring-up and block lock, the frames a lane receives and sends, its ring, flow control and
low-power idle (ch 07). -/

namespace Sys2Proof.Machine

open Sys2Proof

/-! ## Bring-up (R345 to R352, Table 07-2) -/

/-- Lane rows act once the cores run (Table 15-12). -/
def lanesServe (s : State) : Bool := decide (s.boot.stage = 3 ∨ s.boot.stage = 4)

/-- A lane's row: it acts on one of the 512 lanes, in the states that `c` names. -/
def laneRow (n : Nat) (c : Lane → Bool) (f : State → State) (s : State) : R :=
  whenRunning (guard (lanesServe s && decide (n < 512) && c (laneAt s n)) f) s

/-- The lane's retraining reservation is given back. -/
def endTraining (n : Nat) (s : State) : State :=
  match findMaint s .laneRetrain n with
  | some m => dropMaint m.id s
  | none => s

/-- Frames of a revoke that no answer has ended go to the other lanes before the lane trains again. -/
def settleRevoke (n : Nat) (s : State) : State :=
  let l := laneAt s n
  if l.revoking then
    moveFrames (l.farNode.getD 0) l.kept (setLane n { l with kept := [], revoking := false } s)
  else s

/-- The lane's window has come: its reservation begins now, or it is OFF after a cold start, which asks for none (log entry
28). -/
def windowOpen (s : State) (n : Nat) : Bool :=
  match findMaint s .laneRetrain n with
  | some m => decide (m.first ≤ slotOf (now s))
  | none => decide ((laneAt s n).state = .off)

/-- The lane takes up its settings and begins an attempt (Table 07-2, R345). -/
def beginTraining (n : Nat) (s0 : State) : State :=
  let s := settleRevoke n s0
  let l := laneAt s n
  let c := l.pending.getD l.cfg
  let l1 := { l with cfg := c, pending := none, since := now s, farNode := none, farMac := none, hellos := 0, kept := [],
                     creditCells := s.fab.linkCells }
  if c.enabled then
    countLane n 47 1 (setLane n { l1 with state := if c.backplane then .training else .locking } s)
  else endTraining n (setLane n { l1 with state := .off, attempts := 0 } s)

/-- LANE_RETRAIN_WINDOW_START (R345, R346). -/
def execLaneRetrainWindowStart (lane : Nat) (s : State) : R :=
  laneRow lane (fun l => decide (l.state = .waiting ∨ l.state = .off)) (fun s =>
    if windowOpen s lane then beginTraining lane s else s) s

/-- LANE_TRAINING_DONE (R346, R352): the taps that training settled on, six bits each. -/
def execLaneTrainingDone (lane pre main post : Nat) (s : State) : R :=
  laneRow lane (fun l => decide (l.state = .training)) (fun s =>
    modLane lane (fun l => { l with state := .locking, since := now s, trained := true, taps := (pre % 64, main % 64, post % 64) }) s) s

/-- LANE_TRAINING_TIMEOUT (R347): 500 ms of TRAINING or 50 ms of LOCKING. The third failed attempt in a row ends in
FAILED. -/
def execLaneTrainingTimeout (lane : Nat) (s : State) : R :=
  laneRow lane (fun l => decide ((l.state = .training ∧ l.since + 500000000 ≤ now s) ∨
      (l.state = .locking ∧ l.since + 50000000 ≤ now s))) (fun s =>
    let l := laneAt s lane
    let code := if l.state = .training then 2 else 3
    let l1 := { l with attempts := l.attempts + 1, since := now s, trained := l.trained && decide (code = 3) }
    let s1 := endTraining lane s
    if 3 ≤ l1.attempts then event 0x0901 [lane, code] (setLane lane { l1 with state := .failed } s1)
    else askTraining lane (setLane lane { l1 with state := .waiting } s1)) s

/-- BLOCK_LOCK (R348): 64 consecutive valid sync headers. -/
def execBlockLock (lane : Nat) (s : State) : R :=
  laneRow lane (fun l => decide (l.state = .locking)) (fun s =>
    let s1 := modLane lane (fun l => { l with state := .confirm, since := now s }) s
    { s1 with clk := { s1.clk with unlocked := s1.clk.unlocked.filter (fun k => decide (k ≠ lane)) } }) s

/-- CONFIRM_PASS (R346, R349): the lane is UP; a client lane counts in its trunk from now. A change of enabled, use or pmd_mode that
came since the attempt began takes it to WAITING again (Table 07-2). -/
def execConfirmPass (lane : Nat) (s : State) : R :=
  laneRow lane (fun l => decide (l.state = .confirm)) (fun s =>
    let s1 := endTraining lane (modLane lane (fun l =>
      { l with state := .up, since := now s, upAt := now s, emptyAt := now s, helloAt := now s, hellos := 0,
               inTrunk := l.cfg.client, hiBer := false }) s)
    if (laneAt s1 lane).pending.isSome then leaveUp lane s1 else s1) s

/-- FALSE_LOCK (R346, R349). -/
def execFalseLock (lane : Nat) (s : State) : R :=
  laneRow lane (fun l => decide (l.state = .confirm)) (fun s =>
    countLane lane 43 1 (modLane lane (fun l => { l with state := .locking, since := now s }) s)) s

/-- A lane in UP loses block lock (R346, R351). -/
def lockLost (n : Nat) (s : State) : State := leaveUp n (countLane n 41 1 s)

/-- LOCK_LOSS (R346, R351, R367). -/
def execLockLoss (lane : Nat) (s : State) : R :=
  laneRow lane (fun l => decide (l.state = .up)) (lockLost lane) s

/-- HI_BER_WINDOW (R346, R350): `invalid` sync headers were seen in the 125 µs that end now. -/
def execHiBerWindow (lane invalid : Nat) (s : State) : R :=
  laneRow lane (fun l => decide (l.state = .up)) (fun s =>
    let s1 := countLane lane 40 invalid s
    let l := laneAt s1 lane
    if invalid < 16 then setLane lane { l with hiBer := false } s1
    else if l.hiBer then (if l.hiBerAt + 1000000 ≤ now s then lockLost lane s1 else s1)
    else countLane lane 42 1 (setLane lane { l with hiBer := true, hiBerAt := now s } s1)) s

/-- ATTEMPT_COUNT_RESET (R347). -/
def execAttemptCountReset (lane : Nat) (s : State) : R :=
  laneRow lane (fun l => decide (l.state = .up ∧ l.upAt + 1000000000 ≤ now s)) (modLane lane (fun l => { l with attempts := 0 })) s

/-! ## Receive rings (R37, R359, R360) -/

/-- Cells a lane's ring holds. -/
def ringCells (l : Lane) : Nat := sumOf (fun f => f.reserve + f.shared) l.rx

/-- Cells left of a lane's reserve. -/
def reserveFree (s : State) (n : Nat) : Nat := s.buf.perLane - sumOf (fun f => f.reserve) (laneAt s n).rx

/-- A frame is put into the ring of its lane, its cells from the reserve first (R37). -/
def storeRx (n cells : Nat) (f : RxFrame) (s : State) : State :=
  let r := min cells (reserveFree s n)
  modLane n (fun l => { l with rx := l.rx ++ [{ f with reserve := r, shared := cells - r }] }) s

/-! ## Pause (R361 to R363) -/

/-- A pause frame of the lane, PAUSE or PFC for the priorities of pfc_mask. -/
def pauseFrame (s : State) (n quanta : Nat) : TxFrame :=
  let c := (laneAt s n).cfg
  let head := natBe 6 0x0180C2000001 ++ natBe 6 (laneMac s n) ++ natBe 2 0x8808
  if c.flow = 2 then
    { bytes := head ++ natBe 2 0x0101 ++ natBe 2 c.pfcMask ++
        (List.range 8).flatMap (fun q => natBe 2 (if bit c.pfcMask q then quanta else 0)),
      pause := true, pfc := true, at_ := now s }
  else { bytes := head ++ natBe 2 0x0001 ++ natBe 2 quanta, pause := true, at_ := now s }

/-- The lane's own pause frame goes ahead of every queued frame (R361). -/
def sendPause (n quanta : Nat) (s : State) : State :=
  let f := pauseFrame s n quanta
  modLane n (fun l => { l with tx := l.tx.filter (·.pause) ++ [f] ++ l.tx.filter (fun x => !x.pause) }) s

/-- The ring has grown: at xoff_cells the lane asks its partner to pause (R361). -/
def checkXoff (n : Nat) (s : State) : State :=
  let l := laneAt s n
  if l.cfg.client ∧ l.cfg.flow ≠ 0 ∧ l.pauseSent = false ∧ l.cfg.xoff ≤ ringCells l then
    sendPause n l.cfg.quanta (setLane n { l with pauseSent := true, pauseAt := now s } s)
  else s

/-- The ring has shrunk: at xon_cells the lane sends quanta 0 (R361). -/
def checkXon (n : Nat) (s : State) : State :=
  let l := laneAt s n
  if l.pauseSent ∧ ringCells l ≤ l.cfg.xon then sendPause n 0 (setLane n { l with pauseSent := false } s) else s

/-- An unbroken hold ends: its time is counted (counter 39). -/
def endHold (n : Nat) (s : State) : State :=
  let l := laneAt s n
  match l.held with
  | none => s
  | some t => countLane n 39 ((min t (now s) - l.heldFrom) / 1000) (setLane n { l with held := none } s)

/-- Received pause is ignored after the watchdog acted (R362). -/
def inHoldoff (s : State) (l : Lane) : Bool :=
  match l.holdoff with
  | none => false
  | some t => decide (now s < t)

/-- A received PAUSE frame, or a PFC frame with its vector of priorities (R361). -/
def takePause (n : Nat) (pfc : Option Nat) (quanta : Nat) (s0 : State) : State :=
  let s := countLane n (if pfc.isSome then 6 else 5) 1 s0
  let c := (laneAt s n).cfg
  let honoured := match pfc with
    | none => decide (c.flow = 1)
    | some v => decide (c.flow = 2) && bit v c.txPcp && bit c.pfcMask c.txPcp
  if honoured = false ∨ inHoldoff s (laneAt s n) = true then s
  else if quanta = 0 then endHold n s
  else
    let s1 := if heldLane s n then s else modLane n (fun l => { l with heldFrom := now s }) (endHold n s)
    modLane n (fun l => { l with held := some (now s + ceilDiv (quanta * 512) 10) }) s1

/-- PAUSE_RECEIVED (R361): on a client lane. -/
def execPauseReceived (lane : Nat) (pfc : Option Nat) (quanta : Nat) (s : State) : R :=
  laneRow lane (fun l => decide (l.state = .up) && l.cfg.client) (takePause lane pfc (quanta % 65536)) s

/-- PAUSE_EXPIRY (R361). -/
def execPauseExpiry (lane : Nat) (s : State) : R :=
  laneRow lane (fun l => match l.held with | some t => decide (t ≤ now s) | none => false) (endHold lane) s

/-- PAUSE_REPEAT_TIMER (R361): half the quanta time has passed and the ring is above xon_cells. -/
def execPauseRepeatTimer (lane : Nat) (s : State) : R :=
  laneRow lane (fun l => l.pauseSent && decide (l.state = .up ∧ l.pauseAt + l.cfg.quanta * 256 / 10 ≤ now s ∧ l.cfg.xon < ringCells l))
    (fun s => sendPause lane (laneAt s lane).cfg.quanta (modLane lane (fun l => { l with pauseAt := now s }) s)) s

/-- PAUSE_WATCHDOG (R362): the hold that the watchdog ends does not go on. -/
def execPauseWatchdog (lane : Nat) (s : State) : R :=
  laneRow lane (fun l => heldLane s lane && decide (l.cfg.watchMs ≠ 0 ∧ l.heldFrom + l.cfg.watchMs * 1000000 ≤ now s)) (fun s =>
    let k := (laneAt s lane).tx.length
    let s1 := endHold lane (countLane lane 38 k s)
    event 0x0902 [] (modLane lane (fun l =>
      { l with tx := [], emptyAt := now s,
               holdoff := if l.cfg.holdoffMs = 0 then none else some (now s + l.cfg.holdoffMs * 1000000) }) s1)) s

/-- PAUSE_HOLDOFF_END (R362). -/
def execPauseHoldoffEnd (lane : Nat) (s : State) : R :=
  laneRow lane (fun l => match l.holdoff with | some t => decide (t ≤ now s) | none => false)
    (modLane lane (fun l => { l with holdoff := none })) s

/-! ## What a client lane passes on (R357) -/

/-- The header of a frame after its Ethernet addresses and its tag: EtherType and what follows it, FCS left off. -/
def etherPart (b : Bytes) : Nat × Bytes :=
  let body := b.take (b.length - 4)
  if beAt b 12 2 = 0x8100 then (beAt b 16 2, body.drop 18) else (beAt b 12 2, body.drop 14)

/-- The tag agrees with vlan_tag and vlan_id (R357, condition 2). -/
def tagOk (c : LaneCfg) (b : Bytes) : Bool :=
  if c.vlanTag then decide (beAt b 12 2 = 0x8100 ∧ beAt b 14 2 % 4096 = c.vlanId) else decide (beAt b 12 2 ≠ 0x8100)

/-- UDP to udp_port with a correct checksum; over IPv4 a checksum of 0 is accepted (R357, condition 6). -/
def udpOk (s : State) (v4 : Bool) (pseudo p : Bytes) : Bool :=
  let n := beAt p 4 2
  decide (beAt p 2 2 = s.fab.udpPort ∧ 8 ≤ n ∧ n ≤ p.length) &&
    ((v4 && decide (beAt p 6 2 = 0)) || decide (ipSum (pseudo ++ natBe 2 n ++ natBe 2 17 ++ p.take n) = 0))

/-- An IPv4 packet that the lane passes on (R357, conditions 4 to 6). -/
def ipv4Ok (s : State) (k : ClientTrunk) (p : Bytes) : Bool :=
  let h := beAt p 0 1 % 16 * 4
  let total := beAt p 2 2
  decide (beAt p 0 1 / 16 = 4 ∧ 20 ≤ h ∧ h ≤ total ∧ total ≤ p.length ∧ ipSum (p.take h) = 0) &&
    decide (beAt p 6 2 % 16384 = 0) && k.v4 && decide (beAt p 16 4 = k.addr4 ∧ beAt p 9 1 = 17) &&
    udpOk s true ((p.drop 12).take 8) ((p.take total).drop h)

/-- An IPv6 packet that the lane passes on: neighbour discovery, or UDP to the trunk's address (R357, conditions 4 to 6). -/
def ipv6Ok (s : State) (k : ClientTrunk) (p : Bytes) : Bool :=
  let n := beAt p 4 2
  let dst := beAt p 24 16
  let body := (p.drop 40).take n
  decide (beAt p 0 1 / 16 = 6 ∧ 40 + n ≤ p.length) && k.v6 &&
    (if beAt p 6 1 = 58 then
       decide (133 ≤ beAt body 0 1 ∧ beAt body 0 1 ≤ 137) &&
         decide (dst = k.addr6 ∨ dst = 0xFF020000000000000000000000000001 ∨
           dst = 0xFF0200000000000000000001FF000000 + k.addr6 % 2 ^ 24)
     else decide (beAt p 6 1 = 17 ∧ dst = k.addr6) && udpOk s false ((p.drop 8).take 32) body)

/-- A frame that a client lane passes on (R357). -/
def passes (s : State) (n : Nat) (b : Bytes) : Bool :=
  match trunkOf s n with
  | none => false
  | some t =>
    let k := trunkAt s t
    let e := etherPart b
    let dst := beAt b 0 6
    let mine := decide (dst = laneMac s n)
    tagOk (laneAt s n).cfg b &&
      (if e.1 = 0x0806 then mine || decide (dst = 0xFFFFFFFFFFFF)
       else if e.1 = 0x0800 then mine && ipv4Ok s k e.2
       else if e.1 = 0x86DD then
         (mine || decide (dst = 0x333300000001 ∨ dst = 0x3333FF000000 + k.addr6 % 2 ^ 24)) && ipv6Ok s k e.2
       else false)

/-- The frame is PAUSE or PFC. -/
def isPause (b : Bytes) : Bool := decide (beAt b 12 2 = 0x8808)

/-- The counters of a good frame (Table 07-5). -/
def countGood (n : Nat) (b : Bytes) (s : State) : State :=
  let dst := beAt b 0 6
  let k := if dst = 0xFFFFFFFFFFFF then 4 else if bit dst 40 then 3 else 2
  countLane n k 1 (countLane n 1 b.length (countLane n 0 1 s))

/-- A PAUSE or PFC frame on a client lane: taken when flow_control enables that kind, else filtered (R357, R361). -/
def pauseArrives (n : Nat) (b : Bytes) (s : State) : State :=
  let c := (laneAt s n).cfg
  if c.flow = 1 ∧ beAt b 14 2 = 0x0001 then takePause n none (beAt b 16 2) (countGood n b s)
  else if c.flow = 2 ∧ beAt b 14 2 = 0x0101 then
    takePause n (some (beAt b 16 2)) (beAt b (18 + 2 * c.txPcp) 2) (countGood n b s)
  else dropFiltered n s

/-! ## Receiving (R350, R354 to R360, R369, R370) -/

/-- What the FCS of a whole frame says of it (R354). -/
def fcsMark (b : Bytes) : Mark :=
  let want := fcsOf (b.take (b.length - 4))
  let got := leNat (b.drop (b.length - 4))
  if got = want then .good else if got = 0xFFFFFFFF - want then .void else .bad

/-- Counter of the size bin of a received frame (Table 07-5). -/
def rxBin (len : Nat) : Nat :=
  if len ≤ 64 then 7 else if len ≤ 127 then 8 else if len ≤ 255 then 9 else if len ≤ 511 then 10
  else if len ≤ 1023 then 11 else if len ≤ 1518 then 12 else if len ≤ 4095 then 13 else 14

/-- The bytes of a frame that a wake mask selects, if the frame holds all of them (R369). -/
def selected (mask : Nat) : Nat → Bytes → Option Bytes
  | 0, _ => if mask = 0 then some [] else none
  | n + 1, [] => if mask = 0 then some [] else selected mask n []
  | n + 1, b :: t =>
    match selected (mask / 2) n t with
    | none => none
    | some l => some (if mask % 2 = 1 then b :: l else l)

/-- A good frame matches one of the eight wake patterns (R369). -/
def wakeMatch (s : State) (b : Bytes) : Bool :=
  (s.wake.masks.zip s.wake.checks).any (fun p => decide (p.1 ≠ 0) &&
    (match selected p.1 128 b with
     | some l => decide (crc32c l = p.2)
     | none => false))

/-- A frame in P2 or P3: kept when it matches a wake pattern, else dropped (R369, R590). -/
def sleepTest (n : Nat) (m : Mark) (b : Bytes) (s : State) : State × Bool :=
  if s.pwr.state < 2 then (s, true)
  else if (laneAt s n).cfg.wakeEn ∧ m = .good ∧ wakeMatch s b = true then (startExit (countLane n 46 1 s), true)
  else (countLane n 23 1 s, false)

/-- A client lane stores a frame, or drops it whole for want of cells (R359, R360). -/
def storeClient (n : Nat) (m : Mark) (b : Bytes) (s : State) : State :=
  let l := laneAt s n
  let need := ceilDiv b.length 256
  let occ := ringCells l
  let r := reserveFree s n
  if l.cfg.ringFrames ≤ l.rx.length ∨ l.cfg.ringCells ≤ occ ∨ (r = 0 ∧ sharedFree s ≤ 1024) then countLane n 20 1 s
  else if l.cfg.ringCells < occ + need ∨ r + sharedFree s < need then countLane n 21 1 s
  else checkXoff n (storeRx n need { bytes := b, mark := m, reserve := 0, shared := 0 } s)

/-- A frame of a client lane, once its FCS is judged. -/
def clientFrame (n : Nat) (m : Mark) (b : Bytes) (s0 : State) : State :=
  let t := sleepTest n m b s0
  let s := t.1
  if t.2 = false then s
  else if m = .good ∧ isPause b = true then pauseArrives n b s
  else if m = .good ∧ passes s n b = false then dropFiltered n s
  else storeClient n m b (if m = .good then countGood n b s else s)

/-! ### Fabric lanes (R290 to R298) -/

/-- A frame of a fabric lane is not taken: what it cost is charged and returned, and a NAK goes out where one is owed (R279,
R298). -/
def refuseFrame (n c cost : Nat) (nak : Bool) (s : State) : State :=
  let l := laneAt s n
  let s1 := freeCells n c cost (setLane n { l with charged := addAt l.charged c cost } s)
  if nak then sendCredit n true s1 else s1

/-- A frame above the sender's credit is dropped at its header; the third within 1 ms sets the credits back through a lane
retraining (R297). -/
def dropNoCredit (n : Nat) (s : State) : State :=
  let l := laneAt s n
  let recent := l.noCredit.filter (fun t => decide (now s < t + 1000000)) ++ [now s]
  let s1 := { setLane n { l with noCredit := recent } s with
                fabc := { s.fabc with noCredit := s.fabc.noCredit + 1 } }
  if 3 ≤ recent.length then revokeLane n s1 else sendCredit n true s1

/-- A void frame: discarded, its cells freed, its credits returned, the sequence advanced past it (R293). -/
def takeVoid (n : Nat) (h : Hdr) (s : State) : State :=
  let s1 := countLane n 16 1 { s with fabc := { s.fabc with stomps := s.fabc.stomps + 1 } }
  let l := laneAt s1 n
  if inFabricTrunk l ∧ creditedType h.kind = true ∧ h.hop < 5 then
    refuseFrame n h.hop (frameCost h.payload) false
      (if h.laneSeq = l.seqIn then setLane n { l with seqIn := (l.seqIn + 1) % 65536 } s1 else s1)
  else s1

/-- A fabric-lane frame of a kind that is not carried (R290 to R292): dropped and counted. -/
def dropFrame (n : Nat) (filtered : Bool) (s : State) : State :=
  let s1 := dropType s
  if filtered then dropFiltered n s1 else s1

/-- A credited frame on a lane of a fabric trunk, judged at its header first: without credit it is dropped before it takes a
cell (R297). One that runs longer than it declares is cut and discarded (R298), one that is not next in sequence leaves a gap,
and both are answered with a NAK (R279). A bad frame is answered with a NAK and waits, marked, for its consumer (R354). -/
def creditedFrame (n : Nat) (m : Mark) (b : Bytes) (s : State) : State :=
  let l := laneAt s n
  let h := headerOf b
  let cost := frameCost h.payload
  if joined s = false ∨ inFabricTrunk l = false then s
  else if 4 < h.hop then (if m = .good then dropFrame n false s else sendCredit n true s)
  else if creditOfPeer l h.hop < cost then dropNoCredit n s
  else if m = .truncated ∨ b.length ≠ max 64 (50 + h.payload) then refuseFrame n h.hop cost true s
  else if m = .bad then
    sendCredit n true (storeRx n cost { bytes := b, mark := .bad, reserve := 0, shared := 0, paid := true }
      (setLane n { l with charged := addAt l.charged h.hop cost } s))
  else if h.laneSeq ≠ l.seqIn then refuseFrame n h.hop cost (from16 h.laneSeq l.seqIn) s
  else
    storeRx n cost { bytes := b, mark := .good, reserve := 0, shared := 0, paid := true }
      (setLane n { l with seqIn := (l.seqIn + 1) % 65536, charged := addAt l.charged h.hop cost } s)

/-- A frame with a bad FCS or without its end (R279, R354): one that its header shows as credited is charged, any other is
discarded; both are answered with a NAK. -/
def badFrame (n : Nat) (m : Mark) (b : Bytes) (s : State) : State :=
  let h := headerOf b
  if beAt b 12 2 = s.fab.etherType ∧ h.version = 1 ∧ creditedType h.kind = true then creditedFrame n m b s
  else if joined s ∧ inFabricTrunk (laneAt s n) = true then sendCredit n true s
  else s

/-- A frame of a fabric lane, once its FCS is judged; the contents of link frames come by their own commands. -/
def fabricFrame (n : Nat) (m : Mark) (b : Bytes) (s0 : State) : State :=
  let t := sleepTest n m b s0
  let s := t.1
  if t.2 = false then s
  else
    match m with
    | .void => takeVoid n (headerOf b) s
    | .bad => badFrame n m b s
    | .truncated => badFrame n m b s
    | .good =>
      let h := headerOf b
      if beAt b 12 2 ≠ s.fab.etherType then dropFrame n true s
      else if h.version ≠ 1 ∨ 0xC ≤ h.kind then dropFrame n false (countGood n b s)
      else if creditedType h.kind then creditedFrame n m b (countGood n b s)
      else countGood n b s

/-- A frame with its errors counted: a runt, an oversize frame stored short, or a whole frame with its FCS (R354 to
R356, R370). -/
def receiveFrame (n : Nat) (b : Bytes) (s : State) : State :=
  let c := (laneAt s n).cfg
  let to_ := fun (m : Mark) (x : Bytes) (s : State) => if c.client then clientFrame n m x s else fabricFrame n m x s
  if b.length < 64 then countLane n 17 1 s
  else if maxFrame c < b.length then to_ .truncated (b.take (maxFrame c)) (countLane n 18 1 s)
  else
    let m := fcsMark b
    let s1 := countLane n (rxBin b.length) 1 s
    match m with
    | .bad => to_ m b (countLane n 15 1 s1)
    | .void => to_ m b (if c.client then countLane n 16 1 s1 else s1)
    | .good => to_ m b s1
    | .truncated => s1

/-- LANE_FRAME_RECEIVE (R350, R354 to R360). An invalid block is counted; what it did to the frame stands in its bytes. -/
def execLaneFrameReceive (lane : Nat) (frame : Bytes) (invalidBlocks : Nat) (s : State) : R :=
  laneRow lane (fun l => decide (l.state = .up)) (fun s =>
    if (laneAt s lane).hiBer then countLane lane 19 1 s
    else receiveFrame lane frame (if invalidBlocks = 0 then s else countLane lane 19 1 s)) s

/-- VOID_FRAME (R293). -/
def execVoidFrame (lane : Nat) (h : Hdr) (s : State) : R :=
  laneRow lane (fun l => decide (l.state = .up) && !l.cfg.client) (takeVoid lane h) s

/-- NOCREDIT_DROP (R297). -/
def execNocreditDrop (lane : Nat) (h : Hdr) (s : State) : R :=
  laneRow lane (fun l => inFabricTrunk l && creditedType h.kind && decide (h.hop < 5 ∧ creditOfPeer l h.hop < frameCost h.payload))
    (dropNoCredit lane) s

/-- The frame dropped is one that R290 keeps off a fabric lane: it counts in rx_filtered too. -/
def filteredFault : FrameFault → Bool
  | .vlanTag => true
  | .etherType => true
  | .pause => true
  | .reservedType => false
  | .version => false

/-- FABRIC_FRAME_DROP (R290, R291, R292). -/
def execFabricFrameDrop (lane : Nat) (cause : FrameFault) (s : State) : R :=
  laneRow lane (fun l => decide (l.state = .up) && !l.cfg.client) (dropFrame lane (filteredFault cause)) s

/-! ## Taking and forwarding frames (R283, R287, R288, R361) -/

/-- The head of a ring is a frame that this module must forward. -/
def isTransit (s : State) (l : Lane) (f : RxFrame) : Bool :=
  !l.cfg.client && decide (f.mark = .good) && creditedType (headerOf f.bytes).kind && decide ((headerOf f.bytes).dst ≠ s.fab.nodeId)

/-- The ring gives up its head; the credit behind its cells is returned. -/
def takeHead (n : Nat) (s : State) : State :=
  let l := laneAt s n
  match l.rx with
  | [] => s
  | f :: t =>
    let s1 := setLane n { l with rx := t } s
    checkXon n (if f.paid then freeCells n (headerOf f.bytes).hop (f.reserve + f.shared) s1 else s1)

/-- RING_FRAME_TAKEN (R296, R354, R361): a consumer takes the head of the ring. In P2 and P3 every lane is held from the
Dealer (R590). -/
def execRingFrameTaken (lane : Nat) (s : State) : R :=
  laneRow lane (fun l => decide (s.pwr.state < 2) && (match l.rx with
      | [] => false
      | f :: _ => !isTransit s l f)) (takeHead lane) s

/-- A transit frame is queued on its egress trunk with its hop raised, or dropped (R283, R287). -/
def forwardFrame (n : Nat) (f : RxFrame) (s0 : State) : State :=
  let l := laneAt s0 n
  let h := headerOf f.bytes
  let cells := f.reserve + f.shared
  let s := setLane n { l with rx := l.rx.tail } s0
  let t : TxFrame := { bytes := (f.bytes.take (f.bytes.length - 4)), bounded := h.bounded, credited := true, hopClass := h.hop + 1,
                       cells := cells, source := if f.paid then some (n, h.hop) else none, stomp := decide (f.mark ≠ .good) }
  if 4 ≤ h.hop then dropHop t s
  else
    match egress s h with
    | none => dropHop t s
    | some (node, ad, via) =>
      let t1 := { t with bytes := readdress s n t.bytes (h.hop + 1) via 0 ad }
      queueTo node t1 { s with fab := { s.fab with rotor := s.fab.rotor + b2n (ad && !h.adaptive) } }

/-- FABRIC_FORWARD (R287, R288, R293): the transit frame with header `h` at the head of the ring is forwarded; one with a bad
FCS is one that was forwarded cut-through, and leaves with the complemented FCS. -/
def execFabricForward (lane : Nat) (h : Hdr) (s : State) : R :=
  laneRow lane (fun l => joined s && !l.cfg.client && (match l.rx with
      | [] => false
      | f :: _ => decide (headerOf f.bytes = h ∧ (f.mark = .good ∨ f.mark = .bad)) && isTransit s l { f with mark := .good }))
    (fun s => match (laneAt s lane).rx with
      | f :: _ => forwardFrame lane f s
      | [] => s) s

/-! ## Transmitting (R278, R289, R296, R353, R358) -/

/-- Transit bytes that the lane has sent in the slot of time `t`. -/
def transitSent (l : Lane) (t : Nat) : Nat := if l.shareSlot = slotOf t then l.shareBytes else 0

/-- The frame may leave as far as the transit share goes: a transit frame beyond the share of this slot waits while frames of the
module's own are queued (R43, R289). -/
def withinShare (s : State) (l : Lane) (f : TxFrame) : Bool :=
  !inTransit f || decide (transitSent l (now s) + f.bytes.length + 4 ≤ 20000 * s.fab.transitPct / 100) || l.tx.all inTransit

/-- The frame that leaves next: pause frames first; on a fabric lane resent frames, then bounded before unbounded ones within
the transit share (R279, R289, R361). -/
def nextFrame (s : State) (l : Lane) : Option TxFrame :=
  match l.tx.find? (·.pause) with
  | some f => some f
  | none =>
    if l.cfg.client then l.tx.head?
    else (l.tx.find? (·.resent)).or ((l.tx.find? (fun f => f.bounded && withinShare s l f)).or (l.tx.find? (withinShare s l)))

/-- The frame may begin: a credited frame needs a joined module (R274) and credit that covers it whole (R296). -/
def maySend (s : State) (l : Lane) (f : TxFrame) : Bool :=
  !f.credited || (joined s && decide (f.cells ≤ creditToSend l f.hopClass))

/-- The transit bytes of a frame that leaves are counted in its slot (R43). -/
def countShare (s : State) (f : TxFrame) (n : Nat) (l : Lane) : Lane :=
  if inTransit f then { l with shareSlot := slotOf (now s), shareBytes := transitSent l (now s) + n } else l


/-- A frame leaves its lane. A credited frame takes the next lane sequence and is kept, its cells charged (R278, R279,
R296). -/
def sendFrame (n : Nat) (f : TxFrame) (s : State) : State :=
  let l := laneAt s n
  let h := headerOf f.bytes
  let raw := if f.credited then readdress s n f.bytes h.hop h.via l.seqOut h.adaptive else f.bytes
  let b := wireBytes f raw
  let rest := l.tx.erase f
  let l1 := { l with tx := rest, emptyAt := if rest = [] then now s else l.emptyAt }
  let l2 := if f.credited then
      { l1 with seqOut := (l.seqOut + 1) % 65536, credit := addAt l.credit f.hopClass f.cells,
                creditAt := if l.kept = [] then now s else l.creditAt,
                kept := if f.stomp then l.kept else l.kept ++ [{ f with seq := l.seqOut, resent := false }] }
    else l1
  let s1 := emit (.frame n b) (countSent n f b (setLane n (countShare s f b.length l2) s))
  let s2 := if f.stomp then frameGone f { s1 with fabc := { s1.fabc with stomps := s1.fabc.stomps + 1 } } else s1
  match f.completes with
  | some (id, q) => setDelivered id q s2
  | none => s2

/-- LANE_FRAME_TRANSMIT (R289, R296, R353, R358, R361). A queued datagram longer than max_frame has become is not sent. -/
def execLaneFrameTransmit (lane : Nat) (s : State) : R :=
  laneRow lane (fun l => decide (l.state = .up) && !heldLane s lane && !l.txLpi) (fun s =>
    let l := laneAt s lane
    match nextFrame s l with
    | none => s
    | some f =>
      if l.cfg.client ∧ f.pause = false ∧ maxFrame l.cfg < max 64 (f.bytes.length + 4) then
        setLane lane { l with tx := l.tx.erase f, emptyAt := now s } s
      else if maySend s l f then sendFrame lane f s
      else s) s

/-! ## Low-power idle (R365 to R367) -/

/-- LPI_ENTRY (R365). -/
def execLpiEntry (lane : Nat) (s : State) : R :=
  laneRow lane (fun l => decide (l.state = .up ∧ l.cfg.lpiIdleUs ≠ 0 ∧ l.tx = [] ∧ l.emptyAt + l.cfg.lpiIdleUs * 1000 ≤ now s) &&
      !l.txLpi) (fun s => countLane lane 44 1 (modLane lane (fun l => { l with txLpi := true }) s)) s

/-- LPI_WAKE (R365, R366): a frame has been queued. -/
def execLpiWake (lane : Nat) (s : State) : R :=
  laneRow lane (fun l => l.txLpi && decide (l.tx ≠ [])) (wakeLane lane) s

/-- RX_LOW_POWER_IDLE (R367, R370): the partner enters or leaves low-power idle. -/
def execRxLowPowerIdle (lane : Nat) (enter : Bool) (s : State) : R :=
  laneRow lane (fun l => decide (l.state = .up ∧ l.rxLpi ≠ enter)) (fun s =>
    let s1 := modLane lane (fun l => { l with rxLpi := enter }) s
    if enter then countLane lane 45 1 s1 else s1) s

end Sys2Proof.Machine
end

