-- ==== Sys2Proof/Machine/Trunks.lean ====
section
/-! DEFINITION. Trunks, link frames, routes and fabric time (R275 to R286, R296, R320 to R325). -/

namespace Sys2Proof.Machine

open Sys2Proof

/-! ## HELLO (R274, R277) -/

/-- A lane starts afresh on its trunk: lane sequence 0 and fresh link credits; frames taken in before have no credit behind
them any more (R277, R278, R282). -/
def joinLane (n : Nat) (s : State) : State :=
  let zero := [0, 0, 0, 0, 0]
  let forget := fun (f : TxFrame) => match f.source with
    | some (k, _) => if k = n then { f with source := none } else f
    | none => f
  let s1 := { s with lanes := s.lanes.map (fun p =>
    (p.1, { p.2 with tx := p.2.tx.map forget, kept := p.2.kept.map forget })) }
  modLane n (fun l =>
    { l with inTrunk := true, outOf := false, seqOut := 0, seqIn := 0, kept := [], credit := zero, returned := zero, peerBack := zero,
             charged := zero, owed := zero, owedAt := 0, noCredit := [], naks := [],
             rx := l.rx.map (fun f => { f with paid := false }) }) s1

/-- HELLO (R274, R277): the third HELLO in a row that names the same joined neighbour brings the lane into its trunk. -/
def execHello (lane node : Nat) (valid : Bool) (farLane mac _serial : Nat) (s : State) : R :=
  laneRow lane (fun l => decide (l.state = .up) && !l.cfg.client) (fun s0 =>
    let old := laneAt s0 lane
    let serves := valid && joined s0 && decide (node ≠ s0.fab.nodeId)
    let s := if serves = false ∨ (old.inTrunk ∧ old.farNode ≠ some node) then unjoinLane lane s0 else s0
    let l := laneAt s lane
    let k := if serves then (if l.farNode = some node then min 3 (l.hellos + 1) else 1) else 0
    let l1 := { l with helloAt := now s, hellos := k, farNode := some node, farLane := farLane, farMac := some mac }
    let s1 := setLane lane l1 s
    if k = 3 ∧ l.inTrunk = false ∧ l.revoking = false then
      topologyChanged (decide (lanesTo s1 node = [])) (joinLane lane s1)
    else s1) s

/-- HELLO_TIMER (R277): every 100 µs each fabric lane in UP sends HELLO; it wakes a lane in low-power idle. -/
def execHelloTimer (s : State) : R :=
  whenRunning (guard (decide (s.fab.helloAt + 100000 ≤ now s)) (fun s =>
    each (fun p s =>
      if p.2.state = .up ∧ p.2.cfg.client = false then helloFrame p.1 s else s)
      s.lanes { s with fab := { s.fab with helloAt := now s } })) s

/-! ## CREDIT (R279, R296) -/

/-- Kept frames that the neighbour has passed, and those it has not. -/
def splitKept (next : Nat) (l : List TxFrame) : List TxFrame × List TxFrame :=
  (l.filter (fun f => !from16 f.seq next), l.filter (fun f => from16 f.seq next))

/-- CREDIT (R279, R296): frames the neighbour has passed are released; a NAK has the others resent, in order and first. -/
def execCredit (lane nextExp : Nat) (nak : Bool) (counts : List Nat) (s : State) : R :=
  laneRow lane inFabricTrunk (fun s =>
    let l := laneAt s lane
    let next := nextExp % 65536
    let p := splitKept next l.kept
    let l1 := { l with creditAt := now s, peerBack := (counts ++ l.peerBack.drop counts.length).take 5, kept := p.2 }
    let l2 := if nak then
        { l1 with kept := [], seqOut := next, tx := p.2.map (fun f => { f with resent := true }) ++ l.tx,
                  naks := l.naks.filter (fun x => decide (x.1 = next ∧ now s ≤ x.2 + 100000)) ++ [(next, now s)] }
      else l1
    let s1 := each frameGone p.1 (setLane lane l2 s)
    if nak then { s1 with fabc := { s1.fabc with linkRetx := s1.fabc.linkRetx + p.2.length } } else s1) s

/-- CREDIT_RETURN_TIMER (R296): 2 µs after the first cell not yet returned. -/
def execCreditReturnTimer (lane : Nat) (s : State) : R :=
  laneRow lane (fun l => inFabricTrunk l && decide (sumOf id l.owed ≠ 0 ∧ l.owedAt + 2000 ≤ now s)) (sendCredit lane false) s

/-! ## Failure and revoke (R280 to R283) -/

/-- The condition of R280. -/
def laneFails (t : Nat) (l : Lane) : LaneFault → Bool
  | .lockLost => true
  | .nakRepeated => decide (3 ≤ l.naks.length)
  | .creditSilent => decide (l.kept ≠ [] ∧ l.creditAt + 50000 ≤ t)
  | .helloSilent => decide (l.helloAt + 300000 ≤ t)

/-- LANE_FAILURE (R280, R281). -/
def execLaneFailure (lane : Nat) (cause : LaneFault) (s : State) : R :=
  laneRow lane (fun l => decide (l.state = .up) && !l.cfg.client && laneFails (now s) l cause)
    (fun s => if cause = .lockLost then lockLost lane s else revokeLane lane s) s

/-- The final sequence of the other end is known: what it has not taken goes to the remaining lanes (R281). -/
def endRevoke (n final : Nat) (s : State) : State :=
  let l := laneAt s n
  let p := splitKept (final % 65536) l.kept
  let s1 := each frameGone p.1 (setLane n { l with kept := [], revoking := false } s)
  let s2 := moveFrames (l.farNode.getD 0) p.2 s1
  topologyChanged (decide (lanesTo s2 (l.farNode.getD 0) = [])) s2

/-- The other end of the lane has failed: this end stops using it, moves what it kept and answers on the lane the REVOKE
came on (R281). -/
def obeyRevoke (via n final : Nat) (s : State) : State :=
  let l := laneAt s n
  let s1 := askTraining n (setLane n (laneWaiting (now s) { l with tx := [], revoking := true }) s)
  let s2 := moveFrames (l.farNode.getD 0) l.tx (endRevoke n final { s1 with fabc := { s1.fabc with revokes := s1.fabc.revokes + 1 } })
  revokeFrame via n l.seqIn true s2

/-- This module's lane that the neighbour calls `far`. -/
def laneCalled (s : State) (node far : Nat) : Option Nat :=
  (s.lanes.find? (fun p => decide (p.2.farNode = some node ∧ p.2.farLane = far) && !p.2.cfg.client &&
    (p.2.inTrunk || p.2.revoking))).map (·.1)

/-- REVOKE (R281): the lane named is the sender's number of it (log entry 29). Where this end had detected the failure as
well, the frame counts as the answer. -/
def execRevoke (lane revoked final : Nat) (ack : Bool) (s : State) : R :=
  laneRow lane inFabricTrunk (fun s =>
    match (laneAt s lane).farNode with
    | none => s
    | some node =>
      match laneCalled s node revoked with
      | none => s
      | some n =>
        if (laneAt s n).revoking then endRevoke n final s
        else if ack ∨ n = lane then s
        else obeyRevoke lane n final s) s

/-! ## Topology and routes (R275, R283 to R286, R419) -/

/-- Serial number `a` is greater in byte-wise comparison (R275). -/
def serialAbove (a b : Nat) : Bool := decide (beNat (natLe 16 b) < beNat (natLe 16 a))

/-- ROUTE (R275, R285): what a module tells of its trunks, passed on to every neighbour so that the flood reaches every module.
DESIGN CHOICE, log entry 97: a list that brings no news is passed on when the last passing of that node's list lies at least
50 ms, half the flooding period, back. -/
def execRoute (src serial : Nat) (trunks : List Nat) (valid : Bool) (validAt : Nat) (s : State) : R :=
  whenRunning (guard (joined s && decide (src < 2048)) (fun s =>
    if src = s.fab.nodeId then
      if serialAbove Config.serial serial then
        withdrawNode (event 0x0A01 [] { s with fab := { s.fab with conflict := true } })
      else s
    else
      let old := tget (fun _ => ({} : NodeInfo)) s.fab.nodes src
      let x : NodeInfo := { serial := serial, trunks := trunks, valid := valid, validAt := validAt, passedAt := now s }
      let put := fun (y : NodeInfo) (s : State) => { s with fab := { s.fab with nodes := tput s.fab.nodes src y } }
      if (tfind s.fab.nodes src).isSome ∧ x = { old with passedAt := now s } then
        (if old.passedAt + 50000000 ≤ now s then passRoute src x (put x s) else s)
      else topologyChanged false (passRoute src x (put x s)))) s

/-- ROUTE_FLOOD_TIMER (R285). -/
def execRouteFloodTimer (s : State) : R :=
  whenRunning (guard (joined s && decide (s.fab.routeAt + 100000000 ≤ now s)) floodRoute) s

/-- Neighbours of a node, as its ROUTE frames told. -/
def trunksOf (s : State) (n : Nat) : List Nat :=
  match tfind s.fab.nodes n with
  | some x => if x.valid then x.trunks else []
  | none => []

/-- Hops from a node of `front` to `d` that do not lead through this module; at most `k`. -/
def hopsTo (s : State) (d : Nat) : Nat → List Nat → Option Nat
  | k, front =>
    if d ∈ front then some 0
    else
      match k with
      | 0 => none
      | k + 1 =>
        (hopsTo s d k ((front.flatMap (trunksOf s)).filter (fun n => decide (n ≠ s.fab.nodeId))).dedup).map (· + 1)

/-- Nodes a route is sought for. -/
def knownNodes (s : State) : List Nat :=
  (((s.fab.nodes.filter (fun p => p.2.valid)).map (·.1) ++ s.fab.nodes.flatMap (fun p => if p.2.valid then p.2.trunks else []) ++
    fabricTrunks s).filter (fun n => decide (n ≠ s.fab.nodeId))).dedup

/-- Hops from neighbour `n` into group `g`. -/
def hopsInto (s : State) (g n : Nat) : Option Nat :=
  match ((knownNodes s).filter (fun d => decide (groupOfNode d = g))).filterMap (fun d => hopsTo s d 4 [n]) with
  | [] => none
  | a :: t => some (leastOf id a t)

/-- Rank of a neighbour as first hop toward another group (R286): a global trunk into it first, then the lowest member of the own
group that has one, then any other; hops and node ID decide among equals. -/
def groupRank (s : State) (g n hops : Nat) : Nat :=
  let c := if groupOfNode n = g then 0
    else if groupOfNode n = groupOfNode s.fab.nodeId ∧ (trunksOf s n).any (fun t => decide (groupOfNode t = g)) = true then 1
    else 2
  (c * 8 + (if c = 2 then hops else 0)) * 2048 + n

/-- First hops toward another group with their rank and the hop count of the route: into the group, and one local hop there
(R276, R283, R286); at most 5 hops in all. -/
def groupHops (s : State) (g : Nat) : List (Nat × Nat × Nat) :=
  (fabricTrunks s).filterMap (fun n => (hopsInto s g n).bind (fun k => if k ≤ 3 then some (groupRank s g n k, n, k + 2) else none))

/-- First hops toward a node of the own group, with their rank and length, at most 5 hops: its own trunk first (R276, R283). -/
def memberHops (s : State) (d : Nat) : List (Nat × Nat × Nat) :=
  (fabricTrunks s).filterMap (fun n => (hopsTo s d 4 [n]).map (fun k => ((b2n (decide (n ≠ d)) * 8 + k) * 2048 + n, n, k + 1)))

/-- The first hop of lowest rank. -/
def bestHop : List (Nat × Nat × Nat) → Option (Nat × Nat × Nat)
  | [] => none
  | a :: t =>
    match bestHop t with
    | some b => if b.1 < a.1 then some b else some a
    | none => some a

/-- A route from first hops in order of rank: the best and the next (Table 06-3). Toward another group a hop that leads neither
into it nor to a member with a trunk into it is no minimal route, and stands as the alternate only (R286, R288). -/
def routeOf (group : Bool) (l : List (Nat × Nat × Nat)) : Route :=
  match bestHop l with
  | none => {}
  | some (r, n, k) =>
    let next := (bestHop (l.filter (fun x => decide (x.2.1 ≠ n)))).map (·.2.1)
    if group = false ∨ r / 2048 / 8 ≤ 1 then { primary := some n, alternate := next, hops := k }
    else { primary := none, alternate := some n, hops := k }

/-- The key of a route search (Table 08-6). -/
def routeKey (d : Nat) : Nat := d * 2 ^ 69

/-- A route as a classifier result gives it (Table 08-8). -/
def routeResult (r : Nat) : Route :=
  { primary := if bit r 11 then some (bits r 10 0) else none, alternate := if bit r 23 then some (bits r 22 12) else none,
    hops := bits r 26 24 }

/-- A route as the result of an entry (Table 08-8). -/
def routeWord (r : Route) : Nat :=
  pack [(0, 11, r.primary.getD 0), (11, 1, b2n r.primary.isSome), (12, 11, r.alternate.getD 0), (23, 1, b2n r.alternate.isSome),
        (24, 3, r.hops)]

/-- The entries of the routing table (Table 06-3): a node route for each member of the own group, a group route for each other
group; key, mask and route. -/
def routeEntries (s : State) : List (Nat × Nat × Route) :=
  let own := groupOfNode s.fab.nodeId
  let l := knownNodes s
  let groups := ((l.map groupOfNode).filter (fun g => decide (g ≠ own))).dedup
  (l.filter (fun d => decide (groupOfNode d = own))).map (fun d => (routeKey d, 0x7FF * 2 ^ 69, routeOf false (memberHops s d))) ++
    groups.map (fun g => (g * 2 ^ 75, 0x1F * 2 ^ 75, routeOf true (groupHops s g)))

/-- Entry addresses of the banks that serve the route profile and can be written. -/
def routeRoom (s : State) : List Nat :=
  ((banksOf s 2).filter (fun b => decide ((bankAt s b).state ≠ 3))).flatMap (fun b => (List.range 2048).map (fun i => b * 2048 + i))

/-- The fabric cores write the routing table into the classifier, in place of the one before (R284): at the lowest free addresses
of the route banks, with priority 0 (log entry 30). -/
def writeRoutes (s : State) : State :=
  let kept := s.cam.entries.filter (fun e => !e.2.core)
  let new := (routeEntries s).filter (fun e => e.2.2.primary.isSome || e.2.2.alternate.isSome)
  let room := (routeRoom s).filter (fun a => (tfind kept a).isNone)
  let put := fun t (p : (Nat × Nat × Route) × Nat) =>
    tput t p.2 { priority := 0, result := routeWord p.1.2.2, key := p.1.1, mask := p.1.2.1, core := true }
  { s with cam := { s.cam with entries := (new.zip room).foldl put kept } }

/-- The route to a node as the search of its key gives it (R284, R419). A group route leads to those modules that the topology
shows in reach (log entry 30). -/
def routeFor (s : State) (d : Nat) : Route :=
  match searchProfile s 2 (routeKey d) with
  | some e => if e.core && !(fabricTrunks s).any (fun n => (hopsTo s d 4 [n]).isSome) then {} else routeResult e.result
  | none => {}

/-- A node that is reached again counts as failed only while a namespace still names it as a holder (R319). -/
def stillDead (s : State) (n : Nat) : Bool :=
  !reachable { s with fab := { s.fab with dead := [] } } n || s.nss.any (fun p => decide (n ∈ p.2.holders))

/-- The routes are computed (R284 to R286); who has just lost its last route was seen until now (R319), and a master that
changes or goes away ends the lock (R324). A module that becomes its own master waits for no parent (R322, R325). -/
def recompute (s : State) : State :=
  let old := s.fab.routes
  let master := timeMaster s
  let s1 := each (fun d s => countSearch 2 (routeKey d) s) (knownNodes s) (writeRoutes s)
  let new := each (fun d t => { t with fab := { t.fab with routes := tput t.fab.routes d (routeFor s1 d) } }) (knownNodes s)
    { s1 with fab := { s1.fab with routes := [], routeDue := none } }
  let up := fun (r : Route) => r.primary.isSome || r.alternate.isSome
  let gone := old.filter (fun (p : Nat × Route) => up p.2 && !(match tfind new.fab.routes p.1 with | some r => up r | none => false))
  let s2 := { new with fab := { new.fab with lastSeen := gone.foldl (fun t (p : Nat × Route) => tput t p.1 (now s)) new.fab.lastSeen },
                       fabc := { new.fabc with routeChanges := new.fabc.routeChanges + 1 } }
  let s3 := { s2 with fab := { s2.fab with dead := s2.fab.dead.filter (stillDead s2) } }
  if timeMaster s3 = master then s3
  else { s3 with fab := { s3.fab with locked := false, timeSent := none, parentLow := s3.fab.parentLow && !ownMaster s3 } }

/-- A session is opened to each peer that can be reached now and that requests wait for (R300). -/
def openWaiting (s : State) : State := each openPeer ((s.fab.unsent.map (·.1)).dedup) s

/-- ROUTE_RECOMPUTE (R285); it waits for the end of an activation window (R608). -/
def execRouteRecompute (s : State) : R :=
  whenRunning (guard (s.fab.routeDue.isSome && !inActivation s) (fun s => openWaiting (recompute s))) s

/-! ## Fabric time (R320 to R325) -/

/-- The parent: the neighbour with the fewest hops to the master, the lowest node ID among equals (R320). -/
def timeParent (s : State) : Option Nat :=
  match timeMaster s with
  | none => none
  | some m =>
    if m = s.fab.nodeId then none
    else
      (bestHop ((fabricTrunks s).filterMap (fun n => (hopsTo s m 4 [n]).map (fun k => (k * 2048 + n, n, k))))).map (·.2.1)

/-- Fabric time in units of 0.625 ns (R321). -/
def phyTime (s : State) : Nat := now s * 8 / 5

/-- TIME_EXCHANGE_TIMER (R321): every 1 ms, on the lowest lane of the trunk to the parent. -/
def execTimeExchangeTimer (s : State) : R :=
  whenRunning (guard (decide (s.fab.timeAt + 1000000 ≤ now s)) (fun s =>
    match (timeParent s).bind (fun n => (lanesTo s n).head?) with
    | none => s
    | some k =>
      timeFrame k (.request (phyTime s)) { s with fab := { s.fab with timeAt := now s, timeSent := some (phyTime s) } })) s

/-- The offset of R321 in ns, from times in units of 0.625 ns. -/
def timeOffset (t1 t2 t3 t4 : Nat) : Int := (((t2 : Int) - t1) - ((t4 : Int) - t3)) * 5 / 16

/-- The offset from the parent is known (R322): a step before the first acceptance, to a value above the highest stamp, and a
slew afterwards. When the parent's time lies below that stamp, nothing is accepted until it has passed it. -/
def takeOffset (d : Int) (s : State) : State :=
  let target := ((now s : Int) + d).toNat
  let low := s.clk.stamped && decide (target < s.clk.stamp.time + b2n s.fab.parentLow)
  let near := decide (-100 ≤ d ∧ d ≤ 100)
  let s1 := { s with fab := { s.fab with offsetNs := d, timeSent := none, parentLow := low, locked := near } }
  let s2 := if low ∧ s.fab.parentLow = false then event 0x0A02 [] s1 else s1
  if s.clk.first = false ∧ low = false ∧ (s.clk.stamped = false ∨ s.clk.stamp.time < target) then
    let s3 := stepTime target s2
    { s3 with fab := { s3.fab with locked := true } }
  else { s2 with fab := { s2.fab with slewNs := d } }

/-- TIME (R321, R322): a child's request is answered; the parent's answer gives the offset. -/
def execTimeFrame (lane : Nat) (msg : TimeMsg) (s : State) : R :=
  laneRow lane (fun l => inFabricTrunk l && decide (l.state = .up)) (fun s =>
    match msg with
    | .request t1 => timeFrame lane (.reply t1 (phyTime s) (phyTime s) 0) s
    | .reply t1 t2 t3 t4 =>
      if s.fab.timeSent = some t1 ∧ (laneAt s lane).farNode = timeParent s ∧ ownMaster s = false then takeOffset (timeOffset t1 t2 t3 t4) s
      else s) s

end Sys2Proof.Machine
end

