-- ==== Sys2Proof/Machine/Upkeep.lean ====
section
/-! DEFINITION. What runs beside the commands: maintenance reservations that fall due, ledger faults and their recount, the
event recorder's writes, live retraining and failure of a memory channel, and in-service test (R48, R66, R87 to R92,
R519, R520, R528, R626, R630, R640 to R645). -/

namespace Sys2Proof.Machine

open Sys2Proof

/-! ## Reservations that fall due (R48, R198) -/

/-- A maintenance reservation with this identity has come to its first slot. -/
def dueMaint (s : State) (id : Nat) : Option MaintResv :=
  s.ante.maint.find? (fun m => decide (m.id = id ∧ m.first ≤ slotOf (now s)))

/-- What the start of a reservation shows: the channel of a live retraining is retraining (Table 10-9). -/
def startMaint (m : MaintResv) (s : State) : State :=
  match m.kind with
  | .dramRetrain =>
    if (chanAt s m.target).state = 1 then setChan m.target { chanAt s m.target with state := 3 } s else s
  | .backgroundGc => s
  | .foregroundGc => s
  | .expiryErase => s
  | .relocation => s
  | .laneRetrain => s
  | .testSlice => s
  | .bankRebuild => s
  | .roleDrain => s
  | .activation => s
  | .recount => s
  | .flushErase => s
  | .groupRebuild => s
  | .shardRebuild => s
  | .sweep => s

/-- MAINTENANCE_RESERVATION_START (R48): its slots are the activity's from now on; what the activity does with them has a
command of its own. -/
def execMaintenanceReservationStart (resv : Nat) (s : State) : R :=
  whenRunning (fun s =>
    match dueMaint s resv with
    | none => s
    | some m =>
      if m.started then s
      else
        startMaint m { s with ante := { s.ante with
          maint := s.ante.maint.map (fun x => if x.id = resv then { x with started := true } else x) } }) s

/-! ## Ledger faults (R87 to R92) -/

/-- Bit of JNL_LEDGER_FAULT (Table 02-7); the two ledgers of the fabric have none. -/
def ledgerBit : Ledger → Option Nat
  | .commands => some 0
  | .kitty => some 1
  | .talonStock => some 2
  | .antes => some 3
  | .cells => some 4
  | .cipherLocks => some 5
  | .queueSlots => some 6
  | .sessionOrder => some 7
  | .linkCredits => none
  | .sessionCredits => none

/-- The ledger as an event's payload names it: its bit, and 8 and 9 for link and session credits (log entry 31). -/
def ledgerCode (l : Ledger) : Nat :=
  match l with
  | .linkCredits => 8
  | .sessionCredits => 9
  | _ => (ledgerBit l).getD 0

/-- Operating time in ns, which no reset turns back: the 24 hours of R92 are counted in it. -/
def within24h (s : State) (t : Nat) : Bool := decide (s.clk.opNs < t + 86400000000000)

/-- When a ledger was last entered in a list. -/
def lastTime (l : Ledger) (h : List (Ledger × Nat)) : Option Nat := (h.find? (fun p => decide (p.1 = l))).map (·.2)

/-- The list with a new time for a ledger. -/
def markTime (l : Ledger) (t : Nat) (h : List (Ledger × Nat)) : List (Ledger × Nat) :=
  h.filter (fun p => decide (p.1 ≠ l)) ++ [(l, t)]

/-- The fault is found again within 24 hours of a recount or of the reset that answered it (R92). DESIGN CHOICE, log entry 101:
the same fault is one of the same ledger, whatever lane, session or queue it is found on. -/
def repeated (s : State) (h : List (Ledger × Nat)) (l : Ledger) : Bool :=
  match lastTime l h with
  | none => false
  | some t => within24h s t

/-- A recount window at least 65,536 slots ahead is reserved, and commands that draw on the ledger are refused until it. A window
that lies nearer gives way to it, save one that a module reset waits for (R63, R91). -/
def askRecount (l : Ledger) (s : State) : State :=
  let s1 := { s with jnl := { s.jnl with refusing := s.jnl.refusing.filter (fun x => decide (x ≠ l)) ++ [l] } }
  let near := s1.ante.maint.filter (fun m => decide (m.kind = .recount ∧ m.first < slotOf (now s) + 65536))
  let far := s1.ante.maint.any (fun m => decide (m.kind = .recount ∧ slotOf (now s) + 65536 ≤ m.first))
  if far || (s.jnl.resetAsked && !near.isEmpty) then s1
  else reserveMaint .recount 0 625 (each (fun m => dropMaint m.id) near s1)

/-- The session that this module opened to a peer is closed and opened anew (Table 02-9). -/
def reopenSession (peer : Nat) (s : State) : State :=
  match linkTo s peer with
  | none => s
  | some x => openPeer peer (sendOwn 9 peer x.session 0 0 [] true { s with fab := { s.fab with links := tdel s.fab.links peer } })

/-- The response to a ledger whose hardware has failed (Table 02-9); its number stands in the event after the ledger
(log entry 31). -/
def ledgerResponse (l : Ledger) (unit : Nat) (s : State) : State :=
  let tell := event 0x0301 [ledgerCode l, 1]
  match l with
  | .linkCredits => revokeLane unit (tell s)
  | .sessionCredits => reopenSession unit (tell s)
  | .queueSlots =>
    match (tget (fun _ => ({} : Ctx)) s.host.ctxs unit).queue with
    | none => tell s
    | some q => raiseOn 5 q.port (setQueue unit { q with error := true } (tell s))
  | .kitty => retarget { tell s with pwr := { (tell s).pwr with pinZero := true } }
  | .cipherLocks => retireEngine unit .lockFault (tell s)
  | _ =>
    if repeated s s.jnl.lastReset l then enterReadOnly 3 [] (event 0x0301 [ledgerCode l, 2] s)
    else
      let s1 := tell s
      { s1 with jnl := { s1.jnl with resets := s1.jnl.resets + 1, resetAsked := true,
                                     refusing := s1.jnl.refusing.filter (fun x => decide (x ≠ l)) ++ [l] } }

/-- Ledgers whose repeated fault asks for a module reset (the last row of Table 02-9). -/
def answeredByReset : Ledger → Bool
  | .talonStock => true
  | .antes => true
  | .cells => true
  | .commands => true
  | .sessionOrder => true
  | .linkCredits => false
  | .sessionCredits => false
  | .queueSlots => false
  | .kitty => false
  | .cipherLocks => false

/-- LEDGER_FAULT (R87, R89 to R92): a fault of cipher locks, one within 24 hours of the ledger's recount, and one within 24 hours
of the reset that answered it have the response of Table 02-9. `lhs` and `rhs` are the two sides of the equation, `unit` the engine, lane, peer or
queue context it was found on. -/
def execLedgerFault (ledger : Ledger) (lhs rhs unit : Nat) (s : State) : R :=
  whenRunning (fun s =>
    let bits_ := match ledgerBit ledger with
      | some b => if bit s.jnl.fault b then s.jnl.fault else s.jnl.fault + 2 ^ b
      | none => s.jnl.fault
    let s1 := raiseLedger (event 0x0301 [ledgerCode ledger, lhs, rhs, now s] { s with jnl := { s.jnl with fault := bits_ } })
    if ledger = .cipherLocks ∨ (answeredByReset ledger && repeated s s.jnl.lastReset ledger) = true ∨ repeated s s.jnl.lastRecount ledger = true then
      ledgerResponse ledger unit s1
    else askRecount ledger s1) s

/-- The counts of the faulted ledgers, taken from the state behind them: the ledgers that the state itself gives need
nothing (R91, log entry 32). -/
def recount (l : Ledger) (s : State) : State :=
  let j := { s.jnl with lastRecount := markTime l s.clk.opNs s.jnl.lastRecount }
  match l with
  | .commands => { s with jnl := { j with completed := j.accepted - s.dlr.inflight.length } }
  | _ => { s with jnl := j }

/-- LEDGER_RECOUNT_WINDOW (R91): the window has come, and no command is in flight. -/
def execLedgerRecountWindow (s : State) : R :=
  whenRunning (fun s =>
    match s.ante.maint.find? (fun m => decide (m.kind = .recount ∧ m.first ≤ slotOf (now s))) with
    | none => s
    | some m =>
      if s.dlr.inflight ≠ [] then s
      else
        let s1 := each recount s.jnl.refusing s
        let s2 := { s1 with jnl := { s1.jnl with recounts := s1.jnl.recounts + 1,
                                                 refusing := if s1.jnl.resetAsked then s1.jnl.refusing else [] } }
        if s1.jnl.resetAsked then s2 else dropMaint m.id s2) s

/-! ## The event recorder's writes (R626, R627, R630) -/

/-- The recorder runs outside FLUSH, SPENT and OFF; a freeze stops it (R647). -/
def execEventHoldExpiry (s : State) : R := whenRunning (guard (!inRom s) startWrite) s

/-- The record being written is in the store; STORE_FULL stops it (R627). The next write may begin. -/
def writeDone (s : State) : State :=
  match s.evr.writing with
  | none => s
  | some r =>
    let e := storeRecord r { s.evr with writing := none }
    startWrite (reportDrops { s with evr := { e with stopped := e.stopped || decide (r.code = 0x0001) } })

/-- With the supply present, what waits in the pending buffer is written before a start that the module makes itself: R629
loses pending records only where the supervisor enters FLUSH (DEDUCED, log entry 81). -/
def writePending (s : State) : State :=
  let endHolds := fun (s : State) =>
    { s with evr := { s.evr with pending := s.evr.pending.map (fun r => { r with until_ := min r.until_ (now s) }) } }
  each (fun _ s => writeDone (startWrite (endHolds s))) (List.range (s.evr.pending.length + 2)) s

/-- EVENT_STORE_WRITE_DONE (R626). -/
def execEventStoreWriteDone (s : State) : R := whenRunning writeDone s

/-! ## Memory channels (R519, R520, R528) -/

/-- The channel is failed (R528): its share of the index is to be rebuilt by full scan, and admission has stopped. -/
def failChannel (c : Nat) (s : State) : State :=
  let s1 := setChan c { chanAt s c with state := 4 } s
  { s1 with mem := { s1.mem with single := s1.mem.single || decide (c = 0 ∨ c = 6) },
            boot := { s1.boot with chanFail := some (s1.boot.chanFail.getD c) } }

/-- DRAM_LIVE_RETRAIN (R519, R520): the reserved window of the channel ends; the sweep is whole or not. -/
def execDramLiveRetrain (channel : Nat) (finished : Bool) (eyes : List (Nat × Nat)) (s : State) : R :=
  whenRunning (guard (decide (channel < 12) && decide ((chanAt s channel).state = 1 ∨ (chanAt s channel).state = 3)) (fun s =>
    match findMaint s .dramRetrain channel with
    | none => s
    | some m =>
      if slotOf (now s) < m.first then s
      else
        let x := chanAt s channel
        let s1 := dropMaint m.id s
        if finished = false then askRetrain channel (setChan channel { x with state := 1 } s1)
        else if eyes.any eyeFails then failChannel channel s1
        else setChan channel { x with state := 1, trained := now s, eyes := eyes } s1)) s

/-- The condition of R528. -/
def channelFails (s : State) (c : Nat) : ChannelCause → Bool
  | .noAnswer => true
  | .training => true
  | .uncorrectable => decide (64 < ((chanAt s c).ueAt.filter (fun t => decide (now s < t + 1000000000))).length)

/-- DRAM_CHANNEL_FAILURE (R528). -/
def execDramChannelFailure (channel : Nat) (cause : ChannelCause) (s : State) : R :=
  whenRunning (guard (decide (channel < 12 ∧ (chanAt s channel).state ≠ 4) && channelFails s channel cause) (failChannel channel)) s

/-! ## In-service test (R640 to R644) -/

/-- Instances of a target (Table 14-4). -/
def instancesOf (t : Nat) : Nat := [1, 16, 32, 512, 12, 2, 2].getD t 0

/-- Period of a target in hours (Table 14-4). -/
def periodOf (s : State) (t : Nat) : Nat :=
  [s.pwr.healthH, s.xts.katH, s.ist.coreH, s.ist.dieH, s.ist.dramH, s.ist.flushH, s.ist.bootH].getD t 0

/-- Operating time at which an instance last ran (R641). -/
def ranAt (s : State) (t i : Nat) : Nat := tget (fun _ => 0) s.ist.runAt (t * 1024 + i)

/-- Operating time at which an instance falls due (R641); a measurement asked for is due (R574). -/
def dueAt (s : State) (t i : Nat) : Nat :=
  if t = 0 ∧ s.pwr.wanted = true then 0 else ranAt s t i + periodOf s t * 3600000000000

/-- Slices of the target run at all (R642). -/
def targetRuns (s : State) (t : Nat) : Bool :=
  decide (s.ante.testPct ≠ 0) && serviceFree s && bit s.ist.enable t && decide (periodOf s t ≠ 0)

/-- The instances of a target that still exist to be tested. -/
def testable (s : State) (t i : Nat) : Bool :=
  if t = 1 then !(engineAt s i).retired
  else if t = 2 then decide (roleOf s i ≠ 15)
  else if t = 3 then decide ((dieAt s i).state = 0)
  else if t = 4 then decide ((chanAt s i).state = 1 ∧ i ≠ 0 ∧ i ≠ 6)
  else if t = 5 then (if i = 0 then s.pwr.aReady else s.pwr.bReady)
  else true

/-- The instances that are due, with their due time: target codes rising, then instances. -/
def dueTests (s : State) : List (Nat × Nat × Nat) :=
  (List.range 7).flatMap (fun t =>
    if targetRuns s t then
      ((List.range (instancesOf t)).filter (fun i => testable s t i && decide (dueAt s t i ≤ s.clk.opNs))).map
        (fun i => (dueAt s t i, t, i))
    else [])

/-- The most overdue instance, the first among equals (R641). -/
def mostOverdue : List (Nat × Nat × Nat) → Option (Nat × Nat × Nat)
  | [] => none
  | a :: t => some (t.foldl (fun x y => if y.1 < x.1 then y else x) a)

/-- The dies of a flush set (R479). -/
def flushDies (setB : Bool) : List Nat := (List.range 256).map (fun d => if setB then d + 256 else d)

/-- A flush set is to be erased (R582): it is not ready until the last of its erases has ended. -/
def eraseSet (setB : Bool) (s : State) : State :=
  let r := reserveErase .flushErase (b2n setB) ((flushDies setB).map ([·])) 357 s
  let p := r.1.pwr
  retarget { r.1 with pwr := if setB then { p with bReady := false, bErase := some r.2 }
                             else { p with aReady := false, aErase := some r.2 } }

/-- A boot store slot is marked empty (Table 14-4). -/
def emptySlot (b : Bool) (s : State) : State :=
  { s with upd := if b then { s.upd with slotB := {} } else { s.upd with slotA := {} } }

/-- What a failed run leads to (Table 14-4). Failed codewords of a die probe count as codewords that needed the whole ladder;
the cause of a DRAM pattern failure names the device by its bit of failed_devices (log entry 33). -/
def testFailed (t i c : Nat) (s : State) : State :=
  if t = 1 then retireEngine i .knownAnswer s
  else if t = 2 then retireCore i s
  else if t = 3 then setDie i { dieAt s i with deep := (dieAt s i).deep ++ List.replicate 16 (now s) } s
  else if t = 4 then
    let u := c / 10 % 2
    let x := chanAt s i
    let b := subAt x u
    if c % 10 ∈ b.failed then s
    else event 0x0701 [i, u, c % 10] (setSub i u { b with failed := b.failed ++ [c % 10] }
      { s with mem := { s.mem with devices := s.mem.devices + 1 } })
  else if t = 5 then eraseSet (decide (i = 1)) s
  else if t = 6 then emptySlot (decide (i = 1)) s
  else s

/-- A run of one instance has ended (R643, R644); a bank measurement brings its own result (R572). -/
def testRan (t i : Nat) (res : TestResult) (measure : Option BankMeasure) (s : State) : State :=
  let cause := if t = 0 then (if measure.isSome then none else some 5) else res
  let s1 := { s with ist := { s.ist with
    lastRun := tput s.ist.lastRun t (now s), runAt := tput s.ist.runAt (t * 1024 + i) s.clk.opNs,
    overdue := s.ist.overdue.filter (fun k => decide (k ≠ t * 1024 + i)) } }
  let s2 := if t = 0 then endMeasure measure (beginMeasure s1) else s1
  match cause with
  | none => s2
  | some c =>
    let s3 := event 0x0E01 [t, i, c] { s2 with ist := { s2.ist with
      failures := tput s2.ist.failures t (min 65535 (tget (fun _ => 0) s2.ist.failures t + 1)) } }
    testFailed t i c s3

/-- What a slice holds in each of its slots, and the number of its slots (Table 14-4). The work of a slice of several slots is
spread over them evenly. -/
def sliceUses (s : State) (t i : Nat) : List (Res × Nat) × Nat :=
  match t with
  | 1 => ([(.cipher, 204800)], 1)
  | 2 => ([(.core (roleOf s i), 1600)], 63)
  | 3 => ([(.die i, 180), (.channel (i / 16), 16384)], 4)
  | 4 => ([(.dram, 33289)], 63)
  | 5 => ((flushDies (decide (i = 1))).map (fun d => (.die d, 60)), 63)
  | _ => ([], 63)

/-- What a slice may hold of an amount in a slot: no more than test_slice_pct of the resource (R199, log entry 88). -/
def sliceShare (s : State) (slot : Nat) (r : Res) (n : Nat) : Nat := min n (grantable s false slot r * s.ante.testPct / 100)

/-- The first start from `slot` on at which the slice finds its share free in every slot; the count bounds the search. -/
def fitSlice (s : State) (p : Plot) (uses : List (Res × Nat)) (n : Nat) : Nat → Nat → Option Nat
  | 0, _ => none
  | k + 1, slot =>
    if p.last < slot + (n - 1) then none
    else if (List.range n).all (fun i => uses.all (fun u =>
        decide (sliceShare s (slot + i) u.1 u.2 ≤ room s s.ante.resv p (slot + i) u.1))) then some slot
    else fitSlice s p uses n k (slot + 1)

/-- A test slice obtains its antes, a yielding reservation on free capacity; a core to be tested drains first (R48, R198,
R640). -/
def takeSlice (t i : Nat) (s : State) : Option State :=
  let id := s.ante.nextId
  let from_ := slotOf (now s) + 1
  let p : Plot := { t := now s, last := stopAt s from_ (horizonEnd (now s)), d7 := false, qos := qosNone, who := .maint id }
  let (uses, n) := sliceUses s t i
  (fitSlice s p uses n 65535 from_).map (fun k =>
    { s with ist := { s.ist with draining := if t = 2 then some i else none }, ante := { s.ante with
        resv := s.ante.resv ++ (List.range n).flatMap (fun j => uses.map (fun u => resv p u.1 (k + j) (sliceShare s (k + j) u.1 u.2))),
        nextId := id + 1,
        maint := s.ante.maint ++ [{ id := id, kind := .testSlice, target := t * 1024 + i, first := k, slots := n, firm := false }] } })

/-- The service core runs fallback searches in place of test slices (R430). -/
def searching (s : State) : Bool :=
  s.cam.banks.any (fun p => decide (p.2.state = 2) &&
    !s.ante.maint.any (fun m => decide (m.kind = .bankRebuild ∧ m.target = p.1 ∧ m.first ≤ slotOf (now s))))

/-- The slice that has been placed (R640: one at a time). -/
def placedSlice (s : State) : Option MaintResv := s.ante.maint.find? (fun m => decide (m.kind = .testSlice))

/-- The slice whose last slot has passed ends with the run of its instance; one whose part is gone meanwhile ends without. -/
def endSlice (m : MaintResv) (res : TestResult) (measure : Option BankMeasure) (s : State) : State :=
  let t := m.target / 1024
  let i := m.target % 1024
  let s1 := dropMaint m.id { s with ist := { s.ist with draining := none } }
  if testable s t i then testRan t i res measure s1 else s1

/-- IST_SLICE (R640 to R642, R644): the most overdue instance has its slice placed, and a slice that has been placed runs to its
end. A core under test completes what was dispatched to it first (R25). -/
def execIstSlice (res : TestResult) (measure : Option BankMeasure) (s : State) : R :=
  whenRunning (guard (decide (s.boot.stage = 4 ∧ s.pwr.state = 0 ∧ s.pwr.sup = .normal) && !searching s) (fun s =>
    match placedSlice s with
    | some m =>
      if slotOf (now s) < m.first + m.slots ∨ (m.target / 1024 = 2 ∧ coreBusy s (m.target % 1024) = true) then s
      else endSlice m res measure s
    | none =>
      match mostOverdue (dueTests s) with
      | none => s
      | some (_, t, i) => (takeSlice t i s).getD s)) s

/-- TEST_OVERDUE (R643). -/
def execTestOverdue (target inst : Nat) (s : State) : R :=
  whenRunning (guard (decide (target < 7 ∧ inst < instancesOf target ∧ periodOf s target ≠ 0 ∧
      ranAt s target inst + 2 * periodOf s target * 3600000000000 ≤ s.clk.opNs ∧
      target * 1024 + inst ∉ s.ist.overdue)) (fun s =>
    event 0x0E02 [target, inst] { s with ist := { s.ist with overdue := s.ist.overdue ++ [target * 1024 + inst] } })) s

end Sys2Proof.Machine
end

