-- ==== Sys2Proof/Machine/PowerState.lean ====
section
/-! DEFINITION. The power states P0 to P3 (R203, R204, R525, R526, R587 to R591). -/

namespace Sys2Proof.Machine

open Sys2Proof

/-- A reservation that counts (R588): commands', row programs' and erases', and firm maintenance. -/
def countsSoon (s : State) (until_ : Nat) : Bool :=
  s.ante.resv.any (fun x => decide (x.slot * Config.slotNs ≤ until_)) ||
  s.ante.maint.any (fun m => m.firm && decide (m.first * Config.slotNs ≤ until_))

/-- A buffer-mode record waits to reach flash: a row assembled or running still holds one. -/
def recordWaits (s : State) : Bool :=
  !s.mem.held.isEmpty || s.med.melds.any (fun p => p.2.asm.any (fun x => x.dram.isSome))

/-- The module is idle, as seen for a state of exit latency `us` (R588). -/
def idleFor (s : State) (us : Nat) : Bool :=
  s.dlr.inflight.isEmpty && s.host.goQueue.isEmpty && s.host.boxes.all (fun b => !b.2.busy) &&
  s.host.tasks.all (fun t => !t.2.busy) && !recordWaits s && !countsSoon s (now s + us * 1000 + 1000000)

/-- Idle for a state (R588): P3 needs every client stage gone too (R526). -/
def idleState (s : State) (k : Nat) : Bool := idleFor s (Config.exitUs k) && (decide (k ≠ 3) || s.fab.stages.isEmpty)

/-- Since when the module has been idle for each state, as time goes on: a time starts when the conditions first hold and is
forgotten when they do not (R588). -/
def followIdle (s : State) : State :=
  { s with pwr := { s.pwr with idleAt :=
      ([1, 2, 3].filter (idleState s)).map (fun k => (k, (tfind s.pwr.idleAt k).getD (now s))) } }

/-- The state may be entered now: its timer has run, no timer up to it is 0, and so do max_exit_us and R589 permit. -/
def permitted (s : State) (k : Nat) : Bool :=
  let timer := fun (j : Nat) => if j = 1 then s.pwr.p1Us * 1000 else if j = 2 then s.pwr.p2Ms * 1000000 else s.pwr.p3S * 1000000000
  ((List.range k).all (fun j => decide (timer (j + 1) ≠ 0))) &&
  (match tfind s.pwr.idleAt k with
   | some t => decide (t + timer k ≤ now s)
   | none => false) &&
  decide (Config.exitUs k ≤ s.ante.maxExitUs) && (!s.fab.nodeValid || decide (k ≤ 1)) && idleState s k

/-- The deepest state that the module may enter now; 0 for none. -/
def deepest (s : State) : Nat := if permitted s 3 then 3 else if permitted s 2 then 2 else if permitted s 1 then 1 else 0

/-- The module enters P1, P2 or P3 (R203, R525, R588). -/
def enterState (k : Nat) (s : State) : State :=
  let s1 := if 2 ≤ k then refreshSelf true (drainDram s) else s
  { s1 with pwr := { s1.pwr with state := k, p1n := s1.pwr.p1n + b2n (decide (k = 1)), p2n := s1.pwr.p2n + b2n (decide (k = 2)),
                                 p3n := s1.pwr.p3n + b2n (decide (k = 3)) } }

/-- POWER_STATE_ENTRY (R203, R588, R589): the module has been idle for the timer of a deeper state. -/
def execPowerStateEntry (s : State) : R :=
  whenRunning (guard (decide (s.boot.stage = 4 ∧ s.pwr.sup = .normal ∧ s.pwr.exiting = none)) (fun s =>
    let s1 := followIdle s
    if s1.pwr.state < deepest s1 then enterState (deepest s1) s1 else s1)) s

/-- What comes due in a power state and starts the exit by itself (R590): a reservation that begins within the exit latency, or a
bank measurement. -/
def exitDue (s : State) : Bool :=
  decide (s.pwr.state ≠ 0) && (countsSoon s (now s + Config.exitUs s.pwr.state * 1000) ||
    (targetRuns s 0 && decide (dueAt s 0 0 ≤ s.clk.opNs)))

/-- POWER_STATE_EXIT (R204, R590). -/
def execPowerStateExit (s : State) : R := whenRunning startExit s

/-- Yielding maintenance that would have begun in the power state or its exit lies past the exit (R588). -/
def yieldPast (s : State) : State :=
  let late := fun (m : MaintResv) => !m.firm && !m.started && decide (m.first ≤ slotOf (now s))
  { s with ante := { s.ante with
      maint := s.ante.maint.map (fun m => if late m then { m with first := slotOf (now s) + 1 } else m),
      yielded := s.ante.yielded + (s.ante.maint.filter late).length } }

/-- POWER_STATE_EXIT_COMPLETE (R204, R369): P0, with the frames kept in the rings delivered; after P3 every channel has been
retrained (Table 10-7). -/
def execPowerStateExitComplete (s : State) : R :=
  whenRunning (fun s =>
    match s.pwr.exiting with
    | none => s
    | some t =>
      if now s < t then s
      else
        let deep := decide (s.pwr.state = 3)
        let s1 := yieldPast (refreshSelf false { s with pwr := { s.pwr with state := 0, exiting := none, idleAt := [] } })
        { s1 with
          mem := { s1.mem with chans := s1.mem.chans.map (fun p => if deep && decide (p.2.state = 1) then (p.1, { p.2 with trained := now s }) else p) } }) s

end Sys2Proof.Machine
end

