-- ==== Sys2Proof/Machine/Update.lean ====
section
/-! DEFINITION. Firmware update: the manifest and its judgement, staging, activation, trial and rollback (ch 13). -/

namespace Sys2Proof.Machine

open Sys2Proof

/-! ## Slots and parts (R595 to R597) -/

/-- The part types (Table 13-1). -/
def partTypes : List Nat := [1, 2, 3, 4, 5, 6, 7, 8, 9, 10, 11]

/-- Largest size of a part in MiB (Table 13-1). -/
def partMax (k : Nat) : Nat := [0, 32, 32, 32, 16, 16, 4, 4, 4, 8, 4, 4].getD k 0

/-- A cold part (Table 13-1). -/
def coldPart (k : Nat) : Bool := decide (9 ≤ k)

/-- A part of the bundle the part left the factory with. -/
def factoryPart (k : Nat) : Part :=
  { kind := k, version := (Config.factoryPart k).toNat, offset := 0, length := 0, digest := 0,
    ranges := (partTypes.filter (fun u => decide (u ≠ k))).map (fun u => (u, (Config.factoryLow k u).toNat, (Config.factoryHigh k u).toNat)) }

/-- The parts of a slot; a slot that no update has staged and that is not empty holds the factory's (log entry 34). -/
def slotParts (x : Slot) : List Part := if x.empty then [] else if x.parts = [] then partTypes.map factoryPart else x.parts

/-- bundle_version of a slot; 0 when it is empty (Table 13-8). -/
def slotVersion (x : Slot) : Nat := if x.empty then 0 else if x.parts = [] then Config.factoryVersion.toNat else x.version

/-- The slot that the boot record names as active, and the other. -/
def activeSlot (u : Update) : Slot := if u.activeB then u.slotB else u.slotA
def otherSlot (u : Update) : Slot := if u.activeB then u.slotA else u.slotB

/-- The boot record that an update's state stands for. -/
def bootRec (u : Update) : BootRec := { activeB := u.activeB, trial := u.trial, fails := u.fails }

/-- The boot record is rewritten where it changes: the copies are written alternately, so that the one that stood before is the
older copy now (R596). -/
def recorded (u v : Update) : Update :=
  if bootRec u = bootRec v then v else { v with older := bootRec u, recSeq := u.recSeq + 1 }

/-- The older copy is the boot record, the newer one's CRC having failed (R596). -/
def olderRecord (u : Update) : Update :=
  { u with activeB := u.older.activeB, trial := u.older.trial, fails := u.older.fails,
           state := if u.state = .trial ∧ u.older.trial = false then .idle else u.state }

/-- The other slot becomes `x`. -/
def setOther (x : Slot) (u : Update) : Update := if u.activeB then { u with slotA := x } else { u with slotB := x }

/-! ## The manifest (R598 to R601) -/

/-- The little-endian field of `n` bytes at byte `a`. -/
def leAt (b : Bytes) (a n : Nat) : Nat := leNat ((b.drop a).take n)

/-- A part descriptor (Table 13-3). -/
def partOf (b : Bytes) : Part :=
  { kind := leAt b 0 1, version := leAt b 4 4, offset := leAt b 8 4, length := leAt b 12 4, digest := beNat ((b.drop 16).take 48),
    ranges := (List.range (leAt b 1 1)).map (fun j => (leAt b (64 + 12 * j) 1, leAt b (68 + 12 * j) 4, leAt b (72 + 12 * j) 4)) }

/-- Reserved fields of a part descriptor are 0 and its range count is at most 15. -/
def partReserved (b : Bytes) : Bool :=
  decide (leAt b 2 2 = 0 ∧ leAt b 1 1 ≤ 15 ∧ leAt b 244 12 = 0) && (List.range 15).all (fun j => decide (leAt b (65 + 12 * j) 3 = 0))

/-- Bytes of a manifest, by its counts (R598). -/
def manifestSize (b : Bytes) : Nat := 160 + 256 * leAt b 6 1 + 4 * leAt b 7 1 + 96

/-- The descriptors of a manifest. -/
def descriptors (b : Bytes) : List Bytes := (List.range (leAt b 6 1)).map (fun i => (b.drop (160 + 256 * i)).take 256)

/-- A manifest's fields (Tables 13-2, 13-3). -/
def manifestOf (b : Bytes) : Manifest :=
  let n := leAt b 6 1
  { bundle := leAt b 24 4, rollback := leAt b 28 1 % 128, cold := bit (leAt b 28 1) 7, windowUs := leAt b 29 3,
    length := leAt b 36 4, size := manifestSize b, parts := (descriptors b).map partOf,
    pages := (List.range (leAt b 7 1)).map (fun i => (leAt b (160 + 256 * n + 4 * i) 2, leAt b (162 + 256 * n + 4 * i) 2)) }

/-- Parts that do not overlap each other. -/
def disjoint (l : List Part) : Bool :=
  l.all (fun p => l.all (fun q => decide (p.kind = q.kind ∨ p.offset + p.length ≤ q.offset ∨ q.offset + q.length ≤ p.offset)))

/-- The structure of a manifest (R599, step 1). -/
def structureOk (b : Bytes) : Bool :=
  let m := manifestOf b
  decide (256 ≤ b.length ∧ b.length = m.size ∧ leAt b 0 4 = 0x4D474C50 ∧ leAt b 4 2 = 1 ∧ 1 ≤ leAt b 6 1 ∧ leAt b 6 1 ≤ 11 ∧
    leAt b 7 1 ≤ 240 ∧ leAt b 8 16 = asciiNat "PLG5120-T64" ∧ m.rollback ≤ 64 ∧ 20000 ≤ m.windowUs ∧ m.windowUs ≤ 500000 ∧
    leAt b 32 2 / 4 = 0 ∧ m.length ≤ 125829120 ∧ m.size ≤ m.length ∧ leAt b 137 23 = 0) &&
  (descriptors b).all partReserved &&
  m.parts.all (fun p => decide (p.kind ∈ partTypes ∧ 1 ≤ p.length ∧ p.length ≤ partMax p.kind * 1048576 ∧ m.size ≤ p.offset ∧
    p.offset + p.length ≤ m.length)) &&
  decide ((m.parts.map (·.kind)).Nodup) && disjoint m.parts

/-- The key and the signature of a manifest hold (R599, step 2). -/
def signatureOk (b : Bytes) : Bool :=
  let k := leAt b 32 1 % 4
  let pub := (b.drop 40).take 97
  let body := b.take (b.length - 96)
  let sig := b.drop (b.length - 96)
  decide (sha384 pub = (Config.otpKeyHash k).toNat) && !Config.otpKeyRevoked k && decide (beAt pub 0 1 = 4) &&
    ecdsaVerify (sha384 body) (beAt sig 0 48) (beAt sig 48 48) (beAt pub 1 48) (beAt pub 49 48)

/-- Every part of the set names each of the other ten types in its ranges, each range holding the version in the set; the
bundle speaks Walin version 1; a cold part asks for a cold start (R600). -/
def combinationOk (b : Bytes) (set : List Part) : Bool :=
  let m := manifestOf b
  set.all (fun p => partTypes.all (fun u => decide (u = p.kind) || p.ranges.any (fun r => decide (r.1 = u))) &&
    p.ranges.all (fun r => match set.find? (fun q => decide (q.kind = r.1)) with
      | some q => decide (r.2.1 ≤ q.version ∧ q.version ≤ r.2.2)
      | none => false)) &&
  bit (leAt b 34 2) 1 && (m.cold || !m.parts.any (fun p => coldPart p.kind))

/-- The durable set of pages (R601). -/
def durablePages : List Nat :=
  [0x0104, 0x0106, 0x0201, 0x0400, 0x0500, 0x0503, 0x0505, 0x0600, 0x0601, 0x0700, 0x0900, 0x0901]

/-- The pages whose format a manifest changes: page and new format (R601). -/
def changedPages (s : State) (m : Manifest) : List (Nat × Nat) := m.pages.filter (fun p => decide (p.2 ≠ pageFormat s p.1))

/-- The resulting set: the manifest's parts, and the active slot's of every type it omits (R600). -/
def resultSet (u : Update) (m : Manifest) : List Part :=
  m.parts ++ (slotParts (activeSlot u)).filter (fun p => decide (p.kind ∉ m.parts.map (·.kind)))

/-- The judgement of a manifest (R599): the first failure's status. -/
def judge (s : State) (b : Bytes) : Nat :=
  let m := manifestOf b
  if structureOk b = false then stPageField
  else if signatureOk b = false then stSignature
  else if m.rollback < s.upd.counter then stRollback
  else if combinationOk b (resultSet s.upd m) = false ∨
      (changedPages s m).any (fun p => decide (p.1 ∈ durablePages)) = true then stCombination
  else stOk

/-! ## Update commands (R602, R603, Table 13-4) -/

/-- An update command of a managing port; its status is that of the last update step (Table 13-8). -/
def updateRow (box code : Nat) (f : Mailbox → State → Nat × Bytes × State) (s : State) : R :=
  whenRunning (takeBox box (hasCode code) true (fun x s =>
    let r := f x s
    finishBox box r.1 r.2.1 { r.2.2 with upd := { r.2.2.upd with last := r.1 } })) s

/-- UPDATE_BEGIN (R597, R599). -/
def execUpdateBegin (box : Nat) (s : State) : R :=
  updateRow box 0x0050 (fun x s =>
    let b := boxInput x x.inLen
    if s.upd.state ≠ .idle ∨ s.upd.trial then (stBusy, [], s)
    else
      let st := judge s b
      if st = stOk then
        (stOk, [], { s with upd := setOther {} { s.upd with state := .receiving, man := manifestOf b, image := [], received := 0 } })
      else (st, [], s)) s

/-- Bytes are put into an image; a byte never written stays absent. -/
def imagePut : Tbl Byte → Nat → Bytes → Tbl Byte
  | m, _, [] => m
  | m, a, b :: t => imagePut (tput m a b) (a + 1) t

/-- Bytes of an image that belong to a part. -/
def partBytes (m : Manifest) (image : Tbl Byte) : Nat :=
  (image.filter (fun c => m.parts.any (fun p => decide (p.offset ≤ c.1 ∧ c.1 < p.offset + p.length)))).length

/-- UPDATE_DATA (R603). -/
def execUpdateData (box : Nat) (s : State) : R :=
  updateRow box 0x0051 (fun x s =>
    let b := boxInput x x.inLen
    let off := leAt b 0 8
    let d := b.drop 8
    if s.upd.state ≠ .receiving then (stQueue, [], s)
    else if x.inLen < 8 ∨ off < s.upd.man.size ∨ s.upd.man.length < off + d.length then (stLength, [], s)
    else
      let im := imagePut s.upd.image off d
      (stOk, [], { s with upd := { s.upd with image := im, received := partBytes s.upd.man im } })) s

/-- Every byte of every part has been written. -/
def imageWhole (m : Manifest) (image : Tbl Byte) : Bool := decide (partBytes m image = sumOf (fun p => p.length) m.parts)

/-- Every part of the image agrees with its digest. -/
def digestsHold (m : Manifest) (image : Tbl Byte) : Bool :=
  m.parts.all (fun p => decide (sha384 ((image.filter (fun c => decide (p.offset ≤ c.1 ∧ c.1 < p.offset + p.length))).map (·.2)) = p.digest))

/-- UPDATE_FINISH (R603): the other slot holds a complete set. -/
def execUpdateFinish (box : Nat) (s : State) : R :=
  updateRow box 0x0052 (fun _ s =>
    let m := s.upd.man
    if s.upd.state ≠ .receiving then (stQueue, [], s)
    else if imageWhole m s.upd.image = false then (stLength, [], s)
    else if digestsHold m s.upd.image = false then
      (stSignature, [], { s with upd := { s.upd with state := .idle, image := [], received := 0 } })
    else
      let x : Slot := { version := m.bundle, empty := false, rollback := m.rollback, parts := resultSet s.upd m }
      (stOk, [], { s with upd := setOther x { s.upd with state := .staged, image := [] } })) s

/-- Slots of the activation window (R604). -/
def windowSlots (m : Manifest) : Nat := ceilDiv (m.windowUs * 1000) Config.slotNs

/-- The activation window that has been placed. -/
def placedWindow (s : State) : Option MaintResv := s.ante.maint.find? (fun m => decide (m.kind = .activation))

/-- A placed window is released. -/
def dropWindow (s : State) : State :=
  match placedWindow s with
  | some m => dropMaint m.id { s with upd := { s.upd with window := none } }
  | none => s

/-- UPDATE_ACTIVATE (R604, R610): a window is asked for, or the boot record names the staged slot for the next cold start. -/
def execUpdateActivate (box : Nat) (s : State) : R :=
  updateRow box 0x0053 (fun _ s =>
    if s.upd.state ≠ .staged then (stNothing, [], s)
    else if s.upd.man.cold then
      let u := { s.upd with state := .scheduled, activeB := !s.upd.activeB, trial := true }
      (stOk, natLe 4 0, { s with upd := recorded s.upd u })
    else
      let s1 := reserveMaint .activation 0 (windowSlots s.upd.man) s
      let first := match placedWindow s1 with | some m => m.first | none => 0
      (stOk, natLe 2 (first % 65536) ++ natLe 2 (windowSlots s.upd.man),
       raiseAll 6 { s1 with upd := { s1.upd with state := .scheduled, window := some first, loaded := false } })) s

/-- A commit (R611): the anti-rollback counter never falls. -/
def commitUpdate (s : State) : State :=
  let u := { s.upd with state := .idle, trial := false, saved := [], counter := max s.upd.counter (activeSlot s.upd).rollback }
  { s with upd := recorded s.upd u }

/-- UPDATE_COMMIT (R611). -/
def execUpdateCommit (box : Nat) (s : State) : R :=
  updateRow box 0x0054 (fun _ s => if s.upd.state = .trial then (stOk, [], commitUpdate s) else (stNothing, [], s)) s

/-- UPDATE_ABORT (R603): IDLE again, a placed window released, a boot record rewritten for a cold start put back. -/
def execUpdateAbort (box : Nat) (s : State) : R :=
  updateRow box 0x0055 (fun _ s =>
    match s.upd.state with
    | .idle => (stNothing, [], s)
    | .trial => (stNothing, [], s)
    | .activating => (stBusy, [], s)
    | .scheduled =>
      let u := if s.upd.man.cold then recorded s.upd { s.upd with activeB := !s.upd.activeB, trial := false } else s.upd
      (stOk, [], dropWindow { s with upd := { u with state := .idle, loaded := false } })
    | .receiving => (stOk, [], { s with upd := { s.upd with state := .idle, image := [], received := 0 } })
    | .staged => (stOk, [], { s with upd := { s.upd with state := .idle } })) s

/-- Code of an update state (Table 13-8). -/
def updCode : UpdState → Nat
  | .idle => 0 | .receiving => 1 | .staged => 2 | .scheduled => 3 | .activating => 4 | .trial => 5

/-- The 32 bytes of Table 13-8 as one number. -/
def updRegisters (u : Update) : Nat :=
  pack [(0, 3, updCode u.state), (3, 1, b2n u.activeB), (4, 2, u.fails), (8, 7, u.counter), (16, 16, u.last),
        (32, 32, slotVersion (activeSlot u)), (64, 32, slotVersion (otherSlot u)), (96, 32, u.received), (128, 32, u.man.length),
        (160, 16, (u.window.getD 0) % 65536), (176, 16, u.reset.length), (192, 32, u.rollbacks)]

/-- UPDATE_STATUS (R619); it is no step of an update and leaves last_status. -/
def execUpdateStatus (box : Nat) (s : State) : R :=
  whenRunning (takeBox box (hasCode 0x0056) true (fun _ s =>
    finishBox box stOk (natLe 32 (updRegisters s.upd) ++ s.upd.reset.flatMap (natLe 2)) s)) s

/-! ## Activation (R605 to R610) -/

/-- The update ends with ACTIVATION_FAILED. -/
def activationFailed (s : State) : State :=
  { s with upd := { s.upd with state := .idle, last := stActivation, loaded := false } }

/-- ACTIVATION_PRELOAD (R605). -/
def execActivationPreload (digestsOk : Bool) (s : State) : R :=
  whenRunning (guard (decide (s.upd.state = .scheduled) && !s.upd.man.cold) (fun s =>
    if digestsOk then { s with upd := { s.upd with loaded := true } } else dropWindow (activationFailed s))) s

/-- ACTIVATION_WINDOW_START (R606): at the window's first slot, with the parts loaded. -/
def execActivationWindowStart (s : State) : R :=
  whenRunning (guard (decide (s.upd.state = .scheduled) && s.upd.loaded && inActivation s)
    (fun s => { s with upd := { s.upd with state := .activating } })) s

/-- Page `p` is written with `v`, where the page takes it. -/
def pagePut (p v : Nat) (s : State) : State :=
  match pageWrite s p 0 v with
  | some s1 => s1
  | none => s

/-- The pages outside the durable set that hold settings (R601): what they held before an activation is kept for a rollback. -/
def trialPages : List Nat :=
  [0x0105, 0x0107, 0x0300, 0x0301, 0x0302, 0x0401, 0x0502, 0x0504, 0x0701, 0x0800, 0x0A00, 0x0B00, 0x0B01, 0x0B02, 0x0B03]

/-- A page is reset to its defaults, as at shipment; its format becomes `f` (R601). -/
def resetPage (p f : Nat) (s : State) : State :=
  let s1 := pagePut p (pageRead State.reset p 0) s
  { s1 with upd := { s1.upd with reset := s1.upd.reset ++ [p], formats := tset (fun _ => 1) s1.upd.formats p f } }

/-- The pages as they stand before an activation: page, format and contents (R613). -/
def savedPages (s : State) (changed : List Nat) : List (Nat × Nat × Nat) :=
  (trialPages ++ changed.filter (fun p => decide (p ∉ trialPages))).map (fun p => (p, pageFormat s p, pageRead s p 0))

/-- The pages of R601 are reset, and the trial begins. -/
def beginTrial (s : State) : State :=
  let l := changedPages s s.upd.man
  let s1 := each (fun p => resetPage p.1 p.2) l { s with upd := { s.upd with reset := [], saved := savedPages s (l.map (·.1)) } }
  { s1 with upd := { s1.upd with state := .trial, trial := true, trialAt := s1.clk.opNs } }

/-- ACTIVATION_MIDPOINT (R606, R607): `ready` says that every core, engine and SerDes has reported. The window goes on to its
end. -/
def execActivationMidpoint (ready : Bool) (s : State) : R :=
  whenRunning (guard (decide (s.upd.state = .activating) && (match placedWindow s with
      | some m => decide ((2 * m.first + m.slots) * Config.slotNs ≤ 2 * now s)
      | none => false)) (fun s =>
    if ready then
      let s1 := beginTrial { s with upd := { s.upd with activeB := !s.upd.activeB, last := stOk } }
      { s1 with upd := recorded s.upd s1.upd }
    else
      let s1 := activationFailed s
      { s1 with upd := { s1.upd with rollbacks := s1.upd.rollbacks + 1, switched := true } })) s

/-- The steps of the flush with the supply present, then a cold start (R675); pending records are written first (log entry
81). -/
def restart (cause : Nat) (inp : BootInput) (s : State) : State := coldStart cause inp (closeFlush (beginFlush (writePending s)))

/-- ACTIVATION_WINDOW_END (R607): a restored set that is not ready leads to a cold start from the active slot; one whose new
set never started has failed. -/
def execActivationWindowEnd (ready : Bool) (s : State) : R :=
  whenRunning (fun s =>
    match placedWindow s with
    | none => s
    | some m =>
      if slotOf (now s) < m.first + m.slots then s
      else
        let s1 := dropWindow s
        let s2 := if s1.upd.state = .scheduled ∨ s1.upd.state = .activating then activationFailed s1 else s1
        let s3 := { s2 with upd := { s2.upd with switched := false } }
        if s.upd.switched ∧ ready = false then restart 2 s.boot.input s3 else s3) s

/-! ## Trial and rollback (R611 to R613) -/

/-- AUTO_COMMIT (R611). -/
def execAutoCommit (s : State) : R :=
  whenRunning (guard (decide (s.upd.state = .trial ∧ s.upd.autoH ≠ 0 ∧ s.boot.stage = 4 ∧ s.upd.fails = 0 ∧
    s.upd.trialAt + s.upd.autoH * 3600000000000 ≤ s.clk.opNs)) commitUpdate) s

/-- What a saved page holds that a rollback writes back: a calendar is not set anew by it. -/
def savedValue (p v : Nat) : Nat := if p = 0x0B01 then setBits v 63 32 0xFFFFFFFF else v

/-- A rollback from trial restores the pages as they stood before the activation (R613). -/
def rollbackPages (s : State) : State :=
  let s1 := each (fun x s => pagePut x.1 (savedValue x.1 x.2.2) s) s.upd.saved s
  { s1 with upd := { s1.upd with formats := s.upd.saved.foldl (fun t x => tset (fun _ => 1) t x.1 x.2.1) s1.upd.formats,
                                 saved := [] } }

/-- ROM recovery is entered (R614). -/
def romRecovery (s : State) : State := { s with boot := { s.boot with stage := 0xE } }

/-- The active slot's set boots: its parts verify, and its rollback index is not below the counter (R611, R612). -/
def slotBoots (s : State) : Bool :=
  s.boot.input.partsOk && !(activeSlot s.upd).empty && decide (s.upd.counter ≤ (activeSlot s.upd).rollback)

/-- A boot has failed (R612): the third failure in a row makes the other slot active, and the third of that slot leads to ROM
recovery; otherwise the module starts again with the same findings (log entry 35). -/
def bootFailed (s : State) : State :=
  let u := recorded s.upd { s.upd with fails := s.upd.fails + 1, trialAt := s.clk.opNs }
  if u.fails < 3 then coldStart 2 s.boot.input (writePending { s with upd := u })
  else if u.bothBad then romRecovery { s with upd := { u with fails := 3 } }
  else
    let v := recorded s.upd
      { u with fails := 0, activeB := !u.activeB, trial := false, bothBad := true,
               state := if u.trial then .idle else u.state }
    let s1 := { s with upd := v }
    let s2 := coldStart 2 s.boot.input (writePending (if s.upd.state = .trial then rollbackPages s1 else s1))
    event 0x0D01 [] { s2 with upd := { s2.upd with rollbacks := 1 } }

/-- BOOT_TIMEOUT (R612): boot_stage 4 was not reached within boot_timeout_s of the cold start. -/
def execBootTimeout (s : State) : R :=
  whenRunning (guard (decide (s.boot.stage < 4 ∧ s.boot.coldOp + s.upd.bootS ≤ opSeconds s)) bootFailed) s

end Sys2Proof.Machine
end

