-- ==== Sys2Proof/Machine/Boot.lean ====
section
/-! DEFINITION. From the cold start to boot_stage 4 (Table 15-12): the mask ROM, power-on training and tests, recovery after
a flush or a lost memory channel, and the commands carried through it (R60, R61, R405 to R408, R481 to R486, R585, R612). -/

namespace Sys2Proof.Machine

open Sys2Proof

/-! ## boot_stage 0 to 3 -/

/-- Eight free windows from `lo` on, in 1/64 UI, drawn one after the other: a byte lane's read and write window each. -/
def freshEyes (lo span : Nat) : Nat → State → List (Nat × Nat) × State
  | 0, s => ([], s)
  | n + 1, s =>
    let s1 := drawn s
    let rest := freshEyes lo span n (drawn s1)
    ((lo + fresh 6 s % span, lo + fresh 6 s1 % span) :: rest.1, rest.2)

/-- A channel is trained at power-on (R518). The windows' widths are free: at least 0.30 UI, 20 of 64, where the training passes,
below it on a failing byte lane (log entry 1). -/
def trainChannel (bad : Bool) (c : Nat) (s : State) : State :=
  let l := freshEyes 20 45 (if bad then 7 else 8) s
  let e := freshEyes 0 20 (if bad then 1 else 0) l.2
  setChan c { chanAt e.2 c with state := 1, trained := now e.2, eyes := l.1 ++ e.1 } e.2

/-- A noise source fails its start-up test (R552, R554, R555). -/
def noiseAtStart (inp : BootInput) (s : State) : State :=
  let s1 := { s with xts := { s.xts with aOk := inp.noiseA, bOk := inp.noiseB } }
  let s2 := if inp.noiseA && inp.noiseB then s1 else event 0x0801 [] s1
  if inp.noiseA || inp.noiseB then s2 else event 0x0801 [] s2

/-- boot_stage 1 ends: every channel trained or failed, every engine and generator tested (R518, R556). A generator that
fails its known-answer test leaves the module in boot_stage 0xF (Table 05-6). -/
def endPowerOnTraining (s : State) : State :=
  let inp := s.boot.input
  let s1 := each (fun c => trainChannel (decide (c ∈ inp.badChannels)) c) (List.range 12) s
  let s2 := each failChannel (inp.badChannels.filter (fun c => decide (c < 12))) s1
  let s3 := each (fun n => retireEngine n .knownAnswer) inp.badEngines s2
  let s4 := noiseAtStart inp s3
  { s4 with boot := { s4.boot with stage := if inp.generatorsOk then 2 else 0xF } }

/-- The clearing of the calendar at the cold start is recorded once the recorder runs (R634). -/
def recordCalendar (s : State) : State :=
  match s.evr.calOld with
  | none => s
  | some c => event 0x0004 [c, 0] { s with evr := { s.evr with calOld := none } }

/-- boot_stage 3 begins: Ostrune runs, and a bundle activated by the cold start is in trial (R610, R611). -/
def enterRecovery (s : State) : State :=
  let s1 := recordCalendar { s with boot := { s.boot with stage := 3 } }
  let s2 := if s1.upd.trial && decide (s1.upd.state = .scheduled) then beginTrial s1 else s1
  if s2.boot.recover then { s2 with med := { s2.med with recovery := 1 } } else s2

/-- boot_stage 4 (R612, Table 08-10): the failed boots are forgotten, and each FAILED bank is to be rebuilt once more. -/
def reachFour (s : State) : State :=
  let failed := (List.range 16).filter (fun b => decide ((bankAt s b).state = 3))
  each (fun b => reserveMaint .bankRebuild b 63) failed
    { s with boot := { s.boot with stage := 4, recover := false, chanFail := none },
             upd := recorded s.upd { s.upd with fails := 0, bothBad := false },
             med := { s.med with recovery := 0, progress := 0 }, idx := { s.idx with mode := 0 } }

/-- A flush set that holds no flush and is not being erased is found erased and ready (R479, R582); what a loss of supply left
is for recovery to see to. -/
def findSets (s : State) : State :=
  if s.boot.recover then s else
    retarget { s with pwr := { s.pwr with
      aReady := s.pwr.aReady || (s.pwr.aErase.isNone && decide (s.pwr.written ≠ some false)),
      bReady := s.pwr.bReady || (s.pwr.bErase.isNone && decide (s.pwr.written ≠ some true)) } }

/-- The mask ROM reads the boot record: the newer copy, or the older where the newer one's CRC fails (R596). -/
def readRecord (s : State) : State :=
  if s.boot.input.recordOk && !s.boot.input.newerOk then
    { s with upd := olderRecord s.upd, boot := { s.boot with input := { s.boot.input with newerOk := true } } }
  else s

/-- One step of the boot: what the power-on sequence does next (Table 15-12, R612, R614); recovery has commands of its
own. -/
def bootStep (s : State) : State :=
  match s.boot.stage with
  | 0 =>
    let s := readRecord (railsUp s)
    if s.boot.input.recovLow ∨ s.boot.input.recordOk = false then romRecovery s
    else if slotBoots s = false then bootFailed s
    else findSets { s with boot := { s.boot with stage := 1 } }
  | 1 => endPowerOnTraining s
  | 2 => enterRecovery s
  | 3 => if s.boot.recover ∨ s.boot.chanFail.isSome then s else reachFour s
  | _ => s

/-! ## Rebuild by full scan (R408, R483 to R486) -/

/-- One record that the scan reports, with its place. -/
structure Scanned where
  loc    : Nat
  inDram : Bool
  item   : Record
  deriving DecidableEq, Repr

/-- Of two records of one object the one with the higher version stays; of equal versions the later one in the scan, whose
media address is higher (R408, R484). A record of the protected region takes its turn after the media. -/
def scanPut (x : Scanned) : List Scanned → List Scanned
  | [] => [x]
  | y :: t =>
    if y.item.ns = x.item.ns ∧ y.item.key = x.item.key then
      (if y.item.version < x.item.version ∨ (y.item.version = x.item.version ∧ x.inDram = false) then x else y) :: t
    else y :: scanPut x t

/-- Media records that the scan finds: VALUE and TOMBSTONE records of melds not yet erased. A meld that died by copying is
in no DEATH record and its data stand elsewhere. -/
def scanMedia (s : State) : List Scanned :=
  (s.med.flash.filter (fun p => decide (p.2.kind ≤ 1) &&
    (match (meldAt s (p.1 / Config.meldSpan)).state with
     | .free => false
     | .open_ => true
     | .full => true
     | .dead => (meldAt s (p.1 / Config.meldSpan)).bySweep
     | .erasing => (meldAt s (p.1 / Config.meldSpan)).bySweep))).map (fun p => { loc := p.1, inDram := false, item := p.2 })

/-- Records of the protected region. -/
def scanHeld (s : State) : List Scanned := s.mem.held.map (fun p => { loc := p.1, inDram := true, item := p.2 })

/-- What the scan leaves for an object: nothing for a tombstone, for a record in the scope of a later hint, or for one in a
DEAD meld (R408, R484). -/
def scanKeeps (s : State) (x : Scanned) : Bool :=
  decide (x.item.kind = 0) &&
  (x.inDram || (!deadAddr s x.loc && !s.med.hints.any (fun h => hintCovers h x.item)))

/-- Counts of a namespace, from the index (Table 03-3). -/
def recountNs (s : State) (p : Nat × Namespace) : Nat × Namespace :=
  let l := (allEntries s).filterMap (fun q => match recordAt s q.2 with
    | some r => if r.ns = p.1 then some r.value.length else none
    | none => none)
  (p.1, { p.2 with objects := l.length, bytes := sumOf id l })

/-- Records whose header could not be found are lost, with an event that gives their addresses (R486). -/
def loseRecord (a : Nat) (s : State) : State :=
  match tfind s.med.flash a with
  | none => s
  | some r => event 0x0605 [a, a + r.units - 1] { s with med := { s.med with flash := tdel s.med.flash a } }

/-- The codewords of pages that can neither be read nor be repaired are lost (R452, R483). -/
def losePages (l : List LostPage) (s : State) : State :=
  let gone := l.filter (fun x => x.dataLost && searched l x.meld (meldAt s x.meld) (x.page / (12 * width (meldAt s x.meld))))
  { s with med := { s.med with lost := s.med.lost ++ gone.flatMap (fun x =>
      (List.range 4).map (fun c => x.meld * Config.meldSpan + 32 * x.page + 8 * c)) } }

/-- The index is rebuilt from the footers of every page, and in rows that they do not cover from the header search (R483 to R486);
the checkpoint starts at group 0, and the delta log restarts. -/
def rebuildIndex (found : RecoveryInput) (s0 : State) : State :=
  let search := searchAll s0 found.lost
  let s := each loseRecord (lostRecords s0 found.lost search.1) (losePages found.lost s0)
  let l := (scanMedia s ++ scanHeld s).foldl (fun t x => scanPut x t) []
  let blank : Index := { s.idx with slots := [], stash := [], victims := [], deltas := [], images := [], ckptGroup := 0,
                                    failed := [], mode := 3 }
  let s1 := { s with idx := blank, med := { s.med with scanPages := Config.scanPages, syncFalse := s.med.syncFalse + search.2.1,
                                                       syncPages := s.med.syncPages + search.2.2 } }
  let s2 := each (fun x => insertNew x.item.digest (entryOf x.item.digest x.item x.loc x.inDram)) (l.filter (scanKeeps s)) s1
  { s2 with nss := s2.nss.map (recountNs s2), idx := { s2.idx with mode := 0 } }

/-! ## Rows that were being assembled (R481, step 6) -/

/-- A record of a row that did not reach flash: one of the protected region goes back to its stream with its kitty bytes,
and a system record is written again. Medium-mode and relocation data are given up (R584). -/
def returnRecord (stream : Nat) (x : Placed) (s : State) : State :=
  match x.medium, x.src with
  | false, none => placeAgain stream x s
  | _, _ => s

/-- The rows in assembly are taken apart; the meld goes on behind its last row. -/
def takeApart (p : Nat × Meld) : Nat × Meld :=
  (p.1, { p.2 with asm := [], programs := [], asmAt := none, headers := 0, lastEnd := 0, next := p.2.row * rowUnits p.2 })

/-- A medium-mode shard that its row never brought to flash is not held. -/
def dropUnlanded (gone : List Placed) (s : State) : State :=
  let lost := fun (p : Pending) => gone.any (fun x => x.medium && decide (x.owner = some (p.session, p.seq)))
  { s with fab := { s.fab with pend := s.fab.pend.filter (fun p => !lost p) } }

/-- Records in assembly return to their streams. -/
def returnRows (s : State) : State :=
  let l := s.med.melds.filter (fun p => decide (p.2.asm ≠ [] ∨ p.2.programs ≠ []))
  let all := l.flatMap (fun p => p.2.asm)
  let s1 := dropUnlanded all { s with med := { s.med with melds := s.med.melds.map (fun p =>
    if p.2.asm = [] ∧ p.2.programs = [] then p else takeApart p) } }
  each (fun p s => each (returnRecord p.2.stream) p.2.asm s) l s1

/-- What only the protected region held is lost with an incomplete flush (R585). -/
def loseHeld (s : State) : State :=
  let m := s.med.melds.map (fun p => if p.2.asm = [] ∧ p.2.programs = [] then p else takeApart p)
  { s with mem := { s.mem with held := [] },
           med := { s.med with melds := m, moves := s.med.moves.filter (fun x => !x.2.1) },
           fab := { s.fab with pend := s.fab.pend.filter (fun p => p.medium) },
           pwr := { s.pwr with pending := 0, exposed := 0 } }

/-! ## Carried commands (R60, R61) -/

/-- The whole input of a carried write was in the protected region, in its entry or read since (R61). The data of a medium-mode
write are there only once they are on flash (R481). -/
def inputWhole (f : InFlight) : Bool :=
  (match f.phase with
   | .planned => true
   | _ => f.cmd.data.isSome || decide (f.cmd.length = 0 ∨ f.cmd.opcode = 0x03)) &&
  (!f.medium || (match f.prot with | some p => decide (p.decided = some true) && (f.placed.isNone || f.landed) | none => false))

/-- A carried command has been worked out and changes nothing. -/
def plannedIdle (f : InFlight) : Bool :=
  match f.phase with
  | .planned => !hasEffect f.plan
  | _ => false

/-- A protected write that was decided FABRIC_UNREACHABLE before the loss (R314). -/
def turnedDown (f : InFlight) : Bool := match f.prot with | some p => decide (p.decided = some false) | none => false

/-- The status of a carried write that is not applied: INPUT_LOST for incomplete input, and for a protected write decided against
before the loss what it was decided to be (R61, R314, R481). -/
def unapplied (lost : Bool) (f : InFlight) : Option Nat :=
  if lost then some stInputLost
  else if isWrite f.cmd.opcode = false ∨ plannedIdle f = true then none
  else if turnedDown f then some (undecided f.plan)
  else if inputWhole f then none
  else some stInputLost

/-- What a carried command answers and does. -/
def carriedPlan (s : State) (f : InFlight) : Plan :=
  match f.phase with
  | .planned => f.plan
  | _ =>
    if f.cmd.opcode = 0x08 then
      { effect := .hint f.ns (scopeOf f.cmd) f.cmd.suit (areaLo f.cmd) (areaHi f.cmd) }
    else if isKeyed f.cmd.opcode then planKeyed s f (inputOf f none) none
    else {}

/-- A carried write with its whole input is applied: the outcome of a protected one is OK from now on (R61, log entry 67). -/
def decidedYes (f : InFlight) : InFlight :=
  { f with prot := f.prot.map (fun p => if p.decided.isNone then { p with decided := some true } else p) }

/-- One carried command completes with a plan; its outcome is recorded, undelivered, and nothing is posted (R60). The holders and
recorders of a protected write are told as after any commit step (R314). -/
def carryPlan (f : InFlight) (p : Plan) (s : State) : State :=
  commitFlight { decidedYes f with plan := p, carried := true } s

/-- The overlap entry of a carried command that stays in flight (R153). -/
def carryOverlap (f : InFlight) (s : State) : State :=
  if isKeyed f.cmd.opcode then
    { s with dlr := { s.dlr with overlap := s.dlr.overlap ++
        [{ session := f.session, seq := f.seq, ns := f.ns, digest := digestOf s f.ns f.cmd.key, start := (overlapRange f.cmd).1,
           stop := (overlapRange f.cmd).2, write := isWrite f.cmd.opcode, stamp := f.stamp, deadline := f.deadline }] } }
  else s

/-- A carried command stays in flight: a FLUSH_SESSION whose conditions do not hold yet (R61), a protected command that must read
the stored value from other holders, and what follows such a command in its session or on its key. -/
def carryWaits (f : InFlight) (s : State) : State :=
  let g : InFlight := { decidedYes f with carried := true, phase :=
    match f.phase with
    | .planned => .planned
    | _ => if isKeyed f.cmd.opcode then .waiting else .ready }
  let h : InFlight := if g.phase = .planned then g else
    { g with prot := f.prot.map (fun p => { p with asked := 0, sent := [], gone := [] }) }
  let s1 := carryOverlap f (modFlight f.session f.seq (fun _ => h) s)
  match h.phase, h.prot with
  | .planned, some p => if hasEffect f.plan then sendDecide h p true ((recorders s f.ns p.digest).take 2) s1 else s1
  | _, _ => s1

/-- A carried command cannot complete before recovery ends: it must read a protected value first, or comes after one that
must (R56, R318). -/
def carryHeld (s : State) (f : InFlight) : Bool :=
  match f.phase with
  | .planned => hasEffect f.plan && (keyFirst s f || sessionFirst s f)
  | _ => mustRead f || (isKeyed f.cmd.opcode && s.dlr.inflight.any (fun g => g.carried && isWrite g.cmd.opcode && decide (g.ns = f.ns ∧ g.cmd.key = f.cmd.key))) ||
    ((isWrite f.cmd.opcode || decide (f.cmd.opcode = 0x08)) && sessionFirst s f)

/-- The header and the members of a carried trick as one (R61, R162 to R165). -/
def carryTrick (lost : Bool) (h : InFlight) (s : State) : State :=
  let members := membersOf s h
  if lost then each (fun g => carryPlan g { status := stInputLost }) (h :: members) s
  else if members.any (fun g => (unapplied false g).isSome) then
    let one := decide (members.length < 2)
    each (fun g s => carryPlan g { status := (unapplied false g).getD (if one then stOk else stAbandoned) } s) (h :: members) s
  else if members.any (carryHeld s) then each carryWaits (h :: members) s
  else
    match h.phase with
    | .planned =>
      let s0 := s
      each (fun g s => let x := shiftVersion h.plan.version s0 g; carryPlan x x.plan s) members
        (carryPlan h { h.plan with version := 0 } s)
    | _ =>
      match runMembers (members.map (fun g => (g, g.cmd.data, none))) s with
      | (l, failed) =>
        each (fun p => carryPlan p.1 p.2) (settleTrick l failed) (carryPlan h { status := headerStatus l failed } s)

/-- One command accepted before the loss (R60, R61). -/
def carryOne (lost : Bool) (f : InFlight) (s : State) : State :=
  match f.trick with
  | some h => if h = f.seq then carryTrick lost f s else s
  | none =>
    match unapplied lost f with
    | some st => carryPlan f { status := st } s
    | none =>
      if carryHeld s f then carryWaits f s
      else if f.cmd.opcode = 0x11 ∧ (earlierOpen s f || (toMedium f.cmd && earlierUnprogrammed s f)) = true then carryWaits f s
      else carryPlan f (carriedPlan s f) s

/-- Accepted commands in the order of their stamps (R57). -/
def stampInsert (f : InFlight) : List InFlight → List InFlight
  | [] => [f]
  | g :: t => if stampBefore f.stamp g.stamp then f :: g :: t else g :: stampInsert f t

/-- The carried commands complete; the ring starts empty, and the counts start from what was carried (R75, Table 02-6). -/
def carryAll (lost : Bool) (s : State) : State :=
  let l := s.dlr.inflight.foldl (fun t f => stampInsert f t) []
  each (carryOne lost) l { s with jnl := { s.jnl with ring := [], ringHead := 0, accepted := l.length, completed := 0 } }

/-! ## Recovery (R481, R585) -/

/-- LOSS_OF_SUPPLY is recorded at recovery (R629). -/
def recordLoss (s : State) : State :=
  if s.evr.lossDue then
    event 0x0C01 [s.pwr.flushUs, s.pwr.flushMj, s.pwr.flushMv] { s with evr := { s.evr with lossDue := false } }
  else s

/-- Every flush set that is not erased is to be erased: the one read, and one whose erase the loss cut short (R481, step 8,
R585). -/
def eraseSets (s : State) : State :=
  let s1 := if s.pwr.aReady then s else eraseSet false s
  let s2 := if s1.pwr.bReady then s1 else eraseSet true s1
  { s2 with pwr := { s2.pwr with written := none, complete := true } }

/-- The lane counters start at 0 at the end of recovery (R370). -/
def zeroCounters (s : State) : State := each (fun p => modLane p.1 (fun l => { l with counters := [] })) s.lanes s

/-- Steps 1 and 6 to 8 of R481 around the index recovery `idx`, which is steps 2 to 5. -/
def recoverAll (idx : State → State) (s : State) : State :=
  let lost := !s.pwr.complete
  let s1 := recordLoss (if lost then event 0x0C06 [] (loseHeld s) else s)
  let s2 := idx s1
  let torn := (s2.med.aborted.filter (fun a => decide ((meldAt s2 a.1).state = .open_))).length
  let s2 := { s2 with med := { s2.med with torn := torn } }
  let s3 := if lost then s2 else returnRows s2
  reachFour (zeroCounters (eraseSets (carryAll lost s3)))

/-- A lost channel controller leaves READ_ONLY_MODE behind (R66, R528). -/
def afterChannel (s : State) (s1 : State) : State :=
  match s.boot.chanFail with
  | none => s1
  | some c => enterReadOnly 2 [2, c] s1

/-- The checkpoint can be used (R407, R481, R585): root page, images and delta log are whole, the flush was closed, and no
channel controller is lost. -/
def checkpointOk (found : RecoveryInput) (s : State) : Bool :=
  found.rootOk && found.imagesOk && found.deltasOk && s.pwr.complete && s.boot.chanFail.isNone

/-! ## Meanings -/

/-- POWER_LOSS_RECOVERY (R481): recovery from the checkpoint, or the start of a full scan. -/
def execPowerLossRecovery (found : RecoveryInput) (s : State) : R :=
  whenRunning (guard (decide (s.boot.stage = 3) && s.boot.recover) (fun s =>
    if checkpointOk found s then recoverAll id s
    else { s with med := { s.med with recovery := 4 }, idx := { s.idx with mode := 3 } })) s

/-- FULL_SCAN_REBUILD (R408, R483 to R486, R528, R585): in recovery, or after the loss of a channel controller. -/
def execFullScanRebuild (found : RecoveryInput) (s : State) : R :=
  whenRunning (fun s =>
    if s.boot.stage = 3 ∧ s.boot.recover = true then afterChannel s (recoverAll (rebuildIndex found) s)
    else if s.boot.chanFail.isSome then
      let s1 := rebuildIndex found s
      afterChannel s (if s.boot.stage = 3 then reachFour s1
        else { s1 with boot := { s1.boot with chanFail := none } })
    else s) s

end Sys2Proof.Machine
end

