-- ==== Sys2Proof/Machine/Registers.lean ====
section
/-! DEFINITION. The registers behind BAR0 (Tables 05-5 to 05-7): what each holds, which reads clear, and what writes do
(R13, R15, R19, R224 to R229). -/

namespace Sys2Proof.Machine

open Sys2Proof

/-! ## Register maps -/

/-- A register: its offset, whether it is 64 bits wide, and what it holds. -/
structure Reg where
  off   : Nat
  wide  : Bool
  value : Nat
  deriving DecidableEq, Repr

/-- A 32-bit register. -/
def r32 (off value : Nat) : Reg := { off := off, wide := false, value := value }

/-- A 64-bit register. -/
def r64 (off value : Nat) : Reg := { off := off, wide := true, value := value }

/-- Bytes of a register. -/
def regSize (r : Reg) : Nat := if r.wide then 8 else 4

/-- fw_version (Table 05-6): 0 in ROM. -/
def fwVersion (s : State) : Nat := if inRom s then 0 else slotVersion (activeSlot s.upd)

/-- Identity and global status as port `p` reads them (Table 05-6). -/
def idRegs (s : State) (p : Nat) : List Reg :=
  let x := (tfind s.host.ports p).getD {}
  let code := asciiNat "PLG5120-T64"
  [r32 0x000 (pack [(0, 16, 0x1F3A), (16, 16, 0x5120)]), r32 0x004 Config.stepping.toNat, r32 0x008 (fwVersion s),
   r64 0x010 (bits code 63 0), r64 0x018 (bits code 127 64),
   r64 0x020 (bits Config.serial 63 0), r64 0x028 (bits Config.serial 127 64), r32 0x030 (s.fab.nodeId % 2048),
   r32 0x034 (pack [(0, 2, p), (2, 2, s.host.bifSel), (4, 5, x.width), (9, 3, x.rate), (12, 1, b2n s.host.clkSep)]),
   r32 0x038 (pack [(0, 4, s.boot.stage), (4, 1, b2n s.boot.readOnly), (5, 1, b2n (forcedAll s)), (6, 3, s.pwr.state)]),
   r32 0x03C x.cause, r32 0x040 x.mask, r64 0x048 (now s), r32 0x050 (vectorCount s.host.bifSel), r32 0x054 s.host.badAccess]

/-- DLR (Table 01-10). -/
def dlrRegs (s : State) : List Reg :=
  let d := s.dlr
  [r64 0x000 d.taken, r64 0x008 d.fastPath, r64 0x010 d.corePath, r32 0x018 d.dups, r32 0x01C d.withdrawn, r32 0x020 d.oow,
   r32 0x024 ((d.arrived.filter (fun a => !a.queued)).length + s.fab.early.length), r32 0x028 d.discards, r32 0x02C d.stalls,
   r32 0x030 d.overlap.length, r32 0x034 d.overlapFull, r32 0x038 d.redispatch, r32 0x03C d.unrecorded]

/-- ANT (Table 04-11). -/
def antRegs (s : State) : List Reg :=
  let a := s.ante
  [r32 0x000 (slotOf (now s) % 65536), r32 0x004 (signed 32 (a.trims.foldl (fun x y => x + y) 0)), r64 0x008 a.requests,
   r32 0x010 a.decideNsMax, r32 0x014 a.yielded, r32 0x018 a.d7Pinned, r32 0x01C a.exitRefuse,
   r64 0x020 (sumOf (poolLeft s) (List.range 32) / 15), r32 0x028 a.windowRefuse]

/-- JNL (Table 02-8). -/
def jnlRegs (s : State) : List Reg :=
  let j := s.jnl
  let held := sumOf (fun c : Nat × Ctx => match c.2.queue with | some q => q.held.length | none => 0) s.host.ctxs
  [r64 0x000 j.ringHead, r32 0x008 j.openLost, r32 0x00C held, r32 0x010 j.fault, r32 0x014 j.recounts,
   r32 0x018 s.sessions.length, r32 0x01C j.resets, r64 0x020 s.dlr.inflight.length]

/-- IDX (Table 08-4). -/
def idxRegs (s : State) : List Reg :=
  let x := s.idx
  [r64 0x000 (objectCount s), r64 0x008 (createReserved s), r32 0x010 x.stash.length, r32 0x014 x.stashIn, r32 0x018 x.displaced,
   r32 0x01C x.tagFalse, r32 0x020 x.ckptGroup, r32 0x024 x.passes, r64 0x028 x.deltaSeq, r64 0x030 (oldestImage x),
   r32 0x038 (if x.mode = 0 ∧ x.failed ≠ [] then 4 else x.mode), r32 0x03C x.rebuilds, r32 0x040 x.longWalks]

/-- CAM (Table 08-12). -/
def camRegs (s : State) : List Reg :=
  let c := s.cam
  [r32 0x000 (pack ((List.range 16).map (fun b => (2 * b, 2, (bankAt s b).state)))), r64 0x008 c.searches, r32 0x010 c.scrubErr,
   r32 0x014 c.parityErr, r32 0x018 c.lastUnit, r32 0x01C c.fallbacks, r32 0x020 c.passes,
   r32 0x024 (pack (c.misses.zipIdx.map (fun m => (8 * m.2, 8, min 255 m.1)))), r32 0x028 c.crcFixes]

/-- Port `p` is throttled on some sub-channel (R517). -/
def throttledPort (s : State) (p : Nat) : Bool :=
  s.mem.chans.any (fun c => c.2.subs.any (fun b => match tfind b.throttle p with | some t => decide (now s < t) | none => false))

/-- MEM globals (Table 10-10). -/
def memRegs (s : State) : List Reg :=
  let m := s.mem
  [r32 0x00 m.fill, r32 0x04 m.raises, r64 0x08 (m.trumpNs + (if m.trump then now s - m.trumpAt else 0)), r64 0x10 m.forwarded, r64 0x18 m.merges, r32 0x20 m.throttles,
   r32 0x24 (pack ((List.range 16).map (fun p => (p, 1, b2n (throttledPort s p))))), r32 0x28 ((now s - m.scrubAt) / 3600000000000)]

/-- MEM registers of channel `c` (Table 10-11). -/
def memChanRegs (s : State) (c : Nat) : List Reg :=
  let x := chanAt s c
  let marks := (subAt x 0).failed.map (fun d => (d, 1, 1)) ++ (subAt x 1).failed.map (fun d => (10 + d, 1, 1))
  let eye := fun n => x.eyes.getD n (0, 0)
  [r32 0x00 (pack [(0, 3, x.state), (3, 1, b2n (x.doubled || (bit s.mem.privNow c && decide (x.state = 1 ∨ x.state = 3)))), (4, 1, b2n (bit s.mem.privNow c)), (5, 1, b2n (subAt x 0).writing),
     (6, 1, b2n (subAt x 1).writing)]), r32 0x04 x.ce, r32 0x08 x.ue, r32 0x0C (pack marks), r32 0x10 x.rfm,
   r32 0x14 (pack [(0, 7, x.rqMax), (8, 7, x.wqMax)]), r64 0x18 x.trained] ++
  (List.range 4).map (fun i => r32 (0x20 + 4 * i) (pack [(0, 8, (eye (2 * i)).1), (8, 8, (eye (2 * i)).2),
    (16, 8, (eye (2 * i + 1)).1), (24, 8, (eye (2 * i + 1)).2)]))

/-- XTS registers of engine `n` (Table 11-5). -/
def engineRegs (s : State) (n : Nat) : List Reg :=
  let e := engineAt s n
  let shown := fun (k : Nat) (m : Msg) => pack [(0, 3, k), (3, 1, b2n m.urgent), (4, 4, m.requester), (16, 13, m.keySlot)]
  let own := match e.owner, e.leaving with
    | some m, some v => if now s < e.at_ then shown 2 v else shown (if m.requester = 6 then 3 else 1) m
    | some m, none => shown (if m.requester = 6 then 3 else 1) m
    | none, _ => if e.retired then 4 else 0
  [r32 0x00 own, r64 0x08 e.bytes, r32 0x10 e.suspends, r32 0x14 e.checkErr, r32 0x18 e.cause]

/-- XTS globals (Table 11-6). -/
def xtsRegs (s : State) : List Reg :=
  let x := s.xts
  [r32 0x400 (pack ((List.range 16).map (fun n => (n, 1, b2n (engineAt s n).retired)))),
   r32 0x404 (pack [(0, 1, b2n x.aOk), (1, 1, b2n x.bOk)]), r32 0x408 x.rct, r32 0x40C x.apt, r64 0x410 x.reseeds,
   r32 0x418 x.waits, r32 0x41C x.lockFault, r32 0x420 x.unseeded]

/-- FAB (Table 06-16). -/
def fabRegs (s : State) : List Reg :=
  let f := s.fabc
  [r32 0x000 f.revokes, r32 0x004 f.noCredit, r32 0x008 f.hopDrop, r32 0x00C f.linkRetx, r32 0x010 f.stomps, r32 0x014 f.typeDrop,
   r32 0x018 f.routeChanges, r32 0x01C f.lateHolders, r32 0x020 f.sessionRetx, r32 0x024 f.stageDrop,
   r64 0x028 (signed 64 s.fab.offsetNs), r32 0x030 (cellsCommitted s), r32 0x034 f.clientDrop]

/-- HQ (Table 05-19). -/
def hqRegs (s : State) : List Reg :=
  let h := s.host
  let bound := (h.ctxs.filter (fun c => match c.2.session with | some id => decide (id / 2 ^ 52 = 0) | none => false)).length
  [r32 0x000 h.doorErr, r32 0x004 h.badAccess, r64 0x008 h.ctxMiss, r32 0x010 ((s.dlr.cached.filter (ctxPinned s)).length),
   r32 0x014 bound, r32 0x018 (pack (h.ports.map (fun p => (4 * p.1, 4, p.2.retrains)))), r32 0x020 h.fetchRetry]

/-- The charger's output current in mA (R569, log entry 41). -/
def chargeNow (s : State) : Nat := if s.pwr.charger then (Config.chargeCurrent (now s)).val else 0

/-- PWR (Table 12-11). -/
def pwrRegs (s : State) : List Reg :=
  let p := s.pwr
  [r32 0x000 (pack [(0, 16, p.supplyMv), (16, 16, p.bankMv)]),
   r32 0x004 (pack [(0, 3, supCode p.sup), (3, 1, b2n p.charger), (4, 1, b2n p.input), (5, 1, b2n p.bleed), (6, 1, b2n p.measuring)]),
   r32 0x008 (pack [(0, 16, (Config.inputPower (now s)).toNat), (16, 16, chargeNow s)]), r32 0x00C p.rcDips, r32 0x010 p.dipMaxUs, r32 0x014 p.rcHeld,
   r32 0x018 p.flushUs, r32 0x01C (pack [(0, 16, p.flushMj), (16, 16, p.flushMv)]), r32 0x020 p.meas, r32 0x024 p.p1n,
   r32 0x028 p.p2n, r32 0x02C p.p3n]

/-- Instances of a target that are overdue (R643). -/
def overdueCount (s : State) (t : Nat) : Nat := (s.ist.overdue.filter (fun k => decide (k / 1024 = t))).length

/-- The lifecycle range: UPD, EVR, IST, FRZ (Tables 13-8, 14-11). IST_NOW shows the slice whose first slot has come. -/
def lifeRegs (s : State) : List Reg :=
  let u := updRegisters s.upd
  let e := s.evr
  (List.range 8).map (fun i => r32 (4 * i) (bits u (32 * i + 31) (32 * i))) ++
  [r64 0x100 e.nextSeq, r64 0x108 (oldestSeq e), r32 0x110 (pendingBytes e), r32 0x114 e.dropped, r32 0x118 e.folded,
   r32 0x11C (pack [(0, 8, sectorsUsed e), (8, 1, b2n e.stopped)])] ++
  (List.range 7).flatMap (fun t => [r64 (0x200 + 16 * t) (tget (fun _ => 0) s.ist.lastRun t),
    r32 (0x208 + 16 * t) (pack [(0, 16, tget (fun _ => 0) s.ist.failures t), (16, 16, overdueCount s t)])]) ++
  [r32 0x280 (match s.ante.maint.find? (fun m => decide (m.kind = .testSlice ∧ m.first ≤ slotOf (now s))) with
     | some m => pack [(0, 3, m.target / 1024), (3, 1, 1), (4, 16, m.target % 1024)]
     | none => 0), r32 0x300 s.frz.state, r32 0x304 s.frz.count, r64 0x308 s.frz.lastNs, r32 0x310 s.frz.shifts]

/-- CLK and RST (Table 01-11). -/
def clkRegs (s : State) : List Reg :=
  let c := s.clk
  let root := c.rootLock && (!c.rootLost || Config.rootRelocked c.unlocks (now s))
  let serdes := c.rootLock && c.unlocked.all (fun n => !(laneAt s n).cfg.enabled)
  [r32 0x000 (pack [(0, 1, b2n root), (1, 1, b2n serdes), (2, 1, b2n (s.host.clkSep || Config.hostClock (now s)))]), r32 0x004 c.cause, r32 0x008 c.unlocks,
   r32 0x00C (if ownMaster s then 0 else (Config.crystalOffset (now s)).toNat), r32 0x010 (opSeconds s), r32 0x014 c.cycles]

/-- MED registers of channel `c` (Table 09-14). -/
def medChanRegs (s : State) (c : Nat) : List Reg :=
  let x := tget flashChanBlank s.med.chans c
  [r32 0x000 x.corrected, r32 0x004 x.retried, r32 0x008 x.repaired, r32 0x00C x.lost, r32 0x010 x.progFail]

/-- MED registers of die `d` (Table 09-15). -/
def dieRegs (s : State) (d : Nat) : List Reg :=
  let x := dieAt s d
  let l := s.med.blocks.filter (fun b => decide (blockDie b.1 = d))
  let count := fun st => sumOf (fun p => planeCount s d p st) (List.range 4)
  [r32 0x00 (pack [(0, 2, x.state), (8, 8, (Config.dieTemp d (now s)).toNat), (16, 16, sumOf (fun b => b.2.erases) l / 5464)]),
   r32 0x04 (pack ((List.range 4).map (fun p => (7 * p, 7, min 64 (columnsOf s d p))))),
   r32 0x08 ((l.map (fun b => b.2.reads)).foldl max 0), r32 0x0C (pack [(0, 16, count .stock), (16, 16, count .talon)])]

/-- The die set with the lowest talon, the first among equals. -/
def lowestSet (s : State) : Nat × Nat :=
  (List.range 32).foldl (fun a k => if setTalon s k < a.2 then (k, setTalon s k) else a) (0, setTalon s 0)

/-- MED globals (Table 09-16). -/
def medRegs (s : State) : List Reg :=
  let m := s.med
  let low := lowestSet s
  let rebuild := (s.med.melds.filter (fun p => decide ((p.2.state = .full ∨ p.2.state = .open_) ∧
    (p.2.degraded || p.2.blocks.any (fun b => decide ((dieAt s (blockDie b)).state = 1))) = true))).length
  [r32 0x00 (talonSum s), r32 0x04 (pack [(0, 8, min 255 low.2), (8, 5, low.1)]), r32 0x08 (blkCount s .stock),
   r32 0x0C (meldsIn s .open_).length, r32 0x10 ((meldsIn s .dead).length + (meldsIn s .erasing).length), r32 0x14 (min 4096 m.factor),
   r64 0x18 m.progSeq, r32 0x20 (pack [(0, 4, m.recovery), (4, 8, m.progress)]), r64 0x28 m.scanPages, r32 0x30 m.syncFalse,
   r32 0x34 m.syncPages, r32 0x38 m.torn, r32 0x3C rebuild, r64 0x40 m.tombBytes]

/-- Counter `k` of a lane; the present hold counts in counter 39. -/
def laneCounter (s : State) (n k : Nat) : Nat :=
  let l := laneAt s n
  (laneCount l k + (if k = 39 ∧ l.held.isSome = true then (min (l.held.getD 0) (now s) - l.heldFrom) / 1000 else 0)) % 2 ^ 48

/-- The lane counts in a fabric or client trunk (Table 07-6). -/
def countsInTrunk (s : State) (n : Nat) : Bool :=
  let l := laneAt s n
  l.inTrunk && (!l.cfg.client || s.fab.trunks.any (fun t => t.2.enabled && bit t.2.mask n))

/-- Code of a lane state (Table 07-6). -/
def laneCode : LaneState → Nat
  | .off => 0 | .waiting => 1 | .training => 2 | .locking => 3 | .confirm => 4 | .up => 5 | .failed => 6

/-- LN registers of lane `n` (Table 07-6). -/
def lnRegs (s : State) (n : Nat) : List Reg :=
  let l := laneAt s n
  let lock := match l.state with | .confirm => true | .up => true | _ => false
  let held := if heldLane s n then (now s - l.heldFrom) / 1000 else 0
  [r32 0x000 (pack [(0, 3, laneCode l.state), (3, 1, b2n lock), (4, 1, b2n l.hiBer), (5, 1, b2n (countsInTrunk s n)),
     (6, 1, b2n (heldLane s n)), (7, 1, b2n l.pauseSent), (8, 1, b2n l.txLpi), (9, 1, b2n l.rxLpi), (10, 1, b2n (inHoldoff s l)),
     (11, 2, l.attempts)]),
   r32 0x008 (pack [(0, 11, l.rx.length), (16, 11, ringCells l)]), r64 0x010 l.rollPend,
   r32 0x018 (pack [(0, 6, l.taps.1), (8, 6, l.taps.2.1), (16, 6, l.taps.2.2), (24, 1, b2n l.trained)]), r32 0x020 held] ++
  (List.range 48).map (fun k => r64 (0x100 + 8 * k) (laneCounter s n k))

/-- Registers of a list moved by `b`. -/
def based (b : Nat) (l : List Reg) : List Reg := l.map (fun r => { r with off := b + r.off })

/-- The registers around an offset of the diagnostic window (Table 05-7). -/
def diagRegs (s : State) (o : Nat) : List Reg :=
  let page := o / 65536 * 65536
  let q := o % 65536
  if page = 0x200000 then based page (dlrRegs s)
  else if page = 0x210000 then based page (antRegs s)
  else if page = 0x220000 then based page (jnlRegs s)
  else if page = 0x230000 then based page (idxRegs s)
  else if page = 0x240000 then based page (camRegs s)
  else if page = 0x250000 then
    if q < 0x1000 then based page (memRegs s)
    else if q < 0x1C00 then based (o / 256 * 256) (memChanRegs s ((q - 0x1000) / 256)) else []
  else if page = 0x260000 then
    if q < 0x200 then based (o / 32 * 32) (engineRegs s (q / 32)) else based page (xtsRegs s)
  else if page = 0x270000 then based page (fabRegs s)
  else if page = 0x280000 then based page (hqRegs s)
  else if page = 0x290000 then based page (pwrRegs s)
  else if page = 0x2A0000 then based page (lifeRegs s)
  else if page = 0x2B0000 then based page (clkRegs s)
  else if 0x300000 ≤ o ∧ o < 0x400000 then
    let c := (o - 0x300000) / 32768
    let q := (o - 0x300000) % 32768
    if q < 0x1000 then based (o - q) (medChanRegs s c)
    else if q < 0x2000 then based (o / 256 * 256) (dieRegs s (16 * c + (q - 0x1000) / 256))
    else if 0x4000 ≤ q then based (o - q + 0x4000) (medRegs s) else []
  else if 0x400000 ≤ o ∧ o < 0x500000 then based (o / 2048 * 2048) (lnRegs s ((o - 0x400000) / 2048))
  else []

/-- A task register set's header (Table 05-15). -/
def taskRegs (t : Task) : List Reg :=
  [r32 0x00 (pack [(0, 1, b2n t.busy), (1, 1, b2n t.busy), (8, 8, t.code)]), r32 0x04 t.status, r64 0x08 t.arg, r64 0x10 t.result,
   r64 0x18 t.dataLen]

/-- A mailbox's header (Table 05-12). -/
def boxRegs (x : Mailbox) : List Reg :=
  [r32 0x000 (pack [(0, 1, b2n x.busy), (1, 1, b2n x.busy), (2, 1, b2n x.irq)]), r32 0x004 x.status, r32 0x008 x.command,
   r32 0x00C (pack [(0, 16, x.page), (16, 16, x.format)]), r32 0x010 x.target, r32 0x014 x.inLen, r32 0x018 x.outLen]

/-- A task register set that nothing has used. -/
def taskBlank : Nat → Task := fun _ => {}

/-- Task set `n`; sets 4p to 4p + 3 belong to port p. -/
def taskAt (s : State) (n : Nat) : Task := tget taskBlank s.host.tasks n

/-- Task set `n` becomes `t`. -/
def setTask (n : Nat) (t : Task) (s : State) : State :=
  { s with host := { s.host with tasks := tset taskBlank s.host.tasks n t } }

/-- A vector of the MSI-X table, 16 bytes. -/
def vecRegs (x : Port) (v : Nat) : List Reg :=
  let e := tget vecBlank x.vecs v
  [r64 0 e.addr, r32 8 e.data, r32 12 (b2n e.masked)]

/-- Pending bits of 64 vectors. -/
def pendingWord (x : Port) (k : Nat) : Nat :=
  pack ((x.vecs.filter (fun v => decide (v.1 / 64 = k) && v.2.pending)).map (fun v => (v.1 % 64, 1, 1)))

/-- The registers around offset `o` of BAR0 as port `p` sees them (Table 05-5); the areas of other ports read as 0. -/
def regsAt (s : State) (p o : Nat) : List Reg :=
  let x := (tfind s.host.ports p).getD {}
  if o < 0x1000 then idRegs s p
  else if 0x10000 ≤ o ∧ o < 0x11000 then
    let n := (o - 0x10000) / 256
    let b := o / 256 * 256
    if n / 4 ≠ p then []
    else if o % 256 < 32 then based b (taskRegs (taskAt s n))
    else [r32 (o / 4 * 4) (leNat (bytesAt (taskAt s n).data (o % 256 / 4 * 4 - 32) 4))]
  else if 0x20000 ≤ o ∧ o < 0x60000 then
    let n := (o - 0x20000) / 4096
    let b := o / 4096 * 4096
    if boxPort n ≠ p then []
    else if o % 4096 < 64 then based b (boxRegs (boxAt s n))
    else [r32 (o / 4 * 4) (leNat (bytesAt (boxAt s n).payload (o % 4096 / 4 * 4 - 64) 4))]
  else if 0x100000 ≤ o ∧ o < 0x108000 then based (o / 16 * 16) (vecRegs x ((o - 0x100000) / 16))
  else if 0x108000 ≤ o ∧ o < 0x110000 then [r64 (o / 8 * 8) (pendingWord x ((o - 0x108000) / 8))]
  else if 0x200000 ≤ o then diagRegs s o
  else []

/-- The register that covers offset `o`. -/
def regOf (s : State) (p o : Nat) : Option Reg := (regsAt s p o).find? (fun r => decide (r.off ≤ o ∧ o < r.off + regSize r))

/-- A table maps offset `o` of BAR0 for port `p` (R224, Table 05-5): the identity area where Table 05-6 lists a register, the
vectors the port has, the ranges that Table 05-7 gives a block, and the other areas whole, reserved offsets among them. DEDUCED,
log entry 43: the ranges that Table 05-7 calls Reserved map nothing. -/
def mapped (s : State) (p o : Nat) : Bool :=
  let n := vectorCount s.host.bifSel
  if o < 0x1000 then (regOf s p o).isSome
  else decide ((0x10000 ≤ o ∧ o < 0x11000) ∨ (0x20000 ≤ o ∧ o < 0x60000) ∨ (0x100000 ≤ o ∧ o < 0x100000 + 16 * n) ∨
    (0x108000 ≤ o ∧ o < 0x108000 + n / 8) ∨ (0x200000 ≤ o ∧ o < 0x2C0000) ∨ (0x300000 ≤ o ∧ o < 0x500000))

/-- The access has a size and an alignment that the module honours (R224). -/
def wellSized (o size : Nat) : Bool := decide ((size = 4 ∧ o % 4 = 0) ∨ (size = 8 ∧ o % 8 = 0))

/-- The access is honoured: BAR0 or BAR2, well sized, and every word of it mapped. -/
def honoured (s : State) (p bar o size : Nat) : Bool :=
  wellSized o size &&
  (if bar = 0 then mapped s p o && (decide (size = 4) || mapped s p (o + 4)) else decide (bar = 2 ∧ o + size ≤ 0x800000))

/-! ## Reading -/

/-- The 32 bits at an offset: a half that was latched with its low half, or what stands there now (R224). -/
def wordAt (s : State) (p o : Nat) : Nat :=
  let live := match regOf s p o with
    | some r => bits r.value (8 * (o - r.off) + 31) (8 * (o - r.off))
    | none => 0
  match tfind s.host.ports p with
  | some x => (match x.latch with
    | some (a, v) => if a = o then v else live
    | none => live)
  | none => live

/-- What a read of 4 or 8 bytes returns. A 64-bit read of a register is one consistent value. -/
def readAt (s : State) (p o size : Nat) : Nat :=
  if size = 8 then
    match regOf s p o with
    | some r => if r.wide ∧ r.off = o then r.value % 2 ^ 64 else wordAt s p o + 2 ^ 32 * wordAt s p (o + 4)
    | none => wordAt s p o + 2 ^ 32 * wordAt s p (o + 4)
  else wordAt s p o

/-- The maximum and error counters of one DRAM channel, at offset `q` of its block (Table 10-11). -/
def clearChannel (k q : Nat) (s : State) : State :=
  let y := chanAt s k
  if q = 0x04 then setChan k { y with ce := 0 } s
  else if q = 0x08 then setChan k { y with ue := 0 } s
  else if q = 0x10 then setChan k { y with rfm := 0 } s
  else if q = 0x14 then setChan k { y with rqMax := 0, wqMax := 0 } s
  else s

/-- The counters of one AES-XTS engine, at offset `q` of its block. -/
def clearEngine (n q : Nat) (s : State) : State :=
  let e := engineAt s n
  if q = 0x10 then setEngine n { e with suspends := 0 } s
  else if q = 0x14 then setEngine n { e with checkErr := 0 } s
  else s

/-- The counters of one flash channel, at offset `q` of its block; those of the media sweep stand at 0x4030 to 0x4038. -/
def clearFlashChan (k q : Nat) (s : State) : State :=
  if q = 0x00 then modFlashChan k (fun y => { y with corrected := 0 }) s
  else if q = 0x04 then modFlashChan k (fun y => { y with retried := 0 }) s
  else if q = 0x08 then modFlashChan k (fun y => { y with repaired := 0 }) s
  else if q = 0x0C then modFlashChan k (fun y => { y with lost := 0 }) s
  else if q = 0x10 then modFlashChan k (fun y => { y with progFail := 0 }) s
  else if q = 0x4030 then { s with med := { s.med with syncFalse := 0 } }
  else if q = 0x4034 then { s with med := { s.med with syncPages := 0 } }
  else if q = 0x4038 then { s with med := { s.med with torn := 0 } }
  else s

/-- The failure counter of one self-test target. -/
def clearTarget (n : Nat) (s : State) : State :=
  { s with ist := { s.ist with failures := tset (fun _ => 0) s.ist.failures n 0 } }

/-- Reading clears a counter of a test target, a memory channel, a cipher engine, a flash channel or the media recovery. -/
def clearIndexed (o : Nat) (s : State) : State :=
  if 0x2A0208 ≤ o ∧ o ≤ 0x2A0268 ∧ o % 16 = 8 then clearTarget ((o - 0x2A0208) / 16) s
  else if 0x251000 ≤ o ∧ o < 0x251C00 then clearChannel ((o - 0x251000) / 256) (o % 256) s
  else if 0x260000 ≤ o ∧ o < 0x260200 then clearEngine ((o - 0x260000) / 32) (o % 32) s
  else if 0x300000 ≤ o ∧ o < 0x400000 then clearFlashChan ((o - 0x300000) / 32768) ((o - 0x300000) % 32768) s
  else s

/-- A read of the word at `o` clears an RC register of the block there to its reset value (R15). -/
def clearWord (o : Nat) (s : State) : State :=
  let d := s.dlr
  let a := s.ante
  let j := s.jnl
  let x := s.idx
  let c := s.cam
  let m := s.mem
  let t := s.xts
  let f := s.fabc
  let h := s.host
  let w := s.pwr
  match o with
  | 0x000054 => { s with host := { h with badAccess := 0 } }
  | 0x200018 => { s with dlr := { d with dups := 0 } }
  | 0x20001C => { s with dlr := { d with withdrawn := 0 } }
  | 0x200020 => { s with dlr := { d with oow := 0 } }
  | 0x200028 => { s with dlr := { d with discards := 0 } }
  | 0x20002C => { s with dlr := { d with stalls := 0 } }
  | 0x200034 => { s with dlr := { d with overlapFull := 0 } }
  | 0x200038 => { s with dlr := { d with redispatch := 0 } }
  | 0x20003C => { s with dlr := { d with unrecorded := 0 } }
  | 0x210010 => { s with ante := { a with decideNsMax := 0 } }
  | 0x210014 => { s with ante := { a with yielded := 0 } }
  | 0x210018 => { s with ante := { a with d7Pinned := 0 } }
  | 0x21001C => { s with ante := { a with exitRefuse := 0 } }
  | 0x210028 => { s with ante := { a with windowRefuse := 0 } }
  | 0x220008 => { s with jnl := { j with openLost := 0 } }
  | 0x220014 => { s with jnl := { j with recounts := 0 } }
  | 0x22001C => { s with jnl := { j with resets := 0 } }
  | 0x230014 => { s with idx := { x with stashIn := 0 } }
  | 0x230018 => { s with idx := { x with displaced := 0 } }
  | 0x23001C => { s with idx := { x with tagFalse := 0 } }
  | 0x23003C => { s with idx := { x with rebuilds := 0 } }
  | 0x230040 => { s with idx := { x with longWalks := 0 } }
  | 0x240010 => { s with cam := { c with scrubErr := 0 } }
  | 0x240014 => { s with cam := { c with parityErr := 0 } }
  | 0x24001C => { s with cam := { c with fallbacks := 0 } }
  | 0x240024 => { s with cam := { c with misses := [0, 0, 0, 0] } }
  | 0x240028 => { s with cam := { c with crcFixes := 0 } }
  | 0x250004 => { s with mem := { m with raises := 0 } }
  | 0x250020 => { s with mem := { m with throttles := 0 } }
  | 0x260408 => { s with xts := { t with rct := 0 } }
  | 0x26040C => { s with xts := { t with apt := 0 } }
  | 0x260418 => { s with xts := { t with waits := 0 } }
  | 0x26041C => { s with xts := { t with lockFault := 0 } }
  | 0x270000 => { s with fabc := { f with revokes := 0 } }
  | 0x270004 => { s with fabc := { f with noCredit := 0 } }
  | 0x270008 => { s with fabc := { f with hopDrop := 0 } }
  | 0x27000C => { s with fabc := { f with linkRetx := 0 } }
  | 0x270010 => { s with fabc := { f with stomps := 0 } }
  | 0x270014 => { s with fabc := { f with typeDrop := 0 } }
  | 0x270018 => { s with fabc := { f with routeChanges := 0 } }
  | 0x27001C => { s with fabc := { f with lateHolders := 0 } }
  | 0x270020 => { s with fabc := { f with sessionRetx := 0 } }
  | 0x270024 => { s with fabc := { f with stageDrop := 0 } }
  | 0x270034 => { s with fabc := { f with clientDrop := 0 } }
  | 0x280000 => { s with host := { h with doorErr := 0 } }
  | 0x280004 => { s with host := { h with badAccess := 0 } }
  | 0x280018 => { s with host := { h with ports := h.ports.map (fun p => (p.1, { p.2 with retrains := 0 })) } }
  | 0x280020 => { s with host := { h with fetchRetry := 0 } }
  | 0x29000C => { s with pwr := { w with rcDips := 0 } }
  | 0x290010 => { s with pwr := { w with dipMaxUs := 0 } }
  | 0x290014 => { s with pwr := { w with rcHeld := 0 } }
  | 0x290020 => { s with pwr := { w with meas := 0 } }
  | 0x290024 => { s with pwr := { w with p1n := 0 } }
  | 0x290028 => { s with pwr := { w with p2n := 0 } }
  | 0x29002C => { s with pwr := { w with p3n := 0 } }
  | 0x2A0018 => { s with upd := { s.upd with rollbacks := 0 } }
  | 0x2A0114 => { s with evr := { s.evr with dropped := 0 } }
  | 0x2A0118 => { s with evr := { s.evr with folded := 0 } }
  | 0x2A0304 => { s with frz := { s.frz with count := 0 } }
  | 0x2B0008 => { s with clk := { s.clk with unlocks := 0 } }
  | _ => clearIndexed o s

/-- The words that an access of `size` bytes covers. -/
def wordsOf (o size : Nat) : List Nat := if size = 8 then [o, o + 4] else [o]

/-- The port can be reached: it exists, and its link carries data. -/
def reachedBy (s : State) (p : Nat) : Bool := portUp s p

/-- An access that the module ignores is counted (R224). -/
def badAccess (s : State) : State := { s with host := { s.host with badAccess := s.host.badAccess + 1 } }

/-! ## Writing -/

/-- `v` with its half at byte `h` replaced by a 32-bit word. -/
def putHalf (v h w : Nat) : Nat := setBits v (8 * h + 31) (8 * h) w

/-- A task register is written: go starts the task of a set that is not busy (R259, R590). -/
def writeTask (n o w : Nat) (s : State) : State :=
  let t := taskAt s n
  if o = 0x00 then
    let s1 := setTask n { t with code := bits w 15 8, busy := t.busy || bit w 0 } s
    if bit w 0 ∧ t.busy = false then startExit s1 else s1
  else if o = 0x08 ∨ o = 0x0C then setTask n { t with arg := putHalf t.arg (o - 8) w } s
  else if o = 0x18 then setTask n { t with dataLen := bits w 7 0 } s
  else if 32 ≤ o then setTask n { t with data := bytesSet t.data (o - 32) (natLe 4 w) } s
  else s

/-- A mailbox register is written: go starts the command of a mailbox that is not busy (R252, R590). -/
def writeBox (n o w : Nat) (s : State) : State :=
  let x := boxAt s n
  if o = 0x000 then
    let s1 := setBox n { x with irq := bit w 2, busy := x.busy || bit w 0 } s
    if bit w 0 ∧ x.busy = false then startExit { s1 with host := { s1.host with goQueue := s1.host.goQueue ++ [n] } } else s1
  else if o = 0x008 then setBox n { x with command := bits w 15 0 } s
  else if o = 0x00C then setBox n { x with page := bits w 15 0, format := bits w 31 16 } s
  else if o = 0x010 then setBox n { x with target := w } s
  else if o = 0x014 then setBox n { x with inLen := bits w 11 0 } s
  else if 64 ≤ o then setBox n { x with payload := bytesSet x.payload (o - 64) (natLe 4 w) } s
  else s

/-- A vector of the port's MSI-X table is written; one that is pending is sent once it is unmasked (R249). -/
def writeVec (p v o w : Nat) (s : State) : State :=
  match tfind s.host.ports p with
  | none => s
  | some x =>
    let e := tget vecBlank x.vecs v
    let put := fun e' => setPort p { x with vecs := tset vecBlank x.vecs v e' } s
    if o = 0 ∨ o = 4 then put { e with addr := putHalf e.addr o w }
    else if o = 8 then put { e with data := w }
    else if bit w 0 = false ∧ e.pending = true then emit (.msix p v) (put { e with masked := false, pending := false })
    else put { e with masked := bit w 0 }

/-- DIAG_UNLOCK of the port is in force (R228). -/
def unlocked (s : State) (p : Nat) : Bool :=
  match tfind s.host.ports p with
  | some x => (match x.unlock with | some t => decide (now s < t) | none => false)
  | none => false

/-- The writable registers of the diagnostic window: each 1 clears a bit of JNL_LEDGER_FAULT or LN_ROLL_PEND. -/
def writeDiag (o w : Nat) (s : State) : State :=
  if o = 0x220010 then { s with jnl := { s.jnl with fault := s.jnl.fault &&& (s.jnl.fault ^^^ w) } }
  else if 0x400000 ≤ o ∧ o < 0x500000 ∧ (o % 2048 = 0x10 ∨ o % 2048 = 0x14) then
    let n := (o - 0x400000) / 2048
    let l := laneAt s n
    let m := w * 2 ^ (8 * (o % 2048 - 0x10))
    setLane n { l with rollPend := l.rollPend &&& (l.rollPend ^^^ m) } s
  else s

/-- One 32-bit word is written by port `p` (R15, Table 05-5). -/
def writeWord (p o w : Nat) (s : State) : State :=
  if o = 0x03C then followAlert (modPort p (fun x => { x with cause := x.cause &&& (x.cause ^^^ w) }) s)
  else if o = 0x040 then modPort p (fun x => { x with mask := bits w 6 0 }) s
  else if 0x10000 ≤ o ∧ o < 0x11000 then
    let n := (o - 0x10000) / 256
    if n / 4 = p then writeTask n (o % 256) w s else s
  else if 0x20000 ≤ o ∧ o < 0x60000 then
    let n := (o - 0x20000) / 4096
    if boxPort n = p then writeBox n (o % 4096) w s else s
  else if 0x100000 ≤ o ∧ o < 0x108000 then writeVec p ((o - 0x100000) / 16) (o % 16) w s
  else if 0x200000 ≤ o then (if unlocked s p then writeDiag o w s else s)
  else s

/-! ## Meanings -/

/-- The module has this BAR (R223). -/
def barExists (bar : Nat) : Bool := decide (bar = 0 ∨ bar = 2)

/-- REGISTER_WRITE (R15, R19, R223, R229, R243): a write to BAR0, or to BAR2, where offset 8 × c is the doorbell of context c.
No other BAR exists. -/
def execRegisterWrite (port bar offset size value : Nat) (s : State) : R :=
  whenRunning (guard (reachedBy s port && barExists bar) (fun s =>
    if honoured s port bar offset size = false then badAccess s
    else if bar = 2 then
      doorbell port (offset / 8) (if offset % 8 = 0 then some (bits value 31 0) else none)
        (if size = 8 then some (bits value 63 32) else if offset % 8 = 4 then some (bits value 31 0) else none) (startExit s)
    else if size = 8 then writeWord port (offset + 4) (bits value 63 32) (writeWord port offset (bits value 31 0) s)
    else writeWord port offset (bits value 31 0) s)) s

/-- A 32-bit read of the low half of a 64-bit register latches its high half (R224). -/
def latchHigh (port offset size : Nat) (s : State) : State :=
  match regOf s port offset with
  | some r =>
    if size = 4 ∧ r.wide = true ∧ r.off = offset then
      modPort port (fun x => { x with latch := some (offset + 4, bits r.value 63 32) }) s
    else s
  | none => s

/-- RC_REGISTER_READ (R15, R224): a read of BAR0, which clears what it reads of RC fields; a latched half is used up, and the low
half of a 64-bit register latches the high one. A doorbell of BAR2 is write-only and reads 0. -/
def execRcRegisterRead (port : Nat) (place : BarPlace) (size : Nat) (s : State) : R :=
  whenRunning (guard (reachedBy s port && honoured s port place.bar place.offset size) (fun s =>
    let offset := place.offset
    if place.bar = 2 then emit (.readData port offset 0) s
    else
      let s1 := emit (.readData port offset (readAt s port offset size)) s
      let s2 := modPort port (fun x => { x with latch := match x.latch with
        | some (a, v) => if a ∈ wordsOf offset size then none else some (a, v)
        | none => none }) s1
      each clearWord (wordsOf offset size) (latchHigh port offset size s2))) s

/-- REGISTER_LOW_HALF_READ (R224): the low half of a 64-bit register is returned, the high half latched. -/
def execRegisterLowHalfRead (port offset : Nat) (s : State) : R :=
  whenRunning (guard (reachedBy s port && honoured s port 0 offset 4) (fun s =>
    match regOf s port offset with
    | none => s
    | some r =>
      if r.wide ∧ r.off = offset then
        each clearWord (wordsOf offset 4) (latchHigh port offset 4 (emit (.readData port offset (readAt s port offset 4)) s))
      else s)) s

/-- BAR_BAD_ACCESS (R223, R224): an access of another size or alignment, or to an offset that no table maps, is ignored and
counted; such a read returns 0. -/
def execBarBadAccess (port bar offset size : Nat) (write : Bool) (s : State) : R :=
  whenRunning (guard (reachedBy s port && barExists bar && !honoured s port bar offset size) (fun s =>
    let s1 := badAccess s
    if write then s1 else emit (.readData port offset 0) s1)) s

end Sys2Proof.Machine
end

