-- ==== Sys2Proof/Machine/Tasks.lean ====
section
/-! DEFINITION. Task registers, the resets of the whole module, ROM recovery over its three paths, and the SMBus sideband
(R62, R63, R84, R258, R259, R614 to R617, R637, R645, R675 to R677). -/

namespace Sys2Proof.Machine

open Sys2Proof

/-! ## Tasks (R258, R259, Table 05-16) -/

/-- A task is done: status and result, then busy and go cleared. -/
def finishTask (n status result : Nat) (s : State) : State :=
  setTask n { taskAt s n with busy := false, status := status, result := result } s

/-- Boot stages in which a task code is permitted (Table 05-16); none for a code that is not listed. -/
def taskStages (code : Nat) : List Nat :=
  if code = 1 then [3, 4] else if code = 2 then [0, 4, 0xE] else if code = 3 then [0, 1, 2, 3, 4, 0xE, 0xF]
  else if code = 4 ∨ code = 5 then [0xE] else []

/-- A started task with a code that the boot stage permits is carried out. -/
def taskRow (n code : Nat) (f : Task → State → State) (s : State) : R :=
  whenRunning (fun s =>
    let t := taskAt s n
    if t.busy = true ∧ t.code = code ∧ s.boot.stage ∈ taskStages code then f t s else s) s

/-- TASK_CODE_INVALID (R259). -/
def execTaskCodeInvalid (set : Nat) (s : State) : R :=
  whenRunning (fun s =>
    let t := taskAt s set
    guard (t.busy && decide (s.boot.stage ∉ taskStages t.code)) (finishTask set stOpcode 0) s) s

/-! ## Module reset and all ports reset (R62, R63, R84, R675) -/

/-- The first slot of the recount window held. -/
def recountSlot (s : State) : Nat :=
  match s.ante.maint.find? (fun m => decide (m.kind = .recount)) with
  | some m => m.first % 65536
  | none => 0

/-- MODULE_RESET (R63, Table 05-16): the request, with the slot of the ledger recount window held for it. -/
def execModuleReset (set : Nat) (s : State) : R :=
  taskRow set 1 (fun _ s =>
    let s1 := if s.ante.maint.any (fun m => decide (m.kind = .recount)) then s else reserveMaint .recount 0 625 s
    finishTask set stOk (recountSlot s1) { s1 with jnl := { s1.jnl with resetAsked := true } }) s

/-- A quiesce point of the module (R84): a window that has begun, or P2 or P3, with no command in flight. -/
def quiesced (s : State) : Bool :=
  decide (s.dlr.inflight = []) && (inWindow s (slotOf (now s)) || decide (2 ≤ s.pwr.state))

/-- The faulted ledgers that a reset answers are remembered for the third fault of R92. -/
def markResets (s : State) : State :=
  { s with jnl := { s.jnl with lastReset := s.jnl.refusing.foldl (fun h l => markTime l s.clk.opNs h) s.jnl.lastReset } }

/-- MODULE_RESET_EXECUTE (R63, R675): at the quiesce point the steps of the flush run from the supply, then a cold start. -/
def execModuleResetExecute (s : State) : R :=
  whenRunning (guard (s.jnl.resetAsked && quiesced s) (fun s => restart 2 s.boot.input (markResets s))) s

/-- ALL_PORTS_RESET (R62, R675): every present port's PERST# held asserted for 1 ms, in boot_stage 4. Commands in flight are
carried. -/
def execAllPortsReset (s : State) : R :=
  whenRunning (guard (decide (s.boot.stage = 4 ∧ s.host.ports ≠ []) && s.host.ports.all (fun p => p.2.perst && decide (p.2.perstAt + 1000000 ≤ now s)))
    (fun s => restart 3 s.boot.input s)) s

/-! ## SELF_TEST and EVENT_TAIL (R637, R642, R645) -/

/-- The instances that a request names and that exist (R645). -/
def asked (s : State) (t i : Nat) : List Nat :=
  (List.range (instancesOf t)).filter (fun k => (decide (i = 0xFFFF) || decide (i = k)) && testable s t k)

/-- What a measurement that passes finds in a self-test: free values (log entry 1). -/
def freeMeasure (s : State) : BankMeasure := { stepUv := 500 * fresh 16 s, fallUv := 269 + fresh 24 (drawn s) }

/-- One instance is tested. -/
def testOne (t : Nat) (p : Nat × TestResult) (s : State) : State :=
  if t = 0 then testRan 0 p.1 p.2 (if p.2.isNone then some (freeMeasure s) else none) (drawn (drawn s))
  else testRan t p.1 p.2 none s

/-- The result word of SELF_TEST (R645). -/
def testWord (l : List (Nat × TestResult)) : Nat :=
  let bad := (l.filterMap (·.2)).head?
  pack [(0, 1, b2n bad.isNone), (1, 1, b2n (decide (l ≠ []))), (32, 32, bad.getD 0)]

/-- SELF_TEST (R645), taken when the slices that the scheduler placed for it have run (DESIGN CHOICE, log entry 112): `results` gives what each instance shows, in order. In ROM only targets 1 and 6 are run; a target beyond
Table 14-4 is taken the same way everywhere (log entry 36). -/
def execSelfTest (set : Nat) (results : List TestResult) (s : State) : R :=
  taskRow set 2 (fun t s =>
    let target := bits t.arg 7 0
    if 7 ≤ target ∨ (s.boot.stage ≠ 4 ∧ target ≠ 1 ∧ target ≠ 6) then finishTask set stOpcode 0 s
    else if s.boot.stage = 4 ∧ target ≠ 1 ∧ target ≠ 6 ∧ targetRuns s target = false then finishTask set stBusy 0 s
    else
      let l := (asked s target (bits t.arg 23 8)).zipIdx.map (fun p => (p.1, results.getD p.2 none))
      finishTask set stOk (testWord l) (each (testOne target) l s)) s

/-- EVENT_TAIL (R637): the newest whole records that fit in 224 bytes, stored and pending alike, in ascending order. -/
def execEventTail (set : Nat) (s : State) : R :=
  taskRow set 3 (fun _ s =>
    let l := s.evr.store.map (·.2) ++ s.evr.writing.toList ++ s.evr.pending
    let d := (fitRecords 224 l.reverse).reverse.flatMap eventBytes
    let t := taskAt s set
    finishTask set stOk 0 (setTask set { t with data := bytesSet [] 0 d, dataLen := d.length } s)) s

/-! ## ROM recovery (R615, R616) -/

/-- Bytes of a recovery image at an offset; the last write of a byte stands (R615). Beyond the largest image nothing is
written. -/
def recoveryWrite (off : Nat) (d : Bytes) (s : State) : State × Nat :=
  if 125829120 < off + d.length then ({ s with upd := { s.upd with rStatus := stLength } }, stLength)
  else
    let m := imagePut s.upd.rImage off d
    ({ s with upd := { s.upd with rImage := m, rBytes := m.length, rStatus := stOk } }, stOk)

/-- The manifest of a recovery image. -/
def recoveryManifest (m : Tbl Byte) : Bytes :=
  let head := (List.range 160).map (tget blank m)
  (List.range (manifestSize head)).map (tget blank m)

/-- The judgement of a recovery image (R616): as a manifest is judged, part versions against each other only, no page check;
then every byte of every part and its digest. -/
def recoveryStatus (s : State) : Nat :=
  let b := recoveryManifest s.upd.rImage
  let m := manifestOf b
  if structureOk b = false then stPageField
  else if signatureOk b = false then stSignature
  else if m.rollback < s.upd.counter then stRollback
  else if combinationOk b m.parts = false then stCombination
  else if imageWhole m s.upd.rImage = false then stLength
  else if digestsHold m s.upd.rImage = false then stSignature
  else stOk

/-- The recovery slot is installed, active and in trial (R615, R616). -/
def installRecovery (s : State) : State :=
  let m := manifestOf (recoveryManifest s.upd.rImage)
  let x : Slot := { version := m.bundle, empty := false, rollback := m.rollback, parts := m.parts }
  let b := s.boot.input.recordOk && !s.upd.activeB
  let u := if b then { s.upd with slotB := x } else { s.upd with slotA := x }
  let v := { u with activeB := b, state := .trial, trial := true, saved := [], fails := 0, bothBad := false, trialAt := s.clk.opNs }
  { s with upd := recorded s.upd v }

/-- A recovery commit: its status, and on success the cold start that follows, with RECOV_N released and the boot record
rewritten (log entry 37). -/
def recoveryCommit (reply : Nat → State → State) (s : State) : State :=
  let st := recoveryStatus s
  let s1 := reply st { s with upd := { s.upd with rStatus := st } }
  if st = stOk then
    coldStart 2 { s.boot.input with recovLow := false, recordOk := true, newerOk := true, partsOk := true } (installRecovery s1)
  else s1

/-- RECOVERY_WRITE (R615, Table 05-16). -/
def execRecoveryWrite (set : Nat) (s : State) : R :=
  taskRow set 4 (fun t s =>
    if 224 < t.dataLen then finishTask set stLength 0 s
    else
      let r := recoveryWrite t.arg (bytesAt t.data 0 t.dataLen) s
      finishTask set r.2 0 r.1) s

/-- RECOVERY_COMMIT (R616). -/
def execRecoveryCommit (set : Nat) (s : State) : R :=
  taskRow set 5 (fun _ s => recoveryCommit (fun st => finishTask set st 0) s) s

/-! ## The service UART (R617) -/

/-- A frame of a type with a CRC that holds: its offset and its data (R617; byte order in log entry 38). -/
def uartFrame (kind : Nat) (b : Bytes) : Option (Nat × Bytes) :=
  let n := leAt b 2 2
  if b.length = 12 + n ∧ leAt b 0 1 = 0xA5 ∧ leAt b 1 1 = kind ∧ n ≤ 1024 ∧
      crc32c ((b.drop 1).take (7 + n)) = leAt b (8 + n) 4 then some (leAt b 4 4, (b.drop 8).take n)
  else none

/-- A good frame in ROM recovery is answered; any other is discarded. -/
def uartRow (kind : Nat) (frame : Bytes) (f : Nat → Bytes → State → State) (s : State) : R :=
  whenRunning (guard (decide (s.boot.stage = 0xE)) (fun s =>
    match uartFrame kind frame with
    | none => s
    | some (o, d) => f o d s)) s

/-- UART_RECOVERY_WRITE (R617). -/
def execUartRecoveryWrite (frame : Bytes) (s : State) : R :=
  uartRow 1 frame (fun o d s => let r := recoveryWrite o d s; emit (.uart 1 r.2) r.1) s

/-- UART_RECOVERY_COMMIT (R617). -/
def execUartRecoveryCommit (frame : Bytes) (s : State) : R :=
  uartRow 2 frame (fun _ _ s => recoveryCommit (fun st => emit (.uart 2 st)) s) s

/-- UART_RECOVERY_STATUS (R617). -/
def execUartRecoveryStatus (frame : Bytes) (s : State) : R :=
  uartRow 3 frame (fun _ _ s => emit (.uart 3 s.upd.rStatus) s) s

/-! ## The SMBus sideband (R677, Tables 13-6, 15-13) -/

/-- One bit step of the SMBus packet error check, the CRC-8 with polynomial x^8 + x^2 + x + 1. -/
def pecBit (c : Nat) : Nat := if 128 ≤ c then (c * 2 % 256) ^^^ 7 else c * 2

/-- The packet error check over a transaction's bytes. -/
def pecOf (l : List Nat) : Nat :=
  l.foldl (fun c b => pecBit (pecBit (pecBit (pecBit (pecBit (pecBit (pecBit (pecBit (c ^^^ b))))))))) 0

/-- The sideband address (Table 15-6). -/
def smbAddress (s : State) : Nat := if s.boot.smbAdr then 0x5D else 0x5C

/-- Check byte of a Block Write. -/
def writePec (s : State) (code : Nat) (d : Bytes) : Nat :=
  pecOf ([2 * smbAddress s, code, d.length] ++ d.map (·.toNat))

/-- A Block Read's answer: count, data, and the check byte where it is used. -/
def smbusAnswer (code : Nat) (pec : Bool) (d : Bytes) (s : State) : State :=
  let body := natLe 1 d.length ++ d
  let check := pecOf ([2 * smbAddress s, code, 2 * smbAddress s + 1] ++ body.map (·.toNat))
  emit (.smbus (if pec then body ++ natLe 1 check else body)) s

/-- The sideband answers (R677); in FLUSH, SPENT, OFF and while frozen it does not acknowledge its address. -/
def smbusRow (ok : State → Bool) (f : State → State) (s : State) : R :=
  .next (if running s = false then emit .nack s else if ok s then f s else emit .nack s)

/-- SIDEBAND_IDENTITY_READ (Table 15-13). -/
def execSidebandIdentityRead (pec : Bool) (s : State) : R :=
  smbusRow (fun _ => true) (fun s =>
    smbusAnswer 0x00 pec (natLe 16 (asciiNat "PLG5120-T64") ++ natLe 16 Config.serial ++ natLe 1 Config.stepping.toNat ++
      natLe 4 (fwVersion s) ++ natLe 6 Config.macBase ++ natLe 2 (if s.fab.nodeValid then s.fab.nodeId else 0xFFFF)) s) s

/-- SIDEBAND_STATUS_READ (Table 15-13). -/
def execSidebandStatusRead (lidTemp : Nat) (pec : Bool) (s : State) : R :=
  smbusRow (fun _ => true) (fun s =>
    smbusAnswer 0x01 pec (natLe 2 s.pwr.supplyMv ++ natLe 2 s.pwr.bankMv ++ natLe 2 (Config.inputPower (now s)).toNat ++ natLe 1 lidTemp ++
      natLe 1 (signed 8 (hottest s)) ++ natLe 1 s.boot.stage ++ natLe 1 (supCode s.pwr.sup) ++ natLe 1 s.pwr.state ++
      natLe 1 s.pwr.health) s) s

/-- A recovery command of the sideband: in ROM recovery alone, and with its packet error check (R677, log entry 39). -/
def recoveryRow (checked : State → Bool) (f : State → State) (s : State) : R :=
  smbusRow (fun s => decide (s.boot.stage = 0xE) && checked s) f s

/-- The check byte of a Block Write holds. -/
def pecHolds (code : Nat) (block : Bytes) (pec : Option Byte) (s : State) : Bool :=
  match pec with
  | none => false
  | some p => decide (p.toNat = writePec s code block)

/-- SMBUS_RECOVERY_WRITE (Table 13-6): a 4-byte offset and 1 to 240 bytes. -/
def execSmbusRecoveryWrite (block : Bytes) (pec : Option Byte) (s : State) : R :=
  recoveryRow (fun s => pecHolds 0xE0 block pec s && decide (5 ≤ block.length ∧ block.length ≤ 244))
    (fun s => (recoveryWrite (leAt block 0 4) (block.drop 4) s).1) s

/-- SMBUS_RECOVERY_COMMIT (Table 13-6). -/
def execSmbusRecoveryCommit (block : Bytes) (pec : Option Byte) (s : State) : R :=
  recoveryRow (fun s => pecHolds 0xE1 block pec s && block.isEmpty) (recoveryCommit (fun _ s => s)) s

/-- SMBUS_RECOVERY_STATUS (Table 13-6): status, bytes written, two bytes of 0. -/
def execSmbusRecoveryStatus (pec : Bool) (s : State) : R :=
  recoveryRow (fun _ => pec)
    (fun s => smbusAnswer 0xE2 true (natLe 2 s.upd.rStatus ++ natLe 4 s.upd.rBytes ++ natLe 2 0) s) s

end Sys2Proof.Machine
end

