-- ==== Sys2Proof/Machine/Frozen.lean ====
section
/-! DEFINITION. Freeze and its read-out through the test access port (R646 to R652). -/

namespace Sys2Proof.Machine

open Sys2Proof

/-- The module freezes (R647): the Dealer takes no new work, the write queues are drained, DRAM is in self-refresh, the clocks are
gated. -/
def freezeNow (s : State) : State :=
  let s1 := refreshSelf true (drainDram s)
  { s1 with frz := { s1.frz with state := 2, count := s1.frz.count + 1, at_ := now s, shifts := 0 } }

/-- An asserted FRZ_N is acted on once the conditions of R646 hold. -/
def tryFreeze (s : State) : State :=
  guard (s.frz.asserted && decide (s.frz.mode ≠ 0 ∧ 1 ≤ s.boot.stage ∧ s.pwr.sup = .normal ∧ s.frz.state = 0)) freezeNow s

/-- FREEZE_ENTRY (R646, R647): FRZ_N is counted as asserted. -/
def execFreezeEntry (s : State) : R := .next (tryFreeze { s with frz := { s.frz with asserted := true } })

/-- THAW (R650): FRZ_N is counted as deasserted. A supervisor that leaves NORMAL thaws in its own command. -/
def execThaw (s : State) : R := .next (thaw false { s with frz := { s.frz with asserted := false } })

/-- The FRZ_STATUS word (Table 14-6). -/
def freezeWord (s : State) : Nat :=
  pack [(0, 2, s.frz.state), (8, 8, Config.stepping.toNat), (16, 48, Config.chainBits.toNat)]

/-- A freeze instruction: outside a freeze it selects the bypass register, which captures 0 (R648). -/
def freezeRow (f : State → State) (s : State) : R := .next (if s.frz.state = 2 then f s else emit (.jtag [0]) s)

/-- FRZ_STATUS (R648). -/
def execFrzStatus (s : State) : R := freezeRow (fun s => emit (.jtag [freezeWord s]) s) s

/-- The diagnostic registers of a block, in offset order. -/
def regValues (l : List Reg) : List Nat := l.map (·.value)

/-- The blocks of the chain in the order of Table 05-7: block code of Table 14-12, and diagnostic registers. -/
def chainBlocks (s : State) : List (Nat × List Nat) :=
  [(0x01, regValues (dlrRegs s)), (0x02, regValues (antRegs s)), (0x03, regValues (jnlRegs s)), (0x04, regValues (idxRegs s)),
   (0x05, regValues (camRegs s)), (0x07, regValues (memRegs s ++ (List.range 12).flatMap (memChanRegs s))),
   (0x08, regValues ((List.range 16).flatMap (engineRegs s) ++ xtsRegs s)), (0x0A, regValues (fabRegs s)),
   (0x0B, regValues (hqRegs s)), (0x0C, regValues (pwrRegs s)), (0x0D, regValues (lifeRegs s)), (0x10, regValues (clkRegs s)),
   (0x06, (List.range 32).flatMap (fun c => regValues (medChanRegs s c ++ (List.range 16).flatMap (fun p => dieRegs s (16 * c + p)) ++
     medRegs s))),
   (0x09, (List.range 512).flatMap (fun n => regValues (lnRegs s n)))]

/-- What is read out of an internal cell of kind `k` (R649): keys and what comes of them read 0, data memories read 0 in frz_mode
1. -/
def readOut (s : State) (k : Nat) (v : Nat) : Nat :=
  if (Config.frzKind k).val = 1 ∨ ((Config.frzKind k).val = 2 ∧ s.frz.mode ≠ 2) then 0 else v

/-- Block `p` of the chain: its code, its registers, and its internal state, whose layout and length differ by stepping and are
free (R649, log entry 40). -/
def segment (k : Nat) (s : State) (p : Nat × List Nat) : List Nat :=
  [pack [(0, 8, p.1), (8, 24, (Config.freeValue 24 (s.draws + 2 * k)).toNat)]] ++ p.2 ++
    [readOut s (2 ^ 32 + k) (Config.freeValue 64 (s.draws + 2 * k + 1)).toNat]

/-- FRZ_CHAIN (R649): the header, then one segment per block; nothing held is disturbed. -/
def execFrzChain (s : State) : R :=
  freezeRow (fun s =>
    let l := (chainBlocks s).zipIdx.flatMap (fun p => segment p.2 s p.1)
    emit (.jtag (freezeWord s :: l)) { s with frz := { s.frz with shifts := s.frz.shifts + 1 }, draws := s.draws + 28 }) s

/-- FRZ_MEM (R648, R649): the 64-bit word at an address of an internal memory, whose contents by memory number the manual does
not give: a free value (log entry 40). -/
def execFrzMem (memory word : Nat) (s : State) : R :=
  freezeRow (fun s => emit (.jtag [memory % 2 ^ 32, word % 2 ^ 32, readOut s (memory % 2 ^ 32) (fresh 64 s)]) (drawn s)) s

end Sys2Proof.Machine
end

