-- ==== Sys2Proof/Machine/Clock.lean ====
section
/-! DEFINITION. Time: how fabric time and the operating time move, what a new calendar slot brings, and what the block does
when no command waits (R58, R184, R185, R320, R322, R621, log entries 5 and 6). -/

namespace Sys2Proof.Machine

open Sys2Proof

/-- The slew of R322 over `n` milliseconds: at most 100 ns in each, toward the offset. -/
def slewOver (n : Nat) (want : Int) : Int := max (-(100 * n : Int)) (min (100 * n) want)

/-- The bucket of a temperature (Table 09-12): below 40, 40 to 54, 55 to 69, 70 to 84, 85 °C or above. -/
def tempBucket (t : Int) : Nat := if t < 40 then 0 else if t < 55 then 1 else if t < 70 then 2 else if t < 85 then 3 else 4

/-- The hottest die is followed while the module runs (Table 09-12). -/
def followHeat (d : Nat) (s : State) : State :=
  let h := hottest s
  { s with med := { s.med with tempMax := max s.med.tempMax h, tempNs := s.med.tempNs.modify (tempBucket h) (· + d) } }

/-- CK_FAB cycles added or removed at a boundary, at most 16 (R185, log entry 1). -/
def freshTrim (s : State) : Int := (fresh 6 s % 33 : Nat) - 16

/-- Maintenance whose reservation ends with its last slot; the others end with a command of their own. -/
def selfEnding : Maint → Bool
  | .backgroundGc => true
  | .foregroundGc => true
  | .expiryErase => true
  | .relocation => true
  | .testSlice => false
  | .flushErase => true
  | .dramRetrain => false
  | .laneRetrain => false
  | .bankRebuild => false
  | .roleDrain => false
  | .activation => false
  | .recount => false
  | .groupRebuild => false
  | .shardRebuild => false
  | .sweep => false

/-- A new slot begins (R184, R185): what lay in earlier slots is past, and the boundary's trim is kept for the last 1,024
slots. -/
def newSlot (s : State) : State :=
  let k := slotOf (now s)
  drawn { s with ante := { s.ante with
    slot := k, maint := s.ante.maint.filter (fun m => !(selfEnding m.kind && decide (m.first + m.slots ≤ k))), resv := s.ante.resv.filter (fun r => decide (k ≤ r.slot)),
    debits := s.ante.debits.filter (fun b => decide (k ≤ b.until_)),
    trims := (freshTrim s :: s.ante.trims).take 1024 } }

/-- Fabric time moves on by `d` ns, the slew of R322 among them; the operating time moves with it while the AON domain is
powered (R47, R621). While frozen the counter does not slew (R647). -/
def advanceTime (d : Nat) (s : State) : State :=
  let t := now s + d
  let slew := if s.frz.state = 0 then slewOver (t / 1000000 - now s / 1000000) s.fab.slewNs else 0
  { s with clk := { s.clk with time := t, opNs := if s.clk.aon then s.clk.opNs + ((d : Int) - slew).toNat else s.clk.opNs },
           fab := { s.fab with slewNs := s.fab.slewNs - slew } }

/-- What time brings to the power states while the module runs in boot_stage 4: the idle times are followed, and an exit that is due
starts (R588, R590). -/
def followPower (s : State) : State :=
  if s.boot.stage ≠ 4 then s
  else
    let s1 := followIdle s
    if exitDue s1 ∧ s1.pwr.exiting = none then startExit s1 else s1

/-- Time moves on by `d` ns, and a slot that begins meanwhile takes effect. -/
def passTime (d : Nat) (s : State) : State :=
  let s1 := advanceTime d (if running s = false ∨ s.boot.stage ≠ 4 then s else followIdle s)
  if running s1 = false then s1
  else
    let s2 := followHeat d s1
    tryFreeze (lateDeassert (followPower (if slotOf (now s2) = s2.ante.slot then s2 else newSlot s2)))

/-- The 64 bits of R320 hold the time `d` ns from now. -/
def timeLeft (d : Nat) (s : State) : Bool := decide (now s + d < 2 ^ 64)

/-- Time moves on, or is exhausted. -/
def clockMoves (d : Nat) (s : State) : R := if timeLeft d s then .next (passTime d s) else .fault .fabricTimeExhausted

/-- SLOT_BOUNDARY (R184, R185): time comes to the next multiple of 16,000 ns. -/
def execSlotBoundary (s : State) : R := clockMoves (Config.slotNs - now s % Config.slotNs) s

/-- What the block does by itself while no command waits: 1 µs passes, and a boot under way goes one step on (log entry
6). -/
def idle (s : State) : R :=
  if timeLeft 1000 s then
    let s1 := passTime 1000 s
    .next (if running s1 && decide (s1.boot.stage < 4) then bootStep s1 else s1)
  else .fault .fabricTimeExhausted

end Sys2Proof.Machine
end

