-- ==== Sys2Proof/Machine/Dispatch.lean ====
section
/-! DEFINITION. The dispatch of a command to its meaning: one arm per constructor. -/

namespace Sys2Proof.Machine

open Sys2Proof

def exec (i : Instr) (s : State) : Host.Outcome State Fault Refusal :=
  match i with
  | .sqTailWrite port ctx tail head => Sys2Proof.Machine.execSqTailWrite port ctx tail head s
  | .cqHeadWrite port ctx head => Sys2Proof.Machine.execCqHeadWrite port ctx head s
  | .submissionEntryFetch ctx res => Sys2Proof.Machine.execSubmissionEntryFetch ctx res s
  | .intakeBacklogResume => Sys2Proof.Machine.execIntakeBacklogResume s
  | .admissionStep session => Sys2Proof.Machine.execAdmissionStep session s
  | .heldSequenceRelease session => Sys2Proof.Machine.execHeldSequenceRelease session s
  | .holdLimitExpiry session seq => Sys2Proof.Machine.execHoldLimitExpiry session seq s
  | .get session seq fault => Sys2Proof.Machine.execGet session seq fault s
  | .put session seq data => Sys2Proof.Machine.execPut session seq data s
  | .delete session seq => Sys2Proof.Machine.execDelete session seq s
  | .putAt session seq data => Sys2Proof.Machine.execPutAt session seq data s
  | .append session seq data => Sys2Proof.Machine.execAppend session seq data s
  | .existsKey session seq => Sys2Proof.Machine.execExistsKey session seq s
  | .compareAndPut session seq data => Sys2Proof.Machine.execCompareAndPut session seq data s
  | .expireHint session seq => Sys2Proof.Machine.execExpireHint session seq s
  | .enumerate session seq fault => Sys2Proof.Machine.execEnumerate session seq fault s
  | .trick session seq data faults => Sys2Proof.Machine.execTrick session seq data faults s
  | .flushSession session seq => Sys2Proof.Machine.execFlushSession session seq s
  | .journalQuery session seq fault => Sys2Proof.Machine.execJournalQuery session seq fault s
  | .overlapRelease session seq => Sys2Proof.Machine.execOverlapRelease session seq s
  | .commitStep session seq => Sys2Proof.Machine.execCommitStep session seq s
  | .postHeldCompletion ctx => Sys2Proof.Machine.execPostHeldCompletion ctx s
  | .coalesceTimerExpiry ctx => Sys2Proof.Machine.execCoalesceTimerExpiry ctx s
  | .coreFailure core => Sys2Proof.Machine.execCoreFailure core s
  | .coreRoleDrain core => Sys2Proof.Machine.execCoreRoleDrain core s
  | .settingRead box => Sys2Proof.Machine.execSettingRead box s
  | .settingWrite box => Sys2Proof.Machine.execSettingWrite box s
  | .namespaceRelease box => Sys2Proof.Machine.execNamespaceRelease box s
  | .namespaceFreed ns => Sys2Proof.Machine.execNamespaceFreed ns s
  | .keyGenerate box => Sys2Proof.Machine.execKeyGenerate box s
  | .keyImport box => Sys2Proof.Machine.execKeyImport box s
  | .keyZeroize box => Sys2Proof.Machine.execKeyZeroize box s
  | .kikInstall box => Sys2Proof.Machine.execKikInstall box s
  | .kikLock box => Sys2Proof.Machine.execKikLock box s
  | .timeSet box => Sys2Proof.Machine.execTimeSet box s
  | .calendarSet box => Sys2Proof.Machine.execCalendarSet box s
  | .eventStoreClear box => Sys2Proof.Machine.execEventStoreClear box s
  | .classifierOrderedInsert box => Sys2Proof.Machine.execClassifierOrderedInsert box s
  | .queueCreate box => Sys2Proof.Machine.execQueueCreate box s
  | .queueDelete box => Sys2Proof.Machine.execQueueDelete box s
  | .queueDeleteComplete ctx => Sys2Proof.Machine.execQueueDeleteComplete ctx s
  | .sessionRelease box => Sys2Proof.Machine.execSessionRelease box s
  | .sessionList box => Sys2Proof.Machine.execSessionList box s
  | .mbxJournalQuery box => Sys2Proof.Machine.execMbxJournalQuery box s
  | .ledgerSnapshot box => Sys2Proof.Machine.execLedgerSnapshot box s
  | .eventRead box => Sys2Proof.Machine.execEventRead box s
  | .diagUnlock box => Sys2Proof.Machine.execDiagUnlock box s
  | .diagUnlockExpiry port => Sys2Proof.Machine.execDiagUnlockExpiry port s
  | .mailboxUnknownCommand box => Sys2Proof.Machine.execMailboxUnknownCommand box s
  | .updateBegin box => Sys2Proof.Machine.execUpdateBegin box s
  | .updateData box => Sys2Proof.Machine.execUpdateData box s
  | .updateFinish box => Sys2Proof.Machine.execUpdateFinish box s
  | .updateActivate box => Sys2Proof.Machine.execUpdateActivate box s
  | .updateCommit box => Sys2Proof.Machine.execUpdateCommit box s
  | .updateAbort box => Sys2Proof.Machine.execUpdateAbort box s
  | .updateStatus box => Sys2Proof.Machine.execUpdateStatus box s
  | .activationPreload digestsOk => Sys2Proof.Machine.execActivationPreload digestsOk s
  | .activationWindowStart => Sys2Proof.Machine.execActivationWindowStart s
  | .activationMidpoint ready => Sys2Proof.Machine.execActivationMidpoint ready s
  | .activationWindowEnd ready => Sys2Proof.Machine.execActivationWindowEnd ready s
  | .autoCommit => Sys2Proof.Machine.execAutoCommit s
  | .bootTimeout => Sys2Proof.Machine.execBootTimeout s
  | .moduleReset set => Sys2Proof.Machine.execModuleReset set s
  | .moduleResetExecute => Sys2Proof.Machine.execModuleResetExecute s
  | .selfTest set results => Sys2Proof.Machine.execSelfTest set results s
  | .eventTail set => Sys2Proof.Machine.execEventTail set s
  | .recoveryWrite set => Sys2Proof.Machine.execRecoveryWrite set s
  | .recoveryCommit set => Sys2Proof.Machine.execRecoveryCommit set s
  | .uartRecoveryWrite frame => Sys2Proof.Machine.execUartRecoveryWrite frame s
  | .uartRecoveryCommit frame => Sys2Proof.Machine.execUartRecoveryCommit frame s
  | .uartRecoveryStatus frame => Sys2Proof.Machine.execUartRecoveryStatus frame s
  | .smbusRecoveryWrite block pec => Sys2Proof.Machine.execSmbusRecoveryWrite block pec s
  | .smbusRecoveryCommit block pec => Sys2Proof.Machine.execSmbusRecoveryCommit block pec s
  | .smbusRecoveryStatus pec => Sys2Proof.Machine.execSmbusRecoveryStatus pec s
  | .sidebandIdentityRead pec => Sys2Proof.Machine.execSidebandIdentityRead pec s
  | .sidebandStatusRead lidTemp pec => Sys2Proof.Machine.execSidebandStatusRead lidTemp pec s
  | .registerWrite port bar offset size value => Sys2Proof.Machine.execRegisterWrite port bar offset size value s
  | .rcRegisterRead port place size => Sys2Proof.Machine.execRcRegisterRead port place size s
  | .registerLowHalfRead port offset => Sys2Proof.Machine.execRegisterLowHalfRead port offset s
  | .barBadAccess port bar offset size write => Sys2Proof.Machine.execBarBadAccess port bar offset size write s
  | .configRequest cycle => Sys2Proof.Machine.execConfigRequest cycle s
  | .perstDeassert port bifSel clkSep => Sys2Proof.Machine.execPerstDeassert port bifSel clkSep s
  | .portReset port cause => Sys2Proof.Machine.execPortReset port cause s
  | .allPortsReset => Sys2Proof.Machine.execAllPortsReset s
  | .hostLinkChange port inL0 width rate => Sys2Proof.Machine.execHostLinkChange port inL0 width rate s
  | .wakeRelease => Sys2Proof.Machine.execWakeRelease s
  | .clientOpen d => Sys2Proof.Machine.execClientOpen d s
  | .clientCommand d => Sys2Proof.Machine.execClientCommand d s
  | .clientStage d => Sys2Proof.Machine.execClientStage d s
  | .clientWithdraw d => Sys2Proof.Machine.execClientWithdraw d s
  | .clientClose d => Sys2Proof.Machine.execClientClose d s
  | .clientCloseComplete session => Sys2Proof.Machine.execClientCloseComplete session s
  | .clientSessionIdle session => Sys2Proof.Machine.execClientSessionIdle session s
  | .stageIdleExpiry session handle => Sys2Proof.Machine.execStageIdleExpiry session handle s
  | .clientDatagramDrop d => Sys2Proof.Machine.execClientDatagramDrop d s
  | .clientFrameFiltered lane => Sys2Proof.Machine.execClientFrameFiltered lane s
  | .neighbourDiscovery lane v6 target sender senderMac => Sys2Proof.Machine.execNeighbourDiscovery lane v6 target sender senderMac s
  | .clientCompletionDiscard trunk => Sys2Proof.Machine.execClientCompletionDiscard trunk s
  | .hello lane node valid farLane mac serial => Sys2Proof.Machine.execHello lane node valid farLane mac serial s
  | .helloTimer => Sys2Proof.Machine.execHelloTimer s
  | .credit lane nextExp nak counts => Sys2Proof.Machine.execCredit lane nextExp nak counts s
  | .creditReturnTimer lane => Sys2Proof.Machine.execCreditReturnTimer lane s
  | .timeFrame lane msg => Sys2Proof.Machine.execTimeFrame lane msg s
  | .timeExchangeTimer => Sys2Proof.Machine.execTimeExchangeTimer s
  | .revoke lane revoked final ack => Sys2Proof.Machine.execRevoke lane revoked final ack s
  | .laneFailure lane cause => Sys2Proof.Machine.execLaneFailure lane cause s
  | .route src serial trunks valid validAt => Sys2Proof.Machine.execRoute src serial trunks valid validAt s
  | .routeFloodTimer => Sys2Proof.Machine.execRouteFloodTimer s
  | .routeRecompute => Sys2Proof.Machine.execRouteRecompute s
  | .fabricForward lane h => Sys2Proof.Machine.execFabricForward lane h s
  | .fabricFrameDrop lane cause => Sys2Proof.Machine.execFabricFrameDrop lane cause s
  | .nocreditDrop lane h => Sys2Proof.Machine.execNocreditDrop lane h s
  | .voidFrame lane h => Sys2Proof.Machine.execVoidFrame lane h s
  | .fabricOpen src request => Sys2Proof.Machine.execFabricOpen src request s
  | .fabricOpenReply src request session status => Sys2Proof.Machine.execFabricOpenReply src request session status s
  | .fabricAck peer through grant pairs => Sys2Proof.Machine.execFabricAck peer through grant pairs s
  | .fabricClose session => Sys2Proof.Machine.execFabricClose session s
  | .sessionRetransmit peer seq => Sys2Proof.Machine.execSessionRetransmit peer seq s
  | .creditReturn session seq units => Sys2Proof.Machine.execCreditReturn session seq units s
  | .idleCreditReturnTimer peer => Sys2Proof.Machine.execIdleCreditReturnTimer peer s
  | .shardHold session seq wanted times sh medium => Sys2Proof.Machine.execShardHold session seq wanted times sh medium s
  | .shardCommit session seq ns digest stampTime stampTie stampNode => Sys2Proof.Machine.execShardCommit session seq ns digest stampTime stampTie stampNode s
  | .shardDiscard session seq ns digest stampTime stampTie stampNode => Sys2Proof.Machine.execShardDiscard session seq ns digest stampTime stampTie stampNode s
  | .decide session seq ns digest stampTime stampTie stampNode ok => Sys2Proof.Machine.execDecide session seq ns digest stampTime stampTie stampNode ok s
  | .shardRead session seq ns key => Sys2Proof.Machine.execShardRead session seq ns key s
  | .rebuildWrite session seq sh => Sys2Proof.Machine.execRebuildWrite session seq sh s
  | .fabricRequestInvalid session seq code => Sys2Proof.Machine.execFabricRequestInvalid session seq code s
  | .orderRequest src request ns digest mapCrc write until_ => Sys2Proof.Machine.execOrderRequest src request ns digest mapCrc write until_ s
  | .orderReply src request ans => Sys2Proof.Machine.execOrderReply src request ans s
  | .orderTimeout request => Sys2Proof.Machine.execOrderTimeout request s
  | .writeOrderExpiry ns digest => Sys2Proof.Machine.execWriteOrderExpiry ns digest s
  | .shardHoldDeadline session seq => Sys2Proof.Machine.execShardHoldDeadline session seq s
  | .decideTimeout session seq => Sys2Proof.Machine.execDecideTimeout session seq s
  | .pendingShardResolve stampTime stampTie stampNode answer => Sys2Proof.Machine.execPendingShardResolve stampTime stampTie stampNode answer s
  | .peerFailure node => Sys2Proof.Machine.execPeerFailure node s
  | .leadHorizonEnd node => Sys2Proof.Machine.execLeadHorizonEnd node s
  | .shardRebuild ns digest => Sys2Proof.Machine.execShardRebuild ns digest s
  | .laneRetrainWindowStart lane => Sys2Proof.Machine.execLaneRetrainWindowStart lane s
  | .laneTrainingDone lane pre main post => Sys2Proof.Machine.execLaneTrainingDone lane pre main post s
  | .laneTrainingTimeout lane => Sys2Proof.Machine.execLaneTrainingTimeout lane s
  | .blockLock lane => Sys2Proof.Machine.execBlockLock lane s
  | .confirmPass lane => Sys2Proof.Machine.execConfirmPass lane s
  | .falseLock lane => Sys2Proof.Machine.execFalseLock lane s
  | .lockLoss lane => Sys2Proof.Machine.execLockLoss lane s
  | .hiBerWindow lane invalid => Sys2Proof.Machine.execHiBerWindow lane invalid s
  | .attemptCountReset lane => Sys2Proof.Machine.execAttemptCountReset lane s
  | .laneFrameReceive lane frame invalidBlocks => Sys2Proof.Machine.execLaneFrameReceive lane frame invalidBlocks s
  | .laneFrameTransmit lane => Sys2Proof.Machine.execLaneFrameTransmit lane s
  | .pauseReceived lane pfc quanta => Sys2Proof.Machine.execPauseReceived lane pfc quanta s
  | .pauseExpiry lane => Sys2Proof.Machine.execPauseExpiry lane s
  | .pauseRepeatTimer lane => Sys2Proof.Machine.execPauseRepeatTimer lane s
  | .ringFrameTaken lane => Sys2Proof.Machine.execRingFrameTaken lane s
  | .pauseWatchdog lane => Sys2Proof.Machine.execPauseWatchdog lane s
  | .pauseHoldoffEnd lane => Sys2Proof.Machine.execPauseHoldoffEnd lane s
  | .lpiEntry lane => Sys2Proof.Machine.execLpiEntry lane s
  | .lpiWake lane => Sys2Proof.Machine.execLpiWake lane s
  | .slotBoundary => Sys2Proof.Machine.execSlotBoundary s
  | .maintenanceReservationStart resv => Sys2Proof.Machine.execMaintenanceReservationStart resv s
  | .backgroundGc set => Sys2Proof.Machine.execBackgroundGc set s
  | .foregroundGc set => Sys2Proof.Machine.execForegroundGc set s
  | .gcFactorUpdate => Sys2Proof.Machine.execGcFactorUpdate s
  | .ledgerFault ledger lhs rhs unit => Sys2Proof.Machine.execLedgerFault ledger lhs rhs unit s
  | .ledgerRecountWindow => Sys2Proof.Machine.execLedgerRecountWindow s
  | .eventHoldExpiry => Sys2Proof.Machine.execEventHoldExpiry s
  | .eventStoreWriteDone => Sys2Proof.Machine.execEventStoreWriteDone s
  | .stashRetryPass => Sys2Proof.Machine.execStashRetryPass s
  | .checkpointGroupCopy => Sys2Proof.Machine.execCheckpointGroupCopy s
  | .indexSweepPass => Sys2Proof.Machine.execIndexSweepPass s
  | .indexGroupRebuild group => Sys2Proof.Machine.execIndexGroupRebuild group s
  | .classifierScrub found => Sys2Proof.Machine.execClassifierScrub found s
  | .classifierBankRebuild bank verified => Sys2Proof.Machine.execClassifierBankRebuild bank verified s
  | .rowSealTimer meld => Sys2Proof.Machine.execRowSealTimer meld s
  | .rowProgramStart meld => Sys2Proof.Machine.execRowProgramStart meld s
  | .rowProgramComplete meld failed => Sys2Proof.Machine.execRowProgramComplete meld failed s
  | .indexMoveToMedia addr => Sys2Proof.Machine.execIndexMoveToMedia addr s
  | .codewordReadComplete addr found => Sys2Proof.Machine.execCodewordReadComplete addr found s
  | .dieFailure die => Sys2Proof.Machine.execDieFailure die s
  | .dieRebuild die => Sys2Proof.Machine.execDieRebuild die s
  | .expiryEvaluation => Sys2Proof.Machine.execExpiryEvaluation s
  | .hintReclaim => Sys2Proof.Machine.execHintReclaim s
  | .meldAgeClose meld => Sys2Proof.Machine.execMeldAgeClose meld s
  | .meldEraseComplete meld failed => Sys2Proof.Machine.execMeldEraseComplete meld failed s
  | .refreshRelocation meld => Sys2Proof.Machine.execRefreshRelocation meld s
  | .wearLevelRelocation channel plane => Sys2Proof.Machine.execWearLevelRelocation channel plane s
  | .meldTableSnapshot => Sys2Proof.Machine.execMeldTableSnapshot s
  | .powerLossRecovery found => Sys2Proof.Machine.execPowerLossRecovery found s
  | .fullScanRebuild found => Sys2Proof.Machine.execFullScanRebuild found s
  | .flushSetErase setB => Sys2Proof.Machine.execFlushSetErase setB s
  | .dramRequest channel sub arrived line => Sys2Proof.Machine.execDramRequest channel sub arrived line s
  | .refreshCommand channel sub => Sys2Proof.Machine.execRefreshCommand channel sub s
  | .tempModeRead channel above => Sys2Proof.Machine.execTempModeRead channel above s
  | .activateWindowReset channel => Sys2Proof.Machine.execActivateWindowReset channel s
  | .throttleEnd channel sub port => Sys2Proof.Machine.execThrottleEnd channel sub port s
  | .trumpLong => Sys2Proof.Machine.execTrumpLong s
  | .patrolScrub channel lines corrected => Sys2Proof.Machine.execPatrolScrub channel lines corrected s
  | .driftCheck channel driftPct tempMoved => Sys2Proof.Machine.execDriftCheck channel driftPct tempMoved s
  | .dramLiveRetrain channel finished eyes => Sys2Proof.Machine.execDramLiveRetrain channel finished eyes s
  | .dramChannelFailure channel cause => Sys2Proof.Machine.execDramChannelFailure channel cause s
  | .cipherClaim requester keySlot urgent encrypt tweak nextBlock blocks => Sys2Proof.Machine.execCipherClaim requester keySlot urgent encrypt tweak nextBlock blocks s
  | .cipherRelease engine => Sys2Proof.Machine.execCipherRelease engine s
  | .cipherEngineRetire engine cause => Sys2Proof.Machine.execCipherEngineRetire engine cause s
  | .generatorReseed gen => Sys2Proof.Machine.execGeneratorReseed gen s
  | .noiseSourceFail sourceB repetition => Sys2Proof.Machine.execNoiseSourceFail sourceB repetition s
  | .noiseSourceRejoin sourceB => Sys2Proof.Machine.execNoiseSourceRejoin sourceB s
  | .maskGeneratorStop gen => Sys2Proof.Machine.execMaskGeneratorStop gen s
  | .supplyVWarn mv => Sys2Proof.Machine.execSupplyVWarn mv s
  | .supplyAboveVResume mv => Sys2Proof.Machine.execSupplyAboveVResume mv s
  | .supplyBelowVResume mv => Sys2Proof.Machine.execSupplyBelowVResume mv s
  | .resumeHoldEnd => Sys2Proof.Machine.execResumeHoldEnd s
  | .supplyVBor mv => Sys2Proof.Machine.execSupplyVBor mv s
  | .dipTimeout => Sys2Proof.Machine.execDipTimeout s
  | .supplyHigh mv => Sys2Proof.Machine.execSupplyHigh mv s
  | .flushComplete durUs energyMj endMv => Sys2Proof.Machine.execFlushComplete durUs energyMj endMv s
  | .bankExhausted mv => Sys2Proof.Machine.execBankExhausted mv s
  | .coldStart boot => Sys2Proof.Machine.execColdStart boot s
  | .bankMeasurement res => Sys2Proof.Machine.execBankMeasurement res s
  | .bankFault kind mv => Sys2Proof.Machine.execBankFault kind mv s
  | .bankFaultRetry res => Sys2Proof.Machine.execBankFaultRetry res s
  | .bankBelow35v mv => Sys2Proof.Machine.execBankBelow35v mv s
  | .bankBelow2v mv => Sys2Proof.Machine.execBankBelow2v mv s
  | .bankCharged mv => Sys2Proof.Machine.execBankCharged mv s
  | .healthStale => Sys2Proof.Machine.execHealthStale s
  | .powerStateEntry => Sys2Proof.Machine.execPowerStateEntry s
  | .powerStateExit => Sys2Proof.Machine.execPowerStateExit s
  | .istSlice res measure => Sys2Proof.Machine.execIstSlice res measure s
  | .testOverdue target inst => Sys2Proof.Machine.execTestOverdue target inst s
  | .freezeEntry => Sys2Proof.Machine.execFreezeEntry s
  | .thaw => Sys2Proof.Machine.execThaw s
  | .frzStatus => Sys2Proof.Machine.execFrzStatus s
  | .frzChain => Sys2Proof.Machine.execFrzChain s
  | .frzMem memory word => Sys2Proof.Machine.execFrzMem memory word s
  | .supplyAbove7v mv => Sys2Proof.Machine.execSupplyAbove7v mv s
  | .supplyBelow7v mv => Sys2Proof.Machine.execSupplyBelow7v mv s
  | .pllLockLoss pll => Sys2Proof.Machine.execPllLockLoss pll s
  | .managementTakeoverComplete => Sys2Proof.Machine.execManagementTakeoverComplete s
  | .powerStateExitComplete => Sys2Proof.Machine.execPowerStateExitComplete s
  | .taskCodeInvalid set => Sys2Proof.Machine.execTaskCodeInvalid set s
  | .shardReadData session seq holder committed version sh => Sys2Proof.Machine.execShardReadData session seq holder committed version sh s
  | .shardReadAllowanceExpiry session seq => Sys2Proof.Machine.execShardReadAllowanceExpiry session seq s
  | .rxLowPowerIdle lane enter => Sys2Proof.Machine.execRxLowPowerIdle lane enter s

end Sys2Proof.Machine
end

