-- ==== Sys2Proof/Safety.lean ====
section
/-! DEFINITION. The terms that statements use: the parts of the state, and what it means that a command leaves parts alone. -/

namespace Sys2Proof.Machine

open Sys2Proof

/-- The parts of the state, one per field. -/
inductive Area where
  | pending | clk | boot | cores | buf | dlr | jnl | sessions | nss | commits | ante | host | lanes | wake | fab | fabc
  | idx | cam | med | mem | xts | pwr | upd | evr | ist | frz | out | draws
  deriving DecidableEq, Repr

/-- Area `p` reads the same in `s` and in `t`. -/
def same (p : Area) (s t : State) : Prop :=
  match p with
  | .pending => t.pending = s.pending
  | .clk => t.clk = s.clk
  | .boot => t.boot = s.boot
  | .cores => t.cores = s.cores
  | .buf => t.buf = s.buf
  | .dlr => t.dlr = s.dlr
  | .jnl => t.jnl = s.jnl
  | .sessions => t.sessions = s.sessions
  | .nss => t.nss = s.nss
  | .commits => t.commits = s.commits
  | .ante => t.ante = s.ante
  | .host => t.host = s.host
  | .lanes => t.lanes = s.lanes
  | .wake => t.wake = s.wake
  | .fab => t.fab = s.fab
  | .fabc => t.fabc = s.fabc
  | .idx => t.idx = s.idx
  | .cam => t.cam = s.cam
  | .med => t.med = s.med
  | .mem => t.mem = s.mem
  | .xts => t.xts = s.xts
  | .pwr => t.pwr = s.pwr
  | .upd => t.upd = s.upd
  | .evr => t.evr = s.evr
  | .ist => t.ist = s.ist
  | .frz => t.frz = s.frz
  | .out => t.out = s.out
  | .draws => t.draws = s.draws

/-- From `s` to `t` at most the parts of `w` change. -/
def Keeps (w : List Area) (s t : State) : Prop := ∀ p, p ∉ w → same p s t

/-- Where the outcome is a next state, at most the parts of `w` have changed. -/
def KeepsR (w : List Area) (s : State) (r : R) : Prop := ∀ t, r = .next t → Keeps w s t

/-! ## What each command may change -/

/-- The parts of the state that a command may change; every other part reads the same after it. -/
def mayChange (c : Instr) : List Area :=
  match c with
  | .sqTailWrite _ _ _ _ => [.dlr, .host, .pwr, .out]
  | .cqHeadWrite _ _ _ => [.dlr, .host, .pwr, .out]
  | .submissionEntryFetch _ _ => [.dlr, .host, .out]
  | .intakeBacklogResume => [.dlr]
  | .admissionStep _ => [.clk, .dlr, .jnl, .sessions, .nss, .ante, .host, .lanes, .fab, .fabc, .cam, .med, .pwr, .evr,
      .out, .draws]
  | .heldSequenceRelease _ => [.dlr]
  | .holdLimitExpiry _ _ => [.dlr, .fab]
  | .get _ _ _ => [.dlr, .host, .lanes, .fab, .fabc, .idx, .med, .out]
  | .put _ _ _ => [.dlr, .host, .lanes, .fab, .fabc, .idx, .med, .out]
  | .delete _ _ => [.dlr, .host, .lanes, .fab, .fabc, .idx, .med, .out]
  | .putAt _ _ _ => [.dlr, .host, .lanes, .fab, .fabc, .idx, .med, .out]
  | .append _ _ _ => [.dlr, .host, .lanes, .fab, .fabc, .idx, .med, .out]
  | .existsKey _ _ => [.dlr, .host, .lanes, .fab, .fabc, .idx, .med, .out]
  | .compareAndPut _ _ _ => [.dlr, .host, .lanes, .fab, .fabc, .idx, .med, .out]
  | .expireHint _ _ => [.dlr]
  | .enumerate _ _ _ => [.dlr]
  | .trick _ _ _ _ => [.dlr, .host, .lanes, .fab, .fabc, .med, .out]
  | .flushSession _ _ => [.dlr]
  | .journalQuery _ _ _ => [.dlr]
  | .overlapRelease _ _ => [.dlr]
  | .commitStep _ _ => [.dlr, .jnl, .sessions, .nss, .commits, .ante, .host, .lanes, .fab, .fabc, .idx, .med, .mem,
      .pwr, .evr, .out, .draws]
  | .postHeldCompletion _ => [.jnl, .sessions, .host, .out]
  | .coalesceTimerExpiry _ => [.host, .out]
  | .coreFailure _ => [.cores, .dlr, .ante, .host, .evr, .out, .draws]
  | .coreRoleDrain _ => [.cores, .ante]
  | .settingRead _ => [.host, .out]
  | .settingWrite _ => [.clk, .cores, .buf, .nss, .ante, .host, .lanes, .wake, .fab, .fabc, .idx, .cam, .med, .mem,
      .xts, .pwr, .upd, .evr, .ist, .frz, .out, .draws]
  | .namespaceRelease _ => [.nss, .host, .med, .out, .draws]
  | .namespaceFreed _ => [.nss]
  | .keyGenerate _ => [.host, .xts, .out, .draws]
  | .keyImport _ => [.host, .xts, .out, .draws]
  | .keyZeroize _ => [.host, .xts, .out, .draws]
  | .kikInstall _ => [.host, .xts, .out]
  | .kikLock _ => [.host, .xts, .out]
  | .timeSet _ => [.clk, .ante, .host, .fab, .out]
  | .calendarSet _ => [.host, .evr, .out]
  | .eventStoreClear _ => [.host, .evr, .out]
  | .classifierOrderedInsert _ => [.host, .cam, .out]
  | .queueCreate _ => [.sessions, .host, .out]
  | .queueDelete _ => [.dlr, .sessions, .host, .lanes, .fab, .fabc, .out]
  | .queueDeleteComplete _ => [.sessions, .host, .fab, .out]
  | .sessionRelease _ => [.sessions, .host, .fab, .out]
  | .sessionList _ => [.host, .out]
  | .mbxJournalQuery _ => [.host, .out]
  | .ledgerSnapshot _ => [.host, .out]
  | .eventRead _ => [.host, .out]
  | .diagUnlock _ => [.host, .out]
  | .diagUnlockExpiry _ => [.host]
  | .mailboxUnknownCommand _ => [.host, .out]
  | .updateBegin _ => [.host, .upd, .out]
  | .updateData _ => [.host, .upd, .out]
  | .updateFinish _ => [.host, .upd, .out]
  | .updateActivate _ => [.ante, .host, .upd, .out]
  | .updateCommit _ => [.host, .upd, .out]
  | .updateAbort _ => [.ante, .host, .upd, .out]
  | .updateStatus _ => [.host, .out]
  | .activationPreload _ => [.ante, .upd]
  | .activationWindowStart => [.upd]
  | .activationMidpoint _ => [.clk, .cores, .buf, .nss, .ante, .host, .lanes, .wake, .fab, .fabc, .idx, .cam, .med,
      .mem, .xts, .pwr, .upd, .evr, .ist, .frz, .out, .draws]
  | .activationWindowEnd _ => [.clk, .boot, .cores, .dlr, .jnl, .sessions, .ante, .host, .lanes, .fab, .fabc, .idx,
      .cam, .med, .mem, .xts, .pwr, .upd, .evr, .ist, .frz, .out, .draws]
  | .autoCommit => [.upd]
  | .bootTimeout => [.clk, .boot, .cores, .buf, .dlr, .jnl, .sessions, .nss, .ante, .host, .lanes, .wake, .fab, .fabc,
      .idx, .cam, .med, .mem, .xts, .pwr, .upd, .evr, .ist, .frz, .out, .draws]
  | .moduleReset _ => [.jnl, .ante, .host]
  | .moduleResetExecute => [.clk, .boot, .cores, .dlr, .jnl, .sessions, .ante, .host, .lanes, .fab, .fabc, .idx, .cam,
      .med, .mem, .xts, .pwr, .upd, .evr, .ist, .frz, .out, .draws]
  | .selfTest _ _ => [.cores, .dlr, .ante, .host, .med, .mem, .xts, .pwr, .upd, .evr, .ist, .out, .draws]
  | .eventTail _ => [.host]
  | .recoveryWrite _ => [.host, .upd]
  | .recoveryCommit _ => [.clk, .boot, .cores, .dlr, .jnl, .sessions, .ante, .host, .lanes, .fab, .fabc, .idx, .cam,
      .med, .mem, .xts, .pwr, .upd, .evr, .ist, .frz, .out]
  | .uartRecoveryWrite _ => [.upd, .out]
  | .uartRecoveryCommit _ => [.clk, .boot, .cores, .dlr, .jnl, .sessions, .ante, .host, .lanes, .fab, .fabc, .idx,
      .cam, .med, .mem, .xts, .pwr, .upd, .evr, .ist, .frz, .out]
  | .uartRecoveryStatus _ => [.out]
  | .smbusRecoveryWrite _ _ => [.upd, .out]
  | .smbusRecoveryCommit _ _ => [.clk, .boot, .cores, .dlr, .jnl, .sessions, .ante, .host, .lanes, .fab, .fabc, .idx,
      .cam, .med, .mem, .xts, .pwr, .upd, .evr, .ist, .frz, .out]
  | .smbusRecoveryStatus _ => [.out]
  | .sidebandIdentityRead _ => [.out]
  | .sidebandStatusRead _ _ => [.out]
  | .registerWrite _ _ _ _ _ => [.dlr, .jnl, .host, .lanes, .pwr, .out]
  | .rcRegisterRead _ _ _ => [.clk, .dlr, .jnl, .ante, .host, .fabc, .idx, .cam, .med, .mem, .xts, .pwr, .upd, .evr,
      .ist, .frz, .out]
  | .registerLowHalfRead _ _ => [.clk, .dlr, .jnl, .ante, .host, .fabc, .idx, .cam, .med, .mem, .xts, .pwr, .upd, .evr,
      .ist, .frz, .out]
  | .barBadAccess _ _ _ _ _ => [.host, .out]
  | .configRequest _ => [.dlr, .sessions, .host, .lanes, .fab, .fabc, .out]
  | .perstDeassert _ _ _ => [.clk, .host, .pwr, .evr, .out]
  | .portReset _ _ => [.dlr, .sessions, .host, .lanes, .fab, .fabc, .out]
  | .allPortsReset => [.clk, .boot, .cores, .dlr, .jnl, .sessions, .ante, .host, .lanes, .fab, .fabc, .idx, .cam, .med,
      .mem, .xts, .pwr, .upd, .evr, .ist, .frz, .out, .draws]
  | .hostLinkChange _ _ _ _ => [.host]
  | .wakeRelease => [.host, .out]
  | .clientOpen _ => [.sessions, .host, .lanes, .fab, .fabc, .cam, .out, .draws]
  | .clientCommand _ => [.dlr, .jnl, .sessions, .host, .lanes, .fab, .fabc, .out, .draws]
  | .clientStage _ => [.sessions, .host, .lanes, .fab, .fabc, .out]
  | .clientWithdraw _ => [.dlr, .jnl, .sessions, .host, .lanes, .fab, .fabc, .out, .draws]
  | .clientClose _ => [.dlr, .sessions, .host, .lanes, .fab, .fabc, .out, .draws]
  | .clientCloseComplete _ => [.sessions, .host, .lanes, .fab, .draws]
  | .clientSessionIdle _ => [.dlr, .sessions, .host, .lanes, .fab, .fabc, .out]
  | .stageIdleExpiry _ _ => [.fab]
  | .clientDatagramDrop _ => [.sessions, .host, .lanes, .fabc, .out]
  | .clientFrameFiltered _ => [.host, .lanes, .out]
  | .neighbourDiscovery _ _ _ _ _ => [.lanes, .fab]
  | .clientCompletionDiscard _ => [.fab, .fabc]
  | .hello _ _ _ _ _ _ => [.host, .lanes, .fab, .fabc, .out]
  | .helloTimer => [.host, .lanes, .fab, .out]
  | .credit _ _ _ _ => [.host, .lanes, .fabc, .out]
  | .creditReturnTimer _ => [.host, .lanes, .out]
  | .timeFrame _ _ => [.clk, .ante, .host, .lanes, .fab, .evr, .out]
  | .timeExchangeTimer => [.host, .lanes, .fab, .out]
  | .revoke _ _ _ _ => [.ante, .host, .lanes, .fab, .fabc, .out]
  | .laneFailure _ _ => [.ante, .host, .lanes, .fab, .fabc, .out]
  | .route _ _ _ _ _ => [.host, .lanes, .fab, .fabc, .evr, .out]
  | .routeFloodTimer => [.host, .lanes, .fab, .fabc, .out]
  | .routeRecompute => [.host, .lanes, .fab, .fabc, .cam, .out]
  | .fabricForward _ _ => [.host, .lanes, .fab, .fabc, .out]
  | .fabricFrameDrop _ _ => [.host, .lanes, .fabc, .out]
  | .nocreditDrop _ _ => [.ante, .host, .lanes, .fab, .fabc, .out]
  | .voidFrame _ _ => [.host, .lanes, .fabc, .out]
  | .fabricOpen _ _ => [.sessions, .ante, .host, .lanes, .fab, .fabc, .pwr, .out]
  | .fabricOpenReply _ _ _ _ => [.host, .lanes, .fab, .fabc, .out]
  | .fabricAck _ _ _ _ => [.dlr, .host, .lanes, .fab, .fabc, .out]
  | .fabricClose _ => [.sessions, .ante, .host, .fab, .pwr]
  | .sessionRetransmit _ _ => [.host, .lanes, .fab, .fabc, .out]
  | .creditReturn _ _ _ => [.dlr, .sessions, .nss, .commits, .ante, .host, .lanes, .fab, .fabc, .idx, .med, .mem, .pwr,
      .evr, .out]
  | .idleCreditReturnTimer _ => [.host, .lanes, .fab, .fabc, .out]
  | .shardHold _ _ _ _ _ _ => [.dlr, .sessions, .nss, .commits, .ante, .host, .lanes, .fab, .fabc, .idx, .med, .mem,
      .pwr, .evr, .out]
  | .shardCommit _ _ _ _ _ _ _ => [.dlr, .sessions, .nss, .commits, .ante, .host, .lanes, .fab, .fabc, .idx, .med,
      .mem, .pwr, .evr, .out]
  | .shardDiscard _ _ _ _ _ _ _ => [.dlr, .sessions, .nss, .commits, .ante, .host, .lanes, .fab, .fabc, .idx, .med,
      .mem, .pwr, .evr, .out]
  | .decide _ _ _ _ _ _ _ _ => [.dlr, .sessions, .nss, .commits, .ante, .host, .lanes, .fab, .fabc, .idx, .med, .mem,
      .pwr, .evr, .out]
  | .shardRead _ _ _ _ => [.dlr, .sessions, .nss, .commits, .ante, .host, .lanes, .fab, .fabc, .idx, .med, .mem, .pwr,
      .evr, .out]
  | .rebuildWrite _ _ _ => [.dlr, .sessions, .nss, .commits, .ante, .host, .lanes, .fab, .fabc, .idx, .med, .mem, .pwr,
      .evr, .out]
  | .fabricRequestInvalid _ _ _ => [.dlr, .sessions, .nss, .commits, .ante, .host, .lanes, .fab, .fabc, .idx, .med,
      .mem, .pwr, .evr, .out]
  | .orderRequest _ _ _ _ _ _ _ => [.host, .lanes, .fab, .fabc, .out]
  | .orderReply _ _ _ => [.clk, .dlr, .jnl, .sessions, .nss, .ante, .host, .lanes, .fab, .fabc, .cam, .med, .pwr, .evr,
      .out, .draws]
  | .orderTimeout _ => [.dlr, .jnl, .sessions, .ante, .host, .lanes, .fab, .fabc, .out, .draws]
  | .writeOrderExpiry _ _ => [.fab]
  | .shardHoldDeadline _ _ => [.dlr, .host, .lanes, .fab, .fabc, .out]
  | .decideTimeout _ _ => [.dlr, .host, .lanes, .fab, .fabc, .out]
  | .pendingShardResolve _ _ _ _ => [.sessions, .nss, .commits, .ante, .host, .lanes, .fab, .fabc, .idx, .med, .mem,
      .pwr, .evr, .out]
  | .peerFailure _ => [.sessions, .ante, .host, .fab, .pwr]
  | .leadHorizonEnd _ => [.fab]
  | .shardRebuild _ _ => [.nss, .commits, .ante, .host, .lanes, .fab, .fabc, .idx, .med, .mem, .pwr, .evr, .out]
  | .laneRetrainWindowStart _ => [.ante, .host, .lanes, .fabc, .out]
  | .laneTrainingDone _ _ _ _ => [.lanes]
  | .laneTrainingTimeout _ => [.ante, .host, .lanes, .evr, .out]
  | .blockLock _ => [.clk, .lanes]
  | .confirmPass _ => [.ante, .host, .lanes, .fab, .fabc, .out]
  | .falseLock _ => [.host, .lanes, .out]
  | .lockLoss _ => [.ante, .host, .lanes, .fab, .fabc, .out]
  | .hiBerWindow _ _ => [.ante, .host, .lanes, .fab, .fabc, .out]
  | .attemptCountReset _ => [.lanes]
  | .laneFrameReceive _ _ _ => [.ante, .host, .lanes, .fab, .fabc, .pwr, .out]
  | .laneFrameTransmit _ => [.jnl, .sessions, .host, .lanes, .fabc, .out]
  | .pauseReceived _ _ _ => [.host, .lanes, .out]
  | .pauseExpiry _ => [.host, .lanes, .out]
  | .pauseRepeatTimer _ => [.lanes]
  | .ringFrameTaken _ => [.host, .lanes, .out]
  | .pauseWatchdog _ => [.host, .lanes, .evr, .out]
  | .pauseHoldoffEnd _ => [.lanes]
  | .lpiEntry _ => [.host, .lanes, .out]
  | .lpiWake _ => [.lanes]
  | .slotBoundary => [.clk, .ante, .host, .fab, .med, .mem, .pwr, .evr, .frz, .out, .draws]
  | .maintenanceReservationStart _ => [.ante, .mem]
  | .backgroundGc _ => [.ante, .med, .pwr]
  | .foregroundGc _ => [.ante, .med, .pwr]
  | .gcFactorUpdate => [.med]
  | .ledgerFault _ _ _ _ => [.boot, .jnl, .ante, .host, .lanes, .fab, .fabc, .xts, .pwr, .evr, .out]
  | .ledgerRecountWindow => [.jnl, .ante]
  | .eventHoldExpiry => [.host, .evr, .out]
  | .eventStoreWriteDone => [.host, .evr, .out]
  | .stashRetryPass => [.idx, .draws]
  | .checkpointGroupCopy => [.ante, .idx, .med]
  | .indexSweepPass => [.nss, .ante, .idx, .med, .pwr]
  | .indexGroupRebuild _ => [.ante, .idx]
  | .classifierScrub _ => [.ante, .host, .cam, .evr, .out]
  | .classifierBankRebuild _ _ => [.ante, .cam]
  | .rowSealTimer _ => [.ante, .med]
  | .rowProgramStart _ => [.med, .pwr]
  | .rowProgramComplete _ _ => [.boot, .dlr, .jnl, .sessions, .nss, .commits, .ante, .host, .lanes, .fab, .fabc, .idx,
      .med, .mem, .pwr, .evr, .out, .draws]
  | .indexMoveToMedia _ => [.ante, .idx, .med, .mem, .pwr]
  | .codewordReadComplete _ _ => [.dlr, .ante, .host, .fab, .med, .evr, .out]
  | .dieFailure _ => [.dlr, .ante, .host, .fab, .med, .evr, .out]
  | .dieRebuild _ => [.ante, .host, .med, .pwr, .evr, .out]
  | .expiryEvaluation => [.ante, .med]
  | .hintReclaim => [.nss, .ante, .idx, .med]
  | .meldAgeClose _ => [.ante, .med]
  | .meldEraseComplete _ _ => [.boot, .host, .med, .evr, .out]
  | .refreshRelocation _ => [.ante, .med, .pwr]
  | .wearLevelRelocation _ _ => [.ante, .med, .pwr]
  | .meldTableSnapshot => [.ante, .med]
  | .powerLossRecovery _ => [.boot, .dlr, .jnl, .sessions, .nss, .commits, .ante, .host, .lanes, .fab, .fabc, .idx,
      .med, .mem, .pwr, .upd, .evr, .out, .draws]
  | .fullScanRebuild _ => [.boot, .dlr, .jnl, .sessions, .nss, .commits, .ante, .host, .lanes, .fab, .fabc, .idx, .med,
      .mem, .pwr, .upd, .evr, .out, .draws]
  | .flushSetErase _ => [.host, .pwr, .evr, .out]
  | .dramRequest _ _ _ _ => [.dlr, .ante, .host, .idx, .mem, .evr, .out]
  | .refreshCommand _ _ => [.mem, .out]
  | .tempModeRead _ _ => [.mem]
  | .activateWindowReset _ => [.mem]
  | .throttleEnd _ _ _ => [.mem]
  | .trumpLong => [.host, .mem, .evr, .out]
  | .patrolScrub _ _ _ => [.dlr, .ante, .host, .idx, .mem, .evr, .out]
  | .driftCheck _ _ _ => [.ante]
  | .dramLiveRetrain _ _ _ => [.boot, .ante, .mem]
  | .dramChannelFailure _ _ => [.boot, .mem]
  | .cipherClaim _ _ _ _ _ _ _ => [.xts, .out]
  | .cipherRelease _ => [.xts]
  | .cipherEngineRetire _ _ => [.host, .xts, .evr, .out]
  | .generatorReseed _ => [.xts]
  | .noiseSourceFail _ _ => [.host, .xts, .evr, .out]
  | .noiseSourceRejoin _ => [.xts]
  | .maskGeneratorStop _ => [.host, .xts, .evr, .out]
  | .supplyVWarn _ => [.boot, .dlr, .sessions, .ante, .host, .lanes, .fab, .fabc, .med, .mem, .xts, .pwr, .upd, .evr,
      .frz, .out]
  | .supplyAboveVResume _ => [.boot, .dlr, .sessions, .ante, .host, .lanes, .fab, .fabc, .med, .mem, .xts, .pwr, .upd,
      .evr, .frz, .out]
  | .supplyBelowVResume _ => [.boot, .dlr, .sessions, .ante, .host, .lanes, .fab, .fabc, .med, .mem, .xts, .pwr, .upd,
      .evr, .frz, .out]
  | .resumeHoldEnd => [.boot, .dlr, .sessions, .ante, .host, .lanes, .fab, .fabc, .med, .mem, .xts, .pwr, .upd, .evr,
      .frz, .out]
  | .supplyVBor _ => [.boot, .dlr, .sessions, .ante, .host, .lanes, .fab, .fabc, .med, .mem, .xts, .pwr, .upd, .evr,
      .frz, .out]
  | .dipTimeout => [.boot, .dlr, .sessions, .ante, .host, .lanes, .fab, .fabc, .med, .mem, .xts, .pwr, .upd, .evr,
      .frz, .out]
  | .supplyHigh _ => [.host, .pwr, .evr, .out]
  | .flushComplete _ _ _ => [.pwr, .draws]
  | .bankExhausted _ => [.clk, .pwr]
  | .coldStart _ => [.clk, .boot, .cores, .dlr, .jnl, .sessions, .ante, .host, .lanes, .fab, .fabc, .idx, .cam, .med,
      .mem, .xts, .pwr, .upd, .evr, .ist, .frz, .out]
  | .bankMeasurement _ => [.host, .pwr, .evr, .out]
  | .bankFault _ _ => [.host, .pwr, .evr, .out]
  | .bankFaultRetry _ => [.host, .pwr, .evr, .out]
  | .bankBelow35v _ => [.host, .pwr, .evr, .out]
  | .bankBelow2v _ => [.host, .pwr, .evr, .out]
  | .bankCharged _ => [.host, .pwr, .evr, .out]
  | .healthStale => [.host, .pwr, .evr, .out]
  | .powerStateEntry => [.mem, .pwr, .out]
  | .powerStateExit => [.host, .pwr, .out]
  | .istSlice _ _ => [.cores, .dlr, .ante, .host, .med, .mem, .xts, .pwr, .upd, .evr, .ist, .out, .draws]
  | .testOverdue _ _ => [.host, .evr, .ist, .out]
  | .freezeEntry => [.mem, .frz, .out]
  | .thaw => [.dlr, .sessions, .ante, .host, .lanes, .fab, .fabc, .med, .mem, .pwr, .upd, .evr, .frz, .out]
  | .frzStatus => [.out]
  | .frzChain => [.frz, .out, .draws]
  | .frzMem _ _ => [.out, .draws]
  | .supplyAbove7v _ => [.clk, .pwr]
  | .supplyBelow7v _ => [.clk, .pwr]
  | .pllLockLoss _ => [.clk]
  | .managementTakeoverComplete => [.cores]
  | .powerStateExitComplete => [.ante, .mem, .pwr]
  | .taskCodeInvalid _ => [.host]
  | .shardReadData _ _ _ _ _ _ => [.dlr, .jnl, .sessions, .nss, .commits, .ante, .host, .lanes, .fab, .fabc, .idx,
      .med, .mem, .pwr, .evr, .out, .draws]
  | .shardReadAllowanceExpiry _ _ => [.dlr, .jnl, .sessions, .nss, .commits, .ante, .host, .lanes, .fab, .fabc, .idx,
      .med, .mem, .pwr, .evr, .out, .draws]
  | .rxLowPowerIdle _ _ => [.host, .lanes, .out]

/-- The command acts on the module only while it runs, that is powered and not frozen (log entry 3). The others are events of
the power block, of the cipher engines that a flush goes on using, of the always-on domain, of the sideband and of the freeze
port, and the passing of a slot. -/
def onlyWhenRunning (c : Instr) : Bool :=
  match c with
  | .bankMeasurement _ => false
  | .bankFault _ _ => false
  | .bankFaultRetry _ => false
  | .bankBelow35v _ => false
  | .bankBelow2v _ => false
  | .bankCharged _ => false
  | .healthStale => false
  | .cipherClaim _ _ _ _ _ _ _ => false
  | .cipherRelease _ => false
  | .supplyVWarn _ => false
  | .supplyAboveVResume _ => false
  | .supplyBelowVResume _ => false
  | .resumeHoldEnd => false
  | .supplyVBor _ => false
  | .dipTimeout => false
  | .supplyHigh _ => false
  | .flushComplete _ _ _ => false
  | .bankExhausted _ => false
  | .supplyAbove7v _ => false
  | .supplyBelow7v _ => false
  | .coldStart _ => false
  | .sidebandIdentityRead _ => false
  | .sidebandStatusRead _ _ => false
  | .smbusRecoveryWrite _ _ => false
  | .smbusRecoveryCommit _ _ => false
  | .smbusRecoveryStatus _ => false
  | .freezeEntry => false
  | .thaw => false
  | .frzStatus => false
  | .frzChain => false
  | .frzMem _ _ => false
  | .slotBoundary => false
  | _ => true

/-! ## Commands in flight, sessions and requests that a statement speaks of -/

/-- A single unprotected command in flight that its session and keys let run, its media readable. -/
def runsAlone (s : State) (f : InFlight) (op : Nat) : Prop :=
  running s = true ∧ findFlight s f.session f.seq = some f ∧ f.cmd.opcode = op ∧ f.trick = none ∧ f.prot = none ∧
    mayRun s f = true ∧ mediaLost s f = false

/-- The command has been worked out: it is still in flight, planned as `p`. -/
def plannedAs (t : State) (f : InFlight) (p : Plan) : Prop :=
  ∃ g, findFlight t f.session f.seq = some g ∧ g.phase = .planned ∧ g.plan = p

/-- A client datagram of type `kind` that reaches its session `x` over trunk `t` (R331, R335, R692). -/
def clientReaches (s : State) (d : Dgram) (kind t : Nat) (x : Session) : Prop :=
  running s = true ∧ arrivalTrunk s d = some t ∧ headerOk d = true ∧ clientType d.kind = true ∧ tooShortOrLong d = false ∧
    d.kind = kind ∧ sessionFor s d t = some x

/-- A fabric request that its session takes now: it is the next in order, within credit, and no other came early. -/
def takesNext (s : State) (id seq : Nat) (q : FabReq) (x : Session) : Prop :=
  running s = true ∧ dealerOn s = true ∧ joined s = true ∧ sessFind s id = some x ∧ x.kind = .fabric ∧
    x.draining = false ∧ seq = x.next ∧ reqUnits q ≤ unusedUnits x.credit ∧ s.fab.early = []

/-! ## Mailboxes and lanes that a statement speaks of -/

/-- Mailbox `b` holds a command of code `code` whose go write is the oldest, and nothing refuses it before its own checks
(R251, R252). -/
def boxRuns (s : State) (b : Nat) (x : Mailbox) (code : Nat) (managed : Bool) : Prop :=
  running s = true ∧ s.host.goQueue.head? = some b ∧ boxAt s b = x ∧ x.busy = true ∧ x.command = code ∧
  boxRefusal s b x managed = none

/-- The oldest go write is taken from its queue (R252). -/
def boxTaken (s : State) : State := { s with host := { s.host with goQueue := s.host.goQueue.tail } }

/-- Mailbox `b` has ended its command: no longer busy, with this status and these output bytes (R250, R252). -/
def boxSays (t : State) (b status : Nat) (out : Bytes) : Prop :=
  (boxAt t b).busy = false ∧ (boxAt t b).status = status ∧ (boxAt t b).outLen = out.length ∧
  bytesAt (boxAt t b).payload 0 out.length = out

/-- Mailbox `b` runs a SETTING_WRITE of `page` that its port, the format version, the length and the target allow (R254). -/
def pageRuns (s : State) (b page : Nat) (x : Mailbox) : Prop :=
  boxRuns s b x 0x0011 true ∧ x.page = page ∧ x.format = pageFormat s page ∧
  (∃ n, pageOf page = some (x.inLen, n) ∧ x.target < n)
/-- The module runs, serves its lanes, and `lane` is one of the 512 (R345). -/
def laneServed (s : State) (lane : Nat) : Prop := running s = true ∧ lanesServe s = true ∧ lane < 512

/-! ## Invariants -/

/-- What holds of the supply in every state that a run reaches (R563, R564, R570, R586, R650): the charger runs in NORMAL only
and with no bank fault, the input path is closed in NORMAL, DIP and RESUME only, the bleed is on in OFF only, and a module
that is frozen is in NORMAL. -/
def supplyOk (s : State) : Prop :=
  (s.pwr.charger = true → s.pwr.sup = .normal ∧ s.pwr.fault = 0) ∧ (s.pwr.input = true → watching s = true) ∧
  (s.pwr.bleed = true → s.pwr.sup = .off) ∧ (s.frz.state = 0 ∨ (s.frz.state = 2 ∧ s.pwr.sup = .normal))

end Sys2Proof.Machine
end

