-- ==== Sys2Proof/Certificates/Slice0/Obligations.lean ====
section
/-! DEFINITION. The statements for the provers: what each command does, what it leaves alone, and what holds of every step. -/

open Sys2Proof
open Sys2Proof.Machine

/-! ## Supply, hold-up bank, power states, time (chapters 02, 12, 15) -/

/-- The supply supervisor's moves among NORMAL, DIP and RESUME (R562 to R565): each event moves it from the states Table
12-2 names and from no other, with the counts and times that belong to the move; where the same sample meets the
condition of a transition to FLUSH as well, FLUSH is entered (R563). Completes: supplyVWarn, supplyAboveVResume,
supplyBelowVResume, resumeHoldEnd. -/
def Obligations.SupplySupervisorMoves : Prop :=
  ∀ (s : State) (mv : Nat),
    (s.pwr.sup = .normal → 9000 ≤ mv → ∃ t, exec (.supplyVWarn mv) s = .next t ∧ t.pwr.sup = .dip ∧ t.pwr.leftAt = now s ∧
      t.pwr.supplyMv = mv ∧ t.pwr.charger = false ∧ t.pwr.measuring = false ∧ t.pwr.dips = s.pwr.dips + 1 ∧
      t.frz.state = 0) ∧
    (s.pwr.sup ≠ .normal → exec (.supplyVWarn mv) s = .next s) ∧
    (s.pwr.sup = .dip → flushInstead mv s = none → ∃ t, exec (.supplyAboveVResume mv) s = .next t ∧
      t = { s with pwr := { s.pwr with sup := .resume, aboveAt := now s, supplyMv := mv } }) ∧
    (s.pwr.sup ≠ .dip → ∃ t, exec (.supplyAboveVResume mv) s = .next t ∧ t.pwr.sup = s.pwr.sup) ∧
    (s.pwr.sup = .resume → flushInstead mv s = none → ∃ t, exec (.supplyBelowVResume mv) s = .next t ∧ t.pwr.sup = .dip ∧
      t.pwr.leftAt = s.pwr.leftAt ∧ t.pwr.dips = s.pwr.dips + 1) ∧
    (s.pwr.sup ≠ .resume → ∃ t, exec (.supplyBelowVResume mv) s = .next t ∧ t.pwr.sup = s.pwr.sup ∧
      t.pwr.dips = s.pwr.dips) ∧
    (s.pwr.sup = .resume → flushInstead s.pwr.supplyMv s = none → s.pwr.aboveAt + 5000000 ≤ now s →
      ∃ t, exec .resumeHoldEnd s = .next t ∧ t.pwr.sup = .normal ∧ t.pwr.charger = decide (s.pwr.fault = 0) ∧
      t.med.held = []) ∧
    (s.pwr.sup = .resume → now s < s.pwr.aboveAt + 5000000 → exec .resumeHoldEnd s = .next s) ∧
    (s.pwr.sup = .normal → mv < 9000 → ∃ t, exec (.supplyVWarn mv) s = .next t ∧ t.pwr.sup = .flush) ∧
    (s.pwr.sup = .dip → (flushInstead mv s).isSome = true → ∃ t, exec (.supplyAboveVResume mv) s = .next t ∧
      t.pwr.sup = .flush) ∧
    (s.pwr.sup = .resume → (flushInstead mv s).isSome = true → ∃ t, exec (.supplyBelowVResume mv) s = .next t ∧
      t.pwr.sup = .flush) ∧
    (inDip s = true → ((flushInstead mv s).isSome = true ↔
      mv < 9000 ∨ s.pwr.leftAt + s.pwr.dipMaxMs * 1000000 ≤ now s))

/-- Loss of supply (R44, R563, R566): V_BOR in any of NORMAL, DIP and RESUME, and the end of dip_max_ms in the latter
two, enter FLUSH; the input path opens, the Dealer holds nothing that waits to be taken in, and a flush set is being
written unless none is ready. A supply above its limit moves nothing of the power block but its reading (R562, Table
12-1). Completes: supplyVBor, dipTimeout, supplyHigh. -/
def Obligations.LossOfSupplyEntersFlush : Prop :=
  ∀ (s : State) (mv : Nat),
    (watching s = true → ∃ t, exec (.supplyVBor mv) s = .next t ∧ t.pwr.sup = .flush ∧ t.pwr.leftAt = now s ∧
      t.pwr.input = false ∧ t.pwr.flushes = s.pwr.flushes + 1 ∧ t.pwr.brownouts = s.pwr.brownouts + 1 ∧
      t.boot.recover = true ∧ t.frz.state = 0 ∧ t.dlr.arrived = [] ∧ t.dlr.backlog = [] ∧
      (unrecovered s = false → t.pwr.written = readySet s.pwr)) ∧
    (watching s = false → exec (.supplyVBor mv) s = .next s) ∧
    (inDip s = true → s.pwr.leftAt + s.pwr.dipMaxMs * 1000000 ≤ now s → ∃ t, exec .dipTimeout s = .next t ∧
      t.pwr.sup = .flush ∧ t.pwr.timeouts = s.pwr.timeouts + 1 ∧ t.pwr.flushes = s.pwr.flushes + 1 ∧ t.boot.recover = true) ∧
    (inDip s = false → exec .dipTimeout s = .next s) ∧
    (watching s = true → ∃ t, exec (.supplyHigh mv) s = .next t ∧ t.pwr = { s.pwr with supplyMv := mv })

/-- The end of a flush, the exhausted bank and the always-on domain (R47, R563, R584, R586), and the loss of a PLL's
lock. Completes: flushComplete, bankExhausted, supplyAbove7v, supplyBelow7v, pllLockLoss. -/
def Obligations.FlushEndsAndPowerGoes : Prop :=
  ∀ (s : State) (durUs energyMj mv pll : Nat),
    (s.pwr.sup = .flush → ∃ t, exec (.flushComplete durUs energyMj mv) s = .next t ∧ t.pwr.sup = .spent ∧
      t.pwr.flushUs = durUs ∧ t.pwr.flushMj = energyMj ∧ t.pwr.flushMv = mv ∧ t.pwr.complete = s.pwr.written.isSome ∧
      (s.pwr.written.isSome = true → ∃ crc, t.pwr.closing = some (flushParts s, crc))) ∧
    (s.pwr.sup ≠ .flush → exec (.flushComplete durUs energyMj mv) s = .next s) ∧
    (s.pwr.sup = .flush ∨ s.pwr.sup = .spent → mv < 14000 → ∃ t, exec (.bankExhausted mv) s = .next t ∧ t.pwr.sup = .off ∧
      t.pwr.bleed = true ∧ t.clk.aon = decide (7000 < s.pwr.supplyMv) ∧ t.clk.time = s.clk.time) ∧
    (watching s = true → exec (.bankExhausted mv) s = .next s) ∧
    (s.pwr.sup = .off → ∃ t, exec (.supplyAbove7v mv) s = .next t ∧ t.clk = { s.clk with aon := true } ∧
      t.pwr = { s.pwr with supplyMv := mv }) ∧
    (s.pwr.sup = .off → ∃ t, exec (.supplyBelow7v mv) s = .next t ∧ t.clk = { s.clk with aon := false } ∧
      t.pwr = { s.pwr with supplyMv := mv }) ∧
    (s.pwr.sup ≠ .off → ∃ t, exec (.supplyAbove7v mv) s = .next t ∧ exec (.supplyBelow7v mv) s = .next t ∧ t.clk = s.clk ∧
      t.pwr = { s.pwr with supplyMv := mv }) ∧
    (running s = true → ∃ t, exec (.pllLockLoss pll) s = .next t ∧ t.clk.unlocks = s.clk.unlocks + 1 ∧
      (pll = 0 → t.clk.rootLost = true) ∧ (pll ≠ 0 → pll - 1 ∈ t.clk.unlocked) ∧ t.clk.cycles = s.clk.cycles)

/-- A cold start (R17, R325, R675): from OFF, and from SPENT, the module starts again at boot_stage 0 with one power
cycle more, fabric time 1,000,000 ns above the last stamp, or 0 where there is none, the bank not yet measured and no
kitty target, the fabric counters at 0, the flash and the namespaces kept; elsewhere the event changes nothing.
Completes: coldStart. -/
def Obligations.ColdStartBegins : Prop :=
  ∀ (s : State) (boot : BootInput),
    (s.pwr.sup = .off ∨ s.pwr.sup = .spent → ∃ t, exec (.coldStart boot) s = .next t ∧ t.boot.stage = 0 ∧
      t.boot.input = boot ∧ t.boot.smbAdr = boot.smbAdr ∧ t.pwr.sup = .normal ∧ t.pwr.charger = false ∧
      t.pwr.input = false ∧ t.clk.rootLock = false ∧ t.pwr.pinZero = false ∧ t.pwr.bleed = false ∧ t.pwr.valid = false ∧ t.pwr.target = 0 ∧
      t.clk.cycles = s.clk.cycles + 1 ∧ t.clk.cause = (if s.pwr.sup = .spent then 1 else 0) ∧
      (s.clk.stamped = true → t.clk.time = s.clk.stamp.time + 1000000) ∧ (s.clk.stamped = false → t.clk.time = 0) ∧
      t.fabc = {} ∧ t.frz.state = 0 ∧ t.med.flash = s.med.flash ∧ t.nss = s.nss) ∧
    (watching s = true ∨ s.pwr.sup = .flush → exec (.coldStart boot) s = .next s)

/-- Recovery after a flush (R481) and the rebuild by full scan (R407, R483, R585): with a checkpoint that can be used the
module reaches boot_stage 4 at once; without one, recovery asks for the scan, and the scan reaches boot_stage 4. Both end
with no flush set kept and no loss left to recover. Completes: powerLossRecovery, fullScanRebuild. -/
def Obligations.RecoveryReachesService : Prop :=
  ∀ (s : State) (found : RecoveryInput), running s = true → s.boot.stage = 3 → s.boot.recover = true →
    (checkpointOk found s = true → ∃ t, exec (.powerLossRecovery found) s = .next t ∧ t.boot.stage = 4 ∧
      t.boot.recover = false ∧ t.pwr.written = none ∧ t.med.recovery = 0 ∧ t.upd.fails = 0) ∧
    (checkpointOk found s = false → ∃ t, exec (.powerLossRecovery found) s = .next t ∧ t.boot = s.boot ∧
      t.med.recovery = 4 ∧ t.idx.mode = 3) ∧
    (∃ t, exec (.fullScanRebuild found) s = .next t ∧ t.boot.stage = 4 ∧ t.boot.recover = false ∧ t.boot.chanFail = none ∧
      t.pwr.written = none ∧ t.med.recovery = 0)

/-- Bank faults (R570, R573): a fault of Table 12-5 whose condition is seen has its code, stops the charger and lays the
kitty target at 0; a measurement that ends, or a retry that succeeds, takes capacitance and resistance, computed from its
samples (R572), into the health of R573 and clears the fault; the two low-voltage events, the end of charging and stale
health do what R574, R575 and R687 say; a flush set whose erase is over is ready. What a failed retry leaves is the
model's choice (log entry 110). Completes: bankFault, bankMeasurement, bankFaultRetry, bankBelow35v, bankBelow2v,
bankCharged, healthStale, flushSetErase. -/
def Obligations.HoldUpBankEvents : Prop :=
  ∀ (s : State) (mv : Nat) (m : BankMeasure), watching s = true →
    (∀ kind, faultSeen s mv kind = true → ∃ t, exec (.bankFault kind mv) s = .next t ∧ t.pwr.fault = bankFaultCode kind ∧
      t.pwr.faultAt = now s ∧ t.pwr.charger = false ∧ t.pwr.measuring = false ∧ t.pwr.target = 0 ∧ t.pwr.bankMv = mv) ∧
    (s.pwr.measuring = true → ∃ t, exec (.bankMeasurement (some m)) s = .next t ∧ t.pwr.valid = true ∧ t.pwr.fault = 0 ∧
      t.pwr.health = healthPct (capOf m) (esrOf m) ∧ t.pwr.availMj = availMj (capOf m) (esrOf m) ∧
      t.pwr.capUf = 4500000000 / m.fallUv ∧ t.pwr.esr = m.stepUv / 500 ∧ t.pwr.charger = decide (s.pwr.sup = .normal) ∧
      t.pwr.measuring = false ∧ t.pwr.measAt = now s) ∧
    (s.pwr.measuring = true → ∃ t, exec (.bankMeasurement none) s = .next t ∧ t.pwr.fault = 5 ∧ t.pwr.target = 0 ∧
      t.pwr.charger = false) ∧
    (s.pwr.sup = .normal → s.pwr.fault ≠ 0 → s.pwr.faultAt + 10000000000 ≤ now s →
      ∃ t, exec (.bankFaultRetry (some m)) s = .next t ∧ t.pwr.fault = 0 ∧
      t.pwr.health = healthPct (capOf m) (esrOf m) ∧ t.pwr.charger = true) ∧
    (s.pwr.sup = .normal → s.pwr.fault ≠ 0 → s.pwr.faultAt + 10000000000 ≤ now s →
      ∃ t, exec (.bankFaultRetry none) s = .next t ∧
      t.pwr.fault = s.pwr.fault ∧ t.pwr.faultAt = now s ∧ t.pwr.meas = s.pwr.meas + 1) ∧
    (s.pwr.measuring = false → mv < 35000 → ∃ t, exec (.bankBelow35v mv) s = .next t ∧ t.pwr.target = 0 ∧
      t.pwr.valid = false ∧ t.pwr.charger = s.pwr.charger ∧ t.pwr.bankMv = mv) ∧
    (s.pwr.measuring = false → mv < 2000 → ∃ t, exec (.bankBelow2v mv) s = .next t ∧ t.pwr.target = 0 ∧ t.pwr.valid = false ∧
      t.pwr.charger = decide (s.pwr.fault = 0 ∧ s.pwr.sup = .normal) ∧ t.pwr.bankMv = mv) ∧
    (s.pwr.valid = false → s.pwr.fault = 0 → s.boot.stage < 4 → s.pwr.sup = .normal → 35500 ≤ mv →
      ∃ t, exec (.bankCharged mv) s = .next t ∧ t.pwr.low = false ∧ t.pwr.measuring = true ∧ t.pwr.charger = false) ∧
    (s.pwr.valid = false → s.pwr.fault = 0 → 4 ≤ s.boot.stage → 35500 ≤ mv → ∃ t, exec (.bankCharged mv) s = .next t ∧
      t.pwr.low = false ∧ t.pwr.wanted = true ∧ t.pwr.measuring = s.pwr.measuring) ∧
    (s.pwr.measAt + 2 * s.pwr.healthH * 3600000000000 ≤ now s → ∃ t, exec .healthStale s = .next t ∧ t.pwr.stale = true ∧
      t.pwr.target ≤ gib) ∧
    (∀ e, running s = true → s.pwr.aErase = some e → e ≤ now s → ∃ t, exec (.flushSetErase false) s = .next t ∧
      t.pwr.aReady = true ∧ t.pwr.aErase = none ∧ t.pwr.bReady = s.pwr.bReady) ∧
    (∀ e, running s = true → s.pwr.bErase = some e → e ≤ now s → ∃ t, exec (.flushSetErase true) s = .next t ∧
      t.pwr.bReady = true ∧ t.pwr.bErase = none ∧ t.pwr.aReady = s.pwr.aReady)

/-- Power states and time (R203, R204, R588, R184): a module in service notes for each of P1 to P3 since when its
conditions hold and forgets it when they do not, and enters the deepest state its timers permit; a request starts the
exit, which takes the state's latency; an exit ends in P0 once its latency is over; a slot boundary brings time to the
next multiple of 16,000 ns while the 64 bits of R320 hold it. Completes: powerStateEntry, powerStateExit,
powerStateExitComplete, slotBoundary. -/
def Obligations.PowerStatesAndTime : Prop :=
  ∀ s : State,
    (running s = true → s.boot.stage = 4 → s.pwr.sup = .normal → s.pwr.exiting = none →
      (s.pwr.state < deepest (followIdle s) → ∃ t, exec .powerStateEntry s = .next t ∧
        t.pwr.state = deepest (followIdle s)) ∧
      (deepest (followIdle s) ≤ s.pwr.state → ∃ t, exec .powerStateEntry s = .next t ∧ t = followIdle s) ∧
      (∀ k, k = 1 ∨ k = 2 ∨ k = 3 → (idleState s k = false → tfind (followIdle s).pwr.idleAt k = none) ∧
        (idleState s k = true → tfind s.pwr.idleAt k = none → tfind (followIdle s).pwr.idleAt k = some (now s)) ∧
        (∀ a, idleState s k = true → tfind s.pwr.idleAt k = some a → tfind (followIdle s).pwr.idleAt k = some a))) ∧
    (running s = true → 0 < s.pwr.state → s.pwr.exiting = none → ∃ t, exec .powerStateExit s = .next t ∧
      t.pwr.exiting = some (now s + Config.exitUs s.pwr.state * 1000) ∧ t.pwr.state = s.pwr.state) ∧
    (∀ e, running s = true → s.pwr.exiting = some e → e ≤ now s → ∃ t, exec .powerStateExitComplete s = .next t ∧
      t.pwr.state = 0 ∧ t.pwr.exiting = none ∧ t.pwr.idleAt = []) ∧
    (∀ e, running s = true → s.pwr.exiting = some e → now s < e → exec .powerStateExitComplete s = .next s) ∧
    (now s + 16000 < 2 ^ 64 → ∃ t, exec .slotBoundary s = .next t ∧ now t % 16000 = 0 ∧ now s < now t ∧
      now t ≤ now s + 16000) ∧
    (2 ^ 64 ≤ now s + (16000 - now s % 16000) → exec .slotBoundary s = .fault .fabricTimeExhausted)

/-! ## The cipher block (chapter 11) -/

/-- Claims of a cipher engine (R546 to R548): the lowest-numbered free engine is granted; with none free an urgent claim
takes the engine of a normal message, which goes back to its requester, and any other claim waits behind those that wait.
A release counts the bytes and frees the engine, or grants it to a claim that waits (R550). A normal message whose last
block has been released is released and not suspended (R550); otherwise the lock passes 20 ns later, when the pipeline is
empty (R547). Completes: cipherClaim, cipherRelease. -/
def Obligations.CipherClaimAndRelease : Prop :=
  ∀ (s : State) (requester keySlot tweak nextBlock blocks : Nat) (urgent encrypt : Bool) (m : Msg),
    m = { requester := requester, keySlot := keySlot, urgent := urgent, encrypt := encrypt, tweak := tweak % 2 ^ 128,
          next := nextBlock, blocks := blocks } → cipherOn s = true →
    (claimValid m = true →
      (∀ n, freeEngine s = some n → ∃ t, exec (.cipherClaim requester keySlot urgent encrypt tweak nextBlock blocks) s = .next t ∧
        (engineAt t n).owner = some m ∧ (engineAt t n).at_ = now s ∧ t.xts.waiting = s.xts.waiting ∧
        ∀ k, k ≠ n → engineAt t k = engineAt s k) ∧
      (freeEngine s = none → urgent = false ∨ normalEngine s = none → ∃ t,
        exec (.cipherClaim requester keySlot urgent encrypt tweak nextBlock blocks) s = .next t ∧
        t.xts.waiting = s.xts.waiting ++ [m] ∧ t.xts.engines = s.xts.engines ∧ t.xts.waits = s.xts.waits + 1) ∧
      (∀ n v, freeEngine s = none → urgent = true → normalEngine s = some n → (engineAt s n).owner = some v →
        blocksOut (engineAt s n) v (now s) ≠ v.blocks - v.next → ∃ t,
        exec (.cipherClaim requester keySlot urgent encrypt tweak nextBlock blocks) s = .next t ∧
        (engineAt t n).owner = some m ∧ (engineAt t n).at_ = now s + 20 ∧ (engineAt t n).leaving = some v ∧
        (engineAt t n).suspends = (engineAt s n).suspends + 1 ∧
        t.xts.waiting = s.xts.waiting ++ [{ v with next := v.next + blocksTaken (engineAt s n) v (now s) }]) ∧
      (∀ n v, freeEngine s = none → urgent = true → normalEngine s = some n → (engineAt s n).owner = some v →
        blocksOut (engineAt s n) v (now s) = v.blocks - v.next → ∃ t,
        exec (.cipherClaim requester keySlot urgent encrypt tweak nextBlock blocks) s = .next t ∧
        (engineAt t n).owner = some m ∧ (engineAt t n).at_ = now s ∧ (engineAt t n).suspends = (engineAt s n).suspends ∧
        t.xts.waiting = s.xts.waiting)) ∧
    (claimValid m = false → exec (.cipherClaim requester keySlot urgent encrypt tweak nextBlock blocks) s = .next s) ∧
    (∀ engine v, (engineAt s engine).owner = some v → s.xts.waiting = [] → ∃ t, exec (.cipherRelease engine) s = .next t ∧
      (engineAt t engine).owner = none ∧ (engineAt t engine).bytes = (engineAt s engine).bytes + 16 * (v.blocks - v.next)) ∧
    (∀ engine v, (engineAt s engine).owner = some v → engine < 16 → engineTakes s engine = true → s.xts.waiting ≠ [] →
      ∃ t, exec (.cipherRelease engine) s = .next t ∧ t.xts.waiting.length < s.xts.waiting.length)

/-- The retirement of an engine, the noise sources and the generators (R553 to R555, R558): a retired engine has its
cause and no owner; a source that fails is excluded and counted, and joins again; a reseed starts a generator's count
again; a mask generator stops when neither source passes. Completes: cipherEngineRetire, generatorReseed,
noiseSourceFail, noiseSourceRejoin, maskGeneratorStop. -/
def Obligations.CipherFailures : Prop :=
  ∀ (s : State) (engine gen : Nat), running s = true →
    (∀ cause, engine < 16 → (engineAt s engine).retired = false → engineFails s engine cause = true → ∃ t, exec (.cipherEngineRetire engine cause) s = .next t ∧
      (engineAt t engine).retired = true ∧ (engineAt t engine).owner = none ∧
      (engineAt t engine).cause = engineCause cause ∧ enginesLeft t + 1 = enginesLeft s) ∧
    (noisePasses s = true → gen ≤ 16 →
      (1048576 ≤ (genAt s gen).requests ∨ (genAt s gen).at_ + s.xts.reseedMs * 1000000 ≤ now s) →
      ∃ t, exec (.generatorReseed gen) s = .next t ∧ genAt t gen = { requests := 0, at_ := now s, stopped := false } ∧
        t.xts.reseeds = s.xts.reseeds + 1 ∧ ∀ k, k ≠ gen → genAt t k = genAt s k) ∧
    (∀ repetition, s.xts.aOk = true → ∃ t, exec (.noiseSourceFail false repetition) s = .next t ∧ t.xts.aOk = false ∧
      t.xts.bOk = s.xts.bOk ∧ t.xts.rct = s.xts.rct + b2n repetition ∧ t.xts.apt = s.xts.apt + b2n (!repetition)) ∧
    (∀ repetition, s.xts.bOk = true → ∃ t, exec (.noiseSourceFail true repetition) s = .next t ∧ t.xts.bOk = false ∧
      t.xts.aOk = s.xts.aOk ∧ t.xts.rct = s.xts.rct + b2n repetition ∧ t.xts.apt = s.xts.apt + b2n (!repetition)) ∧
    (∃ t, exec (.noiseSourceRejoin false) s = .next t ∧ t.xts = { s.xts with aOk := true }) ∧
    (∃ t, exec (.noiseSourceRejoin true) s = .next t ∧ t.xts = { s.xts with bOk := true }) ∧
    (noisePasses s = false → gen < 16 → 2 ^ 32 ≤ (genAt s gen).requests → ∃ t, exec (.maskGeneratorStop gen) s = .next t ∧
      (genAt t gen).stopped = true ∧ ∀ k, k ≠ gen → genAt t k = genAt s k)

/-! ## The memory subsystem (chapter 10) -/

/-- The DRAM channels (R506, R507, R513, R515, R517): a queued read that nothing holds back is answered and leaves the
queue, a queued write goes to the device where no read waits, and a write of a whole line that reaches a controller with
room is queued and goes at once where nothing else is queued; a refresh closes the rows of the bank number whose turn it
is; a refresh rate doubles while a device asks for it and returns to base after two readings; an activate window starts
the counts again; a throttle ends at its time. Completes: dramRequest, refreshCommand, tempModeRead, activateWindowReset,
throttleEnd. -/
def Obligations.DramChannelService : Prop :=
  ∀ (s : State) (channel sub : Nat), running s = true →
    (∀ q, chanServes s channel = true → sub < 2 → (chanAt s channel).subs.length = 2 → 0 < s.mem.wqHigh →
      s.mem.waiting = [] → (subAt (chanAt s channel) sub).rfmWait = [] →
      tfind (subAt (chanAt s channel) sub).throttle q.port = none →
      ((subAt (chanAt s channel) sub).writes = [] → (subAt (chanAt s channel) sub).reads = [q] → q.merge = false →
        q.mirror = none → ∃ t, exec (.dramRequest channel sub [] []) s = .next t ∧
        (subAt (chanAt t channel) sub).reads = [] ∧ tfind (subAt (chanAt t channel) sub).opened q.bank = some q.row ∧
        Out.dram channel sub q.port q.bank q.row q.col false false ∈ t.out) ∧
      ((subAt (chanAt s channel) sub).writes = [q] → (subAt (chanAt s channel) sub).reads = [] → ∃ t,
        exec (.dramRequest channel sub [] []) s = .next t ∧ (subAt (chanAt t channel) sub).writes = [] ∧
        tfind (subAt (chanAt t channel) sub).opened q.bank = some q.row ∧
        Out.dram channel sub q.port q.bank q.row q.col true false ∈ t.out)) ∧
    (∀ d p, chanServes s channel = true → sub < 2 → (chanAt s channel).subs.length = 2 → s.mem.waiting = [] →
      (subAt (chanAt s channel) sub).rfmWait = [] → (subAt (chanAt s channel) sub).throttle = [] →
      (subAt (chanAt s channel) sub).writes = [] → (subAt (chanAt s channel) sub).reads = [] → d.write = true → d.whole = true →
      placesOf s d = [p] → p.chan = channel → p.sub = sub → ∃ t, exec (.dramRequest channel sub [d] []) s = .next t ∧
        (subAt (chanAt t channel) sub).writes = [] ∧ Out.dram channel sub d.port p.bank p.row p.col true false ∈ t.out) ∧
    (chanServes s channel = true → sub < 2 → (chanAt s channel).subs.length = 2 → ∃ t n,
      exec (.refreshCommand channel sub) s = .next t ∧ n = refreshBank s channel (subAt (chanAt s channel) sub) ∧
      (subAt (chanAt t channel) sub).refBank = (n + 1) % 4 ∧
      (∀ o ∈ (subAt (chanAt t channel) sub).opened, o.1 % 4 ≠ n) ∧ t.out = s.out ++ [.refresh channel sub n false]) ∧
    (channel < 12 → bit s.mem.privNow channel = false → ∃ t, exec (.tempModeRead channel true) s = .next t ∧
      (chanAt t channel).doubled = true ∧ (chanAt t channel).atBase = 0) ∧
    (channel < 12 → bit s.mem.privNow channel = false → (chanAt s channel).atBase = 0 → ∃ t,
      exec (.tempModeRead channel false) s = .next t ∧ (chanAt t channel).doubled = (chanAt s channel).doubled ∧
      (chanAt t channel).atBase = 1) ∧
    (channel < 12 → bit s.mem.privNow channel = false → (chanAt s channel).atBase ≠ 0 → ∃ t,
      exec (.tempModeRead channel false) s = .next t ∧ (chanAt t channel).doubled = false) ∧
    (channel < 12 → ∃ t, exec (.activateWindowReset channel) s = .next t ∧
      (∀ b ∈ (chanAt t channel).subs, b.acts = []) ∧ ∀ k, k ≠ channel → chanAt t k = chanAt s k) ∧
    (∀ port e, channel < 12 → sub < 2 → (chanAt s channel).subs.length = 2 →
      tfind (subAt (chanAt s channel) sub).throttle port = some e → e ≤ now s → ∃ t,
      exec (.throttleEnd channel sub port) s = .next t ∧ tfind (subAt (chanAt t channel) sub).throttle port = none)

/-- Trump that lasts, the patrol scrub and the drift check (R495, R510, R519): trump beyond 1 ms is marked once; the
scrub counts its lines and starts over at the end of a pass; a drift beyond its limit, a temperature that moved or the
retraining period asks for one live retraining. Completes: trumpLong, patrolScrub, driftCheck. -/
def Obligations.MemoryUpkeep : Prop :=
  ∀ (s : State) (channel : Nat), running s = true →
    (s.mem.trump = true → s.mem.trumpLong = false → s.mem.trumpAt + 1000000 < now s → ∃ t, exec .trumpLong s = .next t ∧
      t.mem = { s.mem with trumpLong := true }) ∧
    (∀ lines found, chanServes s channel = true → chanIdle s channel = true → s.mem.scrubLines + lines < allLines → ∃ t,
      exec (.patrolScrub channel lines found) s = .next t ∧ t.mem.scrubLines = s.mem.scrubLines + lines ∧
      t.mem.scrubAt = s.mem.scrubAt) ∧
    (∀ lines found, chanServes s channel = true → chanIdle s channel = true → allLines ≤ s.mem.scrubLines + lines → ∃ t,
      exec (.patrolScrub channel lines found) s = .next t ∧ t.mem.scrubLines = 0 ∧ t.mem.scrubAt = now s) ∧
    (∀ driftPct tempMoved, channel < 12 → (chanAt s channel).state = 1 → s.mem.driftPct < driftPct ∨ tempMoved = true ∨
      (s.mem.retrainH ≠ 0 ∧ (chanAt s channel).trained + s.mem.retrainH * 3600000000000 ≤ now s) →
      (∀ m ∈ s.ante.maint, m.kind ≠ .dramRetrain) → ∃ t m, exec (.driftCheck channel driftPct tempMoved) s = .next t ∧
      t.ante.maint = s.ante.maint ++ [m] ∧ m.kind = .dramRetrain ∧ m.target = channel ∧ m.slots = 125) ∧
    (∀ driftPct, channel < 12 → driftPct ≤ s.mem.driftPct → s.mem.retrainH = 0 →
      exec (.driftCheck channel driftPct false) s = .next s)

/-! ## The index and the classifier (chapters 07, 08) -/

/-- The index's own passes (R392, R402, R403, R410): a retry of the stash never makes it longer and leaves an empty one
alone; the checkpoint writer takes the image of its group at the delta sequence of that instant and goes on to the next
group, freeing no delta record that an image still needs, and leaves a failed group alone; a failed group whose
reservation has begun is rebuilt from its image and the delta log, counted, and failed no longer, the images and the
delta log kept. Completes: stashRetryPass, checkpointGroupCopy, indexGroupRebuild. -/
def Obligations.IndexPasses : Prop :=
  ∀ (s : State), running s = true →
    (∃ t, exec .stashRetryPass s = .next t ∧ t.idx.stash.length ≤ s.idx.stash.length ∧
      (s.idx.stash = [] → t = s)) ∧
    (s.idx.ckptGroup ∉ s.idx.failed → ∃ t, exec .checkpointGroupCopy s = .next t ∧
      tget imageBlank t.idx.images s.idx.ckptGroup =
        { seq := s.idx.deltaSeq, slots := s.idx.slots.filter (fun p => decide (p.1 / 16384 = s.idx.ckptGroup)),
          stash := s.idx.stash.filter (fun p => decide (groupOf p.1 = s.idx.ckptGroup)) } ∧
      (∀ g, g ≠ s.idx.ckptGroup → tget imageBlank t.idx.images g = tget imageBlank s.idx.images g) ∧
      t.idx.ckptGroup = (if s.idx.ckptGroup + 1 = Config.groups then 0 else s.idx.ckptGroup + 1) ∧
      t.idx.slots = s.idx.slots ∧ t.idx.stash = s.idx.stash ∧
      t.idx.deltas = s.idx.deltas.filter (fun d => decide (oldestImage t.idx ≤ d.seq))) ∧
    (s.idx.ckptGroup ∈ s.idx.failed → exec .checkpointGroupCopy s = .next s) ∧
    (∀ group, group ∈ s.idx.failed → groupWindow s group = true → ∃ t, exec (.indexGroupRebuild group) s = .next t ∧
      t.idx.rebuilds = s.idx.rebuilds + 1 ∧ t.idx.failed = s.idx.failed.erase group ∧
      t.idx.deltas = s.idx.deltas ∧ t.idx.images = s.idx.images ∧
      ((∀ p ∈ (rebuiltGroup s.idx group).slots, p.1 / 16384 = group) →
        ∀ k, k / 16384 ≠ group → tfind t.idx.slots k = tfind s.idx.slots k)) ∧
    (∀ group, group ∉ s.idx.failed ∨ groupWindow s group = false → exec (.indexGroupRebuild group) s = .next s)

/-- The classifier's scrub and bank rebuild (R427, R428, R432): every pass is counted and one that finds nothing does
nothing else; an error found takes its bank OFFLINE; a rebuild whose reservation has begun brings its bank back when it
verifies, a FAILED bank that does not verify stays FAILED, and a first failure within the day leaves the bank OFFLINE
with a rebuild reserved. Completes: classifierScrub, classifierBankRebuild. -/
def Obligations.ClassifierUpkeep : Prop :=
  ∀ (s : State), running s = true →
    (∃ t, exec (.classifierScrub []) s = .next t ∧ t.cam = { s.cam with passes := s.cam.passes + 1 }) ∧
    (∀ unit, unit < 32768 → (bankAt s (unit / 2048)).state = 1 → ∃ t,
      exec (.classifierScrub [{ unit := unit, parity := false, dramBad := false }]) s = .next t ∧
      (bankAt t (unit / 2048)).state = 2 ∧ t.cam.lastUnit = unit ∧ t.cam.scrubErr = s.cam.scrubErr + 1 ∧
      t.cam.passes = s.cam.passes + 1) ∧
    (∀ bank m, findMaint s .bankRebuild bank = some m → (bankAt s bank).state = 2 ∨ (bankAt s bank).state = 3 →
      m.first ≤ slotOf (now s) →
      (∃ t, exec (.classifierBankRebuild bank true) s = .next t ∧ (bankAt t bank).state = 1 ∧ (bankAt t bank).fails = []) ∧
      ((bankAt s bank).state = 3 → ∃ t, exec (.classifierBankRebuild bank false) s = .next t ∧ (bankAt t bank).state = 3) ∧
      ((bankAt s bank).state = 2 → (bankAt s bank).fails = [] → ∃ t, exec (.classifierBankRebuild bank false) s = .next t ∧
        (bankAt t bank).state = 2 ∧ (bankAt t bank).fails = [now s] ∧
        ∃ x ∈ t.ante.maint, x.kind = .bankRebuild ∧ x.target = bank)) ∧
    (∀ bank verified, findMaint s .bankRebuild bank = none → exec (.classifierBankRebuild bank verified) s = .next s)

/-! ## The media (chapter 09) -/

/-- Rows of a meld (R447, R448, R465, R475, R564): a row that waited for seal_ms is closed with what it holds, its
program reserved after the row before it, or asked for again where no slot of the horizon takes it (the model's choice,
log entry 113); a program whose slot has come and whose records are all in place begins and runs 69 slots, and in a dip it
is held instead; a meld open for too long is shut. Completes: rowSealTimer, rowProgramStart, meldAgeClose,
meldEraseComplete. -/
def Obligations.MediaRows : Prop :=
  ∀ (s : State) (meld : Nat), running s = true →
    (∀ a, (meldAt s meld).asmAt = some a → s.med.sealMs ≠ 0 → a + s.med.sealMs * 1000000 ≤ now s →
      (meldAt s meld).state = .open_ → unreserved (meldAt s meld) = [] →
      (meldAt s meld).next % rowUnits (meldAt s meld) ≠ 0 → ∃ t, exec (.rowSealTimer meld) s = .next t ∧
      (meldAt t meld).next = (asmRow (meldAt s meld) + 1) * rowUnits (meldAt s meld) ∧
      ((meldAt t meld).programs = (meldAt s meld).programs ∧ (meldAt t meld).asmAt = some a ∨
       ∃ k, (meldAt t meld).programs = (meldAt s meld).programs ++ [(asmRow (meldAt s meld), k)] ∧ slotOf (now s) < k ∧
        (meldAt s meld).lastEnd < k ∧ (meldAt t meld).lastEnd = k + 68 ∧ (meldAt t meld).asmAt = none)) ∧
    (∀ p l, (meldAt s meld).programs = p :: l → (meldAt s meld).running = none → p.2 ≤ slotOf (now s) →
      (meldAt s meld).state = .open_ → rowReady s meld p.1 = true →
      (inDip s = false → ∃ t, exec (.rowProgramStart meld) s = .next t ∧
        (meldAt t meld).running = some (now s + 69 * 16000) ∧ ∀ n, n ≠ meld → meldAt t n = meldAt s n) ∧
      (inDip s = true → meld ∉ s.med.held → ∃ t, exec (.rowProgramStart meld) s = .next t ∧
        t.med = { s.med with held := s.med.held ++ [meld] } ∧ t.pwr.rcHeld = s.pwr.rcHeld + 1)) ∧
    ((meldAt s meld).state = .open_ → s.med.openMaxH ≠ 0 →
      (meldAt s meld).openAt + s.med.openMaxH * 3600000000000 ≤ now s → ∃ t, exec (.meldAgeClose meld) s = .next t ∧
      (meldAt t meld).shut = true) ∧
    (∀ e failed, (meldAt s meld).state = .erasing → (meldAt s meld).eraseAt = some e → e ≤ now s → ∃ t,
      exec (.meldEraseComplete meld failed) s = .next t ∧ meldAt t meld = {} ∧
      (∀ p ∈ t.med.flash, p.1 / Config.meldSpan ≠ meld) ∧ (∀ n, n ≠ meld → meldAt t n = meldAt s n)) ∧
    (∀ e failed, (meldAt s meld).eraseAt = some e → now s < e → exec (.meldEraseComplete meld failed) s = .next s)

/-- Codeword reads and the move of an index entry to flash (R450 to R452, Table 09-12): each result of the ladder of R451
is counted once, a lost codeword is remembered by its address, and a record whose copy is on flash is no longer held in
DRAM. Completes: codewordReadComplete, indexMoveToMedia. -/
def Obligations.MediaReadsAndMoves : Prop :=
  ∀ (s : State) (addr : Nat), running s = true →
    (∀ bad, ∃ t, exec (.codewordReadComplete addr ⟨.clean, bad⟩) s = .next t ∧ t.med.cwCorr = s.med.cwCorr ∧
      t.med.cwRetry = s.med.cwRetry ∧ t.med.repairs = s.med.repairs ∧ t.med.unrec = s.med.unrec ∧ t.med.lost = s.med.lost) ∧
    (∀ bad, ∃ t, exec (.codewordReadComplete addr ⟨.corrected, bad⟩) s = .next t ∧ t.med.cwCorr = s.med.cwCorr + 1) ∧
    (∀ bad, ∃ t, exec (.codewordReadComplete addr ⟨.shifted, bad⟩) s = .next t ∧ t.med.cwRetry = s.med.cwRetry + 1 ∧
      (bad = [] → tget (fun _ => 0) (meldAt t (addr / Config.meldSpan)).retries (addr / 8 * 8) =
        tget (fun _ => 0) (meldAt s (addr / Config.meldSpan)).retries (addr / 8 * 8) + 1)) ∧
    (∀ bad, ∃ t, exec (.codewordReadComplete addr ⟨.soft, bad⟩) s = .next t ∧ t.med.cwRetry = s.med.cwRetry + 1 ∧
      (meldAt t (addr / Config.meldSpan)).soft = true) ∧
    (∀ bad, ∃ t, exec (.codewordReadComplete addr ⟨.reconstructed, bad⟩) s = .next t ∧ t.med.repairs = s.med.repairs + 1 ∧
      t.med.lost = s.med.lost) ∧
    (∀ bad, ∃ t, exec (.codewordReadComplete addr ⟨.lost, bad⟩) s = .next t ∧ t.med.unrec = s.med.unrec + 1 ∧
      t.med.lost = s.med.lost ++ [addr / 8 * 8]) ∧
    (∀ old, s.med.moves.find? (fun x => decide (x.1 = addr)) = some (addr, true, old) → ∃ t,
      exec (.indexMoveToMedia addr) s = .next t ∧ tfind t.mem.held old = none ∧
      t.med.moves = s.med.moves.erase (addr, true, old)) ∧
    (∀ old p e, s.med.moves.find? (fun x => decide (x.1 = addr)) = some (addr, false, old) → deadAddr s old = false →
      entryFor s false old = some (p, e) → ∃ t, exec (.indexMoveToMedia addr) s = .next t ∧
      t.idx = rewriteSpot p { e with inDram := false, loc := addr } s.idx ∧ t.mem = s.mem) ∧
    (s.med.moves.find? (fun x => decide (x.1 = addr)) = none → exec (.indexMoveToMedia addr) s = .next s)

/-- Reclaim (R455, R456, R460 to R462, R469 to R473, R480): expired melds die, a failed die leaves service and is done
with when no meld stands on it; a victim with nothing live begins its erase whichever pass chose it; the factor of R470
is 256 while the talon is at its mark; a snapshot advances the root page and names the next melds of the system stream; a
sweep stamps its time and erases the melds that were dead before it began. Completes: expiryEvaluation, hintReclaim,
dieFailure, dieRebuild, refreshRelocation, backgroundGc, foregroundGc, wearLevelRelocation, gcFactorUpdate,
meldTableSnapshot, indexSweepPass. -/
def Obligations.MediaReclaim : Prop :=
  ∀ (s : State), running s = true →
    (∀ p e, meldsIn s .full = [p] → expiryOf s p.2 = some e → e < now s → ∃ t, exec .expiryEvaluation s = .next t ∧
      (meldAt t p.1).state = .dead ∧ (meldAt t p.1).bySweep = true ∧ (meldAt t p.1).deadAt = now s) ∧
    ((∀ p ∈ meldsIn s .full, ∀ e, expiryOf s p.2 = some e → now s ≤ e) → exec .expiryEvaluation s = .next s) ∧
    (∃ t, exec .hintReclaim s = .next t ∧ t.med.flash = s.med.flash ∧
      t.med.hints = s.med.hints.map (fun h =>
        { h with swept := h.swept || (decide (s.med.hintPct ≠ 0) && !s.mem.held.any (fun p => hintCovers h p.2)) }) ∧
      ∀ h p, s.med.hints = [h] → meldsIn s .full = [p] → p.2.maxStamp < h.time → p.2.nss = [h.ns] → p.2.stream < 32 →
        h.scope = 0 ∨ (h.scope = 1 ∧ p.2.stream % 16 = h.suit) → (meldAt t p.1).state = .dead) ∧
    (∀ die, die < 512 → (dieAt s die).state = 0 → ∃ t, exec (.dieFailure die) s = .next t ∧ (dieAt t die).state = 1) ∧
    (∀ die, die < 512 → (dieAt s die).state = 1 → meldsOnDie s die = [] → ∃ t, exec (.dieRebuild die) s = .next t ∧
      (dieAt t die).state = 2) ∧
    (∀ meld, (meldAt s meld).state = .full → refreshDue s (meldAt s meld) = true →
      s.ante.relocPct ≠ 0 ∨ hardRead s (meldAt s meld) = true → ∃ t, exec (.refreshRelocation meld) s = .next t ∧
      t = relocateMeld .relocation (hardRead s (meldAt s meld)) false meld s) ∧
    (∀ set meld, set < 32 → s.ante.gcPct ≠ 0 → setTalon s set < s.med.talonBg → s.boot.readOnly = false →
      bestVictim s (victims s (some set) (now s + s.med.gcSkipH * 3600000000000)) = some meld → ∃ t,
      exec (.backgroundGc set) s = .next t ∧ t = relocateMeld .backgroundGc false false meld s) ∧
    (∀ set meld, set < 32 → setTalon s set < s.med.talonFg → bestVictim s (victims s (some set) (horizonTime s)) = some meld →
      ∃ t, exec (.foregroundGc set) s = .next t ∧ t = relocateMeld .foregroundGc true false meld s) ∧
    (∀ kind firm recovery meld, (meldAt s meld).state = .full → liveRecords s meld = [] → (∀ q ∈ s.med.melds, q.2.asm = []) → s.med.moves = [] →
      (meldAt (relocateMeld kind firm recovery meld s) meld).state = .erasing ∧
      (meldAt (relocateMeld kind firm recovery meld s) meld).eraseAt.isSome = true) ∧
    (∀ channel plane, (talonWear s channel plane).2 - (talonWear s channel plane).1 ≤ s.med.wlGap →
      exec (.wearLevelRelocation channel plane) s = .next s) ∧
    (∀ channel plane p e, s.med.wlGap ≠ 0 → s.med.wlGap < (talonWear s channel plane).2 - (talonWear s channel plane).1 →
      meldsIn s .full = [p] → meldWear s p.2 channel plane = some e → ∃ t,
      exec (.wearLevelRelocation channel plane) s = .next t ∧ t = relocateMeld .relocation false false p.1 s) ∧
    (32 * s.med.talonFg ≤ talonSum s → ∃ t, exec .gcFactorUpdate s = .next t ∧ t.med = { s.med with factor := 256 }) ∧
    (∀ n, talonSum s < 32 * s.med.talonFg → bestVictim s (victims s none (horizonTime s)) = some n → ∃ t,
      exec .gcFactorUpdate s = .next t ∧ t.med = { s.med with factor := gcFactor (liveShare s n) }) ∧
    (∃ t, exec .meldTableSnapshot s = .next t ∧ t.med.rootSeq = s.med.rootSeq + 1 ∧ t.med.nextMelds.isSome = true ∧
      t.med.flash = s.med.flash) ∧
    (∃ t, exec .indexSweepPass s = .next t ∧ t.med.sweepAt = now s ∧
      ∀ n, (meldAt s n).state = .dead → (meldAt s n).bySweep = true → (meldAt s n).deadAt ≤ s.med.sweepAt →
        (meldAt t n).state = .erasing)

/-! ## Key-value commands (chapters 03, 04) -/

/-- GET and EXISTS (R114, R115, R124): a key that is absent gives NOT_FOUND; GET beyond the value gives
RANGE_BEYOND_VALUE, otherwise the bytes of the range that the list holds, TRUNCATED where it holds fewer; EXISTS gives
the version and length. Nothing is stored. A read whose record cannot be had ends with MEDIA_UNRECOVERABLE (R115).
Completes: get, existsKey. -/
def Obligations.ReadCommandsPlan : Prop :=
  ∀ (s : State) (f : InFlight),
    (runsAlone s f 0x01 →
      (curOf s f = none → ∃ t, exec (.get f.session f.seq none) s = .next t ∧ plannedAs t f { status := stNotFound }) ∧
      (∀ x, curOf s f = some x → x.value.length < offsetOf f.cmd → ∃ t, exec (.get f.session f.seq none) s = .next t ∧
        plannedAs t f { status := stRange }) ∧
      (∀ x n got, curOf s f = some x → offsetOf f.cmd ≤ x.value.length → n = getRange f.cmd x.value.length →
        got = min n (listTotal f.cmd) → ∃ t, exec (.get f.session f.seq none) s = .next t ∧
        plannedAs t f { status := if got < n then stTruncated else stOk, version := x.version, vlen := got,
                                    data := (x.value.drop (offsetOf f.cmd)).take got }) ∧
      (∀ x k n got, curOf s f = some x → offsetOf f.cmd ≤ x.value.length → n = getRange f.cmd x.value.length →
        got = min n (listTotal f.cmd) → k < got → ∃ t, exec (.get f.session f.seq (some k)) s = .next t ∧
        plannedAs t f { status := stDma, version := x.version, vlen := k,
                                    data := ((x.value.drop (offsetOf f.cmd)).take got).take k })) ∧
    (runsAlone s f 0x06 →
      (curOf s f = none → ∃ t, exec (.existsKey f.session f.seq) s = .next t ∧
        plannedAs t f { status := stNotFound }) ∧
      (∀ x, curOf s f = some x → ∃ t, exec (.existsKey f.session f.seq) s = .next t ∧
        plannedAs t f { status := stOk, version := x.version, vlen := x.value.length })) ∧
    (running s = true → findFlight s f.session f.seq = some f → f.trick = none → f.prot = none → mayRun s f = true →
      mediaLost s f = true →
      (f.cmd.opcode = 0x01 → ∃ t, exec (.get f.session f.seq none) s = .next t ∧ plannedAs t f { status := stMedia }) ∧
      (f.cmd.opcode = 0x06 → ∃ t, exec (.existsKey f.session f.seq) s = .next t ∧ plannedAs t f { status := stMedia }))

/-- PUT, DELETE, PUT_AT, APPEND and COMPARE_AND_PUT (R116 to R123): what each stores or answers, from the value held, the
bytes brought and the fields of the command. Bytes that could not all be read end every write that carries them with
DMA_FAULT. Completes: put, delete, putAt, append, compareAndPut. -/
def Obligations.WriteCommandsPlan : Prop :=
  ∀ (s : State) (f : InFlight),
    (runsAlone s f 0x03 →
      (curOf s f = none → ∃ t, exec (.delete f.session f.seq) s = .next t ∧
        plannedAs t f { status := stNotFound }) ∧
      (∀ x, curOf s f = some x → ∃ t, exec (.delete f.session f.seq) s = .next t ∧
        plannedAs t f { status := stOk, effect := .delete f.ns f.cmd.key })) ∧
    (∀ bad, inputOf f bad = none →
      (runsAlone s f 0x02 → ∃ t, exec (.put f.session f.seq bad) s = .next t ∧
        plannedAs t f { status := stDma }) ∧
      (runsAlone s f 0x04 → ∃ t, exec (.putAt f.session f.seq bad) s = .next t ∧
        plannedAs t f { status := stDma }) ∧
      (runsAlone s f 0x05 → ∃ t, exec (.append f.session f.seq bad) s = .next t ∧
        plannedAs t f { status := stDma }) ∧
      (runsAlone s f 0x07 → ∃ t, exec (.compareAndPut f.session f.seq bad) s = .next t ∧
        plannedAs t f { status := stDma })) ∧
    (∀ brought d, inputOf f brought = some d → d.length = f.cmd.length →
    (runsAlone s f 0x02 →
      ∃ t, exec (.put f.session f.seq brought) s = .next t ∧
        plannedAs t f { status := stOk, version := versionFor s f, vlen := f.cmd.length,
                                    effect := .store f.ns f.cmd.key d f.suit }) ∧
    (runsAlone s f 0x04 →
      (curOf s f = none → ∃ t, exec (.putAt f.session f.seq brought) s = .next t ∧
        plannedAs t f { status := stNotFound }) ∧
      (∀ x, curOf s f = some x → x.value.length < offsetOf f.cmd → ∃ t,
        exec (.putAt f.session f.seq brought) s = .next t ∧ plannedAs t f { status := stRange }) ∧
      (∀ x, curOf s f = some x → offsetOf f.cmd ≤ x.value.length → f.cmd.length = 0 → ∃ t,
        exec (.putAt f.session f.seq brought) s = .next t ∧
        plannedAs t f { status := stOk, version := x.version }) ∧
      (∀ x, curOf s f = some x → offsetOf f.cmd ≤ x.value.length → f.cmd.length ≠ 0 → ∃ t,
        exec (.putAt f.session f.seq brought) s = .next t ∧
        plannedAs t f
          { status := stOk, version := versionFor s f, vlen := f.cmd.length,
            effect := .store f.ns f.cmd.key
              (x.value.take (offsetOf f.cmd) ++ d ++ x.value.drop (offsetOf f.cmd + f.cmd.length)) x.suit })) ∧
    (runsAlone s f 0x05 →
      (curOf s f = none → ∃ t, exec (.append f.session f.seq brought) s = .next t ∧
        plannedAs t f { status := stOk, version := versionFor s f, vlen := f.cmd.length,
                                    effect := .store f.ns f.cmd.key d f.asked }) ∧
      (∀ x, curOf s f = some x → Config.maxValue < x.value.length + f.cmd.length → ∃ t,
        exec (.append f.session f.seq brought) s = .next t ∧ plannedAs t f { status := stLength }) ∧
      (∀ x, curOf s f = some x → f.cmd.length = 0 → x.value.length ≤ Config.maxValue → ∃ t,
        exec (.append f.session f.seq brought) s = .next t ∧
        plannedAs t f { status := stOk, version := x.version }) ∧
      (∀ x, curOf s f = some x → x.value.length + f.cmd.length ≤ Config.maxValue → f.cmd.length ≠ 0 → ∃ t,
        exec (.append f.session f.seq brought) s = .next t ∧
        plannedAs t f { status := stOk, version := versionFor s f, vlen := f.cmd.length,
                                    effect := .store f.ns f.cmd.key (x.value ++ d) x.suit })) ∧
    (runsAlone s f 0x07 →
      (curOf s f = none → f.cmd.aux % 2 ^ 64 = 0 → ∃ t, exec (.compareAndPut f.session f.seq brought) s = .next t ∧
        plannedAs t f { status := stOk, version := versionFor s f, vlen := f.cmd.length,
                                    effect := .store f.ns f.cmd.key d f.suit }) ∧
      (curOf s f = none → f.cmd.aux % 2 ^ 64 ≠ 0 → ∃ t, exec (.compareAndPut f.session f.seq brought) s = .next t ∧
        plannedAs t f { status := stVersion }) ∧
      (∀ x, curOf s f = some x → x.version = f.cmd.aux % 2 ^ 64 → ∃ t,
        exec (.compareAndPut f.session f.seq brought) s = .next t ∧
        plannedAs t f { status := stOk, version := versionFor s f, vlen := f.cmd.length,
                                    effect := .store f.ns f.cmd.key d f.suit }) ∧
      (∀ x, curOf s f = some x → x.version ≠ f.cmd.aux % 2 ^ 64 → ∃ t,
        exec (.compareAndPut f.session f.seq brought) s = .next t ∧
        plannedAs t f { status := stVersion, version := x.version })))

/-- The commands without a key, and a trick's header (R125, R130, R133, R135, R166): each ready one is worked out; a
flush of the session waits for what came before it; a trick header without members completes with OK. Completes:
expireHint, enumerate, flushSession, journalQuery, trick. -/
def Obligations.OtherCommandsPlan : Prop :=
  ∀ (s : State) (id seq : Nat) (f : InFlight) (fault : Option Nat), running s = true →
    (readyFor s 0x08 id seq = some f → ∃ t, exec (.expireHint id seq) s = .next t ∧
      plannedAs t f { effect := .hint f.ns (scopeOf f.cmd) f.cmd.suit (areaLo f.cmd) (areaHi f.cmd) }) ∧
    (readyFor s 0x09 id seq = some f → s.idx.failed = [] → writesBefore s f = false → f.spoiled = false →
      scanUnread s f = false → ∃ t, exec (.enumerate id seq fault) s = .next t ∧ plannedAs t f (planData (enumOutput s f) fault)) ∧
    (readyFor s 0x09 id seq = some f → s.idx.failed = [] → writesBefore s f = false → f.spoiled = true ∨ scanUnread s f = true →
      ∃ t, exec (.enumerate id seq fault) s = .next t ∧ plannedAs t f { status := stMedia }) ∧
    (readyFor s 0x09 id seq = some f → writesBefore s f = true → exec (.enumerate id seq fault) s = .next s) ∧
    (readyFor s 0x11 id seq = some f → earlierOpen s f = false → toMedium f.cmd = false ∨ earlierUnprogrammed s f = false →
      ∃ t, exec (.flushSession id seq) s = .next t ∧ plannedAs t f f.plan) ∧
    (readyFor s 0x11 id seq = some f → earlierOpen s f = true → exec (.flushSession id seq) s = .next s) ∧
    (readyFor s 0x12 id seq = some f → ∃ t, exec (.journalQuery id seq fault) s = .next t ∧
      plannedAs t f
        (planData (queryOutput s (queryTarget f.cmd.area) (queryFirst f.cmd.area) (queryCount f.cmd.area)) fault)) ∧
    (∀ data faults, findFlight s id seq = some f → f.cmd.opcode = 0x10 → f.trick = some seq → mayRun s f = true →
      (groupOfFlight s f).filter (fun g => decide (g.seq ≠ seq)) = [] → ∃ t, exec (.trick id seq data faults) s = .next t ∧
      plannedAs t f { status := headerStatus [] none, version := s.commits })

/-- The commit step (R29, R55, R105, R106): in boot_stage 4 (R689) a command that may commit leaves flight and is counted
as completed; one that changes an object takes the next count of commit steps, any other leaves the count and the
namespaces alone. Completes: commitStep. -/
def Obligations.CommitStepCompletes : Prop :=
  ∀ (s : State) (f : InFlight), running s = true → findFlight s f.session f.seq = some f → f.trick = none → f.prot = none →
    s.boot.stage = 4 → committable s f = true →
    ∃ t, exec (.commitStep f.session f.seq) s = .next t ∧ findFlight t f.session f.seq = none ∧
      t.jnl.completed = s.jnl.completed + 1 ∧
      (hasEffect f.plan = false → t.commits = s.commits ∧ t.nss = s.nss) ∧
      (∀ ns key value suit, f.plan.effect = .store ns key value suit → f.medium = false ∨ f.placed.isSome = true →
        t.commits = s.commits + 1) ∧
      (∀ ns key, f.plan.effect = .delete ns key → f.medium = false ∨ f.placed.isSome = true → t.commits = s.commits + 1)

/-- Admission and what waits before it (R40, R112, R142, R146, R156): a command that the Ante unit grants enters flight
and leaves the held ones; a held command comes up when its sequence is next, and is discarded at its hold limit; a
command whose overlaps are gone is ready. Completes: admissionStep, heldSequenceRelease, holdLimitExpiry, overlapRelease. -/
def Obligations.AdmissionAndHolds : Prop :=
  ∀ (s : State) (id : Nat), running s = true →
    (∀ x a h b cls bound set wait s1, dealerOn s = true → sessFind s id = some x → x.draining = false →
      cacheFull s x.ctx = false →
      nextItems s id = [a] → admitItems id x [a] s = acceptStep id cls bound set wait [(h, b)] [a.seq] s1 → ∃ t,
      exec (.admissionStep id) s = .next t ∧ (∃ f ∈ t.dlr.inflight, f.session = h.session ∧ f.seq = h.seq ∧ f.cmd = h.cmd) ∧
      (∀ y ∈ t.dlr.arrived, ¬ (y.session = id ∧ y.seq = a.seq))) ∧
    (∀ x, sessFind s id = some x → nextItems s id = [] → exec (.admissionStep id) s = .next s) ∧
    (∀ x, sessFind s id = some x → ∃ t, exec (.heldSequenceRelease id) s = .next t ∧
      t.dlr.arrived.length = s.dlr.arrived.length ∧
      ∀ a ∈ t.dlr.arrived, a.session = id → a.seq = x.next → a.queued = true) ∧
    (∀ seq a, s.dlr.arrived.find? (fun a => decide (a.session = id ∧ a.seq = seq)) = some a → a.queued = false →
      a.at_ + s.fab.holdMs * 1000000 ≤ now s → ∃ t, exec (.holdLimitExpiry id seq) s = .next t ∧
      (∀ y ∈ t.dlr.arrived, ¬ (y.session = id ∧ y.seq = seq)) ∧ t.dlr.discards = s.dlr.discards + 1) ∧
    (∀ seq a, s.dlr.arrived.find? (fun a => decide (a.session = id ∧ a.seq = seq)) = some a →
      now s < a.at_ + s.fab.holdMs * 1000000 → exec (.holdLimitExpiry id seq) s = .next s) ∧
    (∀ seq f, findFlight s id seq = some f → f.trick = none → isKeyed f.cmd.opcode = false ∨ s.dlr.overlap = [] →
      s.dlr.inflight = [f] → (match f.phase with | .waiting => True | _ => False) → ∃ t,
      exec (.overlapRelease id seq) s = .next t ∧ ∃ g, findFlight t id seq = some g ∧ g.phase = .ready)

/-! ## The host ports (chapter 05) -/

/-- Doorbells (R209, R244 to R246, R267): a tail in range is taken, alone or with a head in range, and the queue joins
those to be fetched; a head in range frees entries; one out of range is an error of the port, counted, and moves nothing.
The entry of the queue whose turn it is is read from its place in host memory (R232, R237) and arrives with the queue's
next sequence, and a fetch that fails is tried once more before the queue stops; a queue left untaken is taken up again.
Completes: sqTailWrite, cqHeadWrite, submissionEntryFetch, intakeBacklogResume. -/
def Obligations.DoorbellsAndFetch : Prop :=
  ∀ (s : State) (port ctx : Nat) (q : Queue), running s = true → (ctxAt s ctx).queue = some q → q.deleting = false →
    (∀ tail, q.port = port → tail < q.sqSize → ∃ t u, exec (.sqTailWrite port ctx tail none) s = .next t ∧
      (ctxAt t ctx).queue = some u ∧ u.tail = tail ∧ u.fetch = q.fetch ∧ u.cqHead = q.cqHead ∧
      (tail ≠ q.tail → tail ≠ q.fetch → q.error = false → ctx ∈ t.dlr.fetches)) ∧
    (∀ tail head, q.port = port → tail < q.sqSize → headOk q head = true → ∃ t u,
      exec (.sqTailWrite port ctx tail (some head)) s = .next t ∧ (ctxAt t ctx).queue = some u ∧ u.tail = tail ∧
      u.fetch = q.fetch ∧ u.cqHead = head) ∧
    (∀ head, q.port = port → headOk q head = true → ∃ t, exec (.cqHeadWrite port ctx head) s = .next t ∧
      (ctxAt t ctx).queue = some { q with cqHead := head }) ∧
    (∀ tail head, q.port ≠ port ∨ q.sqSize ≤ tail ∨ (∃ h, head = some h ∧ headOk q h = false) → ∃ t,
      exec (.sqTailWrite port ctx tail head) s = .next t ∧ (ctxAt t ctx).queue = some q ∧
      t.host.doorErr = s.host.doorErr + 1) ∧
    (∀ head, q.port ≠ port ∨ headOk q head = false → ∃ t, exec (.cqHeadWrite port ctx head) s = .next t ∧
      (ctxAt t ctx).queue = some q ∧ t.host.doorErr = s.host.doorErr + 1) ∧
    (∀ fe, dealerOn s = true → nextFetch s = some ctx → cacheFull s ctx = false →
      intakeHeld s (fetchedKeyed (some fe)) = false → ∃ t u,
      exec (.submissionEntryFetch ctx (some fe)) s = .next t ∧ (ctxAt t ctx).queue = some u ∧
      u.nextSeq = seqAdd q.nextSeq 1 ∧ u.fetch = (if q.fetch + 1 = q.sqSize then 0 else q.fetch + 1) ∧
      t.dlr.arrived = s.dlr.arrived ++ [{ session := q.session, seq := q.nextSeq, cmd := hostCmd fe, at_ := now s,
                                          queued := true }] ∧
      t.out = s.out ++ [.hostRead q.port (q.sqBase + 64 * q.fetch) 64]) ∧
    (dealerOn s = true → nextFetch s = some ctx → cacheFull s ctx = false → intakeHeld s false = false → ∃ t u,
      exec (.submissionEntryFetch ctx none) s = .next t ∧ (ctxAt t ctx).queue = some u ∧ u.error = (q.error || q.retried) ∧
      u.retried = !q.retried ∧ u.fetch = q.fetch ∧ u.nextSeq = q.nextSeq ∧ t.dlr.arrived = s.dlr.arrived) ∧
    (dealerOn s = true → cacheFull s ctx = false → ctx ∈ s.dlr.backlog → ∃ t, exec .intakeBacklogResume s = .next t ∧
      ctx ∉ t.dlr.backlog ∧ ctx ∈ t.dlr.fetches)

/-- Completions that wait and the end of a queue (R79, R232, R240, R249, R264, R266): a held completion is posted as soon
as the queue has room and its port is up, its 32 bytes written at the tail's place in host memory; the coalescing timer
raises the vector and starts the count again; a queue being deleted with nothing of its session in flight is gone, its
session deleted, or released where that was asked. Completes: postHeldCompletion, coalesceTimerExpiry,
queueDeleteComplete. -/
def Obligations.QueuesPostAndEnd : Prop :=
  ∀ (s : State) (ctx : Nat) (q : Queue), running s = true → (ctxAt s ctx).queue = some q →
    (∀ e, s.boot.stage = 4 → q.held = [e] → cqFree q = true → portUp s q.port = true → ∃ t u,
      exec (.postHeldCompletion ctx) s = .next t ∧ (ctxAt t ctx).queue = some u ∧ u.held = [] ∧
      u.cqTail = (if q.cqTail + 1 = q.cqSize then 0 else q.cqTail + 1) ∧
      Out.hostWrite q.port (q.cqBase + 32 * q.cqTail) false (completionEntry e q.fetch q.phase) ∈ t.out) ∧
    (s.boot.stage = 4 → q.held ≠ [] → cqFree q = false → exec (.postHeldCompletion ctx) s = .next s) ∧
    (q.coTime ≠ 0 → q.unsig ≠ 0 → q.unsigAt + q.coTime * 1000 ≤ now s → q.irq = true → q.deleting = false → ∃ t,
      exec (.coalesceTimerExpiry ctx) s = .next t ∧ (ctxAt t ctx).queue = some { q with unsig := 0 }) ∧
    (∀ id x, (ctxAt s ctx).session = some id → q.deleting = true → inflightOf s id = [] → sessFind s id = some x → ∃ t,
      exec (.queueDeleteComplete ctx) s = .next t ∧
      (x.release = false → (ctxAt t ctx).queue = none ∧ ∃ y, sessFind t id = some y ∧ y.deleted = true) ∧
      (x.release = true → sessFind t id = none ∧ (ctxAt t x.ctx).queue = none))

/-- The ports (R213, R215, R217 to R220, R661, R676): the first PERST# to rise samples the straps, which fix the ports
from then on, a rise within 25 ms of a power-on waiting until then; a link change is taken over as reported where the
port can take it; a configuration request is answered 100 ms after PERST#, retried before (the instant is the model's
choice, log entry 92); a port reset clears cause bits and mask and takes the link down unless its cause keeps it; WAKE#
is released once every port is up or after 100 ms. Completes: perstDeassert, configRequest, hostLinkChange, portReset,
wakeRelease. -/
def Obligations.HostPortEvents : Prop :=
  ∀ (s : State) (port : Nat), running s = true →
    (∀ bifSel clkSep, s.host.sampled = false → port < portCount (bifSel % 4) → s.boot.perstFrom ≤ now s → ∃ t x,
      exec (.perstDeassert port bifSel clkSep) s = .next t ∧ t.host.sampled = true ∧ t.host.bifSel = bifSel % 4 ∧
      t.host.clkSep = clkSep ∧ t.host.ports.length = portCount (bifSel % 4) ∧ tfind t.host.ports port = some x ∧
      x.perst = false ∧ x.cfgAt = now s + 100000000) ∧
    (∀ bifSel clkSep x, s.host.sampled = true → tfind s.host.ports port = some x → s.boot.perstFrom ≤ now s → ∃ t,
      exec (.perstDeassert port bifSel clkSep) s = .next t ∧ t.host.bifSel = s.host.bifSel ∧
      tfind t.host.ports port = some { x with perst := false, cfgAt := now s + 100000000 }) ∧
    (∀ bifSel clkSep, now s < s.boot.perstFrom → ∃ t, exec (.perstDeassert port bifSel clkSep) s = .next t ∧
      t.host = { s.host with early := s.host.early ++ [(port, bifSel, clkSep)] }) ∧
    (∀ x reg write, tfind s.host.ports port = some x → x.perst = false → now s < x.cfgAt → ∃ t,
      exec (.configRequest ⟨port, reg, write⟩) s = .next t ∧ t.out = s.out ++ [.cfgRetry port] ∧ t.host = s.host) ∧
    (∀ x reg, tfind s.host.ports port = some x → x.perst = false → x.cfgAt ≤ now s → ∃ t,
      exec (.configRequest ⟨port, reg, none⟩) s = .next t ∧
      t.out = s.out ++ [.cfgAnswer port (configWord s.host.bifSel x reg)] ∧ t.host = s.host) ∧
    (∀ x reg v, tfind s.host.ports port = some x → x.perst = false → x.cfgAt ≤ now s → reg ≠ 0x004 ∨ bit v 2 = true → ∃ t,
      exec (.configRequest ⟨port, reg, some v⟩) s = .next t ∧ t.out = s.out ++ [.cfgAnswer port 0] ∧
      tfind t.host.ports port = some (writeConfig reg v x)) ∧
    (∀ x inL0 width rate, tfind s.host.ports port = some x → width ∈ [1, 2, 4, 8, 16] → width ≤ portLanes s.host.bifSel →
      rate ≤ 5 → ∃ t y, exec (.hostLinkChange port inL0 width rate) s = .next t ∧ tfind t.host.ports port = some y ∧
      y.inL0 = inL0 ∧ y.width = width ∧ y.rate = rate ∧ y.cause = x.cause ∧
      (inL0 = false → y.retrains = min 15 x.retrains) ∧
      (inL0 = true → x.inL0 = false → x.wasUp = true → y.retrains = min 15 (x.retrains + 1))) ∧
    (∀ x cause, tfind s.host.ports port = some x → ∃ t y, exec (.portReset port cause) s = .next t ∧
      tfind t.host.ports port = some y ∧ y.mask = 0 ∧ y.cause = 0 ∧ y.unlock = none ∧
      y.inL0 = (x.inL0 && !takesDown cause) ∧ y.perst = (x.perst || isPerst cause)) ∧
    (s.host.wake = true → (∀ p ∈ s.host.ports, p.2.inL0 = true) ∨ s.host.wakeAt + 100000000 ≤ now s → ∃ t,
      exec .wakeRelease s = .next t ∧ t.host.wake = false ∧ t.out = s.out ++ [.wake false]) ∧
    (s.host.wake = false → exec .wakeRelease s = .next s)

/-! ## Clients over the fabric (chapters 04, 06) -/

/-- CLIENT_OPEN (R299, R335, Table 06-11): an OPEN that may be granted makes a client session with the client's identity
and address; one that may not makes none; a repeat of a nonce within 10 s makes none either. Completes: clientOpen. -/
def Obligations.ClientOpenAnswers : Prop :=
  ∀ (s : State) (d : Dgram) (t client : Nat), running s = true → arrivalTrunk s d = some t → headerOk d = true →
    d.kind = 1 → tooShortOrLong d = false →
    (∀ c, (∀ a ∈ s.fab.openAnswers, ¬ (a.1 = d.srcAddr ∧ a.2.1 = d.srcPort ∧ a.2.2.1 = d.wordA)) →
      openStatus s d t = (stOk, client) → freeCtx s = some c → ∃ u id y, exec (.clientOpen d) s = .next u ∧
      sessFind u id = some y ∧ y.kind = .client ∧ y.clientId = client ∧ y.addr = d.srcAddr ∧ y.udp = d.srcPort ∧ y.trunk = t ∧
      (ctxAt u c).session = some id) ∧
    (∀ st, (∀ a ∈ s.fab.openAnswers, ¬ (a.1 = d.srcAddr ∧ a.2.1 = d.srcPort ∧ a.2.2.1 = d.wordA)) →
      openStatus s d t = (st, client) → st ≠ stOk → ∃ u, exec (.clientOpen d) s = .next u ∧ u.sessions = s.sessions ∧
      u.host.ctxs = s.host.ctxs) ∧
    (∀ a ∈ s.fab.openAnswers, now s ≤ a.2.2.2.1 + 10000000000 → a.1 = d.srcAddr → a.2.1 = d.srcPort → a.2.2.1 = d.wordA →
      ∃ u, exec (.clientOpen d) s = .next u ∧ u.sessions = s.sessions ∧ u.fabc = s.fabc)

/-- What client datagrams do once they reach their session (R142, R169, R331, R332, R337): a command in sequence is held
for admission, one beyond the window is counted out of it; staged bytes are kept up to the session's room; a withdrawal
in the window is counted; a close stops the session taking commands. Completes: clientCommand, clientStage,
clientWithdraw, clientClose. -/
def Obligations.ClientDatagrams : Prop :=
  ∀ (s : State) (d : Dgram) (t : Nat) (x : Session),
    (clientReaches s d 3 t x → withdrawnTrick x d.sequence (clientCmd (bodyOf d)) = false → d.sequence = x.next →
      x.draining = false → (∀ b ∈ s.dlr.arrived, ¬ (b.session = d.session ∧ b.seq = d.sequence)) → ∃ u,
      exec (.clientCommand d) s = .next u ∧ u.dlr.taken = s.dlr.taken + 1 ∧
      u.dlr.arrived = s.dlr.arrived ++ [{ session := d.session, seq := d.sequence, cmd := clientCmd (bodyOf d), at_ := now s,
                                          queued := true }]) ∧
    (clientReaches s d 3 t x → withdrawnTrick x d.sequence (clientCmd (bodyOf d)) = false →
      d.sequence ≠ x.next → later d.sequence x.next = true → 4095 < (d.sequence + 2 ^ 32 - x.next) % 2 ^ 32 → ∃ u,
      exec (.clientCommand d) s = .next u ∧ u.dlr.oow = s.dlr.oow + 1 ∧ u.dlr.arrived = s.dlr.arrived) ∧
    (clientReaches s d 4 t x → (∀ p ∈ s.fab.stages, ¬ (p.1 = d.session ∧ p.2.handle = d.wordA)) →
      stagedBytes s d.session + (stagePut [] d.wordB (bodyOf d)).length ≤ s.fab.stageMib * 1048576 → ∃ u st,
      exec (.clientStage d) s = .next u ∧ u.fab.stages = s.fab.stages ++ [(d.session, st)] ∧ st.handle = d.wordA ∧
      st.bytes = stagePut [] d.wordB (bodyOf d) ∧ st.at_ = now s) ∧
    (clientReaches s d 7 t x → wasWithdrawn x d.sequence = false →
      d.sequence = x.next → later d.sequence x.next = false → ∃ u, exec (.clientWithdraw d) s = .next u ∧
      u.dlr.withdrawn = s.dlr.withdrawn + 1) ∧
    (clientReaches s d 8 t x → x.draining = false → ∃ u y, exec (.clientClose d) s = .next u ∧
      sessFind u d.session = some y ∧ y.draining = true ∧ y.closer = some (d.srcAddr, d.srcPort) ∧
      (∀ a ∈ u.dlr.arrived, a.session ≠ d.session))

/-- The end of client sessions and of what they left (R326, R329, R332, R337, R357, R690, R692): a closing session with
nothing in flight, and one idle for too long, are gone; a stage not touched for stage_idle_ms is gone; datagrams and
frames that reach no session are counted and change nothing else of the fabric; a discovery for an address of the trunk
is answered. Completes: clientCloseComplete, clientSessionIdle, stageIdleExpiry, clientDatagramDrop, clientFrameFiltered,
neighbourDiscovery, clientCompletionDiscard. -/
def Obligations.ClientSessionsEnd : Prop :=
  ∀ (s : State) (session : Nat), running s = true →
    (∀ x a u, sessFind s session = some x → x.kind = .client → x.closer = some (a, u) → x.draining = true →
      inflightOf s session = [] → ∃ t, exec (.clientCloseComplete session) s = .next t ∧ sessFind t session = none) ∧
    (∀ x, sessFind s session = some x → x.kind = .client → s.fab.idleS ≠ 0 → x.lastAt + s.fab.idleS * 1000000000 ≤ now s →
      inflightOf s session = [] → x.draining = false → ∃ t, exec (.clientSessionIdle session) s = .next t ∧
      sessFind t session = none) ∧
    (∀ handle p, s.fab.stages.find? (fun p => decide (p.1 = session ∧ p.2.handle = handle)) = some p →
      p.2.at_ + s.fab.stageIdleMs * 1000000 ≤ now s → ∃ t, exec (.stageIdleExpiry session handle) s = .next t ∧
      t.fab.stages = s.fab.stages.erase p) ∧
    (∀ d k, arrivalTrunk s d = some k → headerOk d = false → ∃ t, exec (.clientDatagramDrop d) s = .next t ∧
      t.fabc = { s.fabc with typeDrop := s.fabc.typeDrop + 1 } ∧ t.sessions = s.sessions ∧ t.fab = s.fab) ∧
    (∀ d k, arrivalTrunk s d = some k → d.kind ≠ 1 → headerOk d = true → clientType d.kind = true →
      tooShortOrLong d = false → sessionFor s d k = none → ∃ t, exec (.clientDatagramDrop d) s = .next t ∧
      t.fabc = { s.fabc with clientDrop := s.fabc.clientDrop + 1 } ∧ t.sessions = s.sessions) ∧
    (∀ lane, (laneAt s lane).cfg.client = true → ∃ t, exec (.clientFrameFiltered lane) s = .next t ∧
      t = dropFiltered lane s ∧ t.sessions = s.sessions ∧ t.fab = s.fab) ∧
    (∀ lane t target sender mac, trunkOf s lane = some t → (trunkAt s t).v4 = true → target = (trunkAt s t).addr4 →
      inActivation s = false → ∃ u, exec (.neighbourDiscovery lane false target sender mac) s = .next u ∧
      (∃ f, (laneAt u lane).tx = (laneAt s lane).tx ++ [f] ∧ f.bytes = neighbourAnswer s lane false target sender mac) ∧
      (mappedAddr false sender, mac) ∈ (trunkAt u t).peers) ∧
    (∀ trunk, ∃ t, exec (.clientCompletionDiscard trunk) s = .next t ∧ (trunkAt t trunk).waiting = [] ∧
      t.fabc.clientDrop = s.fabc.clientDrop + (trunkAt s trunk).waiting.length)

/-! ## Shards and orders between modules (chapter 06) -/

/-- Requests of another module in sequence (R302, R305, R314 to R319): each has its effect on the pending shards, the
recorded decisions, the kitty bytes and the records, and the session goes on to the next sequence; a shard that can be
read is returned to its reader; a code that no table lists is refused with OPCODE_INVALID, which leaves its sequence
unsettled (R143). Completes: creditReturn, shardHold, shardCommit, shardDiscard, decide, shardRead, rebuildWrite,
fabricRequestInvalid. -/
def Obligations.ShardRequestsRun : Prop :=
  ∀ (s : State) (id seq : Nat) (x : Session),
    (∀ units, takesNext s id seq (.creditReturn units) x → ∃ t, exec (.creditReturn id seq units) s = .next t ∧
      t.pwr.pending = s.pwr.pending - 512 * units ∧ (sessFind t id).map (·.next) = some (seqAdd seq 1)) ∧
    (∀ sh wanted deadline slot, takesNext s id seq (.hold sh slot false) x → ∃ t p,
      exec (.shardHold id seq wanted ⟨deadline, slot⟩ sh false) s = .next t ∧ t.fab.pend = s.fab.pend ++ [p] ∧ p.sh = sh ∧
      p.session = id ∧ p.seq = seq ∧ p.deadline = (slot + 1) * Config.slotNs ∧ p.medium = false ∧ t.commits = s.commits) ∧
    (∀ ns d st tie node p, takesNext s id seq (.commit ns d { time := st, tie := tie, node := node }) x →
      findPend s ns d { time := st, tie := tie, node := node } = some p → ∃ t,
      exec (.shardCommit id seq ns d st tie node) s = .next t ∧ t.fab.pend = s.fab.pend.erase p) ∧
    (∀ ns d st tie node p, takesNext s id seq (.discard ns d { time := st, tie := tie, node := node }) x →
      findPend s ns d { time := st, tie := tie, node := node } = some p → ∃ t,
      exec (.shardDiscard id seq ns d st tie node) s = .next t ∧ t.fab.pend = s.fab.pend.erase p ∧ t.commits = s.commits ∧
      t.idx = s.idx) ∧
    (∀ ns d st tie node ok, takesNext s id seq (.decide ns d { time := st, tie := tie, node := node } ok) x →
      ∃ t, exec (.decide id seq ns d st tie node ok) s = .next t ∧
      ∃ y ∈ t.fab.decisions, y.ns = ns ∧ y.digest = d ∧ y.stampTime = st ∧ y.stampTie = tie ∧ y.stampNode = node) ∧
    (∀ ns key, takesNext s id seq (.read ns key) x → ∃ t, exec (.shardRead id seq ns key) s = .next t ∧
      t.commits = s.commits ∧ t.idx = s.idx ∧ (sessFind t id).map (·.next) = some (seqAdd seq 1) ∧
      (s.fab.readPct ≠ 0 → shardUnread s ns key = false → linkTo s x.credit.peer = none → ∃ q ∈ t.fab.unsent,
        q.1 = x.credit.peer ∧ q.2.answer = true ∧ q.2.own = (id, seq) ∧ q.2.sh = some (readAnswer s ns key))) ∧
    (∀ sh, takesNext s id seq (.rebuild sh) x → haveNewer s sh = true → ∃ t,
      exec (.rebuildWrite id seq sh) s = .next t ∧ t.commits = s.commits ∧ t.idx = s.idx ∧
      (sessFind t id).map (·.next) = some (seqAdd seq 1)) ∧
    (∀ sh, takesNext s id seq (.rebuild sh) x → haveNewer s sh = false → sh.tombstone = false → ∃ t,
      exec (.rebuildWrite id seq sh) s = .next t ∧ t.commits = s.commits + 1 ∧
      (sessFind t id).map (·.next) = some (seqAdd seq 1)) ∧
    (∀ code, 7 ≤ code → takesNext s id seq .invalid x → ∃ t y,
      exec (.fabricRequestInvalid id seq code) s = .next t ∧ sessFind t id = some y ∧ y.next = x.next ∧
      y.refusal = some (stOpcode, 0) ∧ t.commits = s.commits ∧ ∀ e ∈ t.fab.early, e.1 ≠ id)

/-- Fabric sessions (R299 to R303, R305): an OPEN makes a session for the module that asked, or is answered with
QUEUE_INVALID; a reply to an OPEN that was sent makes the link, or notes that the peer could bind none; a close gives
back what was not used; an ACK takes off what it settles and never lowers the grant, an unanswered request is sent again
after its time, an idle link returns its credit. A module that is not joined does none of it (R274). Completes:
fabricOpen, fabricOpenReply, fabricClose, fabricAck, sessionRetransmit, idleCreditReturnTimer. -/
def Obligations.FabricSessionsRun : Prop :=
  ∀ (s : State) (node : Nat), running s = true →
    (∀ request c, dealerOn s = true → joined s = true → freeCtx s = some c → ∃ t id y,
      exec (.fabricOpen node request) s = .next t ∧ sessFind t id = some y ∧ y.kind = .fabric ∧ y.credit.peer = node ∧
      y.next = 1 ∧ (ctxAt t c).session = some id) ∧
    (∀ request, dealerOn s = true → joined s = true → freeCtx s = none → ∃ t, exec (.fabricOpen node request) s = .next t ∧
      t = sendOwn 6 node 0 request 0 (natBe 2 stQueue) true s) ∧
    (∀ request session, joined s = true → (request, node) ∈ s.fab.opens → session ≠ 0 →
      (∀ p ∈ s.fab.unsent, p.1 ≠ node) → ∃ t, exec (.fabricOpenReply node request session 0) s = .next t ∧
      linkTo t node = some { session := session, idleAt := now s } ∧ (request, node) ∉ t.fab.opens) ∧
    (∀ request session st, joined s = true → (request, node) ∈ s.fab.opens → session = 0 ∨ st ≠ 0 → ∃ t,
      exec (.fabricOpenReply node request session st) s = .next t ∧ node ∈ t.fab.noOpens ∧ linkTo t node = linkTo s node ∧
      (request, node) ∉ t.fab.opens) ∧
    (∀ session x, joined s = true → sessFind s session = some x → x.kind = .fabric → ∃ t,
      exec (.fabricClose session) s = .next t ∧ sessFind t session = none ∧
      t.pwr.pending = s.pwr.pending - 512 * unusedUnits x.credit) ∧
    (∀ x through grant pairs, joined s = true → linkTo s node = some x → (∀ p ∈ s.fab.unsent, p.1 ≠ node) →
      (x.unacked = [] ∨ ∃ r, x.unacked = [r] ∧ r.code = 2 ∧ later r.seq through = false ∧ pairs = []) → ∃ t,
      exec (.fabricAck node through grant pairs) s = .next t ∧
      linkTo t node = some { x with unacked := [], wanted := 0, grant := if later grant x.grant then grant else x.grant,
                                    idleAt := now s }) ∧
    (∀ x seq r, linkTo s node = some x → x.unacked.find? (fun r => decide (r.seq = seq)) = some r →
      r.at_ + s.fab.retransUs * 1000 ≤ now s → ∃ t, exec (.sessionRetransmit node seq) s = .next t ∧
      t.fabc.sessionRetx = s.fabc.sessionRetx + 1 ∧
      linkTo t node = some { x with unacked := x.unacked.map (fun z => if z.seq = seq then { r with at_ := now s } else z) }) ∧
    (∀ x, linkTo s node = some x → s.fab.idleMs ≠ 0 → x.unacked = [] → creditLeft x ≠ 0 → (∀ p ∈ s.fab.unsent, p.1 ≠ node) →
      x.idleAt + s.fab.idleMs * 1000000 ≤ now s → ∃ t y, exec (.idleCreditReturnTimer node) s = .next t ∧
      linkTo t node = some y ∧ y.unacked.length = 1 ∧ y.nextSeq = seqAdd x.nextSeq 1 ∧
      y.charged = (x.charged + creditLeft x) % 2 ^ 32)

/-- Orders (R311 to R313): a lead of a joined module answers a request to write with what its map, its horizon and the
orders held say, and holds a write order it gives; a request to read gets the version and the holders that hold it; a
lead ends an order on its holder's word or at its time; an answer is kept for the command that asked, and a request whose
command is gone is forgotten. That an order is returned by a request of end 0 is the model's choice (log entry 23).
Completes: orderRequest, orderReply, orderTimeout, writeOrderExpiry, leadHorizonEnd. -/
def Obligations.OrdersRun : Prop :=
  ∀ (s : State) (src request ns digest crc until_ : Nat), running s = true →
    (dealerOn s = true → joined s = true → leadOf s ns digest = some s.fab.nodeId →
      (until_ ≠ 0 → crc ≠ mapCrc (nsAt s ns) → ∃ t, exec (.orderRequest src request ns digest crc true until_) s = .next t ∧
        t = sendOwn 11 src 0 request 0 (orderBytes .mismatch) true s) ∧
      (until_ ≠ 0 → crc = mapCrc (nsAt s ns) → leadWaits s = none → heldOrder s ns digest = none → ∃ t u,
        exec (.orderRequest src request ns digest crc true until_) s = .next t ∧
        (∃ o ∈ t.fab.orders, o.ns = ns ∧ o.digest = digest ∧ o.src = src ∧ o.until_ = until_) ∧
        t = sendOwn 11 src 0 request 0 (orderBytes (.writeOrder (knownVersion s ns digest none))) true u) ∧
      (∀ o, until_ ≠ 0 → crc = mapCrc (nsAt s ns) → leadWaits s = none → heldOrder s ns digest = some o → ∃ t,
        exec (.orderRequest src request ns digest crc true until_) s = .next t ∧
        t = sendOwn 11 src 0 request 0 (orderBytes (.busy o.until_)) true s) ∧
      (crc = mapCrc (nsAt s ns) → leadWaits s = none → heldOrder s ns digest = none → ∃ t,
        exec (.orderRequest src request ns digest crc false until_) s = .next t ∧
        t = sendOwn 11 src 0 request 0
          (orderBytes (.readGrant (knownVersion s ns digest none) (committedHolders s ns digest))) true s) ∧
      (∀ o, heldOrder s ns digest = some o → o.src = src → ∃ t,
        exec (.orderRequest src request ns digest crc true 0) s = .next t ∧
        ∀ y ∈ t.fab.orders, ¬ (y.ns = ns ∧ y.digest = digest))) ∧
    (∀ o ans, joined s = true →
      s.fab.orderOut.find? (fun o => decide (o.request = request ∧ o.lead = src) && o.answer.isNone) = some o →
      sessFind s o.session = none → ∃ t, exec (.orderReply src request ans) s = .next t ∧
      ∀ y ∈ t.fab.orderOut, y.request = request → y.answer = some ans) ∧
    (∀ o, s.fab.orderOut.find? (fun o => decide (o.request = request) && o.answer.isNone) = some o →
      o.at_ + 20000 ≤ now s → sessFind s o.session = none → orderFor s o.session o.seq = some o → ∃ t,
      exec (.orderTimeout request) s = .next t ∧ ∀ y ∈ t.fab.orderOut, ¬ (y.session = o.session ∧ y.seq = o.seq)) ∧
    (∀ o ∈ s.fab.orders, o.ns = ns → o.digest = digest → o.until_ ≤ now s → ∃ t, exec (.writeOrderExpiry ns digest) s = .next t ∧
      ∀ y ∈ t.fab.orders, ¬ (y.ns = ns ∧ y.digest = digest)) ∧
    (∀ node e, tfind s.fab.leadFrom node = some e → e ≤ now s → ∃ t, exec (.leadHorizonEnd node) s = .next t ∧
      tfind t.fab.leadFrom node = none)

/-- Protected commands and failures of modules (R313 to R319): at its hold deadline a write that is still open is
decided, OK where enough holders have answered; a decision not recorded in time goes to every recorder; a pending shard
is settled by what this module or another recorder has recorded, and discarded where none has; a shard read is taken, or
given up at its allowance; a module that is not heard of for peer_fail_ms is dead and its leads wait; a shard owed is
rebuilt from the shards at hand, which are read first where too few are, and one owed to a module that no longer holds
the key is struck off. Completes: shardHoldDeadline, decideTimeout, pendingShardResolve, shardReadData,
shardReadAllowanceExpiry, peerFailure, shardRebuild. -/
def Obligations.ProtectedCommandsGoOn : Prop :=
  ∀ (s : State) (id seq : Nat) (f : InFlight) (p : Protect), running s = true →
    (findFlight s id seq = some f → f.prot = some p → f.trick = none → f.phase = .planned → hasEffect f.plan = true →
      p.deadline ≠ 0 → p.deadline ≤ now s → p.decided = none → ∃ t, exec (.shardHoldDeadline id seq) s = .next t ∧
      t = decideNow (heldEnough s f) f s) ∧
    (findFlight s id seq = some f → f.prot = some p → now s < p.deadline → exec (.shardHoldDeadline id seq) s = .next s) ∧
    (∀ ok, findFlight s id seq = some f → f.prot = some p → p.decided = some ok → p.recorded = [] →
      p.decideAt + s.fab.allowUs * 1000 / 6 ≤ now s → ∃ t, exec (.decideTimeout id seq) s = .next t ∧
      t = sendDecide f p ok (recorders s f.ns p.digest) (each (pressDecide f) (recorders s f.ns p.digest)
        (modProt id seq (fun q => { q with decideAt := now s }) s))) ∧
    (∀ y time tie node, s.fab.pend.find? (fun p => decide (p.sh.stampTime = time ∧ p.sh.stampTie = tie ∧
        p.sh.stampNode = node ∧ p.deadline ≤ now s)) = some y →
      (ownDecision s y = none →
        (∃ t, exec (.pendingShardResolve time tie node .discard) s = .next t ∧ t.fab.pend = s.fab.pend.erase y ∧
          t.commits = s.commits) ∧
        (∃ t, exec (.pendingShardResolve time tie node .noRecord) s = .next t ∧ t.fab.pend = s.fab.pend.erase y ∧
          t.commits = s.commits) ∧
        (∃ t, exec (.pendingShardResolve time tie node .commit) s = .next t ∧ t.fab.pend = s.fab.pend.erase y)) ∧
      (∀ ok answer, ownDecision s y = some ok → ∃ t, exec (.pendingShardResolve time tie node answer) s = .next t ∧
        t = settleOne y ok s)) ∧
    (∀ holder version sh, ∃ t, exec (.shardReadData 0 seq holder true version sh) s = .next t ∧
      t.fab.gather = s.fab.gather ++ [{ sh with version := version }]) ∧
    (∀ holder version sh q, id ≠ 0 → findFlight s id seq = some f → f.prot = some p → p.read = false → holder ∈ p.sent →
      holder ∉ p.gone → (∀ y ∈ p.shards, y.index ≠ sh.index) → isWrite f.cmd.opcode = true →
      q = { p with shards := p.shards ++ [{ sh with version := version }] } → ∃ t,
      exec (.shardReadData id seq holder true version sh) s = .next t ∧
      t = modProt id seq (fun _ => { q with read := readEnded (nsAt s f.ns) q }) s) ∧
    (findFlight s id seq = some f → f.prot = some p → p.asked ≠ 0 → p.asked + s.fab.allowUs * 1000 ≤ now s → p.read = false →
      isWrite f.cmd.opcode = true → ∃ t, exec (.shardReadAllowanceExpiry id seq) s = .next t ∧
      t = modProt id seq (fun q => { q with read := true, failed := true }) s) ∧
    (∀ node, node ≠ s.fab.nodeId → node ∉ s.fab.dead → reachable s node = false →
      tget (fun _ => 0) s.fab.lastSeen node + s.fab.peerFailMs * 1000000 ≤ now s → ∃ t,
      exec (.peerFailure node) s = .next t ∧ node ∈ t.fab.dead ∧ linkTo t node = none ∧
      (succeeds s node = true → tfind t.fab.leadFrom node = some (now s + Config.horizon * Config.slotNs)) ∧
      (succeeds s node = false → t.fab.leadFrom = s.fab.leadFrom)) ∧
    (∀ ns digest o, owedNext s ns digest = some o →
      ((keyHolders s ns digest).idxOf? o.holder = none → ∃ t, exec (.shardRebuild ns digest) s = .next t ∧
        t.fab.owedList = s.fab.owedList.erase o) ∧
      (∀ i, (keyHolders s ns digest).idxOf? o.holder = some i →
        (sources s o.ns o.digest).length < shardsNeeded (nsAt s o.ns) → ∃ t, exec (.shardRebuild ns digest) s = .next t ∧
        t = askSources o (sources s o.ns o.digest) s) ∧
      (∀ i h u, (keyHolders s ns digest).idxOf? o.holder = some i →
        shardsNeeded (nsAt s o.ns) ≤ (sources s o.ns o.digest).length →
        rebuiltShard (nsAt s o.ns) (sources s o.ns o.digest) i = some h →
        takeAntes .shardRebuild false true o.digest (rebuildShape h) s = some u → ∃ t,
        exec (.shardRebuild ns digest) s = .next t ∧ t = rebuildOn o h (dropGathered o u)))

/-! ## Rows, cores and mailboxes (chapters 01, 05, 09) -/

/-- The end of a row program and the roles of cores (R25, R28, R31, R449, R474): a row that programmed counts and is on
flash, one with a failed block is torn and listed as aborted; a core that fails is retired, one whose drain has come
takes the role it was drained for, and a takeover ends when one core manages again. Completes: rowProgramComplete,
coreFailure, coreRoleDrain, managementTakeoverComplete. -/
def Obligations.RowsAndCoresEnd : Prop :=
  ∀ s : State, running s = true →
    (∀ meld m at_ p ps failed, meldAt s meld = m → m.running = some at_ → m.programs = p :: ps → at_ ≤ now s →
      (failed.flatMap (blocksOn m) = [] → ∃ t, exec (.rowProgramComplete meld failed) s = .next t ∧
        t.med.progSeq = s.med.progSeq + 1 ∧ t.med.torn = s.med.torn) ∧
      (∀ x id, failed.flatMap (blocksOn m) = [] → m.asm = [x] → lastRow m x ≤ p.1 → x.medium = false → x.dram = some id → ∃ t,
        exec (.rowProgramComplete meld failed) s = .next t ∧ tfind t.med.flash x.addr = some (sealRecord x.addr x.item) ∧
        t.med.moves = s.med.moves ++ [(x.addr, true, id)]) ∧
      (failed.flatMap (blocksOn m) ≠ [] → ∃ t, exec (.rowProgramComplete meld failed) s = .next t ∧
        t.med.progSeq = s.med.progSeq + 1 ∧ t.med.torn = s.med.torn + 1 ∧ t.med.aborted = s.med.aborted ++ [(meld, m.row)])) ∧
    (∀ core, core < 32 → roleOf s core ≠ 15 → ∃ t, exec (.coreFailure core) s = .next t ∧ roleOf t core = 15) ∧
    (∀ core, 32 ≤ core ∨ roleOf s core = 15 → exec (.coreFailure core) s = .next s) ∧
    (∀ core r m, s.cores.draining = [(core, r)] → findMaint s .roleDrain core = some m → m.first ≤ slotOf (now s) →
      roleOf s core ≠ 0 ∨ coreBusy s core = false → ∃ t, exec (.coreRoleDrain core) s = .next t ∧ roleOf t core = r ∧
      ∀ c, c ≠ core → roleOf t c = roleOf s c) ∧
    (s.cores.takeover = true → roleCount s 3 = 1 → ∃ t, exec .managementTakeoverComplete s = .next t ∧
      t.cores = { s.cores with takeover := false })

/-- What stops a mailbox command before its own checks (R251, R252): MGMT_BUSY, LENGTH_INVALID and ACCESS_DENIED end it
with that status and no output, a code that no table lists with OPCODE_INVALID. Completes: mailboxUnknownCommand; for the
other commands it says how they are turned away. -/
def Obligations.MailboxCommandsAreChecked : Prop :=
  ∀ (s : State) (b st : Nat) (x : Mailbox), running s = true → s.host.goQueue.head? = some b → boxAt s b = x →
    x.busy = true →
    (x.command = 0x0010 → boxRefusal s b x false = some st → ∃ t, exec (.settingRead b) s = .next t ∧ boxSays t b st []) ∧
    (x.command = 0x0011 → boxRefusal s b x true = some st → ∃ t, exec (.settingWrite b) s = .next t ∧ boxSays t b st [] ∧
      t.nss = s.nss ∧ t.xts = s.xts ∧ t.clk = s.clk ∧ t.cam = s.cam ∧ t.fab = s.fab) ∧
    (x.command = 0x0020 → boxRefusal s b x false = some st → ∃ t, exec (.queueCreate b) s = .next t ∧ boxSays t b st [] ∧
      t.sessions = s.sessions) ∧
    (x.command = 0x0040 → boxRefusal s b x true = some st → ∃ t, exec (.diagUnlock b) s = .next t ∧ boxSays t b st [] ∧
      t.host.ports.map (fun p => p.2.unlock) = s.host.ports.map (fun p => p.2.unlock)) ∧
    (x.command ∉ boxCodes → boxRefusal s b x false = none → ∃ t, exec (.mailboxUnknownCommand b) s = .next t ∧
      boxSays t b stOpcode []) ∧
    (x.command ∈ boxCodes → exec (.mailboxUnknownCommand b) s = .next s)

/-- Setting pages (R254): a read answers the whole page, a write of the right format version, length and target is
applied whole; a page, format, length or target that is wrong, and a value that the page refuses, end the command with
their statuses and change no setting. Completes: settingRead, settingWrite. -/
def Obligations.SettingPagesReadAndWrite : Prop :=
  ∀ (s : State) (b : Nat) (x : Mailbox),
    (boxRuns s b x 0x0010 false →
      (∀ size n, pageOf x.page = some (size, n) → x.target < n → ∃ t, exec (.settingRead b) s = .next t ∧
        boxSays t b stOk (natLe size (pageRead (boxTaken s) x.page x.target)) ∧ (boxAt t b).format = pageFormat s x.page) ∧
      (∀ size n, pageOf x.page = some (size, n) → n ≤ x.target → ∃ t, exec (.settingRead b) s = .next t ∧
        boxSays t b stPageField []) ∧
      (pageOf x.page = none → ∃ t, exec (.settingRead b) s = .next t ∧ boxSays t b stPageUnknown [])) ∧
    (boxRuns s b x 0x0011 true →
      (∀ n u, pageOf x.page = some (x.inLen, n) → x.format = pageFormat s x.page → x.target < n →
        pageWrite (boxTaken s) x.page x.target (writtenPage x) = some u → ∃ t,
        exec (.settingWrite b) s = .next t ∧ boxSays t b stOk [] ∧ Keeps [.host, .out] u t) ∧
      (∀ n, pageOf x.page = some (x.inLen, n) → x.format = pageFormat s x.page → x.target < n →
        pageWrite (boxTaken s) x.page x.target (writtenPage x) = none → ∃ t, exec (.settingWrite b) s = .next t ∧
        boxSays t b stPageField [] ∧ Keeps [.host, .out] s t) ∧
      (∀ size n, pageOf x.page = some (size, n) → x.format = pageFormat s x.page → x.inLen ≠ size ∨ n ≤ x.target → ∃ t,
        exec (.settingWrite b) s = .next t ∧ boxSays t b stPageField [] ∧ Keeps [.host, .out] s t) ∧
      (∀ size n, pageOf x.page = some (size, n) → x.format ≠ pageFormat s x.page → ∃ t,
        exec (.settingWrite b) s = .next t ∧ boxSays t b stPageFormat [] ∧ Keeps [.host, .out] s t) ∧
      (pageOf x.page = none → ∃ t, exec (.settingWrite b) s = .next t ∧ boxSays t b stPageUnknown [] ∧
        Keeps [.host, .out] s t))

/-- The cipher's keys (R540, R542, R544): generating loads a free key, importing the unwrapped one, zeroizing empties the
slot; a write that R542 names (a slot that a namespace uses, no key-import key, a wrapped key that fails its check or has
equal halves, no reseed, a reserved field) is refused and leaves every slot unchanged; the key-import key is installed
and locked by page 0x0900, which, once locked, refuses a non-zero kik. Completes: keyGenerate, keyImport, keyZeroize,
kikInstall, kikLock. -/
def Obligations.KeysAreManaged : Prop :=
  ∀ (s : State) (b : Nat) (x : Mailbox),
    (pageRuns s b 0x0901 x → x.target < 4096 → slotUsers s x.target = 0 → bit (writtenPage x) 3 = false →
      bits (writtenPage x) 15 6 = 0 → bits (writtenPage x) 31 29 = 0 →
      (keyAction (writtenPage x) = 1 → noisePasses s = true → ∃ t k, exec (.keyGenerate b) s = .next t ∧ boxSays t b stOk [] ∧
        tget keyBlank t.xts.slots x.target = { key := some k, imported := false, loadedAt := now s }) ∧
      (∀ kik, keyAction (writtenPage x) = 2 → s.xts.kik = some kik → ∃ t, exec (.keyImport b) s = .next t ∧
        exec (.settingWrite b) s = .next t ∧
        match importedKey kik (bits (writtenPage x) 703 128) with
        | some k => boxSays t b stOk [] ∧
            tget keyBlank t.xts.slots x.target = { key := some k, imported := true, loadedAt := now s }
        | none => boxSays t b stPageField [] ∧ t.xts = s.xts) ∧
      (keyAction (writtenPage x) = 3 → ∃ t, exec (.keyZeroize b) s = .next t ∧ boxSays t b stOk [] ∧
        tget keyBlank t.xts.slots x.target = {} ∧ ∀ n, n ≠ x.target →
          tget keyBlank t.xts.slots n = tget keyBlank s.xts.slots n)) ∧
    (pageRuns s b 0x0901 x → x.target < 4096 →
      (slotUsers s x.target ≠ 0 ∧ keyAction (writtenPage x) ≠ 0) ∨
        (keyAction (writtenPage x) = 2 ∧ s.xts.kik = none) ∨
        (keyAction (writtenPage x) = 1 ∧ noisePasses s = false) ∨
        bit (writtenPage x) 3 = true ∨ bits (writtenPage x) 15 6 ≠ 0 ∨ bits (writtenPage x) 31 29 ≠ 0 →
      (∃ t, exec (.settingWrite b) s = .next t ∧ boxSays t b stPageField [] ∧ t.xts = s.xts) ∧
      (keyAction (writtenPage x) = 1 → ∃ t, exec (.keyGenerate b) s = .next t ∧ boxSays t b stPageField [] ∧ t.xts = s.xts) ∧
      (keyAction (writtenPage x) = 2 → ∃ t, exec (.keyImport b) s = .next t ∧ boxSays t b stPageField [] ∧ t.xts = s.xts) ∧
      (keyAction (writtenPage x) = 3 → ∃ t, exec (.keyZeroize b) s = .next t ∧ boxSays t b stPageField [] ∧ t.xts = s.xts)) ∧
    (pageRuns s b 0x0900 x → fieldIn (writtenPage x) 23 16 0 168 = true → fieldIn (writtenPage x) 47 32 10 60000 = true →
      (bits (writtenPage x) 319 64 ≠ 0 → s.xts.kikLocked = false → bit (writtenPage x) 1 = false → ∃ t,
        exec (.kikInstall b) s = .next t ∧ boxSays t b stOk [] ∧
        t.xts.kik = some (BitVec.ofNat 256 (bits (writtenPage x) 319 64)) ∧ t.xts.kikLocked = false) ∧
      (bits (writtenPage x) 319 64 ≠ 0 → s.xts.kikLocked = true → ∃ t, exec (.kikInstall b) s = .next t ∧
        boxSays t b stPageField [] ∧ t.xts = s.xts) ∧
      (∀ k, bits (writtenPage x) 319 64 = 0 → bit (writtenPage x) 1 = true → s.xts.kik = some k → ∃ t,
        exec (.kikLock b) s = .next t ∧ boxSays t b stOk [] ∧ t.xts.kik = some k ∧ t.xts.kikLocked = true))

/-- The settings that act (R100, R324, R424, R628, R633): release makes a namespace RELEASING and leaves the others,
which is FREE when the index holds no entry of it and no accepted write to it is under way; time_set steps a time that
never moves back behind the stamp; calendar_now sets the calendar and starts an epoch; clear empties the event store; an
ordered insert puts the entry at its place. Completes: namespaceRelease, namespaceFreed, timeSet, calendarSet,
eventStoreClear, classifierOrderedInsert. -/
def Obligations.SettingsThatAct : Prop :=
  ∀ (s : State) (b : Nat) (x : Mailbox),
    (pageRuns s b 0x0201 x → bit (writtenPage x) 1 = true → ∀ u, write0201 (boxTaken s) x.target (writtenPage x) = some u → ∃ t,
      exec (.namespaceRelease b) s = .next t ∧ boxSays t b stOk [] ∧ (nsAt s x.target).state = 2 ∧
      (nsAt t x.target).state = 3 ∧ ∀ n, n ≠ x.target → nsAt t n = nsAt s n) ∧
    (pageRuns s b 0x0201 x → bit (writtenPage x) 1 = true → (nsAt s x.target).state ≠ 2 → ∃ t,
      exec (.namespaceRelease b) s = .next t ∧ boxSays t b stPageField [] ∧ t.nss = s.nss) ∧
    (∀ ns, running s = true → (nsAt s ns).state = 3 → nsHasEntry s ns = false →
      (∀ f ∈ s.dlr.inflight, f.ns = ns → isWrite f.cmd.opcode = false) → ∃ t, exec (.namespaceFreed ns) s = .next t ∧
      nsAt t ns = { nsAt s ns with state := 0, objects := 0, bytes := 0 } ∧ ∀ n, n ≠ ns → nsAt t n = nsAt s n) ∧
    (pageRuns s b 0x0502 x → bits (writtenPage x) 191 128 ≠ 0 → ∀ u, write0502 (boxTaken s) (writtenPage x) = some u →
      s.clk.first = false → ∃ t, exec (.timeSet b) s = .next t ∧ boxSays t b stOk [] ∧
      t.clk.time = bits (writtenPage x) 191 128 ∧ (s.clk.stamped = true → s.clk.stamp.time < t.clk.time)) ∧
    (pageRuns s b 0x0502 x → bits (writtenPage x) 191 128 ≠ 0 → ownMaster s = false → ∃ t, exec (.timeSet b) s = .next t ∧
      boxSays t b stPageField [] ∧ t.clk = s.clk) ∧
    (pageRuns s b 0x0B01 x → fieldIn (writtenPage x) 4 2 0 4 = true → fieldIn (writtenPage x) 79 64 0 10000 = true →
      (bits (writtenPage x) 63 32 ≠ 0xFFFFFFFF → bits (writtenPage x) 63 32 ≠ 0 → ∃ t, exec (.calendarSet b) s = .next t ∧
        boxSays t b stOk [] ∧ t.evr.calendar = some (bits (writtenPage x) 63 32, opSeconds s) ∧
        t.evr.epoch = s.evr.epoch + 1) ∧
      (bit (writtenPage x) 1 = true → ∃ t, exec (.eventStoreClear b) s = .next t ∧ boxSays t b stOk [] ∧ t.evr.store = [])) ∧
    (pageRuns s b 0x0602 x → insertOk s x.target (bits (writtenPage x) 14 0) (entryPage (writtenPage x) 64) = true →
      (entryPage (writtenPage x) 64).valid = true → ∃ t, exec (.classifierOrderedInsert b) s = .next t ∧ boxSays t b stOk [] ∧
      t.cam = (orderedInsert x.target (bits (writtenPage x) 14 0) (entryPage (writtenPage x) 64) s).cam ∧
      (tfind t.cam.entries x.target).isSome = true) ∧
    (pageRuns s b 0x0602 x → insertOk s x.target (bits (writtenPage x) 14 0) (entryPage (writtenPage x) 64) = false → ∃ t,
      exec (.classifierOrderedInsert b) s = .next t ∧ boxSays t b stPageField [] ∧ t.cam = s.cam)

/-- Queues and sessions by mailbox (R256, R260 to R262, R266, R268): QUEUE_CREATE binds a context and answers its new
session; QUEUE_DELETE drains the session and leaves the mailbox busy; SESSION_RELEASE removes a deleted session; each is
refused with QUEUE_INVALID where its conditions fail; SESSION_LIST answers at most 252 sessions. Completes: queueCreate,
queueDelete, sessionRelease, sessionList. -/
def Obligations.QueuesAndSessionsByMailbox : Prop :=
  ∀ (s : State) (b : Nat) (x : Mailbox),
    (boxRuns s b x 0x0020 false →
      (createOk s (boxPort b) x.target (leNat (boxInput x 32)) = true → ∀ id, 
        id = sessionId x.target (ctxAt s x.target).generation (boxPort b) 0 → ∃ t, exec (.queueCreate b) s = .next t ∧
        boxSays t b stOk (natLe 8 id) ∧ (ctxAt t x.target).session = some id ∧
        (ctxAt t x.target).queue = some (newQueue id (boxPort b) (leNat (boxInput x 32))) ∧
        (ctxAt t x.target).generation = (ctxAt s x.target).generation + 1 ∧
        sessFind t id = some { kind := .host, ctx := x.target, port := boxPort b }) ∧
      (createOk s (boxPort b) x.target (leNat (boxInput x 32)) = false → ∃ t, exec (.queueCreate b) s = .next t ∧
        boxSays t b stQueue [] ∧ t.sessions = s.sessions ∧ t.host.ctxs = s.host.ctxs)) ∧
    (boxRuns s b x 0x0021 false →
      (∀ id q y, deletable s x.target (boxPort b) = true → (ctxAt s x.target).session = some id →
        (ctxAt s x.target).queue = some q → sessFind s id = some y → y.ctx = x.target → ∃ t u,
        exec (.queueDelete b) s = .next t ∧
        (boxAt t b).busy = true ∧ (ctxAt t x.target).queue = some u ∧ u.deleting = true ∧ u.box = some b ∧ u.held = [] ∧
        (∃ z, sessFind t id = some z ∧ z.draining = true ∧ z.release = bit (leNat (boxInput x 1)) 0) ∧
        ∀ a ∈ t.dlr.arrived, a.session ≠ id) ∧
      (deletable s x.target (boxPort b) = false → ∃ t, exec (.queueDelete b) s = .next t ∧ boxSays t b stQueue [] ∧
        t.sessions = s.sessions ∧ t.dlr = s.dlr)) ∧
    (boxRuns s b x 0x0022 false → ∀ id, id = leNat (boxInput x 8) →
      (∀ y, sessFind s id = some y → y.kind = .host → y.port = boxPort b → y.deleted = true →
        (ctxAt s y.ctx).queue = none → ∃ t, exec (.sessionRelease b) s = .next t ∧ boxSays t b stOk [] ∧
        sessFind t id = none ∧ (ctxAt t y.ctx).session = none) ∧
      (∀ y, sessFind s id = some y → y.kind ≠ .host ∨ y.port ≠ boxPort b ∨ y.deleted = false → ∃ t,
        exec (.sessionRelease b) s = .next t ∧ boxSays t b stQueue [] ∧ t.sessions = s.sessions) ∧
      (sessFind s id = none → ∃ t, exec (.sessionRelease b) s = .next t ∧ boxSays t b stQueue [] ∧
        t.sessions = s.sessions)) ∧
    (boxRuns s b x 0x0023 false → ∃ t, exec (.sessionList b) s = .next t ∧
      boxSays t b stOk (((listedSessions s (boxPort b) x.target).take 252).flatMap (listEntry s)) ∧
      (boxAt t b).outLen ≤ 4032)

/-- What mailboxes report and unlock (R85, R228, R269, R636): a journal query answers the header and the fates asked for,
or is refused; a ledger snapshot is 128 bytes; an event read answers the store's records from a sequence and severity on;
the diagnostic window is unlocked for 60 s, and locked again when they are over. Completes: mbxJournalQuery,
ledgerSnapshot, eventRead, diagUnlock, diagUnlockExpiry. -/
def Obligations.ReportsAndUnlock : Prop :=
  ∀ (s : State) (b : Nat) (x : Mailbox),
    (boxRuns s b x 0x0024 false → ∀ v, v = leNat (boxInput x 32) →
      (queryCount v ≤ 125 → mayQuery s (boxPort b) (queryTarget v) = true → ∃ t, exec (.mbxJournalQuery b) s = .next t ∧
        boxSays t b stOk (queryOutput s (queryTarget v) (queryFirst v) (queryCount v)) ∧
        (boxAt t b).outLen = 32 + 32 * queryCount v) ∧
      (queryCount v ≤ 125 → mayQuery s (boxPort b) (queryTarget v) = false → ∃ t, exec (.mbxJournalQuery b) s = .next t ∧
        boxSays t b stDenied []) ∧
      (125 < queryCount v → ∃ t, exec (.mbxJournalQuery b) s = .next t ∧ boxSays t b stLength [])) ∧
    (boxRuns s b x 0x0030 false → ∃ t, exec (.ledgerSnapshot b) s = .next t ∧ boxSays t b stOk (natLe 128 (snapshot s)) ∧
      t.jnl = s.jnl) ∧
    (boxRuns s b x 0x0031 false → ∃ t head, exec (.eventRead b) s = .next t ∧ head.length = 32 ∧
      boxSays t b stOk (head ++ (fitRecords 4000 ((s.evr.store.map (·.2)).filter (fun r =>
        decide (leNat (boxInput x 8) ≤ r.seq ∧ leNat (bytesAt x.payload 8 1) ≤ r.sev)))).flatMap eventBytes) ∧
      t.evr = s.evr) ∧
    (∀ p, boxRuns s b x 0x0040 true → tfind s.host.ports (boxPort b) = some p → ∃ t u, exec (.diagUnlock b) s = .next t ∧
      boxSays t b stOk [] ∧ tfind t.host.ports (boxPort b) = some u ∧ u.unlock = some (now s + 60000000000)) ∧
    (∀ port p at_, running s = true → tfind s.host.ports port = some p → p.unlock = some at_ →
      (at_ ≤ now s → ∃ t, exec (.diagUnlockExpiry port) s = .next t ∧
        tfind t.host.ports port = some { p with unlock := none }) ∧
      (now s < at_ → exec (.diagUnlockExpiry port) s = .next s))

/-! ## Lanes, trunks, routes (chapters 06, 07) -/

/-- The lane state machine (R345 to R349, R351, Table 07-2): each event moves a lane from the states the table names to
the state it names, with its times and counts, and does nothing in any other state. Completes: laneRetrainWindowStart,
laneTrainingDone, laneTrainingTimeout, blockLock, confirmPass, falseLock, lockLoss, attemptCountReset. -/
def Obligations.LaneTrainingFollowsItsTable : Prop :=
  ∀ (s : State) (lane : Nat) (l : Lane), laneServed s lane → laneAt s lane = l →
    (l.state = .waiting ∨ l.state = .off → windowOpen s lane = true → l.revoking = false → ∃ t,
      exec (.laneRetrainWindowStart lane) s = .next t ∧ (laneAt t lane).cfg = l.pending.getD l.cfg ∧
      (laneAt t lane).pending = none ∧
      (laneAt t lane).state = (if (l.pending.getD l.cfg).enabled = false then .off
                               else if (l.pending.getD l.cfg).backplane then .training else .locking)) ∧
    (l.state = .waiting ∨ l.state = .off → windowOpen s lane = false → exec (.laneRetrainWindowStart lane) s = .next s) ∧
    (∀ pre main post, l.state = .training → ∃ t, exec (.laneTrainingDone lane pre main post) s = .next t ∧
      laneAt t lane = { l with state := .locking, since := now s, trained := true,
                               taps := (pre % 64, main % 64, post % 64) }) ∧
    ((l.state = .training ∧ l.since + 500000000 ≤ now s) ∨ (l.state = .locking ∧ l.since + 50000000 ≤ now s) → ∃ t,
      exec (.laneTrainingTimeout lane) s = .next t ∧ (laneAt t lane).attempts = l.attempts + 1 ∧
      (laneAt t lane).state = (if 3 ≤ l.attempts + 1 then .failed else .waiting)) ∧
    (l.state = .locking → ∃ t, exec (.blockLock lane) s = .next t ∧
      laneAt t lane = { l with state := .confirm, since := now s } ∧ lane ∉ t.clk.unlocked) ∧
    (l.state = .confirm → l.pending = none → ∃ t, exec (.confirmPass lane) s = .next t ∧ (laneAt t lane).state = .up ∧
      (laneAt t lane).upAt = now s ∧ (laneAt t lane).attempts = l.attempts ∧ (laneAt t lane).inTrunk = l.cfg.client) ∧
    (l.state = .confirm → l.pending.isSome = true → ∃ t, exec (.confirmPass lane) s = .next t ∧
      (laneAt t lane).state = .waiting) ∧
    (l.state = .confirm → ∃ t, exec (.falseLock lane) s = .next t ∧ (laneAt t lane).state = .locking ∧
      laneCount (laneAt t lane) 43 = (laneCount l 43 + 1) % 2 ^ 48) ∧
    (l.state = .up → ∃ t, exec (.lockLoss lane) s = .next t ∧ (laneAt t lane).state = .waiting ∧
      laneCount (laneAt t lane) 41 = (laneCount l 41 + 1) % 2 ^ 48) ∧
    (l.state = .up → l.upAt + 1000000000 ≤ now s → ∃ t, exec (.attemptCountReset lane) s = .next t ∧
      laneAt t lane = { l with attempts := 0 }) ∧
    (l.state = .up → now s < l.upAt + 1000000000 → exec (.attemptCountReset lane) s = .next s) ∧
    (∀ pre main post, l.state ≠ .training → exec (.laneTrainingDone lane pre main post) s = .next s) ∧
    (l.state ≠ .locking → exec (.blockLock lane) s = .next s) ∧
    (l.state ≠ .confirm → exec (.confirmPass lane) s = .next s ∧ exec (.falseLock lane) s = .next s) ∧
    (l.state ≠ .up → exec (.lockLoss lane) s = .next s)

/-- The high error-ratio monitor, low-power idle and received pause (R350, R361, R362, R365 to R367): windows of invalid
blocks are counted and mark the lane, or drop it after 1 ms of them; a lane idle for lpi_idle_us sleeps and wakes for a
frame; a pause the lane honours holds it for its quanta and a zero one ends the hold, as its expiry does. Completes:
hiBerWindow, pauseReceived, pauseExpiry, pauseRepeatTimer, pauseWatchdog, pauseHoldoffEnd, lpiEntry, lpiWake,
rxLowPowerIdle. -/
def Obligations.LanesHoldAndSleep : Prop :=
  ∀ (s : State) (lane : Nat) (l : Lane), laneServed s lane → laneAt s lane = l → l.state = .up →
    (∀ k, k < 16 → ∃ t, exec (.hiBerWindow lane k) s = .next t ∧ (laneAt t lane).hiBer = false ∧
      (laneAt t lane).state = .up ∧ laneCount (laneAt t lane) 40 = (laneCount l 40 + k) % 2 ^ 48) ∧
    (∀ k, 16 ≤ k → l.hiBer = false → ∃ t, exec (.hiBerWindow lane k) s = .next t ∧ (laneAt t lane).hiBer = true ∧
      (laneAt t lane).hiBerAt = now s ∧ laneCount (laneAt t lane) 42 = (laneCount l 42 + 1) % 2 ^ 48) ∧
    (∀ k, 16 ≤ k → l.hiBer = true → l.hiBerAt + 1000000 ≤ now s → ∃ t, exec (.hiBerWindow lane k) s = .next t ∧
      (laneAt t lane).state = .waiting) ∧
    (l.cfg.client = true → l.cfg.flow = 1 → inHoldoff s l = false →
      (∀ q, 0 < q → q < 65536 → ∃ t, exec (.pauseReceived lane none q) s = .next t ∧
        (laneAt t lane).held = some (now s + ceilDiv (q * 512) 10)) ∧
      (∃ t, exec (.pauseReceived lane none 0) s = .next t ∧ (laneAt t lane).held = none)) ∧
    (l.cfg.client = true → l.cfg.flow = 0 → ∀ q, ∃ t, exec (.pauseReceived lane none q) s = .next t ∧
      (laneAt t lane).held = l.held ∧ laneCount (laneAt t lane) 5 = (laneCount l 5 + 1) % 2 ^ 48) ∧
    (∀ e, l.held = some e → e ≤ now s → ∃ t, exec (.pauseExpiry lane) s = .next t ∧ (laneAt t lane).held = none) ∧
    (∀ e, l.held = some e → now s < e → exec (.pauseExpiry lane) s = .next s) ∧
    (l.pauseSent = true → l.pauseAt + l.cfg.quanta * 256 / 10 ≤ now s → l.cfg.xon < ringCells l → ∃ t f,
      exec (.pauseRepeatTimer lane) s = .next t ∧ (laneAt t lane).pauseAt = now s ∧ f.pause = true ∧
      f ∈ (laneAt t lane).tx) ∧
    (heldLane s lane = true → l.cfg.watchMs ≠ 0 → l.heldFrom + l.cfg.watchMs * 1000000 ≤ now s → ∃ t,
      exec (.pauseWatchdog lane) s = .next t ∧ (laneAt t lane).tx = [] ∧ (laneAt t lane).held = none ∧
      laneCount (laneAt t lane) 38 = (laneCount l 38 + l.tx.length) % 2 ^ 48 ∧
      (laneAt t lane).holdoff =
        (if l.cfg.holdoffMs = 0 then none else some (now s + l.cfg.holdoffMs * 1000000))) ∧
    (∀ e, l.holdoff = some e → e ≤ now s → ∃ t, exec (.pauseHoldoffEnd lane) s = .next t ∧
      laneAt t lane = { l with holdoff := none }) ∧
    (l.cfg.lpiIdleUs ≠ 0 → l.tx = [] → l.emptyAt + l.cfg.lpiIdleUs * 1000 ≤ now s → l.txLpi = false → ∃ t,
      exec (.lpiEntry lane) s = .next t ∧ (laneAt t lane).txLpi = true ∧
      laneCount (laneAt t lane) 44 = (laneCount l 44 + 1) % 2 ^ 48) ∧
    (l.txLpi = true → l.tx ≠ [] → ∃ t, exec (.lpiWake lane) s = .next t ∧ (laneAt t lane).txLpi = false ∧
      (laneAt t lane).wakeSlot = some (slotOf (now s)) ∧ (laneAt t lane).tx = l.tx) ∧
    (∀ e, l.rxLpi ≠ e → ∃ t, exec (.rxLowPowerIdle lane e) s = .next t ∧ (laneAt t lane).rxLpi = e ∧
      laneCount (laneAt t lane) 45 = (if e then (laneCount l 45 + 1) % 2 ^ 48 else laneCount l 45))

/-- Frames on lanes (R278, R287, R293, R297, R350, R353 to R355, R357, R359): a good frame that a client lane passes on,
or a credited one next in sequence, is stored in the lane's ring; a runt is dropped and counted, a frame in a high
error-ratio state is dropped and counted, void, uncredited and misaddressed frames are counted in the counters of the
fabric and the lane; the frame taken from a receive ring is its oldest; a frame at its last hop is dropped and counted;
the frame sent leaves the transmit queue, and a held lane sends none. Completes: laneFrameReceive, voidFrame,
nocreditDrop, fabricFrameDrop, ringFrameTaken, fabricForward, laneFrameTransmit. -/
def Obligations.LaneFramesAreCounted : Prop :=
  ∀ (s : State) (lane : Nat) (l : Lane), laneServed s lane → laneAt s lane = l →
    (∀ b, l.state = .up → l.hiBer = true → ∃ t, exec (.laneFrameReceive lane b 0) s = .next t ∧
      laneCount (laneAt t lane) 19 = (laneCount l 19 + 1) % 2 ^ 48 ∧ (laneAt t lane).rx = l.rx) ∧
    (∀ b, l.state = .up → l.hiBer = false → b.length < 64 → ∃ t, exec (.laneFrameReceive lane b 0) s = .next t ∧
      laneCount (laneAt t lane) 17 = (laneCount l 17 + 1) % 2 ^ 48 ∧ (laneAt t lane).rx = l.rx) ∧
    (∀ b, l.state = .up → l.hiBer = false → s.pwr.state < 2 → l.cfg.client = true → 64 ≤ b.length →
      b.length ≤ maxFrame l.cfg → fcsMark b = .good → isPause b = false → passes s lane b = true →
      l.rx.length < l.cfg.ringFrames → ringCells l + ceilDiv b.length 256 ≤ l.cfg.ringCells →
      ceilDiv b.length 256 ≤ reserveFree s lane → ∃ t f, exec (.laneFrameReceive lane b 0) s = .next t ∧
      (laneAt t lane).rx = l.rx ++ [f] ∧ f.bytes = b ∧ f.mark = .good) ∧
    (∀ b h, l.state = .up → l.hiBer = false → s.pwr.state < 2 → l.cfg.client = false → 64 ≤ b.length →
      b.length ≤ maxFrame l.cfg → fcsMark b = .good → beAt b 12 2 = s.fab.etherType → headerOf b = h → h.version = 1 →
      creditedType h.kind = true → joined s = true → inFabricTrunk l = true → h.hop ≤ 4 →
      frameCost h.payload ≤ creditOfPeer l h.hop → b.length = max 64 (50 + h.payload) → h.laneSeq = l.seqIn → ∃ t f,
      exec (.laneFrameReceive lane b 0) s = .next t ∧ (laneAt t lane).rx = l.rx ++ [f] ∧ f.bytes = b ∧ f.mark = .good ∧
      f.paid = true ∧ (laneAt t lane).seqIn = (l.seqIn + 1) % 65536) ∧
    (∀ h, l.state = .up → l.cfg.client = false → inFabricTrunk l = false → ∃ t, exec (.voidFrame lane h) s = .next t ∧
      t.fabc = { s.fabc with stomps := s.fabc.stomps + 1 } ∧
      laneCount (laneAt t lane) 16 = (laneCount l 16 + 1) % 2 ^ 48) ∧
    (∀ h, inFabricTrunk l = true → creditedType h.kind = true → h.hop < 5 → creditOfPeer l h.hop < frameCost h.payload →
      (l.noCredit.filter (fun a => decide (now s < a + 1000000))).length < 2 → ∃ t b,
      exec (.nocreditDrop lane h) s = .next t ∧ t.fabc = { s.fabc with noCredit := s.fabc.noCredit + 1 } ∧
      t.out = s.out ++ [.frame lane b] ∧ (laneAt t lane).owed = [0, 0, 0, 0, 0] ∧ (laneAt t lane).rx = l.rx) ∧
    (∀ h, inFabricTrunk l = true → creditedType h.kind = true → h.hop < 5 → creditOfPeer l h.hop < frameCost h.payload →
      2 ≤ (l.noCredit.filter (fun a => decide (now s < a + 1000000))).length → ∃ t,
      exec (.nocreditDrop lane h) s = .next t ∧ (laneAt t lane).state = .waiting) ∧
    (∀ c, l.state = .up → l.cfg.client = false → ∃ t, exec (.fabricFrameDrop lane c) s = .next t ∧
      t.fabc = { s.fabc with typeDrop := s.fabc.typeDrop + 1 } ∧
      laneCount (laneAt t lane) 22 = (if filteredFault c then (laneCount l 22 + 1) % 2 ^ 48 else laneCount l 22)) ∧
    (∀ f rest, s.pwr.state < 2 → l.rx = f :: rest → isTransit s l f = false → ∃ t,
      exec (.ringFrameTaken lane) s = .next t ∧ (laneAt t lane).rx = rest) ∧
    (∀ f rest h, joined s = true → l.cfg.client = false → l.rx = f :: rest → headerOf f.bytes = h →
      f.mark = .good ∨ f.mark = .bad → isTransit s l { f with mark := .good } = true → ∃ t u,
      exec (.fabricForward lane h) s = .next t ∧ u = setLane lane { l with rx := rest } s ∧ (laneAt t lane).rx = rest ∧
      (4 ≤ h.hop → t.fabc = { s.fabc with hopDrop := s.fabc.hopDrop + 1 }) ∧
      (∀ node ad via n, h.hop < 4 → egress u h = some (node, ad, via) → leastLoaded u (lanesTo u node) = some n → ∃ g,
        (laneAt t n).tx = (laneAt u n).tx ++ [g] ∧ g.hopClass = h.hop + 1 ∧ g.credited = true)) ∧
    (∀ f, l.state = .up → heldLane s lane = false → l.txLpi = false → nextFrame s l = some f → l.cfg.client = false →
      f.credited = false → f.stomp = false → f.completes = none → ∃ t, exec (.laneFrameTransmit lane) s = .next t ∧
      t.out.getLast? = some (.frame lane (wireBytes f f.bytes)) ∧ (laneAt t lane).tx = l.tx.erase f) ∧
    (∀ f, l.state = .up → heldLane s lane = false → l.txLpi = false → nextFrame s l = some f → l.cfg.client = false →
      f.credited = true → (maySend s l f = true → exec (.laneFrameTransmit lane) s = .next (sendFrame lane f s)) ∧
        (maySend s l f = false → exec (.laneFrameTransmit lane) s = .next s)) ∧
    (l.state = .up → heldLane s lane = true → exec (.laneFrameTransmit lane) s = .next s)

/-- Hellos, link credits and revocation (R277 to R281, R296): the third valid hello joins a lane to its trunk; the hello
timer runs every 100 us; a CREDIT frame releases what it acknowledges and a NAK sends the rest again; credit owed goes
back; a lane that fails leaves UP, and a REVOKE of the neighbour takes the lane it names down, or ends the revoke under
way. Completes: hello, helloTimer, credit, creditReturnTimer, laneFailure, revoke. -/
def Obligations.HellosCreditsAndRevocation : Prop :=
  ∀ (s : State) (lane : Nat) (l : Lane), laneServed s lane → laneAt s lane = l →
    (∀ node far mac serial, l.state = .up → l.cfg.client = false → joined s = true → node ≠ s.fab.nodeId → l.inTrunk = false →
      l.farNode = some node →
      (l.hellos = 2 → l.revoking = false → ∃ t, exec (.hello lane node true far mac serial) s = .next t ∧
        (laneAt t lane).inTrunk = true ∧ (laneAt t lane).seqOut = 0 ∧ (laneAt t lane).seqIn = 0 ∧
        t.fab.routeDue.isSome = true) ∧
      (l.hellos < 2 → ∃ t, exec (.hello lane node true far mac serial) s = .next t ∧
        (laneAt t lane).hellos = l.hellos + 1 ∧ (laneAt t lane).inTrunk = false ∧ (laneAt t lane).helloAt = now s)) ∧
    (∀ node far mac serial, l.state = .up → l.cfg.client = false → l.inTrunk = false → ∃ t,
      exec (.hello lane node false far mac serial) s = .next t ∧ (laneAt t lane).hellos = 0 ∧
      (laneAt t lane).farNode = some node) ∧
    (s.fab.helloAt + 100000 ≤ now s → ∃ t, exec .helloTimer s = .next t ∧ t.fab = { s.fab with helloAt := now s }) ∧
    (now s < s.fab.helloAt + 100000 → exec .helloTimer s = .next s) ∧
    (∀ next counts, inFabricTrunk l = true → l.kept = [] → counts.length = 5 → ∃ t,
      exec (.credit lane next false counts) s = .next t ∧
      laneAt t lane = { l with creditAt := now s, peerBack := counts }) ∧
    (∀ next counts, inFabricTrunk l = true → l.kept ≠ [] → (∀ f ∈ l.kept, from16 f.seq (next % 65536) = true) →
      counts.length = 5 → ∃ t, exec (.credit lane next true counts) s = .next t ∧ (laneAt t lane).kept = [] ∧
      (laneAt t lane).seqOut = next % 65536 ∧ (laneAt t lane).tx.length = l.kept.length + l.tx.length ∧
      t.fabc = { s.fabc with linkRetx := s.fabc.linkRetx + l.kept.length }) ∧
    (inFabricTrunk l = true → sumOf id l.owed ≠ 0 → l.owedAt + 2000 ≤ now s → ∃ t,
      exec (.creditReturnTimer lane) s = .next t ∧
      t = creditFrame lane l.seqIn false l.returned (setLane lane { l with owed := [0, 0, 0, 0, 0] } s) ∧
      (laneAt t lane).owed = [0, 0, 0, 0, 0] ∧ (laneAt t lane).returned = l.returned) ∧
    (∀ cause, l.state = .up → l.cfg.client = false → laneFails (now s) l cause = true → ∃ t,
      exec (.laneFailure lane cause) s = .next t ∧ (laneAt t lane).state = .waiting) ∧
    (∀ cause, l.state = .up → l.cfg.client = false → laneFails (now s) l cause = false →
      exec (.laneFailure lane cause) s = .next s) ∧
    (∀ node n revoked final ack, inFabricTrunk l = true → l.farNode = some node → laneCalled s node revoked = some n →
      (laneAt s n).revoking = true → ∃ t,
      exec (.revoke lane revoked final ack) s = .next t ∧ (laneAt t n).revoking = false ∧ (laneAt t n).kept = []) ∧
    (∀ node n revoked final, inFabricTrunk l = true → l.farNode = some node → laneCalled s node revoked = some n → n ≠ lane →
      (laneAt s n).revoking = false → ∃ t, exec (.revoke lane revoked final false) s = .next t ∧
      t.fabc.revokes = s.fabc.revokes + 1 ∧ (laneAt t n).state = .waiting)

/-- Routes and time (R275, R285, R321, R322): a ROUTE frame brings a node's trunks; one of a second module with the own
node number and the lower serial number marks the conflict; floods and exchanges go out when they are due; routes are
computed again; an offset that a parent's answer gives is slewed and steps no time. Completes: route, routeFloodTimer,
routeRecompute, timeExchangeTimer, timeFrame. -/
def Obligations.RoutesAndTimeTravel : Prop :=
  ∀ s : State, running s = true →
    (∀ src serial trunks valid validAt x, joined s = true → src < 2048 → src ≠ s.fab.nodeId →
      x = { serial := serial, trunks := trunks, valid := valid, validAt := validAt, passedAt := now s } → ∃ t,
      exec (.route src serial trunks valid validAt) s = .next t ∧
      ((∀ y, tfind s.fab.nodes src = some y → { y with passedAt := now s } ≠ x) → tfind t.fab.nodes src = some x ∧
        t.fab.routeDue = some (s.fab.routeDue.getD (now s + 2000000))) ∧
      (∀ y, tfind s.fab.nodes src = some y → { y with passedAt := now s } = x →
        (y.passedAt + 50000000 ≤ now s → tfind t.fab.nodes src = some x ∧ t.fab.routeDue = s.fab.routeDue) ∧
        (now s < y.passedAt + 50000000 → t = s))) ∧
    (∀ serial trunks valid validAt, joined s = true → s.fab.nodeId < 2048 → serialAbove Config.serial serial = true → ∃ t,
      exec (.route s.fab.nodeId serial trunks valid validAt) s = .next t ∧ t.fab.conflict = true) ∧
    (joined s = true → s.fab.routeAt + 100000000 ≤ now s → ∃ t, exec .routeFloodTimer s = .next t ∧
      t.fab = { s.fab with routeAt := now s }) ∧
    (s.fab.routeDue.isSome = true → inActivation s = false → ∃ t, exec .routeRecompute s = .next t ∧ t.fab.routeDue = none ∧
      t.fabc.routeChanges = s.fabc.routeChanges + 1 ∧
      ∀ d ∈ knownNodes s, tfind t.fab.routes d = some (routeFor (writeRoutes s) d)) ∧
    (∀ n k, s.fab.timeAt + 1000000 ≤ now s → timeParent s = some n → (lanesTo s n).head? = some k → ∃ t,
      exec .timeExchangeTimer s = .next t ∧ t.fab = { s.fab with timeAt := now s, timeSent := some (phyTime s) } ∧
      ∃ b, t.out = s.out ++ [.frame k b]) ∧
    (∀ lane t1, laneServed s lane → inFabricTrunk (laneAt s lane) = true → (laneAt s lane).state = .up → ∃ t,
      exec (.timeFrame lane (.request t1)) s = .next t ∧ t = timeFrame lane (.reply t1 (phyTime s) (phyTime s) 0) s ∧
      t.clk = s.clk) ∧
    (∀ lane t1 t2 t3 t4, laneServed s lane → inFabricTrunk (laneAt s lane) = true → (laneAt s lane).state = .up →
      s.fab.timeSent = some t1 → (laneAt s lane).farNode = timeParent s → ownMaster s = false → s.clk.first = true → ∃ t,
      exec (.timeFrame lane (.reply t1 t2 t3 t4)) s = .next t ∧ t.fab.slewNs = timeOffset t1 t2 t3 t4 ∧
      t.fab.offsetNs = timeOffset t1 t2 t3 t4 ∧ t.clk = s.clk)

/-! ## Maintenance, records, update, registers, tasks, freeze (chapters 02, 05, 13, 14) -/

/-- Maintenance and ledgers (R87, R91, R198, R204, R520, R528): a reservation that starts is marked; a ledger fault sets
its bit; a recount with nothing in flight is counted; a channel that retrains, or fails, changes state; exit begins from
a power state. Completes: maintenanceReservationStart, ledgerFault, ledgerRecountWindow, dramLiveRetrain,
dramChannelFailure, powerStateExit. -/
def Obligations.MaintenanceAndLedgers : Prop :=
  ∀ s : State, running s = true →
    (∀ resv m, s.ante.maint = [m] → m.id = resv → m.first ≤ slotOf (now s) → m.started = false → ∃ t,
      exec (.maintenanceReservationStart resv) s = .next t ∧ t.ante.maint = [{ m with started := true }]) ∧
    (∀ resv, dueMaint s resv = none → exec (.maintenanceReservationStart resv) s = .next s) ∧
    (∀ ledger lhs rhs unit b, ledgerBit ledger = some b → ∃ t, exec (.ledgerFault ledger lhs rhs unit) s = .next t ∧
      bit t.jnl.fault b = true) ∧
    (∀ ledger lhs rhs unit, ledger = .linkCredits ∨ ledger = .sessionCredits → ∃ t,
      exec (.ledgerFault ledger lhs rhs unit) s = .next t ∧ t.jnl.fault = s.jnl.fault) ∧
    (∀ m, s.ante.maint.find? (fun m => decide (m.kind = .recount ∧ m.first ≤ slotOf (now s))) = some m →
      s.dlr.inflight = [] → ∃ t, exec .ledgerRecountWindow s = .next t ∧ t.jnl.recounts = s.jnl.recounts + 1 ∧
      (s.jnl.resetAsked = false → t.jnl.refusing = []) ∧
      (.commands ∈ s.jnl.refusing → t.jnl.completed = t.jnl.accepted)) ∧
    (∀ c eyes m, c < 12 → (chanAt s c).state = 1 ∨ (chanAt s c).state = 3 → findMaint s .dramRetrain c = some m →
      m.first ≤ slotOf (now s) →
      (eyes.any eyeFails = false → ∃ t, exec (.dramLiveRetrain c true eyes) s = .next t ∧
        chanAt t c = { chanAt s c with state := 1, trained := now s, eyes := eyes }) ∧
      (eyes.any eyeFails = true → ∃ t, exec (.dramLiveRetrain c true eyes) s = .next t ∧ (chanAt t c).state = 4) ∧
      (∃ t, exec (.dramLiveRetrain c false eyes) s = .next t ∧ chanAt t c = { chanAt s c with state := 1 })) ∧
    (∀ c cause, c < 12 → (chanAt s c).state ≠ 4 → channelFails s c cause = true → ∃ t,
      exec (.dramChannelFailure c cause) s = .next t ∧ (chanAt t c).state = 4 ∧ t.boot.chanFail.isSome = true ∧
      t.mem.single = (s.mem.single || decide (c = 0 ∨ c = 6)) ∧ ∀ k, k ≠ c → chanAt t k = chanAt s k) ∧
    (s.pwr.state ≠ 0 → s.pwr.exiting = none → ∃ t, exec .powerStateExit s = .next t ∧
      t.pwr.exiting = some (now s + Config.exitUs s.pwr.state * 1000) ∧ t.pwr.idleAt = [] ∧ t.pwr.state = s.pwr.state) ∧
    (s.pwr.state = 0 → ∃ t, exec .powerStateExit s = .next t ∧ t.pwr = { s.pwr with idleAt := [] })

/-- Events and in-service tests (R626, R630, R640, R641, R643): the record at the head starts to be written when its hold
has ended, and a written one is in the store; a slice is placed for the most overdue test, and one that has been placed
runs to its end and notes when; a test twice its period late is reported once. Completes: eventHoldExpiry,
eventStoreWriteDone, istSlice, testOverdue. -/
def Obligations.EventsAreStoredAndTestsRun : Prop :=
  ∀ s : State, running s = true →
    (∀ r rest, inRom s = false → s.evr.writing = none → s.evr.pending = r :: rest → s.evr.stopFull = false →
      (r.until_ ≤ now s → ∃ t, exec .eventHoldExpiry s = .next t ∧
        t.evr = { s.evr with pending := rest, writing := some r }) ∧
      (now s < r.until_ → exec .eventHoldExpiry s = .next s)) ∧
    (∀ r, s.evr.writing = some r →
      sectorBytes s.evr s.evr.sector + recBytes r ≤ 65536 → ∃ t, exec .eventStoreWriteDone s = .next t ∧
      t.evr.store = s.evr.store ++ [(s.evr.sector, r)]) ∧
    (s.evr.writing = none → exec .eventStoreWriteDone s = .next s) ∧
    (∀ res measure, s.boot.stage = 4 → s.pwr.state = 0 → s.pwr.sup = .normal → searching s = false →
      (∀ m, placedSlice s = some m → m.first + m.slots ≤ slotOf (now s) →
        (m.target / 1024 = 2 → coreBusy s (m.target % 1024) = false) →
        testable s (m.target / 1024) (m.target % 1024) = true → ∃ t, exec (.istSlice res measure) s = .next t ∧
        tfind t.ist.lastRun (m.target / 1024) = some (now s) ∧ tfind t.ist.runAt m.target = some s.clk.opNs ∧
        m.target ∉ t.ist.overdue ∧ t.ist.draining = none) ∧
      (∀ at_ target inst u, placedSlice s = none → mostOverdue (dueTests s) = some (at_, target, inst) →
        takeSlice target inst s = some u → exec (.istSlice res measure) s = .next u ∧
        (placedSlice u).map (·.target) = some (target * 1024 + inst)) ∧
      (placedSlice s = none → dueTests s = [] → exec (.istSlice res measure) s = .next s)) ∧
    (∀ target inst, target < 7 → inst < instancesOf target → periodOf s target ≠ 0 →
      ranAt s target inst + 2 * periodOf s target * 3600000000000 ≤ s.clk.opNs → target * 1024 + inst ∉ s.ist.overdue → ∃ t,
      exec (.testOverdue target inst) s = .next t ∧ t.ist = { s.ist with overdue := s.ist.overdue ++ [target * 1024 + inst] })

/-- The update commands (R599, R602, R603, R619, Table 13-4): BEGIN takes a manifest that is judged good, DATA its bytes,
FINISH stages an image whose bytes and digests are whole; every command notes its status in the last result. Completes:
updateBegin, updateData, updateFinish, updateStatus. -/
def Obligations.UpdateIsStaged : Prop :=
  ∀ (s : State) (b : Nat) (x : Mailbox) (m : Manifest), s.upd.man = m →
    (boxRuns s b x 0x0050 true →
      (∀ d, boxInput x x.inLen = d → s.upd.state = .idle → s.upd.trial = false → ∃ t,
        exec (.updateBegin b) s = .next t ∧ boxSays t b (judge s d) [] ∧
        (judge s d = stOk → t.upd.state = .receiving ∧ t.upd.man = manifestOf d ∧ t.upd.image = [] ∧ t.upd.received = 0 ∧
          t.upd.last = stOk ∧ activeSlot t.upd = activeSlot s.upd ∧ otherSlot t.upd = {}) ∧
        (judge s d ≠ stOk → t.upd = { s.upd with last := judge s d })) ∧
      (s.upd.state ≠ .idle ∨ s.upd.trial = true → ∃ t, exec (.updateBegin b) s = .next t ∧ boxSays t b stBusy [] ∧
        t.upd = { s.upd with last := stBusy })) ∧
    (boxRuns s b x 0x0051 true → ∀ off d, off = leAt (boxInput x x.inLen) 0 8 → d = (boxInput x x.inLen).drop 8 →
      (s.upd.state = .receiving → 8 ≤ x.inLen → m.size ≤ off → off + d.length ≤ m.length → ∃ t,
        exec (.updateData b) s = .next t ∧ boxSays t b stOk [] ∧ t.upd.image = imagePut s.upd.image off d ∧
        t.upd.received = partBytes m (imagePut s.upd.image off d) ∧ t.upd.state = .receiving) ∧
      (s.upd.state = .receiving → off < m.size ∨ m.length < off + d.length → ∃ t, exec (.updateData b) s = .next t ∧
        boxSays t b stLength [] ∧ t.upd = { s.upd with last := stLength }) ∧
      (s.upd.state ≠ .receiving → ∃ t, exec (.updateData b) s = .next t ∧ boxSays t b stQueue [] ∧
        t.upd = { s.upd with last := stQueue })) ∧
    (boxRuns s b x 0x0052 true → s.upd.state = .receiving →
      (imageWhole m s.upd.image = true → digestsHold m s.upd.image = true → ∃ t, exec (.updateFinish b) s = .next t ∧
        boxSays t b stOk [] ∧ t.upd.state = .staged ∧ activeSlot t.upd = activeSlot s.upd ∧
        otherSlot t.upd = { version := m.bundle, empty := false, rollback := m.rollback, parts := resultSet s.upd m }) ∧
      (imageWhole m s.upd.image = true → digestsHold m s.upd.image = false → ∃ t, exec (.updateFinish b) s = .next t ∧
        boxSays t b stSignature [] ∧ t.upd.state = .idle) ∧
      (imageWhole m s.upd.image = false → ∃ t, exec (.updateFinish b) s = .next t ∧ boxSays t b stLength [] ∧
        t.upd = { s.upd with last := stLength })) ∧
    (boxRuns s b x 0x0056 true → ∃ t, exec (.updateStatus b) s = .next t ∧
      boxSays t b stOk (natLe 32 (updRegisters s.upd) ++ s.upd.reset.flatMap (natLe 2)) ∧ t.upd = s.upd)

/-- Activation, trial, commit and abort (R603 to R607, R610 to R612): a staged bundle that needs a cold start switches
the active slot and is on trial at it; another gets a window whose first slot is answered; at the midpoint a ready module
begins its trial on the other slot, one that is not ready has failed; the trial ends by commit, which raises the
anti-rollback counter. Completes: updateActivate, updateCommit, updateAbort, activationPreload, activationWindowStart,
activationMidpoint, activationWindowEnd, autoCommit, bootTimeout. -/
def Obligations.UpdateIsActivated : Prop :=
  ∀ (s : State) (b : Nat) (x : Mailbox),
    (boxRuns s b x 0x0053 true →
      (s.upd.state = .staged → s.upd.man.cold = true → ∃ t, exec (.updateActivate b) s = .next t ∧
        boxSays t b stOk (natLe 4 0) ∧ t.upd.state = .scheduled ∧ t.upd.activeB = !s.upd.activeB ∧ t.upd.trial = true) ∧
      (s.upd.state = .staged → s.upd.man.cold = false → ∃ t first, exec (.updateActivate b) s = .next t ∧
        boxSays t b stOk (natLe 2 (first % 65536) ++ natLe 2 (windowSlots s.upd.man)) ∧ t.upd.state = .scheduled ∧
        t.upd.window = some first ∧ t.upd.activeB = s.upd.activeB) ∧
      (s.upd.state ≠ .staged → ∃ t, exec (.updateActivate b) s = .next t ∧ boxSays t b stNothing [] ∧
        t.upd = { s.upd with last := stNothing })) ∧
    (boxRuns s b x 0x0054 true →
      (s.upd.state = .trial → ∃ t, exec (.updateCommit b) s = .next t ∧ boxSays t b stOk [] ∧ t.upd.state = .idle ∧
        t.upd.trial = false ∧ t.upd.counter = max s.upd.counter (activeSlot s.upd).rollback) ∧
      (s.upd.state ≠ .trial → ∃ t, exec (.updateCommit b) s = .next t ∧ boxSays t b stNothing [] ∧
        t.upd = { s.upd with last := stNothing })) ∧
    (boxRuns s b x 0x0055 true →
      (s.upd.state = .receiving ∨ s.upd.state = .staged ∨ s.upd.state = .scheduled → ∃ t,
        exec (.updateAbort b) s = .next t ∧ boxSays t b stOk [] ∧ t.upd.state = .idle) ∧
      (s.upd.state = .idle ∨ s.upd.state = .trial → ∃ t, exec (.updateAbort b) s = .next t ∧ boxSays t b stNothing [] ∧
        t.upd = { s.upd with last := stNothing }) ∧
      (s.upd.state = .activating → ∃ t, exec (.updateAbort b) s = .next t ∧ boxSays t b stBusy [] ∧
        t.upd = { s.upd with last := stBusy })) ∧
    (running s = true →
      (s.upd.state = .scheduled → s.upd.man.cold = false →
        (∃ t, exec (.activationPreload true) s = .next t ∧ t.upd = { s.upd with loaded := true }) ∧
        (∃ t, exec (.activationPreload false) s = .next t ∧ t.upd.state = .idle ∧ t.upd.last = stActivation)) ∧
      (s.upd.state = .scheduled → s.upd.loaded = true → inActivation s = true → ∃ t,
        exec .activationWindowStart s = .next t ∧ t.upd = { s.upd with state := .activating }) ∧
      (∀ m, s.upd.state = .activating → placedWindow s = some m → (2 * m.first + m.slots) * Config.slotNs ≤ 2 * now s →
        (∃ t, exec (.activationMidpoint true) s = .next t ∧ t.upd.state = .trial ∧ t.upd.trial = true ∧
          t.upd.activeB = !s.upd.activeB) ∧
        (∃ t, exec (.activationMidpoint false) s = .next t ∧ t.upd.state = .idle ∧ t.upd.last = stActivation ∧
          t.upd.rollbacks = s.upd.rollbacks + 1 ∧ t.upd.activeB = s.upd.activeB)) ∧
      (∀ m ready, placedWindow s = some m → m.first + m.slots ≤ slotOf (now s) → s.upd.switched = false ∨ ready = true → ∃ t,
        exec (.activationWindowEnd ready) s = .next t ∧ t.upd.window = none ∧ t.upd.switched = false ∧
        (s.upd.state = .scheduled ∨ s.upd.state = .activating → t.upd.state = .idle ∧ t.upd.last = stActivation)) ∧
      (∀ m, placedWindow s = some m → m.first + m.slots ≤ slotOf (now s) → s.upd.switched = true → ∃ t,
        exec (.activationWindowEnd false) s = .next t ∧ t.boot.stage = 0 ∧ t.clk.cycles = s.clk.cycles + 1) ∧
      (s.upd.state = .trial → s.upd.autoH ≠ 0 → s.boot.stage = 4 → s.upd.fails = 0 →
        s.upd.trialAt + s.upd.autoH * 3600000000000 ≤ s.clk.opNs → ∃ t, exec .autoCommit s = .next t ∧
        t.upd.state = .idle ∧ t.upd.trial = false ∧ t.upd.counter = max s.upd.counter (activeSlot s.upd).rollback) ∧
      (s.boot.stage < 4 → s.boot.coldOp + s.upd.bootS ≤ opSeconds s →
        (s.upd.fails < 2 → ∃ t, exec .bootTimeout s = .next t ∧ t.boot.stage = 0 ∧ t.upd.fails = s.upd.fails + 1 ∧
          t.clk.cycles = s.clk.cycles + 1) ∧
        (2 ≤ s.upd.fails → s.upd.bothBad = true → ∃ t, exec .bootTimeout s = .next t ∧ t.boot.stage = 0xE) ∧
        (2 ≤ s.upd.fails → s.upd.bothBad = false → ∃ t, exec .bootTimeout s = .next t ∧ t.boot.stage = 0 ∧
          t.upd.fails = 0 ∧ t.upd.activeB = !s.upd.activeB)))

/-- Register accesses (R15, R224, R225, R250, R252): a write the port honours changes the register it names and no other
mailbox, one it does not is counted; a read answers the register, clears bad_access where it reads it, and the low half
of a 64-bit register keeps the high half for the read after it; offset 8 × c of BAR2 is the doorbell of context c, which
reads 0 (R229). Completes: registerWrite, rcRegisterRead, registerLowHalfRead, barBadAccess. -/
def Obligations.RegistersAreReadAndWritten : Prop :=
  ∀ (s : State) (port : Nat), running s = true → reachedBy s port = true →
    (∀ bar offset size value, barExists bar = true → honoured s port bar offset size = false → ∃ t,
      exec (.registerWrite port bar offset size value) s = .next t ∧ t.host = { s.host with badAccess := s.host.badAccess + 1 }) ∧
    (∀ bar offset size value, barExists bar = false → exec (.registerWrite port bar offset size value) s = .next s) ∧
    (∀ ctx value, honoured s port 2 (8 * ctx) 4 = true →
      exec (.registerWrite port 2 (8 * ctx) 4 value) s =
        .next (doorbell port ctx (some (bits value 31 0)) none (startExit s))) ∧
    (∀ ctx value, honoured s port 2 (8 * ctx + 4) 4 = true →
      exec (.registerWrite port 2 (8 * ctx + 4) 4 value) s =
        .next (doorbell port ctx none (some (bits value 31 0)) (startExit s))) ∧
    (∀ box value, box < 64 → boxPort box = port → honoured s port 0 (0x20000 + 4096 * box) 4 = true →
      (bit value 0 = true → (boxAt s box).busy = false → ∃ t,
        exec (.registerWrite port 0 (0x20000 + 4096 * box) 4 value) s = .next t ∧ t.host.goQueue = s.host.goQueue ++ [box] ∧
        boxAt t box = { boxAt s box with busy := true, irq := bit value 2 } ∧
        ∀ k, k ≠ box → boxAt t k = boxAt s k) ∧
      (bit value 0 = true → (boxAt s box).busy = true → ∃ t,
        exec (.registerWrite port 0 (0x20000 + 4096 * box) 4 value) s = .next t ∧ t.host.goQueue = s.host.goQueue)) ∧
    (∀ box k value, box < 64 → boxPort box = port → 64 ≤ k → k < 4096 → k % 4 = 0 →
      honoured s port 0 (0x20000 + 4096 * box + k) 4 = true → ∃ t,
      exec (.registerWrite port 0 (0x20000 + 4096 * box + k) 4 value) s = .next t ∧
      bytesAt (boxAt t box).payload (k - 64) 4 = natLe 4 (bits value 31 0) ∧
      (∀ a, a < k - 64 ∨ k - 60 ≤ a → byteAt (boxAt t box).payload a = byteAt (boxAt s box).payload a) ∧
      ∀ j, j ≠ box → boxAt t j = boxAt s j) ∧
    (∀ offset size, honoured s port 0 offset size = true → ∃ t, exec (.rcRegisterRead port ⟨0, offset⟩ size) s = .next t ∧
      t.out = s.out ++ [.readData port offset (readAt s port offset size)] ∧
      (offset = 0x54 → t.host.badAccess = 0)) ∧
    (∀ offset size, honoured s port 2 offset size = true →
      exec (.rcRegisterRead port ⟨2, offset⟩ size) s = .next (emit (.readData port offset 0) s)) ∧
    (∀ offset r, honoured s port 0 offset 4 = true → regOf s port offset = some r → r.wide = true → r.off = offset → ∃ t,
      exec (.registerLowHalfRead port offset) s = .next t ∧
      t.out = s.out ++ [.readData port offset (readAt s port offset 4)] ∧
      ∃ p, tfind t.host.ports port = some p ∧ p.latch = some (offset + 4, bits r.value 63 32)) ∧
    (∀ bar offset size write, barExists bar = true → honoured s port bar offset size = false → ∃ t,
      exec (.barBadAccess port bar offset size write) s = .next t ∧
      t.host = { s.host with badAccess := s.host.badAccess + 1 } ∧
      t.out = (if write then s.out else s.out ++ [.readData port offset 0])) ∧
    (∀ bar offset size write, honoured s port bar offset size = true ∨ barExists bar = false →
      exec (.barBadAccess port bar offset size write) s = .next s)

/-- Tasks (R63, R259, R637, R645, R675): a code that the stage does not allow ends with OPCODE_INVALID; a module reset is
asked for, answered with its slot and carried out when the module is quiet; all ports reset start the module again; a
self test answers the results of Table 14-4; the event tail gives the newest records. Completes: taskCodeInvalid,
moduleReset, moduleResetExecute, allPortsReset, selfTest, eventTail. -/
def Obligations.TasksRun : Prop :=
  ∀ (s : State) (set : Nat) (k : Task), running s = true → taskAt s set = k →
    (k.busy = true → s.boot.stage ∉ taskStages k.code → ∃ t, exec (.taskCodeInvalid set) s = .next t ∧
      taskAt t set = { k with busy := false, status := stOpcode, result := 0 }) ∧
    (k.busy = true → s.boot.stage ∈ taskStages k.code → exec (.taskCodeInvalid set) s = .next s) ∧
    (k.busy = true → k.code = 1 → s.boot.stage ∈ taskStages 1 → ∃ t u, exec (.moduleReset set) s = .next t ∧
      t.jnl.resetAsked = true ∧ taskAt t set = u ∧ u.busy = false ∧ u.status = stOk ∧ u.result < 65536) ∧
    (s.jnl.resetAsked = true → quiesced s = true → ∃ t, exec .moduleResetExecute s = .next t ∧ t.boot.stage = 0 ∧
      t.clk.cause = 2 ∧ t.clk.cycles = s.clk.cycles + 1 ∧ t.nss = s.nss ∧ t.med.flash = s.med.flash) ∧
    (s.jnl.resetAsked = false → exec .moduleResetExecute s = .next s) ∧
    (s.boot.stage = 4 → s.host.ports ≠ [] → (∀ p ∈ s.host.ports, p.2.perst = true ∧ p.2.perstAt + 1000000 ≤ now s) → ∃ t,
      exec .allPortsReset s = .next t ∧ t.boot.stage = 0 ∧ t.clk.cause = 3 ∧ t.clk.cycles = s.clk.cycles + 1) ∧
    (∀ results target, k.busy = true → k.code = 2 → target = bits k.arg 7 0 → s.boot.stage = 4 →
      (7 ≤ target → ∃ t, exec (.selfTest set results) s = .next t ∧
        taskAt t set = { k with busy := false, status := stOpcode, result := 0 }) ∧
      (target < 7 → target ≠ 1 → target ≠ 6 → targetRuns s target = false → ∃ t, exec (.selfTest set results) s = .next t ∧
        taskAt t set = { k with busy := false, status := stBusy, result := 0 }) ∧
      (target = 1 ∨ target = 6 ∨ (target < 7 ∧ targetRuns s target = true) → ∃ t, exec (.selfTest set results) s = .next t ∧
        taskAt t set = { k with
          busy := false, status := stOk,
          result := testWord ((asked s target (bits k.arg 23 8)).zipIdx.map (fun p => (p.1, results.getD p.2 none))) })) ∧
    (k.busy = true → k.code = 3 → s.boot.stage ∈ taskStages 3 → ∃ t d, exec (.eventTail set) s = .next t ∧
      d = (fitRecords 224 (s.evr.store.map (·.2) ++ s.evr.writing.toList ++ s.evr.pending).reverse).reverse.flatMap eventBytes ∧
      (taskAt t set).status = stOk ∧ (taskAt t set).dataLen = d.length ∧ bytesAt (taskAt t set).data 0 d.length = d)

/-- ROM recovery (R614 to R617, R677, Table 13-6): the image bytes are kept and acknowledged by task, UART and SMBus; a
commit of an image that verifies starts the module again with it, any other is refused with its status; the two sideband
reads answer at any stage, the recovery ones only in ROM recovery, and what is not answered is nacked. Completes:
recoveryWrite, recoveryCommit, uartRecoveryWrite, uartRecoveryCommit, uartRecoveryStatus, sidebandIdentityRead,
sidebandStatusRead, smbusRecoveryWrite, smbusRecoveryCommit, smbusRecoveryStatus. -/
def Obligations.RecoveryAndSideband : Prop :=
  ∀ s : State, running s = true →
    (∀ set k, s.boot.stage = 0xE → taskAt s set = k → k.busy = true → k.code = 4 → k.dataLen ≤ 224 → k.arg + k.dataLen ≤ 125829120 →
      ∃ t, exec (.recoveryWrite set) s = .next t ∧ (taskAt t set).status = stOk ∧ (taskAt t set).busy = false ∧
      t.upd.rImage = imagePut s.upd.rImage k.arg (bytesAt k.data 0 k.dataLen)) ∧
    (∀ set k, s.boot.stage = 0xE → taskAt s set = k → k.busy = true → k.code = 4 → 224 < k.dataLen → ∃ t,
      exec (.recoveryWrite set) s = .next t ∧ (taskAt t set).status = stLength ∧ t.upd = s.upd) ∧
    (∀ set k, s.boot.stage = 0xE → taskAt s set = k → k.busy = true → k.code = 5 →
      ∃ t, exec (.recoveryCommit set) s = .next t ∧
        (recoveryStatus s = stOk → t.boot.stage = 0 ∧ t.clk.cycles = s.clk.cycles + 1 ∧ t.upd.trial = true) ∧
        (recoveryStatus s ≠ stOk → t.boot = s.boot ∧ (taskAt t set).status = recoveryStatus s)) ∧
    (∀ frame off d, s.boot.stage = 0xE → uartFrame 1 frame = some (off, d) → off + d.length ≤ 125829120 → ∃ t,
      exec (.uartRecoveryWrite frame) s = .next t ∧ t.upd.rImage = imagePut s.upd.rImage off d ∧
      t.out = s.out ++ [.uart 1 stOk]) ∧
    (∀ frame off d, s.boot.stage = 0xE → uartFrame 2 frame = some (off, d) → ∃ t,
      exec (.uartRecoveryCommit frame) s = .next t ∧ t.out = s.out ++ [.uart 2 (recoveryStatus s)] ∧
      (recoveryStatus s = stOk → t.boot.stage = 0 ∧ t.clk.cycles = s.clk.cycles + 1) ∧
      (recoveryStatus s ≠ stOk → t.boot = s.boot)) ∧
    (∀ frame off d, s.boot.stage = 0xE → uartFrame 3 frame = some (off, d) → ∃ t,
      exec (.uartRecoveryStatus frame) s = .next t ∧ t.out = s.out ++ [.uart 3 s.upd.rStatus]) ∧
    (∀ frame, s.boot.stage ≠ 0xE → exec (.uartRecoveryWrite frame) s = .next s ∧ exec (.uartRecoveryCommit frame) s = .next s ∧
      exec (.uartRecoveryStatus frame) s = .next s) ∧
    (∀ pec, ∃ t l, exec (.sidebandIdentityRead pec) s = .next t ∧ t.out = s.out ++ [.smbus l] ∧
      l.length = 46 + (if pec then 1 else 0)) ∧
    (∀ temp pec, ∃ t l, exec (.sidebandStatusRead temp pec) s = .next t ∧ t.out = s.out ++ [.smbus l] ∧
      l.length = 13 + (if pec then 1 else 0)) ∧
    (∀ block pec, s.boot.stage = 0xE → pecHolds 0xE0 block pec s = true → 5 ≤ block.length → block.length ≤ 244 →
      leAt block 0 4 + (block.drop 4).length ≤ 125829120 → ∃ t, exec (.smbusRecoveryWrite block pec) s = .next t ∧
      t.upd.rImage = imagePut s.upd.rImage (leAt block 0 4) (block.drop 4) ∧ t.out = s.out) ∧
    (∀ pec, s.boot.stage = 0xE → pecHolds 0xE1 [] pec s = true → ∃ t,
      exec (.smbusRecoveryCommit [] pec) s = .next t ∧ t.upd.rStatus = recoveryStatus s ∧
      (recoveryStatus s = stOk → t.boot.stage = 0) ∧ (recoveryStatus s ≠ stOk → t.boot = s.boot)) ∧
    (s.boot.stage = 0xE → ∃ t l, exec (.smbusRecoveryStatus true) s = .next t ∧ t.out = s.out ++ [.smbus l] ∧ l.length = 10) ∧
    (∀ block pec, s.boot.stage ≠ 0xE → ∃ t, t = emit .nack s ∧ exec (.smbusRecoveryWrite block pec) s = .next t ∧
      exec (.smbusRecoveryCommit block pec) s = .next t ∧ exec (.smbusRecoveryStatus true) s = .next t)

/-- The freeze port (R646 to R652): a module in service whose mode allows it freezes, keeping its state; while it is
frozen the chains and memories can be read and no command of the module has an effect; the thaw takes it on, with the
time it stood still noted. A module that is not frozen answers 0. Completes: freezeEntry, thaw, frzStatus, frzChain,
frzMem. -/
def Obligations.FreezeAndThaw : Prop :=
  ∀ s : State,
    (s.frz.mode ≠ 0 → 1 ≤ s.boot.stage → s.pwr.sup = .normal → s.frz.state = 0 → ∃ t, exec .freezeEntry s = .next t ∧
      t.frz.state = 2 ∧ t.frz.count = s.frz.count + 1 ∧ t.frz.at_ = now s ∧ running t = false ∧ t.clk = s.clk ∧
      t.sessions = s.sessions ∧ t.med = s.med) ∧
    (s.frz.mode = 0 ∨ s.boot.stage = 0 ∨ s.pwr.sup ≠ .normal ∨ s.frz.state ≠ 0 →
      exec .freezeEntry s = .next { s with frz := { s.frz with asserted := true } }) ∧
    (s.frz.state ≠ 0 → ∃ t, exec .thaw s = .next t ∧ t.frz.state = 0 ∧ t.frz.lastNs = now s - s.frz.at_ ∧ t.clk = s.clk ∧
      ∀ n, (laneAt t n).state ≠ .up) ∧
    (s.frz.state = 0 → exec .thaw s = .next { s with frz := { s.frz with asserted := false } }) ∧
    (s.frz.state = 2 → ∃ t l, exec .frzStatus s = .next t ∧ exec .frzChain s = .next l ∧
      t.out = s.out ++ [.jtag [freezeWord s]] ∧ l.frz = { s.frz with shifts := s.frz.shifts + 1 } ∧
      (∃ words, l.out = s.out ++ [.jtag (freezeWord s :: words)])) ∧
    (∀ memory word, s.frz.state = 2 → ∃ t, exec (.frzMem memory word) s = .next t ∧
      t.out = s.out ++ [.jtag [memory % 2 ^ 32, word % 2 ^ 32, readOut s (memory % 2 ^ 32) (fresh 64 s)]] ∧ t.frz = s.frz ∧ t.mem = s.mem) ∧
    (∀ memory word, s.frz.state ≠ 2 → ∃ t, t = emit (.jtag [0]) s ∧ exec .frzStatus s = .next t ∧ exec .frzChain s = .next t ∧
      exec (.frzMem memory word) s = .next t)

/-! ## The block as a whole -/

/-- One step takes the command at the front of the queue and carries it out with the rest left waiting; no command adds
to the queue, takes from it or puts itself before another. With nothing waiting the block idles: 1,000 ns pass (the
model's choice, log entry 6). -/
def Obligations.StepRunsTheFrontCommand : Prop :=
  (∀ (s : State) (c : Instr) (rest : List Instr), s.pending = c :: rest →
    step s = exec c { s with pending := rest } ∧ ∀ t, step s = .next t → t.pending = rest) ∧
  (∀ s : State, s.pending = [] → now s + 1000 < 2 ^ 64 → ∃ t, step s = .next t ∧ t.pending = []) ∧
  (∀ s : State, s.pending = [] → 2 ^ 64 ≤ now s + 1000 → step s = .fault .fabricTimeExhausted)

/-- The block right after the cold start of a factory-fresh part (R17, R325, R580, R675, Tables 05-6, 10-8, 11-2, 12-2,
13-7, 14-8 to 14-10): in boot_stage 0 and NORMAL, with time 0, no command waiting or known, no session, no namespace but
FREE ones, no object, the kitty target at 0, no flush set ready, no noise source passing, the supply invariant holding,
and the pages at the values of their reset columns. -/
def Obligations.ResetStateIsTheSpecs : Prop :=
  State.reset.pending = [] ∧ State.reset.boot.stage = 0 ∧ State.reset.pwr.sup = .normal ∧ State.reset.clk.time = 0 ∧
  State.reset.dlr.inflight = [] ∧ State.reset.dlr.arrived = [] ∧ State.reset.sessions = [] ∧ State.reset.commits = 0 ∧
  State.reset.pwr.target = 0 ∧ State.reset.pwr.valid = false ∧ State.reset.jnl.accepted = 0 ∧ State.reset.jnl.completed = 0 ∧
  State.reset.upd.state = .idle ∧ State.reset.frz.state = 0 ∧ State.reset.xts.kik = none ∧ supplyOk State.reset ∧
  State.reset.pwr.aReady = false ∧ State.reset.pwr.bReady = false ∧ noisePasses State.reset = false ∧
  (∀ n, (nsAt State.reset n).state = 0) ∧ (∀ n, (laneAt State.reset n).state ≠ .up) ∧
  (∀ b, (boxAt State.reset b).busy = false) ∧ (∀ n, (taskAt State.reset n).busy = false) ∧
  (∀ n, (tget keyBlank State.reset.xts.slots n).key = none) ∧ (∀ ns key, lookup State.reset ns key = none) ∧
  pageRead State.reset 0x0800 0 = pack [(0, 17, 4096), (32, 16, 0x0021), (48, 16, 0x0042), (64, 16, 0x0084),
    (80, 16, 0x0108), (96, 16, 0x0210), (112, 12, 0x041), (124, 1, 1), (128, 16, 8192), (144, 16, 16384), (160, 8, 48),
    (168, 8, 16), (176, 16, 500), (192, 16, 4096), (208, 16, 1000), (224, 8, 1), (232, 8, 24), (240, 8, 25)] ∧
  pageRead State.reset 0x0900 0 = pack [(16, 8, 24), (32, 16, 1000)] ∧
  pageRead State.reset 0x0B00 0 = pack [(0, 16, 72), (16, 12, 300)] ∧
  pageRead State.reset 0x0B02 0 = pack [(0, 7, 0x7F), (16, 16, 168), (32, 16, 24), (48, 16, 24), (64, 8, 1), (72, 8, 24)] ∧
  pageRead State.reset 0x0B03 0 = 1

/-- Frame of every command: whatever it does, the parts of the state that `mayChange` does not list for it read the same
afterwards, and so does the queue of waiting commands. -/
def Obligations.EveryCommandKeepsOtherParts : Prop :=
  ∀ (c : Instr) (s t : State), exec c s = .next t → Keeps (mayChange c) s t ∧ t.pending = s.pending

/-- No command is refused and none but the passing of a slot can fault: every other command answers a next state in every
state, and the passing of a slot faults only where the 64 bits of fabric time (R320) are used up. -/
def Obligations.EveryCommandCompletes : Prop :=
  ∀ (c : Instr) (s : State),
    (c ≠ .slotBoundary → ∃ t, exec c s = .next t) ∧
    (c = .slotBoundary → now s + 16000 < 2 ^ 64 → ∃ t, exec c s = .next t) ∧
    (∀ r, exec c s ≠ .refused r)

/-- A module that is frozen, in FLUSH, in SPENT or in OFF (R563, R647): every command that reaches only a running module
leaves it as it is (the model's choice for what reaches an unpowered block, log entry 3). -/
def Obligations.AStoppedModuleIgnoresCommands : Prop :=
  ∀ (c : Instr) (s : State), onlyWhenRunning c = true → running s = false → exec c s = .next s

/-- Invariant of the supply (R563, R564, R570, R586, R650): from every state in which it holds, a step that answers a
next state answers one in which it holds. -/
def Obligations.EveryStepKeepsTheSupplyInvariant : Prop :=
  ∀ s t : State, supplyOk s → step s = .next t → supplyOk t

/-- What no step undoes (R106, R544, R611, R621): a locked key-import key stays locked and is not changed, the
anti-rollback counter, the cold-start count, the operating time and the count of commit steps never fall. -/
def Obligations.NoStepUndoesWhatIsForGood : Prop :=
  ∀ s t : State, step s = .next t →
    (s.xts.kikLocked = true → t.xts.kikLocked = true ∧ t.xts.kik = s.xts.kik) ∧ s.upd.counter ≤ t.upd.counter ∧
    s.clk.cycles ≤ t.clk.cycles ∧ s.clk.opNs ≤ t.clk.opNs ∧ s.commits ≤ t.commits

/-- A committed value is what is read from then on, and every other object reads as before (R29, R105, R106, R390): the
commit step of a buffered write of an unprotected namespace, its key held or a slot of its buckets free, no stale entry
of the key left in the index, gives the key the value, the suit and the next version, and changes no other object.
Completes: commitStep. -/
def Obligations.CommittedValueIsRead : Prop :=
  ∀ (s : State) (f : InFlight) (ns : Nat) (key value : Bytes) (suit d : Nat), running s = true → s.boot.stage = 4 →
    findFlight s f.session f.seq = some f → f.trick = none → f.prot = none → f.medium = false → committable s f = true →
    f.plan.effect = .store ns key value suit → d = digestOf s ns key → tfind s.mem.held s.mem.nextHeld = none →
    (∀ c ∈ candidates s ns d, ∀ x r, lookup s ns key = some x → c.1 ≠ x.spot → recordAt s c.2 = some r →
      ¬ (r.ns = ns ∧ r.key = key)) →
    (lookup s ns key = none → (freeSlot s.idx (bucket1 d) ≠ none ∨ freeSlot s.idx (bucket2 d) ≠ none) ∧
      ∀ c ∈ candidates s ns d, ∀ r, recordAt s c.2 = some r → ¬ (r.ns = ns ∧ r.key = key)) →
    ∃ t y, exec (.commitStep f.session f.seq) s = .next t ∧ lookup t ns key = some y ∧ y.item.value = value ∧
      y.item.suit = suit ∧ y.item.version = s.commits + 1 ∧
      ∀ ns' key', ¬ (ns' = ns ∧ key' = key) → (lookup t ns' key').map (·.item) = (lookup s ns' key').map (·.item)

/-- A command on one unit leaves the others of its kind alone: the events of one lane that move nothing between lanes,
the doorbells, fetches, posts and timer of one queue, and the training and failure of one memory channel. -/
def Obligations.CommandsOnOneUnitLeaveOthersAlone : Prop :=
  ∀ (s t : State) (n k : Nat), k ≠ n →
    (∀ c : Instr, (∃ pre main post, c = .laneTrainingDone n pre main post) ∨ c = .laneTrainingTimeout n ∨ c = .blockLock n ∨
        c = .confirmPass n ∨ c = .falseLock n ∨ c = .attemptCountReset n ∨ (∃ pfc q, c = .pauseReceived n pfc q) ∨
        c = .pauseExpiry n ∨ c = .pauseRepeatTimer n ∨ c = .pauseWatchdog n ∨ c = .pauseHoldoffEnd n ∨ c = .lpiEntry n ∨
        c = .lpiWake n ∨ (∃ e, c = .rxLowPowerIdle n e) ∨ c = .creditReturnTimer n →
      exec c s = .next t → laneAt t k = laneAt s k) ∧
    (∀ c : Instr, (∃ port tail h, c = .sqTailWrite port n tail h) ∨ (∃ port h, c = .cqHeadWrite port n h) ∨
        (∃ r, c = .submissionEntryFetch n r) ∨ c = .coalesceTimerExpiry n ∨ c = .postHeldCompletion n →
      exec c s = .next t → ctxAt t k = ctxAt s k) ∧
    (∀ c : Instr, (∃ ch ok eyes, c = .dramLiveRetrain ch ok eyes ∧ ch = n) ∨ (∃ cause, c = .dramChannelFailure n cause) →
      exec c s = .next t → chanAt t k = chanAt s k)
end

