-- ==== Sys2Proof/Laws/Keeps.lean ====
section
/-! SUPPORT. How changes of the state compose: what a chain of operations leaves alone. Each lemma `f_keeps` of the files
beside this one says which areas of the state `f` may change, in a form that peels `f` off the end of a chain. -/

namespace Sys2Proof.Machine

open Sys2Proof

/-- Area `p` is among those of `w`. -/
def memB (p : Area) (w : List Area) : Bool := w.any (fun q => p.ctorIdx == q.ctorIdx)

/-- The areas of `v` are among those of `w`. -/
def subB (v w : List Area) : Bool := v.all (fun p => memB p w)

/-- Areas with one number are one area. -/
theorem area_of_idx : ∀ p q : Area, p.ctorIdx = q.ctorIdx → p = q := by
  intro p q e
  cases p <;> cases q <;> simp_all [Area.ctorIdx]

theorem memB_mem {p : Area} {w : List Area} (h : memB p w = true) : p ∈ w := by
  simp only [memB, List.any_eq_true, beq_iff_eq] at h
  rcases h with ⟨q, member, number⟩
  rwa [area_of_idx p q number]

/-- What is listed, or unchanged, is unchanged where it is not listed. -/
theorem unlisted {p : Area} {w : List Area} {P : Prop} (h : memB p w = true ∨ P) (hp : p ∉ w) : P :=
  h.resolve_left (fun k => hp (memB_mem k))

theorem subB_sub {v w : List Area} (h : subB v w = true) : v ⊆ w :=
  fun p hp => memB_mem (List.all_eq_true.mp h p hp)

theorem same_trans {p : Area} {s t u : State} (h : same p s t) (g : same p t u) : same p s u := by
  cases p <;> exact Eq.trans g h

theorem same_symm {p : Area} {s t : State} (h : same p s t) : same p t s := by
  cases p <;> exact Eq.symm h

theorem Keeps.refl (w : List Area) (s : State) : Keeps w s s := by
  intro p _; cases p <;> rfl

theorem Keeps.trans {w : List Area} {s t u : State} (h : Keeps w s t) (g : Keeps w t u) : Keeps w s u :=
  fun p hp => same_trans (h p hp) (g p hp)

theorem Keeps.mono {w v : List Area} {s t : State} (h : Keeps v s t) (hv : subB v w = true) : Keeps w s t :=
  fun p hp => h p (fun q => hp (subB_sub hv q))

/-- An operation that changes only areas of `w` can be taken off the end of a chain. -/
theorem Keeps.peel {w v : List Area} {s t u : State} (g : Keeps v t u) (hv : subB v w = true) : Keeps w s u ↔ Keeps w s t :=
  ⟨fun k p hp => same_trans (k p hp) (same_symm ((g.mono hv) p hp)), fun k => k.trans (g.mono hv)⟩

theorem keeps_self {w : List Area} {s : State} : Keeps w s s ↔ True := iff_true_intro (Keeps.refl w s)

theorem keeps_ite {w : List Area} {s t u : State} {c : Prop} [Decidable c] :
    Keeps w s (if c then t else u) ↔ if c then Keeps w s t else Keeps w s u := by
  split <;> rfl

theorem keeps_bite {w : List Area} {s t u : State} {c : Bool} :
    Keeps w s (bif c then t else u) ↔ if c = true then Keeps w s t else Keeps w s u := by
  cases c <;> simp

/-- A record update: what lies outside `w` stands as it was. -/
theorem keeps_mk {w : List Area} {s t : State} {x_clk x_boot x_cores x_buf x_dlr x_jnl x_sessions x_nss x_commits x_ante x_host x_lanes x_wake x_fab x_fabc x_idx x_cam x_med x_mem x_xts x_pwr x_upd x_evr x_ist x_frz x_out x_draws}
    (h_clk : memB .clk w = true ∨ x_clk = t.clk)
    (h_boot : memB .boot w = true ∨ x_boot = t.boot)
    (h_cores : memB .cores w = true ∨ x_cores = t.cores)
    (h_buf : memB .buf w = true ∨ x_buf = t.buf)
    (h_dlr : memB .dlr w = true ∨ x_dlr = t.dlr)
    (h_jnl : memB .jnl w = true ∨ x_jnl = t.jnl)
    (h_sessions : memB .sessions w = true ∨ x_sessions = t.sessions)
    (h_nss : memB .nss w = true ∨ x_nss = t.nss)
    (h_commits : memB .commits w = true ∨ x_commits = t.commits)
    (h_ante : memB .ante w = true ∨ x_ante = t.ante)
    (h_host : memB .host w = true ∨ x_host = t.host)
    (h_lanes : memB .lanes w = true ∨ x_lanes = t.lanes)
    (h_wake : memB .wake w = true ∨ x_wake = t.wake)
    (h_fab : memB .fab w = true ∨ x_fab = t.fab)
    (h_fabc : memB .fabc w = true ∨ x_fabc = t.fabc)
    (h_idx : memB .idx w = true ∨ x_idx = t.idx)
    (h_cam : memB .cam w = true ∨ x_cam = t.cam)
    (h_med : memB .med w = true ∨ x_med = t.med)
    (h_mem : memB .mem w = true ∨ x_mem = t.mem)
    (h_xts : memB .xts w = true ∨ x_xts = t.xts)
    (h_pwr : memB .pwr w = true ∨ x_pwr = t.pwr)
    (h_upd : memB .upd w = true ∨ x_upd = t.upd)
    (h_evr : memB .evr w = true ∨ x_evr = t.evr)
    (h_ist : memB .ist w = true ∨ x_ist = t.ist)
    (h_frz : memB .frz w = true ∨ x_frz = t.frz)
    (h_out : memB .out w = true ∨ x_out = t.out)
    (h_draws : memB .draws w = true ∨ x_draws = t.draws) :
    Keeps w s ⟨t.pending, x_clk, x_boot, x_cores, x_buf, x_dlr, x_jnl, x_sessions, x_nss, x_commits, x_ante, x_host, x_lanes, x_wake, x_fab, x_fabc, x_idx, x_cam, x_med, x_mem, x_xts, x_pwr, x_upd, x_evr, x_ist, x_frz, x_out, x_draws⟩ ↔ Keeps w s t := by
  refine Keeps.peel (v := w) (fun p hp => ?_) (List.all_eq_true.mpr (fun q hq => List.any_eq_true.mpr ⟨q, hq, by simp⟩))
  cases p
  case pending => rfl
  case clk => exact unlisted h_clk hp
  case boot => exact unlisted h_boot hp
  case cores => exact unlisted h_cores hp
  case buf => exact unlisted h_buf hp
  case dlr => exact unlisted h_dlr hp
  case jnl => exact unlisted h_jnl hp
  case sessions => exact unlisted h_sessions hp
  case nss => exact unlisted h_nss hp
  case commits => exact unlisted h_commits hp
  case ante => exact unlisted h_ante hp
  case host => exact unlisted h_host hp
  case lanes => exact unlisted h_lanes hp
  case wake => exact unlisted h_wake hp
  case fab => exact unlisted h_fab hp
  case fabc => exact unlisted h_fabc hp
  case idx => exact unlisted h_idx hp
  case cam => exact unlisted h_cam hp
  case med => exact unlisted h_med hp
  case mem => exact unlisted h_mem hp
  case xts => exact unlisted h_xts hp
  case pwr => exact unlisted h_pwr hp
  case upd => exact unlisted h_upd hp
  case evr => exact unlisted h_evr hp
  case ist => exact unlisted h_ist hp
  case frz => exact unlisted h_frz hp
  case out => exact unlisted h_out hp
  case draws => exact unlisted h_draws hp

theorem keeps_each {α : Type} {w : List Area} {s t : State} {f : α → State → State} {l : List α}
    (hf : ∀ a u, Keeps w u (f a u)) (h : Keeps w s t) : Keeps w s (each f l t) := by
  induction l generalizing t with
  | nil => exact h
  | cons a l ih => exact ih (h.trans (hf a t))

theorem keeps_foldl {α : Type} {w : List Area} {s t : State} {f : State → α → State} {l : List α}
    (hf : ∀ u a, Keeps w u (f u a)) (h : Keeps w s t) : Keeps w s (l.foldl f t) := by
  induction l generalizing t with
  | nil => exact h
  | cons a l ih => exact ih (h.trans (hf t a))

theorem keeps_getD {w : List Area} {s t : State} {o : Option State} (g : ∀ u, o = some u → Keeps w s u)
    (h : Keeps w s t) : Keeps w s (o.getD t) := by
  cases o with
  | none => exact h
  | some u => exact g u rfl

theorem keepsR_next {w : List Area} {s t : State} : KeepsR w s (.next t) ↔ Keeps w s t :=
  ⟨fun h => h t rfl, fun h u hu => by cases hu; exact h⟩

theorem keepsR_fault {w : List Area} {s : State} {r : Fault} : KeepsR w s (.fault r) ↔ True :=
  iff_true_intro (fun t h => by cases h)

theorem keepsR_refused {w : List Area} {s : State} {r : Refusal} : KeepsR w s (.refused r) ↔ True :=
  iff_true_intro (fun t h => by cases h)

theorem keepsR_ite {w : List Area} {s : State} {t u : R} {c : Prop} [Decidable c] :
    KeepsR w s (if c then t else u) ↔ if c then KeepsR w s t else KeepsR w s u := by
  split <;> rfl

theorem KeepsR.peel {w v : List Area} {s t : State} {r : R} (g : KeepsR v t r) (hv : subB v w = true) (h : Keeps w s t) :
    KeepsR w s r := fun u hu => h.trans ((g u hu).mono hv)

end Sys2Proof.Machine
end

