-- ==== Sys2Proof/Laws/FrameOps.lean ====
section
/-! SUPPORT. What each operation of Machine/Ops.lean may change: `f_keeps` takes `f` off the end of a chain of operations
whenever the areas it may change are among those allowed. -/

set_option linter.all false

namespace Sys2Proof.Machine

open Sys2Proof

theorem drawn_keeps {s : State} {wB : List Area} {sB : State} (hw : subB [.draws] wB = true) :
    Keeps wB sB (drawn s) ↔ Keeps wB sB s := by
  refine Keeps.peel (v := [.draws]) ?_ hw
  unfold drawn
  repeat' first
    | simp (disch := first | decide | exact Or.inl (by decide) | exact Or.inr rfl) only [keeps_self, keeps_ite,
          keeps_mk, ite_self]
    | split

theorem emit_keeps {o : Out} {s : State} {wB : List Area} {sB : State} (hw : subB [.out] wB = true) :
    Keeps wB sB (emit o s) ↔ Keeps wB sB s := by
  refine Keeps.peel (v := [.out]) ?_ hw
  unfold emit
  repeat' first
    | simp (disch := first | decide | exact Or.inl (by decide) | exact Or.inr rfl) only [keeps_self, keeps_ite,
          keeps_mk, ite_self]
    | split

theorem setPort_keeps {p : Nat} {x : Port} {s : State} {wB : List Area} {sB : State} (hw : subB [.host] wB = true) :
    Keeps wB sB (setPort p x s) ↔ Keeps wB sB s := by
  refine Keeps.peel (v := [.host]) ?_ hw
  unfold setPort
  repeat' first
    | simp (disch := first | decide | exact Or.inl (by decide) | exact Or.inr rfl) only [keeps_self, keeps_ite,
          keeps_mk, ite_self]
    | split

theorem modPort_keeps {p : Nat} {f : Port → Port} {s : State} {wB : List Area} {sB : State} (hw : subB [.host] wB =
    true) :
    Keeps wB sB (modPort p f s) ↔ Keeps wB sB s := by
  refine Keeps.peel (v := [.host]) ?_ hw
  unfold modPort
  repeat' first
    | simp (disch := first | decide | exact Or.inl (by decide) | exact Or.inr rfl) only [keeps_self, keeps_ite,
          keeps_mk, ite_self]
    | split

theorem msix_keeps {p v : Nat} {s : State} {wB : List Area} {sB : State} (hw : subB [.host, .out] wB = true) :
    Keeps wB sB (msix p v s) ↔ Keeps wB sB s := by
  refine Keeps.peel (v := [.host, .out]) ?_ hw
  unfold msix
  repeat' first
    | simp (disch := first | decide | exact Or.inl (by decide) | exact Or.inr rfl) only [keeps_self, keeps_ite,
          keeps_mk, ite_self, emit_keeps, setPort_keeps]
    | split

theorem raiseOn_keeps {b p : Nat} {s : State} {wB : List Area} {sB : State} (hw : subB [.host, .out] wB = true) :
    Keeps wB sB (raiseOn b p s) ↔ Keeps wB sB s := by
  refine Keeps.peel (v := [.host, .out]) ?_ hw
  unfold raiseOn
  repeat' first
    | simp (disch := first | decide | exact Or.inl (by decide) | exact Or.inr rfl) only [keeps_self, keeps_ite,
          keeps_mk, ite_self, msix_keeps, setPort_keeps]
    | split

theorem raiseAll_keeps {b : Nat} {s : State} {wB : List Area} {sB : State} (hw : subB [.host, .out] wB = true) :
    Keeps wB sB (raiseAll b s) ↔ Keeps wB sB s := by
  refine Keeps.peel (v := [.host, .out]) ?_ hw
  unfold raiseAll
  repeat' first
    | simp (disch := first | decide | exact Or.inl (by decide) | exact Or.inr rfl) only [keeps_self, keeps_ite,
          keeps_mk, ite_self, raiseOn_keeps]
    | with_reducible refine keeps_each (fun _ _ => ?_) ?_
    | split

theorem followAlert_keeps {s : State} {wB : List Area} {sB : State} (hw : subB [.host, .out] wB = true) :
    Keeps wB sB (followAlert s) ↔ Keeps wB sB s := by
  refine Keeps.peel (v := [.host, .out]) ?_ hw
  unfold followAlert
  repeat' first
    | simp (disch := first | decide | exact Or.inl (by decide) | exact Or.inr rfl) only [keeps_self, keeps_ite,
          keeps_mk, ite_self, emit_keeps]
    | split

theorem warn_keeps {s : State} {wB : List Area} {sB : State} (hw : subB [.host, .out] wB = true) :
    Keeps wB sB (warn s) ↔ Keeps wB sB s := by
  refine Keeps.peel (v := [.host, .out]) ?_ hw
  unfold warn
  repeat' first
    | simp (disch := first | decide | exact Or.inl (by decide) | exact Or.inr rfl) only [keeps_self, keeps_ite,
          keeps_mk, ite_self, raiseAll_keeps, followAlert_keeps]
    | split

theorem raiseLedger_keeps {s : State} {wB : List Area} {sB : State} (hw : subB [.host, .out] wB = true) :
    Keeps wB sB (raiseLedger s) ↔ Keeps wB sB s := by
  refine Keeps.peel (v := [.host, .out]) ?_ hw
  unfold raiseLedger
  repeat' first
    | simp (disch := first | decide | exact Or.inl (by decide) | exact Or.inr rfl) only [keeps_self, keeps_ite,
          keeps_mk, ite_self, modPort_keeps, msix_keeps]
    | with_reducible refine keeps_each (fun _ _ => ?_) ?_
    | split

theorem startWrite_keeps {s : State} {wB : List Area} {sB : State} (hw : subB [.host, .evr, .out] wB = true) :
    Keeps wB sB (startWrite s) ↔ Keeps wB sB s := by
  refine Keeps.peel (v := [.host, .evr, .out]) ?_ hw
  unfold startWrite
  repeat' first
    | simp (disch := first | decide | exact Or.inl (by decide) | exact Or.inr rfl) only [keeps_self, keeps_ite,
          keeps_mk, ite_self, warn_keeps]
    | with_reducible refine keeps_foldl (fun _ _ => ?_) ?_
    | split

theorem enqueue_keeps {r : EvRec} {s : State} {wB : List Area} {sB : State} (hw : subB [.host, .evr, .out] wB = true)
    :
    Keeps wB sB (enqueue r s) ↔ Keeps wB sB s := by
  refine Keeps.peel (v := [.host, .evr, .out]) ?_ hw
  unfold enqueue
  repeat' first
    | simp (disch := first | decide | exact Or.inl (by decide) | exact Or.inr rfl) only [keeps_self, keeps_ite,
          keeps_mk, ite_self, startWrite_keeps, warn_keeps]
    | split

theorem reportDrops_keeps {s : State} {wB : List Area} {sB : State} (hw : subB [.host, .evr, .out] wB = true) :
    Keeps wB sB (reportDrops s) ↔ Keeps wB sB s := by
  refine Keeps.peel (v := [.host, .evr, .out]) ?_ hw
  unfold reportDrops
  repeat' first
    | simp (disch := first | decide | exact Or.inl (by decide) | exact Or.inr rfl) only [keeps_self, keeps_ite,
          keeps_mk, ite_self, enqueue_keeps]
    | split

theorem event_keeps {code : Nat} {payload : List Nat} {s : State} {wB : List Area} {sB : State} (hw : subB [.host,
    .evr, .out] wB = true) :
    Keeps wB sB (event code payload s) ↔ Keeps wB sB s := by
  refine Keeps.peel (v := [.host, .evr, .out]) ?_ hw
  unfold event
  repeat' first
    | simp (disch := first | decide | exact Or.inl (by decide) | exact Or.inr rfl) only [keeps_self, keeps_ite,
          keeps_mk, ite_self, warn_keeps, enqueue_keeps]
    | split

theorem enterReadOnly_keeps {cause : Nat} {payload : List Nat} {s : State} {wB : List Area} {sB : State} (hw : subB
    [.boot, .host, .evr, .out] wB = true) :
    Keeps wB sB (enterReadOnly cause payload s) ↔ Keeps wB sB s := by
  refine Keeps.peel (v := [.boot, .host, .evr, .out]) ?_ hw
  unfold enterReadOnly
  repeat' first
    | simp (disch := first | decide | exact Or.inl (by decide) | exact Or.inr rfl) only [keeps_self, keeps_ite,
          keeps_mk, ite_self, raiseAll_keeps, event_keeps]
    | split

end Sys2Proof.Machine
end

