-- ==== Sys2Proof/Laws/FrameHoldUp.lean ====
section
/-! SUPPORT. What each operation of Machine/HoldUp.lean may change: `f_keeps` takes `f` off the end of a chain of operations
whenever the areas it may change are among those allowed. -/

set_option linter.all false

namespace Sys2Proof.Machine

open Sys2Proof

theorem retarget_keeps {s : State} {wB : List Area} {sB : State} (hw : subB [.host, .pwr, .evr, .out] wB = true) :
    Keeps wB sB (retarget s) ↔ Keeps wB sB s := by
  refine Keeps.peel (v := [.host, .pwr, .evr, .out]) ?_ hw
  unfold retarget
  repeat' first
    | simp (disch := first | decide | exact Or.inl (by decide) | exact Or.inr rfl) only [keeps_self, keeps_ite,
          keeps_mk, ite_self, raiseAll_keeps, event_keeps]
    | split

theorem kittyReserve_keeps {n : Nat} {s : State} {wB : List Area} {sB : State} (hw : subB [.pwr] wB = true) :
    Keeps wB sB (kittyReserve n s) ↔ Keeps wB sB s := by
  refine Keeps.peel (v := [.pwr]) ?_ hw
  unfold kittyReserve
  repeat' first
    | simp (disch := first | decide | exact Or.inl (by decide) | exact Or.inr rfl) only [keeps_self, keeps_ite,
          keeps_mk, ite_self]
    | split

theorem kittyExpose_keeps {n : Nat} {s : State} {wB : List Area} {sB : State} (hw : subB [.pwr] wB = true) :
    Keeps wB sB (kittyExpose n s) ↔ Keeps wB sB s := by
  refine Keeps.peel (v := [.pwr]) ?_ hw
  unfold kittyExpose
  repeat' first
    | simp (disch := first | decide | exact Or.inl (by decide) | exact Or.inr rfl) only [keeps_self, keeps_ite,
          keeps_mk, ite_self]
    | split

theorem kittyCancel_keeps {n : Nat} {s : State} {wB : List Area} {sB : State} (hw : subB [.pwr] wB = true) :
    Keeps wB sB (kittyCancel n s) ↔ Keeps wB sB s := by
  refine Keeps.peel (v := [.pwr]) ?_ hw
  unfold kittyCancel
  repeat' first
    | simp (disch := first | decide | exact Or.inl (by decide) | exact Or.inr rfl) only [keeps_self, keeps_ite,
          keeps_mk, ite_self]
    | split

theorem kittyFree_keeps {n : Nat} {s : State} {wB : List Area} {sB : State} (hw : subB [.pwr] wB = true) :
    Keeps wB sB (kittyFree n s) ↔ Keeps wB sB s := by
  refine Keeps.peel (v := [.pwr]) ?_ hw
  unfold kittyFree
  repeat' first
    | simp (disch := first | decide | exact Or.inl (by decide) | exact Or.inr rfl) only [keeps_self, keeps_ite,
          keeps_mk, ite_self]
    | split

theorem railsUp_keeps {s : State} {wB : List Area} {sB : State} (hw : subB [.clk, .pwr] wB = true) :
    Keeps wB sB (railsUp s) ↔ Keeps wB sB s := by
  refine Keeps.peel (v := [.clk, .pwr]) ?_ hw
  unfold railsUp
  repeat' first
    | simp (disch := first | decide | exact Or.inl (by decide) | exact Or.inr rfl) only [keeps_self, keeps_ite,
          keeps_mk, ite_self]
    | split

theorem beginMeasure_keeps {s : State} {wB : List Area} {sB : State} (hw : subB [.pwr] wB = true) :
    Keeps wB sB (beginMeasure s) ↔ Keeps wB sB s := by
  refine Keeps.peel (v := [.pwr]) ?_ hw
  unfold beginMeasure
  repeat' first
    | simp (disch := first | decide | exact Or.inl (by decide) | exact Or.inr rfl) only [keeps_self, keeps_ite,
          keeps_mk, ite_self]
    | split

theorem bankFaulted_keeps {code : Nat} {s : State} {wB : List Area} {sB : State} (hw : subB [.host, .pwr, .evr, .out]
    wB = true) :
    Keeps wB sB (bankFaulted code s) ↔ Keeps wB sB s := by
  refine Keeps.peel (v := [.host, .pwr, .evr, .out]) ?_ hw
  unfold bankFaulted
  repeat' first
    | simp (disch := first | decide | exact Or.inl (by decide) | exact Or.inr rfl) only [keeps_self, keeps_ite,
          keeps_mk, ite_self, retarget_keeps, event_keeps]
    | split

theorem measured_keeps {m : BankMeasure} {s : State} {wB : List Area} {sB : State} (hw : subB [.host, .pwr, .evr,
    .out] wB = true) :
    Keeps wB sB (measured m s) ↔ Keeps wB sB s := by
  refine Keeps.peel (v := [.host, .pwr, .evr, .out]) ?_ hw
  unfold measured
  repeat' first
    | simp (disch := first | decide | exact Or.inl (by decide) | exact Or.inr rfl) only [keeps_self, keeps_ite,
          keeps_mk, ite_self, retarget_keeps, event_keeps]
    | split

theorem endMeasure_keeps {res : Option BankMeasure} {s : State} {wB : List Area} {sB : State} (hw : subB [.host,
    .pwr, .evr, .out] wB = true) :
    Keeps wB sB (endMeasure res s) ↔ Keeps wB sB s := by
  refine Keeps.peel (v := [.host, .pwr, .evr, .out]) ?_ hw
  unfold endMeasure
  repeat' first
    | simp (disch := first | decide | exact Or.inl (by decide) | exact Or.inr rfl) only [keeps_self, keeps_ite,
          keeps_mk, ite_self, bankFaulted_keeps, measured_keeps]
    | split

theorem execBankMeasurement_keeps (res : Option BankMeasure) (s : State) : KeepsR [.host, .pwr, .evr, .out] s
    (execBankMeasurement res s) := by
  unfold execBankMeasurement
  repeat' first
    | simp (disch := first | decide | exact Or.inl (by decide) | exact Or.inr rfl) only [keeps_self, keeps_ite,
          keeps_mk, ite_self, keepsR_next, keepsR_fault, keepsR_refused, keepsR_ite, guard, endMeasure_keeps]
    | split

theorem execBankFault_keeps (kind : BankFaultKind) (mv : Nat) (s : State) : KeepsR [.host, .pwr, .evr, .out] s
    (execBankFault kind mv s) := by
  unfold execBankFault
  repeat' first
    | simp (disch := first | decide | exact Or.inl (by decide) | exact Or.inr rfl) only [keeps_self, keeps_ite,
          keeps_mk, ite_self, keepsR_next, keepsR_fault, keepsR_refused, keepsR_ite, guard, bankFaulted_keeps]
    | split

theorem execBankFaultRetry_keeps (res : Option BankMeasure) (s : State) : KeepsR [.host, .pwr, .evr, .out] s
    (execBankFaultRetry res s) := by
  unfold execBankFaultRetry
  repeat' first
    | simp (disch := first | decide | exact Or.inl (by decide) | exact Or.inr rfl) only [keeps_self, keeps_ite,
          keeps_mk, ite_self, keepsR_next, keepsR_fault, keepsR_refused, keepsR_ite, guard, measured_keeps]
    | split

theorem execBankBelow35v_keeps (mv : Nat) (s : State) : KeepsR [.host, .pwr, .evr, .out] s (execBankBelow35v mv s) :=
    by
  unfold execBankBelow35v
  repeat' first
    | simp (disch := first | decide | exact Or.inl (by decide) | exact Or.inr rfl) only [keeps_self, keeps_ite,
          keeps_mk, ite_self, keepsR_next, keepsR_fault, keepsR_refused, keepsR_ite, guard, retarget_keeps]
    | split

theorem execBankBelow2v_keeps (mv : Nat) (s : State) : KeepsR [.host, .pwr, .evr, .out] s (execBankBelow2v mv s) := by
  unfold execBankBelow2v
  repeat' first
    | simp (disch := first | decide | exact Or.inl (by decide) | exact Or.inr rfl) only [keeps_self, keeps_ite,
          keeps_mk, ite_self, keepsR_next, keepsR_fault, keepsR_refused, keepsR_ite, guard, retarget_keeps]
    | split

theorem execBankCharged_keeps (mv : Nat) (s : State) : KeepsR [.host, .pwr, .evr, .out] s (execBankCharged mv s) := by
  unfold execBankCharged
  repeat' first
    | simp (disch := first | decide | exact Or.inl (by decide) | exact Or.inr rfl) only [keeps_self, keeps_ite,
          keeps_mk, ite_self, keepsR_next, keepsR_fault, keepsR_refused, keepsR_ite, beginMeasure_keeps, guard,
          retarget_keeps]
    | split

theorem execHealthStale_keeps (s : State) : KeepsR [.host, .pwr, .evr, .out] s (execHealthStale s) := by
  unfold execHealthStale
  repeat' first
    | simp (disch := first | decide | exact Or.inl (by decide) | exact Or.inr rfl) only [keeps_self, keeps_ite,
          keeps_mk, ite_self, keepsR_next, keepsR_fault, keepsR_refused, keepsR_ite, guard, retarget_keeps]
    | split

theorem execFlushSetErase_keeps (setB : Bool) (s : State) : KeepsR [.host, .pwr, .evr, .out] s (execFlushSetErase
    setB s) := by
  unfold execFlushSetErase
  repeat' first
    | simp (disch := first | decide | exact Or.inl (by decide) | exact Or.inr rfl) only [keeps_self, keeps_ite,
          keeps_mk, ite_self, keepsR_next, keepsR_fault, keepsR_refused, keepsR_ite, guard, retarget_keeps,
          whenRunning]
    | split

end Sys2Proof.Machine
end

