-- ==== Sys2Proof/Laws/FrameCipher.lean ====
section
/-! SUPPORT. What each operation of Machine/Cipher.lean may change: `f_keeps` takes `f` off the end of a chain of operations
whenever the areas it may change are among those allowed. -/

set_option linter.all false

namespace Sys2Proof.Machine

open Sys2Proof

theorem setEngine_keeps {n : Nat} {e : Engine} {s : State} {wB : List Area} {sB : State} (hw : subB [.xts] wB = true)
    :
    Keeps wB sB (setEngine n e s) ↔ Keeps wB sB s := by
  refine Keeps.peel (v := [.xts]) ?_ hw
  unfold setEngine
  repeat' first
    | simp (disch := first | decide | exact Or.inl (by decide) | exact Or.inr rfl) only [keeps_self, keeps_ite,
          keeps_mk, ite_self]
    | split

theorem grantEngine_keeps {n : Nat} {m : Msg} {s : State} {wB : List Area} {sB : State} (hw : subB [.xts] wB = true) :
    Keeps wB sB (grantEngine n m s) ↔ Keeps wB sB s := by
  refine Keeps.peel (v := [.xts]) ?_ hw
  unfold grantEngine
  repeat' first
    | simp (disch := first | decide | exact Or.inl (by decide) | exact Or.inr rfl) only [keeps_self, keeps_ite,
          keeps_mk, ite_self, setEngine_keeps]
    | split

theorem grantWaiting_keeps {k : Nat} {s : State} {wB : List Area} {sB : State} (hw : subB [.xts] wB = true) :
    Keeps wB sB (grantWaiting k s) ↔ Keeps wB sB s := by
  refine Keeps.peel (v := [.xts]) ?_ hw
  induction k generalizing s with
  | zero => exact Keeps.refl _ _
  | succ k ih =>
    unfold grantWaiting
    split
    · refine Keeps.trans ?_ ih
      simp (disch := first | decide | exact Or.inl (by decide) | exact Or.inr rfl) only [keeps_self, keeps_mk,
          grantEngine_keeps]
    · exact Keeps.refl _ _

theorem waitClaim_keeps {m : Msg} {s : State} {wB : List Area} {sB : State} (hw : subB [.xts] wB = true) :
    Keeps wB sB (waitClaim m s) ↔ Keeps wB sB s := by
  refine Keeps.peel (v := [.xts]) ?_ hw
  unfold waitClaim
  repeat' first
    | simp (disch := first | decide | exact Or.inl (by decide) | exact Or.inr rfl) only [keeps_self, keeps_ite,
          keeps_mk, ite_self]
    | split

theorem blocksReleased_keeps {n k : Nat} {s : State} {wB : List Area} {sB : State} (hw : subB [.xts] wB = true) :
    Keeps wB sB (blocksReleased n k s) ↔ Keeps wB sB s := by
  refine Keeps.peel (v := [.xts]) ?_ hw
  unfold blocksReleased
  repeat' first
    | simp (disch := first | decide | exact Or.inl (by decide) | exact Or.inr rfl) only [keeps_self, keeps_ite,
          keeps_mk, ite_self, setEngine_keeps]
    | split

theorem suspendEngine_keeps {n : Nat} {m : Msg} {s : State} {wB : List Area} {sB : State} (hw : subB [.xts, .out] wB
    = true) :
    Keeps wB sB (suspendEngine n m s) ↔ Keeps wB sB s := by
  refine Keeps.peel (v := [.xts, .out]) ?_ hw
  unfold suspendEngine
  repeat' first
    | simp (disch := first | decide | exact Or.inl (by decide) | exact Or.inr rfl) only [keeps_self, keeps_ite,
          keeps_mk, ite_self, waitClaim_keeps, setEngine_keeps, emit_keeps, blocksReleased_keeps]
    | split

theorem takeOver_keeps {n : Nat} {v m : Msg} {s : State} {wB : List Area} {sB : State} (hw : subB [.xts, .out] wB =
    true) :
    Keeps wB sB (takeOver n v m s) ↔ Keeps wB sB s := by
  refine Keeps.peel (v := [.xts, .out]) ?_ hw
  unfold takeOver
  repeat' first
    | simp (disch := first | decide | exact Or.inl (by decide) | exact Or.inr rfl) only [keeps_self, keeps_ite,
          keeps_mk, ite_self, grantEngine_keeps, setEngine_keeps, blocksReleased_keeps, suspendEngine_keeps]
    | split

theorem claim_keeps {m : Msg} {s : State} {wB : List Area} {sB : State} (hw : subB [.xts, .out] wB = true) :
    Keeps wB sB (claim m s) ↔ Keeps wB sB s := by
  refine Keeps.peel (v := [.xts, .out]) ?_ hw
  unfold claim
  repeat' first
    | simp (disch := first | decide | exact Or.inl (by decide) | exact Or.inr rfl) only [keeps_self, keeps_ite,
          keeps_mk, ite_self, takeOver_keeps, grantEngine_keeps, waitClaim_keeps]
    | split

theorem retireEngine_keeps {n : Nat} {c : EngineCause} {s : State} {wB : List Area} {sB : State} (hw : subB [.host,
    .xts, .evr, .out] wB = true) :
    Keeps wB sB (retireEngine n c s) ↔ Keeps wB sB s := by
  refine Keeps.peel (v := [.host, .xts, .evr, .out]) ?_ hw
  unfold retireEngine
  repeat' first
    | simp (disch := first | decide | exact Or.inl (by decide) | exact Or.inr rfl) only [keeps_self, keeps_ite,
          keeps_mk, ite_self, grantWaiting_keeps, setEngine_keeps, event_keeps, blocksReleased_keeps]
    | split

theorem reseed_keeps {g : Nat} {s : State} {wB : List Area} {sB : State} (hw : subB [.xts] wB = true) :
    Keeps wB sB (reseed g s) ↔ Keeps wB sB s := by
  refine Keeps.peel (v := [.xts]) ?_ hw
  unfold reseed
  repeat' first
    | simp (disch := first | decide | exact Or.inl (by decide) | exact Or.inr rfl) only [keeps_self, keeps_ite,
          keeps_mk, ite_self]
    | split

theorem loadKey_keeps {n : Nat} {k : BitVec 512} {imported : Bool} {s : State} {wB : List Area} {sB : State} (hw :
    subB [.xts] wB = true) :
    Keeps wB sB (loadKey n k imported s) ↔ Keeps wB sB s := by
  refine Keeps.peel (v := [.xts]) ?_ hw
  unfold loadKey
  repeat' first
    | simp (disch := first | decide | exact Or.inl (by decide) | exact Or.inr rfl) only [keeps_self, keeps_ite,
          keeps_mk, ite_self]
    | split

theorem keyGenerate_keeps {n : Nat} {s : State} {wB : List Area} {sB : State} (hw : subB [.xts, .draws] wB = true) :
    Keeps wB sB (keyGenerate n s) ↔ Keeps wB sB s := by
  refine Keeps.peel (v := [.xts, .draws]) ?_ hw
  unfold keyGenerate
  repeat' first
    | simp (disch := first | decide | exact Or.inl (by decide) | exact Or.inr rfl) only [keeps_self, keeps_ite,
          keeps_mk, ite_self, drawn_keeps, reseed_keeps, loadKey_keeps]
    | split

theorem keyZeroize_keeps {n : Nat} {s : State} {wB : List Area} {sB : State} (hw : subB [.xts] wB = true) :
    Keeps wB sB (keyZeroize n s) ↔ Keeps wB sB s := by
  refine Keeps.peel (v := [.xts]) ?_ hw
  unfold keyZeroize
  repeat' first
    | simp (disch := first | decide | exact Or.inl (by decide) | exact Or.inr rfl) only [keeps_self, keeps_ite,
          keeps_mk, ite_self]
    | split

theorem execCipherClaim_keeps (requester keySlot : Nat) (urgent encrypt : Bool) (tweak nextBlock blocks : Nat) (s :
    State) : KeepsR [.xts, .out] s (execCipherClaim requester keySlot urgent encrypt tweak nextBlock blocks s) := by
  unfold execCipherClaim
  repeat' first
    | simp (disch := first | decide | exact Or.inl (by decide) | exact Or.inr rfl) only [keeps_self, keeps_ite,
          keeps_mk, ite_self, keepsR_next, keepsR_fault, keepsR_refused, keepsR_ite, guard, claim_keeps]
    | split

theorem execCipherRelease_keeps (engine : Nat) (s : State) : KeepsR [.xts] s (execCipherRelease engine s) := by
  unfold execCipherRelease
  repeat' first
    | simp (disch := first | decide | exact Or.inl (by decide) | exact Or.inr rfl) only [keeps_self, keeps_ite,
          keeps_mk, ite_self, keepsR_next, keepsR_fault, keepsR_refused, keepsR_ite, guard, grantWaiting_keeps,
          setEngine_keeps, blocksReleased_keeps]
    | split

theorem execCipherEngineRetire_keeps (engine : Nat) (cause : EngineCause) (s : State) : KeepsR [.host, .xts, .evr,
    .out] s (execCipherEngineRetire engine cause s) := by
  unfold execCipherEngineRetire
  repeat' first
    | simp (disch := first | decide | exact Or.inl (by decide) | exact Or.inr rfl) only [keeps_self, keeps_ite,
          keeps_mk, ite_self, keepsR_next, keepsR_fault, keepsR_refused, keepsR_ite, retireEngine_keeps, guard,
          whenRunning]
    | split

theorem execGeneratorReseed_keeps (gen : Nat) (s : State) : KeepsR [.xts] s (execGeneratorReseed gen s) := by
  unfold execGeneratorReseed
  repeat' first
    | simp (disch := first | decide | exact Or.inl (by decide) | exact Or.inr rfl) only [keeps_self, keeps_ite,
          keeps_mk, ite_self, keepsR_next, keepsR_fault, keepsR_refused, keepsR_ite, reseed_keeps, guard, whenRunning]
    | split

theorem execNoiseSourceFail_keeps (sourceB repetition : Bool) (s : State) : KeepsR [.host, .xts, .evr, .out] s
    (execNoiseSourceFail sourceB repetition s) := by
  unfold execNoiseSourceFail
  repeat' first
    | simp (disch := first | decide | exact Or.inl (by decide) | exact Or.inr rfl) only [keeps_self, keeps_ite,
          keeps_mk, ite_self, keepsR_next, keepsR_fault, keepsR_refused, keepsR_ite, event_keeps, whenRunning]
    | split

theorem execNoiseSourceRejoin_keeps (sourceB : Bool) (s : State) : KeepsR [.xts] s (execNoiseSourceRejoin sourceB s)
    := by
  unfold execNoiseSourceRejoin
  repeat' first
    | simp (disch := first | decide | exact Or.inl (by decide) | exact Or.inr rfl) only [keeps_self, keeps_ite,
          keeps_mk, ite_self, keepsR_next, keepsR_fault, keepsR_refused, keepsR_ite, whenRunning]
    | split

theorem execMaskGeneratorStop_keeps (gen : Nat) (s : State) : KeepsR [.host, .xts, .evr, .out] s
    (execMaskGeneratorStop gen s) := by
  unfold execMaskGeneratorStop
  repeat' first
    | simp (disch := first | decide | exact Or.inl (by decide) | exact Or.inr rfl) only [keeps_self, keeps_ite,
          keeps_mk, ite_self, keepsR_next, keepsR_fault, keepsR_refused, keepsR_ite, guard, event_keeps, whenRunning]
    | split

end Sys2Proof.Machine
end

