-- ==== Sys2Proof/Laws/FrameAnte.lean ====
section
/-! SUPPORT. What each operation of Machine/Ante.lean may change: `f_keeps` takes `f` off the end of a chain of operations
whenever the areas it may change are among those allowed. -/

set_option linter.all false

namespace Sys2Proof.Machine

open Sys2Proof

theorem cancelMaint_keeps {m : MaintResv} {s : State} {wB : List Area} {sB : State} (hw : subB [.ante] wB = true) :
    Keeps wB sB (cancelMaint m s) ↔ Keeps wB sB s := by
  refine Keeps.peel (v := [.ante]) ?_ hw
  unfold cancelMaint
  repeat' first
    | simp (disch := first | decide | exact Or.inl (by decide) | exact Or.inr rfl) only [keeps_self, keeps_ite,
          keeps_mk, ite_self]
    | split

theorem drawReserve_keeps {p : Plot} {shape : List Cost} {slot : Nat} {s uB : State} {wB : List Area} {sB : State}
    (h : drawReserve p shape slot s = some uB) (hw : subB [.ante] wB = true) : Keeps wB sB uB ↔ Keeps wB sB s := by
  refine Keeps.peel (v := [.ante]) ?_ hw
  obtain ⟨l, -, rfl⟩ := Option.map_eq_some_iff.mp h
  simp (disch := first | decide | exact Or.inl (by decide) | exact Or.inr rfl) only [keeps_self, keeps_mk]

theorem displaceD7_keeps {p : Plot} {shape : List Cost} {slot : Nat} {s uB : State} {wB : List Area} {sB : State}
    (h : displaceD7 p shape slot s = some uB) (hw : subB [.ante] wB = true) : Keeps wB sB uB ↔ Keeps wB sB s := by
  refine Keeps.peel (v := [.ante]) ?_ hw
  obtain ⟨l, -, rfl⟩ := Option.map_eq_some_iff.mp h
  simp (disch := first | decide | exact Or.inl (by decide) | exact Or.inr rfl) only [keeps_self, keeps_mk]

theorem placeRecovery_keeps {p : Plot} {shape : List Cost} {slot n : Nat} {s uB : State} {wB : List Area} {sB : State}
    (h : placeRecovery p shape slot n s = some uB) (hw : subB [.ante] wB = true) : Keeps wB sB uB ↔ Keeps wB sB s :=
        by
  refine Keeps.peel (v := [.ante]) ?_ hw
  induction n generalizing s with
  | zero =>
    rcases Option.or_eq_some_iff.mp h with e | e
    · exact (drawReserve_keeps e (by decide)).mpr (Keeps.refl _ _)
    · exact (displaceD7_keeps e.2 (by decide)).mpr (Keeps.refl _ _)
  | succ k ih =>
    unfold placeRecovery at h
    generalize e : drawReserve _ _ _ _ = x at h
    cases x with
    | some l =>
      cases h
      exact (drawReserve_keeps e (by decide)).mpr (Keeps.refl _ _)
    | none =>
      dsimp only at h
      generalize yielding _ _ _ _ = y at h
      cases y with
      | some m =>
        refine Keeps.trans ?_ (ih h)
        simp (disch := first | decide | exact Or.inl (by decide) | exact Or.inr rfl) only [keeps_self,
            cancelMaint_keeps]
      | none => exact (displaceD7_keeps h (by decide)).mpr (Keeps.refl _ _)

theorem takeAntes_keeps {kind : Maint} {firm recovery : Bool} {target : Nat} {shape : List Cost} {s uB : State} {wB :
    List Area} {sB : State}
    (h : takeAntes kind firm recovery target shape s = some uB) (hw : subB [.ante] wB = true) : Keeps wB sB uB ↔
        Keeps wB sB s := by
  refine Keeps.peel (v := [.ante]) ?_ hw
  obtain ⟨s1, placed, rfl⟩ := Option.map_eq_some_iff.mp h
  simp (disch := first | decide | exact Or.inl (by decide) | exact Or.inr rfl) only [keeps_self, keeps_mk]
  cases recovery
  · obtain ⟨l, -, rfl⟩ := Option.map_eq_some_iff.mp placed
    simp (disch := first | decide | exact Or.inl (by decide) | exact Or.inr rfl) only [keeps_self, keeps_mk]
  · exact (placeRecovery_keeps placed (by decide)).mpr (Keeps.refl _ _)

theorem debit_keeps {k cost bytes : Nat} {who : Owner} {s : State} {wB : List Area} {sB : State} (hw : subB [.ante]
    wB = true) :
    Keeps wB sB (debit k cost bytes who s) ↔ Keeps wB sB s := by
  refine Keeps.peel (v := [.ante]) ?_ hw
  unfold debit
  repeat' first
    | simp (disch := first | decide | exact Or.inl (by decide) | exact Or.inr rfl) only [keeps_self, keeps_ite,
          keeps_mk, ite_self]
    | split

theorem undebit_keeps {who : Owner} {s : State} {wB : List Area} {sB : State} (hw : subB [.ante] wB = true) :
    Keeps wB sB (undebit who s) ↔ Keeps wB sB s := by
  refine Keeps.peel (v := [.ante]) ?_ hw
  unfold undebit
  repeat' first
    | simp (disch := first | decide | exact Or.inl (by decide) | exact Or.inr rfl) only [keeps_self, keeps_ite,
          keeps_mk, ite_self]
    | split

theorem countRequest_keeps {s : State} {wB : List Area} {sB : State} (hw : subB [.ante, .draws] wB = true) :
    Keeps wB sB (countRequest s) ↔ Keeps wB sB s := by
  refine Keeps.peel (v := [.ante, .draws]) ?_ hw
  unfold countRequest
  repeat' first
    | simp (disch := first | decide | exact Or.inl (by decide) | exact Or.inr rfl) only [keeps_self, keeps_ite,
          keeps_mk, ite_self, drawn_keeps]
    | split

theorem refuseRetry_keeps {s : State} {wB : List Area} {sB : State} (hw : subB [.ante] wB = true) :
    Keeps wB sB (refuseRetry s) ↔ Keeps wB sB s := by
  refine Keeps.peel (v := [.ante]) ?_ hw
  unfold refuseRetry
  repeat' first
    | simp (disch := first | decide | exact Or.inl (by decide) | exact Or.inr rfl) only [keeps_self, keeps_ite,
          keeps_mk, ite_self]
    | split

theorem refuseNever_keeps {s : State} {wB : List Area} {sB : State} (hw : subB [.ante] wB = true) :
    Keeps wB sB (refuseNever s) ↔ Keeps wB sB s := by
  refine Keeps.peel (v := [.ante]) ?_ hw
  unfold refuseNever
  repeat' first
    | simp (disch := first | decide | exact Or.inl (by decide) | exact Or.inr rfl) only [keeps_self, keeps_ite,
          keeps_mk, ite_self]
    | split

theorem startExit_keeps {s : State} {wB : List Area} {sB : State} (hw : subB [.host, .pwr, .out] wB = true) :
    Keeps wB sB (startExit s) ↔ Keeps wB sB s := by
  refine Keeps.peel (v := [.host, .pwr, .out]) ?_ hw
  unfold startExit
  repeat' first
    | simp (disch := first | decide | exact Or.inl (by decide) | exact Or.inr rfl) only [keeps_self, keeps_ite,
          keeps_mk, ite_self, emit_keeps]
    | split

theorem decideShape_keeps {cls bound qos : Nat} {who : Owner} {shape : List Cost} {from_ : Nat} {s0 : State} {aB :
    Answer} {uB : State} {wB : List Area} {sB : State} (h : decideShape cls bound qos who shape from_ s0 = (uB, aB))
    (hw : subB [.ante, .host, .pwr, .out, .draws] wB = true) :
    Keeps wB sB uB ↔ Keeps wB sB s0 := by
  refine Keeps.peel (v := [.ante, .host, .pwr, .out, .draws]) ?_ hw
  unfold decideShape at h
  repeat' first
    | cases h
    | split at h
    | dsimp only at h
  all_goals repeat' first
    | simp (disch := first | decide | exact Or.inl (by decide) | exact Or.inr rfl) only [keeps_self, keeps_ite,
          keeps_mk, ite_self, refuseNever_keeps, startExit_keeps, countRequest_keeps, refuseRetry_keeps]
    | split

theorem decideShape_keeps1 {cls bound qos : Nat} {who : Owner} {shape : List Cost} {from_ : Nat} {s0 : State} {wB :
    List Area} {sB : State} (hw : subB [.ante, .host, .pwr, .out, .draws] wB = true) :
    Keeps wB sB (decideShape cls bound qos who shape from_ s0).1 ↔ Keeps wB sB s0 := decideShape_keeps rfl hw

theorem releaseResv_keeps {who : Owner} {s : State} {wB : List Area} {sB : State} (hw : subB [.ante] wB = true) :
    Keeps wB sB (releaseResv who s) ↔ Keeps wB sB s := by
  refine Keeps.peel (v := [.ante]) ?_ hw
  unfold releaseResv
  repeat' first
    | simp (disch := first | decide | exact Or.inl (by decide) | exact Or.inr rfl) only [keeps_self, keeps_ite,
          keeps_mk, ite_self]
    | split

theorem withoutGrant_keeps {before s : State} {wB : List Area} {sB : State} (hw : subB [.ante] wB = true) :
    Keeps wB sB (withoutGrant before s) ↔ Keeps wB sB s := by
  refine Keeps.peel (v := [.ante]) ?_ hw
  unfold withoutGrant
  repeat' first
    | simp (disch := first | decide | exact Or.inl (by decide) | exact Or.inr rfl) only [keeps_self, keeps_ite,
          keeps_mk, ite_self]
    | split

theorem reserveMaint_keeps {kind : Maint} {target slots : Nat} {s : State} {wB : List Area} {sB : State} (hw : subB
    [.ante] wB = true) :
    Keeps wB sB (reserveMaint kind target slots s) ↔ Keeps wB sB s := by
  refine Keeps.peel (v := [.ante]) ?_ hw
  unfold reserveMaint
  repeat' first
    | simp (disch := first | decide | exact Or.inl (by decide) | exact Or.inr rfl) only [keeps_self, keeps_ite,
          keeps_mk, ite_self]
    | split

theorem dropMaint_keeps {id : Nat} {s : State} {wB : List Area} {sB : State} (hw : subB [.ante] wB = true) :
    Keeps wB sB (dropMaint id s) ↔ Keeps wB sB s := by
  refine Keeps.peel (v := [.ante]) ?_ hw
  unfold dropMaint
  repeat' first
    | simp (disch := first | decide | exact Or.inl (by decide) | exact Or.inr rfl) only [keeps_self, keeps_ite,
          keeps_mk, ite_self]
    | split

theorem reserveErase_keeps {kind : Maint} {target : Nat} {groups : List (List Nat)} {n : Nat} {s : State} {aB : Nat}
    {uB : State} {wB : List Area} {sB : State} (h : reserveErase kind target groups n s = (uB, aB)) (hw : subB
    [.ante, .pwr] wB = true) :
    Keeps wB sB uB ↔ Keeps wB sB s := by
  refine Keeps.peel (v := [.ante, .pwr]) ?_ hw
  unfold reserveErase at h
  repeat' first
    | cases h
    | split at h
    | dsimp only at h
  all_goals repeat' first
    | simp (disch := first | decide | exact Or.inl (by decide) | exact Or.inr rfl) only [keeps_self, keeps_ite,
          keeps_mk, ite_self]
    | with_reducible refine keeps_foldl (fun _ _ => ?_) ?_
    | split

theorem reserveErase_keeps1 {kind : Maint} {target : Nat} {groups : List (List Nat)} {n : Nat} {s : State} {wB : List
    Area} {sB : State} (hw : subB [.ante, .pwr] wB = true) :
    Keeps wB sB (reserveErase kind target groups n s).1 ↔ Keeps wB sB s := reserveErase_keeps rfl hw

end Sys2Proof.Machine
end

