-- ==== Sys2Proof/Laws/FrameMemory.lean ====
section
/-! SUPPORT. What each operation of Machine/Memory.lean may change: `f_keeps` takes `f` off the end of a chain of operations
whenever the areas it may change are among those allowed. -/

set_option linter.all false

namespace Sys2Proof.Machine

open Sys2Proof

theorem setChan_keeps {c : Nat} {x : Channel} {s : State} {wB : List Area} {sB : State} (hw : subB [.mem] wB = true) :
    Keeps wB sB (setChan c x s) ↔ Keeps wB sB s := by
  refine Keeps.peel (v := [.mem]) ?_ hw
  unfold setChan
  repeat' first
    | simp (disch := first | decide | exact Or.inl (by decide) | exact Or.inr rfl) only [keeps_self, keeps_ite,
          keeps_mk, ite_self]
    | split

theorem setSub_keeps {c u : Nat} {q : SubChan} {s : State} {wB : List Area} {sB : State} (hw : subB [.mem] wB = true)
    :
    Keeps wB sB (setSub c u q s) ↔ Keeps wB sB s := by
  refine Keeps.peel (v := [.mem]) ?_ hw
  unfold setSub
  repeat' first
    | simp (disch := first | decide | exact Or.inl (by decide) | exact Or.inr rfl) only [keeps_self, keeps_ite,
          keeps_mk, ite_self, setChan_keeps]
    | split

theorem trumpUpdate_keeps {s : State} {wB : List Area} {sB : State} (hw : subB [.mem] wB = true) :
    Keeps wB sB (trumpUpdate s) ↔ Keeps wB sB s := by
  refine Keeps.peel (v := [.mem]) ?_ hw
  unfold trumpUpdate
  repeat' first
    | simp (disch := first | decide | exact Or.inl (by decide) | exact Or.inr rfl) only [keeps_self, keeps_ite,
          keeps_mk, ite_self]
    | split

theorem prefetched_keeps {n : Nat} {s : State} {wB : List Area} {sB : State} (hw : subB [.mem] wB = true) :
    Keeps wB sB (prefetched n s) ↔ Keeps wB sB s := by
  refine Keeps.peel (v := [.mem]) ?_ hw
  unfold prefetched
  repeat' first
    | simp (disch := first | decide | exact Or.inl (by decide) | exact Or.inr rfl) only [keeps_self, keeps_ite,
          keeps_mk, ite_self, trumpUpdate_keeps]
    | split

theorem egressed_keeps {n : Nat} {s : State} {wB : List Area} {sB : State} (hw : subB [.mem] wB = true) :
    Keeps wB sB (egressed n s) ↔ Keeps wB sB s := by
  refine Keeps.peel (v := [.mem]) ?_ hw
  unfold egressed
  repeat' first
    | simp (disch := first | decide | exact Or.inl (by decide) | exact Or.inr rfl) only [keeps_self, keeps_ite,
          keeps_mk, ite_self, trumpUpdate_keeps]
    | split

theorem answerRead_keeps {c u : Nat} {q : DramReq} {poisoned : Bool} {s : State} {wB : List Area} {sB : State} (hw :
    subB [.mem, .out] wB = true) :
    Keeps wB sB (answerRead c u q poisoned s) ↔ Keeps wB sB s := by
  refine Keeps.peel (v := [.mem, .out]) ?_ hw
  unfold answerRead
  repeat' first
    | simp (disch := first | decide | exact Or.inl (by decide) | exact Or.inr rfl) only [keeps_self, keeps_ite,
          keeps_mk, ite_self, emit_keeps, prefetched_keeps]
    | split

theorem takeDram_keeps {c u : Nat} {q : DramReq} {s : State} {wB : List Area} {sB : State} (hw : subB [.mem, .out] wB
    = true) :
    Keeps wB sB (takeDram c u q s) ↔ Keeps wB sB s := by
  refine Keeps.peel (v := [.mem, .out]) ?_ hw
  unfold takeDram
  repeat' first
    | simp (disch := first | decide | exact Or.inl (by decide) | exact Or.inr rfl) only [keeps_self, keeps_ite,
          keeps_mk, ite_self, answerRead_keeps, setChan_keeps, setSub_keeps]
    | split

theorem enqueueDram_keeps {c u : Nat} {q : DramReq} {s : State} {wB : List Area} {sB : State} (hw : subB [.mem, .out]
    wB = true) :
    Keeps wB sB (enqueueDram c u q s) ↔ Keeps wB sB s := by
  refine Keeps.peel (v := [.mem, .out]) ?_ hw
  unfold enqueueDram
  repeat' first
    | simp (disch := first | decide | exact Or.inl (by decide) | exact Or.inr rfl) only [keeps_self, keeps_ite,
          keeps_mk, ite_self, takeDram_keeps]
    | split

theorem arriveDram_keeps {q : DramIn} {s : State} {wB : List Area} {sB : State} (hw : subB [.mem, .out] wB = true) :
    Keeps wB sB (arriveDram q s) ↔ Keeps wB sB s := by
  refine Keeps.peel (v := [.mem, .out]) ?_ hw
  unfold arriveDram
  repeat' first
    | simp (disch := first | decide | exact Or.inl (by decide) | exact Or.inr rfl) only [keeps_self, keeps_ite,
          keeps_mk, ite_self, enqueueDram_keeps]
    | with_reducible refine keeps_each (fun _ _ => ?_) ?_
    | split

theorem unstall_keeps {s : State} {wB : List Area} {sB : State} (hw : subB [.mem, .out] wB = true) :
    Keeps wB sB (unstall s) ↔ Keeps wB sB s := by
  refine Keeps.peel (v := [.mem, .out]) ?_ hw
  unfold unstall
  repeat' first
    | simp (disch := first | decide | exact Or.inl (by decide) | exact Or.inr rfl) only [keeps_self, keeps_ite,
          keeps_mk, ite_self, enqueueDram_keeps]
    | with_reducible refine keeps_each (fun _ _ => ?_) ?_
    | split

theorem throttlePort_keeps {c u p : Nat} {s : State} {wB : List Area} {sB : State} (hw : subB [.host, .mem, .evr,
    .out] wB = true) :
    Keeps wB sB (throttlePort c u p s) ↔ Keeps wB sB s := by
  refine Keeps.peel (v := [.host, .mem, .evr, .out]) ?_ hw
  unfold throttlePort
  repeat' first
    | simp (disch := first | decide | exact Or.inl (by decide) | exact Or.inr rfl) only [keeps_self, keeps_ite,
          keeps_mk, ite_self, setSub_keeps, event_keeps]
    | split

theorem issueRfm_keeps {c u bank : Nat} {s : State} {wB : List Area} {sB : State} (hw : subB [.host, .mem, .evr,
    .out] wB = true) :
    Keeps wB sB (issueRfm c u bank s) ↔ Keeps wB sB s := by
  refine Keeps.peel (v := [.host, .mem, .evr, .out]) ?_ hw
  unfold issueRfm
  repeat' first
    | simp (disch := first | decide | exact Or.inl (by decide) | exact Or.inr rfl) only [keeps_self, keeps_ite,
          keeps_mk, ite_self, setChan_keeps, emit_keeps, throttlePort_keeps]
    | split

theorem issueWaitingRfm_keeps {c u : Nat} {s : State} {wB : List Area} {sB : State} (hw : subB [.host, .mem, .evr,
    .out] wB = true) :
    Keeps wB sB (issueWaitingRfm c u s) ↔ Keeps wB sB s := by
  refine Keeps.peel (v := [.host, .mem, .evr, .out]) ?_ hw
  unfold issueWaitingRfm
  repeat' first
    | simp (disch := first | decide | exact Or.inl (by decide) | exact Or.inr rfl) only [keeps_self, keeps_ite,
          keeps_mk, ite_self, issueRfm_keeps]
    | with_reducible refine keeps_each (fun _ _ => ?_) ?_
    | split

theorem activate_keeps {c u : Nat} {q : DramReq} {s : State} {wB : List Area} {sB : State} (hw : subB [.mem] wB =
    true) :
    Keeps wB sB (activate c u q s) ↔ Keeps wB sB s := by
  refine Keeps.peel (v := [.mem]) ?_ hw
  unfold activate
  repeat' first
    | simp (disch := first | decide | exact Or.inl (by decide) | exact Or.inr rfl) only [keeps_self, keeps_ite,
          keeps_mk, ite_self, setSub_keeps]
    | split

theorem deviceCorrected_keeps {c u d : Nat} {s : State} {wB : List Area} {sB : State} (hw : subB [.host, .mem, .evr,
    .out] wB = true) :
    Keeps wB sB (deviceCorrected c u d s) ↔ Keeps wB sB s := by
  refine Keeps.peel (v := [.host, .mem, .evr, .out]) ?_ hw
  unfold deviceCorrected
  repeat' first
    | simp (disch := first | decide | exact Or.inl (by decide) | exact Or.inr rfl) only [keeps_self, keeps_ite,
          keeps_mk, ite_self, setChan_keeps, event_keeps]
    | split

theorem lineCorrected_keeps {c u : Nat} {dev : Option Nat} {s : State} {wB : List Area} {sB : State} (hw : subB
    [.host, .mem, .evr, .out] wB = true) :
    Keeps wB sB (lineCorrected c u dev s) ↔ Keeps wB sB s := by
  refine Keeps.peel (v := [.host, .mem, .evr, .out]) ?_ hw
  unfold lineCorrected
  repeat' first
    | simp (disch := first | decide | exact Or.inl (by decide) | exact Or.inr rfl) only [keeps_self, keeps_ite,
          keeps_mk, ite_self, setChan_keeps, deviceCorrected_keeps]
    | split

theorem spoil_keeps {hit : InFlight → Bool} {s : State} {wB : List Area} {sB : State} (hw : subB [.dlr] wB = true) :
    Keeps wB sB (spoil hit s) ↔ Keeps wB sB s := by
  refine Keeps.peel (v := [.dlr]) ?_ hw
  unfold spoil
  repeat' first
    | simp (disch := first | decide | exact Or.inl (by decide) | exact Or.inr rfl) only [keeps_self, keeps_ite,
          keeps_mk, ite_self]
    | split

theorem poisonTaken_keeps {c u : Nat} {q : DramReq} {s : State} {wB : List Area} {sB : State} (hw : subB [.dlr,
    .ante, .idx, .mem, .out] wB = true) :
    Keeps wB sB (poisonTaken c u q s) ↔ Keeps wB sB s := by
  refine Keeps.peel (v := [.dlr, .ante, .idx, .mem, .out]) ?_ hw
  unfold poisonTaken
  repeat' first
    | simp (disch := first | decide | exact Or.inl (by decide) | exact Or.inr rfl) only [keeps_self, keeps_ite,
          keeps_mk, ite_self, reserveMaint_keeps, answerRead_keeps, spoil_keeps]
    | split

theorem linePoisoned_keeps {c u : Nat} {q : DramReq} {s : State} {wB : List Area} {sB : State} (hw : subB [.dlr,
    .ante, .idx, .mem, .out] wB = true) :
    Keeps wB sB (linePoisoned c u q s) ↔ Keeps wB sB s := by
  refine Keeps.peel (v := [.dlr, .ante, .idx, .mem, .out]) ?_ hw
  unfold linePoisoned
  repeat' first
    | simp (disch := first | decide | exact Or.inl (by decide) | exact Or.inr rfl) only [keeps_self, keeps_ite,
          keeps_mk, ite_self, enqueueDram_keeps, poisonTaken_keeps, setChan_keeps]
    | split

theorem afterMerge_keeps {c u : Nat} {q : DramReq} {s : State} {wB : List Area} {sB : State} (hw : subB [.mem, .out]
    wB = true) :
    Keeps wB sB (afterMerge c u q s) ↔ Keeps wB sB s := by
  refine Keeps.peel (v := [.mem, .out]) ?_ hw
  unfold afterMerge
  repeat' first
    | simp (disch := first | decide | exact Or.inl (by decide) | exact Or.inr rfl) only [keeps_self, keeps_ite,
          keeps_mk, ite_self, takeDram_keeps, setSub_keeps]
    | with_reducible refine keeps_each (fun _ _ => ?_) ?_
    | split

theorem lineGiven_keeps {c u : Nat} {q : DramReq} {s : State} {wB : List Area} {sB : State} (hw : subB [.mem, .out]
    wB = true) :
    Keeps wB sB (lineGiven c u q s) ↔ Keeps wB sB s := by
  refine Keeps.peel (v := [.mem, .out]) ?_ hw
  unfold lineGiven
  repeat' first
    | simp (disch := first | decide | exact Or.inl (by decide) | exact Or.inr rfl) only [keeps_self, keeps_ite,
          keeps_mk, ite_self, enqueueDram_keeps, answerRead_keeps, takeDram_keeps, afterMerge_keeps]
    | split

theorem lineRead_keeps {c u : Nat} {q : DramReq} {bad : List Nat} {s : State} {wB : List Area} {sB : State} (hw :
    subB [.dlr, .ante, .host, .idx, .mem, .evr, .out] wB = true) :
    Keeps wB sB (lineRead c u q bad s) ↔ Keeps wB sB s := by
  refine Keeps.peel (v := [.dlr, .ante, .host, .idx, .mem, .evr, .out]) ?_ hw
  unfold lineRead
  repeat' first
    | simp (disch := first | decide | exact Or.inl (by decide) | exact Or.inr rfl) only [keeps_self, keeps_ite,
          keeps_mk, ite_self, enqueueDram_keeps, lineGiven_keeps, linePoisoned_keeps, lineCorrected_keeps]
    | split

theorem issueDram_keeps {c u : Nat} {bad : List Nat} {s : State} {wB : List Area} {sB : State} (hw : subB [.dlr,
    .ante, .host, .idx, .mem, .evr, .out] wB = true) :
    Keeps wB sB (issueDram c u bad s) ↔ Keeps wB sB s := by
  refine Keeps.peel (v := [.dlr, .ante, .host, .idx, .mem, .evr, .out]) ?_ hw
  unfold issueDram
  repeat' first
    | simp (disch := first | decide | exact Or.inl (by decide) | exact Or.inr rfl) only [keeps_self, keeps_ite,
          keeps_mk, ite_self, activate_keeps, emit_keeps, lineRead_keeps, setSub_keeps]
    | split

theorem askRetrain_keeps {c : Nat} {s : State} {wB : List Area} {sB : State} (hw : subB [.ante] wB = true) :
    Keeps wB sB (askRetrain c s) ↔ Keeps wB sB s := by
  refine Keeps.peel (v := [.ante]) ?_ hw
  unfold askRetrain
  repeat' first
    | simp (disch := first | decide | exact Or.inl (by decide) | exact Or.inr rfl) only [keeps_self, keeps_ite,
          keeps_mk, ite_self, reserveMaint_keeps]
    | split

theorem execDramRequest_keeps (channel sub : Nat) (arrived : List DramIn) (bad : List Nat) (s : State) : KeepsR
    [.dlr, .ante, .host, .idx, .mem, .evr, .out] s (execDramRequest channel sub arrived bad s) := by
  unfold execDramRequest
  repeat' first
    | simp (disch := first | decide | exact Or.inl (by decide) | exact Or.inr rfl) only [keeps_self, keeps_ite,
          keeps_mk, ite_self, keepsR_next, keepsR_fault, keepsR_refused, keepsR_ite, issueWaitingRfm_keeps,
          arriveDram_keeps, guard, issueDram_keeps, unstall_keeps, whenRunning]
    | with_reducible refine keeps_each (fun _ _ => ?_) ?_
    | split

theorem execRefreshCommand_keeps (channel sub : Nat) (s : State) : KeepsR [.mem, .out] s (execRefreshCommand channel
    sub s) := by
  unfold execRefreshCommand
  repeat' first
    | simp (disch := first | decide | exact Or.inl (by decide) | exact Or.inr rfl) only [keeps_self, keeps_ite,
          keeps_mk, ite_self, keepsR_next, keepsR_fault, keepsR_refused, keepsR_ite, guard, emit_keeps, setSub_keeps,
          whenRunning]
    | split

theorem execTempModeRead_keeps (channel : Nat) (above : Bool) (s : State) : KeepsR [.mem] s (execTempModeRead channel
    above s) := by
  unfold execTempModeRead
  repeat' first
    | simp (disch := first | decide | exact Or.inl (by decide) | exact Or.inr rfl) only [keeps_self, keeps_ite,
          keeps_mk, ite_self, keepsR_next, keepsR_fault, keepsR_refused, keepsR_ite, guard, setChan_keeps,
          whenRunning]
    | split

theorem execActivateWindowReset_keeps (channel : Nat) (s : State) : KeepsR [.mem] s (execActivateWindowReset channel
    s) := by
  unfold execActivateWindowReset
  repeat' first
    | simp (disch := first | decide | exact Or.inl (by decide) | exact Or.inr rfl) only [keeps_self, keeps_ite,
          keeps_mk, ite_self, keepsR_next, keepsR_fault, keepsR_refused, keepsR_ite, guard, setChan_keeps,
          whenRunning]
    | split

theorem execThrottleEnd_keeps (channel sub port : Nat) (s : State) : KeepsR [.mem] s (execThrottleEnd channel sub
    port s) := by
  unfold execThrottleEnd
  repeat' first
    | simp (disch := first | decide | exact Or.inl (by decide) | exact Or.inr rfl) only [keeps_self, keeps_ite,
          keeps_mk, ite_self, keepsR_next, keepsR_fault, keepsR_refused, keepsR_ite, guard, setSub_keeps, whenRunning]
    | split

theorem execTrumpLong_keeps (s : State) : KeepsR [.host, .mem, .evr, .out] s (execTrumpLong s) := by
  unfold execTrumpLong
  repeat' first
    | simp (disch := first | decide | exact Or.inl (by decide) | exact Or.inr rfl) only [keeps_self, keeps_ite,
          keeps_mk, ite_self, keepsR_next, keepsR_fault, keepsR_refused, keepsR_ite, guard, event_keeps, whenRunning]
    | split

theorem scrubbedLine_keeps {c : Nat} {x : ScrubLine} {s : State} {wB : List Area} {sB : State} (hw : subB [.dlr,
    .ante, .host, .idx, .mem, .evr, .out] wB = true) :
    Keeps wB sB (scrubbedLine c x s) ↔ Keeps wB sB s := by
  refine Keeps.peel (v := [.dlr, .ante, .host, .idx, .mem, .evr, .out]) ?_ hw
  unfold scrubbedLine
  repeat' first
    | simp (disch := first | decide | exact Or.inl (by decide) | exact Or.inr rfl) only [keeps_self, keeps_ite,
          keeps_mk, ite_self, lineRead_keeps]
    | split

theorem execPatrolScrub_keeps (channel lines : Nat) (found : List ScrubLine) (s : State) : KeepsR [.dlr, .ante,
    .host, .idx, .mem, .evr, .out] s (execPatrolScrub channel lines found s) := by
  unfold execPatrolScrub
  repeat' first
    | simp (disch := first | decide | exact Or.inl (by decide) | exact Or.inr rfl) only [keeps_self, keeps_ite,
          keeps_mk, ite_self, keepsR_next, keepsR_fault, keepsR_refused, keepsR_ite, scrubbedLine_keeps, guard,
          whenRunning]
    | with_reducible refine keeps_each (fun _ _ => ?_) ?_
    | split

theorem execDriftCheck_keeps (channel driftPct : Nat) (tempMoved : Bool) (s : State) : KeepsR [.ante] s
    (execDriftCheck channel driftPct tempMoved s) := by
  unfold execDriftCheck
  repeat' first
    | simp (disch := first | decide | exact Or.inl (by decide) | exact Or.inr rfl) only [keeps_self, keeps_ite,
          keeps_mk, ite_self, keepsR_next, keepsR_fault, keepsR_refused, keepsR_ite, guard, whenRunning,
          askRetrain_keeps]
    | split

end Sys2Proof.Machine
end

