-- ==== Sys2Proof/Laws/FrameIndex.lean ====
section
/-! SUPPORT. What each operation of Machine/Index.lean may change: `f_keeps` takes `f` off the end of a chain of operations
whenever the areas it may change are among those allowed. -/

set_option linter.all false

namespace Sys2Proof.Machine

open Sys2Proof

theorem setNs_keeps {n : Nat} {x : Namespace} {s : State} {wB : List Area} {sB : State} (hw : subB [.nss] wB = true) :
    Keeps wB sB (setNs n x s) ↔ Keeps wB sB s := by
  refine Keeps.peel (v := [.nss]) ?_ hw
  unfold setNs
  repeat' first
    | simp (disch := first | decide | exact Or.inl (by decide) | exact Or.inr rfl) only [keeps_self, keeps_ite,
          keeps_mk, ite_self]
    | split

theorem countLookup_keeps {ns : Nat} {key : Bytes} {s : State} {wB : List Area} {sB : State} (hw : subB [.idx] wB =
    true) :
    Keeps wB sB (countLookup ns key s) ↔ Keeps wB sB s := by
  refine Keeps.peel (v := [.idx]) ?_ hw
  unfold countLookup
  repeat' first
    | simp (disch := first | decide | exact Or.inl (by decide) | exact Or.inr rfl) only [keeps_self, keeps_ite,
          keeps_mk, ite_self]
    | split

theorem insertNew_keeps {d : Nat} {e : Entry} {s : State} {wB : List Area} {sB : State} (hw : subB [.host, .idx,
    .evr, .out] wB = true) :
    Keeps wB sB (insertNew d e s) ↔ Keeps wB sB s := by
  refine Keeps.peel (v := [.host, .idx, .evr, .out]) ?_ hw
  unfold insertNew
  repeat' first
    | simp (disch := first | decide | exact Or.inl (by decide) | exact Or.inr rfl) only [keeps_self, keeps_ite,
          keeps_mk, ite_self, event_keeps]
    | split

theorem putFound_keeps {found : Option Found} {d : Nat} {e : Entry} {s : State} {wB : List Area} {sB : State} (hw :
    subB [.host, .idx, .evr, .out] wB = true) :
    Keeps wB sB (putFound found d e s) ↔ Keeps wB sB s := by
  refine Keeps.peel (v := [.host, .idx, .evr, .out]) ?_ hw
  unfold putFound
  repeat' first
    | simp (disch := first | decide | exact Or.inl (by decide) | exact Or.inr rfl) only [keeps_self, keeps_ite,
          keeps_mk, ite_self, insertNew_keeps]
    | split

theorem removeFound_keeps {found : Option Found} {s : State} {wB : List Area} {sB : State} (hw : subB [.idx] wB =
    true) :
    Keeps wB sB (removeFound found s) ↔ Keeps wB sB s := by
  refine Keeps.peel (v := [.idx]) ?_ hw
  unfold removeFound
  repeat' first
    | simp (disch := first | decide | exact Or.inl (by decide) | exact Or.inr rfl) only [keeps_self, keeps_ite,
          keeps_mk, ite_self]
    | split

theorem indexPut_keeps {ns : Nat} {key : Bytes} {d : Nat} {e : Entry} {s : State} {wB : List Area} {sB : State} (hw :
    subB [.host, .idx, .evr, .out] wB = true) :
    Keeps wB sB (indexPut ns key d e s) ↔ Keeps wB sB s := by
  refine Keeps.peel (v := [.host, .idx, .evr, .out]) ?_ hw
  unfold indexPut
  repeat' first
    | simp (disch := first | decide | exact Or.inl (by decide) | exact Or.inr rfl) only [keeps_self, keeps_ite,
          keeps_mk, ite_self, putFound_keeps]
    | split

theorem indexRemove_keeps {ns : Nat} {key : Bytes} {s : State} {wB : List Area} {sB : State} (hw : subB [.idx] wB =
    true) :
    Keeps wB sB (indexRemove ns key s) ↔ Keeps wB sB s := by
  refine Keeps.peel (v := [.idx]) ?_ hw
  unfold indexRemove
  repeat' first
    | simp (disch := first | decide | exact Or.inl (by decide) | exact Or.inr rfl) only [keeps_self, keeps_ite,
          keeps_mk, ite_self, removeFound_keeps]
    | split

theorem moveEntry_keeps {oldDram : Bool} {old : Nat} {newDram : Bool} {new : Nat} {s : State} {wB : List Area} {sB :
    State} (hw : subB [.idx] wB = true) :
    Keeps wB sB (moveEntry oldDram old newDram new s) ↔ Keeps wB sB s := by
  refine Keeps.peel (v := [.idx]) ?_ hw
  unfold moveEntry
  repeat' first
    | simp (disch := first | decide | exact Or.inl (by decide) | exact Or.inr rfl) only [keeps_self, keeps_ite,
          keeps_mk, ite_self]
    | split

theorem retryStash_keeps {p : Nat × Entry} {s : State} {wB : List Area} {sB : State} (hw : subB [.idx, .draws] wB =
    true) :
    Keeps wB sB (retryStash p s) ↔ Keeps wB sB s := by
  refine Keeps.peel (v := [.idx, .draws]) ?_ hw
  unfold retryStash
  repeat' first
    | simp (disch := first | decide | exact Or.inl (by decide) | exact Or.inr rfl) only [keeps_self, keeps_ite,
          keeps_mk, ite_self, drawn_keeps]
    | split

theorem execStashRetryPass_keeps (s : State) : KeepsR [.idx, .draws] s (execStashRetryPass s) := by
  unfold execStashRetryPass
  repeat' first
    | simp (disch := first | decide | exact Or.inl (by decide) | exact Or.inr rfl) only [keeps_self, keeps_ite,
          keeps_mk, ite_self, keepsR_next, keepsR_fault, keepsR_refused, keepsR_ite, retryStash_keeps, whenRunning]
    | with_reducible refine keeps_each (fun _ _ => ?_) ?_
    | split

theorem endGroupWindow_keeps {g : Nat} {s : State} {wB : List Area} {sB : State} (hw : subB [.ante] wB = true) :
    Keeps wB sB (endGroupWindow g s) ↔ Keeps wB sB s := by
  refine Keeps.peel (v := [.ante]) ?_ hw
  unfold endGroupWindow
  repeat' first
    | simp (disch := first | decide | exact Or.inl (by decide) | exact Or.inr rfl) only [keeps_self, keeps_ite,
          keeps_mk, ite_self, dropMaint_keeps]
    | split

theorem execIndexGroupRebuild_keeps (group : Nat) (s : State) : KeepsR [.ante, .idx] s (execIndexGroupRebuild group
    s) := by
  unfold execIndexGroupRebuild
  repeat' first
    | simp (disch := first | decide | exact Or.inl (by decide) | exact Or.inr rfl) only [keeps_self, keeps_ite,
          keeps_mk, ite_self, keepsR_next, keepsR_fault, keepsR_refused, keepsR_ite, endGroupWindow_keeps, guard,
          whenRunning]
    | with_reducible refine keeps_foldl (fun _ _ => ?_) ?_
    | split

end Sys2Proof.Machine
end

