-- ==== Sys2Proof/Laws/FrameClassifier.lean ====
section
/-! SUPPORT. What each operation of Machine/Classifier.lean may change: `f_keeps` takes `f` off the end of a chain of operations
whenever the areas it may change are among those allowed. -/

set_option linter.all false

namespace Sys2Proof.Machine

open Sys2Proof

theorem setBank_keeps {b : Nat} {x : Bank} {s : State} {wB : List Area} {sB : State} (hw : subB [.cam] wB = true) :
    Keeps wB sB (setBank b x s) ↔ Keeps wB sB s := by
  refine Keeps.peel (v := [.cam]) ?_ hw
  unfold setBank
  repeat' first
    | simp (disch := first | decide | exact Or.inl (by decide) | exact Or.inr rfl) only [keeps_self, keeps_ite,
          keeps_mk, ite_self]
    | split

theorem countSearch_keeps {p key : Nat} {s : State} {wB : List Area} {sB : State} (hw : subB [.cam] wB = true) :
    Keeps wB sB (countSearch p key s) ↔ Keeps wB sB s := by
  refine Keeps.peel (v := [.cam]) ?_ hw
  unfold countSearch
  repeat' first
    | simp (disch := first | decide | exact Or.inl (by decide) | exact Or.inr rfl) only [keeps_self, keeps_ite,
          keeps_mk, ite_self]
    | with_reducible refine keeps_getD (fun _ _ => ?_) ?_
    | split

theorem spendSearches_keeps {keyed : Bool} {s : State} {wB : List Area} {sB : State} (hw : subB [.dlr] wB = true) :
    Keeps wB sB (spendSearches keyed s) ↔ Keeps wB sB s := by
  refine Keeps.peel (v := [.dlr]) ?_ hw
  unfold spendSearches
  repeat' first
    | simp (disch := first | decide | exact Or.inl (by decide) | exact Or.inr rfl) only [keeps_self, keeps_ite,
          keeps_mk, ite_self]
    | split

theorem countStall_keeps {s : State} {wB : List Area} {sB : State} (hw : subB [.dlr] wB = true) :
    Keeps wB sB (countStall s) ↔ Keeps wB sB s := by
  refine Keeps.peel (v := [.dlr]) ?_ hw
  unfold countStall
  repeat' first
    | simp (disch := first | decide | exact Or.inl (by decide) | exact Or.inr rfl) only [keeps_self, keeps_ite,
          keeps_mk, ite_self]
    | split

theorem countClassify_keeps {cmdKey : Nat} {key : Bytes} {s : State} {wB : List Area} {sB : State} (hw : subB [.cam]
    wB = true) :
    Keeps wB sB (countClassify cmdKey key s) ↔ Keeps wB sB s := by
  refine Keeps.peel (v := [.cam]) ?_ hw
  unfold countClassify
  repeat' first
    | simp (disch := first | decide | exact Or.inl (by decide) | exact Or.inr rfl) only [keeps_self, keeps_ite,
          keeps_mk, ite_self, countSearch_keeps]
    | split

theorem writeEntry_keeps {a : Nat} {e : EntryPage} {s : State} {wB : List Area} {sB : State} (hw : subB [.cam] wB =
    true) :
    Keeps wB sB (writeEntry a e s) ↔ Keeps wB sB s := by
  refine Keeps.peel (v := [.cam]) ?_ hw
  unfold writeEntry
  repeat' first
    | simp (disch := first | decide | exact Or.inl (by decide) | exact Or.inr rfl) only [keeps_self, keeps_ite,
          keeps_mk, ite_self]
    | split

theorem orderedInsert_keeps {a h : Nat} {e : EntryPage} {s : State} {wB : List Area} {sB : State} (hw : subB [.cam]
    wB = true) :
    Keeps wB sB (orderedInsert a h e s) ↔ Keeps wB sB s := by
  refine Keeps.peel (v := [.cam]) ?_ hw
  unfold orderedInsert
  repeat' first
    | simp (disch := first | decide | exact Or.inl (by decide) | exact Or.inr rfl) only [keeps_self, keeps_ite,
          keeps_mk, ite_self, writeEntry_keeps]
    | split

theorem yieldSlices_keeps {s : State} {wB : List Area} {sB : State} (hw : subB [.ante] wB = true) :
    Keeps wB sB (yieldSlices s) ↔ Keeps wB sB s := by
  refine Keeps.peel (v := [.ante]) ?_ hw
  unfold yieldSlices
  repeat' first
    | simp (disch := first | decide | exact Or.inl (by decide) | exact Or.inr rfl) only [keeps_self, keeps_ite,
          keeps_mk, ite_self, cancelMaint_keeps]
    | with_reducible refine keeps_each (fun _ _ => ?_) ?_
    | split

theorem bankOffline_keeps {unit : Nat} {s : State} {wB : List Area} {sB : State} (hw : subB [.ante, .host, .cam,
    .evr, .out] wB = true) :
    Keeps wB sB (bankOffline unit s) ↔ Keeps wB sB s := by
  refine Keeps.peel (v := [.ante, .host, .cam, .evr, .out]) ?_ hw
  unfold bankOffline
  repeat' first
    | simp (disch := first | decide | exact Or.inl (by decide) | exact Or.inr rfl) only [keeps_self, keeps_ite,
          keeps_mk, ite_self, reserveMaint_keeps, setBank_keeps, yieldSlices_keeps, event_keeps]
    | split

theorem camError_keeps {e : CamError} {s : State} {wB : List Area} {sB : State} (hw : subB [.ante, .host, .cam, .evr,
    .out] wB = true) :
    Keeps wB sB (camError e s) ↔ Keeps wB sB s := by
  refine Keeps.peel (v := [.ante, .host, .cam, .evr, .out]) ?_ hw
  unfold camError
  repeat' first
    | simp (disch := first | decide | exact Or.inl (by decide) | exact Or.inr rfl) only [keeps_self, keeps_ite,
          keeps_mk, ite_self, bankOffline_keeps]
    | split

theorem execClassifierScrub_keeps (found : List CamError) (s : State) : KeepsR [.ante, .host, .cam, .evr, .out] s
    (execClassifierScrub found s) := by
  unfold execClassifierScrub
  repeat' first
    | simp (disch := first | decide | exact Or.inl (by decide) | exact Or.inr rfl) only [keeps_self, keeps_ite,
          keeps_mk, ite_self, keepsR_next, keepsR_fault, keepsR_refused, keepsR_ite, whenRunning, camError_keeps]
    | with_reducible refine keeps_each (fun _ _ => ?_) ?_
    | split

theorem execClassifierBankRebuild_keeps (bank : Nat) (verified : Bool) (s : State) : KeepsR [.ante, .cam] s
    (execClassifierBankRebuild bank verified s) := by
  unfold execClassifierBankRebuild
  repeat' first
    | simp (disch := first | decide | exact Or.inl (by decide) | exact Or.inr rfl) only [keeps_self, keeps_ite,
          keeps_mk, ite_self, keepsR_next, keepsR_fault, keepsR_refused, keepsR_ite, reserveMaint_keeps,
          setBank_keeps, whenRunning, dropMaint_keeps]
    | split

end Sys2Proof.Machine
end

