-- ==== Sys2Proof/Laws/FrameMedia.lean ====
section
/-! SUPPORT. What each operation of Machine/Media.lean may change: `f_keeps` takes `f` off the end of a chain of operations
whenever the areas it may change are among those allowed. -/

set_option linter.all false

namespace Sys2Proof.Machine

open Sys2Proof

theorem setMeld_keeps {n : Nat} {m : Meld} {s : State} {wB : List Area} {sB : State} (hw : subB [.med] wB = true) :
    Keeps wB sB (setMeld n m s) ↔ Keeps wB sB s := by
  refine Keeps.peel (v := [.med]) ?_ hw
  unfold setMeld
  repeat' first
    | simp (disch := first | decide | exact Or.inl (by decide) | exact Or.inr rfl) only [keeps_self, keeps_ite,
          keeps_mk, ite_self]
    | split

theorem setDie_keeps {d : Nat} {x : Die} {s : State} {wB : List Area} {sB : State} (hw : subB [.med] wB = true) :
    Keeps wB sB (setDie d x s) ↔ Keeps wB sB s := by
  refine Keeps.peel (v := [.med]) ?_ hw
  unfold setDie
  repeat' first
    | simp (disch := first | decide | exact Or.inl (by decide) | exact Or.inr rfl) only [keeps_self, keeps_ite,
          keeps_mk, ite_self]
    | split

theorem modFlashChan_keeps {c : Nat} {f : Chan → Chan} {s : State} {wB : List Area} {sB : State} (hw : subB [.med] wB
    = true) :
    Keeps wB sB (modFlashChan c f s) ↔ Keeps wB sB s := by
  refine Keeps.peel (v := [.med]) ?_ hw
  unfold modFlashChan
  repeat' first
    | simp (disch := first | decide | exact Or.inl (by decide) | exact Or.inr rfl) only [keeps_self, keeps_ite,
          keeps_mk, ite_self]
    | split

theorem setBlk_keeps {id : Nat} {b : Blk} {s : State} {wB : List Area} {sB : State} (hw : subB [.med] wB = true) :
    Keeps wB sB (setBlk id b s) ↔ Keeps wB sB s := by
  refine Keeps.peel (v := [.med]) ?_ hw
  unfold setBlk
  repeat' first
    | simp (disch := first | decide | exact Or.inl (by decide) | exact Or.inr rfl) only [keeps_self, keeps_ite,
          keeps_mk, ite_self]
    | split

theorem replaceBlock_keeps {id : Nat} {s : State} {wB : List Area} {sB : State} (hw : subB [.med] wB = true) :
    Keeps wB sB (replaceBlock id s) ↔ Keeps wB sB s := by
  refine Keeps.peel (v := [.med]) ?_ hw
  unfold replaceBlock
  repeat' first
    | simp (disch := first | decide | exact Or.inl (by decide) | exact Or.inr rfl) only [keeps_self, keeps_ite,
          keeps_mk, ite_self, setBlk_keeps]
    | split

theorem checkStock_keeps {s : State} {wB : List Area} {sB : State} (hw : subB [.boot, .host, .evr, .out] wB = true) :
    Keeps wB sB (checkStock s) ↔ Keeps wB sB s := by
  refine Keeps.peel (v := [.boot, .host, .evr, .out]) ?_ hw
  unfold checkStock
  repeat' first
    | simp (disch := first | decide | exact Or.inl (by decide) | exact Or.inr rfl) only [keeps_self, keeps_ite,
          keeps_mk, ite_self, enterReadOnly_keeps]
    | split

theorem retireBlock_keeps {id : Nat} {s : State} {wB : List Area} {sB : State} (hw : subB [.boot, .host, .med, .evr,
    .out] wB = true) :
    Keeps wB sB (retireBlock id s) ↔ Keeps wB sB s := by
  refine Keeps.peel (v := [.boot, .host, .med, .evr, .out]) ?_ hw
  unfold retireBlock
  repeat' first
    | simp (disch := first | decide | exact Or.inl (by decide) | exact Or.inr rfl) only [keeps_self, keeps_ite,
          keeps_mk, ite_self, replaceBlock_keeps, setBlk_keeps, checkStock_keeps]
    | split

theorem takeBlock_keeps {k id : Nat} {s : State} {wB : List Area} {sB : State} (hw : subB [.med] wB = true) :
    Keeps wB sB (takeBlock k id s) ↔ Keeps wB sB s := by
  refine Keeps.peel (v := [.med]) ?_ hw
  unfold takeBlock
  repeat' first
    | simp (disch := first | decide | exact Or.inl (by decide) | exact Or.inr rfl) only [keeps_self, keeps_ite,
          keeps_mk, ite_self, setBlk_keeps]
    | split

theorem openMeld_keeps {stream : Nat} {tomb : Bool} {n : Nat} {s : State} {wB : List Area} {sB : State} (hw : subB
    [.med] wB = true) :
    Keeps wB sB (openMeld stream tomb n s) ↔ Keeps wB sB s := by
  refine Keeps.peel (v := [.med]) ?_ hw
  unfold openMeld
  repeat' first
    | simp (disch := first | decide | exact Or.inl (by decide) | exact Or.inr rfl) only [keeps_self, keeps_ite,
          keeps_mk, ite_self, takeBlock_keeps, setMeld_keeps]
    | with_reducible refine keeps_each (fun _ _ => ?_) ?_
    | with_reducible refine keeps_getD (fun _ _ => ?_) ?_
    | split

theorem meldOn_keeps {stream k : Nat} {tomb : Bool} {s uB : State} {aB : Nat} {wB : List Area} {sB : State}
    (h : meldOn stream tomb k s = some (aB, uB)) (hw : subB [.med] wB = true) : Keeps wB sB uB ↔ Keeps wB sB s := by
  refine Keeps.peel (v := [.med]) ?_ hw
  unfold meldOn at h
  generalize List.find? _ _ = x at h
  generalize freeMeld s stream k = y at h
  cases x <;> cases y <;> cases h <;> simp (disch := first | decide | exact Or.inl (by decide) | exact Or.inr rfl)
      only [keeps_self, openMeld_keeps]

theorem closeRow_keeps {n r : Nat} {s : State} {wB : List Area} {sB : State} (hw : subB [.ante, .med] wB = true) :
    Keeps wB sB (closeRow n r s) ↔ Keeps wB sB s := by
  refine Keeps.peel (v := [.ante, .med]) ?_ hw
  unfold closeRow
  repeat' first
    | simp (disch := first | decide | exact Or.inl (by decide) | exact Or.inr rfl) only [keeps_self, keeps_ite,
          keeps_mk, ite_self, setMeld_keeps, undebit_keeps]
    | with_reducible refine keeps_each (fun _ _ => ?_) ?_
    | split

theorem closeRows_keeps {n r k : Nat} {s : State} {wB : List Area} {sB : State} (hw : subB [.ante, .med] wB = true) :
    Keeps wB sB (closeRows n r k s) ↔ Keeps wB sB s := by
  refine Keeps.peel (v := [.ante, .med]) ?_ hw
  induction k generalizing r s with
  | zero => exact Keeps.refl _ _
  | succ k ih => exact (((closeRow_keeps (by decide)).mpr (Keeps.refl _ _)).trans ih)

theorem sealRow_keeps {n : Nat} {s : State} {wB : List Area} {sB : State} (hw : subB [.ante, .med] wB = true) :
    Keeps wB sB (sealRow n s) ↔ Keeps wB sB s := by
  refine Keeps.peel (v := [.ante, .med]) ?_ hw
  unfold sealRow
  repeat' first
    | simp (disch := first | decide | exact Or.inl (by decide) | exact Or.inr rfl) only [keeps_self, keeps_ite,
          keeps_mk, ite_self, setMeld_keeps, closeRow_keeps]
    | split

theorem settleMeld_keeps {n : Nat} {s : State} {wB : List Area} {sB : State} (hw : subB [.med] wB = true) :
    Keeps wB sB (settleMeld n s) ↔ Keeps wB sB s := by
  refine Keeps.peel (v := [.med]) ?_ hw
  unfold settleMeld
  repeat' first
    | simp (disch := first | decide | exact Or.inl (by decide) | exact Or.inr rfl) only [keeps_self, keeps_ite,
          keeps_mk, ite_self, setMeld_keeps, setBlk_keeps]
    | with_reducible refine keeps_each (fun _ _ => ?_) ?_
    | split

theorem shutMeld_keeps {n : Nat} {s : State} {wB : List Area} {sB : State} (hw : subB [.ante, .med] wB = true) :
    Keeps wB sB (shutMeld n s) ↔ Keeps wB sB s := by
  refine Keeps.peel (v := [.ante, .med]) ?_ hw
  unfold shutMeld
  repeat' first
    | simp (disch := first | decide | exact Or.inl (by decide) | exact Or.inr rfl) only [keeps_self, keeps_ite,
          keeps_mk, ite_self, settleMeld_keeps, setMeld_keeps, sealRow_keeps]
    | split

theorem placeIn_keeps {n : Nat} {r : Record} {dram src : Option Nat} {kitty : Nat} {owner : Option (Nat × Nat)}
    {medium : Bool} {s : State} {wB : List Area} {sB : State} (hw : subB [.ante, .med] wB = true) :
    Keeps wB sB (placeIn n r dram src kitty owner medium s) ↔ Keeps wB sB s := by
  refine Keeps.peel (v := [.ante, .med]) ?_ hw
  unfold placeIn
  repeat' first
    | simp (disch := first | decide | exact Or.inl (by decide) | exact Or.inr rfl) only [keeps_self, keeps_ite,
          keeps_mk, ite_self, setMeld_keeps, closeRows_keeps]
    | split

theorem meldAmong_keeps {stream units : Nat} {tomb : Bool} {l : List Nat} {s uB : State} {aB : Nat} {wB : List Area}
    {sB : State}
    (h : meldAmong stream tomb units s l = some (aB, uB)) (hw : subB [.ante, .med] wB = true) : Keeps wB sB uB ↔
        Keeps wB sB s := by
  refine Keeps.peel (v := [.ante, .med]) ?_ hw
  induction l with
  | nil => cases h
  | cons k t ih =>
    unfold meldAmong at h
    generalize e : meldOn stream tomb k s = x at h
    cases x with
    | none => exact ih h
    | some p =>
      dsimp only at h
      split at h
      · cases h
        exact (meldOn_keeps e (by decide)).mpr (Keeps.refl _ _)
      · generalize e2 : meldOn stream tomb k (shutMeld p.1 p.2) = y at h
        cases y with
        | none => exact ih h
        | some q =>
          cases h
          refine (meldOn_keeps e2 (by decide)).mpr ?_
          simp (disch := first | decide | exact Or.inl (by decide) | exact Or.inr rfl) only [keeps_self,
              shutMeld_keeps]
          exact (meldOn_keeps e (by decide)).mpr (Keeps.refl _ _)

theorem meldFor_keeps {stream : Nat} {tomb : Bool} {set : Option Nat} {units : Nat} {s uB : State} {aB : Nat} {wB :
    List Area} {sB : State}
    (h : meldFor stream tomb set units s = some (aB, uB)) (hw : subB [.ante, .med] wB = true) : Keeps wB sB uB ↔
        Keeps wB sB s :=
  meldAmong_keeps h hw

theorem placeRecord_keeps {stream : Nat} {set : Option Nat} {r : Record} {dram src : Option Nat} {kitty : Nat} {owner
    : Option (Nat × Nat)} {s : State} {wB : List Area} {sB : State} (hw : subB [.ante, .med] wB = true) :
    Keeps wB sB (placeRecord stream set r dram src kitty owner s) ↔ Keeps wB sB s := by
  refine Keeps.peel (v := [.ante, .med]) ?_ hw
  unfold placeRecord
  repeat' first
    | simp (disch := first | decide | exact Or.inl (by decide) | exact Or.inr rfl) only [keeps_self, keeps_ite,
          keeps_mk, ite_self, placeIn_keeps]
    | with_reducible refine (meldFor_keeps (by assumption) (by decide)).mpr ?_
    | split

theorem placeSystem_keeps {r : Record} {s : State} {wB : List Area} {sB : State} (hw : subB [.ante, .med] wB = true) :
    Keeps wB sB (placeSystem r s) ↔ Keeps wB sB s := by
  refine Keeps.peel (v := [.ante, .med]) ?_ hw
  unfold placeSystem
  repeat' first
    | simp (disch := first | decide | exact Or.inl (by decide) | exact Or.inr rfl) only [keeps_self, keeps_ite,
          keeps_mk, ite_self, placeRecord_keeps, debit_keeps]
    | with_reducible refine keeps_getD (fun _ _ => ?_) ?_
    | split

theorem killMeld_keeps {n : Nat} {byReclaim : Bool} {s : State} {wB : List Area} {sB : State} (hw : subB [.ante,
    .med] wB = true) :
    Keeps wB sB (killMeld n byReclaim s) ↔ Keeps wB sB s := by
  refine Keeps.peel (v := [.ante, .med]) ?_ hw
  unfold killMeld
  repeat' first
    | simp (disch := first | decide | exact Or.inl (by decide) | exact Or.inr rfl) only [keeps_self, keeps_ite,
          keeps_mk, ite_self, setMeld_keeps, placeSystem_keeps]
    | split

theorem startErase_keeps {n : Nat} {s : State} {wB : List Area} {sB : State} (hw : subB [.ante, .med, .pwr] wB =
    true) :
    Keeps wB sB (startErase n s) ↔ Keeps wB sB s := by
  refine Keeps.peel (v := [.ante, .med, .pwr]) ?_ hw
  unfold startErase
  repeat' first
    | simp (disch := first | decide | exact Or.inl (by decide) | exact Or.inr rfl) only [keeps_self, keeps_ite,
          keeps_mk, ite_self, reserveErase_keeps1, setMeld_keeps]
    | with_reducible refine (reserveErase_keeps (by assumption) (by decide)).mpr ?_
    | split

theorem settleCopied_keeps {n : Nat} {s : State} {wB : List Area} {sB : State} (hw : subB [.ante, .med, .pwr] wB =
    true) :
    Keeps wB sB (settleCopied n s) ↔ Keeps wB sB s := by
  refine Keeps.peel (v := [.ante, .med, .pwr]) ?_ hw
  unfold settleCopied
  repeat' first
    | simp (disch := first | decide | exact Or.inl (by decide) | exact Or.inr rfl) only [keeps_self, keeps_ite,
          keeps_mk, ite_self, startErase_keeps, killMeld_keeps]
    | split

theorem relocateMeld_keeps {kind : Maint} {firm recovery : Bool} {n : Nat} {s : State} {wB : List Area} {sB : State}
    (hw : subB [.ante, .med, .pwr] wB = true) :
    Keeps wB sB (relocateMeld kind firm recovery n s) ↔ Keeps wB sB s := by
  refine Keeps.peel (v := [.ante, .med, .pwr]) ?_ hw
  unfold relocateMeld
  repeat' first
    | simp (disch := first | decide | exact Or.inl (by decide) | exact Or.inr rfl) only [keeps_self, keeps_ite,
          keeps_mk, ite_self, placeRecord_keeps, settleCopied_keeps]
    | with_reducible refine (takeAntes_keeps (by assumption) (by decide)).mpr ?_
    | with_reducible refine keeps_each (fun _ _ => ?_) ?_
    | split

theorem removeEntry_keeps {p : Spot} {e : Entry} {s : State} {wB : List Area} {sB : State} (hw : subB [.nss, .idx] wB
    = true) :
    Keeps wB sB (removeEntry p e s) ↔ Keeps wB sB s := by
  refine Keeps.peel (v := [.nss, .idx]) ?_ hw
  unfold removeEntry
  repeat' first
    | simp (disch := first | decide | exact Or.inl (by decide) | exact Or.inr rfl) only [keeps_self, keeps_ite,
          keeps_mk, ite_self, setNs_keeps]
    | split

theorem execRowSealTimer_keeps (meld : Nat) (s : State) : KeepsR [.ante, .med] s (execRowSealTimer meld s) := by
  unfold execRowSealTimer
  repeat' first
    | simp (disch := first | decide | exact Or.inl (by decide) | exact Or.inr rfl) only [keeps_self, keeps_ite,
          keeps_mk, ite_self, keepsR_next, keepsR_fault, keepsR_refused, keepsR_ite, guard, whenRunning,
          closeRow_keeps, sealRow_keeps]
    | with_reducible refine keeps_each (fun _ _ => ?_) ?_
    | split

theorem execRowProgramStart_keeps (meld : Nat) (s : State) : KeepsR [.med, .pwr] s (execRowProgramStart meld s) := by
  unfold execRowProgramStart
  repeat' first
    | simp (disch := first | decide | exact Or.inl (by decide) | exact Or.inr rfl) only [keeps_self, keeps_ite,
          keeps_mk, ite_self, keepsR_next, keepsR_fault, keepsR_refused, keepsR_ite, setMeld_keeps, whenRunning]
    | split

theorem execIndexMoveToMedia_keeps (addr : Nat) (s : State) : KeepsR [.ante, .idx, .med, .mem, .pwr] s
    (execIndexMoveToMedia addr s) := by
  unfold execIndexMoveToMedia
  repeat' first
    | simp (disch := first | decide | exact Or.inl (by decide) | exact Or.inr rfl) only [keeps_self, keeps_ite,
          keeps_mk, ite_self, keepsR_next, keepsR_fault, keepsR_refused, keepsR_ite, moveEntry_keeps,
          settleCopied_keeps, whenRunning]
    | split

theorem codewordRepaired_keeps {addr : Nat} {s : State} {wB : List Area} {sB : State} (hw : subB [.med] wB = true) :
    Keeps wB sB (codewordRepaired addr s) ↔ Keeps wB sB s := by
  refine Keeps.peel (v := [.med]) ?_ hw
  unfold codewordRepaired
  repeat' first
    | simp (disch := first | decide | exact Or.inl (by decide) | exact Or.inr rfl) only [keeps_self, keeps_ite,
          keeps_mk, ite_self, modFlashChan_keeps]
    | split

theorem execDieRebuild_keeps (die : Nat) (s : State) : KeepsR [.ante, .host, .med, .pwr, .evr, .out] s
    (execDieRebuild die s) := by
  unfold execDieRebuild
  repeat' first
    | simp (disch := first | decide | exact Or.inl (by decide) | exact Or.inr rfl) only [keeps_self, keeps_ite,
          keeps_mk, ite_self, keepsR_next, keepsR_fault, keepsR_refused, keepsR_ite, guard, relocateMeld_keeps,
          event_keeps, setDie_keeps, whenRunning]
    | with_reducible refine keeps_each (fun _ _ => ?_) ?_
    | split

theorem execExpiryEvaluation_keeps (s : State) : KeepsR [.ante, .med] s (execExpiryEvaluation s) := by
  unfold execExpiryEvaluation
  repeat' first
    | simp (disch := first | decide | exact Or.inl (by decide) | exact Or.inr rfl) only [keeps_self, keeps_ite,
          keeps_mk, ite_self, keepsR_next, keepsR_fault, keepsR_refused, keepsR_ite, killMeld_keeps, whenRunning]
    | with_reducible refine keeps_each (fun _ _ => ?_) ?_
    | split

theorem hintMelds_keeps {h : Hint} {s : State} {wB : List Area} {sB : State} (hw : subB [.ante, .med] wB = true) :
    Keeps wB sB (hintMelds h s) ↔ Keeps wB sB s := by
  refine Keeps.peel (v := [.ante, .med]) ?_ hw
  unfold hintMelds
  repeat' first
    | simp (disch := first | decide | exact Or.inl (by decide) | exact Or.inr rfl) only [keeps_self, keeps_ite,
          keeps_mk, ite_self, killMeld_keeps]
    | with_reducible refine keeps_each (fun _ _ => ?_) ?_
    | split

theorem hintRecords_keeps {h : Hint} {s : State} {wB : List Area} {sB : State} (hw : subB [.nss, .idx] wB = true) :
    Keeps wB sB (hintRecords h s) ↔ Keeps wB sB s := by
  refine Keeps.peel (v := [.nss, .idx]) ?_ hw
  unfold hintRecords
  repeat' first
    | simp (disch := first | decide | exact Or.inl (by decide) | exact Or.inr rfl) only [keeps_self, keeps_ite,
          keeps_mk, ite_self, removeEntry_keeps]
    | with_reducible refine keeps_each (fun _ _ => ?_) ?_
    | split

theorem execHintReclaim_keeps (s : State) : KeepsR [.nss, .ante, .idx, .med] s (execHintReclaim s) := by
  unfold execHintReclaim
  repeat' first
    | simp (disch := first | decide | exact Or.inl (by decide) | exact Or.inr rfl) only [keeps_self, keeps_ite,
          keeps_mk, ite_self, keepsR_next, keepsR_fault, keepsR_refused, keepsR_ite, hintRecords_keeps, whenRunning,
          hintMelds_keeps]
    | with_reducible refine keeps_each (fun _ _ => ?_) ?_
    | split

theorem execMeldAgeClose_keeps (meld : Nat) (s : State) : KeepsR [.ante, .med] s (execMeldAgeClose meld s) := by
  unfold execMeldAgeClose
  repeat' first
    | simp (disch := first | decide | exact Or.inl (by decide) | exact Or.inr rfl) only [keeps_self, keeps_ite,
          keeps_mk, ite_self, keepsR_next, keepsR_fault, keepsR_refused, keepsR_ite, guard, whenRunning,
          shutMeld_keeps]
    | split

theorem eraseBlock_keeps {failed : List Nat} {id : Nat} {s : State} {wB : List Area} {sB : State} (hw : subB [.boot,
    .host, .med, .evr, .out] wB = true) :
    Keeps wB sB (eraseBlock failed id s) ↔ Keeps wB sB s := by
  refine Keeps.peel (v := [.boot, .host, .med, .evr, .out]) ?_ hw
  unfold eraseBlock
  repeat' first
    | simp (disch := first | decide | exact Or.inl (by decide) | exact Or.inr rfl) only [keeps_self, keeps_ite,
          keeps_mk, ite_self, retireBlock_keeps, setBlk_keeps]
    | split

theorem execMeldEraseComplete_keeps (meld : Nat) (failed : List Nat) (s : State) : KeepsR [.boot, .host, .med, .evr,
    .out] s (execMeldEraseComplete meld failed s) := by
  unfold execMeldEraseComplete
  repeat' first
    | simp (disch := first | decide | exact Or.inl (by decide) | exact Or.inr rfl) only [keeps_self, keeps_ite,
          keeps_mk, ite_self, keepsR_next, keepsR_fault, keepsR_refused, keepsR_ite, guard, setMeld_keeps,
          whenRunning, eraseBlock_keeps]
    | with_reducible refine keeps_each (fun _ _ => ?_) ?_
    | split

theorem execRefreshRelocation_keeps (meld : Nat) (s : State) : KeepsR [.ante, .med, .pwr] s (execRefreshRelocation
    meld s) := by
  unfold execRefreshRelocation
  repeat' first
    | simp (disch := first | decide | exact Or.inl (by decide) | exact Or.inr rfl) only [keeps_self, keeps_ite,
          keeps_mk, ite_self, keepsR_next, keepsR_fault, keepsR_refused, keepsR_ite, guard, relocateMeld_keeps,
          whenRunning]
    | split

theorem execWearLevelRelocation_keeps (channel plane : Nat) (s : State) : KeepsR [.ante, .med, .pwr] s
    (execWearLevelRelocation channel plane s) := by
  unfold execWearLevelRelocation
  repeat' first
    | simp (disch := first | decide | exact Or.inl (by decide) | exact Or.inr rfl) only [keeps_self, keeps_ite,
          keeps_mk, ite_self, keepsR_next, keepsR_fault, keepsR_refused, keepsR_ite, relocateMeld_keeps, whenRunning]
    | with_reducible refine keeps_foldl (fun _ _ => ?_) ?_
    | split

theorem execBackgroundGc_keeps (set : Nat) (s : State) : KeepsR [.ante, .med, .pwr] s (execBackgroundGc set s) := by
  unfold execBackgroundGc
  repeat' first
    | simp (disch := first | decide | exact Or.inl (by decide) | exact Or.inr rfl) only [keeps_self, keeps_ite,
          keeps_mk, ite_self, keepsR_next, keepsR_fault, keepsR_refused, keepsR_ite, guard, relocateMeld_keeps,
          whenRunning]
    | split

theorem execForegroundGc_keeps (set : Nat) (s : State) : KeepsR [.ante, .med, .pwr] s (execForegroundGc set s) := by
  unfold execForegroundGc
  repeat' first
    | simp (disch := first | decide | exact Or.inl (by decide) | exact Or.inr rfl) only [keeps_self, keeps_ite,
          keeps_mk, ite_self, keepsR_next, keepsR_fault, keepsR_refused, keepsR_ite, guard, relocateMeld_keeps,
          whenRunning]
    | split

theorem execGcFactorUpdate_keeps (s : State) : KeepsR [.med] s (execGcFactorUpdate s) := by
  unfold execGcFactorUpdate
  repeat' first
    | simp (disch := first | decide | exact Or.inl (by decide) | exact Or.inr rfl) only [keeps_self, keeps_ite,
          keeps_mk, ite_self, keepsR_next, keepsR_fault, keepsR_refused, keepsR_ite, whenRunning]
    | split

theorem writeDeltas_keeps {k : Nat} {s : State} {wB : List Area} {sB : State} (hw : subB [.ante, .med] wB = true) :
    Keeps wB sB (writeDeltas k s) ↔ Keeps wB sB s := by
  refine Keeps.peel (v := [.ante, .med]) ?_ hw
  induction k generalizing s with
  | zero => exact Keeps.refl _ _
  | succ k ih =>
    unfold writeDeltas
    dsimp only
    split
    · exact Keeps.refl _ _
    · refine Keeps.trans ?_ ih
      simp (disch := first | decide | exact Or.inl (by decide) | exact Or.inr rfl) only [keeps_self, keeps_mk,
          placeSystem_keeps]

theorem execCheckpointGroupCopy_keeps (s : State) : KeepsR [.ante, .idx, .med] s (execCheckpointGroupCopy s) := by
  unfold execCheckpointGroupCopy
  repeat' first
    | simp (disch := first | decide | exact Or.inl (by decide) | exact Or.inr rfl) only [keeps_self, keeps_ite,
          keeps_mk, ite_self, keepsR_next, keepsR_fault, keepsR_refused, keepsR_ite, writeDeltas_keeps, guard,
          placeSystem_keeps, whenRunning]
    | split

theorem execIndexSweepPass_keeps (s : State) : KeepsR [.nss, .ante, .idx, .med, .pwr] s (execIndexSweepPass s) := by
  unfold execIndexSweepPass
  repeat' first
    | simp (disch := first | decide | exact Or.inl (by decide) | exact Or.inr rfl) only [keeps_self, keeps_ite,
          keeps_mk, ite_self, keepsR_next, keepsR_fault, keepsR_refused, keepsR_ite, removeEntry_keeps,
          startErase_keeps, whenRunning]
    | with_reducible refine keeps_each (fun _ _ => ?_) ?_
    | split

end Sys2Proof.Machine
end

