-- ==== Sys2Proof/Laws/FrameFrames.lean ====
section
/-! SUPPORT. What each operation of Machine/Frames.lean may change: `f_keeps` takes `f` off the end of a chain of operations
whenever the areas it may change are among those allowed. -/

set_option linter.all false

namespace Sys2Proof.Machine

open Sys2Proof

theorem setLane_keeps {n : Nat} {x : Lane} {s : State} {wB : List Area} {sB : State} (hw : subB [.lanes] wB = true) :
    Keeps wB sB (setLane n x s) ↔ Keeps wB sB s := by
  refine Keeps.peel (v := [.lanes]) ?_ hw
  unfold setLane
  repeat' first
    | simp (disch := first | decide | exact Or.inl (by decide) | exact Or.inr rfl) only [keeps_self, keeps_ite,
          keeps_mk, ite_self]
    | split

theorem modLane_keeps {n : Nat} {f : Lane → Lane} {s : State} {wB : List Area} {sB : State} (hw : subB [.lanes] wB =
    true) :
    Keeps wB sB (modLane n f s) ↔ Keeps wB sB s := by
  refine Keeps.peel (v := [.lanes]) ?_ hw
  unfold modLane
  repeat' first
    | simp (disch := first | decide | exact Or.inl (by decide) | exact Or.inr rfl) only [keeps_self, keeps_ite,
          keeps_mk, ite_self, setLane_keeps]
    | split

theorem countLane_keeps {n k v : Nat} {s : State} {wB : List Area} {sB : State} (hw : subB [.host, .lanes, .out] wB =
    true) :
    Keeps wB sB (countLane n k v s) ↔ Keeps wB sB s := by
  refine Keeps.peel (v := [.host, .lanes, .out]) ?_ hw
  unfold countLane
  repeat' first
    | simp (disch := first | decide | exact Or.inl (by decide) | exact Or.inr rfl) only [keeps_self, keeps_ite,
          keeps_mk, ite_self, setLane_keeps, msix_keeps]
    | split

theorem setTrunk_keeps {t : Nat} {x : ClientTrunk} {s : State} {wB : List Area} {sB : State} (hw : subB [.fab] wB =
    true) :
    Keeps wB sB (setTrunk t x s) ↔ Keeps wB sB s := by
  refine Keeps.peel (v := [.fab]) ?_ hw
  unfold setTrunk
  repeat' first
    | simp (disch := first | decide | exact Or.inl (by decide) | exact Or.inr rfl) only [keeps_self, keeps_ite,
          keeps_mk, ite_self]
    | split

theorem sendDatagram_keeps {t addr udp : Nat} {payload : Bytes} {completes : Option (Nat × Nat)} {s : State} {wB :
    List Area} {sB : State} (hw : subB [.lanes, .fab, .draws] wB = true) :
    Keeps wB sB (sendDatagram t addr udp payload completes s) ↔ Keeps wB sB s := by
  refine Keeps.peel (v := [.lanes, .fab, .draws]) ?_ hw
  unfold sendDatagram
  repeat' first
    | simp (disch := first | decide | exact Or.inl (by decide) | exact Or.inr rfl) only [keeps_self, keeps_ite,
          keeps_mk, ite_self, drawn_keeps, setTrunk_keeps, setLane_keeps]
    | split

theorem sendClient_keeps {t addr udp kind : Nat} {final : Bool} {session seq wordB : Nat} {body : Bytes} {completes :
    Option (Nat × Nat)} {s : State} {wB : List Area} {sB : State} (hw : subB [.lanes, .fab, .draws] wB = true) :
    Keeps wB sB (sendClient t addr udp kind final session seq wordB body completes s) ↔ Keeps wB sB s := by
  refine Keeps.peel (v := [.lanes, .fab, .draws]) ?_ hw
  unfold sendClient
  repeat' first
    | simp (disch := first | decide | exact Or.inl (by decide) | exact Or.inr rfl) only [keeps_self, keeps_ite,
          keeps_mk, ite_self, sendDatagram_keeps]
    | split

theorem sendData_keeps {t addr udp session seq m n off : Nat} {d : Bytes} {s : State} {wB : List Area} {sB : State}
    (hw : subB [.lanes, .fab, .draws] wB = true) :
    Keeps wB sB (sendData t addr udp session seq m n off d s) ↔ Keeps wB sB s := by
  refine Keeps.peel (v := [.lanes, .fab, .draws]) ?_ hw
  induction n generalizing off d s with
  | zero => exact Keeps.refl _ _
  | succ k ih =>
    unfold sendData
    split
    · exact Keeps.refl _ _
    · refine Keeps.trans ?_ ih
      simp (disch := first | decide | exact Or.inl (by decide) | exact Or.inr rfl) only [keeps_self, sendClient_keeps]

theorem queueFrame_keeps {n : Nat} {b : Bytes} {s : State} {wB : List Area} {sB : State} (hw : subB [.lanes] wB =
    true) :
    Keeps wB sB (queueFrame n b s) ↔ Keeps wB sB s := by
  refine Keeps.peel (v := [.lanes]) ?_ hw
  unfold queueFrame
  repeat' first
    | simp (disch := first | decide | exact Or.inl (by decide) | exact Or.inr rfl) only [keeps_self, keeps_ite,
          keeps_mk, ite_self, modLane_keeps]
    | split

end Sys2Proof.Machine
end

