-- ==== Sys2Proof/Laws/FrameWire.lean ====
section
/-! SUPPORT. What each operation of Machine/Wire.lean may change: `f_keeps` takes `f` off the end of a chain of operations
whenever the areas it may change are among those allowed. -/

set_option linter.all false

namespace Sys2Proof.Machine

open Sys2Proof

theorem countSent_keeps {n : Nat} {f : TxFrame} {b : Bytes} {s : State} {wB : List Area} {sB : State} (hw : subB
    [.host, .lanes, .out] wB = true) :
    Keeps wB sB (countSent n f b s) ↔ Keeps wB sB s := by
  refine Keeps.peel (v := [.host, .lanes, .out]) ?_ hw
  unfold countSent
  repeat' first
    | simp (disch := first | decide | exact Or.inl (by decide) | exact Or.inr rfl) only [keeps_self, keeps_ite,
          keeps_mk, ite_self, countLane_keeps]
    | split

theorem wakeLane_keeps {n : Nat} {s : State} {wB : List Area} {sB : State} (hw : subB [.lanes] wB = true) :
    Keeps wB sB (wakeLane n s) ↔ Keeps wB sB s := by
  refine Keeps.peel (v := [.lanes]) ?_ hw
  unfold wakeLane
  repeat' first
    | simp (disch := first | decide | exact Or.inl (by decide) | exact Or.inr rfl) only [keeps_self, keeps_ite,
          keeps_mk, ite_self, modLane_keeps]
    | split

theorem sendLink_keeps {n kind word : Nat} {payload : Bytes} {s : State} {wB : List Area} {sB : State} (hw : subB
    [.host, .lanes, .out] wB = true) :
    Keeps wB sB (sendLink n kind word payload s) ↔ Keeps wB sB s := by
  refine Keeps.peel (v := [.host, .lanes, .out]) ?_ hw
  unfold sendLink
  repeat' first
    | simp (disch := first | decide | exact Or.inl (by decide) | exact Or.inr rfl) only [keeps_self, keeps_ite,
          keeps_mk, ite_self, wakeLane_keeps, countSent_keeps, emit_keeps]
    | with_reducible refine keeps_getD (fun _ _ => ?_) ?_
    | split

theorem creditFrame_keeps {n nextExp : Nat} {nak : Bool} {counts : List Nat} {s : State} {wB : List Area} {sB :
    State} (hw : subB [.host, .lanes, .out] wB = true) :
    Keeps wB sB (creditFrame n nextExp nak counts s) ↔ Keeps wB sB s := by
  refine Keeps.peel (v := [.host, .lanes, .out]) ?_ hw
  unfold creditFrame
  repeat' first
    | simp (disch := first | decide | exact Or.inl (by decide) | exact Or.inr rfl) only [keeps_self, keeps_ite,
          keeps_mk, ite_self, sendLink_keeps]
    | split

theorem revokeFrame_keeps {n lane final : Nat} {ack : Bool} {s : State} {wB : List Area} {sB : State} (hw : subB
    [.host, .lanes, .out] wB = true) :
    Keeps wB sB (revokeFrame n lane final ack s) ↔ Keeps wB sB s := by
  refine Keeps.peel (v := [.host, .lanes, .out]) ?_ hw
  unfold revokeFrame
  repeat' first
    | simp (disch := first | decide | exact Or.inl (by decide) | exact Or.inr rfl) only [keeps_self, keeps_ite,
          keeps_mk, ite_self, sendLink_keeps]
    | split

theorem helloFrame_keeps {n : Nat} {s : State} {wB : List Area} {sB : State} (hw : subB [.host, .lanes, .out] wB =
    true) :
    Keeps wB sB (helloFrame n s) ↔ Keeps wB sB s := by
  refine Keeps.peel (v := [.host, .lanes, .out]) ?_ hw
  unfold helloFrame
  repeat' first
    | simp (disch := first | decide | exact Or.inl (by decide) | exact Or.inr rfl) only [keeps_self, keeps_ite,
          keeps_mk, ite_self, sendLink_keeps]
    | split

theorem timeFrame_keeps {n : Nat} {m : TimeMsg} {s : State} {wB : List Area} {sB : State} (hw : subB [.host, .lanes,
    .out] wB = true) :
    Keeps wB sB (timeFrame n m s) ↔ Keeps wB sB s := by
  refine Keeps.peel (v := [.host, .lanes, .out]) ?_ hw
  unfold timeFrame
  repeat' first
    | simp (disch := first | decide | exact Or.inl (by decide) | exact Or.inr rfl) only [keeps_self, keeps_ite,
          keeps_mk, ite_self, sendLink_keeps]
    | split

theorem sendCredit_keeps {n : Nat} {nak : Bool} {s : State} {wB : List Area} {sB : State} (hw : subB [.host, .lanes,
    .out] wB = true) :
    Keeps wB sB (sendCredit n nak s) ↔ Keeps wB sB s := by
  refine Keeps.peel (v := [.host, .lanes, .out]) ?_ hw
  unfold sendCredit
  repeat' first
    | simp (disch := first | decide | exact Or.inl (by decide) | exact Or.inr rfl) only [keeps_self, keeps_ite,
          keeps_mk, ite_self, creditFrame_keeps, setLane_keeps]
    | split

theorem freeCells_keeps {n c k : Nat} {s : State} {wB : List Area} {sB : State} (hw : subB [.host, .lanes, .out] wB =
    true) :
    Keeps wB sB (freeCells n c k s) ↔ Keeps wB sB s := by
  refine Keeps.peel (v := [.host, .lanes, .out]) ?_ hw
  unfold freeCells
  repeat' first
    | simp (disch := first | decide | exact Or.inl (by decide) | exact Or.inr rfl) only [keeps_self, keeps_ite,
          keeps_mk, ite_self, sendCredit_keeps, setLane_keeps]
    | split

theorem frameGone_keeps {f : TxFrame} {s : State} {wB : List Area} {sB : State} (hw : subB [.host, .lanes, .out] wB =
    true) :
    Keeps wB sB (frameGone f s) ↔ Keeps wB sB s := by
  refine Keeps.peel (v := [.host, .lanes, .out]) ?_ hw
  unfold frameGone
  repeat' first
    | simp (disch := first | decide | exact Or.inl (by decide) | exact Or.inr rfl) only [keeps_self, keeps_ite,
          keeps_mk, ite_self, freeCells_keeps]
    | split

theorem dropHop_keeps {f : TxFrame} {s : State} {wB : List Area} {sB : State} (hw : subB [.host, .lanes, .fabc, .out]
    wB = true) :
    Keeps wB sB (dropHop f s) ↔ Keeps wB sB s := by
  refine Keeps.peel (v := [.host, .lanes, .fabc, .out]) ?_ hw
  unfold dropHop
  repeat' first
    | simp (disch := first | decide | exact Or.inl (by decide) | exact Or.inr rfl) only [keeps_self, keeps_ite,
          keeps_mk, ite_self, frameGone_keeps]
    | split

theorem queueTo_keeps {node : Nat} {f : TxFrame} {s : State} {wB : List Area} {sB : State} (hw : subB [.host, .lanes,
    .fabc, .out] wB = true) :
    Keeps wB sB (queueTo node f s) ↔ Keeps wB sB s := by
  refine Keeps.peel (v := [.host, .lanes, .fabc, .out]) ?_ hw
  unfold queueTo
  repeat' first
    | simp (disch := first | decide | exact Or.inl (by decide) | exact Or.inr rfl) only [keeps_self, keeps_ite,
          keeps_mk, ite_self, dropHop_keeps, modLane_keeps]
    | split

theorem queueAlternate_keeps {f : TxFrame} {s : State} {wB : List Area} {sB : State} (hw : subB [.host, .lanes,
    .fabc, .out] wB = true) :
    Keeps wB sB (queueAlternate f s) ↔ Keeps wB sB s := by
  refine Keeps.peel (v := [.host, .lanes, .fabc, .out]) ?_ hw
  unfold queueAlternate
  repeat' first
    | simp (disch := first | decide | exact Or.inl (by decide) | exact Or.inr rfl) only [keeps_self, keeps_ite,
          keeps_mk, ite_self, dropHop_keeps, queueTo_keeps]
    | split

theorem sendOwn_keeps {kind dst session seq word : Nat} {payload : Bytes} {bounded : Bool} {s : State} {wB : List
    Area} {sB : State} (hw : subB [.host, .lanes, .fab, .fabc, .out] wB = true) :
    Keeps wB sB (sendOwn kind dst session seq word payload bounded s) ↔ Keeps wB sB s := by
  refine Keeps.peel (v := [.host, .lanes, .fab, .fabc, .out]) ?_ hw
  unfold sendOwn
  repeat' first
    | simp (disch := first | decide | exact Or.inl (by decide) | exact Or.inr rfl) only [keeps_self, keeps_ite,
          keeps_mk, ite_self, dropHop_keeps, queueTo_keeps]
    | split

theorem sendMessage_keeps {kind dst session seq word : Nat} {payload : Bytes} {bounded : Bool} {s : State} {wB : List
    Area} {sB : State} (hw : subB [.host, .lanes, .fab, .fabc, .out] wB = true) :
    Keeps wB sB (sendMessage kind dst session seq word payload bounded s) ↔ Keeps wB sB s := by
  refine Keeps.peel (v := [.host, .lanes, .fab, .fabc, .out]) ?_ hw
  unfold sendMessage
  repeat' first
    | simp (disch := first | decide | exact Or.inl (by decide) | exact Or.inr rfl) only [keeps_self, keeps_ite,
          keeps_mk, ite_self, sendOwn_keeps]
    | with_reducible refine keeps_each (fun _ _ => ?_) ?_
    | split

theorem routeFrame_keeps {node src : Nat} {x : NodeInfo} {s : State} {wB : List Area} {sB : State} (hw : subB [.host,
    .lanes, .fabc, .out] wB = true) :
    Keeps wB sB (routeFrame node src x s) ↔ Keeps wB sB s := by
  refine Keeps.peel (v := [.host, .lanes, .fabc, .out]) ?_ hw
  unfold routeFrame
  repeat' first
    | simp (disch := first | decide | exact Or.inl (by decide) | exact Or.inr rfl) only [keeps_self, keeps_ite,
          keeps_mk, ite_self, queueTo_keeps]
    | split

theorem passRoute_keeps {src : Nat} {x : NodeInfo} {s : State} {wB : List Area} {sB : State} (hw : subB [.host,
    .lanes, .fabc, .out] wB = true) :
    Keeps wB sB (passRoute src x s) ↔ Keeps wB sB s := by
  refine Keeps.peel (v := [.host, .lanes, .fabc, .out]) ?_ hw
  unfold passRoute
  repeat' first
    | simp (disch := first | decide | exact Or.inl (by decide) | exact Or.inr rfl) only [keeps_self, keeps_ite,
          keeps_mk, ite_self, routeFrame_keeps]
    | with_reducible refine keeps_each (fun _ _ => ?_) ?_
    | split

end Sys2Proof.Machine
end

