-- ==== Sys2Proof/Laws/FrameJournal.lean ====
section
/-! SUPPORT. What each operation of Machine/Journal.lean may change: `f_keeps` takes `f` off the end of a chain of operations
whenever the areas it may change are among those allowed. -/

set_option linter.all false

namespace Sys2Proof.Machine

open Sys2Proof

theorem modSess_keeps {id : Nat} {f : Session → Session} {s : State} {wB : List Area} {sB : State} (hw : subB
    [.sessions] wB = true) :
    Keeps wB sB (modSess id f s) ↔ Keeps wB sB s := by
  refine Keeps.peel (v := [.sessions]) ?_ hw
  unfold modSess
  repeat' first
    | simp (disch := first | decide | exact Or.inl (by decide) | exact Or.inr rfl) only [keeps_self, keeps_ite,
          keeps_mk, ite_self]
    | split

theorem modFlight_keeps {id seq : Nat} {g : InFlight → InFlight} {s : State} {wB : List Area} {sB : State} (hw : subB
    [.dlr] wB = true) :
    Keeps wB sB (modFlight id seq g s) ↔ Keeps wB sB s := by
  refine Keeps.peel (v := [.dlr]) ?_ hw
  unfold modFlight
  repeat' first
    | simp (disch := first | decide | exact Or.inl (by decide) | exact Or.inr rfl) only [keeps_self, keeps_ite,
          keeps_mk, ite_self]
    | split

theorem takeStamp_keeps {s : State} {wB : List Area} {sB : State} (hw : subB [.clk] wB = true) :
    Keeps wB sB (takeStamp s) ↔ Keeps wB sB s := by
  refine Keeps.peel (v := [.clk]) ?_ hw
  unfold takeStamp
  repeat' first
    | simp (disch := first | decide | exact Or.inl (by decide) | exact Or.inr rfl) only [keeps_self, keeps_ite,
          keeps_mk, ite_self]
    | split

theorem ringWrite_keeps {e : RingEntry} {s : State} {wB : List Area} {sB : State} (hw : subB [.jnl] wB = true) :
    Keeps wB sB (ringWrite e s) ↔ Keeps wB sB s := by
  refine Keeps.peel (v := [.jnl]) ?_ hw
  unfold ringWrite
  repeat' first
    | simp (disch := first | decide | exact Or.inl (by decide) | exact Or.inr rfl) only [keeps_self, keeps_ite,
          keeps_mk, ite_self]
    | split

theorem ringMod_keeps {id seq : Nat} {g : RingEntry → RingEntry} {s : State} {wB : List Area} {sB : State} (hw : subB
    [.jnl] wB = true) :
    Keeps wB sB (ringMod id seq g s) ↔ Keeps wB sB s := by
  refine Keeps.peel (v := [.jnl]) ?_ hw
  unfold ringMod
  repeat' first
    | simp (disch := first | decide | exact Or.inl (by decide) | exact Or.inr rfl) only [keeps_self, keeps_ite,
          keeps_mk, ite_self]
    | split

theorem storeSet_keeps {id seq : Nat} {r : Outcome} {s : State} {wB : List Area} {sB : State} (hw : subB [.sessions]
    wB = true) :
    Keeps wB sB (storeSet id seq r s) ↔ Keeps wB sB s := by
  refine Keeps.peel (v := [.sessions]) ?_ hw
  unfold storeSet
  repeat' first
    | simp (disch := first | decide | exact Or.inl (by decide) | exact Or.inr rfl) only [keeps_self, keeps_ite,
          keeps_mk, ite_self, modSess_keeps]
    | split

theorem setDelivered_keeps {id seq : Nat} {s : State} {wB : List Area} {sB : State} (hw : subB [.jnl, .sessions] wB =
    true) :
    Keeps wB sB (setDelivered id seq s) ↔ Keeps wB sB s := by
  refine Keeps.peel (v := [.jnl, .sessions]) ?_ hw
  unfold setDelivered
  repeat' first
    | simp (disch := first | decide | exact Or.inl (by decide) | exact Or.inr rfl) only [keeps_self, keeps_ite,
          keeps_mk, ite_self, storeSet_keeps, ringMod_keeps]
    | split

theorem setCtx_keeps {c : Nat} {x : Ctx} {s : State} {wB : List Area} {sB : State} (hw : subB [.host] wB = true) :
    Keeps wB sB (setCtx c x s) ↔ Keeps wB sB s := by
  refine Keeps.peel (v := [.host]) ?_ hw
  unfold setCtx
  repeat' first
    | simp (disch := first | decide | exact Or.inl (by decide) | exact Or.inr rfl) only [keeps_self, keeps_ite,
          keeps_mk, ite_self]
    | split

theorem setQueue_keeps {c : Nat} {q : Queue} {s : State} {wB : List Area} {sB : State} (hw : subB [.host] wB = true) :
    Keeps wB sB (setQueue c q s) ↔ Keeps wB sB s := by
  refine Keeps.peel (v := [.host]) ?_ hw
  unfold setQueue
  repeat' first
    | simp (disch := first | decide | exact Or.inl (by decide) | exact Or.inr rfl) only [keeps_self, keeps_ite,
          keeps_mk, ite_self, setCtx_keeps]
    | split

theorem signalQueue_keeps {c : Nat} {s : State} {wB : List Area} {sB : State} (hw : subB [.host, .out] wB = true) :
    Keeps wB sB (signalQueue c s) ↔ Keeps wB sB s := by
  refine Keeps.peel (v := [.host, .out]) ?_ hw
  unfold signalQueue
  repeat' first
    | simp (disch := first | decide | exact Or.inl (by decide) | exact Or.inr rfl) only [keeps_self, keeps_ite,
          keeps_mk, ite_self, setQueue_keeps, msix_keeps]
    | split

theorem fillBuffers_keeps {port : Nat} {relaxed : Bool} {l : List Descriptor} {b : Bytes} {s : State} {wB : List
    Area} {sB : State} (hw : subB [.out] wB = true) :
    Keeps wB sB (fillBuffers port relaxed l b s) ↔ Keeps wB sB s := by
  refine Keeps.peel (v := [.out]) ?_ hw
  induction l generalizing b s with
  | nil => exact Keeps.refl _ _
  | cons d l ih =>
    unfold fillBuffers
    split
    · exact Keeps.refl _ _
    · refine Keeps.trans ?_ ih
      simp (disch := first | decide | exact Or.inl (by decide) | exact Or.inr rfl) only [keeps_self, emit_keeps]

theorem sendHostData_keeps {port : Nat} {c : Completion} {s : State} {wB : List Area} {sB : State} (hw : subB [.out]
    wB = true) :
    Keeps wB sB (sendHostData port c s) ↔ Keeps wB sB s := by
  refine Keeps.peel (v := [.out]) ?_ hw
  unfold sendHostData
  repeat' first
    | simp (disch := first | decide | exact Or.inl (by decide) | exact Or.inr rfl) only [keeps_self, keeps_ite,
          keeps_mk, ite_self, fillBuffers_keeps]
    | split

theorem writeCq_keeps {c : Nat} {q : Queue} {e : Completion} {s : State} {wB : List Area} {sB : State} (hw : subB
    [.jnl, .sessions, .host, .out] wB = true) :
    Keeps wB sB (writeCq c q e s) ↔ Keeps wB sB s := by
  refine Keeps.peel (v := [.jnl, .sessions, .host, .out]) ?_ hw
  unfold writeCq
  repeat' first
    | simp (disch := first | decide | exact Or.inl (by decide) | exact Or.inr rfl) only [keeps_self, keeps_ite,
          keeps_mk, ite_self, setQueue_keeps, signalQueue_keeps, sendHostData_keeps, emit_keeps, setDelivered_keeps]
    | split

theorem postClient_keeps {x : Session} {e : Completion} {own : Bool} {s : State} {wB : List Area} {sB : State} (hw :
    subB [.lanes, .fab, .draws] wB = true) :
    Keeps wB sB (postClient x e own s) ↔ Keeps wB sB s := by
  refine Keeps.peel (v := [.lanes, .fab, .draws]) ?_ hw
  unfold postClient
  repeat' first
    | simp (disch := first | decide | exact Or.inl (by decide) | exact Or.inr rfl) only [keeps_self, keeps_ite,
          keeps_mk, ite_self, sendData_keeps, sendClient_keeps]
    | split

theorem post_keeps {e : Completion} {own : Bool} {s : State} {wB : List Area} {sB : State} (hw : subB [.jnl,
    .sessions, .host, .lanes, .fab, .out, .draws] wB = true) :
    Keeps wB sB (post e own s) ↔ Keeps wB sB s := by
  refine Keeps.peel (v := [.jnl, .sessions, .host, .lanes, .fab, .out, .draws]) ?_ hw
  unfold post
  repeat' first
    | simp (disch := first | decide | exact Or.inl (by decide) | exact Or.inr rfl) only [keeps_self, keeps_ite,
          keeps_mk, ite_self, setQueue_keeps, sendHostData_keeps, postClient_keeps, modSess_keeps, writeCq_keeps]
    | split

theorem postHeld_keeps {c n : Nat} {s : State} {wB : List Area} {sB : State} (hw : subB [.jnl, .sessions, .host,
    .out] wB = true) :
    Keeps wB sB (postHeld c n s) ↔ Keeps wB sB s := by
  refine Keeps.peel (v := [.jnl, .sessions, .host, .out]) ?_ hw
  induction n generalizing s with
  | zero => exact Keeps.refl _ _
  | succ k ih =>
    unfold postHeld
    repeat' first
      | exact Keeps.refl _ _
      | (refine Keeps.trans ?_ ih; simp (disch := first | decide | exact Or.inl (by decide) | exact Or.inr rfl) only
            [keeps_self, writeCq_keeps, setQueue_keeps]; done)
      | split
      | dsimp only

theorem freeOverlap_keeps {id seq : Nat} {s : State} {wB : List Area} {sB : State} (hw : subB [.dlr] wB = true) :
    Keeps wB sB (freeOverlap id seq s) ↔ Keeps wB sB s := by
  refine Keeps.peel (v := [.dlr]) ?_ hw
  unfold freeOverlap
  repeat' first
    | simp (disch := first | decide | exact Or.inl (by decide) | exact Or.inr rfl) only [keeps_self, keeps_ite,
          keeps_mk, ite_self]
    | split

theorem ringDone_keeps {f : InFlight} {p : Plan} {s : State} {wB : List Area} {sB : State} (hw : subB [.jnl] wB =
    true) :
    Keeps wB sB (ringDone f p s) ↔ Keeps wB sB s := by
  refine Keeps.peel (v := [.jnl]) ?_ hw
  unfold ringDone
  repeat' first
    | simp (disch := first | decide | exact Or.inl (by decide) | exact Or.inr rfl) only [keeps_self, keeps_ite,
          keeps_mk, ite_self, ringWrite_keeps, ringMod_keeps]
    | split

theorem keepSent_keeps {e : Completion} {s : State} {wB : List Area} {sB : State} (hw : subB [.sessions] wB = true) :
    Keeps wB sB (keepSent e s) ↔ Keeps wB sB s := by
  refine Keeps.peel (v := [.sessions]) ?_ hw
  unfold keepSent
  repeat' first
    | simp (disch := first | decide | exact Or.inl (by decide) | exact Or.inr rfl) only [keeps_self, keeps_ite,
          keeps_mk, ite_self, modSess_keeps]
    | split

theorem recordOutcome_keeps {f : InFlight} {plan : Plan} {s : State} {wB : List Area} {sB : State} (hw : subB [.dlr,
    .jnl, .sessions, .ante, .host, .lanes, .fab, .out, .draws] wB = true) :
    Keeps wB sB (recordOutcome f plan s) ↔ Keeps wB sB s := by
  refine Keeps.peel (v := [.dlr, .jnl, .sessions, .ante, .host, .lanes, .fab, .out, .draws]) ?_ hw
  unfold recordOutcome
  repeat' first
    | simp (disch := first | decide | exact Or.inl (by decide) | exact Or.inr rfl) only [keeps_self, keeps_ite,
          keeps_mk, ite_self, keepSent_keeps, storeSet_keeps, releaseResv_keeps, post_keeps, ringDone_keeps,
          freeOverlap_keeps]
    | split

theorem accept_keeps {f : InFlight} {digest : Nat} {s : State} {wB : List Area} {sB : State} (hw : subB [.dlr, .jnl,
    .sessions] wB = true) :
    Keeps wB sB (accept f digest s) ↔ Keeps wB sB s := by
  refine Keeps.peel (v := [.dlr, .jnl, .sessions]) ?_ hw
  unfold accept
  repeat' first
    | simp (disch := first | decide | exact Or.inl (by decide) | exact Or.inr rfl) only [keeps_self, keeps_ite,
          keeps_mk, ite_self, modSess_keeps, ringWrite_keeps]
    | split

theorem answer_keeps {id seq status stamp orig : Nat} {s : State} {wB : List Area} {sB : State} (hw : subB [.jnl,
    .sessions, .host, .lanes, .fab, .out, .draws] wB = true) :
    Keeps wB sB (answer id seq status stamp orig s) ↔ Keeps wB sB s := by
  refine Keeps.peel (v := [.jnl, .sessions, .host, .lanes, .fab, .out, .draws]) ?_ hw
  unfold answer
  repeat' first
    | simp (disch := first | decide | exact Or.inl (by decide) | exact Or.inr rfl) only [keeps_self, keeps_ite,
          keeps_mk, ite_self, post_keeps]
    | split

theorem answerDuplicate_keeps {id seq : Nat} {s : State} {wB : List Area} {sB : State} (hw : subB [.dlr, .jnl,
    .sessions, .host, .lanes, .fab, .out, .draws] wB = true) :
    Keeps wB sB (answerDuplicate id seq s) ↔ Keeps wB sB s := by
  refine Keeps.peel (v := [.dlr, .jnl, .sessions, .host, .lanes, .fab, .out, .draws]) ?_ hw
  unfold answerDuplicate
  repeat' first
    | simp (disch := first | decide | exact Or.inl (by decide) | exact Or.inr rfl) only [keeps_self, keeps_ite,
          keeps_mk, ite_self, answer_keeps]
    | split

theorem refuseHost_keeps {id seq cls status time : Nat} {s : State} {wB : List Area} {sB : State} (hw : subB [.dlr,
    .jnl, .sessions, .host, .lanes, .fab, .out, .draws] wB = true) :
    Keeps wB sB (refuseHost id seq cls status time s) ↔ Keeps wB sB s := by
  refine Keeps.peel (v := [.dlr, .jnl, .sessions, .host, .lanes, .fab, .out, .draws]) ?_ hw
  unfold refuseHost
  repeat' first
    | simp (disch := first | decide | exact Or.inl (by decide) | exact Or.inr rfl) only [keeps_self, keeps_ite,
          keeps_mk, ite_self, storeSet_keeps, post_keeps]
    | split

theorem execPostHeldCompletion_keeps (ctx : Nat) (s : State) : KeepsR [.jnl, .sessions, .host, .out] s
    (execPostHeldCompletion ctx s) := by
  unfold execPostHeldCompletion
  repeat' first
    | simp (disch := first | decide | exact Or.inl (by decide) | exact Or.inr rfl) only [keeps_self, keeps_ite,
          keeps_mk, ite_self, keepsR_next, keepsR_fault, keepsR_refused, keepsR_ite, postHeld_keeps, guard,
          whenRunning]
    | split

theorem execCoalesceTimerExpiry_keeps (ctx : Nat) (s : State) : KeepsR [.host, .out] s (execCoalesceTimerExpiry ctx
    s) := by
  unfold execCoalesceTimerExpiry
  repeat' first
    | simp (disch := first | decide | exact Or.inl (by decide) | exact Or.inr rfl) only [keeps_self, keeps_ite,
          keeps_mk, ite_self, keepsR_next, keepsR_fault, keepsR_refused, keepsR_ite, setQueue_keeps, guard,
          whenRunning, msix_keeps]
    | split

end Sys2Proof.Machine
end

