-- ==== Sys2Proof/Laws/FrameProtect.lean ====
section
/-! SUPPORT. What each operation of Machine/Protect.lean may change: `f_keeps` takes `f` off the end of a chain of operations
whenever the areas it may change are among those allowed. -/

set_option linter.all false

namespace Sys2Proof.Machine

open Sys2Proof

theorem setLink_keeps {node : Nat} {x : PeerLink} {s : State} {wB : List Area} {sB : State} (hw : subB [.fab] wB =
    true) :
    Keeps wB sB (setLink node x s) ↔ Keeps wB sB s := by
  refine Keeps.peel (v := [.fab]) ?_ hw
  unfold setLink
  repeat' first
    | simp (disch := first | decide | exact Or.inl (by decide) | exact Or.inr rfl) only [keeps_self, keeps_ite,
          keeps_mk, ite_self]
    | split

theorem openPeer_keeps {node : Nat} {s : State} {wB : List Area} {sB : State} (hw : subB [.host, .lanes, .fab, .fabc,
    .out] wB = true) :
    Keeps wB sB (openPeer node s) ↔ Keeps wB sB s := by
  refine Keeps.peel (v := [.host, .lanes, .fab, .fabc, .out]) ?_ hw
  unfold openPeer
  repeat' first
    | simp (disch := first | decide | exact Or.inl (by decide) | exact Or.inr rfl) only [keeps_self, keeps_ite,
          keeps_mk, ite_self, sendOwn_keeps]
    | split

theorem dataFrame_keeps {node session wanted : Nat} {r : Request} {s : State} {wB : List Area} {sB : State} (hw :
    subB [.host, .lanes, .fab, .fabc, .out] wB = true) :
    Keeps wB sB (dataFrame node session wanted r s) ↔ Keeps wB sB s := by
  refine Keeps.peel (v := [.host, .lanes, .fab, .fabc, .out]) ?_ hw
  unfold dataFrame
  repeat' first
    | simp (disch := first | decide | exact Or.inl (by decide) | exact Or.inr rfl) only [keeps_self, keeps_ite,
          keeps_mk, ite_self, sendMessage_keeps]
    | split

theorem launch_keeps {node : Nat} {x : PeerLink} {r : Request} {s : State} {wB : List Area} {sB : State} (hw : subB
    [.host, .lanes, .fab, .fabc, .out] wB = true) :
    Keeps wB sB (launch node x r s) ↔ Keeps wB sB s := by
  refine Keeps.peel (v := [.host, .lanes, .fab, .fabc, .out]) ?_ hw
  unfold launch
  repeat' first
    | simp (disch := first | decide | exact Or.inl (by decide) | exact Or.inr rfl) only [keeps_self, keeps_ite,
          keeps_mk, ite_self, setLink_keeps, dataFrame_keeps]
    | split

theorem sendRequest_keeps {node : Nat} {r : Request} {s : State} {wB : List Area} {sB : State} (hw : subB [.host,
    .lanes, .fab, .fabc, .out] wB = true) :
    Keeps wB sB (sendRequest node r s) ↔ Keeps wB sB s := by
  refine Keeps.peel (v := [.host, .lanes, .fab, .fabc, .out]) ?_ hw
  unfold sendRequest
  repeat' first
    | simp (disch := first | decide | exact Or.inl (by decide) | exact Or.inr rfl) only [keeps_self, keeps_ite,
          keeps_mk, ite_self, launch_keeps, openPeer_keeps]
    | split

theorem drainUnsent_keeps {node n : Nat} {s : State} {wB : List Area} {sB : State} (hw : subB [.host, .lanes, .fab,
    .fabc, .out] wB = true) :
    Keeps wB sB (drainUnsent node n s) ↔ Keeps wB sB s := by
  refine Keeps.peel (v := [.host, .lanes, .fab, .fabc, .out]) ?_ hw
  induction n generalizing s with
  | zero => exact Keeps.refl _ _
  | succ k ih =>
    unfold drainUnsent
    repeat' first
      | exact Keeps.refl _ _
      | (refine Keeps.trans ?_ ih; simp (disch := first | decide | exact Or.inl (by decide) | exact Or.inr rfl) only
            [keeps_self, keeps_mk, launch_keeps]; done)
      | split

theorem drainPeer_keeps {node : Nat} {s : State} {wB : List Area} {sB : State} (hw : subB [.host, .lanes, .fab,
    .fabc, .out] wB = true) :
    Keeps wB sB (drainPeer node s) ↔ Keeps wB sB s := by
  refine Keeps.peel (v := [.host, .lanes, .fab, .fabc, .out]) ?_ hw
  unfold drainPeer
  repeat' first
    | simp (disch := first | decide | exact Or.inl (by decide) | exact Or.inr rfl) only [keeps_self, keeps_ite,
          keeps_mk, ite_self, drainUnsent_keeps]
    | split

theorem leadAnswer_keeps {ns d crc : Nat} {write : Bool} {src until_ : Nat} {s : State} {aB : OrderAnswer} {uB :
    State} {wB : List Area} {sB : State} (h : leadAnswer ns d crc write src until_ s = (uB, aB)) (hw : subB [.fab] wB
    = true) :
    Keeps wB sB uB ↔ Keeps wB sB s := by
  refine Keeps.peel (v := [.fab]) ?_ hw
  unfold leadAnswer at h
  repeat' first
    | cases h
    | split at h
    | dsimp only at h
  all_goals repeat' first
    | simp (disch := first | decide | exact Or.inl (by decide) | exact Or.inr rfl) only [keeps_self, keeps_ite,
          keeps_mk, ite_self]
    | split

theorem leadAnswer_keeps1 {ns d crc : Nat} {write : Bool} {src until_ : Nat} {s : State} {wB : List Area} {sB :
    State} (hw : subB [.fab] wB = true) :
    Keeps wB sB (leadAnswer ns d crc write src until_ s).1 ↔ Keeps wB sB s := leadAnswer_keeps rfl hw

theorem endOrder_keeps {ns d : Nat} {s : State} {wB : List Area} {sB : State} (hw : subB [.fab] wB = true) :
    Keeps wB sB (endOrder ns d s) ↔ Keeps wB sB s := by
  refine Keeps.peel (v := [.fab]) ?_ hw
  unfold endOrder
  repeat' first
    | simp (disch := first | decide | exact Or.inl (by decide) | exact Or.inr rfl) only [keeps_self, keeps_ite,
          keeps_mk, ite_self]
    | split

theorem orderFrame_keeps {lead request ns d crc : Nat} {write : Bool} {until_ : Nat} {s : State} {wB : List Area} {sB
    : State} (hw : subB [.host, .lanes, .fab, .fabc, .out] wB = true) :
    Keeps wB sB (orderFrame lead request ns d crc write until_ s) ↔ Keeps wB sB s := by
  refine Keeps.peel (v := [.host, .lanes, .fab, .fabc, .out]) ?_ hw
  unfold orderFrame
  repeat' first
    | simp (disch := first | decide | exact Or.inl (by decide) | exact Or.inr rfl) only [keeps_self, keeps_ite,
          keeps_mk, ite_self, sendOwn_keeps]
    | split

theorem askOrder_keeps {id seq ns d until_ : Nat} {write : Bool} {s : State} {wB : List Area} {sB : State} (hw : subB
    [.host, .lanes, .fab, .fabc, .out] wB = true) :
    Keeps wB sB (askOrder id seq ns d until_ write s) ↔ Keeps wB sB s := by
  refine Keeps.peel (v := [.host, .lanes, .fab, .fabc, .out]) ?_ hw
  unfold askOrder
  repeat' first
    | simp (disch := first | decide | exact Or.inl (by decide) | exact Or.inr rfl) only [keeps_self, keeps_ite,
          keeps_mk, ite_self, leadAnswer_keeps1, orderFrame_keeps]
    | with_reducible refine (leadAnswer_keeps (by assumption) (by decide)).mpr ?_
    | split

theorem dropOrder_keeps {id seq : Nat} {s : State} {wB : List Area} {sB : State} (hw : subB [.host, .lanes, .fab,
    .fabc, .out] wB = true) :
    Keeps wB sB (dropOrder id seq s) ↔ Keeps wB sB s := by
  refine Keeps.peel (v := [.host, .lanes, .fab, .fabc, .out]) ?_ hw
  unfold dropOrder
  repeat' first
    | simp (disch := first | decide | exact Or.inl (by decide) | exact Or.inr rfl) only [keeps_self, keeps_ite,
          keeps_mk, ite_self, orderFrame_keeps, endOrder_keeps]
    | split

theorem takeOrder_keeps {id seq : Nat} {s : State} {wB : List Area} {sB : State} (hw : subB [.fab] wB = true) :
    Keeps wB sB (takeOrder id seq s) ↔ Keeps wB sB s := by
  refine Keeps.peel (v := [.fab]) ?_ hw
  unfold takeOrder
  repeat' first
    | simp (disch := first | decide | exact Or.inl (by decide) | exact Or.inr rfl) only [keeps_self, keeps_ite,
          keeps_mk, ite_self]
    | split

end Sys2Proof.Machine
end

