-- ==== Sys2Proof/Laws/FrameCosting.lean ====
section
/-! SUPPORT. What each operation of Machine/Costing.lean may change: `f_keeps` takes `f` off the end of a chain of operations
whenever the areas it may change are among those allowed. -/

set_option linter.all false

namespace Sys2Proof.Machine

open Sys2Proof

theorem rowStages_keeps {stream : Nat} {tomb : Bool} {set : Option Nat} {units : Nat} {s : State} {aB bB : Nat} {cB :
    List Cost} {uB : State} {wB : List Area} {sB : State} (h : rowStages stream tomb set units s = some (aB, bB, uB,
    cB)) (hw : subB [.ante, .med] wB = true) :
    Keeps wB sB uB ↔ Keeps wB sB s := by
  refine Keeps.peel (v := [.ante, .med]) ?_ hw
  unfold rowStages at h
  repeat' first
    | cases h
    | split at h
    | dsimp only at h
  all_goals repeat' first
    | simp (disch := first | decide | exact Or.inl (by decide) | exact Or.inr rfl) only [keeps_self, keeps_ite,
          keeps_mk, ite_self]
    | with_reducible refine (meldFor_keeps (by assumption) (by decide)).mpr ?_
    | split

theorem rowTaken_keeps {n units : Nat} {s : State} {wB : List Area} {sB : State} (hw : subB [.med] wB = true) :
    Keeps wB sB (rowTaken n units s) ↔ Keeps wB sB s := by
  refine Keeps.peel (v := [.med]) ?_ hw
  unfold rowTaken
  repeat' first
    | simp (disch := first | decide | exact Or.inl (by decide) | exact Or.inr rfl) only [keeps_self, keeps_ite,
          keeps_mk, ite_self, setMeld_keeps]
    | split

theorem billWrite_keeps {x : Session} {j : Job} {set : Option Nat} {fast : Bool} {record suit : Nat} {pre : List Nat}
    {moved : Nat} {s : State} {aB : Bill} {uB : State} {wB : List Area} {sB : State} (h : billWrite x j set fast
    record suit pre moved s = (aB, uB)) (hw : subB [.ante, .med] wB = true) :
    Keeps wB sB uB ↔ Keeps wB sB s := by
  refine Keeps.peel (v := [.ante, .med]) ?_ hw
  unfold billWrite at h
  repeat' first
    | cases h
    | split at h
    | dsimp only at h
  all_goals repeat' first
    | simp (disch := first | decide | exact Or.inl (by decide) | exact Or.inr rfl) only [keeps_self, keeps_ite,
          keeps_mk, ite_self, rowTaken_keeps]
    | with_reducible refine (rowStages_keeps (by assumption) (by decide)).mpr ?_
    | split

theorem billWrite_keeps1 {x : Session} {j : Job} {set : Option Nat} {fast : Bool} {record suit : Nat} {pre : List
    Nat} {moved : Nat} {s : State} {wB : List Area} {sB : State} (hw : subB [.ante, .med] wB = true) :
    Keeps wB sB (billWrite x j set fast record suit pre moved s).2 ↔ Keeps wB sB s := billWrite_keeps rfl hw

theorem billGuarded_keeps {x : Session} {j : Job} {set : Option Nat} {s : State} {aB : Bill} {uB : State} {wB : List
    Area} {sB : State} (h : billGuarded x j set s = (aB, uB)) (hw : subB [.ante, .med] wB = true) :
    Keeps wB sB uB ↔ Keeps wB sB s := by
  refine Keeps.peel (v := [.ante, .med]) ?_ hw
  unfold billGuarded at h
  repeat' first
    | cases h
    | split at h
    | dsimp only at h
  all_goals repeat' first
    | simp (disch := first | decide | exact Or.inl (by decide) | exact Or.inr rfl) only [keeps_self, keeps_ite,
          keeps_mk, ite_self, billWrite_keeps1]
    | with_reducible refine (billWrite_keeps (by assumption) (by decide)).mpr ?_
    | split

theorem billGuarded_keeps1 {x : Session} {j : Job} {set : Option Nat} {s : State} {wB : List Area} {sB : State} (hw :
    subB [.ante, .med] wB = true) :
    Keeps wB sB (billGuarded x j set s).2 ↔ Keeps wB sB s := billGuarded_keeps rfl hw

theorem billPlain_keeps {x : Session} {j : Job} {set : Option Nat} {fast : Bool} {found : Option Found} {s : State}
    {aB : Bill} {uB : State} {wB : List Area} {sB : State} (h : billPlain x j set fast found s = (aB, uB)) (hw : subB
    [.ante, .med] wB = true) :
    Keeps wB sB uB ↔ Keeps wB sB s := by
  refine Keeps.peel (v := [.ante, .med]) ?_ hw
  unfold billPlain at h
  repeat' first
    | cases h
    | split at h
    | dsimp only at h
  all_goals repeat' first
    | simp (disch := first | decide | exact Or.inl (by decide) | exact Or.inr rfl) only [keeps_self, keeps_ite,
          keeps_mk, ite_self, billWrite_keeps1]
    | with_reducible refine (billWrite_keeps (by assumption) (by decide)).mpr ?_
    | split

theorem billPlain_keeps1 {x : Session} {j : Job} {set : Option Nat} {fast : Bool} {found : Option Found} {s : State}
    {wB : List Area} {sB : State} (hw : subB [.ante, .med] wB = true) :
    Keeps wB sB (billPlain x j set fast found s).2 ↔ Keeps wB sB s := billPlain_keeps rfl hw

theorem billOf_keeps {x : Session} {j : Job} {set : Option Nat} {s : State} {aB : Bill} {uB : State} {wB : List Area}
    {sB : State} (h : billOf x j set s = (aB, uB)) (hw : subB [.ante, .med] wB = true) :
    Keeps wB sB uB ↔ Keeps wB sB s := by
  refine Keeps.peel (v := [.ante, .med]) ?_ hw
  unfold billOf at h
  repeat' first
    | cases h
    | split at h
    | dsimp only at h
  all_goals repeat' first
    | simp (disch := first | decide | exact Or.inl (by decide) | exact Or.inr rfl) only [keeps_self, keeps_ite,
          keeps_mk, ite_self, billPlain_keeps1, billGuarded_keeps1]
    | with_reducible refine (billPlain_keeps (by assumption) (by decide)).mpr ?_
    | with_reducible refine (billGuarded_keeps (by assumption) (by decide)).mpr ?_
    | split

theorem billOf_keeps1 {x : Session} {j : Job} {set : Option Nat} {s : State} {wB : List Area} {sB : State} (hw : subB
    [.ante, .med] wB = true) :
    Keeps wB sB (billOf x j set s).2 ↔ Keeps wB sB s := billOf_keeps rfl hw

end Sys2Proof.Machine
end

