-- ==== Sys2Proof/Laws/FrameDealer.lean ====
section
/-! SUPPORT. What each operation of Machine/Dealer.lean may change: `f_keeps` takes `f` off the end of a chain of operations
whenever the areas it may change are among those allowed. -/

set_option linter.all false

namespace Sys2Proof.Machine

open Sys2Proof

theorem makeDebits_keeps {who : Owner} {tomb : Bool} {l : List (Nat × Nat × Nat)} {s uB : State} {wB : List Area} {sB
    : State}
    (h : makeDebits who tomb l s = .ok uB) (hw : subB [.ante] wB = true) : Keeps wB sB uB ↔ Keeps wB sB s := by
  refine Keeps.peel (v := [.ante]) ?_ hw
  induction l generalizing s with
  | nil => cases h; exact Keeps.refl _ _
  | cons a t ih =>
    obtain ⟨stream, cost, bytes⟩ := a
    unfold makeDebits at h
    dsimp only at h
    generalize poolSet _ _ _ = x at h
    cases x with
    | none => cases h
    | some k =>
      refine Keeps.trans ?_ (ih h)
      simp (disch := first | decide | exact Or.inl (by decide) | exact Or.inr rfl) only [keeps_self, debit_keeps]

theorem debitAll_keeps {l : List (Job × Bill)} {s uB : State} {wB : List Area} {sB : State}
    (h : debitAll l s = .ok uB) (hw : subB [.ante] wB = true) : Keeps wB sB uB ↔ Keeps wB sB s := by
  refine Keeps.peel (v := [.ante]) ?_ hw
  induction l generalizing s with
  | nil => cases h; exact Keeps.refl _ _
  | cons a t ih =>
    obtain ⟨j, b⟩ := a
    unfold debitAll at h
    generalize e : makeDebits _ _ _ _ = x at h
    cases x with
    | error => cases h
    | ok s1 => exact Keeps.trans ((makeDebits_keeps e (by decide)).mpr (Keeps.refl _ _)) (ih h)

theorem dropArrived_keeps {id : Nat} {seqs : List Nat} {s : State} {wB : List Area} {sB : State} (hw : subB [.dlr] wB
    = true) :
    Keeps wB sB (dropArrived id seqs s) ↔ Keeps wB sB s := by
  refine Keeps.peel (v := [.dlr]) ?_ hw
  unfold dropArrived
  repeat' first
    | simp (disch := first | decide | exact Or.inl (by decide) | exact Or.inr rfl) only [keeps_self, keeps_ite,
          keeps_mk, ite_self]
    | split

theorem refuseOne_keeps {id : Nat} {x : Session} {a : Arrived} {st time : Nat} {s : State} {wB : List Area} {sB :
    State} (hw : subB [.dlr, .jnl, .sessions, .host, .lanes, .fab, .out, .draws] wB = true) :
    Keeps wB sB (refuseOne id x a st time s) ↔ Keeps wB sB s := by
  refine Keeps.peel (v := [.dlr, .jnl, .sessions, .host, .lanes, .fab, .out, .draws]) ?_ hw
  unfold refuseOne
  repeat' first
    | simp (disch := first | decide | exact Or.inl (by decide) | exact Or.inr rfl) only [keeps_self, keeps_ite,
          keeps_mk, ite_self, refuseHost_keeps, answer_keeps]
    | split

theorem refuseHeld_keeps {id : Nat} {x : Session} {st time : Nat} {s : State} {wB : List Area} {sB : State} (hw :
    subB [.dlr, .jnl, .sessions, .host, .lanes, .fab, .out, .draws] wB = true) :
    Keeps wB sB (refuseHeld id x st time s) ↔ Keeps wB sB s := by
  refine Keeps.peel (v := [.dlr, .jnl, .sessions, .host, .lanes, .fab, .out, .draws]) ?_ hw
  unfold refuseHeld
  repeat' first
    | simp (disch := first | decide | exact Or.inl (by decide) | exact Or.inr rfl) only [keeps_self, keeps_ite,
          keeps_mk, ite_self, refuseOne_keeps, modSess_keeps, dropArrived_keeps]
    | with_reducible refine keeps_each (fun _ _ => ?_) ?_
    | split

theorem refuseStep_keeps {id : Nat} {x : Session} {items : List Arrived} {st time : Nat} {carrier : Nat} {s : State}
    {wB : List Area} {sB : State} (hw : subB [.dlr, .jnl, .sessions, .host, .lanes, .fab, .fabc, .out, .draws] wB =
    true) :
    Keeps wB sB (refuseStep id x items st time carrier s) ↔ Keeps wB sB s := by
  refine Keeps.peel (v := [.dlr, .jnl, .sessions, .host, .lanes, .fab, .fabc, .out, .draws]) ?_ hw
  unfold refuseStep
  repeat' first
    | simp (disch := first | decide | exact Or.inl (by decide) | exact Or.inr rfl) only [keeps_self, keeps_ite,
          keeps_mk, ite_self, refuseOne_keeps, dropArrived_keeps, dropOrder_keeps, refuseHeld_keeps]
    | with_reducible refine keeps_each (fun _ _ => ?_) ?_
    | split

theorem placeMedium_keeps {n : Nat} {r : Record} {owner : Nat × Nat} {s : State} {wB : List Area} {sB : State} (hw :
    subB [.ante, .med] wB = true) :
    Keeps wB sB (placeMedium n r owner s) ↔ Keeps wB sB s := by
  refine Keeps.peel (v := [.ante, .med]) ?_ hw
  unfold placeMedium
  repeat' first
    | simp (disch := first | decide | exact Or.inl (by decide) | exact Or.inr rfl) only [keeps_self, keeps_ite,
          keeps_mk, ite_self, setMeld_keeps, undebit_keeps]
    | with_reducible refine keeps_each (fun _ _ => ?_) ?_
    | with_reducible refine keeps_getD (fun _ _ => ?_) ?_
    | split

theorem placeRow_keeps {set : Option Nat} {f : InFlight} {digest units suit kind : Nat} {s : State} {wB : List Area}
    {sB : State} (hw : subB [.dlr, .ante, .med] wB = true) :
    Keeps wB sB (placeRow set f digest units suit kind s) ↔ Keeps wB sB s := by
  refine Keeps.peel (v := [.dlr, .ante, .med]) ?_ hw
  unfold placeRow
  repeat' first
    | simp (disch := first | decide | exact Or.inl (by decide) | exact Or.inr rfl) only [keeps_self, keeps_ite,
          keeps_mk, ite_self, placeMedium_keeps, modFlight_keeps]
    | with_reducible refine (meldFor_keeps (by assumption) (by decide)).mpr ?_
    | split

theorem enterOverlap_keeps {f : InFlight} {j : Job} {s : State} {wB : List Area} {sB : State} (hw : subB [.dlr] wB =
    true) :
    Keeps wB sB (enterOverlap f j s) ↔ Keeps wB sB s := by
  refine Keeps.peel (v := [.dlr]) ?_ hw
  unfold enterOverlap
  repeat' first
    | simp (disch := first | decide | exact Or.inl (by decide) | exact Or.inr rfl) only [keeps_self, keeps_ite,
          keeps_mk, ite_self]
    | split

theorem countWrite_keeps {j : Job} {s : State} {wB : List Area} {sB : State} (hw : subB [.nss] wB = true) :
    Keeps wB sB (countWrite j s) ↔ Keeps wB sB s := by
  refine Keeps.peel (v := [.nss]) ?_ hw
  unfold countWrite
  repeat' first
    | simp (disch := first | decide | exact Or.inl (by decide) | exact Or.inr rfl) only [keeps_self, keeps_ite,
          keeps_mk, ite_self, setNs_keeps]
    | split

theorem placeMediumRow_keeps {set : Option Nat} {f : InFlight} {j : Job} {b : Bill} {mine : Bool} {s : State} {wB :
    List Area} {sB : State} (hw : subB [.dlr, .ante, .med] wB = true) :
    Keeps wB sB (placeMediumRow set f j b mine s) ↔ Keeps wB sB s := by
  refine Keeps.peel (v := [.dlr, .ante, .med]) ?_ hw
  unfold placeMediumRow
  repeat' first
    | simp (disch := first | decide | exact Or.inl (by decide) | exact Or.inr rfl) only [keeps_self, keeps_ite,
          keeps_mk, ite_self, placeRow_keeps]
    | split

theorem takeStage_keeps {j : Job} {s : State} {wB : List Area} {sB : State} (hw : subB [.fab] wB = true) :
    Keeps wB sB (takeStage j s) ↔ Keeps wB sB s := by
  refine Keeps.peel (v := [.fab]) ?_ hw
  unfold takeStage
  repeat' first
    | simp (disch := first | decide | exact Or.inl (by decide) | exact Or.inr rfl) only [keeps_self, keeps_ite,
          keeps_mk, ite_self]
    | split

theorem acceptOne_keeps {cls bound : Nat} {set : Option Nat} {wait : Bool} {p : Job × Bill} {s : State} {wB : List
    Area} {sB : State} (hw : subB [.clk, .dlr, .jnl, .sessions, .nss, .ante, .fab, .med, .draws] wB = true) :
    Keeps wB sB (acceptOne cls bound set wait p s) ↔ Keeps wB sB s := by
  refine Keeps.peel (v := [.clk, .dlr, .jnl, .sessions, .nss, .ante, .fab, .med, .draws]) ?_ hw
  unfold acceptOne
  repeat' first
    | simp (disch := first | decide | exact Or.inl (by decide) | exact Or.inr rfl) only [keeps_self, keeps_ite,
          keeps_mk, ite_self, takeStamp_keeps, enterOverlap_keeps, accept_keeps, takeStage_keeps, drawn_keeps,
          placeMediumRow_keeps, countWrite_keeps, takeOrder_keeps]
    | split

theorem acceptStep_keeps {id cls bound : Nat} {set : Option Nat} {wait : Bool} {l : List (Job × Bill)} {seqs : List
    Nat} {s : State} {wB : List Area} {sB : State} (hw : subB [.clk, .dlr, .jnl, .sessions, .nss, .ante, .fab, .med,
    .pwr, .draws] wB = true) :
    Keeps wB sB (acceptStep id cls bound set wait l seqs s) ↔ Keeps wB sB s := by
  refine Keeps.peel (v := [.clk, .dlr, .jnl, .sessions, .nss, .ante, .fab, .med, .pwr, .draws]) ?_ hw
  unfold acceptStep
  repeat' first
    | simp (disch := first | decide | exact Or.inl (by decide) | exact Or.inr rfl) only [keeps_self, keeps_ite,
          keeps_mk, ite_self, kittyReserve_keeps, acceptOne_keeps, modSess_keeps, dropArrived_keeps]
    | with_reducible refine (debitAll_keeps (by assumption) (by decide)).mpr ?_
    | with_reducible refine keeps_each (fun _ _ => ?_) ?_
    | with_reducible refine keeps_getD (fun _ _ => ?_) ?_
    | split

theorem touchCtx_keeps {c : Nat} {s : State} {wB : List Area} {sB : State} (hw : subB [.dlr, .host] wB = true) :
    Keeps wB sB (touchCtx c s) ↔ Keeps wB sB s := by
  refine Keeps.peel (v := [.dlr, .host]) ?_ hw
  unfold touchCtx
  repeat' first
    | simp (disch := first | decide | exact Or.inl (by decide) | exact Or.inr rfl) only [keeps_self, keeps_ite,
          keeps_mk, ite_self]
    | split

theorem anteStep_keeps {id : Nat} {x : Session} {items : List Arrived} {h : Job} {members : List Job} {s : State} {wB
    : List Area} {sB : State} (hw : subB [.clk, .dlr, .jnl, .sessions, .nss, .ante, .host, .lanes, .fab, .fabc, .med,
    .pwr, .out, .draws] wB = true) :
    Keeps wB sB (anteStep id x items h members s) ↔ Keeps wB sB s := by
  refine Keeps.peel (v := [.clk, .dlr, .jnl, .sessions, .nss, .ante, .host, .lanes, .fab, .fabc, .med, .pwr, .out,
      .draws]) ?_ hw
  unfold anteStep
  repeat' first
    | simp (disch := first | decide | exact Or.inl (by decide) | exact Or.inr rfl) only [keeps_self, keeps_ite,
          keeps_mk, ite_self, withoutGrant_keeps, startExit_keeps, acceptStep_keeps, countRequest_keeps,
          refuseRetry_keeps, refuseStep_keeps, decideShape_keeps1]
    | with_reducible refine (decideShape_keeps (by assumption) (by decide)).mpr ?_
    | with_reducible refine keeps_foldl (fun _ _ => ?_) ?_
    | with_reducible refine keeps_getD (fun _ _ => ?_) ?_
    | split

theorem askOrders_keeps {cls bound : Nat} {l : List Job} {s : State} {wB : List Area} {sB : State} (hw : subB [.host,
    .lanes, .fab, .fabc, .out] wB = true) :
    Keeps wB sB (askOrders cls bound l s) ↔ Keeps wB sB s := by
  refine Keeps.peel (v := [.host, .lanes, .fab, .fabc, .out]) ?_ hw
  unfold askOrders
  repeat' first
    | simp (disch := first | decide | exact Or.inl (by decide) | exact Or.inr rfl) only [keeps_self, keeps_ite,
          keeps_mk, ite_self, askOrder_keeps]
    | with_reducible refine keeps_each (fun _ _ => ?_) ?_
    | split

theorem admitOrdered_keeps {id : Nat} {x : Session} {items : List Arrived} {h : Job} {members : List Job} {cls : Nat}
    {jobs : List Job} {s : State} {wB : List Area} {sB : State} (hw : subB [.clk, .dlr, .jnl, .sessions, .nss, .ante,
    .host, .lanes, .fab, .fabc, .med, .pwr, .evr, .out, .draws] wB = true) :
    Keeps wB sB (admitOrdered id x items h members cls jobs s) ↔ Keeps wB sB s := by
  refine Keeps.peel (v := [.clk, .dlr, .jnl, .sessions, .nss, .ante, .host, .lanes, .fab, .fabc, .med, .pwr, .evr,
      .out, .draws]) ?_ hw
  unfold admitOrdered
  repeat' first
    | simp (disch := first | decide | exact Or.inl (by decide) | exact Or.inr rfl) only [keeps_self, keeps_ite,
          keeps_mk, ite_self, askOrders_keeps, anteStep_keeps, event_keeps, refuseRetry_keeps, refuseStep_keeps]
    | split

theorem admitPeers_keeps {id : Nat} {x : Session} {items : List Arrived} {h : Job} {members : List Job} {trial : Bill
    × List Bill} {seq cls : Nat} {jobs : List Job} {s : State} {wB : List Area} {sB : State} (hw : subB [.clk, .dlr,
    .jnl, .sessions, .nss, .ante, .host, .lanes, .fab, .fabc, .med, .pwr, .evr, .out, .draws] wB = true) :
    Keeps wB sB (admitPeers id x items h members trial seq cls jobs s) ↔ Keeps wB sB s := by
  refine Keeps.peel (v := [.clk, .dlr, .jnl, .sessions, .nss, .ante, .host, .lanes, .fab, .fabc, .med, .pwr, .evr,
      .out, .draws]) ?_ hw
  unfold admitPeers
  repeat' first
    | simp (disch := first | decide | exact Or.inl (by decide) | exact Or.inr rfl) only [keeps_self, keeps_ite,
          keeps_mk, ite_self, refuseNever_keeps, admitOrdered_keeps, startExit_keeps, openPeer_keeps,
          countRequest_keeps, refuseRetry_keeps, refuseStep_keeps]
    | with_reducible refine keeps_each (fun _ _ => ?_) ?_
    | split

theorem admitItems_keeps {id : Nat} {x : Session} {items : List Arrived} {s0 : State} {wB : List Area} {sB : State}
    (hw : subB [.clk, .dlr, .jnl, .sessions, .nss, .ante, .host, .lanes, .fab, .fabc, .cam, .med, .pwr, .evr, .out,
    .draws] wB = true) :
    Keeps wB sB (admitItems id x items s0) ↔ Keeps wB sB s0 := by
  refine Keeps.peel (v := [.clk, .dlr, .jnl, .sessions, .nss, .ante, .host, .lanes, .fab, .fabc, .cam, .med, .pwr,
      .evr, .out, .draws]) ?_ hw
  unfold admitItems
  repeat' first
    | simp (disch := first | decide | exact Or.inl (by decide) | exact Or.inr rfl) only [keeps_self, keeps_ite,
          keeps_mk, ite_self, touchCtx_keeps, admitPeers_keeps, countClassify_keeps, refuseStep_keeps]
    | with_reducible refine keeps_each (fun _ _ => ?_) ?_
    | split

theorem execAdmissionStep_keeps (session : Nat) (s : State) : KeepsR [.clk, .dlr, .jnl, .sessions, .nss, .ante,
    .host, .lanes, .fab, .fabc, .cam, .med, .pwr, .evr, .out, .draws] s (execAdmissionStep session s) := by
  unfold execAdmissionStep
  repeat' first
    | simp (disch := first | decide | exact Or.inl (by decide) | exact Or.inr rfl) only [keeps_self, keeps_ite,
          keeps_mk, ite_self, keepsR_next, keepsR_fault, keepsR_refused, keepsR_ite, admitItems_keeps,
          countStall_keeps, guard, whenRunning]
    | split

theorem execHeldSequenceRelease_keeps (session : Nat) (s : State) : KeepsR [.dlr] s (execHeldSequenceRelease session
    s) := by
  unfold execHeldSequenceRelease
  repeat' first
    | simp (disch := first | decide | exact Or.inl (by decide) | exact Or.inr rfl) only [keeps_self, keeps_ite,
          keeps_mk, ite_self, keepsR_next, keepsR_fault, keepsR_refused, keepsR_ite, whenRunning]
    | split

theorem execHoldLimitExpiry_keeps (session seq : Nat) (s : State) : KeepsR [.dlr, .fab] s (execHoldLimitExpiry
    session seq s) := by
  unfold execHoldLimitExpiry
  repeat' first
    | simp (disch := first | decide | exact Or.inl (by decide) | exact Or.inr rfl) only [keeps_self, keeps_ite,
          keeps_mk, ite_self, keepsR_next, keepsR_fault, keepsR_refused, keepsR_ite, guard, dropArrived_keeps,
          whenRunning]
    | split

theorem execOverlapRelease_keeps (session seq : Nat) (s : State) : KeepsR [.dlr] s (execOverlapRelease session seq s)
    := by
  unfold execOverlapRelease
  repeat' first
    | simp (disch := first | decide | exact Or.inl (by decide) | exact Or.inr rfl) only [keeps_self, keeps_ite,
          keeps_mk, ite_self, keepsR_next, keepsR_fault, keepsR_refused, keepsR_ite, modFlight_keeps, whenRunning]
    | with_reducible refine keeps_each (fun _ _ => ?_) ?_
    | split

end Sys2Proof.Machine
end

