-- ==== Sys2Proof/Laws/FrameStore.lean ====
section
/-! SUPPORT. What each operation of Machine/Store.lean may change: `f_keeps` takes `f` off the end of a chain of operations
whenever the areas it may change are among those allowed. -/

set_option linter.all false

namespace Sys2Proof.Machine

open Sys2Proof

theorem countCommit_keeps {s : State} {wB : List Area} {sB : State} (hw : subB [.commits] wB = true) :
    Keeps wB sB (countCommit s) ↔ Keeps wB sB s := by
  refine Keeps.peel (v := [.commits]) ?_ hw
  unfold countCommit
  repeat' first
    | simp (disch := first | decide | exact Or.inl (by decide) | exact Or.inr rfl) only [keeps_self, keeps_ite,
          keeps_mk, ite_self]
    | split

theorem countObject_keeps {ns : Nat} {old new : Option Nat} {s : State} {wB : List Area} {sB : State} (hw : subB
    [.nss] wB = true) :
    Keeps wB sB (countObject ns old new s) ↔ Keeps wB sB s := by
  refine Keeps.peel (v := [.nss]) ?_ hw
  unfold countObject
  repeat' first
    | simp (disch := first | decide | exact Or.inl (by decide) | exact Or.inr rfl) only [keeps_self, keeps_ite,
          keeps_mk, ite_self, setNs_keeps]
    | with_reducible refine keeps_getD (fun _ _ => ?_) ?_
    | split

theorem holdRecord_keeps {r : Record} {s : State} {aB : Nat} {uB : State} {wB : List Area} {sB : State} (h :
    holdRecord r s = (uB, aB)) (hw : subB [.mem] wB = true) :
    Keeps wB sB uB ↔ Keeps wB sB s := by
  refine Keeps.peel (v := [.mem]) ?_ hw
  unfold holdRecord at h
  repeat' first
    | cases h
    | split at h
    | dsimp only at h
  all_goals repeat' first
    | simp (disch := first | decide | exact Or.inl (by decide) | exact Or.inr rfl) only [keeps_self, keeps_ite,
          keeps_mk, ite_self]
    | split

theorem holdRecord_keeps1 {r : Record} {s : State} {wB : List Area} {sB : State} (hw : subB [.mem] wB = true) :
    Keeps wB sB (holdRecord r s).1 ↔ Keeps wB sB s := holdRecord_keeps rfl hw

theorem commitValue_keeps {r : Record} {at_ : Rest} {s : State} {wB : List Area} {sB : State} (hw : subB [.nss,
    .commits, .ante, .host, .idx, .med, .mem, .evr, .out] wB = true) :
    Keeps wB sB (commitValue r at_ s) ↔ Keeps wB sB s := by
  refine Keeps.peel (v := [.nss, .commits, .ante, .host, .idx, .med, .mem, .evr, .out]) ?_ hw
  unfold commitValue
  repeat' first
    | simp (disch := first | decide | exact Or.inl (by decide) | exact Or.inr rfl) only [keeps_self, keeps_ite,
          keeps_mk, ite_self, placeRecord_keeps, countCommit_keeps, indexPut_keeps, holdRecord_keeps1,
          countObject_keeps]
    | with_reducible refine (holdRecord_keeps (by assumption) (by decide)).mpr ?_
    | split

theorem placeTomb_keeps {r : Record} {at_ : Rest} {s : State} {wB : List Area} {sB : State} (hw : subB [.ante, .med,
    .mem] wB = true) :
    Keeps wB sB (placeTomb r at_ s) ↔ Keeps wB sB s := by
  refine Keeps.peel (v := [.ante, .med, .mem]) ?_ hw
  unfold placeTomb
  repeat' first
    | simp (disch := first | decide | exact Or.inl (by decide) | exact Or.inr rfl) only [keeps_self, keeps_ite,
          keeps_mk, ite_self, placeRecord_keeps, holdRecord_keeps1]
    | with_reducible refine (holdRecord_keeps (by assumption) (by decide)).mpr ?_
    | split

theorem countTomb_keeps {s : State} {wB : List Area} {sB : State} (hw : subB [.med] wB = true) :
    Keeps wB sB (countTomb s) ↔ Keeps wB sB s := by
  refine Keeps.peel (v := [.med]) ?_ hw
  unfold countTomb
  repeat' first
    | simp (disch := first | decide | exact Or.inl (by decide) | exact Or.inr rfl) only [keeps_self, keeps_ite,
          keeps_mk, ite_self]
    | split

theorem commitTomb_keeps {r : Record} {at_ : Rest} {s : State} {wB : List Area} {sB : State} (hw : subB [.nss,
    .commits, .ante, .idx, .med, .mem] wB = true) :
    Keeps wB sB (commitTomb r at_ s) ↔ Keeps wB sB s := by
  refine Keeps.peel (v := [.nss, .commits, .ante, .idx, .med, .mem]) ?_ hw
  unfold commitTomb
  repeat' first
    | simp (disch := first | decide | exact Or.inl (by decide) | exact Or.inr rfl) only [keeps_self, keeps_ite,
          keeps_mk, ite_self, countCommit_keeps, indexRemove_keeps, placeTomb_keeps, countObject_keeps,
          countTomb_keeps]
    | split

theorem commitRecord_keeps {r : Record} {at_ : Rest} {s : State} {wB : List Area} {sB : State} (hw : subB [.nss,
    .commits, .ante, .host, .idx, .med, .mem, .evr, .out] wB = true) :
    Keeps wB sB (commitRecord r at_ s) ↔ Keeps wB sB s := by
  refine Keeps.peel (v := [.nss, .commits, .ante, .host, .idx, .med, .mem, .evr, .out]) ?_ hw
  unfold commitRecord
  repeat' first
    | simp (disch := first | decide | exact Or.inl (by decide) | exact Or.inr rfl) only [keeps_self, keeps_ite,
          keeps_mk, ite_self, commitValue_keeps, commitTomb_keeps]
    | split

theorem commitHint_keeps {h : Hint} {s : State} {wB : List Area} {sB : State} (hw : subB [.ante, .med] wB = true) :
    Keeps wB sB (commitHint h s) ↔ Keeps wB sB s := by
  refine Keeps.peel (v := [.ante, .med]) ?_ hw
  unfold commitHint
  repeat' first
    | simp (disch := first | decide | exact Or.inl (by decide) | exact Or.inr rfl) only [keeps_self, keeps_ite,
          keeps_mk, ite_self, placeSystem_keeps]
    | split

theorem settleKitty_keeps {reserved used : Nat} {s : State} {wB : List Area} {sB : State} (hw : subB [.pwr] wB =
    true) :
    Keeps wB sB (settleKitty reserved used s) ↔ Keeps wB sB s := by
  refine Keeps.peel (v := [.pwr]) ?_ hw
  unfold settleKitty
  repeat' first
    | simp (disch := first | decide | exact Or.inl (by decide) | exact Or.inr rfl) only [keeps_self, keeps_ite,
          keeps_mk, ite_self, kittyExpose_keeps, kittyCancel_keeps]
    | split

end Sys2Proof.Machine
end

