-- ==== Sys2Proof/Laws/FrameCoord.lean ====
section
/-! SUPPORT. What each operation of Machine/Coord.lean may change: `f_keeps` takes `f` off the end of a chain of operations
whenever the areas it may change are among those allowed. -/

set_option linter.all false

namespace Sys2Proof.Machine

open Sys2Proof

theorem modProt_keeps {id seq : Nat} {g : Protect → Protect} {s : State} {wB : List Area} {sB : State} (hw : subB
    [.dlr] wB = true) :
    Keeps wB sB (modProt id seq g s) ↔ Keeps wB sB s := by
  refine Keeps.peel (v := [.dlr]) ?_ hw
  unfold modProt
  repeat' first
    | simp (disch := first | decide | exact Or.inl (by decide) | exact Or.inr rfl) only [keeps_self, keeps_ite,
          keeps_mk, ite_self, modFlight_keeps]
    | split

theorem startRead_keeps {f : InFlight} {p : Protect} {s : State} {wB : List Area} {sB : State} (hw : subB [.dlr,
    .host, .lanes, .fab, .fabc, .out] wB = true) :
    Keeps wB sB (startRead f p s) ↔ Keeps wB sB s := by
  refine Keeps.peel (v := [.dlr, .host, .lanes, .fab, .fabc, .out]) ?_ hw
  unfold startRead
  repeat' first
    | simp (disch := first | decide | exact Or.inl (by decide) | exact Or.inr rfl) only [keeps_self, keeps_ite,
          keeps_mk, ite_self, modFlight_keeps, sendRequest_keeps]
    | with_reducible refine keeps_each (fun _ _ => ?_) ?_
    | split

theorem recordHere_keeps {ns d : Nat} {t : Stamp} {ok : Bool} {version : Nat} {s : State} {wB : List Area} {sB :
    State} (hw : subB [.fab] wB = true) :
    Keeps wB sB (recordHere ns d t ok version s) ↔ Keeps wB sB s := by
  refine Keeps.peel (v := [.fab]) ?_ hw
  unfold recordHere
  repeat' first
    | simp (disch := first | decide | exact Or.inl (by decide) | exact Or.inr rfl) only [keeps_self, keeps_ite,
          keeps_mk, ite_self, endOrder_keeps]
    | split

theorem sendDecide_keeps {f : InFlight} {p : Protect} {ok : Bool} {l : List Nat} {s : State} {wB : List Area} {sB :
    State} (hw : subB [.dlr, .host, .lanes, .fab, .fabc, .out] wB = true) :
    Keeps wB sB (sendDecide f p ok l s) ↔ Keeps wB sB s := by
  refine Keeps.peel (v := [.dlr, .host, .lanes, .fab, .fabc, .out]) ?_ hw
  unfold sendDecide
  repeat' first
    | simp (disch := first | decide | exact Or.inl (by decide) | exact Or.inr rfl) only [keeps_self, keeps_ite,
          keeps_mk, ite_self, modProt_keeps, recordHere_keeps, sendRequest_keeps]
    | with_reducible refine keeps_each (fun _ _ => ?_) ?_
    | split

theorem decideNow_keeps {ok : Bool} {f : InFlight} {s : State} {wB : List Area} {sB : State} (hw : subB [.dlr, .host,
    .lanes, .fab, .fabc, .out] wB = true) :
    Keeps wB sB (decideNow ok f s) ↔ Keeps wB sB s := by
  refine Keeps.peel (v := [.dlr, .host, .lanes, .fab, .fabc, .out]) ?_ hw
  unfold decideNow
  repeat' first
    | simp (disch := first | decide | exact Or.inl (by decide) | exact Or.inr rfl) only [keeps_self, keeps_ite,
          keeps_mk, ite_self, modProt_keeps, sendDecide_keeps]
    | split

theorem abandonTrick_keeps {f : InFlight} {bad : Nat} {s : State} {wB : List Area} {sB : State} (hw : subB [.dlr] wB
    = true) :
    Keeps wB sB (abandonTrick f bad s) ↔ Keeps wB sB s := by
  refine Keeps.peel (v := [.dlr]) ?_ hw
  unfold abandonTrick
  repeat' first
    | simp (disch := first | decide | exact Or.inl (by decide) | exact Or.inr rfl) only [keeps_self, keeps_ite,
          keeps_mk, ite_self, modFlight_keeps]
    | with_reducible refine keeps_each (fun _ _ => ?_) ?_
    | split

theorem tryDecide_keeps {id seq : Nat} {s : State} {wB : List Area} {sB : State} (hw : subB [.dlr, .host, .lanes,
    .fab, .fabc, .out] wB = true) :
    Keeps wB sB (tryDecide id seq s) ↔ Keeps wB sB s := by
  refine Keeps.peel (v := [.dlr, .host, .lanes, .fab, .fabc, .out]) ?_ hw
  unfold tryDecide
  repeat' first
    | simp (disch := first | decide | exact Or.inl (by decide) | exact Or.inr rfl) only [keeps_self, keeps_ite,
          keeps_mk, ite_self, abandonTrick_keeps, decideNow_keeps]
    | with_reducible refine keeps_each (fun _ _ => ?_) ?_
    | split

theorem holdShards_keeps {f : InFlight} {p : Protect} {suit : Nat} {tomb : Bool} {value : Bytes} {s : State} {wB :
    List Area} {sB : State} (hw : subB [.dlr, .host, .lanes, .fab, .fabc, .out] wB = true) :
    Keeps wB sB (holdShards f p suit tomb value s) ↔ Keeps wB sB s := by
  refine Keeps.peel (v := [.dlr, .host, .lanes, .fab, .fabc, .out]) ?_ hw
  unfold holdShards
  repeat' first
    | simp (disch := first | decide | exact Or.inl (by decide) | exact Or.inr rfl) only [keeps_self, keeps_ite,
          keeps_mk, ite_self, tryDecide_keeps, modProt_keeps, sendRequest_keeps]
    | with_reducible refine keeps_each (fun _ _ => ?_) ?_
    | split

theorem returnOrder_keeps {f : InFlight} {p : Protect} {s : State} {wB : List Area} {sB : State} (hw : subB [.host,
    .lanes, .fab, .fabc, .out] wB = true) :
    Keeps wB sB (returnOrder f p s) ↔ Keeps wB sB s := by
  refine Keeps.peel (v := [.host, .lanes, .fab, .fabc, .out]) ?_ hw
  unfold returnOrder
  repeat' first
    | simp (disch := first | decide | exact Or.inl (by decide) | exact Or.inr rfl) only [keeps_self, keeps_ite,
          keeps_mk, ite_self, orderFrame_keeps, endOrder_keeps]
    | split

theorem tellHolders_keeps {f : InFlight} {p : Protect} {ok : Bool} {s : State} {wB : List Area} {sB : State} (hw :
    subB [.dlr, .host, .lanes, .fab, .fabc, .out] wB = true) :
    Keeps wB sB (tellHolders f p ok s) ↔ Keeps wB sB s := by
  refine Keeps.peel (v := [.dlr, .host, .lanes, .fab, .fabc, .out]) ?_ hw
  unfold tellHolders
  repeat' first
    | simp (disch := first | decide | exact Or.inl (by decide) | exact Or.inr rfl) only [keeps_self, keeps_ite,
          keeps_mk, ite_self, sendDecide_keeps, sendRequest_keeps]
    | with_reducible refine keeps_each (fun _ _ => ?_) ?_
    | split

end Sys2Proof.Machine
end

