-- ==== Sys2Proof/Laws/FrameKeyValue.lean ====
section
/-! SUPPORT. What each operation of Machine/KeyValue.lean may change: `f_keeps` takes `f` off the end of a chain of operations
whenever the areas it may change are among those allowed. -/

set_option linter.all false

namespace Sys2Proof.Machine

open Sys2Proof

theorem repairFailed_keeps {s0 : State} {f : InFlight} {s : State} {wB : List Area} {sB : State} (hw : subB [.med] wB
    = true) :
    Keeps wB sB (repairFailed s0 f s) ↔ Keeps wB sB s := by
  refine Keeps.peel (v := [.med]) ?_ hw
  unfold repairFailed
  generalize failsCheck s0 f = x
  cases x with
  | none => exact Keeps.refl _ _
  | some x =>
    dsimp only
    split
    · exact Keeps.refl _ _
    · exact keeps_each (fun _ _ => (codewordRepaired_keeps (by decide)).mpr (Keeps.refl _ _)) (Keeps.refl _ _)

theorem applyEffect_keeps {f : InFlight} {e : Effect} {s : State} {wB : List Area} {sB : State} (hw : subB [.nss,
    .commits, .ante, .host, .idx, .med, .mem, .pwr, .evr, .out] wB = true) :
    Keeps wB sB (applyEffect f e s) ↔ Keeps wB sB s := by
  refine Keeps.peel (v := [.nss, .commits, .ante, .host, .idx, .med, .mem, .pwr, .evr, .out]) ?_ hw
  unfold applyEffect
  repeat' first
    | simp (disch := first | decide | exact Or.inl (by decide) | exact Or.inr rfl) only [keeps_self, keeps_ite,
          keeps_mk, ite_self, settleKitty_keeps, commitRecord_keeps, commitHint_keeps, kittyCancel_keeps]
    | split

theorem noEffect_keeps {f : InFlight} {s : State} {wB : List Area} {sB : State} (hw : subB [.ante, .pwr] wB = true) :
    Keeps wB sB (noEffect f s) ↔ Keeps wB sB s := by
  refine Keeps.peel (v := [.ante, .pwr]) ?_ hw
  unfold noEffect
  repeat' first
    | simp (disch := first | decide | exact Or.inl (by decide) | exact Or.inr rfl) only [keeps_self, keeps_ite,
          keeps_mk, ite_self, undebit_keeps, kittyCancel_keeps]
    | split

theorem commitFlight_keeps {f : InFlight} {s : State} {wB : List Area} {sB : State} (hw : subB [.dlr, .jnl,
    .sessions, .nss, .commits, .ante, .host, .lanes, .fab, .fabc, .idx, .med, .mem, .pwr, .evr, .out, .draws] wB =
    true) :
    Keeps wB sB (commitFlight f s) ↔ Keeps wB sB s := by
  refine Keeps.peel (v := [.dlr, .jnl, .sessions, .nss, .commits, .ante, .host, .lanes, .fab, .fabc, .idx, .med,
      .mem, .pwr, .evr, .out, .draws]) ?_ hw
  unfold commitFlight
  repeat' first
    | simp (disch := first | decide | exact Or.inl (by decide) | exact Or.inr rfl) only [keeps_self, keeps_ite,
          keeps_mk, ite_self, applyEffect_keeps, recordOutcome_keeps, returnOrder_keeps, noEffect_keeps,
          tellHolders_keeps]
    | split

theorem commitGroup_keeps {f : InFlight} {s : State} {wB : List Area} {sB : State} (hw : subB [.dlr, .jnl, .sessions,
    .nss, .commits, .ante, .host, .lanes, .fab, .fabc, .idx, .med, .mem, .pwr, .evr, .out, .draws] wB = true) :
    Keeps wB sB (commitGroup f s) ↔ Keeps wB sB s := by
  refine Keeps.peel (v := [.dlr, .jnl, .sessions, .nss, .commits, .ante, .host, .lanes, .fab, .fabc, .idx, .med,
      .mem, .pwr, .evr, .out, .draws]) ?_ hw
  unfold commitGroup
  repeat' first
    | simp (disch := first | decide | exact Or.inl (by decide) | exact Or.inr rfl) only [keeps_self, keeps_ite,
          keeps_mk, ite_self, commitFlight_keeps]
    | with_reducible refine keeps_each (fun _ _ => ?_) ?_
    | split

theorem tryCommit_keeps {id seq : Nat} {s : State} {wB : List Area} {sB : State} (hw : subB [.dlr, .jnl, .sessions,
    .nss, .commits, .ante, .host, .lanes, .fab, .fabc, .idx, .med, .mem, .pwr, .evr, .out, .draws] wB = true) :
    Keeps wB sB (tryCommit id seq s) ↔ Keeps wB sB s := by
  refine Keeps.peel (v := [.dlr, .jnl, .sessions, .nss, .commits, .ante, .host, .lanes, .fab, .fabc, .idx, .med,
      .mem, .pwr, .evr, .out, .draws]) ?_ hw
  unfold tryCommit
  repeat' first
    | simp (disch := first | decide | exact Or.inl (by decide) | exact Or.inr rfl) only [keeps_self, keeps_ite,
          keeps_mk, ite_self, commitGroup_keeps]
    | split

theorem readTaken_keeps {f : InFlight} {s : State} {wB : List Area} {sB : State} (hw : subB [.dlr] wB = true) :
    Keeps wB sB (readTaken f s) ↔ Keeps wB sB s := by
  refine Keeps.peel (v := [.dlr]) ?_ hw
  unfold readTaken
  repeat' first
    | simp (disch := first | decide | exact Or.inl (by decide) | exact Or.inr rfl) only [keeps_self, keeps_ite,
          keeps_mk, ite_self, freeOverlap_keeps]
    | split

theorem setPlan_keeps {f : InFlight} {p : Plan} {s : State} {wB : List Area} {sB : State} (hw : subB [.dlr, .host,
    .lanes, .fab, .fabc, .out] wB = true) :
    Keeps wB sB (setPlan f p s) ↔ Keeps wB sB s := by
  refine Keeps.peel (v := [.dlr, .host, .lanes, .fab, .fabc, .out]) ?_ hw
  unfold setPlan
  repeat' first
    | simp (disch := first | decide | exact Or.inl (by decide) | exact Or.inr rfl) only [keeps_self, keeps_ite,
          keeps_mk, ite_self, holdShards_keeps, modFlight_keeps]
    | with_reducible refine keeps_getD (fun _ _ => ?_) ?_
    | split

theorem runKeyed_keeps {op session seq : Nat} {data : Option Bytes} {fault : Option Nat} {s : State} {wB : List Area}
    {sB : State} (hw : subB [.dlr, .host, .lanes, .fab, .fabc, .idx, .med, .out] wB = true) :
    Keeps wB sB (runKeyed op session seq data fault s) ↔ Keeps wB sB s := by
  refine Keeps.peel (v := [.dlr, .host, .lanes, .fab, .fabc, .idx, .med, .out]) ?_ hw
  unfold runKeyed
  repeat' first
    | simp (disch := first | decide | exact Or.inl (by decide) | exact Or.inr rfl) only [keeps_self, keeps_ite,
          keeps_mk, ite_self, readTaken_keeps, setPlan_keeps, repairFailed_keeps, startRead_keeps, countLookup_keeps]
    | split

theorem runTrick_keeps {session seq : Nat} {data : List (Option Bytes)} {faults : List (Option Nat)} {s : State} {wB
    : List Area} {sB : State} (hw : subB [.dlr, .host, .lanes, .fab, .fabc, .med, .out] wB = true) :
    Keeps wB sB (runTrick session seq data faults s) ↔ Keeps wB sB s := by
  refine Keeps.peel (v := [.dlr, .host, .lanes, .fab, .fabc, .med, .out]) ?_ hw
  unfold runTrick
  repeat' first
    | simp (disch := first | decide | exact Or.inl (by decide) | exact Or.inr rfl) only [keeps_self, keeps_ite,
          keeps_mk, ite_self, tryDecide_keeps, readTaken_keeps, modFlight_keeps, setPlan_keeps, repairFailed_keeps,
          startRead_keeps]
    | with_reducible refine keeps_each (fun _ _ => ?_) ?_
    | with_reducible refine keeps_getD (fun _ _ => ?_) ?_
    | split

theorem execGet_keeps (session seq : Nat) (fault : Option Nat) (s : State) : KeepsR [.dlr, .host, .lanes, .fab,
    .fabc, .idx, .med, .out] s (execGet session seq fault s) := by
  unfold execGet
  repeat' first
    | simp (disch := first | decide | exact Or.inl (by decide) | exact Or.inr rfl) only [keeps_self, keeps_ite,
          keeps_mk, ite_self, keepsR_next, keepsR_fault, keepsR_refused, keepsR_ite, runKeyed_keeps, whenRunning]
    | split

theorem execPut_keeps (session seq : Nat) (data : Option Bytes) (s : State) : KeepsR [.dlr, .host, .lanes, .fab,
    .fabc, .idx, .med, .out] s (execPut session seq data s) := by
  unfold execPut
  repeat' first
    | simp (disch := first | decide | exact Or.inl (by decide) | exact Or.inr rfl) only [keeps_self, keeps_ite,
          keeps_mk, ite_self, keepsR_next, keepsR_fault, keepsR_refused, keepsR_ite, runKeyed_keeps, whenRunning]
    | split

theorem execDelete_keeps (session seq : Nat) (s : State) : KeepsR [.dlr, .host, .lanes, .fab, .fabc, .idx, .med,
    .out] s (execDelete session seq s) := by
  unfold execDelete
  repeat' first
    | simp (disch := first | decide | exact Or.inl (by decide) | exact Or.inr rfl) only [keeps_self, keeps_ite,
          keeps_mk, ite_self, keepsR_next, keepsR_fault, keepsR_refused, keepsR_ite, runKeyed_keeps, whenRunning]
    | split

theorem execPutAt_keeps (session seq : Nat) (data : Option Bytes) (s : State) : KeepsR [.dlr, .host, .lanes, .fab,
    .fabc, .idx, .med, .out] s (execPutAt session seq data s) := by
  unfold execPutAt
  repeat' first
    | simp (disch := first | decide | exact Or.inl (by decide) | exact Or.inr rfl) only [keeps_self, keeps_ite,
          keeps_mk, ite_self, keepsR_next, keepsR_fault, keepsR_refused, keepsR_ite, runKeyed_keeps, whenRunning]
    | split

theorem execAppend_keeps (session seq : Nat) (data : Option Bytes) (s : State) : KeepsR [.dlr, .host, .lanes, .fab,
    .fabc, .idx, .med, .out] s (execAppend session seq data s) := by
  unfold execAppend
  repeat' first
    | simp (disch := first | decide | exact Or.inl (by decide) | exact Or.inr rfl) only [keeps_self, keeps_ite,
          keeps_mk, ite_self, keepsR_next, keepsR_fault, keepsR_refused, keepsR_ite, runKeyed_keeps, whenRunning]
    | split

theorem execExistsKey_keeps (session seq : Nat) (s : State) : KeepsR [.dlr, .host, .lanes, .fab, .fabc, .idx, .med,
    .out] s (execExistsKey session seq s) := by
  unfold execExistsKey
  repeat' first
    | simp (disch := first | decide | exact Or.inl (by decide) | exact Or.inr rfl) only [keeps_self, keeps_ite,
          keeps_mk, ite_self, keepsR_next, keepsR_fault, keepsR_refused, keepsR_ite, runKeyed_keeps, whenRunning]
    | split

theorem execCompareAndPut_keeps (session seq : Nat) (data : Option Bytes) (s : State) : KeepsR [.dlr, .host, .lanes,
    .fab, .fabc, .idx, .med, .out] s (execCompareAndPut session seq data s) := by
  unfold execCompareAndPut
  repeat' first
    | simp (disch := first | decide | exact Or.inl (by decide) | exact Or.inr rfl) only [keeps_self, keeps_ite,
          keeps_mk, ite_self, keepsR_next, keepsR_fault, keepsR_refused, keepsR_ite, runKeyed_keeps, whenRunning]
    | split

theorem execExpireHint_keeps (session seq : Nat) (s : State) : KeepsR [.dlr] s (execExpireHint session seq s) := by
  unfold execExpireHint
  repeat' first
    | simp (disch := first | decide | exact Or.inl (by decide) | exact Or.inr rfl) only [keeps_self, keeps_ite,
          keeps_mk, ite_self, keepsR_next, keepsR_fault, keepsR_refused, keepsR_ite, modFlight_keeps, whenRunning]
    | split

theorem execEnumerate_keeps (session seq : Nat) (fault : Option Nat) (s : State) : KeepsR [.dlr] s (execEnumerate
    session seq fault s) := by
  unfold execEnumerate
  repeat' first
    | simp (disch := first | decide | exact Or.inl (by decide) | exact Or.inr rfl) only [keeps_self, keeps_ite,
          keeps_mk, ite_self, keepsR_next, keepsR_fault, keepsR_refused, keepsR_ite, modFlight_keeps, whenRunning]
    | split

theorem execTrick_keeps (session seq : Nat) (data : List (Option Bytes)) (faults : List (Option Nat)) (s : State) :
    KeepsR [.dlr, .host, .lanes, .fab, .fabc, .med, .out] s (execTrick session seq data faults s) := by
  unfold execTrick
  repeat' first
    | simp (disch := first | decide | exact Or.inl (by decide) | exact Or.inr rfl) only [keeps_self, keeps_ite,
          keeps_mk, ite_self, keepsR_next, keepsR_fault, keepsR_refused, keepsR_ite, runTrick_keeps, whenRunning]
    | split

theorem execFlushSession_keeps (session seq : Nat) (s : State) : KeepsR [.dlr] s (execFlushSession session seq s) :=
    by
  unfold execFlushSession
  repeat' first
    | simp (disch := first | decide | exact Or.inl (by decide) | exact Or.inr rfl) only [keeps_self, keeps_ite,
          keeps_mk, ite_self, keepsR_next, keepsR_fault, keepsR_refused, keepsR_ite, modFlight_keeps, whenRunning]
    | split

theorem execJournalQuery_keeps (session seq : Nat) (fault : Option Nat) (s : State) : KeepsR [.dlr] s
    (execJournalQuery session seq fault s) := by
  unfold execJournalQuery
  repeat' first
    | simp (disch := first | decide | exact Or.inl (by decide) | exact Or.inr rfl) only [keeps_self, keeps_ite,
          keeps_mk, ite_self, keepsR_next, keepsR_fault, keepsR_refused, keepsR_ite, modFlight_keeps, whenRunning]
    | split

theorem execCommitStep_keeps (session seq : Nat) (s : State) : KeepsR [.dlr, .jnl, .sessions, .nss, .commits, .ante,
    .host, .lanes, .fab, .fabc, .idx, .med, .mem, .pwr, .evr, .out, .draws] s (execCommitStep session seq s) := by
  unfold execCommitStep
  repeat' first
    | simp (disch := first | decide | exact Or.inl (by decide) | exact Or.inr rfl) only [keeps_self, keeps_ite,
          keeps_mk, ite_self, keepsR_next, keepsR_fault, keepsR_refused, keepsR_ite, whenRunning, tryCommit_keeps]
    | split

end Sys2Proof.Machine
end

