-- ==== Sys2Proof/Laws/FrameSessions.lean ====
section
/-! SUPPORT. What each operation of Machine/Sessions.lean may change: `f_keeps` takes `f` off the end of a chain of operations
whenever the areas it may change are among those allowed. -/

set_option linter.all false

namespace Sys2Proof.Machine

open Sys2Proof

theorem bindCtx_keeps {c port kind : Nat} {s : State} {aB : Nat} {uB : State} {wB : List Area} {sB : State} (h :
    bindCtx c port kind s = (uB, aB)) (hw : subB [.host] wB = true) :
    Keeps wB sB uB ↔ Keeps wB sB s := by
  refine Keeps.peel (v := [.host]) ?_ hw
  unfold bindCtx at h
  repeat' first
    | cases h
    | split at h
    | dsimp only at h
  all_goals repeat' first
    | simp (disch := first | decide | exact Or.inl (by decide) | exact Or.inr rfl) only [keeps_self, keeps_ite,
          keeps_mk, ite_self, setCtx_keeps]
    | split

theorem bindCtx_keeps1 {c port kind : Nat} {s : State} {wB : List Area} {sB : State} (hw : subB [.host] wB = true) :
    Keeps wB sB (bindCtx c port kind s).1 ↔ Keeps wB sB s := bindCtx_keeps rfl hw

theorem openSession_keeps {id : Nat} {x : Session} {s : State} {wB : List Area} {sB : State} (hw : subB [.sessions]
    wB = true) :
    Keeps wB sB (openSession id x s) ↔ Keeps wB sB s := by
  refine Keeps.peel (v := [.sessions]) ?_ hw
  unfold openSession
  repeat' first
    | simp (disch := first | decide | exact Or.inl (by decide) | exact Or.inr rfl) only [keeps_self, keeps_ite,
          keeps_mk, ite_self]
    | split

theorem releaseSession_keeps {id : Nat} {s : State} {wB : List Area} {sB : State} (hw : subB [.sessions, .host, .fab]
    wB = true) :
    Keeps wB sB (releaseSession id s) ↔ Keeps wB sB s := by
  refine Keeps.peel (v := [.sessions, .host, .fab]) ?_ hw
  unfold releaseSession
  repeat' first
    | simp (disch := first | decide | exact Or.inl (by decide) | exact Or.inr rfl) only [keeps_self, keeps_ite,
          keeps_mk, ite_self, setCtx_keeps]
    | split

theorem drain_keeps {id : Nat} {s : State} {wB : List Area} {sB : State} (hw : subB [.dlr, .sessions, .host, .lanes,
    .fab, .fabc, .out] wB = true) :
    Keeps wB sB (drain id s) ↔ Keeps wB sB s := by
  refine Keeps.peel (v := [.dlr, .sessions, .host, .lanes, .fab, .fabc, .out]) ?_ hw
  unfold drain
  repeat' first
    | simp (disch := first | decide | exact Or.inl (by decide) | exact Or.inr rfl) only [keeps_self, keeps_ite,
          keeps_mk, ite_self, setQueue_keeps, modSess_keeps, dropArrived_keeps, dropOrder_keeps]
    | with_reducible refine keeps_each (fun _ _ => ?_) ?_
    | split

theorem setBox_keeps {b : Nat} {x : Mailbox} {s : State} {wB : List Area} {sB : State} (hw : subB [.host] wB = true) :
    Keeps wB sB (setBox b x s) ↔ Keeps wB sB s := by
  refine Keeps.peel (v := [.host]) ?_ hw
  unfold setBox
  repeat' first
    | simp (disch := first | decide | exact Or.inl (by decide) | exact Or.inr rfl) only [keeps_self, keeps_ite,
          keeps_mk, ite_self]
    | split

theorem finishBox_keeps {b status : Nat} {out : Bytes} {s : State} {wB : List Area} {sB : State} (hw : subB [.host,
    .out] wB = true) :
    Keeps wB sB (finishBox b status out s) ↔ Keeps wB sB s := by
  refine Keeps.peel (v := [.host, .out]) ?_ hw
  unfold finishBox
  repeat' first
    | simp (disch := first | decide | exact Or.inl (by decide) | exact Or.inr rfl) only [keeps_self, keeps_ite,
          keeps_mk, ite_self, setBox_keeps, msix_keeps]
    | split

theorem startDelete_keeps {c : Nat} {release : Bool} {box : Option Nat} {s : State} {wB : List Area} {sB : State} (hw
    : subB [.dlr, .sessions, .host, .lanes, .fab, .fabc, .out] wB = true) :
    Keeps wB sB (startDelete c release box s) ↔ Keeps wB sB s := by
  refine Keeps.peel (v := [.dlr, .sessions, .host, .lanes, .fab, .fabc, .out]) ?_ hw
  unfold startDelete
  repeat' first
    | simp (disch := first | decide | exact Or.inl (by decide) | exact Or.inr rfl) only [keeps_self, keeps_ite,
          keeps_mk, ite_self, setQueue_keeps, modSess_keeps, drain_keeps]
    | split

theorem finishDelete_keeps {c : Nat} {s : State} {wB : List Area} {sB : State} (hw : subB [.sessions, .host, .fab,
    .out] wB = true) :
    Keeps wB sB (finishDelete c s) ↔ Keeps wB sB s := by
  refine Keeps.peel (v := [.sessions, .host, .fab, .out]) ?_ hw
  unfold finishDelete
  repeat' first
    | simp (disch := first | decide | exact Or.inl (by decide) | exact Or.inr rfl) only [keeps_self, keeps_ite,
          keeps_mk, ite_self, modSess_keeps, releaseSession_keeps, finishBox_keeps, setCtx_keeps]
    | split

theorem countTaken_keeps {s : State} {wB : List Area} {sB : State} (hw : subB [.dlr] wB = true) :
    Keeps wB sB (countTaken s) ↔ Keeps wB sB s := by
  refine Keeps.peel (v := [.dlr]) ?_ hw
  unfold countTaken
  repeat' first
    | simp (disch := first | decide | exact Or.inl (by decide) | exact Or.inr rfl) only [keeps_self, keeps_ite,
          keeps_mk, ite_self]
    | split

theorem arriveSeq_keeps {id seq : Nat} {x : Session} {c : Cmd} {s : State} {wB : List Area} {sB : State} (hw : subB
    [.dlr, .jnl, .sessions, .host, .lanes, .fab, .out, .draws] wB = true) :
    Keeps wB sB (arriveSeq id seq x c s) ↔ Keeps wB sB s := by
  refine Keeps.peel (v := [.dlr, .jnl, .sessions, .host, .lanes, .fab, .out, .draws]) ?_ hw
  unfold arriveSeq
  repeat' first
    | simp (disch := first | decide | exact Or.inl (by decide) | exact Or.inr rfl) only [keeps_self, keeps_ite,
          keeps_mk, ite_self, answerDuplicate_keeps, answer_keeps]
    | split

theorem withdrawOne_keeps {id seq : Nat} {s : State} {wB : List Area} {sB : State} (hw : subB [.dlr, .sessions,
    .host, .lanes, .fab, .fabc, .out] wB = true) :
    Keeps wB sB (withdrawOne id seq s) ↔ Keeps wB sB s := by
  refine Keeps.peel (v := [.dlr, .sessions, .host, .lanes, .fab, .fabc, .out]) ?_ hw
  unfold withdrawOne
  repeat' first
    | simp (disch := first | decide | exact Or.inl (by decide) | exact Or.inr rfl) only [keeps_self, keeps_ite,
          keeps_mk, ite_self, modSess_keeps, storeSet_keeps, dropArrived_keeps, dropOrder_keeps]
    | split

theorem passWithdrawn_keeps {id : Nat} {s : State} {wB : List Area} {sB : State} (hw : subB [.sessions] wB = true) :
    Keeps wB sB (passWithdrawn id s) ↔ Keeps wB sB s := by
  refine Keeps.peel (v := [.sessions]) ?_ hw
  unfold passWithdrawn
  repeat' first
    | simp (disch := first | decide | exact Or.inl (by decide) | exact Or.inr rfl) only [keeps_self, keeps_ite,
          keeps_mk, ite_self, modSess_keeps]
    | split

theorem withdraw_keeps {id seq : Nat} {x : Session} {s : State} {wB : List Area} {sB : State} (hw : subB [.dlr, .jnl,
    .sessions, .host, .lanes, .fab, .fabc, .out, .draws] wB = true) :
    Keeps wB sB (withdraw id seq x s) ↔ Keeps wB sB s := by
  refine Keeps.peel (v := [.dlr, .jnl, .sessions, .host, .lanes, .fab, .fabc, .out, .draws]) ?_ hw
  unfold withdraw
  repeat' first
    | simp (disch := first | decide | exact Or.inl (by decide) | exact Or.inr rfl) only [keeps_self, keeps_ite,
          keeps_mk, ite_self, answerDuplicate_keeps, postClient_keeps, passWithdrawn_keeps, answer_keeps,
          withdrawOne_keeps]
    | with_reducible refine keeps_each (fun _ _ => ?_) ?_
    | split

end Sys2Proof.Machine
end

