-- ==== Sys2Proof/Laws/FrameHostPort.lean ====
section
/-! SUPPORT. What each operation of Machine/HostPort.lean may change: `f_keeps` takes `f` off the end of a chain of operations
whenever the areas it may change are among those allowed. -/

set_option linter.all false

namespace Sys2Proof.Machine

open Sys2Proof

theorem deassertPerst_keeps {port bifSel : Nat} {clkSep : Bool} {s : State} {wB : List Area} {sB : State} (hw : subB
    [.clk, .host, .pwr, .evr, .out] wB = true) :
    Keeps wB sB (deassertPerst port bifSel clkSep s) ↔ Keeps wB sB s := by
  refine Keeps.peel (v := [.clk, .host, .pwr, .evr, .out]) ?_ hw
  unfold deassertPerst
  repeat' first
    | simp (disch := first | decide | exact Or.inl (by decide) | exact Or.inr rfl) only [keeps_self, keeps_ite,
          keeps_mk, ite_self, keeps_bite, modPort_keeps, event_keeps, railsUp_keeps]
    | split

theorem execPerstDeassert_keeps (port bifSel : Nat) (clkSep : Bool) (s : State) : KeepsR [.clk, .host, .pwr, .evr,
    .out] s (execPerstDeassert port bifSel clkSep s) := by
  unfold execPerstDeassert
  repeat' first
    | simp (disch := first | decide | exact Or.inl (by decide) | exact Or.inr rfl) only [keeps_self, keeps_ite,
          keeps_mk, ite_self, keeps_bite, keepsR_next, keepsR_fault, keepsR_refused, keepsR_ite, whenRunning,
          deassertPerst_keeps]
    | split

theorem lateDeassert_keeps {s : State} {wB : List Area} {sB : State} (hw : subB [.clk, .host, .pwr, .evr, .out] wB =
    true) :
    Keeps wB sB (lateDeassert s) ↔ Keeps wB sB s := by
  refine Keeps.peel (v := [.clk, .host, .pwr, .evr, .out]) ?_ hw
  unfold lateDeassert
  repeat' first
    | simp (disch := first | decide | exact Or.inl (by decide) | exact Or.inr rfl) only [keeps_self, keeps_ite,
          keeps_mk, ite_self, deassertPerst_keeps]
    | with_reducible refine keeps_each (fun _ _ => ?_) ?_
    | split

theorem execHostLinkChange_keeps (port : Nat) (inL0 : Bool) (width rate : Nat) (s : State) : KeepsR [.host] s
    (execHostLinkChange port inL0 width rate s) := by
  unfold execHostLinkChange
  repeat' first
    | simp (disch := first | decide | exact Or.inl (by decide) | exact Or.inr rfl) only [keeps_self, keeps_ite,
          keeps_mk, ite_self, keeps_bite, keepsR_next, keepsR_fault, keepsR_refused, keepsR_ite, modPort_keeps,
          guard, whenRunning]
    | split

theorem resetBoxes_keeps {p : Nat} {s : State} {wB : List Area} {sB : State} (hw : subB [.host] wB = true) :
    Keeps wB sB (resetBoxes p s) ↔ Keeps wB sB s := by
  refine Keeps.peel (v := [.host]) ?_ hw
  unfold resetBoxes
  repeat' first
    | simp (disch := first | decide | exact Or.inl (by decide) | exact Or.inr rfl) only [keeps_self, keeps_ite,
          keeps_mk, ite_self]
    | split

theorem resetTasks_keeps {p : Nat} {s : State} {wB : List Area} {sB : State} (hw : subB [.host] wB = true) :
    Keeps wB sB (resetTasks p s) ↔ Keeps wB sB s := by
  refine Keeps.peel (v := [.host]) ?_ hw
  unfold resetTasks
  repeat' first
    | simp (disch := first | decide | exact Or.inl (by decide) | exact Or.inr rfl) only [keeps_self, keeps_ite,
          keeps_mk, ite_self]
    | split

theorem deletePort_keeps {p : Nat} {s : State} {wB : List Area} {sB : State} (hw : subB [.dlr, .sessions, .host,
    .lanes, .fab, .fabc, .out] wB = true) :
    Keeps wB sB (deletePort p s) ↔ Keeps wB sB s := by
  refine Keeps.peel (v := [.dlr, .sessions, .host, .lanes, .fab, .fabc, .out]) ?_ hw
  unfold deletePort
  repeat' first
    | simp (disch := first | decide | exact Or.inl (by decide) | exact Or.inr rfl) only [keeps_self, keeps_ite,
          keeps_mk, ite_self, startDelete_keeps]
    | with_reducible refine keeps_each (fun _ _ => ?_) ?_
    | split

theorem resetPort_keeps {p : Nat} {cause : PortResetCause} {s : State} {wB : List Area} {sB : State} (hw : subB
    [.dlr, .sessions, .host, .lanes, .fab, .fabc, .out] wB = true) :
    Keeps wB sB (resetPort p cause s) ↔ Keeps wB sB s := by
  refine Keeps.peel (v := [.dlr, .sessions, .host, .lanes, .fab, .fabc, .out]) ?_ hw
  unfold resetPort
  repeat' first
    | simp (disch := first | decide | exact Or.inl (by decide) | exact Or.inr rfl) only [keeps_self, keeps_ite,
          keeps_mk, ite_self, modPort_keeps, followAlert_keeps, resetTasks_keeps, resetBoxes_keeps, deletePort_keeps]
    | split

theorem execPortReset_keeps (port : Nat) (cause : PortResetCause) (s : State) : KeepsR [.dlr, .sessions, .host,
    .lanes, .fab, .fabc, .out] s (execPortReset port cause s) := by
  unfold execPortReset
  repeat' first
    | simp (disch := first | decide | exact Or.inl (by decide) | exact Or.inr rfl) only [keeps_self, keeps_ite,
          keeps_mk, ite_self, keepsR_next, keepsR_fault, keepsR_refused, keepsR_ite, resetPort_keeps, guard,
          whenRunning]
    | split

theorem execWakeRelease_keeps (s : State) : KeepsR [.host, .out] s (execWakeRelease s) := by
  unfold execWakeRelease
  repeat' first
    | simp (disch := first | decide | exact Or.inl (by decide) | exact Or.inr rfl) only [keeps_self, keeps_ite,
          keeps_mk, ite_self, keepsR_next, keepsR_fault, keepsR_refused, keepsR_ite, guard, emit_keeps, whenRunning]
    | split

theorem execConfigRequest_keeps (cycle : ConfigCycle) (s : State) : KeepsR [.dlr, .sessions, .host, .lanes, .fab,
    .fabc, .out] s (execConfigRequest cycle s) := by
  unfold execConfigRequest
  repeat' first
    | simp (disch := first | decide | exact Or.inl (by decide) | exact Or.inr rfl) only [keeps_self, keeps_ite,
          keeps_mk, ite_self, keeps_bite, keepsR_next, keepsR_fault, keepsR_refused, keepsR_ite, modPort_keeps,
          resetPort_keeps, emit_keeps, whenRunning]
    | split

theorem doorbellError_keeps {p : Nat} {s : State} {wB : List Area} {sB : State} (hw : subB [.host, .out] wB = true) :
    Keeps wB sB (doorbellError p s) ↔ Keeps wB sB s := by
  refine Keeps.peel (v := [.host, .out]) ?_ hw
  unfold doorbellError
  repeat' first
    | simp (disch := first | decide | exact Or.inl (by decide) | exact Or.inr rfl) only [keeps_self, keeps_ite,
          keeps_mk, ite_self, raiseOn_keeps]
    | split

theorem writeTail_keeps {c : Nat} {q : Queue} {tail : Nat} {s : State} {wB : List Area} {sB : State} (hw : subB
    [.dlr, .host] wB = true) :
    Keeps wB sB (writeTail c q tail s) ↔ Keeps wB sB s := by
  refine Keeps.peel (v := [.dlr, .host]) ?_ hw
  unfold writeTail
  repeat' first
    | simp (disch := first | decide | exact Or.inl (by decide) | exact Or.inr rfl) only [keeps_self, keeps_ite,
          keeps_mk, ite_self, setQueue_keeps]
    | split

theorem doorbell_keeps {p c : Nat} {tail head : Option Nat} {s : State} {wB : List Area} {sB : State} (hw : subB
    [.dlr, .host, .out] wB = true) :
    Keeps wB sB (doorbell p c tail head s) ↔ Keeps wB sB s := by
  refine Keeps.peel (v := [.dlr, .host, .out]) ?_ hw
  unfold doorbell
  repeat' first
    | simp (disch := first | decide | exact Or.inl (by decide) | exact Or.inr rfl) only [keeps_self, keeps_ite,
          keeps_mk, ite_self, setQueue_keeps, doorbellError_keeps, writeTail_keeps]
    | split

theorem execSqTailWrite_keeps (port ctx tail : Nat) (head : Option Nat) (s : State) : KeepsR [.dlr, .host, .pwr,
    .out] s (execSqTailWrite port ctx tail head s) := by
  unfold execSqTailWrite
  repeat' first
    | simp (disch := first | decide | exact Or.inl (by decide) | exact Or.inr rfl) only [keeps_self, keeps_ite,
          keeps_mk, ite_self, keepsR_next, keepsR_fault, keepsR_refused, keepsR_ite, startExit_keeps, doorbell_keeps,
          whenRunning]
    | split

theorem execCqHeadWrite_keeps (port ctx head : Nat) (s : State) : KeepsR [.dlr, .host, .pwr, .out] s (execCqHeadWrite
    port ctx head s) := by
  unfold execCqHeadWrite
  repeat' first
    | simp (disch := first | decide | exact Or.inl (by decide) | exact Or.inr rfl) only [keeps_self, keeps_ite,
          keeps_mk, ite_self, keepsR_next, keepsR_fault, keepsR_refused, keepsR_ite, startExit_keeps, doorbell_keeps,
          whenRunning]
    | split

theorem leftUntaken_keeps {c : Nat} {s : State} {wB : List Area} {sB : State} (hw : subB [.dlr] wB = true) :
    Keeps wB sB (leftUntaken c s) ↔ Keeps wB sB s := by
  refine Keeps.peel (v := [.dlr]) ?_ hw
  unfold leftUntaken
  repeat' first
    | simp (disch := first | decide | exact Or.inl (by decide) | exact Or.inr rfl) only [keeps_self, keeps_ite,
          keeps_mk, ite_self, countStall_keeps]
    | split

theorem fetchFailed_keeps {c : Nat} {q : Queue} {s : State} {wB : List Area} {sB : State} (hw : subB [.dlr, .host,
    .out] wB = true) :
    Keeps wB sB (fetchFailed c q s) ↔ Keeps wB sB s := by
  refine Keeps.peel (v := [.dlr, .host, .out]) ?_ hw
  unfold fetchFailed
  repeat' first
    | simp (disch := first | decide | exact Or.inl (by decide) | exact Or.inr rfl) only [keeps_self, keeps_ite,
          keeps_mk, ite_self, setQueue_keeps, raiseOn_keeps]
    | split

theorem entryFetched_keeps {c : Nat} {q : Queue} {f : Fetched} {s : State} {wB : List Area} {sB : State} (hw : subB
    [.dlr, .host] wB = true) :
    Keeps wB sB (entryFetched c q f s) ↔ Keeps wB sB s := by
  refine Keeps.peel (v := [.dlr, .host]) ?_ hw
  unfold entryFetched
  repeat' first
    | simp (disch := first | decide | exact Or.inl (by decide) | exact Or.inr rfl) only [keeps_self, keeps_ite,
          keeps_mk, ite_self, setQueue_keeps, countTaken_keeps]
    | split

theorem execSubmissionEntryFetch_keeps (ctx : Nat) (res : Option Fetched) (s : State) : KeepsR [.dlr, .host, .out] s
    (execSubmissionEntryFetch ctx res s) := by
  unfold execSubmissionEntryFetch
  repeat' first
    | simp (disch := first | decide | exact Or.inl (by decide) | exact Or.inr rfl) only [keeps_self, keeps_ite,
          keeps_mk, ite_self, keepsR_next, keepsR_fault, keepsR_refused, keepsR_ite, entryFetched_keeps,
          countStall_keeps, leftUntaken_keeps, emit_keeps, whenRunning, spendSearches_keeps, fetchFailed_keeps]
    | split

theorem execIntakeBacklogResume_keeps (s : State) : KeepsR [.dlr] s (execIntakeBacklogResume s) := by
  unfold execIntakeBacklogResume
  repeat' first
    | simp (disch := first | decide | exact Or.inl (by decide) | exact Or.inr rfl) only [keeps_self, keeps_ite,
          keeps_mk, ite_self, keepsR_next, keepsR_fault, keepsR_refused, keepsR_ite, guard, whenRunning]
    | split

theorem execQueueDeleteComplete_keeps (ctx : Nat) (s : State) : KeepsR [.sessions, .host, .fab, .out] s
    (execQueueDeleteComplete ctx s) := by
  unfold execQueueDeleteComplete
  repeat' first
    | simp (disch := first | decide | exact Or.inl (by decide) | exact Or.inr rfl) only [keeps_self, keeps_ite,
          keeps_mk, ite_self, keepsR_next, keepsR_fault, keepsR_refused, keepsR_ite, guard, finishDelete_keeps,
          whenRunning]
    | split

end Sys2Proof.Machine
end

