-- ==== Sys2Proof/Laws/FrameClient.lean ====
section
/-! SUPPORT. What each operation of Machine/Client.lean may change: `f_keeps` takes `f` off the end of a chain of operations
whenever the areas it may change are among those allowed. -/

set_option linter.all false

namespace Sys2Proof.Machine

open Sys2Proof

theorem dropClient_keeps {s : State} {wB : List Area} {sB : State} (hw : subB [.fabc] wB = true) :
    Keeps wB sB (dropClient s) ↔ Keeps wB sB s := by
  refine Keeps.peel (v := [.fabc]) ?_ hw
  unfold dropClient
  repeat' first
    | simp (disch := first | decide | exact Or.inl (by decide) | exact Or.inr rfl) only [keeps_self, keeps_ite,
          keeps_mk, ite_self]
    | split

theorem dropType_keeps {s : State} {wB : List Area} {sB : State} (hw : subB [.fabc] wB = true) :
    Keeps wB sB (dropType s) ↔ Keeps wB sB s := by
  refine Keeps.peel (v := [.fabc]) ?_ hw
  unfold dropType
  repeat' first
    | simp (disch := first | decide | exact Or.inl (by decide) | exact Or.inr rfl) only [keeps_self, keeps_ite,
          keeps_mk, ite_self]
    | split

theorem dropFiltered_keeps {lane : Nat} {s : State} {wB : List Area} {sB : State} (hw : subB [.host, .lanes, .out] wB
    = true) :
    Keeps wB sB (dropFiltered lane s) ↔ Keeps wB sB s := by
  refine Keeps.peel (v := [.host, .lanes, .out]) ?_ hw
  unfold dropFiltered
  repeat' first
    | simp (disch := first | decide | exact Or.inl (by decide) | exact Or.inr rfl) only [keeps_self, keeps_ite,
          keeps_mk, ite_self, countLane_keeps]
    | split

theorem sendOpenReply_keeps {t addr udp word : Nat} {s : State} {wB : List Area} {sB : State} (hw : subB [.lanes,
    .fab, .draws] wB = true) :
    Keeps wB sB (sendOpenReply t addr udp word s) ↔ Keeps wB sB s := by
  refine Keeps.peel (v := [.lanes, .fab, .draws]) ?_ hw
  unfold sendOpenReply
  repeat' first
    | simp (disch := first | decide | exact Or.inl (by decide) | exact Or.inr rfl) only [keeps_self, keeps_ite,
          keeps_mk, ite_self, sendClient_keeps]
    | split

theorem openClient_keeps {d : Dgram} {t client : Nat} {s : State} {aB : Nat} {uB : State} {wB : List Area} {sB :
    State} (h : openClient d t client s = (uB, aB)) (hw : subB [.sessions, .host, .fab] wB = true) :
    Keeps wB sB uB ↔ Keeps wB sB s := by
  refine Keeps.peel (v := [.sessions, .host, .fab]) ?_ hw
  unfold openClient at h
  repeat' first
    | cases h
    | split at h
    | dsimp only at h
  all_goals repeat' first
    | simp (disch := first | decide | exact Or.inl (by decide) | exact Or.inr rfl) only [keeps_self, keeps_ite,
          keeps_mk, ite_self, bindCtx_keeps1, openSession_keeps, setCtx_keeps]
    | with_reducible refine (bindCtx_keeps (by assumption) (by decide)).mpr ?_
    | split

theorem openClient_keeps1 {d : Dgram} {t client : Nat} {s : State} {wB : List Area} {sB : State} (hw : subB
    [.sessions, .host, .fab] wB = true) :
    Keeps wB sB (openClient d t client s).1 ↔ Keeps wB sB s := openClient_keeps rfl hw

theorem execClientOpen_keeps (d : Dgram) (s : State) : KeepsR [.sessions, .host, .lanes, .fab, .fabc, .cam, .out,
    .draws] s (execClientOpen d s) := by
  unfold execClientOpen
  repeat' first
    | simp (disch := first | decide | exact Or.inl (by decide) | exact Or.inr rfl) only [keeps_self, keeps_ite,
          keeps_mk, ite_self, keepsR_next, keepsR_fault, keepsR_refused, keepsR_ite, dropType_keeps,
          openClient_keeps1, countSearch_keeps, dropClient_keeps, whenRunning, dropFiltered_keeps,
          sendOpenReply_keeps]
    | with_reducible refine (openClient_keeps (by assumption) (by decide)).mpr ?_
    | split

theorem touchStage_keeps {id handle : Nat} {s : State} {wB : List Area} {sB : State} (hw : subB [.fab] wB = true) :
    Keeps wB sB (touchStage id handle s) ↔ Keeps wB sB s := by
  refine Keeps.peel (v := [.fab]) ?_ hw
  unfold touchStage
  repeat' first
    | simp (disch := first | decide | exact Or.inl (by decide) | exact Or.inr rfl) only [keeps_self, keeps_ite,
          keeps_mk, ite_self]
    | split

theorem execClientCommand_keeps (d : Dgram) (s : State) : KeepsR [.dlr, .jnl, .sessions, .host, .lanes, .fab, .fabc,
    .out, .draws] s (execClientCommand d s) := by
  unfold execClientCommand
  repeat' first
    | simp (disch := first | decide | exact Or.inl (by decide) | exact Or.inr rfl) only [keeps_self, keeps_ite,
          keeps_mk, ite_self, keepsR_next, keepsR_fault, keepsR_refused, keepsR_ite, countTaken_keeps,
          handleDatagram, passWithdrawn_keeps, arriveSeq_keeps, answer_keeps, touchStage_keeps, whenRunning,
          withdrawOne_keeps, dropType_keeps, modSess_keeps, dropClient_keeps, dropFiltered_keeps]
    | with_reducible refine keeps_each (fun _ _ => ?_) ?_
    | split

theorem takeSegment_keeps {d : Dgram} {s : State} {wB : List Area} {sB : State} (hw : subB [.fab, .fabc] wB = true) :
    Keeps wB sB (takeSegment d s) ↔ Keeps wB sB s := by
  refine Keeps.peel (v := [.fab, .fabc]) ?_ hw
  unfold takeSegment
  repeat' first
    | simp (disch := first | decide | exact Or.inl (by decide) | exact Or.inr rfl) only [keeps_self, keeps_ite,
          keeps_mk, ite_self]
    | split

theorem execClientStage_keeps (d : Dgram) (s : State) : KeepsR [.sessions, .host, .lanes, .fab, .fabc, .out] s
    (execClientStage d s) := by
  unfold execClientStage
  repeat' first
    | simp (disch := first | decide | exact Or.inl (by decide) | exact Or.inr rfl) only [keeps_self, keeps_ite,
          keeps_mk, ite_self, keepsR_next, keepsR_fault, keepsR_refused, keepsR_ite, handleDatagram,
          takeSegment_keeps, whenRunning, dropType_keeps, modSess_keeps, dropClient_keeps, dropFiltered_keeps]
    | split

theorem execClientWithdraw_keeps (d : Dgram) (s : State) : KeepsR [.dlr, .jnl, .sessions, .host, .lanes, .fab, .fabc,
    .out, .draws] s (execClientWithdraw d s) := by
  unfold execClientWithdraw
  repeat' first
    | simp (disch := first | decide | exact Or.inl (by decide) | exact Or.inr rfl) only [keeps_self, keeps_ite,
          keeps_mk, ite_self, keepsR_next, keepsR_fault, keepsR_refused, keepsR_ite, handleDatagram, whenRunning,
          withdraw_keeps, dropType_keeps, modSess_keeps, dropClient_keeps, dropFiltered_keeps]
    | split

theorem execStageIdleExpiry_keeps (session handle : Nat) (s : State) : KeepsR [.fab] s (execStageIdleExpiry session
    handle s) := by
  unfold execStageIdleExpiry
  repeat' first
    | simp (disch := first | decide | exact Or.inl (by decide) | exact Or.inr rfl) only [keeps_self, keeps_ite,
          keeps_mk, ite_self, keepsR_next, keepsR_fault, keepsR_refused, keepsR_ite, guard, whenRunning]
    | split

theorem sendCloseReply_keeps {t addr udp session highest mark : Nat} {s : State} {wB : List Area} {sB : State} (hw :
    subB [.lanes, .fab, .draws] wB = true) :
    Keeps wB sB (sendCloseReply t addr udp session highest mark s) ↔ Keeps wB sB s := by
  refine Keeps.peel (v := [.lanes, .fab, .draws]) ?_ hw
  unfold sendCloseReply
  repeat' first
    | simp (disch := first | decide | exact Or.inl (by decide) | exact Or.inr rfl) only [keeps_self, keeps_ite,
          keeps_mk, ite_self, sendClient_keeps]
    | split

theorem execClientClose_keeps (d : Dgram) (s : State) : KeepsR [.dlr, .sessions, .host, .lanes, .fab, .fabc, .out,
    .draws] s (execClientClose d s) := by
  unfold execClientClose
  repeat' first
    | simp (disch := first | decide | exact Or.inl (by decide) | exact Or.inr rfl) only [keeps_self, keeps_ite,
          keeps_mk, ite_self, keepsR_next, keepsR_fault, keepsR_refused, keepsR_ite, handleDatagram,
          sendCloseReply_keeps, modSess_keeps, drain_keeps, whenRunning, dropType_keeps, dropClient_keeps,
          dropFiltered_keeps]
    | split

theorem execClientCloseComplete_keeps (session : Nat) (s : State) : KeepsR [.sessions, .host, .lanes, .fab, .draws] s
    (execClientCloseComplete session s) := by
  unfold execClientCloseComplete
  repeat' first
    | simp (disch := first | decide | exact Or.inl (by decide) | exact Or.inr rfl) only [keeps_self, keeps_ite,
          keeps_mk, ite_self, keepsR_next, keepsR_fault, keepsR_refused, keepsR_ite, sendCloseReply_keeps, guard,
          releaseSession_keeps, whenRunning]
    | split

theorem execClientSessionIdle_keeps (session : Nat) (s : State) : KeepsR [.dlr, .sessions, .host, .lanes, .fab,
    .fabc, .out] s (execClientSessionIdle session s) := by
  unfold execClientSessionIdle
  repeat' first
    | simp (disch := first | decide | exact Or.inl (by decide) | exact Or.inr rfl) only [keeps_self, keeps_ite,
          keeps_mk, ite_self, keepsR_next, keepsR_fault, keepsR_refused, keepsR_ite, guard, releaseSession_keeps,
          drain_keeps, whenRunning]
    | split

theorem execClientDatagramDrop_keeps (d : Dgram) (s : State) : KeepsR [.sessions, .host, .lanes, .fabc, .out] s
    (execClientDatagramDrop d s) := by
  unfold execClientDatagramDrop
  repeat' first
    | simp (disch := first | decide | exact Or.inl (by decide) | exact Or.inr rfl) only [keeps_self, keeps_ite,
          keeps_mk, ite_self, keepsR_next, keepsR_fault, keepsR_refused, keepsR_ite, dropType_keeps, handleDatagram,
          dropClient_keeps, whenRunning, modSess_keeps, dropFiltered_keeps]
    | split

theorem execClientFrameFiltered_keeps (lane : Nat) (s : State) : KeepsR [.host, .lanes, .out] s
    (execClientFrameFiltered lane s) := by
  unfold execClientFrameFiltered
  repeat' first
    | simp (disch := first | decide | exact Or.inl (by decide) | exact Or.inr rfl) only [keeps_self, keeps_ite,
          keeps_mk, ite_self, keepsR_next, keepsR_fault, keepsR_refused, keepsR_ite, guard, whenRunning,
          dropFiltered_keeps]
    | split

theorem execNeighbourDiscovery_keeps (lane : Nat) (v6 : Bool) (target sender senderMac : Nat) (s : State) : KeepsR
    [.lanes, .fab] s (execNeighbourDiscovery lane v6 target sender senderMac s) := by
  unfold execNeighbourDiscovery
  repeat' first
    | simp (disch := first | decide | exact Or.inl (by decide) | exact Or.inr rfl) only [keeps_self, keeps_ite,
          keeps_mk, ite_self, keepsR_next, keepsR_fault, keepsR_refused, keepsR_ite, setTrunk_keeps,
          queueFrame_keeps, whenRunning]
    | split

theorem execClientCompletionDiscard_keeps (trunk : Nat) (s : State) : KeepsR [.fab, .fabc] s
    (execClientCompletionDiscard trunk s) := by
  unfold execClientCompletionDiscard
  repeat' first
    | simp (disch := first | decide | exact Or.inl (by decide) | exact Or.inr rfl) only [keeps_self, keeps_ite,
          keeps_mk, ite_self, keepsR_next, keepsR_fault, keepsR_refused, keepsR_ite, setTrunk_keeps, whenRunning]
    | split

end Sys2Proof.Machine
end

