-- ==== Sys2Proof/Laws/FrameShards.lean ====
section
/-! SUPPORT. What each operation of Machine/Shards.lean may change: `f_keeps` takes `f` off the end of a chain of operations
whenever the areas it may change are among those allowed. -/

set_option linter.all false

namespace Sys2Proof.Machine

open Sys2Proof

theorem modCredit_keeps {id : Nat} {f : Credit → Credit} {s : State} {wB : List Area} {sB : State} (hw : subB
    [.sessions] wB = true) :
    Keeps wB sB (modCredit id f s) ↔ Keeps wB sB s := by
  refine Keeps.peel (v := [.sessions]) ?_ hw
  unfold modCredit
  repeat' first
    | simp (disch := first | decide | exact Or.inl (by decide) | exact Or.inr rfl) only [keeps_self, keeps_ite,
          keeps_mk, ite_self, modSess_keeps]
    | split

theorem redebitFor_keeps {found : Option Session} {id : Nat} {s : State} {wB : List Area} {sB : State} (hw : subB
    [.ante] wB = true) :
    Keeps wB sB (redebitFor found id s) ↔ Keeps wB sB s := by
  refine Keeps.peel (v := [.ante]) ?_ hw
  unfold redebitFor
  repeat' first
    | simp (disch := first | decide | exact Or.inl (by decide) | exact Or.inr rfl) only [keeps_self, keeps_ite,
          keeps_mk, ite_self, undebit_keeps, debit_keeps]
    | with_reducible refine keeps_each (fun _ _ => ?_) ?_
    | split

theorem redebit_keeps {id : Nat} {s : State} {wB : List Area} {sB : State} (hw : subB [.ante] wB = true) :
    Keeps wB sB (redebit id s) ↔ Keeps wB sB s := by
  refine Keeps.peel (v := [.ante]) ?_ hw
  unfold redebit
  repeat' first
    | simp (disch := first | decide | exact Or.inl (by decide) | exact Or.inr rfl) only [keeps_self, keeps_ite,
          keeps_mk, ite_self, redebitFor_keeps]
    | split

theorem raiseGrant_keeps {id wanted : Nat} {s : State} {wB : List Area} {sB : State} (hw : subB [.sessions, .ante,
    .pwr] wB = true) :
    Keeps wB sB (raiseGrant id wanted s) ↔ Keeps wB sB s := by
  refine Keeps.peel (v := [.sessions, .ante, .pwr]) ?_ hw
  unfold raiseGrant
  repeat' first
    | simp (disch := first | decide | exact Or.inl (by decide) | exact Or.inr rfl) only [keeps_self, keeps_ite,
          keeps_mk, ite_self, kittyReserve_keeps, redebit_keeps, modCredit_keeps]
    | split

theorem ackFrame_keeps {id : Nat} {c : Credit} {pairs : List (Nat × Nat)} {s : State} {wB : List Area} {sB : State}
    (hw : subB [.host, .lanes, .fab, .fabc, .out] wB = true) :
    Keeps wB sB (ackFrame id c pairs s) ↔ Keeps wB sB s := by
  refine Keeps.peel (v := [.host, .lanes, .fab, .fabc, .out]) ?_ hw
  unfold ackFrame
  repeat' first
    | simp (disch := first | decide | exact Or.inl (by decide) | exact Or.inr rfl) only [keeps_self, keeps_ite,
          keeps_mk, ite_self, sendOwn_keeps]
    | split

theorem sendAck_keeps {id : Nat} {s : State} {wB : List Area} {sB : State} (hw : subB [.host, .lanes, .fab, .fabc,
    .out] wB = true) :
    Keeps wB sB (sendAck id s) ↔ Keeps wB sB s := by
  refine Keeps.peel (v := [.host, .lanes, .fab, .fabc, .out]) ?_ hw
  unfold sendAck
  repeat' first
    | simp (disch := first | decide | exact Or.inl (by decide) | exact Or.inr rfl) only [keeps_self, keeps_ite,
          keeps_mk, ite_self, ackFrame_keeps]
    | split

theorem reqDone_keeps {id seq st : Nat} {s : State} {wB : List Area} {sB : State} (hw : subB [.sessions, .host,
    .lanes, .fab, .fabc, .out] wB = true) :
    Keeps wB sB (reqDone id seq st s) ↔ Keeps wB sB s := by
  refine Keeps.peel (v := [.sessions, .host, .lanes, .fab, .fabc, .out]) ?_ hw
  unfold reqDone
  repeat' first
    | simp (disch := first | decide | exact Or.inl (by decide) | exact Or.inr rfl) only [keeps_self, keeps_ite,
          keeps_mk, ite_self, sendAck_keeps, storeSet_keeps, modCredit_keeps]
    | split

theorem dropPend_keeps {p : Pending} {s : State} {wB : List Area} {sB : State} (hw : subB [.fab] wB = true) :
    Keeps wB sB (dropPend p s) ↔ Keeps wB sB s := by
  refine Keeps.peel (v := [.fab]) ?_ hw
  unfold dropPend
  repeat' first
    | simp (disch := first | decide | exact Or.inl (by decide) | exact Or.inr rfl) only [keeps_self, keeps_ite,
          keeps_mk, ite_self]
    | split

theorem commitPend_keeps {p : Pending} {s : State} {wB : List Area} {sB : State} (hw : subB [.nss, .commits, .ante,
    .host, .fab, .idx, .med, .mem, .pwr, .evr, .out] wB = true) :
    Keeps wB sB (commitPend p s) ↔ Keeps wB sB s := by
  refine Keeps.peel (v := [.nss, .commits, .ante, .host, .fab, .idx, .med, .mem, .pwr, .evr, .out]) ?_ hw
  unfold commitPend
  repeat' first
    | simp (disch := first | decide | exact Or.inl (by decide) | exact Or.inr rfl) only [keeps_self, keeps_ite,
          keeps_mk, ite_self, settleKitty_keeps, undebit_keeps, commitRecord_keeps, dropPend_keeps, kittyCancel_keeps]
    | split

theorem discardPend_keeps {p : Pending} {s : State} {wB : List Area} {sB : State} (hw : subB [.ante, .fab, .pwr] wB =
    true) :
    Keeps wB sB (discardPend p s) ↔ Keeps wB sB s := by
  refine Keeps.peel (v := [.ante, .fab, .pwr]) ?_ hw
  unfold discardPend
  repeat' first
    | simp (disch := first | decide | exact Or.inl (by decide) | exact Or.inr rfl) only [keeps_self, keeps_ite,
          keeps_mk, ite_self, undebit_keeps, dropPend_keeps, kittyCancel_keeps]
    | split

theorem settleOne_keeps {p : Pending} {ok : Bool} {s : State} {wB : List Area} {sB : State} (hw : subB [.sessions,
    .nss, .commits, .ante, .host, .lanes, .fab, .fabc, .idx, .med, .mem, .pwr, .evr, .out] wB = true) :
    Keeps wB sB (settleOne p ok s) ↔ Keeps wB sB s := by
  refine Keeps.peel (v := [.sessions, .nss, .commits, .ante, .host, .lanes, .fab, .fabc, .idx, .med, .mem, .pwr,
      .evr, .out]) ?_ hw
  unfold settleOne
  repeat' first
    | simp (disch := first | decide | exact Or.inl (by decide) | exact Or.inr rfl) only [keeps_self, keeps_ite,
          keeps_mk, ite_self, discardPend_keeps, reqDone_keeps, commitPend_keeps]
    | split

theorem settlePend_keeps {ns d : Nat} {t : Stamp} {ok : Bool} {s : State} {wB : List Area} {sB : State} (hw : subB
    [.sessions, .nss, .commits, .ante, .host, .lanes, .fab, .fabc, .idx, .med, .mem, .pwr, .evr, .out] wB = true) :
    Keeps wB sB (settlePend ns d t ok s) ↔ Keeps wB sB s := by
  refine Keeps.peel (v := [.sessions, .nss, .commits, .ante, .host, .lanes, .fab, .fabc, .idx, .med, .mem, .pwr,
      .evr, .out]) ?_ hw
  unfold settlePend
  repeat' first
    | simp (disch := first | decide | exact Or.inl (by decide) | exact Or.inr rfl) only [keeps_self, keeps_ite,
          keeps_mk, ite_self, settleOne_keeps]
    | split

theorem debitShard_keeps {id seq suit units : Nat} {s : State} {aB : Nat} {uB : State} {wB : List Area} {sB : State}
    (h : debitShard id seq suit units s = (uB, aB)) (hw : subB [.ante] wB = true) :
    Keeps wB sB uB ↔ Keeps wB sB s := by
  refine Keeps.peel (v := [.ante]) ?_ hw
  unfold debitShard at h
  repeat' first
    | cases h
    | split at h
    | dsimp only at h
  all_goals repeat' first
    | simp (disch := first | decide | exact Or.inl (by decide) | exact Or.inr rfl) only [keeps_self, keeps_ite,
          keeps_mk, ite_self, debit_keeps]
    | with_reducible refine keeps_getD (fun _ _ => ?_) ?_
    | split

theorem debitShard_keeps1 {id seq suit units : Nat} {s : State} {wB : List Area} {sB : State} (hw : subB [.ante] wB =
    true) :
    Keeps wB sB (debitShard id seq suit units s).1 ↔ Keeps wB sB s := debitShard_keeps rfl hw

theorem holdPend_keeps {id seq slot : Nat} {h : Shard} {medium : Bool} {s : State} {wB : List Area} {sB : State} (hw
    : subB [.sessions, .ante, .host, .lanes, .fab, .fabc, .med, .pwr, .out] wB = true) :
    Keeps wB sB (holdPend id seq slot h medium s) ↔ Keeps wB sB s := by
  refine Keeps.peel (v := [.sessions, .ante, .host, .lanes, .fab, .fabc, .med, .pwr, .out]) ?_ hw
  unfold holdPend
  dsimp only
  generalize e : (if medium = true then meldFor _ _ _ _ _ else none) = x
  cases x with
  | none => simp (disch := first | decide | exact Or.inl (by decide) | exact Or.inr rfl) only [keeps_self, keeps_ite,
        ite_self, keeps_mk, reqDone_keeps, debitShard_keeps1]
  | some p =>
    have e1 : meldFor h.suit h.tombstone none (shardRecord h medium).units s = some (p.1, p.2) := by
      cases medium
      · cases e
      · exact e
    dsimp only
    simp (disch := first | decide | exact Or.inl (by decide) | exact Or.inr rfl) only [keeps_self, keeps_mk,
        sealRow_keeps, placeIn_keeps, kittyCancel_keeps]
    exact (meldFor_keeps e1 (by decide)).mpr (Keeps.refl _ _)

theorem returnShard_keeps {id seq peer ns : Nat} {key : Bytes} {s : State} {wB : List Area} {sB : State} (hw : subB
    [.host, .lanes, .fab, .fabc, .out] wB = true) :
    Keeps wB sB (returnShard id seq peer ns key s) ↔ Keeps wB sB s := by
  refine Keeps.peel (v := [.host, .lanes, .fab, .fabc, .out]) ?_ hw
  unfold returnShard
  repeat' first
    | simp (disch := first | decide | exact Or.inl (by decide) | exact Or.inr rfl) only [keeps_self, keeps_ite,
          keeps_mk, ite_self, sendRequest_keeps]
    | split

theorem rebuildAntes_keeps {h : Shard} {s : State} {wB : List Area} {sB : State} (hw : subB [.ante] wB = true) :
    Keeps wB sB (rebuildAntes h s) ↔ Keeps wB sB s := by
  refine Keeps.peel (v := [.ante]) ?_ hw
  unfold rebuildAntes
  repeat' first
    | simp (disch := first | decide | exact Or.inl (by decide) | exact Or.inr rfl) only [keeps_self, keeps_ite,
          keeps_mk, ite_self]
    | with_reducible refine (takeAntes_keeps (by assumption) (by decide)).mpr ?_
    | with_reducible refine keeps_getD (fun _ _ => ?_) ?_
    | split

theorem runReq_keeps {id seq : Nat} {x : Session} {q : FabReq} {s : State} {wB : List Area} {sB : State} (hw : subB
    [.sessions, .nss, .commits, .ante, .host, .lanes, .fab, .fabc, .idx, .med, .mem, .pwr, .evr, .out] wB = true) :
    Keeps wB sB (runReq id seq x q s) ↔ Keeps wB sB s := by
  refine Keeps.peel (v := [.sessions, .nss, .commits, .ante, .host, .lanes, .fab, .fabc, .idx, .med, .mem, .pwr,
      .evr, .out]) ?_ hw
  unfold runReq
  repeat' first
    | simp (disch := first | decide | exact Or.inl (by decide) | exact Or.inr rfl) only [keeps_self, keeps_ite,
          keeps_mk, ite_self, holdPend_keeps, settlePend_keeps, settleKitty_keeps, rebuildAntes_keeps,
          debitShard_keeps1, reqDone_keeps, commitRecord_keeps, recordHere_keeps, returnShard_keeps,
          kittyCancel_keeps]
    | with_reducible refine (debitShard_keeps (by assumption) (by decide)).mpr ?_
    | split

theorem acceptReq_keeps {id seq : Nat} {q : FabReq} {s : State} {wB : List Area} {sB : State} (hw : subB [.sessions,
    .nss, .commits, .ante, .host, .lanes, .fab, .fabc, .idx, .med, .mem, .pwr, .evr, .out] wB = true) :
    Keeps wB sB (acceptReq id seq q s) ↔ Keeps wB sB s := by
  refine Keeps.peel (v := [.sessions, .nss, .commits, .ante, .host, .lanes, .fab, .fabc, .idx, .med, .mem, .pwr,
      .evr, .out]) ?_ hw
  unfold acceptReq
  repeat' first
    | simp (disch := first | decide | exact Or.inl (by decide) | exact Or.inr rfl) only [keeps_self, keeps_ite,
          keeps_mk, ite_self, modSess_keeps, redebit_keeps, runReq_keeps]
    | split

theorem refuseReq_keeps {id seq st : Nat} {x : Session} {s : State} {wB : List Area} {sB : State} (hw : subB
    [.sessions, .host, .lanes, .fab, .fabc, .out] wB = true) :
    Keeps wB sB (refuseReq id seq st x s) ↔ Keeps wB sB s := by
  refine Keeps.peel (v := [.sessions, .host, .lanes, .fab, .fabc, .out]) ?_ hw
  unfold refuseReq
  repeat' first
    | simp (disch := first | decide | exact Or.inl (by decide) | exact Or.inr rfl) only [keeps_self, keeps_ite,
          keeps_mk, ite_self, modSess_keeps, ackFrame_keeps]
    | split

theorem duplicateReq_keeps {id seq : Nat} {x : Session} {s : State} {wB : List Area} {sB : State} (hw : subB [.dlr,
    .host, .lanes, .fab, .fabc, .out] wB = true) :
    Keeps wB sB (duplicateReq id seq x s) ↔ Keeps wB sB s := by
  refine Keeps.peel (v := [.dlr, .host, .lanes, .fab, .fabc, .out]) ?_ hw
  unfold duplicateReq
  repeat' first
    | simp (disch := first | decide | exact Or.inl (by decide) | exact Or.inr rfl) only [keeps_self, keeps_ite,
          keeps_mk, ite_self, ackFrame_keeps]
    | split

theorem replay_keeps {id n : Nat} {s : State} {wB : List Area} {sB : State} (hw : subB [.sessions, .nss, .commits,
    .ante, .host, .lanes, .fab, .fabc, .idx, .med, .mem, .pwr, .evr, .out] wB = true) :
    Keeps wB sB (replay id n s) ↔ Keeps wB sB s := by
  refine Keeps.peel (v := [.sessions, .nss, .commits, .ante, .host, .lanes, .fab, .fabc, .idx, .med, .mem, .pwr,
      .evr, .out]) ?_ hw
  induction n generalizing s with
  | zero => exact Keeps.refl _ _
  | succ k ih =>
    unfold replay
    repeat' first
      | exact Keeps.refl _ _
      | (refine Keeps.trans ?_ ih; simp (disch := first | decide | exact Or.inl (by decide) | exact Or.inr rfl) only
            [keeps_self, keeps_mk, acceptReq_keeps]; done)
      | (simp (disch := first | decide | exact Or.inl (by decide) | exact Or.inr rfl) only [keeps_self, keeps_mk,
            refuseReq_keeps]; done)
      | split
      | dsimp only

theorem arriveReq_keeps {id seq wanted : Nat} {q : FabReq} {s : State} {wB : List Area} {sB : State} (hw : subB
    [.dlr, .sessions, .nss, .commits, .ante, .host, .lanes, .fab, .fabc, .idx, .med, .mem, .pwr, .evr, .out] wB =
    true) :
    Keeps wB sB (arriveReq id seq wanted q s) ↔ Keeps wB sB s := by
  refine Keeps.peel (v := [.dlr, .sessions, .nss, .commits, .ante, .host, .lanes, .fab, .fabc, .idx, .med, .mem,
      .pwr, .evr, .out]) ?_ hw
  unfold arriveReq
  repeat' first
    | simp (disch := first | decide | exact Or.inl (by decide) | exact Or.inr rfl) only [keeps_self, keeps_ite,
          keeps_mk, ite_self, duplicateReq_keeps, acceptReq_keeps, raiseGrant_keeps, replay_keeps, refuseReq_keeps,
          ackFrame_keeps]
    | split

theorem execFabricOpen_keeps (src request : Nat) (s : State) : KeepsR [.sessions, .ante, .host, .lanes, .fab, .fabc,
    .pwr, .out] s (execFabricOpen src request s) := by
  unfold execFabricOpen
  repeat' first
    | simp (disch := first | decide | exact Or.inl (by decide) | exact Or.inr rfl) only [keeps_self, keeps_ite,
          keeps_mk, ite_self, keepsR_next, keepsR_fault, keepsR_refused, keepsR_ite, bindCtx_keeps1,
          openSession_keeps, sendAck_keeps, guard, raiseGrant_keeps, whenRunning, sendOwn_keeps]
    | with_reducible refine (bindCtx_keeps (by assumption) (by decide)).mpr ?_
    | split

theorem execFabricOpenReply_keeps (src request session status : Nat) (s : State) : KeepsR [.host, .lanes, .fab,
    .fabc, .out] s (execFabricOpenReply src request session status s) := by
  unfold execFabricOpenReply
  repeat' first
    | simp (disch := first | decide | exact Or.inl (by decide) | exact Or.inr rfl) only [keeps_self, keeps_ite,
          keeps_mk, ite_self, keepsR_next, keepsR_fault, keepsR_refused, keepsR_ite, drainPeer_keeps, guard,
          setLink_keeps, whenRunning]
    | split

theorem execFabricClose_keeps (session : Nat) (s : State) : KeepsR [.sessions, .ante, .host, .fab, .pwr] s
    (execFabricClose session s) := by
  unfold execFabricClose
  repeat' first
    | simp (disch := first | decide | exact Or.inl (by decide) | exact Or.inr rfl) only [keeps_self, keeps_ite,
          keeps_mk, ite_self, keepsR_next, keepsR_fault, keepsR_refused, keepsR_ite, guard, undebit_keeps,
          releaseSession_keeps, whenRunning, kittyCancel_keeps]
    | split

theorem acked_keeps {peer : Nat} {r : Request} {st : Nat} {s : State} {wB : List Area} {sB : State} (hw : subB [.dlr,
    .host, .lanes, .fab, .fabc, .out] wB = true) :
    Keeps wB sB (acked peer r st s) ↔ Keeps wB sB s := by
  refine Keeps.peel (v := [.dlr, .host, .lanes, .fab, .fabc, .out]) ?_ hw
  unfold acked
  repeat' first
    | simp (disch := first | decide | exact Or.inl (by decide) | exact Or.inr rfl) only [keeps_self, keeps_ite,
          keeps_mk, ite_self, tryDecide_keeps, modProt_keeps]
    | split

theorem execFabricAck_keeps (peer through grant : Nat) (pairs : List (Nat × Nat)) (s : State) : KeepsR [.dlr, .host,
    .lanes, .fab, .fabc, .out] s (execFabricAck peer through grant pairs s) := by
  unfold execFabricAck
  repeat' first
    | simp (disch := first | decide | exact Or.inl (by decide) | exact Or.inr rfl) only [keeps_self, keeps_ite,
          keeps_mk, ite_self, keepsR_next, keepsR_fault, keepsR_refused, keepsR_ite, drainPeer_keeps, guard,
          setLink_keeps, whenRunning, acked_keeps]
    | with_reducible refine keeps_each (fun _ _ => ?_) ?_
    | with_reducible refine keeps_getD (fun _ _ => ?_) ?_
    | split

theorem execSessionRetransmit_keeps (peer seq : Nat) (s : State) : KeepsR [.host, .lanes, .fab, .fabc, .out] s
    (execSessionRetransmit peer seq s) := by
  unfold execSessionRetransmit
  repeat' first
    | simp (disch := first | decide | exact Or.inl (by decide) | exact Or.inr rfl) only [keeps_self, keeps_ite,
          keeps_mk, ite_self, keepsR_next, keepsR_fault, keepsR_refused, keepsR_ite, guard, setLink_keeps,
          dataFrame_keeps, whenRunning]
    | split

theorem execIdleCreditReturnTimer_keeps (peer : Nat) (s : State) : KeepsR [.host, .lanes, .fab, .fabc, .out] s
    (execIdleCreditReturnTimer peer s) := by
  unfold execIdleCreditReturnTimer
  repeat' first
    | simp (disch := first | decide | exact Or.inl (by decide) | exact Or.inr rfl) only [keeps_self, keeps_ite,
          keeps_mk, ite_self, keepsR_next, keepsR_fault, keepsR_refused, keepsR_ite, guard, whenRunning,
          sendRequest_keeps]
    | split

theorem execCreditReturn_keeps (session seq units : Nat) (s : State) : KeepsR [.dlr, .sessions, .nss, .commits,
    .ante, .host, .lanes, .fab, .fabc, .idx, .med, .mem, .pwr, .evr, .out] s (execCreditReturn session seq units s)
    := by
  unfold execCreditReturn
  repeat' first
    | simp (disch := first | decide | exact Or.inl (by decide) | exact Or.inr rfl) only [keeps_self, keeps_ite,
          keeps_mk, ite_self, keepsR_next, keepsR_fault, keepsR_refused, keepsR_ite, arriveReq_keeps, whenRunning]
    | split

theorem execShardHold_keeps (session seq wanted : Nat) (times : HoldTimes) (sh : Shard) (medium : Bool) (s : State) :
    KeepsR [.dlr, .sessions, .nss, .commits, .ante, .host, .lanes, .fab, .fabc, .idx, .med, .mem, .pwr, .evr, .out] s
    (execShardHold session seq wanted times sh medium s) := by
  unfold execShardHold
  repeat' first
    | simp (disch := first | decide | exact Or.inl (by decide) | exact Or.inr rfl) only [keeps_self, keeps_ite,
          keeps_mk, ite_self, keepsR_next, keepsR_fault, keepsR_refused, keepsR_ite, arriveReq_keeps, whenRunning]
    | split

theorem execShardCommit_keeps (session seq ns digest stampTime stampTie stampNode : Nat) (s : State) : KeepsR [.dlr,
    .sessions, .nss, .commits, .ante, .host, .lanes, .fab, .fabc, .idx, .med, .mem, .pwr, .evr, .out] s
    (execShardCommit session seq ns digest stampTime stampTie stampNode s) := by
  unfold execShardCommit
  repeat' first
    | simp (disch := first | decide | exact Or.inl (by decide) | exact Or.inr rfl) only [keeps_self, keeps_ite,
          keeps_mk, ite_self, keepsR_next, keepsR_fault, keepsR_refused, keepsR_ite, arriveReq_keeps, whenRunning]
    | split

theorem execShardDiscard_keeps (session seq ns digest stampTime stampTie stampNode : Nat) (s : State) : KeepsR [.dlr,
    .sessions, .nss, .commits, .ante, .host, .lanes, .fab, .fabc, .idx, .med, .mem, .pwr, .evr, .out] s
    (execShardDiscard session seq ns digest stampTime stampTie stampNode s) := by
  unfold execShardDiscard
  repeat' first
    | simp (disch := first | decide | exact Or.inl (by decide) | exact Or.inr rfl) only [keeps_self, keeps_ite,
          keeps_mk, ite_self, keepsR_next, keepsR_fault, keepsR_refused, keepsR_ite, arriveReq_keeps, whenRunning]
    | split

theorem execDecide_keeps (session seq ns digest stampTime stampTie stampNode : Nat) (ok : Bool) (s : State) : KeepsR
    [.dlr, .sessions, .nss, .commits, .ante, .host, .lanes, .fab, .fabc, .idx, .med, .mem, .pwr, .evr, .out] s
    (execDecide session seq ns digest stampTime stampTie stampNode ok s) := by
  unfold execDecide
  repeat' first
    | simp (disch := first | decide | exact Or.inl (by decide) | exact Or.inr rfl) only [keeps_self, keeps_ite,
          keeps_mk, ite_self, keepsR_next, keepsR_fault, keepsR_refused, keepsR_ite, arriveReq_keeps, whenRunning]
    | split

theorem execShardRead_keeps (session seq ns : Nat) (key : Bytes) (s : State) : KeepsR [.dlr, .sessions, .nss,
    .commits, .ante, .host, .lanes, .fab, .fabc, .idx, .med, .mem, .pwr, .evr, .out] s (execShardRead session seq ns
    key s) := by
  unfold execShardRead
  repeat' first
    | simp (disch := first | decide | exact Or.inl (by decide) | exact Or.inr rfl) only [keeps_self, keeps_ite,
          keeps_mk, ite_self, keepsR_next, keepsR_fault, keepsR_refused, keepsR_ite, arriveReq_keeps, whenRunning]
    | split

theorem execRebuildWrite_keeps (session seq : Nat) (sh : Shard) (s : State) : KeepsR [.dlr, .sessions, .nss,
    .commits, .ante, .host, .lanes, .fab, .fabc, .idx, .med, .mem, .pwr, .evr, .out] s (execRebuildWrite session seq
    sh s) := by
  unfold execRebuildWrite
  repeat' first
    | simp (disch := first | decide | exact Or.inl (by decide) | exact Or.inr rfl) only [keeps_self, keeps_ite,
          keeps_mk, ite_self, keepsR_next, keepsR_fault, keepsR_refused, keepsR_ite, arriveReq_keeps, whenRunning]
    | split

theorem execFabricRequestInvalid_keeps (session seq code : Nat) (s : State) : KeepsR [.dlr, .sessions, .nss,
    .commits, .ante, .host, .lanes, .fab, .fabc, .idx, .med, .mem, .pwr, .evr, .out] s (execFabricRequestInvalid
    session seq code s) := by
  unfold execFabricRequestInvalid
  repeat' first
    | simp (disch := first | decide | exact Or.inl (by decide) | exact Or.inr rfl) only [keeps_self, keeps_ite,
          keeps_mk, ite_self, keepsR_next, keepsR_fault, keepsR_refused, keepsR_ite, guard, arriveReq_keeps,
          whenRunning]
    | split

theorem execOrderRequest_keeps (src request ns digest mapCrc : Nat) (write : Bool) (until_ : Nat) (s : State) :
    KeepsR [.host, .lanes, .fab, .fabc, .out] s (execOrderRequest src request ns digest mapCrc write until_ s) := by
  unfold execOrderRequest
  repeat' first
    | simp (disch := first | decide | exact Or.inl (by decide) | exact Or.inr rfl) only [keeps_self, keeps_ite,
          keeps_mk, ite_self, keepsR_next, keepsR_fault, keepsR_refused, keepsR_ite, leadAnswer_keeps1, guard,
          endOrder_keeps, whenRunning, sendOwn_keeps]
    | with_reducible refine (leadAnswer_keeps (by assumption) (by decide)).mpr ?_
    | split

theorem execOrderReply_keeps (src request : Nat) (ans : OrderAnswer) (s : State) : KeepsR [.clk, .dlr, .jnl,
    .sessions, .nss, .ante, .host, .lanes, .fab, .fabc, .cam, .med, .pwr, .evr, .out, .draws] s (execOrderReply src
    request ans s) := by
  unfold execOrderReply
  repeat' first
    | simp (disch := first | decide | exact Or.inl (by decide) | exact Or.inr rfl) only [keeps_self, keeps_ite,
          keeps_mk, ite_self, keepsR_next, keepsR_fault, keepsR_refused, keepsR_ite, admitItems_keeps, whenRunning]
    | split

theorem execOrderTimeout_keeps (request : Nat) (s : State) : KeepsR [.dlr, .jnl, .sessions, .ante, .host, .lanes,
    .fab, .fabc, .out, .draws] s (execOrderTimeout request s) := by
  unfold execOrderTimeout
  repeat' first
    | simp (disch := first | decide | exact Or.inl (by decide) | exact Or.inr rfl) only [keeps_self, keeps_ite,
          keeps_mk, ite_self, keepsR_next, keepsR_fault, keepsR_refused, keepsR_ite, dropOrder_keeps, whenRunning,
          refuseRetry_keeps, refuseStep_keeps]
    | split

theorem execWriteOrderExpiry_keeps (ns digest : Nat) (s : State) : KeepsR [.fab] s (execWriteOrderExpiry ns digest s)
    := by
  unfold execWriteOrderExpiry
  repeat' first
    | simp (disch := first | decide | exact Or.inl (by decide) | exact Or.inr rfl) only [keeps_self, keeps_ite,
          keeps_mk, ite_self, keepsR_next, keepsR_fault, keepsR_refused, keepsR_ite, guard, endOrder_keeps,
          whenRunning]
    | split

theorem execLeadHorizonEnd_keeps (node : Nat) (s : State) : KeepsR [.fab] s (execLeadHorizonEnd node s) := by
  unfold execLeadHorizonEnd
  repeat' first
    | simp (disch := first | decide | exact Or.inl (by decide) | exact Or.inr rfl) only [keeps_self, keeps_ite,
          keeps_mk, ite_self, keepsR_next, keepsR_fault, keepsR_refused, keepsR_ite, guard, whenRunning]
    | split

theorem execShardHoldDeadline_keeps (session seq : Nat) (s : State) : KeepsR [.dlr, .host, .lanes, .fab, .fabc, .out]
    s (execShardHoldDeadline session seq s) := by
  unfold execShardHoldDeadline
  repeat' first
    | simp (disch := first | decide | exact Or.inl (by decide) | exact Or.inr rfl) only [keeps_self, keeps_ite,
          keeps_mk, ite_self, keepsR_next, keepsR_fault, keepsR_refused, keepsR_ite, tryDecide_keeps, guard,
          whenRunning]
    | split

theorem pressDecide_keeps {f : InFlight} {n : Nat} {s : State} {wB : List Area} {sB : State} (hw : subB [.host,
    .lanes, .fab, .fabc, .out] wB = true) :
    Keeps wB sB (pressDecide f n s) ↔ Keeps wB sB s := by
  refine Keeps.peel (v := [.host, .lanes, .fab, .fabc, .out]) ?_ hw
  unfold pressDecide
  repeat' first
    | simp (disch := first | decide | exact Or.inl (by decide) | exact Or.inr rfl) only [keeps_self, keeps_ite,
          keeps_mk, ite_self, dataFrame_keeps]
    | with_reducible refine keeps_each (fun _ _ => ?_) ?_
    | split

theorem execDecideTimeout_keeps (session seq : Nat) (s : State) : KeepsR [.dlr, .host, .lanes, .fab, .fabc, .out] s
    (execDecideTimeout session seq s) := by
  unfold execDecideTimeout
  repeat' first
    | simp (disch := first | decide | exact Or.inl (by decide) | exact Or.inr rfl) only [keeps_self, keeps_ite,
          keeps_mk, ite_self, keepsR_next, keepsR_fault, keepsR_refused, keepsR_ite, modProt_keeps, guard,
          sendDecide_keeps, whenRunning, pressDecide_keeps]
    | with_reducible refine keeps_each (fun _ _ => ?_) ?_
    | split

theorem execPendingShardResolve_keeps (stampTime stampTie stampNode : Nat) (answer : Recorded) (s : State) : KeepsR
    [.sessions, .nss, .commits, .ante, .host, .lanes, .fab, .fabc, .idx, .med, .mem, .pwr, .evr, .out] s
    (execPendingShardResolve stampTime stampTie stampNode answer s) := by
  unfold execPendingShardResolve
  repeat' first
    | simp (disch := first | decide | exact Or.inl (by decide) | exact Or.inr rfl) only [keeps_self, keeps_ite,
          keeps_mk, ite_self, keepsR_next, keepsR_fault, keepsR_refused, keepsR_ite, settleOne_keeps, whenRunning]
    | split

theorem goOn_keeps {session seq : Nat} {s : State} {wB : List Area} {sB : State} (hw : subB [.dlr, .jnl, .sessions,
    .nss, .commits, .ante, .host, .lanes, .fab, .fabc, .idx, .med, .mem, .pwr, .evr, .out, .draws] wB = true) :
    Keeps wB sB (goOn session seq s) ↔ Keeps wB sB s := by
  refine Keeps.peel (v := [.dlr, .jnl, .sessions, .nss, .commits, .ante, .host, .lanes, .fab, .fabc, .idx, .med,
      .mem, .pwr, .evr, .out, .draws]) ?_ hw
  unfold goOn
  repeat' first
    | simp (disch := first | decide | exact Or.inl (by decide) | exact Or.inr rfl) only [keeps_self, keeps_ite,
          keeps_mk, ite_self, runKeyed_keeps, tryCommit_keeps]
    | split

theorem takeShard_keeps {f : InFlight} {p : Protect} {holder : Nat} {committed : Bool} {sh : Shard} {s : State} {wB :
    List Area} {sB : State} (hw : subB [.dlr, .jnl, .sessions, .nss, .commits, .ante, .host, .lanes, .fab, .fabc,
    .idx, .med, .mem, .pwr, .evr, .out, .draws] wB = true) :
    Keeps wB sB (takeShard f p holder committed sh s) ↔ Keeps wB sB s := by
  refine Keeps.peel (v := [.dlr, .jnl, .sessions, .nss, .commits, .ante, .host, .lanes, .fab, .fabc, .idx, .med,
      .mem, .pwr, .evr, .out, .draws]) ?_ hw
  unfold takeShard
  repeat' first
    | simp (disch := first | decide | exact Or.inl (by decide) | exact Or.inr rfl) only [keeps_self, keeps_ite,
          keeps_mk, ite_self, modProt_keeps, goOn_keeps, sendRequest_keeps]
    | split

theorem execShardReadData_keeps (session seq holder : Nat) (committed : Bool) (version : Nat) (sh : Shard) (s :
    State) : KeepsR [.dlr, .jnl, .sessions, .nss, .commits, .ante, .host, .lanes, .fab, .fabc, .idx, .med, .mem,
    .pwr, .evr, .out, .draws] s (execShardReadData session seq holder committed version sh s) := by
  unfold execShardReadData
  repeat' first
    | simp (disch := first | decide | exact Or.inl (by decide) | exact Or.inr rfl) only [keeps_self, keeps_ite,
          keeps_mk, ite_self, keepsR_next, keepsR_fault, keepsR_refused, keepsR_ite, whenRunning, takeShard_keeps]
    | split

theorem execShardReadAllowanceExpiry_keeps (session seq : Nat) (s : State) : KeepsR [.dlr, .jnl, .sessions, .nss,
    .commits, .ante, .host, .lanes, .fab, .fabc, .idx, .med, .mem, .pwr, .evr, .out, .draws] s
    (execShardReadAllowanceExpiry session seq s) := by
  unfold execShardReadAllowanceExpiry
  repeat' first
    | simp (disch := first | decide | exact Or.inl (by decide) | exact Or.inr rfl) only [keeps_self, keeps_ite,
          keeps_mk, ite_self, keepsR_next, keepsR_fault, keepsR_refused, keepsR_ite, modProt_keeps, guard,
          goOn_keeps, whenRunning]
    | split

theorem endSessions_keeps {node : Nat} {s : State} {wB : List Area} {sB : State} (hw : subB [.sessions, .ante, .host,
    .fab, .pwr] wB = true) :
    Keeps wB sB (endSessions node s) ↔ Keeps wB sB s := by
  refine Keeps.peel (v := [.sessions, .ante, .host, .fab, .pwr]) ?_ hw
  unfold endSessions
  repeat' first
    | simp (disch := first | decide | exact Or.inl (by decide) | exact Or.inr rfl) only [keeps_self, keeps_ite,
          keeps_mk, ite_self, undebit_keeps, releaseSession_keeps, kittyCancel_keeps]
    | with_reducible refine keeps_each (fun _ _ => ?_) ?_
    | split

theorem execPeerFailure_keeps (node : Nat) (s : State) : KeepsR [.sessions, .ante, .host, .fab, .pwr] s
    (execPeerFailure node s) := by
  unfold execPeerFailure
  repeat' first
    | simp (disch := first | decide | exact Or.inl (by decide) | exact Or.inr rfl) only [keeps_self, keeps_ite,
          keeps_mk, ite_self, keepsR_next, keepsR_fault, keepsR_refused, keepsR_ite, guard, endSessions_keeps,
          whenRunning]
    | split

theorem settleRebuild_keeps {s : State} {wB : List Area} {sB : State} (hw : subB [.host, .fab, .evr, .out] wB = true)
    :
    Keeps wB sB (settleRebuild s) ↔ Keeps wB sB s := by
  refine Keeps.peel (v := [.host, .fab, .evr, .out]) ?_ hw
  unfold settleRebuild
  repeat' first
    | simp (disch := first | decide | exact Or.inl (by decide) | exact Or.inr rfl) only [keeps_self, keeps_ite,
          keeps_mk, ite_self, event_keeps]
    | with_reducible refine keeps_each (fun _ _ => ?_) ?_
    | split

theorem storeRebuilt_keeps {h : Shard} {s : State} {uB : State} {wB : List Area} {sB : State} (h : storeRebuilt h s =
    some uB) (hw : subB [.nss, .commits, .ante, .host, .idx, .med, .mem, .pwr, .evr, .out] wB = true) :
    Keeps wB sB uB ↔ Keeps wB sB s := by
  refine Keeps.peel (v := [.nss, .commits, .ante, .host, .idx, .med, .mem, .pwr, .evr, .out]) ?_ hw
  unfold storeRebuilt at h
  repeat' first
    | (simp only [Option.some.injEq, reduceCtorEq, Option.ite_none_right_eq_some, Option.ite_none_left_eq_some,
          Option.map_eq_some_iff, Option.bind_eq_some_iff] at h; done)
    | split at h
    | simp only [Option.some.injEq, reduceCtorEq] at h
    | subst h
  all_goals repeat' first
    | simp (disch := first | decide | exact Or.inl (by decide) | exact Or.inr rfl) only [keeps_self, keeps_ite,
          keeps_mk, ite_self, kittyReserve_keeps, settleKitty_keeps, commitRecord_keeps]
    | with_reducible refine (makeDebits_keeps (by assumption) (by decide)).mpr ?_
    | split

theorem rebuildOn_keeps {o : Owed} {h : Shard} {s : State} {wB : List Area} {sB : State} (hw : subB [.nss, .commits,
    .ante, .host, .lanes, .fab, .fabc, .idx, .med, .mem, .pwr, .evr, .out] wB = true) :
    Keeps wB sB (rebuildOn o h s) ↔ Keeps wB sB s := by
  refine Keeps.peel (v := [.nss, .commits, .ante, .host, .lanes, .fab, .fabc, .idx, .med, .mem, .pwr, .evr, .out]) ?_
      hw
  unfold rebuildOn
  split
  · generalize e : (if haveNewer s h = true then some s else storeRebuilt h s) = x
    cases x with
    | none => exact Keeps.refl _ _
    | some u =>
      simp (disch := first | decide | exact Or.inl (by decide) | exact Or.inr rfl) only [keeps_mk,
          settleRebuild_keeps]
      split at e
      · cases e
        exact Keeps.refl _ _
      · exact (storeRebuilt_keeps e (by decide)).mpr (Keeps.refl _ _)
  · simp (disch := first | decide | exact Or.inl (by decide) | exact Or.inr rfl) only [keeps_self, sendRequest_keeps]

theorem askSources_keeps {o : Owed} {l : List Shard} {s : State} {wB : List Area} {sB : State} (hw : subB [.host,
    .lanes, .fab, .fabc, .out] wB = true) :
    Keeps wB sB (askSources o l s) ↔ Keeps wB sB s := by
  refine Keeps.peel (v := [.host, .lanes, .fab, .fabc, .out]) ?_ hw
  unfold askSources
  repeat' first
    | simp (disch := first | decide | exact Or.inl (by decide) | exact Or.inr rfl) only [keeps_self, keeps_ite,
          keeps_mk, ite_self, sendRequest_keeps]
    | with_reducible refine keeps_each (fun _ _ => ?_) ?_
    | split

theorem dropGathered_keeps {o : Owed} {s : State} {wB : List Area} {sB : State} (hw : subB [.fab] wB = true) :
    Keeps wB sB (dropGathered o s) ↔ Keeps wB sB s := by
  refine Keeps.peel (v := [.fab]) ?_ hw
  unfold dropGathered
  repeat' first
    | simp (disch := first | decide | exact Or.inl (by decide) | exact Or.inr rfl) only [keeps_self, keeps_ite,
          keeps_mk, ite_self]
    | split

theorem rebuildShard_keeps {o : Owed} {h : Shard} {s : State} {wB : List Area} {sB : State} (hw : subB [.nss,
    .commits, .ante, .host, .lanes, .fab, .fabc, .idx, .med, .mem, .pwr, .evr, .out] wB = true) :
    Keeps wB sB (rebuildShard o h s) ↔ Keeps wB sB s := by
  refine Keeps.peel (v := [.nss, .commits, .ante, .host, .lanes, .fab, .fabc, .idx, .med, .mem, .pwr, .evr, .out]) ?_
      hw
  unfold rebuildShard
  repeat' first
    | simp (disch := first | decide | exact Or.inl (by decide) | exact Or.inr rfl) only [keeps_self, keeps_ite,
          keeps_mk, ite_self, rebuildOn_keeps, dropGathered_keeps]
    | with_reducible refine (takeAntes_keeps (by assumption) (by decide)).mpr ?_
    | split

theorem rebuildFrom_keeps {o : Owed} {i : Nat} {s : State} {wB : List Area} {sB : State} (hw : subB [.nss, .commits,
    .ante, .host, .lanes, .fab, .fabc, .idx, .med, .mem, .pwr, .evr, .out] wB = true) :
    Keeps wB sB (rebuildFrom o i s) ↔ Keeps wB sB s := by
  refine Keeps.peel (v := [.nss, .commits, .ante, .host, .lanes, .fab, .fabc, .idx, .med, .mem, .pwr, .evr, .out]) ?_
      hw
  unfold rebuildFrom
  repeat' first
    | simp (disch := first | decide | exact Or.inl (by decide) | exact Or.inr rfl) only [keeps_self, keeps_ite,
          keeps_mk, ite_self, askSources_keeps, rebuildShard_keeps]
    | split

theorem execShardRebuild_keeps (ns digest : Nat) (s : State) : KeepsR [.nss, .commits, .ante, .host, .lanes, .fab,
    .fabc, .idx, .med, .mem, .pwr, .evr, .out] s (execShardRebuild ns digest s) := by
  unfold execShardRebuild
  repeat' first
    | simp (disch := first | decide | exact Or.inl (by decide) | exact Or.inr rfl) only [keeps_self, keeps_ite,
          keeps_mk, ite_self, keepsR_next, keepsR_fault, keepsR_refused, keepsR_ite, settleRebuild_keeps,
          rebuildFrom_keeps, whenRunning]
    | split

end Sys2Proof.Machine
end

