-- ==== Sys2Proof/Laws/FrameRows.lean ====
section
/-! SUPPORT. What each operation of Machine/Rows.lean may change: `f_keeps` takes `f` off the end of a chain of operations
whenever the areas it may change are among those allowed. -/

set_option linter.all false

namespace Sys2Proof.Machine

open Sys2Proof

theorem onFlash_keeps {a : Nat} {r : Record} {s : State} {wB : List Area} {sB : State} (hw : subB [.med] wB = true) :
    Keeps wB sB (onFlash a r s) ↔ Keeps wB sB s := by
  refine Keeps.peel (v := [.med]) ?_ hw
  unfold onFlash
  repeat' first
    | simp (disch := first | decide | exact Or.inl (by decide) | exact Or.inr rfl) only [keeps_self, keeps_ite,
          keeps_mk, ite_self]
    | split

theorem systemLanded_keeps {a : Nat} {r : Record} {s : State} {wB : List Area} {sB : State} (hw : subB [.med] wB =
    true) :
    Keeps wB sB (systemLanded a r s) ↔ Keeps wB sB s := by
  refine Keeps.peel (v := [.med]) ?_ hw
  unfold systemLanded
  repeat' first
    | simp (disch := first | decide | exact Or.inl (by decide) | exact Or.inr rfl) only [keeps_self, keeps_ite,
          keeps_mk, ite_self]
    | split

theorem copyLanded_keeps {a old : Nat} {r : Record} {s : State} {wB : List Area} {sB : State} (hw : subB [.med] wB =
    true) :
    Keeps wB sB (copyLanded a old r s) ↔ Keeps wB sB s := by
  refine Keeps.peel (v := [.med]) ?_ hw
  unfold copyLanded
  repeat' first
    | simp (disch := first | decide | exact Or.inl (by decide) | exact Or.inr rfl) only [keeps_self, keeps_ite,
          keeps_mk, ite_self]
    | split

theorem shardLanded_keeps {p : Pending} {s : State} {wB : List Area} {sB : State} (hw : subB [.sessions, .host,
    .lanes, .fab, .fabc, .out] wB = true) :
    Keeps wB sB (shardLanded p s) ↔ Keeps wB sB s := by
  refine Keeps.peel (v := [.sessions, .host, .lanes, .fab, .fabc, .out]) ?_ hw
  unfold shardLanded
  repeat' first
    | simp (disch := first | decide | exact Or.inl (by decide) | exact Or.inr rfl) only [keeps_self, keeps_ite,
          keeps_mk, ite_self, reqDone_keeps]
    | split

theorem writeLanded_keeps {id seq : Nat} {s : State} {wB : List Area} {sB : State} (hw : subB [.dlr, .jnl, .sessions,
    .nss, .commits, .ante, .host, .lanes, .fab, .fabc, .idx, .med, .mem, .pwr, .evr, .out, .draws] wB = true) :
    Keeps wB sB (writeLanded id seq s) ↔ Keeps wB sB s := by
  refine Keeps.peel (v := [.dlr, .jnl, .sessions, .nss, .commits, .ante, .host, .lanes, .fab, .fabc, .idx, .med,
      .mem, .pwr, .evr, .out, .draws]) ?_ hw
  unfold writeLanded
  repeat' first
    | simp (disch := first | decide | exact Or.inl (by decide) | exact Or.inr rfl) only [keeps_self, keeps_ite,
          keeps_mk, ite_self, tryDecide_keeps, modFlight_keeps, tryCommit_keeps]
    | split

theorem recordLanded_keeps {x : Placed} {s : State} {wB : List Area} {sB : State} (hw : subB [.dlr, .jnl, .sessions,
    .nss, .commits, .ante, .host, .lanes, .fab, .fabc, .idx, .med, .mem, .pwr, .evr, .out, .draws] wB = true) :
    Keeps wB sB (recordLanded x s) ↔ Keeps wB sB s := by
  refine Keeps.peel (v := [.dlr, .jnl, .sessions, .nss, .commits, .ante, .host, .lanes, .fab, .fabc, .idx, .med,
      .mem, .pwr, .evr, .out, .draws]) ?_ hw
  unfold recordLanded
  repeat' first
    | simp (disch := first | decide | exact Or.inl (by decide) | exact Or.inr rfl) only [keeps_self, keeps_ite,
          keeps_mk, ite_self, copyLanded_keeps, kittyFree_keeps, shardLanded_keeps, systemLanded_keeps,
          onFlash_keeps, writeLanded_keeps]
    | split

theorem rowDone_keeps {n r : Nat} {s : State} {wB : List Area} {sB : State} (hw : subB [.dlr, .jnl, .sessions, .nss,
    .commits, .ante, .host, .lanes, .fab, .fabc, .idx, .med, .mem, .pwr, .evr, .out, .draws] wB = true) :
    Keeps wB sB (rowDone n r s) ↔ Keeps wB sB s := by
  refine Keeps.peel (v := [.dlr, .jnl, .sessions, .nss, .commits, .ante, .host, .lanes, .fab, .fabc, .idx, .med,
      .mem, .pwr, .evr, .out, .draws]) ?_ hw
  unfold rowDone
  repeat' first
    | simp (disch := first | decide | exact Or.inl (by decide) | exact Or.inr rfl) only [keeps_self, keeps_ite,
          keeps_mk, ite_self, settleMeld_keeps, setMeld_keeps, recordLanded_keeps]
    | with_reducible refine keeps_each (fun _ _ => ?_) ?_
    | split

theorem placeAgain_keeps {stream : Nat} {x : Placed} {s : State} {wB : List Area} {sB : State} (hw : subB [.dlr,
    .ante, .fab, .med] wB = true) :
    Keeps wB sB (placeAgain stream x s) ↔ Keeps wB sB s := by
  refine Keeps.peel (v := [.dlr, .ante, .fab, .med]) ?_ hw
  unfold placeAgain
  repeat' first
    | simp (disch := first | decide | exact Or.inl (by decide) | exact Or.inr rfl) only [keeps_self, keeps_ite,
          keeps_mk, ite_self, placeIn_keeps, modFlight_keeps, sealRow_keeps]
    | with_reducible refine (meldFor_keeps (by assumption) (by decide)).mpr ?_
    | split

theorem stopMeld_keeps {n : Nat} {s : State} {aB : List Placed} {uB : State} {wB : List Area} {sB : State} (h :
    stopMeld n s = (uB, aB)) (hw : subB [.ante, .med] wB = true) :
    Keeps wB sB uB ↔ Keeps wB sB s := by
  refine Keeps.peel (v := [.ante, .med]) ?_ hw
  unfold stopMeld at h
  repeat' first
    | cases h
    | split at h
    | dsimp only at h
  all_goals repeat' first
    | simp (disch := first | decide | exact Or.inl (by decide) | exact Or.inr rfl) only [keeps_self, keeps_ite,
          keeps_mk, ite_self, setMeld_keeps]
    | split

theorem stopMeld_keeps1 {n : Nat} {s : State} {wB : List Area} {sB : State} (hw : subB [.ante, .med] wB = true) :
    Keeps wB sB (stopMeld n s).1 ↔ Keeps wB sB s := stopMeld_keeps rfl hw

theorem rowTorn_keeps {n : Nat} {failed : List ProgFail} {s : State} {wB : List Area} {sB : State} (hw : subB [.boot,
    .dlr, .ante, .host, .fab, .med, .pwr, .evr, .out] wB = true) :
    Keeps wB sB (rowTorn n failed s) ↔ Keeps wB sB s := by
  refine Keeps.peel (v := [.boot, .dlr, .ante, .host, .fab, .med, .pwr, .evr, .out]) ?_ hw
  unfold rowTorn
  repeat' first
    | simp (disch := first | decide | exact Or.inl (by decide) | exact Or.inr rfl) only [keeps_self, keeps_ite,
          keeps_mk, ite_self, modFlashChan_keeps, settleMeld_keeps, retireBlock_keeps, stopMeld_keeps1,
          relocateMeld_keeps, placeAgain_keeps]
    | with_reducible refine (stopMeld_keeps (by assumption) (by decide)).mpr ?_
    | with_reducible refine keeps_each (fun _ _ => ?_) ?_
    | split

theorem leaveMeld_keeps {n : Nat} {s : State} {wB : List Area} {sB : State} (hw : subB [.dlr, .ante, .fab, .med] wB =
    true) :
    Keeps wB sB (leaveMeld n s) ↔ Keeps wB sB s := by
  refine Keeps.peel (v := [.dlr, .ante, .fab, .med]) ?_ hw
  unfold leaveMeld
  repeat' first
    | simp (disch := first | decide | exact Or.inl (by decide) | exact Or.inr rfl) only [keeps_self, keeps_ite,
          keeps_mk, ite_self, settleMeld_keeps, stopMeld_keeps1, placeAgain_keeps]
    | with_reducible refine (stopMeld_keeps (by assumption) (by decide)).mpr ?_
    | with_reducible refine keeps_each (fun _ _ => ?_) ?_
    | split

theorem failDie_keeps {die : Nat} {s : State} {wB : List Area} {sB : State} (hw : subB [.dlr, .ante, .host, .fab,
    .med, .evr, .out] wB = true) :
    Keeps wB sB (failDie die s) ↔ Keeps wB sB s := by
  refine Keeps.peel (v := [.dlr, .ante, .host, .fab, .med, .evr, .out]) ?_ hw
  unfold failDie
  repeat' first
    | simp (disch := first | decide | exact Or.inl (by decide) | exact Or.inr rfl) only [keeps_self, keeps_ite,
          keeps_mk, ite_self, event_keeps, setDie_keeps, leaveMeld_keeps]
    | with_reducible refine keeps_each (fun _ _ => ?_) ?_
    | split

theorem execDieFailure_keeps (die : Nat) (s : State) : KeepsR [.dlr, .ante, .host, .fab, .med, .evr, .out] s
    (execDieFailure die s) := by
  unfold execDieFailure
  repeat' first
    | simp (disch := first | decide | exact Or.inl (by decide) | exact Or.inr rfl) only [keeps_self, keeps_ite,
          keeps_mk, ite_self, keepsR_next, keepsR_fault, keepsR_refused, keepsR_ite, failDie_keeps, guard,
          whenRunning]
    | split

theorem columnFails_keeps {die plane addr pos : Nat} {s : State} {wB : List Area} {sB : State} (hw : subB [.dlr,
    .ante, .host, .fab, .med, .evr, .out] wB = true) :
    Keeps wB sB (columnFails die plane addr pos s) ↔ Keeps wB sB s := by
  refine Keeps.peel (v := [.dlr, .ante, .host, .fab, .med, .evr, .out]) ?_ hw
  unfold columnFails
  repeat' first
    | simp (disch := first | decide | exact Or.inl (by decide) | exact Or.inr rfl) only [keeps_self, keeps_ite,
          keeps_mk, ite_self, failDie_keeps]
    | split

theorem deepRead_keeps {die : Nat} {s : State} {wB : List Area} {sB : State} (hw : subB [.dlr, .ante, .host, .fab,
    .med, .evr, .out] wB = true) :
    Keeps wB sB (deepRead die s) ↔ Keeps wB sB s := by
  refine Keeps.peel (v := [.dlr, .ante, .host, .fab, .med, .evr, .out]) ?_ hw
  unfold deepRead
  repeat' first
    | simp (disch := first | decide | exact Or.inl (by decide) | exact Or.inr rfl) only [keeps_self, keeps_ite,
          keeps_mk, ite_self, failDie_keeps, setDie_keeps]
    | split

theorem execCodewordReadComplete_keeps (addr : Nat) (found : CodewordRead) (s : State) : KeepsR [.dlr, .ante, .host,
    .fab, .med, .evr, .out] s (execCodewordReadComplete addr found s) := by
  unfold execCodewordReadComplete
  repeat' first
    | simp (disch := first | decide | exact Or.inl (by decide) | exact Or.inr rfl) only [keeps_self, keeps_ite,
          keeps_mk, ite_self, keepsR_next, keepsR_fault, keepsR_refused, keepsR_ite, modFlashChan_keeps,
          columnFails_keeps, setMeld_keeps, setBlk_keeps, event_keeps, codewordRepaired_keeps, whenRunning,
          deepRead_keeps]
    | with_reducible refine keeps_each (fun _ _ => ?_) ?_
    | with_reducible refine keeps_getD (fun _ _ => ?_) ?_
    | split

theorem execRowProgramComplete_keeps (meld : Nat) (failed : List ProgFail) (s : State) : KeepsR [.boot, .dlr, .jnl,
    .sessions, .nss, .commits, .ante, .host, .lanes, .fab, .fabc, .idx, .med, .mem, .pwr, .evr, .out, .draws] s
    (execRowProgramComplete meld failed s) := by
  unfold execRowProgramComplete
  repeat' first
    | simp (disch := first | decide | exact Or.inl (by decide) | exact Or.inr rfl) only [keeps_self, keeps_ite,
          keeps_mk, ite_self, keepsR_next, keepsR_fault, keepsR_refused, keepsR_ite, rowDone_keeps, rowTorn_keeps,
          whenRunning]
    | split

theorem execMeldTableSnapshot_keeps (s : State) : KeepsR [.ante, .med] s (execMeldTableSnapshot s) := by
  unfold execMeldTableSnapshot
  repeat' first
    | simp (disch := first | decide | exact Or.inl (by decide) | exact Or.inr rfl) only [keeps_self, keeps_ite,
          keeps_mk, ite_self, keepsR_next, keepsR_fault, keepsR_refused, keepsR_ite, placeSystem_keeps, whenRunning]
    | split

end Sys2Proof.Machine
end

