-- ==== Sys2Proof/Laws/FrameCores.lean ====
section
/-! SUPPORT. What each operation of Machine/Cores.lean may change: `f_keeps` takes `f` off the end of a chain of operations
whenever the areas it may change are among those allowed. -/

set_option linter.all false

namespace Sys2Proof.Machine

open Sys2Proof

theorem setRole_keeps {c r : Nat} {s : State} {wB : List Area} {sB : State} (hw : subB [.cores] wB = true) :
    Keeps wB sB (setRole c r s) ↔ Keeps wB sB s := by
  refine Keeps.peel (v := [.cores]) ?_ hw
  unfold setRole
  repeat' first
    | simp (disch := first | decide | exact Or.inl (by decide) | exact Or.inr rfl) only [keeps_self, keeps_ite,
          keeps_mk, ite_self]
    | split

theorem beginTakeover_keeps {s : State} {wB : List Area} {sB : State} (hw : subB [.cores] wB = true) :
    Keeps wB sB (beginTakeover s) ↔ Keeps wB sB s := by
  refine Keeps.peel (v := [.cores]) ?_ hw
  unfold beginTakeover
  repeat' first
    | simp (disch := first | decide | exact Or.inl (by decide) | exact Or.inr rfl) only [keeps_self, keeps_ite,
          keeps_mk, ite_self]
    | split

theorem redispatchOne_keeps {core : Nat} {f : InFlight} {s : State} {wB : List Area} {sB : State} (hw : subB [.dlr,
    .draws] wB = true) :
    Keeps wB sB (redispatchOne core f s) ↔ Keeps wB sB s := by
  refine Keeps.peel (v := [.dlr, .draws]) ?_ hw
  unfold redispatchOne
  repeat' first
    | simp (disch := first | decide | exact Or.inl (by decide) | exact Or.inr rfl) only [keeps_self, keeps_ite,
          keeps_mk, ite_self, drawn_keeps, modFlight_keeps]
    | split

theorem redispatch_keeps {core : Nat} {s : State} {wB : List Area} {sB : State} (hw : subB [.dlr, .draws] wB = true) :
    Keeps wB sB (redispatch core s) ↔ Keeps wB sB s := by
  refine Keeps.peel (v := [.dlr, .draws]) ?_ hw
  unfold redispatch
  repeat' first
    | simp (disch := first | decide | exact Or.inl (by decide) | exact Or.inr rfl) only [keeps_self, keeps_ite,
          keeps_mk, ite_self, redispatchOne_keeps]
    | with_reducible refine keeps_each (fun _ _ => ?_) ?_
    | split

theorem askDrain_keeps {c r : Nat} {s : State} {wB : List Area} {sB : State} (hw : subB [.cores, .ante] wB = true) :
    Keeps wB sB (askDrain c r s) ↔ Keeps wB sB s := by
  refine Keeps.peel (v := [.cores, .ante]) ?_ hw
  unfold askDrain
  repeat' first
    | simp (disch := first | decide | exact Or.inl (by decide) | exact Or.inr rfl) only [keeps_self, keeps_ite,
          keeps_mk, ite_self, reserveMaint_keeps]
    | split

theorem replaceRole_keeps {r : Nat} {s : State} {wB : List Area} {sB : State} (hw : subB [.cores, .ante] wB = true) :
    Keeps wB sB (replaceRole r s) ↔ Keeps wB sB s := by
  refine Keeps.peel (v := [.cores, .ante]) ?_ hw
  unfold replaceRole
  repeat' first
    | simp (disch := first | decide | exact Or.inl (by decide) | exact Or.inr rfl) only [keeps_self, keeps_ite,
          keeps_mk, ite_self, beginTakeover_keeps]
    | split

theorem dropDrain_keeps {c : Nat} {s : State} {wB : List Area} {sB : State} (hw : subB [.cores, .ante] wB = true) :
    Keeps wB sB (dropDrain c s) ↔ Keeps wB sB s := by
  refine Keeps.peel (v := [.cores, .ante]) ?_ hw
  unfold dropDrain
  repeat' first
    | simp (disch := first | decide | exact Or.inl (by decide) | exact Or.inr rfl) only [keeps_self, keeps_ite,
          keeps_mk, ite_self, dropMaint_keeps]
    | split

theorem passRole_keeps {core r : Nat} {s : State} {wB : List Area} {sB : State} (hw : subB [.cores, .ante] wB = true)
    :
    Keeps wB sB (passRole core r s) ↔ Keeps wB sB s := by
  refine Keeps.peel (v := [.cores, .ante]) ?_ hw
  unfold passRole
  repeat' first
    | simp (disch := first | decide | exact Or.inl (by decide) | exact Or.inr rfl) only [keeps_self, keeps_ite,
          keeps_mk, ite_self, replaceRole_keeps, setRole_keeps, beginTakeover_keeps]
    | split

theorem startRoles_keeps {roles : List Nat} {s : State} {wB : List Area} {sB : State} (hw : subB [.cores, .ante] wB =
    true) :
    Keeps wB sB (startRoles roles s) ↔ Keeps wB sB s := by
  refine Keeps.peel (v := [.cores, .ante]) ?_ hw
  unfold startRoles
  repeat' first
    | simp (disch := first | decide | exact Or.inl (by decide) | exact Or.inr rfl) only [keeps_self, keeps_ite,
          keeps_mk, ite_self, askDrain_keeps]
    | with_reducible refine keeps_each (fun _ _ => ?_) ?_
    | split

theorem nextWrites_keeps {n : Nat} {s : State} {wB : List Area} {sB : State} (hw : subB [.cores, .ante] wB = true) :
    Keeps wB sB (nextWrites n s) ↔ Keeps wB sB s := by
  refine Keeps.peel (v := [.cores, .ante]) ?_ hw
  induction n generalizing s with
  | zero => exact Keeps.refl _ _
  | succ k ih =>
    unfold nextWrites
    repeat' first
      | exact Keeps.refl _ _
      | (refine Keeps.trans ?_ ih; simp (disch := first | decide | exact Or.inl (by decide) | exact Or.inr rfl) only
            [keeps_self, keeps_mk, startRoles_keeps]; done)
      | split

theorem nextRoles_keeps {s : State} {wB : List Area} {sB : State} (hw : subB [.cores, .ante] wB = true) :
    Keeps wB sB (nextRoles s) ↔ Keeps wB sB s := by
  refine Keeps.peel (v := [.cores, .ante]) ?_ hw
  unfold nextRoles
  repeat' first
    | simp (disch := first | decide | exact Or.inl (by decide) | exact Or.inr rfl) only [keeps_self, keeps_ite,
          keeps_mk, ite_self, nextWrites_keeps]
    | split

theorem assignRoles_keeps {roles : List Nat} {s : State} {wB : List Area} {sB : State} (hw : subB [.cores, .ante] wB
    = true) :
    Keeps wB sB (assignRoles roles s) ↔ Keeps wB sB s := by
  refine Keeps.peel (v := [.cores, .ante]) ?_ hw
  unfold assignRoles
  repeat' first
    | simp (disch := first | decide | exact Or.inl (by decide) | exact Or.inr rfl) only [keeps_self, keeps_ite,
          keeps_mk, ite_self, nextRoles_keeps]
    | split

theorem retireCore_keeps {core : Nat} {s : State} {wB : List Area} {sB : State} (hw : subB [.cores, .dlr, .ante,
    .host, .evr, .out, .draws] wB = true) :
    Keeps wB sB (retireCore core s) ↔ Keeps wB sB s := by
  refine Keeps.peel (v := [.cores, .dlr, .ante, .host, .evr, .out, .draws]) ?_ hw
  unfold retireCore
  repeat' first
    | simp (disch := first | decide | exact Or.inl (by decide) | exact Or.inr rfl) only [keeps_self, keeps_ite,
          keeps_mk, ite_self, redispatch_keeps, dropDrain_keeps, replaceRole_keeps, passRole_keeps, nextRoles_keeps,
          event_keeps, setRole_keeps]
    | split

theorem execCoreFailure_keeps (core : Nat) (s : State) : KeepsR [.cores, .dlr, .ante, .host, .evr, .out, .draws] s
    (execCoreFailure core s) := by
  unfold execCoreFailure
  repeat' first
    | simp (disch := first | decide | exact Or.inl (by decide) | exact Or.inr rfl) only [keeps_self, keeps_ite,
          keeps_mk, ite_self, keepsR_next, keepsR_fault, keepsR_refused, keepsR_ite, retireCore_keeps, whenRunning]
    | split

theorem execCoreRoleDrain_keeps (core : Nat) (s : State) : KeepsR [.cores, .ante] s (execCoreRoleDrain core s) := by
  unfold execCoreRoleDrain
  repeat' first
    | simp (disch := first | decide | exact Or.inl (by decide) | exact Or.inr rfl) only [keeps_self, keeps_ite,
          keeps_mk, ite_self, keepsR_next, keepsR_fault, keepsR_refused, keepsR_ite, dropDrain_keeps,
          nextRoles_keeps, setRole_keeps, whenRunning]
    | split

theorem execManagementTakeoverComplete_keeps (s : State) : KeepsR [.cores] s (execManagementTakeoverComplete s) := by
  unfold execManagementTakeoverComplete
  repeat' first
    | simp (disch := first | decide | exact Or.inl (by decide) | exact Or.inr rfl) only [keeps_self, keeps_ite,
          keeps_mk, ite_self, keepsR_next, keepsR_fault, keepsR_refused, keepsR_ite, guard, whenRunning]
    | split

end Sys2Proof.Machine
end

