-- ==== Sys2Proof/Laws/FrameLinks.lean ====
section
/-! SUPPORT. What each operation of Machine/Links.lean may change: `f_keeps` takes `f` off the end of a chain of operations
whenever the areas it may change are among those allowed. -/

set_option linter.all false

namespace Sys2Proof.Machine

open Sys2Proof

theorem floodRoute_keeps {s : State} {wB : List Area} {sB : State} (hw : subB [.host, .lanes, .fab, .fabc, .out] wB =
    true) :
    Keeps wB sB (floodRoute s) ↔ Keeps wB sB s := by
  refine Keeps.peel (v := [.host, .lanes, .fab, .fabc, .out]) ?_ hw
  unfold floodRoute
  repeat' first
    | simp (disch := first | decide | exact Or.inl (by decide) | exact Or.inr rfl) only [keeps_self, keeps_ite,
          keeps_mk, ite_self, passRoute_keeps]
    | split

theorem topologyChanged_keeps {own : Bool} {s : State} {wB : List Area} {sB : State} (hw : subB [.host, .lanes, .fab,
    .fabc, .out] wB = true) :
    Keeps wB sB (topologyChanged own s) ↔ Keeps wB sB s := by
  refine Keeps.peel (v := [.host, .lanes, .fab, .fabc, .out]) ?_ hw
  unfold topologyChanged
  repeat' first
    | simp (disch := first | decide | exact Or.inl (by decide) | exact Or.inr rfl) only [keeps_self, keeps_ite,
          keeps_mk, ite_self, floodRoute_keeps]
    | with_reducible refine keeps_getD (fun _ _ => ?_) ?_
    | split

theorem moveFrames_keeps {node : Nat} {l : List TxFrame} {s : State} {wB : List Area} {sB : State} (hw : subB [.host,
    .lanes, .fabc, .out] wB = true) :
    Keeps wB sB (moveFrames node l s) ↔ Keeps wB sB s := by
  refine Keeps.peel (v := [.host, .lanes, .fabc, .out]) ?_ hw
  unfold moveFrames
  repeat' first
    | simp (disch := first | decide | exact Or.inl (by decide) | exact Or.inr rfl) only [keeps_self, keeps_ite,
          keeps_mk, ite_self, queueTo_keeps, queueAlternate_keeps]
    | with_reducible refine keeps_each (fun _ _ => ?_) ?_
    | split

theorem askTraining_keeps {n : Nat} {s : State} {wB : List Area} {sB : State} (hw : subB [.ante] wB = true) :
    Keeps wB sB (askTraining n s) ↔ Keeps wB sB s := by
  refine Keeps.peel (v := [.ante]) ?_ hw
  unfold askTraining
  repeat' first
    | simp (disch := first | decide | exact Or.inl (by decide) | exact Or.inr rfl) only [keeps_self, keeps_ite,
          keeps_mk, ite_self, reserveMaint_keeps]
    | split

theorem wakeFailed_keeps {n : Nat} {s : State} {wB : List Area} {sB : State} (hw : subB [.ante, .lanes] wB = true) :
    Keeps wB sB (wakeFailed n s) ↔ Keeps wB sB s := by
  refine Keeps.peel (v := [.ante, .lanes]) ?_ hw
  unfold wakeFailed
  repeat' first
    | simp (disch := first | decide | exact Or.inl (by decide) | exact Or.inr rfl) only [keeps_self, keeps_ite,
          keeps_mk, ite_self, modLane_keeps, askTraining_keeps]
    | split

theorem revokeLane_keeps {n : Nat} {s : State} {wB : List Area} {sB : State} (hw : subB [.ante, .host, .lanes, .fab,
    .fabc, .out] wB = true) :
    Keeps wB sB (revokeLane n s) ↔ Keeps wB sB s := by
  refine Keeps.peel (v := [.ante, .host, .lanes, .fab, .fabc, .out]) ?_ hw
  unfold revokeLane
  repeat' first
    | simp (disch := first | decide | exact Or.inl (by decide) | exact Or.inr rfl) only [keeps_self, keeps_ite,
          keeps_mk, ite_self, moveFrames_keeps, topologyChanged_keeps, revokeFrame_keeps, setLane_keeps,
          askTraining_keeps]
    | split

theorem unjoinLane_keeps {n : Nat} {s : State} {wB : List Area} {sB : State} (hw : subB [.host, .lanes, .fab, .fabc,
    .out] wB = true) :
    Keeps wB sB (unjoinLane n s) ↔ Keeps wB sB s := by
  refine Keeps.peel (v := [.host, .lanes, .fab, .fabc, .out]) ?_ hw
  unfold unjoinLane
  repeat' first
    | simp (disch := first | decide | exact Or.inl (by decide) | exact Or.inr rfl) only [keeps_self, keeps_ite,
          keeps_mk, ite_self, moveFrames_keeps, topologyChanged_keeps, setLane_keeps]
    | with_reducible refine keeps_getD (fun _ _ => ?_) ?_
    | split

theorem withdrawNode_keeps {s : State} {wB : List Area} {sB : State} (hw : subB [.host, .lanes, .fab, .fabc, .out] wB
    = true) :
    Keeps wB sB (withdrawNode s) ↔ Keeps wB sB s := by
  refine Keeps.peel (v := [.host, .lanes, .fab, .fabc, .out]) ?_ hw
  unfold withdrawNode
  repeat' first
    | simp (disch := first | decide | exact Or.inl (by decide) | exact Or.inr rfl) only [keeps_self, keeps_ite,
          keeps_mk, ite_self, unjoinLane_keeps]
    | with_reducible refine keeps_each (fun _ _ => ?_) ?_
    | split

theorem leaveUp_keeps {n : Nat} {s : State} {wB : List Area} {sB : State} (hw : subB [.ante, .host, .lanes, .fab,
    .fabc, .out] wB = true) :
    Keeps wB sB (leaveUp n s) ↔ Keeps wB sB s := by
  refine Keeps.peel (v := [.ante, .host, .lanes, .fab, .fabc, .out]) ?_ hw
  unfold leaveUp
  repeat' first
    | simp (disch := first | decide | exact Or.inl (by decide) | exact Or.inr rfl) only [keeps_self, keeps_ite,
          keeps_mk, ite_self, setLane_keeps, askTraining_keeps, revokeLane_keeps]
    | split

end Sys2Proof.Machine
end

