-- ==== Sys2Proof/Laws/FramePagesA.lean ====
section
/-! SUPPORT. What each operation of Machine/PagesA.lean may change: `f_keeps` takes `f` off the end of a chain of operations
whenever the areas it may change are among those allowed. -/

set_option linter.all false

namespace Sys2Proof.Machine

open Sys2Proof

theorem pageIf_eq {ok : Bool} {s u : State} (h : pageIf ok s = some u) : u = s := by
  unfold pageIf at h
  split at h <;> cases h
  rfl

theorem pageIf_keeps {ok : Bool} {s uB : State} {wB : List Area} {sB : State} (h : pageIf ok s = some uB)
    (hw : subB [] wB = true) : Keeps wB sB uB ↔ Keeps wB sB s := by
  rw [pageIf_eq h]

theorem write0104_keeps {s : State} {v : Nat} {uB : State} {wB : List Area} {sB : State} (h : write0104 s v = some
    uB) (hw : subB [.cores, .ante] wB = true) :
    Keeps wB sB uB ↔ Keeps wB sB s := by
  refine Keeps.peel (v := [.cores, .ante]) ?_ hw
  unfold write0104 at h
  repeat' first
    | (simp only [Option.some.injEq, reduceCtorEq, Option.ite_none_right_eq_some, Option.ite_none_left_eq_some,
          Option.map_eq_some_iff, Option.bind_eq_some_iff] at h; done)
    | split at h
    | simp only [Option.some.injEq, reduceCtorEq] at h
    | subst h
  all_goals repeat' first
    | simp (disch := first | decide | exact Or.inl (by decide) | exact Or.inr rfl) only [keeps_self, keeps_ite,
          keeps_mk, ite_self, assignRoles_keeps]
    | with_reducible refine (pageIf_keeps (by assumption) (by decide)).mpr ?_
    | split

theorem write0105_keeps {s : State} {v : Nat} {uB : State} {wB : List Area} {sB : State} (h : write0105 s v = some
    uB) (hw : subB [.buf] wB = true) :
    Keeps wB sB uB ↔ Keeps wB sB s := by
  refine Keeps.peel (v := [.buf]) ?_ hw
  unfold write0105 at h
  repeat' first
    | (simp only [Option.some.injEq, reduceCtorEq, Option.ite_none_right_eq_some, Option.ite_none_left_eq_some,
          Option.map_eq_some_iff, Option.bind_eq_some_iff] at h; done)
    | split at h
    | simp only [Option.some.injEq, reduceCtorEq] at h
    | subst h
  all_goals repeat' first
    | simp (disch := first | decide | exact Or.inl (by decide) | exact Or.inr rfl) only [keeps_self, keeps_ite,
          keeps_mk, ite_self]
    | with_reducible refine (pageIf_keeps (by assumption) (by decide)).mpr ?_
    | split

theorem write0106_keeps {s : State} {v : Nat} {uB : State} {wB : List Area} {sB : State} (h : write0106 s v = some
    uB) (hw : subB [.host] wB = true) :
    Keeps wB sB uB ↔ Keeps wB sB s := by
  refine Keeps.peel (v := [.host]) ?_ hw
  unfold write0106 at h
  repeat' first
    | (simp only [Option.some.injEq, reduceCtorEq, Option.ite_none_right_eq_some, Option.ite_none_left_eq_some,
          Option.map_eq_some_iff, Option.bind_eq_some_iff] at h; done)
    | split at h
    | simp only [Option.some.injEq, reduceCtorEq] at h
    | subst h
  all_goals repeat' first
    | simp (disch := first | decide | exact Or.inl (by decide) | exact Or.inr rfl) only [keeps_self, keeps_ite,
          keeps_mk, ite_self]
    | with_reducible refine (pageIf_keeps (by assumption) (by decide)).mpr ?_
    | split

theorem leaveFree_keeps {ns : Nat} {x : Namespace} {s : State} {wB : List Area} {sB : State} (hw : subB [.nss, .xts,
    .draws] wB = true) :
    Keeps wB sB (leaveFree ns x s) ↔ Keeps wB sB s := by
  refine Keeps.peel (v := [.nss, .xts, .draws]) ?_ hw
  unfold leaveFree
  repeat' first
    | simp (disch := first | decide | exact Or.inl (by decide) | exact Or.inr rfl) only [keeps_self, keeps_ite,
          keeps_mk, ite_self, drawn_keeps, reseed_keeps, setNs_keeps]
    | split

theorem beginRelease_keeps {ns : Nat} {s : State} {wB : List Area} {sB : State} (hw : subB [.med] wB = true) :
    Keeps wB sB (beginRelease ns s) ↔ Keeps wB sB s := by
  refine Keeps.peel (v := [.med]) ?_ hw
  unfold beginRelease
  repeat' first
    | simp (disch := first | decide | exact Or.inl (by decide) | exact Or.inr rfl) only [keeps_self, keeps_ite,
          keeps_mk, ite_self]
    | split

theorem write0201_keeps {s : State} {ns v : Nat} {uB : State} {wB : List Area} {sB : State} (h : write0201 s ns v =
    some uB) (hw : subB [.nss, .med, .xts, .draws] wB = true) :
    Keeps wB sB uB ↔ Keeps wB sB s := by
  refine Keeps.peel (v := [.nss, .med, .xts, .draws]) ?_ hw
  unfold write0201 at h
  repeat' first
    | (simp only [Option.some.injEq, reduceCtorEq, Option.ite_none_right_eq_some, Option.ite_none_left_eq_some,
          Option.map_eq_some_iff, Option.bind_eq_some_iff] at h; done)
    | split at h
    | simp only [Option.some.injEq, reduceCtorEq] at h
    | subst h
  all_goals repeat' first
    | simp (disch := first | decide | exact Or.inl (by decide) | exact Or.inr rfl) only [keeps_self, keeps_ite,
          keeps_mk, ite_self, leaveFree_keeps, beginRelease_keeps, setNs_keeps]
    | with_reducible refine (pageIf_keeps (by assumption) (by decide)).mpr ?_
    | split

theorem write0300_keeps {s : State} {v : Nat} {uB : State} {wB : List Area} {sB : State} (h : write0300 s v = some
    uB) (hw : subB [.ante] wB = true) :
    Keeps wB sB uB ↔ Keeps wB sB s := by
  refine Keeps.peel (v := [.ante]) ?_ hw
  unfold write0300 at h
  repeat' first
    | (simp only [Option.some.injEq, reduceCtorEq, Option.ite_none_right_eq_some, Option.ite_none_left_eq_some,
          Option.map_eq_some_iff, Option.bind_eq_some_iff] at h; done)
    | split at h
    | simp only [Option.some.injEq, reduceCtorEq] at h
    | subst h
  all_goals repeat' first
    | simp (disch := first | decide | exact Or.inl (by decide) | exact Or.inr rfl) only [keeps_self, keeps_ite,
          keeps_mk, ite_self]
    | with_reducible refine (pageIf_keeps (by assumption) (by decide)).mpr ?_
    | split

theorem write0301_keeps {s : State} {v : Nat} {uB : State} {wB : List Area} {sB : State} (h : write0301 s v = some
    uB) (hw : subB [.ante] wB = true) :
    Keeps wB sB uB ↔ Keeps wB sB s := by
  refine Keeps.peel (v := [.ante]) ?_ hw
  unfold write0301 at h
  repeat' first
    | (simp only [Option.some.injEq, reduceCtorEq, Option.ite_none_right_eq_some, Option.ite_none_left_eq_some,
          Option.map_eq_some_iff, Option.bind_eq_some_iff] at h; done)
    | split at h
    | simp only [Option.some.injEq, reduceCtorEq] at h
    | subst h
  all_goals repeat' first
    | simp (disch := first | decide | exact Or.inl (by decide) | exact Or.inr rfl) only [keeps_self, keeps_ite,
          keeps_mk, ite_self]
    | with_reducible refine (pageIf_keeps (by assumption) (by decide)).mpr ?_
    | split

theorem write0302_keeps {s : State} {v : Nat} {uB : State} {wB : List Area} {sB : State} (h : write0302 s v = some
    uB) (hw : subB [.ante] wB = true) :
    Keeps wB sB uB ↔ Keeps wB sB s := by
  refine Keeps.peel (v := [.ante]) ?_ hw
  unfold write0302 at h
  repeat' first
    | (simp only [Option.some.injEq, reduceCtorEq, Option.ite_none_right_eq_some, Option.ite_none_left_eq_some,
          Option.map_eq_some_iff, Option.bind_eq_some_iff] at h; done)
    | split at h
    | simp only [Option.some.injEq, reduceCtorEq] at h
    | subst h
  all_goals repeat' first
    | simp (disch := first | decide | exact Or.inl (by decide) | exact Or.inr rfl) only [keeps_self, keeps_ite,
          keeps_mk, ite_self]
    | with_reducible refine (pageIf_keeps (by assumption) (by decide)).mpr ?_
    | split

end Sys2Proof.Machine
end

