-- ==== Sys2Proof/Laws/FramePagesB.lean ====
section
/-! SUPPORT. What each operation of Machine/PagesB.lean may change: `f_keeps` takes `f` off the end of a chain of operations
whenever the areas it may change are among those allowed. -/

set_option linter.all false

namespace Sys2Proof.Machine

open Sys2Proof

theorem write0107_keeps {s : State} {v : Nat} {uB : State} {wB : List Area} {sB : State} (h : write0107 s v = some
    uB) (hw : subB [.idx] wB = true) :
    Keeps wB sB uB ↔ Keeps wB sB s := by
  refine Keeps.peel (v := [.idx]) ?_ hw
  unfold write0107 at h
  repeat' first
    | (simp only [Option.some.injEq, reduceCtorEq, Option.ite_none_right_eq_some, Option.ite_none_left_eq_some,
          Option.map_eq_some_iff, Option.bind_eq_some_iff] at h; done)
    | split at h
    | simp only [Option.some.injEq, reduceCtorEq] at h
    | subst h
  all_goals repeat' first
    | simp (disch := first | decide | exact Or.inl (by decide) | exact Or.inr rfl) only [keeps_self, keeps_ite,
          keeps_mk, ite_self]
    | with_reducible refine (pageIf_keeps (by assumption) (by decide)).mpr ?_
    | split

theorem write0400_keeps {s : State} {n v : Nat} {uB : State} {wB : List Area} {sB : State} (h : write0400 s n v =
    some uB) (hw : subB [.ante, .host, .lanes, .fab, .fabc, .out] wB = true) :
    Keeps wB sB uB ↔ Keeps wB sB s := by
  refine Keeps.peel (v := [.ante, .host, .lanes, .fab, .fabc, .out]) ?_ hw
  unfold write0400 at h
  repeat' first
    | (simp only [Option.some.injEq, reduceCtorEq, Option.ite_none_right_eq_some, Option.ite_none_left_eq_some,
          Option.map_eq_some_iff, Option.bind_eq_some_iff] at h; done)
    | split at h
    | simp only [Option.some.injEq, reduceCtorEq] at h
    | subst h
  all_goals repeat' first
    | simp (disch := first | decide | exact Or.inl (by decide) | exact Or.inr rfl) only [keeps_self, keeps_ite,
          keeps_mk, ite_self, wakeFailed_keeps, leaveUp_keeps, setLane_keeps, askTraining_keeps]
    | split

theorem write0401_keeps {s : State} {v : Nat} {uB : State} {wB : List Area} {sB : State} (h : write0401 s v = some
    uB) (hw : subB [.wake] wB = true) :
    Keeps wB sB uB ↔ Keeps wB sB s := by
  refine Keeps.peel (v := [.wake]) ?_ hw
  unfold write0401 at h
  repeat' first
    | (simp only [Option.some.injEq, reduceCtorEq, Option.ite_none_right_eq_some, Option.ite_none_left_eq_some,
          Option.map_eq_some_iff, Option.bind_eq_some_iff] at h; done)
    | split at h
    | simp only [Option.some.injEq, reduceCtorEq] at h
    | subst h
  all_goals repeat' first
    | simp (disch := first | decide | exact Or.inl (by decide) | exact Or.inr rfl) only [keeps_self, keeps_ite,
          keeps_mk, ite_self]
    | split

theorem write0500_keeps {s : State} {v : Nat} {uB : State} {wB : List Area} {sB : State} (h : write0500 s v = some
    uB) (hw : subB [.host, .lanes, .fab, .fabc, .out] wB = true) :
    Keeps wB sB uB ↔ Keeps wB sB s := by
  refine Keeps.peel (v := [.host, .lanes, .fab, .fabc, .out]) ?_ hw
  unfold write0500 at h
  repeat' first
    | (simp only [Option.some.injEq, reduceCtorEq, Option.ite_none_right_eq_some, Option.ite_none_left_eq_some,
          Option.map_eq_some_iff, Option.bind_eq_some_iff] at h; done)
    | split at h
    | simp only [Option.some.injEq, reduceCtorEq] at h
    | subst h
  all_goals repeat' first
    | simp (disch := first | decide | exact Or.inl (by decide) | exact Or.inr rfl) only [keeps_self, keeps_ite,
          keeps_mk, ite_self, withdrawNode_keeps]
    | with_reducible refine (pageIf_keeps (by assumption) (by decide)).mpr ?_
    | split

theorem stepTime_keeps {t : Nat} {s : State} {wB : List Area} {sB : State} (hw : subB [.clk, .ante, .fab] wB = true) :
    Keeps wB sB (stepTime t s) ↔ Keeps wB sB s := by
  refine Keeps.peel (v := [.clk, .ante, .fab]) ?_ hw
  unfold stepTime
  repeat' first
    | simp (disch := first | decide | exact Or.inl (by decide) | exact Or.inr rfl) only [keeps_self, keeps_ite,
          keeps_mk, ite_self]
    | split

theorem setTime_keeps {t : Nat} {s : State} {uB : State} {wB : List Area} {sB : State} (h : setTime t s = some uB)
    (hw : subB [.clk, .ante, .fab] wB = true) :
    Keeps wB sB uB ↔ Keeps wB sB s := by
  refine Keeps.peel (v := [.clk, .ante, .fab]) ?_ hw
  unfold setTime at h
  repeat' first
    | (simp only [Option.some.injEq, reduceCtorEq, Option.ite_none_right_eq_some, Option.ite_none_left_eq_some,
          Option.map_eq_some_iff, Option.bind_eq_some_iff] at h; done)
    | split at h
    | simp only [Option.some.injEq, reduceCtorEq] at h
    | subst h
  all_goals repeat' first
    | simp (disch := first | decide | exact Or.inl (by decide) | exact Or.inr rfl) only [keeps_self, keeps_ite,
          keeps_mk, ite_self, stepTime_keeps]
    | with_reducible refine (pageIf_keeps (by assumption) (by decide)).mpr ?_
    | split

theorem write0502_keeps {s : State} {v : Nat} {uB : State} {wB : List Area} {sB : State} (h : write0502 s v = some
    uB) (hw : subB [.clk, .ante, .fab] wB = true) :
    Keeps wB sB uB ↔ Keeps wB sB s := by
  refine Keeps.peel (v := [.clk, .ante, .fab]) ?_ hw
  unfold write0502 at h
  repeat' first
    | (simp only [Option.some.injEq, reduceCtorEq, Option.ite_none_right_eq_some, Option.ite_none_left_eq_some,
          Option.map_eq_some_iff, Option.bind_eq_some_iff] at h; done)
    | split at h
    | simp only [Option.some.injEq, reduceCtorEq] at h
    | subst h
  all_goals repeat' first
    | simp (disch := first | decide | exact Or.inl (by decide) | exact Or.inr rfl) only [keeps_self, keeps_ite,
          keeps_mk, ite_self]
    | with_reducible refine (setTime_keeps (by assumption) (by decide)).mpr ?_
    | split

theorem write0503_keeps {s : State} {t v : Nat} {uB : State} {wB : List Area} {sB : State}
    (h : write0503 s t v = some uB) (hw : subB [.fab] wB = true) : Keeps wB sB uB ↔ Keeps wB sB s := by
  refine Keeps.peel (v := [.fab]) ?_ hw
  rw [pageIf_eq h]
  simp (disch := first | decide | exact Or.inl (by decide) | exact Or.inr rfl) only [keeps_self, setTrunk_keeps]

theorem write0504_keeps {s : State} {v : Nat} {uB : State} {wB : List Area} {sB : State} (h : write0504 s v = some
    uB) (hw : subB [.fab] wB = true) :
    Keeps wB sB uB ↔ Keeps wB sB s := by
  refine Keeps.peel (v := [.fab]) ?_ hw
  unfold write0504 at h
  repeat' first
    | (simp only [Option.some.injEq, reduceCtorEq, Option.ite_none_right_eq_some, Option.ite_none_left_eq_some,
          Option.map_eq_some_iff, Option.bind_eq_some_iff] at h; done)
    | split at h
    | simp only [Option.some.injEq, reduceCtorEq] at h
    | subst h
  all_goals repeat' first
    | simp (disch := first | decide | exact Or.inl (by decide) | exact Or.inr rfl) only [keeps_self, keeps_ite,
          keeps_mk, ite_self]
    | with_reducible refine (pageIf_keeps (by assumption) (by decide)).mpr ?_
    | split

theorem beginRebuild_keeps {ns node : Nat} {s : State} {wB : List Area} {sB : State} (hw : subB [.host, .fab, .evr,
    .out] wB = true) :
    Keeps wB sB (beginRebuild ns node s) ↔ Keeps wB sB s := by
  refine Keeps.peel (v := [.host, .fab, .evr, .out]) ?_ hw
  unfold beginRebuild
  repeat' first
    | simp (disch := first | decide | exact Or.inl (by decide) | exact Or.inr rfl) only [keeps_self, keeps_ite,
          keeps_mk, ite_self, settleRebuild_keeps]
    | split

theorem write0505_keeps {s : State} {ns v : Nat} {uB : State} {wB : List Area} {sB : State} (h : write0505 s ns v =
    some uB) (hw : subB [.nss, .host, .fab, .evr, .out] wB = true) :
    Keeps wB sB uB ↔ Keeps wB sB s := by
  refine Keeps.peel (v := [.nss, .host, .fab, .evr, .out]) ?_ hw
  unfold write0505 at h
  repeat' first
    | (simp only [Option.some.injEq, reduceCtorEq, Option.ite_none_right_eq_some, Option.ite_none_left_eq_some,
          Option.map_eq_some_iff, Option.bind_eq_some_iff] at h; done)
    | split at h
    | simp only [Option.some.injEq, reduceCtorEq] at h
    | subst h
  all_goals repeat' first
    | simp (disch := first | decide | exact Or.inl (by decide) | exact Or.inr rfl) only [keeps_self, keeps_ite,
          keeps_mk, ite_self, beginRebuild_keeps, setNs_keeps]
    | with_reducible refine (pageIf_keeps (by assumption) (by decide)).mpr ?_
    | with_reducible refine keeps_each (fun _ _ => ?_) ?_
    | split

theorem configBank_keeps {b w p : Nat} {s : State} {wB : List Area} {sB : State} (hw : subB [.ante, .cam] wB = true) :
    Keeps wB sB (configBank b w p s) ↔ Keeps wB sB s := by
  refine Keeps.peel (v := [.ante, .cam]) ?_ hw
  unfold configBank
  repeat' first
    | simp (disch := first | decide | exact Or.inl (by decide) | exact Or.inr rfl) only [keeps_self, keeps_ite,
          keeps_mk, ite_self, setBank_keeps, dropMaint_keeps]
    | split

theorem write0600_keeps {s : State} {v : Nat} {uB : State} {wB : List Area} {sB : State} (h : write0600 s v = some
    uB) (hw : subB [.ante, .cam] wB = true) :
    Keeps wB sB uB ↔ Keeps wB sB s := by
  refine Keeps.peel (v := [.ante, .cam]) ?_ hw
  unfold write0600 at h
  repeat' first
    | (simp only [Option.some.injEq, reduceCtorEq, Option.ite_none_right_eq_some, Option.ite_none_left_eq_some,
          Option.map_eq_some_iff, Option.bind_eq_some_iff] at h; done)
    | split at h
    | simp only [Option.some.injEq, reduceCtorEq] at h
    | subst h
  all_goals repeat' first
    | simp (disch := first | decide | exact Or.inl (by decide) | exact Or.inr rfl) only [keeps_self, keeps_ite,
          keeps_mk, ite_self, configBank_keeps]
    | with_reducible refine (pageIf_keeps (by assumption) (by decide)).mpr ?_
    | with_reducible refine keeps_each (fun _ _ => ?_) ?_
    | split

theorem write0601_keeps {s : State} {a v : Nat} {uB : State} {wB : List Area} {sB : State} (h : write0601 s a v =
    some uB) (hw : subB [.cam] wB = true) :
    Keeps wB sB uB ↔ Keeps wB sB s := by
  refine Keeps.peel (v := [.cam]) ?_ hw
  unfold write0601 at h
  repeat' first
    | (simp only [Option.some.injEq, reduceCtorEq, Option.ite_none_right_eq_some, Option.ite_none_left_eq_some,
          Option.map_eq_some_iff, Option.bind_eq_some_iff] at h; done)
    | split at h
    | simp only [Option.some.injEq, reduceCtorEq] at h
    | subst h
  all_goals repeat' first
    | simp (disch := first | decide | exact Or.inl (by decide) | exact Or.inr rfl) only [keeps_self, keeps_ite,
          keeps_mk, ite_self, writeEntry_keeps]
    | with_reducible refine (pageIf_keeps (by assumption) (by decide)).mpr ?_
    | split

theorem write0602_keeps {s : State} {a v : Nat} {uB : State} {wB : List Area} {sB : State} (h : write0602 s a v =
    some uB) (hw : subB [.cam] wB = true) :
    Keeps wB sB uB ↔ Keeps wB sB s := by
  refine Keeps.peel (v := [.cam]) ?_ hw
  unfold write0602 at h
  repeat' first
    | (simp only [Option.some.injEq, reduceCtorEq, Option.ite_none_right_eq_some, Option.ite_none_left_eq_some,
          Option.map_eq_some_iff, Option.bind_eq_some_iff] at h; done)
    | split at h
    | simp only [Option.some.injEq, reduceCtorEq] at h
    | subst h
  all_goals repeat' first
    | simp (disch := first | decide | exact Or.inl (by decide) | exact Or.inr rfl) only [keeps_self, keeps_ite,
          keeps_mk, ite_self, orderedInsert_keeps]
    | with_reducible refine (pageIf_keeps (by assumption) (by decide)).mpr ?_
    | split

end Sys2Proof.Machine
end

