-- ==== Sys2Proof/Laws/FramePagesC.lean ====
section
/-! SUPPORT. What each operation of Machine/PagesC.lean may change: `f_keeps` takes `f` off the end of a chain of operations
whenever the areas it may change are among those allowed. -/

set_option linter.all false

namespace Sys2Proof.Machine

open Sys2Proof

theorem write0700_keeps {s : State} {v : Nat} {uB : State} {wB : List Area} {sB : State} (h : write0700 s v = some
    uB) (hw : subB [.host, .med, .evr, .out] wB = true) :
    Keeps wB sB uB ↔ Keeps wB sB s := by
  refine Keeps.peel (v := [.host, .med, .evr, .out]) ?_ hw
  unfold write0700 at h
  repeat' first
    | (simp only [Option.some.injEq, reduceCtorEq, Option.ite_none_right_eq_some, Option.ite_none_left_eq_some,
          Option.map_eq_some_iff, Option.bind_eq_some_iff] at h; done)
    | split at h
    | simp only [Option.some.injEq, reduceCtorEq] at h
    | subst h
  all_goals repeat' first
    | simp (disch := first | decide | exact Or.inl (by decide) | exact Or.inr rfl) only [keeps_self, keeps_ite,
          keeps_mk, ite_self, event_keeps]
    | with_reducible refine keeps_each (fun _ _ => ?_) ?_
    | split

theorem write0701_keeps {s : State} {v : Nat} {uB : State} {wB : List Area} {sB : State} (h : write0701 s v = some
    uB) (hw : subB [.med] wB = true) :
    Keeps wB sB uB ↔ Keeps wB sB s := by
  refine Keeps.peel (v := [.med]) ?_ hw
  unfold write0701 at h
  repeat' first
    | (simp only [Option.some.injEq, reduceCtorEq, Option.ite_none_right_eq_some, Option.ite_none_left_eq_some,
          Option.map_eq_some_iff, Option.bind_eq_some_iff] at h; done)
    | split at h
    | simp only [Option.some.injEq, reduceCtorEq] at h
    | subst h
  all_goals repeat' first
    | simp (disch := first | decide | exact Or.inl (by decide) | exact Or.inr rfl) only [keeps_self, keeps_ite,
          keeps_mk, ite_self]
    | with_reducible refine (pageIf_keeps (by assumption) (by decide)).mpr ?_
    | split

theorem write0800_keeps {s : State} {v : Nat} {uB : State} {wB : List Area} {sB : State} (h : write0800 s v = some
    uB) (hw : subB [.mem] wB = true) :
    Keeps wB sB uB ↔ Keeps wB sB s := by
  refine Keeps.peel (v := [.mem]) ?_ hw
  unfold write0800 at h
  repeat' first
    | (simp only [Option.some.injEq, reduceCtorEq, Option.ite_none_right_eq_some, Option.ite_none_left_eq_some,
          Option.map_eq_some_iff, Option.bind_eq_some_iff] at h; done)
    | split at h
    | simp only [Option.some.injEq, reduceCtorEq] at h
    | subst h
  all_goals repeat' first
    | simp (disch := first | decide | exact Or.inl (by decide) | exact Or.inr rfl) only [keeps_self, keeps_ite,
          keeps_mk, ite_self, trumpUpdate_keeps]
    | with_reducible refine (pageIf_keeps (by assumption) (by decide)).mpr ?_
    | split

theorem write0900_keeps {s : State} {v : Nat} {uB : State} {wB : List Area} {sB : State} (h : write0900 s v = some
    uB) (hw : subB [.xts] wB = true) :
    Keeps wB sB uB ↔ Keeps wB sB s := by
  refine Keeps.peel (v := [.xts]) ?_ hw
  unfold write0900 at h
  repeat' first
    | (simp only [Option.some.injEq, reduceCtorEq, Option.ite_none_right_eq_some, Option.ite_none_left_eq_some,
          Option.map_eq_some_iff, Option.bind_eq_some_iff] at h; done)
    | split at h
    | simp only [Option.some.injEq, reduceCtorEq] at h
    | subst h
  all_goals repeat' first
    | simp (disch := first | decide | exact Or.inl (by decide) | exact Or.inr rfl) only [keeps_self, keeps_ite,
          keeps_mk, ite_self]
    | with_reducible refine (pageIf_keeps (by assumption) (by decide)).mpr ?_
    | split

theorem write0901_keeps {s : State} {n v : Nat} {uB : State} {wB : List Area} {sB : State}
    (h : write0901 s n v = some uB) (hw : subB [.xts, .draws] wB = true) : Keeps wB sB uB ↔ Keeps wB sB s := by
  refine Keeps.peel (v := [.xts, .draws]) ?_ hw
  unfold write0901 at h
  dsimp only at h
  split at h
  · cases h
  · split at h
    · cases h
      exact Keeps.refl _ _
    · split at h
      · cases h
      · split at h
        · rw [pageIf_eq h]
          simp (disch := first | decide | exact Or.inl (by decide) | exact Or.inr rfl) only [keeps_self,
              keyGenerate_keeps]
        · split at h
          · split at h
            · cases h
            · rename_i kik _
              generalize importedKey kik _ = y at h
              cases y with
              | none => cases h
              | some k =>
                cases h
                simp (disch := first | decide | exact Or.inl (by decide) | exact Or.inr rfl) only [keeps_self,
                    loadKey_keeps]
          · cases h
            simp (disch := first | decide | exact Or.inl (by decide) | exact Or.inr rfl) only [keeps_self,
                keyZeroize_keeps]

theorem write0a00_keeps {s : State} {v : Nat} {uB : State} {wB : List Area} {sB : State} (h : write0a00 s v = some
    uB) (hw : subB [.host, .pwr, .evr, .out] wB = true) :
    Keeps wB sB uB ↔ Keeps wB sB s := by
  refine Keeps.peel (v := [.host, .pwr, .evr, .out]) ?_ hw
  unfold write0a00 at h
  repeat' first
    | (simp only [Option.some.injEq, reduceCtorEq, Option.ite_none_right_eq_some, Option.ite_none_left_eq_some,
          Option.map_eq_some_iff, Option.bind_eq_some_iff] at h; done)
    | split at h
    | simp only [Option.some.injEq, reduceCtorEq] at h
    | subst h
  all_goals repeat' first
    | simp (disch := first | decide | exact Or.inl (by decide) | exact Or.inr rfl) only [keeps_self, keeps_ite,
          keeps_mk, ite_self, retarget_keeps]
    | with_reducible refine (pageIf_keeps (by assumption) (by decide)).mpr ?_
    | split

theorem write0b00_keeps {s : State} {v : Nat} {uB : State} {wB : List Area} {sB : State} (h : write0b00 s v = some
    uB) (hw : subB [.upd] wB = true) :
    Keeps wB sB uB ↔ Keeps wB sB s := by
  refine Keeps.peel (v := [.upd]) ?_ hw
  unfold write0b00 at h
  repeat' first
    | (simp only [Option.some.injEq, reduceCtorEq, Option.ite_none_right_eq_some, Option.ite_none_left_eq_some,
          Option.map_eq_some_iff, Option.bind_eq_some_iff] at h; done)
    | split at h
    | simp only [Option.some.injEq, reduceCtorEq] at h
    | subst h
  all_goals repeat' first
    | simp (disch := first | decide | exact Or.inl (by decide) | exact Or.inr rfl) only [keeps_self, keeps_ite,
          keeps_mk, ite_self]
    | with_reducible refine (pageIf_keeps (by assumption) (by decide)).mpr ?_
    | split

theorem setCalendar_keeps {c : Nat} {s : State} {wB : List Area} {sB : State} (hw : subB [.host, .evr, .out] wB =
    true) :
    Keeps wB sB (setCalendar c s) ↔ Keeps wB sB s := by
  refine Keeps.peel (v := [.host, .evr, .out]) ?_ hw
  unfold setCalendar
  repeat' first
    | simp (disch := first | decide | exact Or.inl (by decide) | exact Or.inr rfl) only [keeps_self, keeps_ite,
          keeps_mk, ite_self, event_keeps]
    | with_reducible refine keeps_getD (fun _ _ => ?_) ?_
    | split

theorem clearStore_keeps {s : State} {wB : List Area} {sB : State} (hw : subB [.host, .evr, .out] wB = true) :
    Keeps wB sB (clearStore s) ↔ Keeps wB sB s := by
  refine Keeps.peel (v := [.host, .evr, .out]) ?_ hw
  unfold clearStore
  repeat' first
    | simp (disch := first | decide | exact Or.inl (by decide) | exact Or.inr rfl) only [keeps_self, keeps_ite,
          keeps_mk, ite_self, reportDrops_keeps, event_keeps]
    | split

theorem write0b01_keeps {s : State} {v : Nat} {uB : State} {wB : List Area} {sB : State} (h : write0b01 s v = some
    uB) (hw : subB [.host, .evr, .out] wB = true) :
    Keeps wB sB uB ↔ Keeps wB sB s := by
  refine Keeps.peel (v := [.host, .evr, .out]) ?_ hw
  unfold write0b01 at h
  repeat' first
    | (simp only [Option.some.injEq, reduceCtorEq, Option.ite_none_right_eq_some, Option.ite_none_left_eq_some,
          Option.map_eq_some_iff, Option.bind_eq_some_iff] at h; done)
    | split at h
    | simp only [Option.some.injEq, reduceCtorEq] at h
    | subst h
  all_goals repeat' first
    | simp (disch := first | decide | exact Or.inl (by decide) | exact Or.inr rfl) only [keeps_self, keeps_ite,
          keeps_mk, ite_self, clearStore_keeps, setCalendar_keeps]
    | with_reducible refine (pageIf_keeps (by assumption) (by decide)).mpr ?_
    | split

theorem write0b02_keeps {s : State} {v : Nat} {uB : State} {wB : List Area} {sB : State} (h : write0b02 s v = some
    uB) (hw : subB [.ist] wB = true) :
    Keeps wB sB uB ↔ Keeps wB sB s := by
  refine Keeps.peel (v := [.ist]) ?_ hw
  unfold write0b02 at h
  repeat' first
    | (simp only [Option.some.injEq, reduceCtorEq, Option.ite_none_right_eq_some, Option.ite_none_left_eq_some,
          Option.map_eq_some_iff, Option.bind_eq_some_iff] at h; done)
    | split at h
    | simp only [Option.some.injEq, reduceCtorEq] at h
    | subst h
  all_goals repeat' first
    | simp (disch := first | decide | exact Or.inl (by decide) | exact Or.inr rfl) only [keeps_self, keeps_ite,
          keeps_mk, ite_self]
    | split

theorem write0b03_keeps {s : State} {v : Nat} {uB : State} {wB : List Area} {sB : State} (h : write0b03 s v = some
    uB) (hw : subB [.frz] wB = true) :
    Keeps wB sB uB ↔ Keeps wB sB s := by
  refine Keeps.peel (v := [.frz]) ?_ hw
  unfold write0b03 at h
  repeat' first
    | (simp only [Option.some.injEq, reduceCtorEq, Option.ite_none_right_eq_some, Option.ite_none_left_eq_some,
          Option.map_eq_some_iff, Option.bind_eq_some_iff] at h; done)
    | split at h
    | simp only [Option.some.injEq, reduceCtorEq] at h
    | subst h
  all_goals repeat' first
    | simp (disch := first | decide | exact Or.inl (by decide) | exact Or.inr rfl) only [keeps_self, keeps_ite,
          keeps_mk, ite_self]
    | with_reducible refine (pageIf_keeps (by assumption) (by decide)).mpr ?_
    | split

theorem pageWriteLast_keeps {s : State} {page t v : Nat} {uB : State} {wB : List Area} {sB : State} (h :
    pageWriteLast s page t v = some uB) (hw : subB [.host, .mem, .xts, .pwr, .upd, .evr, .ist, .frz, .out, .draws] wB
    = true) :
    Keeps wB sB uB ↔ Keeps wB sB s := by
  refine Keeps.peel (v := [.host, .mem, .xts, .pwr, .upd, .evr, .ist, .frz, .out, .draws]) ?_ hw
  unfold pageWriteLast at h
  split at h
  all_goals first
    | with_reducible exact (write0800_keeps h (by decide)).mpr (Keeps.refl _ _)
    | with_reducible exact (write0b00_keeps h (by decide)).mpr (Keeps.refl _ _)
    | with_reducible exact (write0b02_keeps h (by decide)).mpr (Keeps.refl _ _)
    | with_reducible exact (write0900_keeps h (by decide)).mpr (Keeps.refl _ _)
    | with_reducible exact (write0901_keeps h (by decide)).mpr (Keeps.refl _ _)
    | with_reducible exact (write0a00_keeps h (by decide)).mpr (Keeps.refl _ _)
    | with_reducible exact (write0b01_keeps h (by decide)).mpr (Keeps.refl _ _)
    | with_reducible exact (write0b03_keeps h (by decide)).mpr (Keeps.refl _ _)
    | (injection h with h; exact h ▸ Keeps.refl _ _)

theorem pageWriteIndex_keeps {s : State} {page t v : Nat} {uB : State} {wB : List Area} {sB : State} (h :
    pageWriteIndex s page t v = some uB) (hw : subB [.ante, .host, .cam, .med, .mem, .xts, .pwr, .upd, .evr, .ist,
    .frz, .out, .draws] wB = true) :
    Keeps wB sB uB ↔ Keeps wB sB s := by
  refine Keeps.peel (v := [.ante, .host, .cam, .med, .mem, .xts, .pwr, .upd, .evr, .ist, .frz, .out, .draws]) ?_ hw
  unfold pageWriteIndex at h
  split at h
  all_goals first
    | with_reducible exact (write0600_keeps h (by decide)).mpr (Keeps.refl _ _)
    | with_reducible exact (write0601_keeps h (by decide)).mpr (Keeps.refl _ _)
    | with_reducible exact (pageWriteLast_keeps h (by decide)).mpr (Keeps.refl _ _)
    | with_reducible exact (write0700_keeps h (by decide)).mpr (Keeps.refl _ _)
    | with_reducible exact (write0602_keeps h (by decide)).mpr (Keeps.refl _ _)
    | with_reducible exact (write0701_keeps h (by decide)).mpr (Keeps.refl _ _)
    | (injection h with h; exact h ▸ Keeps.refl _ _)

theorem pageWriteFabric_keeps {s : State} {page t v : Nat} {uB : State} {wB : List Area} {sB : State} (h :
    pageWriteFabric s page t v = some uB) (hw : subB [.clk, .nss, .ante, .host, .lanes, .fab, .fabc, .cam, .med,
    .mem, .xts, .pwr, .upd, .evr, .ist, .frz, .out, .draws] wB = true) :
    Keeps wB sB uB ↔ Keeps wB sB s := by
  refine Keeps.peel (v := [.clk, .nss, .ante, .host, .lanes, .fab, .fabc, .cam, .med, .mem, .xts, .pwr, .upd, .evr,
      .ist, .frz, .out, .draws]) ?_ hw
  unfold pageWriteFabric at h
  split at h
  all_goals first
    | with_reducible exact (write0503_keeps h (by decide)).mpr (Keeps.refl _ _)
    | with_reducible exact (write0502_keeps h (by decide)).mpr (Keeps.refl _ _)
    | with_reducible exact (pageWriteIndex_keeps h (by decide)).mpr (Keeps.refl _ _)
    | with_reducible exact (write0500_keeps h (by decide)).mpr (Keeps.refl _ _)
    | with_reducible exact (write0505_keeps h (by decide)).mpr (Keeps.refl _ _)
    | with_reducible exact (write0504_keeps h (by decide)).mpr (Keeps.refl _ _)
    | (injection h with h; exact h ▸ Keeps.refl _ _)

theorem pageWrite_keeps {s : State} {page t v : Nat} {uB : State} {wB : List Area} {sB : State} (h : pageWrite s page
    t v = some uB) (hw : subB [.clk, .cores, .buf, .nss, .ante, .host, .lanes, .wake, .fab, .fabc, .idx, .cam, .med,
    .mem, .xts, .pwr, .upd, .evr, .ist, .frz, .out, .draws] wB = true) :
    Keeps wB sB uB ↔ Keeps wB sB s := by
  refine Keeps.peel (v := [.clk, .cores, .buf, .nss, .ante, .host, .lanes, .wake, .fab, .fabc, .idx, .cam, .med,
      .mem, .xts, .pwr, .upd, .evr, .ist, .frz, .out, .draws]) ?_ hw
  unfold pageWrite at h
  split at h
  all_goals first
    | with_reducible exact (write0104_keeps h (by decide)).mpr (Keeps.refl _ _)
    | with_reducible exact (write0300_keeps h (by decide)).mpr (Keeps.refl _ _)
    | with_reducible exact (write0302_keeps h (by decide)).mpr (Keeps.refl _ _)
    | with_reducible exact (write0301_keeps h (by decide)).mpr (Keeps.refl _ _)
    | with_reducible exact (write0401_keeps h (by decide)).mpr (Keeps.refl _ _)
    | with_reducible exact (write0107_keeps h (by decide)).mpr (Keeps.refl _ _)
    | with_reducible exact (write0201_keeps h (by decide)).mpr (Keeps.refl _ _)
    | with_reducible exact (pageWriteFabric_keeps h (by decide)).mpr (Keeps.refl _ _)
    | with_reducible exact (write0106_keeps h (by decide)).mpr (Keeps.refl _ _)
    | with_reducible exact (write0105_keeps h (by decide)).mpr (Keeps.refl _ _)
    | with_reducible exact (write0400_keeps h (by decide)).mpr (Keeps.refl _ _)
    | (injection h with h; exact h ▸ Keeps.refl _ _)

end Sys2Proof.Machine
end

