-- ==== Sys2Proof/Laws/FrameMailbox.lean ====
section
/-! SUPPORT. What each operation of Machine/Mailbox.lean may change: `f_keeps` takes `f` off the end of a chain of operations
whenever the areas it may change are among those allowed. -/

set_option linter.all false

namespace Sys2Proof.Machine

open Sys2Proof

theorem execMailboxUnknownCommand_keeps (box : Nat) (s : State) : KeepsR [.host, .out] s (execMailboxUnknownCommand
    box s) := by
  unfold execMailboxUnknownCommand
  repeat' first
    | simp (disch := first | decide | exact Or.inl (by decide) | exact Or.inr rfl) only [keeps_self, keeps_ite,
          keeps_mk, ite_self, keepsR_next, keepsR_fault, keepsR_refused, keepsR_ite, takeBox, finishBox_keeps,
          whenRunning]
    | split

theorem execSettingRead_keeps (box : Nat) (s : State) : KeepsR [.host, .out] s (execSettingRead box s) := by
  unfold execSettingRead
  repeat' first
    | simp (disch := first | decide | exact Or.inl (by decide) | exact Or.inr rfl) only [keeps_self, keeps_ite,
          keeps_mk, ite_self, keepsR_next, keepsR_fault, keepsR_refused, keepsR_ite, setBox_keeps, takeBox,
          finishBox_keeps, whenRunning]
    | split

theorem settingWrite_keeps {box : Nat} {x : Mailbox} {s : State} {wB : List Area} {sB : State} (hw : subB [.clk,
    .cores, .buf, .nss, .ante, .host, .lanes, .wake, .fab, .fabc, .idx, .cam, .med, .mem, .xts, .pwr, .upd, .evr,
    .ist, .frz, .out, .draws] wB = true) :
    Keeps wB sB (settingWrite box x s) ↔ Keeps wB sB s := by
  refine Keeps.peel (v := [.clk, .cores, .buf, .nss, .ante, .host, .lanes, .wake, .fab, .fabc, .idx, .cam, .med,
      .mem, .xts, .pwr, .upd, .evr, .ist, .frz, .out, .draws]) ?_ hw
  unfold settingWrite
  repeat' first
    | simp (disch := first | decide | exact Or.inl (by decide) | exact Or.inr rfl) only [keeps_self, keeps_ite,
          keeps_mk, ite_self, finishBox_keeps]
    | with_reducible refine (pageWrite_keeps (by assumption) (by decide)).mpr ?_
    | split

theorem execSettingWrite_keeps (box : Nat) (s : State) : KeepsR [.clk, .cores, .buf, .nss, .ante, .host, .lanes,
    .wake, .fab, .fabc, .idx, .cam, .med, .mem, .xts, .pwr, .upd, .evr, .ist, .frz, .out, .draws] s (execSettingWrite
    box s) := by
  unfold execSettingWrite
  repeat' first
    | simp (disch := first | decide | exact Or.inl (by decide) | exact Or.inr rfl) only [keeps_self, keeps_ite,
          keeps_mk, ite_self, keepsR_next, keepsR_fault, keepsR_refused, keepsR_ite, takeBox, settingWrite_keeps,
          whenRunning, finishBox_keeps]
    | split

theorem execNamespaceRelease_keeps (box : Nat) (s : State) : KeepsR [.clk, .cores, .buf, .nss, .ante, .host, .lanes,
    .wake, .fab, .fabc, .idx, .cam, .med, .mem, .xts, .pwr, .upd, .evr, .ist, .frz, .out, .draws] s
    (execNamespaceRelease box s) := by
  unfold execNamespaceRelease
  repeat' first
    | simp (disch := first | decide | exact Or.inl (by decide) | exact Or.inr rfl) only [keeps_self, keeps_ite,
          keeps_mk, ite_self, keepsR_next, keepsR_fault, keepsR_refused, keepsR_ite, takeBox, settingWrite_keeps,
          whenRunning, finishBox_keeps]
    | split

theorem execKeyGenerate_keeps (box : Nat) (s : State) : KeepsR [.clk, .cores, .buf, .nss, .ante, .host, .lanes,
    .wake, .fab, .fabc, .idx, .cam, .med, .mem, .xts, .pwr, .upd, .evr, .ist, .frz, .out, .draws] s (execKeyGenerate
    box s) := by
  unfold execKeyGenerate
  repeat' first
    | simp (disch := first | decide | exact Or.inl (by decide) | exact Or.inr rfl) only [keeps_self, keeps_ite,
          keeps_mk, ite_self, keepsR_next, keepsR_fault, keepsR_refused, keepsR_ite, takeBox, settingWrite_keeps,
          whenRunning, finishBox_keeps]
    | split

theorem execKeyImport_keeps (box : Nat) (s : State) : KeepsR [.clk, .cores, .buf, .nss, .ante, .host, .lanes, .wake,
    .fab, .fabc, .idx, .cam, .med, .mem, .xts, .pwr, .upd, .evr, .ist, .frz, .out, .draws] s (execKeyImport box s) :=
    by
  unfold execKeyImport
  repeat' first
    | simp (disch := first | decide | exact Or.inl (by decide) | exact Or.inr rfl) only [keeps_self, keeps_ite,
          keeps_mk, ite_self, keepsR_next, keepsR_fault, keepsR_refused, keepsR_ite, takeBox, settingWrite_keeps,
          whenRunning, finishBox_keeps]
    | split

theorem execKeyZeroize_keeps (box : Nat) (s : State) : KeepsR [.clk, .cores, .buf, .nss, .ante, .host, .lanes, .wake,
    .fab, .fabc, .idx, .cam, .med, .mem, .xts, .pwr, .upd, .evr, .ist, .frz, .out, .draws] s (execKeyZeroize box s)
    := by
  unfold execKeyZeroize
  repeat' first
    | simp (disch := first | decide | exact Or.inl (by decide) | exact Or.inr rfl) only [keeps_self, keeps_ite,
          keeps_mk, ite_self, keepsR_next, keepsR_fault, keepsR_refused, keepsR_ite, takeBox, settingWrite_keeps,
          whenRunning, finishBox_keeps]
    | split

theorem execKikInstall_keeps (box : Nat) (s : State) : KeepsR [.clk, .cores, .buf, .nss, .ante, .host, .lanes, .wake,
    .fab, .fabc, .idx, .cam, .med, .mem, .xts, .pwr, .upd, .evr, .ist, .frz, .out, .draws] s (execKikInstall box s)
    := by
  unfold execKikInstall
  repeat' first
    | simp (disch := first | decide | exact Or.inl (by decide) | exact Or.inr rfl) only [keeps_self, keeps_ite,
          keeps_mk, ite_self, keepsR_next, keepsR_fault, keepsR_refused, keepsR_ite, takeBox, settingWrite_keeps,
          whenRunning, finishBox_keeps]
    | split

theorem execKikLock_keeps (box : Nat) (s : State) : KeepsR [.clk, .cores, .buf, .nss, .ante, .host, .lanes, .wake,
    .fab, .fabc, .idx, .cam, .med, .mem, .xts, .pwr, .upd, .evr, .ist, .frz, .out, .draws] s (execKikLock box s) := by
  unfold execKikLock
  repeat' first
    | simp (disch := first | decide | exact Or.inl (by decide) | exact Or.inr rfl) only [keeps_self, keeps_ite,
          keeps_mk, ite_self, keepsR_next, keepsR_fault, keepsR_refused, keepsR_ite, takeBox, settingWrite_keeps,
          whenRunning, finishBox_keeps]
    | split

theorem execTimeSet_keeps (box : Nat) (s : State) : KeepsR [.clk, .cores, .buf, .nss, .ante, .host, .lanes, .wake,
    .fab, .fabc, .idx, .cam, .med, .mem, .xts, .pwr, .upd, .evr, .ist, .frz, .out, .draws] s (execTimeSet box s) := by
  unfold execTimeSet
  repeat' first
    | simp (disch := first | decide | exact Or.inl (by decide) | exact Or.inr rfl) only [keeps_self, keeps_ite,
          keeps_mk, ite_self, keepsR_next, keepsR_fault, keepsR_refused, keepsR_ite, takeBox, settingWrite_keeps,
          whenRunning, finishBox_keeps]
    | split

theorem execCalendarSet_keeps (box : Nat) (s : State) : KeepsR [.clk, .cores, .buf, .nss, .ante, .host, .lanes,
    .wake, .fab, .fabc, .idx, .cam, .med, .mem, .xts, .pwr, .upd, .evr, .ist, .frz, .out, .draws] s (execCalendarSet
    box s) := by
  unfold execCalendarSet
  repeat' first
    | simp (disch := first | decide | exact Or.inl (by decide) | exact Or.inr rfl) only [keeps_self, keeps_ite,
          keeps_mk, ite_self, keepsR_next, keepsR_fault, keepsR_refused, keepsR_ite, takeBox, settingWrite_keeps,
          whenRunning, finishBox_keeps]
    | split

theorem execEventStoreClear_keeps (box : Nat) (s : State) : KeepsR [.clk, .cores, .buf, .nss, .ante, .host, .lanes,
    .wake, .fab, .fabc, .idx, .cam, .med, .mem, .xts, .pwr, .upd, .evr, .ist, .frz, .out, .draws] s
    (execEventStoreClear box s) := by
  unfold execEventStoreClear
  repeat' first
    | simp (disch := first | decide | exact Or.inl (by decide) | exact Or.inr rfl) only [keeps_self, keeps_ite,
          keeps_mk, ite_self, keepsR_next, keepsR_fault, keepsR_refused, keepsR_ite, takeBox, settingWrite_keeps,
          whenRunning, finishBox_keeps]
    | split

theorem execClassifierOrderedInsert_keeps (box : Nat) (s : State) : KeepsR [.clk, .cores, .buf, .nss, .ante, .host,
    .lanes, .wake, .fab, .fabc, .idx, .cam, .med, .mem, .xts, .pwr, .upd, .evr, .ist, .frz, .out, .draws] s
    (execClassifierOrderedInsert box s) := by
  unfold execClassifierOrderedInsert
  repeat' first
    | simp (disch := first | decide | exact Or.inl (by decide) | exact Or.inr rfl) only [keeps_self, keeps_ite,
          keeps_mk, ite_self, keepsR_next, keepsR_fault, keepsR_refused, keepsR_ite, takeBox, settingWrite_keeps,
          whenRunning, finishBox_keeps]
    | split

theorem execNamespaceFreed_keeps (ns : Nat) (s : State) : KeepsR [.nss] s (execNamespaceFreed ns s) := by
  unfold execNamespaceFreed
  repeat' first
    | simp (disch := first | decide | exact Or.inl (by decide) | exact Or.inr rfl) only [keeps_self, keeps_ite,
          keeps_mk, ite_self, keepsR_next, keepsR_fault, keepsR_refused, keepsR_ite, guard, whenRunning, setNs_keeps]
    | split

theorem execQueueCreate_keeps (box : Nat) (s : State) : KeepsR [.sessions, .host, .out] s (execQueueCreate box s) :=
    by
  unfold execQueueCreate
  repeat' first
    | simp (disch := first | decide | exact Or.inl (by decide) | exact Or.inr rfl) only [keeps_self, keeps_ite,
          keeps_mk, ite_self, keepsR_next, keepsR_fault, keepsR_refused, keepsR_ite, setQueue_keeps, bindCtx_keeps1,
          openSession_keeps, takeBox, finishBox_keeps, whenRunning]
    | with_reducible refine (bindCtx_keeps (by assumption) (by decide)).mpr ?_
    | split

theorem execQueueDelete_keeps (box : Nat) (s : State) : KeepsR [.dlr, .sessions, .host, .lanes, .fab, .fabc, .out] s
    (execQueueDelete box s) := by
  unfold execQueueDelete
  repeat' first
    | simp (disch := first | decide | exact Or.inl (by decide) | exact Or.inr rfl) only [keeps_self, keeps_ite,
          keeps_mk, ite_self, keepsR_next, keepsR_fault, keepsR_refused, keepsR_ite, takeBox, finishBox_keeps,
          whenRunning, startDelete_keeps]
    | split

theorem execSessionRelease_keeps (box : Nat) (s : State) : KeepsR [.sessions, .host, .fab, .out] s
    (execSessionRelease box s) := by
  unfold execSessionRelease
  repeat' first
    | simp (disch := first | decide | exact Or.inl (by decide) | exact Or.inr rfl) only [keeps_self, keeps_ite,
          keeps_mk, ite_self, keepsR_next, keepsR_fault, keepsR_refused, keepsR_ite, takeBox, releaseSession_keeps,
          finishBox_keeps, whenRunning]
    | split

theorem execSessionList_keeps (box : Nat) (s : State) : KeepsR [.host, .out] s (execSessionList box s) := by
  unfold execSessionList
  repeat' first
    | simp (disch := first | decide | exact Or.inl (by decide) | exact Or.inr rfl) only [keeps_self, keeps_ite,
          keeps_mk, ite_self, keepsR_next, keepsR_fault, keepsR_refused, keepsR_ite, takeBox, finishBox_keeps,
          whenRunning]
    | split

theorem execMbxJournalQuery_keeps (box : Nat) (s : State) : KeepsR [.host, .out] s (execMbxJournalQuery box s) := by
  unfold execMbxJournalQuery
  repeat' first
    | simp (disch := first | decide | exact Or.inl (by decide) | exact Or.inr rfl) only [keeps_self, keeps_ite,
          keeps_mk, ite_self, keepsR_next, keepsR_fault, keepsR_refused, keepsR_ite, takeBox, finishBox_keeps,
          whenRunning]
    | split

theorem execLedgerSnapshot_keeps (box : Nat) (s : State) : KeepsR [.host, .out] s (execLedgerSnapshot box s) := by
  unfold execLedgerSnapshot
  repeat' first
    | simp (disch := first | decide | exact Or.inl (by decide) | exact Or.inr rfl) only [keeps_self, keeps_ite,
          keeps_mk, ite_self, keepsR_next, keepsR_fault, keepsR_refused, keepsR_ite, takeBox, finishBox_keeps,
          whenRunning]
    | split

theorem execEventRead_keeps (box : Nat) (s : State) : KeepsR [.host, .out] s (execEventRead box s) := by
  unfold execEventRead
  repeat' first
    | simp (disch := first | decide | exact Or.inl (by decide) | exact Or.inr rfl) only [keeps_self, keeps_ite,
          keeps_mk, ite_self, keepsR_next, keepsR_fault, keepsR_refused, keepsR_ite, takeBox, finishBox_keeps,
          whenRunning]
    | split

theorem execDiagUnlock_keeps (box : Nat) (s : State) : KeepsR [.host, .out] s (execDiagUnlock box s) := by
  unfold execDiagUnlock
  repeat' first
    | simp (disch := first | decide | exact Or.inl (by decide) | exact Or.inr rfl) only [keeps_self, keeps_ite,
          keeps_mk, ite_self, keepsR_next, keepsR_fault, keepsR_refused, keepsR_ite, modPort_keeps, takeBox,
          finishBox_keeps, whenRunning]
    | split

theorem execDiagUnlockExpiry_keeps (port : Nat) (s : State) : KeepsR [.host] s (execDiagUnlockExpiry port s) := by
  unfold execDiagUnlockExpiry
  repeat' first
    | simp (disch := first | decide | exact Or.inl (by decide) | exact Or.inr rfl) only [keeps_self, keeps_ite,
          keeps_mk, ite_self, keepsR_next, keepsR_fault, keepsR_refused, keepsR_ite, modPort_keeps, guard,
          whenRunning]
    | split

end Sys2Proof.Machine
end

