-- ==== Sys2Proof/Laws/FrameSupply.lean ====
section
/-! SUPPORT. What each operation of Machine/Supply.lean may change: `f_keeps` takes `f` off the end of a chain of operations
whenever the areas it may change are among those allowed. -/

set_option linter.all false

namespace Sys2Proof.Machine

open Sys2Proof

theorem extendWork_keeps {d k : Nat} {s : State} {wB : List Area} {sB : State} (hw : subB [.dlr] wB = true) :
    Keeps wB sB (extendWork d k s) ↔ Keeps wB sB s := by
  refine Keeps.peel (v := [.dlr]) ?_ hw
  unfold extendWork
  repeat' first
    | simp (disch := first | decide | exact Or.inl (by decide) | exact Or.inr rfl) only [keeps_self, keeps_ite,
          keeps_mk, ite_self]
    | split

theorem shiftCalendar_keeps {since : Nat} {s : State} {wB : List Area} {sB : State} (hw : subB [.dlr, .ante, .med,
    .pwr, .upd] wB = true) :
    Keeps wB sB (shiftCalendar since s) ↔ Keeps wB sB s := by
  refine Keeps.peel (v := [.dlr, .ante, .med, .pwr, .upd]) ?_ hw
  unfold shiftCalendar
  repeat' first
    | simp (disch := first | decide | exact Or.inl (by decide) | exact Or.inr rfl) only [keeps_self, keeps_ite,
          keeps_mk, ite_self, extendWork_keeps]
    | split

theorem refreshSelf_keeps {on : Bool} {s : State} {wB : List Area} {sB : State} (hw : subB [.mem] wB = true) :
    Keeps wB sB (refreshSelf on s) ↔ Keeps wB sB s := by
  refine Keeps.peel (v := [.mem]) ?_ hw
  unfold refreshSelf
  repeat' first
    | simp (disch := first | decide | exact Or.inl (by decide) | exact Or.inr rfl) only [keeps_self, keeps_ite,
          keeps_mk, ite_self]
    | split

theorem thaw_keeps {bySupervisor : Bool} {s : State} {wB : List Area} {sB : State} (hw : subB [.dlr, .sessions,
    .ante, .host, .lanes, .fab, .fabc, .med, .mem, .pwr, .upd, .evr, .frz, .out] wB = true) :
    Keeps wB sB (thaw bySupervisor s) ↔ Keeps wB sB s := by
  refine Keeps.peel (v := [.dlr, .sessions, .ante, .host, .lanes, .fab, .fabc, .med, .mem, .pwr, .upd, .evr, .frz,
      .out]) ?_ hw
  unfold thaw
  repeat' first
    | simp (disch := first | decide | exact Or.inl (by decide) | exact Or.inr rfl) only [keeps_self, keeps_ite,
          keeps_mk, ite_self, leaveUp_keeps, resetPort_keeps, shiftCalendar_keeps, event_keeps, refreshSelf_keeps]
    | with_reducible refine keeps_each (fun _ _ => ?_) ?_
    | split

theorem discardMeasure_keeps {s : State} {wB : List Area} {sB : State} (hw : subB [.pwr] wB = true) :
    Keeps wB sB (discardMeasure s) ↔ Keeps wB sB s := by
  refine Keeps.peel (v := [.pwr]) ?_ hw
  unfold discardMeasure
  repeat' first
    | simp (disch := first | decide | exact Or.inl (by decide) | exact Or.inr rfl) only [keeps_self, keeps_ite,
          keeps_mk, ite_self]
    | split

theorem enterDip_keeps {mv : Nat} {s0 : State} {wB : List Area} {sB : State} (hw : subB [.dlr, .sessions, .ante,
    .host, .lanes, .fab, .fabc, .med, .mem, .pwr, .upd, .evr, .frz, .out] wB = true) :
    Keeps wB sB (enterDip mv s0) ↔ Keeps wB sB s0 := by
  refine Keeps.peel (v := [.dlr, .sessions, .ante, .host, .lanes, .fab, .fabc, .med, .mem, .pwr, .upd, .evr, .frz,
      .out]) ?_ hw
  unfold enterDip
  repeat' first
    | simp (disch := first | decide | exact Or.inl (by decide) | exact Or.inr rfl) only [keeps_self, keeps_ite,
          keeps_mk, ite_self, thaw_keeps, discardMeasure_keeps]
    | split

theorem leaveDip_keeps {s : State} {wB : List Area} {sB : State} (hw : subB [.dlr, .ante, .med, .pwr] wB = true) :
    Keeps wB sB (leaveDip s) ↔ Keeps wB sB s := by
  refine Keeps.peel (v := [.dlr, .ante, .med, .pwr]) ?_ hw
  unfold leaveDip
  repeat' first
    | simp (disch := first | decide | exact Or.inl (by decide) | exact Or.inr rfl) only [keeps_self, keeps_ite,
          keeps_mk, ite_self, extendWork_keeps]
    | split

theorem suspendNormal_keeps {s : State} {wB : List Area} {sB : State} (hw : subB [.xts, .out] wB = true) :
    Keeps wB sB (suspendNormal s) ↔ Keeps wB sB s := by
  refine Keeps.peel (v := [.xts, .out]) ?_ hw
  unfold suspendNormal
  repeat' first
    | simp (disch := first | decide | exact Or.inl (by decide) | exact Or.inr rfl) only [keeps_self, keeps_ite,
          keeps_mk, ite_self, suspendEngine_keeps]
    | with_reducible refine keeps_each (fun _ _ => ?_) ?_
    | split

theorem drainSub_keeps {c u : Nat} {s : State} {wB : List Area} {sB : State} (hw : subB [.mem, .out] wB = true) :
    Keeps wB sB (drainSub c u s) ↔ Keeps wB sB s := by
  refine Keeps.peel (v := [.mem, .out]) ?_ hw
  unfold drainSub
  repeat' first
    | simp (disch := first | decide | exact Or.inl (by decide) | exact Or.inr rfl) only [keeps_self, keeps_ite,
          keeps_mk, ite_self, emit_keeps, setSub_keeps]
    | with_reducible refine keeps_each (fun _ _ => ?_) ?_
    | split

theorem drainDram_keeps {s : State} {wB : List Area} {sB : State} (hw : subB [.mem, .out] wB = true) :
    Keeps wB sB (drainDram s) ↔ Keeps wB sB s := by
  refine Keeps.peel (v := [.mem, .out]) ?_ hw
  unfold drainDram
  repeat' first
    | simp (disch := first | decide | exact Or.inl (by decide) | exact Or.inr rfl) only [keeps_self, keeps_ite,
          keeps_mk, ite_self, drainSub_keeps]
    | with_reducible refine keeps_each (fun _ _ => ?_) ?_
    | split

theorem abortRows_keeps {s : State} {wB : List Area} {sB : State} (hw : subB [.med] wB = true) :
    Keeps wB sB (abortRows s) ↔ Keeps wB sB s := by
  refine Keeps.peel (v := [.med]) ?_ hw
  unfold abortRows
  repeat' first
    | simp (disch := first | decide | exact Or.inl (by decide) | exact Or.inr rfl) only [keeps_self, keeps_ite,
          keeps_mk, ite_self]
    | split

theorem fallSilent_keeps {s : State} {wB : List Area} {sB : State} (hw : subB [.dlr, .host, .lanes, .fab] wB = true) :
    Keeps wB sB (fallSilent s) ↔ Keeps wB sB s := by
  refine Keeps.peel (v := [.dlr, .host, .lanes, .fab]) ?_ hw
  unfold fallSilent
  repeat' first
    | simp (disch := first | decide | exact Or.inl (by decide) | exact Or.inr rfl) only [keeps_self, keeps_ite,
          keeps_mk, ite_self]
    | split

theorem beginFlush_keeps {s : State} {wB : List Area} {sB : State} (hw : subB [.boot, .dlr, .host, .lanes, .fab,
    .med, .mem, .xts, .pwr, .upd, .evr, .out] wB = true) :
    Keeps wB sB (beginFlush s) ↔ Keeps wB sB s := by
  refine Keeps.peel (v := [.boot, .dlr, .host, .lanes, .fab, .med, .mem, .xts, .pwr, .upd, .evr, .out]) ?_ hw
  unfold beginFlush
  repeat' first
    | simp (disch := first | decide | exact Or.inl (by decide) | exact Or.inr rfl) only [keeps_self, keeps_ite,
          keeps_mk, ite_self, abortRows_keeps, refreshSelf_keeps, drainDram_keeps, discardMeasure_keeps,
          suspendNormal_keeps, fallSilent_keeps]
    | split

theorem enterFlush_keeps {s : State} {wB : List Area} {sB : State} (hw : subB [.boot, .dlr, .sessions, .ante, .host,
    .lanes, .fab, .fabc, .med, .mem, .xts, .pwr, .upd, .evr, .frz, .out] wB = true) :
    Keeps wB sB (enterFlush s) ↔ Keeps wB sB s := by
  refine Keeps.peel (v := [.boot, .dlr, .sessions, .ante, .host, .lanes, .fab, .fabc, .med, .mem, .xts, .pwr, .upd,
      .evr, .frz, .out]) ?_ hw
  unfold enterFlush
  repeat' first
    | simp (disch := first | decide | exact Or.inl (by decide) | exact Or.inr rfl) only [keeps_self, keeps_ite,
          keeps_mk, ite_self, thaw_keeps, beginFlush_keeps]
    | split

theorem closeFlush_keeps {s : State} {wB : List Area} {sB : State} (hw : subB [.pwr, .draws] wB = true) :
    Keeps wB sB (closeFlush s) ↔ Keeps wB sB s := by
  refine Keeps.peel (v := [.pwr, .draws]) ?_ hw
  unfold closeFlush
  repeat' first
    | simp (disch := first | decide | exact Or.inl (by decide) | exact Or.inr rfl) only [keeps_self, keeps_ite,
          keeps_mk, ite_self, drawn_keeps]
    | split

theorem rolesAtStart_keeps {s : State} {wB : List Area} {sB : State} (hw : subB [.cores] wB = true) :
    Keeps wB sB (rolesAtStart s) ↔ Keeps wB sB s := by
  refine Keeps.peel (v := [.cores]) ?_ hw
  unfold rolesAtStart
  repeat' first
    | simp (disch := first | decide | exact Or.inl (by decide) | exact Or.inr rfl) only [keeps_self, keeps_ite,
          keeps_mk, ite_self, setRole_keeps]
    | with_reducible refine keeps_each (fun _ _ => ?_) ?_
    | split

theorem coldStart_keeps {cause : Nat} {inp : BootInput} {s0 : State} {wB : List Area} {sB : State} (hw : subB [.clk,
    .boot, .cores, .dlr, .jnl, .sessions, .ante, .host, .lanes, .fab, .fabc, .idx, .cam, .med, .mem, .xts, .pwr,
    .upd, .evr, .ist, .frz, .out] wB = true) :
    Keeps wB sB (coldStart cause inp s0) ↔ Keeps wB sB s0 := by
  refine Keeps.peel (v := [.clk, .boot, .cores, .dlr, .jnl, .sessions, .ante, .host, .lanes, .fab, .fabc, .idx, .cam,
      .med, .mem, .xts, .pwr, .upd, .evr, .ist, .frz, .out]) ?_ hw
  unfold coldStart
  repeat' first
    | simp (disch := first | decide | exact Or.inl (by decide) | exact Or.inr rfl) only [keeps_self, keeps_ite,
          keeps_mk, ite_self, rolesAtStart_keeps, followAlert_keeps]
    | split

theorem flushInstead_keeps {mv : Nat} {s : State} {uB : State} {wB : List Area} {sB : State} (h : flushInstead mv s =
    some uB) (hw : subB [.boot, .dlr, .sessions, .ante, .host, .lanes, .fab, .fabc, .med, .mem, .xts, .pwr, .upd,
    .evr, .frz, .out] wB = true) :
    Keeps wB sB uB ↔ Keeps wB sB s := by
  refine Keeps.peel (v := [.boot, .dlr, .sessions, .ante, .host, .lanes, .fab, .fabc, .med, .mem, .xts, .pwr, .upd,
      .evr, .frz, .out]) ?_ hw
  unfold flushInstead at h
  repeat' first
    | (simp only [Option.some.injEq, reduceCtorEq, Option.ite_none_right_eq_some, Option.ite_none_left_eq_some,
          Option.map_eq_some_iff, Option.bind_eq_some_iff] at h; done)
    | split at h
    | simp only [Option.some.injEq, reduceCtorEq] at h
    | subst h
  all_goals repeat' first
    | simp (disch := first | decide | exact Or.inl (by decide) | exact Or.inr rfl) only [keeps_self, keeps_ite,
          keeps_mk, ite_self, enterFlush_keeps]
    | split

theorem execSupplyVWarn_keeps (mv : Nat) (s : State) : KeepsR [.boot, .dlr, .sessions, .ante, .host, .lanes, .fab,
    .fabc, .med, .mem, .xts, .pwr, .upd, .evr, .frz, .out] s (execSupplyVWarn mv s) := by
  unfold execSupplyVWarn
  repeat' first
    | simp (disch := first | decide | exact Or.inl (by decide) | exact Or.inr rfl) only [keeps_self, keeps_ite,
          keeps_mk, ite_self, keepsR_next, keepsR_fault, keepsR_refused, keepsR_ite, enterDip_keeps]
    | with_reducible refine (flushInstead_keeps (by assumption) (by decide)).mpr ?_
    | with_reducible refine keeps_getD (fun _ _ => ?_) ?_
    | split

theorem execSupplyAboveVResume_keeps (mv : Nat) (s : State) : KeepsR [.boot, .dlr, .sessions, .ante, .host, .lanes,
    .fab, .fabc, .med, .mem, .xts, .pwr, .upd, .evr, .frz, .out] s (execSupplyAboveVResume mv s) := by
  unfold execSupplyAboveVResume
  repeat' first
    | simp (disch := first | decide | exact Or.inl (by decide) | exact Or.inr rfl) only [keeps_self, keeps_ite,
          keeps_mk, ite_self, keepsR_next, keepsR_fault, keepsR_refused, keepsR_ite]
    | with_reducible refine (flushInstead_keeps (by assumption) (by decide)).mpr ?_
    | with_reducible refine keeps_getD (fun _ _ => ?_) ?_
    | split

theorem execSupplyBelowVResume_keeps (mv : Nat) (s : State) : KeepsR [.boot, .dlr, .sessions, .ante, .host, .lanes,
    .fab, .fabc, .med, .mem, .xts, .pwr, .upd, .evr, .frz, .out] s (execSupplyBelowVResume mv s) := by
  unfold execSupplyBelowVResume
  repeat' first
    | simp (disch := first | decide | exact Or.inl (by decide) | exact Or.inr rfl) only [keeps_self, keeps_ite,
          keeps_mk, ite_self, keepsR_next, keepsR_fault, keepsR_refused, keepsR_ite]
    | with_reducible refine (flushInstead_keeps (by assumption) (by decide)).mpr ?_
    | with_reducible refine keeps_getD (fun _ _ => ?_) ?_
    | split

theorem execResumeHoldEnd_keeps (s : State) : KeepsR [.boot, .dlr, .sessions, .ante, .host, .lanes, .fab, .fabc,
    .med, .mem, .xts, .pwr, .upd, .evr, .frz, .out] s (execResumeHoldEnd s) := by
  unfold execResumeHoldEnd
  repeat' first
    | simp (disch := first | decide | exact Or.inl (by decide) | exact Or.inr rfl) only [keeps_self, keeps_ite,
          keeps_mk, ite_self, keepsR_next, keepsR_fault, keepsR_refused, keepsR_ite, leaveDip_keeps, guard]
    | with_reducible refine (flushInstead_keeps (by assumption) (by decide)).mpr ?_
    | with_reducible refine keeps_getD (fun _ _ => ?_) ?_
    | split

theorem execSupplyVBor_keeps (mv : Nat) (s : State) : KeepsR [.boot, .dlr, .sessions, .ante, .host, .lanes, .fab,
    .fabc, .med, .mem, .xts, .pwr, .upd, .evr, .frz, .out] s (execSupplyVBor mv s) := by
  unfold execSupplyVBor
  repeat' first
    | simp (disch := first | decide | exact Or.inl (by decide) | exact Or.inr rfl) only [keeps_self, keeps_ite,
          keeps_mk, ite_self, keepsR_next, keepsR_fault, keepsR_refused, keepsR_ite, enterFlush_keeps, guard]
    | split

theorem execDipTimeout_keeps (s : State) : KeepsR [.boot, .dlr, .sessions, .ante, .host, .lanes, .fab, .fabc, .med,
    .mem, .xts, .pwr, .upd, .evr, .frz, .out] s (execDipTimeout s) := by
  unfold execDipTimeout
  repeat' first
    | simp (disch := first | decide | exact Or.inl (by decide) | exact Or.inr rfl) only [keeps_self, keeps_ite,
          keeps_mk, ite_self, keepsR_next, keepsR_fault, keepsR_refused, keepsR_ite, enterFlush_keeps, guard]
    | split

theorem execSupplyHigh_keeps (mv : Nat) (s : State) : KeepsR [.host, .pwr, .evr, .out] s (execSupplyHigh mv s) := by
  unfold execSupplyHigh
  repeat' first
    | simp (disch := first | decide | exact Or.inl (by decide) | exact Or.inr rfl) only [keeps_self, keeps_ite,
          keeps_mk, ite_self, keepsR_next, keepsR_fault, keepsR_refused, keepsR_ite, guard, event_keeps]
    | split

theorem execFlushComplete_keeps (durUs energyMj endMv : Nat) (s : State) : KeepsR [.pwr, .draws] s (execFlushComplete
    durUs energyMj endMv s) := by
  unfold execFlushComplete
  repeat' first
    | simp (disch := first | decide | exact Or.inl (by decide) | exact Or.inr rfl) only [keeps_self, keeps_ite,
          keeps_mk, ite_self, keepsR_next, keepsR_fault, keepsR_refused, keepsR_ite, closeFlush_keeps]
    | split

theorem execBankExhausted_keeps (mv : Nat) (s : State) : KeepsR [.clk, .pwr] s (execBankExhausted mv s) := by
  unfold execBankExhausted
  repeat' first
    | simp (disch := first | decide | exact Or.inl (by decide) | exact Or.inr rfl) only [keeps_self, keeps_ite,
          keeps_mk, ite_self, keepsR_next, keepsR_fault, keepsR_refused, keepsR_ite]
    | split

theorem execSupplyAbove7v_keeps (mv : Nat) (s : State) : KeepsR [.clk, .pwr] s (execSupplyAbove7v mv s) := by
  unfold execSupplyAbove7v
  repeat' first
    | simp (disch := first | decide | exact Or.inl (by decide) | exact Or.inr rfl) only [keeps_self, keeps_ite,
          keeps_mk, ite_self, keepsR_next, keepsR_fault, keepsR_refused, keepsR_ite]
    | split

theorem execSupplyBelow7v_keeps (mv : Nat) (s : State) : KeepsR [.clk, .pwr] s (execSupplyBelow7v mv s) := by
  unfold execSupplyBelow7v
  repeat' first
    | simp (disch := first | decide | exact Or.inl (by decide) | exact Or.inr rfl) only [keeps_self, keeps_ite,
          keeps_mk, ite_self, keepsR_next, keepsR_fault, keepsR_refused, keepsR_ite]
    | split

theorem execColdStart_keeps (boot : BootInput) (s : State) : KeepsR [.clk, .boot, .cores, .dlr, .jnl, .sessions,
    .ante, .host, .lanes, .fab, .fabc, .idx, .cam, .med, .mem, .xts, .pwr, .upd, .evr, .ist, .frz, .out] s
    (execColdStart boot s) := by
  unfold execColdStart
  repeat' first
    | simp (disch := first | decide | exact Or.inl (by decide) | exact Or.inr rfl) only [keeps_self, keeps_ite,
          keeps_mk, ite_self, keepsR_next, keepsR_fault, keepsR_refused, keepsR_ite, coldStart_keeps]
    | split

theorem execPllLockLoss_keeps (pll : Nat) (s : State) : KeepsR [.clk] s (execPllLockLoss pll s) := by
  unfold execPllLockLoss
  repeat' first
    | simp (disch := first | decide | exact Or.inl (by decide) | exact Or.inr rfl) only [keeps_self, keeps_ite,
          keeps_mk, ite_self, keepsR_next, keepsR_fault, keepsR_refused, keepsR_ite, whenRunning]
    | split

end Sys2Proof.Machine
end

