-- ==== Sys2Proof/Laws/FrameLanes.lean ====
section
/-! SUPPORT. What each operation of Machine/Lanes.lean may change: `f_keeps` takes `f` off the end of a chain of operations
whenever the areas it may change are among those allowed. -/

set_option linter.all false

namespace Sys2Proof.Machine

open Sys2Proof

theorem endTraining_keeps {n : Nat} {s : State} {wB : List Area} {sB : State} (hw : subB [.ante] wB = true) :
    Keeps wB sB (endTraining n s) ↔ Keeps wB sB s := by
  refine Keeps.peel (v := [.ante]) ?_ hw
  unfold endTraining
  repeat' first
    | simp (disch := first | decide | exact Or.inl (by decide) | exact Or.inr rfl) only [keeps_self, keeps_ite,
          keeps_mk, ite_self, dropMaint_keeps]
    | split

theorem settleRevoke_keeps {n : Nat} {s : State} {wB : List Area} {sB : State} (hw : subB [.host, .lanes, .fabc,
    .out] wB = true) :
    Keeps wB sB (settleRevoke n s) ↔ Keeps wB sB s := by
  refine Keeps.peel (v := [.host, .lanes, .fabc, .out]) ?_ hw
  unfold settleRevoke
  repeat' first
    | simp (disch := first | decide | exact Or.inl (by decide) | exact Or.inr rfl) only [keeps_self, keeps_ite,
          keeps_mk, ite_self, moveFrames_keeps, setLane_keeps]
    | with_reducible refine keeps_getD (fun _ _ => ?_) ?_
    | split

theorem beginTraining_keeps {n : Nat} {s0 : State} {wB : List Area} {sB : State} (hw : subB [.ante, .host, .lanes,
    .fabc, .out] wB = true) :
    Keeps wB sB (beginTraining n s0) ↔ Keeps wB sB s0 := by
  refine Keeps.peel (v := [.ante, .host, .lanes, .fabc, .out]) ?_ hw
  unfold beginTraining
  repeat' first
    | simp (disch := first | decide | exact Or.inl (by decide) | exact Or.inr rfl) only [keeps_self, keeps_ite,
          keeps_mk, ite_self, countLane_keeps, setLane_keeps, endTraining_keeps, settleRevoke_keeps]
    | with_reducible refine keeps_getD (fun _ _ => ?_) ?_
    | split

theorem execLaneRetrainWindowStart_keeps (lane : Nat) (s : State) : KeepsR [.ante, .host, .lanes, .fabc, .out] s
    (execLaneRetrainWindowStart lane s) := by
  unfold execLaneRetrainWindowStart
  repeat' first
    | simp (disch := first | decide | exact Or.inl (by decide) | exact Or.inr rfl) only [keeps_self, keeps_ite,
          keeps_mk, ite_self, keepsR_next, keepsR_fault, keepsR_refused, keepsR_ite, laneRow, beginTraining_keeps,
          guard, whenRunning]
    | split

theorem execLaneTrainingDone_keeps (lane pre main post : Nat) (s : State) : KeepsR [.lanes] s (execLaneTrainingDone
    lane pre main post s) := by
  unfold execLaneTrainingDone
  repeat' first
    | simp (disch := first | decide | exact Or.inl (by decide) | exact Or.inr rfl) only [keeps_self, keeps_ite,
          keeps_mk, ite_self, keepsR_next, keepsR_fault, keepsR_refused, keepsR_ite, laneRow, modLane_keeps, guard,
          whenRunning]
    | split

theorem execLaneTrainingTimeout_keeps (lane : Nat) (s : State) : KeepsR [.ante, .host, .lanes, .evr, .out] s
    (execLaneTrainingTimeout lane s) := by
  unfold execLaneTrainingTimeout
  repeat' first
    | simp (disch := first | decide | exact Or.inl (by decide) | exact Or.inr rfl) only [keeps_self, keeps_ite,
          keeps_mk, ite_self, keepsR_next, keepsR_fault, keepsR_refused, keepsR_ite, laneRow, event_keeps,
          setLane_keeps, endTraining_keeps, askTraining_keeps, guard, whenRunning]
    | split

theorem execBlockLock_keeps (lane : Nat) (s : State) : KeepsR [.clk, .lanes] s (execBlockLock lane s) := by
  unfold execBlockLock
  repeat' first
    | simp (disch := first | decide | exact Or.inl (by decide) | exact Or.inr rfl) only [keeps_self, keeps_ite,
          keeps_mk, ite_self, keepsR_next, keepsR_fault, keepsR_refused, keepsR_ite, laneRow, modLane_keeps, guard,
          whenRunning]
    | split

theorem execConfirmPass_keeps (lane : Nat) (s : State) : KeepsR [.ante, .host, .lanes, .fab, .fabc, .out] s
    (execConfirmPass lane s) := by
  unfold execConfirmPass
  repeat' first
    | simp (disch := first | decide | exact Or.inl (by decide) | exact Or.inr rfl) only [keeps_self, keeps_ite,
          keeps_mk, ite_self, keepsR_next, keepsR_fault, keepsR_refused, keepsR_ite, leaveUp_keeps, laneRow,
          modLane_keeps, endTraining_keeps, guard, whenRunning]
    | split

theorem execFalseLock_keeps (lane : Nat) (s : State) : KeepsR [.host, .lanes, .out] s (execFalseLock lane s) := by
  unfold execFalseLock
  repeat' first
    | simp (disch := first | decide | exact Or.inl (by decide) | exact Or.inr rfl) only [keeps_self, keeps_ite,
          keeps_mk, ite_self, keepsR_next, keepsR_fault, keepsR_refused, keepsR_ite, countLane_keeps, laneRow,
          modLane_keeps, guard, whenRunning]
    | split

theorem lockLost_keeps {n : Nat} {s : State} {wB : List Area} {sB : State} (hw : subB [.ante, .host, .lanes, .fab,
    .fabc, .out] wB = true) :
    Keeps wB sB (lockLost n s) ↔ Keeps wB sB s := by
  refine Keeps.peel (v := [.ante, .host, .lanes, .fab, .fabc, .out]) ?_ hw
  unfold lockLost
  repeat' first
    | simp (disch := first | decide | exact Or.inl (by decide) | exact Or.inr rfl) only [keeps_self, keeps_ite,
          keeps_mk, ite_self, countLane_keeps, leaveUp_keeps]
    | split

theorem execLockLoss_keeps (lane : Nat) (s : State) : KeepsR [.ante, .host, .lanes, .fab, .fabc, .out] s
    (execLockLoss lane s) := by
  unfold execLockLoss
  repeat' first
    | simp (disch := first | decide | exact Or.inl (by decide) | exact Or.inr rfl) only [keeps_self, keeps_ite,
          keeps_mk, ite_self, keepsR_next, keepsR_fault, keepsR_refused, keepsR_ite, lockLost_keeps, laneRow, guard,
          whenRunning]
    | split

theorem execHiBerWindow_keeps (lane invalid : Nat) (s : State) : KeepsR [.ante, .host, .lanes, .fab, .fabc, .out] s
    (execHiBerWindow lane invalid s) := by
  unfold execHiBerWindow
  repeat' first
    | simp (disch := first | decide | exact Or.inl (by decide) | exact Or.inr rfl) only [keeps_self, keeps_ite,
          keeps_mk, ite_self, keepsR_next, keepsR_fault, keepsR_refused, keepsR_ite, lockLost_keeps, countLane_keeps,
          laneRow, setLane_keeps, guard, whenRunning]
    | split

theorem execAttemptCountReset_keeps (lane : Nat) (s : State) : KeepsR [.lanes] s (execAttemptCountReset lane s) := by
  unfold execAttemptCountReset
  repeat' first
    | simp (disch := first | decide | exact Or.inl (by decide) | exact Or.inr rfl) only [keeps_self, keeps_ite,
          keeps_mk, ite_self, keepsR_next, keepsR_fault, keepsR_refused, keepsR_ite, laneRow, modLane_keeps, guard,
          whenRunning]
    | split

theorem storeRx_keeps {n cells : Nat} {f : RxFrame} {s : State} {wB : List Area} {sB : State} (hw : subB [.lanes] wB
    = true) :
    Keeps wB sB (storeRx n cells f s) ↔ Keeps wB sB s := by
  refine Keeps.peel (v := [.lanes]) ?_ hw
  unfold storeRx
  repeat' first
    | simp (disch := first | decide | exact Or.inl (by decide) | exact Or.inr rfl) only [keeps_self, keeps_ite,
          keeps_mk, ite_self, modLane_keeps]
    | split

theorem sendPause_keeps {n quanta : Nat} {s : State} {wB : List Area} {sB : State} (hw : subB [.lanes] wB = true) :
    Keeps wB sB (sendPause n quanta s) ↔ Keeps wB sB s := by
  refine Keeps.peel (v := [.lanes]) ?_ hw
  unfold sendPause
  repeat' first
    | simp (disch := first | decide | exact Or.inl (by decide) | exact Or.inr rfl) only [keeps_self, keeps_ite,
          keeps_mk, ite_self, modLane_keeps]
    | split

theorem checkXoff_keeps {n : Nat} {s : State} {wB : List Area} {sB : State} (hw : subB [.lanes] wB = true) :
    Keeps wB sB (checkXoff n s) ↔ Keeps wB sB s := by
  refine Keeps.peel (v := [.lanes]) ?_ hw
  unfold checkXoff
  repeat' first
    | simp (disch := first | decide | exact Or.inl (by decide) | exact Or.inr rfl) only [keeps_self, keeps_ite,
          keeps_mk, ite_self, setLane_keeps, sendPause_keeps]
    | split

theorem checkXon_keeps {n : Nat} {s : State} {wB : List Area} {sB : State} (hw : subB [.lanes] wB = true) :
    Keeps wB sB (checkXon n s) ↔ Keeps wB sB s := by
  refine Keeps.peel (v := [.lanes]) ?_ hw
  unfold checkXon
  repeat' first
    | simp (disch := first | decide | exact Or.inl (by decide) | exact Or.inr rfl) only [keeps_self, keeps_ite,
          keeps_mk, ite_self, setLane_keeps, sendPause_keeps]
    | split

theorem endHold_keeps {n : Nat} {s : State} {wB : List Area} {sB : State} (hw : subB [.host, .lanes, .out] wB = true)
    :
    Keeps wB sB (endHold n s) ↔ Keeps wB sB s := by
  refine Keeps.peel (v := [.host, .lanes, .out]) ?_ hw
  unfold endHold
  repeat' first
    | simp (disch := first | decide | exact Or.inl (by decide) | exact Or.inr rfl) only [keeps_self, keeps_ite,
          keeps_mk, ite_self, countLane_keeps, setLane_keeps]
    | split

theorem takePause_keeps {n : Nat} {pfc : Option Nat} {quanta : Nat} {s0 : State} {wB : List Area} {sB : State} (hw :
    subB [.host, .lanes, .out] wB = true) :
    Keeps wB sB (takePause n pfc quanta s0) ↔ Keeps wB sB s0 := by
  refine Keeps.peel (v := [.host, .lanes, .out]) ?_ hw
  unfold takePause
  repeat' first
    | simp (disch := first | decide | exact Or.inl (by decide) | exact Or.inr rfl) only [keeps_self, keeps_ite,
          keeps_mk, ite_self, countLane_keeps, modLane_keeps, endHold_keeps]
    | split

theorem execPauseReceived_keeps (lane : Nat) (pfc : Option Nat) (quanta : Nat) (s : State) : KeepsR [.host, .lanes,
    .out] s (execPauseReceived lane pfc quanta s) := by
  unfold execPauseReceived
  repeat' first
    | simp (disch := first | decide | exact Or.inl (by decide) | exact Or.inr rfl) only [keeps_self, keeps_ite,
          keeps_mk, ite_self, keepsR_next, keepsR_fault, keepsR_refused, keepsR_ite, laneRow, takePause_keeps, guard,
          whenRunning]
    | split

theorem execPauseExpiry_keeps (lane : Nat) (s : State) : KeepsR [.host, .lanes, .out] s (execPauseExpiry lane s) := by
  unfold execPauseExpiry
  repeat' first
    | simp (disch := first | decide | exact Or.inl (by decide) | exact Or.inr rfl) only [keeps_self, keeps_ite,
          keeps_mk, ite_self, keepsR_next, keepsR_fault, keepsR_refused, keepsR_ite, laneRow, endHold_keeps, guard,
          whenRunning]
    | split

theorem execPauseRepeatTimer_keeps (lane : Nat) (s : State) : KeepsR [.lanes] s (execPauseRepeatTimer lane s) := by
  unfold execPauseRepeatTimer
  repeat' first
    | simp (disch := first | decide | exact Or.inl (by decide) | exact Or.inr rfl) only [keeps_self, keeps_ite,
          keeps_mk, ite_self, keepsR_next, keepsR_fault, keepsR_refused, keepsR_ite, laneRow, modLane_keeps,
          sendPause_keeps, guard, whenRunning]
    | split

theorem execPauseWatchdog_keeps (lane : Nat) (s : State) : KeepsR [.host, .lanes, .evr, .out] s (execPauseWatchdog
    lane s) := by
  unfold execPauseWatchdog
  repeat' first
    | simp (disch := first | decide | exact Or.inl (by decide) | exact Or.inr rfl) only [keeps_self, keeps_ite,
          keeps_mk, ite_self, keepsR_next, keepsR_fault, keepsR_refused, keepsR_ite, countLane_keeps, laneRow,
          event_keeps, modLane_keeps, endHold_keeps, guard, whenRunning]
    | split

theorem execPauseHoldoffEnd_keeps (lane : Nat) (s : State) : KeepsR [.lanes] s (execPauseHoldoffEnd lane s) := by
  unfold execPauseHoldoffEnd
  repeat' first
    | simp (disch := first | decide | exact Or.inl (by decide) | exact Or.inr rfl) only [keeps_self, keeps_ite,
          keeps_mk, ite_self, keepsR_next, keepsR_fault, keepsR_refused, keepsR_ite, laneRow, modLane_keeps, guard,
          whenRunning]
    | split

theorem countGood_keeps {n : Nat} {b : Bytes} {s : State} {wB : List Area} {sB : State} (hw : subB [.host, .lanes,
    .out] wB = true) :
    Keeps wB sB (countGood n b s) ↔ Keeps wB sB s := by
  refine Keeps.peel (v := [.host, .lanes, .out]) ?_ hw
  unfold countGood
  repeat' first
    | simp (disch := first | decide | exact Or.inl (by decide) | exact Or.inr rfl) only [keeps_self, keeps_ite,
          keeps_mk, ite_self, countLane_keeps]
    | split

theorem pauseArrives_keeps {n : Nat} {b : Bytes} {s : State} {wB : List Area} {sB : State} (hw : subB [.host, .lanes,
    .out] wB = true) :
    Keeps wB sB (pauseArrives n b s) ↔ Keeps wB sB s := by
  refine Keeps.peel (v := [.host, .lanes, .out]) ?_ hw
  unfold pauseArrives
  repeat' first
    | simp (disch := first | decide | exact Or.inl (by decide) | exact Or.inr rfl) only [keeps_self, keeps_ite,
          keeps_mk, ite_self, countGood_keeps, takePause_keeps, dropFiltered_keeps]
    | split

theorem sleepTest_keeps {n : Nat} {m : Mark} {b : Bytes} {s : State} {aB : Bool} {uB : State} {wB : List Area} {sB :
    State} (h : sleepTest n m b s = (uB, aB)) (hw : subB [.host, .lanes, .pwr, .out] wB = true) :
    Keeps wB sB uB ↔ Keeps wB sB s := by
  refine Keeps.peel (v := [.host, .lanes, .pwr, .out]) ?_ hw
  unfold sleepTest at h
  repeat' first
    | cases h
    | split at h
    | dsimp only at h
  all_goals repeat' first
    | simp (disch := first | decide | exact Or.inl (by decide) | exact Or.inr rfl) only [keeps_self, keeps_ite,
          keeps_mk, ite_self, countLane_keeps, startExit_keeps]
    | split

theorem sleepTest_keeps1 {n : Nat} {m : Mark} {b : Bytes} {s : State} {wB : List Area} {sB : State} (hw : subB
    [.host, .lanes, .pwr, .out] wB = true) :
    Keeps wB sB (sleepTest n m b s).1 ↔ Keeps wB sB s := sleepTest_keeps rfl hw

theorem storeClient_keeps {n : Nat} {m : Mark} {b : Bytes} {s : State} {wB : List Area} {sB : State} (hw : subB
    [.host, .lanes, .out] wB = true) :
    Keeps wB sB (storeClient n m b s) ↔ Keeps wB sB s := by
  refine Keeps.peel (v := [.host, .lanes, .out]) ?_ hw
  unfold storeClient
  repeat' first
    | simp (disch := first | decide | exact Or.inl (by decide) | exact Or.inr rfl) only [keeps_self, keeps_ite,
          keeps_mk, ite_self, countLane_keeps, storeRx_keeps, checkXoff_keeps]
    | split

theorem clientFrame_keeps {n : Nat} {m : Mark} {b : Bytes} {s0 : State} {wB : List Area} {sB : State} (hw : subB
    [.host, .lanes, .pwr, .out] wB = true) :
    Keeps wB sB (clientFrame n m b s0) ↔ Keeps wB sB s0 := by
  refine Keeps.peel (v := [.host, .lanes, .pwr, .out]) ?_ hw
  unfold clientFrame
  repeat' first
    | simp (disch := first | decide | exact Or.inl (by decide) | exact Or.inr rfl) only [keeps_self, keeps_ite,
          keeps_mk, ite_self, sleepTest_keeps1, countGood_keeps, dropFiltered_keeps, pauseArrives_keeps,
          storeClient_keeps]
    | with_reducible refine (sleepTest_keeps (by assumption) (by decide)).mpr ?_
    | split

theorem refuseFrame_keeps {n c cost : Nat} {nak : Bool} {s : State} {wB : List Area} {sB : State} (hw : subB [.host,
    .lanes, .out] wB = true) :
    Keeps wB sB (refuseFrame n c cost nak s) ↔ Keeps wB sB s := by
  refine Keeps.peel (v := [.host, .lanes, .out]) ?_ hw
  unfold refuseFrame
  repeat' first
    | simp (disch := first | decide | exact Or.inl (by decide) | exact Or.inr rfl) only [keeps_self, keeps_ite,
          keeps_mk, ite_self, sendCredit_keeps, setLane_keeps, freeCells_keeps]
    | split

theorem dropNoCredit_keeps {n : Nat} {s : State} {wB : List Area} {sB : State} (hw : subB [.ante, .host, .lanes,
    .fab, .fabc, .out] wB = true) :
    Keeps wB sB (dropNoCredit n s) ↔ Keeps wB sB s := by
  refine Keeps.peel (v := [.ante, .host, .lanes, .fab, .fabc, .out]) ?_ hw
  unfold dropNoCredit
  repeat' first
    | simp (disch := first | decide | exact Or.inl (by decide) | exact Or.inr rfl) only [keeps_self, keeps_ite,
          keeps_mk, ite_self, sendCredit_keeps, setLane_keeps, revokeLane_keeps]
    | split

theorem takeVoid_keeps {n : Nat} {h : Hdr} {s : State} {wB : List Area} {sB : State} (hw : subB [.host, .lanes,
    .fabc, .out] wB = true) :
    Keeps wB sB (takeVoid n h s) ↔ Keeps wB sB s := by
  refine Keeps.peel (v := [.host, .lanes, .fabc, .out]) ?_ hw
  unfold takeVoid
  repeat' first
    | simp (disch := first | decide | exact Or.inl (by decide) | exact Or.inr rfl) only [keeps_self, keeps_ite,
          keeps_mk, ite_self, refuseFrame_keeps, countLane_keeps, setLane_keeps]
    | split

theorem dropFrame_keeps {n : Nat} {filtered : Bool} {s : State} {wB : List Area} {sB : State} (hw : subB [.host,
    .lanes, .fabc, .out] wB = true) :
    Keeps wB sB (dropFrame n filtered s) ↔ Keeps wB sB s := by
  refine Keeps.peel (v := [.host, .lanes, .fabc, .out]) ?_ hw
  unfold dropFrame
  repeat' first
    | simp (disch := first | decide | exact Or.inl (by decide) | exact Or.inr rfl) only [keeps_self, keeps_ite,
          keeps_mk, ite_self, dropType_keeps, dropFiltered_keeps]
    | split

theorem creditedFrame_keeps {n : Nat} {m : Mark} {b : Bytes} {s : State} {wB : List Area} {sB : State} (hw : subB
    [.ante, .host, .lanes, .fab, .fabc, .out] wB = true) :
    Keeps wB sB (creditedFrame n m b s) ↔ Keeps wB sB s := by
  refine Keeps.peel (v := [.ante, .host, .lanes, .fab, .fabc, .out]) ?_ hw
  unfold creditedFrame
  repeat' first
    | simp (disch := first | decide | exact Or.inl (by decide) | exact Or.inr rfl) only [keeps_self, keeps_ite,
          keeps_mk, ite_self, refuseFrame_keeps, dropNoCredit_keeps, storeRx_keeps, sendCredit_keeps,
          dropFrame_keeps, setLane_keeps]
    | split

theorem badFrame_keeps {n : Nat} {m : Mark} {b : Bytes} {s : State} {wB : List Area} {sB : State} (hw : subB [.ante,
    .host, .lanes, .fab, .fabc, .out] wB = true) :
    Keeps wB sB (badFrame n m b s) ↔ Keeps wB sB s := by
  refine Keeps.peel (v := [.ante, .host, .lanes, .fab, .fabc, .out]) ?_ hw
  unfold badFrame
  repeat' first
    | simp (disch := first | decide | exact Or.inl (by decide) | exact Or.inr rfl) only [keeps_self, keeps_ite,
          keeps_mk, ite_self, creditedFrame_keeps, sendCredit_keeps]
    | split

theorem fabricFrame_keeps {n : Nat} {m : Mark} {b : Bytes} {s0 : State} {wB : List Area} {sB : State} (hw : subB
    [.ante, .host, .lanes, .fab, .fabc, .pwr, .out] wB = true) :
    Keeps wB sB (fabricFrame n m b s0) ↔ Keeps wB sB s0 := by
  refine Keeps.peel (v := [.ante, .host, .lanes, .fab, .fabc, .pwr, .out]) ?_ hw
  unfold fabricFrame
  repeat' first
    | simp (disch := first | decide | exact Or.inl (by decide) | exact Or.inr rfl) only [keeps_self, keeps_ite,
          keeps_mk, ite_self, creditedFrame_keeps, sleepTest_keeps1, countGood_keeps, badFrame_keeps,
          dropFrame_keeps, takeVoid_keeps]
    | with_reducible refine (sleepTest_keeps (by assumption) (by decide)).mpr ?_
    | split

theorem receiveFrame_keeps {n : Nat} {b : Bytes} {s : State} {wB : List Area} {sB : State} (hw : subB [.ante, .host,
    .lanes, .fab, .fabc, .pwr, .out] wB = true) :
    Keeps wB sB (receiveFrame n b s) ↔ Keeps wB sB s := by
  refine Keeps.peel (v := [.ante, .host, .lanes, .fab, .fabc, .pwr, .out]) ?_ hw
  unfold receiveFrame
  repeat' first
    | simp (disch := first | decide | exact Or.inl (by decide) | exact Or.inr rfl) only [keeps_self, keeps_ite,
          keeps_mk, ite_self, countLane_keeps, fabricFrame_keeps, clientFrame_keeps]
    | split

theorem execLaneFrameReceive_keeps (lane : Nat) (frame : Bytes) (invalidBlocks : Nat) (s : State) : KeepsR [.ante,
    .host, .lanes, .fab, .fabc, .pwr, .out] s (execLaneFrameReceive lane frame invalidBlocks s) := by
  unfold execLaneFrameReceive
  repeat' first
    | simp (disch := first | decide | exact Or.inl (by decide) | exact Or.inr rfl) only [keeps_self, keeps_ite,
          keeps_mk, ite_self, keepsR_next, keepsR_fault, keepsR_refused, keepsR_ite, countLane_keeps, laneRow,
          receiveFrame_keeps, guard, whenRunning]
    | split

theorem execVoidFrame_keeps (lane : Nat) (h : Hdr) (s : State) : KeepsR [.host, .lanes, .fabc, .out] s (execVoidFrame
    lane h s) := by
  unfold execVoidFrame
  repeat' first
    | simp (disch := first | decide | exact Or.inl (by decide) | exact Or.inr rfl) only [keeps_self, keeps_ite,
          keeps_mk, ite_self, keepsR_next, keepsR_fault, keepsR_refused, keepsR_ite, laneRow, takeVoid_keeps, guard,
          whenRunning]
    | split

theorem execNocreditDrop_keeps (lane : Nat) (h : Hdr) (s : State) : KeepsR [.ante, .host, .lanes, .fab, .fabc, .out]
    s (execNocreditDrop lane h s) := by
  unfold execNocreditDrop
  repeat' first
    | simp (disch := first | decide | exact Or.inl (by decide) | exact Or.inr rfl) only [keeps_self, keeps_ite,
          keeps_mk, ite_self, keepsR_next, keepsR_fault, keepsR_refused, keepsR_ite, dropNoCredit_keeps, laneRow,
          guard, whenRunning]
    | split

theorem execFabricFrameDrop_keeps (lane : Nat) (cause : FrameFault) (s : State) : KeepsR [.host, .lanes, .fabc, .out]
    s (execFabricFrameDrop lane cause s) := by
  unfold execFabricFrameDrop
  repeat' first
    | simp (disch := first | decide | exact Or.inl (by decide) | exact Or.inr rfl) only [keeps_self, keeps_ite,
          keeps_mk, ite_self, keepsR_next, keepsR_fault, keepsR_refused, keepsR_ite, laneRow, dropFrame_keeps, guard,
          whenRunning]
    | split

theorem takeHead_keeps {n : Nat} {s : State} {wB : List Area} {sB : State} (hw : subB [.host, .lanes, .out] wB =
    true) :
    Keeps wB sB (takeHead n s) ↔ Keeps wB sB s := by
  refine Keeps.peel (v := [.host, .lanes, .out]) ?_ hw
  unfold takeHead
  repeat' first
    | simp (disch := first | decide | exact Or.inl (by decide) | exact Or.inr rfl) only [keeps_self, keeps_ite,
          keeps_mk, ite_self, setLane_keeps, checkXon_keeps, freeCells_keeps]
    | split

theorem execRingFrameTaken_keeps (lane : Nat) (s : State) : KeepsR [.host, .lanes, .out] s (execRingFrameTaken lane
    s) := by
  unfold execRingFrameTaken
  repeat' first
    | simp (disch := first | decide | exact Or.inl (by decide) | exact Or.inr rfl) only [keeps_self, keeps_ite,
          keeps_mk, ite_self, keepsR_next, keepsR_fault, keepsR_refused, keepsR_ite, laneRow, takeHead_keeps, guard,
          whenRunning]
    | split

theorem forwardFrame_keeps {n : Nat} {f : RxFrame} {s0 : State} {wB : List Area} {sB : State} (hw : subB [.host,
    .lanes, .fab, .fabc, .out] wB = true) :
    Keeps wB sB (forwardFrame n f s0) ↔ Keeps wB sB s0 := by
  refine Keeps.peel (v := [.host, .lanes, .fab, .fabc, .out]) ?_ hw
  unfold forwardFrame
  repeat' first
    | simp (disch := first | decide | exact Or.inl (by decide) | exact Or.inr rfl) only [keeps_self, keeps_ite,
          keeps_mk, ite_self, dropHop_keeps, queueTo_keeps, setLane_keeps]
    | split

theorem execFabricForward_keeps (lane : Nat) (h : Hdr) (s : State) : KeepsR [.host, .lanes, .fab, .fabc, .out] s
    (execFabricForward lane h s) := by
  unfold execFabricForward
  repeat' first
    | simp (disch := first | decide | exact Or.inl (by decide) | exact Or.inr rfl) only [keeps_self, keeps_ite,
          keeps_mk, ite_self, keepsR_next, keepsR_fault, keepsR_refused, keepsR_ite, laneRow, forwardFrame_keeps,
          guard, whenRunning]
    | split

theorem sendFrame_keeps {n : Nat} {f : TxFrame} {s : State} {wB : List Area} {sB : State} (hw : subB [.jnl,
    .sessions, .host, .lanes, .fabc, .out] wB = true) :
    Keeps wB sB (sendFrame n f s) ↔ Keeps wB sB s := by
  refine Keeps.peel (v := [.jnl, .sessions, .host, .lanes, .fabc, .out]) ?_ hw
  unfold sendFrame
  repeat' first
    | simp (disch := first | decide | exact Or.inl (by decide) | exact Or.inr rfl) only [keeps_self, keeps_ite,
          keeps_mk, ite_self, countSent_keeps, emit_keeps, setDelivered_keeps, setLane_keeps, frameGone_keeps]
    | split

theorem execLaneFrameTransmit_keeps (lane : Nat) (s : State) : KeepsR [.jnl, .sessions, .host, .lanes, .fabc, .out] s
    (execLaneFrameTransmit lane s) := by
  unfold execLaneFrameTransmit
  repeat' first
    | simp (disch := first | decide | exact Or.inl (by decide) | exact Or.inr rfl) only [keeps_self, keeps_ite,
          keeps_mk, ite_self, keepsR_next, keepsR_fault, keepsR_refused, keepsR_ite, laneRow, sendFrame_keeps,
          setLane_keeps, guard, whenRunning]
    | split

theorem execLpiEntry_keeps (lane : Nat) (s : State) : KeepsR [.host, .lanes, .out] s (execLpiEntry lane s) := by
  unfold execLpiEntry
  repeat' first
    | simp (disch := first | decide | exact Or.inl (by decide) | exact Or.inr rfl) only [keeps_self, keeps_ite,
          keeps_mk, ite_self, keepsR_next, keepsR_fault, keepsR_refused, keepsR_ite, countLane_keeps, laneRow,
          modLane_keeps, guard, whenRunning]
    | split

theorem execLpiWake_keeps (lane : Nat) (s : State) : KeepsR [.lanes] s (execLpiWake lane s) := by
  unfold execLpiWake
  repeat' first
    | simp (disch := first | decide | exact Or.inl (by decide) | exact Or.inr rfl) only [keeps_self, keeps_ite,
          keeps_mk, ite_self, keepsR_next, keepsR_fault, keepsR_refused, keepsR_ite, wakeLane_keeps, laneRow, guard,
          whenRunning]
    | split

theorem execRxLowPowerIdle_keeps (lane : Nat) (enter : Bool) (s : State) : KeepsR [.host, .lanes, .out] s
    (execRxLowPowerIdle lane enter s) := by
  unfold execRxLowPowerIdle
  repeat' first
    | simp (disch := first | decide | exact Or.inl (by decide) | exact Or.inr rfl) only [keeps_self, keeps_ite,
          keeps_mk, ite_self, keepsR_next, keepsR_fault, keepsR_refused, keepsR_ite, countLane_keeps, laneRow,
          modLane_keeps, guard, whenRunning]
    | split

end Sys2Proof.Machine
end

