-- ==== Sys2Proof/Laws/FrameTrunks.lean ====
section
/-! SUPPORT. What each operation of Machine/Trunks.lean may change: `f_keeps` takes `f` off the end of a chain of operations
whenever the areas it may change are among those allowed. -/

set_option linter.all false

namespace Sys2Proof.Machine

open Sys2Proof

theorem joinLane_keeps {n : Nat} {s : State} {wB : List Area} {sB : State} (hw : subB [.lanes] wB = true) :
    Keeps wB sB (joinLane n s) ↔ Keeps wB sB s := by
  refine Keeps.peel (v := [.lanes]) ?_ hw
  unfold joinLane
  repeat' first
    | simp (disch := first | decide | exact Or.inl (by decide) | exact Or.inr rfl) only [keeps_self, keeps_ite,
          keeps_mk, ite_self, modLane_keeps]
    | split

theorem execHello_keeps (lane node : Nat) (valid : Bool) (farLane mac _serial : Nat) (s : State) : KeepsR [.host,
    .lanes, .fab, .fabc, .out] s (execHello lane node valid farLane mac _serial s) := by
  unfold execHello
  repeat' first
    | simp (disch := first | decide | exact Or.inl (by decide) | exact Or.inr rfl) only [keeps_self, keeps_ite,
          keeps_mk, ite_self, keepsR_next, keepsR_fault, keepsR_refused, keepsR_ite, topologyChanged_keeps, laneRow,
          joinLane_keeps, setLane_keeps, unjoinLane_keeps, guard, whenRunning]
    | split

theorem execHelloTimer_keeps (s : State) : KeepsR [.host, .lanes, .fab, .out] s (execHelloTimer s) := by
  unfold execHelloTimer
  repeat' first
    | simp (disch := first | decide | exact Or.inl (by decide) | exact Or.inr rfl) only [keeps_self, keeps_ite,
          keeps_mk, ite_self, keepsR_next, keepsR_fault, keepsR_refused, keepsR_ite, guard, helloFrame_keeps,
          whenRunning]
    | with_reducible refine keeps_each (fun _ _ => ?_) ?_
    | split

theorem execCredit_keeps (lane nextExp : Nat) (nak : Bool) (counts : List Nat) (s : State) : KeepsR [.host, .lanes,
    .fabc, .out] s (execCredit lane nextExp nak counts s) := by
  unfold execCredit
  repeat' first
    | simp (disch := first | decide | exact Or.inl (by decide) | exact Or.inr rfl) only [keeps_self, keeps_ite,
          keeps_mk, ite_self, keepsR_next, keepsR_fault, keepsR_refused, keepsR_ite, laneRow, setLane_keeps,
          frameGone_keeps, guard, whenRunning]
    | with_reducible refine keeps_each (fun _ _ => ?_) ?_
    | split

theorem execCreditReturnTimer_keeps (lane : Nat) (s : State) : KeepsR [.host, .lanes, .out] s (execCreditReturnTimer
    lane s) := by
  unfold execCreditReturnTimer
  repeat' first
    | simp (disch := first | decide | exact Or.inl (by decide) | exact Or.inr rfl) only [keeps_self, keeps_ite,
          keeps_mk, ite_self, keepsR_next, keepsR_fault, keepsR_refused, keepsR_ite, laneRow, sendCredit_keeps,
          guard, whenRunning]
    | split

theorem execLaneFailure_keeps (lane : Nat) (cause : LaneFault) (s : State) : KeepsR [.ante, .host, .lanes, .fab,
    .fabc, .out] s (execLaneFailure lane cause s) := by
  unfold execLaneFailure
  repeat' first
    | simp (disch := first | decide | exact Or.inl (by decide) | exact Or.inr rfl) only [keeps_self, keeps_ite,
          keeps_mk, ite_self, keepsR_next, keepsR_fault, keepsR_refused, keepsR_ite, lockLost_keeps, laneRow,
          revokeLane_keeps, guard, whenRunning]
    | split

theorem endRevoke_keeps {n final : Nat} {s : State} {wB : List Area} {sB : State} (hw : subB [.host, .lanes, .fab,
    .fabc, .out] wB = true) :
    Keeps wB sB (endRevoke n final s) ↔ Keeps wB sB s := by
  refine Keeps.peel (v := [.host, .lanes, .fab, .fabc, .out]) ?_ hw
  unfold endRevoke
  repeat' first
    | simp (disch := first | decide | exact Or.inl (by decide) | exact Or.inr rfl) only [keeps_self, keeps_ite,
          keeps_mk, ite_self, moveFrames_keeps, topologyChanged_keeps, setLane_keeps, frameGone_keeps]
    | with_reducible refine keeps_each (fun _ _ => ?_) ?_
    | with_reducible refine keeps_getD (fun _ _ => ?_) ?_
    | split

theorem obeyRevoke_keeps {via n final : Nat} {s : State} {wB : List Area} {sB : State} (hw : subB [.ante, .host,
    .lanes, .fab, .fabc, .out] wB = true) :
    Keeps wB sB (obeyRevoke via n final s) ↔ Keeps wB sB s := by
  refine Keeps.peel (v := [.ante, .host, .lanes, .fab, .fabc, .out]) ?_ hw
  unfold obeyRevoke
  repeat' first
    | simp (disch := first | decide | exact Or.inl (by decide) | exact Or.inr rfl) only [keeps_self, keeps_ite,
          keeps_mk, ite_self, moveFrames_keeps, revokeFrame_keeps, setLane_keeps, askTraining_keeps, endRevoke_keeps]
    | with_reducible refine keeps_getD (fun _ _ => ?_) ?_
    | split

theorem execRevoke_keeps (lane revoked final : Nat) (ack : Bool) (s : State) : KeepsR [.ante, .host, .lanes, .fab,
    .fabc, .out] s (execRevoke lane revoked final ack s) := by
  unfold execRevoke
  repeat' first
    | simp (disch := first | decide | exact Or.inl (by decide) | exact Or.inr rfl) only [keeps_self, keeps_ite,
          keeps_mk, ite_self, keepsR_next, keepsR_fault, keepsR_refused, keepsR_ite, laneRow, obeyRevoke_keeps,
          endRevoke_keeps, guard, whenRunning]
    | split

theorem execRoute_keeps (src serial : Nat) (trunks : List Nat) (valid : Bool) (validAt : Nat) (s : State) : KeepsR
    [.host, .lanes, .fab, .fabc, .evr, .out] s (execRoute src serial trunks valid validAt s) := by
  unfold execRoute
  repeat' first
    | simp (disch := first | decide | exact Or.inl (by decide) | exact Or.inr rfl) only [keeps_self, keeps_ite,
          keeps_mk, ite_self, keepsR_next, keepsR_fault, keepsR_refused, keepsR_ite, topologyChanged_keeps, guard,
          event_keeps, passRoute_keeps, whenRunning, withdrawNode_keeps]
    | split

theorem execRouteFloodTimer_keeps (s : State) : KeepsR [.host, .lanes, .fab, .fabc, .out] s (execRouteFloodTimer s)
    := by
  unfold execRouteFloodTimer
  repeat' first
    | simp (disch := first | decide | exact Or.inl (by decide) | exact Or.inr rfl) only [keeps_self, keeps_ite,
          keeps_mk, ite_self, keepsR_next, keepsR_fault, keepsR_refused, keepsR_ite, guard, floodRoute_keeps,
          whenRunning]
    | split

theorem writeRoutes_keeps {s : State} {wB : List Area} {sB : State} (hw : subB [.cam] wB = true) :
    Keeps wB sB (writeRoutes s) ↔ Keeps wB sB s := by
  refine Keeps.peel (v := [.cam]) ?_ hw
  unfold writeRoutes
  repeat' first
    | simp (disch := first | decide | exact Or.inl (by decide) | exact Or.inr rfl) only [keeps_self, keeps_ite,
          keeps_mk, ite_self]
    | with_reducible refine keeps_foldl (fun _ _ => ?_) ?_
    | split

theorem recompute_keeps {s : State} {wB : List Area} {sB : State} (hw : subB [.fab, .fabc, .cam] wB = true) :
    Keeps wB sB (recompute s) ↔ Keeps wB sB s := by
  refine Keeps.peel (v := [.fab, .fabc, .cam]) ?_ hw
  unfold recompute
  repeat' first
    | simp (disch := first | decide | exact Or.inl (by decide) | exact Or.inr rfl) only [keeps_self, keeps_ite,
          keeps_mk, ite_self, writeRoutes_keeps, countSearch_keeps]
    | with_reducible refine keeps_each (fun _ _ => ?_) ?_
    | with_reducible refine keeps_foldl (fun _ _ => ?_) ?_
    | split

theorem openWaiting_keeps {s : State} {wB : List Area} {sB : State} (hw : subB [.host, .lanes, .fab, .fabc, .out] wB
    = true) :
    Keeps wB sB (openWaiting s) ↔ Keeps wB sB s := by
  refine Keeps.peel (v := [.host, .lanes, .fab, .fabc, .out]) ?_ hw
  unfold openWaiting
  repeat' first
    | simp (disch := first | decide | exact Or.inl (by decide) | exact Or.inr rfl) only [keeps_self, keeps_ite,
          keeps_mk, ite_self, openPeer_keeps]
    | with_reducible refine keeps_each (fun _ _ => ?_) ?_
    | split

theorem execRouteRecompute_keeps (s : State) : KeepsR [.host, .lanes, .fab, .fabc, .cam, .out] s (execRouteRecompute
    s) := by
  unfold execRouteRecompute
  repeat' first
    | simp (disch := first | decide | exact Or.inl (by decide) | exact Or.inr rfl) only [keeps_self, keeps_ite,
          keeps_mk, ite_self, keepsR_next, keepsR_fault, keepsR_refused, keepsR_ite, guard, openWaiting_keeps,
          whenRunning, recompute_keeps]
    | split

theorem execTimeExchangeTimer_keeps (s : State) : KeepsR [.host, .lanes, .fab, .out] s (execTimeExchangeTimer s) := by
  unfold execTimeExchangeTimer
  repeat' first
    | simp (disch := first | decide | exact Or.inl (by decide) | exact Or.inr rfl) only [keeps_self, keeps_ite,
          keeps_mk, ite_self, keepsR_next, keepsR_fault, keepsR_refused, keepsR_ite, guard, timeFrame_keeps,
          whenRunning]
    | split

theorem takeOffset_keeps {d : Int} {s : State} {wB : List Area} {sB : State} (hw : subB [.clk, .ante, .host, .fab,
    .evr, .out] wB = true) :
    Keeps wB sB (takeOffset d s) ↔ Keeps wB sB s := by
  refine Keeps.peel (v := [.clk, .ante, .host, .fab, .evr, .out]) ?_ hw
  unfold takeOffset
  repeat' first
    | simp (disch := first | decide | exact Or.inl (by decide) | exact Or.inr rfl) only [keeps_self, keeps_ite,
          keeps_mk, ite_self, event_keeps, stepTime_keeps]
    | split

theorem execTimeFrame_keeps (lane : Nat) (msg : TimeMsg) (s : State) : KeepsR [.clk, .ante, .host, .lanes, .fab,
    .evr, .out] s (execTimeFrame lane msg s) := by
  unfold execTimeFrame
  repeat' first
    | simp (disch := first | decide | exact Or.inl (by decide) | exact Or.inr rfl) only [keeps_self, keeps_ite,
          keeps_mk, ite_self, keepsR_next, keepsR_fault, keepsR_refused, keepsR_ite, laneRow, timeFrame_keeps,
          takeOffset_keeps, guard, whenRunning]
    | split

end Sys2Proof.Machine
end

