-- ==== Sys2Proof/Laws/FrameUpkeep.lean ====
section
/-! SUPPORT. What each operation of Machine/Upkeep.lean may change: `f_keeps` takes `f` off the end of a chain of operations
whenever the areas it may change are among those allowed. -/

set_option linter.all false

namespace Sys2Proof.Machine

open Sys2Proof

theorem startMaint_keeps {m : MaintResv} {s : State} {wB : List Area} {sB : State} (hw : subB [.mem] wB = true) :
    Keeps wB sB (startMaint m s) ↔ Keeps wB sB s := by
  refine Keeps.peel (v := [.mem]) ?_ hw
  unfold startMaint
  repeat' first
    | simp (disch := first | decide | exact Or.inl (by decide) | exact Or.inr rfl) only [keeps_self, keeps_ite,
          keeps_mk, ite_self, setChan_keeps]
    | split

theorem execMaintenanceReservationStart_keeps (resv : Nat) (s : State) : KeepsR [.ante, .mem] s
    (execMaintenanceReservationStart resv s) := by
  unfold execMaintenanceReservationStart
  repeat' first
    | simp (disch := first | decide | exact Or.inl (by decide) | exact Or.inr rfl) only [keeps_self, keeps_ite,
          keeps_mk, ite_self, keepsR_next, keepsR_fault, keepsR_refused, keepsR_ite, startMaint_keeps, whenRunning]
    | split

theorem askRecount_keeps {l : Ledger} {s : State} {wB : List Area} {sB : State} (hw : subB [.jnl, .ante] wB = true) :
    Keeps wB sB (askRecount l s) ↔ Keeps wB sB s := by
  refine Keeps.peel (v := [.jnl, .ante]) ?_ hw
  unfold askRecount
  repeat' first
    | simp (disch := first | decide | exact Or.inl (by decide) | exact Or.inr rfl) only [keeps_self, keeps_ite,
          keeps_mk, ite_self, reserveMaint_keeps, dropMaint_keeps]
    | with_reducible refine keeps_each (fun _ _ => ?_) ?_
    | split

theorem reopenSession_keeps {peer : Nat} {s : State} {wB : List Area} {sB : State} (hw : subB [.host, .lanes, .fab,
    .fabc, .out] wB = true) :
    Keeps wB sB (reopenSession peer s) ↔ Keeps wB sB s := by
  refine Keeps.peel (v := [.host, .lanes, .fab, .fabc, .out]) ?_ hw
  unfold reopenSession
  repeat' first
    | simp (disch := first | decide | exact Or.inl (by decide) | exact Or.inr rfl) only [keeps_self, keeps_ite,
          keeps_mk, ite_self, openPeer_keeps, sendOwn_keeps]
    | split

theorem ledgerResponse_keeps {l : Ledger} {unit : Nat} {s : State} {wB : List Area} {sB : State} (hw : subB [.boot,
    .jnl, .ante, .host, .lanes, .fab, .fabc, .xts, .pwr, .evr, .out] wB = true) :
    Keeps wB sB (ledgerResponse l unit s) ↔ Keeps wB sB s := by
  refine Keeps.peel (v := [.boot, .jnl, .ante, .host, .lanes, .fab, .fabc, .xts, .pwr, .evr, .out]) ?_ hw
  unfold ledgerResponse
  repeat' first
    | simp (disch := first | decide | exact Or.inl (by decide) | exact Or.inr rfl) only [keeps_self, keeps_ite,
          keeps_mk, ite_self, setQueue_keeps, enterReadOnly_keeps, retireEngine_keeps, raiseOn_keeps, retarget_keeps,
          event_keeps, revokeLane_keeps, reopenSession_keeps]
    | split

theorem execLedgerFault_keeps (ledger : Ledger) (lhs rhs unit : Nat) (s : State) : KeepsR [.boot, .jnl, .ante, .host,
    .lanes, .fab, .fabc, .xts, .pwr, .evr, .out] s (execLedgerFault ledger lhs rhs unit s) := by
  unfold execLedgerFault
  repeat' first
    | simp (disch := first | decide | exact Or.inl (by decide) | exact Or.inr rfl) only [keeps_self, keeps_ite,
          keeps_mk, ite_self, keepsR_next, keepsR_fault, keepsR_refused, keepsR_ite, raiseLedger_keeps,
          askRecount_keeps, ledgerResponse_keeps, event_keeps, whenRunning]
    | split

theorem recount_keeps {l : Ledger} {s : State} {wB : List Area} {sB : State} (hw : subB [.jnl] wB = true) :
    Keeps wB sB (recount l s) ↔ Keeps wB sB s := by
  refine Keeps.peel (v := [.jnl]) ?_ hw
  unfold recount
  repeat' first
    | simp (disch := first | decide | exact Or.inl (by decide) | exact Or.inr rfl) only [keeps_self, keeps_ite,
          keeps_mk, ite_self]
    | split

theorem execLedgerRecountWindow_keeps (s : State) : KeepsR [.jnl, .ante] s (execLedgerRecountWindow s) := by
  unfold execLedgerRecountWindow
  repeat' first
    | simp (disch := first | decide | exact Or.inl (by decide) | exact Or.inr rfl) only [keeps_self, keeps_ite,
          keeps_mk, ite_self, keepsR_next, keepsR_fault, keepsR_refused, keepsR_ite, recount_keeps, whenRunning,
          dropMaint_keeps]
    | with_reducible refine keeps_each (fun _ _ => ?_) ?_
    | split

theorem execEventHoldExpiry_keeps (s : State) : KeepsR [.host, .evr, .out] s (execEventHoldExpiry s) := by
  unfold execEventHoldExpiry
  repeat' first
    | simp (disch := first | decide | exact Or.inl (by decide) | exact Or.inr rfl) only [keeps_self, keeps_ite,
          keeps_mk, ite_self, keepsR_next, keepsR_fault, keepsR_refused, keepsR_ite, startWrite_keeps, guard,
          whenRunning]
    | split

theorem writeDone_keeps {s : State} {wB : List Area} {sB : State} (hw : subB [.host, .evr, .out] wB = true) :
    Keeps wB sB (writeDone s) ↔ Keeps wB sB s := by
  refine Keeps.peel (v := [.host, .evr, .out]) ?_ hw
  unfold writeDone
  repeat' first
    | simp (disch := first | decide | exact Or.inl (by decide) | exact Or.inr rfl) only [keeps_self, keeps_ite,
          keeps_mk, ite_self, startWrite_keeps, reportDrops_keeps]
    | split

theorem writePending_keeps {s : State} {wB : List Area} {sB : State} (hw : subB [.host, .evr, .out] wB = true) :
    Keeps wB sB (writePending s) ↔ Keeps wB sB s := by
  refine Keeps.peel (v := [.host, .evr, .out]) ?_ hw
  unfold writePending
  repeat' first
    | simp (disch := first | decide | exact Or.inl (by decide) | exact Or.inr rfl) only [keeps_self, keeps_ite,
          keeps_mk, ite_self, startWrite_keeps, writeDone_keeps]
    | with_reducible refine keeps_each (fun _ _ => ?_) ?_
    | split

theorem execEventStoreWriteDone_keeps (s : State) : KeepsR [.host, .evr, .out] s (execEventStoreWriteDone s) := by
  unfold execEventStoreWriteDone
  repeat' first
    | simp (disch := first | decide | exact Or.inl (by decide) | exact Or.inr rfl) only [keeps_self, keeps_ite,
          keeps_mk, ite_self, keepsR_next, keepsR_fault, keepsR_refused, keepsR_ite, writeDone_keeps, whenRunning]
    | split

theorem failChannel_keeps {c : Nat} {s : State} {wB : List Area} {sB : State} (hw : subB [.boot, .mem] wB = true) :
    Keeps wB sB (failChannel c s) ↔ Keeps wB sB s := by
  refine Keeps.peel (v := [.boot, .mem]) ?_ hw
  unfold failChannel
  repeat' first
    | simp (disch := first | decide | exact Or.inl (by decide) | exact Or.inr rfl) only [keeps_self, keeps_ite,
          keeps_mk, ite_self, setChan_keeps]
    | with_reducible refine keeps_getD (fun _ _ => ?_) ?_
    | split

theorem execDramLiveRetrain_keeps (channel : Nat) (finished : Bool) (eyes : List (Nat × Nat)) (s : State) : KeepsR
    [.boot, .ante, .mem] s (execDramLiveRetrain channel finished eyes s) := by
  unfold execDramLiveRetrain
  repeat' first
    | simp (disch := first | decide | exact Or.inl (by decide) | exact Or.inr rfl) only [keeps_self, keeps_ite,
          keeps_mk, ite_self, keepsR_next, keepsR_fault, keepsR_refused, keepsR_ite, guard, setChan_keeps,
          failChannel_keeps, whenRunning, askRetrain_keeps, dropMaint_keeps]
    | split

theorem execDramChannelFailure_keeps (channel : Nat) (cause : ChannelCause) (s : State) : KeepsR [.boot, .mem] s
    (execDramChannelFailure channel cause s) := by
  unfold execDramChannelFailure
  repeat' first
    | simp (disch := first | decide | exact Or.inl (by decide) | exact Or.inr rfl) only [keeps_self, keeps_ite,
          keeps_mk, ite_self, keepsR_next, keepsR_fault, keepsR_refused, keepsR_ite, guard, failChannel_keeps,
          whenRunning]
    | split

theorem eraseSet_keeps {setB : Bool} {s : State} {wB : List Area} {sB : State} (hw : subB [.ante, .host, .pwr, .evr,
    .out] wB = true) :
    Keeps wB sB (eraseSet setB s) ↔ Keeps wB sB s := by
  refine Keeps.peel (v := [.ante, .host, .pwr, .evr, .out]) ?_ hw
  unfold eraseSet
  repeat' first
    | simp (disch := first | decide | exact Or.inl (by decide) | exact Or.inr rfl) only [keeps_self, keeps_ite,
          keeps_mk, ite_self, reserveErase_keeps1, retarget_keeps]
    | with_reducible refine (reserveErase_keeps (by assumption) (by decide)).mpr ?_
    | split

theorem emptySlot_keeps {b : Bool} {s : State} {wB : List Area} {sB : State} (hw : subB [.upd] wB = true) :
    Keeps wB sB (emptySlot b s) ↔ Keeps wB sB s := by
  refine Keeps.peel (v := [.upd]) ?_ hw
  unfold emptySlot
  repeat' first
    | simp (disch := first | decide | exact Or.inl (by decide) | exact Or.inr rfl) only [keeps_self, keeps_ite,
          keeps_mk, ite_self]
    | split

theorem testFailed_keeps {t i c : Nat} {s : State} {wB : List Area} {sB : State} (hw : subB [.cores, .dlr, .ante,
    .host, .med, .mem, .xts, .pwr, .upd, .evr, .out, .draws] wB = true) :
    Keeps wB sB (testFailed t i c s) ↔ Keeps wB sB s := by
  refine Keeps.peel (v := [.cores, .dlr, .ante, .host, .med, .mem, .xts, .pwr, .upd, .evr, .out, .draws]) ?_ hw
  unfold testFailed
  repeat' first
    | simp (disch := first | decide | exact Or.inl (by decide) | exact Or.inr rfl) only [keeps_self, keeps_ite,
          keeps_mk, ite_self, retireEngine_keeps, emptySlot_keeps, eraseSet_keeps, setSub_keeps, event_keeps,
          retireCore_keeps, setDie_keeps]
    | split

theorem testRan_keeps {t i : Nat} {res : TestResult} {measure : Option BankMeasure} {s : State} {wB : List Area} {sB
    : State} (hw : subB [.cores, .dlr, .ante, .host, .med, .mem, .xts, .pwr, .upd, .evr, .ist, .out, .draws] wB =
    true) :
    Keeps wB sB (testRan t i res measure s) ↔ Keeps wB sB s := by
  refine Keeps.peel (v := [.cores, .dlr, .ante, .host, .med, .mem, .xts, .pwr, .upd, .evr, .ist, .out, .draws]) ?_ hw
  unfold testRan
  repeat' first
    | simp (disch := first | decide | exact Or.inl (by decide) | exact Or.inr rfl) only [keeps_self, keeps_ite,
          keeps_mk, ite_self, beginMeasure_keeps, testFailed_keeps, event_keeps, endMeasure_keeps]
    | split

theorem takeSlice_keeps {t i : Nat} {s uB : State} {wB : List Area} {sB : State}
    (h : takeSlice t i s = some uB) (hw : subB [.ante, .ist] wB = true) : Keeps wB sB uB ↔ Keeps wB sB s := by
  refine Keeps.peel (v := [.ante, .ist]) ?_ hw
  obtain ⟨k, -, rfl⟩ := Option.map_eq_some_iff.mp h
  simp (disch := first | decide | exact Or.inl (by decide) | exact Or.inr rfl) only [keeps_self, keeps_mk]

theorem endSlice_keeps {m : MaintResv} {res : TestResult} {measure : Option BankMeasure} {s : State} {wB : List Area}
    {sB : State} (hw : subB [.cores, .dlr, .ante, .host, .med, .mem, .xts, .pwr, .upd, .evr, .ist, .out, .draws] wB =
    true) :
    Keeps wB sB (endSlice m res measure s) ↔ Keeps wB sB s := by
  refine Keeps.peel (v := [.cores, .dlr, .ante, .host, .med, .mem, .xts, .pwr, .upd, .evr, .ist, .out, .draws]) ?_ hw
  unfold endSlice
  repeat' first
    | simp (disch := first | decide | exact Or.inl (by decide) | exact Or.inr rfl) only [keeps_self, keeps_ite,
          keeps_mk, ite_self, testRan_keeps, dropMaint_keeps]
    | split

theorem execIstSlice_keeps (res : TestResult) (measure : Option BankMeasure) (s : State) : KeepsR [.cores, .dlr,
    .ante, .host, .med, .mem, .xts, .pwr, .upd, .evr, .ist, .out, .draws] s (execIstSlice res measure s) := by
  unfold execIstSlice
  repeat' first
    | simp (disch := first | decide | exact Or.inl (by decide) | exact Or.inr rfl) only [keeps_self, keeps_ite,
          keeps_mk, ite_self, keepsR_next, keepsR_fault, keepsR_refused, keepsR_ite, endSlice_keeps, guard,
          whenRunning]
    | with_reducible refine (takeSlice_keeps (by assumption) (by decide)).mpr ?_
    | with_reducible refine keeps_getD (fun _ _ => ?_) ?_
    | split

theorem execTestOverdue_keeps (target inst : Nat) (s : State) : KeepsR [.host, .evr, .ist, .out] s (execTestOverdue
    target inst s) := by
  unfold execTestOverdue
  repeat' first
    | simp (disch := first | decide | exact Or.inl (by decide) | exact Or.inr rfl) only [keeps_self, keeps_ite,
          keeps_mk, ite_self, keepsR_next, keepsR_fault, keepsR_refused, keepsR_ite, guard, event_keeps, whenRunning]
    | split

end Sys2Proof.Machine
end

