-- ==== Sys2Proof/Laws/FramePowerState.lean ====
section
/-! SUPPORT. What each operation of Machine/PowerState.lean may change: `f_keeps` takes `f` off the end of a chain of operations
whenever the areas it may change are among those allowed. -/

set_option linter.all false

namespace Sys2Proof.Machine

open Sys2Proof

theorem followIdle_keeps {s : State} {wB : List Area} {sB : State} (hw : subB [.pwr] wB = true) :
    Keeps wB sB (followIdle s) ↔ Keeps wB sB s := by
  refine Keeps.peel (v := [.pwr]) ?_ hw
  unfold followIdle
  repeat' first
    | simp (disch := first | decide | exact Or.inl (by decide) | exact Or.inr rfl) only [keeps_self, keeps_ite,
          keeps_mk, ite_self]
    | with_reducible refine keeps_getD (fun _ _ => ?_) ?_
    | split

theorem enterState_keeps {k : Nat} {s : State} {wB : List Area} {sB : State} (hw : subB [.mem, .pwr, .out] wB = true)
    :
    Keeps wB sB (enterState k s) ↔ Keeps wB sB s := by
  refine Keeps.peel (v := [.mem, .pwr, .out]) ?_ hw
  unfold enterState
  repeat' first
    | simp (disch := first | decide | exact Or.inl (by decide) | exact Or.inr rfl) only [keeps_self, keeps_ite,
          keeps_mk, ite_self, refreshSelf_keeps, drainDram_keeps]
    | split

theorem execPowerStateEntry_keeps (s : State) : KeepsR [.mem, .pwr, .out] s (execPowerStateEntry s) := by
  unfold execPowerStateEntry
  repeat' first
    | simp (disch := first | decide | exact Or.inl (by decide) | exact Or.inr rfl) only [keeps_self, keeps_ite,
          keeps_mk, ite_self, keepsR_next, keepsR_fault, keepsR_refused, keepsR_ite, guard, enterState_keeps,
          followIdle_keeps, whenRunning]
    | split

theorem execPowerStateExit_keeps (s : State) : KeepsR [.host, .pwr, .out] s (execPowerStateExit s) := by
  unfold execPowerStateExit
  repeat' first
    | simp (disch := first | decide | exact Or.inl (by decide) | exact Or.inr rfl) only [keeps_self, keeps_ite,
          keeps_mk, ite_self, keepsR_next, keepsR_fault, keepsR_refused, keepsR_ite, startExit_keeps, whenRunning]
    | split

theorem yieldPast_keeps {s : State} {wB : List Area} {sB : State} (hw : subB [.ante] wB = true) :
    Keeps wB sB (yieldPast s) ↔ Keeps wB sB s := by
  refine Keeps.peel (v := [.ante]) ?_ hw
  unfold yieldPast
  repeat' first
    | simp (disch := first | decide | exact Or.inl (by decide) | exact Or.inr rfl) only [keeps_self, keeps_ite,
          keeps_mk, ite_self]
    | split

theorem execPowerStateExitComplete_keeps (s : State) : KeepsR [.ante, .mem, .pwr] s (execPowerStateExitComplete s) :=
    by
  unfold execPowerStateExitComplete
  repeat' first
    | simp (disch := first | decide | exact Or.inl (by decide) | exact Or.inr rfl) only [keeps_self, keeps_ite,
          keeps_mk, ite_self, keepsR_next, keepsR_fault, keepsR_refused, keepsR_ite, refreshSelf_keeps, whenRunning,
          yieldPast_keeps]
    | split

end Sys2Proof.Machine
end

