-- ==== Sys2Proof/Laws/FrameUpdate.lean ====
section
/-! SUPPORT. What each operation of Machine/Update.lean may change: `f_keeps` takes `f` off the end of a chain of operations
whenever the areas it may change are among those allowed. -/

set_option linter.all false

namespace Sys2Proof.Machine

open Sys2Proof

theorem execUpdateBegin_keeps (box : Nat) (s : State) : KeepsR [.host, .upd, .out] s (execUpdateBegin box s) := by
  unfold execUpdateBegin
  repeat' first
    | simp (disch := first | decide | exact Or.inl (by decide) | exact Or.inr rfl) only [keeps_self, keeps_ite,
          keeps_mk, ite_self, keepsR_next, keepsR_fault, keepsR_refused, keepsR_ite, updateRow, takeBox,
          finishBox_keeps, whenRunning]
    | split

theorem execUpdateData_keeps (box : Nat) (s : State) : KeepsR [.host, .upd, .out] s (execUpdateData box s) := by
  unfold execUpdateData
  repeat' first
    | simp (disch := first | decide | exact Or.inl (by decide) | exact Or.inr rfl) only [keeps_self, keeps_ite,
          keeps_mk, ite_self, keepsR_next, keepsR_fault, keepsR_refused, keepsR_ite, updateRow, takeBox,
          finishBox_keeps, whenRunning]
    | split

theorem execUpdateFinish_keeps (box : Nat) (s : State) : KeepsR [.host, .upd, .out] s (execUpdateFinish box s) := by
  unfold execUpdateFinish
  repeat' first
    | simp (disch := first | decide | exact Or.inl (by decide) | exact Or.inr rfl) only [keeps_self, keeps_ite,
          keeps_mk, ite_self, keepsR_next, keepsR_fault, keepsR_refused, keepsR_ite, updateRow, takeBox,
          finishBox_keeps, whenRunning]
    | split

theorem dropWindow_keeps {s : State} {wB : List Area} {sB : State} (hw : subB [.ante, .upd] wB = true) :
    Keeps wB sB (dropWindow s) ↔ Keeps wB sB s := by
  refine Keeps.peel (v := [.ante, .upd]) ?_ hw
  unfold dropWindow
  repeat' first
    | simp (disch := first | decide | exact Or.inl (by decide) | exact Or.inr rfl) only [keeps_self, keeps_ite,
          keeps_mk, ite_self, dropMaint_keeps]
    | split

theorem execUpdateActivate_keeps (box : Nat) (s : State) : KeepsR [.ante, .host, .upd, .out] s (execUpdateActivate
    box s) := by
  unfold execUpdateActivate
  repeat' first
    | simp (disch := first | decide | exact Or.inl (by decide) | exact Or.inr rfl) only [keeps_self, keeps_ite,
          keeps_mk, ite_self, keepsR_next, keepsR_fault, keepsR_refused, keepsR_ite, reserveMaint_keeps,
          raiseAll_keeps, updateRow, takeBox, finishBox_keeps, whenRunning]
    | split

theorem commitUpdate_keeps {s : State} {wB : List Area} {sB : State} (hw : subB [.upd] wB = true) :
    Keeps wB sB (commitUpdate s) ↔ Keeps wB sB s := by
  refine Keeps.peel (v := [.upd]) ?_ hw
  unfold commitUpdate
  repeat' first
    | simp (disch := first | decide | exact Or.inl (by decide) | exact Or.inr rfl) only [keeps_self, keeps_ite,
          keeps_mk, ite_self]
    | split

theorem execUpdateCommit_keeps (box : Nat) (s : State) : KeepsR [.host, .upd, .out] s (execUpdateCommit box s) := by
  unfold execUpdateCommit
  repeat' first
    | simp (disch := first | decide | exact Or.inl (by decide) | exact Or.inr rfl) only [keeps_self, keeps_ite,
          keeps_mk, ite_self, keepsR_next, keepsR_fault, keepsR_refused, keepsR_ite, updateRow, commitUpdate_keeps,
          takeBox, finishBox_keeps, whenRunning]
    | split

theorem execUpdateAbort_keeps (box : Nat) (s : State) : KeepsR [.ante, .host, .upd, .out] s (execUpdateAbort box s)
    := by
  unfold execUpdateAbort
  repeat' first
    | simp (disch := first | decide | exact Or.inl (by decide) | exact Or.inr rfl) only [keeps_self, keeps_ite,
          keeps_mk, ite_self, keepsR_next, keepsR_fault, keepsR_refused, keepsR_ite, dropWindow_keeps, updateRow,
          takeBox, finishBox_keeps, whenRunning]
    | split

theorem execUpdateStatus_keeps (box : Nat) (s : State) : KeepsR [.host, .out] s (execUpdateStatus box s) := by
  unfold execUpdateStatus
  repeat' first
    | simp (disch := first | decide | exact Or.inl (by decide) | exact Or.inr rfl) only [keeps_self, keeps_ite,
          keeps_mk, ite_self, keepsR_next, keepsR_fault, keepsR_refused, keepsR_ite, takeBox, finishBox_keeps,
          whenRunning]
    | split

theorem activationFailed_keeps {s : State} {wB : List Area} {sB : State} (hw : subB [.upd] wB = true) :
    Keeps wB sB (activationFailed s) ↔ Keeps wB sB s := by
  refine Keeps.peel (v := [.upd]) ?_ hw
  unfold activationFailed
  repeat' first
    | simp (disch := first | decide | exact Or.inl (by decide) | exact Or.inr rfl) only [keeps_self, keeps_ite,
          keeps_mk, ite_self]
    | split

theorem execActivationPreload_keeps (digestsOk : Bool) (s : State) : KeepsR [.ante, .upd] s (execActivationPreload
    digestsOk s) := by
  unfold execActivationPreload
  repeat' first
    | simp (disch := first | decide | exact Or.inl (by decide) | exact Or.inr rfl) only [keeps_self, keeps_ite,
          keeps_mk, ite_self, keepsR_next, keepsR_fault, keepsR_refused, keepsR_ite, dropWindow_keeps, guard,
          activationFailed_keeps, whenRunning]
    | split

theorem execActivationWindowStart_keeps (s : State) : KeepsR [.upd] s (execActivationWindowStart s) := by
  unfold execActivationWindowStart
  repeat' first
    | simp (disch := first | decide | exact Or.inl (by decide) | exact Or.inr rfl) only [keeps_self, keeps_ite,
          keeps_mk, ite_self, keepsR_next, keepsR_fault, keepsR_refused, keepsR_ite, guard, whenRunning]
    | split

theorem pagePut_keeps {p v : Nat} {s : State} {wB : List Area} {sB : State} (hw : subB [.clk, .cores, .buf, .nss,
    .ante, .host, .lanes, .wake, .fab, .fabc, .idx, .cam, .med, .mem, .xts, .pwr, .upd, .evr, .ist, .frz, .out,
    .draws] wB = true) :
    Keeps wB sB (pagePut p v s) ↔ Keeps wB sB s := by
  refine Keeps.peel (v := [.clk, .cores, .buf, .nss, .ante, .host, .lanes, .wake, .fab, .fabc, .idx, .cam, .med,
      .mem, .xts, .pwr, .upd, .evr, .ist, .frz, .out, .draws]) ?_ hw
  unfold pagePut
  repeat' first
    | simp (disch := first | decide | exact Or.inl (by decide) | exact Or.inr rfl) only [keeps_self, keeps_ite,
          keeps_mk, ite_self]
    | with_reducible refine (pageWrite_keeps (by assumption) (by decide)).mpr ?_
    | split

theorem resetPage_keeps {p f : Nat} {s : State} {wB : List Area} {sB : State} (hw : subB [.clk, .cores, .buf, .nss,
    .ante, .host, .lanes, .wake, .fab, .fabc, .idx, .cam, .med, .mem, .xts, .pwr, .upd, .evr, .ist, .frz, .out,
    .draws] wB = true) :
    Keeps wB sB (resetPage p f s) ↔ Keeps wB sB s := by
  refine Keeps.peel (v := [.clk, .cores, .buf, .nss, .ante, .host, .lanes, .wake, .fab, .fabc, .idx, .cam, .med,
      .mem, .xts, .pwr, .upd, .evr, .ist, .frz, .out, .draws]) ?_ hw
  unfold resetPage
  repeat' first
    | simp (disch := first | decide | exact Or.inl (by decide) | exact Or.inr rfl) only [keeps_self, keeps_ite,
          keeps_mk, ite_self, pagePut_keeps]
    | split

theorem beginTrial_keeps {s : State} {wB : List Area} {sB : State} (hw : subB [.clk, .cores, .buf, .nss, .ante,
    .host, .lanes, .wake, .fab, .fabc, .idx, .cam, .med, .mem, .xts, .pwr, .upd, .evr, .ist, .frz, .out, .draws] wB =
    true) :
    Keeps wB sB (beginTrial s) ↔ Keeps wB sB s := by
  refine Keeps.peel (v := [.clk, .cores, .buf, .nss, .ante, .host, .lanes, .wake, .fab, .fabc, .idx, .cam, .med,
      .mem, .xts, .pwr, .upd, .evr, .ist, .frz, .out, .draws]) ?_ hw
  unfold beginTrial
  repeat' first
    | simp (disch := first | decide | exact Or.inl (by decide) | exact Or.inr rfl) only [keeps_self, keeps_ite,
          keeps_mk, ite_self, resetPage_keeps]
    | with_reducible refine keeps_each (fun _ _ => ?_) ?_
    | split

theorem execActivationMidpoint_keeps (ready : Bool) (s : State) : KeepsR [.clk, .cores, .buf, .nss, .ante, .host,
    .lanes, .wake, .fab, .fabc, .idx, .cam, .med, .mem, .xts, .pwr, .upd, .evr, .ist, .frz, .out, .draws] s
    (execActivationMidpoint ready s) := by
  unfold execActivationMidpoint
  repeat' first
    | simp (disch := first | decide | exact Or.inl (by decide) | exact Or.inr rfl) only [keeps_self, keeps_ite,
          keeps_mk, ite_self, keepsR_next, keepsR_fault, keepsR_refused, keepsR_ite, guard, beginTrial_keeps,
          activationFailed_keeps, whenRunning]
    | split

theorem restart_keeps {cause : Nat} {inp : BootInput} {s : State} {wB : List Area} {sB : State} (hw : subB [.clk,
    .boot, .cores, .dlr, .jnl, .sessions, .ante, .host, .lanes, .fab, .fabc, .idx, .cam, .med, .mem, .xts, .pwr,
    .upd, .evr, .ist, .frz, .out, .draws] wB = true) :
    Keeps wB sB (restart cause inp s) ↔ Keeps wB sB s := by
  refine Keeps.peel (v := [.clk, .boot, .cores, .dlr, .jnl, .sessions, .ante, .host, .lanes, .fab, .fabc, .idx, .cam,
      .med, .mem, .xts, .pwr, .upd, .evr, .ist, .frz, .out, .draws]) ?_ hw
  unfold restart
  repeat' first
    | simp (disch := first | decide | exact Or.inl (by decide) | exact Or.inr rfl) only [keeps_self, keeps_ite,
          keeps_mk, ite_self, closeFlush_keeps, beginFlush_keeps, coldStart_keeps, writePending_keeps]
    | split

theorem execActivationWindowEnd_keeps (ready : Bool) (s : State) : KeepsR [.clk, .boot, .cores, .dlr, .jnl,
    .sessions, .ante, .host, .lanes, .fab, .fabc, .idx, .cam, .med, .mem, .xts, .pwr, .upd, .evr, .ist, .frz, .out,
    .draws] s (execActivationWindowEnd ready s) := by
  unfold execActivationWindowEnd
  repeat' first
    | simp (disch := first | decide | exact Or.inl (by decide) | exact Or.inr rfl) only [keeps_self, keeps_ite,
          keeps_mk, ite_self, keepsR_next, keepsR_fault, keepsR_refused, keepsR_ite, restart_keeps, dropWindow_keeps,
          activationFailed_keeps, whenRunning]
    | split

theorem execAutoCommit_keeps (s : State) : KeepsR [.upd] s (execAutoCommit s) := by
  unfold execAutoCommit
  repeat' first
    | simp (disch := first | decide | exact Or.inl (by decide) | exact Or.inr rfl) only [keeps_self, keeps_ite,
          keeps_mk, ite_self, keepsR_next, keepsR_fault, keepsR_refused, keepsR_ite, guard, whenRunning,
          commitUpdate_keeps]
    | split

theorem rollbackPages_keeps {s : State} {wB : List Area} {sB : State} (hw : subB [.clk, .cores, .buf, .nss, .ante,
    .host, .lanes, .wake, .fab, .fabc, .idx, .cam, .med, .mem, .xts, .pwr, .upd, .evr, .ist, .frz, .out, .draws] wB =
    true) :
    Keeps wB sB (rollbackPages s) ↔ Keeps wB sB s := by
  refine Keeps.peel (v := [.clk, .cores, .buf, .nss, .ante, .host, .lanes, .wake, .fab, .fabc, .idx, .cam, .med,
      .mem, .xts, .pwr, .upd, .evr, .ist, .frz, .out, .draws]) ?_ hw
  unfold rollbackPages
  repeat' first
    | simp (disch := first | decide | exact Or.inl (by decide) | exact Or.inr rfl) only [keeps_self, keeps_ite,
          keeps_mk, ite_self, pagePut_keeps]
    | with_reducible refine keeps_each (fun _ _ => ?_) ?_
    | with_reducible refine keeps_foldl (fun _ _ => ?_) ?_
    | split

theorem romRecovery_keeps {s : State} {wB : List Area} {sB : State} (hw : subB [.boot] wB = true) :
    Keeps wB sB (romRecovery s) ↔ Keeps wB sB s := by
  refine Keeps.peel (v := [.boot]) ?_ hw
  unfold romRecovery
  repeat' first
    | simp (disch := first | decide | exact Or.inl (by decide) | exact Or.inr rfl) only [keeps_self, keeps_ite,
          keeps_mk, ite_self]
    | split

theorem bootFailed_keeps {s : State} {wB : List Area} {sB : State} (hw : subB [.clk, .boot, .cores, .buf, .dlr, .jnl,
    .sessions, .nss, .ante, .host, .lanes, .wake, .fab, .fabc, .idx, .cam, .med, .mem, .xts, .pwr, .upd, .evr, .ist,
    .frz, .out, .draws] wB = true) :
    Keeps wB sB (bootFailed s) ↔ Keeps wB sB s := by
  refine Keeps.peel (v := [.clk, .boot, .cores, .buf, .dlr, .jnl, .sessions, .nss, .ante, .host, .lanes, .wake, .fab,
      .fabc, .idx, .cam, .med, .mem, .xts, .pwr, .upd, .evr, .ist, .frz, .out, .draws]) ?_ hw
  unfold bootFailed
  repeat' first
    | simp (disch := first | decide | exact Or.inl (by decide) | exact Or.inr rfl) only [keeps_self, keeps_ite,
          keeps_mk, ite_self, romRecovery_keeps, coldStart_keeps, event_keeps, writePending_keeps,
          rollbackPages_keeps]
    | split

theorem execBootTimeout_keeps (s : State) : KeepsR [.clk, .boot, .cores, .buf, .dlr, .jnl, .sessions, .nss, .ante,
    .host, .lanes, .wake, .fab, .fabc, .idx, .cam, .med, .mem, .xts, .pwr, .upd, .evr, .ist, .frz, .out, .draws] s
    (execBootTimeout s) := by
  unfold execBootTimeout
  repeat' first
    | simp (disch := first | decide | exact Or.inl (by decide) | exact Or.inr rfl) only [keeps_self, keeps_ite,
          keeps_mk, ite_self, keepsR_next, keepsR_fault, keepsR_refused, keepsR_ite, bootFailed_keeps, guard,
          whenRunning]
    | split

end Sys2Proof.Machine
end

