-- ==== Sys2Proof/Laws/FrameBoot.lean ====
section
/-! SUPPORT. What each operation of Machine/Boot.lean may change: `f_keeps` takes `f` off the end of a chain of operations
whenever the areas it may change are among those allowed. -/

set_option linter.all false

namespace Sys2Proof.Machine

open Sys2Proof

theorem freshEyes_keeps1 {lo span n : Nat} {s : State} {wB : List Area} {sB : State} (hw : subB [.draws] wB = true) :
    Keeps wB sB (freshEyes lo span n s).2 ↔ Keeps wB sB s := by
  refine Keeps.peel (v := [.draws]) ?_ hw
  induction n generalizing s with
  | zero => exact Keeps.refl _ _
  | succ k ih =>
    refine Keeps.trans ?_ ih
    simp (disch := first | decide | exact Or.inl (by decide) | exact Or.inr rfl) only [keeps_self, drawn_keeps]

theorem trainChannel_keeps {bad : Bool} {c : Nat} {s : State} {wB : List Area} {sB : State} (hw : subB [.mem, .draws]
    wB = true) :
    Keeps wB sB (trainChannel bad c s) ↔ Keeps wB sB s := by
  refine Keeps.peel (v := [.mem, .draws]) ?_ hw
  unfold trainChannel
  repeat' first
    | simp (disch := first | decide | exact Or.inl (by decide) | exact Or.inr rfl) only [keeps_self, keeps_ite,
          keeps_mk, ite_self, freshEyes_keeps1, setChan_keeps]
    | split

theorem noiseAtStart_keeps {inp : BootInput} {s : State} {wB : List Area} {sB : State} (hw : subB [.host, .xts, .evr,
    .out] wB = true) :
    Keeps wB sB (noiseAtStart inp s) ↔ Keeps wB sB s := by
  refine Keeps.peel (v := [.host, .xts, .evr, .out]) ?_ hw
  unfold noiseAtStart
  repeat' first
    | simp (disch := first | decide | exact Or.inl (by decide) | exact Or.inr rfl) only [keeps_self, keeps_ite,
          keeps_mk, ite_self, event_keeps]
    | split

theorem endPowerOnTraining_keeps {s : State} {wB : List Area} {sB : State} (hw : subB [.boot, .host, .mem, .xts,
    .evr, .out, .draws] wB = true) :
    Keeps wB sB (endPowerOnTraining s) ↔ Keeps wB sB s := by
  refine Keeps.peel (v := [.boot, .host, .mem, .xts, .evr, .out, .draws]) ?_ hw
  unfold endPowerOnTraining
  repeat' first
    | simp (disch := first | decide | exact Or.inl (by decide) | exact Or.inr rfl) only [keeps_self, keeps_ite,
          keeps_mk, ite_self, retireEngine_keeps, trainChannel_keeps, noiseAtStart_keeps, failChannel_keeps]
    | with_reducible refine keeps_each (fun _ _ => ?_) ?_
    | split

theorem recordCalendar_keeps {s : State} {wB : List Area} {sB : State} (hw : subB [.host, .evr, .out] wB = true) :
    Keeps wB sB (recordCalendar s) ↔ Keeps wB sB s := by
  refine Keeps.peel (v := [.host, .evr, .out]) ?_ hw
  unfold recordCalendar
  repeat' first
    | simp (disch := first | decide | exact Or.inl (by decide) | exact Or.inr rfl) only [keeps_self, keeps_ite,
          keeps_mk, ite_self, event_keeps]
    | split

theorem enterRecovery_keeps {s : State} {wB : List Area} {sB : State} (hw : subB [.clk, .boot, .cores, .buf, .nss,
    .ante, .host, .lanes, .wake, .fab, .fabc, .idx, .cam, .med, .mem, .xts, .pwr, .upd, .evr, .ist, .frz, .out,
    .draws] wB = true) :
    Keeps wB sB (enterRecovery s) ↔ Keeps wB sB s := by
  refine Keeps.peel (v := [.clk, .boot, .cores, .buf, .nss, .ante, .host, .lanes, .wake, .fab, .fabc, .idx, .cam,
      .med, .mem, .xts, .pwr, .upd, .evr, .ist, .frz, .out, .draws]) ?_ hw
  unfold enterRecovery
  repeat' first
    | simp (disch := first | decide | exact Or.inl (by decide) | exact Or.inr rfl) only [keeps_self, keeps_ite,
          keeps_mk, ite_self, recordCalendar_keeps, beginTrial_keeps]
    | split

theorem reachFour_keeps {s : State} {wB : List Area} {sB : State} (hw : subB [.boot, .ante, .idx, .med, .upd] wB =
    true) :
    Keeps wB sB (reachFour s) ↔ Keeps wB sB s := by
  refine Keeps.peel (v := [.boot, .ante, .idx, .med, .upd]) ?_ hw
  unfold reachFour
  repeat' first
    | simp (disch := first | decide | exact Or.inl (by decide) | exact Or.inr rfl) only [keeps_self, keeps_ite,
          keeps_mk, ite_self, reserveMaint_keeps]
    | with_reducible refine keeps_each (fun _ _ => ?_) ?_
    | split

theorem findSets_keeps {s : State} {wB : List Area} {sB : State} (hw : subB [.host, .pwr, .evr, .out] wB = true) :
    Keeps wB sB (findSets s) ↔ Keeps wB sB s := by
  refine Keeps.peel (v := [.host, .pwr, .evr, .out]) ?_ hw
  unfold findSets
  repeat' first
    | simp (disch := first | decide | exact Or.inl (by decide) | exact Or.inr rfl) only [keeps_self, keeps_ite,
          keeps_mk, ite_self, retarget_keeps]
    | split

theorem readRecord_keeps {s : State} {wB : List Area} {sB : State} (hw : subB [.boot, .upd] wB = true) :
    Keeps wB sB (readRecord s) ↔ Keeps wB sB s := by
  refine Keeps.peel (v := [.boot, .upd]) ?_ hw
  unfold readRecord
  repeat' first
    | simp (disch := first | decide | exact Or.inl (by decide) | exact Or.inr rfl) only [keeps_self, keeps_ite,
          keeps_mk, ite_self]
    | split

theorem bootStep_keeps {s : State} {wB : List Area} {sB : State} (hw : subB [.clk, .boot, .cores, .buf, .dlr, .jnl,
    .sessions, .nss, .ante, .host, .lanes, .wake, .fab, .fabc, .idx, .cam, .med, .mem, .xts, .pwr, .upd, .evr, .ist,
    .frz, .out, .draws] wB = true) :
    Keeps wB sB (bootStep s) ↔ Keeps wB sB s := by
  refine Keeps.peel (v := [.clk, .boot, .cores, .buf, .dlr, .jnl, .sessions, .nss, .ante, .host, .lanes, .wake, .fab,
      .fabc, .idx, .cam, .med, .mem, .xts, .pwr, .upd, .evr, .ist, .frz, .out, .draws]) ?_ hw
  unfold bootStep
  repeat' first
    | simp (disch := first | decide | exact Or.inl (by decide) | exact Or.inr rfl) only [keeps_self, keeps_ite,
          keeps_mk, ite_self, bootFailed_keeps, romRecovery_keeps, findSets_keeps, readRecord_keeps,
          endPowerOnTraining_keeps, reachFour_keeps, enterRecovery_keeps, railsUp_keeps]
    | split

theorem loseRecord_keeps {a : Nat} {s : State} {wB : List Area} {sB : State} (hw : subB [.host, .med, .evr, .out] wB
    = true) :
    Keeps wB sB (loseRecord a s) ↔ Keeps wB sB s := by
  refine Keeps.peel (v := [.host, .med, .evr, .out]) ?_ hw
  unfold loseRecord
  repeat' first
    | simp (disch := first | decide | exact Or.inl (by decide) | exact Or.inr rfl) only [keeps_self, keeps_ite,
          keeps_mk, ite_self, event_keeps]
    | split

theorem losePages_keeps {l : List LostPage} {s : State} {wB : List Area} {sB : State} (hw : subB [.med] wB = true) :
    Keeps wB sB (losePages l s) ↔ Keeps wB sB s := by
  refine Keeps.peel (v := [.med]) ?_ hw
  unfold losePages
  repeat' first
    | simp (disch := first | decide | exact Or.inl (by decide) | exact Or.inr rfl) only [keeps_self, keeps_ite,
          keeps_mk, ite_self]
    | split

theorem rebuildIndex_keeps {found : RecoveryInput} {s0 : State} {wB : List Area} {sB : State} (hw : subB [.nss,
    .host, .idx, .med, .evr, .out] wB = true) :
    Keeps wB sB (rebuildIndex found s0) ↔ Keeps wB sB s0 := by
  refine Keeps.peel (v := [.nss, .host, .idx, .med, .evr, .out]) ?_ hw
  unfold rebuildIndex
  repeat' first
    | simp (disch := first | decide | exact Or.inl (by decide) | exact Or.inr rfl) only [keeps_self, keeps_ite,
          keeps_mk, ite_self, losePages_keeps, loseRecord_keeps, insertNew_keeps]
    | with_reducible refine keeps_each (fun _ _ => ?_) ?_
    | with_reducible refine keeps_foldl (fun _ _ => ?_) ?_
    | split

theorem returnRecord_keeps {stream : Nat} {x : Placed} {s : State} {wB : List Area} {sB : State} (hw : subB [.dlr,
    .ante, .fab, .med] wB = true) :
    Keeps wB sB (returnRecord stream x s) ↔ Keeps wB sB s := by
  refine Keeps.peel (v := [.dlr, .ante, .fab, .med]) ?_ hw
  unfold returnRecord
  repeat' first
    | simp (disch := first | decide | exact Or.inl (by decide) | exact Or.inr rfl) only [keeps_self, keeps_ite,
          keeps_mk, ite_self, placeAgain_keeps]
    | split

theorem dropUnlanded_keeps {gone : List Placed} {s : State} {wB : List Area} {sB : State} (hw : subB [.fab] wB =
    true) :
    Keeps wB sB (dropUnlanded gone s) ↔ Keeps wB sB s := by
  refine Keeps.peel (v := [.fab]) ?_ hw
  unfold dropUnlanded
  repeat' first
    | simp (disch := first | decide | exact Or.inl (by decide) | exact Or.inr rfl) only [keeps_self, keeps_ite,
          keeps_mk, ite_self]
    | split

theorem returnRows_keeps {s : State} {wB : List Area} {sB : State} (hw : subB [.dlr, .ante, .fab, .med] wB = true) :
    Keeps wB sB (returnRows s) ↔ Keeps wB sB s := by
  refine Keeps.peel (v := [.dlr, .ante, .fab, .med]) ?_ hw
  unfold returnRows
  repeat' first
    | simp (disch := first | decide | exact Or.inl (by decide) | exact Or.inr rfl) only [keeps_self, keeps_ite,
          keeps_mk, ite_self, returnRecord_keeps, dropUnlanded_keeps]
    | with_reducible refine keeps_each (fun _ _ => ?_) ?_
    | split

theorem loseHeld_keeps {s : State} {wB : List Area} {sB : State} (hw : subB [.fab, .med, .mem, .pwr] wB = true) :
    Keeps wB sB (loseHeld s) ↔ Keeps wB sB s := by
  refine Keeps.peel (v := [.fab, .med, .mem, .pwr]) ?_ hw
  unfold loseHeld
  repeat' first
    | simp (disch := first | decide | exact Or.inl (by decide) | exact Or.inr rfl) only [keeps_self, keeps_ite,
          keeps_mk, ite_self]
    | split

theorem carryPlan_keeps {f : InFlight} {p : Plan} {s : State} {wB : List Area} {sB : State} (hw : subB [.dlr, .jnl,
    .sessions, .nss, .commits, .ante, .host, .lanes, .fab, .fabc, .idx, .med, .mem, .pwr, .evr, .out, .draws] wB =
    true) :
    Keeps wB sB (carryPlan f p s) ↔ Keeps wB sB s := by
  refine Keeps.peel (v := [.dlr, .jnl, .sessions, .nss, .commits, .ante, .host, .lanes, .fab, .fabc, .idx, .med,
      .mem, .pwr, .evr, .out, .draws]) ?_ hw
  unfold carryPlan
  repeat' first
    | simp (disch := first | decide | exact Or.inl (by decide) | exact Or.inr rfl) only [keeps_self, keeps_ite,
          keeps_mk, ite_self, commitFlight_keeps]
    | split

theorem carryOverlap_keeps {f : InFlight} {s : State} {wB : List Area} {sB : State} (hw : subB [.dlr] wB = true) :
    Keeps wB sB (carryOverlap f s) ↔ Keeps wB sB s := by
  refine Keeps.peel (v := [.dlr]) ?_ hw
  unfold carryOverlap
  repeat' first
    | simp (disch := first | decide | exact Or.inl (by decide) | exact Or.inr rfl) only [keeps_self, keeps_ite,
          keeps_mk, ite_self]
    | split

theorem carryWaits_keeps {f : InFlight} {s : State} {wB : List Area} {sB : State} (hw : subB [.dlr, .host, .lanes,
    .fab, .fabc, .out] wB = true) :
    Keeps wB sB (carryWaits f s) ↔ Keeps wB sB s := by
  refine Keeps.peel (v := [.dlr, .host, .lanes, .fab, .fabc, .out]) ?_ hw
  unfold carryWaits
  repeat' first
    | simp (disch := first | decide | exact Or.inl (by decide) | exact Or.inr rfl) only [keeps_self, keeps_ite,
          keeps_mk, ite_self, carryOverlap_keeps, modFlight_keeps, sendDecide_keeps]
    | split

theorem carryTrick_keeps {lost : Bool} {h : InFlight} {s : State} {wB : List Area} {sB : State} (hw : subB [.dlr,
    .jnl, .sessions, .nss, .commits, .ante, .host, .lanes, .fab, .fabc, .idx, .med, .mem, .pwr, .evr, .out, .draws]
    wB = true) :
    Keeps wB sB (carryTrick lost h s) ↔ Keeps wB sB s := by
  refine Keeps.peel (v := [.dlr, .jnl, .sessions, .nss, .commits, .ante, .host, .lanes, .fab, .fabc, .idx, .med,
      .mem, .pwr, .evr, .out, .draws]) ?_ hw
  unfold carryTrick
  repeat' first
    | simp (disch := first | decide | exact Or.inl (by decide) | exact Or.inr rfl) only [keeps_self, keeps_ite,
          keeps_mk, ite_self, carryPlan_keeps, carryWaits_keeps]
    | with_reducible refine keeps_each (fun _ _ => ?_) ?_
    | with_reducible refine keeps_getD (fun _ _ => ?_) ?_
    | split

theorem carryOne_keeps {lost : Bool} {f : InFlight} {s : State} {wB : List Area} {sB : State} (hw : subB [.dlr, .jnl,
    .sessions, .nss, .commits, .ante, .host, .lanes, .fab, .fabc, .idx, .med, .mem, .pwr, .evr, .out, .draws] wB =
    true) :
    Keeps wB sB (carryOne lost f s) ↔ Keeps wB sB s := by
  refine Keeps.peel (v := [.dlr, .jnl, .sessions, .nss, .commits, .ante, .host, .lanes, .fab, .fabc, .idx, .med,
      .mem, .pwr, .evr, .out, .draws]) ?_ hw
  unfold carryOne
  repeat' first
    | simp (disch := first | decide | exact Or.inl (by decide) | exact Or.inr rfl) only [keeps_self, keeps_ite,
          keeps_mk, ite_self, carryPlan_keeps, carryWaits_keeps, carryTrick_keeps]
    | split

theorem carryAll_keeps {lost : Bool} {s : State} {wB : List Area} {sB : State} (hw : subB [.dlr, .jnl, .sessions,
    .nss, .commits, .ante, .host, .lanes, .fab, .fabc, .idx, .med, .mem, .pwr, .evr, .out, .draws] wB = true) :
    Keeps wB sB (carryAll lost s) ↔ Keeps wB sB s := by
  refine Keeps.peel (v := [.dlr, .jnl, .sessions, .nss, .commits, .ante, .host, .lanes, .fab, .fabc, .idx, .med,
      .mem, .pwr, .evr, .out, .draws]) ?_ hw
  unfold carryAll
  repeat' first
    | simp (disch := first | decide | exact Or.inl (by decide) | exact Or.inr rfl) only [keeps_self, keeps_ite,
          keeps_mk, ite_self, carryOne_keeps]
    | with_reducible refine keeps_each (fun _ _ => ?_) ?_
    | with_reducible refine keeps_foldl (fun _ _ => ?_) ?_
    | split

theorem recordLoss_keeps {s : State} {wB : List Area} {sB : State} (hw : subB [.host, .evr, .out] wB = true) :
    Keeps wB sB (recordLoss s) ↔ Keeps wB sB s := by
  refine Keeps.peel (v := [.host, .evr, .out]) ?_ hw
  unfold recordLoss
  repeat' first
    | simp (disch := first | decide | exact Or.inl (by decide) | exact Or.inr rfl) only [keeps_self, keeps_ite,
          keeps_mk, ite_self, event_keeps]
    | split

theorem eraseSets_keeps {s : State} {wB : List Area} {sB : State} (hw : subB [.ante, .host, .pwr, .evr, .out] wB =
    true) :
    Keeps wB sB (eraseSets s) ↔ Keeps wB sB s := by
  refine Keeps.peel (v := [.ante, .host, .pwr, .evr, .out]) ?_ hw
  unfold eraseSets
  repeat' first
    | simp (disch := first | decide | exact Or.inl (by decide) | exact Or.inr rfl) only [keeps_self, keeps_ite,
          keeps_mk, ite_self, eraseSet_keeps]
    | split

theorem zeroCounters_keeps {s : State} {wB : List Area} {sB : State} (hw : subB [.lanes] wB = true) :
    Keeps wB sB (zeroCounters s) ↔ Keeps wB sB s := by
  refine Keeps.peel (v := [.lanes]) ?_ hw
  unfold zeroCounters
  repeat' first
    | simp (disch := first | decide | exact Or.inl (by decide) | exact Or.inr rfl) only [keeps_self, keeps_ite,
          keeps_mk, ite_self, modLane_keeps]
    | with_reducible refine keeps_each (fun _ _ => ?_) ?_
    | split

theorem afterChannel_keeps {s : State} {s1 : State} {wB : List Area} {sB : State} (hw : subB [.boot, .host, .evr,
    .out] wB = true) :
    Keeps wB sB (afterChannel s s1) ↔ Keeps wB sB s1 := by
  refine Keeps.peel (v := [.boot, .host, .evr, .out]) ?_ hw
  unfold afterChannel
  repeat' first
    | simp (disch := first | decide | exact Or.inl (by decide) | exact Or.inr rfl) only [keeps_self, keeps_ite,
          keeps_mk, ite_self, enterReadOnly_keeps]
    | split

theorem execPowerLossRecovery_keeps (found : RecoveryInput) (s : State) : KeepsR [.boot, .dlr, .jnl, .sessions, .nss,
    .commits, .ante, .host, .lanes, .fab, .fabc, .idx, .med, .mem, .pwr, .upd, .evr, .out, .draws] s
    (execPowerLossRecovery found s) := by
  unfold execPowerLossRecovery
  repeat' first
    | simp (disch := first | decide | exact Or.inl (by decide) | exact Or.inr rfl) only [keeps_self, keeps_ite,
          keeps_mk, ite_self, keepsR_next, keepsR_fault, keepsR_refused, keepsR_ite, recoverAll, guard, whenRunning,
          returnRows_keeps, reachFour_keeps, carryAll_keeps, zeroCounters_keeps, event_keeps, recordLoss_keeps,
          eraseSets_keeps, loseHeld_keeps, id_eq]
    | split

theorem execFullScanRebuild_keeps (found : RecoveryInput) (s : State) : KeepsR [.boot, .dlr, .jnl, .sessions, .nss,
    .commits, .ante, .host, .lanes, .fab, .fabc, .idx, .med, .mem, .pwr, .upd, .evr, .out, .draws] s
    (execFullScanRebuild found s) := by
  unfold execFullScanRebuild
  repeat' first
    | simp (disch := first | decide | exact Or.inl (by decide) | exact Or.inr rfl) only [keeps_self, keeps_ite,
          keeps_mk, ite_self, keepsR_next, keepsR_fault, keepsR_refused, keepsR_ite, recoverAll, afterChannel_keeps,
          reachFour_keeps, rebuildIndex_keeps, whenRunning, returnRows_keeps, carryAll_keeps, zeroCounters_keeps,
          event_keeps, recordLoss_keeps, eraseSets_keeps, loseHeld_keeps]
    | split

end Sys2Proof.Machine
end

