-- ==== Sys2Proof/Laws/FrameRegisters.lean ====
section
/-! SUPPORT. What each operation of Machine/Registers.lean may change: `f_keeps` takes `f` off the end of a chain of operations
whenever the areas it may change are among those allowed. -/

set_option linter.all false

namespace Sys2Proof.Machine

open Sys2Proof

theorem setTask_keeps {n : Nat} {t : Task} {s : State} {wB : List Area} {sB : State} (hw : subB [.host] wB = true) :
    Keeps wB sB (setTask n t s) ↔ Keeps wB sB s := by
  refine Keeps.peel (v := [.host]) ?_ hw
  unfold setTask
  repeat' first
    | simp (disch := first | decide | exact Or.inl (by decide) | exact Or.inr rfl) only [keeps_self, keeps_ite,
          keeps_mk, ite_self]
    | split

theorem clearChannel_keeps {k q : Nat} {s : State} {wB : List Area} {sB : State} (hw : subB [.mem] wB = true) :
    Keeps wB sB (clearChannel k q s) ↔ Keeps wB sB s := by
  refine Keeps.peel (v := [.mem]) ?_ hw
  unfold clearChannel
  repeat' first
    | simp (disch := first | decide | exact Or.inl (by decide) | exact Or.inr rfl) only [keeps_self, keeps_ite,
          keeps_mk, ite_self, setChan_keeps]
    | split

theorem clearEngine_keeps {n q : Nat} {s : State} {wB : List Area} {sB : State} (hw : subB [.xts] wB = true) :
    Keeps wB sB (clearEngine n q s) ↔ Keeps wB sB s := by
  refine Keeps.peel (v := [.xts]) ?_ hw
  unfold clearEngine
  repeat' first
    | simp (disch := first | decide | exact Or.inl (by decide) | exact Or.inr rfl) only [keeps_self, keeps_ite,
          keeps_mk, ite_self, setEngine_keeps]
    | split

theorem clearFlashChan_keeps {k q : Nat} {s : State} {wB : List Area} {sB : State} (hw : subB [.med] wB = true) :
    Keeps wB sB (clearFlashChan k q s) ↔ Keeps wB sB s := by
  refine Keeps.peel (v := [.med]) ?_ hw
  unfold clearFlashChan
  repeat' first
    | simp (disch := first | decide | exact Or.inl (by decide) | exact Or.inr rfl) only [keeps_self, keeps_ite,
          keeps_mk, ite_self, modFlashChan_keeps]
    | split

theorem clearTarget_keeps {n : Nat} {s : State} {wB : List Area} {sB : State} (hw : subB [.ist] wB = true) :
    Keeps wB sB (clearTarget n s) ↔ Keeps wB sB s := by
  refine Keeps.peel (v := [.ist]) ?_ hw
  unfold clearTarget
  repeat' first
    | simp (disch := first | decide | exact Or.inl (by decide) | exact Or.inr rfl) only [keeps_self, keeps_ite,
          keeps_mk, ite_self]
    | split

theorem clearIndexed_keeps {o : Nat} {s : State} {wB : List Area} {sB : State} (hw : subB [.med, .mem, .xts, .ist] wB
    = true) :
    Keeps wB sB (clearIndexed o s) ↔ Keeps wB sB s := by
  refine Keeps.peel (v := [.med, .mem, .xts, .ist]) ?_ hw
  unfold clearIndexed
  repeat' first
    | split
    | simp (disch := first | decide | exact Or.inl (by decide) | exact Or.inr rfl) only [keeps_self, keeps_ite,
          keeps_mk, ite_self, clearEngine_keeps, clearTarget_keeps, clearChannel_keeps, clearFlashChan_keeps]

theorem clearWord_keeps {o : Nat} {s : State} {wB : List Area} {sB : State} (hw : subB [.clk, .dlr, .jnl, .ante,
    .host, .fabc, .idx, .cam, .med, .mem, .xts, .pwr, .upd, .evr, .ist, .frz] wB = true) :
    Keeps wB sB (clearWord o s) ↔ Keeps wB sB s := by
  refine Keeps.peel (v := [.clk, .dlr, .jnl, .ante, .host, .fabc, .idx, .cam, .med, .mem, .xts, .pwr, .upd, .evr,
      .ist, .frz]) ?_ hw
  unfold clearWord
  repeat' first
    | simp (disch := first | decide | exact Or.inl (by decide) | exact Or.inr rfl) only [keeps_self, keeps_ite,
          keeps_mk, ite_self, clearIndexed_keeps]
    | split

theorem badAccess_keeps {s : State} {wB : List Area} {sB : State} (hw : subB [.host] wB = true) :
    Keeps wB sB (badAccess s) ↔ Keeps wB sB s := by
  refine Keeps.peel (v := [.host]) ?_ hw
  unfold badAccess
  repeat' first
    | simp (disch := first | decide | exact Or.inl (by decide) | exact Or.inr rfl) only [keeps_self, keeps_ite,
          keeps_mk, ite_self]
    | split

theorem writeTask_keeps {n o w : Nat} {s : State} {wB : List Area} {sB : State} (hw : subB [.host, .pwr, .out] wB =
    true) :
    Keeps wB sB (writeTask n o w s) ↔ Keeps wB sB s := by
  refine Keeps.peel (v := [.host, .pwr, .out]) ?_ hw
  unfold writeTask
  repeat' first
    | simp (disch := first | decide | exact Or.inl (by decide) | exact Or.inr rfl) only [keeps_self, keeps_ite,
          keeps_mk, ite_self, startExit_keeps, setTask_keeps]
    | split

theorem writeBox_keeps {n o w : Nat} {s : State} {wB : List Area} {sB : State} (hw : subB [.host, .pwr, .out] wB =
    true) :
    Keeps wB sB (writeBox n o w s) ↔ Keeps wB sB s := by
  refine Keeps.peel (v := [.host, .pwr, .out]) ?_ hw
  unfold writeBox
  repeat' first
    | simp (disch := first | decide | exact Or.inl (by decide) | exact Or.inr rfl) only [keeps_self, keeps_ite,
          keeps_mk, ite_self, setBox_keeps, startExit_keeps]
    | split

theorem writeVec_keeps {p v o w : Nat} {s : State} {wB : List Area} {sB : State} (hw : subB [.host, .out] wB = true) :
    Keeps wB sB (writeVec p v o w s) ↔ Keeps wB sB s := by
  refine Keeps.peel (v := [.host, .out]) ?_ hw
  unfold writeVec
  repeat' first
    | simp (disch := first | decide | exact Or.inl (by decide) | exact Or.inr rfl) only [keeps_self, keeps_ite,
          keeps_mk, ite_self, emit_keeps, setPort_keeps]
    | split

theorem writeDiag_keeps {o w : Nat} {s : State} {wB : List Area} {sB : State} (hw : subB [.jnl, .lanes] wB = true) :
    Keeps wB sB (writeDiag o w s) ↔ Keeps wB sB s := by
  refine Keeps.peel (v := [.jnl, .lanes]) ?_ hw
  unfold writeDiag
  repeat' first
    | simp (disch := first | decide | exact Or.inl (by decide) | exact Or.inr rfl) only [keeps_self, keeps_ite,
          keeps_mk, ite_self, setLane_keeps]
    | split

theorem writeWord_keeps {p o w : Nat} {s : State} {wB : List Area} {sB : State} (hw : subB [.jnl, .host, .lanes,
    .pwr, .out] wB = true) :
    Keeps wB sB (writeWord p o w s) ↔ Keeps wB sB s := by
  refine Keeps.peel (v := [.jnl, .host, .lanes, .pwr, .out]) ?_ hw
  unfold writeWord
  repeat' first
    | simp (disch := first | decide | exact Or.inl (by decide) | exact Or.inr rfl) only [keeps_self, keeps_ite,
          keeps_mk, ite_self, modPort_keeps, writeTask_keeps, followAlert_keeps, writeDiag_keeps, writeVec_keeps,
          writeBox_keeps]
    | split

theorem execRegisterWrite_keeps (port bar offset size value : Nat) (s : State) : KeepsR [.dlr, .jnl, .host, .lanes,
    .pwr, .out] s (execRegisterWrite port bar offset size value s) := by
  unfold execRegisterWrite
  repeat' first
    | simp (disch := first | decide | exact Or.inl (by decide) | exact Or.inr rfl) only [keeps_self, keeps_ite,
          keeps_mk, ite_self, keepsR_next, keepsR_fault, keepsR_refused, keepsR_ite, writeWord_keeps, guard,
          startExit_keeps, doorbell_keeps, whenRunning, badAccess_keeps]
    | split

theorem latchHigh_keeps {port offset size : Nat} {s : State} {wB : List Area} {sB : State} (hw : subB [.host] wB =
    true) :
    Keeps wB sB (latchHigh port offset size s) ↔ Keeps wB sB s := by
  refine Keeps.peel (v := [.host]) ?_ hw
  unfold latchHigh
  repeat' first
    | simp (disch := first | decide | exact Or.inl (by decide) | exact Or.inr rfl) only [keeps_self, keeps_ite,
          keeps_mk, ite_self, modPort_keeps]
    | split

theorem execRcRegisterRead_keeps (port : Nat) (place : BarPlace) (size : Nat) (s : State) : KeepsR [.clk, .dlr, .jnl,
    .ante, .host, .fabc, .idx, .cam, .med, .mem, .xts, .pwr, .upd, .evr, .ist, .frz, .out] s (execRcRegisterRead port
    place size s) := by
  unfold execRcRegisterRead
  repeat' first
    | simp (disch := first | decide | exact Or.inl (by decide) | exact Or.inr rfl) only [keeps_self, keeps_ite,
          keeps_mk, ite_self, keepsR_next, keepsR_fault, keepsR_refused, keepsR_ite, modPort_keeps, guard,
          clearWord_keeps, emit_keeps, whenRunning, latchHigh_keeps]
    | with_reducible refine keeps_each (fun _ _ => ?_) ?_
    | split

theorem execRegisterLowHalfRead_keeps (port offset : Nat) (s : State) : KeepsR [.clk, .dlr, .jnl, .ante, .host,
    .fabc, .idx, .cam, .med, .mem, .xts, .pwr, .upd, .evr, .ist, .frz, .out] s (execRegisterLowHalfRead port offset
    s) := by
  unfold execRegisterLowHalfRead
  repeat' first
    | simp (disch := first | decide | exact Or.inl (by decide) | exact Or.inr rfl) only [keeps_self, keeps_ite,
          keeps_mk, ite_self, keepsR_next, keepsR_fault, keepsR_refused, keepsR_ite, guard, clearWord_keeps,
          emit_keeps, whenRunning, latchHigh_keeps]
    | with_reducible refine keeps_each (fun _ _ => ?_) ?_
    | split

theorem execBarBadAccess_keeps (port bar offset size : Nat) (write : Bool) (s : State) : KeepsR [.host, .out] s
    (execBarBadAccess port bar offset size write s) := by
  unfold execBarBadAccess
  repeat' first
    | simp (disch := first | decide | exact Or.inl (by decide) | exact Or.inr rfl) only [keeps_self, keeps_ite,
          keeps_mk, ite_self, keepsR_next, keepsR_fault, keepsR_refused, keepsR_ite, guard, emit_keeps, whenRunning,
          badAccess_keeps]
    | split

end Sys2Proof.Machine
end

