-- ==== Sys2Proof/Laws/FrameTasks.lean ====
section
/-! SUPPORT. What each operation of Machine/Tasks.lean may change: `f_keeps` takes `f` off the end of a chain of operations
whenever the areas it may change are among those allowed. -/

set_option linter.all false

namespace Sys2Proof.Machine

open Sys2Proof

theorem finishTask_keeps {n status result : Nat} {s : State} {wB : List Area} {sB : State} (hw : subB [.host] wB =
    true) :
    Keeps wB sB (finishTask n status result s) ↔ Keeps wB sB s := by
  refine Keeps.peel (v := [.host]) ?_ hw
  unfold finishTask
  repeat' first
    | simp (disch := first | decide | exact Or.inl (by decide) | exact Or.inr rfl) only [keeps_self, keeps_ite,
          keeps_mk, ite_self, setTask_keeps]
    | split

theorem execTaskCodeInvalid_keeps (set : Nat) (s : State) : KeepsR [.host] s (execTaskCodeInvalid set s) := by
  unfold execTaskCodeInvalid
  repeat' first
    | simp (disch := first | decide | exact Or.inl (by decide) | exact Or.inr rfl) only [keeps_self, keeps_ite,
          keeps_mk, ite_self, keepsR_next, keepsR_fault, keepsR_refused, keepsR_ite, guard, finishTask_keeps,
          whenRunning]
    | split

theorem execModuleReset_keeps (set : Nat) (s : State) : KeepsR [.jnl, .ante, .host] s (execModuleReset set s) := by
  unfold execModuleReset
  repeat' first
    | simp (disch := first | decide | exact Or.inl (by decide) | exact Or.inr rfl) only [keeps_self, keeps_ite,
          keeps_mk, ite_self, keepsR_next, keepsR_fault, keepsR_refused, keepsR_ite, reserveMaint_keeps, taskRow,
          finishTask_keeps, whenRunning]
    | split

theorem markResets_keeps {s : State} {wB : List Area} {sB : State} (hw : subB [.jnl] wB = true) :
    Keeps wB sB (markResets s) ↔ Keeps wB sB s := by
  refine Keeps.peel (v := [.jnl]) ?_ hw
  unfold markResets
  repeat' first
    | simp (disch := first | decide | exact Or.inl (by decide) | exact Or.inr rfl) only [keeps_self, keeps_ite,
          keeps_mk, ite_self]
    | with_reducible refine keeps_foldl (fun _ _ => ?_) ?_
    | split

theorem execModuleResetExecute_keeps (s : State) : KeepsR [.clk, .boot, .cores, .dlr, .jnl, .sessions, .ante, .host,
    .lanes, .fab, .fabc, .idx, .cam, .med, .mem, .xts, .pwr, .upd, .evr, .ist, .frz, .out, .draws] s
    (execModuleResetExecute s) := by
  unfold execModuleResetExecute
  repeat' first
    | simp (disch := first | decide | exact Or.inl (by decide) | exact Or.inr rfl) only [keeps_self, keeps_ite,
          keeps_mk, ite_self, keepsR_next, keepsR_fault, keepsR_refused, keepsR_ite, restart_keeps, markResets_keeps,
          guard, whenRunning]
    | split

theorem execAllPortsReset_keeps (s : State) : KeepsR [.clk, .boot, .cores, .dlr, .jnl, .sessions, .ante, .host,
    .lanes, .fab, .fabc, .idx, .cam, .med, .mem, .xts, .pwr, .upd, .evr, .ist, .frz, .out, .draws] s
    (execAllPortsReset s) := by
  unfold execAllPortsReset
  repeat' first
    | simp (disch := first | decide | exact Or.inl (by decide) | exact Or.inr rfl) only [keeps_self, keeps_ite,
          keeps_mk, ite_self, keepsR_next, keepsR_fault, keepsR_refused, keepsR_ite, restart_keeps, guard,
          whenRunning]
    | split

theorem testOne_keeps {t : Nat} {p : Nat × TestResult} {s : State} {wB : List Area} {sB : State} (hw : subB [.cores,
    .dlr, .ante, .host, .med, .mem, .xts, .pwr, .upd, .evr, .ist, .out, .draws] wB = true) :
    Keeps wB sB (testOne t p s) ↔ Keeps wB sB s := by
  refine Keeps.peel (v := [.cores, .dlr, .ante, .host, .med, .mem, .xts, .pwr, .upd, .evr, .ist, .out, .draws]) ?_ hw
  unfold testOne
  repeat' first
    | simp (disch := first | decide | exact Or.inl (by decide) | exact Or.inr rfl) only [keeps_self, keeps_ite,
          keeps_mk, ite_self, testRan_keeps, drawn_keeps]
    | split

theorem execSelfTest_keeps (set : Nat) (results : List TestResult) (s : State) : KeepsR [.cores, .dlr, .ante, .host,
    .med, .mem, .xts, .pwr, .upd, .evr, .ist, .out, .draws] s (execSelfTest set results s) := by
  unfold execSelfTest
  repeat' first
    | simp (disch := first | decide | exact Or.inl (by decide) | exact Or.inr rfl) only [keeps_self, keeps_ite,
          keeps_mk, ite_self, keepsR_next, keepsR_fault, keepsR_refused, keepsR_ite, testOne_keeps, taskRow,
          finishTask_keeps, whenRunning]
    | with_reducible refine keeps_each (fun _ _ => ?_) ?_
    | with_reducible refine keeps_getD (fun _ _ => ?_) ?_
    | split

theorem execEventTail_keeps (set : Nat) (s : State) : KeepsR [.host] s (execEventTail set s) := by
  unfold execEventTail
  repeat' first
    | simp (disch := first | decide | exact Or.inl (by decide) | exact Or.inr rfl) only [keeps_self, keeps_ite,
          keeps_mk, ite_self, keepsR_next, keepsR_fault, keepsR_refused, keepsR_ite, taskRow, finishTask_keeps,
          setTask_keeps, whenRunning]
    | split

theorem recoveryWrite_keeps {off : Nat} {d : Bytes} {s : State} {aB : Nat} {uB : State} {wB : List Area} {sB : State}
    (h : recoveryWrite off d s = (uB, aB)) (hw : subB [.upd] wB = true) :
    Keeps wB sB uB ↔ Keeps wB sB s := by
  refine Keeps.peel (v := [.upd]) ?_ hw
  unfold recoveryWrite at h
  repeat' first
    | cases h
    | split at h
    | dsimp only at h
  all_goals repeat' first
    | simp (disch := first | decide | exact Or.inl (by decide) | exact Or.inr rfl) only [keeps_self, keeps_ite,
          keeps_mk, ite_self]
    | split

theorem recoveryWrite_keeps1 {off : Nat} {d : Bytes} {s : State} {wB : List Area} {sB : State} (hw : subB [.upd] wB =
    true) :
    Keeps wB sB (recoveryWrite off d s).1 ↔ Keeps wB sB s := recoveryWrite_keeps rfl hw

theorem installRecovery_keeps {s : State} {wB : List Area} {sB : State} (hw : subB [.upd] wB = true) :
    Keeps wB sB (installRecovery s) ↔ Keeps wB sB s := by
  refine Keeps.peel (v := [.upd]) ?_ hw
  unfold installRecovery
  repeat' first
    | simp (disch := first | decide | exact Or.inl (by decide) | exact Or.inr rfl) only [keeps_self, keeps_ite,
          keeps_mk, ite_self]
    | split

theorem execRecoveryWrite_keeps (set : Nat) (s : State) : KeepsR [.host, .upd] s (execRecoveryWrite set s) := by
  unfold execRecoveryWrite
  repeat' first
    | simp (disch := first | decide | exact Or.inl (by decide) | exact Or.inr rfl) only [keeps_self, keeps_ite,
          keeps_mk, ite_self, keepsR_next, keepsR_fault, keepsR_refused, keepsR_ite, taskRow, finishTask_keeps,
          recoveryWrite_keeps1, whenRunning]
    | with_reducible refine (recoveryWrite_keeps (by assumption) (by decide)).mpr ?_
    | split

theorem execRecoveryCommit_keeps (set : Nat) (s : State) : KeepsR [.clk, .boot, .cores, .dlr, .jnl, .sessions, .ante,
    .host, .lanes, .fab, .fabc, .idx, .cam, .med, .mem, .xts, .pwr, .upd, .evr, .ist, .frz, .out] s
    (execRecoveryCommit set s) := by
  unfold execRecoveryCommit
  repeat' first
    | simp (disch := first | decide | exact Or.inl (by decide) | exact Or.inr rfl) only [keeps_self, keeps_ite,
          keeps_mk, ite_self, keepsR_next, keepsR_fault, keepsR_refused, keepsR_ite, taskRow, finishTask_keeps,
          recoveryCommit, whenRunning, installRecovery_keeps, coldStart_keeps]
    | split

theorem execUartRecoveryWrite_keeps (frame : Bytes) (s : State) : KeepsR [.upd, .out] s (execUartRecoveryWrite frame
    s) := by
  unfold execUartRecoveryWrite
  repeat' first
    | simp (disch := first | decide | exact Or.inl (by decide) | exact Or.inr rfl) only [keeps_self, keeps_ite,
          keeps_mk, ite_self, keepsR_next, keepsR_fault, keepsR_refused, keepsR_ite, emit_keeps, uartRow,
          recoveryWrite_keeps1, guard, whenRunning]
    | with_reducible refine (recoveryWrite_keeps (by assumption) (by decide)).mpr ?_
    | split

theorem execUartRecoveryCommit_keeps (frame : Bytes) (s : State) : KeepsR [.clk, .boot, .cores, .dlr, .jnl,
    .sessions, .ante, .host, .lanes, .fab, .fabc, .idx, .cam, .med, .mem, .xts, .pwr, .upd, .evr, .ist, .frz, .out] s
    (execUartRecoveryCommit frame s) := by
  unfold execUartRecoveryCommit
  repeat' first
    | simp (disch := first | decide | exact Or.inl (by decide) | exact Or.inr rfl) only [keeps_self, keeps_ite,
          keeps_mk, ite_self, keepsR_next, keepsR_fault, keepsR_refused, keepsR_ite, emit_keeps, uartRow,
          recoveryCommit, guard, whenRunning, installRecovery_keeps, coldStart_keeps]
    | split

theorem execUartRecoveryStatus_keeps (frame : Bytes) (s : State) : KeepsR [.out] s (execUartRecoveryStatus frame s)
    := by
  unfold execUartRecoveryStatus
  repeat' first
    | simp (disch := first | decide | exact Or.inl (by decide) | exact Or.inr rfl) only [keeps_self, keeps_ite,
          keeps_mk, ite_self, keepsR_next, keepsR_fault, keepsR_refused, keepsR_ite, emit_keeps, uartRow, guard,
          whenRunning]
    | split

theorem smbusAnswer_keeps {code : Nat} {pec : Bool} {d : Bytes} {s : State} {wB : List Area} {sB : State} (hw : subB
    [.out] wB = true) :
    Keeps wB sB (smbusAnswer code pec d s) ↔ Keeps wB sB s := by
  refine Keeps.peel (v := [.out]) ?_ hw
  unfold smbusAnswer
  repeat' first
    | simp (disch := first | decide | exact Or.inl (by decide) | exact Or.inr rfl) only [keeps_self, keeps_ite,
          keeps_mk, ite_self, emit_keeps]
    | split

theorem execSidebandIdentityRead_keeps (pec : Bool) (s : State) : KeepsR [.out] s (execSidebandIdentityRead pec s) :=
    by
  unfold execSidebandIdentityRead
  repeat' first
    | simp (disch := first | decide | exact Or.inl (by decide) | exact Or.inr rfl) only [keeps_self, keeps_ite,
          keeps_mk, ite_self, keepsR_next, keepsR_fault, keepsR_refused, keepsR_ite, smbusAnswer_keeps, smbusRow,
          emit_keeps]
    | split

theorem execSidebandStatusRead_keeps (lidTemp : Nat) (pec : Bool) (s : State) : KeepsR [.out] s
    (execSidebandStatusRead lidTemp pec s) := by
  unfold execSidebandStatusRead
  repeat' first
    | simp (disch := first | decide | exact Or.inl (by decide) | exact Or.inr rfl) only [keeps_self, keeps_ite,
          keeps_mk, ite_self, keepsR_next, keepsR_fault, keepsR_refused, keepsR_ite, smbusAnswer_keeps, smbusRow,
          emit_keeps]
    | split

theorem execSmbusRecoveryWrite_keeps (block : Bytes) (pec : Option Byte) (s : State) : KeepsR [.upd, .out] s
    (execSmbusRecoveryWrite block pec s) := by
  unfold execSmbusRecoveryWrite
  repeat' first
    | simp (disch := first | decide | exact Or.inl (by decide) | exact Or.inr rfl) only [keeps_self, keeps_ite,
          keeps_mk, ite_self, keepsR_next, keepsR_fault, keepsR_refused, keepsR_ite, recoveryRow,
          recoveryWrite_keeps1, smbusRow, emit_keeps]
    | with_reducible refine (recoveryWrite_keeps (by assumption) (by decide)).mpr ?_
    | split

theorem execSmbusRecoveryCommit_keeps (block : Bytes) (pec : Option Byte) (s : State) : KeepsR [.clk, .boot, .cores,
    .dlr, .jnl, .sessions, .ante, .host, .lanes, .fab, .fabc, .idx, .cam, .med, .mem, .xts, .pwr, .upd, .evr, .ist,
    .frz, .out] s (execSmbusRecoveryCommit block pec s) := by
  unfold execSmbusRecoveryCommit
  repeat' first
    | simp (disch := first | decide | exact Or.inl (by decide) | exact Or.inr rfl) only [keeps_self, keeps_ite,
          keeps_mk, ite_self, keepsR_next, keepsR_fault, keepsR_refused, keepsR_ite, recoveryRow, recoveryCommit,
          smbusRow, installRecovery_keeps, coldStart_keeps, emit_keeps]
    | split

theorem execSmbusRecoveryStatus_keeps (pec : Bool) (s : State) : KeepsR [.out] s (execSmbusRecoveryStatus pec s) := by
  unfold execSmbusRecoveryStatus
  repeat' first
    | simp (disch := first | decide | exact Or.inl (by decide) | exact Or.inr rfl) only [keeps_self, keeps_ite,
          keeps_mk, ite_self, keepsR_next, keepsR_fault, keepsR_refused, keepsR_ite, smbusAnswer_keeps, recoveryRow,
          smbusRow, emit_keeps]
    | split

end Sys2Proof.Machine
end

