-- ==== Sys2Proof/Laws/FrameFrozen.lean ====
section
/-! SUPPORT. What each operation of Machine/Frozen.lean may change: `f_keeps` takes `f` off the end of a chain of operations
whenever the areas it may change are among those allowed. -/

set_option linter.all false

namespace Sys2Proof.Machine

open Sys2Proof

theorem freezeNow_keeps {s : State} {wB : List Area} {sB : State} (hw : subB [.mem, .frz, .out] wB = true) :
    Keeps wB sB (freezeNow s) ↔ Keeps wB sB s := by
  refine Keeps.peel (v := [.mem, .frz, .out]) ?_ hw
  unfold freezeNow
  repeat' first
    | simp (disch := first | decide | exact Or.inl (by decide) | exact Or.inr rfl) only [keeps_self, keeps_ite,
          keeps_mk, ite_self, refreshSelf_keeps, drainDram_keeps]
    | split

theorem tryFreeze_keeps {s : State} {wB : List Area} {sB : State} (hw : subB [.mem, .frz, .out] wB = true) :
    Keeps wB sB (tryFreeze s) ↔ Keeps wB sB s := by
  refine Keeps.peel (v := [.mem, .frz, .out]) ?_ hw
  unfold tryFreeze
  repeat' first
    | simp (disch := first | decide | exact Or.inl (by decide) | exact Or.inr rfl) only [keeps_self, keeps_ite,
          keeps_mk, ite_self, guard, freezeNow_keeps]
    | split

theorem execFreezeEntry_keeps (s : State) : KeepsR [.mem, .frz, .out] s (execFreezeEntry s) := by
  unfold execFreezeEntry
  repeat' first
    | simp (disch := first | decide | exact Or.inl (by decide) | exact Or.inr rfl) only [keeps_self, keeps_ite,
          keeps_mk, ite_self, keepsR_next, keepsR_fault, keepsR_refused, keepsR_ite, tryFreeze_keeps]
    | split

theorem execThaw_keeps (s : State) : KeepsR [.dlr, .sessions, .ante, .host, .lanes, .fab, .fabc, .med, .mem, .pwr,
    .upd, .evr, .frz, .out] s (execThaw s) := by
  unfold execThaw
  repeat' first
    | simp (disch := first | decide | exact Or.inl (by decide) | exact Or.inr rfl) only [keeps_self, keeps_ite,
          keeps_mk, ite_self, keepsR_next, keepsR_fault, keepsR_refused, keepsR_ite, thaw_keeps]
    | split

theorem execFrzStatus_keeps (s : State) : KeepsR [.out] s (execFrzStatus s) := by
  unfold execFrzStatus
  repeat' first
    | simp (disch := first | decide | exact Or.inl (by decide) | exact Or.inr rfl) only [keeps_self, keeps_ite,
          keeps_mk, ite_self, keepsR_next, keepsR_fault, keepsR_refused, keepsR_ite, freezeRow, emit_keeps]
    | split

theorem execFrzChain_keeps (s : State) : KeepsR [.frz, .out, .draws] s (execFrzChain s) := by
  unfold execFrzChain
  repeat' first
    | simp (disch := first | decide | exact Or.inl (by decide) | exact Or.inr rfl) only [keeps_self, keeps_ite,
          keeps_mk, ite_self, keepsR_next, keepsR_fault, keepsR_refused, keepsR_ite, freezeRow, emit_keeps]
    | split

theorem execFrzMem_keeps (memory word : Nat) (s : State) : KeepsR [.out, .draws] s (execFrzMem memory word s) := by
  unfold execFrzMem
  repeat' first
    | simp (disch := first | decide | exact Or.inl (by decide) | exact Or.inr rfl) only [keeps_self, keeps_ite,
          keeps_mk, ite_self, keepsR_next, keepsR_fault, keepsR_refused, keepsR_ite, drawn_keeps, freezeRow,
          emit_keeps]
    | split

end Sys2Proof.Machine
end

