-- ==== Sys2Proof/Laws/FrameClock.lean ====
section
/-! SUPPORT. What each operation of Machine/Clock.lean may change: `f_keeps` takes `f` off the end of a chain of operations
whenever the areas it may change are among those allowed. -/

set_option linter.all false

namespace Sys2Proof.Machine

open Sys2Proof

theorem followHeat_keeps {d : Nat} {s : State} {wB : List Area} {sB : State} (hw : subB [.med] wB = true) :
    Keeps wB sB (followHeat d s) ↔ Keeps wB sB s := by
  refine Keeps.peel (v := [.med]) ?_ hw
  unfold followHeat
  repeat' first
    | simp (disch := first | decide | exact Or.inl (by decide) | exact Or.inr rfl) only [keeps_self, keeps_ite,
          keeps_mk, ite_self]
    | split

theorem newSlot_keeps {s : State} {wB : List Area} {sB : State} (hw : subB [.ante, .draws] wB = true) :
    Keeps wB sB (newSlot s) ↔ Keeps wB sB s := by
  refine Keeps.peel (v := [.ante, .draws]) ?_ hw
  unfold newSlot
  repeat' first
    | simp (disch := first | decide | exact Or.inl (by decide) | exact Or.inr rfl) only [keeps_self, keeps_ite,
          keeps_mk, ite_self, drawn_keeps]
    | split

theorem advanceTime_keeps {d : Nat} {s : State} {wB : List Area} {sB : State} (hw : subB [.clk, .fab] wB = true) :
    Keeps wB sB (advanceTime d s) ↔ Keeps wB sB s := by
  refine Keeps.peel (v := [.clk, .fab]) ?_ hw
  unfold advanceTime
  repeat' first
    | simp (disch := first | decide | exact Or.inl (by decide) | exact Or.inr rfl) only [keeps_self, keeps_ite,
          keeps_mk, ite_self]
    | split

theorem followPower_keeps {s : State} {wB : List Area} {sB : State} (hw : subB [.host, .pwr, .out] wB = true) :
    Keeps wB sB (followPower s) ↔ Keeps wB sB s := by
  refine Keeps.peel (v := [.host, .pwr, .out]) ?_ hw
  unfold followPower
  repeat' first
    | simp (disch := first | decide | exact Or.inl (by decide) | exact Or.inr rfl) only [keeps_self, keeps_ite,
          keeps_mk, ite_self, startExit_keeps, followIdle_keeps]
    | split

theorem passTime_keeps {d : Nat} {s : State} {wB : List Area} {sB : State} (hw : subB [.clk, .ante, .host, .fab,
    .med, .mem, .pwr, .evr, .frz, .out, .draws] wB = true) :
    Keeps wB sB (passTime d s) ↔ Keeps wB sB s := by
  refine Keeps.peel (v := [.clk, .ante, .host, .fab, .med, .mem, .pwr, .evr, .frz, .out, .draws]) ?_ hw
  unfold passTime
  repeat' first
    | simp (disch := first | decide | exact Or.inl (by decide) | exact Or.inr rfl) only [keeps_self, keeps_ite,
          keeps_mk, ite_self, advanceTime_keeps, newSlot_keeps, lateDeassert_keeps, tryFreeze_keeps,
          followIdle_keeps, followHeat_keeps, followPower_keeps]
    | split

theorem clockMoves_keeps (d : Nat) (s : State) : KeepsR [.clk, .ante, .host, .fab, .med, .mem, .pwr, .evr, .frz,
    .out, .draws] s (clockMoves d s) := by
  unfold clockMoves
  repeat' first
    | simp (disch := first | decide | exact Or.inl (by decide) | exact Or.inr rfl) only [keeps_self, keeps_ite,
          keeps_mk, ite_self, keepsR_next, keepsR_fault, keepsR_refused, keepsR_ite, passTime_keeps]
    | split

theorem execSlotBoundary_keeps (s : State) : KeepsR [.clk, .ante, .host, .fab, .med, .mem, .pwr, .evr, .frz, .out,
    .draws] s (execSlotBoundary s) := by
  unfold execSlotBoundary
  repeat' first
    | simp (disch := first | decide | exact Or.inl (by decide) | exact Or.inr rfl) only [keeps_self, keeps_ite,
          keeps_mk, ite_self, keepsR_next, keepsR_fault, keepsR_refused, keepsR_ite]
    | with_reducible refine (clockMoves_keeps ..).peel (by decide) ?_
    | split

theorem idle_keeps (s : State) : KeepsR [.clk, .boot, .cores, .buf, .dlr, .jnl, .sessions, .nss, .ante, .host,
    .lanes, .wake, .fab, .fabc, .idx, .cam, .med, .mem, .xts, .pwr, .upd, .evr, .ist, .frz, .out, .draws] s (idle s)
    := by
  unfold idle
  repeat' first
    | simp (disch := first | decide | exact Or.inl (by decide) | exact Or.inr rfl) only [keeps_self, keeps_ite,
          keeps_mk, ite_self, keepsR_next, keepsR_fault, keepsR_refused, keepsR_ite, bootStep_keeps, passTime_keeps]
    | split

end Sys2Proof.Machine
end

