-- ==== Sys2Proof/Laws/Tables.lean ====
section
/-! SUPPORT. The sparse tables and the byte memories: what a read gives after a write, and that every operation keeps the
canonical form. -/

namespace Sys2Proof.Machine

open Sys2Proof

variable {α : Type}

theorem tget_tput_same (d : Nat → α) (t : Tbl α) (k : Nat) (a : α) : tget d (tput t k a) k = a := by
  induction t with
  | nil => simp [tput, tget]
  | cons p t ih =>
    obtain ⟨j, b⟩ := p
    simp only [tput]
    split
    · simp [tget]
    · split
      · simp [tget]
      · rename_i h
        simp only [tget, ih]
        split
        · rename_i g; exact absurd g.symm h
        · rfl

theorem tget_tput_ne (d : Nat → α) (t : Tbl α) {k j : Nat} (a : α) (h : j ≠ k) : tget d (tput t k a) j = tget d t j := by
  induction t with
  | nil => simp [tput, tget, Ne.symm h]
  | cons p t ih =>
    obtain ⟨i, b⟩ := p
    simp only [tput]
    split
    · simp [tget, Ne.symm h]
    · split
      · rename_i e; subst e; simp [tget, Ne.symm h]
      · simp [tget, ih]

theorem tget_tdel_same (d : Nat → α) (t : Tbl α) (k : Nat) : tget d (tdel t k) k = d k := by
  induction t with
  | nil => rfl
  | cons p t ih =>
    obtain ⟨i, b⟩ := p
    simp only [tdel]
    split
    · exact ih
    · simp [tget, *]

theorem tget_tdel_ne (d : Nat → α) (t : Tbl α) {k j : Nat} (h : j ≠ k) : tget d (tdel t k) j = tget d t j := by
  induction t with
  | nil => rfl
  | cons p t ih =>
    obtain ⟨i, b⟩ := p
    simp only [tdel]
    split
    · rename_i e; subst e; simp [tget, ih, Ne.symm h]
    · simp [tget, ih]

/-- What a key holds after a write of key `k`: the value written there, and what it held everywhere else. -/
theorem tget_tset [DecidableEq α] (d : Nat → α) (t : Tbl α) (k : Nat) (a : α) (j : Nat) :
    tget d (tset d t k a) j = if j = k then a else tget d t j := by
  unfold tset
  split
  · rename_i e
    split
    · rename_i h; subst h; rw [tget_tdel_same]; exact e.symm
    · rename_i h; exact tget_tdel_ne d t h
  · split
    · rename_i h; subst h; exact tget_tput_same d t _ a
    · rename_i h; exact tget_tput_ne d t a h

@[simp] theorem tget_tset_same [DecidableEq α] (d : Nat → α) (t : Tbl α) (k : Nat) (a : α) : tget d (tset d t k a) k = a := by
  simp [tget_tset]

theorem tget_tset_ne [DecidableEq α] (d : Nat → α) (t : Tbl α) {k j : Nat} (a : α) (h : j ≠ k) :
    tget d (tset d t k a) j = tget d t j := by
  simp [tget_tset, h]

@[simp] theorem tfind_tput_same (t : Tbl α) (k : Nat) (a : α) : tfind (tput t k a) k = some a := by
  induction t with
  | nil => simp [tput, tfind]
  | cons p t ih =>
    obtain ⟨j, b⟩ := p
    simp only [tput]
    split
    · simp [tfind]
    · split
      · simp [tfind]
      · rename_i h; simp only [tfind, ih]; rw [if_neg (fun g => h g.symm)]

theorem tfind_tput_ne (t : Tbl α) {k j : Nat} (a : α) (h : j ≠ k) : tfind (tput t k a) j = tfind t j := by
  induction t with
  | nil => simp [tput, tfind, Ne.symm h]
  | cons p t ih =>
    obtain ⟨i, b⟩ := p
    simp only [tput]
    split
    · simp [tfind, Ne.symm h]
    · split
      · rename_i e; subst e; simp [tfind, Ne.symm h]
      · simp [tfind, ih]

@[simp] theorem tfind_tdel_same (t : Tbl α) (k : Nat) : tfind (tdel t k) k = none := by
  induction t with
  | nil => rfl
  | cons p t ih =>
    obtain ⟨i, b⟩ := p
    simp only [tdel]
    split
    · exact ih
    · simp [tfind, *]

theorem tfind_tdel_ne (t : Tbl α) {k j : Nat} (h : j ≠ k) : tfind (tdel t k) j = tfind t j := by
  induction t with
  | nil => rfl
  | cons p t ih =>
    obtain ⟨i, b⟩ := p
    simp only [tdel]
    split
    · rename_i e; subst e; simp [tfind, ih, Ne.symm h]
    · simp [tfind, ih]

/-! ## The canonical form -/

theorem keysRise_iff (t : Tbl α) : keysRise t = true ↔ t.Pairwise (fun p q => p.1 < q.1) := by
  induction t with
  | nil => simp [keysRise]
  | cons p t ih =>
    cases t with
    | nil => simp [keysRise]
    | cons q t =>
      obtain ⟨i, a⟩ := p
      obtain ⟨j, b⟩ := q
      simp only [keysRise, Bool.and_eq_true, decide_eq_true_eq, ih, List.pairwise_cons]
      constructor
      · rintro ⟨h, h1, h2⟩
        refine ⟨?_, h1, h2⟩
        intro r hr
        rcases List.mem_cons.mp hr with rfl | hr
        · exact h
        · exact lt_trans h (h1 r hr)
      · rintro ⟨h, h1, h2⟩
        exact ⟨h _ (List.mem_cons_self ..), h1, h2⟩

/-- Entries after a write: the one written, or one that was there before under another key. -/
theorem mem_tput {t : Tbl α} {k : Nat} {a : α} {p : Nat × α} (h : p ∈ tput t k a) : p = (k, a) ∨ p ∈ t := by
  induction t with
  | nil => exact Or.inl (List.mem_singleton.mp h)
  | cons q t ih =>
    obtain ⟨j, b⟩ := q
    simp only [tput] at h
    split at h
    · rcases List.mem_cons.mp h with h | h
      · exact Or.inl h
      · exact Or.inr h
    · split at h
      · rcases List.mem_cons.mp h with h | h
        · exact Or.inl h
        · exact Or.inr (List.mem_cons_of_mem _ h)
      · rcases List.mem_cons.mp h with h | h
        · exact Or.inr (h ▸ List.mem_cons_self ..)
        · exact (ih h).imp id (List.mem_cons_of_mem _)

theorem mem_tdel {t : Tbl α} {k : Nat} {p : Nat × α} (h : p ∈ tdel t k) : p ∈ t := by
  induction t with
  | nil => exact h
  | cons q t ih =>
    obtain ⟨j, b⟩ := q
    simp only [tdel] at h
    split at h
    · exact List.mem_cons_of_mem _ (ih h)
    · rcases List.mem_cons.mp h with h | h
      · exact h ▸ List.mem_cons_self ..
      · exact List.mem_cons_of_mem _ (ih h)

theorem keysRise_tput {t : Tbl α} (k : Nat) (a : α) (h : keysRise t = true) : keysRise (tput t k a) = true := by
  rw [keysRise_iff] at *
  induction t with
  | nil => simp [tput]
  | cons q t ih =>
    obtain ⟨j, b⟩ := q
    obtain ⟨h1, h2⟩ := List.pairwise_cons.mp h
    simp only [tput]
    split
    · rename_i hk
      refine List.pairwise_cons.mpr ⟨?_, h⟩
      intro r hr
      rcases List.mem_cons.mp hr with rfl | hr
      · exact hk
      · exact lt_trans hk (h1 r hr)
    · split
      · rename_i e
        subst e
        exact List.pairwise_cons.mpr ⟨h1, h2⟩
      · rename_i hk hne
        refine List.pairwise_cons.mpr ⟨?_, ih h2⟩
        intro r hr
        rcases mem_tput hr with rfl | hr
        · exact lt_of_le_of_ne (not_lt.mp hk) (fun g => hne g.symm)
        · exact h1 r hr

theorem keysRise_tdel {t : Tbl α} (k : Nat) (h : keysRise t = true) : keysRise (tdel t k) = true := by
  rw [keysRise_iff] at *
  induction t with
  | nil => exact h
  | cons q t ih =>
    obtain ⟨j, b⟩ := q
    obtain ⟨h1, h2⟩ := List.pairwise_cons.mp h
    simp only [tdel]
    split
    · exact ih h2
    · exact List.pairwise_cons.mpr ⟨fun r hr => h1 r (mem_tdel hr), ih h2⟩

/-- A write keeps the canonical form of a table. -/
theorem tblWf_tset [DecidableEq α] {d : Nat → α} {t : Tbl α} (k : Nat) (a : α) (h : tblWf d t = true) :
    tblWf d (tset d t k a) = true := by
  simp only [tblWf, Bool.and_eq_true, List.all_eq_true, decide_eq_true_eq] at *
  unfold tset
  split
  · exact ⟨keysRise_tdel k h.1, fun p hp => h.2 p (mem_tdel hp)⟩
  · rename_i ha
    refine ⟨keysRise_tput k a h.1, fun p hp => ?_⟩
    rcases mem_tput hp with rfl | hp
    · exact ha
    · exact h.2 p hp

/-! ## Byte memories -/

theorem byteAt_byteSet (m : List Host.Cell) (a : Nat) (b : Byte) (c : Nat) :
    byteAt (byteSet m a b) c = if c = a then b else byteAt m c := tget_tset blank m a b c

/-- A write of one byte keeps the canonical form. -/
theorem wf_byteSet {m : List Host.Cell} (a : Nat) (b : Byte) (h : Memory.wf m = true) : Memory.wf (byteSet m a b) = true :=
  tblWf_tset a b h

/-- A write of bytes keeps the canonical form. -/
theorem wf_bytesSet {m : List Host.Cell} (a : Nat) (bs : Bytes) (h : Memory.wf m = true) :
    Memory.wf (bytesSet m a bs) = true := by
  induction bs generalizing m a with
  | nil => exact h
  | cons b bs ih => exact ih (a + 1) (wf_byteSet a b h)

/-- What a byte reads after a write of bytes: the byte written there, and what it read before everywhere else. -/
theorem byteAt_bytesSet (m : List Host.Cell) (a : Nat) (bs : Bytes) (c : Nat) :
    byteAt (bytesSet m a bs) c = if a ≤ c ∧ c < a + bs.length then bs.getD (c - a) 0 else byteAt m c := by
  induction bs generalizing m a with
  | nil => simp only [bytesSet, List.length_nil]; rw [if_neg (by omega)]
  | cons b bs ih =>
    simp only [bytesSet, ih, byteAt_byteSet, List.length_cons]
    by_cases h1 : c = a
    · subst h1
      rw [if_neg (by omega), if_pos rfl, if_pos (by omega)]
      simp
    · by_cases h2 : a + 1 ≤ c ∧ c < a + 1 + bs.length
      · rw [if_pos h2, if_pos (by omega)]
        have : c - a = (c - (a + 1)) + 1 := by omega
        rw [this]; rfl
      · rw [if_neg h2, if_neg h1, if_neg (by omega)]

end Sys2Proof.Machine
end

