-- ==== Sys2Proof/Laws/State.lean ====
section
/-! SUPPORT. What a named update of the state leaves alone, one lemma per field, and what its unit reads as afterwards. -/

namespace Sys2Proof.Machine

open Sys2Proof

@[simp] theorem setLane_pending (n : Nat) (x : Lane) (s : State) : (setLane n x s).pending = s.pending := rfl
@[simp] theorem setLane_clk (n : Nat) (x : Lane) (s : State) : (setLane n x s).clk = s.clk := rfl
@[simp] theorem setLane_boot (n : Nat) (x : Lane) (s : State) : (setLane n x s).boot = s.boot := rfl
@[simp] theorem setLane_cores (n : Nat) (x : Lane) (s : State) : (setLane n x s).cores = s.cores := rfl
@[simp] theorem setLane_buf (n : Nat) (x : Lane) (s : State) : (setLane n x s).buf = s.buf := rfl
@[simp] theorem setLane_dlr (n : Nat) (x : Lane) (s : State) : (setLane n x s).dlr = s.dlr := rfl
@[simp] theorem setLane_jnl (n : Nat) (x : Lane) (s : State) : (setLane n x s).jnl = s.jnl := rfl
@[simp] theorem setLane_sessions (n : Nat) (x : Lane) (s : State) : (setLane n x s).sessions = s.sessions := rfl
@[simp] theorem setLane_nss (n : Nat) (x : Lane) (s : State) : (setLane n x s).nss = s.nss := rfl
@[simp] theorem setLane_commits (n : Nat) (x : Lane) (s : State) : (setLane n x s).commits = s.commits := rfl
@[simp] theorem setLane_ante (n : Nat) (x : Lane) (s : State) : (setLane n x s).ante = s.ante := rfl
@[simp] theorem setLane_host (n : Nat) (x : Lane) (s : State) : (setLane n x s).host = s.host := rfl
@[simp] theorem setLane_wake (n : Nat) (x : Lane) (s : State) : (setLane n x s).wake = s.wake := rfl
@[simp] theorem setLane_fab (n : Nat) (x : Lane) (s : State) : (setLane n x s).fab = s.fab := rfl
@[simp] theorem setLane_fabc (n : Nat) (x : Lane) (s : State) : (setLane n x s).fabc = s.fabc := rfl
@[simp] theorem setLane_idx (n : Nat) (x : Lane) (s : State) : (setLane n x s).idx = s.idx := rfl
@[simp] theorem setLane_cam (n : Nat) (x : Lane) (s : State) : (setLane n x s).cam = s.cam := rfl
@[simp] theorem setLane_med (n : Nat) (x : Lane) (s : State) : (setLane n x s).med = s.med := rfl
@[simp] theorem setLane_mem (n : Nat) (x : Lane) (s : State) : (setLane n x s).mem = s.mem := rfl
@[simp] theorem setLane_xts (n : Nat) (x : Lane) (s : State) : (setLane n x s).xts = s.xts := rfl
@[simp] theorem setLane_pwr (n : Nat) (x : Lane) (s : State) : (setLane n x s).pwr = s.pwr := rfl
@[simp] theorem setLane_upd (n : Nat) (x : Lane) (s : State) : (setLane n x s).upd = s.upd := rfl
@[simp] theorem setLane_evr (n : Nat) (x : Lane) (s : State) : (setLane n x s).evr = s.evr := rfl
@[simp] theorem setLane_ist (n : Nat) (x : Lane) (s : State) : (setLane n x s).ist = s.ist := rfl
@[simp] theorem setLane_frz (n : Nat) (x : Lane) (s : State) : (setLane n x s).frz = s.frz := rfl
@[simp] theorem setLane_out (n : Nat) (x : Lane) (s : State) : (setLane n x s).out = s.out := rfl
@[simp] theorem setLane_draws (n : Nat) (x : Lane) (s : State) : (setLane n x s).draws = s.draws := rfl
@[simp] theorem laneAt_setLane_same (n : Nat) (x : Lane) (s : State) : laneAt (setLane n x s) n = x := by
  simp only [laneAt, setLane, tget_tset_same]
theorem laneAt_setLane_ne (n : Nat) (x : Lane) (s : State) (k : Nat) (h : k ≠ n) : laneAt (setLane n x s) k = laneAt s k := by
  simp only [laneAt, setLane]; exact tget_tset_ne _ _ _ h

@[simp] theorem setNs_pending (n : Nat) (x : Namespace) (s : State) : (setNs n x s).pending = s.pending := rfl
@[simp] theorem setNs_clk (n : Nat) (x : Namespace) (s : State) : (setNs n x s).clk = s.clk := rfl
@[simp] theorem setNs_boot (n : Nat) (x : Namespace) (s : State) : (setNs n x s).boot = s.boot := rfl
@[simp] theorem setNs_cores (n : Nat) (x : Namespace) (s : State) : (setNs n x s).cores = s.cores := rfl
@[simp] theorem setNs_buf (n : Nat) (x : Namespace) (s : State) : (setNs n x s).buf = s.buf := rfl
@[simp] theorem setNs_dlr (n : Nat) (x : Namespace) (s : State) : (setNs n x s).dlr = s.dlr := rfl
@[simp] theorem setNs_jnl (n : Nat) (x : Namespace) (s : State) : (setNs n x s).jnl = s.jnl := rfl
@[simp] theorem setNs_sessions (n : Nat) (x : Namespace) (s : State) : (setNs n x s).sessions = s.sessions := rfl
@[simp] theorem setNs_commits (n : Nat) (x : Namespace) (s : State) : (setNs n x s).commits = s.commits := rfl
@[simp] theorem setNs_ante (n : Nat) (x : Namespace) (s : State) : (setNs n x s).ante = s.ante := rfl
@[simp] theorem setNs_host (n : Nat) (x : Namespace) (s : State) : (setNs n x s).host = s.host := rfl
@[simp] theorem setNs_lanes (n : Nat) (x : Namespace) (s : State) : (setNs n x s).lanes = s.lanes := rfl
@[simp] theorem setNs_wake (n : Nat) (x : Namespace) (s : State) : (setNs n x s).wake = s.wake := rfl
@[simp] theorem setNs_fab (n : Nat) (x : Namespace) (s : State) : (setNs n x s).fab = s.fab := rfl
@[simp] theorem setNs_fabc (n : Nat) (x : Namespace) (s : State) : (setNs n x s).fabc = s.fabc := rfl
@[simp] theorem setNs_idx (n : Nat) (x : Namespace) (s : State) : (setNs n x s).idx = s.idx := rfl
@[simp] theorem setNs_cam (n : Nat) (x : Namespace) (s : State) : (setNs n x s).cam = s.cam := rfl
@[simp] theorem setNs_med (n : Nat) (x : Namespace) (s : State) : (setNs n x s).med = s.med := rfl
@[simp] theorem setNs_mem (n : Nat) (x : Namespace) (s : State) : (setNs n x s).mem = s.mem := rfl
@[simp] theorem setNs_xts (n : Nat) (x : Namespace) (s : State) : (setNs n x s).xts = s.xts := rfl
@[simp] theorem setNs_pwr (n : Nat) (x : Namespace) (s : State) : (setNs n x s).pwr = s.pwr := rfl
@[simp] theorem setNs_upd (n : Nat) (x : Namespace) (s : State) : (setNs n x s).upd = s.upd := rfl
@[simp] theorem setNs_evr (n : Nat) (x : Namespace) (s : State) : (setNs n x s).evr = s.evr := rfl
@[simp] theorem setNs_ist (n : Nat) (x : Namespace) (s : State) : (setNs n x s).ist = s.ist := rfl
@[simp] theorem setNs_frz (n : Nat) (x : Namespace) (s : State) : (setNs n x s).frz = s.frz := rfl
@[simp] theorem setNs_out (n : Nat) (x : Namespace) (s : State) : (setNs n x s).out = s.out := rfl
@[simp] theorem setNs_draws (n : Nat) (x : Namespace) (s : State) : (setNs n x s).draws = s.draws := rfl
@[simp] theorem nsAt_setNs_same (n : Nat) (x : Namespace) (s : State) : nsAt (setNs n x s) n = x := by
  simp only [nsAt, setNs, tget_tset_same]
theorem nsAt_setNs_ne (n : Nat) (x : Namespace) (s : State) (k : Nat) (h : k ≠ n) : nsAt (setNs n x s) k = nsAt s k := by
  simp only [nsAt, setNs]; exact tget_tset_ne _ _ _ h

@[simp] theorem setMeld_pending (n : Nat) (x : Meld) (s : State) : (setMeld n x s).pending = s.pending := rfl
@[simp] theorem setMeld_clk (n : Nat) (x : Meld) (s : State) : (setMeld n x s).clk = s.clk := rfl
@[simp] theorem setMeld_boot (n : Nat) (x : Meld) (s : State) : (setMeld n x s).boot = s.boot := rfl
@[simp] theorem setMeld_cores (n : Nat) (x : Meld) (s : State) : (setMeld n x s).cores = s.cores := rfl
@[simp] theorem setMeld_buf (n : Nat) (x : Meld) (s : State) : (setMeld n x s).buf = s.buf := rfl
@[simp] theorem setMeld_dlr (n : Nat) (x : Meld) (s : State) : (setMeld n x s).dlr = s.dlr := rfl
@[simp] theorem setMeld_jnl (n : Nat) (x : Meld) (s : State) : (setMeld n x s).jnl = s.jnl := rfl
@[simp] theorem setMeld_sessions (n : Nat) (x : Meld) (s : State) : (setMeld n x s).sessions = s.sessions := rfl
@[simp] theorem setMeld_nss (n : Nat) (x : Meld) (s : State) : (setMeld n x s).nss = s.nss := rfl
@[simp] theorem setMeld_commits (n : Nat) (x : Meld) (s : State) : (setMeld n x s).commits = s.commits := rfl
@[simp] theorem setMeld_ante (n : Nat) (x : Meld) (s : State) : (setMeld n x s).ante = s.ante := rfl
@[simp] theorem setMeld_host (n : Nat) (x : Meld) (s : State) : (setMeld n x s).host = s.host := rfl
@[simp] theorem setMeld_lanes (n : Nat) (x : Meld) (s : State) : (setMeld n x s).lanes = s.lanes := rfl
@[simp] theorem setMeld_wake (n : Nat) (x : Meld) (s : State) : (setMeld n x s).wake = s.wake := rfl
@[simp] theorem setMeld_fab (n : Nat) (x : Meld) (s : State) : (setMeld n x s).fab = s.fab := rfl
@[simp] theorem setMeld_fabc (n : Nat) (x : Meld) (s : State) : (setMeld n x s).fabc = s.fabc := rfl
@[simp] theorem setMeld_idx (n : Nat) (x : Meld) (s : State) : (setMeld n x s).idx = s.idx := rfl
@[simp] theorem setMeld_cam (n : Nat) (x : Meld) (s : State) : (setMeld n x s).cam = s.cam := rfl
@[simp] theorem setMeld_mem (n : Nat) (x : Meld) (s : State) : (setMeld n x s).mem = s.mem := rfl
@[simp] theorem setMeld_xts (n : Nat) (x : Meld) (s : State) : (setMeld n x s).xts = s.xts := rfl
@[simp] theorem setMeld_pwr (n : Nat) (x : Meld) (s : State) : (setMeld n x s).pwr = s.pwr := rfl
@[simp] theorem setMeld_upd (n : Nat) (x : Meld) (s : State) : (setMeld n x s).upd = s.upd := rfl
@[simp] theorem setMeld_evr (n : Nat) (x : Meld) (s : State) : (setMeld n x s).evr = s.evr := rfl
@[simp] theorem setMeld_ist (n : Nat) (x : Meld) (s : State) : (setMeld n x s).ist = s.ist := rfl
@[simp] theorem setMeld_frz (n : Nat) (x : Meld) (s : State) : (setMeld n x s).frz = s.frz := rfl
@[simp] theorem setMeld_out (n : Nat) (x : Meld) (s : State) : (setMeld n x s).out = s.out := rfl
@[simp] theorem setMeld_draws (n : Nat) (x : Meld) (s : State) : (setMeld n x s).draws = s.draws := rfl
@[simp] theorem meldAt_setMeld_same (n : Nat) (x : Meld) (s : State) : meldAt (setMeld n x s) n = x := by
  simp only [meldAt, setMeld, tget_tset_same]
theorem meldAt_setMeld_ne (n : Nat) (x : Meld) (s : State) (k : Nat) (h : k ≠ n) : meldAt (setMeld n x s) k = meldAt s k := by
  simp only [meldAt, setMeld]; exact tget_tset_ne _ _ _ h

@[simp] theorem setDie_pending (n : Nat) (x : Die) (s : State) : (setDie n x s).pending = s.pending := rfl
@[simp] theorem setDie_clk (n : Nat) (x : Die) (s : State) : (setDie n x s).clk = s.clk := rfl
@[simp] theorem setDie_boot (n : Nat) (x : Die) (s : State) : (setDie n x s).boot = s.boot := rfl
@[simp] theorem setDie_cores (n : Nat) (x : Die) (s : State) : (setDie n x s).cores = s.cores := rfl
@[simp] theorem setDie_buf (n : Nat) (x : Die) (s : State) : (setDie n x s).buf = s.buf := rfl
@[simp] theorem setDie_dlr (n : Nat) (x : Die) (s : State) : (setDie n x s).dlr = s.dlr := rfl
@[simp] theorem setDie_jnl (n : Nat) (x : Die) (s : State) : (setDie n x s).jnl = s.jnl := rfl
@[simp] theorem setDie_sessions (n : Nat) (x : Die) (s : State) : (setDie n x s).sessions = s.sessions := rfl
@[simp] theorem setDie_nss (n : Nat) (x : Die) (s : State) : (setDie n x s).nss = s.nss := rfl
@[simp] theorem setDie_commits (n : Nat) (x : Die) (s : State) : (setDie n x s).commits = s.commits := rfl
@[simp] theorem setDie_ante (n : Nat) (x : Die) (s : State) : (setDie n x s).ante = s.ante := rfl
@[simp] theorem setDie_host (n : Nat) (x : Die) (s : State) : (setDie n x s).host = s.host := rfl
@[simp] theorem setDie_lanes (n : Nat) (x : Die) (s : State) : (setDie n x s).lanes = s.lanes := rfl
@[simp] theorem setDie_wake (n : Nat) (x : Die) (s : State) : (setDie n x s).wake = s.wake := rfl
@[simp] theorem setDie_fab (n : Nat) (x : Die) (s : State) : (setDie n x s).fab = s.fab := rfl
@[simp] theorem setDie_fabc (n : Nat) (x : Die) (s : State) : (setDie n x s).fabc = s.fabc := rfl
@[simp] theorem setDie_idx (n : Nat) (x : Die) (s : State) : (setDie n x s).idx = s.idx := rfl
@[simp] theorem setDie_cam (n : Nat) (x : Die) (s : State) : (setDie n x s).cam = s.cam := rfl
@[simp] theorem setDie_mem (n : Nat) (x : Die) (s : State) : (setDie n x s).mem = s.mem := rfl
@[simp] theorem setDie_xts (n : Nat) (x : Die) (s : State) : (setDie n x s).xts = s.xts := rfl
@[simp] theorem setDie_pwr (n : Nat) (x : Die) (s : State) : (setDie n x s).pwr = s.pwr := rfl
@[simp] theorem setDie_upd (n : Nat) (x : Die) (s : State) : (setDie n x s).upd = s.upd := rfl
@[simp] theorem setDie_evr (n : Nat) (x : Die) (s : State) : (setDie n x s).evr = s.evr := rfl
@[simp] theorem setDie_ist (n : Nat) (x : Die) (s : State) : (setDie n x s).ist = s.ist := rfl
@[simp] theorem setDie_frz (n : Nat) (x : Die) (s : State) : (setDie n x s).frz = s.frz := rfl
@[simp] theorem setDie_out (n : Nat) (x : Die) (s : State) : (setDie n x s).out = s.out := rfl
@[simp] theorem setDie_draws (n : Nat) (x : Die) (s : State) : (setDie n x s).draws = s.draws := rfl
@[simp] theorem dieAt_setDie_same (n : Nat) (x : Die) (s : State) : dieAt (setDie n x s) n = x := by
  simp only [dieAt, setDie, tget_tset_same]
theorem dieAt_setDie_ne (n : Nat) (x : Die) (s : State) (k : Nat) (h : k ≠ n) : dieAt (setDie n x s) k = dieAt s k := by
  simp only [dieAt, setDie]; exact tget_tset_ne _ _ _ h

@[simp] theorem setBlk_pending (n : Nat) (x : Blk) (s : State) : (setBlk n x s).pending = s.pending := rfl
@[simp] theorem setBlk_clk (n : Nat) (x : Blk) (s : State) : (setBlk n x s).clk = s.clk := rfl
@[simp] theorem setBlk_boot (n : Nat) (x : Blk) (s : State) : (setBlk n x s).boot = s.boot := rfl
@[simp] theorem setBlk_cores (n : Nat) (x : Blk) (s : State) : (setBlk n x s).cores = s.cores := rfl
@[simp] theorem setBlk_buf (n : Nat) (x : Blk) (s : State) : (setBlk n x s).buf = s.buf := rfl
@[simp] theorem setBlk_dlr (n : Nat) (x : Blk) (s : State) : (setBlk n x s).dlr = s.dlr := rfl
@[simp] theorem setBlk_jnl (n : Nat) (x : Blk) (s : State) : (setBlk n x s).jnl = s.jnl := rfl
@[simp] theorem setBlk_sessions (n : Nat) (x : Blk) (s : State) : (setBlk n x s).sessions = s.sessions := rfl
@[simp] theorem setBlk_nss (n : Nat) (x : Blk) (s : State) : (setBlk n x s).nss = s.nss := rfl
@[simp] theorem setBlk_commits (n : Nat) (x : Blk) (s : State) : (setBlk n x s).commits = s.commits := rfl
@[simp] theorem setBlk_ante (n : Nat) (x : Blk) (s : State) : (setBlk n x s).ante = s.ante := rfl
@[simp] theorem setBlk_host (n : Nat) (x : Blk) (s : State) : (setBlk n x s).host = s.host := rfl
@[simp] theorem setBlk_lanes (n : Nat) (x : Blk) (s : State) : (setBlk n x s).lanes = s.lanes := rfl
@[simp] theorem setBlk_wake (n : Nat) (x : Blk) (s : State) : (setBlk n x s).wake = s.wake := rfl
@[simp] theorem setBlk_fab (n : Nat) (x : Blk) (s : State) : (setBlk n x s).fab = s.fab := rfl
@[simp] theorem setBlk_fabc (n : Nat) (x : Blk) (s : State) : (setBlk n x s).fabc = s.fabc := rfl
@[simp] theorem setBlk_idx (n : Nat) (x : Blk) (s : State) : (setBlk n x s).idx = s.idx := rfl
@[simp] theorem setBlk_cam (n : Nat) (x : Blk) (s : State) : (setBlk n x s).cam = s.cam := rfl
@[simp] theorem setBlk_mem (n : Nat) (x : Blk) (s : State) : (setBlk n x s).mem = s.mem := rfl
@[simp] theorem setBlk_xts (n : Nat) (x : Blk) (s : State) : (setBlk n x s).xts = s.xts := rfl
@[simp] theorem setBlk_pwr (n : Nat) (x : Blk) (s : State) : (setBlk n x s).pwr = s.pwr := rfl
@[simp] theorem setBlk_upd (n : Nat) (x : Blk) (s : State) : (setBlk n x s).upd = s.upd := rfl
@[simp] theorem setBlk_evr (n : Nat) (x : Blk) (s : State) : (setBlk n x s).evr = s.evr := rfl
@[simp] theorem setBlk_ist (n : Nat) (x : Blk) (s : State) : (setBlk n x s).ist = s.ist := rfl
@[simp] theorem setBlk_frz (n : Nat) (x : Blk) (s : State) : (setBlk n x s).frz = s.frz := rfl
@[simp] theorem setBlk_out (n : Nat) (x : Blk) (s : State) : (setBlk n x s).out = s.out := rfl
@[simp] theorem setBlk_draws (n : Nat) (x : Blk) (s : State) : (setBlk n x s).draws = s.draws := rfl
@[simp] theorem blkAt_setBlk_same (n : Nat) (x : Blk) (s : State) : blkAt (setBlk n x s) n = x := by
  simp only [blkAt, setBlk, tget_tset_same]
theorem blkAt_setBlk_ne (n : Nat) (x : Blk) (s : State) (k : Nat) (h : k ≠ n) : blkAt (setBlk n x s) k = blkAt s k := by
  simp only [blkAt, setBlk]; exact tget_tset_ne _ _ _ h

@[simp] theorem setBank_pending (n : Nat) (x : Bank) (s : State) : (setBank n x s).pending = s.pending := rfl
@[simp] theorem setBank_clk (n : Nat) (x : Bank) (s : State) : (setBank n x s).clk = s.clk := rfl
@[simp] theorem setBank_boot (n : Nat) (x : Bank) (s : State) : (setBank n x s).boot = s.boot := rfl
@[simp] theorem setBank_cores (n : Nat) (x : Bank) (s : State) : (setBank n x s).cores = s.cores := rfl
@[simp] theorem setBank_buf (n : Nat) (x : Bank) (s : State) : (setBank n x s).buf = s.buf := rfl
@[simp] theorem setBank_dlr (n : Nat) (x : Bank) (s : State) : (setBank n x s).dlr = s.dlr := rfl
@[simp] theorem setBank_jnl (n : Nat) (x : Bank) (s : State) : (setBank n x s).jnl = s.jnl := rfl
@[simp] theorem setBank_sessions (n : Nat) (x : Bank) (s : State) : (setBank n x s).sessions = s.sessions := rfl
@[simp] theorem setBank_nss (n : Nat) (x : Bank) (s : State) : (setBank n x s).nss = s.nss := rfl
@[simp] theorem setBank_commits (n : Nat) (x : Bank) (s : State) : (setBank n x s).commits = s.commits := rfl
@[simp] theorem setBank_ante (n : Nat) (x : Bank) (s : State) : (setBank n x s).ante = s.ante := rfl
@[simp] theorem setBank_host (n : Nat) (x : Bank) (s : State) : (setBank n x s).host = s.host := rfl
@[simp] theorem setBank_lanes (n : Nat) (x : Bank) (s : State) : (setBank n x s).lanes = s.lanes := rfl
@[simp] theorem setBank_wake (n : Nat) (x : Bank) (s : State) : (setBank n x s).wake = s.wake := rfl
@[simp] theorem setBank_fab (n : Nat) (x : Bank) (s : State) : (setBank n x s).fab = s.fab := rfl
@[simp] theorem setBank_fabc (n : Nat) (x : Bank) (s : State) : (setBank n x s).fabc = s.fabc := rfl
@[simp] theorem setBank_idx (n : Nat) (x : Bank) (s : State) : (setBank n x s).idx = s.idx := rfl
@[simp] theorem setBank_med (n : Nat) (x : Bank) (s : State) : (setBank n x s).med = s.med := rfl
@[simp] theorem setBank_mem (n : Nat) (x : Bank) (s : State) : (setBank n x s).mem = s.mem := rfl
@[simp] theorem setBank_xts (n : Nat) (x : Bank) (s : State) : (setBank n x s).xts = s.xts := rfl
@[simp] theorem setBank_pwr (n : Nat) (x : Bank) (s : State) : (setBank n x s).pwr = s.pwr := rfl
@[simp] theorem setBank_upd (n : Nat) (x : Bank) (s : State) : (setBank n x s).upd = s.upd := rfl
@[simp] theorem setBank_evr (n : Nat) (x : Bank) (s : State) : (setBank n x s).evr = s.evr := rfl
@[simp] theorem setBank_ist (n : Nat) (x : Bank) (s : State) : (setBank n x s).ist = s.ist := rfl
@[simp] theorem setBank_frz (n : Nat) (x : Bank) (s : State) : (setBank n x s).frz = s.frz := rfl
@[simp] theorem setBank_out (n : Nat) (x : Bank) (s : State) : (setBank n x s).out = s.out := rfl
@[simp] theorem setBank_draws (n : Nat) (x : Bank) (s : State) : (setBank n x s).draws = s.draws := rfl
@[simp] theorem bankAt_setBank_same (n : Nat) (x : Bank) (s : State) : bankAt (setBank n x s) n = x := by
  simp only [bankAt, setBank, tget_tset_same]
theorem bankAt_setBank_ne (n : Nat) (x : Bank) (s : State) (k : Nat) (h : k ≠ n) : bankAt (setBank n x s) k = bankAt s k := by
  simp only [bankAt, setBank]; exact tget_tset_ne _ _ _ h

@[simp] theorem setChan_pending (n : Nat) (x : Channel) (s : State) : (setChan n x s).pending = s.pending := rfl
@[simp] theorem setChan_clk (n : Nat) (x : Channel) (s : State) : (setChan n x s).clk = s.clk := rfl
@[simp] theorem setChan_boot (n : Nat) (x : Channel) (s : State) : (setChan n x s).boot = s.boot := rfl
@[simp] theorem setChan_cores (n : Nat) (x : Channel) (s : State) : (setChan n x s).cores = s.cores := rfl
@[simp] theorem setChan_buf (n : Nat) (x : Channel) (s : State) : (setChan n x s).buf = s.buf := rfl
@[simp] theorem setChan_dlr (n : Nat) (x : Channel) (s : State) : (setChan n x s).dlr = s.dlr := rfl
@[simp] theorem setChan_jnl (n : Nat) (x : Channel) (s : State) : (setChan n x s).jnl = s.jnl := rfl
@[simp] theorem setChan_sessions (n : Nat) (x : Channel) (s : State) : (setChan n x s).sessions = s.sessions := rfl
@[simp] theorem setChan_nss (n : Nat) (x : Channel) (s : State) : (setChan n x s).nss = s.nss := rfl
@[simp] theorem setChan_commits (n : Nat) (x : Channel) (s : State) : (setChan n x s).commits = s.commits := rfl
@[simp] theorem setChan_ante (n : Nat) (x : Channel) (s : State) : (setChan n x s).ante = s.ante := rfl
@[simp] theorem setChan_host (n : Nat) (x : Channel) (s : State) : (setChan n x s).host = s.host := rfl
@[simp] theorem setChan_lanes (n : Nat) (x : Channel) (s : State) : (setChan n x s).lanes = s.lanes := rfl
@[simp] theorem setChan_wake (n : Nat) (x : Channel) (s : State) : (setChan n x s).wake = s.wake := rfl
@[simp] theorem setChan_fab (n : Nat) (x : Channel) (s : State) : (setChan n x s).fab = s.fab := rfl
@[simp] theorem setChan_fabc (n : Nat) (x : Channel) (s : State) : (setChan n x s).fabc = s.fabc := rfl
@[simp] theorem setChan_idx (n : Nat) (x : Channel) (s : State) : (setChan n x s).idx = s.idx := rfl
@[simp] theorem setChan_cam (n : Nat) (x : Channel) (s : State) : (setChan n x s).cam = s.cam := rfl
@[simp] theorem setChan_med (n : Nat) (x : Channel) (s : State) : (setChan n x s).med = s.med := rfl
@[simp] theorem setChan_xts (n : Nat) (x : Channel) (s : State) : (setChan n x s).xts = s.xts := rfl
@[simp] theorem setChan_pwr (n : Nat) (x : Channel) (s : State) : (setChan n x s).pwr = s.pwr := rfl
@[simp] theorem setChan_upd (n : Nat) (x : Channel) (s : State) : (setChan n x s).upd = s.upd := rfl
@[simp] theorem setChan_evr (n : Nat) (x : Channel) (s : State) : (setChan n x s).evr = s.evr := rfl
@[simp] theorem setChan_ist (n : Nat) (x : Channel) (s : State) : (setChan n x s).ist = s.ist := rfl
@[simp] theorem setChan_frz (n : Nat) (x : Channel) (s : State) : (setChan n x s).frz = s.frz := rfl
@[simp] theorem setChan_out (n : Nat) (x : Channel) (s : State) : (setChan n x s).out = s.out := rfl
@[simp] theorem setChan_draws (n : Nat) (x : Channel) (s : State) : (setChan n x s).draws = s.draws := rfl
@[simp] theorem chanAt_setChan_same (n : Nat) (x : Channel) (s : State) : chanAt (setChan n x s) n = x := by
  simp only [chanAt, setChan, tget_tset_same]
theorem chanAt_setChan_ne (n : Nat) (x : Channel) (s : State) (k : Nat) (h : k ≠ n) : chanAt (setChan n x s) k = chanAt s k := by
  simp only [chanAt, setChan]; exact tget_tset_ne _ _ _ h

@[simp] theorem setEngine_pending (n : Nat) (x : Engine) (s : State) : (setEngine n x s).pending = s.pending := rfl
@[simp] theorem setEngine_clk (n : Nat) (x : Engine) (s : State) : (setEngine n x s).clk = s.clk := rfl
@[simp] theorem setEngine_boot (n : Nat) (x : Engine) (s : State) : (setEngine n x s).boot = s.boot := rfl
@[simp] theorem setEngine_cores (n : Nat) (x : Engine) (s : State) : (setEngine n x s).cores = s.cores := rfl
@[simp] theorem setEngine_buf (n : Nat) (x : Engine) (s : State) : (setEngine n x s).buf = s.buf := rfl
@[simp] theorem setEngine_dlr (n : Nat) (x : Engine) (s : State) : (setEngine n x s).dlr = s.dlr := rfl
@[simp] theorem setEngine_jnl (n : Nat) (x : Engine) (s : State) : (setEngine n x s).jnl = s.jnl := rfl
@[simp] theorem setEngine_sessions (n : Nat) (x : Engine) (s : State) : (setEngine n x s).sessions = s.sessions := rfl
@[simp] theorem setEngine_nss (n : Nat) (x : Engine) (s : State) : (setEngine n x s).nss = s.nss := rfl
@[simp] theorem setEngine_commits (n : Nat) (x : Engine) (s : State) : (setEngine n x s).commits = s.commits := rfl
@[simp] theorem setEngine_ante (n : Nat) (x : Engine) (s : State) : (setEngine n x s).ante = s.ante := rfl
@[simp] theorem setEngine_host (n : Nat) (x : Engine) (s : State) : (setEngine n x s).host = s.host := rfl
@[simp] theorem setEngine_lanes (n : Nat) (x : Engine) (s : State) : (setEngine n x s).lanes = s.lanes := rfl
@[simp] theorem setEngine_wake (n : Nat) (x : Engine) (s : State) : (setEngine n x s).wake = s.wake := rfl
@[simp] theorem setEngine_fab (n : Nat) (x : Engine) (s : State) : (setEngine n x s).fab = s.fab := rfl
@[simp] theorem setEngine_fabc (n : Nat) (x : Engine) (s : State) : (setEngine n x s).fabc = s.fabc := rfl
@[simp] theorem setEngine_idx (n : Nat) (x : Engine) (s : State) : (setEngine n x s).idx = s.idx := rfl
@[simp] theorem setEngine_cam (n : Nat) (x : Engine) (s : State) : (setEngine n x s).cam = s.cam := rfl
@[simp] theorem setEngine_med (n : Nat) (x : Engine) (s : State) : (setEngine n x s).med = s.med := rfl
@[simp] theorem setEngine_mem (n : Nat) (x : Engine) (s : State) : (setEngine n x s).mem = s.mem := rfl
@[simp] theorem setEngine_pwr (n : Nat) (x : Engine) (s : State) : (setEngine n x s).pwr = s.pwr := rfl
@[simp] theorem setEngine_upd (n : Nat) (x : Engine) (s : State) : (setEngine n x s).upd = s.upd := rfl
@[simp] theorem setEngine_evr (n : Nat) (x : Engine) (s : State) : (setEngine n x s).evr = s.evr := rfl
@[simp] theorem setEngine_ist (n : Nat) (x : Engine) (s : State) : (setEngine n x s).ist = s.ist := rfl
@[simp] theorem setEngine_frz (n : Nat) (x : Engine) (s : State) : (setEngine n x s).frz = s.frz := rfl
@[simp] theorem setEngine_out (n : Nat) (x : Engine) (s : State) : (setEngine n x s).out = s.out := rfl
@[simp] theorem setEngine_draws (n : Nat) (x : Engine) (s : State) : (setEngine n x s).draws = s.draws := rfl
@[simp] theorem engineAt_setEngine_same (n : Nat) (x : Engine) (s : State) : engineAt (setEngine n x s) n = x := by
  simp only [engineAt, setEngine, tget_tset_same]
theorem engineAt_setEngine_ne (n : Nat) (x : Engine) (s : State) (k : Nat) (h : k ≠ n) : engineAt (setEngine n x s) k = engineAt s k := by
  simp only [engineAt, setEngine]; exact tget_tset_ne _ _ _ h

@[simp] theorem setCtx_pending (n : Nat) (x : Ctx) (s : State) : (setCtx n x s).pending = s.pending := rfl
@[simp] theorem setCtx_clk (n : Nat) (x : Ctx) (s : State) : (setCtx n x s).clk = s.clk := rfl
@[simp] theorem setCtx_boot (n : Nat) (x : Ctx) (s : State) : (setCtx n x s).boot = s.boot := rfl
@[simp] theorem setCtx_cores (n : Nat) (x : Ctx) (s : State) : (setCtx n x s).cores = s.cores := rfl
@[simp] theorem setCtx_buf (n : Nat) (x : Ctx) (s : State) : (setCtx n x s).buf = s.buf := rfl
@[simp] theorem setCtx_dlr (n : Nat) (x : Ctx) (s : State) : (setCtx n x s).dlr = s.dlr := rfl
@[simp] theorem setCtx_jnl (n : Nat) (x : Ctx) (s : State) : (setCtx n x s).jnl = s.jnl := rfl
@[simp] theorem setCtx_sessions (n : Nat) (x : Ctx) (s : State) : (setCtx n x s).sessions = s.sessions := rfl
@[simp] theorem setCtx_nss (n : Nat) (x : Ctx) (s : State) : (setCtx n x s).nss = s.nss := rfl
@[simp] theorem setCtx_commits (n : Nat) (x : Ctx) (s : State) : (setCtx n x s).commits = s.commits := rfl
@[simp] theorem setCtx_ante (n : Nat) (x : Ctx) (s : State) : (setCtx n x s).ante = s.ante := rfl
@[simp] theorem setCtx_lanes (n : Nat) (x : Ctx) (s : State) : (setCtx n x s).lanes = s.lanes := rfl
@[simp] theorem setCtx_wake (n : Nat) (x : Ctx) (s : State) : (setCtx n x s).wake = s.wake := rfl
@[simp] theorem setCtx_fab (n : Nat) (x : Ctx) (s : State) : (setCtx n x s).fab = s.fab := rfl
@[simp] theorem setCtx_fabc (n : Nat) (x : Ctx) (s : State) : (setCtx n x s).fabc = s.fabc := rfl
@[simp] theorem setCtx_idx (n : Nat) (x : Ctx) (s : State) : (setCtx n x s).idx = s.idx := rfl
@[simp] theorem setCtx_cam (n : Nat) (x : Ctx) (s : State) : (setCtx n x s).cam = s.cam := rfl
@[simp] theorem setCtx_med (n : Nat) (x : Ctx) (s : State) : (setCtx n x s).med = s.med := rfl
@[simp] theorem setCtx_mem (n : Nat) (x : Ctx) (s : State) : (setCtx n x s).mem = s.mem := rfl
@[simp] theorem setCtx_xts (n : Nat) (x : Ctx) (s : State) : (setCtx n x s).xts = s.xts := rfl
@[simp] theorem setCtx_pwr (n : Nat) (x : Ctx) (s : State) : (setCtx n x s).pwr = s.pwr := rfl
@[simp] theorem setCtx_upd (n : Nat) (x : Ctx) (s : State) : (setCtx n x s).upd = s.upd := rfl
@[simp] theorem setCtx_evr (n : Nat) (x : Ctx) (s : State) : (setCtx n x s).evr = s.evr := rfl
@[simp] theorem setCtx_ist (n : Nat) (x : Ctx) (s : State) : (setCtx n x s).ist = s.ist := rfl
@[simp] theorem setCtx_frz (n : Nat) (x : Ctx) (s : State) : (setCtx n x s).frz = s.frz := rfl
@[simp] theorem setCtx_out (n : Nat) (x : Ctx) (s : State) : (setCtx n x s).out = s.out := rfl
@[simp] theorem setCtx_draws (n : Nat) (x : Ctx) (s : State) : (setCtx n x s).draws = s.draws := rfl
@[simp] theorem ctxAt_setCtx_same (n : Nat) (x : Ctx) (s : State) : ctxAt (setCtx n x s) n = x := by
  simp only [ctxAt, setCtx, tget_tset_same]
theorem ctxAt_setCtx_ne (n : Nat) (x : Ctx) (s : State) (k : Nat) (h : k ≠ n) : ctxAt (setCtx n x s) k = ctxAt s k := by
  simp only [ctxAt, setCtx]; exact tget_tset_ne _ _ _ h

@[simp] theorem setBox_pending (n : Nat) (x : Mailbox) (s : State) : (setBox n x s).pending = s.pending := rfl
@[simp] theorem setBox_clk (n : Nat) (x : Mailbox) (s : State) : (setBox n x s).clk = s.clk := rfl
@[simp] theorem setBox_boot (n : Nat) (x : Mailbox) (s : State) : (setBox n x s).boot = s.boot := rfl
@[simp] theorem setBox_cores (n : Nat) (x : Mailbox) (s : State) : (setBox n x s).cores = s.cores := rfl
@[simp] theorem setBox_buf (n : Nat) (x : Mailbox) (s : State) : (setBox n x s).buf = s.buf := rfl
@[simp] theorem setBox_dlr (n : Nat) (x : Mailbox) (s : State) : (setBox n x s).dlr = s.dlr := rfl
@[simp] theorem setBox_jnl (n : Nat) (x : Mailbox) (s : State) : (setBox n x s).jnl = s.jnl := rfl
@[simp] theorem setBox_sessions (n : Nat) (x : Mailbox) (s : State) : (setBox n x s).sessions = s.sessions := rfl
@[simp] theorem setBox_nss (n : Nat) (x : Mailbox) (s : State) : (setBox n x s).nss = s.nss := rfl
@[simp] theorem setBox_commits (n : Nat) (x : Mailbox) (s : State) : (setBox n x s).commits = s.commits := rfl
@[simp] theorem setBox_ante (n : Nat) (x : Mailbox) (s : State) : (setBox n x s).ante = s.ante := rfl
@[simp] theorem setBox_lanes (n : Nat) (x : Mailbox) (s : State) : (setBox n x s).lanes = s.lanes := rfl
@[simp] theorem setBox_wake (n : Nat) (x : Mailbox) (s : State) : (setBox n x s).wake = s.wake := rfl
@[simp] theorem setBox_fab (n : Nat) (x : Mailbox) (s : State) : (setBox n x s).fab = s.fab := rfl
@[simp] theorem setBox_fabc (n : Nat) (x : Mailbox) (s : State) : (setBox n x s).fabc = s.fabc := rfl
@[simp] theorem setBox_idx (n : Nat) (x : Mailbox) (s : State) : (setBox n x s).idx = s.idx := rfl
@[simp] theorem setBox_cam (n : Nat) (x : Mailbox) (s : State) : (setBox n x s).cam = s.cam := rfl
@[simp] theorem setBox_med (n : Nat) (x : Mailbox) (s : State) : (setBox n x s).med = s.med := rfl
@[simp] theorem setBox_mem (n : Nat) (x : Mailbox) (s : State) : (setBox n x s).mem = s.mem := rfl
@[simp] theorem setBox_xts (n : Nat) (x : Mailbox) (s : State) : (setBox n x s).xts = s.xts := rfl
@[simp] theorem setBox_pwr (n : Nat) (x : Mailbox) (s : State) : (setBox n x s).pwr = s.pwr := rfl
@[simp] theorem setBox_upd (n : Nat) (x : Mailbox) (s : State) : (setBox n x s).upd = s.upd := rfl
@[simp] theorem setBox_evr (n : Nat) (x : Mailbox) (s : State) : (setBox n x s).evr = s.evr := rfl
@[simp] theorem setBox_ist (n : Nat) (x : Mailbox) (s : State) : (setBox n x s).ist = s.ist := rfl
@[simp] theorem setBox_frz (n : Nat) (x : Mailbox) (s : State) : (setBox n x s).frz = s.frz := rfl
@[simp] theorem setBox_out (n : Nat) (x : Mailbox) (s : State) : (setBox n x s).out = s.out := rfl
@[simp] theorem setBox_draws (n : Nat) (x : Mailbox) (s : State) : (setBox n x s).draws = s.draws := rfl
@[simp] theorem boxAt_setBox_same (n : Nat) (x : Mailbox) (s : State) : boxAt (setBox n x s) n = x := by
  simp only [boxAt, setBox, tget_tset_same]
theorem boxAt_setBox_ne (n : Nat) (x : Mailbox) (s : State) (k : Nat) (h : k ≠ n) : boxAt (setBox n x s) k = boxAt s k := by
  simp only [boxAt, setBox]; exact tget_tset_ne _ _ _ h

@[simp] theorem setTask_pending (n : Nat) (x : Task) (s : State) : (setTask n x s).pending = s.pending := rfl
@[simp] theorem setTask_clk (n : Nat) (x : Task) (s : State) : (setTask n x s).clk = s.clk := rfl
@[simp] theorem setTask_boot (n : Nat) (x : Task) (s : State) : (setTask n x s).boot = s.boot := rfl
@[simp] theorem setTask_cores (n : Nat) (x : Task) (s : State) : (setTask n x s).cores = s.cores := rfl
@[simp] theorem setTask_buf (n : Nat) (x : Task) (s : State) : (setTask n x s).buf = s.buf := rfl
@[simp] theorem setTask_dlr (n : Nat) (x : Task) (s : State) : (setTask n x s).dlr = s.dlr := rfl
@[simp] theorem setTask_jnl (n : Nat) (x : Task) (s : State) : (setTask n x s).jnl = s.jnl := rfl
@[simp] theorem setTask_sessions (n : Nat) (x : Task) (s : State) : (setTask n x s).sessions = s.sessions := rfl
@[simp] theorem setTask_nss (n : Nat) (x : Task) (s : State) : (setTask n x s).nss = s.nss := rfl
@[simp] theorem setTask_commits (n : Nat) (x : Task) (s : State) : (setTask n x s).commits = s.commits := rfl
@[simp] theorem setTask_ante (n : Nat) (x : Task) (s : State) : (setTask n x s).ante = s.ante := rfl
@[simp] theorem setTask_lanes (n : Nat) (x : Task) (s : State) : (setTask n x s).lanes = s.lanes := rfl
@[simp] theorem setTask_wake (n : Nat) (x : Task) (s : State) : (setTask n x s).wake = s.wake := rfl
@[simp] theorem setTask_fab (n : Nat) (x : Task) (s : State) : (setTask n x s).fab = s.fab := rfl
@[simp] theorem setTask_fabc (n : Nat) (x : Task) (s : State) : (setTask n x s).fabc = s.fabc := rfl
@[simp] theorem setTask_idx (n : Nat) (x : Task) (s : State) : (setTask n x s).idx = s.idx := rfl
@[simp] theorem setTask_cam (n : Nat) (x : Task) (s : State) : (setTask n x s).cam = s.cam := rfl
@[simp] theorem setTask_med (n : Nat) (x : Task) (s : State) : (setTask n x s).med = s.med := rfl
@[simp] theorem setTask_mem (n : Nat) (x : Task) (s : State) : (setTask n x s).mem = s.mem := rfl
@[simp] theorem setTask_xts (n : Nat) (x : Task) (s : State) : (setTask n x s).xts = s.xts := rfl
@[simp] theorem setTask_pwr (n : Nat) (x : Task) (s : State) : (setTask n x s).pwr = s.pwr := rfl
@[simp] theorem setTask_upd (n : Nat) (x : Task) (s : State) : (setTask n x s).upd = s.upd := rfl
@[simp] theorem setTask_evr (n : Nat) (x : Task) (s : State) : (setTask n x s).evr = s.evr := rfl
@[simp] theorem setTask_ist (n : Nat) (x : Task) (s : State) : (setTask n x s).ist = s.ist := rfl
@[simp] theorem setTask_frz (n : Nat) (x : Task) (s : State) : (setTask n x s).frz = s.frz := rfl
@[simp] theorem setTask_out (n : Nat) (x : Task) (s : State) : (setTask n x s).out = s.out := rfl
@[simp] theorem setTask_draws (n : Nat) (x : Task) (s : State) : (setTask n x s).draws = s.draws := rfl
@[simp] theorem taskAt_setTask_same (n : Nat) (x : Task) (s : State) : taskAt (setTask n x s) n = x := by
  simp only [taskAt, setTask, tget_tset_same]
theorem taskAt_setTask_ne (n : Nat) (x : Task) (s : State) (k : Nat) (h : k ≠ n) : taskAt (setTask n x s) k = taskAt s k := by
  simp only [taskAt, setTask]; exact tget_tset_ne _ _ _ h

@[simp] theorem setTrunk_pending (n : Nat) (x : ClientTrunk) (s : State) : (setTrunk n x s).pending = s.pending := rfl
@[simp] theorem setTrunk_clk (n : Nat) (x : ClientTrunk) (s : State) : (setTrunk n x s).clk = s.clk := rfl
@[simp] theorem setTrunk_boot (n : Nat) (x : ClientTrunk) (s : State) : (setTrunk n x s).boot = s.boot := rfl
@[simp] theorem setTrunk_cores (n : Nat) (x : ClientTrunk) (s : State) : (setTrunk n x s).cores = s.cores := rfl
@[simp] theorem setTrunk_buf (n : Nat) (x : ClientTrunk) (s : State) : (setTrunk n x s).buf = s.buf := rfl
@[simp] theorem setTrunk_dlr (n : Nat) (x : ClientTrunk) (s : State) : (setTrunk n x s).dlr = s.dlr := rfl
@[simp] theorem setTrunk_jnl (n : Nat) (x : ClientTrunk) (s : State) : (setTrunk n x s).jnl = s.jnl := rfl
@[simp] theorem setTrunk_sessions (n : Nat) (x : ClientTrunk) (s : State) : (setTrunk n x s).sessions = s.sessions := rfl
@[simp] theorem setTrunk_nss (n : Nat) (x : ClientTrunk) (s : State) : (setTrunk n x s).nss = s.nss := rfl
@[simp] theorem setTrunk_commits (n : Nat) (x : ClientTrunk) (s : State) : (setTrunk n x s).commits = s.commits := rfl
@[simp] theorem setTrunk_ante (n : Nat) (x : ClientTrunk) (s : State) : (setTrunk n x s).ante = s.ante := rfl
@[simp] theorem setTrunk_host (n : Nat) (x : ClientTrunk) (s : State) : (setTrunk n x s).host = s.host := rfl
@[simp] theorem setTrunk_lanes (n : Nat) (x : ClientTrunk) (s : State) : (setTrunk n x s).lanes = s.lanes := rfl
@[simp] theorem setTrunk_wake (n : Nat) (x : ClientTrunk) (s : State) : (setTrunk n x s).wake = s.wake := rfl
@[simp] theorem setTrunk_fabc (n : Nat) (x : ClientTrunk) (s : State) : (setTrunk n x s).fabc = s.fabc := rfl
@[simp] theorem setTrunk_idx (n : Nat) (x : ClientTrunk) (s : State) : (setTrunk n x s).idx = s.idx := rfl
@[simp] theorem setTrunk_cam (n : Nat) (x : ClientTrunk) (s : State) : (setTrunk n x s).cam = s.cam := rfl
@[simp] theorem setTrunk_med (n : Nat) (x : ClientTrunk) (s : State) : (setTrunk n x s).med = s.med := rfl
@[simp] theorem setTrunk_mem (n : Nat) (x : ClientTrunk) (s : State) : (setTrunk n x s).mem = s.mem := rfl
@[simp] theorem setTrunk_xts (n : Nat) (x : ClientTrunk) (s : State) : (setTrunk n x s).xts = s.xts := rfl
@[simp] theorem setTrunk_pwr (n : Nat) (x : ClientTrunk) (s : State) : (setTrunk n x s).pwr = s.pwr := rfl
@[simp] theorem setTrunk_upd (n : Nat) (x : ClientTrunk) (s : State) : (setTrunk n x s).upd = s.upd := rfl
@[simp] theorem setTrunk_evr (n : Nat) (x : ClientTrunk) (s : State) : (setTrunk n x s).evr = s.evr := rfl
@[simp] theorem setTrunk_ist (n : Nat) (x : ClientTrunk) (s : State) : (setTrunk n x s).ist = s.ist := rfl
@[simp] theorem setTrunk_frz (n : Nat) (x : ClientTrunk) (s : State) : (setTrunk n x s).frz = s.frz := rfl
@[simp] theorem setTrunk_out (n : Nat) (x : ClientTrunk) (s : State) : (setTrunk n x s).out = s.out := rfl
@[simp] theorem setTrunk_draws (n : Nat) (x : ClientTrunk) (s : State) : (setTrunk n x s).draws = s.draws := rfl
@[simp] theorem trunkAt_setTrunk_same (n : Nat) (x : ClientTrunk) (s : State) : trunkAt (setTrunk n x s) n = x := by
  simp only [trunkAt, setTrunk, tget_tset_same]
theorem trunkAt_setTrunk_ne (n : Nat) (x : ClientTrunk) (s : State) (k : Nat) (h : k ≠ n) : trunkAt (setTrunk n x s) k = trunkAt s k := by
  simp only [trunkAt, setTrunk]; exact tget_tset_ne _ _ _ h

@[simp] theorem emit_pending (o : Out) (s : State) : (emit o s).pending = s.pending := rfl
@[simp] theorem emit_clk (o : Out) (s : State) : (emit o s).clk = s.clk := rfl
@[simp] theorem emit_boot (o : Out) (s : State) : (emit o s).boot = s.boot := rfl
@[simp] theorem emit_cores (o : Out) (s : State) : (emit o s).cores = s.cores := rfl
@[simp] theorem emit_buf (o : Out) (s : State) : (emit o s).buf = s.buf := rfl
@[simp] theorem emit_dlr (o : Out) (s : State) : (emit o s).dlr = s.dlr := rfl
@[simp] theorem emit_jnl (o : Out) (s : State) : (emit o s).jnl = s.jnl := rfl
@[simp] theorem emit_sessions (o : Out) (s : State) : (emit o s).sessions = s.sessions := rfl
@[simp] theorem emit_nss (o : Out) (s : State) : (emit o s).nss = s.nss := rfl
@[simp] theorem emit_commits (o : Out) (s : State) : (emit o s).commits = s.commits := rfl
@[simp] theorem emit_ante (o : Out) (s : State) : (emit o s).ante = s.ante := rfl
@[simp] theorem emit_host (o : Out) (s : State) : (emit o s).host = s.host := rfl
@[simp] theorem emit_lanes (o : Out) (s : State) : (emit o s).lanes = s.lanes := rfl
@[simp] theorem emit_wake (o : Out) (s : State) : (emit o s).wake = s.wake := rfl
@[simp] theorem emit_fab (o : Out) (s : State) : (emit o s).fab = s.fab := rfl
@[simp] theorem emit_fabc (o : Out) (s : State) : (emit o s).fabc = s.fabc := rfl
@[simp] theorem emit_idx (o : Out) (s : State) : (emit o s).idx = s.idx := rfl
@[simp] theorem emit_cam (o : Out) (s : State) : (emit o s).cam = s.cam := rfl
@[simp] theorem emit_med (o : Out) (s : State) : (emit o s).med = s.med := rfl
@[simp] theorem emit_mem (o : Out) (s : State) : (emit o s).mem = s.mem := rfl
@[simp] theorem emit_xts (o : Out) (s : State) : (emit o s).xts = s.xts := rfl
@[simp] theorem emit_pwr (o : Out) (s : State) : (emit o s).pwr = s.pwr := rfl
@[simp] theorem emit_upd (o : Out) (s : State) : (emit o s).upd = s.upd := rfl
@[simp] theorem emit_evr (o : Out) (s : State) : (emit o s).evr = s.evr := rfl
@[simp] theorem emit_ist (o : Out) (s : State) : (emit o s).ist = s.ist := rfl
@[simp] theorem emit_frz (o : Out) (s : State) : (emit o s).frz = s.frz := rfl
@[simp] theorem emit_draws (o : Out) (s : State) : (emit o s).draws = s.draws := rfl

@[simp] theorem drawn_pending (s : State) : (drawn s).pending = s.pending := rfl
@[simp] theorem drawn_clk (s : State) : (drawn s).clk = s.clk := rfl
@[simp] theorem drawn_boot (s : State) : (drawn s).boot = s.boot := rfl
@[simp] theorem drawn_cores (s : State) : (drawn s).cores = s.cores := rfl
@[simp] theorem drawn_buf (s : State) : (drawn s).buf = s.buf := rfl
@[simp] theorem drawn_dlr (s : State) : (drawn s).dlr = s.dlr := rfl
@[simp] theorem drawn_jnl (s : State) : (drawn s).jnl = s.jnl := rfl
@[simp] theorem drawn_sessions (s : State) : (drawn s).sessions = s.sessions := rfl
@[simp] theorem drawn_nss (s : State) : (drawn s).nss = s.nss := rfl
@[simp] theorem drawn_commits (s : State) : (drawn s).commits = s.commits := rfl
@[simp] theorem drawn_ante (s : State) : (drawn s).ante = s.ante := rfl
@[simp] theorem drawn_host (s : State) : (drawn s).host = s.host := rfl
@[simp] theorem drawn_lanes (s : State) : (drawn s).lanes = s.lanes := rfl
@[simp] theorem drawn_wake (s : State) : (drawn s).wake = s.wake := rfl
@[simp] theorem drawn_fab (s : State) : (drawn s).fab = s.fab := rfl
@[simp] theorem drawn_fabc (s : State) : (drawn s).fabc = s.fabc := rfl
@[simp] theorem drawn_idx (s : State) : (drawn s).idx = s.idx := rfl
@[simp] theorem drawn_cam (s : State) : (drawn s).cam = s.cam := rfl
@[simp] theorem drawn_med (s : State) : (drawn s).med = s.med := rfl
@[simp] theorem drawn_mem (s : State) : (drawn s).mem = s.mem := rfl
@[simp] theorem drawn_xts (s : State) : (drawn s).xts = s.xts := rfl
@[simp] theorem drawn_pwr (s : State) : (drawn s).pwr = s.pwr := rfl
@[simp] theorem drawn_upd (s : State) : (drawn s).upd = s.upd := rfl
@[simp] theorem drawn_evr (s : State) : (drawn s).evr = s.evr := rfl
@[simp] theorem drawn_ist (s : State) : (drawn s).ist = s.ist := rfl
@[simp] theorem drawn_frz (s : State) : (drawn s).frz = s.frz := rfl
@[simp] theorem drawn_out (s : State) : (drawn s).out = s.out := rfl

@[simp] theorem emit_out (o : Out) (s : State) : (emit o s).out = s.out ++ [o] := rfl
@[simp] theorem drawn_draws (s : State) : (drawn s).draws = s.draws + 1 := rfl

end Sys2Proof.Machine
end

