-- ==== Sys2Proof/Tests/Slice0.lean ====
section
/-! SUPPORT. The model's own tests: a state for every clause of every statement that has hypotheses, ill-formed commands that
the check refuses, and small steps whose results are taken from the spec. -/

namespace Sys2Proof.Tests

set_option Elab.async false
open Sys2Proof
open Sys2Proof.Machine

/-- What a command answers meets `p`: it answers a next state, and `p` holds of it. -/
def after (c : Instr) (s : State) (p : State → Bool) : Bool :=
  match exec c s with
  | .next t => p t
  | _ => false

/-- A module in service: reset, with its power-on sequence done. -/
def on : State := { boot := { stage := 4 }, pwr := { charger := true, input := true } }


/-! ## Supply, hold-up bank, power states, time -/

/-- In service, the supply supervisor at `x` since time 0, fabric time `t`. -/
def atSup (x : Sup) (t : Nat) : State :=
  { on with clk := { time := t }, pwr := { sup := x, charger := false, input := x ≠ .flush ∧ x ≠ .spent ∧ x ≠ .off } }

theorem witness_SupplySupervisorMoves : on.pwr.sup = .normal ∧ (atSup .dip 9).pwr.sup = .dip ∧
    (atSup .resume 5000000).pwr.sup = .resume ∧ (atSup .resume 5000000).pwr.aboveAt + 5000000 ≤ now (atSup .resume 5000000) ∧
    now (atSup .resume 4999999) < (atSup .resume 4999999).pwr.aboveAt + 5000000 := by decide +kernel

theorem test_SupplySupervisorMoves :
    after (.supplyVWarn 9900) on (fun t => t.pwr.sup == .dip && t.pwr.leftAt == 0 && t.pwr.dips == 1 && !t.pwr.charger) = true ∧
    after (.supplyVWarn 9900) (atSup .dip 9) (fun t => t == atSup .dip 9) = true ∧
    after (.supplyAboveVResume 10600) (atSup .dip 9) (fun t => t.pwr.sup == .resume && t.pwr.aboveAt == 9) = true ∧
    after (.supplyBelowVResume 10000) (atSup .resume 9) (fun t => t.pwr.sup == .dip && t.pwr.dips == 1) = true ∧
    after .resumeHoldEnd (atSup .resume 5000000) (fun t => t.pwr.sup == .normal && t.pwr.charger) = true ∧
    after .resumeHoldEnd (atSup .resume 4999999) (fun t => t == atSup .resume 4999999) = true := by decide +kernel

theorem witness_LossOfSupplyEntersFlush : watching on = true ∧ unrecovered on = false ∧ watching (atSup .flush 0) = false ∧
    inDip (atSup .dip 50000000) = true ∧
    (atSup .dip 50000000).pwr.leftAt + (atSup .dip 50000000).pwr.dipMaxMs * 1000000 ≤ now (atSup .dip 50000000) ∧
    inDip on = false := by decide +kernel

theorem test_LossOfSupplyEntersFlush :
    after (.supplyVBor 7900) on (fun t => t.pwr.sup == .flush && !t.pwr.input && t.pwr.brownouts == 1 && t.pwr.flushes == 1 &&
      t.pwr.written == some false && t.boot.recover) = true ∧
    after .dipTimeout (atSup .dip 50000000) (fun t => t.pwr.sup == .flush && t.pwr.timeouts == 1) = true ∧
    after .dipTimeout (atSup .dip 49999999) (fun t => t.pwr.sup == .dip) = true ∧
    after (.supplyHigh 13900) on (fun t => t.pwr == { on.pwr with supplyMv := 13900 }) = true := by decide +kernel

theorem witness_FlushEndsAndPowerGoes : (atSup .flush 0).pwr.sup = .flush ∧ (atSup .spent 0).pwr.sup = .spent ∧
    watching on = true ∧ (atSup .off 0).pwr.sup = .off ∧ on.pwr.sup ≠ .off ∧ running on = true := by decide +kernel

theorem test_FlushEndsAndPowerGoes :
    after (.flushComplete 900 1200 3600) (atSup .flush 0) (fun t => t.pwr.sup == .spent && t.pwr.flushUs == 900) = true ∧
    after (.bankExhausted 1900) (atSup .spent 0) (fun t => t.pwr.sup == .off && t.pwr.bleed) = true ∧
    after (.supplyBelow7v 6900) (atSup .off 0) (fun t => !t.clk.aon) = true ∧
    after (.supplyBelow7v 6900) on (fun t => t.clk == on.clk) = true ∧
    after (.pllLockLoss 3) on (fun t => t.clk.unlocks == 1 && t.clk.unlocked == [2]) = true := by decide +kernel

def booted : BootInput := on.boot.input

theorem witness_ColdStartBegins : (atSup .off 0).pwr.sup = .off ∧ watching on = true ∧
    ({ atSup .spent 0 with clk := { stamped := true, stamp := { time := 5 } } } : State).clk.stamped = true ∧
    (atSup .spent 0).clk.stamped = false := by decide +kernel

theorem test_ColdStartBegins :
    after (.coldStart booted) { atSup .spent 0 with clk := { stamped := true, stamp := { time := 5 } } } (fun t =>
      t.boot.stage == 0 && t.clk.time == 1000005 && t.clk.cause == 1 && t.clk.cycles == 2 && t.pwr.sup == .normal) = true ∧
    after (.coldStart booted) on (fun t => t == on) = true := by decide +kernel

/-- At boot_stage 3 after a loss of supply. -/
def after3 : State := { boot := { stage := 3, recover := true } }
def foundAll : RecoveryInput := { rootOk := true, imagesOk := true, deltasOk := true, lost := [] }

theorem witness_RecoveryReachesService : running after3 = true ∧ after3.boot.stage = 3 ∧ after3.boot.recover = true ∧
    checkpointOk foundAll after3 = true ∧ checkpointOk { foundAll with deltasOk := false } after3 = false := by decide +kernel

theorem test_RecoveryReachesService :
    after (.powerLossRecovery foundAll) after3 (fun t => t.boot.stage == 4 && !t.boot.recover && t.med.recovery == 0) = true ∧
    after (.powerLossRecovery { foundAll with imagesOk := false }) after3 (fun t => t.boot.stage == 3 && t.med.recovery == 4) = true ∧
    after (.fullScanRebuild foundAll) after3 (fun t => t.boot.stage == 4 && !t.boot.recover) = true := by decide +kernel

/-- In service, measuring the bank; with a bank fault 10 s old; with both sets being erased and due. -/
def measuring : State := { on with pwr := { measuring := true, charger := false } }
def chargedLong : State := { on with clk := { time := 3000000000 } }
def faulted : State := { on with clk := { time := 10000000000 }, pwr := { fault := 1, charger := false } }
def erasing2 : State := { on with clk := { time := 7 }, pwr := { aErase := some 7, bErase := some 7, aReady := false, bReady := false } }
def oldHealth : State := { on with clk := { time := 172800000000000 }, pwr := { valid := true, target := 2 * gib, limit := 8 * gib } }

/-- 5.0 A pull the bank down by 210 mV at once and by 227.272 mV in 0.9 ms: 19,800 µF and 42.0 mΩ (R572). -/
def cap19800 : BankMeasure := { stepUv := 210000, fallUv := 227272 }

theorem witness_HoldUpBankEvents : watching measuring = true ∧ measuring.pwr.measuring = true ∧ watching faulted = true ∧
    faulted.pwr.fault ≠ 0 ∧ faulted.pwr.faultAt + 10000000000 ≤ now faulted ∧ on.pwr.measuring = false ∧ on.pwr.valid = false ∧
    on.pwr.fault = 0 ∧ 4 ≤ on.boot.stage ∧ State.reset.boot.stage < 4 ∧ watching State.reset = true ∧
    faultSeen chargedLong 1000 .chargeTimeout = true ∧ watching chargedLong = true ∧ (1900 : Nat) < 2000 ∧ (35500 : Nat) ≤ 38000 ∧
    oldHealth.pwr.measAt + 2 * oldHealth.pwr.healthH * 3600000000000 ≤ now oldHealth ∧ running erasing2 = true ∧
    erasing2.pwr.aErase = some 7 ∧ erasing2.pwr.bErase = some 7 ∧ 7 ≤ now erasing2 := by decide +kernel

theorem test_HoldUpBankEvents :
    after (.bankFault .chargeTimeout 1000) chargedLong (fun t => t.pwr.fault == 3 && t.pwr.target == 0 && !t.pwr.charger) = true ∧
    after (.bankMeasurement (some cap19800)) measuring (fun t => t.pwr.valid && t.pwr.fault == 0 &&
      t.pwr.health == 89 && t.pwr.charger) = true ∧
    after (.bankMeasurement none) measuring (fun t => t.pwr.fault == 5 && t.pwr.target == 0) = true ∧
    after (.bankFaultRetry (some cap19800)) faulted (fun t => t.pwr.fault == 0 && t.pwr.charger) = true ∧
    after (.bankFaultRetry none) faulted (fun t => t.pwr.fault == 1 && t.pwr.meas == 1) = true ∧
    after (.bankBelow35v 34000) on (fun t => t.pwr.target == 0 && t.pwr.charger) = true ∧
    after (.bankBelow2v 1900) on (fun t => t.pwr.target == 0 && t.pwr.charger) = true ∧
    after (.bankCharged 38000) State.reset (fun t => t.pwr.measuring && !t.pwr.charger) = true ∧
    after (.bankCharged 38000) on (fun t => t.pwr.wanted && !t.pwr.measuring) = true ∧
    after .healthStale oldHealth (fun t => t.pwr.stale && t.pwr.target == gib) = true ∧
    after (.flushSetErase false) erasing2 (fun t => t.pwr.aReady && !t.pwr.bReady) = true ∧
    after (.flushSetErase true) erasing2 (fun t => t.pwr.bReady && !t.pwr.aReady) = true := by decide +kernel

/-! ## Power states, time and the cipher block -/

/-- Idle in P0 since `a`, fabric time `t`; a power-state exit that ends at 5 µs. -/
def idleOn (a : Tbl Nat) (t : Nat) : State := { on with clk := { time := t }, pwr := { idleAt := a } }
def exitingAt (t : Nat) : State := { on with clk := { time := t }, pwr := { state := 1, exiting := some 5000 } }
def busyOn : State := { on with host := { goQueue := [0] } }
def lateOn (t : Nat) : State := { on with clk := { time := t } }

theorem witness_PowerStatesAndTime : running on = true ∧ on.boot.stage = 4 ∧ on.pwr.sup = .normal ∧ on.pwr.exiting = none ∧
    idleState on 1 = true ∧ tfind on.pwr.idleAt 1 = none ∧ deepest (followIdle on) ≤ on.pwr.state ∧
    idleState busyOn 1 = false ∧ running busyOn = true ∧ tfind (idleOn [(1, 0)] 20000).pwr.idleAt 1 = some 0 ∧
    idleState (idleOn [(1, 0)] 20000) 1 = true ∧
    (idleOn [(1, 0)] 20000).pwr.state < deepest (followIdle (idleOn [(1, 0)] 20000)) ∧
    (exitingAt 5000).pwr.exiting = some 5000 ∧ 5000 ≤ now (exitingAt 5000) ∧ now (exitingAt 4999) < 5000 ∧
    now (lateOn (2 ^ 64 - 16001)) + 16000 < 2 ^ 64 ∧
    2 ^ 64 ≤ now (lateOn (2 ^ 64 - 1)) + (16000 - now (lateOn (2 ^ 64 - 1)) % 16000) := by decide +kernel

theorem test_PowerStatesAndTime :
    after .powerStateEntry on (fun t => t.pwr.idleAt == [(1, 0), (2, 0), (3, 0)] && t.pwr.state == 0) = true ∧
    after .powerStateEntry (idleOn [(1, 0)] 20000) (fun t => t.pwr.state == 1) = true ∧
    after .powerStateEntry (idleOn [(1, 0), (2, 0)] 100000000) (fun t => t.pwr.state == 2) = true ∧
    after .powerStateEntry busyOn (fun t => t.pwr.idleAt == [] && t.pwr.state == 0) = true ∧
    after .powerStateExit { exitingAt 0 with pwr := { state := 1 } } (fun t => t.pwr.exiting == some (Config.exitUs 1 * 1000)) =
      true ∧
    after .powerStateExitComplete (exitingAt 5000) (fun t => t.pwr.state == 0 && t.pwr.exiting == none) = true ∧
    after .slotBoundary (lateOn 15999) (fun t => t.clk.time == 16000) = true ∧
    after .slotBoundary (lateOn 16000) (fun t => t.clk.time == 32000) = true := by decide +kernel

/-- A message of `n` blocks for engine use: urgent only for requester 2. -/
def msgOf (urgent : Bool) (n : Nat) : Msg :=
  { requester := 2, keySlot := 4095, urgent := urgent, encrypt := true, tweak := 9, next := 0, blocks := n }
def claimOf (urgent : Bool) (n : Nat) : Instr := .cipherClaim 2 4095 urgent true 9 0 n
/-- Every engine held by a message of 32 blocks since time 0, at 60 ns, when 1 block has left the pipeline. -/
def enginesHeld (urgent : Bool) : State :=
  { on with
    clk := { time := 60 }, xts := { engines := (List.range 16).map (fun i => (i, { owner := some (msgOf urgent 32) })) } }

theorem witness_CipherClaimAndRelease : cipherOn on = true ∧ claimValid (msgOf false 32) = true ∧ freeEngine on = some 0 ∧
    (msgOf false 32).tweak = 9 % 2 ^ 128 ∧ claimValid { msgOf false 32 with requester := 7 } = false ∧
    cipherOn (enginesHeld false) = true ∧ freeEngine (enginesHeld false) = none ∧
    normalEngine (enginesHeld true) = none ∧ freeEngine (enginesHeld true) = none ∧ claimValid (msgOf true 32) = true ∧
    blocksOut (engineAt (enginesHeld false) 0) (msgOf false 32) (now (enginesHeld false)) ≠ 32 ∧
    normalEngine (enginesHeld false) = some 0 ∧ (engineAt (enginesHeld false) 0).owner = some (msgOf false 32) ∧
    (engineAt (enginesHeld false) 15).owner = some (msgOf false 32) ∧ (enginesHeld false).xts.waiting = [] ∧
    engineTakes (enginesHeld false) 15 = true := by decide +kernel

/-- The same with one claim that waits. -/
def enginesHeldWait : State :=
  { enginesHeld false with xts := { (enginesHeld false).xts with waiting := [msgOf false 5] } }

theorem witness_CipherReleaseWaiting : (engineAt enginesHeldWait 15).owner = some (msgOf false 32) ∧ 15 < 16 ∧
    engineTakes enginesHeldWait 15 = true ∧ enginesHeldWait.xts.waiting ≠ [] ∧ cipherOn enginesHeldWait = true := by decide +kernel

theorem test_CipherClaimAndRelease :
    after (claimOf false 32) on (fun t => (engineAt t 0).owner == some (msgOf false 32) && (engineAt t 1).owner == none) = true ∧
    after (claimOf false 32) (enginesHeld false) (fun t => t.xts.waiting == [msgOf false 32] && t.xts.waits == 1) = true ∧
    after (claimOf true 8) (enginesHeld false) (fun t => (engineAt t 0).owner == some (msgOf true 8) &&
      (engineAt t 0).suspends == 1 && t.xts.waiting.length == 1 && (engineAt t 0).at_ == 80) = true ∧
    after (claimOf true 8) (enginesHeld true) (fun t => t.xts.waiting == [msgOf true 8]) = true ∧
    after (.cipherRelease 15) (enginesHeld false) (fun t => (engineAt t 15).owner == none && (engineAt t 15).bytes == 512) = true ∧
    after (.cipherRelease 15) enginesHeldWait (fun t => (engineAt t 15).owner == some (msgOf false 5) && t.xts.waiting == []) =
      true := by decide +kernel

/-- Sources that fail, a generator at its request count, and one whose count is at 2^32 with both sources failed. -/
def reseedDue : State := { on with xts := { gens := [(16, { requests := 1048576 })] } }
def noNoise : State := { on with xts := { aOk := false, bOk := false, gens := [(15, { requests := 2 ^ 32 })] } }

theorem witness_CipherFailures : running on = true ∧ (15 : Nat) < 16 ∧ (engineAt on 15).retired = false ∧
    running reseedDue = true ∧ noisePasses reseedDue = true ∧ 1048576 ≤ (genAt reseedDue 16).requests ∧
    on.xts.aOk = true ∧ on.xts.bOk = true ∧ running noNoise = true ∧ noisePasses noNoise = false ∧
    2 ^ 32 ≤ (genAt noNoise 15).requests := by decide +kernel

theorem test_CipherFailures :
    after (.cipherEngineRetire 15 .parity) on (fun t => (engineAt t 15).retired && enginesLeft t == 15) = true ∧
    after (.generatorReseed 16) reseedDue (fun t => (genAt t 16).requests == 0 && t.xts.reseeds == 1) = true ∧
    after (.noiseSourceFail false true) on (fun t => !t.xts.aOk && t.xts.bOk && t.xts.rct == 1 && t.xts.apt == 0) = true ∧
    after (.noiseSourceRejoin true) noNoise (fun t => t.xts.bOk && !t.xts.aOk) = true ∧
    after (.maskGeneratorStop 15) noNoise (fun t => (genAt t 15).stopped && !(genAt t 14).stopped) = true := by decide +kernel

/-! ## The memory subsystem, the index and the classifier -/

def readReq : DramReq :=
  { port := 3, bank := 7, row := 100, col := 5, write := false, urgent := false, at_ := 0 }
/-- Channel 11 in service with one read queued in sub-channel 1, a row of bank 6 open, port 3 throttled to 1 ms in sub-channel 0. -/
def dramOn (t : Nat) : State :=
  { on with
    clk := { time := t },
    mem := { chans := [(11, { state := 1, subs := [{ throttle := [(3, 1000000)] }, { reads := [readReq], opened := [(6, 9)], refBank := 2 }] })] } }
def baseTwice : State := { on with mem := { chans := [(11, { state := 1, doubled := true, atBase := 1 })] } }

theorem witness_DramChannelService : running (dramOn 0) = true ∧ chanServes (dramOn 0) 11 = true ∧
    (chanAt (dramOn 0) 11).subs.length = 2 ∧ 0 < (dramOn 0).mem.wqHigh ∧ (dramOn 0).mem.waiting = [] ∧
    (subAt (chanAt (dramOn 0) 11) 1).rfmWait = [] ∧ (subAt (chanAt (dramOn 0) 11) 1).writes = [] ∧
    (subAt (chanAt (dramOn 0) 11) 1).reads = [readReq] ∧
    tfind (subAt (chanAt (dramOn 0) 11) 1).throttle readReq.port = none ∧
    bit (dramOn 0).mem.privNow 11 = false ∧ (chanAt (dramOn 0) 11).atBase = 0 ∧ (chanAt baseTwice 11).atBase ≠ 0 ∧
    bit baseTwice.mem.privNow 11 = false ∧
    tfind (subAt (chanAt (dramOn 1000000) 11) 0).throttle 3 = some 1000000 ∧ 1000000 ≤ now (dramOn 1000000) := by decide +kernel

theorem test_DramChannelService :
    after (.dramRequest 11 1 [] []) (dramOn 0) (fun t => t.out == [.dram 11 1 3 7 100 5 false false] &&
      (subAt (chanAt t 11) 1).reads == []) = true ∧
    after (.refreshCommand 11 1) (dramOn 0) (fun t => t.out == [.refresh 11 1 2 false] &&
      (subAt (chanAt t 11) 1).opened == [] && (subAt (chanAt t 11) 1).refBank == 3) = true ∧
    after (.tempModeRead 11 true) (dramOn 0) (fun t => (chanAt t 11).doubled) = true ∧
    after (.tempModeRead 11 false) baseTwice (fun t => !(chanAt t 11).doubled) = true ∧
    after (.throttleEnd 11 0 3) (dramOn 1000000) (fun t => (subAt (chanAt t 11) 0).throttle == []) = true ∧
    after (.throttleEnd 11 0 3) (dramOn 999999) (fun t => (subAt (chanAt t 11) 0).throttle == [(3, 1000000)]) = true := by
  decide +kernel

def trumped (t : Nat) : State := { on with clk := { time := t }, mem := { trump := true } }
def scrubbed (n : Nat) : State := { on with mem := { scrubLines := n, chans := [(0, { state := 1 })] } }

theorem witness_MemoryUpkeep : running (trumped 1000001) = true ∧ (trumped 1000001).mem.trump = true ∧
    (trumped 1000001).mem.trumpLong = false ∧ (trumped 1000001).mem.trumpAt + 1000000 < now (trumped 1000001) ∧
    chanServes (scrubbed 0) 0 = true ∧ (scrubbed (allLines - 2)).mem.scrubLines + 1 < allLines ∧
    allLines ≤ (scrubbed (allLines - 1)).mem.scrubLines + 1 ∧ (chanAt (scrubbed 0) 0).state = 1 ∧
    (scrubbed 0).mem.driftPct < 26 ∧ (∀ m ∈ (scrubbed 0).ante.maint, m.kind ≠ .dramRetrain) ∧
    25 ≤ (scrubbed 0).mem.driftPct ∧ ({ on with mem := { retrainH := 0 } } : State).mem.retrainH = 0 := by decide +kernel

theorem test_MemoryUpkeep :
    after .trumpLong (trumped 1000001) (fun t => t.mem.trumpLong) = true ∧
    after .trumpLong (trumped 1000000) (fun t => !t.mem.trumpLong) = true ∧
    after (.patrolScrub 0 1 []) (scrubbed (allLines - 1)) (fun t => t.mem.scrubLines == 0) = true ∧
    after (.driftCheck 0 26 false) (scrubbed 0) (fun t => t.ante.maint.map (fun m => (m.target, m.slots)) == [(0, 125)]) = true ∧
    after (.driftCheck 0 25 false) { scrubbed 0 with mem := { (scrubbed 0).mem with retrainH := 0 } } (fun t =>
      t.ante.maint == []) = true := by decide +kernel

def lastGroup : State := { on with idx := { ckptGroup := Config.groups - 1, deltaSeq := 5 } }
def lastFailed : State := { on with idx := { lastGroup.idx with failed := [Config.groups - 1] } }

theorem witness_IndexPasses : running lastGroup = true ∧ Config.groups - 1 < Config.groups ∧ on.idx.stash = [] := by decide +kernel

theorem test_IndexPasses :
    after .checkpointGroupCopy lastGroup (fun t => t.idx.ckptGroup == 0 &&
      (tget imageBlank t.idx.images (Config.groups - 1)).seq == 5) = true ∧
    after .checkpointGroupCopy lastFailed (fun t => t == lastFailed) = true ∧
    after (.indexGroupRebuild (Config.groups - 1)) lastFailed (fun t => t.idx.rebuilds == 1 && t.idx.failed == []) = true ∧
    after (.indexGroupRebuild Config.groups) lastGroup (fun t => t == lastGroup) = true := by decide +kernel

def rebuildOf : MaintResv := { id := 4, kind := .bankRebuild, target := 15, first := 0, slots := 1, firm := false }
def bankIn (st : Nat) (fails : List Nat) : State :=
  { on with cam := { banks := [(15, { state := st, fails := fails })] }, ante := { maint := [rebuildOf], nextId := 5 } }

theorem witness_ClassifierUpkeep : running on = true ∧ (28671 : Nat) < 32768 ∧ (bankAt on (28671 / 2048)).state = 1 ∧
    findMaint (bankIn 2 []) .bankRebuild 15 = some rebuildOf ∧ (bankAt (bankIn 2 []) 15).state = 2 ∧
    (bankAt (bankIn 2 []) 15).fails = [] ∧ (bankAt (bankIn 3 []) 15).state = 3 ∧ running (bankIn 3 []) = true ∧
    findMaint (bankIn 3 []) .bankRebuild 15 = some rebuildOf ∧ rebuildOf.first ≤ slotOf (now (bankIn 2 [])) ∧
    findMaint on .bankRebuild 15 = none := by decide +kernel

theorem test_ClassifierUpkeep :
    after (.classifierScrub [{ unit := 28671, parity := false, dramBad := false }]) on (fun t => (bankAt t 13).state == 2 &&
      (bankAt t 12).state == 1 && t.cam.scrubErr == 1 && t.cam.lastUnit == 28671) = true ∧
    after (.classifierBankRebuild 15 true) (bankIn 2 []) (fun t => (bankAt t 15).state == 1) = true ∧
    after (.classifierBankRebuild 15 false) (bankIn 2 []) (fun t => (bankAt t 15).state == 2 && (bankAt t 15).fails == [0]) = true ∧
    after (.classifierBankRebuild 15 false) (bankIn 2 [0, 0]) (fun t => (bankAt t 15).state == 3) = true := by decide +kernel

/-! ## The media -/

def tickAt (t : Nat) (m : Media) : State := { on with clk := { time := t }, med := m }
/-- Meld 43711 open with one unit written, which has waited since 0. -/
def sealing (t : Nat) : State := tickAt t { melds := [(43711, { state := .open_, next := 1, asmAt := some 0 })] }
def rowDue (x : Sup) : State :=
  { tickAt 32000 { melds := [(43711, { state := .open_, next := 5760, programs := [(0, 2), (1, 71)] })] } with pwr := { sup := x } }
def ageing : State := tickAt 86400000000000 { melds := [(43711, { state := .open_ })] }
def erasing (t : Nat) : State :=
  tickAt t { melds := [(43711, { state := .erasing, eraseAt := some 9, blocks := [5] })] }

theorem witness_MediaRows : running (sealing 20000000) = true ∧ (meldAt (sealing 20000000) 43711).asmAt = some 0 ∧
    (sealing 20000000).med.sealMs ≠ 0 ∧ 0 + (sealing 20000000).med.sealMs * 1000000 ≤ now (sealing 20000000) ∧
    (meldAt (sealing 20000000) 43711).state = .open_ ∧
    (meldAt (sealing 20000000) 43711).next % rowUnits (meldAt (sealing 20000000) 43711) ≠ 0 ∧
    running (rowDue .normal) = true ∧ (meldAt (rowDue .normal) 43711).programs = (0, 2) :: [(1, 71)] ∧
    (meldAt (rowDue .normal) 43711).running = none ∧ 2 ≤ slotOf (now (rowDue .normal)) ∧
    (meldAt (rowDue .normal) 43711).state = .open_ ∧ rowReady (rowDue .normal) 43711 0 = true ∧ inDip (rowDue .normal) = false ∧
    inDip (rowDue .dip) = true ∧ rowReady (rowDue .dip) 43711 0 = true ∧ 43711 ∉ (rowDue .dip).med.held ∧
    (meldAt ageing 43711).state = .open_ ∧ ageing.med.openMaxH ≠ 0 ∧
    (meldAt ageing 43711).openAt + ageing.med.openMaxH * 3600000000000 ≤ now ageing ∧
    (meldAt (erasing 9) 43711).state = .erasing ∧ (meldAt (erasing 9) 43711).eraseAt = some 9 ∧ 9 ≤ now (erasing 9) ∧
    now (erasing 8) < 9 := by decide +kernel

theorem test_MediaRows :
    after (.rowSealTimer 43711) (sealing 20000000) (fun t => (meldAt t 43711).next == 5760 && (meldAt t 43711).asmAt == none &&
      (meldAt t 43711).programs.length == 1) = true ∧
    after (.rowProgramStart 43711) (rowDue .normal) (fun t => (meldAt t 43711).running == some 1136000) = true ∧
    after (.rowProgramStart 43711) (rowDue .dip) (fun t => t.med.held == [43711] && t.pwr.rcHeld == 1) = true ∧
    after (.meldAgeClose 43711) ageing (fun t => (meldAt t 43711).shut) = true ∧
    after (.meldEraseComplete 43711 []) (erasing 9) (fun t => t.med.melds == []) = true ∧
    after (.meldEraseComplete 43711 []) (erasing 8) (fun t => t == erasing 8) = true := by decide +kernel

/-- A record on flash at `a`, whose DRAM copy is record 4. -/
def rec1 : Record :=
  { kind := 0, suit := 0, ns := 0, key := [1], value := [7, 8], units := 1, version := 3, time := 0, digest := 0 }
def moving : State :=
  { on with med := { flash := [(2949121, rec1)], moves := [(2949121, true, 4)] }, mem := { held := [(4, rec1)], nextHeld := 5 } }

theorem witness_MediaReadsAndMoves : running moving = true ∧
    moving.med.moves.find? (fun x => decide (x.1 = 2949121)) = some (2949121, true, 4) ∧
    on.med.moves.find? (fun x => decide (x.1 = 2949121)) = none := by decide +kernel

theorem test_MediaReadsAndMoves :
    after (.codewordReadComplete 2949129 ⟨.corrected, []⟩) on (fun t => t.med.cwCorr == 1 && t.med.cwRetry == 0) = true ∧
    after (.codewordReadComplete 2949129 ⟨.shifted, []⟩) on (fun t => t.med.cwRetry == 1 && (meldAt t 1).retries == [(2949128, 1)]) = true ∧
    after (.codewordReadComplete 2949129 ⟨.lost, []⟩) on (fun t => t.med.unrec == 1 && t.med.lost == [2949128]) = true ∧
    after (.indexMoveToMedia 2949121) moving (fun t => t.mem.held == [] && t.med.moves == []) = true := by decide +kernel

/-- A full meld of stream 1, its retention over at 1 s; a full meld that needed a soft read. -/
def expiring (t : Nat) : State :=
  tickAt t { melds := [(5, { state := .full, stream := 1 })], retention := [0, 1, 0, 0, 0, 0, 0, 0, 0, 0, 0, 0, 0, 0, 0, 0] }
def fullOn : State :=
  tickAt 0 { melds := [(5, { state := .full, blocks := [0], bytes := 512, soft := true })] }
def dieDown : State := { on with med := { dies := [(511, { state := 1 })] } }
/-- Every die failed, so that no set has a block in its talon. -/
def noTalon : State :=
  tickAt 0 { melds := [(5, { state := .full, blocks := [0], bytes := 512 })], dies := (List.range 512).map (fun d => (d, { state := 1 })) }
def worn : State :=
  tickAt 0 { melds := [(5, { state := .full, blocks := [8] })], blocks := [(9, { state := .talon, erases := 301 })] }

theorem witness_MediaReclaim : running (expiring 1000000001) = true ∧
    (meldAt (expiring 1000000001) 5).state = .full ∧
    expiryOf (expiring 1000000001) (meldAt (expiring 1000000001) 5) = some 1000000000 ∧
    (dieAt on 511).state = 0 ∧ (dieAt dieDown 511).state = 1 ∧ meldsOnDie dieDown 511 = [] ∧
    (meldAt fullOn 5).state = .full ∧ refreshDue fullOn (meldAt fullOn 5) = true ∧ fullOn.ante.relocPct ≠ 0 ∧
    liveRecords fullOn 5 = [] ∧ (∀ q ∈ fullOn.med.melds, q.2.asm = []) ∧ fullOn.med.moves = [] ∧
    noTalon.ante.gcPct ≠ 0 ∧ setTalon noTalon 0 < noTalon.med.talonBg ∧
    noTalon.boot.readOnly = false ∧
    bestVictim noTalon (victims noTalon (some 0) (now noTalon + noTalon.med.gcSkipH * 3600000000000)) = some 5 ∧
    setTalon noTalon 0 < noTalon.med.talonFg ∧
    bestVictim noTalon (victims noTalon (some 0) (horizonTime noTalon)) = some 5 ∧
    bestVictim noTalon (victims noTalon none (horizonTime noTalon)) = some 5 := by
  repeat' apply And.intro
  all_goals decide +kernel

theorem test_MediaReclaim :
    after .expiryEvaluation (expiring 1000000001) (fun t => (meldAt t 5).state == .dead && (meldAt t 5).bySweep) = true ∧
    after .expiryEvaluation (expiring 1000000000) (fun t => (meldAt t 5).state == .full) = true ∧
    after (.dieFailure 511) on (fun t => (dieAt t 511).state == 1 && (dieAt t 510).state == 0) = true ∧
    after (.dieRebuild 511) dieDown (fun t => (dieAt t 511).state == 2) = true ∧
    after (.refreshRelocation 5) fullOn (fun t => (meldAt t 5).state == .erasing && (meldAt t 5).eraseAt != none) = true ∧
    after (.backgroundGc 0) noTalon (fun t => (meldAt t 5).state == .erasing) = true ∧
    after (.foregroundGc 0) noTalon (fun t => (meldAt t 5).state == .erasing) = true ∧
    after .meldTableSnapshot on (fun t => t.med.rootSeq == 1) = true ∧
    after .indexSweepPass (tickAt 7 {}) (fun t => t.med.sweepAt == 7) = true := by
  repeat' apply And.intro
  all_goals decide +kernel

/-! The talon's sums run over every plane: their bounds are shown, not computed. -/

theorem leastOf_le_head {α : Type} (f : α → Nat) (d : Nat) (l : List α) : leastOf f d l ≤ d := by
  induction l with
  | nil => exact Nat.le_refl _
  | cons a t ih => simp only [leastOf]; omega

theorem leastOf_le_mem {α : Type} (f : α → Nat) (d : Nat) (l : List α) (a : α) (h : a ∈ l) : leastOf f d l ≤ f a := by
  induction l with
  | nil => cases h
  | cons b t ih =>
    simp only [leastOf]
    rcases List.mem_cons.1 h with rfl | h
    · omega
    · have := ih h; omega

theorem foldl_max_ge (l : List Nat) (m a : Nat) (h : a ∈ l ∨ a ≤ m) : a ≤ l.foldl max m := by
  induction l generalizing m with
  | nil => simpa using h
  | cons b t ih =>
    refine ih (max m b) ?_
    rcases h with h | h
    · rcases List.mem_cons.1 h with rfl | h
      · exact .inr (Nat.le_max_right _ _)
      · exact .inl h
    · exact .inr (by omega)

theorem foldl_max_le (l : List Nat) (m a : Nat) (h : ∀ b ∈ l, b ≤ a) (hm : m ≤ a) : l.foldl max m ≤ a := by
  induction l generalizing m with
  | nil => exact hm
  | cons b t ih =>
    refine ih (max m b) (fun c hc => h c (List.mem_cons_of_mem _ hc)) ?_
    have := h b List.mem_cons_self
    omega

theorem sumOf_le {α : Type} (f g : α → Nat) (l : List α) (h : ∀ a, f a ≤ g a) : sumOf f l ≤ sumOf g l := by
  induction l with
  | nil => exact Nat.le_refl _
  | cons a t ih => simp only [sumOf]; have := h a; omega

theorem talonSum_le (s : State) : talonSum s ≤ sumOf (fun k => slotTalon s k 0 0) (List.range 32) :=
  sumOf_le _ _ _ (fun _ => leastOf_le_head _ _ _)

/-- Every mark at 0: any talon meets it. -/
def marksZero : State := { on with med := { talonFg := 0 } }

theorem witness_MediaReclaimFactor : (∃ n, talonSum noTalon < 32 * noTalon.med.talonFg ∧
      bestVictim noTalon (victims noTalon none (horizonTime noTalon)) = some n) ∧
    32 * marksZero.med.talonFg ≤ talonSum marksZero := by
  refine ⟨⟨5, Nat.lt_of_le_of_lt (talonSum_le _) ?_, ?_⟩, Nat.zero_le _⟩ <;> decide +kernel

theorem talonWear_top_le (s : State) (c p n : Nat) (h : ∀ id, (blkAt s id).erases ≤ n) : (talonWear s c p).2 ≤ n := by
  simp only [talonWear]
  refine foldl_max_le _ _ _ (fun b hb => ?_) (Nat.zero_le _)
  obtain ⟨id, -, rfl⟩ := List.mem_map.1 hb
  exact h id

theorem talonWear_bounds (s : State) (c p b : Nat) (hb : b < Config.planeBlocks)
    (ht : (blkAt s (blockId (16 * c) p b)).state = .talon) :
    (talonWear s c p).1 ≤ (blkAt s (blockId (16 * c) p b)).erases ∧
      (blkAt s (blockId (16 * c) p b)).erases ≤ (talonWear s c p).2 := by
  have m : (blkAt s (blockId (16 * c) p b)).erases ∈
      (((List.range 16).flatMap (fun i => (List.range Config.planeBlocks).map (blockId (16 * c + i) p))).filter
        (fun id => decide ((blkAt s id).state = .talon))).map (fun id => (blkAt s id).erases) :=
    List.mem_map.2 ⟨blockId (16 * c) p b, List.mem_filter.2 ⟨List.mem_flatMap.2 ⟨0, List.mem_range.2 (by omega),
      List.mem_map.2 ⟨b, List.mem_range.2 hb, rfl⟩⟩, by simpa using ht⟩, rfl⟩
  revert m
  unfold talonWear
  dsimp only
  generalize (((List.range 16).flatMap (fun i => (List.range Config.planeBlocks).map (blockId (16 * c + i) p))).filter
        (fun id => decide ((blkAt s id).state = .talon))).map (fun id => (blkAt s id).erases) = l
  intro m
  exact ⟨leastOf_le_mem id _ _ _ m, foldl_max_ge _ _ _ (.inl m)⟩

theorem witness_MediaReclaimWear : worn.med.wlGap ≠ 0 ∧ meldsIn worn .full = [(5, meldAt worn 5)] ∧
    meldWear worn (meldAt worn 5) 0 0 = some 0 ∧
    worn.med.wlGap < (talonWear worn 0 0).2 - (talonWear worn 0 0).1 ∧
    (talonWear on 0 0).2 - (talonWear on 0 0).1 ≤ on.med.wlGap := by
  have h9 := (talonWear_bounds worn 0 0 9 (by decide) (by decide +kernel)).2
  have h10 := (talonWear_bounds worn 0 0 10 (by decide) (by decide +kernel)).1
  have e9 : (blkAt worn (blockId (16 * 0) 0 9)).erases = 301 := by decide +kernel
  have e10 : (blkAt worn (blockId (16 * 0) 0 10)).erases = 0 := by decide +kernel
  have h0 : (talonWear on 0 0).2 ≤ 0 := by
    refine talonWear_top_le _ _ _ _ (fun id => ?_)
    have h : blkAt on id = blkBlank id := rfl
    rw [h, blkBlank]
    split
    · decide
    · split <;> decide
  have g : worn.med.wlGap = 300 := rfl
  refine ⟨?_, ?_, ?_, ?_, ?_⟩ <;> first | omega | decide +kernel

/-! ## Key-value commands -/

/-- A ready single command of session 7, sequence 1, in namespace 3. -/
def flight (c : Cmd) : InFlight :=
  { session := 7, seq := 1, cmd := c, ns := 3, stamp := { time := 50 }, medium := false, suit := 2, fast := false, deadline := 0,
    bound := 0, phase := .ready }
def keyed (op : Nat) : Cmd := { opcode := op, ns := 3, keyLength := 1, key := [1] }
/-- The command in flight with its object absent, and with the object of key 01 and value 0A 0B 0C, version 1, in DRAM. -/
def absent (c : Cmd) : State := { on with nss := [(3, { state := 1 })], dlr := { inflight := [flight c] } }
def present (c : Cmd) : State :=
  commitRecord (valueRecord (flight c) 3 (digestOf (absent c) 3 [1]) 1 5 [1] [10, 11, 12]) (.buffer none 0 (7, 1)) (absent c)
def cur1 : Cur := { value := [10, 11, 12], version := 1, suit := 5 }

def get0 : Cmd := { keyed 0x01 with buffers := [{ addr := 4096, len := 2 }], listCount := 1, aux := 1 }
def getFar : Cmd := { keyed 0x01 with buffers := [{ addr := 4096, len := 2 }], listCount := 1, aux := 4 }

theorem witness_ReadCommandsPlan : runsAlone (absent get0) (flight get0) 0x01 ∧ curOf (absent get0) (flight get0) = none ∧
    runsAlone (present getFar) (flight getFar) 0x01 ∧ curOf (present getFar) (flight getFar) = some cur1 ∧
    cur1.value.length < offsetOf getFar ∧ runsAlone (present get0) (flight get0) 0x01 ∧
    curOf (present get0) (flight get0) = some cur1 ∧ offsetOf get0 ≤ cur1.value.length ∧
    1 < min (getRange get0 cur1.value.length) (listTotal get0) ∧
    runsAlone (absent (keyed 0x06)) (flight (keyed 0x06)) 0x06 ∧ curOf (absent (keyed 0x06)) (flight (keyed 0x06)) = none ∧
    runsAlone (present (keyed 0x06)) (flight (keyed 0x06)) 0x06 ∧
    curOf (present (keyed 0x06)) (flight (keyed 0x06)) = some cur1 := by
  unfold runsAlone
  decide +kernel

/-- A read whose object was lost with the DRAM that held it. -/
def spoiledRead (op : Nat) : InFlight := { flight (keyed op) with spoiled := true }
def spoiledOn (op : Nat) : State := { on with nss := [(3, { state := 1 })], dlr := { inflight := [spoiledRead op] } }

theorem witness_ReadCommandsPlanLost : ∀ op ∈ [0x01, 0x06], running (spoiledOn op) = true ∧
    findFlight (spoiledOn op) 7 1 = some (spoiledRead op) ∧ mayRun (spoiledOn op) (spoiledRead op) = true ∧
    mediaLost (spoiledOn op) (spoiledRead op) = true := by decide +kernel

/-- The plan of the command of session 7, sequence 1. -/
def planIn (t : State) : Option Plan := (findFlight t 7 1).map (·.plan)

theorem test_ReadCommandsPlan :
    after (.get 7 1 none) (absent get0) (fun t => planIn t == some { status := stNotFound }) = true ∧
    after (.get 7 1 none) (present get0) (fun t => planIn t == some { version := 1, vlen := 2, data := [11, 12] }) = true ∧
    after (.get 7 1 none) (present getFar) (fun t => planIn t == some { status := stRange }) = true ∧
    after (.get 7 1 (some 1)) (present get0) (fun t => planIn t == some { status := stDma, version := 1, vlen := 1, data := [11] }) =
      true ∧
    after (.get 7 1 none) (spoiledOn 0x01) (fun t => planIn t == some { status := stMedia }) = true ∧
    after (.existsKey 7 1) (present (keyed 0x06)) (fun t => planIn t == some { version := 1, vlen := 3 }) = true := by
  repeat' apply And.intro
  all_goals decide +kernel

/-- A write of two bytes, at offset or for version `aux`. -/
def write2 (op aux : Nat) : Cmd := { keyed op with length := 2, aux := aux }
def empty0 (op aux : Nat) : Cmd := { keyed op with aux := aux }

theorem witness_WriteCommandsPlan : (∀ op ∈ [0x02, 0x03, 0x04, 0x05, 0x07],
      inputOf (flight (write2 op 0)) (some [8, 9]) = some [8, 9] ∧ [(8 : Byte), 9].length = (write2 op 0).length ∧
      inputOf (flight (write2 op 0)) none = none ∧ inputOf (flight (empty0 op 3)) none = some [] ∧
      findFlight (absent (write2 op 0)) 7 1 = some (flight (write2 op 0)) ∧ running (absent (write2 op 0)) = true ∧
      mayRun (absent (write2 op 0)) (flight (write2 op 0)) = true ∧ mediaLost (absent (write2 op 0)) (flight (write2 op 0)) = false ∧
      curOf (absent (write2 op 0)) (flight (write2 op 0)) = none ∧
      findFlight (present (write2 op 1)) 7 1 = some (flight (write2 op 1)) ∧ running (present (write2 op 1)) = true ∧
      mayRun (present (write2 op 1)) (flight (write2 op 1)) = true ∧
      mediaLost (present (write2 op 1)) (flight (write2 op 1)) = false ∧
      curOf (present (write2 op 1)) (flight (write2 op 1)) = some cur1 ∧
      mayRun (present (empty0 op 3)) (flight (empty0 op 3)) = true ∧ curOf (present (empty0 op 3)) (flight (empty0 op 3)) = some cur1) ∧
    offsetOf (write2 0x04 1) ≤ cur1.value.length ∧ cur1.value.length < offsetOf (write2 0x04 4) ∧
    offsetOf (empty0 0x04 3) ≤ cur1.value.length ∧ (empty0 0x04 3).length = 0 ∧
    Config.maxValue < cur1.value.length + Config.maxValue ∧ cur1.value.length + 2 ≤ Config.maxValue ∧
    (write2 0x07 0).aux % 2 ^ 64 = 0 ∧ (write2 0x07 1).aux % 2 ^ 64 ≠ 0 ∧ cur1.version = (write2 0x07 1).aux % 2 ^ 64 ∧
    cur1.version ≠ (write2 0x07 0).aux % 2 ^ 64 := by
  repeat' apply And.intro
  all_goals decide +kernel

def stored (v : Bytes) (suit : Nat) : Plan := { version := 2, vlen := 2, effect := .store 3 [1] v suit }

theorem test_WriteCommandsPlan :
    after (.put 7 1 (some [8, 9])) (present (write2 0x02 0)) (fun t => planIn t == some (stored [8, 9] 2)) = true ∧
    after (.put 7 1 none) (present (write2 0x02 0)) (fun t => planIn t == some { status := stDma }) = true ∧
    after (.delete 7 1) (present (keyed 0x03)) (fun t => planIn t == some { effect := .delete 3 [1] }) = true ∧
    after (.putAt 7 1 (some [8, 9])) (present (write2 0x04 2)) (fun t => planIn t == some (stored [10, 11, 8, 9] 5)) = true ∧
    after (.putAt 7 1 (some [8, 9])) (present (write2 0x04 4)) (fun t => planIn t == some { status := stRange }) = true ∧
    after (.append 7 1 (some [8, 9])) (present (write2 0x05 0)) (fun t => planIn t == some (stored [10, 11, 12, 8, 9] 5)) = true ∧
    after (.compareAndPut 7 1 (some [8, 9])) (present (write2 0x07 1)) (fun t => planIn t == some (stored [8, 9] 2)) = true ∧
    after (.compareAndPut 7 1 (some [8, 9])) (present (write2 0x07 0)) (fun t =>
      planIn t == some { status := stVersion, version := 1 }) = true := by
  repeat' apply And.intro
  all_goals decide +kernel

def other (op : Nat) : Cmd := { opcode := op, aux := 1, area := 2 ^ 128 }
/-- The flush with an earlier command of its session still in flight. -/
def behind (c : Cmd) : State :=
  { on with dlr := { inflight := [{ flight (keyed 0x02) with seq := 2 ^ 32 - 1, stamp := { time := 49 } }, flight c] } }
def spoiledScan : State :=
  { on with nss := [(3, { state := 1 })], dlr := { inflight := [{ flight (other 0x09) with spoiled := true }] } }
def tricky : State :=
  { on with dlr := { inflight := [{ flight { opcode := 0x10 } with trick := some 1 }] } }

theorem witness_OtherCommandsPlan : (∀ op ∈ [0x08, 0x09, 0x11, 0x12],
      readyFor (absent (other op)) op 7 1 = some (flight (other op)) ∧ running (absent (other op)) = true) ∧
    (absent (other 0x09)).idx.failed = [] ∧ writesBefore (absent (other 0x09)) (flight (other 0x09)) = false ∧
    scanUnread (absent (other 0x09)) (flight (other 0x09)) = false ∧
    readyFor (behind (other 0x09)) 0x09 7 1 = some (flight (other 0x09)) ∧
    writesBefore (behind (other 0x09)) (flight (other 0x09)) = true ∧
    readyFor spoiledScan 0x09 7 1 = some { flight (other 0x09) with spoiled := true } ∧ earlierOpen (absent (other 0x11)) (flight (other 0x11)) = false ∧
    earlierUnprogrammed (absent (other 0x11)) (flight (other 0x11)) = false ∧
    readyFor (behind (other 0x11)) 0x11 7 1 = some (flight (other 0x11)) ∧
    earlierOpen (behind (other 0x11)) (flight (other 0x11)) = true ∧
    findFlight tricky 7 1 = some { flight { opcode := 0x10 } with trick := some 1 } ∧
    mayRun tricky { flight { opcode := 0x10 } with trick := some 1 } = true ∧
    (groupOfFlight tricky { flight { opcode := 0x10 } with trick := some 1 }).filter (fun g => decide (g.seq ≠ 1)) = [] := by
  decide +kernel

theorem test_OtherCommandsPlan :
    after (.expireHint 7 1) (absent (other 0x08)) (fun t => planIn t == some { effect := .hint 3 1 0 0 1 }) = true ∧
    after (.flushSession 7 1) (absent (other 0x11)) (fun t => planIn t == some {}) = true ∧
    after (.flushSession 7 1) (behind (other 0x11)) (fun t => t == behind (other 0x11)) = true ∧
    after (.trick 7 1 [] []) tricky (fun t => planIn t == some {}) = true := by decide +kernel

/-- A PUT worked out in a host session, ready to commit, with the object of its key held or not. -/
def putPlan (e : Effect) : InFlight := { flight (write2 0x02 0) with phase := .planned, plan := { effect := e } }
def committing (e : Effect) : State :=
  { present (keyed 0x06) with
    dlr := { inflight := [putPlan e] }, sessions := [(7, { kind := .host, ctx := 0 })],
    jnl := { accepted := 1 } }

theorem witness_CommitStepCompletes : (∀ e ∈ [Effect.none, .store 3 [1] [8, 9] 2, .delete 3 [1]],
      running (committing e) = true ∧ findFlight (committing e) 7 1 = some (putPlan e) ∧ committable (committing e) (putPlan e) = true) ∧
    (putPlan .none).trick = none ∧ (putPlan .none).prot = none ∧ (putPlan .none).medium = false ∧
    hasEffect (putPlan .none).plan = false := by decide +kernel

theorem test_CommitStepCompletes :
    after (.commitStep 7 1) (committing (.store 3 [1] [8, 9] 2)) (fun t => t.dlr.inflight == [] && t.commits == 2 &&
      t.jnl.completed == 1 && (lookup t 3 [1]).map (·.item.value) == some [8, 9]) = true ∧
    after (.commitStep 7 1) (committing (.delete 3 [1])) (fun t => t.commits == 2 && (lookup t 3 [1]).isNone) = true ∧
    after (.commitStep 7 1) (committing .none) (fun t => t.commits == 1 && t.dlr.inflight == []) = true := by
  repeat' apply And.intro
  all_goals decide +kernel

/-- A FLUSH_SESSION that waits for admission in host session 7. -/
def flushItem : Arrived := { session := 7, seq := 1, cmd := { opcode := 0x11, cls := 2 }, at_ := 0, queued := true }
def host7 : Session := { kind := .host, ctx := 0 }
def arriving : State :=
  { on with
    sessions := [(7, host7)], dlr := { arrived := [flushItem], cached := [0] },
    host := { ports := [(0, { inL0 := true, width := 16, rate := 5, perst := false })] } }
def heldItem : State :=
  { on with clk := { time := 100000000 }, sessions := [(7, host7)], dlr := { arrived := [{ flushItem with queued := false }] } }
def overlapped : State := { on with dlr := { inflight := [{ flight (keyed 0x02) with phase := .waiting }] } }

theorem witness_AdmissionAndHolds : running arriving = true ∧ dealerOn arriving = true ∧ sessFind arriving 7 = some host7 ∧
    host7.draining = false ∧ nextItems arriving 7 = [flushItem] ∧ nextItems heldItem 7 = [] ∧ sessFind heldItem 7 = some host7 ∧
    heldItem.dlr.arrived.find? (fun a => decide (a.session = 7 ∧ a.seq = 1)) = some { flushItem with queued := false } ∧
    flushItem.at_ + heldItem.fab.holdMs * 1000000 ≤ now heldItem ∧
    arriving.dlr.arrived.find? (fun a => decide (a.session = 7 ∧ a.seq = 1)) = some flushItem ∧
    now arriving < flushItem.at_ + arriving.fab.holdMs * 1000000 ∧ overlapped.dlr.overlap = [] ∧
    findFlight overlapped 7 1 = some { flight (keyed 0x02) with phase := .waiting } := by decide +kernel

theorem test_AdmissionAndHolds :
    after (.admissionStep 7) arriving (fun t => t.dlr.arrived == [] && t.dlr.inflight.map (·.seq) == [1] &&
      (sessFind t 7).map (·.next) == some 2 && t.jnl.accepted == 1) = true ∧
    after (.heldSequenceRelease 7) heldItem (fun t => t.dlr.arrived == [flushItem]) = true ∧
    after (.holdLimitExpiry 7 1) heldItem (fun t => t.dlr.arrived == [] && t.dlr.discards == 1) = true ∧
    after (.overlapRelease 7 1) overlapped (fun t => (findFlight t 7 1).map (·.phase) == some .ready) = true := by decide +kernel

/-- What the Ante unit is asked for the flush of `arriving`. -/
def flushJob : Job :=
  { session := 7, seq := 1, cmd := flushItem.cmd, ns := 0, digest := 0, suit := 0, medium := true, trick := none, qos := 0,
    tenant := 0 }
def counted : State := countClassify (keyFor host7 flushItem.cmd 0 2) [] arriving
def flushBill : Bill := (billStep host7 none flushJob [] counted).1

theorem admitItems_one (id : Nat) (x : Session) (a : Arrived) (c : Cmd) (s s1 : State) (r : Rule) (h : Job)
    (e0 : touchCtx x.ctx s = s) (e1 : withStage s x id a.cmd = (c, [])) (e2 : decide (c.opcode = 0x10) = false)
    (e3 : isKeyed c.opcode = false) (e4 : namesNs c.opcode = false) (e5 : pick [(a.seq, fieldErrors c ++ [])] = none)
    (e6 : classify s (sourceOf x) (keyFor x c c.ns c.cls) [] = r) (e7 : countClassify (keyFor x c c.ns c.cls) [] s = s1)
    (e8 : jobOf s r id a.seq c c none = h)
    (e9 : pick [(a.seq, errIf (!r.permit || (decide (c.opcode = 0x12) && queryDenied s x (queryTarget c.area))) stDenied)] = none)
    (e10 : pick ([h.seq].zip (laterAll s1 [(h, (billStep x none h [] s1).1)] (0, 0, 0))) = none) :
    admitItems id x [a] s = admitPeers id x [a] h [] (billStep x none h [] s1) a.seq c.cls [h] s1 := by
  simp only [admitItems, e0, e1, e2, e3, e4, e6, e7, e8, List.map_cons, List.map_nil, List.append_nil, each,
    Bool.false_eq_true, if_false, false_and]
  simp only [List.append_nil] at e5
  rw [e5]
  simp only [e9]
  simp only [List.zip_cons_cons, List.zip_nil_right] at e10 ⊢
  rw [e10]

theorem admitPeers_one (id : Nat) (x : Session) (a : Arrived) (h : Job) (trial : Bill × List Bill) (q cls : Nat) (s : State)
    (e1 : neverFits id h [] trial s = false) (e2 : unopened s [h] = []) (e3 : askOrders cls (boundOf s cls) [h] s = s)
    (e4 : orderErrors s [h] = some ([], 0)) (e5 : pick [] = none) :
    admitPeers id x [a] h [] trial q cls [h] s = anteStep id x [a] h [] s := by
  simp only [admitPeers, admitOrdered, e1, e2, e3, e4, e5, List.any_nil, Bool.false_eq_true, if_false, ne_eq, not_true]

theorem witness_AdmissionGranted : admitItems 7 host7 [flushItem] arriving =
    acceptStep 7 2 2000 none false [(flushJob, flushBill)] [flushItem.seq]
      (decideShape 2 2000 0 (.command 7 1) flushBill.shape 0 counted).1 := by
  have a9 : admitItems 7 host7 [flushItem] arriving =
      admitPeers 7 host7 [flushItem] flushJob [] (billStep host7 none flushJob [] counted) 1 2 [flushJob] counted := by
    refine admitItems_one 7 host7 flushItem flushItem.cmd arriving counted _ flushJob ?_ ?_ rfl rfl rfl ?_ rfl rfl ?_ ?_ ?_ <;>
      decide +kernel
  have a10 : admitPeers 7 host7 [flushItem] flushJob [] (billStep host7 none flushJob [] counted) 1 2 [flushJob] counted =
      anteStep 7 host7 [flushItem] flushJob [] counted := by
    refine admitPeers_one _ _ _ _ _ _ _ _ ?_ ?_ ?_ ?_ rfl <;> decide +kernel
  rw [a9, a10]
  have a0 : ∀ p : Option Nat → Bool, (([none] : List (Option Nat)).find? p).getD (([none] : List (Option Nat)).headD none) =
      none := fun p => by cases h : p none <;> simp [List.find?, h]
  have a1 : billStep host7 none flushJob [] counted = (flushBill, []) := by decide +kernel
  have a3 : boundOf counted 2 = 2000 := rfl
  have a4 : setChoices counted [(flushJob, flushBill)] = [none] := rfl
  have a5 : flushBill.stuck = false := by decide +kernel
  have a7 : (decideShape 2 2000 0 (.command 7 1) flushBill.shape 0 counted).2 = .grant := by decide +kernel
  have a8 : retryCause (withoutGrant counted (decideShape 2 2000 0 (.command 7 1) flushBill.shape 0 counted).1) 7 host7
      [(flushJob, flushBill)] = none := by decide +kernel
  unfold anteStep
  simp only [a1, a4, a0, a3, a5, show flushJob.cmd.opcode = 17 from rfl, show flushJob.cmd.cls = 2 from rfl,
    show flushJob.qos = 0 from rfl, show flushJob.seq = 1 from rfl, show (17 = 16) = False from by simp, if_false,
    show isKeyed 17 = false from rfl, Bool.false_eq_true, List.flatMap_cons, List.flatMap_nil, List.append_nil]
  split
  · rename_i heq
    exact absurd ((congrArg Prod.snd heq).symm.trans a7) (by simp)
  · rename_i heq
    exact absurd ((congrArg Prod.snd heq).symm.trans a7) (by simp)
  · rename_i s1 heq
    have h1 : (decideShape 2 2000 0 (.command 7 1) flushBill.shape 0 counted).1 = s1 := congrArg Prod.fst heq
    rw [h1] at a8
    rw [a8, h1]
    rfl

/-! ## The host ports -/

/-- A queue of session 7 on port 0 with 4 entries each way. -/
def queue4 : Queue :=
  { session := 7, port := 0, sqSize := 4, cqSize := 4, sqBase := 4096, cqBase := 8192, vector := 0, irq := true, coCount := 2,
    coTime := 10 }
def upPort : Port := { inL0 := true, width := 16, rate := 5, perst := false }
/-- Context 917503 with queue `q`, port 0 up, fabric time `t`. -/
def queued (q : Queue) (t : Nat) : State :=
  { on with
    clk := { time := t },
    host := { sampled := true, ports := [(0, upPort)], ctxs := [(917503, { session := some 7, queue := some q })] },
    sessions := [(7, { kind := .host, ctx := 917503 })] }
def fetching (q : Queue) : State := { queued q 0 with dlr := { fetches := [917503] } }
def full4 : Queue := { queue4 with cqTail := 3 }
def comp1 : Completion := { session := 7, seq := 1, stamp := 0, version := 0, status := 0, vlen := 0 }
def entry1 : Fetched := { entry := 0x11, list := none, key := none, data := none }

theorem witness_DoorbellsAndFetch : running (queued queue4 0) = true ∧ (ctxAt (queued queue4 0) 917503).queue = some queue4 ∧
    queue4.deleting = false ∧ (3 : Nat) < queue4.sqSize ∧ headOk full4 3 = true ∧ queue4.port = 0 ∧ queue4.sqSize ≤ 4 ∧
    headOk full4 4 = false ∧ headOk queue4 1 = false ∧ queue4.port ≠ 1 ∧
    dealerOn (fetching { queue4 with tail := 1, fetch := 3 }) = true ∧
    nextFetch (fetching { queue4 with tail := 1, fetch := 3 }) = some 917503 ∧
    intakeHeld (fetching { queue4 with tail := 1, fetch := 3 }) (fetchedKeyed (some entry1)) = false ∧
    intakeHeld (fetching { queue4 with tail := 1, fetch := 3 }) false = false ∧
    cacheFull (fetching { queue4 with tail := 1, fetch := 3 }) 917503 = false ∧
    917503 ∈ ({ queued queue4 0 with dlr := { backlog := [917503] } } : State).dlr.backlog := by decide +kernel

theorem test_DoorbellsAndFetch :
    after (.sqTailWrite 0 917503 3 none) (queued queue4 0) (fun t => (ctxAt t 917503).queue == some { queue4 with tail := 3 }) = true ∧
    after (.sqTailWrite 0 917503 4 none) (queued queue4 0) (fun t => (ctxAt t 917503).queue == some queue4 && t.host.doorErr == 1) =
      true ∧
    after (.cqHeadWrite 0 917503 3) (queued full4 0) (fun t => (ctxAt t 917503).queue == some { full4 with cqHead := 3 }) = true ∧
    after (.cqHeadWrite 0 917503 1) (queued queue4 0) (fun t => (ctxAt t 917503).queue == some queue4) = true ∧
    after (.submissionEntryFetch 917503 (some entry1)) (fetching { queue4 with tail := 1, fetch := 3 }) (fun t =>
      t.dlr.arrived.map (fun a => (a.session, a.seq, a.cmd.opcode)) == [(7, 1, 0x11)] &&
      (ctxAt t 917503).queue == some { queue4 with tail := 1, fetch := 0, nextSeq := 2 }) = true ∧
    after (.submissionEntryFetch 917503 none) (fetching { queue4 with tail := 1, retried := true }) (fun t =>
      ((ctxAt t 917503).queue.map (·.error)) == some true) = true ∧
    after .intakeBacklogResume { queued queue4 0 with dlr := { backlog := [917503] } } (fun t => t.dlr.backlog == [] &&
      t.dlr.fetches == [917503]) = true := by decide +kernel

def lateCo : Queue := { queue4 with unsig := 1 }
def ending : Queue := { queue4 with deleting := true }

theorem witness_QueuesPostAndEnd : (ctxAt (queued { queue4 with held := [comp1] } 0) 917503).queue = some { queue4 with held := [comp1] } ∧
    running (queued { queue4 with held := [comp1] } 0) = true ∧ (queued queue4 0).boot.stage = 4 ∧ cqFree queue4 = true ∧
    portUp (queued queue4 0) 0 = true ∧ cqFree full4 = false ∧ lateCo.coTime ≠ 0 ∧ lateCo.unsig ≠ 0 ∧
    lateCo.unsigAt + lateCo.coTime * 1000 ≤ now (queued lateCo 10000) ∧ lateCo.irq = true ∧ lateCo.deleting = false ∧
    (ctxAt (queued ending 0) 917503).session = some 7 ∧ ending.deleting = true ∧ inflightOf (queued ending 0) 7 = [] ∧
    sessFind (queued ending 0) 7 = some { kind := .host, ctx := 917503 } := by decide +kernel

theorem test_QueuesPostAndEnd :
    after (.postHeldCompletion 917503) (queued { queue4 with held := [comp1], cqTail := 3, cqHead := 2 } 0) (fun t =>
      t.out.head? == some (.hostWrite 0 (8192 + 32 * 3) false (completionEntry comp1 0 true)) &&
      (ctxAt t 917503).queue.map (fun q => (q.held, q.cqTail, q.phase)) == some ([], 0, false)) = true ∧
    after (.postHeldCompletion 917503) (queued { full4 with held := [comp1] } 0) (fun t => t.out == []) = true ∧
    after (.coalesceTimerExpiry 917503) (queued lateCo 10000) (fun t => (ctxAt t 917503).queue == some queue4) = true ∧
    after (.coalesceTimerExpiry 917503) (queued lateCo 9999) (fun t => (ctxAt t 917503).queue == some lateCo) = true ∧
    after (.queueDeleteComplete 917503) (queued ending 0) (fun t => (ctxAt t 917503).queue == none &&
      (sessFind t 7).map (·.deleted) == some true) = true := by decide +kernel

def portsDown (wake : Bool) (t : Nat) : State :=
  { on with clk := { time := t }, host := { sampled := true, ports := [(0, {})], wake := wake, wakeAt := 5 } }

/-- Port 0 out of PERST# since time 0, and one out of L0 that has been up. -/
def portsUp (t : Nat) : State :=
  { on with clk := { time := t }, host := { sampled := true, ports := [(0, { upPort with cfgAt := 100000000 })] } }
def retraining : State := { on with host := { sampled := true, ports := [(0, { upPort with inL0 := false, wasUp := true })] } }
def unstrapped : State := { on with boot := { stage := 4, perstFrom := 0 } }
def poweringOn : State := { on with boot := { stage := 0, perstFrom := 20000000 } }

theorem witness_HostPortEvents : running unstrapped = true ∧ unstrapped.boot.perstFrom ≤ now unstrapped ∧ running poweringOn = true ∧
    now poweringOn < poweringOn.boot.perstFrom ∧ now (portsUp 99999999) < 100000000 ∧ 100000000 ≤ now (portsUp 100000000) ∧
    tfind (portsUp 0).host.ports 0 = some { upPort with cfgAt := 100000000 } ∧ bit 6 2 = true ∧ 8 ≤ portLanes on.host.bifSel ∧
    tfind retraining.host.ports 0 = some { upPort with inL0 := false, wasUp := true } ∧ unstrapped.host.sampled = false ∧ (3 : Nat) < portCount (6 % 4) ∧
    (portsDown true 0).host.sampled = true ∧ tfind (portsDown true 0).host.ports 0 = some {} ∧
    tfind (queued queue4 0).host.ports 0 = some upPort ∧ upPort.perst = false ∧ running (queued queue4 0) = true ∧
    (portsDown true 100000005).host.wake = true ∧ 5 + 100000000 ≤ now (portsDown true 100000005) ∧
    (portsDown false 0).host.wake = false ∧ (∀ p ∈ (queued queue4 0).host.ports, p.2.inL0 = true) := by decide +kernel

theorem test_HostPortEvents :
    after (.perstDeassert 3 6 true) poweringOn (fun t => t.host.early == [(3, 6, true)] && !t.host.sampled) = true ∧
    after (.perstDeassert 3 6 true) unstrapped (fun t => t.host.bifSel == 2 && t.host.ports.length == 4 && t.host.sampled &&
      (tfind t.host.ports 3).map (·.perst) == some false) = true ∧
    after (.configRequest ⟨0, 0x008, none⟩) (queued queue4 0) (fun t => t.out.length == 1 && t.host == (queued queue4 0).host) = true ∧
    after (.configRequest ⟨0, 0x008, none⟩) (portsUp 99999999) (fun t => t.out == [.cfgRetry 0]) = true ∧
    after (.configRequest ⟨0, 0x004, some 6⟩) (portsUp 100000000) (fun t => t.out == [.cfgAnswer 0 0]) = true ∧
    after (.hostLinkChange 0 true 8 4) (portsDown true 0) (fun t =>
      (tfind t.host.ports 0).map (fun x => (x.inL0, x.width, x.rate, x.retrains)) == some (true, 8, 4, 0)) = true ∧
    after (.hostLinkChange 0 true 8 4) retraining (fun t => (tfind t.host.ports 0).map (·.retrains) == some 1) = true ∧
    after (.portReset 0 .linkDown) (queued queue4 0) (fun t => (tfind t.host.ports 0).map (·.inL0) == some false) = true ∧
    after (.portReset 0 .flr) (queued queue4 0) (fun t => (tfind t.host.ports 0).map (·.inL0) == some true) = true ∧
    after .wakeRelease (portsDown true 100000005) (fun t => t.out == [.wake false]) = true ∧
    after .wakeRelease (portsDown true 100000004) (fun t => t.out == []) = true := by decide +kernel

/-! ## Clients over the fabric -/

/-- Client trunk 0 on lane 511, address 10.0.0.1, and a classifier that admits every client as number 9. -/
def clientOn (t : Nat) : State :=
  { on with
    clk := { time := t },
    lanes := [(511, { cfg := { client := true }, state := .up, inTrunk := true })],
    fab := { trunks := [(0, { mask := 2 ^ 511, enabled := true, v4 := true, pre4 := 24, addr4 := 0x0A000001 })] },
    cam := { banks := [(0, { profile := 1 })], entries := [(0, { priority := 1, result := 1 + 9 * 2, key := 0, mask := 0 })] } }
def addr2 : Nat := 0xFFFF0A000002
def dgram (kind seq : Nat) (body : Bytes) : Dgram :=
  { lane := 511, srcAddr := addr2, srcPort := 1000, magic := 0x574C, version := 1, kind := kind, final := false, session := 9,
    sequence := seq, wordA := 5, wordB := 0, bodyLen := body.length, body := body }
def client9 : Session := { kind := .client, ctx := 917504, addr := addr2, udp := 1000, maxDgram := 8944 }
def clientIn (x : Session) (t : Nat) : State := { clientOn t with sessions := [(9, x)] }
def openDgram (body : Bytes) : Dgram := dgram 1 4 body
def answered : State := { clientOn 10000000000 with fab := { (clientOn 0).fab with openAnswers := [(addr2, 1000, 5, 0, 77)] } }

theorem witness_ClientOpenAnswers : running (clientOn 0) = true ∧ arrivalTrunk (clientOn 0) (openDgram [2, 0]) = some 0 ∧
    headerOk (openDgram [2, 0]) = true ∧ (openDgram [2, 0]).kind = 1 ∧ (openDgram [2, 0]).bodyLen ≤ (openDgram [2, 0]).body.length ∧
    (clientOn 0).fab.openAnswers = [] ∧ openStatus (clientOn 0) (openDgram [2, 0]) 0 = (stOk, 9) ∧
    freeCtx (clientOn 0) = some 917504 ∧ openStatus (clientOn 0) (openDgram [1, 255]) 0 = (stLength, 0) ∧ stLength ≠ stOk ∧
    arrivalTrunk answered (openDgram [2, 0]) = some 0 ∧ running answered = true ∧
    (addr2, 1000, 5, 0, 77) ∈ answered.fab.openAnswers ∧ now answered ≤ 0 + 10000000000 ∧ (openDgram [2, 0]).srcAddr = addr2 ∧
    (openDgram [2, 0]).srcPort = 1000 ∧ (openDgram [2, 0]).wordA = 5 := by decide +kernel

theorem test_ClientOpenAnswers :
    after (.clientOpen (openDgram [2, 0])) (clientOn 0) (fun t =>
      t.sessions.map (fun p => (p.2.kind, p.2.ctx, p.2.clientId, p.2.addr, p.2.udp)) == [(.client, 917504, 9, addr2, 1000)]) = true ∧
    after (.clientOpen (openDgram [1, 255])) (clientOn 0) (fun t => t.sessions == []) = true ∧
    after (.clientOpen (openDgram [2, 0])) answered (fun t => t.sessions == []) = true := by decide +kernel

def exists64 : Bytes := natLe 64 0x06
def cmdDgram (seq : Nat) : Dgram := dgram 3 seq exists64

theorem witness_ClientDatagrams : running (clientIn client9 0) = true ∧
    arrivalTrunk (clientIn client9 0) (cmdDgram 1) = some 0 ∧ headerOk (cmdDgram 1) = true ∧
    (∀ k ∈ [3, 4, 7, 8], clientType k = true ∧ sessionFor (clientIn client9 0) (dgram k 1 exists64) 0 = some client9) ∧
    (cmdDgram 1).bodyLen ≤ (cmdDgram 1).body.length ∧ withdrawnTrick client9 1 (clientCmd exists64) = false ∧
    (cmdDgram 1).sequence = client9.next ∧ client9.draining = false ∧ (clientIn client9 0).dlr.arrived = [] ∧
    (cmdDgram 4097).sequence ≠ client9.next ∧ later 4097 client9.next = true ∧ 4095 < (4097 + 2 ^ 32 - client9.next) % 2 ^ 32 ∧
    withdrawnTrick client9 4097 (clientCmd exists64) = false ∧ (clientIn client9 0).fab.stages = [] ∧
    stagedBytes (clientIn client9 0) 9 + (stagePut [] 0 exists64).length ≤ (clientIn client9 0).fab.stageMib * 1048576 ∧
    wasWithdrawn client9 1 = false ∧ later 1 client9.next = false := by decide +kernel

theorem test_ClientDatagrams :
    after (.clientCommand (cmdDgram 1)) (clientIn client9 0) (fun t => t.dlr.taken == 1 &&
      t.dlr.arrived.map (fun a => (a.session, a.seq, a.cmd.opcode, a.queued)) == [(9, 1, 6, true)]) = true ∧
    after (.clientCommand (cmdDgram 4097)) (clientIn client9 0) (fun t => t.dlr.oow == 1 && t.dlr.arrived == []) = true ∧
    after (.clientCommand (cmdDgram 4096)) (clientIn client9 0) (fun t => t.dlr.oow == 0 &&
      t.dlr.arrived.map (·.queued) == [false]) = true ∧
    after (.clientStage (dgram 4 0 [1, 2])) (clientIn client9 0) (fun t =>
      t.fab.stages.map (fun p => (p.1, p.2.handle, p.2.bytes)) == [(9, 5, [(0, 1), (1, 2)])]) = true ∧
    after (.clientWithdraw (dgram 7 1 [])) (clientIn client9 0) (fun t => t.dlr.withdrawn == 1) = true ∧
    after (.clientClose (dgram 8 0 [])) (clientIn client9 0) (fun t => (sessFind t 9).map (·.draining) == some true) = true := by
  decide +kernel

def closing9 : Session := { client9 with draining := true, closer := some (addr2, 1000) }
def staged (t : Nat) : State :=
  { clientOn t with fab := { (clientOn 0).fab with stages := [(9, { handle := 5, at_ := 0 })] } }
def waitingOut : State := { on with fab := { trunks := [(0, { waiting := [{ bytes := [1] }, { bytes := [2] }] })] } }

theorem witness_ClientSessionsEnd : sessFind (clientIn closing9 0) 9 = some closing9 ∧ closing9.kind = .client ∧
    closing9.closer = some (addr2, 1000) ∧ closing9.draining = true ∧ inflightOf (clientIn closing9 0) 9 = [] ∧
    running (clientIn closing9 0) = true ∧ sessFind (clientIn client9 600000000000) 9 = some client9 ∧
    (clientIn client9 0).fab.idleS ≠ 0 ∧ client9.lastAt + (clientIn client9 0).fab.idleS * 1000000000 ≤ 600000000000 ∧
    client9.draining = false ∧
    (staged 1000000000).fab.stages.find? (fun p => decide (p.1 = 9 ∧ p.2.handle = 5)) = some (9, { handle := 5, at_ := 0 }) ∧
    0 + (staged 1000000000).fab.stageIdleMs * 1000000 ≤ now (staged 1000000000) ∧
    arrivalTrunk (clientOn 0) { cmdDgram 1 with version := 2 } = some 0 ∧ headerOk { cmdDgram 1 with version := 2 } = false ∧
    arrivalTrunk (clientOn 0) (cmdDgram 1) = some 0 ∧ (cmdDgram 1).kind ≠ 1 ∧ clientType (cmdDgram 1).kind = true ∧
    sessionFor (clientOn 0) (cmdDgram 1) 0 = none ∧ (laneAt (clientOn 0) 511).cfg.client = true ∧
    trunkOf (clientOn 0) 511 = some 0 ∧ (trunkAt (clientOn 0) 0).v4 = true ∧ 0x0A000001 = (trunkAt (clientOn 0) 0).addr4 ∧
    inActivation (clientOn 0) = false ∧ running waitingOut = true := by decide +kernel

theorem test_ClientSessionsEnd :
    after (.clientCloseComplete 9) (clientIn closing9 0) (fun t => t.sessions == []) = true ∧
    after (.clientSessionIdle 9) (clientIn client9 600000000000) (fun t => t.sessions == []) = true ∧
    after (.clientSessionIdle 9) (clientIn client9 599999999999) (fun t => t.sessions != []) = true ∧
    after (.stageIdleExpiry 9 5) (staged 1000000000) (fun t => t.fab.stages == []) = true ∧
    after (.clientDatagramDrop { cmdDgram 1 with version := 2 }) (clientOn 0) (fun t => t.fabc.typeDrop == 1) = true ∧
    after (.clientDatagramDrop (cmdDgram 1)) (clientOn 0) (fun t => t.fabc.clientDrop == 1) = true ∧
    after (.clientCompletionDiscard 0) waitingOut (fun t => t.fabc.clientDrop == 2 && (trunkAt t 0).waiting == []) = true := by
  decide +kernel

/-! ## Shards, orders and protected commands between modules -/

/-- Fabric session 12 of module 4, with credit for 100 units, at sequence 1. -/
def fabric12 : Session := { kind := .fabric, ctx := 917505, credit := { peer := 4, grant := 100 } }
def shard1 (v : Nat) : Shard :=
  { ns := 3, key := [1], digest := 77, stampTime := 5, stampTie := 0, stampNode := 4, version := v, suit := 0, index := 0,
    whole := 3, spreadK := 0, spreadM := 0, tombstone := false, value := [10, 11, 12] }
def pend1 : Pending := { sh := shard1 2, session := 12, seq := 9, deadline := 100, kitty := 0, medium := false, addr := 0 }
/-- A module that answers its fabric sessions, holding the object of key 01 at version 1 and a pending shard of it. -/
def member : State :=
  { present (keyed 0x06) with
    dlr := {}, sessions := [(12, fabric12)],
    fab := { nodeId := 3, nodeValid := true, pend := [pend1], windowMib := 68 }, pwr := { pending := 51200 } }
def stamp5 : Stamp := { time := 5, tie := 0, node := 4 }

theorem witness_ShardRequestsRun :
    (∀ q ∈ [FabReq.creditReturn 100, .hold (shard1 2) 50 false, .commit 3 77 stamp5, .discard 3 77 stamp5,
        .decide 3 77 stamp5 true, .read 3 [1], .rebuild (shard1 1), .rebuild (shard1 2), .invalid],
      takesNext member 12 1 q fabric12) ∧
    findPend member 3 77 stamp5 = some pend1 ∧ haveNewer member (shard1 1) = true ∧ haveNewer member (shard1 2) = false ∧
    (shard1 2).tombstone = false ∧ member.fab.readPct ≠ 0 ∧ shardUnread member 3 [1] = false ∧
    linkTo member fabric12.credit.peer = none := by
  unfold takesNext
  decide +kernel

theorem test_ShardRequestsRun_credit :
    after (.creditReturn 12 1 100) member (fun t => t.pwr.pending == 0 && (sessFind t 12).map (·.next) == some 2) = true := by decide +kernel

theorem test_ShardRequestsRun_hold :
    after (.shardHold 12 1 0 ⟨40, 50⟩ (shard1 3) false) member (fun t => t.fab.pend.map (fun p => (p.sh.version, p.deadline)) ==
      [(2, 100), (3, 816000)] && t.commits == 1) = true := by decide +kernel

theorem test_ShardRequestsRun_commit :
    after (.shardCommit 12 1 3 77 5 0 4) member (fun t => t.fab.pend == [] && t.commits == 2) = true := by decide +kernel

theorem test_ShardRequestsRun_discard :
    after (.shardDiscard 12 1 3 77 5 0 4) member (fun t => t.fab.pend == [] && t.commits == 1) = true := by decide +kernel

theorem test_ShardRequestsRun_decide :
    after (.decide 12 1 3 77 5 0 4 true) member (fun t => t.fab.decisions.map (fun y => (y.ns, y.digest, y.ok)) == [(3, 77, true)]) =
      true := by decide +kernel

theorem test_ShardRequestsRun_read :
    after (.shardRead 12 1 3 [1]) member (fun t => t.fab.unsent.any (fun q => q.1 == 4 && q.2.own == (12, 1) && (match q.2.sh with
      | some h => h.version == 1 && h.value == [10, 11, 12]
      | none => false))) = true := by decide +kernel

theorem test_ShardRequestsRun_rebuildOld :
    after (.rebuildWrite 12 1 (shard1 1)) member (fun t => t.commits == 1) = true := by decide +kernel

theorem test_ShardRequestsRun_rebuildNew :
    after (.rebuildWrite 12 1 (shard1 2)) member (fun t => t.commits == 2) = true := by decide +kernel

theorem test_ShardRequestsRun_invalid :
    after (.fabricRequestInvalid 12 1 7) member (fun t => (sessFind t 12).map (fun y => (y.next, y.refusal)) ==
      some (1, some (stOpcode, 0))) = true := by decide +kernel

def req1 : Request := { seq := 6, units := 2, at_ := 0, code := 1, own := (7, 1) }
/-- A link to module 4, with or without a request not yet acknowledged, and an OPEN sent to module 5. -/
def linked (unacked : List Request) (t : Nat) : State :=
  { member with
    clk := { time := t },
    fab := { nodeId := 3, nodeValid := true, opens := [(8, 5)],
             links := [(4, { session := 70, grant := 10, charged := 4, unacked := unacked, nextSeq := 7 })] } }
/-- A joined module with room for a session, and one without. -/
def open3 : State := { on with fab := { nodeId := 3, nodeValid := true, windowMib := 68 } }
def noCtx : State := { open3 with host := { ctxLimit := 1048576 } }
def req2 : Request := { req1 with code := 2 }

theorem witness_FabricSessionsRun : running open3 = true ∧ dealerOn open3 = true ∧ joined open3 = true ∧ freeCtx open3 = some 917504 ∧
    freeCtx noCtx = none ∧ dealerOn noCtx = true ∧ joined noCtx = true ∧ (8, 5) ∈ (linked [] 0).fab.opens ∧ (70 : Nat) ≠ 0 ∧
    joined (linked [] 0) = true ∧ (linked [] 0).fab.unsent = [] ∧ sessFind member 12 = some fabric12 ∧ joined member = true ∧
    later 6 9 = false ∧ later req2.seq 5 = true ∧ later req2.seq 6 = false ∧
    linkTo (linked [] 20000000) 4 = some { session := 70, grant := 10, charged := 4, nextSeq := 7 } ∧
    linkTo (linked [req1] 500000) 4 = some { session := 70, grant := 10, charged := 4, unacked := [req1], nextSeq := 7 } ∧
    [req1].find? (fun r => decide (r.seq = 6)) = some req1 ∧
    req1.at_ + (linked [req1] 500000).fab.retransUs * 1000 ≤ now (linked [req1] 500000) ∧
    (linked [] 20000000).fab.idleMs ≠ 0 ∧ creditLeft { session := 70, grant := 10, charged := 4 } ≠ 0 ∧
    0 + (linked [] 20000000).fab.idleMs * 1000000 ≤ now (linked [] 20000000) := by decide +kernel

theorem test_FabricSessionsRun :
    after (.fabricOpen 4 8) open3 (fun t => t.sessions.map (fun p => (p.2.kind, p.2.ctx, p.2.credit.peer)) == [(.fabric, 917504, 4)]) =
      true ∧
    after (.fabricOpen 4 8) noCtx (fun t => t.sessions == [] && t.fabc.hopDrop == 1) = true ∧
    after (.fabricOpenReply 5 8 71 0) (linked [] 3) (fun t => linkTo t 5 == some { session := 71, idleAt := 3 } && t.fab.opens == []) =
      true ∧
    after (.fabricOpenReply 5 8 0 stQueue) (linked [] 3) (fun t => linkTo t 5 == none && t.fab.noOpens == [5] && t.fab.opens == []) =
      true ∧
    after (.fabricOpenReply 5 8 71 0) { linked [] 3 with fab := { (linked [] 3).fab with conflict := true } } (fun t =>
      linkTo t 5 == none) = true ∧
    after (.fabricClose 12) member (fun t => t.sessions == [] && t.pwr.pending == 0) = true ∧
    after (.fabricAck 4 6 9 []) (linked [] 3) (fun t => (linkTo t 4).map (·.grant) == some 10) = true ∧
    after (.fabricAck 4 6 12 []) (linked [] 3) (fun t => (linkTo t 4).map (·.grant) == some 12) = true ∧
    after (.fabricAck 4 6 12 []) (linked [req2] 3) (fun t => (linkTo t 4).map (·.unacked) == some []) = true ∧
    after (.fabricAck 4 5 12 []) (linked [req2] 3) (fun t => (linkTo t 4).map (·.unacked) == some [req2]) = true ∧
    after (.sessionRetransmit 4 6) (linked [req1] 500000) (fun t => t.fabc.sessionRetx == 1) = true ∧
    after (.sessionRetransmit 4 6) (linked [req1] 499999) (fun t => t.fabc.sessionRetx == 0) = true ∧
    after (.idleCreditReturnTimer 4) (linked [] 20000000) (fun t =>
      (linkTo t 4).map (fun y => (y.nextSeq, y.unacked.map (·.units))) == some (8, [6])) = true := by
  repeat' apply And.intro
  all_goals decide +kernel

/-- Module 3 leads every key of namespace 3, with modules 4 and 5 as its other holders. -/
def leading (o : List WriteOrder) : State :=
  { on with
    nss := [(3, { state := 1, protect := 1, mirror := 3, holders := [3, 4, 5] })],
    fab := { nodeId := 3, nodeValid := true, orders := o, leadFrom := [(9, 0)] } }
def order9 : WriteOrder := { ns := 3, digest := 0, src := 4, until_ := 900 }
def crc3 : Nat := mapCrc (nsAt (leading []) 3)
def asking (t : Nat) : State :=
  { on with
    clk := { time := t },
    fab := { nodeId := 4, nodeValid := true,
             orderOut := [{ request := 6, session := 7, seq := 1, ns := 3, digest := 0, write := true, lead := 3, at_ := 0 }] } }
def out6 : OrderOut := { request := 6, session := 7, seq := 1, ns := 3, digest := 0, write := true, lead := 3, at_ := 0 }
def ended : State := { leading [order9] with clk := { time := 900 } }

/-- The same lead with a trained lane to module 4, and what the frame it sends there carries after its Walin header. -/
def routed : State :=
  { leading [] with
    lanes := [(3, { state := .up, inTrunk := true, farNode := some 4 })],
    fab := { (leading []).fab with leadFrom := [], routes := [(4, { primary := some 4 })] } }
def answerOn (t : State) : Bytes := ((laneAt t 3).tx.map (fun f => (f.bytes.drop 46))).flatten

theorem witness_OrdersRun : running (leading []) = true ∧ dealerOn (leading []) = true ∧ joined (leading []) = true ∧
    joined (asking 5) = true ∧ leadOf (leading []) 3 0 = some (leading []).fab.nodeId ∧
    (900 : Nat) ≠ 0 ∧ crc3 + 1 ≠ mapCrc (nsAt (leading []) 3) ∧ leadWaits (leading []) = none ∧ heldOrder (leading []) 3 0 = none ∧
    heldOrder (leading [order9]) 3 0 = some order9 ∧ leadOf (leading [order9]) 3 0 = some 3 ∧
    (asking 20000).fab.orderOut.find? (fun o => decide (o.request = 6 ∧ o.lead = 3) && o.answer.isNone) = some out6 ∧
    (asking 20000).fab.orderOut.find? (fun o => decide (o.request = 6) && o.answer.isNone) = some out6 ∧
    sessFind (asking 20000) 7 = none ∧ out6.at_ + 20000 ≤ now (asking 20000) ∧ orderFor (asking 20000) 7 1 = some out6 ∧
    order9 ∈ ended.fab.orders ∧ order9.until_ ≤ now ended ∧ tfind ended.fab.leadFrom 9 = some 0 := by decide +kernel

theorem test_OrdersRun :
    after (.orderRequest 4 6 3 0 (crc3 + 1) true 900) (leading []) (fun t => t.fab.orders == []) = true ∧
    after (.orderRequest 4 6 3 0 (crc3 + 1) true 900) routed (fun t => answerOn t == [3]) = true ∧
    after (.orderRequest 4 6 3 0 crc3 true 900) routed (fun t => answerOn t == [0, 0, 0, 0, 0, 0, 0, 0, 0]) = true ∧
    after (.orderRequest 4 6 3 0 crc3 true 900) { routed with fab := { routed.fab with leadFrom := [(9, 7)] } } (fun t =>
      answerOn t == [2, 0, 0, 0, 0, 0, 0, 0, 7]) = true ∧
    after (.orderRequest 4 6 3 0 crc3 false 900) routed (fun t => (answerOn t).take 9 == [1, 0, 0, 0, 0, 0, 0, 0, 0]) = true ∧
    after (.orderRequest 4 6 3 0 crc3 true 900) (leading []) (fun t => t.fab.orders == [order9]) = true ∧
    after (.orderRequest 5 6 3 0 crc3 true 900) (leading [order9]) (fun t => t.fab.orders == [order9]) = true ∧
    after (.orderRequest 4 6 3 0 crc3 true 0) (leading [order9]) (fun t => t.fab.orders == []) = true ∧
    after (.orderReply 3 6 .mismatch) (asking 5) (fun t => t.fab.orderOut.map (·.answer) == [some .mismatch]) = true ∧
    after (.orderTimeout 6) (asking 20000) (fun t => t.fab.orderOut == []) = true ∧
    after (.orderTimeout 6) (asking 19999) (fun t => t.fab.orderOut == [out6]) = true ∧
    after (.writeOrderExpiry 3 0) ended (fun t => t.fab.orders == []) = true ∧
    after (.leadHorizonEnd 9) ended (fun t => t.fab.leadFrom == []) = true := by decide +kernel

/-- A protected PUT of module 3 with its plan, and the answers so far. -/
def prot1 (p : Protect) : InFlight :=
  { flight (write2 0x02 0) with prot := some p, phase := .planned, plan := { effect := .store 3 [1] [8, 9] 2, version := 1 } }
def protOn (p : Protect) (t : Nat) : State := { leading [] with clk := { time := t }, dlr := { inflight := [prot1 p] } }
def due90 : Protect := { deadline := 90, answered := [3, 4, 5] }
def rec5 (ok : Bool) : Decision := { ns := 3, digest := 77, stampTime := 5, stampTie := 0, stampNode := 4, ok := ok, version := 2 }
/-- Shards past their deadline slot, without and with the outcome recorded here. -/
def expired : State :=
  { leading [] with
    clk := { time := 100 },
    fab := { (leading []).fab with
             pend := [pend1], owedList := [{ ns := 3, digest := 0, holder := 6 }], routes := [(6, { primary := some 6 })] } }
def recorded (ok : Bool) : State := { expired with fab := { expired.fab with decisions := [rec5 ok] } }
def reading : Protect := { asked := 1, sent := [4, 5], shards := [] }
/-- Module 5 holds shard 2 of every key of namespace 3, and is owed one; a copy to make it from is at hand or not. -/
def owed5 : Owed := { ns := 3, digest := 0, holder := 5 }
def owing (l : List Shard) : State :=
  { leading [] with fab := { (leading []).fab with owedList := [owed5], gather := l, routes := [(5, { primary := some 5 })] } }
def copy0 : Shard := { shard1 2 with digest := 0 }
def silent (t : Nat) : State := { leading [] with clk := { time := t }, fab := { (leading []).fab with links := [(5, { session := 8 })] } }
theorem witness_HoldDeadlineAndDecide : running (protOn due90 90) = true ∧
    findFlight (protOn due90 90) 7 1 = some (prot1 due90) ∧ (prot1 due90).prot = some due90 ∧ (prot1 due90).trick = none ∧
    (prot1 due90).phase = .planned ∧ hasEffect (prot1 due90).plan = true ∧ due90.decided = none ∧
    heldEnough (protOn due90 90) (prot1 due90) = true ∧ heldEnough (protOn { deadline := 90 } 90) (prot1 { deadline := 90 }) = false ∧
    due90.deadline ≠ 0 ∧ due90.deadline ≤ now (protOn due90 90) ∧ now (protOn due90 89) < due90.deadline ∧
    findFlight (protOn { decided := some true } 10000) 7 1 = some (prot1 { decided := some true }) ∧
    0 + (protOn { decided := some true } 10000).fab.allowUs * 1000 / 6 ≤ now (protOn { decided := some true } 10000) := by
  decide +kernel

theorem witness_ProtectedCommandsGoOn :
    expired.fab.pend.find? (fun p => decide (p.sh.stampTime = 5 ∧ p.sh.stampTie = 0 ∧ p.sh.stampNode = 4 ∧ p.deadline ≤ now expired)) =
      some pend1 ∧ ownDecision expired pend1 = none ∧ ownDecision (recorded false) pend1 = some false ∧
    findFlight (protOn reading 60001) 7 1 = some (prot1 reading) ∧ 4 ∈ reading.sent ∧ 4 ∉ reading.gone ∧ reading.read = false ∧
    reading.asked + (protOn reading 60001).fab.allowUs * 1000 ≤ now (protOn reading 60001) ∧ isWrite (write2 0x02 0).opcode = true := by
  decide +kernel

theorem witness_ModulesFail :
    5 ≠ (silent 20000000).fab.nodeId ∧ 5 ∉ (silent 20000000).fab.dead ∧ reachable (silent 20000000) 5 = false ∧
    tget (fun _ => 0) (silent 20000000).fab.lastSeen 5 + (silent 20000000).fab.peerFailMs * 1000000 ≤ now (silent 20000000) ∧
    succeeds (silent 20000000) 5 = true ∧ 6 ≠ (silent 20000000).fab.nodeId ∧ 6 ∉ (silent 20000000).fab.dead ∧
    reachable (silent 20000000) 6 = false ∧ succeeds (silent 20000000) 6 = false ∧
    tget (fun _ => 0) (silent 20000000).fab.lastSeen 6 + (silent 20000000).fab.peerFailMs * 1000000 ≤ now (silent 20000000) ∧
    owedNext expired 3 0 = some { ns := 3, digest := 0, holder := 6 } ∧ (keyHolders expired 3 0).idxOf? 6 = none ∧
    owedNext (owing []) 3 0 = some owed5 ∧ (keyHolders (owing []) 3 0).idxOf? 5 = some 2 ∧
    (sources (owing []) 3 0).length < shardsNeeded (nsAt (owing []) 3) ∧
    shardsNeeded (nsAt (owing [copy0]) 3) ≤ (sources (owing [copy0]) 3 0).length := by decide +kernel

theorem witness_ShardRebuildHasRoom : ((rebuiltShard (nsAt (owing [copy0]) 3) (sources (owing [copy0]) 3 0) 2).bind (fun h =>
    takeAntes .shardRebuild false true 0 (rebuildShape h) (owing [copy0]))).isSome = true := by decide +kernel

theorem test_HoldDeadlineAndDecide :
    after (.shardHoldDeadline 7 1) (protOn due90 90) (fun t => (findFlight t 7 1).map (fun f => f.prot.map (·.decided)) ==
      some (some (some true))) = true ∧
    after (.shardHoldDeadline 7 1) (protOn { deadline := 90 } 90) (fun t => (findFlight t 7 1).map (fun f =>
      f.prot.map (·.decided)) == some (some (some false))) = true ∧
    after (.shardHoldDeadline 7 1) (protOn due90 89) (fun t => t.dlr.inflight == [prot1 due90]) = true ∧
    after (.decideTimeout 7 1) (protOn { decided := some true } 10000) (fun t => (findFlight t 7 1).map (fun f =>
      f.prot.map (·.decideAt)) == some (some 10000)) = true ∧
    after (.decideTimeout 7 1) (protOn { decided := some true } 9999) (fun t => (findFlight t 7 1).map (fun f =>
      f.prot.map (·.decideAt)) == some (some 0)) = true := by decide +kernel

theorem test_ProtectedCommandsGoOn :
    after (.pendingShardResolve 5 0 4 .discard) expired (fun t => t.fab.pend == [] && t.commits == 0) = true ∧
    after (.pendingShardResolve 5 0 4 .commit) expired (fun t => t.fab.pend == [] && t.commits == 1) = true ∧
    after (.pendingShardResolve 5 0 4 .commit) (recorded false) (fun t => t.fab.pend == [] && t.commits == 0) = true ∧
    after (.pendingShardResolve 5 0 4 .discard) (recorded true) (fun t => t.fab.pend == [] && t.commits == 1) = true ∧
    after (.shardReadData 0 0 5 true 3 copy0) expired (fun t => t.fab.gather.map (·.version) == [3]) = true ∧
    after (.shardReadData 7 1 4 true 3 copy0) (protOn reading 5) (fun t => (findFlight t 7 1).map (fun f =>
      f.prot.map (fun p => (p.shards.map (·.version), p.read))) == some (some ([3], true))) = true ∧
    after (.shardReadAllowanceExpiry 7 1) (protOn reading 60001) (fun t =>
      (findFlight t 7 1).map (fun f => f.prot.map (fun p => (p.read, p.failed))) == some (some (true, true))) = true := by
  decide +kernel

theorem test_ModulesFail :
    after (.peerFailure 5) (silent 20000000) (fun t => t.fab.dead == [5] && (linkTo t 5).isNone &&
      tfind t.fab.leadFrom 5 == some (20000000 + 65536 * 16000)) = true ∧
    after (.peerFailure 6) (silent 20000000) (fun t => t.fab.dead == [6] && t.fab.leadFrom == [(9, 0)]) = true ∧
    after (.peerFailure 5) (silent 19999999) (fun t => t.fab.dead == []) = true ∧
    after (.shardRebuild 3 0) expired (fun t => t.fab.owedList == []) = true ∧
    after (.shardRebuild 3 0) (owing []) (fun t => t.fab.owedList == [owed5] && t.fab.unsent.map (fun q => (q.1, q.2.code)) == [(4, 5)]) =
      true ∧
    after (.shardRebuild 3 0) (owing [copy0]) (fun t => t.fab.unsent.map (fun q => (q.1, q.2.code, q.2.sh.map (·.index))) ==
      [(5, 6, some 2)]) = true := by decide +kernel

/-! ## Rows, cores and mailboxes -/

/-- Meld 5 with its row 0 running to time 9, one record placed in it; block 0 is of die 0, plane 0. -/
def progMeld (l : List Placed) : Meld :=
  { state := .open_, blocks := [0], asm := l, next := 5760, programs := [(0, 0)], running := some 9 }
def placed1 : Placed :=
  { addr := 14745600, item := rec1, dram := some 4, src := none, kitty := 0, owner := none, medium := false }
def programming (l : List Placed) : State := { tickAt 9 { melds := [(5, progMeld l)] } with mem := { held := [(4, rec1)], nextHeld := 5 } }
def draining4 : State :=
  { on with
    cores := { draining := [(4, 3)] },
    ante := { maint := [{ id := 2, kind := .roleDrain, target := 4, first := 0, slots := 1, firm := false }] } }
def takingOver : State :=
  { on with cores := { takeover := true, roles := (List.range 32).map (fun c => (c, if c = 7 then 3 else 1)) } }

theorem witness_RowsAndCoresEnd : running (programming [placed1]) = true ∧ meldAt (programming [placed1]) 5 = progMeld [placed1] ∧
    (progMeld [placed1]).running = some 9 ∧ (progMeld [placed1]).programs = (0, 0) :: [] ∧ 9 ≤ now (programming [placed1]) ∧
    ([] : List ProgFail).flatMap (blocksOn (progMeld [placed1])) = [] ∧ lastRow (progMeld [placed1]) placed1 ≤ 0 ∧
    placed1.medium = false ∧ placed1.dram = some 4 ∧
    [({ die := 0, plane := 0 } : ProgFail)].flatMap (blocksOn (progMeld [placed1])) ≠ [] ∧
    roleOf on 31 ≠ 15 ∧ running on = true ∧ draining4.cores.draining = [(4, 3)] ∧
    findMaint draining4 .roleDrain 4 = some { id := 2, kind := .roleDrain, target := 4, first := 0, slots := 1, firm := false } ∧
    0 ≤ slotOf (now draining4) ∧ coreBusy draining4 4 = false ∧ takingOver.cores.takeover = true ∧ roleCount takingOver 3 = 1 := by
  decide +kernel

theorem test_RowsAndCoresEnd :
    after (.rowProgramComplete 5 []) (programming [placed1]) (fun t => t.med.progSeq == 2 &&
      (tfind t.med.flash 14745600).map (fun r => (r.key, r.value)) == some ([1], [7, 8]) && t.med.moves == [(14745600, true, 4)]) = true ∧
    after (.rowProgramComplete 5 [{ die := 0, plane := 0 }]) (programming [placed1]) (fun t => t.med.torn == 1 &&
      t.med.aborted == [(5, 0)] && t.med.progSeq == 2) = true ∧
    after (.coreFailure 31) on (fun t => roleOf t 31 == 15) = true ∧
    after (.coreFailure 32) on (fun t => t == on) = true ∧
    after (.coreRoleDrain 4) draining4 (fun t => roleOf t 4 == 3) = true ∧
    after .managementTakeoverComplete takingOver (fun t => !t.cores.takeover) = true := by
  repeat' apply And.intro
  all_goals decide +kernel

/-- The bytes of `n` bytes of `v` as a mailbox payload. -/
def cellsOf (n v : Nat) : List Host.Cell :=
  (natLe n v).zipIdx.filterMap (fun p => if p.1 = 0 then none else some (p.2, p.1))
def box (cmd page target inLen v : Nat) : Mailbox :=
  { busy := true, command := cmd, page := page, format := 1, target := target, inLen := inLen, payload := cellsOf inLen v }
/-- `s` with command `x` waiting in mailbox 15 of port 0. -/
def boxed (x : Mailbox) (s : State) : State := { s with host := { s.host with goQueue := [15], boxes := [(15, x)] } }
def answers (t : State) (st : Nat) (out : Bytes) : Bool :=
  (boxAt t 15).status == st && !(boxAt t 15).busy && (boxAt t 15).outLen == out.length &&
  bytesAt (boxAt t 15).payload 0 out.length == out
/-- A module whose port 0 manages nothing. -/
def unmanaged : State := { on with host := { mgmtMask := 14 } }

theorem witness_MailboxCommandsAreChecked : (∀ c ∈ [0x10, 0x11, 0x20, 0x40, 0x99],
      running (boxed (box c 0 0 4033 0) on) = true ∧ (boxed (box c 0 0 4033 0) on).host.goQueue.head? = some 15 ∧
      boxAt (boxed (box c 0 0 4033 0) on) 15 = box c 0 0 4033 0 ∧ (box c 0 0 4033 0).busy = true) ∧
    boxRefusal (boxed (box 0x10 0 0 4033 0) on) 15 (box 0x10 0 0 4033 0) false = some stLength ∧
    boxRefusal (boxed (box 0x20 0 0 4033 0) on) 15 (box 0x20 0 0 4033 0) false = some stLength ∧
    boxRefusal (boxed (box 0x11 0 0 0 0) unmanaged) 15 (box 0x11 0 0 0 0) true = some stDenied ∧
    boxRefusal (boxed (box 0x40 0 0 0 0) unmanaged) 15 (box 0x40 0 0 0 0) true = some stDenied ∧
    boxRefusal (boxed (box 0x99 0 0 4032 0) on) 15 (box 0x99 0 0 4032 0) false = none ∧ 0x99 ∉ boxCodes ∧ 0x56 ∈ boxCodes := by
  decide +kernel

theorem test_MailboxCommandsAreChecked :
    after (.settingRead 15) (boxed (box 0x10 0x104 0 4033 0) on) (fun t => answers t stLength []) = true ∧
    after (.settingRead 15) (boxed (box 0x10 0x104 0 0 0) State.reset) (fun t => answers t stBusy []) = true ∧
    after (.settingWrite 15) (boxed (box 0x11 0x900 0 40 0) unmanaged) (fun t => answers t stDenied []) = true ∧
    after (.mailboxUnknownCommand 15) (boxed (box 0x99 0 0 0 0) on) (fun t => answers t stOpcode []) = true ∧
    after (.mailboxUnknownCommand 15) (boxed (box 0x56 0 0 0 0) on) (fun t => (boxAt t 15).busy) = true := by decide +kernel

def page900 (kik lock : Nat) : Nat := 2 * lock + 24 * 2 ^ 16 + 1000 * 2 ^ 32 + kik * 2 ^ 64
def write900 (kik lock : Nat) : Mailbox := box 0x11 0x900 0 40 (page900 kik lock)

theorem witness_SettingPagesAreRead :
    boxRuns (boxed (box 0x10 0x901 4095 0 0) on) 15 (box 0x10 0x901 4095 0 0) 0x10 false ∧ pageOf 0x901 = some (88, 4097) ∧
    (4095 < 4097 ∧ 4097 ≤ 4097 ∧ pageOf 0x999 = none) ∧
    boxRuns (boxed (box 0x10 0x999 0 0 0) on) 15 (box 0x10 0x999 0 0 0) 0x10 false ∧
    boxRuns (boxed (box 0x10 0x901 4097 0 0) on) 15 (box 0x10 0x901 4097 0 0) 0x10 false := by
  unfold boxRuns
  decide +kernel

theorem witness_SettingPagesAreWritten :
    boxRuns (boxed (write900 7 0) on) 15 (write900 7 0) 0x11 true ∧ pageOf (write900 7 0).page = some ((write900 7 0).inLen, 1) ∧
    (write900 7 0).format = pageFormat (boxed (write900 7 0) on) 0x900 ∧
    (pageWrite (boxTaken (boxed (write900 7 0) on)) 0x900 0 (writtenPage (write900 7 0))).isSome = true ∧
    boxRuns (boxed (write900 0 1) on) 15 (write900 0 1) 0x11 true ∧
    pageWrite (boxTaken (boxed (write900 0 1) on)) 0x900 0 (writtenPage (write900 0 1)) = none := by
  unfold boxRuns
  decide +kernel

theorem witness_SettingPagesAreRefused :
    boxRuns (boxed { write900 7 0 with format := 2 } on) 15 { write900 7 0 with format := 2 } 0x11 true ∧
    (2 ≠ pageFormat (boxed { write900 7 0 with format := 2 } on) 0x900) ∧
    boxRuns (boxed { write900 7 0 with inLen := 39 } on) 15 { write900 7 0 with inLen := 39 } 0x11 true ∧ 39 ≠ 40 ∧
    boxRuns (boxed (box 0x11 0x999 0 0 0) on) 15 (box 0x11 0x999 0 0 0) 0x11 true := by
  unfold boxRuns
  decide +kernel

theorem test_SettingPagesReadAndWrite :
    after (.settingRead 15) (boxed (box 0x10 0x900 0 0 0) on) (fun t => answers t stOk (natLe 40 (page900 0 0))) = true ∧
    after (.settingRead 15) (boxed (box 0x10 0x901 4097 0 0) on) (fun t => answers t stPageField []) = true ∧
    after (.settingRead 15) (boxed (box 0x10 0x999 0 0 0) on) (fun t => answers t stPageUnknown []) = true ∧
    after (.settingWrite 15) (boxed (write900 7 0) on) (fun t => answers t stOk [] && t.xts.kik == some 7) = true ∧
    after (.settingWrite 15) (boxed { write900 7 0 with format := 2 } on) (fun t => answers t stPageFormat [] && t.xts.kik == none) =
      true ∧
    after (.settingWrite 15) (boxed { write900 7 0 with inLen := 39 } on) (fun t => answers t stPageField [] && t.xts.kik == none) =
      true := by decide +kernel

/-! ## Keys, settings that act, queues and reports by mailbox -/

theorem pageRuns_of {s : State} {b page n : Nat} {x : Mailbox}
    (h : (running s = true ∧ s.host.goQueue.head? = some b ∧ boxAt s b = x ∧ x.busy = true ∧
      x.command = 0x11 ∧ boxRefusal s b x true = none) ∧ x.page = page ∧ x.format = pageFormat s page ∧
      pageOf page = some (x.inLen, n) ∧ x.target < n) : pageRuns s b page x :=
  ⟨h.1, h.2.1, h.2.2.1, n, h.2.2.2⟩

def write901 (action : Nat) : Mailbox := box 0x11 0x901 4095 88 (16 * action)
def keyed900 (k : Option (BitVec 256)) : State := { on with xts := { kik := k } }
def slotUsed : State := { on with nss := [(3, { state := 1, keySlot := 4095 })] }
def noSource : State := { on with xts := { aOk := false, bOk := false } }

theorem witness_KeyActionsRun : (∀ a ∈ [1, 3], pageRuns (boxed (write901 a) on) 15 0x901 (write901 a)) ∧
    pageRuns (boxed (write901 2) (keyed900 (some 7))) 15 0x901 (write901 2) ∧
    (slotUsers (boxed (write901 1) on) 4095 = 0 ∧ bit (writtenPage (write901 3)) 3 = false ∧
      bits (writtenPage (write901 3)) 15 6 = 0 ∧ bits (writtenPage (write901 3)) 31 29 = 0 ∧
      (∀ a ∈ [1, 2, 3], keyAction (writtenPage (write901 a)) = a) ∧ noisePasses (boxed (write901 1) on) = true) := by
  refine ⟨?_, pageRuns_of (n := 4097) (by decide +kernel), by decide +kernel⟩
  intro a h
  rcases List.mem_cons.1 h with rfl | h
  · exact pageRuns_of (n := 4097) (by decide +kernel)
  · rw [List.mem_singleton.1 h]; exact pageRuns_of (n := 4097) (by decide +kernel)

theorem witness_KeysInUseAreRefused : ∀ a ∈ [1, 2, 3], pageRuns (boxed (write901 a) slotUsed) 15 0x901 (write901 a) ∧
    slotUsers (boxed (write901 a) slotUsed) (write901 a).target ≠ 0 := by
  have g : ∀ a ∈ [1, 2, 3], ((running (boxed (write901 a) slotUsed) = true ∧
      (boxed (write901 a) slotUsed).host.goQueue.head? = some 15 ∧ boxAt (boxed (write901 a) slotUsed) 15 = write901 a ∧
      (write901 a).busy = true ∧ (write901 a).command = 0x11 ∧
      boxRefusal (boxed (write901 a) slotUsed) 15 (write901 a) true = none) ∧ (write901 a).page = 0x901 ∧
      (write901 a).format = pageFormat (boxed (write901 a) slotUsed) 0x901 ∧ pageOf 0x901 = some ((write901 a).inLen, 4097) ∧
      (write901 a).target < 4097) ∧ slotUsers (boxed (write901 a) slotUsed) (write901 a).target ≠ 0 := by decide +kernel
  exact fun a h => ⟨pageRuns_of (g a h).1, (g a h).2⟩

theorem witness_KeyActionsAreRefused :
    (pageRuns (boxed (write901 2) on) 15 0x901 (write901 2) ∧ (boxed (write901 2) on).xts.kik = none) ∧
    (pageRuns (boxed (write901 1) noSource) 15 0x901 (write901 1) ∧ noisePasses (boxed (write901 1) noSource) = false) ∧
    pageRuns (boxed (box 0x11 0x901 4095 88 8) on) 15 0x901 (box 0x11 0x901 4095 88 8) ∧
    bit (writtenPage (box 0x11 0x901 4095 88 8)) 3 = true := by
  refine ⟨⟨pageRuns_of (n := 4097) ?_, ?_⟩, ⟨pageRuns_of (n := 4097) ?_, ?_⟩, pageRuns_of (n := 4097) ?_, ?_⟩ <;> decide +kernel

def kikLocked7 : State := { on with xts := { kik := some 7, kikLocked := true } }

theorem witness_KikInstalled : pageRuns (boxed (write900 9 0) on) 15 0x900 (write900 9 0) ∧
    (fieldIn (writtenPage (write900 9 0)) 23 16 0 168 = true ∧ fieldIn (writtenPage (write900 9 0)) 47 32 10 60000 = true ∧
      bits (writtenPage (write900 9 0)) 319 64 ≠ 0 ∧ bit (writtenPage (write900 9 0)) 1 = false ∧ on.xts.kikLocked = false) ∧
    pageRuns (boxed (write900 9 0) kikLocked7) 15 0x900 (write900 9 0) ∧ kikLocked7.xts.kikLocked = true ∧
    pageRuns (boxed (write900 0 1) (keyed900 (some 7))) 15 0x900 (write900 0 1) ∧
    (bits (writtenPage (write900 0 1)) 319 64 = 0 ∧ bit (writtenPage (write900 0 1)) 1 = true ∧
      (boxed (write900 0 1) (keyed900 (some 7))).xts.kik = some 7) := by
  refine ⟨pageRuns_of (n := 1) ?_, ?_, pageRuns_of (n := 1) ?_, ?_, pageRuns_of (n := 1) ?_, ?_⟩ <;> decide +kernel

theorem test_KeysAreManaged :
    after (.keyGenerate 15) (boxed (write901 1) on) (fun t => answers t stOk [] && (tget keyBlank t.xts.slots 4095).key.isSome) = true ∧
    after (.keyGenerate 15) (boxed (write901 1) slotUsed) (fun t => answers t stPageField [] && t.xts == slotUsed.xts) = true ∧
    after (.keyGenerate 15) (boxed (write901 1) noSource) (fun t => answers t stPageField []) = true ∧
    after (.keyImport 15) (boxed (write901 2) on) (fun t => answers t stPageField []) = true ∧
    after (.keyZeroize 15) (boxed (write901 3) { on with xts := { slots := [(4095, { key := some 5 })] } }) (fun t =>
      answers t stOk [] && tget keyBlank t.xts.slots 4095 == {}) = true ∧
    after (.kikInstall 15) (boxed (write900 9 0) on) (fun t => answers t stOk [] && t.xts.kik == some 9) = true ∧
    after (.kikInstall 15) (boxed (write900 9 0) kikLocked7) (fun t => answers t stPageField [] && t.xts.kik == some 7) = true ∧
    after (.kikLock 15) (boxed (write900 0 1) (keyed900 (some 7))) (fun t => t.xts.kikLocked && t.xts.kik == some 7) = true ∧
    after (.kikLock 15) (boxed (write900 0 1) on) (fun t => answers t stPageField [] && !t.xts.kikLocked) = true := by decide +kernel

def releasing (st : Nat) : State := { on with nss := [(3, { state := st })] }
/-- A RELEASING namespace with a read of it under way. -/
def reading3 : State := { releasing 3 with dlr := { inflight := [flight (keyed 0x01)] } }
/-- The same with a write of it under way. -/
def writing3 : State := { releasing 3 with dlr := { inflight := [flight (write2 0x02 0)] } }
def release3 : Mailbox := box 0x11 0x201 3 32 2
def page502 (t : Nat) : Nat :=
  48 + 50 * 2 ^ 8 + 60 * 2 ^ 16 + 500 * 2 ^ 32 + 20 * 2 ^ 48 + 68 * 2 ^ 64 + 50 * 2 ^ 72 + 20 * 2 ^ 80 + 256 * 2 ^ 96 +
    10 * 2 ^ 112 + t * 2 ^ 128
def setTime7 : Mailbox := box 0x11 0x502 0 32 (page502 7)
/-- A module whose time master is module 1. -/
def follower : State :=
  { on with fab := { nodeId := 3, nodeValid := true, routes := [(1, { primary := some 1 })], nodes := [(1, { valid := true })] } }
def calendar (v : Nat) : Mailbox := box 0x11 0xB01 0 16 v
/-- Page 0x0602 for target `a`, hole `h`: a valid entry of priority 3. -/
def insertAt (a h : Nat) : Mailbox := box 0x11 0x602 a 104 (h + 2 ^ 64 * (1 + 3 * 16 + 2 ^ 64))

theorem witness_NamespaceIsReleased :
    pageRuns (boxed release3 (releasing 2)) 15 0x201 release3 ∧ bit (writtenPage release3) 1 = true ∧
    (write0201 (boxTaken (boxed release3 (releasing 2))) 3 (writtenPage release3)).isSome = true ∧
    pageRuns (boxed release3 (releasing 1)) 15 0x201 release3 ∧ (nsAt (boxed release3 (releasing 1)) 3).state ≠ 2 ∧
    (nsAt reading3 3).state = 3 ∧ nsHasEntry reading3 3 = false ∧
    (∀ f ∈ reading3.dlr.inflight, f.ns = 3 → isWrite f.cmd.opcode = false) := by
  refine ⟨pageRuns_of (n := 4096) ?_, ?_, ?_, pageRuns_of (n := 4096) ?_, ?_⟩ <;> decide +kernel

theorem witness_TimeIsSet :
    (pageRuns (boxed setTime7 on) 15 0x502 setTime7 ∧ bits (writtenPage setTime7) 191 128 ≠ 0 ∧
      (write0502 (boxTaken (boxed setTime7 on)) (writtenPage setTime7)).isSome = true ∧ on.clk.first = false) ∧
    pageRuns (boxed setTime7 follower) 15 0x502 setTime7 ∧ ownMaster (boxed setTime7 follower) = false := by
  refine ⟨⟨pageRuns_of (n := 1) ?_, ?_⟩, pageRuns_of (n := 1) ?_, ?_⟩ <;> decide +kernel

theorem witness_CalendarIsSet :
    pageRuns (boxed (calendar (2 ^ 32 + 2)) on) 15 0xB01 (calendar (2 ^ 32 + 2)) ∧
    fieldIn (writtenPage (calendar (2 ^ 32 + 2))) 4 2 0 4 = true ∧ fieldIn (writtenPage (calendar (2 ^ 32 + 2))) 79 64 0 10000 = true ∧
    bits (writtenPage (calendar (2 ^ 32 + 2))) 63 32 ≠ 0xFFFFFFFF ∧ bits (writtenPage (calendar (2 ^ 32 + 2))) 63 32 ≠ 0 ∧
    bit (writtenPage (calendar (2 ^ 32 + 2))) 1 = true :=
  ⟨pageRuns_of (n := 1) (by decide +kernel), by decide +kernel⟩

theorem witness_EntryIsInserted :
    (pageRuns (boxed (insertAt 5 9) on) 15 0x602 (insertAt 5 9) ∧
      insertOk (boxed (insertAt 5 9) on) 5 (bits (writtenPage (insertAt 5 9)) 14 0) (entryPage (writtenPage (insertAt 5 9)) 64) =
        true ∧ (entryPage (writtenPage (insertAt 5 9)) 64).valid = true) ∧
    pageRuns (boxed (insertAt 5 5) on) 15 0x602 (insertAt 5 5) ∧
    insertOk (boxed (insertAt 5 5) on) 5 (bits (writtenPage (insertAt 5 5)) 14 0) (entryPage (writtenPage (insertAt 5 5)) 64) =
      false := by
  refine ⟨⟨pageRuns_of (n := 32768) ?_, ?_⟩, pageRuns_of (n := 32768) ?_, ?_⟩ <;> decide +kernel

theorem test_SettingsThatAct :
    after (.namespaceRelease 15) (boxed release3 (releasing 2)) (fun t => answers t stOk [] && (nsAt t 3).state == 3) = true ∧
    after (.namespaceRelease 15) (boxed release3 (releasing 1)) (fun t => answers t stPageField [] && (nsAt t 3).state == 1) = true ∧
    after (.namespaceFreed 3) reading3 (fun t => (nsAt t 3).state == 0) = true ∧
    after (.namespaceFreed 3) writing3 (fun t => (nsAt t 3).state == 3) = true ∧
    after (.namespaceFreed 3) (releasing 2) (fun t => (nsAt t 3).state == 2) = true ∧
    after (.timeSet 15) (boxed setTime7 on) (fun t => answers t stOk [] && t.clk.time == 7) = true ∧
    after (.timeSet 15) (boxed setTime7 follower) (fun t => answers t stPageField [] && t.clk.time == 0) = true ∧
    after (.calendarSet 15) (boxed (calendar (77 * 2 ^ 32)) on) (fun t => answers t stOk [] && t.evr.calendar == some (77, 0)) = true ∧
    after (.eventStoreClear 15) (boxed (calendar 2) on) (fun t => answers t stOk [] && t.evr.store == []) = true ∧
    after (.classifierOrderedInsert 15) (boxed (insertAt 5 9) on) (fun t => answers t stOk [] &&
      t.cam.entries == [(5, { priority := 3, result := 1, key := 0, mask := 0 })]) = true := by decide +kernel

def create4 (sq : Nat) : Mailbox := box 0x20 0 9 32 (sq + 4 * 2 ^ 32 + 4096 * 2 ^ 64 + 8192 * 2 ^ 128)
def delete9 (release : Nat) : Mailbox := box 0x21 0 917503 1 release
def release7 : Mailbox := box 0x22 0 0 8 7
def deletedIn (d : Bool) : State := { on with sessions := [(7, { kind := .host, ctx := 917503, deleted := d })] }
def list0 : Mailbox := box 0x23 0 0 0 0

theorem witness_QueuesAndSessionsByMailbox : boxRuns (boxed (create4 4) on) 15 (create4 4) 0x20 false ∧
    createOk (boxed (create4 4) on) (boxPort 15) 9 (leNat (boxInput (create4 4) 32)) = true ∧
    boxRuns (boxed (create4 1) on) 15 (create4 1) 0x20 false ∧
    createOk (boxed (create4 1) on) (boxPort 15) 9 (leNat (boxInput (create4 1) 32)) = false ∧
    boxRuns (boxed (delete9 1) (queued queue4 0)) 15 (delete9 1) 0x21 false ∧
    deletable (boxed (delete9 1) (queued queue4 0)) 917503 (boxPort 15) = true ∧
    (ctxAt (boxed (delete9 1) (queued queue4 0)) 917503).session = some 7 ∧
    (ctxAt (boxed (delete9 1) (queued queue4 0)) 917503).queue = some queue4 ∧
    sessFind (boxed (delete9 1) (queued queue4 0)) 7 = some { kind := .host, ctx := 917503 } ∧
    boxRuns (boxed (delete9 1) on) 15 (delete9 1) 0x21 false ∧
    deletable (boxed (delete9 1) on) 917503 (boxPort 15) = false := by
  unfold boxRuns
  decide +kernel

theorem witness_SessionsByMailbox : boxRuns (boxed release7 (deletedIn true)) 15 release7 0x22 false ∧ leNat (boxInput release7 8) = 7 ∧
    sessFind (boxed release7 (deletedIn true)) 7 = some { kind := .host, ctx := 917503, deleted := true } ∧
    (ctxAt (boxed release7 (deletedIn true)) 917503).queue = none ∧
    boxRuns (boxed release7 (deletedIn false)) 15 release7 0x22 false ∧ boxRuns (boxed release7 on) 15 release7 0x22 false ∧
    sessFind (boxed release7 on) 7 = none ∧ boxRuns (boxed list0 on) 15 list0 0x23 false := by
  unfold boxRuns
  decide +kernel

theorem test_QueuesAndSessionsByMailbox :
    after (.queueCreate 15) (boxed (create4 4) on) (fun t => answers t stOk [9, 0, 0, 0, 0, 0, 0, 0] &&
      (ctxAt t 9).session == some 9 && (ctxAt t 9).generation == 1 &&
      ((ctxAt t 9).queue.map (fun q => (q.sqSize, q.cqSize, q.sqBase, q.cqBase, q.nextSeq))) == some (4, 4, 4096, 8192, 1)) = true ∧
    after (.queueCreate 15) (boxed (create4 1) on) (fun t => answers t stQueue [] && t.sessions == []) = true ∧
    after (.queueDelete 15) (boxed (delete9 1) (queued queue4 0)) (fun t => (boxAt t 15).busy &&
      ((ctxAt t 917503).queue.map (·.deleting)) == some true && (sessFind t 7).map (·.release) == some true) = true ∧
    after (.queueDelete 15) (boxed (delete9 1) on) (fun t => answers t stQueue []) = true ∧
    after (.sessionRelease 15) (boxed release7 (deletedIn true)) (fun t => answers t stOk [] && t.sessions == []) = true ∧
    after (.sessionRelease 15) (boxed release7 (deletedIn false)) (fun t => answers t stQueue [] && t.sessions != []) = true ∧
    after (.sessionList 15) (boxed list0 (deletedIn true)) (fun t => (boxAt t 15).outLen == 16) = true := by decide +kernel

/-- A journal query of session `id` for `n` fates from sequence 1. -/
def query (id n : Nat) : Mailbox := box 0x24 0 0 32 (id + 2 ^ 64 + n * 2 ^ 96)
def event1 : EvRec :=
  { seq := 1, code := 0x0C05, sev := 1, calValid := false, varied := false, epoch := 0, folded := 1, opSec := 0, cycles := 1,
    time := 0, lastOp := 0, calS := 0, payload := [1], until_ := 0 }
def storing (t : Nat) : State :=
  { on with clk := { time := t }, evr := { nextSeq := 3, store := [(0, event1)], pending := [{ event1 with seq := 2, until_ := 50 }] } }
def readFrom (seq sev : Nat) : Mailbox := box 0x31 0 0 9 (seq + sev * 2 ^ 64)
def withPort (u : Option Nat) (t : Nat) : State :=
  { on with clk := { time := t }, host := { sampled := true, ports := [(0, { upPort with unlock := u })] } }

theorem witness_ReportsAndUnlock : boxRuns (boxed (query 7 125) on) 15 (query 7 125) 0x24 false ∧
    queryCount (leNat (boxInput (query 7 125) 32)) ≤ 125 ∧
    mayQuery (boxed (query 7 125) on) (boxPort 15) (queryTarget (leNat (boxInput (query 7 125) 32))) = true ∧
    boxRuns (boxed (query (2 ^ 52) 1) unmanaged) 15 (query (2 ^ 52) 1) 0x24 false ∧
    mayQuery (boxed (query (2 ^ 52) 1) unmanaged) (boxPort 15) (queryTarget (leNat (boxInput (query (2 ^ 52) 1) 32))) = false ∧
    boxRuns (boxed (query 7 126) on) 15 (query 7 126) 0x24 false ∧ 125 < queryCount (leNat (boxInput (query 7 126) 32)) ∧
    boxRuns (boxed (box 0x30 0 0 0 0) on) 15 (box 0x30 0 0 0 0) 0x30 false ∧
    boxRuns (boxed (readFrom 0 0) (storing 0)) 15 (readFrom 0 0) 0x31 false ∧
    boxRuns (boxed (box 0x40 0 0 0 0) (withPort none 0)) 15 (box 0x40 0 0 0 0) 0x40 true ∧
    tfind (boxed (box 0x40 0 0 0 0) (withPort none 0)).host.ports (boxPort 15) = some upPort ∧
    running (withPort (some 9) 9) = true ∧ tfind (withPort (some 9) 9).host.ports 0 = some { upPort with unlock := some 9 } ∧
    9 ≤ now (withPort (some 9) 9) ∧ now (withPort (some 9) 8) < 9 := by
  unfold boxRuns
  decide +kernel

theorem test_ReportsAndUnlock :
    after (.mbxJournalQuery 15) (boxed (query 7 1) on) (fun t => (boxAt t 15).outLen == 64 && (boxAt t 15).status == stOk) = true ∧
    after (.mbxJournalQuery 15) (boxed (query 7 126) on) (fun t => answers t stLength []) = true ∧
    after (.mbxJournalQuery 15) (boxed (query (2 ^ 52) 1) unmanaged) (fun t => answers t stDenied []) = true ∧
    after (.ledgerSnapshot 15) (boxed (box 0x30 0 0 0 0) on) (fun t => (boxAt t 15).outLen == 128 &&
      leNat (bytesAt (boxAt t 15).payload 88 4) == 2797568) = true ∧
    after (.eventRead 15) (boxed (readFrom 0 0) (storing 0)) (fun t => (boxAt t 15).outLen == 32 + 56 &&
      bytesAt (boxAt t 15).payload 8 8 == natLe 8 3) = true ∧
    after (.eventRead 15) (boxed (readFrom 0 2) (storing 0)) (fun t => (boxAt t 15).outLen == 32) = true ∧
    after (.diagUnlock 15) (boxed (box 0x40 0 0 0 0) (withPort none 5)) (fun t => answers t stOk [] &&
      (tfind t.host.ports 0).map (·.unlock) == some (some 60000000005)) = true ∧
    after (.diagUnlockExpiry 0) (withPort (some 9) 9) (fun t => (tfind t.host.ports 0).map (·.unlock) == some none) = true ∧
    after (.diagUnlockExpiry 0) (withPort (some 9) 8) (fun t => (tfind t.host.ports 0).map (·.unlock) == some (some 9)) = true := by
  decide +kernel

/-! ## Lanes, trunks, routes -/

/-- Lane 511 in state `x`, fabric time `t`. -/
def laneOn (l : Lane) (t : Nat) : State := { on with clk := { time := t, unlocked := [511] }, lanes := [(511, l)] }
def inState (x : LaneState) : Lane := { state := x }
/-- A lane in CONFIRM whose settings were changed meanwhile. -/
def changed : Lane := { inState .confirm with pending := some {} }
/-- A retraining reservation of lane 511 from slot `k`. -/
def window (k : Nat) (l : Lane) : State :=
  { laneOn l 16000 with ante := { maint := [{ id := 2, kind := .laneRetrain, target := 511, first := k, slots := 9, firm := false }] } }

theorem witness_LaneTrainingFollowsItsTable : (∀ x ∈ [LaneState.off, .waiting, .training, .locking, .confirm, .up, .failed],
      running (laneOn (inState x) 0) = true ∧ lanesServe (laneOn (inState x) 0) = true ∧ 511 < 512 ∧
      laneAt (laneOn (inState x) 0) 511 = inState x) ∧
    (inState .confirm).pending = none ∧ laneAt (laneOn changed 0) 511 = changed ∧ changed.pending.isSome = true ∧
    windowOpen (window 1 (inState .waiting)) 511 = true ∧ (inState .waiting).revoking = false ∧
    windowOpen (window 2 (inState .waiting)) 511 = false ∧ windowOpen (laneOn (inState .off) 0) 511 = true ∧
    (inState .training).since + 500000000 ≤ now (laneOn (inState .training) 500000000) ∧
    (inState .locking).since + 50000000 ≤ now (laneOn (inState .locking) 50000000) ∧
    (inState .up).upAt + 1000000000 ≤ now (laneOn (inState .up) 1000000000) ∧
    now (laneOn (inState .up) 999999999) < (inState .up).upAt + 1000000000 := by decide +kernel

theorem test_LaneTrainingFollowsItsTable :
    after (.laneRetrainWindowStart 511) (window 1 (inState .waiting)) (fun t => (laneAt t 511).state == .training) = true ∧
    after (.laneRetrainWindowStart 511) (window 2 (inState .waiting)) (fun t => (laneAt t 511).state == .waiting) = true ∧
    after (.laneTrainingDone 511 1 2 3) (laneOn (inState .training) 7) (fun t => (laneAt t 511).state == .locking &&
      (laneAt t 511).taps == (1, 2, 3) && (laneAt t 511).since == 7) = true ∧
    after (.laneTrainingTimeout 511) (laneOn { inState .training with attempts := 2 } 500000000) (fun t =>
      (laneAt t 511).state == .failed && (laneAt t 511).attempts == 3) = true ∧
    after (.laneTrainingTimeout 511) (laneOn (inState .locking) 50000000) (fun t => (laneAt t 511).state == .waiting) = true ∧
    after (.blockLock 511) (laneOn (inState .locking) 7) (fun t => (laneAt t 511).state == .confirm && t.clk.unlocked == []) = true ∧
    after (.confirmPass 511) (laneOn (inState .confirm) 7) (fun t => (laneAt t 511).state == .up && (laneAt t 511).upAt == 7) = true ∧
    after (.confirmPass 511) (laneOn changed 7) (fun t => (laneAt t 511).state == .waiting) = true ∧
    after (.falseLock 511) (laneOn (inState .confirm) 7) (fun t => (laneAt t 511).state == .locking &&
      laneCount (laneAt t 511) 43 == 1) = true ∧
    after (.lockLoss 511) (laneOn (inState .up) 7) (fun t => (laneAt t 511).state == .waiting && laneCount (laneAt t 511) 41 == 1) = true ∧
    after (.attemptCountReset 511) (laneOn { inState .up with attempts := 2 } 1000000000) (fun t => (laneAt t 511).attempts == 0) =
      true := by decide +kernel

/-- Lane 511 up, as a client lane with pause honoured, or as a fabric lane. -/
def clientUp : Lane := { cfg := { client := true, flow := 1 }, state := .up }
def upLane : Lane := inState .up
def hiBer (t : Nat) : State := laneOn { upLane with hiBer := true, hiBerAt := 0 } t
def heldTo9 : Lane := { clientUp with held := some 9 }
def pausing : Lane :=
  { clientUp with pauseSent := true, rx := [{ bytes := [], mark := .good, reserve := 25, shared := 0 }], cfg := { clientUp.cfg with quanta := 10 } }
def frame1 : TxFrame := { bytes := [1] }
def watched : Lane := { clientUp with held := some 60000000, heldFrom := 0, tx := [frame1] }
def off9 : Lane := { upLane with holdoff := some 9 }
def sleepy : Lane := { upLane with cfg := { upLane.cfg with lpiIdleUs := 3 } }
def asleep : Lane := { upLane with txLpi := true, tx := [frame1] }

theorem witness_LanesHoldAndSleep : (∀ l ∈ [upLane, { upLane with hiBer := true, hiBerAt := 0 }, clientUp, heldTo9, pausing, watched, off9,
      sleepy, asleep], running (laneOn l 50000000) = true ∧ lanesServe (laneOn l 50000000) = true ∧
      laneAt (laneOn l 50000000) 511 = l ∧ l.state = .up) ∧
    (15 : Nat) < 16 ∧ upLane.hiBer = false ∧ 0 + 1000000 ≤ now (hiBer 1000000) ∧
    clientUp.cfg.client = true ∧ clientUp.cfg.flow = 1 ∧ inHoldoff (laneOn clientUp 0) clientUp = false ∧
    ({ clientUp.cfg with flow := 0 } : LaneCfg).flow = 0 ∧ heldTo9.held = some 9 ∧ 9 ≤ now (laneOn heldTo9 9) ∧
    now (laneOn heldTo9 8) < 9 := by decide +kernel

theorem witness_LanesPauseAndSleep : pausing.pauseSent = true ∧
    pausing.pauseAt + pausing.cfg.quanta * 256 / 10 ≤ now (laneOn pausing 256) ∧ pausing.cfg.xon < ringCells pausing ∧
    heldLane (laneOn watched 50000000) 511 = true ∧ watched.cfg.watchMs ≠ 0 ∧
    watched.heldFrom + watched.cfg.watchMs * 1000000 ≤ now (laneOn watched 50000000) ∧ off9.holdoff = some 9 ∧
    9 ≤ now (laneOn off9 9) ∧ sleepy.cfg.lpiIdleUs ≠ 0 ∧ sleepy.tx = [] ∧ sleepy.txLpi = false ∧
    sleepy.emptyAt + sleepy.cfg.lpiIdleUs * 1000 ≤ now (laneOn sleepy 3000) ∧ asleep.txLpi = true ∧ asleep.tx ≠ [] ∧
    asleep.rxLpi ≠ true := by decide +kernel

theorem test_LanesHoldAndSleep :
    after (.hiBerWindow 511 15) (hiBer 1000000) (fun t => !(laneAt t 511).hiBer && laneCount (laneAt t 511) 40 == 15) = true ∧
    after (.hiBerWindow 511 16) (hiBer 1000000) (fun t => (laneAt t 511).state == .waiting) = true ∧
    after (.hiBerWindow 511 16) (laneOn upLane 7) (fun t => (laneAt t 511).hiBer && (laneAt t 511).hiBerAt == 7 &&
      laneCount (laneAt t 511) 42 == 1) = true ∧
    after (.pauseReceived 511 none 10) (laneOn clientUp 100) (fun t => (laneAt t 511).held == some 612) = true ∧
    after (.pauseReceived 511 none 0) (laneOn heldTo9 5) (fun t => (laneAt t 511).held == none) = true ∧
    after (.pauseExpiry 511) (laneOn heldTo9 9) (fun t => (laneAt t 511).held == none) = true ∧
    after (.pauseExpiry 511) (laneOn heldTo9 8) (fun t => (laneAt t 511).held == some 9) = true ∧
    after (.pauseRepeatTimer 511) (laneOn pausing 256) (fun t => (laneAt t 511).pauseAt == 256 &&
      (laneAt t 511).tx.map (·.pause) == [true]) = true ∧
    after (.pauseWatchdog 511) (laneOn watched 50000000) (fun t => (laneAt t 511).tx == [] && (laneAt t 511).held == none &&
      (laneAt t 511).holdoff == some 1050000000) = true ∧
    after (.pauseHoldoffEnd 511) (laneOn off9 9) (fun t => (laneAt t 511).holdoff == none) = true ∧
    after (.lpiEntry 511) (laneOn sleepy 3000) (fun t => (laneAt t 511).txLpi) = true ∧
    after (.lpiWake 511) (laneOn asleep 0) (fun t => !(laneAt t 511).txLpi) = true ∧
    after (.rxLowPowerIdle 511 true) (laneOn asleep 0) (fun t => (laneAt t 511).rxLpi && laneCount (laneAt t 511) 45 == 1) = true := by
  decide +kernel

/-- A fabric lane in a trunk to module 4, of module 3. -/
def trunkLane : Lane := { cfg := { client := false }, state := .up, inTrunk := true, farNode := some 4, helloAt := 0, creditCells := 1 }
def trunked (l : Lane) (t : Nat) : State := { laneOn l t with fab := { nodeId := 3, nodeValid := true, etherType := 0x88B5 } }
def hdr (hop dst : Nat) : Hdr :=
  { version := 1, kind := 8, hop := hop, adaptive := false, bounded := false, via := 0, dst := dst, src := 4, laneSeq := 0, payload := 300,
    session := 0, sequence := 0, word := 0 }
/-- A stored frame of header fields `hop` and `dst`: 14 bytes of Ethernet header, then the fabric header. -/
def fabricBytes (hop dst : Nat) : Bytes :=
  List.replicate 12 0 ++ [0x88, 0xB5, 0x18, BitVec.ofNat 8 (32 * hop), BitVec.ofNat 8 (dst / 256), BitVec.ofNat 8 dst] ++ List.replicate 40 0
def ringed (hop dst : Nat) : Lane :=
  { trunkLane with rx := [{ bytes := fabricBytes hop dst, mark := .good, reserve := 1, shared := 0 }] }
def sending : Lane := { trunkLane with tx := [frame1] }
/-- A credited frame of one cell waits, within credit and above it. -/
def credited1 : TxFrame := { bytes := fabricBytes 0 4, credited := true, cells := 1 }
def crediting : Lane := { trunkLane with tx := [credited1] }
def overdrawn : Lane := { crediting with credit := [1, 0, 0, 0, 0] }
/-- A frame of 64 bytes: the first `n` of its bytes, zeros, and its FCS. -/
def framed (b : Bytes) (n fcs : Nat) : Bytes := b ++ List.replicate n 0 ++ natLe 4 fcs
/-- A broadcast ARP frame on a client lane, and a credited fabric frame for module 9 that is next in sequence. -/
def arp64 : Bytes := framed [255, 255, 255, 255, 255, 255, 0, 0, 0, 0, 0, 0, 8, 6] 46 0xD859C9A1
def fabric64 : Bytes := framed (List.replicate 12 0 ++ [0x88, 0xB5, 0x18, 0, 0, 9]) 42 0x86DA4193
def clientMac : Lane := { clientUp with cfg := { clientUp.cfg with mac := some 2 } }
def servingClients : State := { laneOn clientMac 0 with fab := { trunks := [(0, { mask := 2 ^ 511, enabled := true })] } }
def refused2 : Lane := { trunkLane with noCredit := [0, 0] }
/-- A transit frame for module 9 with a trunk to it. -/
def crossing : State :=
  { trunked trunkLane 0 with
    lanes := [(510, { trunkLane with farNode := some 9 }), (511, ringed 0 9)],
    fab := { nodeId := 3, nodeValid := true, routes := [(9, { primary := some 9 })] } }
def taken : State := setLane 511 { ringed 0 9 with rx := [] } crossing
/-- Lane and type of each Walin frame that was sent. -/
def sentFrames (t : State) : List (Nat × Nat) :=
  t.out.filterMap (fun o => match o with
    | .frame n b => some (n, (headerOf b).kind)
    | _ => none)
/-- The payload bytes, from `k` on, of the Walin frames that were sent. -/
def sentPayload (t : State) (k n : Nat) : List Bytes :=
  t.out.filterMap (fun o => match o with
    | .frame _ b => some ((b.drop (46 + k)).take n)
    | _ => none)

theorem witness_LaneFramesAreCounted : (∀ l ∈ [upLane, trunkLane, ringed 4 9, ringed 0 3, sending],
      running (trunked l 0) = true ∧ lanesServe (trunked l 0) = true ∧ laneAt (trunked l 0) 511 = l ∧ l.state = .up ∧
      l.cfg.client = false ∧ l.hiBer = false) ∧
    (List.replicate 63 (0 : Byte)).length < 64 ∧ inFabricTrunk upLane = false ∧ inFabricTrunk trunkLane = true ∧
    creditedType (hdr 4 9).kind = true ∧ (hdr 4 9).hop < 5 ∧ creditOfPeer trunkLane (hdr 4 9).hop < frameCost (hdr 4 9).payload ∧
    (trunkLane.noCredit.filter (fun a => decide (0 < a + 1000000))).length < 2 ∧ (trunked trunkLane 0).pwr.state < 2 ∧
    (ringed 0 3).rx.length = 1 ∧ (∀ f ∈ (ringed 0 3).rx, isTransit (trunked (ringed 0 3) 0) (ringed 0 3) f = false) ∧
    joined (trunked (ringed 4 9) 0) = true ∧
    (∀ f ∈ (ringed 4 9).rx, f.mark = .good ∧ isTransit (trunked (ringed 4 9) 0) (ringed 4 9) { f with mark := .good } = true ∧
      4 ≤ (headerOf f.bytes).hop) ∧
    heldLane (trunked sending 0) 511 = false ∧ sending.txLpi = false ∧ nextFrame (trunked sending 0) sending = some frame1 ∧ frame1.credited = false ∧
    frame1.stomp = false ∧ frame1.completes = none := by decide +kernel

theorem witness_FramesAreReceived :
    (laneAt servingClients 511 = clientMac ∧ clientMac.hiBer = false ∧ servingClients.pwr.state < 2 ∧ arp64.length = 64 ∧ 64 ≤ maxFrame clientMac.cfg ∧
      fcsMark arp64 = .good ∧ isPause arp64 = false ∧ passes servingClients 511 arp64 = true ∧ clientMac.rx.length < clientMac.cfg.ringFrames ∧
      ringCells clientMac + ceilDiv arp64.length 256 ≤ clientMac.cfg.ringCells ∧ ceilDiv arp64.length 256 ≤ reserveFree servingClients 511) ∧
    fabric64.length = 64 ∧ 64 ≤ maxFrame trunkLane.cfg ∧ fcsMark fabric64 = .good ∧
    beAt fabric64 12 2 = (trunked trunkLane 0).fab.etherType ∧
    (headerOf fabric64).version = 1 ∧ creditedType (headerOf fabric64).kind = true ∧ joined (trunked trunkLane 0) = true ∧
    (headerOf fabric64).hop ≤ 4 ∧ frameCost (headerOf fabric64).payload ≤ creditOfPeer trunkLane (headerOf fabric64).hop ∧
    fabric64.length = max 64 (50 + (headerOf fabric64).payload) ∧ (headerOf fabric64).laneSeq = trunkLane.seqIn := by decide +kernel

theorem witness_FramesGoOn :
    2 ≤ (refused2.noCredit.filter (fun a => decide (now (trunked refused2 0) < a + 1000000))).length ∧
    joined crossing = true ∧ laneAt crossing 511 = ringed 0 9 ∧
    (∀ f ∈ (ringed 0 9).rx, f.mark = .good ∧ isTransit crossing (ringed 0 9) { f with mark := .good } = true ∧
      (headerOf f.bytes).hop < 4 ∧ egress taken (headerOf f.bytes) = some (9, false, 0)) ∧
    leastLoaded taken (lanesTo taken 9) = some 510 ∧ nextFrame (trunked crediting 0) crediting = some credited1 ∧
    maySend (trunked crediting 0) crediting credited1 = true ∧
    nextFrame (trunked overdrawn 0) overdrawn = some credited1 ∧ maySend (trunked overdrawn 0) overdrawn credited1 = false := by
  decide +kernel

theorem witness_HeldLaneSendsNothing : heldLane (laneOn heldTo9 8) 511 = true ∧ heldTo9.state = .up ∧
    ({ upLane with hiBer := true } : Lane).state = .up := by decide +kernel

theorem test_LaneFramesAreCounted :
    after (.laneFrameReceive 511 [] 0) (hiBer 0) (fun t => laneCount (laneAt t 511) 19 == 1) = true ∧
    after (.laneFrameReceive 511 (List.replicate 63 0) 0) (laneOn upLane 0) (fun t => laneCount (laneAt t 511) 17 == 1 &&
      (laneAt t 511).rx == []) = true ∧
    after (.voidFrame 511 (hdr 0 3)) (trunked upLane 0) (fun t => t.fabc.stomps == 1) = true ∧
    after (.nocreditDrop 511 (hdr 4 9)) (trunked trunkLane 0) (fun t => t.fabc.noCredit == 1 && sentFrames t == [(511, 1)]) = true ∧
    after (.nocreditDrop 511 (hdr 4 9)) (trunked refused2 0) (fun t => (laneAt t 511).state == .waiting) = true ∧
    after (.fabricFrameDrop 511 .etherType) (trunked trunkLane 0) (fun t => t.fabc.typeDrop == 1 && laneCount (laneAt t 511) 22 == 1) =
      true ∧
    after (.ringFrameTaken 511) (trunked (ringed 0 3) 0) (fun t => (laneAt t 511).rx == []) = true ∧
    after (.fabricForward 511 (headerOf (fabricBytes 4 9))) (trunked (ringed 4 9) 0) (fun t => t.fabc.hopDrop == 1 &&
      (laneAt t 511).rx == []) = true ∧
    after (.laneFrameTransmit 511) (trunked sending 0) (fun t => (laneAt t 511).tx == [] && t.out.length == 1) = true ∧
    after (.laneFrameTransmit 511) (laneOn heldTo9 8) (fun t => t.out == []) = true := by decide +kernel

theorem test_FramesAreReceived :
    after (.laneFrameReceive 511 arp64 0) servingClients (fun t => (laneAt t 511).rx.map (fun f => (f.bytes, f.mark)) == [(arp64, .good)]) =
      true ∧
    after (.laneFrameReceive 511 fabric64 0) (trunked trunkLane 0) (fun t => (laneAt t 511).rx.map (fun f => (f.mark, f.paid)) ==
      [(.good, true)] && (laneAt t 511).seqIn == 1) = true ∧
    after (.laneFrameReceive 511 (fabric64.set 20 1) 0) (trunked trunkLane 0) (fun t => (laneAt t 511).seqIn == 0) = true ∧
    after (.fabricForward 511 (headerOf (fabricBytes 0 9))) crossing (fun t => (laneAt t 511).rx == [] &&
      (laneAt t 510).tx.map (fun f => (f.hopClass, (headerOf f.bytes).hop)) == [(1, 1)]) = true ∧
    after (.laneFrameTransmit 511) (trunked crediting 0) (fun t => sentFrames t == [(511, 8)] && (laneAt t 511).seqOut == 1 &&
      (laneAt t 511).kept.length == 1 && (laneAt t 511).credit == [1, 0, 0, 0, 0]) = true ∧
    after (.laneFrameTransmit 511) (trunked overdrawn 0) (fun t => t.out == [] && (laneAt t 511).tx == [credited1]) = true := by
  decide +kernel

def greeting (n : Nat) : Lane := { cfg := { client := false }, state := .up, hellos := n, farNode := some 4, helloAt := 0 }
def keeping : Lane := { trunkLane with kept := [{ frame1 with credited := true, seq := 6 }] }
def returning : Lane := { trunkLane with owed := [1, 0, 0, 0, 0] }
/-- Lane 510 of the same trunk, called 6 at the far end, revoking or not. -/
def twoLanes (rev : Bool) : State :=
  { trunked trunkLane 0 with lanes := [(510, { trunkLane with farLane := 6, revoking := rev }), (511, trunkLane)] }

theorem witness_HellosCreditsAndRevocation : (∀ l ∈ [greeting 1, greeting 2, trunkLane, keeping, returning],
      running (trunked l 300000) = true ∧ lanesServe (trunked l 300000) = true ∧ laneAt (trunked l 300000) 511 = l ∧ l.state = .up ∧
      l.cfg.client = false ∧ l.farNode = some 4) ∧
    joined (trunked (greeting 2) 0) = true ∧ 4 ≠ (trunked (greeting 2) 0).fab.nodeId ∧ (greeting 2).inTrunk = false ∧
    (greeting 2).hellos = 2 ∧ (greeting 2).revoking = false ∧ (greeting 1).hellos < 2 ∧
    (trunked trunkLane 100000).fab.helloAt + 100000 ≤ now (trunked trunkLane 100000) ∧
    now (trunked trunkLane 99999) < (trunked trunkLane 99999).fab.helloAt + 100000 ∧ inFabricTrunk trunkLane = true ∧
    trunkLane.kept = [] ∧ inFabricTrunk keeping = true ∧ keeping.kept ≠ [] ∧ (∀ f ∈ keeping.kept, from16 f.seq (6 % 65536) = true) ∧
    inFabricTrunk returning = true ∧ sumOf id returning.owed ≠ 0 ∧ returning.owedAt + 2000 ≤ now (trunked returning 2000) ∧
    laneFails 300000 trunkLane .helloSilent = true ∧ laneFails 299999 trunkLane .helloSilent = false := by decide +kernel

theorem witness_Revocation : laneAt (twoLanes true) 511 = trunkLane ∧ trunkLane.farNode = some 4 ∧
    laneCalled (twoLanes true) 4 6 = some 510 ∧ (laneAt (twoLanes true) 510).revoking = true ∧
    laneCalled (twoLanes false) 4 6 = some 510 ∧ (laneAt (twoLanes false) 510).revoking = false ∧ 510 ≠ 511 := by decide +kernel

theorem test_HellosCreditsAndRevocation :
    after (.hello 511 4 true 6 0 0) (trunked (greeting 2) 5) (fun t => (laneAt t 511).inTrunk && t.fab.routeDue != none) = true ∧
    after (.hello 511 4 true 6 0 0) (trunked (greeting 1) 5) (fun t => !(laneAt t 511).inTrunk && (laneAt t 511).hellos == 2) = true ∧
    after (.hello 511 4 false 6 0 0) (trunked (greeting 2) 5) (fun t => (laneAt t 511).hellos == 0) = true ∧
    after .helloTimer (trunked trunkLane 100000) (fun t => t.fab.helloAt == 100000 && sentFrames t == [(511, 0)] && sentPayload t 0 5 == [[0, 3, 1, 1, 255]]) = true ∧
    after (.credit 511 7 false [1, 2, 3, 4, 5]) (trunked trunkLane 5) (fun t => (laneAt t 511).peerBack == [1, 2, 3, 4, 5]) = true ∧
    after (.credit 511 6 true [0, 0, 0, 0, 0]) (trunked keeping 5) (fun t => (laneAt t 511).kept == [] && t.fabc.linkRetx == 1 &&
      (laneAt t 511).tx.length == 1) = true ∧
    after (.creditReturnTimer 511) (trunked returning 2000) (fun t => sentFrames t == [(511, 1)] &&
      (laneAt t 511).owed == [0, 0, 0, 0, 0]) = true ∧
    after (.laneFailure 511 .helloSilent) (trunked trunkLane 300000) (fun t => (laneAt t 511).state == .waiting) = true ∧
    after (.laneFailure 511 .helloSilent) (trunked trunkLane 299999) (fun t => (laneAt t 511).state == .up) = true ∧
    after (.revoke 511 6 0 true) (twoLanes true) (fun t => !(laneAt t 510).revoking) = true ∧
    after (.revoke 511 6 0 false) (twoLanes false) (fun t => t.fabc.revokes == 1 && (laneAt t 510).state == .waiting) = true := by
  decide +kernel

def nodes4 : NodeInfo := { serial := 1, trunks := [], valid := true, validAt := 0 }
/-- Module 3 with module 1 behind its trunk to it, which masters fabric time. -/
def slave (l : Lane) (t : Nat) : State :=
  { trunked { l with farNode := some 1 } t with
    fab := { nodeId := 3, nodeValid := true, nodes := [(1, { nodes4 with trunks := [3] })], routes := [(1, { primary := some 1 })],
             routeDue := some 0, timeSent := some 8 } }

theorem witness_RoutesAndTimeTravel : running (trunked trunkLane 0) = true ∧ joined (trunked trunkLane 0) = true ∧ (4 : Nat) < 2048 ∧
    4 ≠ (trunked trunkLane 0).fab.nodeId ∧ tfind (trunked trunkLane 0).fab.nodes 4 ≠ some nodes4 ∧
    tfind (slave trunkLane 0).fab.nodes 1 = some { nodes4 with trunks := [3] } ∧
    ({ nodes4 with trunks := [3] } : NodeInfo).passedAt + 50000000 ≤ now (slave trunkLane 50000000) ∧
    now (slave trunkLane 49999999) < ({ nodes4 with trunks := [3] } : NodeInfo).passedAt + 50000000 ∧ (trunked trunkLane 0).fab.nodeId < 2048 ∧
    (trunked trunkLane 100000000).fab.routeAt + 100000000 ≤ now (trunked trunkLane 100000000) ∧
    (slave trunkLane 0).fab.routeDue.isSome = true ∧ inActivation (slave trunkLane 0) = false ∧
    (slave trunkLane 1000000).fab.timeAt + 1000000 ≤ now (slave trunkLane 1000000) ∧ timeParent (slave trunkLane 1000000) = some 1 ∧
    (lanesTo (slave trunkLane 1000000) 1).head? = some 511 ∧ inFabricTrunk (laneAt (slave trunkLane 0) 511) = true ∧
    (laneAt (slave trunkLane 0) 511).state = .up ∧ (slave trunkLane 0).fab.timeSent = some 8 ∧
    (laneAt (slave trunkLane 0) 511).farNode = timeParent (slave trunkLane 0) ∧ ownMaster (slave trunkLane 0) = false ∧
    ({ slave trunkLane 0 with clk := { first := true } } : State).clk.first = true := by decide +kernel

theorem leNat_append_pos (b : Byte) (h : 0 < b.toNat) : ∀ l : Bytes, 0 < leNat (l ++ [b])
  | [] => by simpa [leNat] using h
  | _ :: t => by have := leNat_append_pos b h t; simp only [List.cons_append, leNat]; omega

/-- The serial number's first character is the letter Z (R680). -/
theorem serial_first : Config.serial % 256 = 0x5A := by
  simp only [Config.serial, List.cons_append, List.nil_append, List.foldr_cons]; omega

/-- A serial number below the module's exists, as its first character is no zero. -/
theorem witness_NodeConflict : serialAbove Config.serial 0 = true := by
  have h : 0 < beNat (natLe 16 Config.serial) := by
    rw [natLe, beNat, List.reverse_cons]
    exact leNat_append_pos _ (by rw [BitVec.toNat_ofNat]; have := serial_first; omega) _
  have z : beNat (natLe 16 0) = 0 := by decide +kernel
  rw [serialAbove, z]; exact decide_eq_true h

theorem test_RoutesAndTimeTravel :
    after (.route 4 1 [] true 0) (trunked trunkLane 5) (fun t => tfind t.fab.nodes 4 == some { nodes4 with passedAt := 5 } && t.fab.routeDue == some 2000005) =
      true ∧
    after (.route 1 1 [3] true 0) (slave trunkLane 50000000) (fun t => (laneAt t 511).tx.length == 1 && t.fab.routeDue == some 0) = true ∧
    after (.route 1 1 [3] true 0) (slave trunkLane 49999999) (fun t => (laneAt t 511).tx == []) = true ∧
    after .routeFloodTimer (trunked trunkLane 100000000) (fun t => t.fab.routeAt == 100000000) = true ∧
    after .routeRecompute (slave trunkLane 0) (fun t => t.fab.routeDue == none && t.fabc.routeChanges == 1) = true ∧
    after .timeExchangeTimer (slave trunkLane 1000000) (fun t => sentFrames t == [(511, 2)] &&
      sentPayload t 0 8 == [natBe 8 1600000]) = true ∧
    after (.timeFrame 511 (.request 8)) (slave trunkLane 10) (fun t => sentPayload t 0 16 == [natBe 8 8 ++ natBe 8 16]) = true ∧
    after (.timeFrame 511 (.reply 8 32 32 24)) { slave trunkLane 0 with clk := { first := true } } (fun t => t.fab.slewNs == 10) = true := by
  decide +kernel

/-! ## Maintenance, records, update, registers, tasks, freeze -/

def maintOf (k : Maint) (target first : Nat) : MaintResv := { id := 2, kind := k, target := target, first := first, slots := 9, firm := false }
/-- One maintenance reservation, fabric time in slot 2. -/
def reserved (m : MaintResv) : State := { on with clk := { time := 32000 }, ante := { maint := [m], nextId := 3 } }
def retrainDue : State := { reserved (maintOf .dramRetrain 11 2) with mem := { chans := [(11, { state := 3 })] } }
def recounting : State := { reserved (maintOf .recount 0 2) with jnl := { refusing := [.commands], accepted := 5, completed := 3 } }
def inP2 : State := { on with pwr := { state := 2 } }
def poisoned (n : Nat) : State := { on with mem := { chans := [(11, { state := 1, ueAt := List.replicate n 0 })] } }

theorem witness_MaintenanceAndLedgers : running (reserved (maintOf .activation 0 2)) = true ∧
    (reserved (maintOf .activation 0 2)).ante.maint = [maintOf .activation 0 2] ∧ (maintOf .activation 0 2).id = 2 ∧
    (maintOf .activation 0 2).first ≤ slotOf (now (reserved (maintOf .activation 0 2))) ∧ (maintOf .activation 0 2).started = false ∧
    dueMaint (reserved (maintOf .activation 0 3)) 2 = none ∧ ledgerBit .sessionOrder = some 7 ∧
    recounting.ante.maint.find? (fun m => decide (m.kind = .recount ∧ m.first ≤ slotOf (now recounting))) = some (maintOf .recount 0 2) ∧
    recounting.dlr.inflight = [] ∧ recounting.jnl.resetAsked = false ∧ .commands ∈ recounting.jnl.refusing ∧
    (chanAt retrainDue 11).state = 3 ∧ findMaint retrainDue .dramRetrain 11 = some (maintOf .dramRetrain 11 2) ∧
    (maintOf .dramRetrain 11 2).first ≤ slotOf (now retrainDue) ∧ ([(20, 20)] : List (Nat × Nat)).any eyeFails = false ∧
    ([(20, 19)] : List (Nat × Nat)).any eyeFails = true ∧ (chanAt (poisoned 65) 11).state ≠ 4 ∧
    channelFails (poisoned 65) 11 .uncorrectable = true ∧ inP2.pwr.state ≠ 0 ∧ inP2.pwr.exiting = none ∧ running inP2 = true ∧
    on.pwr.state = 0 := by decide +kernel

theorem test_MaintenanceAndLedgers :
    after (.maintenanceReservationStart 2) (reserved (maintOf .activation 0 2)) (fun t => t.ante.maint.map (·.started) == [true]) = true ∧
    after (.maintenanceReservationStart 2) (reserved (maintOf .activation 0 3)) (fun t => t.ante.maint.map (·.started) == [false]) = true ∧
    after (.ledgerFault .sessionOrder 1 2 3) on (fun t => t.jnl.fault == 128) = true ∧
    after (.ledgerFault .linkCredits 1 2 3) on (fun t => t.jnl.fault == 0) = true ∧
    after .ledgerRecountWindow recounting (fun t => t.jnl.recounts == 1 && t.jnl.completed == 5 && t.jnl.refusing == []) = true ∧
    after (.dramLiveRetrain 11 true [(20, 20)]) retrainDue (fun t => (chanAt t 11).state == 1 && (chanAt t 11).trained == 32000) = true ∧
    after (.dramLiveRetrain 11 true [(20, 19)]) retrainDue (fun t => (chanAt t 11).state == 4) = true ∧
    after (.dramChannelFailure 11 .uncorrectable) (poisoned 65) (fun t => (chanAt t 11).state == 4 && !t.mem.single) = true ∧
    after (.dramChannelFailure 11 .uncorrectable) (poisoned 64) (fun t => (chanAt t 11).state == 1) = true ∧
    after (.dramChannelFailure 6 .noAnswer) on (fun t => t.mem.single) = true ∧
    after .powerStateExit inP2 (fun t => t.pwr.exiting == some 250000) = true := by decide +kernel

/-- A record pending until 50, being written, and a test of target 6 that is due. -/
def pendingAt (t : Nat) : State := { on with clk := { time := t }, evr := { nextSeq := 2, pending := [{ event1 with until_ := 50 }] } }
def writingOn : State := { on with evr := { nextSeq := 2, writing := some event1 } }
def testsDue (h : Nat) : State := { on with clk := { opNs := h * 3600000000000 }, ist := { enable := 0x40 } }

/-- A placed slice for instance 1 of target 6 whose slot has passed. -/
def slice61 : MaintResv := { maintOf .testSlice 6145 0 with slots := 1 }
def sliced : State := { reserved slice61 with ist := { enable := 0x40 } }

theorem witness_EventsAreStoredAndTestsRun : running (pendingAt 50) = true ∧ inRom (pendingAt 50) = false ∧
    (pendingAt 50).evr.writing = none ∧ (pendingAt 50).evr.pending = { event1 with until_ := 50 } :: [] ∧
    (pendingAt 50).evr.stopFull = false ∧ 50 ≤ now (pendingAt 50) ∧ now (pendingAt 49) < 50 ∧ writingOn.evr.writing = some event1 ∧
    sectorBytes writingOn.evr writingOn.evr.sector + recBytes event1 ≤ 65536 ∧
    searching (testsDue 24) = false ∧ placedSlice (testsDue 24) = none ∧
    mostOverdue (dueTests (testsDue 24)) = some (86400000000000, 6, 0) ∧ (takeSlice 6 0 (testsDue 24)).isSome = true ∧
    (testsDue 24).boot.stage = 4 ∧ (testsDue 24).pwr.state = 0 ∧ (testsDue 24).pwr.sup = .normal ∧ dueTests (testsDue 23) = [] ∧ 1 < instancesOf 6 ∧
    periodOf (testsDue 48) 6 ≠ 0 ∧ ranAt (testsDue 48) 6 1 + 2 * periodOf (testsDue 48) 6 * 3600000000000 ≤ (testsDue 48).clk.opNs ∧
    6 * 1024 + 1 ∉ (testsDue 48).ist.overdue := by decide +kernel

theorem witness_PlacedSliceRuns : running sliced = true ∧ sliced.boot.stage = 4 ∧ sliced.pwr.state = 0 ∧ sliced.pwr.sup = .normal ∧
    searching sliced = false ∧ placedSlice sliced = some slice61 ∧ slice61.first + slice61.slots ≤ slotOf (now sliced) ∧
    slice61.target / 1024 ≠ 2 ∧ testable sliced (slice61.target / 1024) (slice61.target % 1024) = true := by decide +kernel

theorem test_EventsAreStoredAndTestsRun :
    after .eventHoldExpiry (pendingAt 50) (fun t => t.evr.writing == some { event1 with until_ := 50 } && t.evr.pending == []) = true ∧
    after .eventHoldExpiry (pendingAt 49) (fun t => t.evr.writing == none) = true ∧
    after .eventStoreWriteDone writingOn (fun t => t.evr.store == [(0, event1)]) = true ∧
    after (.istSlice none none) (testsDue 24) (fun t => (placedSlice t).map (·.target) == some 6144 &&
      tfind t.ist.lastRun 6 == none) = true ∧
    after (.istSlice none none) (testsDue 23) (fun t => placedSlice t == none) = true ∧
    after (.istSlice none none) sliced (fun t => tfind t.ist.lastRun 6 == some 32000 && tfind t.ist.runAt 6145 == some 0 &&
      placedSlice t == none) = true ∧
    after (.testOverdue 6 1) (testsDue 48) (fun t => t.ist.overdue == [6145]) = true ∧
    after (.testOverdue 6 1) (testsDue 47) (fun t => t.ist.overdue == []) = true := by decide +kernel

/-- A manifest of 160 bytes with one part of two bytes behind it, its digest that of no such image. -/
def man2 (digest : Nat) : Manifest :=
  { bundle := 9, rollback := 3, size := 160, length := 162, windowUs := 33,
    parts := [{ kind := 1, version := 1, offset := 160, length := 2, digest := digest, ranges := [] }] }
def updating (st : UpdState) (m : Manifest) (image : List Host.Cell) : State := { on with upd := { state := st, man := m, image := image } }
def updBox (code : Nat) (off v : Nat) : Mailbox := box code 0 0 10 (off + v * 2 ^ 64)
def image2 : List Host.Cell := [(160, 7), (161, 8)]
def sha78 : Nat := sha384 [7, 8]

theorem witness_UpdateIsStaged : boxRuns (boxed (updBox 0x50 0 0) on) 15 (updBox 0x50 0 0) 0x50 true ∧
    (on.upd.state = .idle ∧ on.upd.trial = false) ∧
    boxRuns (boxed (updBox 0x50 0 0) (updating .staged {} [])) 15 (updBox 0x50 0 0) 0x50 true ∧
    (updating .staged {} []).upd.state ≠ .idle ∧
    boxRuns (boxed (updBox 0x51 160 0x0807) (updating .receiving (man2 0) [])) 15 (updBox 0x51 160 0x0807) 0x51 true ∧
    ((updating .receiving (man2 0) []).upd.man = man2 0 ∧ (man2 0).size ≤ 160 ∧
      160 + ((boxInput (updBox 0x51 160 0x0807) 10).drop 8).length ≤ (man2 0).length ∧
      leAt (boxInput (updBox 0x51 160 0x0807) 10) 0 8 = 160 ∧ (man2 0).length < 161 + 2 ∧ 159 < (man2 0).size) ∧
    boxRuns (boxed (updBox 0x51 161 0) (updating .receiving (man2 0) [])) 15 (updBox 0x51 161 0) 0x51 true ∧
    leAt (boxInput (updBox 0x51 161 0) 10) 0 8 = 161 ∧
    boxRuns (boxed (updBox 0x51 0 0) on) 15 (updBox 0x51 0 0) 0x51 true ∧
    boxRuns (boxed (updBox 0x56 0 0) on) 15 (updBox 0x56 0 0) 0x56 true := by
  unfold boxRuns
  decide +kernel

theorem witness_UpdateFinishes :
    boxRuns (boxed (updBox 0x52 0 0) (updating .receiving (man2 sha78) image2)) 15 (updBox 0x52 0 0) 0x52 true ∧
    (imageWhole (man2 sha78) image2 = true ∧ digestsHold (man2 sha78) image2 = true) ∧
    boxRuns (boxed (updBox 0x52 0 0) (updating .receiving (man2 0) image2)) 15 (updBox 0x52 0 0) 0x52 true ∧
    (imageWhole (man2 0) image2 = true ∧ digestsHold (man2 0) image2 = false) ∧ imageWhole (man2 0) [(160, 7)] = false := by
  unfold boxRuns
  decide +kernel

theorem test_UpdateIsStaged :
    after (.updateBegin 15) (boxed (updBox 0x50 0 0) on) (fun t => answers t stPageField [] && t.upd.state == .idle) = true ∧
    after (.updateBegin 15) (boxed (updBox 0x50 0 0) (updating .staged {} [])) (fun t => answers t stBusy []) = true ∧
    after (.updateData 15) (boxed (updBox 0x51 160 0x0807) (updating .receiving (man2 0) [])) (fun t => answers t stOk [] &&
      t.upd.image == image2 && t.upd.received == 2) = true ∧
    after (.updateData 15) (boxed (updBox 0x51 161 0) (updating .receiving (man2 0) [])) (fun t => answers t stLength []) = true ∧
    after (.updateFinish 15) (boxed (updBox 0x52 0 0) (updating .receiving (man2 sha78) image2)) (fun t => answers t stOk [] &&
      t.upd.state == .staged && (otherSlot t.upd).version == 9) = true ∧
    after (.updateFinish 15) (boxed (updBox 0x52 0 0) (updating .receiving (man2 0) image2)) (fun t => answers t stSignature []) = true ∧
    after (.updateStatus 15) (boxed (updBox 0x56 0 0) on) (fun t => (boxAt t 15).outLen == 32) = true := by
  repeat' apply And.intro
  all_goals decide +kernel

def coldMan : Manifest := { man2 0 with cold := true }
def onTrial : State := { on with upd := { state := .trial, trial := true, slotA := { empty := false, rollback := 5 } } }
def activating (st : UpdState) (first time : Nat) (switched : Bool) : State :=
  { on with
    clk := { time := time },
    ante := { maint := [{ id := 2, kind := .activation, target := 0, first := first, slots := 4, firm := true }], nextId := 3 },
    upd := { state := st, man := man2 0, loaded := true, switched := switched, window := some first } }
def actMaint : MaintResv := { id := 2, kind := .activation, target := 0, first := 1, slots := 4, firm := true }
def slowBoot (fails : Nat) (bad : Bool) : State := { clk := { opNs := 300000000000 }, upd := { fails := fails, bothBad := bad } }
def commitDue : State := { onTrial with clk := { opNs := 259200000000000 } }

theorem witness_UpdateIsActivated : (∀ c ∈ [0x53, 0x54, 0x55], ∀ s ∈ [updating .staged coldMan [], updating .staged (man2 0) [], on,
      onTrial, activating .activating 1 0 false], running (boxed (updBox c 0 0) s) = true ∧
      (boxed (updBox c 0 0) s).host.goQueue.head? = some 15 ∧ boxAt (boxed (updBox c 0 0) s) 15 = updBox c 0 0 ∧
      (updBox c 0 0).busy = true ∧ (updBox c 0 0).command = c ∧
      boxRefusal (boxed (updBox c 0 0) s) 15 (updBox c 0 0) true = none) ∧
    (updating .staged coldMan []).upd.man.cold = true ∧ (updating .staged (man2 0) []).upd.man.cold = false ∧
    on.upd.state ≠ .staged ∧ onTrial.upd.state = .trial ∧ (activating .activating 1 0 false).upd.state = .activating := by
  decide +kernel

theorem witness_ActivationRuns : (activating .scheduled 1 16000 false).upd.state = .scheduled ∧
    (activating .scheduled 1 16000 false).upd.man.cold = false ∧ (activating .scheduled 1 16000 false).upd.loaded = true ∧
    inActivation (activating .scheduled 1 16000 false) = true ∧ placedWindow (activating .activating 1 48000 false) = some actMaint ∧
    (2 * actMaint.first + actMaint.slots) * Config.slotNs ≤ 2 * now (activating .activating 1 48000 false) ∧
    actMaint.first + actMaint.slots ≤ slotOf (now (activating .trial 1 80000 true)) ∧
    (activating .trial 1 80000 true).upd.switched = true ∧ placedWindow (activating .trial 1 80000 true) = some actMaint ∧
    commitDue.upd.state = .trial ∧ commitDue.upd.autoH ≠ 0 ∧ commitDue.boot.stage = 4 ∧ commitDue.upd.fails = 0 ∧
    commitDue.upd.trialAt + commitDue.upd.autoH * 3600000000000 ≤ commitDue.clk.opNs ∧ (slowBoot 1 false).boot.stage < 4 ∧
    (slowBoot 1 false).boot.coldOp + (slowBoot 1 false).upd.bootS ≤ opSeconds (slowBoot 1 false) ∧
    (slowBoot 1 false).upd.fails < 2 ∧ 2 ≤ (slowBoot 2 true).upd.fails ∧ (slowBoot 2 true).upd.bothBad = true ∧
    running (slowBoot 2 false) = true := by decide +kernel

theorem test_UpdateIsActivated :
    after (.updateActivate 15) (boxed (updBox 0x53 0 0) (updating .staged coldMan [])) (fun t => answers t stOk [0, 0, 0, 0] &&
      t.upd.state == .scheduled && t.upd.activeB) = true ∧
    after (.updateActivate 15) (boxed (updBox 0x53 0 0) (updating .staged (man2 0) [])) (fun t => t.upd.window != none &&
      bytesAt (boxAt t 15).payload 2 2 == [3, 0]) = true ∧
    after (.updateCommit 15) (boxed (updBox 0x54 0 0) onTrial) (fun t => answers t stOk [] && t.upd.state == .idle &&
      t.upd.counter == 5) = true ∧
    after (.updateAbort 15) (boxed (updBox 0x55 0 0) (updating .staged (man2 0) [])) (fun t => answers t stOk [] &&
      t.upd.state == .idle) = true ∧
    after (.activationPreload false) (activating .scheduled 1 0 false) (fun t => t.upd.state == .idle && t.upd.last == stActivation) =
      true ∧
    after .activationWindowStart (activating .scheduled 1 16000 false) (fun t => t.upd.state == .activating) = true ∧
    after (.activationMidpoint true) (activating .activating 1 48000 false) (fun t => t.upd.state == .trial && t.upd.activeB) = true ∧
    after (.activationMidpoint true) (activating .activating 1 47999 false) (fun t => t.upd.state == .activating) = true ∧
    after (.activationMidpoint false) (activating .activating 1 48000 false) (fun t => t.upd.state == .idle && t.upd.rollbacks == 1) =
      true ∧
    after (.activationWindowEnd true) (activating .trial 1 80000 true) (fun t => t.upd.window == none && t.upd.state == .trial) = true ∧
    after (.activationWindowEnd false) (activating .trial 1 80000 true) (fun t => t.boot.stage == 0 && t.clk.cycles == 2) = true ∧
    after .autoCommit commitDue (fun t => t.upd.state == .idle && t.upd.counter == 5) = true ∧
    after .bootTimeout (slowBoot 1 false) (fun t => t.boot.stage == 0 && t.upd.fails == 2) = true ∧
    after .bootTimeout (slowBoot 2 true) (fun t => t.boot.stage == 0xE) = true ∧
    after .bootTimeout (slowBoot 2 false) (fun t => t.upd.fails == 0 && t.upd.activeB) = true := by decide +kernel

/-- Port 0 up and unlocked, mailbox 15 idle, a bad access counted. -/
def regOn : State := { withPort (some 9) 0 with host := { (withPort (some 9) 0).host with badAccess := 3 } }
def boxBusy : State := { regOn with host := { regOn.host with boxes := [(15, box 0x10 0 0 0 0)] } }

theorem witness_RegistersAreReadAndWritten : running regOn = true ∧ reachedBy regOn 0 = true ∧ barExists 0 = true ∧
    honoured regOn 0 0 0x2 4 = false ∧ barExists 5 = false ∧ honoured regOn 0 2 (8 * 9) 4 = true ∧ honoured regOn 0 2 (8 * 9 + 4) 4 = true ∧ (15 : Nat) < 64 ∧ boxPort 15 = 0 ∧ honoured regOn 0 0 (0x20000 + 4096 * 15) 4 = true ∧
    bit 1 0 = true ∧ (boxAt regOn 15).busy = false ∧ (boxAt boxBusy 15).busy = true ∧ reachedBy boxBusy 0 = true ∧
    honoured boxBusy 0 0 (0x20000 + 4096 * 15) 4 = true ∧ honoured regOn 0 0 (0x20000 + 4096 * 15 + 4092) 4 = true ∧
    honoured regOn 0 0 0x54 4 = true ∧ (regOf regOn 0 0x20).map (fun r => (r.wide, r.off)) = some (true, 0x20) := by decide +kernel

theorem test_RegistersAreReadAndWritten :
    after (.registerWrite 0 0 2 4 7) regOn (fun t => t.host.badAccess == 4) = true ∧
    after (.registerWrite 0 0 (0x20000 + 4096 * 15) 4 5) regOn (fun t => t.host.goQueue == [15] && (boxAt t 15).busy && (boxAt t 15).irq) =
      true ∧
    after (.registerWrite 0 0 (0x20000 + 4096 * 15) 4 1) boxBusy (fun t => t.host.goQueue == []) = true ∧
    after (.registerWrite 0 0 (0x20000 + 4096 * 15 + 64) 4 0x01020304) regOn (fun t =>
      bytesAt (boxAt t 15).payload 0 4 == [4, 3, 2, 1]) = true ∧
    after (.rcRegisterRead 0 ⟨0, 0x54⟩ 4) regOn (fun t => t.out == [.readData 0 0x54 3] && t.host.badAccess == 0) = true ∧
    after (.registerLowHalfRead 0 0x20) regOn (fun t => (tfind t.host.ports 0).map (fun p => p.latch.isSome) == some true) = true ∧
    after (.rcRegisterRead 0 ⟨2, 72⟩ 4) regOn (fun t => t.out == [.readData 0 72 0] && t.host.badAccess == 3) = true ∧
    after (.registerWrite 0 2 (8 * 917503) 4 3) (queued queue4 0) (fun t => ((ctxAt t 917503).queue.map (·.tail)) == some 3) = true ∧
    after (.barBadAccess 0 0 2 4 false) regOn (fun t => t.host.badAccess == 4 && t.out == [.readData 0 2 0]) = true ∧
    after (.barBadAccess 0 5 0 4 false) regOn (fun t => t.host.badAccess == 3 && t.out == []) = true ∧
    after (.barBadAccess 0 0 0x54 4 false) regOn (fun t => t.host.badAccess == 3) = true := by decide +kernel

/-- Task set 15 busy with code `c`, at boot_stage `st`. -/
def task (c arg : Nat) : Task := { busy := true, code := c, arg := arg }
def tasked (st : Nat) (k : Task) : State := { boot := { stage := st }, host := { tasks := [(15, k)] } }
def quiet : State := { on with jnl := { resetAsked := true }, pwr := { state := 2 } }
def allReset : State := { on with clk := { time := 1000000 }, host := { ports := [(0, {}), (1, {})] } }
/-- The same test with the service role's core and the bank test enabled. -/
def testable6 : State := { tasked 4 (task 2 (6 + 0xFFFF * 256)) with ist := { enable := 0 } }

theorem witness_TasksRun : running (tasked 4 (task 9 0)) = true ∧ taskAt (tasked 4 (task 9 0)) 15 = task 9 0 ∧ (task 9 0).busy = true ∧
    4 ∉ taskStages 9 ∧ 0xE ∈ taskStages 4 ∧ 4 ∉ taskStages 4 ∧ taskAt (tasked 3 (task 1 0)) 15 = task 1 0 ∧ 3 ∈ taskStages 1 ∧
    quiet.jnl.resetAsked = true ∧ quiesced quiet = true ∧ on.jnl.resetAsked = false ∧ allReset.boot.stage = 4 ∧
    allReset.host.ports ≠ [] ∧ (∀ p ∈ allReset.host.ports, p.2.perst = true ∧ p.2.perstAt + 1000000 ≤ now allReset) ∧ bits (task 2 7).arg 7 0 = 7 ∧
    bits (task 2 (6 + 0xFFFF * 256)).arg 7 0 = 6 ∧ targetRuns { tasked 4 (task 2 5) with ist := { enable := 0 } } 5 = false ∧
    targetRuns (tasked 4 (task 2 2)) 2 = true ∧ 4 ∈ taskStages 3 := by decide +kernel

theorem test_TasksRun :
    after (.taskCodeInvalid 15) (tasked 4 (task 9 0)) (fun t => !(taskAt t 15).busy && (taskAt t 15).status == stOpcode) = true ∧
    after (.taskCodeInvalid 15) (tasked 0xE (task 4 0)) (fun t => (taskAt t 15).busy) = true ∧
    after (.moduleReset 15) (tasked 3 (task 1 0)) (fun t => t.jnl.resetAsked && (taskAt t 15).status == stOk) = true ∧
    after .moduleResetExecute quiet (fun t => t.boot.stage == 0 && t.clk.cause == 2 && t.clk.cycles == 2) = true ∧
    after .allPortsReset allReset (fun t => t.boot.stage == 0 && t.clk.cause == 3 && t.clk.cycles == 2) = true ∧
    after .allPortsReset { allReset with clk := { time := 999999 } } (fun t => t.boot.stage == 4) = true ∧
    after (.selfTest 15 []) (tasked 4 (task 2 7)) (fun t => (taskAt t 15).status == stOpcode) = true ∧
    after (.selfTest 15 []) { tasked 4 (task 2 5) with ist := { enable := 0 } } (fun t => (taskAt t 15).status == stBusy) = true ∧
    after (.selfTest 15 [none, some 0x77]) testable6 (fun t => (taskAt t 15).status == stOk && (taskAt t 15).result == 2 + 0x77 * 2 ^ 32) =
      true ∧
    after (.eventTail 15) { tasked 4 (task 3 0) with evr := { store := [(0, event1)] } } (fun t => (taskAt t 15).dataLen == 56) = true := by
  decide +kernel

def rom (k : Task) : State := tasked 0xE k
def writes3 : Task := { task 4 (125829120 - 3) with dataLen := 3, data := [(0, 1), (1, 2), (2, 3)] }
/-- A UART frame of type `k` at offset `o`, with the CRC-32C of what it covers. -/
def uart (k o : Nat) (d : Bytes) : Bytes :=
  let c := natLe 1 k ++ natLe 2 d.length ++ natLe 4 o ++ d
  [0xA5] ++ c ++ natLe 4 (crc32c c)
/-- A recovery block with the packet error check of a write to address 0x5C. -/
def pecFor (code : Nat) (d : Bytes) : Option Byte := some (BitVec.ofNat 8 (pecOf ([0xB8, code, d.length] ++ d.map (·.toNat))))

theorem witness_RecoveryAndSideband : running (rom writes3) = true ∧ (rom writes3).boot.stage = 0xE ∧ taskAt (rom writes3) 15 = writes3 ∧
    writes3.busy = true ∧ writes3.code = 4 ∧ writes3.dataLen ≤ 224 ∧ writes3.arg + writes3.dataLen ≤ 125829120 ∧
    224 < ({ writes3 with dataLen := 225 } : Task).dataLen ∧ taskAt (rom (task 5 0)) 15 = task 5 0 ∧ (task 5 0).code = 5 ∧
    uartFrame 1 (uart 1 9 [1, 2]) = some (9, [1, 2]) ∧ uartFrame 2 (uart 2 0 []) = some (0, []) ∧
    uartFrame 3 (uart 3 0 []) = some (0, []) ∧ on.boot.stage ≠ 0xE ∧
    pecHolds 0xE0 [9, 0, 0, 0, 7] (pecFor 0xE0 [9, 0, 0, 0, 7]) (rom {}) = true ∧ 5 ≤ ([9, 0, 0, 0, 7] : Bytes).length ∧
    leAt [9, 0, 0, 0, 7] 0 4 + (([9, 0, 0, 0, 7] : Bytes).drop 4).length ≤ 125829120 ∧
    pecHolds 0xE1 [] (pecFor 0xE1 []) (rom {}) = true := by decide +kernel

theorem test_RecoveryAndSideband :
    after (.recoveryWrite 15) (rom writes3) (fun t => (taskAt t 15).status == stOk && t.upd.rImage.map (·.1) ==
      [125829117, 125829118, 125829119]) = true ∧
    after (.recoveryWrite 15) (rom { writes3 with dataLen := 225 }) (fun t => (taskAt t 15).status == stLength && t.upd.rImage == []) =
      true ∧
    after (.recoveryCommit 15) (rom (task 5 0)) (fun t => (taskAt t 15).status == stPageField && t.boot.stage == 0xE) = true ∧
    after (.uartRecoveryWrite (uart 1 9 [1, 2])) (rom {}) (fun t => t.upd.rImage == [(9, 1), (10, 2)] && t.out == [.uart 1 stOk]) = true ∧
    after (.uartRecoveryWrite ((uart 1 9 [1, 2]).set 8 0)) (rom {}) (fun t => t.upd.rImage == [] && t.out == []) = true ∧
    after (.uartRecoveryCommit (uart 2 0 [])) (rom {}) (fun t => t.out == [.uart 2 stPageField]) = true ∧
    after (.smbusRecoveryWrite [9, 0, 0, 0, 7] (pecFor 0xE0 [9, 0, 0, 0, 7])) (rom {}) (fun t => t.upd.rImage == [(9, 7)]) = true ∧
    after (.smbusRecoveryWrite [9, 0, 0, 0, 7] none) (rom {}) (fun t => t.upd.rImage == [] && t.out == [.nack]) = true ∧
    after (.smbusRecoveryCommit [] (pecFor 0xE1 [])) (rom {}) (fun t => t.upd.rStatus == stPageField) = true ∧
    after (.smbusRecoveryStatus true) on (fun t => t.out == [.nack]) = true := by decide +kernel

def frozen : State := { on with clk := { time := 9 }, frz := { state := 2, at_ := 4 }, lanes := [(511, { state := .up })] }

theorem witness_FreezeAndThaw : on.frz.mode ≠ 0 ∧ 1 ≤ on.boot.stage ∧ on.pwr.sup = .normal ∧ on.frz.state = 0 ∧
    State.reset.boot.stage = 0 ∧ frozen.frz.state = 2 ∧ on.frz.state ≠ 2 := by decide +kernel

theorem test_FreezeAndThaw :
    after .freezeEntry on (fun t => t.frz.state == 2 && !running t) = true ∧
    after .freezeEntry State.reset (fun t => t.frz.state == 0 && t.frz.asserted) = true ∧
    after .thaw on (fun t => t.frz.state == 0 && !t.frz.asserted) = true ∧
    after .thaw frozen (fun t => t.frz.state == 0 && t.frz.lastNs == 5 && (laneAt t 511).state != .up) = true ∧
    after .frzChain frozen (fun t => t.frz.shifts == 1) = true ∧
    after (.frzMem 5 6) frozen (fun t => match t.out with | [.jtag [5, 6, _]] => true | _ => false) = true ∧
    after .frzStatus on (fun t => t.out == [.jtag [0]]) = true := by decide +kernel

/-! ## The block as a whole -/

def queuedUp : State := { on with pending := [.helloTimer, .slotBoundary] }
def tickEnd : State := { on with clk := { time := 2 ^ 64 - 1000 } }

theorem witness_StepRunsTheFrontCommand : queuedUp.pending = .helloTimer :: [.slotBoundary] ∧ on.pending = [] ∧ now on + 1000 < 2 ^ 64 ∧
    2 ^ 64 ≤ now tickEnd + 1000 ∧ tickEnd.pending = [] := by decide +kernel

theorem test_StepRunsTheFrontCommand : (match step queuedUp with | .next t => t.pending == [.slotBoundary] | _ => false) = true ∧
    (match step on with | .next t => t.clk.time == 1000 && t.pending == [] | _ => false) = true ∧
    (match step tickEnd with | .fault .fabricTimeExhausted => true | _ => false) = true := by decide +kernel

theorem witness_EveryCommandKeepsOtherParts : after .helloTimer on (fun t => t == on) = true := by decide +kernel

theorem witness_EveryCommandCompletes : (.slotBoundary : Instr) ≠ .helloTimer ∧ now on + 16000 < 2 ^ 64 := by decide +kernel

theorem witness_AStoppedModuleIgnoresCommands : onlyWhenRunning (.get 0 0 none) = true ∧ running frozen = false ∧
    running (atSup .flush 0) = false := by decide +kernel

theorem witness_EveryStepKeepsTheSupplyInvariant : supplyOk queuedUp ∧
    (match step queuedUp with | .next t => t == { on with pending := [.slotBoundary] } | _ => false) = true := by
  unfold supplyOk
  decide +kernel

theorem witness_NoStepUndoesWhatIsForGood : (boxed (write900 9 0) kikLocked7).xts.kikLocked = true ∧
    after (.settingWrite 15) (boxed (write900 9 0) kikLocked7) (fun t => t.xts.kikLocked && t.xts.kik == some 7) = true := by
  decide +kernel

/-- The same commit with no object of the key held. -/
def committingNew : State :=
  { absent (keyed 0x06) with
    dlr := { inflight := [putPlan (.store 3 [1] [8, 9] 2)] }, sessions := [(7, { kind := .host, ctx := 0 })], jnl := { accepted := 1 } }

theorem witness_CommittedValueIsRead : (∀ s ∈ [committing (.store 3 [1] [8, 9] 2), committingNew],
      running s = true ∧ findFlight s 7 1 = some (putPlan (.store 3 [1] [8, 9] 2)) ∧
      committable s (putPlan (.store 3 [1] [8, 9] 2)) = true ∧ tfind s.mem.held s.mem.nextHeld = none) ∧
    (putPlan (.store 3 [1] [8, 9] 2)).trick = none ∧ (putPlan (.store 3 [1] [8, 9] 2)).prot = none ∧
    (putPlan (.store 3 [1] [8, 9] 2)).medium = false ∧
    (candidates (committing (.store 3 [1] [8, 9] 2)) 3 (digestOf committingNew 3 [1])).length = 1 ∧
    (lookup (committing (.store 3 [1] [8, 9] 2)) 3 [1]).isSome = true ∧ lookup committingNew 3 [1] = none ∧
    freeSlot committingNew.idx (bucket1 (digestOf committingNew 3 [1])) ≠ none ∧
    candidates committingNew 3 (digestOf committingNew 3 [1]) = [] := by decide +kernel

theorem test_CommittedValueIsRead :
    after (.commitStep 7 1) committingNew (fun t => (lookup t 3 [1]).map (fun y => (y.item.value, y.item.suit, y.item.version)) ==
      some ([8, 9], 2, 1)) = true := by decide +kernel

theorem witness_CommandsOnOneUnitLeaveOthersAlone : (510 : Nat) ≠ 511 ∧
    after (.blockLock 511) (laneOn (inState .locking) 7) (fun t => laneAt t 510 == laneAt (laneOn (inState .locking) 7) 510) = true ∧
    after (.sqTailWrite 0 917503 3 none) (queued queue4 0) (fun t => ctxAt t 5 == {}) = true ∧
    after (.dramChannelFailure 11 .uncorrectable) (poisoned 65) (fun t => chanAt t 10 == chanAt (poisoned 65) 10) = true := by
  decide +kernel

/-- A client datagram, a Walin header, a shard and the rest of their kind, each in its ranges. -/
def dgram0 : Dgram :=
  { lane := 511, srcAddr := 2 ^ 128 - 1, srcPort := 65535, magic := 65535, version := 15, kind := 255, final := true,
    session := 2 ^ 64 - 1, sequence := 2 ^ 32 - 1, wordA := 2 ^ 32 - 1, wordB := 2 ^ 32 - 1, bodyLen := 0, body := [] }
def shard0 : Shard :=
  { ns := 4095, key := [1], digest := 2 ^ 128 - 1, stampTime := 2 ^ 64 - 1, stampTie := 65535, stampNode := 2047, version := 2 ^ 64 - 1,
    suit := 15, index := 0, whole := 67108864, spreadK := 1, spreadM := 0, tombstone := false, value := [] }
def hdr0 : Hdr :=
  { version := 15, kind := 15, hop := 7, adaptive := false, bounded := false, via := 31, dst := 2047, src := 2047, laneSeq := 65535,
    payload := 65535, session := 2 ^ 64 - 1, sequence := 2 ^ 32 - 1, word := 2 ^ 64 - 1 }
def asks (n : Nat) : DramIn := { port := n, region := .stream, offset := 0, write := false, whole := false, urgent := false }
def found (meld page : Nat) : RecoveryInput :=
  { rootOk := true, imagesOk := true, deltasOk := true, lost := [{ meld := meld, page := page, dataLost := false }] }
def boots (c e : List Nat) : BootInput :=
  { recovLow := false, recordOk := true, partsOk := true, badChannels := c, badEngines := e, generatorsOk := true, noiseA := true,
    noiseB := true, smbAdr := false }

/-- Every kind of range has its last value in it. -/
theorem test_wellFormed_at_the_last_value : ∀ i ∈ ([.sqTailWrite 3 1040383 65535 none, .cqHeadWrite 3 1040383 65535,
    .submissionEntryFetch 1040383 (some { entry := 2 ^ 512 - 1, list := none, key := none, data := none }), .get (2 ^ 64 - 1) (2 ^ 32 - 1) none,
    .coreFailure 31, .settingRead 63, .namespaceFreed 4095, .moduleReset 15, .registerWrite 3 5 0 8 (2 ^ 64 - 1), .hostLinkChange 3 true 16 5,
    .clientOpen dgram0, .voidFrame 511 hdr0, .rebuildWrite 0 0 shard0, .credit 511 65535 true [65535, 0, 0, 0, 65535],
    .laneTrainingDone 511 63 63 63, .pauseReceived 511 (some 7) 65535, .indexGroupRebuild (Config.groups - 1),
    .classifierScrub [{ unit := 32767, parity := true, dramBad := false }], .dieFailure 511, .meldEraseComplete 0 [Config.blkTotal - 1],
    .powerLossRecovery (found (Config.melds - 1) 92159), .dramRequest 11 1 [asks 15] [79], .codewordReadComplete (2 ^ 40 - 1) ⟨.clean, [4479]⟩, .configRequest ⟨3, 4095, some (2 ^ 32 - 1)⟩,
    .dramLiveRetrain 11 true [(64, 64)], .cipherClaim 15 4096 true false (2 ^ 128 - 1) 1 1, .coldStart (boots [11] [15]),
    .pllLockLoss 512, .testOverdue 6 1023] : List Instr), WellFormed i := by decide +kernel

/-- The next value of each is refused: queues, sessions and boxes. -/
theorem test_illFormed_queues_sessions_boxes : ∀ i ∈ ([.sqTailWrite 4 0 0 none, .sqTailWrite 0 1040384 0 none, .sqTailWrite 0 0 65536 none,
    .sqTailWrite 0 0 0 (some 65536), .cqHeadWrite 4 0 0, .cqHeadWrite 0 1040384 0, .cqHeadWrite 0 0 65536,
    .submissionEntryFetch 0 (some { entry := 2 ^ 512, list := none, key := none, data := none }), .admissionStep (2 ^ 64),
    .get 0 (2 ^ 32) none, .coreFailure 32, .settingRead 64, .namespaceFreed 4096, .moduleReset 16, .registerWrite 0 6 0 8 0,
    .registerWrite 0 0 0 8 (2 ^ 64), .rcRegisterRead 4 ⟨0, 0⟩ 8, .rcRegisterRead 0 ⟨6, 0⟩ 8, .configRequest ⟨0, 4096, none⟩, .configRequest ⟨0, 0, some (2 ^ 32)⟩, .perstDeassert 0 4 false, .hostLinkChange 0 true 17 5,
    .diagUnlockExpiry 4] : List Instr), ¬ WellFormed i := by decide +kernel

/-- Lanes, modules, datagrams, headers and shards. -/
theorem test_illFormed_fabric : ∀ i ∈ ([.clientOpen { dgram0 with lane := 512 }, .clientCommand { dgram0 with srcAddr := 2 ^ 128 },
    .clientStage { dgram0 with srcPort := 65536 }, .clientWithdraw { dgram0 with magic := 65536 }, .clientClose { dgram0 with version := 16 },
    .clientDatagramDrop { dgram0 with kind := 256 }, .clientOpen { dgram0 with session := 2 ^ 64 }, .clientOpen { dgram0 with sequence := 2 ^ 32 },
    .clientOpen { dgram0 with wordA := 2 ^ 32 }, .clientOpen { dgram0 with wordB := 2 ^ 32 },
    .voidFrame 512 hdr0, .voidFrame 0 { hdr0 with version := 16 }, .voidFrame 0 { hdr0 with kind := 16 }, .voidFrame 0 { hdr0 with hop := 8 },
    .voidFrame 0 { hdr0 with via := 32 }, .voidFrame 0 { hdr0 with dst := 2048 }, .voidFrame 0 { hdr0 with src := 2048 },
    .rebuildWrite 0 0 { shard0 with ns := 4096 }, .rebuildWrite 0 0 { shard0 with key := [] }, .rebuildWrite 0 0 { shard0 with suit := 16 },
    .rebuildWrite 0 0 { shard0 with whole := 67108865 }, .rebuildWrite 0 0 { shard0 with key := List.replicate 257 0 },
    .hello 0 2048 true 0 0 0, .credit 0 0 true [0, 0, 0, 0], .credit 0 0 true [0, 0, 0, 0, 65536], .route 0 0 [2048] true 0,
    .laneTrainingDone 0 64 0 0, .pauseReceived 0 (some 8) 0, .shardRead 0 0 4096 [], .shardHold 0 0 0 ⟨0, (2 ^ 60)⟩ shard0 false, .orderReply 2048 0 .mismatch] : List Instr), ¬ WellFormed i := by
  decide +kernel

/-- Media, memory, ciphers, the supply and the block as a whole. -/
theorem test_illFormed_units : ∀ i ∈ ([.backgroundGc 32, .indexGroupRebuild Config.groups, .classifierScrub [{ unit := 32768, parity := true, dramBad := false }],
    .classifierBankRebuild 16 false, .rowSealTimer Config.melds, .rowProgramComplete 0 [{ die := 512, plane := 0 }],
    .rowProgramComplete 0 [{ die := 0, plane := 4 }], .meldEraseComplete 0 [Config.blkTotal], .indexMoveToMedia (2 ^ 40), .dieFailure 512,
    .wearLevelRelocation 32 0, .powerLossRecovery (found Config.melds 0), .fullScanRebuild (found 0 92160), .codewordReadComplete 0 ⟨.clean, [4480]⟩,
    .dramRequest 12 0 [] [], .dramRequest 0 2 [] [], .dramRequest 0 0 [asks 16] [], .dramRequest 0 0 [] [80],
    .dramLiveRetrain 0 true [(65, 0)], .cipherClaim 16 0 true false 0 1 1, .cipherClaim 0 4097 true false 0 1 1,
    .generatorReseed 17, .supplyVWarn 65536, .coldStart (boots [12] []), .coldStart (boots [] [16]), .testOverdue 7 0,
    .frzMem (2 ^ 32) 0, .pllLockLoss 513, .taskCodeInvalid 16, .rxLowPowerIdle 512 true] : List Instr), ¬ WellFormed i := by decide +kernel

/-- The check value of CRC-32C over the digits 1 to 9 is E306_9283. -/
theorem test_crc32c : crc32c ((List.range 9).map (fun i => BitVec.ofNat 8 (0x31 + i))) = 0xE3069283 := by decide +kernel

/-- The AES-256 example of FIPS 197, appendix C.3. -/
theorem test_aes256 : aesEncrypt (List.range 32) ((List.range 16).map (17 * ·)) =
    [0x8e, 0xa2, 0xb7, 0xca, 0x51, 0x67, 0x45, 0xbf, 0xea, 0xfc, 0x49, 0x90, 0x4b, 0x49, 0x60, 0x89] := by decide +kernel

/-- The published result of SipHash-2-4 with 128 bits for the key 00…0F and no message. -/
theorem test_sipHash128 : sipHash128 0x0F0E0D0C0B0A09080706050403020100 [] = 0x930255C71472F66DE6A825BA047F81A3 := by decide +kernel

/-- The published SHA-384 of the text abc. -/
theorem test_sha384 : sha384 [0x61, 0x62, 0x63] =
    0xcb00753f45a35e8bb5a03d699ac65007272c32ab0eded1631a8b605a43ff5bed8086072ba1e7cc2358baeca134c825a7 := by decide +kernel

end Sys2Proof.Tests
end

section
/-! PROOFS. What every command may change, by the frames of Laws/Frame*.lean. -/

namespace Sys2Proof.Machine

open Sys2Proof

/-! ## The rows that write one setting page (R252, R254) -/

/-- What taking a mailbox command can come to (R251, R252): it is not this row's turn, it is refused, or it runs. -/
theorem takeBox_cases {b : Nat} {sel : Mailbox → Bool} {managed : Bool} {f : Mailbox → State → State} {s : State}
    {P : State → Prop} (idle : P s) (refused : ∀ st, P (finishBox b st [] (boxTaken s)))
    (runs : sel (boxAt s b) = true → P (f (boxAt s b) (boxTaken s))) : P (takeBox b sel managed f s) := by
  simp only [takeBox]
  split
  · next h =>
    obtain ⟨-, -, selected⟩ := h
    split
    · exact refused _
    · exact runs selected
  · exact idle

theorem boxTaken_keeps (s : State) : Keeps [.host] s (boxTaken s) := by
  intro p hp
  cases p
  case host => exact absurd (List.mem_singleton_self _) hp
  all_goals rfl

section
variable {w : List Area} {page : Nat} {asks : Nat → Bool}

/-- A SETTING_WRITE of one page changes what the write of that page changes, and what the answer of its mailbox takes. -/
theorem settingWrite_keeps_of_page {box : Nat} {x : Mailbox} {s : State} (hw : subB [.host, .out] w = true)
    (writes : ∀ u t v u', asks v = true → pageWrite u page t v = some u' → Keeps w u u')
    (hx : writesPage page asks x = true) : Keeps w s (settingWrite box x s) := by
  have ends : ∀ st out, Keeps w s (finishBox box st out s) := fun _ _ => (finishBox_keeps hw).mpr (Keeps.refl w s)
  simp only [writesPage, Bool.and_eq_true, decide_eq_true_eq] at hx
  obtain ⟨⟨-, hpage⟩, hasks⟩ := hx
  unfold settingWrite
  split
  · exact ends _ _
  · next size n _ =>
    split
    · exact ends _ _
    · split
      · exact ends _ _
      · next hlen =>
        have hsize : x.inLen = size := by_contra fun h => hlen (Or.inl h)
        split
        · exact ends _ _
        · next u hu => exact (finishBox_keeps hw).mpr (writes _ _ _ _ (hsize ▸ hasks) (hpage ▸ hu))

/-- The row of a mailbox command that is such a write changes no more (R252). -/
theorem pageRow_keeps {box : Nat} {s : State} (hw : subB [.host, .out] w = true)
    (writes : ∀ u t v u', asks v = true → pageWrite u page t v = some u' → Keeps w u u') :
    KeepsR w s (whenRunning (takeBox box (writesPage page asks) true (settingWrite box)) s) := by
  have host : subB [.host] w = true := by
    simp only [subB, List.all_cons, Bool.and_eq_true] at hw ⊢
    exact ⟨hw.1, rfl⟩
  have taken : Keeps w s (boxTaken s) := (boxTaken_keeps s).mono host
  rw [whenRunning, keepsR_next, keeps_ite]
  split
  · exact takeBox_cases (Keeps.refl w s) (fun _ => (finishBox_keeps hw).mpr taken)
      fun hsel => taken.trans (settingWrite_keeps_of_page hw writes hsel)
  · exact Keeps.refl w s
end

/-- Only a DISABLED namespace is released, and it passes to RELEASING (R100, Table 03-1). -/
theorem write0201_release {s u : State} {ns v : Nat} (hv : bit v 1 = true) (h : write0201 s ns v = some u) :
    ∃ y, u = beginRelease ns (setNs ns y s) := by
  by_cases h2 : (nsAt s ns).state = 2
  · simp [write0201, hv, h2] at h
    exact ⟨_, h.2.symm⟩
  · simp [write0201, hv, h2] at h

/-- A release of a namespace (R100) leaves the key slots alone: only a namespace that leaves FREE takes one. -/
theorem write0201_release_keeps {s u : State} {ns v : Nat} (hv : bit v 1 = true) (h : write0201 s ns v = some u) :
    Keeps [.nss, .host, .med, .out, .draws] s u := by
  obtain ⟨y, rfl⟩ := write0201_release hv h
  exact (beginRelease_keeps (by decide)).mpr ((setNs_keeps (by decide)).mpr (Keeps.refl _ s))

/-! ## Every command's frame -/

/-- What every command may change: each row's own frame, and for the rows that write one setting page the frame of that
page's write. -/
theorem exec_keeps (s : State) : ∀ c : Instr, KeepsR (mayChange c) s (exec c s)
  | .sqTailWrite .. => execSqTailWrite_keeps _ _ _ _ _
  | .cqHeadWrite .. => execCqHeadWrite_keeps _ _ _ _
  | .submissionEntryFetch .. => execSubmissionEntryFetch_keeps _ _ _
  | .intakeBacklogResume => execIntakeBacklogResume_keeps _
  | .admissionStep .. => execAdmissionStep_keeps _ _
  | .heldSequenceRelease .. => execHeldSequenceRelease_keeps _ _
  | .holdLimitExpiry .. => execHoldLimitExpiry_keeps _ _ _
  | .get .. => execGet_keeps _ _ _ _
  | .put .. => execPut_keeps _ _ _ _
  | .delete .. => execDelete_keeps _ _ _
  | .putAt .. => execPutAt_keeps _ _ _ _
  | .append .. => execAppend_keeps _ _ _ _
  | .existsKey .. => execExistsKey_keeps _ _ _
  | .compareAndPut .. => execCompareAndPut_keeps _ _ _ _
  | .expireHint .. => execExpireHint_keeps _ _ _
  | .enumerate .. => execEnumerate_keeps _ _ _ _
  | .trick .. => execTrick_keeps _ _ _ _ _
  | .flushSession .. => execFlushSession_keeps _ _ _
  | .journalQuery .. => execJournalQuery_keeps _ _ _ _
  | .overlapRelease .. => execOverlapRelease_keeps _ _ _
  | .commitStep .. => execCommitStep_keeps _ _ _
  | .postHeldCompletion .. => execPostHeldCompletion_keeps _ _
  | .coalesceTimerExpiry .. => execCoalesceTimerExpiry_keeps _ _
  | .coreFailure .. => execCoreFailure_keeps _ _
  | .coreRoleDrain .. => execCoreRoleDrain_keeps _ _
  | .settingRead .. => execSettingRead_keeps _ _
  | .settingWrite .. => execSettingWrite_keeps _ _
  | .namespaceRelease .. => pageRow_keeps rfl fun _ _ _ _ => write0201_release_keeps
  | .namespaceFreed .. => execNamespaceFreed_keeps _ _
  | .keyGenerate .. => pageRow_keeps rfl fun u _ _ _ _ h => (write0901_keeps h rfl).mpr (Keeps.refl _ u)
  | .keyImport .. => pageRow_keeps rfl fun u _ _ _ _ h => (write0901_keeps h rfl).mpr (Keeps.refl _ u)
  | .keyZeroize .. => pageRow_keeps rfl fun u _ _ _ _ h => (write0901_keeps h rfl).mpr (Keeps.refl _ u)
  | .kikInstall .. => pageRow_keeps rfl fun u _ _ _ _ h => (write0900_keeps h rfl).mpr (Keeps.refl _ u)
  | .kikLock .. => pageRow_keeps rfl fun u _ _ _ _ h => (write0900_keeps h rfl).mpr (Keeps.refl _ u)
  | .timeSet .. => pageRow_keeps rfl fun u _ _ _ _ h => (write0502_keeps h rfl).mpr (Keeps.refl _ u)
  | .calendarSet .. => pageRow_keeps rfl fun u _ _ _ _ h => (write0b01_keeps h rfl).mpr (Keeps.refl _ u)
  | .eventStoreClear .. => pageRow_keeps rfl fun u _ _ _ _ h => (write0b01_keeps h rfl).mpr (Keeps.refl _ u)
  | .classifierOrderedInsert .. => pageRow_keeps rfl fun u _ _ _ _ h => (write0602_keeps h rfl).mpr (Keeps.refl _ u)
  | .queueCreate .. => execQueueCreate_keeps _ _
  | .queueDelete .. => execQueueDelete_keeps _ _
  | .queueDeleteComplete .. => execQueueDeleteComplete_keeps _ _
  | .sessionRelease .. => execSessionRelease_keeps _ _
  | .sessionList .. => execSessionList_keeps _ _
  | .mbxJournalQuery .. => execMbxJournalQuery_keeps _ _
  | .ledgerSnapshot .. => execLedgerSnapshot_keeps _ _
  | .eventRead .. => execEventRead_keeps _ _
  | .diagUnlock .. => execDiagUnlock_keeps _ _
  | .diagUnlockExpiry .. => execDiagUnlockExpiry_keeps _ _
  | .mailboxUnknownCommand .. => execMailboxUnknownCommand_keeps _ _
  | .updateBegin .. => execUpdateBegin_keeps _ _
  | .updateData .. => execUpdateData_keeps _ _
  | .updateFinish .. => execUpdateFinish_keeps _ _
  | .updateActivate .. => execUpdateActivate_keeps _ _
  | .updateCommit .. => execUpdateCommit_keeps _ _
  | .updateAbort .. => execUpdateAbort_keeps _ _
  | .updateStatus .. => execUpdateStatus_keeps _ _
  | .activationPreload .. => execActivationPreload_keeps _ _
  | .activationWindowStart => execActivationWindowStart_keeps _
  | .activationMidpoint .. => execActivationMidpoint_keeps _ _
  | .activationWindowEnd .. => execActivationWindowEnd_keeps _ _
  | .autoCommit => execAutoCommit_keeps _
  | .bootTimeout => execBootTimeout_keeps _
  | .moduleReset .. => execModuleReset_keeps _ _
  | .moduleResetExecute => execModuleResetExecute_keeps _
  | .selfTest .. => execSelfTest_keeps _ _ _
  | .eventTail .. => execEventTail_keeps _ _
  | .recoveryWrite .. => execRecoveryWrite_keeps _ _
  | .recoveryCommit .. => execRecoveryCommit_keeps _ _
  | .uartRecoveryWrite .. => execUartRecoveryWrite_keeps _ _
  | .uartRecoveryCommit .. => execUartRecoveryCommit_keeps _ _
  | .uartRecoveryStatus .. => execUartRecoveryStatus_keeps _ _
  | .smbusRecoveryWrite .. => execSmbusRecoveryWrite_keeps _ _ _
  | .smbusRecoveryCommit .. => execSmbusRecoveryCommit_keeps _ _ _
  | .smbusRecoveryStatus .. => execSmbusRecoveryStatus_keeps _ _
  | .sidebandIdentityRead .. => execSidebandIdentityRead_keeps _ _
  | .sidebandStatusRead .. => execSidebandStatusRead_keeps _ _ _
  | .registerWrite .. => execRegisterWrite_keeps _ _ _ _ _ _
  | .rcRegisterRead .. => execRcRegisterRead_keeps _ _ _ _
  | .registerLowHalfRead .. => execRegisterLowHalfRead_keeps _ _ _
  | .barBadAccess .. => execBarBadAccess_keeps _ _ _ _ _ _
  | .configRequest .. => execConfigRequest_keeps _ _
  | .perstDeassert .. => execPerstDeassert_keeps _ _ _ _
  | .portReset .. => execPortReset_keeps _ _ _
  | .allPortsReset => execAllPortsReset_keeps _
  | .hostLinkChange .. => execHostLinkChange_keeps _ _ _ _ _
  | .wakeRelease => execWakeRelease_keeps _
  | .clientOpen .. => execClientOpen_keeps _ _
  | .clientCommand .. => execClientCommand_keeps _ _
  | .clientStage .. => execClientStage_keeps _ _
  | .clientWithdraw .. => execClientWithdraw_keeps _ _
  | .clientClose .. => execClientClose_keeps _ _
  | .clientCloseComplete .. => execClientCloseComplete_keeps _ _
  | .clientSessionIdle .. => execClientSessionIdle_keeps _ _
  | .stageIdleExpiry .. => execStageIdleExpiry_keeps _ _ _
  | .clientDatagramDrop .. => execClientDatagramDrop_keeps _ _
  | .clientFrameFiltered .. => execClientFrameFiltered_keeps _ _
  | .neighbourDiscovery .. => execNeighbourDiscovery_keeps _ _ _ _ _ _
  | .clientCompletionDiscard .. => execClientCompletionDiscard_keeps _ _
  | .hello _ _ _ _ _ serial => execHello_keeps _ _ _ _ _ serial _
  | .helloTimer => execHelloTimer_keeps _
  | .credit .. => execCredit_keeps _ _ _ _ _
  | .creditReturnTimer .. => execCreditReturnTimer_keeps _ _
  | .timeFrame .. => execTimeFrame_keeps _ _ _
  | .timeExchangeTimer => execTimeExchangeTimer_keeps _
  | .revoke .. => execRevoke_keeps _ _ _ _ _
  | .laneFailure .. => execLaneFailure_keeps _ _ _
  | .route .. => execRoute_keeps _ _ _ _ _ _
  | .routeFloodTimer => execRouteFloodTimer_keeps _
  | .routeRecompute => execRouteRecompute_keeps _
  | .fabricForward .. => execFabricForward_keeps _ _ _
  | .fabricFrameDrop .. => execFabricFrameDrop_keeps _ _ _
  | .nocreditDrop .. => execNocreditDrop_keeps _ _ _
  | .voidFrame .. => execVoidFrame_keeps _ _ _
  | .fabricOpen .. => execFabricOpen_keeps _ _ _
  | .fabricOpenReply .. => execFabricOpenReply_keeps _ _ _ _ _
  | .fabricAck .. => execFabricAck_keeps _ _ _ _ _
  | .fabricClose .. => execFabricClose_keeps _ _
  | .sessionRetransmit .. => execSessionRetransmit_keeps _ _ _
  | .creditReturn .. => execCreditReturn_keeps _ _ _ _
  | .idleCreditReturnTimer .. => execIdleCreditReturnTimer_keeps _ _
  | .shardHold .. => execShardHold_keeps _ _ _ _ _ _ _
  | .shardCommit .. => execShardCommit_keeps _ _ _ _ _ _ _ _
  | .shardDiscard .. => execShardDiscard_keeps _ _ _ _ _ _ _ _
  | .decide .. => execDecide_keeps _ _ _ _ _ _ _ _ _
  | .shardRead .. => execShardRead_keeps _ _ _ _ _
  | .rebuildWrite .. => execRebuildWrite_keeps _ _ _ _
  | .fabricRequestInvalid .. => execFabricRequestInvalid_keeps _ _ _ _
  | .orderRequest .. => execOrderRequest_keeps _ _ _ _ _ _ _ _
  | .orderReply .. => execOrderReply_keeps _ _ _ _
  | .orderTimeout .. => execOrderTimeout_keeps _ _
  | .writeOrderExpiry .. => execWriteOrderExpiry_keeps _ _ _
  | .shardHoldDeadline .. => execShardHoldDeadline_keeps _ _ _
  | .decideTimeout .. => execDecideTimeout_keeps _ _ _
  | .pendingShardResolve .. => execPendingShardResolve_keeps _ _ _ _ _
  | .peerFailure .. => execPeerFailure_keeps _ _
  | .leadHorizonEnd .. => execLeadHorizonEnd_keeps _ _
  | .shardRebuild .. => execShardRebuild_keeps _ _ _
  | .laneRetrainWindowStart .. => execLaneRetrainWindowStart_keeps _ _
  | .laneTrainingDone .. => execLaneTrainingDone_keeps _ _ _ _ _
  | .laneTrainingTimeout .. => execLaneTrainingTimeout_keeps _ _
  | .blockLock .. => execBlockLock_keeps _ _
  | .confirmPass .. => execConfirmPass_keeps _ _
  | .falseLock .. => execFalseLock_keeps _ _
  | .lockLoss .. => execLockLoss_keeps _ _
  | .hiBerWindow .. => execHiBerWindow_keeps _ _ _
  | .attemptCountReset .. => execAttemptCountReset_keeps _ _
  | .laneFrameReceive .. => execLaneFrameReceive_keeps _ _ _ _
  | .laneFrameTransmit .. => execLaneFrameTransmit_keeps _ _
  | .pauseReceived .. => execPauseReceived_keeps _ _ _ _
  | .pauseExpiry .. => execPauseExpiry_keeps _ _
  | .pauseRepeatTimer .. => execPauseRepeatTimer_keeps _ _
  | .ringFrameTaken .. => execRingFrameTaken_keeps _ _
  | .pauseWatchdog .. => execPauseWatchdog_keeps _ _
  | .pauseHoldoffEnd .. => execPauseHoldoffEnd_keeps _ _
  | .lpiEntry .. => execLpiEntry_keeps _ _
  | .lpiWake .. => execLpiWake_keeps _ _
  | .slotBoundary => execSlotBoundary_keeps _
  | .maintenanceReservationStart .. => execMaintenanceReservationStart_keeps _ _
  | .backgroundGc .. => execBackgroundGc_keeps _ _
  | .foregroundGc .. => execForegroundGc_keeps _ _
  | .gcFactorUpdate => execGcFactorUpdate_keeps _
  | .ledgerFault .. => execLedgerFault_keeps _ _ _ _ _
  | .ledgerRecountWindow => execLedgerRecountWindow_keeps _
  | .eventHoldExpiry => execEventHoldExpiry_keeps _
  | .eventStoreWriteDone => execEventStoreWriteDone_keeps _
  | .stashRetryPass => execStashRetryPass_keeps _
  | .checkpointGroupCopy => execCheckpointGroupCopy_keeps _
  | .indexSweepPass => execIndexSweepPass_keeps _
  | .indexGroupRebuild .. => execIndexGroupRebuild_keeps _ _
  | .classifierScrub .. => execClassifierScrub_keeps _ _
  | .classifierBankRebuild .. => execClassifierBankRebuild_keeps _ _ _
  | .rowSealTimer .. => execRowSealTimer_keeps _ _
  | .rowProgramStart .. => execRowProgramStart_keeps _ _
  | .rowProgramComplete .. => execRowProgramComplete_keeps _ _ _
  | .indexMoveToMedia .. => execIndexMoveToMedia_keeps _ _
  | .codewordReadComplete .. => execCodewordReadComplete_keeps _ _ _
  | .dieFailure .. => execDieFailure_keeps _ _
  | .dieRebuild .. => execDieRebuild_keeps _ _
  | .expiryEvaluation => execExpiryEvaluation_keeps _
  | .hintReclaim => execHintReclaim_keeps _
  | .meldAgeClose .. => execMeldAgeClose_keeps _ _
  | .meldEraseComplete .. => execMeldEraseComplete_keeps _ _ _
  | .refreshRelocation .. => execRefreshRelocation_keeps _ _
  | .wearLevelRelocation .. => execWearLevelRelocation_keeps _ _ _
  | .meldTableSnapshot => execMeldTableSnapshot_keeps _
  | .powerLossRecovery .. => execPowerLossRecovery_keeps _ _
  | .fullScanRebuild .. => execFullScanRebuild_keeps _ _
  | .flushSetErase .. => execFlushSetErase_keeps _ _
  | .dramRequest .. => execDramRequest_keeps _ _ _ _ _
  | .refreshCommand .. => execRefreshCommand_keeps _ _ _
  | .tempModeRead .. => execTempModeRead_keeps _ _ _
  | .activateWindowReset .. => execActivateWindowReset_keeps _ _
  | .throttleEnd .. => execThrottleEnd_keeps _ _ _ _
  | .trumpLong => execTrumpLong_keeps _
  | .patrolScrub .. => execPatrolScrub_keeps _ _ _ _
  | .driftCheck .. => execDriftCheck_keeps _ _ _ _
  | .dramLiveRetrain .. => execDramLiveRetrain_keeps _ _ _ _
  | .dramChannelFailure .. => execDramChannelFailure_keeps _ _ _
  | .cipherClaim .. => execCipherClaim_keeps _ _ _ _ _ _ _ _
  | .cipherRelease .. => execCipherRelease_keeps _ _
  | .cipherEngineRetire .. => execCipherEngineRetire_keeps _ _ _
  | .generatorReseed .. => execGeneratorReseed_keeps _ _
  | .noiseSourceFail .. => execNoiseSourceFail_keeps _ _ _
  | .noiseSourceRejoin .. => execNoiseSourceRejoin_keeps _ _
  | .maskGeneratorStop .. => execMaskGeneratorStop_keeps _ _
  | .supplyVWarn .. => execSupplyVWarn_keeps _ _
  | .supplyAboveVResume .. => execSupplyAboveVResume_keeps _ _
  | .supplyBelowVResume .. => execSupplyBelowVResume_keeps _ _
  | .resumeHoldEnd => execResumeHoldEnd_keeps _
  | .supplyVBor .. => execSupplyVBor_keeps _ _
  | .dipTimeout => execDipTimeout_keeps _
  | .supplyHigh .. => execSupplyHigh_keeps _ _
  | .flushComplete .. => execFlushComplete_keeps _ _ _ _
  | .bankExhausted .. => execBankExhausted_keeps _ _
  | .coldStart .. => execColdStart_keeps _ _
  | .bankMeasurement .. => execBankMeasurement_keeps _ _
  | .bankFault .. => execBankFault_keeps _ _ _
  | .bankFaultRetry .. => execBankFaultRetry_keeps _ _
  | .bankBelow35v .. => execBankBelow35v_keeps _ _
  | .bankBelow2v .. => execBankBelow2v_keeps _ _
  | .bankCharged .. => execBankCharged_keeps _ _
  | .healthStale => execHealthStale_keeps _
  | .powerStateEntry => execPowerStateEntry_keeps _
  | .powerStateExit => execPowerStateExit_keeps _
  | .istSlice .. => execIstSlice_keeps _ _ _
  | .testOverdue .. => execTestOverdue_keeps _ _ _
  | .freezeEntry => execFreezeEntry_keeps _
  | .thaw => execThaw_keeps _
  | .frzStatus => execFrzStatus_keeps _
  | .frzChain => execFrzChain_keeps _
  | .frzMem .. => execFrzMem_keeps _ _ _
  | .supplyAbove7v .. => execSupplyAbove7v_keeps _ _
  | .supplyBelow7v .. => execSupplyBelow7v_keeps _ _
  | .pllLockLoss .. => execPllLockLoss_keeps _ _
  | .managementTakeoverComplete => execManagementTakeoverComplete_keeps _
  | .powerStateExitComplete => execPowerStateExitComplete_keeps _
  | .taskCodeInvalid .. => execTaskCodeInvalid_keeps _ _
  | .shardReadData .. => execShardReadData_keeps _ _ _ _ _ _ _
  | .shardReadAllowanceExpiry .. => execShardReadAllowanceExpiry_keeps _ _ _
  | .rxLowPowerIdle .. => execRxLowPowerIdle_keeps _ _ _

theorem pending_not_mem_mayChange (c : Instr) : Area.pending ∉ mayChange c := by
  cases c <;> simp [mayChange]

/-- No command touches the queue of waiting commands. -/
theorem exec_pending {c : Instr} {s t : State} (h : exec c s = .next t) : t.pending = s.pending :=
  exec_keeps s c t h .pending (pending_not_mem_mayChange c)

theorem idle_pending {s t : State} (h : idle s = .next t) : t.pending = s.pending :=
  idle_keeps s t h .pending (by decide)

end Sys2Proof.Machine
end

section
/-! PROOFS. What every command answers, and what one step does. -/

namespace Sys2Proof.Machine

open Sys2Proof

/-! ## What every command answers -/

/-- Every meaning but that of a slot's passing is a next state by its form. -/
theorem exec_next {c : Instr} (hc : c ≠ .slotBoundary) (s : State) : ∃ t, exec c s = .next t := by
  cases c
  case slotBoundary => exact absurd rfl hc
  all_goals exact ⟨_, rfl⟩

theorem timeLeft_iff {d : Nat} {s : State} : timeLeft d s = true ↔ now s + d < 2 ^ 64 := by
  simp [timeLeft]

theorem exec_slotBoundary_next {s : State} (h : now s + 16000 < 2 ^ 64) : ∃ t, exec .slotBoundary s = .next t := by
  have left : timeLeft (Config.slotNs - now s % Config.slotNs) s = true := by
    rw [timeLeft_iff, Config.slotNs]
    omega
  exact ⟨_, if_pos left⟩

theorem exec_slotBoundary_ne_refused (s : State) (r : Refusal) : exec .slotBoundary s ≠ .refused r := by
  show clockMoves _ s ≠ .refused r
  unfold clockMoves
  split <;> simp

/-- Settles O55: only the passing of a slot looks at the 64 bits of fabric time. -/
theorem everyCommandCompletes : Obligations.EveryCommandCompletes := by
  intro c s
  refine ⟨fun hc => exec_next hc s, ?_, ?_⟩
  · rintro rfl left
    exact exec_slotBoundary_next left
  · intro r
    by_cases hc : c = .slotBoundary
    · exact hc ▸ exec_slotBoundary_ne_refused s r
    · obtain ⟨t, ht⟩ := exec_next hc s
      simp [ht]

/-! ## One step -/

theorem step_cons {s : State} {c : Instr} {rest : List Instr} (h : s.pending = c :: rest) :
    step s = exec c { s with pending := rest } := by
  simp only [step, h]

theorem step_nil {s : State} (h : s.pending = []) : step s = idle s := by
  simp only [step, h]

theorem idle_next {s : State} (h : now s + 1000 < 2 ^ 64) : ∃ t, idle s = .next t :=
  ⟨_, if_pos (timeLeft_iff.mpr h)⟩

theorem idle_fault {s : State} (h : 2 ^ 64 ≤ now s + 1000) : idle s = .fault .fabricTimeExhausted :=
  if_neg fun left => absurd (timeLeft_iff.mp left) (by omega)

/-- Settles O52: a step is the front command's meaning, which leaves the queue as it finds it, or the idle step. -/
theorem stepRunsTheFrontCommand : Obligations.StepRunsTheFrontCommand := by
  refine ⟨?_, ?_, ?_⟩
  · intro s c rest h
    exact ⟨step_cons h, fun t ht => exec_pending (step_cons h ▸ ht)⟩
  · intro s h left
    obtain ⟨t, ht⟩ := idle_next left
    exact ⟨t, (step_nil h).trans ht, (idle_pending ht).trans h⟩
  · intro s h past
    exact (step_nil h).trans (idle_fault past)

end Sys2Proof.Machine
end

section
/-! PROOFS. The cold start, and the state after reset. -/

namespace Sys2Proof.Machine

open Sys2Proof

/-! ## What a cold start leaves (R17, R325, R675) -/

theorem rolesAtStart_same {p : Area} (hp : p ∉ [Area.cores]) (s : State) : same p s (rolesAtStart s) :=
  (rolesAtStart_keeps (by decide)).mpr (Keeps.refl _ s) p hp

theorem followAlert_same {p : Area} (hp : p ∉ [Area.host, .out]) (s : State) : same p s (followAlert s) :=
  (followAlert_keeps (by decide)).mpr (Keeps.refl _ s) p hp

section
variable (cause : Nat) (inp : BootInput) (s : State)

/-- Fabric time 1 ms above the last stamp, one cold start more (R325, R675). -/
@[simp] theorem coldStart_clk : (coldStart cause inp s).clk =
    { time := startTime s, opNs := s.clk.opNs, cycles := s.clk.cycles + 1, cause := cause, stamp := s.clk.stamp,
      stamped := s.clk.stamped } := by
  have roles : (rolesAtStart s).clk = s.clk := rolesAtStart_same (p := .clk) (by decide) s
  refine Eq.trans (followAlert_same (p := .clk) (by decide) _) ?_
  simp only [startTime, roles]

@[simp] theorem coldStart_pwr : (coldStart cause inp s).pwr = powerAtStart (startTime s) s.clk.time s.pwr := by
  have roles : (rolesAtStart s).clk = s.clk := rolesAtStart_same (p := .clk) (by decide) s
  have power : (rolesAtStart s).pwr = s.pwr := rolesAtStart_same (p := .pwr) (by decide) s
  refine Eq.trans (followAlert_same (p := .pwr) (by decide) _) ?_
  simp only [startTime, roles, power]

@[simp] theorem coldStart_stage : (coldStart cause inp s).boot.stage = 0 :=
  congrArg Boot.stage (followAlert_same (p := .boot) (by decide) _)

@[simp] theorem coldStart_input : (coldStart cause inp s).boot.input = inp :=
  congrArg Boot.input (followAlert_same (p := .boot) (by decide) _)

/-- SMB_ADR is sampled where the supply has been away (R675). -/
@[simp] theorem coldStart_smbAdr (away : cause ≤ 1) : (coldStart cause inp s).boot.smbAdr = inp.smbAdr :=
  (congrArg Boot.smbAdr (followAlert_same (p := .boot) (by decide) _)).trans (if_pos (decide_eq_true away))

@[simp] theorem coldStart_fabc : (coldStart cause inp s).fabc = {} := followAlert_same (p := .fabc) (by decide) _

@[simp] theorem coldStart_frz : (coldStart cause inp s).frz.state = 0 :=
  congrArg Freeze.state (followAlert_same (p := .frz) (by decide) _)

@[simp] theorem coldStart_med : (coldStart cause inp s).med = mediaAtStart (startTime s) s.med := by
  have roles : (rolesAtStart s).clk = s.clk := rolesAtStart_same (p := .clk) (by decide) s
  have media : (rolesAtStart s).med = s.med := rolesAtStart_same (p := .med) (by decide) s
  refine Eq.trans (followAlert_same (p := .med) (by decide) _) ?_
  simp only [startTime, roles, media]

@[simp] theorem coldStart_nss : (coldStart cause inp s).nss = s.nss :=
  Eq.trans (followAlert_same (p := .nss) (by decide) _) (rolesAtStart_same (p := .nss) (by decide) s)
end

section
variable {boot : BootInput} {s : State}

theorem exec_coldStart_off (off : s.pwr.sup = .off) :
    exec (.coldStart boot) s = .next (coldStart 0 boot { s with pwr := { s.pwr with low := true } }) := by
  simp only [exec, execColdStart, off]

theorem exec_coldStart_spent (spent : s.pwr.sup = .spent) : exec (.coldStart boot) s = .next (coldStart 1 boot s) := by
  simp only [exec, execColdStart, spent]

/-- With the supply watched, and in FLUSH, the event is none of the transitions of Table 12-2. -/
theorem exec_coldStart_idle (h : watching s = true ∨ s.pwr.sup = .flush) : exec (.coldStart boot) s = .next s := by
  cases sup : s.pwr.sup
  case off | spent => simp [watching, sup] at h
  all_goals simp only [exec, execColdStart, sup]

end

/-- Settles O4: from OFF and from SPENT the event is `coldStart` with causes 0 and 1, elsewhere it is none. -/
theorem coldStartBegins : Obligations.ColdStartBegins := by
  intro s boot
  refine ⟨?_, exec_coldStart_idle⟩
  rintro (off | spent)
  · exact ⟨_, exec_coldStart_off off, by simp [off, powerAtStart, supAtStart, startTime, mediaAtStart]⟩
  · exact ⟨_, exec_coldStart_spent spent, by simp [spent, powerAtStart, supAtStart, startTime, mediaAtStart]⟩

/-! ## The state after reset -/

theorem reset_supplyOk : supplyOk State.reset := by
  simp [supplyOk, State.reset, watching]

/-- A lane that nothing has touched is OFF (Table 07-2). -/
theorem reset_lane_ne_up (n : Nat) : (laneAt State.reset n).state ≠ .up := by
  simp [laneAt, tget, State.reset, laneBlank]

/-- An index without a slot and without a stash finds no key. -/
theorem reset_lookup (ns : Nat) (key : Bytes) : lookup State.reset ns key = none := rfl

/-- Settles O53: the scalar fields and the blank tables read off the state, the pages are computed from it. -/
theorem resetStateIsTheSpecs : Obligations.ResetStateIsTheSpecs := by
  refine ⟨rfl, rfl, rfl, rfl, rfl, rfl, rfl, rfl, rfl, rfl, rfl, rfl, rfl, rfl, rfl, reset_supplyOk, rfl, rfl, rfl,
    fun _ => rfl, reset_lane_ne_up, fun _ => rfl, fun _ => rfl, fun _ => rfl, reset_lookup, ?_, ?_, ?_, ?_, ?_⟩
  all_goals decide +kernel

end Sys2Proof.Machine
end

section
/-! PROOFS. Register accesses over BAR0 and BAR2 (ch 05): tables and bytes they rest on, one rule for each access. -/

namespace Sys2Proof.Machine

open Sys2Proof

/-! ## Tables, bytes and bits -/

/-- An entry after it has been changed by `f`, if there is one. -/
theorem tfind_tadj_same {α : Type} (t : Tbl α) (k : Nat) (f : α → α) : tfind (tadj t k f) k = (tfind t k).map f := by
  induction t with
  | nil => rfl
  | cons q t ih =>
    obtain ⟨j, b⟩ := q
    by_cases h : j = k
    · simp [tadj, tfind, h]
    · simp [tadj, tfind, h, ih]

theorem tfind_map {α : Type} (t : Tbl α) (f : α → α) (k : Nat) :
    tfind (t.map fun p => (p.1, f p.2)) k = (tfind t k).map f := by
  induction t with
  | nil => rfl
  | cons q t ih =>
    by_cases h : q.1 = k
    · simp [tfind, h]
    · simp [tfind, h, ih]

@[simp] theorem natLe_length (n v : Nat) : (natLe n v).length = n := by
  induction n generalizing v with
  | zero => rfl
  | succ n ih => simp [natLe, ih]

/-- Bytes that read one by one as `bs` read as `bs`. -/
theorem bytesAt_eq {m : List Host.Cell} {a : Nat} {bs : Bytes} (h : ∀ i < bs.length, byteAt m (a + i) = bs.getD i 0) :
    bytesAt m a bs.length = bs := by
  induction bs generalizing a with
  | nil => rfl
  | cons b bs ih =>
    have head : byteAt m a = b := by simpa using h 0 (by simp)
    have tail : ∀ i < bs.length, byteAt m (a + 1 + i) = bs.getD i 0 := fun i hi => by
      simpa [Nat.add_assoc, Nat.add_comm 1 i] using h (i + 1) (by simpa using hi)
    simp only [List.length_cons, bytesAt, head, ih tail]

/-- Bytes that were written read back. -/
theorem bytesAt_bytesSet (m : List Host.Cell) (a : Nat) (bs : Bytes) : bytesAt (bytesSet m a bs) a bs.length = bs :=
  bytesAt_eq fun i hi => by
    rw [byteAt_bytesSet, if_pos ⟨by omega, by omega⟩, Nat.add_sub_cancel_left]

theorem bit_low_half (v : Nat) {i : Nat} (hi : i < 32) : bit (bits v 31 0) i = bit v i := by
  have h : (v % 2 ^ 32).testBit i = v.testBit i := by
    rw [Nat.testBit_mod_two_pow, decide_eq_true hi, Bool.true_and]
  simpa [bit, bits, Nat.testBit_eq_decide_div_mod_eq] using h

theorem regOf_emit (o : Out) (s : State) (p a : Nat) : regOf (emit o s) p a = regOf s p a := rfl

@[simp] theorem startExit_boxes (s : State) : (startExit s).host.boxes = s.host.boxes := by
  unfold startExit
  split
  · rfl
  · simp only; split <;> rfl

@[simp] theorem startExit_goQueue (s : State) : (startExit s).host.goQueue = s.host.goQueue := by
  unfold startExit
  split
  · rfl
  · simp only; split <;> rfl

/-- A read clears registers of the host block, never what a port has latched. Of the words that name one, only that of the
retrain counts (0x280018, branch 47) rewrites the ports; a word that names none is `clearIndexed`'s (branch 61). -/
theorem clearWord_latch (o : Nat) (s : State) (p : Nat) :
    (tfind (clearWord o s).host.ports p).map Port.latch = (tfind s.host.ports p).map Port.latch := by
  have indexed : (clearIndexed o s).host = s.host :=
    (clearIndexed_keeps (wB := [.med, .mem, .xts, .ist]) (by decide)).mpr (Keeps.refl _ s) .host (by decide)
  simp only [clearWord]
  split
  case h_47 =>
    rw [tfind_map s.host.ports (fun x => { x with retrains := 0 }), Option.map_map]
    rfl
  case h_61 => rw [indexed]
  all_goals rfl

/-! ## Mailbox registers -/

theorem boxAt_congr {s t : State} (h : t.host.boxes = s.host.boxes) (k : Nat) : boxAt t k = boxAt s k := by
  rw [boxAt, boxAt, h]

@[simp] theorem boxAt_startExit (s : State) (k : Nat) : boxAt (startExit s) k = boxAt s k :=
  boxAt_congr (startExit_boxes s) k

/-- The order of go writes is no part of a mailbox. -/
theorem boxAt_goQueue (s : State) (l : List Nat) (k : Nat) :
    boxAt { s with host := { s.host with goQueue := l } } k = boxAt s k := rfl

section
variable {n p : Nat} {s : State}

/-- The word at offset `k` of mailbox `n` belongs to that mailbox (Table 05-5). -/
theorem writeWord_box {k w : Nat} (hn : n < 64) (hp : boxPort n = p) (hk : k < 4096) :
    writeWord p (0x20000 + 4096 * n + k) w s = writeBox n k w s := by
  have box : (0x20000 + 4096 * n + k - 0x20000) / 4096 = n := by omega
  have place : (0x20000 + 4096 * n + k) % 4096 = k := by omega
  simp only [writeWord, box, place, hp, if_true]
  rw [if_neg (by omega), if_neg (by omega), if_neg (by omega), if_pos (by omega)]

theorem writeWord_go {w : Nat} (hn : n < 64) (hp : boxPort n = p) :
    writeWord p (0x20000 + 4096 * n) w s = writeBox n 0 w s :=
  writeWord_box (k := 0) hn hp (by decide)

/-- A write to a mailbox leaves the others alone. -/
theorem boxAt_writeBox_ne (k w : Nat) (s : State) {j : Nat} (hj : j ≠ n) : boxAt (writeBox n k w s) j = boxAt s j := by
  have set : ∀ x, boxAt (setBox n x s) j = boxAt s j := fun x => boxAt_setBox_ne n x s j hj
  simp only [writeBox, apply_ite (boxAt · j), boxAt_startExit, boxAt_goQueue, set, ite_self]

/-- The go bit of a mailbox that is free takes its place behind the go writes before it (R252). -/
theorem writeBox_go {w : Nat} (go : bit w 0 = true) (free : (boxAt s n).busy = false) :
    let t := setBox n { boxAt s n with busy := true, irq := bit w 2 } s
    writeBox n 0 w s = startExit { t with host := { t.host with goQueue := s.host.goQueue ++ [n] } } := by
  simp only [writeBox, go, free, if_true, Bool.false_or, and_self]
  rfl

theorem writeBox_go_queued {w : Nat} (go : bit w 0 = true) (free : (boxAt s n).busy = false) :
    (writeBox n 0 w s).host.goQueue = s.host.goQueue ++ [n] := by
  rw [writeBox_go go free, startExit_goQueue]

theorem boxAt_writeBox_go {w : Nat} (go : bit w 0 = true) (free : (boxAt s n).busy = false) :
    boxAt (writeBox n 0 w s) n = { boxAt s n with busy := true, irq := bit w 2 } := by
  rw [writeBox_go go free, boxAt_startExit]
  simp only [boxAt, setBox, tget_tset_same]

theorem writeBox_go_busy {w : Nat} (busy : (boxAt s n).busy = true) :
    (writeBox n 0 w s).host.goQueue = s.host.goQueue := by
  simp [writeBox, busy, setBox]

/-- A word of the payload area is four bytes of the payload, little-endian (R13, Table 05-12). -/
theorem writeBox_payload {k : Nat} (w : Nat) (hk : 64 ≤ k) : writeBox n k w s =
    setBox n { boxAt s n with payload := bytesSet (boxAt s n).payload (k - 64) (natLe 4 w) } s := by
  simp only [writeBox]
  rw [if_neg (by omega), if_neg (by omega), if_neg (by omega), if_neg (by omega), if_neg (by omega), if_pos hk]

theorem writeBox_payload_reads {k : Nat} (w : Nat) (hk : 64 ≤ k) :
    bytesAt (boxAt (writeBox n k w s) n).payload (k - 64) 4 = natLe 4 w := by
  rw [writeBox_payload w hk, boxAt_setBox_same]
  exact bytesAt_bytesSet _ _ (natLe 4 w)

theorem writeBox_payload_else {k a : Nat} (w : Nat) (hk : 64 ≤ k) (ha : a < k - 64 ∨ k - 60 ≤ a) :
    byteAt (boxAt (writeBox n k w s) n).payload a = byteAt (boxAt s n).payload a := by
  rw [writeBox_payload w hk, boxAt_setBox_same]
  simp only [byteAt_bytesSet, natLe_length]
  exact if_neg (by omega)

end

/-! ## Reads -/

theorem clearWord_out (o : Nat) (s : State) : (clearWord o s).out = s.out :=
  (clearWord_keeps (wB := [.clk, .dlr, .jnl, .ante, .host, .fabc, .idx, .cam, .med, .mem, .xts, .pwr, .upd, .evr, .ist,
    .frz]) (by decide)).mpr (Keeps.refl _ s) .out (by decide)

theorem each_clearWord_out (l : List Nat) (s : State) : (each clearWord l s).out = s.out := by
  induction l generalizing s with
  | nil => rfl
  | cons o l ih => exact (ih _).trans (clearWord_out o s)

theorem latchHigh_out (port offset size : Nat) (s : State) : (latchHigh port offset size s).out = s.out :=
  (latchHigh_keeps (wB := [.host]) (by decide)).mpr (Keeps.refl _ s) .out (by decide)

/-- Away from the multiples of 8 a well-sized access is of one word (R224). -/
theorem wordsOf_odd {o size : Nat} (sized : wellSized o size = true) (odd : o % 8 ≠ 0) : wordsOf o size = [o] := by
  simp only [wellSized, decide_eq_true_eq] at sized
  exact if_neg (by omega)

/-! ## Ports -/

theorem port_of_reachedBy {s : State} {p : Nat} (h : reachedBy s p = true) : ∃ x, tfind s.host.ports p = some x := by
  unfold reachedBy portUp at h
  split at h
  · next x hx => exact ⟨x, hx⟩
  · cases h

theorem tfind_modPort_same (p : Nat) (f : Port → Port) (s : State) :
    tfind (modPort p f s).host.ports p = (tfind s.host.ports p).map f :=
  tfind_tadj_same ..

/-! ## What a register access comes to -/

theorem wellSized_of_honoured {s : State} {p bar o size : Nat} (h : honoured s p bar o size = true) :
    wellSized o size = true := by
  simp only [honoured, Bool.and_eq_true] at h
  exact h.1

section
variable {s : State} {port : Nat} (run : running s = true) (up : reachedBy s port = true)
include run up

/-- A write to BAR0 that is honoured writes its word (R15). -/
theorem registerWrite_bar0 {offset : Nat} (value : Nat) (ok : honoured s port 0 offset 4 = true) :
    exec (.registerWrite port 0 offset 4 value) s = .next (writeWord port offset (bits value 31 0) s) := by
  simp [exec, execRegisterWrite, whenRunning, guard, run, up, ok, barExists]

/-- A write to BAR2 that is honoured rings the doorbell of its context (R229). -/
theorem registerWrite_bar2 {offset : Nat} (value : Nat) (ok : honoured s port 2 offset 4 = true) :
    exec (.registerWrite port 2 offset 4 value) s =
      .next (doorbell port (offset / 8) (if offset % 8 = 0 then some (bits value 31 0) else none)
        (if offset % 8 = 4 then some (bits value 31 0) else none) (startExit s)) := by
  simp [exec, execRegisterWrite, whenRunning, guard, run, up, ok, barExists]

theorem registerWrite_ignored {bar offset size value : Nat} (bar0 : barExists bar = true)
    (bad : honoured s port bar offset size = false) :
    exec (.registerWrite port bar offset size value) s = .next (badAccess s) := by
  simp [exec, execRegisterWrite, whenRunning, guard, run, up, bad, bar0]

/-- A read of BAR0 that is honoured puts out what stands there, then clears what it reads (R15, R224). -/
theorem registerRead_bar0 {offset size : Nat} (ok : honoured s port 0 offset size = true) :
    ∃ u, exec (.rcRegisterRead port ⟨0, offset⟩ size) s = .next (each clearWord (wordsOf offset size) u) ∧
      u.out = s.out ++ [.readData port offset (readAt s port offset size)] := by
  refine ⟨_, by simp [exec, execRcRegisterRead, whenRunning, guard, run, up, ok]; rfl, ?_⟩
  rw [latchHigh_out]
  rfl

theorem registerRead_bar2 {offset size : Nat} (ok : honoured s port 2 offset size = true) :
    exec (.rcRegisterRead port ⟨2, offset⟩ size) s = .next (emit (.readData port offset 0) s) := by
  simp [exec, execRcRegisterRead, whenRunning, guard, run, up, ok]

/-- A read of the low half of a 64-bit register leaves the high half latched (R224). -/
theorem registerLowHalfRead_latches {offset : Nat} {r : Reg} (ok : honoured s port 0 offset 4 = true)
    (reg : regOf s port offset = some r) (wide : r.wide = true) (low : r.off = offset) :
    exec (.registerLowHalfRead port offset) s =
      .next (clearWord offset (modPort port (fun x => { x with latch := some (offset + 4, bits r.value 63 32) })
        (emit (.readData port offset (readAt s port offset 4)) s))) := by
  simp [exec, execRegisterLowHalfRead, whenRunning, guard, run, up, ok, reg, wide, low, latchHigh, regOf_emit, wordsOf,
    each]

theorem barBadAccess_counts {bar offset size : Nat} (write : Bool) (bar0 : barExists bar = true)
    (bad : honoured s port bar offset size = false) :
    exec (.barBadAccess port bar offset size write) s =
      .next (if write then badAccess s else emit (.readData port offset 0) (badAccess s)) := by
  simp [exec, execBarBadAccess, whenRunning, guard, run, up, bad, bar0]

end

theorem registerWrite_noBar {port bar offset size value : Nat} (s : State) (noBar : barExists bar = false) :
    exec (.registerWrite port bar offset size value) s = .next s := by
  simp [exec, execRegisterWrite, whenRunning, guard, noBar]

theorem barBadAccess_idle {port bar offset size : Nat} {s : State} (write : Bool)
    (fine : honoured s port bar offset size = true ∨ barExists bar = false) :
    exec (.barBadAccess port bar offset size write) s = .next s := by
  rcases fine with h | h <;> simp [exec, execBarBadAccess, whenRunning, guard, h]

/-- Settles O48: each kind of access is one of the rules above, and what the registers it names hold is read off there. -/
theorem registersAreReadAndWritten : Obligations.RegistersAreReadAndWritten := by
  intro s port run up
  refine ⟨?_, ?_, ?_, ?_, ?_, ?_, ?_, ?_, ?_, ?_, ?_⟩
  · intro bar offset size value bar0 bad
    exact ⟨_, registerWrite_ignored run up bar0 bad, rfl⟩
  · intro bar offset size value noBar
    exact registerWrite_noBar s noBar
  · intro ctx value ok
    simp [registerWrite_bar2 run up value ok]
  · intro ctx value ok
    have h1 : (8 * ctx + 4) / 8 = ctx := by omega
    have h2 : (8 * ctx + 4) % 8 = 4 := by omega
    simp [registerWrite_bar2 run up value ok, h1, h2]
  · intro box value hbox hport ok
    have word := registerWrite_bar0 run up value ok
    rw [writeWord_go hbox hport] at word
    have go : bit (bits value 31 0) 0 = bit value 0 := bit_low_half value (by decide)
    have irq : bit (bits value 31 0) 2 = bit value 2 := bit_low_half value (by decide)
    constructor
    · intro h0 free
      exact ⟨_, word, writeBox_go_queued (go.trans h0) free, irq ▸ boxAt_writeBox_go (go.trans h0) free,
        fun k hk => boxAt_writeBox_ne _ _ s hk⟩
    · intro h0 busy
      exact ⟨_, word, writeBox_go_busy busy⟩
  · intro box k value hbox hport hlo hhi _ ok
    refine ⟨_, registerWrite_bar0 run up value ok, ?_⟩
    rw [writeWord_box hbox hport hhi]
    exact ⟨writeBox_payload_reads _ hlo, fun a ha => writeBox_payload_else _ hlo ha,
      fun j hj => boxAt_writeBox_ne _ _ s hj⟩
  · intro offset size ok
    obtain ⟨u, read, out⟩ := registerRead_bar0 run up ok
    refine ⟨_, read, (each_clearWord_out _ u).trans out, ?_⟩
    rintro rfl
    rw [wordsOf_odd (wellSized_of_honoured ok) (by decide)]
    rfl
  · intro offset size ok
    exact registerRead_bar2 run up ok
  · intro offset r ok reg wide low
    refine ⟨_, registerLowHalfRead_latches run up ok reg wide low, clearWord_out .., ?_⟩
    obtain ⟨x, hx⟩ := port_of_reachedBy up
    have latch := clearWord_latch offset (modPort port (fun x => { x with latch := some (offset + 4, bits r.value 63 32) })
      (emit (.readData port offset (readAt s port offset 4)) s)) port
    rw [tfind_modPort_same, emit_host, hx] at latch
    exact Option.map_eq_some_iff.mp latch
  · intro bar offset size write bar0 bad
    refine ⟨_, barBadAccess_counts run up write bar0 bad, ?_, ?_⟩
    all_goals cases write <;> rfl
  · intro bar offset size write fine
    exact barBadAccess_idle write fine

end Sys2Proof.Machine
end

section
/-! PROOFS. Every command's frame as it is stated, the loss of supply (R44, R562 to R566), and the ways power goes (R47, R584 to
R586). -/

namespace Sys2Proof.Machine

open Sys2Proof

/-- Settles O54: each row's frame, and the queue is in none of them. -/
theorem everyCommandKeepsOtherParts : Obligations.EveryCommandKeepsOtherParts :=
  fun c s t h => ⟨exec_keeps s c t h, exec_pending h⟩

/-! ## Thaw (R650, R651) -/

section
variable (bySupervisor : Bool) (s : State)

/-- What the end of a freeze does to lanes and ports, and its event, stay in these areas. -/
theorem thawed_keeps (payload : List Nat) (l : List (Nat × Lane)) :
    let u := each (fun p s => leaveUp p.1 s) l s
    Keeps [.dlr, .sessions, .ante, .host, .lanes, .fab, .fabc, .evr, .out] s
      (event 0x0F01 payload (each (fun p s => resetPort p.1 .linkDown s) u.host.ports u)) :=
  (event_keeps (by decide)).mpr (keeps_each (fun _ _ => (resetPort_keeps (by decide)).mpr (Keeps.refl _ _))
    (keeps_each (fun _ _ => (leaveUp_keeps (by decide)).mpr (Keeps.refl _ _)) (Keeps.refl _ s)))

/-- Of the power block a thaw moves the erases of the flush sets, and nothing else (R651). -/
theorem thaw_pwr : ∃ a b, (thaw bySupervisor s).pwr = { s.pwr with aErase := a, bErase := b } := by
  unfold thaw
  split
  · exact ⟨_, _, rfl⟩
  · exact ⟨_, _, thawed_keeps _ _ _ .pwr (by decide)⟩

theorem thaw_frz_state : (thaw bySupervisor s).frz.state = 0 := by
  unfold thaw
  split
  · assumption
  · exact congrArg Freeze.state (thawed_keeps _ _ _ .frz (by decide))

theorem thaw_boot : (thaw bySupervisor s).boot = s.boot :=
  (thaw_keeps (wB := [.dlr, .sessions, .ante, .host, .lanes, .fab, .fabc, .med, .mem, .pwr, .upd, .evr, .frz, .out])
    (by decide)).mpr (Keeps.refl _ s) .boot (by decide)

end

/-! ## The flush (R44, R584, R689) -/

section
variable (s : State)

/-- The state in which the flush begins to write: the module has fallen silent. -/
def silenced (s : State) : State :=
  fallSilent (abortRows (drainDram (suspendNormal (refreshSelf false (discardMeasure s)))))

theorem silenced_keeps : Keeps [.dlr, .host, .lanes, .fab, .med, .mem, .xts, .out] (discardMeasure s) (silenced s) := by
  simp (disch := decide) only [silenced, fallSilent_keeps, abortRows_keeps, drainDram_keeps, suspendNormal_keeps,
    refreshSelf_keeps, keeps_self]

theorem silenced_pwr : (silenced s).pwr = { s.pwr with measuring := false } := silenced_keeps s .pwr (by decide)

/-- The set that a flush writes: the one that is ready, or that of the flush before where this one changes nothing. -/
theorem beginFlush_written :
    (beginFlush s).pwr.written = if unrecovered s then s.pwr.written else readySet s.pwr := rfl

theorem beginFlush_brownouts : (beginFlush s).pwr.brownouts = s.pwr.brownouts := by
  show (silenced s).pwr.brownouts = _
  rw [silenced_pwr]

theorem beginFlush_timeouts : (beginFlush s).pwr.timeouts = s.pwr.timeouts := by
  show (silenced s).pwr.timeouts = _
  rw [silenced_pwr]

theorem beginFlush_frz : (beginFlush s).frz = s.frz := silenced_keeps s .frz (by decide)

theorem enterFlush_frz : (enterFlush s).frz.state = 0 :=
  (congrArg Freeze.state (beginFlush_frz (thaw true s))).trans (thaw_frz_state true s)

theorem enterFlush_brownouts : (enterFlush s).pwr.brownouts = s.pwr.brownouts := by
  obtain ⟨a, b, pwr⟩ := thaw_pwr true s
  exact (beginFlush_brownouts (thaw true s)).trans (by rw [pwr])

theorem enterFlush_timeouts : (enterFlush s).pwr.timeouts = s.pwr.timeouts := by
  obtain ⟨a, b, pwr⟩ := thaw_pwr true s
  exact (beginFlush_timeouts (thaw true s)).trans (by rw [pwr])

/-- A thaw changes neither which flush set is ready nor whether a flush is still to be recovered. -/
theorem enterFlush_written (h : unrecovered s = false) : (enterFlush s).pwr.written = readySet s.pwr := by
  obtain ⟨a, b, pwr⟩ := thaw_pwr true s
  have open_ : unrecovered (thaw true s) = false := by simpa [unrecovered, pwr, thaw_boot] using h
  calc (enterFlush s).pwr.written
      = if unrecovered (thaw true s) then (thaw true s).pwr.written else readySet (thaw true s).pwr :=
        beginFlush_written (thaw true s)
    _ = readySet (thaw true s).pwr := by rw [open_]; rfl
    _ = readySet s.pwr := by rw [pwr]; rfl

end

section
variable {s : State} {mv : Nat}

theorem exec_supplyVBor (h : watching s = true) : exec (.supplyVBor mv) s =
    .next (enterFlush { s with pwr := { s.pwr with supplyMv := mv, brownouts := s.pwr.brownouts + 1 } }) := by
  simp only [exec, execSupplyVBor, guard, h, if_true]

theorem exec_supplyVBor_idle (h : watching s = false) : exec (.supplyVBor mv) s = .next s := by
  simp only [exec, execSupplyVBor, guard, h, Bool.false_eq_true, if_false]

theorem exec_dipTimeout (dip : inDip s = true) (late : s.pwr.leftAt + s.pwr.dipMaxMs * 1000000 ≤ now s) :
    exec .dipTimeout s = .next (enterFlush { s with pwr := { s.pwr with timeouts := s.pwr.timeouts + 1 } }) := by
  simp only [exec, execDipTimeout, guard, dip, late, decide_true, Bool.and_self, if_true]

theorem exec_dipTimeout_idle (h : inDip s = false) : exec .dipTimeout s = .next s := by
  simp only [exec, execDipTimeout, guard, h, Bool.false_and, Bool.false_eq_true, if_false]

theorem exec_supplyHigh (h : watching s = true) :
    exec (.supplyHigh mv) s = .next (event 0x0C02 [] { s with pwr := { s.pwr with supplyMv := mv } }) := by
  simp only [exec, execSupplyHigh, guard, h, if_true]

end

/-- Settles O2: both losses are `enterFlush`, after their own count. -/
theorem lossOfSupplyEntersFlush : Obligations.LossOfSupplyEntersFlush := by
  intro s mv
  refine ⟨fun watched => ?_, exec_supplyVBor_idle, fun dip late => ?_, exec_dipTimeout_idle, fun watched => ?_⟩
  · refine ⟨_, exec_supplyVBor watched, rfl, rfl, rfl, rfl, ?_, rfl, ?_, rfl, rfl, fun recovered => ?_⟩
    · exact enterFlush_brownouts _
    · exact enterFlush_frz _
    · exact enterFlush_written _ recovered
  · exact ⟨_, exec_dipTimeout dip late, rfl, enterFlush_timeouts _, rfl, rfl⟩
  · exact ⟨_, exec_supplyHigh watched, (event_keeps (by decide)).mpr (Keeps.refl [.host, .evr, .out] _) .pwr (by decide)⟩

/-! ## The end of a flush and of power (R47, R563, R584 to R586) -/

section
variable {s : State} {mv : Nat}

theorem exec_flushComplete (durUs energyMj : Nat) (h : s.pwr.sup = .flush) : exec (.flushComplete durUs energyMj mv) s =
    .next { closeFlush s with pwr := { (closeFlush s).pwr with sup := .spent, flushUs := durUs, flushMj := energyMj,
                                                               flushMv := mv, bankMv := mv } } := by
  simp only [exec, execFlushComplete, h]

theorem exec_flushComplete_idle (durUs energyMj : Nat) (h : s.pwr.sup ≠ .flush) :
    exec (.flushComplete durUs energyMj mv) s = .next s := by
  cases sup : s.pwr.sup
  case flush => exact absurd sup h
  all_goals simp only [exec, execFlushComplete, sup]

theorem closeFlush_complete : (closeFlush s).pwr.complete = s.pwr.written.isSome := by
  unfold closeFlush
  split
  · next h => exact h.symm
  · next h => exact (Bool.eq_false_of_not_eq_true h).symm

theorem closeFlush_closing (h : s.pwr.written.isSome = true) :
    (closeFlush s).pwr.closing = some (flushParts s, fresh 32 s) := by
  rw [closeFlush, if_pos h]
  rfl

/-- The state in OFF that the bank's end leaves (R563, R586). -/
def poweredOff (mv : Nat) (s : State) : State :=
  { s with pwr := { s.pwr with sup := .off, bleed := true, bankMv := mv },
           clk := { s.clk with aon := decide (7000 < s.pwr.supplyMv) } }

theorem exec_bankExhausted (h : s.pwr.sup = .flush ∨ s.pwr.sup = .spent) (low : mv < 14000) :
    exec (.bankExhausted mv) s = .next (poweredOff mv s) := by
  have low' : ¬ 14000 ≤ mv := by omega
  rcases h with h | h <;> simp only [exec, execBankExhausted, poweredOff, if_neg low', h]

theorem exec_bankExhausted_idle (h : watching s = true) : exec (.bankExhausted mv) s = .next s := by
  cases sup : s.pwr.sup
  case flush | spent | off => simp [watching, sup] at h
  all_goals simp only [exec, execBankExhausted, sup, ite_self]

/-- Outside OFF the two events of the always-on domain's threshold are readings of the supply (R47). -/
theorem exec_supply7v_reading (h : s.pwr.sup ≠ .off) :
    exec (.supplyAbove7v mv) s = .next { s with pwr := { s.pwr with supplyMv := mv } } ∧
    exec (.supplyBelow7v mv) s = .next { s with pwr := { s.pwr with supplyMv := mv } } := by
  cases sup : s.pwr.sup
  case off => exact absurd sup h
  all_goals simp only [exec, execSupplyAbove7v, execSupplyBelow7v, sup, and_self]

theorem exec_supplyAbove7v_off (h : s.pwr.sup = .off) : exec (.supplyAbove7v mv) s =
    .next { s with clk := { s.clk with aon := true }, pwr := { s.pwr with supplyMv := mv } } := by
  simp only [exec, execSupplyAbove7v, h]

theorem exec_supplyBelow7v_off (h : s.pwr.sup = .off) : exec (.supplyBelow7v mv) s =
    .next { s with clk := { s.clk with aon := false }, pwr := { s.pwr with supplyMv := mv } } := by
  simp only [exec, execSupplyBelow7v, h]

/-- The clock block after a PLL has lost its lock (Table 01-11). -/
theorem exec_pllLockLoss {pll : Nat} (run : running s = true) : ∃ t, exec (.pllLockLoss pll) s = .next t ∧
    t.clk.unlocks = s.clk.unlocks + 1 ∧ t.clk.rootLost = (s.clk.rootLost || decide (pll = 0)) ∧ t.clk.cycles = s.clk.cycles ∧
    t.clk.unlocked = if pll = 0 ∨ pll - 1 ∈ s.clk.unlocked then s.clk.unlocked else s.clk.unlocked ++ [pll - 1] := by
  refine ⟨_, congrArg Host.Outcome.next (if_pos run), rfl, rfl, rfl, rfl⟩

end

/-- Settles O3: each event by its equation, case by case of the supply's state. -/
theorem flushEndsAndPowerGoes : Obligations.FlushEndsAndPowerGoes := by
  intro s durUs energyMj mv pll
  refine ⟨fun flush => ?_, exec_flushComplete_idle durUs energyMj, fun sup low => ?_, exec_bankExhausted_idle, fun off => ?_,
    fun off => ?_, fun on => ?_, fun run => ?_⟩
  · exact ⟨_, exec_flushComplete durUs energyMj flush, rfl, rfl, rfl, rfl, closeFlush_complete,
      fun ready => ⟨_, closeFlush_closing ready⟩⟩
  · exact ⟨_, exec_bankExhausted sup low, rfl, rfl, rfl, rfl⟩
  · exact ⟨_, exec_supplyAbove7v_off off, rfl, rfl⟩
  · exact ⟨_, exec_supplyBelow7v_off off, rfl, rfl⟩
  · obtain ⟨above, below⟩ := exec_supply7v_reading (mv := mv) on
    exact ⟨_, above, below, rfl, rfl⟩
  · obtain ⟨t, ht, unlocks, rootLost, cycles, unlocked⟩ := exec_pllLockLoss (pll := pll) run
    refine ⟨t, ht, unlocks, fun root => by simp [rootLost, root], fun lane => ?_, cycles⟩
    by_cases known : pll - 1 ∈ s.clk.unlocked <;> simp [unlocked, lane, known]

end Sys2Proof.Machine
end

section
/-! PROOFS. The admission step of a session whose context finds no line in the cache (R235). -/

namespace Sys2Proof.Machine

open Sys2Proof

theorem tget_map_const {α : Type} (d : Nat → α) (a : α) {l : List Nat} {k : Nat} (h : k ∈ l) :
    tget d (l.map fun c => (c, a)) k = a := by
  induction l with
  | nil => cases h
  | cons c l ih =>
    by_cases hc : c = k
    · simp [tget, hc]
    · simp [tget, hc, ih ((List.mem_cons.mp h).resolve_left (Ne.symm hc))]

/-- A context whose queue holds a completion is pinned (R235). -/
theorem ctxPinned_of_held {s : State} {c : Nat} {q : Queue} (queue : (ctxAt s c).queue = some q) (held : q.held ≠ []) :
    ctxPinned s c = true := by
  simp [ctxPinned, queue, held]

theorem cacheFull_of_pinned {s : State} {c : Nat} (absent : c ∉ s.dlr.cached) (full : 16384 ≤ s.dlr.cached.length)
    (pinned : ∀ k ∈ s.dlr.cached, ctxPinned s k = true) : cacheFull s c = true := by
  simp only [cacheFull, absent, not_false_eq_true, full, and_self, decide_true, Bool.true_and, List.all_eq_true]
  exact pinned

theorem exec_admissionStep_stalls {s : State} {id : Nat} {x : Session} (run : running s = true)
    (session : sessFind s id = some x) (full : cacheFull s x.ctx = true) :
    exec (.admissionStep id) s = .next (countStall s) := by
  simp only [exec, execAdmissionStep, whenRunning, run, session, full, if_true]

/-- A queue whose one completion waits for its host (R79). -/
def heldQueue : Queue :=
  { session := 1, port := 0, sqSize := 2, cqSize := 2, sqBase := 0, cqBase := 0, vector := 0, irq := false, coCount := 0,
    coTime := 0, held := [{ session := 1, seq := 1, stamp := 0, version := 0, status := 0, vlen := 0 }] }

/-- The lines `l` of the context cache hold queues with a held completion; session 7's context is context 16,384, and no command of
it waits. -/
def crowded (l : List Nat) : State :=
  { boot := { stage := 4 },
    sessions := [(7, { kind := .host, ctx := 16384 })],
    host := { ctxs := l.map fun c => (c, { queue := some heldQueue }) },
    dlr := { cached := l } }

theorem crowded_cacheFull {l : List Nat} (absent : 16384 ∉ l) (full : 16384 ≤ l.length) :
    cacheFull (crowded l) 16384 = true :=
  cacheFull_of_pinned absent full fun _ hk =>
    ctxPinned_of_held (congrArg Ctx.queue (tget_map_const ctxBlank { queue := some heldQueue } hk)) (by simp [heldQueue])

/-- With every line of the cache pinned, the admission step of a session without a command that waits counts a stall (R209, R235). -/
theorem crowded_admissionStep {l : List Nat} (absent : 16384 ∉ l) (full : 16384 ≤ l.length) :
    ∃ t, exec (.admissionStep 7) (crowded l) = .next t ∧ t.dlr.stalls = (crowded l).dlr.stalls + 1 :=
  ⟨_, exec_admissionStep_stalls rfl rfl (crowded_cacheFull absent full), rfl⟩

/-- Refutes O21: its second clause says that an admission step with no command to admit changes nothing, but where all 16,384 lines
of the context cache are pinned and the session's context is none of them, the step counts a stall (R209, R235). -/
theorem not_admissionAndHolds : ¬ Obligations.AdmissionAndHolds := by
  intro h
  obtain ⟨t, step, stalls⟩ := crowded_admissionStep (l := List.range 16384) List.not_mem_range_self (by simp)
  generalize List.range 16384 = l at step stalls
  obtain ⟨-, nothingWaits, -⟩ := h (crowded l) 7 rfl
  have idle := nothingWaits { kind := .host, ctx := 16384 } rfl rfl
  have same : t = crowded l := Host.Outcome.next.inj (step.symm.trans idle)
  rw [same] at stalls
  exact absurd stalls (by simp)

end Sys2Proof.Machine
end

section
/-! PROOFS. A committed value in an index whose table lists one slot twice. -/

namespace Sys2Proof.Machine

open Sys2Proof

/-- The record of a value `value` under key 01 of namespace `ns`. -/
def record01 (ns : Nat) (value : Bytes) : Record :=
  { kind := 0, suit := 2, ns := ns, key := [1], value := value, units := 1, version := 1, time := 0, digest := 0 }

/-- The digest of key 01 in a namespace as at shipment. -/
def digest01 : Nat := sipHash128 0 [1]

/-- A PUT of the value 08 09 under key 01 of namespace 3, worked out and ready to commit. -/
def put01 : InFlight :=
  { session := 7, seq := 1, cmd := { opcode := 0x02, ns := 3, keyLength := 1, key := [1] }, ns := 3, stamp := {}, medium := false,
    suit := 2, fast := false, deadline := 0, bound := 0, phase := .planned, plan := { effect := .store 3 [1] [8, 9] 2 } }

/-- Key 01 is held in namespaces 4 and 3, and the table lists one slot of its first bucket twice, once for each. -/
def slotTwice : State :=
  { boot := { stage := 4 }, dlr := { inflight := [put01] },
    idx := { slots := [(4 * bucket1 digest01, entryOf digest01 (record01 4 [4]) 1 true),
                       (4 * bucket1 digest01, entryOf digest01 (record01 3 [3]) 0 true)] },
    mem := { held := [(0, record01 3 [3]), (1, record01 4 [4])], nextHeld := 2 } }

/-- What an index lookup of key 01 in namespace 3 finds: the second entry of the slot. -/
def found01 : Found :=
  { spot := .slot (4 * bucket1 digest01), entry := entryOf digest01 (record01 3 [3]) 0 true, item := record01 3 [3] }

theorem slotTwice_lookup : lookup slotTwice 3 [1] = some found01 := by decide +kernel

/-- No other entry of key 01 of namespace 3 is left in the index. -/
theorem slotTwice_candidates :
    candidates slotTwice 3 (digestOf slotTwice 3 [1]) = [(found01.spot, found01.entry)] := by decide +kernel

theorem slotTwice_holds_other : (lookup slotTwice 4 [1]).isSome = true := by decide +kernel

/-- The commit step rewrites the slot where the table lists it first, which is where namespace 4's object stands. -/
theorem slotTwice_commit_loses_other {t : State} (step : exec (.commitStep 7 1) slotTwice = .next t) :
    lookup t 4 [1] = none := by
  have lost : (match exec (.commitStep 7 1) slotTwice with | .next u => (lookup u 4 [1]).isNone | _ => false) = true := by
    decide +kernel
  rw [step] at lost
  exact Option.isNone_iff_eq_none.mp lost

/-- Refutes O59: nothing in it says that the table lists each slot once (`keysRise`), and in a state that lists one slot twice the
rewritten entry takes the place of another object's. -/
theorem not_committedValueIsRead : ¬ Obligations.CommittedValueIsRead := by
  intro h
  have stale : ∀ c ∈ candidates slotTwice 3 (digestOf slotTwice 3 [1]), ∀ x r, lookup slotTwice 3 [1] = some x → c.1 ≠ x.spot →
      recordAt slotTwice c.2 = some r → ¬ (r.ns = 3 ∧ r.key = [1]) := by
    intro c hc x r hx away
    rw [slotTwice_candidates, List.mem_singleton] at hc
    rw [slotTwice_lookup, Option.some.injEq] at hx
    exact absurd (hc ▸ hx ▸ rfl) away
  obtain ⟨t, -, step, -, -, -, -, others⟩ := h slotTwice put01 3 [1] [8, 9] 2 _ rfl rfl (by decide +kernel) rfl rfl rfl
    (by decide +kernel) rfl rfl rfl stale fun absent => nomatch slotTwice_lookup.symm.trans absent
  have kept := others 4 [1] (by decide)
  obtain ⟨y, hy⟩ := Option.isSome_iff_exists.mp slotTwice_holds_other
  rw [slotTwice_commit_loses_other step, hy] at kept
  nomatch kept

end Sys2Proof.Machine
end

section
/-! PROOFS. The commit step (R29, R53, R55, R106): what the recording of an outcome does to the journal and to the commands in flight,
and how an effect counts. -/

namespace Sys2Proof.Machine

open Sys2Proof

/-! ## Recording an outcome (R53, R69) -/

section
variable (s : State)

theorem ringMod_completed (id seq : Nat) (g : RingEntry → RingEntry) :
    (ringMod id seq g s).jnl.completed = s.jnl.completed := rfl

theorem setDelivered_completed (id seq : Nat) : (setDelivered id seq s).jnl.completed = s.jnl.completed := by
  unfold setDelivered
  rw [ringMod_completed]
  repeat' split
  all_goals rfl

theorem writeCq_completed (c : Nat) (q : Queue) (e : Completion) : (writeCq c q e s).jnl.completed = s.jnl.completed := by
  have signalled : ∀ u, (signalQueue c u).jnl = u.jnl :=
    fun u => (signalQueue_keeps (wB := [.host, .out]) (by decide)).mpr (Keeps.refl _ u) .jnl (by decide)
  have sent : (sendHostData q.port e s).jnl = s.jnl :=
    (sendHostData_keeps (wB := [.out]) (by decide)).mpr (Keeps.refl _ s) .jnl (by decide)
  unfold writeCq
  rw [signalled, setDelivered_completed, ← sent]
  rfl

theorem postClient_jnl (x : Session) (e : Completion) (own : Bool) : (postClient x e own s).jnl = s.jnl :=
  (postClient_keeps (wB := [.lanes, .fab, .draws]) (by decide)).mpr (Keeps.refl _ s) .jnl (by decide)

/-- Posting a completion counts none: it may only mark an outcome as delivered. -/
theorem post_completed (e : Completion) (own : Bool) : (post e own s).jnl.completed = s.jnl.completed := by
  have sent : ∀ p, (sendHostData p e s).jnl = s.jnl :=
    fun p => (sendHostData_keeps (wB := [.out]) (by decide)).mpr (Keeps.refl _ s) .jnl (by decide)
  unfold post
  split
  · rfl
  · split
    · rfl
    · rw [postClient_jnl]
      split <;> rfl
    · split
      · rfl
      · split
        · split
          · exact congrArg Journal.completed (sent _)
          · rfl
        · split
          · exact writeCq_completed _ _ _ _
          · split
            · exact congrArg Journal.completed (sent _)
            · rfl

theorem post_dlr (e : Completion) (own : Bool) : (post e own s).dlr = s.dlr :=
  (post_keeps (wB := [.jnl, .sessions, .host, .lanes, .fab, .out, .draws]) (by decide)).mpr (Keeps.refl _ s) .dlr (by decide)

theorem ringDone_completed (f : InFlight) (p : Plan) : (ringDone f p s).jnl.completed = s.jnl.completed := by
  unfold ringDone
  split <;> rfl

theorem keepSent_dlr (e : Completion) : (keepSent e s).dlr = s.dlr := rfl

theorem keepSent_jnl (e : Completion) : (keepSent e s).jnl = s.jnl := rfl

/-- One outcome more is counted (R86). -/
theorem recordOutcome_completed (f : InFlight) (p : Plan) :
    (recordOutcome f p s).jnl.completed = s.jnl.completed + 1 := by
  have released : ∀ u who, (releaseResv who u).jnl = u.jnl :=
    fun u _ => (releaseResv_keeps (wB := [.ante]) (by decide)).mpr (Keeps.refl _ u) .jnl (by decide)
  have counted : ∀ u q, (releaseResv (.command f.session f.seq) (freeOverlap f.session f.seq (ringDone f q u))).jnl.completed =
      u.jnl.completed := fun u q => by
    rw [released]
    exact ringDone_completed u f q
  unfold recordOutcome
  dsimp only
  split
  · rw [keepSent_jnl]
    exact congrArg (· + 1) (counted _ _)
  · rw [post_completed]
    exact congrArg (· + 1) (counted _ _)

theorem find?_filter_not {α : Type} (p : α → Bool) (l : List α) : (l.filter fun a => !p a).find? p = none := by
  simp [List.find?_eq_none]

/-- The command leaves flight (R53). -/
theorem recordOutcome_findFlight (f : InFlight) (p : Plan) : findFlight (recordOutcome f p s) f.session f.seq = none := by
  unfold recordOutcome findFlight
  dsimp only
  split
  · rw [keepSent_dlr]
    exact find?_filter_not _ _
  · rw [post_dlr]
    exact find?_filter_not _ _

theorem recordOutcome_same (f : InFlight) (p : Plan) {a : Area}
    (h : a ∉ [Area.dlr, .jnl, .sessions, .ante, .host, .lanes, .fab, .out, .draws]) : same a s (recordOutcome f p s) :=
  (recordOutcome_keeps (by decide)).mpr (Keeps.refl _ s) a h

end

/-! ## What an effect counts (R106) -/

section
variable {f : InFlight} {s : State}

/-- A record that is committed is one more commit step (R106). -/
theorem commitRecord_commits (r : Record) (at_ : Rest) (s : State) : (commitRecord r at_ s).commits = s.commits + 1 := by
  unfold commitRecord
  split
  · unfold commitTomb
    have kept : Keeps [.ante, .med, .mem, .idx] (countCommit (countObject r.ns (lengthHeld s r.ns r.key) none s))
        (placeTomb r at_ (countTomb (indexRemove r.ns r.key
          (countCommit (countObject r.ns (lengthHeld s r.ns r.key) none s))))) := by
      simp (disch := decide) only [placeTomb_keeps, countTomb_keeps, indexRemove_keeps, keeps_self]
    exact kept .commits (by decide)
  · unfold commitValue
    dsimp only
    split
    · exact (indexPut_keeps (wB := [.host, .idx, .evr, .out]) (by decide)).mpr (Keeps.refl _ _) .commits (by decide)
    · refine ((placeRecord_keeps (wB := [.ante, .med, .host, .idx, .evr, .out]) (by decide)).mpr
        ((indexPut_keeps (by decide)).mpr (Keeps.refl _ _))) .commits (by decide)

theorem effectRecord_store {ns suit : Nat} {key value : Bytes} (prot : f.prot = none) :
    effectRecord s f (.store ns key value suit) =
      some (valueRecord f ns (digestOf s ns key) (nextVersion s) suit key value) := by
  simp only [effectRecord, prot]

theorem effectRecord_delete {ns : Nat} {key : Bytes} (prot : f.prot = none) :
    ∃ suit, effectRecord s f (.delete ns key) = some (tombRecord f ns (digestOf s ns key) (nextVersion s) suit key) := by
  simp only [effectRecord, prot]
  exact ⟨_, rfl⟩

/-- Where the record of an effect has its place, in the buffer or in a row (R29, R150). -/
theorem applyEffect_commits {e : Effect} {r : Record} (record : effectRecord s f e = some r)
    (placed : f.medium = false ∨ f.placed.isSome = true) : (applyEffect f e s).commits = s.commits + 1 := by
  have settled : ∀ a b u, (settleKitty a b u).commits = u.commits := fun _ _ _ => rfl
  cases e
  case none | trick | hint => cases record
  all_goals
    simp only [applyEffect, record]
    split
    · next medium =>
      obtain ⟨a, ha⟩ := Option.isSome_iff_exists.mp (placed.resolve_left (by simp [medium]))
      simp only [ha]
      exact commitRecord_commits _ _ _
    · rw [settled]
      exact commitRecord_commits _ _ _

theorem commitFlight_effect (prot : f.prot = none) (effect : hasEffect f.plan = true) : commitFlight f s =
    recordOutcome f { f.plan with version := finalVersion s f f.plan } (applyEffect f f.plan.effect s) := by
  simp only [commitFlight, prot, effect, if_true]

theorem commitFlight_idle (prot : f.prot = none) (effect : hasEffect f.plan = false) :
    commitFlight f s = recordOutcome f f.plan (noEffect f s) := by
  simp only [commitFlight, prot, effect, Bool.false_eq_true, if_false]

/-- The commit step of a command outside a trick (R29). -/
theorem exec_commitStep_alone (run : running s = true) (flight : findFlight s f.session f.seq = some f) (alone : f.trick = none)
    (stage : s.boot.stage = 4) (may : committable s f = true) :
    exec (.commitStep f.session f.seq) s = .next (commitFlight f s) := by
  simp [exec, execCommitStep, whenRunning, run, tryCommit, flight, stage, alone, may, commitGroup]

theorem commitFlight_completes (prot : f.prot = none) :
    findFlight (commitFlight f s) f.session f.seq = none ∧ (commitFlight f s).jnl.completed = s.jnl.completed + 1 := by
  cases effect : hasEffect f.plan
  · rw [commitFlight_idle prot effect]
    have kept := (noEffect_keeps (f := f) (wB := [.ante, .pwr]) (by decide)).mpr (Keeps.refl _ s) .jnl (by decide)
    exact ⟨recordOutcome_findFlight _ _ _, (recordOutcome_completed _ _ _).trans (congrArg (·.completed + 1) kept)⟩
  · rw [commitFlight_effect prot effect]
    have kept := (applyEffect_keeps (wB := [.nss, .commits, .ante, .host, .idx, .med, .mem, .pwr, .evr, .out]) (f := f)
      (e := f.plan.effect) (by decide)).mpr (Keeps.refl _ s) .jnl (by decide)
    exact ⟨recordOutcome_findFlight _ _ _, (recordOutcome_completed _ _ _).trans (congrArg (·.completed + 1) kept)⟩

theorem commitFlight_commits {r : Record} (prot : f.prot = none) (effect : hasEffect f.plan = true)
    (record : effectRecord s f f.plan.effect = some r) (placed : f.medium = false ∨ f.placed.isSome = true) :
    (commitFlight f s).commits = s.commits + 1 := by
  rw [commitFlight_effect prot effect]
  exact (recordOutcome_same _ _ _ (a := .commits) (by decide)).trans (applyEffect_commits record placed)

/-- A command without an effect leaves the count of commit steps and the namespaces alone. -/
theorem commitFlight_idle_keeps (prot : f.prot = none) (effect : hasEffect f.plan = false) :
    (commitFlight f s).commits = s.commits ∧ (commitFlight f s).nss = s.nss := by
  rw [commitFlight_idle prot effect]
  have kept : Keeps [.ante, .pwr, .dlr, .jnl, .sessions, .host, .lanes, .fab, .out, .draws] s
      (recordOutcome f f.plan (noEffect f s)) := by
    simp (disch := decide) only [recordOutcome_keeps, noEffect_keeps, keeps_self]
  exact ⟨kept .commits (by decide), kept .nss (by decide)⟩

end

/-- Settles O20: the step is the command's own commit, whose outcome is recorded after its effect. -/
theorem commitStepCompletes : Obligations.CommitStepCompletes := by
  intro s f run flight alone prot stage may
  obtain ⟨gone, completed⟩ := commitFlight_completes (s := s) prot
  refine ⟨_, exec_commitStep_alone run flight alone stage may, gone, completed, commitFlight_idle_keeps prot, ?_, ?_⟩
  · intro ns key value suit store placed
    exact commitFlight_commits prot (by rw [hasEffect, store]) (store ▸ effectRecord_store prot) placed
  · intro ns key delete placed
    obtain ⟨suit, record⟩ := effectRecord_delete (s := s) (ns := ns) (key := key) prot
    exact commitFlight_commits prot (by rw [hasEffect, delete]) (delete ▸ record) placed

end Sys2Proof.Machine
end

section
/-! PROOFS. What placing a record in a row changes of the media (R444, R448, R459): melds and blocks alone, and no meld that holds
readable data is lost by it. -/

namespace Sys2Proof.Machine

open Sys2Proof

/-- The meld is DEAD or ERASING: what lies in it fails verification (R461). -/
def gone (m : Meld) : Bool :=
  match m.state with
  | .dead => true
  | .erasing => true
  | _ => false

theorem deadAddr_eq (s : State) (a : Nat) : deadAddr s a = gone (meldAt s (a / Config.meldSpan)) := rfl

theorem gone_of_state {m : Meld} {st : MeldState} (h : m.state = st) (dead : st ≠ .dead) (erasing : st ≠ .erasing) :
    gone m = false := by
  unfold gone
  rw [h]
  cases st
  case dead => exact absurd rfl dead
  case erasing => exact absurd rfl erasing
  all_goals rfl

/-- From `s` to `t` the media differ in melds and blocks alone, and the same melds are DEAD or ERASING. -/
structure OnlyPlaces (s t : State) : Prop where
  med : ∃ melds blocks, t.med = { s.med with melds := melds, blocks := blocks }
  gone : ∀ n, gone (meldAt t n) = gone (meldAt s n)

namespace OnlyPlaces
variable {s t u : State}

theorem of_med (h : t.med = s.med) : OnlyPlaces s t :=
  ⟨⟨_, _, h⟩, fun n => by rw [meldAt, meldAt, h]⟩

theorem refl (s : State) : OnlyPlaces s s := of_med rfl

theorem trans (h : OnlyPlaces s t) (g : OnlyPlaces t u) : OnlyPlaces s u := by
  obtain ⟨a, b, hmed⟩ := h.med
  obtain ⟨c, d, gmed⟩ := g.med
  exact ⟨⟨c, d, by rw [gmed, hmed]⟩, fun n => (g.gone n).trans (h.gone n)⟩

theorem of_keeps {w : List Area} (h : Keeps w s t) (hm : Area.med ∉ w) : OnlyPlaces s t := of_med (h .med hm)

theorem each {α : Type} {f : α → State → State} (hf : ∀ a u, OnlyPlaces u (f a u)) (l : List α) (s : State) :
    OnlyPlaces s (Machine.each f l s) := by
  induction l generalizing s with
  | nil => exact refl s
  | cons a l ih => exact (hf a s).trans (ih (f a s))

theorem setBlk (id : Nat) (b : Blk) (s : State) : OnlyPlaces s (setBlk id b s) := ⟨⟨_, _, rfl⟩, fun _ => rfl⟩

theorem setMeld {n : Nat} {m : Meld} (h : Machine.gone m = Machine.gone (meldAt s n)) : OnlyPlaces s (setMeld n m s) := by
  refine ⟨⟨_, _, rfl⟩, fun k => ?_⟩
  by_cases hk : k = n
  · rw [hk, meldAt_setMeld_same, h]
  · rw [meldAt_setMeld_ne n m s k hk]

/-- A meld may be rewritten after other placings, as long as it stays as readable as it was before them. -/
theorem setMeld_after {n : Nat} {m : Meld} (h : OnlyPlaces s t) (hm : Machine.gone m = Machine.gone (meldAt s n)) :
    OnlyPlaces s (Machine.setMeld n m t) :=
  h.trans (setMeld (hm.trans (h.gone n).symm))

end OnlyPlaces

/-! ## Opening and closing -/

section
variable {s u : State}

theorem freeMeld_state {stream k n : Nat} (h : freeMeld s stream k = some n) : (meldAt s n).state = .free := by
  unfold freeMeld at h
  dsimp only at h
  split at h
  all_goals
    have found := List.find?_some h
    simp only [decide_eq_true_eq] at found
  · exact found.2
  · exact found.1

theorem openMeld_onlyPlaces (stream : Nat) (tomb : Bool) {n : Nat} (free : (meldAt s n).state = .free) :
    OnlyPlaces s (openMeld stream tomb n s) := by
  have readable : gone (meldAt s n) = false := gone_of_state free (by decide) (by decide)
  exact (OnlyPlaces.each (fun id u => OnlyPlaces.setBlk _ _ u) _ s).setMeld_after readable.symm

theorem meldOn_onlyPlaces {stream k n : Nat} {tomb : Bool} (h : meldOn stream tomb k s = some (n, u)) : OnlyPlaces s u := by
  unfold meldOn at h
  split at h
  · cases h
    exact OnlyPlaces.refl _
  · split at h
    · next free =>
      cases h
      exact openMeld_onlyPlaces stream tomb (freeMeld_state free)
    · cases h

theorem closeRow_onlyPlaces (n r : Nat) (s : State) : OnlyPlaces s (closeRow n r s) := by
  unfold closeRow
  dsimp only
  split
  · exact OnlyPlaces.refl s
  · next k l _ =>
    refine OnlyPlaces.setMeld_after (t := each _ _ _) ?_ rfl
    refine (OnlyPlaces.of_med (s := s) (t := { s with ante := { s.ante with resv := l } }) rfl).trans
      (OnlyPlaces.each (fun x v => ?_) _ _)
    split
    · exact OnlyPlaces.of_keeps ((undebit_keeps (wB := [.ante]) (by decide)).mpr (Keeps.refl _ v)) (by decide)
    · exact OnlyPlaces.refl v

theorem closeRows_onlyPlaces (n r c : Nat) (s : State) : OnlyPlaces s (closeRows n r c s) := by
  induction c generalizing r s with
  | zero => exact OnlyPlaces.refl s
  | succ c ih => exact (closeRow_onlyPlaces n r s).trans (ih (r + 1) (closeRow n r s))

theorem sealRow_onlyPlaces (n : Nat) (s : State) : OnlyPlaces s (sealRow n s) := by
  unfold sealRow
  dsimp only
  split
  · exact OnlyPlaces.refl s
  · refine OnlyPlaces.trans (OnlyPlaces.setMeld ?_) (closeRow_onlyPlaces _ _ _)
    rfl

theorem settleMeld_onlyPlaces (n : Nat) (s : State) : OnlyPlaces s (settleMeld n s) := by
  unfold settleMeld
  dsimp only
  split
  · next h =>
    have readable : gone (meldAt s n) = false := gone_of_state h.1 (by decide) (by decide)
    refine (OnlyPlaces.setMeld (n := n) (m := { meldAt s n with state := .full }) readable.symm).trans
      (OnlyPlaces.each (fun id v => ?_) _ _)
    split
    · exact OnlyPlaces.setBlk _ _ v
    · exact OnlyPlaces.refl v
  · exact OnlyPlaces.refl s

theorem shutMeld_onlyPlaces (n : Nat) (s : State) : OnlyPlaces s (shutMeld n s) := by
  unfold shutMeld
  refine (sealRow_onlyPlaces n s).trans (OnlyPlaces.trans (OnlyPlaces.setMeld ?_) (settleMeld_onlyPlaces _ _))
  rfl

/-! ## Placing -/

theorem placeIn_onlyPlaces (n : Nat) (r : Record) (dram src : Option Nat) (kitty : Nat) (owner : Option (Nat × Nat)) (medium : Bool)
    (s : State) : OnlyPlaces s (placeIn n r dram src kitty owner medium s) := by
  unfold placeIn
  refine OnlyPlaces.trans (OnlyPlaces.setMeld ?_) (closeRows_onlyPlaces _ _ _ _)
  rfl

theorem meldAmong_onlyPlaces {stream units n : Nat} {tomb : Bool} {l : List Nat} (h : meldAmong stream tomb units s l = some (n, u)) :
    OnlyPlaces s u := by
  induction l with
  | nil => cases h
  | cons k l ih =>
    unfold meldAmong at h
    split at h
    · exact ih h
    · next m v opened =>
      have first := meldOn_onlyPlaces opened
      split at h
      · cases h
        exact first
      · split at h
        · next reopened =>
          cases h
          exact (first.trans (shutMeld_onlyPlaces m v)).trans (meldOn_onlyPlaces reopened)
        · exact ih h

theorem meldFor_onlyPlaces {stream units n : Nat} {tomb : Bool} {set : Option Nat} (h : meldFor stream tomb set units s = some (n, u)) :
    OnlyPlaces s u := meldAmong_onlyPlaces h

/-- A record that is placed in a row changes melds and blocks alone. -/
theorem placeRecord_onlyPlaces (stream : Nat) (set : Option Nat) (r : Record) (dram src : Option Nat) (kitty : Nat)
    (owner : Option (Nat × Nat)) (s : State) : OnlyPlaces s (placeRecord stream set r dram src kitty owner s) := by
  unfold placeRecord
  split
  · exact OnlyPlaces.refl s
  · next found => exact (meldFor_onlyPlaces found).trans (placeIn_onlyPlaces _ _ _ _ _ _ _ _)

end

end Sys2Proof.Machine
end

section
/-! PROOFS. The end of a row program (R447, R449, R474): rows are counted where they end and nowhere else. -/

namespace Sys2Proof.Machine

open Sys2Proof

/-- The rows programmed, the torn ones, and the list of those aborted (R447, R449, R479). -/
def rowCounts (s : State) : Nat × Nat × List (Nat × Nat) := (s.med.progSeq, s.med.torn, s.med.aborted)

section
variable {s t : State}

theorem rowCounts_of_med (h : t.med = s.med) : rowCounts t = rowCounts s := by rw [rowCounts, h, rowCounts]

theorem rowCounts_of_keeps {w : List Area} (h : Keeps w s t) (hm : Area.med ∉ w) : rowCounts t = rowCounts s :=
  rowCounts_of_med (h .med hm)

theorem OnlyPlaces.rowCounts (h : OnlyPlaces s t) : rowCounts t = rowCounts s := by
  obtain ⟨_, _, med⟩ := h.med
  rw [Machine.rowCounts, med, Machine.rowCounts]

/-- What each application over a list leaves as it was, all of them do. -/
theorem each_invariant {α β : Type} {f : α → State → State} {g : State → β} (hf : ∀ a u, g (f a u) = g u) (l : List α)
    (s : State) : g (each f l s) = g s := by
  induction l generalizing s with
  | nil => rfl
  | cons a l ih => exact (ih (f a s)).trans (hf a s)

end

/-! ## The commit of a record that is on flash counts no row -/

section
variable (s : State)

theorem placeRecord_rowCounts (stream : Nat) (set : Option Nat) (r : Record) (dram src : Option Nat) (kitty : Nat)
    (owner : Option (Nat × Nat)) : rowCounts (placeRecord stream set r dram src kitty owner s) = rowCounts s :=
  (placeRecord_onlyPlaces ..).rowCounts

theorem placeSystem_rowCounts (r : Record) : rowCounts (placeSystem r s) = rowCounts s := by
  have debited : ∀ k cost bytes who u, rowCounts (debit k cost bytes who u) = rowCounts u :=
    fun _ _ _ _ u => rowCounts_of_keeps ((debit_keeps (wB := [.ante]) (by decide)).mpr (Keeps.refl _ u)) (by decide)
  unfold placeSystem
  dsimp only
  split
  · rfl
  · rw [placeRecord_rowCounts, debited]
    rfl

theorem placeTomb_rowCounts (r : Record) (at_ : Rest) : rowCounts (placeTomb r at_ s) = rowCounts s := by
  cases at_ with
  | flash a => rfl
  | buffer set kitty owner =>
    unfold placeTomb holdRecord
    dsimp only
    rw [placeRecord_rowCounts]
    rfl

theorem countTomb_rowCounts : rowCounts (countTomb s) = rowCounts s := rfl

theorem countCommit_rowCounts : rowCounts (countCommit s) = rowCounts s := rfl

theorem countObject_rowCounts (ns : Nat) (old new : Option Nat) : rowCounts (countObject ns old new s) = rowCounts s := rfl

theorem commitTomb_rowCounts (r : Record) (at_ : Rest) : rowCounts (commitTomb r at_ s) = rowCounts s := by
  have removed : ∀ u, rowCounts (indexRemove r.ns r.key u) = rowCounts u :=
    fun u => rowCounts_of_keeps ((indexRemove_keeps (wB := [.idx]) (by decide)).mpr (Keeps.refl _ u)) (by decide)
  rw [commitTomb, placeTomb_rowCounts, countTomb_rowCounts, removed, countCommit_rowCounts, countObject_rowCounts]

theorem indexPut_rowCounts (ns : Nat) (key : Bytes) (d : Nat) (e : Entry) : rowCounts (indexPut ns key d e s) = rowCounts s :=
  rowCounts_of_keeps ((indexPut_keeps (wB := [.host, .idx, .evr, .out]) (by decide)).mpr (Keeps.refl _ s)) (by decide)

/-- The state in which a value record's commit is counted (R105, R106). -/
def valueCounted (r : Record) (s : State) : State :=
  countCommit (countObject r.ns (lengthHeld s r.ns r.key) (some r.value.length) s)

/-- A buffered value is held in DRAM, its entry points there, and its record is placed in a row (R29, R149). -/
theorem commitValue_buffer (r : Record) (set : Option Nat) (kitty : Nat) (owner : Nat × Nat) :
    commitValue r (.buffer set kitty owner) s =
      placeRecord r.suit set r (some s.mem.nextHeld) none kitty (some owner)
        (indexPut r.ns r.key r.digest (entryOf r.digest r s.mem.nextHeld true) (holdRecord r (valueCounted r s)).1) := rfl

theorem commitValue_rowCounts (r : Record) (at_ : Rest) : rowCounts (commitValue r at_ s) = rowCounts s := by
  cases at_ with
  | flash a =>
    unfold commitValue
    dsimp only
    rw [indexPut_rowCounts]
    rfl
  | buffer set kitty owner =>
    rw [commitValue_buffer, placeRecord_rowCounts, indexPut_rowCounts]
    rfl

theorem commitRecord_rowCounts (r : Record) (at_ : Rest) : rowCounts (commitRecord r at_ s) = rowCounts s := by
  unfold commitRecord
  split
  · exact commitTomb_rowCounts s r at_
  · exact commitValue_rowCounts s r at_

theorem settleKitty_rowCounts (reserved used : Nat) : rowCounts (settleKitty reserved used s) = rowCounts s :=
  rowCounts_of_keeps ((settleKitty_keeps (wB := [.pwr]) (by decide)).mpr (Keeps.refl _ s)) (by decide)

theorem applyEffect_rowCounts (f : InFlight) (e : Effect) : rowCounts (applyEffect f e s) = rowCounts s := by
  unfold applyEffect
  split
  · exact placeSystem_rowCounts _ _
  · split
    · rfl
    · split
      · split
        · exact commitRecord_rowCounts _ _ _
        · rfl
      · rw [settleKitty_rowCounts, commitRecord_rowCounts]

theorem noEffect_rowCounts (f : InFlight) : rowCounts (noEffect f s) = rowCounts s :=
  rowCounts_of_keeps ((noEffect_keeps (wB := [.ante, .pwr]) (by decide)).mpr (Keeps.refl _ s)) (by decide)

theorem recordOutcome_rowCounts (f : InFlight) (p : Plan) : rowCounts (recordOutcome f p s) = rowCounts s :=
  rowCounts_of_med (recordOutcome_same s f p (a := .med) (by decide))

theorem tellHolders_rowCounts (f : InFlight) (p : Protect) (ok : Bool) : rowCounts (tellHolders f p ok s) = rowCounts s :=
  rowCounts_of_keeps ((tellHolders_keeps (wB := [.dlr, .host, .lanes, .fab, .fabc, .out]) (by decide)).mpr (Keeps.refl _ s))
    (by decide)

theorem returnOrder_rowCounts (f : InFlight) (p : Protect) : rowCounts (returnOrder f p s) = rowCounts s :=
  rowCounts_of_keeps ((returnOrder_keeps (wB := [.host, .lanes, .fab, .fabc, .out]) (by decide)).mpr (Keeps.refl _ s)) (by decide)

theorem commitFlight_rowCounts (f : InFlight) : rowCounts (commitFlight f s) = rowCounts s := by
  unfold commitFlight
  split
  · split
    · rw [recordOutcome_rowCounts, applyEffect_rowCounts]
    · rw [recordOutcome_rowCounts, noEffect_rowCounts]
  · split
    · split
      · rw [tellHolders_rowCounts, recordOutcome_rowCounts, applyEffect_rowCounts]
      · rw [tellHolders_rowCounts, recordOutcome_rowCounts, noEffect_rowCounts]
    · rw [recordOutcome_rowCounts, returnOrder_rowCounts, noEffect_rowCounts]

theorem commitGroup_rowCounts (f : InFlight) : rowCounts (commitGroup f s) = rowCounts s := by
  unfold commitGroup
  split
  · exact commitFlight_rowCounts s f
  · split
    · rfl
    · exact each_invariant (fun g u => commitFlight_rowCounts u _) _ s

theorem tryCommit_rowCounts (id seq : Nat) : rowCounts (tryCommit id seq s) = rowCounts s := by
  unfold tryCommit
  split
  · rfl
  · split
    · rfl
    · split
      · exact commitGroup_rowCounts s _
      · rfl

/-! ## A row that is on flash (R447, R449) -/

theorem tryDecide_rowCounts (id seq : Nat) : rowCounts (tryDecide id seq s) = rowCounts s :=
  rowCounts_of_keeps ((tryDecide_keeps (wB := [.dlr, .host, .lanes, .fab, .fabc, .out]) (by decide)).mpr (Keeps.refl _ s))
    (by decide)

theorem writeLanded_rowCounts (id seq : Nat) : rowCounts (writeLanded id seq s) = rowCounts s := by
  unfold writeLanded
  dsimp only
  split
  · rfl
  · rw [tryCommit_rowCounts]
    split
    · exact tryDecide_rowCounts _ _ _
    · rfl

theorem shardLanded_rowCounts (p : Pending) : rowCounts (shardLanded p s) = rowCounts s :=
  rowCounts_of_keeps ((shardLanded_keeps (wB := [.sessions, .host, .lanes, .fab, .fabc, .out]) (by decide)).mpr (Keeps.refl _ s))
    (by decide)

theorem systemLanded_rowCounts (a : Nat) (r : Record) : rowCounts (systemLanded a r s) = rowCounts s := by
  unfold systemLanded
  split <;> rfl

theorem recordLanded_rowCounts (x : Placed) : rowCounts (recordLanded x s) = rowCounts s := by
  unfold recordLanded
  split
  · rfl
  · rfl
  · exact systemLanded_rowCounts _ _ _
  · split
    · exact shardLanded_rowCounts _ _
    · exact writeLanded_rowCounts _ _ _
  · rfl

/-- A row that is on flash is one row programmed more, and no torn one. -/
theorem rowDone_rowCounts (n r : Nat) :
    rowCounts (rowDone n r s) = (s.med.progSeq + 1, s.med.torn, s.med.aborted) :=
  (settleMeld_onlyPlaces _ _).rowCounts.trans (each_invariant (fun x u => recordLanded_rowCounts u x) _ _)

/-- The one record of a row, held in DRAM, is on flash and waits for its entry to be moved (R450). -/
theorem rowDone_moves {s : State} {n r id : Nat} {x : Placed} (only : (meldAt s n).asm = [x]) (ends : lastRow (meldAt s n) x ≤ r)
    (buffered : x.medium = false) (held : x.dram = some id) :
    tfind (rowDone n r s).med.flash x.addr = some (sealRecord x.addr x.item) ∧
    (rowDone n r s).med.moves = s.med.moves ++ [(x.addr, true, id)] := by
  have done : (meldAt s n).asm.filter (fun y => decide (lastRow (meldAt s n) y ≤ r)) = [x] := by simp [only, ends]
  have landed : ∀ u : State, (recordLanded x u).med.flash = tput u.med.flash x.addr (sealRecord x.addr x.item) ∧
      (recordLanded x u).med.moves = u.med.moves ++ [(x.addr, true, id)] := fun u => by
    simp only [recordLanded, buffered, held]
    exact ⟨rfl, rfl⟩
  unfold rowDone
  dsimp only
  rw [done]
  generalize hu : setMeld n _ _ = u
  have flash : u.med.flash = s.med.flash := hu ▸ rfl
  have moves : u.med.moves = s.med.moves := hu ▸ rfl
  obtain ⟨_, _, med⟩ := (settleMeld_onlyPlaces n (each recordLanded [x] u)).med
  obtain ⟨landedFlash, landedMoves⟩ := landed u
  rw [med]
  exact ⟨(congrArg (tfind · x.addr) landedFlash).trans (tfind_tput_same _ _ _), moves ▸ landedMoves⟩

end

/-! ## A torn row (R474) -/

section
variable (s : State)

theorem replaceBlock_onlyPlaces (id : Nat) : OnlyPlaces s (replaceBlock id s) := by
  unfold replaceBlock
  dsimp only
  split
  · exact OnlyPlaces.setBlk _ _ s
  · split
    · exact OnlyPlaces.setBlk _ _ s
    · exact OnlyPlaces.refl s

theorem retireBlock_onlyPlaces (id : Nat) : OnlyPlaces s (retireBlock id s) :=
  ((OnlyPlaces.setBlk _ _ s).trans (replaceBlock_onlyPlaces _ id)).trans
    (OnlyPlaces.of_keeps ((checkStock_keeps (wB := [.boot, .host, .evr, .out]) (by decide)).mpr (Keeps.refl _ _)) (by decide))

theorem placeAgain_rowCounts (stream : Nat) (x : Placed) : rowCounts (placeAgain stream x s) = rowCounts s := by
  unfold placeAgain
  split
  · rfl
  · next n u found =>
    have placed := (meldFor_onlyPlaces found).trans (placeIn_onlyPlaces n x.item x.dram x.src x.kitty x.owner x.medium u)
    dsimp only
    generalize placeIn n x.item x.dram x.src x.kitty x.owner x.medium u = v at placed
    split
    · have sealed : rowCounts (sealRow n v) = rowCounts s := (placed.trans (sealRow_onlyPlaces n v)).rowCounts
      exact sealed
    · exact placed.rowCounts

theorem killMeld_rowCounts (n : Nat) : rowCounts (killMeld n false s) = rowCounts s := rfl

theorem setMeld_rowCounts (n : Nat) (m : Meld) : rowCounts (setMeld n m s) = rowCounts s := rfl

theorem startErase_rowCounts (n : Nat) : rowCounts (startErase n s) = rowCounts s := by
  unfold startErase
  dsimp only
  rw [setMeld_rowCounts]
  exact rowCounts_of_keeps ((reserveErase_keeps1 (wB := [.ante, .pwr]) (by decide)).mpr (Keeps.refl _ s)) (by decide)

theorem settleCopied_rowCounts (n : Nat) : rowCounts (settleCopied n s) = rowCounts s := by
  unfold settleCopied
  split
  · rw [startErase_rowCounts, killMeld_rowCounts]
  · rfl

theorem relocateMeld_rowCounts (kind : Maint) (firm recovery : Bool) (n : Nat) :
    rowCounts (relocateMeld kind firm recovery n s) = rowCounts s := by
  unfold relocateMeld
  dsimp only
  split
  · exact settleCopied_rowCounts s n
  · split
    · rfl
    · split
      · rfl
      · next u taken =>
        have antes := rowCounts_of_keeps ((takeAntes_keeps (wB := [.ante]) taken (by decide)).mpr (Keeps.refl _ s)) (by decide)
        rw [settleCopied_rowCounts, ← antes]
        refine each_invariant (fun p v => ?_) _ u
        split
        · exact placeRecord_rowCounts _ _ _ _ _ _ _ _
        · rfl

variable {s}

/-- A row that runs when its meld is stopped is torn, counts as programmed, and is listed as aborted (R447, R474). -/
theorem stopMeld_rowCounts {n : Nat} (runs : (meldAt s n).running.isSome = true) : rowCounts (stopMeld n s).1 =
    (s.med.progSeq + 1, s.med.torn + 1, s.med.aborted ++ [(n, (meldAt s n).row)]) := by
  unfold stopMeld
  dsimp only
  rw [if_pos runs]
  rfl

theorem rowTorn_rowCounts {n : Nat} (failed : List ProgFail) (runs : (meldAt s n).running.isSome = true) :
    rowCounts (rowTorn n failed s) = (s.med.progSeq + 1, s.med.torn + 1, s.med.aborted ++ [(n, (meldAt s n).row)]) := by
  unfold rowTorn
  dsimp only
  rw [relocateMeld_rowCounts, (settleMeld_onlyPlaces _ _).rowCounts, each_invariant (fun x u => placeAgain_rowCounts u _ x)]
  refine (each_invariant (fun f u => each_invariant (g := rowCounts) (fun b v => ?_) _ u) _ _).trans (stopMeld_rowCounts runs)
  have retired : rowCounts (retireBlock b v) = rowCounts v := (retireBlock_onlyPlaces v b).rowCounts
  simpa only [rowCounts, modFlashChan] using retired

end
end Sys2Proof.Machine
end

section
/-! PROOFS. The end of a row program as its command makes it (R447, R474), and the roles of cores (R25 to R32). -/

namespace Sys2Proof.Machine

open Sys2Proof

/-! ## ROW_PROGRAM_COMPLETE -/

section
variable {s : State} {meld at_ : Nat} {p : Nat × Nat} {ps : List (Nat × Nat)} {failed : List ProgFail}
  (run : running s = true) (runs : (meldAt s meld).running = some at_) (programs : (meldAt s meld).programs = p :: ps)
  (due : at_ ≤ now s)
include run runs programs due

theorem exec_rowProgramComplete (good : failed.flatMap (blocksOn (meldAt s meld)) = []) :
    exec (.rowProgramComplete meld failed) s = .next (rowDone meld p.1 s) := by
  simp only [exec, execRowProgramComplete, whenRunning, run, runs, programs, good, if_true, if_neg (Nat.not_lt.mpr due)]

theorem exec_rowProgramComplete_torn (bad : failed.flatMap (blocksOn (meldAt s meld)) ≠ []) :
    exec (.rowProgramComplete meld failed) s = .next (rowTorn meld failed s) := by
  simp only [exec, execRowProgramComplete, whenRunning, run, runs, programs, if_neg bad, if_true, if_neg (Nat.not_lt.mpr due)]

end

/-! ## Roles (R25 to R32) -/

section
variable (s : State)

theorem roleOf_of_roles {s t : State} (h : t.cores.roles = s.cores.roles) (c : Nat) : roleOf t c = roleOf s c := by
  rw [roleOf, h, roleOf]

theorem roleOf_setRole (c r k : Nat) : roleOf (setRole c r s) k = if k = c then r else roleOf s k :=
  tget_tset _ _ _ _ _

theorem dropDrain_roles (c : Nat) : (dropDrain c s).cores.roles = s.cores.roles := by
  unfold dropDrain
  split <;> rfl

theorem askDrain_roles (c r : Nat) : (askDrain c r s).cores.roles = s.cores.roles := by
  have reserved : ∀ u, (reserveMaint .roleDrain c 125 u).cores = u.cores :=
    fun u => (reserveMaint_keeps (wB := [.ante]) (by decide)).mpr (Keeps.refl _ u) .cores (by decide)
  rw [askDrain, reserved]

theorem replaceRole_roles (r : Nat) : (replaceRole r s).cores.roles = s.cores.roles := by
  unfold replaceRole
  split
  · rfl
  · dsimp only
    split <;> rfl

theorem startRoles_roles (roles : List Nat) : (startRoles roles s).cores.roles = s.cores.roles := by
  refine each_invariant (g := fun u => u.cores.roles) (fun p u => ?_) _ s
  split
  · rfl
  · exact askDrain_roles u _ _

theorem nextWrites_roles (n : Nat) : (nextWrites n s).cores.roles = s.cores.roles := by
  induction n generalizing s with
  | zero => rfl
  | succ n ih =>
    unfold nextWrites
    split
    · rw [ih, startRoles_roles]
    · rfl

theorem nextRoles_roles : (nextRoles s).cores.roles = s.cores.roles := nextWrites_roles s _

/-- The role of a retired core passes to another core, never back to it: a core on standby is no retired one. -/
theorem passRole_retired {core : Nat} (r : Nat) (h : roleOf s core = 15) : roleOf (passRole core r s) core = 15 := by
  unfold passRole
  split
  · next x found =>
    have standby : roleOf s x = 4 := of_decide_eq_true (List.mem_filter.mp (List.mem_of_head? found)).2
    have other : core ≠ x := fun same => by simp [← same, h] at standby
    have moved : roleOf (setRole x r { s with cores := { s.cores with standIn := some (core, x) } }) core = 15 := by
      rw [roleOf_setRole, if_neg other]
      exact h
    dsimp only
    split
    · exact moved
    · exact moved
  · split
    · exact h
    · rw [roleOf_of_roles (replaceRole_roles s r), h]

/-- What follows a core's retirement leaves the roles as they are. -/
theorem redispatched_roles (core : Nat) (payload : List Nat) :
    (nextRoles (redispatch core (event 0x1101 payload s))).cores.roles = s.cores.roles := by
  have kept : Keeps [.dlr, .draws, .host, .evr, .out] s (redispatch core (event 0x1101 payload s)) :=
    (redispatch_keeps (by decide)).mpr ((event_keeps (by decide)).mpr (Keeps.refl _ s))
  rw [nextRoles_roles]
  exact congrArg Cores.roles (kept .cores (by decide))

/-- The failed core no longer stands in for another (R30). -/
def leaveStandIn (core : Nat) (s : State) : State :=
  match s.cores.standIn with
  | some (_, x) => if x = core then { s with cores := { s.cores with standIn := none } } else s
  | none => s

theorem leaveStandIn_roles (core : Nat) : (leaveStandIn core s).cores.roles = s.cores.roles := by
  unfold leaveStandIn
  repeat' split
  all_goals rfl

/-- The role that the failed core drained toward is asked of another core, where it is short (R32). -/
def replaceWanted (wanted : Option Nat) (s : State) : State :=
  match wanted with
  | some w => if roleCount s w < roleMin w ∧ w ∉ s.cores.draining.map (·.2) then replaceRole w s else s
  | none => s

theorem replaceWanted_roles (wanted : Option Nat) : (replaceWanted wanted s).cores.roles = s.cores.roles := by
  unfold replaceWanted
  split
  · split
    · exact replaceRole_roles s _
    · rfl
  · rfl

/-- The failed core's role goes on elsewhere; a core on standby leaves none behind (R28). -/
def roleLeft (core r : Nat) (s : State) : State := if r = 4 then s else passRole core r s

theorem roleLeft_retired {core : Nat} (r : Nat) (h : roleOf s core = 15) : roleOf (roleLeft core r s) core = 15 := by
  unfold roleLeft
  split
  · exact h
  · exact passRole_retired s r h

/-- A retirement is these steps in turn. -/
theorem retireCore_eq {core : Nat} (known : core < 32) (live : roleOf s core ≠ 15) : ∃ wanted payload,
    retireCore core s = nextRoles (redispatch core (event 0x1101 payload (replaceWanted wanted
      (roleLeft core (roleOf s core) (leaveStandIn core (setRole core 15 (dropDrain core s))))))) := by
  unfold retireCore
  rw [if_neg (by omega)]
  exact ⟨_, _, rfl⟩

/-- A core that fails is retired, whatever becomes of its role. -/
theorem retireCore_retired {core : Nat} (known : core < 32) (live : roleOf s core ≠ 15) : roleOf (retireCore core s) core = 15 := by
  obtain ⟨wanted, payload, eq⟩ := retireCore_eq s known live
  rw [eq, roleOf_of_roles (redispatched_roles ..), roleOf_of_roles (replaceWanted_roles ..)]
  refine roleLeft_retired _ _ ?_
  rw [roleOf_of_roles (leaveStandIn_roles ..), roleOf_setRole, if_pos rfl]

theorem retireCore_idle {core : Nat} (h : 32 ≤ core ∨ roleOf s core = 15) : retireCore core s = s := if_pos h

end

section
variable {s : State} (run : running s = true)
include run

theorem exec_coreFailure (core : Nat) : exec (.coreFailure core) s = .next (retireCore core s) :=
  congrArg Host.Outcome.next (if_pos run)

theorem exec_coreRoleDrain {core r : Nat} {m : MaintResv} (only : s.cores.draining = [(core, r)])
    (reserved : findMaint s .roleDrain core = some m) (come : m.first ≤ slotOf (now s))
    (idle : roleOf s core ≠ 0 ∨ coreBusy s core = false) : ∃ t, exec (.coreRoleDrain core) s = .next t ∧
      t.cores.roles = (setRole core r (dropDrain core s)).cores.roles := by
  have begins : ¬ (slotOf (now s) < m.first ∨ (roleOf s core = 0 ∧ coreBusy s core = true)) := by
    rintro (early | ⟨command, busy⟩)
    · omega
    · simp [command, busy] at idle
  simp only [exec, execCoreRoleDrain, whenRunning, run, if_true, only, List.find?_cons, decide_true, reserved, if_neg begins]
  refine ⟨_, rfl, ?_⟩
  rw [nextRoles_roles]
  split <;> rfl

theorem exec_managementTakeoverComplete (taking : s.cores.takeover = true) (one : roleCount s 3 = 1) :
    exec .managementTakeoverComplete s = .next { s with cores := { s.cores with takeover := false } } := by
  simp only [exec, execManagementTakeoverComplete, whenRunning, guard, run, taking, one, decide_true, Bool.and_self, if_true]

end

/-- Settles O32: a row's end by what it counts, a core's by the role it is left with. -/
theorem rowsAndCoresEnd : Obligations.RowsAndCoresEnd := by
  intro s run
  refine ⟨fun meld m at_ p ps failed hm runs programs due => ?_, fun core known live => ?_, fun core h => ?_,
    fun core r m only reserved come idle => ?_, fun taking one => ?_⟩
  · subst hm
    refine ⟨fun good => ?_, fun x id good only ends buffered held => ?_, fun bad => ?_⟩
    · obtain ⟨progSeq, rest⟩ := Prod.mk.inj (rowDone_rowCounts s meld p.1)
      exact ⟨_, exec_rowProgramComplete run runs programs due good, progSeq, (Prod.mk.inj rest).1⟩
    · exact ⟨_, exec_rowProgramComplete run runs programs due good, rowDone_moves only ends buffered held⟩
    · obtain ⟨progSeq, rest⟩ := Prod.mk.inj (rowTorn_rowCounts failed (by rw [runs]; rfl))
      exact ⟨_, exec_rowProgramComplete_torn run runs programs due bad, progSeq, Prod.mk.inj rest⟩
  · exact ⟨_, exec_coreFailure run core, retireCore_retired s known live⟩
  · rw [exec_coreFailure run, retireCore_idle s h]
  · obtain ⟨t, ht, roles⟩ := exec_coreRoleDrain run only reserved come idle
    have role : ∀ c, roleOf t c = if c = core then r else roleOf s c := fun c => by
      rw [roleOf_of_roles roles, roleOf_setRole, roleOf_of_roles (dropDrain_roles s core)]
    exact ⟨t, ht, by rw [role, if_pos rfl], fun c other => by rw [role, if_neg other]⟩
  · exact ⟨_, exec_managementTakeoverComplete run taking one, rfl⟩

end Sys2Proof.Machine
end

section
/-! PROOFS. What interrupts, event records and in-service tests leave of the host block (R249, R627, R643). -/

namespace Sys2Proof.Machine

open Sys2Proof

/-- The host block beside its ports and SMBALERT#: contexts, mailboxes, task sets, counts. An interrupt or an event record
changes none of it. -/
def hostTables (s : State) : HostBlock := { s.host with ports := [], alert := false }

section
variable {s t : State}

theorem hostTables_of_host (h : t.host = s.host) : hostTables t = hostTables s := by rw [hostTables, h, hostTables]

theorem hostTables_of_keeps {w : List Area} (h : Keeps w s t) (free : Area.host ∉ w) : hostTables t = hostTables s :=
  hostTables_of_host (h .host free)

theorem ctxAt_of_hostTables (h : hostTables t = hostTables s) (c : Nat) : ctxAt t c = ctxAt s c :=
  congrArg (tget ctxBlank · c) (congrArg HostBlock.ctxs h :)

theorem boxAt_of_hostTables (h : hostTables t = hostTables s) (b : Nat) : boxAt t b = boxAt s b :=
  congrArg (tget boxBlank · b) (congrArg HostBlock.boxes h :)

theorem taskAt_of_hostTables (h : hostTables t = hostTables s) (n : Nat) : taskAt t n = taskAt s n :=
  congrArg (tget taskBlank · n) (congrArg HostBlock.tasks h :)

end

/-! ## Interrupts and event records -/

section
variable (s : State)

@[simp] theorem hostTables_setPort (p : Nat) (x : Port) : hostTables (setPort p x s) = hostTables s := rfl

@[simp] theorem hostTables_msix (p v : Nat) : hostTables (msix p v s) = hostTables s := by
  unfold msix
  split
  · rfl
  · split <;> rfl

@[simp] theorem hostTables_raiseOn (b p : Nat) : hostTables (raiseOn b p s) = hostTables s := by
  unfold raiseOn
  split
  · rfl
  · split
    · rfl
    · simp only [apply_ite hostTables, hostTables_msix, hostTables_setPort, ite_self]

@[simp] theorem hostTables_raiseAll (b : Nat) : hostTables (raiseAll b s) = hostTables s :=
  each_invariant (fun _ u => hostTables_raiseOn u _ _) _ _

@[simp] theorem hostTables_followAlert : hostTables (followAlert s) = hostTables s := by
  simp only [followAlert]
  split <;> rfl

@[simp] theorem hostTables_warn : hostTables (warn s) = hostTables s := by
  simp only [warn, hostTables_followAlert, hostTables_raiseAll]

@[simp] theorem hostTables_startWrite : hostTables (startWrite s) = hostTables s := by
  unfold startWrite
  split
  · split
    · split
      · exact hostTables_warn _
      · rfl
    · rfl
  · rfl

@[simp] theorem hostTables_enqueue (r : EvRec) : hostTables (enqueue r s) = hostTables s := by
  have written : ∀ e : Recorder, hostTables (startWrite { s with evr := e }) = hostTables s :=
    fun e => hostTables_startWrite { s with evr := e }
  have dropped : ∀ e : Recorder, hostTables { s with evr := e } = hostTables s := fun _ => rfl
  simp only [enqueue, apply_ite hostTables, hostTables_warn, written, dropped, ite_self]

@[simp] theorem hostTables_event (code : Nat) (payload : List Nat) : hostTables (event code payload s) = hostTables s := by
  have recorded : ∀ e : Recorder, hostTables { s with evr := e } = hostTables s := fun _ => rfl
  unfold event
  dsimp only
  split
  · rfl
  · split
    · simp only [apply_ite hostTables, hostTables_warn, recorded, ite_self]
    · split
      · simp only [apply_ite hostTables, hostTables_warn, recorded, ite_self]
      · exact hostTables_enqueue _ _

/-! ## The end of a test (R643, R645, Table 14-4) -/

@[simp] theorem hostTables_retarget : hostTables (retarget s) = hostTables s := by
  simp only [retarget]
  split
  · rfl
  · rw [hostTables_raiseAll, hostTables_event]
    rfl

@[simp] theorem hostTables_endMeasure (res : Option BankMeasure) : hostTables (endMeasure res s) = hostTables s := by
  cases res with
  | none => simp only [endMeasure, bankFaulted, hostTables_retarget, hostTables_event]; rfl
  | some m => simp only [endMeasure, measured, hostTables_retarget, apply_ite hostTables, hostTables_event, ite_self]; rfl

@[simp] theorem hostTables_retireEngine (n : Nat) (c : EngineCause) : hostTables (retireEngine n c s) = hostTables s := by
  have granted : ∀ k u, hostTables (grantWaiting k u) = hostTables u := fun k u =>
    hostTables_of_keeps ((grantWaiting_keeps (wB := [.xts]) (by decide)).mpr (Keeps.refl _ u)) (by decide)
  unfold retireEngine
  dsimp only
  split
  · rfl
  · simp only [apply_ite hostTables, hostTables_event, granted, ite_self]
    refine hostTables_of_keeps (w := [.xts]) ?_ (by decide)
    simp (disch := first | decide | exact Or.inl (by decide) | exact Or.inr rfl) only [keeps_mk, setEngine_keeps,
      blocksReleased_keeps, keeps_self]

theorem leaveStandIn_keeps (core : Nat) : Keeps [.cores, .ante] s (leaveStandIn core s) := by
  unfold leaveStandIn
  split
  · simp (disch := first | exact Or.inl (by decide) | exact Or.inr rfl) only [keeps_ite, keeps_mk, keeps_self, ite_self]
  · exact Keeps.refl _ s

theorem roleLeft_keeps (core r : Nat) : Keeps [.cores, .ante] s (roleLeft core r s) := by
  simp (disch := decide) only [roleLeft, keeps_ite, passRole_keeps, keeps_self, ite_self]

theorem replaceWanted_keeps (wanted : Option Nat) : Keeps [.cores, .ante] s (replaceWanted wanted s) := by
  unfold replaceWanted
  split
  · simp (disch := decide) only [keeps_ite, replaceRole_keeps, keeps_self, ite_self]
  · exact Keeps.refl _ s

/-- Of what follows a core's failure only the event reaches the host block (R25 to R32). -/
@[simp] theorem hostTables_retireCore (core : Nat) : hostTables (retireCore core s) = hostTables s := by
  by_cases h : 32 ≤ core ∨ roleOf s core = 15
  · rw [retireCore_idle s h]
  · obtain ⟨wanted, payload, eq⟩ := retireCore_eq s (Nat.not_le.mp fun k => h (.inl k)) fun k => h (.inr k)
    rw [eq]
    generalize hu : replaceWanted wanted _ = u
    have before : Keeps [.cores, .ante] s u := by
      have retired : Keeps [.cores, .ante] s (setRole core 15 (dropDrain core s)) := by
        simp (disch := decide) only [setRole_keeps, dropDrain_keeps, keeps_self]
      exact hu ▸ ((retired.trans (leaveStandIn_keeps _ core)).trans (roleLeft_keeps _ core _)).trans
        (replaceWanted_keeps _ wanted)
    have after : Keeps [.cores, .ante, .dlr, .draws] (event 0x1101 payload u) (nextRoles (redispatch core (event 0x1101 payload u))) := by
      simp (disch := decide) only [nextRoles_keeps, redispatch_keeps, keeps_self]
    rw [hostTables_of_keeps after (by decide), hostTables_event, hostTables_of_keeps before (by decide)]

@[simp] theorem hostTables_eraseSet (b : Bool) : hostTables (eraseSet b s) = hostTables s := by
  rw [eraseSet, hostTables_retarget]
  exact hostTables_of_host (((reserveErase_keeps1 (wB := [.ante, .pwr]) (by decide)).mpr (Keeps.refl _ s)) .host (by decide))

theorem hostTables_testFailed (t i c : Nat) : hostTables (testFailed t i c s) = hostTables s := by
  have device : ∀ q m, hostTables (setSub i (c / 10 % 2) q { s with mem := m }) = hostTables s := fun _ _ => rfl
  have die : ∀ x, hostTables (setDie i x s) = hostTables s := fun _ => rfl
  have slot : ∀ b, hostTables (emptySlot b s) = hostTables s := fun _ => rfl
  simp only [testFailed, apply_ite hostTables, hostTables_retireEngine, hostTables_retireCore, hostTables_event,
    hostTables_eraseSet, device, die, slot, ite_self]

/-- A test that has run leaves task sets, mailboxes and contexts as they are. -/
theorem hostTables_testRan (t i : Nat) (res : TestResult) (measure : Option BankMeasure) :
    hostTables (testRan t i res measure s) = hostTables s := by
  have noted : ∀ u : State, ∀ x, hostTables { u with ist := x } = hostTables u := fun _ _ => rfl
  have begun : ∀ u, hostTables (beginMeasure u) = hostTables u := fun _ => rfl
  unfold testRan
  dsimp only
  generalize (if t = 0 then _ else res) = cause
  cases cause with
  | none => simp only [apply_ite hostTables, hostTables_endMeasure, begun, noted, ite_self]
  | some c =>
    simp only [hostTables_testFailed, hostTables_event, noted]
    simp only [apply_ite hostTables, hostTables_endMeasure, begun, noted, ite_self]

theorem hostTables_testOne (t : Nat) (p : Nat × TestResult) : hostTables (testOne t p s) = hostTables s := by
  unfold testOne
  split
  · exact hostTables_testRan _ _ _ _ _
  · exact hostTables_testRan _ _ _ _ _

end

end Sys2Proof.Machine
end

section
/-! PROOFS. Tasks (R63, R259, R637, R645), and the starts that the module makes itself (R62, R63, R675). -/

namespace Sys2Proof.Machine

open Sys2Proof

/-! ## A task's end -/

section
variable {s : State} {n : Nat}

theorem taskAt_finishTask (n status result : Nat) (s : State) : taskAt (finishTask n status result s) n =
    { taskAt s n with busy := false, status := status, result := result } :=
  taskAt_setTask_same ..

/-- A task runs where its set is busy with its code, in a stage of that code (Table 05-16). -/
theorem taskRow_runs {code : Nat} (f : Task → State → State) (run : running s = true) (busy : (taskAt s n).busy = true)
    (coded : (taskAt s n).code = code) (stage : s.boot.stage ∈ taskStages code) :
    taskRow n code f s = .next (f (taskAt s n) s) := by
  simp only [taskRow, whenRunning, run, busy, coded, stage, and_self, if_true]

theorem exec_taskCodeInvalid (run : running s = true) (busy : (taskAt s n).busy = true)
    (stage : s.boot.stage ∉ taskStages (taskAt s n).code) :
    exec (.taskCodeInvalid n) s = .next (finishTask n stOpcode 0 s) := by
  simp only [exec, execTaskCodeInvalid, whenRunning, guard, run, busy, stage, not_false_eq_true, decide_true, Bool.and_self,
    if_true]

theorem exec_taskCodeInvalid_idle (stage : s.boot.stage ∈ taskStages (taskAt s n).code) :
    exec (.taskCodeInvalid n) s = .next s := by
  simp only [exec, execTaskCodeInvalid, whenRunning, guard, stage, not_true, decide_false, Bool.and_false,
    Bool.false_eq_true, if_false, ite_self]

end

/-! ## MODULE_RESET and the starts (R62, R63, R675) -/

section
variable (cause : Nat) (inp : BootInput) (s : State)

theorem recountSlot_lt : recountSlot s < 65536 := by
  unfold recountSlot
  split
  · exact Nat.mod_lt _ (by decide)
  · decide

/-- The flush aborts rows and stops melds, and takes no record off flash (R44). -/
theorem silenced_flash : (silenced s).med.flash = s.med.flash := by
  have aborted : ∀ u, (abortRows u).med.flash = u.med.flash := fun _ => rfl
  have fallen : ∀ u, (fallSilent u).med = u.med := fun _ => rfl
  have before : Keeps [.mem, .xts, .pwr, .out] s (drainDram (suspendNormal (refreshSelf false (discardMeasure s)))) := by
    simp (disch := decide) only [drainDram_keeps, suspendNormal_keeps, refreshSelf_keeps, discardMeasure_keeps, keeps_self]
  rw [silenced, fallen, aborted]
  exact congrArg Media.flash (before .med (by decide))

/-- What precedes the cold start of a restart. -/
def flushed : State := closeFlush (beginFlush (writePending s))

theorem flushed_keeps : Keeps [.boot, .dlr, .host, .lanes, .fab, .med, .mem, .xts, .pwr, .upd, .evr, .out, .draws] s
    (flushed s) := by
  simp (disch := decide) only [flushed, closeFlush_keeps, beginFlush_keeps, writePending_keeps, keeps_self]

theorem flushed_flash : (flushed s).med.flash = s.med.flash := by
  have closed : ∀ u, (closeFlush u).med = u.med := fun u =>
    (closeFlush_keeps (wB := [.pwr, .draws]) (by decide)).mpr (Keeps.refl _ u) .med (by decide)
  have written : (writePending s).med = s.med :=
    (writePending_keeps (wB := [.host, .evr, .out]) (by decide)).mpr (Keeps.refl _ s) .med (by decide)
  rw [flushed, closed]
  exact (silenced_flash (writePending s)).trans (congrArg Media.flash written)

/-- A start that the module makes itself: the steps of the flush, then a cold start (R675). -/
theorem restart_eq : restart cause inp s = coldStart cause inp (flushed s) := rfl

theorem restart_stage : (restart cause inp s).boot.stage = 0 := by
  rw [restart_eq, coldStart_stage]

theorem restart_cause : (restart cause inp s).clk.cause = cause := by
  rw [restart_eq, coldStart_clk]

theorem restart_cycles : (restart cause inp s).clk.cycles = s.clk.cycles + 1 := by
  rw [restart_eq, coldStart_clk]
  exact congrArg (·.cycles + 1) (flushed_keeps s .clk (by decide))

theorem restart_nss : (restart cause inp s).nss = s.nss := by
  rw [restart_eq, coldStart_nss]
  exact flushed_keeps s .nss (by decide)

theorem restart_flash : (restart cause inp s).med.flash = s.med.flash := by
  rw [restart_eq, coldStart_med]
  exact flushed_flash s

end

section
variable {s : State}

theorem exec_moduleReset {n : Nat} (run : running s = true) (busy : (taskAt s n).busy = true)
    (coded : (taskAt s n).code = 1) (stage : s.boot.stage ∈ taskStages 1) : ∃ u, exec (.moduleReset n) s =
      .next (finishTask n stOk (recountSlot u) { u with jnl := { u.jnl with resetAsked := true } }) := by
  simp only [exec, execModuleReset, taskRow_runs _ run busy coded stage]
  exact ⟨_, rfl⟩

theorem exec_moduleResetExecute (run : running s = true) (asked : s.jnl.resetAsked = true) (quiet : quiesced s = true) :
    exec .moduleResetExecute s = .next (restart 2 s.boot.input (markResets s)) := by
  simp only [exec, execModuleResetExecute, whenRunning, guard, run, asked, quiet, Bool.and_self, if_true]

theorem exec_moduleResetExecute_idle (asked : s.jnl.resetAsked = false) : exec .moduleResetExecute s = .next s := by
  simp only [exec, execModuleResetExecute, whenRunning, guard, asked, Bool.false_and, Bool.false_eq_true, if_false, ite_self]

theorem exec_allPortsReset (run : running s = true) (stage : s.boot.stage = 4) (ports : s.host.ports ≠ [])
    (held : ∀ p ∈ s.host.ports, p.2.perst = true ∧ p.2.perstAt + 1000000 ≤ now s) :
    exec .allPortsReset s = .next (restart 3 s.boot.input s) := by
  have all : s.host.ports.all (fun p => p.2.perst && decide (p.2.perstAt + 1000000 ≤ now s)) = true :=
    List.all_eq_true.mpr fun p hp => by simp [held p hp]
  simp only [exec, execAllPortsReset, whenRunning, guard, run, stage, ports, all, ne_eq, not_false_eq_true, and_self,
    decide_true, Bool.and_self, if_true]

end

/-! ## SELF_TEST and EVENT_TAIL (R637, R645) -/

section
variable {s : State} {n : Nat} {results : List TestResult} {target : Nat} (run : running s = true)
  (busy : (taskAt s n).busy = true) (coded : (taskAt s n).code = 2) (named : target = bits (taskAt s n).arg 7 0)
  (stage : s.boot.stage = 4)
include run busy coded named stage

/-- A target beyond Table 14-4 is refused (log entry 36). -/
theorem exec_selfTest_unknown (beyond : 7 ≤ target) :
    exec (.selfTest n results) s = .next (finishTask n stOpcode 0 s) := by
  simp only [exec, execSelfTest, taskRow_runs _ run busy coded (stage ▸ by decide), ← named]
  rw [if_pos (.inl beyond)]

theorem exec_selfTest_busy (known : target < 7) (hard : target ≠ 1 ∧ target ≠ 6) (taken : targetRuns s target = false) :
    exec (.selfTest n results) s = .next (finishTask n stBusy 0 s) := by
  simp only [exec, execSelfTest, taskRow_runs _ run busy coded (stage ▸ by decide), ← named]
  rw [if_neg (by omega), if_pos ⟨stage, hard.1, hard.2, taken⟩]

theorem exec_selfTest_runs (free : target = 1 ∨ target = 6 ∨ (target < 7 ∧ targetRuns s target = true)) :
    let l := (asked s target (bits (taskAt s n).arg 23 8)).zipIdx.map (fun p => (p.1, results.getD p.2 none))
    exec (.selfTest n results) s = .next (finishTask n stOk (testWord l) (each (testOne target) l s)) := by
  have open_ : ¬ (s.boot.stage = 4 ∧ target ≠ 1 ∧ target ≠ 6 ∧ targetRuns s target = false) := by
    rintro ⟨-, not1, not6, taken⟩
    rcases free with h | h | ⟨-, runs⟩
    · exact not1 h
    · exact not6 h
    · exact absurd (runs.symm.trans taken) (by decide)
  simp only [exec, execSelfTest, taskRow_runs _ run busy coded (stage ▸ by decide), ← named]
  rw [if_neg (by omega), if_neg open_]

end

/-- The newest event records that fit in a task's data area, in ascending order (R637). -/
def newestRecords (s : State) : Bytes :=
  (fitRecords 224 (s.evr.store.map (·.2) ++ s.evr.writing.toList ++ s.evr.pending).reverse).reverse.flatMap eventBytes

theorem exec_eventTail {s : State} {n : Nat} (run : running s = true) (busy : (taskAt s n).busy = true)
    (coded : (taskAt s n).code = 3) (stage : s.boot.stage ∈ taskStages 3) :
    exec (.eventTail n) s = .next (finishTask n stOk 0
      (setTask n { taskAt s n with data := bytesSet [] 0 (newestRecords s), dataLen := (newestRecords s).length } s)) := by
  simp only [exec, execEventTail, taskRow_runs _ run busy coded stage, newestRecords]

/-- Settles O49: each code by its equation; the task set's answer survives what the tests of a self test lead to. -/
theorem tasksRun : Obligations.TasksRun := by
  intro s set k run hk
  subst hk
  refine ⟨fun busy stage => ?_, fun busy stage => exec_taskCodeInvalid_idle stage, fun busy coded stage => ?_,
    fun asked quiet => ?_, exec_moduleResetExecute_idle, fun stage ports held => ?_,
    fun results target busy coded named stage => ?_, fun busy coded stage => ?_⟩
  · exact ⟨_, exec_taskCodeInvalid run busy stage, taskAt_finishTask ..⟩
  · obtain ⟨u, reset⟩ := exec_moduleReset run busy coded stage
    refine ⟨_, _, reset, rfl, taskAt_finishTask .., rfl, rfl, recountSlot_lt u⟩
  · exact ⟨_, exec_moduleResetExecute run asked quiet, restart_stage .., restart_cause .., restart_cycles .., restart_nss ..,
      restart_flash ..⟩
  · exact ⟨_, exec_allPortsReset run stage ports held, restart_stage .., restart_cause .., restart_cycles ..⟩
  · refine ⟨fun beyond => ?_, fun known not1 not6 taken => ?_, fun free => ?_⟩
    · exact ⟨_, exec_selfTest_unknown run busy coded named stage beyond, taskAt_finishTask ..⟩
    · exact ⟨_, exec_selfTest_busy run busy coded named stage known ⟨not1, not6⟩ taken, taskAt_finishTask ..⟩
    · refine ⟨_, exec_selfTest_runs run busy coded named stage free, ?_⟩
      have tested := each_invariant (g := hostTables) (fun p u => hostTables_testOne u target p)
        ((asked s target (bits (taskAt s set).arg 23 8)).zipIdx.map fun p => (p.1, results.getD p.2 none)) s
      rw [taskAt_finishTask, taskAt_of_hostTables tested]
  · refine ⟨_, newestRecords s, exec_eventTail run busy coded stage, rfl, ?_⟩
    simp only [taskAt_finishTask, taskAt_setTask_same]
    exact ⟨trivial, trivial, bytesAt_bytesSet [] 0 (newestRecords s)⟩

end Sys2Proof.Machine
end

section
/-! PROOFS. Maintenance reservations, ledgers and their recount, DRAM channels, and the exit from a power state (R48, R87 to R92,
R204, R519, R528, R590). -/

namespace Sys2Proof.Machine

open Sys2Proof

/-! ## Reservations (R48) -/

section
variable {s : State} {resv : Nat}

/-- The state in which the reservations numbered `resv` are marked as started. -/
def markStarted (resv : Nat) (s : State) : State :=
  { s with ante := { s.ante with maint := s.ante.maint.map fun x => if x.id = resv then { x with started := true } else x } }

theorem exec_maintenanceReservationStart {m : MaintResv} (run : running s = true) (due : dueMaint s resv = some m)
    (waits : m.started = false) :
    exec (.maintenanceReservationStart resv) s = .next (startMaint m (markStarted resv s)) := by
  simp only [exec, execMaintenanceReservationStart, whenRunning, run, due, waits, markStarted, if_true, Bool.false_eq_true,
    if_false]

theorem exec_maintenanceReservationStart_idle (due : dueMaint s resv = none) :
    exec (.maintenanceReservationStart resv) s = .next s := by
  simp only [exec, execMaintenanceReservationStart, whenRunning, due, ite_self]

theorem startMaint_ante (m : MaintResv) (s : State) : (startMaint m s).ante = s.ante :=
  (startMaint_keeps (wB := [.mem]) (by decide)).mpr (Keeps.refl _ s) .ante (by decide)

end

/-! ## Ledger faults (R87 to R92) -/

theorem bit_add_pow {v b : Nat} (clear : bit v b = false) : bit (v + 2 ^ b) b = true := by
  have pos : 0 < 2 ^ b := Nat.two_pow_pos b
  simp only [bit, decide_eq_false_iff_not, decide_eq_true_eq, Nat.add_div_right v pos] at *
  omega

section
variable (l : Ledger) (s : State)

/-- The fault register with the ledger's bit set, where the ledger has one (Table 02-9). -/
def faultSet : Nat :=
  match ledgerBit l with
  | some b => if bit s.jnl.fault b then s.jnl.fault else s.jnl.fault + 2 ^ b
  | none => s.jnl.fault

theorem bit_faultSet {b : Nat} (h : ledgerBit l = some b) : bit (faultSet l s) b = true := by
  simp only [faultSet, h]
  split
  · assumption
  · next clear => exact bit_add_pow (Bool.eq_false_of_not_eq_true clear)

theorem faultSet_none (h : ledgerBit l = none) : faultSet l s = s.jnl.fault := by
  simp only [faultSet, h]

theorem askRecount_fault : (askRecount l s).jnl.fault = s.jnl.fault := by
  have reserved : ∀ u, (reserveMaint .recount 0 625 u).jnl = u.jnl := fun _ => rfl
  have dropped : ∀ (ms : List MaintResv) u, (each (fun m => dropMaint m.id) ms u).jnl = u.jnl := fun ms u =>
    each_invariant (g := State.jnl) (f := fun m : MaintResv => dropMaint m.id) (fun _ _ => rfl) ms u
  simp only [askRecount, apply_ite State.jnl, reserved, dropped, ite_self]

/-- A ledger fault's event leaves the journal alone. -/
theorem event_jnl (code : Nat) (payload : List Nat) : (event code payload s).jnl = s.jnl :=
  (event_keeps (wB := [.host, .evr, .out]) (by decide)).mpr (Keeps.refl _ s) .jnl (by decide)

/-- The response of the ledgers that a module reset answers (Table 02-9). -/
def askReset (l : Ledger) (s : State) : State :=
  if repeated s s.jnl.lastReset l then enterReadOnly 3 [] (event 0x0301 [ledgerCode l, 2] s)
  else
    let u := event 0x0301 [ledgerCode l, 1] s
    { u with jnl := { u.jnl with resets := u.jnl.resets + 1, resetAsked := true,
                                 refusing := u.jnl.refusing.filter (fun x => decide (x ≠ l)) ++ [l] } }

theorem askReset_fault : (askReset l s).jnl.fault = s.jnl.fault := by
  unfold askReset
  split
  · exact congrArg Journal.fault ((enterReadOnly_keeps (wB := [.boot, .host, .evr, .out]) (by decide)).mpr
      ((event_keeps (by decide)).mpr (Keeps.refl _ s)) .jnl (by decide))
  · show (event _ _ s).jnl.fault = _
    rw [event_jnl]

/-- No response of Table 02-9 touches the fault register. -/
theorem ledgerResponse_fault (unit : Nat) : (ledgerResponse l unit s).jnl.fault = s.jnl.fault := by
  have kept : ∀ {u : State}, Keeps [.boot, .ante, .host, .lanes, .fab, .fabc, .xts, .pwr, .evr, .out] s u →
      u.jnl.fault = s.jnl.fault := fun h => congrArg Journal.fault (h .jnl (by decide))
  cases l
  case linkCredits | sessionCredits | kitty | cipherLocks =>
    refine kept ?_
    simp (disch := first | decide | exact Or.inl (by decide) | exact Or.inr rfl) only [ledgerResponse, revokeLane_keeps,
      reopenSession_keeps, retarget_keeps, retireEngine_keeps, event_keeps, keeps_mk, keeps_self]
  case queueSlots =>
    simp only [ledgerResponse]
    split
    · rw [event_jnl]
    · refine kept ?_
      simp (disch := decide) only [raiseOn_keeps, setQueue_keeps, event_keeps, keeps_self]
  all_goals exact askReset_fault _ s

theorem exec_ledgerFault {lhs rhs unit : Nat} (run : running s = true) :
    ∃ t, exec (.ledgerFault l lhs rhs unit) s = .next t ∧ t.jnl.fault = faultSet l s := by
  refine ⟨_, congrArg Host.Outcome.next (if_pos run), ?_⟩
  have raised : ∀ u, (raiseLedger u).jnl = u.jnl := fun u =>
    (raiseLedger_keeps (wB := [.host, .out]) (by decide)).mpr (Keeps.refl _ u) .jnl (by decide)
  dsimp only
  split
  · rw [ledgerResponse_fault, raised, event_jnl]
    rfl
  · rw [askRecount_fault, raised, event_jnl]
    rfl

end

/-! ## The recount (R91) -/

section
variable (s : State)

theorem recount_jnl (l : Ledger) : ∃ marks, (recount l s).jnl = { s.jnl with
    lastRecount := marks, completed := if l = .commands then s.jnl.accepted - s.dlr.inflight.length else s.jnl.completed } := by
  cases l <;> exact ⟨_, rfl⟩

theorem recount_dlr (l : Ledger) : (recount l s).dlr = s.dlr :=
  (recount_keeps (wB := [.jnl]) (by decide)).mpr (Keeps.refl _ s) .dlr (by decide)

/-- A recount of some ledgers sets the completed commands, where that ledger is among them, and nothing but the times besides. -/
theorem each_recount_jnl (ls : List Ledger) : ∃ marks, (each recount ls s).jnl = { s.jnl with
    lastRecount := marks,
    completed := if .commands ∈ ls then s.jnl.accepted - s.dlr.inflight.length else s.jnl.completed } := by
  induction ls generalizing s with
  | nil => exact ⟨_, rfl⟩
  | cons l ls ih =>
    obtain ⟨marks, first⟩ := recount_jnl s l
    obtain ⟨marks', rest⟩ := ih (recount l s)
    refine ⟨marks', rest.trans ?_⟩
    rw [recount_dlr, first]
    by_cases hl : l = .commands <;> by_cases hls : Ledger.commands ∈ ls <;> simp [hl, hls, Ne.symm]

theorem exec_ledgerRecountWindow {s : State} {m : MaintResv} (run : running s = true)
    (due : s.ante.maint.find? (fun m => decide (m.kind = .recount ∧ m.first ≤ slotOf (now s))) = some m)
    (idle : s.dlr.inflight = []) : ∃ t marks, exec .ledgerRecountWindow s = .next t ∧ t.jnl = { s.jnl with
      lastRecount := marks,
      completed := if .commands ∈ s.jnl.refusing then s.jnl.accepted else s.jnl.completed,
      recounts := s.jnl.recounts + 1,
      refusing := if s.jnl.resetAsked then s.jnl.refusing else [] } := by
  obtain ⟨marks, recounted⟩ := each_recount_jnl s s.jnl.refusing
  refine ⟨_, marks, congrArg Host.Outcome.next (if_pos run), ?_⟩
  have dropped : ∀ u, (dropMaint m.id u).jnl = u.jnl := fun _ => rfl
  simp only [due, idle, ne_eq, not_true, if_false, apply_ite State.jnl, dropped, ite_self, recounted, List.length_nil,
    Nat.sub_zero]

end

/-! ## DRAM channels (R519, R520, R528) -/

section
variable {s : State} {c : Nat}

theorem chanAt_of_mem {t : State} (h : t.mem = s.mem) (k : Nat) : chanAt t k = chanAt s k := by rw [chanAt, h, chanAt]

theorem chanAt_dropMaint (id : Nat) (s : State) (k : Nat) : chanAt (dropMaint id s) k = chanAt s k := rfl

theorem chanAt_askRetrain (c : Nat) (s : State) (k : Nat) : chanAt (askRetrain c s) k = chanAt s k :=
  chanAt_of_mem ((askRetrain_keeps (wB := [.ante]) (by decide)).mpr (Keeps.refl _ s) .mem (by decide)) k

/-- A failed channel is out of service, and no other channel is touched (R528). -/
theorem chanAt_failChannel (c : Nat) (s : State) (k : Nat) :
    chanAt (failChannel c s) k = if k = c then { chanAt s c with state := 4 } else chanAt s k :=
  tget_tset chanBlank s.mem.chans c { chanAt s c with state := 4 } k

/-- The end of a reserved window of a channel: the sweep is whole, has failed an eye, or is not whole. -/
theorem exec_dramLiveRetrain {m : MaintResv} (finished : Bool) (eyes : List (Nat × Nat)) (run : running s = true)
    (known : c < 12) (state : (chanAt s c).state = 1 ∨ (chanAt s c).state = 3) (found : findMaint s .dramRetrain c = some m)
    (come : m.first ≤ slotOf (now s)) : exec (.dramLiveRetrain c finished eyes) s = .next
      (if finished = false then askRetrain c (setChan c { chanAt s c with state := 1 } (dropMaint m.id s))
       else if eyes.any eyeFails then failChannel c (dropMaint m.id s)
       else setChan c { chanAt s c with state := 1, trained := now s, eyes := eyes } (dropMaint m.id s)) := by
  simp only [exec, execDramLiveRetrain, whenRunning, guard, run, known, state, found, decide_true, Bool.and_self, if_true,
    if_neg (Nat.not_lt.mpr come)]

theorem exec_dramChannelFailure {cause : ChannelCause} (run : running s = true) (known : c < 12)
    (serves : (chanAt s c).state ≠ 4) (fails : channelFails s c cause = true) :
    exec (.dramChannelFailure c cause) s = .next (failChannel c s) := by
  simp only [exec, execDramChannelFailure, whenRunning, guard, run, known, serves, fails, ne_eq, not_false_eq_true,
    and_self, decide_true, Bool.and_self, if_true]

end

/-! ## The exit from a power state (R204, R590) -/

section
variable {s : State}

theorem startExit_pwr_idle (h : s.pwr.state = 0) : (startExit s).pwr = { s.pwr with idleAt := [] } := by
  rw [startExit, if_pos (.inl h)]

theorem startExit_pwr (state : s.pwr.state ≠ 0) (begun : s.pwr.exiting = none) : (startExit s).pwr =
    { s.pwr with exiting := some (now s + Config.exitUs s.pwr.state * 1000), idleAt := [] } := by
  rw [startExit, if_neg (by simp [state, begun])]
  simp only [apply_ite State.pwr, emit_pwr, ite_self]

theorem exec_powerStateExit (run : running s = true) : exec .powerStateExit s = .next (startExit s) :=
  congrArg Host.Outcome.next (if_pos run)

end

/-- Settles O44: each row by its equation; of a ledger fault what the fault register is, of a recount what the journal is. -/
theorem maintenanceAndLedgers : Obligations.MaintenanceAndLedgers := by
  intro s run
  refine ⟨fun resv m only named come waits => ?_, fun resv none_ => exec_maintenanceReservationStart_idle none_,
    fun ledger lhs rhs unit b hasBit => ?_, fun ledger lhs rhs unit credits => ?_, fun m due idle => ?_,
    fun c eyes m known state found come => ?_, fun c cause known serves fails => ?_, fun state begun => ?_, fun state => ?_⟩
  · have due : dueMaint s resv = some m := by simp [dueMaint, only, named, come]
    refine ⟨_, exec_maintenanceReservationStart run due waits, ?_⟩
    simp only [startMaint_ante, markStarted, only, List.map_cons, List.map_nil, named, if_true]
  · obtain ⟨t, ht, fault⟩ := exec_ledgerFault ledger s (lhs := lhs) (rhs := rhs) (unit := unit) run
    exact ⟨t, ht, fault ▸ bit_faultSet ledger s hasBit⟩
  · obtain ⟨t, ht, fault⟩ := exec_ledgerFault ledger s (lhs := lhs) (rhs := rhs) (unit := unit) run
    have noBit : ledgerBit ledger = none := by rcases credits with rfl | rfl <;> rfl
    exact ⟨t, ht, fault.trans (faultSet_none ledger s noBit)⟩
  · obtain ⟨t, marks, ht, jnl⟩ := exec_ledgerRecountWindow run due idle
    exact ⟨t, ht, by rw [jnl], fun asked => by simp [jnl, asked], fun counted => by simp [jnl, counted]⟩
  · have retrain := fun finished => exec_dramLiveRetrain finished eyes run known state found come
    refine ⟨fun good => ⟨_, retrain true, ?_⟩, fun bad => ⟨_, retrain true, ?_⟩, ⟨_, retrain false, ?_⟩⟩
    · simp only [good, Bool.true_eq_false, Bool.false_eq_true, if_false, chanAt_setChan_same]
    · simp only [bad, Bool.true_eq_false, if_false, if_true, chanAt_failChannel]
    · simp only [if_true, chanAt_askRetrain, chanAt_setChan_same]
  · refine ⟨_, exec_dramChannelFailure run known serves fails, ?_, rfl, rfl, fun k other => ?_⟩
    · rw [chanAt_failChannel, if_pos rfl]
    · rw [chanAt_failChannel, if_neg other]
  · exact ⟨_, exec_powerStateExit run, by rw [startExit_pwr state begun], by rw [startExit_pwr state begun],
      by rw [startExit_pwr state begun]⟩
  · exact ⟨_, exec_powerStateExit run, startExit_pwr_idle state⟩

end Sys2Proof.Machine
end

section
/-! PROOFS. What mailboxes report (R85, R269, R636), and the diagnostic window (R228). -/

namespace Sys2Proof.Machine

open Sys2Proof

/-! ## A mailbox command's end -/

section
variable {s : State} {b : Nat} {x : Mailbox} {code : Nat} {managed : Bool}

/-- A command that runs is taken off the order of go writes and carried out (R252). -/
theorem takeBox_runs (f : Mailbox → State → State) (h : boxRuns s b x code managed) :
    whenRunning (takeBox b (hasCode code) managed f) s = .next (f x (boxTaken s)) := by
  obtain ⟨run, first, rfl, busy, coded, allowed⟩ := h
  simp only [whenRunning, run, takeBox, first, busy, hasCode, coded, decide_true, and_self, if_true, allowed, boxTaken]

variable (b : Nat) (status : Nat) (out : Bytes) (s : State)

theorem hostTables_finishBox : hostTables (finishBox b status out s) = hostTables (setBox b { boxAt s b with
    busy := false, status := status, outLen := out.length, payload := bytesSet (boxAt s b).payload 0 out } s) := by
  simp only [finishBox, apply_ite hostTables, hostTables_msix, ite_self]

theorem finishBox_says : boxSays (finishBox b status out s) b status out := by
  rw [boxSays, boxAt_of_hostTables (hostTables_finishBox b status out s), boxAt_setBox_same]
  exact ⟨rfl, rfl, rfl, bytesAt_bytesSet _ 0 out⟩

theorem finishBox_same {a : Area} (h : a ∉ [Area.host, .out]) : same a s (finishBox b status out s) :=
  (finishBox_keeps (by decide)).mpr (Keeps.refl _ s) a h

/-- An interrupt may leave its vector pending, and touches nothing else of a port (R249). -/
theorem msix_unlock (p v k : Nat) :
    (tfind (msix p v s).host.ports k).map Port.unlock = (tfind s.host.ports k).map Port.unlock := by
  unfold msix
  split
  · rfl
  · next port found =>
    split
    · by_cases h : k = p
      · simp only [setPort, h, tfind_tput_same, found, Option.map_some]
      · simp only [setPort, tfind_tput_ne _ _ h]
    · rfl

theorem finishBox_unlock (k : Nat) :
    (tfind (finishBox b status out s).host.ports k).map Port.unlock = (tfind s.host.ports k).map Port.unlock := by
  unfold finishBox
  dsimp only
  split
  · exact msix_unlock _ _ _ _
  · rfl

end

/-! ## Journal queries, ledgers and events (R85, R269, R636) -/

section
variable {s : State} {b : Nat} {x : Mailbox}

theorem queryOutput_length (s : State) (id first count : Nat) : (queryOutput s id first count).length = 32 + 32 * count := by
  simp [queryOutput, Nat.mul_comm]

/-- The answer of a query: the fates asked for, or why not (R269). The order of go writes, which the command leaves, is no part of
what it reads. -/
theorem exec_mbxJournalQuery {v : Nat} (h : boxRuns s b x 0x0024 false) (area : v = leNat (boxInput x 32)) :
    exec (.mbxJournalQuery b) s = .next (if 125 < queryCount v then finishBox b stLength [] (boxTaken s)
      else if mayQuery s (boxPort b) (queryTarget v) = false then finishBox b stDenied [] (boxTaken s)
      else finishBox b stOk (queryOutput s (queryTarget v) (queryFirst v) (queryCount v)) (boxTaken s)) := by
  rw [area]
  exact takeBox_runs _ h

theorem exec_ledgerSnapshot (h : boxRuns s b x 0x0030 false) : exec (.ledgerSnapshot b) s =
    .next (finishBox b stOk (natLe 128 (snapshot s)) (boxTaken s)) :=
  takeBox_runs _ h

/-- The stored records from a sequence on, of a severity at least, that fit behind the header (R636). -/
def readEvents (x : Mailbox) (s : State) : Bytes :=
  (fitRecords 4000 ((s.evr.store.map (·.2)).filter fun r =>
    decide (leNat (boxInput x 8) ≤ r.seq ∧ leNat (bytesAt x.payload 8 1) ≤ r.sev))).flatMap eventBytes

theorem exec_eventRead (h : boxRuns s b x 0x0031 false) : ∃ head, exec (.eventRead b) s =
    .next (finishBox b stOk (natLe 32 head ++ readEvents x s) (boxTaken s)) :=
  ⟨_, takeBox_runs _ h⟩

end

/-! ## The diagnostic window (R228) -/

section
variable {s : State} {p : Port} {port at_ : Nat}

theorem exec_diagUnlock {b : Nat} {x : Mailbox} (h : boxRuns s b x 0x0040 true) : exec (.diagUnlock b) s = .next
    (finishBox b stOk [] (modPort (boxPort b) (fun p => { p with unlock := some (now s + 60000000000) }) (boxTaken s))) :=
  takeBox_runs _ h

theorem exec_diagUnlockExpiry (run : running s = true) (found : tfind s.host.ports port = some p)
    (unlocked : p.unlock = some at_) : exec (.diagUnlockExpiry port) s =
      .next (if at_ ≤ now s then modPort port (fun p => { p with unlock := none }) s else s) := by
  simp only [exec, execDiagUnlockExpiry, whenRunning, guard, run, found, unlocked, decide_eq_true_eq, if_true]

end

/-- Settles O38: each report is what its mailbox says at the end of its command; the unlock is the port's own. -/
theorem reportsAndUnlock : Obligations.ReportsAndUnlock := by
  intro s b x
  refine ⟨fun runs v area => ?_, fun runs => ?_, fun runs => ?_, fun p runs found => ?_, fun port p at_ run found unlocked => ?_⟩
  · refine ⟨fun few may => ?_, fun few denied => ?_, fun many => ?_⟩
    · refine ⟨_, exec_mbxJournalQuery runs area, ?_⟩
      simp only [if_neg (Nat.not_lt.mpr few), may, Bool.true_eq_false, if_false]
      obtain ⟨idle, status, len, payload⟩ := finishBox_says b stOk (queryOutput s _ _ _) (boxTaken s)
      exact ⟨⟨idle, status, len, payload⟩, len.trans (queryOutput_length ..)⟩
    · refine ⟨_, exec_mbxJournalQuery runs area, ?_⟩
      simp only [if_neg (Nat.not_lt.mpr few), denied, if_true]
      exact finishBox_says ..
    · refine ⟨_, exec_mbxJournalQuery runs area, ?_⟩
      simp only [if_pos many]
      exact finishBox_says ..
  · exact ⟨_, exec_ledgerSnapshot runs, finishBox_says .., finishBox_same _ _ _ _ (a := .jnl) (by decide)⟩
  · obtain ⟨head, read⟩ := exec_eventRead runs
    exact ⟨_, natLe 32 head, read, natLe_length .., finishBox_says .., finishBox_same _ _ _ _ (a := .evr) (by decide)⟩
  · have unlock := finishBox_unlock b stOk []
      (modPort (boxPort b) (fun p => { p with unlock := some (now s + 60000000000) }) (boxTaken s)) (boxPort b)
    rw [tfind_modPort_same, Option.map_map] at unlock
    obtain ⟨u, hu, until_⟩ := Option.map_eq_some_iff.mp (unlock.trans (congrArg (Option.map _) found))
    exact ⟨_, u, exec_diagUnlock runs, finishBox_says .., hu, until_⟩
  · rw [exec_diagUnlockExpiry run found unlocked]
    refine ⟨fun late => ⟨_, rfl, ?_⟩, fun early => by rw [if_neg (Nat.not_le.mpr early)]⟩
    rw [if_pos late, tfind_modPort_same, found, Option.map_some]

end Sys2Proof.Machine
end

section
/-! PROOFS. Completions that wait, the coalescing timer, and the end of a queue (R79, R240, R249, R264, R266). -/

namespace Sys2Proof.Machine

open Sys2Proof

/-! ## Queues -/

section
variable {s : State} {c : Nat} {q : Queue}

theorem ctxAt_setQueue_same (c : Nat) (q : Queue) (s : State) : ctxAt (setQueue c q s) c = { ctxAt s c with queue := some q } :=
  ctxAt_setCtx_same ..

theorem ctxAt_of_host {t : State} (h : t.host = s.host) (k : Nat) : ctxAt t k = ctxAt s k := by rw [ctxAt, h, ctxAt]

theorem ctxAt_msix (p v : Nat) (s : State) (k : Nat) : ctxAt (msix p v s) k = ctxAt s k :=
  ctxAt_of_hostTables (hostTables_msix s p v) k

/-- The vector is counted toward or signalled; of the queue its count of unsignalled entries alone changes (R249). -/
theorem signalQueue_queue (queue : (ctxAt s c).queue = some q) : ∃ n at_,
    (ctxAt (signalQueue c s) c).queue = some { q with unsig := n, unsigAt := at_ } := by
  simp only [signalQueue, queue]
  split
  · exact ⟨_, _, queue⟩
  · split
    · exact ⟨0, q.unsigAt, by rw [ctxAt_msix, ctxAt_setQueue_same]⟩
    · exact ⟨_, _, by rw [ctxAt_setQueue_same]⟩

theorem msix_out {o : Out} (p v : Nat) (sent : o ∈ s.out) : o ∈ (msix p v s).out := by
  unfold msix
  split
  · exact sent
  · split
    · exact sent
    · exact List.mem_append_left _ sent

theorem signalQueue_out {o : Out} (c : Nat) (sent : o ∈ s.out) : o ∈ (signalQueue c s).out := by
  unfold signalQueue
  split
  · exact sent
  · split
    · exact sent
    · split
      · exact msix_out _ _ sent
      · exact sent

/-! ## A completion that is written (R240) -/

/-- The queue after an entry at its tail. -/
def pastTail (q : Queue) : Queue :=
  { q with cqTail := if q.cqTail + 1 = q.cqSize then 0 else q.cqTail + 1,
           phase := if q.cqTail + 1 = q.cqSize then !q.phase else q.phase }

theorem writeCq_queue (c : Nat) (q : Queue) (e : Completion) (s : State) : ∃ n at_,
    (ctxAt (writeCq c q e s) c).queue = some { pastTail q with unsig := n, unsigAt := at_ } := by
  have delivered : ∀ u, (setDelivered e.session e.seq u).host = u.host := fun u =>
    (setDelivered_keeps (wB := [.jnl, .sessions]) (by decide)).mpr (Keeps.refl _ u) .host (by decide)
  refine signalQueue_queue ?_
  rw [ctxAt_of_host (delivered _), ctxAt_setQueue_same]
  simp only [pastTail, decide_eq_true_eq]

/-- The entry goes to the tail's place in host memory (R232). -/
theorem writeCq_out (c : Nat) (q : Queue) (e : Completion) (s : State) :
    Out.hostWrite q.port (q.cqBase + 32 * q.cqTail) false (completionEntry e q.fetch q.phase) ∈ (writeCq c q e s).out := by
  have delivered : ∀ u, (setDelivered e.session e.seq u).out = u.out := fun u =>
    (setDelivered_keeps (wB := [.jnl, .sessions]) (by decide)).mpr (Keeps.refl _ u) .out (by decide)
  refine signalQueue_out c ?_
  rw [delivered]
  exact List.mem_append_right _ (List.mem_singleton_self _)

/-- Held completions wait for a free slot (R79). -/
theorem exec_postHeldCompletion_full (queue : (ctxAt s c).queue = some q) (full : cqFree q = false) :
    exec (.postHeldCompletion c) s = .next s := by
  have stays : ∀ n, postHeld c n s = s := fun n => by
    cases n with
    | zero => rfl
    | succ n =>
      simp only [postHeld, queue, full, Bool.false_eq_true, false_and, if_false]
      split <;> rfl
  simp only [exec, execPostHeldCompletion, whenRunning, guard, queue, stays, ite_self]

variable (run : running s = true) (queue : (ctxAt s c).queue = some q)
include run queue

/-- One completion that waits is written, and no longer held (R79). -/
theorem exec_postHeldCompletion {e : Completion} (stage : s.boot.stage = 4) (held : q.held = [e]) (free : cqFree q = true)
    (up : portUp s q.port = true) : exec (.postHeldCompletion c) s =
      .next (writeCq c { q with held := [] } e (setQueue c { q with held := [] } s)) := by
  simp only [exec, execPostHeldCompletion, whenRunning, guard, run, queue, stage, held, decide_true, if_true,
    List.length_singleton, postHeld, free, up, and_self]

theorem exec_coalesceTimerExpiry (timed : q.coTime ≠ 0) (waits : q.unsig ≠ 0) (late : q.unsigAt + q.coTime * 1000 ≤ now s)
    (irq : q.irq = true) (stays : q.deleting = false) :
    exec (.coalesceTimerExpiry c) s = .next (msix q.port q.vector (setQueue c { q with unsig := 0 } s)) := by
  simp only [exec, execCoalesceTimerExpiry, whenRunning, guard, run, queue, timed, waits, late, irq, stays, ne_eq,
    not_false_eq_true, and_self, decide_true, Bool.not_false, Bool.and_self, if_true]

/-! ## The end of a queue (R264, R266) -/

theorem exec_queueDeleteComplete {id : Nat} (session : (ctxAt s c).session = some id) (deleting : q.deleting = true)
    (quiet : inflightOf s id = []) : exec (.queueDeleteComplete c) s = .next (finishDelete c s) := by
  simp only [exec, execQueueDeleteComplete, whenRunning, guard, run, queue, session, deleting, quiet, List.isEmpty_nil,
    Bool.and_self, if_true]

end

section
variable {s : State} {c id : Nat} {x : Session}

theorem sessFind_of_sessions {t : State} (h : t.sessions = s.sessions) (k : Nat) : sessFind t k = sessFind s k := by
  rw [sessFind, h, sessFind]

theorem ctxAt_finishBox (b status : Nat) (out : Bytes) (s : State) (k : Nat) : ctxAt (finishBox b status out s) k = ctxAt s k :=
  ctxAt_of_hostTables (t := finishBox b status out s) (hostTables_finishBox b status out s) k

/-- A released session is gone, and its context has neither session nor queue (R266). -/
theorem releaseSession_gone (found : sessFind s id = some x) :
    sessFind (releaseSession id s) id = none ∧ (ctxAt (releaseSession id s) x.ctx).queue = none := by
  simp only [releaseSession, found, ctxAt_setCtx_same, and_true]
  exact tfind_tdel_same _ _

/-- The state in which the context's queue is gone and its session deleted (R264), before the mailbox is answered. -/
def queueGone (c id : Nat) (s : State) : State :=
  setCtx c { ctxAt s c with queue := none } (modSess id (fun y => { y with deleted := true }) s)

/-- The mailbox that asked for the deletion is answered; after a reset of its port there is none (R255). -/
def answerDelete (box : Option Nat) (out : Bytes) (s : State) : State :=
  match box with
  | some b => finishBox b stOk out s
  | none => s

theorem answerDelete_keeps (box : Option Nat) (out : Bytes) (s : State) : Keeps [.host, .out] s (answerDelete box out s) := by
  cases box with
  | none => exact Keeps.refl _ s
  | some b => exact (finishBox_keeps (by decide)).mpr (Keeps.refl _ s)

theorem ctxAt_answerDelete (box : Option Nat) (out : Bytes) (s : State) (k : Nat) :
    ctxAt (answerDelete box out s) k = ctxAt s k := by
  cases box with
  | none => rfl
  | some b => exact ctxAt_finishBox b stOk out s k

/-- A deletion ends in these steps: the queue goes, the mailbox that asked is answered, and a session to be released is. -/
theorem finishDelete_eq {q : Queue} (session : (ctxAt s c).session = some id) (queue : (ctxAt s c).queue = some q)
    (found : sessFind s id = some x) : ∃ u, finishDelete c s = (if x.release then releaseSession id u else u) ∧
      sessFind u id = some { x with deleted := true } ∧ (ctxAt u c).queue = none := by
  refine ⟨answerDelete q.box (natLe 4 x.highest ++ natLe 4 (watermark s id x)) (queueGone c id s), ?_, ?_, ?_⟩
  · cases box : q.box <;> simp only [finishDelete, session, queue, found, box, answerDelete, queueGone]
  · rw [sessFind_of_sessions (answerDelete_keeps _ _ _ .sessions (by decide))]
    exact (tfind_tadj_same _ _ _).trans (congrArg (Option.map _) found)
  · rw [ctxAt_answerDelete, queueGone, ctxAt_setCtx_same]

end

/-- Settles O23: a posted completion is one entry written at the tail, a deletion the steps of `finishDelete_eq`. -/
theorem queuesPostAndEnd : Obligations.QueuesPostAndEnd := by
  intro s ctx q run queue
  refine ⟨fun e stage held free up => ?_, fun _ _ full => exec_postHeldCompletion_full queue full,
    fun timed waits late irq stays => ?_, fun id x session deleting quiet found => ?_⟩
  · obtain ⟨n, at_, posted⟩ := writeCq_queue ctx { q with held := [] } e (setQueue ctx { q with held := [] } s)
    exact ⟨_, _, exec_postHeldCompletion run queue stage held free up, posted, rfl, rfl, writeCq_out ..⟩
  · exact ⟨_, exec_coalesceTimerExpiry run queue timed waits late irq stays, by rw [ctxAt_msix, ctxAt_setQueue_same]⟩
  · obtain ⟨u, ends, deleted, empty⟩ := finishDelete_eq session queue found
    refine ⟨_, exec_queueDeleteComplete run queue session deleting quiet, fun kept => ?_, fun released => ?_⟩
    · rw [ends, kept]
      exact ⟨empty, _, deleted, rfl⟩
    · rw [ends, released]
      exact releaseSession_gone (x := { x with deleted := true }) deleted

end Sys2Proof.Machine
end

section
/-! PROOFS. What no step undoes (R106, R544, R611, R621): the relation between two states, what leaves it alone, and the commit
steps. -/

namespace Sys2Proof.Machine

open Sys2Proof

-- Proofs elaborated side by side wait on one another's lemmas, each in a thread of its own; in order, one thread does.
set_option Elab.async false

/-! ## What stays for good -/

/-- The values of a state that no step undoes. -/
structure Lasting where
  locked : Bool
  kik : Option (BitVec 256)
  counter : Nat
  cycles : Nat
  opNs : Nat
  commits : Nat

def lasting (s : State) : Lasting :=
  { locked := s.xts.kikLocked, kik := s.xts.kik, counter := s.upd.counter, cycles := s.clk.cycles, opNs := s.clk.opNs,
    commits := s.commits }

/-- From `a` to `s`, a locked key-import key has stayed, and no count has fallen. -/
structure Lasting.Le (a s : Lasting) : Prop where
  key : a.locked = true → s.locked = true ∧ s.kik = a.kik
  counter : a.counter ≤ s.counter
  cycles : a.cycles ≤ s.cycles
  opNs : a.opNs ≤ s.opNs
  commits : a.commits ≤ s.commits

/-- The areas that hold nothing of what stays for good. -/
def passing : List Area :=
  [.pending, .boot, .cores, .buf, .dlr, .jnl, .sessions, .nss, .ante, .host, .lanes, .wake, .fab, .fabc, .idx, .cam, .med, .mem,
   .pwr, .evr, .ist, .frz, .out, .draws]

/-- From `a` to `s` nothing has been undone that stays for good. It is said with `Keeps`, so that the frames `f_keeps` take off
the end of a chain the operations that change nothing of it. -/
def Onward (a s : State) : Prop := ∃ t, (lasting a).Le (lasting t) ∧ Keeps passing t s

section
variable {a s t : State}

theorem lasting_of_keeps (k : Keeps passing s t) : lasting t = lasting s := by
  have xts : t.xts = s.xts := k .xts (by decide)
  have upd : t.upd = s.upd := k .upd (by decide)
  have clk : t.clk = s.clk := k .clk (by decide)
  have commits : t.commits = s.commits := k .commits (by decide)
  simp only [lasting, xts, upd, clk, commits]

theorem onward_iff : Onward a s ↔ (lasting a).Le (lasting s) :=
  ⟨fun ⟨_, le, k⟩ => lasting_of_keeps k ▸ le, fun le => ⟨s, le, Keeps.refl _ _⟩⟩

theorem Onward.refl (s : State) : Onward s s :=
  onward_iff.mpr ⟨fun locked => ⟨locked, rfl⟩, le_rfl, le_rfl, le_rfl, le_rfl⟩

/-- A change inside the four areas that leaves what stays for good as it is. -/
theorem Onward.same (h : Onward a s) (e : lasting t = lasting s := by rfl) : Onward a t :=
  onward_iff.mpr (e ▸ onward_iff.mp h)

/-- A record update of other areas. -/
theorem keeps_passing {pending boot cores buf dlr jnl sessions nss ante host lanes wake fab fabc idx cam med mem pwr evr ist frz
    out draws} :
    Keeps passing a ⟨pending, s.clk, boot, cores, buf, dlr, jnl, sessions, nss, s.commits, ante, host, lanes, wake, fab, fabc, idx,
      cam, med, mem, s.xts, pwr, s.upd, evr, ist, frz, out, draws⟩ ↔ Keeps passing a s := by
  refine Keeps.peel (v := passing) (fun p hp => ?_) (by decide)
  cases p
  case clk | commits | xts | upd => rfl
  all_goals exact absurd (by decide) hp

/-- Updates of the areas that hold what stays for good, of other fields of theirs. -/
theorem onward_xts {x : Cipher} (h : Onward a s) (locked : x.kikLocked = s.xts.kikLocked := by rfl)
    (kik : x.kik = s.xts.kik := by rfl) : Onward a { s with xts := x } :=
  h.same (by simp only [lasting, locked, kik])

theorem onward_upd {u : Update} (h : Onward a s) (counter : u.counter = s.upd.counter := by rfl) : Onward a { s with upd := u } :=
  h.same (by simp only [lasting, counter])

theorem onward_clk {c : Clk} (h : Onward a s) (cycles : c.cycles = s.clk.cycles := by rfl) (opNs : c.opNs = s.clk.opNs := by rfl) :
    Onward a { s with clk := c } :=
  h.same (by simp only [lasting, cycles, opNs])

theorem onward_each {α : Type} {f : α → State → State} (hf : ∀ x {s}, Onward a s → Onward a (f x s)) (l : List α)
    (h : Onward a s) : Onward a (each f l s) := by
  induction l generalizing s with
  | nil => exact h
  | cons x l ih => exact ih (hf x h)

theorem onward_ite {c : Prop} [Decidable c] (hs : Onward a s) (ht : Onward a t) : Onward a (if c then s else t) := by
  split
  · exact hs
  · exact ht

theorem onward_guard {c : Bool} {f : State → State} (h : Onward a s) (hf : Onward a (f s)) : Onward a (guard c f s) :=
  onward_ite hf h

/-- Where there is a next state at all. -/
def OnwardIf (a : State) (o : Option State) : Prop := ∀ t, o = some t → Onward a t

theorem onwardIf_none : OnwardIf a none := fun _ e => nomatch e

theorem onwardIf_some (h : Onward a s) : OnwardIf a (some s) := fun _ e => Option.some.inj e ▸ h

theorem onwardIf_ite {c : Prop} [Decidable c] {o p : Option State} (ho : OnwardIf a o) (hp : OnwardIf a p) :
    OnwardIf a (if c then o else p) := by
  split
  · exact ho
  · exact hp

theorem onwardIf_past {o : Option State} (h : Onward a s) (k : ∀ {t}, o = some t → (Keeps passing s t ↔ Keeps passing s s)) :
    OnwardIf a o :=
  fun _ e => h.same (lasting_of_keeps ((k e).mpr (Keeps.refl _ _)))

theorem onward_getD {o : Option State} (ho : OnwardIf a o) (h : Onward a s) : Onward a (o.getD s) := by
  cases o with
  | none => exact h
  | some t => exact ho t rfl

/-! ## Commit steps (R106) -/

theorem onward_countCommit (h : Onward a s) : Onward a (countCommit s) :=
  have le := onward_iff.mp h
  onward_iff.mpr ⟨le.key, le.counter, le.cycles, le.opNs, le.commits.trans (Nat.le_succ _)⟩

theorem onward_commitTomb {r : Record} {at_ : Rest} (h : Onward a s) : Onward a (commitTomb r at_ s) := by
  simp (disch := decide) only [Onward, commitTomb, placeTomb_keeps, countTomb_keeps, indexRemove_keeps]
  exact onward_countCommit (by simpa (disch := decide) only [Onward, countObject_keeps] using h)

theorem onward_commitValue {r : Record} {at_ : Rest} (h : Onward a s) : Onward a (commitValue r at_ s) := by
  have counted : ∀ old, Onward a (countCommit (countObject r.ns old (some r.value.length) s)) := fun _ =>
    onward_countCommit (by simpa (disch := decide) only [Onward, countObject_keeps] using h)
  cases at_ with
  | flash addr => 
    simp (disch := decide) only [Onward, commitValue, indexPut_keeps, keeps_passing]
    exact counted _
  | buffer set kitty owner =>
    simp (disch := decide) only [Onward, commitValue, placeRecord_keeps, indexPut_keeps, holdRecord_keeps1]
    exact counted _

theorem onward_commitRecord {r : Record} {at_ : Rest} (h : Onward a s) : Onward a (commitRecord r at_ s) := by
  unfold commitRecord
  split
  · exact onward_commitTomb h
  · exact onward_commitValue h

theorem onward_applyEffect {f : InFlight} {e : Effect} (h : Onward a s) : Onward a (applyEffect f e s) := by
  unfold applyEffect
  split
  · simpa (disch := decide) only [Onward, commitHint_keeps] using h
  · split
    · simpa (disch := decide) only [Onward, kittyCancel_keeps] using h
    · split
      · split
        · exact onward_commitRecord h
        · exact h
      · simp (disch := decide) only [Onward, settleKitty_keeps]
        exact onward_commitRecord h

theorem onward_commitFlight {f : InFlight} (h : Onward a s) : Onward a (commitFlight f s) := by
  have effect := onward_applyEffect (f := f) (e := f.plan.effect) h
  have none : Onward a (noEffect f s) := by simpa (disch := decide) only [Onward, noEffect_keeps] using h
  unfold commitFlight
  split
  · split
    · simpa (disch := decide) only [Onward, recordOutcome_keeps] using effect
    · simpa (disch := decide) only [Onward, recordOutcome_keeps] using none
  · split
    · split
      · simpa (disch := decide) only [Onward, tellHolders_keeps, recordOutcome_keeps] using effect
      · simpa (disch := decide) only [Onward, tellHolders_keeps, recordOutcome_keeps] using none
    · simpa (disch := decide) only [Onward, recordOutcome_keeps, returnOrder_keeps] using none

theorem onward_commitGroup {f : InFlight} (h : Onward a s) : Onward a (commitGroup f s) := by
  unfold commitGroup
  split
  · exact onward_commitFlight h
  · split
    · exact h
    · exact onward_each (fun _ _ => onward_commitFlight) _ h

theorem onward_tryCommit {id seq : Nat} (h : Onward a s) : Onward a (tryCommit id seq s) := by
  unfold tryCommit
  split
  · exact h
  · split
    · exact h
    · split
      · exact onward_commitGroup h
      · exact h

/-! ## Shards that are committed, resolved or rebuilt (ch 06) -/

theorem onward_commitPend {p : Pending} (h : Onward a s) : Onward a (commitPend p s) := by
  have dropped : Onward a (dropPend p s) := by simpa (disch := decide) only [Onward, dropPend_keeps] using h
  unfold commitPend
  dsimp only
  split
  · simpa (disch := decide) only [Onward, kittyCancel_keeps, undebit_keeps] using dropped
  · split
    · exact onward_commitRecord dropped
    · simp (disch := decide) only [Onward, settleKitty_keeps]
      exact onward_commitRecord dropped

theorem onward_settleOne {p : Pending} {ok : Bool} (h : Onward a s) : Onward a (settleOne p ok s) := by
  have settled : Onward a (if ok then commitPend p s else discardPend p s) := by
    split
    · exact onward_commitPend h
    · simpa (disch := decide) only [Onward, discardPend_keeps] using h
  simpa (disch := decide) only [Onward, settleOne, reqDone_keeps] using settled

theorem onward_settlePend {ns d : Nat} {x : Stamp} {ok : Bool} (h : Onward a s) : Onward a (settlePend ns d x ok s) := by
  unfold settlePend
  split
  · exact h
  · exact onward_settleOne h

theorem onward_reqDone {id seq st : Nat} (h : Onward a s) : Onward a (reqDone id seq st s) := by
  simpa (disch := decide) only [Onward, reqDone_keeps] using h

theorem onward_runReq {id seq : Nat} {x : Session} {q : FabReq} (h : Onward a s) : Onward a (runReq id seq x q s) := by
  cases q with
  | creditReturn n => exact onward_reqDone (by simpa (disch := decide) only [Onward, kittyCancel_keeps] using h)
  | hold sh slot medium => simpa (disch := decide) only [Onward, runReq, holdPend_keeps] using h
  | commit ns d t => exact onward_reqDone (onward_settlePend h)
  | discard ns d t => exact onward_reqDone (onward_settlePend h)
  | decide ns d t ok =>
    have recorded : ∀ v, Onward a (recordHere ns d t ok v (kittyCancel 512 s)) := fun _ => by
      simpa (disch := decide) only [Onward, recordHere_keeps, kittyCancel_keeps] using h
    refine onward_reqDone ?_
    split
    · split
      · exact onward_settlePend (recorded _)
      · exact recorded _
    · exact recorded _
  | read ns key =>
    exact onward_reqDone (by simpa (disch := decide) only [Onward, returnShard_keeps, kittyCancel_keeps] using h)
  | rebuild sh =>
    unfold runReq
    dsimp only
    split
    · exact onward_reqDone (by simpa (disch := decide) only [Onward, kittyCancel_keeps] using h)
    · refine onward_reqDone ?_
      simp (disch := decide) only [Onward, settleKitty_keeps]
      exact onward_commitRecord (by simpa (disch := decide) only [Onward, debitShard_keeps1, rebuildAntes_keeps] using h)
  | invalid => exact h

theorem onward_acceptReq {id seq : Nat} {q : FabReq} (h : Onward a s) : Onward a (acceptReq id seq q s) := by
  unfold acceptReq
  split
  · exact h
  · exact onward_runReq (by simpa (disch := decide) only [Onward, redebit_keeps, modSess_keeps] using h)

theorem onward_replay {id n : Nat} (h : Onward a s) : Onward a (replay id n s) := by
  induction n generalizing s with
  | zero => exact h
  | succ n ih =>
    unfold replay
    split
    · exact h
    · split
      · exact h
      · dsimp only
        split
        · simpa (disch := decide) only [Onward, keeps_passing, refuseReq_keeps] using h
        · exact ih (onward_acceptReq h.same)

theorem onward_arriveReq {id seq wanted : Nat} {q : FabReq} (h : Onward a s) : Onward a (arriveReq id seq wanted q s) := by
  unfold arriveReq
  split
  · exact h
  split
  case h_2 => exact h
  split
  · exact h
  split
  · split
    · simpa (disch := decide) only [Onward, refuseReq_keeps] using h
    · split
      · exact h
      · exact onward_replay (onward_acceptReq (by simpa (disch := decide) only [Onward, raiseGrant_keeps] using h))
  split
  · split
    · split
      · simpa (disch := decide) only [Onward, ackFrame_keeps] using h
      · split
        · exact h
        · exact h.same
    · simpa (disch := decide) only [Onward, keeps_passing, ackFrame_keeps] using h
  · simpa (disch := decide) only [Onward, duplicateReq_keeps] using h

theorem onward_goOn {session seq : Nat} (h : Onward a s) : Onward a (goOn session seq s) := by
  unfold goOn
  split
  · exact h
  · split
    · exact onward_tryCommit (by simpa (disch := decide) only [Onward, runKeyed_keeps] using h)
    · exact h

theorem onward_modProt {id seq : Nat} {g : Protect → Protect} (h : Onward a s) : Onward a (modProt id seq g s) := by
  simpa (disch := decide) only [Onward, modProt_keeps] using h

theorem onward_takeShard {f : InFlight} {p : Protect} {holder : Nat} {committed : Bool} {sh : Shard} (h : Onward a s) :
    Onward a (takeShard f p holder committed sh s) := by
  unfold takeShard
  split
  · exact onward_goOn (onward_modProt h)
  · dsimp only
    split
    · exact onward_goOn (onward_modProt h)
    · split
      · exact onward_modProt h
      · simpa (disch := decide) only [Onward, sendRequest_keeps, modProt_keeps] using h

theorem onward_storeRebuilt {sh : Shard} (h : Onward a s) (stored : storeRebuilt sh s = some t) : Onward a t := by
  unfold storeRebuilt at stored
  dsimp only at stored
  split at stored
  · cases stored
  · split at stored
    · cases stored
    · next debited =>
      cases stored
      simp (disch := decide) only [Onward, settleKitty_keeps]
      exact onward_commitRecord (by simpa (disch := decide) only [Onward, kittyReserve_keeps, makeDebits_keeps debited] using h)

theorem onward_rebuildOn {o : Owed} {sh : Shard} (h : Onward a s) : Onward a (rebuildOn o sh s) := by
  unfold rebuildOn
  split
  · split
    · exact h
    · next found =>
      split at found
      · cases found
        simpa (disch := decide) only [Onward, keeps_passing, settleRebuild_keeps] using h
      · simpa (disch := decide) only [Onward, keeps_passing, settleRebuild_keeps] using onward_storeRebuilt h found
  · simpa (disch := decide) only [Onward, sendRequest_keeps] using h

theorem onward_rebuildFrom {o : Owed} {i : Nat} (h : Onward a s) : Onward a (rebuildFrom o i s) := by
  unfold rebuildFrom
  dsimp only
  split
  · simpa (disch := decide) only [Onward, askSources_keeps] using h
  · split
    · exact h
    · unfold rebuildShard
      split
      · exact h
      · next taken =>
        exact onward_rebuildOn (by simpa (disch := decide) only [Onward, dropGathered_keeps, takeAntes_keeps taken] using h)

/-! ## Rows that reach flash (ch 09) -/

theorem onward_writeLanded {id seq : Nat} (h : Onward a s) : Onward a (writeLanded id seq s) := by
  unfold writeLanded
  dsimp only
  split
  · simpa (disch := decide) only [Onward, modFlight_keeps] using h
  · refine onward_tryCommit ?_
    split
    · simpa (disch := decide) only [Onward, tryDecide_keeps, modFlight_keeps] using h
    · simpa (disch := decide) only [Onward, modFlight_keeps] using h

theorem onward_recordLanded {x : Placed} (h : Onward a s) : Onward a (recordLanded x s) := by
  unfold recordLanded
  split
  · simpa (disch := decide) only [Onward, keeps_passing, kittyFree_keeps, onFlash_keeps] using h
  · simpa (disch := decide) only [Onward, keeps_passing, copyLanded_keeps, onFlash_keeps] using h
  · simpa (disch := decide) only [Onward, systemLanded_keeps, onFlash_keeps] using h
  · split
    · simpa (disch := decide) only [Onward, shardLanded_keeps] using h
    · exact onward_writeLanded h
  · exact h

theorem onward_rowDone {n r : Nat} (h : Onward a s) : Onward a (rowDone n r s) := by
  simp (disch := decide) only [Onward, rowDone, settleMeld_keeps]
  refine onward_each (fun _ _ => onward_recordLanded) _ ?_
  simpa (disch := decide) only [Onward, setMeld_keeps, keeps_passing] using h

end

end Sys2Proof.Machine
end

section
/-! PROOFS. What no step undoes: the cipher block, the settings, admission, and the registers. -/

namespace Sys2Proof.Machine

open Sys2Proof

-- Proofs elaborated side by side wait on one another's lemmas, each in a thread of its own; in order, one thread does.
set_option Elab.async false

section
variable {a s t : State}

/-! ## Cipher engines, generators and keys (ch 11) -/

theorem onward_event {code : Nat} {payload : List Nat} (h : Onward a s) : Onward a (event code payload s) := by
  simpa (disch := decide) only [Onward, event_keeps] using h

theorem onward_setEngine {n : Nat} {e : Engine} (h : Onward a s) : Onward a (setEngine n e s) := h.same

theorem onward_grantEngine {n : Nat} {m : Msg} (h : Onward a s) : Onward a (grantEngine n m s) := onward_setEngine h

theorem onward_waitClaim {m : Msg} (h : Onward a s) : Onward a (waitClaim m s) := h.same

theorem onward_blocksReleased {n k : Nat} (h : Onward a s) : Onward a (blocksReleased n k s) := by
  unfold blocksReleased
  exact onward_xts (onward_setEngine h)

theorem onward_grantWaiting {k : Nat} (h : Onward a s) : Onward a (grantWaiting k s) := by
  induction k generalizing s with
  | zero => exact h
  | succ k ih =>
    unfold grantWaiting
    split
    · exact ih (onward_grantEngine h.same)
    · exact h

theorem onward_suspendEngine {n : Nat} {m : Msg} (h : Onward a s) : Onward a (suspendEngine n m s) := by
  unfold suspendEngine
  refine onward_waitClaim ?_
  simp (disch := decide) only [Onward, emit_keeps]
  exact onward_xts (onward_setEngine (onward_blocksReleased h))

theorem onward_takeOver {n : Nat} {v m : Msg} (h : Onward a s) : Onward a (takeOver n v m s) :=
  onward_ite (onward_grantEngine (onward_blocksReleased h)) (onward_setEngine (onward_suspendEngine h))

theorem onward_claim {m : Msg} (h : Onward a s) : Onward a (claim m s) := by
  unfold claim
  split
  · exact onward_grantEngine h
  · refine onward_ite ?_ (onward_waitClaim (onward_xts h))
    split
    · split
      · exact onward_takeOver (onward_xts h)
      · exact onward_xts h
    · exact onward_waitClaim (onward_xts h)

theorem onward_retireEngine {n : Nat} {c : EngineCause} (h : Onward a s) : Onward a (retireEngine n c s) := by
  unfold retireEngine
  refine onward_ite h ?_
  dsimp only
  refine onward_ite (onward_event (onward_grantWaiting (onward_event ?_))) (onward_grantWaiting (onward_event ?_))
  all_goals exact onward_xts (onward_setEngine (onward_blocksReleased h))

/-! ## Settings (R252, R254, R324, R544) -/

theorem onwardIf_pageIf {ok : Bool} (h : Onward a s) : OnwardIf a (pageIf ok s) := onwardIf_ite (onwardIf_some h) onwardIf_none

theorem onward_leaveFree {ns : Nat} {x : Namespace} (h : Onward a s) : Onward a (leaveFree ns x s) := onward_ite h.same h.same

theorem onwardIf_write0201 {ns v : Nat} (h : Onward a s) : OnwardIf a (write0201 s ns v) := by
  have set {y} : Onward a (setNs ns y s) := h.same
  have released {y} : Onward a (beginRelease ns (setNs ns y s)) := by
    simp (disch := decide) only [Onward, beginRelease_keeps]
    exact set
  unfold write0201
  exact onwardIf_ite onwardIf_none (onwardIf_ite
    (onwardIf_ite (onwardIf_pageIf (onward_leaveFree h)) (onwardIf_some set)) (onwardIf_ite (onwardIf_some set) (onwardIf_ite
      (onwardIf_ite (onwardIf_some released) (onwardIf_some set)) (onwardIf_some set))))

theorem onward_stepTime {n : Nat} (h : Onward a s) : Onward a (stepTime n s) := h.same

theorem onwardIf_setTime {n : Nat} (h : Onward a s) : OnwardIf a (setTime n s) := by
  unfold setTime
  exact onwardIf_ite onwardIf_none (onwardIf_ite (onwardIf_pageIf (onward_stepTime h)) (onwardIf_pageIf h.same))

theorem onwardIf_write0502 {v : Nat} (h : Onward a s) : OnwardIf a (write0502 s v) := by
  unfold write0502
  exact onwardIf_ite onwardIf_none (onwardIf_ite (onwardIf_some h.same) (onwardIf_setTime h.same))

/-- The page of the key-import key installs none over a locked one (R544). -/
theorem onwardIf_write0900 {v : Nat} (h : Onward a s) : OnwardIf a (write0900 s v) := by
  intro t e
  unfold write0900 pageIf at e
  dsimp only at e
  split at e
  case isFalse => cases e
  case isTrue ok =>
    cases e
    have le := onward_iff.mp h
    refine onward_iff.mpr ⟨fun locked => ?_, le.counter, le.cycles, le.opNs, le.commits⟩
    obtain ⟨stays, kik⟩ := le.key locked
    have stays : s.xts.kikLocked = true := stays
    have none : bits v 319 64 = 0 := by
      simp only [stays, Bool.and_true, Bool.and_eq_true, Bool.not_eq_true', decide_eq_false_iff_not, not_not] at ok
      exact ok.1.2
    exact ⟨by simp [lasting, stays], by simpa [lasting, none] using kik⟩

theorem onwardIf_write0901 {n v : Nat} (h : Onward a s) : OnwardIf a (write0901 s n v) := by
  have imported {o : Option (BitVec 512)} : OnwardIf a (o.map (fun k => loadKey n k true s)) := fun t e => by
    obtain ⟨k, -, rfl⟩ := Option.map_eq_some_iff.mp e
    exact onward_xts h
  have import_ : OnwardIf a (match s.xts.kik with
      | none => none
      | some kik => (importedKey kik (bits v 703 128)).map (fun k => loadKey n k true s)) := by
    split
    · exact onwardIf_none
    · exact imported
  unfold write0901
  exact onwardIf_ite onwardIf_none (onwardIf_ite (onwardIf_some h) (onwardIf_ite onwardIf_none
    (onwardIf_ite (onwardIf_pageIf h.same) (onwardIf_ite import_ (onwardIf_some (onward_xts h))))))

theorem onwardIf_pageWriteLast {page n v : Nat} (h : Onward a s) : OnwardIf a (pageWriteLast s page n v) := by
  unfold pageWriteLast
  split
  · exact onwardIf_past h fun e => write0800_keeps e (by decide)
  · exact onwardIf_write0900 h
  · exact onwardIf_write0901 h
  · exact onwardIf_past h fun e => write0a00_keeps e (by decide)
  · exact onwardIf_pageIf (onward_upd h)
  · exact onwardIf_past h fun e => write0b01_keeps e (by decide)
  · exact onwardIf_past h fun e => write0b02_keeps e (by decide)
  · exact onwardIf_past h fun e => write0b03_keeps e (by decide)
  · exact onwardIf_some h

theorem onwardIf_pageWriteIndex {page n v : Nat} (h : Onward a s) : OnwardIf a (pageWriteIndex s page n v) := by
  unfold pageWriteIndex
  split
  · exact onwardIf_past h fun e => write0600_keeps e (by decide)
  · exact onwardIf_past h fun e => write0601_keeps e (by decide)
  · exact onwardIf_past h fun e => write0602_keeps e (by decide)
  · exact onwardIf_past h fun e => write0700_keeps e (by decide)
  · exact onwardIf_past h fun e => write0701_keeps e (by decide)
  · exact onwardIf_pageWriteLast h

theorem onwardIf_pageWriteFabric {page n v : Nat} (h : Onward a s) : OnwardIf a (pageWriteFabric s page n v) := by
  unfold pageWriteFabric
  split
  · exact onwardIf_past h fun e => write0500_keeps e (by decide)
  · exact onwardIf_write0502 h
  · exact onwardIf_past h fun e => write0503_keeps e (by decide)
  · exact onwardIf_past h fun e => write0504_keeps e (by decide)
  · exact onwardIf_past h fun e => write0505_keeps e (by decide)
  · exact onwardIf_pageWriteIndex h

theorem onwardIf_pageWrite {page n v : Nat} (h : Onward a s) : OnwardIf a (pageWrite s page n v) := by
  unfold pageWrite
  split
  · exact onwardIf_past h fun e => write0104_keeps e (by decide)
  · exact onwardIf_past h fun e => write0105_keeps e (by decide)
  · exact onwardIf_past h fun e => write0106_keeps e (by decide)
  · exact onwardIf_past h fun e => write0107_keeps e (by decide)
  · exact onwardIf_write0201 h
  · exact onwardIf_past h fun e => write0300_keeps e (by decide)
  · exact onwardIf_past h fun e => write0301_keeps e (by decide)
  · exact onwardIf_past h fun e => write0302_keeps e (by decide)
  · exact onwardIf_past h fun e => write0400_keeps e (by decide)
  · exact onwardIf_past h fun e => write0401_keeps e (by decide)
  · exact onwardIf_pageWriteFabric h

theorem onward_finishBox {b st : Nat} {out : Bytes} (h : Onward a s) : Onward a (finishBox b st out s) := by
  simpa (disch := decide) only [Onward, finishBox_keeps] using h

theorem onward_settingWrite {b : Nat} {x : Mailbox} (h : Onward a s) : Onward a (settingWrite b x s) := by
  unfold settingWrite
  split
  · exact onward_finishBox h
  · refine onward_ite (onward_finishBox h) (onward_ite (onward_finishBox h) ?_)
    split
    · exact onward_finishBox h
    · next e => exact onward_finishBox (onwardIf_pageWrite h _ e)

theorem onward_takeBox {b : Nat} {sel : Mailbox → Bool} {managed : Bool} {f : Mailbox → State → State} (h : Onward a s)
    (hf : ∀ x {u}, Onward a u → Onward a (f x u)) : Onward a (takeBox b sel managed f s) :=
  have taken : Onward a (boxTaken s) := h.same
  takeBox_cases h (fun _ => onward_finishBox taken) (fun _ => hf _ taken)

/-! ## Admission (R57, R106): it takes a stamp -/

theorem onward_acceptOne {cls bound : Nat} {set : Option Nat} {wait : Bool} {p : Job × Bill} (h : Onward a s) :
    Onward a (acceptOne cls bound set wait p s) := by
  simp (disch := decide) only [Onward, acceptOne, takeStage_keeps, placeMediumRow_keeps, takeOrder_keeps, countWrite_keeps,
    enterOverlap_keeps, accept_keeps]
  exact onward_clk h.same

theorem onward_acceptStep {id cls bound : Nat} {set : Option Nat} {wait : Bool} {l : List (Job × Bill)} {seqs : List Nat}
    (h : Onward a s) : Onward a (acceptStep id cls bound set wait l seqs s) := by
  simp (disch := decide) only [Onward, acceptStep, modSess_keeps, dropArrived_keeps]
  refine onward_each (fun _ _ => onward_acceptOne) _ ?_
  simp (disch := decide) only [Onward, kittyReserve_keeps]
  split
  · next debited => simpa (disch := decide) only [Onward, debitAll_keeps debited] using h
  · exact h

theorem onward_refuseStep {id : Nat} {x : Session} {items : List Arrived} {st time seq : Nat} (h : Onward a s) :
    Onward a (refuseStep id x items st time seq s) := by
  simpa (disch := decide) only [Onward, refuseStep_keeps] using h

theorem onward_decideShape {cls bound qos : Nat} {who : Owner} {shape : List Cost} {from_ : Nat} {answer : Answer}
    (h : Onward a s) (e : decideShape cls bound qos who shape from_ s = (t, answer)) : Onward a t := by
  simpa (disch := decide) only [Onward, decideShape_keeps e] using h

theorem onward_lateExit (h : Onward a s) : Onward a (refuseRetry (startExit (countRequest s))) := by
  simpa (disch := decide) only [Onward, refuseRetry_keeps, startExit_keeps, countRequest_keeps] using h

theorem onward_anteStep {id : Nat} {x : Session} {items : List Arrived} {j : Job} {members : List Job} (h : Onward a s) :
    Onward a (anteStep id x items j members s) := by
  unfold anteStep
  dsimp only
  refine onward_ite ?_ ?_
  · exact onward_refuseStep (onward_lateExit h)
  · split
    · next shape => exact onward_refuseStep (onward_decideShape h shape)
    · next shape => exact onward_refuseStep (onward_decideShape h shape)
    · next shape =>
      split
      · refine onward_refuseStep ?_
        simp (disch := decide) only [Onward, keeps_passing, refuseRetry_keeps, withoutGrant_keeps]
        exact onward_decideShape h shape
      · exact onward_acceptStep (onward_decideShape h shape)

theorem onward_admitOrdered {id : Nat} {x : Session} {items : List Arrived} {j : Job} {members : List Job} {cls : Nat}
    {jobs : List Job} (h : Onward a s) : Onward a (admitOrdered id x items j members cls jobs s) := by
  have asked : Onward a (askOrders cls (boundOf s cls) jobs s) := by simpa (disch := decide) only [Onward, askOrders_keeps] using h
  unfold admitOrdered
  dsimp only
  split
  · exact asked
  · split
    · have noted {c : Prop} [Decidable c] := onward_ite (c := c) (onward_event (code := 0x0A03) (payload := []) asked) asked
      refine onward_refuseStep (onward_ite ?_ noted)
      simp (disch := decide) only [Onward, refuseRetry_keeps]
      exact noted
    · exact onward_anteStep asked

theorem onward_admitPeers {id : Nat} {x : Session} {items : List Arrived} {j : Job} {members : List Job}
    {trial : Bill × List Bill} {seq cls : Nat} {jobs : List Job} (h : Onward a s) :
    Onward a (admitPeers id x items j members trial seq cls jobs s) := by
  unfold admitPeers
  refine onward_ite (onward_refuseStep ?_) (onward_ite (onward_refuseStep ?_) (onward_ite ?_ (onward_admitOrdered h)))
  · simpa (disch := decide) only [Onward, refuseNever_keeps, startExit_keeps, countRequest_keeps] using h
  · simpa (disch := decide) only [Onward, refuseRetry_keeps, keeps_passing] using h
  · exact onward_each (fun _ _ h => by simpa (disch := decide) only [Onward, openPeer_keeps] using h) _ h

theorem onward_admitItems {id : Nat} {x : Session} {items : List Arrived} (h : Onward a s) :
    Onward a (admitItems id x items s) := by
  have touched : Onward a (touchCtx x.ctx s) := by simpa (disch := decide) only [Onward, touchCtx_keeps] using h
  have counted {k b u} (hu : Onward a u) : Onward a (countClassify k b u) := by
    simpa (disch := decide) only [Onward, countClassify_keeps] using hu
  unfold admitItems
  split
  · exact h
  dsimp only
  split
  · exact onward_refuseStep touched
  have classified {l : List (Nat × Cmd)} {f : Nat × Cmd → Nat} {g : Nat × Cmd → Bytes} {k b} :=
    onward_each (f := fun p => countClassify (f p) (g p)) (fun _ _ => counted) l (counted (k := k) (b := b) touched)
  refine onward_ite (onward_refuseStep classified) ?_
  split
  · exact onward_refuseStep classified
  split
  · exact onward_refuseStep classified
  · exact onward_admitPeers classified

end
end Sys2Proof.Machine
end

section
/-! PROOFS. What no step undoes: lanes and registers, ledgers and tests, the supply, the firmware update and the boot. -/

namespace Sys2Proof.Machine

open Sys2Proof

-- Proofs elaborated side by side wait on one another's lemmas, each in a thread of its own; in order, one thread does.
set_option Elab.async false

section
variable {a s t : State}

/-! ## Time from the master, and registers that a read clears -/

theorem onward_takeOffset {d : Int} (h : Onward a s) : Onward a (takeOffset d s) := by
  have noted {f c} [Decidable c] : Onward a (if c then event 0x0A02 [] { s with fab := f } else { s with fab := f }) :=
    onward_ite (onward_event h.same) h.same
  unfold takeOffset
  refine onward_ite ?_ ?_
  · simp (disch := decide) only [Onward, keeps_passing]
    exact onward_stepTime noted
  · simp (disch := decide) only [Onward, keeps_passing]
    exact noted

theorem onward_clearIndexed {o : Nat} (h : Onward a s) : Onward a (clearIndexed o s) := by
  unfold clearIndexed
  refine onward_ite ?_ (onward_ite ?_ (onward_ite ?_ (onward_ite ?_ h)))
  · simpa (disch := decide) only [Onward, clearTarget_keeps] using h
  · simpa (disch := decide) only [Onward, clearChannel_keeps] using h
  · exact onward_ite (onward_setEngine h) (onward_ite (onward_setEngine h) h)
  · simpa (disch := decide) only [Onward, clearFlashChan_keeps] using h

theorem onward_clearWord {o : Nat} (h : Onward a s) : Onward a (clearWord o s) := by
  unfold clearWord
  dsimp only
  split
  case h_61 => exact onward_clearIndexed h
  all_goals exact h.same

theorem onward_clearWords {port offset size : Nat} {l : List Nat} (h : Onward a s) :
    Onward a (each clearWord l (latchHigh port offset size s)) :=
  onward_each (fun _ _ => onward_clearWord) l (by simpa (disch := decide) only [Onward, latchHigh_keeps] using h)

/-! ## Ledgers and tests (ch 02, ch 14) -/

theorem onward_ledgerResponse {l : Ledger} {unit : Nat} (h : Onward a s) : Onward a (ledgerResponse l unit s) := by
  have told {p} : Onward a (event 0x0301 p s) := onward_event h
  unfold ledgerResponse
  dsimp only
  split
  · simp (disch := decide) only [Onward, revokeLane_keeps]
    exact told
  · simp (disch := decide) only [Onward, reopenSession_keeps]
    exact told
  · split
    · exact told
    · simp (disch := decide) only [Onward, raiseOn_keeps, setQueue_keeps]
      exact told
  · simp (disch := decide) only [Onward, retarget_keeps, keeps_passing]
    exact told
  · exact onward_retireEngine told
  · split
    · simp (disch := decide) only [Onward, enterReadOnly_keeps]
      exact told
    · simp (disch := decide) only [Onward, keeps_passing]
      exact told

theorem onward_testFailed {n i c : Nat} (h : Onward a s) : Onward a (testFailed n i c s) := by
  unfold testFailed
  refine onward_ite (onward_retireEngine h) (onward_ite ?_ (onward_ite ?_ (onward_ite ?_ (onward_ite ?_ (onward_ite ?_ h)))))
  · simpa (disch := decide) only [Onward, retireCore_keeps] using h
  · simpa (disch := decide) only [Onward, setDie_keeps] using h
  · dsimp only
    split
    · exact h
    · simpa (disch := decide) only [Onward, event_keeps, setSub_keeps, keeps_passing] using h
  · simpa (disch := decide) only [Onward, eraseSet_keeps] using h
  · refine onward_upd h ?_
    split <;> rfl

theorem onward_testRan {n i : Nat} {res : TestResult} {measure : Option BankMeasure} (h : Onward a s) :
    Onward a (testRan n i res measure s) := by
  have ran {x y} {c : Prop} [Decidable c] :
      Onward a (if c then endMeasure measure (beginMeasure { s with ist := x }) else { s with ist := y }) := by
    refine onward_ite ?_ h.same
    simpa (disch := decide) only [Onward, endMeasure_keeps, beginMeasure_keeps, keeps_passing] using h
  unfold testRan
  dsimp only
  split
  · exact ran
  · refine onward_testFailed (onward_event ?_)
    simp (disch := decide) only [Onward, keeps_passing]
    exact ran

theorem onward_endSlice {m : MaintResv} {res : TestResult} {measure : Option BankMeasure} (h : Onward a s) :
    Onward a (endSlice m res measure s) := by
  have dropped {x} : Onward a (dropMaint m.id { s with ist := x }) := by
    simpa (disch := decide) only [Onward, dropMaint_keeps, keeps_passing] using h
  exact onward_ite (onward_testRan dropped) dropped

theorem onward_testOne {n : Nat} {p : Nat × TestResult} (h : Onward a s) : Onward a (testOne n p s) :=
  onward_ite (onward_testRan (by simpa (disch := decide) only [Onward, drawn_keeps] using h)) (onward_testRan h)

/-! ## The supply (ch 12) -/

theorem onward_thaw {b : Bool} (h : Onward a s) : Onward a (thaw b s) := by
  have shifted {u : State} {n : Nat} (hu : Onward a u) : Onward a (shiftCalendar n u) := by
    simp (disch := decide) only [Onward, shiftCalendar, extendWork_keeps]
    exact hu.same
  refine onward_ite h (onward_event (onward_each (fun _ _ h => ?_) _ (onward_each (fun _ _ h => ?_) _ (shifted ?_))))
  · simpa (disch := decide) only [Onward, resetPort_keeps] using h
  · simpa (disch := decide) only [Onward, leaveUp_keeps] using h
  · simpa (disch := decide) only [Onward, refreshSelf_keeps, keeps_passing] using h

theorem updateLoss_counter (u : Update) : (updateLoss u).counter = u.counter := by
  unfold updateLoss
  split
  · unfold dropOther
    split <;> rfl
  · split <;> rfl
  all_goals rfl

theorem onward_suspendNormal (h : Onward a s) : Onward a (suspendNormal s) := by
  refine onward_each (fun p _ h => ?_) _ h
  split
  · exact onward_ite h (onward_suspendEngine h)
  · exact h

theorem onward_beginFlush (h : Onward a s) : Onward a (beginFlush s) := by
  have quiet : Onward a (fallSilent (abortRows (drainDram (suspendNormal (refreshSelf false (discardMeasure s)))))) := by
    simp (disch := decide) only [Onward, fallSilent_keeps, abortRows_keeps, drainDram_keeps]
    exact onward_suspendNormal (by simpa (disch := decide) only [Onward, refreshSelf_keeps, discardMeasure_keeps] using h)
  exact quiet.same (by simp only [lasting, beginFlush, updateLoss_counter])

theorem onward_enterFlush (h : Onward a s) : Onward a (enterFlush s) := by
  simp (disch := decide) only [Onward, enterFlush, keeps_passing]
  exact onward_beginFlush (onward_thaw h)

theorem onwardIf_flushInstead {mv : Nat} (h : Onward a s) : OnwardIf a (flushInstead mv s) :=
  onwardIf_ite (onwardIf_some (onward_enterFlush h.same)) (onwardIf_ite (onwardIf_some (onward_enterFlush h.same)) onwardIf_none)

/-- A cold start is one more, and keeps the keys and the counts (R325, R544, R611). -/
theorem onward_coldStart {cause : Nat} {inp : BootInput} (h : Onward a s) : Onward a (coldStart cause inp s) := by
  have xts : (coldStart cause inp s).xts = cipherAtStart s.xts :=
    (followAlert_same (p := .xts) (by decide) _).trans (congrArg cipherAtStart (rolesAtStart_same (p := .xts) (by decide) s))
  have upd : (coldStart cause inp s).upd = updateAtStart (updateLoss s.upd) :=
    (followAlert_same (p := .upd) (by decide) _).trans
      (congrArg (fun u => updateAtStart (updateLoss u)) (rolesAtStart_same (p := .upd) (by decide) s))
  have commits : (coldStart cause inp s).commits = s.commits :=
    (followAlert_same (p := .commits) (by decide) _).trans (rolesAtStart_same (p := .commits) (by decide) s)
  have le := onward_iff.mp h
  refine onward_iff.mpr ⟨fun locked => ?_, ?_, ?_, ?_, ?_⟩
  · simpa only [lasting, xts, cipherAtStart] using le.key locked
  · simpa only [lasting, upd, updateAtStart, updateLoss_counter] using le.counter
  · simpa only [lasting, coldStart_clk] using le.cycles.trans (Nat.le_succ _)
  · simpa only [lasting, coldStart_clk] using le.opNs
  · simpa only [lasting, commits] using le.commits

/-! ## The firmware update (ch 13) -/

theorem recorded_counter (u v : Update) : (recorded u v).counter = v.counter := by
  unfold recorded
  split <;> rfl

theorem onward_recorded {u : Update} {v : Update} (h : Onward a s) (counter : v.counter = s.upd.counter := by rfl) :
    Onward a { s with upd := recorded u v } :=
  onward_upd h ((recorded_counter u v).trans counter)

theorem onward_dropWindow (h : Onward a s) : Onward a (dropWindow s) := by
  unfold dropWindow
  split
  · simp (disch := decide) only [Onward, dropMaint_keeps]
    exact onward_upd h
  · exact h

/-- A commit takes the larger of the counter and the slot's index (R611). -/
theorem onward_commitUpdate (h : Onward a s) : Onward a (commitUpdate s) := by
  have le := onward_iff.mp h
  refine onward_iff.mpr ⟨le.key, le.counter.trans ?_, le.cycles, le.opNs, le.commits⟩
  simp only [lasting, commitUpdate, recorded_counter]
  exact Nat.le_max_left _ _

theorem onward_activationFailed (h : Onward a s) : Onward a (activationFailed s) := onward_upd h

theorem onward_pagePut {p v : Nat} (h : Onward a s) : Onward a (pagePut p v s) := by
  unfold pagePut
  split
  · next e => exact onwardIf_pageWrite h _ e
  · exact h

theorem onward_beginTrial (h : Onward a s) : Onward a (beginTrial s) := by
  unfold beginTrial
  exact onward_upd (onward_each (fun _ _ h => onward_upd (onward_pagePut h)) _ (onward_upd h))

theorem onward_writePending (h : Onward a s) : Onward a (writePending s) := by
  simpa (disch := decide) only [Onward, writePending_keeps] using h

theorem onward_closeFlush (h : Onward a s) : Onward a (closeFlush s) := by
  simpa (disch := decide) only [Onward, closeFlush_keeps] using h

theorem onward_restart {cause : Nat} {inp : BootInput} (h : Onward a s) : Onward a (restart cause inp s) :=
  onward_coldStart (onward_closeFlush (onward_beginFlush (onward_writePending h)))

theorem onward_rollbackPages (h : Onward a s) : Onward a (rollbackPages s) := by
  unfold rollbackPages
  exact onward_upd (onward_each (fun _ _ => onward_pagePut) _ h)

theorem onward_bootFailed (h : Onward a s) : Onward a (bootFailed s) := by
  have counter {f} : (recorded s.upd { s.upd with fails := f, trialAt := s.clk.opNs }).counter = s.upd.counter :=
    recorded_counter _ _
  unfold bootFailed
  dsimp only
  refine onward_ite (onward_coldStart (onward_writePending (onward_upd h counter))) (onward_ite ?_ (onward_event (onward_upd
    (onward_coldStart (onward_writePending ?_)))))
  · simp (disch := decide) only [Onward, romRecovery_keeps]
    exact onward_upd h counter
  · exact onward_ite (onward_rollbackPages (onward_recorded h counter)) (onward_recorded h counter)

theorem onward_recoveryWrite {off : Nat} {d : Bytes} (h : Onward a s) : Onward a (recoveryWrite off d s).1 := by
  unfold recoveryWrite
  split
  · exact onward_upd h
  · exact onward_upd h

theorem onward_installRecovery (h : Onward a s) : Onward a (installRecovery s) := by
  unfold installRecovery
  refine onward_recorded h ?_
  dsimp only
  split <;> rfl

theorem onward_recoveryCommit {reply : Nat → State → State} (h : Onward a s)
    (hr : ∀ n {u}, Onward a u → Onward a (reply n u)) : Onward a (recoveryCommit reply s) :=
  have replied := hr (recoveryStatus s) (onward_upd (u := { s.upd with rStatus := recoveryStatus s }) h)
  onward_ite (onward_coldStart (onward_installRecovery replied)) replied

/-! ## The boot and time (ch 01, ch 15) -/

theorem onward_railsUp (h : Onward a s) : Onward a (railsUp s) := h.same

theorem onward_deassertPerst {port sel : Nat} {sep : Bool} (h : Onward a s) : Onward a (deassertPerst port sel sep s) := by
  simp (disch := decide) only [Onward, deassertPerst, modPort_keeps]
  exact onward_railsUp (onward_ite h (onward_ite (onward_event h.same) h.same))

theorem onward_lateDeassert (h : Onward a s) : Onward a (lateDeassert s) :=
  onward_ite h (onward_each (fun _ _ => onward_deassertPerst) _ h.same)

theorem onward_noiseAtStart {inp : BootInput} (h : Onward a s) : Onward a (noiseAtStart inp s) := by
  have tested : Onward a { s with xts := { s.xts with aOk := inp.noiseA, bOk := inp.noiseB } } := onward_xts h
  have noted {c : Prop} [Decidable c] := onward_ite (c := c) tested (onward_event (code := 0x0801) (payload := []) tested)
  unfold noiseAtStart
  exact onward_ite noted (onward_event noted)

theorem onward_endPowerOnTraining (h : Onward a s) : Onward a (endPowerOnTraining s) := by
  simp (disch := decide) only [Onward, endPowerOnTraining, keeps_passing]
  refine onward_noiseAtStart (onward_each (fun _ _ => onward_retireEngine) _ (onward_each (fun _ _ h => ?_) _
    (onward_each (fun _ _ h => ?_) _ h)))
  · simpa (disch := decide) only [Onward, failChannel_keeps] using h
  · simpa (disch := decide) only [Onward, trainChannel_keeps] using h

theorem onward_enterRecovery (h : Onward a s) : Onward a (enterRecovery s) := by
  have noted : Onward a (recordCalendar { s with boot := { s.boot with stage := 3 } }) := by
    simpa (disch := decide) only [Onward, recordCalendar_keeps, keeps_passing] using h
  have trial {c : Prop} [Decidable c] := onward_ite (c := c) (onward_beginTrial noted) noted
  unfold enterRecovery
  refine onward_ite ?_ trial
  simp (disch := decide) only [Onward, keeps_passing]
  exact trial

theorem onward_reachFour (h : Onward a s) : Onward a (reachFour s) := by
  refine onward_each (fun _ _ h => by simpa (disch := decide) only [Onward, reserveMaint_keeps] using h) _ ?_
  exact h.same (by simp only [lasting, recorded_counter])

theorem onward_bootStep (h : Onward a s) : Onward a (bootStep s) := by
  have read : Onward a (readRecord (railsUp s)) := onward_ite (onward_railsUp h).same (onward_railsUp h)
  unfold bootStep
  split
  · refine onward_ite ?_ (onward_ite (onward_bootFailed read) ?_)
    · simpa (disch := decide) only [Onward, romRecovery_keeps] using read
    · simp (disch := decide) only [Onward, findSets_keeps, keeps_passing]
      exact read
  · exact onward_endPowerOnTraining h
  · exact onward_enterRecovery h
  · exact onward_ite h (onward_reachFour h)
  · exact h

/-- The operating time grows by what passes while the AON domain is powered (R621). -/
theorem onward_advanceTime {d : Nat} (h : Onward a s) : Onward a (advanceTime d s) := by
  have le := onward_iff.mp h
  refine onward_iff.mpr ⟨le.key, le.counter, le.cycles, le.opNs.trans ?_, le.commits⟩
  simp only [lasting, advanceTime]
  split
  · exact Nat.le_add_right _ _
  · exact le_rfl

theorem onward_passTime {d : Nat} (h : Onward a s) : Onward a (passTime d s) := by
  have followed : Onward a (advanceTime d (if running s = false ∨ s.boot.stage ≠ 4 then s else followIdle s)) :=
    onward_advanceTime (onward_ite h (by simpa (disch := decide) only [Onward, followIdle_keeps] using h))
  unfold passTime
  refine onward_ite followed ?_
  simp (disch := decide) only [Onward, tryFreeze_keeps]
  refine onward_lateDeassert ?_
  simp (disch := decide) only [Onward, followPower_keeps]
  refine onward_ite ?_ ?_
  · simp (disch := decide) only [Onward, followHeat_keeps]
    exact followed
  · simp (disch := decide) only [Onward, newSlot_keeps, followHeat_keeps]
    exact followed

theorem onward_idle (e : idle s = .next t) : Onward s t := by
  unfold idle at e
  split at e
  · cases e
    have passed := onward_passTime (d := 1000) (Onward.refl s)
    exact onward_ite (onward_bootStep passed) passed
  · cases e

/-! ## Recovery (ch 04) -/

theorem onward_carryPlan {f : InFlight} {p : Plan} (h : Onward a s) : Onward a (carryPlan f p s) := onward_commitFlight h

theorem onward_carryWaits {f : InFlight} (h : Onward a s) : Onward a (carryWaits f s) := by
  simpa (disch := decide) only [Onward, carryWaits_keeps] using h

theorem onward_carryTrick {lost : Bool} {f : InFlight} (h : Onward a s) : Onward a (carryTrick lost f s) := by
  unfold carryTrick
  refine onward_ite (onward_each (fun _ _ => onward_carryPlan) _ h) (onward_ite (onward_each (fun _ _ => onward_carryPlan) _ h)
    (onward_ite (onward_each (fun _ _ => onward_carryWaits) _ h) ?_))
  split
  · exact onward_each (fun _ _ => onward_carryPlan) _ (onward_carryPlan h)
  · exact onward_each (fun _ _ => onward_carryPlan) _ (onward_carryPlan h)

theorem onward_carryOne {lost : Bool} {f : InFlight} (h : Onward a s) : Onward a (carryOne lost f s) := by
  unfold carryOne
  split
  · exact onward_ite (onward_carryTrick h) h
  · split
    · exact onward_carryPlan h
    · exact onward_ite (onward_carryWaits h) (onward_ite (onward_carryWaits h) (onward_carryPlan h))

theorem onward_carryAll {lost : Bool} (h : Onward a s) : Onward a (carryAll lost s) :=
  onward_each (fun _ _ => onward_carryOne) _ h.same

theorem onward_recoverAll {idx : State → State} (hi : ∀ {u}, Onward a u → Onward a (idx u)) (h : Onward a s) :
    Onward a (recoverAll idx s) := by
  have noted {c : Prop} [Decidable c] : Onward a (recordLoss (if c then event 0x0C06 [] (loseHeld s) else s)) := by
    simp (disch := decide) only [Onward, recordLoss_keeps]
    exact onward_ite (onward_event (by simpa (disch := decide) only [Onward, loseHeld_keeps] using h)) h
  have torn {n} {c : Prop} [Decidable c] (u) (hu : Onward a u) :
      Onward a (if c then { u with med := { u.med with torn := n } } else returnRows { u with med := { u.med with torn := n } }) :=
    onward_ite hu.same (by simpa (disch := decide) only [Onward, returnRows_keeps, keeps_passing] using hu)
  refine onward_reachFour ?_
  simp (disch := decide) only [Onward, zeroCounters_keeps, eraseSets_keeps]
  exact onward_carryAll (torn _ (hi noted))

theorem onward_rebuildIndex {found : RecoveryInput} (h : Onward a s) : Onward a (rebuildIndex found s) := by
  simpa (disch := decide) only [Onward, rebuildIndex_keeps] using h

theorem onward_afterChannel {u : State} (h : Onward a s) : Onward a (afterChannel u s) := by
  unfold afterChannel
  split
  · exact h
  · simpa (disch := decide) only [Onward, enterReadOnly_keeps] using h
end
end Sys2Proof.Machine
end

section
/-! PROOFS. What no step undoes: every command, and the step. -/

namespace Sys2Proof.Machine

open Sys2Proof

-- Proofs elaborated side by side wait on one another's lemmas, each in a thread of its own; in order, one thread does.
set_option Elab.async false

section
variable {a s t : State}

/-! ## The forms that the meanings of commands have -/

/-- Where the outcome is a next state. -/
def OnwardR (a : State) (r : R) : Prop := ∀ t, r = .next t → Onward a t

theorem onwardR_next (h : Onward a s) : OnwardR a (.next s) := fun _ e => by
  cases e
  exact h

theorem onwardR_whenRunning {f : State → State} (h : Onward a s) (hf : Onward a (f s)) : OnwardR a (whenRunning f s) :=
  onwardR_next (onward_ite hf h)

theorem onwardR_guarded {f : State → State} {c : Bool} (h : Onward a s) (hf : Onward a (f s)) :
    OnwardR a (whenRunning (guard c f) s) :=
  onwardR_whenRunning h (onward_guard h hf)

theorem onwardR_settingWrite {b : Nat} {sel : Mailbox → Bool} (h : Onward a s) :
    OnwardR a (whenRunning (takeBox b sel true (settingWrite b)) s) :=
  onwardR_whenRunning h (onward_takeBox h fun _ _ => onward_settingWrite)

theorem onwardR_updateRow {b code : Nat} {f : Mailbox → State → Nat × Bytes × State} (h : Onward a s)
    (hf : ∀ x {u}, Onward a u → Onward a (f x u).2.2) : OnwardR a (updateRow b code f s) :=
  onwardR_whenRunning h (onward_takeBox h fun x _ hu => onward_finishBox (onward_upd (hf x hu)))

theorem onwardR_laneRow {n : Nat} {c : Lane → Bool} {f : State → State} (h : Onward a s) (hf : Onward a (f s)) :
    OnwardR a (laneRow n c f s) := onwardR_guarded h hf

theorem onwardR_taskRow {n code : Nat} {f : Task → State → State} (h : Onward a s) (hf : ∀ x, Onward a (f x s)) :
    OnwardR a (taskRow n code f s) := onwardR_whenRunning h (onward_ite (hf _) h)

theorem onward_emit {o : Out} (h : Onward a s) : Onward a (emit o s) := h.same

theorem onward_finishTask {n st r : Nat} (h : Onward a s) : Onward a (finishTask n st r s) := h.same

theorem onwardR_uartRow {kind : Nat} {frame : Bytes} {f : Nat → Bytes → State → State} (h : Onward a s)
    (hf : ∀ o d, Onward a (f o d s)) : OnwardR a (uartRow kind frame f s) := by
  refine onwardR_guarded h ?_
  split
  · exact h
  · exact hf _ _

theorem onwardR_recoveryRow {ok : State → Bool} {f : State → State} (h : Onward a s) (hf : Onward a (f s)) :
    OnwardR a (recoveryRow ok f s) :=
  onwardR_next (onward_ite (onward_emit h) (onward_ite hf (onward_emit h)))

theorem onwardR_arriveReq {id seq wanted : Nat} {q : FabReq} (h : Onward a s) :
    OnwardR a (whenRunning (arriveReq id seq wanted q) s) := onwardR_whenRunning h (onward_arriveReq h)

/-! ## The commands of the key-value service and the fabric -/

theorem onwardR_admissionStep {id : Nat} (h : Onward a s) : OnwardR a (execAdmissionStep id s) := by
  refine onwardR_whenRunning h ?_
  split
  · exact h
  · exact onward_ite (by simpa (disch := decide) only [Onward, countStall_keeps] using h) (onward_guard h (onward_admitItems h))

theorem onwardR_orderReply {src request : Nat} {ans : OrderAnswer} (h : Onward a s) :
    OnwardR a (execOrderReply src request ans s) := by
  refine onwardR_whenRunning h ?_
  split
  · exact h
  dsimp only
  split
  · exact h.same
  · exact onward_ite (onward_admitItems h.same) h.same

theorem onwardR_pendingShardResolve {time tie node : Nat} {answer : Recorded} (h : Onward a s) :
    OnwardR a (execPendingShardResolve time tie node answer s) := by
  refine onwardR_whenRunning h ?_
  split
  · exact h
  · split
    all_goals exact onward_settleOne h

theorem onwardR_shardReadData {session seq holder version : Nat} {committed : Bool} {sh : Shard} (h : Onward a s) :
    OnwardR a (execShardReadData session seq holder committed version sh s) := by
  refine onwardR_whenRunning h (onward_ite (onward_ite h.same h) ?_)
  split
  · exact h
  · split
    · exact h
    · exact onward_ite h (onward_takeShard h)

theorem onwardR_shardReadAllowanceExpiry {session seq : Nat} (h : Onward a s) :
    OnwardR a (execShardReadAllowanceExpiry session seq s) := by
  refine onwardR_whenRunning h ?_
  split
  · exact h
  · split
    · exact h
    · exact onward_guard h (onward_goOn (onward_modProt h))

theorem onward_settleRebuild (h : Onward a s) : Onward a (settleRebuild s) := by
  simpa (disch := decide) only [Onward, settleRebuild_keeps] using h

theorem onwardR_shardRebuild {ns digest : Nat} (h : Onward a s) : OnwardR a (execShardRebuild ns digest s) := by
  refine onwardR_whenRunning h ?_
  split
  · exact onward_settleRebuild h
  · split
    · exact onward_settleRebuild h.same
    · exact onward_rebuildFrom h

theorem onwardR_rowProgramComplete {meld : Nat} {failed : List ProgFail} (h : Onward a s) :
    OnwardR a (execRowProgramComplete meld failed s) := by
  refine onwardR_whenRunning h ?_
  dsimp only
  split
  · refine onward_ite h (onward_ite (onward_rowDone h) ?_)
    simpa (disch := decide) only [Onward, rowTorn_keeps] using h
  · exact h

/-! ## The commands of the other units -/

theorem onwardR_timeFrame {lane : Nat} {msg : TimeMsg} (h : Onward a s) : OnwardR a (execTimeFrame lane msg s) := by
  refine onwardR_laneRow h ?_
  split
  · simpa (disch := decide) only [Onward, timeFrame_keeps] using h
  · exact onward_ite (onward_takeOffset h) h

theorem onwardR_blockLock {lane : Nat} (h : Onward a s) : OnwardR a (execBlockLock lane s) :=
  onwardR_laneRow h (onward_clk (by simpa (disch := decide) only [Onward, modLane_keeps] using h))

theorem onwardR_ledgerFault {l : Ledger} {lhs rhs unit : Nat} (h : Onward a s) :
    OnwardR a (execLedgerFault l lhs rhs unit s) := by
  have raised {x p} : Onward a (raiseLedger (event 0x0301 p { s with jnl := x })) := by
    simpa (disch := decide) only [Onward, raiseLedger_keeps, event_keeps, keeps_passing] using h
  refine onwardR_whenRunning h (onward_ite (onward_ledgerResponse raised) ?_)
  simp (disch := decide) only [Onward, askRecount_keeps]
  exact raised

theorem onwardR_istSlice {res : TestResult} {measure : Option BankMeasure} (h : Onward a s) :
    OnwardR a (execIstSlice res measure s) := by
  refine onwardR_guarded h ?_
  split
  · exact onward_ite h (onward_endSlice h)
  · split
    · exact h
    · exact onward_getD (onwardIf_past h fun e => takeSlice_keeps e (by decide)) h

theorem onwardR_selfTest {set : Nat} {results : List TestResult} (h : Onward a s) : OnwardR a (execSelfTest set results s) :=
  onwardR_taskRow h fun _ => onward_ite (onward_finishTask h) (onward_ite (onward_finishTask h)
    (onward_finishTask (onward_each (fun _ _ => onward_testOne) _ h)))

theorem onwardR_rcRegisterRead {port : Nat} {place : BarPlace} {size : Nat} (h : Onward a s) :
    OnwardR a (execRcRegisterRead port place size s) := by
  refine onwardR_guarded h (onward_ite (onward_emit h) (onward_clearWords ?_))
  simp (disch := decide) only [Onward, modPort_keeps]
  exact onward_emit h

theorem onwardR_registerLowHalfRead {port offset : Nat} (h : Onward a s) :
    OnwardR a (execRegisterLowHalfRead port offset s) := by
  refine onwardR_guarded h ?_
  split
  · exact h
  · exact onward_ite (onward_clearWords (onward_emit h)) h

theorem onwardR_noiseSourceFail {b r : Bool} (h : Onward a s) : OnwardR a (execNoiseSourceFail b r s) :=
  onwardR_whenRunning h (onward_ite h (onward_ite (onward_event (onward_xts h)) (onward_event (onward_event (onward_xts h)))))

theorem onwardR_cipherRelease {n : Nat} (h : Onward a s) : OnwardR a (execCipherRelease n s) := by
  refine onwardR_next (onward_guard h ?_)
  split
  · exact h
  · exact onward_grantWaiting (onward_setEngine (onward_blocksReleased h))

theorem onwardR_perstDeassert {port sel : Nat} {sep : Bool} (h : Onward a s) : OnwardR a (execPerstDeassert port sel sep s) :=
  onwardR_whenRunning h (onward_ite h.same (onward_deassertPerst h))

/-! ## The commands of the supply, the update and the recovery -/

theorem onwardR_supplyVWarn {mv : Nat} (h : Onward a s) : OnwardR a (execSupplyVWarn mv s) := by
  refine onwardR_next ?_
  split
  · refine onward_getD (onwardIf_flushInstead h) ?_
    simp (disch := decide) only [Onward, enterDip, keeps_passing, discardMeasure_keeps]
    exact onward_thaw h
  · exact h

theorem onwardR_supplyAboveVResume {mv : Nat} (h : Onward a s) : OnwardR a (execSupplyAboveVResume mv s) := by
  refine onwardR_next ?_
  split
  · exact onward_getD (onwardIf_flushInstead h) h.same
  · exact h.same

theorem onwardR_supplyBelowVResume {mv : Nat} (h : Onward a s) : OnwardR a (execSupplyBelowVResume mv s) := by
  refine onwardR_next ?_
  split
  · exact onward_getD (onwardIf_flushInstead h) h.same
  · exact h.same

theorem onwardR_resumeHoldEnd (h : Onward a s) : OnwardR a (execResumeHoldEnd s) := by
  refine onwardR_next ?_
  split
  · refine onward_guard h (onward_getD (onwardIf_flushInstead h) ?_)
    simpa (disch := decide) only [Onward, leaveDip_keeps] using h
  · exact h

theorem onwardR_supplyVBor {mv : Nat} (h : Onward a s) : OnwardR a (execSupplyVBor mv s) :=
  onwardR_next (onward_guard h (onward_enterFlush h.same))

theorem onwardR_dipTimeout (h : Onward a s) : OnwardR a (execDipTimeout s) :=
  onwardR_next (onward_guard h (onward_enterFlush h.same))

theorem onwardR_bankExhausted {mv : Nat} (h : Onward a s) : OnwardR a (execBankExhausted mv s) := by
  refine onwardR_next (onward_ite h ?_)
  split
  · exact h.same
  · exact h.same
  · exact h

theorem onwardR_supplyAbove7v {mv : Nat} (h : Onward a s) : OnwardR a (execSupplyAbove7v mv s) := by
  refine onwardR_next ?_
  split <;> exact h.same

theorem onwardR_supplyBelow7v {mv : Nat} (h : Onward a s) : OnwardR a (execSupplyBelow7v mv s) := by
  refine onwardR_next ?_
  split <;> exact h.same

theorem onwardR_coldStart {inp : BootInput} (h : Onward a s) : OnwardR a (execColdStart inp s) := by
  refine onwardR_next ?_
  split
  · exact onward_coldStart h
  · exact onward_coldStart h.same
  · exact h

theorem onwardR_thaw (h : Onward a s) : OnwardR a (execThaw s) := onwardR_next (onward_thaw h.same)

theorem setOther_counter (x : Slot) (u : Update) : (setOther x u).counter = u.counter := by
  unfold setOther
  split <;> rfl

theorem onwardR_updateBegin {b : Nat} (h : Onward a s) : OnwardR a (execUpdateBegin b s) := by
  refine onwardR_updateRow h fun x u hu => ?_
  dsimp only
  split
  · exact hu
  · split
    · exact onward_upd hu (setOther_counter _ _)
    · exact hu

theorem onwardR_updateData {b : Nat} (h : Onward a s) : OnwardR a (execUpdateData b s) := by
  refine onwardR_updateRow h fun x u hu => ?_
  dsimp only
  split
  · exact hu
  · split
    · exact hu
    · exact onward_upd hu

theorem onwardR_updateFinish {b : Nat} (h : Onward a s) : OnwardR a (execUpdateFinish b s) := by
  refine onwardR_updateRow h fun x u hu => ?_
  dsimp only
  split
  · exact hu
  split
  · exact hu
  split
  · exact onward_upd hu
  · exact onward_upd hu (setOther_counter _ _)

theorem onwardR_updateActivate {b : Nat} (h : Onward a s) : OnwardR a (execUpdateActivate b s) := by
  refine onwardR_updateRow h fun x u hu => ?_
  dsimp only
  split
  · exact hu
  split
  · exact onward_recorded hu
  · simp (disch := decide) only [Onward, raiseAll_keeps]
    exact onward_upd (by simpa (disch := decide) only [Onward, reserveMaint_keeps] using hu)

theorem onwardR_updateCommit {b : Nat} (h : Onward a s) : OnwardR a (execUpdateCommit b s) := by
  refine onwardR_updateRow h fun x u hu => ?_
  split
  · exact onward_commitUpdate hu
  · exact hu

theorem onwardR_updateAbort {b : Nat} (h : Onward a s) : OnwardR a (execUpdateAbort b s) := by
  refine onwardR_updateRow h fun x u hu => ?_
  dsimp only
  split
  · exact hu
  · exact hu
  · exact hu
  · refine onward_dropWindow (onward_upd hu ?_)
    dsimp only
    split
    · exact recorded_counter _ _
    · rfl
  · exact onward_upd hu
  · exact onward_upd hu

theorem onwardR_activationPreload {ok : Bool} (h : Onward a s) : OnwardR a (execActivationPreload ok s) :=
  onwardR_guarded h (onward_ite (onward_upd h) (onward_dropWindow (onward_activationFailed h)))

theorem onwardR_activationMidpoint {ready : Bool} (h : Onward a s) : OnwardR a (execActivationMidpoint ready s) :=
  onwardR_guarded h (onward_ite (onward_recorded (onward_beginTrial (onward_upd h))) (onward_upd (onward_activationFailed h)))

theorem onwardR_activationWindowEnd {ready : Bool} (h : Onward a s) : OnwardR a (execActivationWindowEnd ready s) := by
  have dropped := onward_dropWindow h
  have ended {c : Prop} [Decidable c] := onward_ite (c := c) (onward_activationFailed dropped) dropped
  refine onwardR_whenRunning h ?_
  split
  · exact h
  · exact onward_ite h (onward_ite (onward_restart (onward_upd ended)) (onward_upd ended))

theorem onwardR_recoveryWrite {set : Nat} (h : Onward a s) : OnwardR a (execRecoveryWrite set s) :=
  onwardR_taskRow h fun _ => onward_ite (onward_finishTask h) (onward_finishTask (onward_recoveryWrite h))

theorem onwardR_uartRecoveryWrite {frame : Bytes} (h : Onward a s) : OnwardR a (execUartRecoveryWrite frame s) :=
  onwardR_uartRow h fun o d => onward_emit (o := .uart 1 (recoveryWrite o d s).2) (onward_recoveryWrite (off := o) (d := d) h)

theorem onwardR_smbusRecoveryWrite {block : Bytes} {pec : Option Byte} (h : Onward a s) :
    OnwardR a (execSmbusRecoveryWrite block pec s) :=
  onwardR_recoveryRow h (onward_recoveryWrite (off := leAt block 0 4) (d := block.drop 4) h)

theorem onwardR_recoveryCommit {set : Nat} (h : Onward a s) : OnwardR a (execRecoveryCommit set s) :=
  onwardR_taskRow h fun _ => onward_recoveryCommit (reply := fun st => finishTask set st 0) h fun _ _ => onward_finishTask

theorem onwardR_uartRecoveryCommit {frame : Bytes} (h : Onward a s) : OnwardR a (execUartRecoveryCommit frame s) :=
  onwardR_uartRow h fun _ _ => onward_recoveryCommit (reply := fun st => emit (.uart 2 st)) h fun _ _ => onward_emit

theorem onwardR_smbusRecoveryCommit {block : Bytes} {pec : Option Byte} (h : Onward a s) :
    OnwardR a (execSmbusRecoveryCommit block pec s) :=
  onwardR_recoveryRow h (onward_recoveryCommit (reply := fun _ s => s) h fun _ _ hu => hu)

theorem onwardR_moduleResetExecute (h : Onward a s) : OnwardR a (execModuleResetExecute s) :=
  onwardR_guarded h (onward_restart h.same)

theorem onwardR_fullScanRebuild {found : RecoveryInput} (h : Onward a s) : OnwardR a (execFullScanRebuild found s) := by
  have rebuilt := onward_rebuildIndex (found := found) h
  exact onwardR_whenRunning h (onward_ite (onward_afterChannel (onward_recoverAll onward_rebuildIndex h))
    (onward_ite (onward_afterChannel (onward_ite (onward_reachFour rebuilt) rebuilt.same)) h))

theorem onwardR_powerLossRecovery {found : RecoveryInput} (h : Onward a s) : OnwardR a (execPowerLossRecovery found s) :=
  onwardR_guarded h (onward_ite (onward_recoverAll id h) h.same)

theorem onwardR_clockMoves {d : Nat} (h : Onward a s) : OnwardR a (clockMoves d s) := fun t e => by
  unfold clockMoves at e
  split at e
  · exact onwardR_next (onward_passTime h) t e
  · cases e

/-! ## Every command and every step -/

theorem onwardR_of_keeps {w : List Area} {r : R} (k : KeepsR w s r) (hw : subB w passing = true) : OnwardR s r :=
  fun t e => (Onward.refl s).same (lasting_of_keeps ((k t e).mono hw))

theorem onwardR_noiseSourceRejoin (h : Onward a s) : OnwardR a (execNoiseSourceRejoin b s) :=
  onwardR_whenRunning h h.same

theorem onwardR_pllLockLoss (h : Onward a s) : OnwardR a (execPllLockLoss n s) :=
  onwardR_whenRunning h h.same

theorem exec_onward (c : Instr) (s : State) : OnwardR s (exec c s) := by
  have h := Onward.refl s
  cases c
  case admissionStep => exact onwardR_admissionStep h
  case commitStep => exact onwardR_whenRunning h (onward_tryCommit h)
  case settingWrite | keyGenerate | keyImport | keyZeroize | kikInstall | kikLock | timeSet => exact onwardR_settingWrite h
  case updateBegin => exact onwardR_updateBegin h
  case updateData => exact onwardR_updateData h
  case updateFinish => exact onwardR_updateFinish h
  case updateActivate => exact onwardR_updateActivate h
  case updateCommit => exact onwardR_updateCommit h
  case updateAbort => exact onwardR_updateAbort h
  case activationPreload => exact onwardR_activationPreload h
  case activationWindowStart => exact onwardR_guarded h (onward_upd h)
  case activationMidpoint => exact onwardR_activationMidpoint h
  case activationWindowEnd => exact onwardR_activationWindowEnd h
  case autoCommit => exact onwardR_guarded h (onward_commitUpdate h)
  case bootTimeout => exact onwardR_guarded h (onward_bootFailed h)
  case moduleResetExecute => exact onwardR_moduleResetExecute h
  case selfTest => exact onwardR_selfTest h
  case recoveryWrite => exact onwardR_recoveryWrite h
  case recoveryCommit => exact onwardR_recoveryCommit h
  case uartRecoveryWrite => exact onwardR_uartRecoveryWrite h
  case uartRecoveryCommit => exact onwardR_uartRecoveryCommit h
  case smbusRecoveryWrite => exact onwardR_smbusRecoveryWrite h
  case smbusRecoveryCommit => exact onwardR_smbusRecoveryCommit h
  case rcRegisterRead => exact onwardR_rcRegisterRead h
  case registerLowHalfRead => exact onwardR_registerLowHalfRead h
  case perstDeassert => exact onwardR_perstDeassert h
  case allPortsReset => exact onwardR_guarded h (onward_restart h)
  case timeFrame => exact onwardR_timeFrame h
  case creditReturn | shardHold | shardCommit | shardDiscard | decide | shardRead | rebuildWrite => exact onwardR_arriveReq h
  case fabricRequestInvalid => exact onwardR_guarded h (onward_arriveReq h)
  case orderReply => exact onwardR_orderReply h
  case pendingShardResolve => exact onwardR_pendingShardResolve h
  case shardRebuild => exact onwardR_shardRebuild h
  case blockLock => exact onwardR_blockLock h
  case slotBoundary => exact onwardR_clockMoves h
  case ledgerFault => exact onwardR_ledgerFault h
  case rowProgramComplete => exact onwardR_rowProgramComplete h
  case powerLossRecovery => exact onwardR_powerLossRecovery h
  case fullScanRebuild => exact onwardR_fullScanRebuild h
  case cipherClaim => exact onwardR_next (onward_guard h (onward_claim h))
  case cipherRelease => exact onwardR_cipherRelease h
  case cipherEngineRetire => exact onwardR_guarded h (onward_retireEngine h)
  case generatorReseed => exact onwardR_guarded h (onward_xts h)
  case noiseSourceFail => exact onwardR_noiseSourceFail h
  case noiseSourceRejoin => exact onwardR_noiseSourceRejoin h
  case maskGeneratorStop => exact onwardR_guarded h (onward_event (onward_xts h))
  case supplyVWarn => exact onwardR_supplyVWarn h
  case supplyAboveVResume => exact onwardR_supplyAboveVResume h
  case supplyBelowVResume => exact onwardR_supplyBelowVResume h
  case resumeHoldEnd => exact onwardR_resumeHoldEnd h
  case supplyVBor => exact onwardR_supplyVBor h
  case dipTimeout => exact onwardR_dipTimeout h
  case bankExhausted => exact onwardR_bankExhausted h
  case coldStart => exact onwardR_coldStart h
  case istSlice => exact onwardR_istSlice h
  case thaw => exact onwardR_thaw h
  case supplyAbove7v => exact onwardR_supplyAbove7v h
  case supplyBelow7v => exact onwardR_supplyBelow7v h
  case pllLockLoss => exact onwardR_pllLockLoss h
  case shardReadData => exact onwardR_shardReadData h
  case shardReadAllowanceExpiry => exact onwardR_shardReadAllowanceExpiry h
  all_goals exact onwardR_of_keeps (exec_keeps s _) rfl

theorem step_onward (e : step s = .next t) : Onward s t := by
  cases queue : s.pending with
  | nil => exact onward_idle (step_nil queue ▸ e)
  | cons c rest =>
    have front := exec_onward c { s with pending := rest } t (step_cons queue ▸ e)
    exact onward_iff.mpr (onward_iff.mp front)

end

/-- Settles O58: `step_onward`, read off the values that stay for good. -/
theorem noStepUndoesWhatIsForGood : Obligations.NoStepUndoesWhatIsForGood := fun _ _ e =>
  have le := onward_iff.mp (step_onward e)
  ⟨le.key, le.counter, le.cycles, le.opNs, le.commits⟩

end Sys2Proof.Machine
end

section
/-! PROOFS. The key-value commands: what each is worked out as. -/

namespace Sys2Proof.Machine

open Sys2Proof

section
variable {s t : State} {f g : InFlight} {p : Plan} {id seq op : Nat}

/-! ## Commands in flight -/

theorem findFlight_eq_some (h : findFlight s id seq = some f) : f.session = id ∧ f.seq = seq :=
  have mine := List.find?_some (p := fun f : InFlight => decide (f.session = id ∧ f.seq = seq)) h
  of_decide_eq_true mine

/-- A change that keeps the session and sequence is what the search finds in its place. -/
theorem findFlight_modFlight {u : InFlight → InFlight} (same : ∀ g, (u g).session = g.session ∧ (u g).seq = g.seq)
    (h : findFlight s id seq = some f) : findFlight (modFlight id seq u s) id seq = some (u f) := by
  have mine : f.session = id ∧ f.seq = seq := findFlight_eq_some h
  have asked : ∀ g : InFlight, (if g.session = id ∧ g.seq = seq then u g else g).session = g.session ∧
      (if g.session = id ∧ g.seq = seq then u g else g).seq = g.seq := fun g => by
    split
    · exact same g
    · exact ⟨rfl, rfl⟩
  have first : s.dlr.inflight.find? (fun g => decide (g.session = id ∧ g.seq = seq)) = some f := h
  simp only [findFlight, modFlight, List.find?_map, Function.comp_def, asked, first, Option.map_some, mine, and_self,
    if_true]

theorem plannedAs_modFlight {u : InFlight → InFlight} (same : ∀ g, (u g).session = g.session ∧ (u g).seq = g.seq)
    (phase : (u f).phase = .planned) (h : findFlight s id seq = some f) :
    plannedAs (modFlight id seq u s) f (u f).plan := by
  obtain ⟨rfl, rfl⟩ := findFlight_eq_some h
  exact ⟨u f, findFlight_modFlight same h, phase, rfl⟩

/-- A command is looked for in the list of those in flight alone. -/
theorem findFlight_of_inflight (e : t.dlr.inflight = s.dlr.inflight) : findFlight t id seq = findFlight s id seq := by
  unfold findFlight
  rw [e]

theorem plannedAs_of_inflight (e : t.dlr.inflight = s.dlr.inflight) : plannedAs t f p ↔ plannedAs s f p := by
  unfold plannedAs
  rw [findFlight_of_inflight e]

theorem readTaken_inflight : (readTaken g s).dlr.inflight = s.dlr.inflight := by
  unfold readTaken freeOverlap
  split <;> rfl

theorem repairFailed_dlr : (repairFailed t f s).dlr = s.dlr :=
  have kept : Keeps [.med] s (repairFailed t f s) := (repairFailed_keeps rfl).mpr (Keeps.refl _ s)
  kept .dlr (by decide)

/-! ## A keyed command runs -/

/-- A single unprotected command that may run is worked out as `planKeyed` says. -/
theorem runKeyed_planned (data : Option Bytes) (fault : Option Nat) (here : findFlight s f.session f.seq = some f)
    (code : f.cmd.opcode = op) (alone : f.trick = none) (bare : f.prot = none) (may : mayRun s f = true) :
    plannedAs (runKeyed op f.session f.seq data fault s) f (planKeyed s f (inputOf f data) fault) := by
  have free : mustRead f = false := by simp [mustRead, bare]
  have ran : runKeyed op f.session f.seq data fault s = readTaken f (setPlan f (planKeyed s f (inputOf f data) fault)
      (countLookup f.ns f.cmd.key (repairFailed s f s))) := by
    simp [runKeyed, here, code, alone, bare, may, free]
  rw [ran, plannedAs_of_inflight readTaken_inflight]
  have same : (countLookup f.ns f.cmd.key (repairFailed s f s)).dlr = s.dlr := repairFailed_dlr
  simp only [setPlan, bare]
  exact plannedAs_modFlight (fun _ => ⟨rfl, rfl⟩) rfl (by rw [findFlight_of_inflight (congrArg _ same), here])

theorem whenRunning_next {k : State → State} (run : running s = true) : whenRunning k s = .next (k s) := by
  simp [whenRunning, run]

/-- A keyed command's row, when the command is alone: the plan that `planKeyed` works out. -/
theorem exec_keyed {r : R} {data : Option Bytes} {fault : Option Nat} (h : runsAlone s f op)
    (row : r = whenRunning (runKeyed op f.session f.seq data fault) s)
    (plan : planKeyed s f (inputOf f data) fault = p) : ∃ t, r = .next t ∧ plannedAs t f p := by
  obtain ⟨run, here, code, alone, bare, may, -⟩ := h
  exact ⟨_, row.trans (whenRunning_next run), plan ▸ runKeyed_planned data fault here code alone bare may⟩

/-! ## The plans -/

/-- Bytes that could not all be read end every write that carries them (R111). -/
theorem planKeyed_dma {fault : Option Nat} (h : runsAlone s f op) (carries : carriesData op = true) :
    planKeyed s f none fault = { status := stDma } := by
  obtain ⟨-, -, rfl, -, bare, -, -⟩ := h
  simp [planKeyed, bare, carries]

/-- A read whose record cannot be had. -/
theorem planKeyed_lost {input : Option Bytes} {fault : Option Nat} (bare : f.prot = none)
    (carries : carriesData f.cmd.opcode = false) (lost : mediaLost s f = true) :
    planKeyed s f input fault = { status := stMedia } := by
  simp [planKeyed, bare, carries, lost]

theorem planKeyed_get {input : Option Bytes} {fault : Option Nat} (h : runsAlone s f 0x01) :
    planKeyed s f input fault = planGet f.cmd (curOf s f) fault := by
  obtain ⟨-, -, code, -, bare, -, media⟩ := h
  simp [planKeyed, carriesData, bare, code, media]

theorem planKeyed_put {d : Bytes} {fault : Option Nat} (h : runsAlone s f 0x02) :
    planKeyed s f (some d) fault = planPut f (versionFor s f) d := by
  obtain ⟨-, -, code, -, bare, -, media⟩ := h
  simp [planKeyed, bare, code, media]

theorem planKeyed_delete {input : Option Bytes} {fault : Option Nat} (h : runsAlone s f 0x03) :
    planKeyed s f input fault = planDelete f (curOf s f) := by
  obtain ⟨-, -, code, -, bare, -, media⟩ := h
  simp [planKeyed, carriesData, bare, code, media]

theorem planKeyed_putAt {d : Bytes} {fault : Option Nat} (h : runsAlone s f 0x04) :
    planKeyed s f (some d) fault = planPutAt f (curOf s f) (versionFor s f) d := by
  obtain ⟨-, -, code, -, bare, -, media⟩ := h
  simp [planKeyed, bare, code, media]

theorem planKeyed_append {d : Bytes} {fault : Option Nat} (h : runsAlone s f 0x05) :
    planKeyed s f (some d) fault = planAppend f (curOf s f) (versionFor s f) d := by
  obtain ⟨-, -, code, -, bare, -, media⟩ := h
  simp [planKeyed, bare, code, media]

theorem planKeyed_exists {input : Option Bytes} {fault : Option Nat} (h : runsAlone s f 0x06) :
    planKeyed s f input fault = planExists (curOf s f) := by
  obtain ⟨-, -, code, -, bare, -, media⟩ := h
  simp [planKeyed, carriesData, bare, code, media]

theorem planKeyed_compare {d : Bytes} {fault : Option Nat} (h : runsAlone s f 0x07) :
    planKeyed s f (some d) fault = planCompare f (curOf s f) (versionFor s f) d := by
  obtain ⟨-, -, code, -, bare, -, media⟩ := h
  simp [planKeyed, bare, code, media]

/-! ## The rows -/

theorem exec_get {fault : Option Nat} (h : runsAlone s f 0x01) (plan : planGet f.cmd (curOf s f) fault = p) :
    ∃ t, exec (.get f.session f.seq fault) s = .next t ∧ plannedAs t f p :=
  exec_keyed h rfl ((planKeyed_get h).trans plan)

theorem exec_existsKey (h : runsAlone s f 0x06) (plan : planExists (curOf s f) = p) :
    ∃ t, exec (.existsKey f.session f.seq) s = .next t ∧ plannedAs t f p :=
  exec_keyed h rfl ((planKeyed_exists h).trans plan)

theorem exec_delete (h : runsAlone s f 0x03) (plan : planDelete f (curOf s f) = p) :
    ∃ t, exec (.delete f.session f.seq) s = .next t ∧ plannedAs t f p :=
  exec_keyed h rfl ((planKeyed_delete h).trans plan)

/-- The row of a write that carries data, when the data could not be read. -/
theorem exec_write_dma {r : R} {bad : Option Bytes} (h : runsAlone s f op)
    (row : r = whenRunning (runKeyed op f.session f.seq bad none) s) (carries : carriesData op = true)
    (short : inputOf f bad = none) : ∃ t, r = .next t ∧ plannedAs t f { status := stDma } :=
  exec_keyed h row (by rw [short, planKeyed_dma h carries])

section
variable {brought : Option Bytes} {d : Bytes} (read : inputOf f brought = some d)
include read

theorem exec_put (h : runsAlone s f 0x02) (plan : planPut f (versionFor s f) d = p) :
    ∃ t, exec (.put f.session f.seq brought) s = .next t ∧ plannedAs t f p :=
  exec_keyed h rfl (by rw [read, planKeyed_put h, plan])

theorem exec_putAt (h : runsAlone s f 0x04) (plan : planPutAt f (curOf s f) (versionFor s f) d = p) :
    ∃ t, exec (.putAt f.session f.seq brought) s = .next t ∧ plannedAs t f p :=
  exec_keyed h rfl (by rw [read, planKeyed_putAt h, plan])

theorem exec_append (h : runsAlone s f 0x05) (plan : planAppend f (curOf s f) (versionFor s f) d = p) :
    ∃ t, exec (.append f.session f.seq brought) s = .next t ∧ plannedAs t f p :=
  exec_keyed h rfl (by rw [read, planKeyed_append h, plan])

theorem exec_compareAndPut (h : runsAlone s f 0x07) (plan : planCompare f (curOf s f) (versionFor s f) d = p) :
    ∃ t, exec (.compareAndPut f.session f.seq brought) s = .next t ∧ plannedAs t f p :=
  exec_keyed h rfl (by rw [read, planKeyed_compare h, plan])
end

/-! ## A command that is not keyed -/

theorem readyFor_eq_some (h : readyFor s op id seq = some f) : findFlight s id seq = some f := by
  unfold readyFor at h
  split at h
  · cases h
  · next g here =>
    split at h
    · split at h
      · exact here.trans h
      · cases h
    · cases h

/-- The row of a command that is worked out in place. -/
theorem next_modFlight {r : R} {u : InFlight → InFlight} (h : readyFor s op id seq = some f)
    (row : r = .next (modFlight id seq u s)) (same : ∀ g, (u g).session = g.session ∧ (u g).seq = g.seq)
    (phase : (u f).phase = .planned) (plan : (u f).plan = p) : ∃ t, r = .next t ∧ plannedAs t f p :=
  ⟨_, row, plan ▸ plannedAs_modFlight same phase (readyFor_eq_some h)⟩

/-- A command worked out as `p`. -/
def plannedWith (p : Plan) (g : InFlight) : InFlight := { g with plan := p, phase := .planned }

theorem next_plannedWith {r : R} (h : readyFor s op id seq = some f) (row : r = .next (modFlight id seq (plannedWith p) s)) :
    ∃ t, r = .next t ∧ plannedAs t f p :=
  next_modFlight h row (fun _ => ⟨rfl, rfl⟩) rfl rfl

theorem exec_expireHint (run : running s = true) (h : readyFor s 0x08 id seq = some f) :
    exec (.expireHint id seq) s = .next (modFlight id seq
      (plannedWith { effect := .hint f.ns (scopeOf f.cmd) f.cmd.suit (areaLo f.cmd) (areaHi f.cmd) }) s) := by
  change execExpireHint id seq s = _
  rw [execExpireHint, whenRunning_next run]
  simp only [h]
  rfl

theorem exec_enumerate {fault : Option Nat} (run : running s = true) (h : readyFor s 0x09 id seq = some f) :
    exec (.enumerate id seq fault) s = .next (if s.idx.failed.any (fun k => decide (groupOf (bucket1 (areaLo f.cmd)) ≤ k ∧
      k < groupOf (bucket1 (areaLo f.cmd)) + f.scan)) || writesBefore s f then s
      else modFlight id seq (plannedWith
        (if f.spoiled || scanUnread s f then { status := stMedia } else planData (enumOutput s f) fault)) s) := by
  change execEnumerate id seq fault s = _
  rw [execEnumerate, whenRunning_next run]
  simp only [h]
  rfl

theorem exec_flushSession (run : running s = true) (h : readyFor s 0x11 id seq = some f) :
    exec (.flushSession id seq) s = .next (if earlierOpen s f || (toMedium f.cmd && earlierUnprogrammed s f) then s
      else modFlight id seq (fun g => { g with phase := .planned }) s) := by
  change execFlushSession id seq s = _
  rw [execFlushSession, whenRunning_next run]
  simp only [h]

theorem exec_journalQuery {fault : Option Nat} (run : running s = true) (h : readyFor s 0x12 id seq = some f) :
    exec (.journalQuery id seq fault) s = .next (modFlight id seq (plannedWith
      (planData (queryOutput s (queryTarget f.cmd.area) (queryFirst f.cmd.area) (queryCount f.cmd.area)) fault)) s) := by
  change execJournalQuery id seq fault s = _
  rw [execJournalQuery, whenRunning_next run]
  simp only [h]
  rfl

/-- A trick with no members settles none: its header is worked out alone. -/
theorem exec_trick_header {data : List (Option Bytes)} {faults : List (Option Nat)} (run : running s = true)
    (here : findFlight s id seq = some f) (code : f.cmd.opcode = 0x10) (header : f.trick = some seq) (may : mayRun s f = true)
    (alone : (groupOfFlight s f).filter (fun g => decide (g.seq ≠ seq)) = []) :
    exec (.trick id seq data faults) s =
      .next (modFlight id seq (plannedWith { status := headerStatus [] none, version := s.commits }) s) := by
  change whenRunning (runTrick id seq data faults) s = _
  rw [whenRunning_next run]
  have settled : [].all (mayRun s) = true ∧ [].any mustRead = false := ⟨rfl, rfl⟩
  simp only [runTrick, here, code, header, may, alone, settled, ne_eq, not_true, Bool.true_eq_false, Bool.false_eq_true,
    or_self, if_false]
  rfl

end

/-- Settles O17: each command's plan is the branch of `planGet` or `planExists` that its hypotheses name. -/
theorem readCommandsPlan : Obligations.ReadCommandsPlan := by
  intro s f
  refine ⟨fun h => ⟨fun gone => ?_, fun x held beyond => ?_, fun x n got held inside hn hgot => ?_,
    fun x k n got held inside hn hgot short => ?_⟩, fun h => ⟨fun gone => ?_, fun x held => ?_⟩,
    fun run here alone bare may lost => ⟨fun code => ?_, fun code => ?_⟩⟩
  · exact exec_get h (by simp [planGet, gone])
  · exact exec_get h (by simp [planGet, held, beyond])
  · subst hn hgot
    exact exec_get h (by simp [planGet, held, Nat.not_lt.mpr inside])
  · subst hn hgot
    exact exec_get h (by simp only [planGet, held, if_neg (Nat.not_lt.mpr inside), if_pos short])
  · exact exec_existsKey h (by simp [planExists, gone])
  · exact exec_existsKey h (by simp [planExists, held])
  · exact ⟨_, whenRunning_next run, planKeyed_lost bare (by simp [carriesData, code]) lost ▸
      runKeyed_planned none none here code alone bare may⟩
  · exact ⟨_, whenRunning_next run, planKeyed_lost bare (by simp [carriesData, code]) lost ▸
      runKeyed_planned none none here code alone bare may⟩

/-- Settles O18: each command's plan is the branch of its own planning function that its hypotheses name. -/
theorem writeCommandsPlan : Obligations.WriteCommandsPlan := by
  intro s f
  refine ⟨fun h => ⟨fun gone => ?_, fun x held => ?_⟩, fun bad short =>
    ⟨fun h => ?_, fun h => ?_, fun h => ?_, fun h => ?_⟩,
    fun brought d read len => ⟨fun h => ?_, fun h => ⟨fun gone => ?_, fun x held beyond => ?_, fun x held inside zero => ?_,
      fun x held inside some_ => ?_⟩, fun h => ⟨fun gone => ?_, fun x held beyond => ?_, fun x held zero fits => ?_,
      fun x held fits some_ => ?_⟩, fun h => ⟨fun gone zero => ?_, fun gone other => ?_, fun x held eq => ?_,
      fun x held other => ?_⟩⟩⟩
  · exact exec_delete h (by simp [planDelete, gone])
  · exact exec_delete h (by simp [planDelete, held])
  · exact exec_write_dma h rfl rfl short
  · exact exec_write_dma h rfl rfl short
  · exact exec_write_dma h rfl rfl short
  · exact exec_write_dma h rfl rfl short
  · exact exec_put read h rfl
  · exact exec_putAt read h (by simp [planPutAt, gone])
  · exact exec_putAt read h (by simp [planPutAt, held, beyond])
  · exact exec_putAt read h (by simp [planPutAt, held, Nat.not_lt.mpr inside, zero])
  · exact exec_putAt read h (by simp [planPutAt, held, Nat.not_lt.mpr inside, some_, overlay, len])
  · exact exec_append read h (by simp [planAppend, planPut, gone])
  · exact exec_append read h (by simp [planAppend, held, beyond])
  · exact exec_append read h (by simp [planAppend, held, zero, Nat.not_lt.mpr fits])
  · exact exec_append read h (by simp [planAppend, held, some_, Nat.not_lt.mpr fits])
  · exact exec_compareAndPut read h (by simp only [planCompare, gone, if_pos zero]; rfl)
  · exact exec_compareAndPut read h (by simp only [planCompare, gone, if_neg other])
  · exact exec_compareAndPut read h (by simp only [planCompare, held, if_pos eq]; rfl)
  · exact exec_compareAndPut read h (by simp only [planCompare, held, if_neg other])

/-- Settles O19: each row, its command ready, changes that command in flight alone; a trick with no members settles none. -/
theorem otherCommandsPlan : Obligations.OtherCommandsPlan := by
  intro s id seq f fault run
  refine ⟨fun h => ?_, fun h sound first whole read => ?_, fun h sound first lost => ?_, fun h writes => ?_,
    fun h first medium => ?_, fun h early => ?_, fun h => ?_, fun data faults here code header may alone => ?_⟩
  · exact next_plannedWith h (exec_expireHint run h)
  · exact next_plannedWith h (by simp [exec_enumerate run h, sound, first, whole, read])
  · exact next_plannedWith h (by rcases lost with e | e <;> simp [exec_enumerate run h, sound, first, e])
  · simp [exec_enumerate run h, writes]
  · have free : (earlierOpen s f || (toMedium f.cmd && earlierUnprogrammed s f)) = false := by
      rcases medium with e | e <;> simp [first, e]
    exact next_modFlight (u := fun g => { g with phase := .planned }) h (by rw [exec_flushSession run h, free]; rfl)
      (fun _ => ⟨rfl, rfl⟩) rfl rfl
  · simp [exec_flushSession run h, early]
  · exact next_plannedWith h (exec_journalQuery run h)
  · exact ⟨_, exec_trick_header run here code header may alone,
      plannedAs_modFlight (u := plannedWith _) (fun _ => ⟨rfl, rfl⟩) rfl here⟩

end Sys2Proof.Machine
end

section
/-! PROOFS. The settings that act (R100, R324, R424, R628, R633). -/

namespace Sys2Proof.Machine

open Sys2Proof

/-! ## The write of one page -/

section
variable {s u : State} {b page : Nat} {x : Mailbox} {asks : Nat → Bool}

/-- A row that writes one page is a SETTING_WRITE: it is taken and carried out (R252). -/
theorem takeBox_page (f : Mailbox → State → State) (h : pageRuns s b page x) (asked : asks (writtenPage x) = true) :
    whenRunning (takeBox b (writesPage page asks) true f) s = .next (f x (boxTaken s)) := by
  obtain ⟨⟨run, first, rfl, busy, code, allowed⟩, hpage, -, -⟩ := h
  simp [whenRunning, run, takeBox, first, busy, writesPage, code, hpage, asked, allowed, boxTaken]

/-- What the page's own checks say decides (R254). -/
theorem settingWrite_of_pageRuns (h : pageRuns s b page x) :
    settingWrite b x (boxTaken s) = (pageWrite (boxTaken s) page x.target (writtenPage x)).elim
      (finishBox b stPageField [] (boxTaken s)) (finishBox b stOk []) := by
  obtain ⟨-, rfl, format, n, sized, inside⟩ := h
  have known : x.format = pageFormat (boxTaken s) x.page := format
  simp only [settingWrite, sized, known, ne_eq, not_true, false_or, Nat.not_le.mpr inside, if_false]
  change (match pageWrite (boxTaken s) x.page x.target (writtenPage x) with | none => _ | some u => _) = _
  cases pageWrite (boxTaken s) x.page x.target (writtenPage x) <;> rfl

theorem pageRow_accepts (h : pageRuns s b page x) (asked : asks (writtenPage x) = true)
    (accepts : pageWrite (boxTaken s) page x.target (writtenPage x) = some u) :
    whenRunning (takeBox b (writesPage page asks) true (settingWrite b)) s = .next (finishBox b stOk [] u) := by
  rw [takeBox_page _ h asked, settingWrite_of_pageRuns h, accepts, Option.elim_some]

theorem pageRow_refuses (h : pageRuns s b page x) (asked : asks (writtenPage x) = true)
    (refuses : pageWrite (boxTaken s) page x.target (writtenPage x) = none) :
    whenRunning (takeBox b (writesPage page asks) true (settingWrite b)) s =
      .next (finishBox b stPageField [] (boxTaken s)) := by
  rw [takeBox_page _ h asked, settingWrite_of_pageRuns h, refuses, Option.elim_none]

/-- A mailbox command runs in boot_stage 4 alone (R251). -/
theorem stage_of_pageRuns (h : pageRuns s b page x) : (boxTaken s).boot.stage = 4 := by
  obtain ⟨⟨-, -, -, -, -, allowed⟩, -⟩ := h
  by_contra other
  have outside : s.boot.stage ≠ 4 := other
  simp [boxRefusal, outside] at allowed
end

/-! ## Namespaces -/

section
variable {s u : State} {ns v : Nat}

theorem nsAt_finishBox (b st : Nat) (out : Bytes) : nsAt (finishBox b st out s) ns = nsAt s ns := by
  have same : (finishBox b st out s).nss = s.nss := finishBox_same b st out s (a := .nss) (by decide)
  rw [nsAt, same, nsAt]

theorem nsAt_beginRelease (n : Nat) : nsAt (beginRelease ns s) n = nsAt s n := rfl

theorem write0201_release_none (hv : bit v 1 = true) (other : (nsAt s ns).state ≠ 2) : write0201 s ns v = none := by
  simp [write0201, hv, other]

/-- A release that is accepted is that of a DISABLED namespace, which it leaves RELEASING (R100, Table 03-1). -/
theorem write0201_release_states (hv : bit v 1 = true) (h : write0201 s ns v = some u) :
    (nsAt s ns).state = 2 ∧ (nsAt u ns).state = 3 ∧ ∀ n, n ≠ ns → nsAt u n = nsAt s n := by
  by_cases held : (nsAt s ns).state = 2
  · simp [write0201, hv, held] at h
    obtain ⟨-, rfl⟩ := h
    refine ⟨held, ?_, fun n other => ?_⟩
    · rw [nsAt_beginRelease, nsAt_setNs_same]
    · rw [nsAt_beginRelease, nsAt_setNs_ne _ _ _ _ other]
  · rw [write0201_release_none hv held] at h
    cases h

theorem exec_namespaceFreed (run : running s = true) (releasing : (nsAt s ns).state = 3) (empty : nsHasEntry s ns = false)
    (idle : ∀ f ∈ s.dlr.inflight, f.ns = ns → isWrite f.cmd.opcode = false) :
    exec (.namespaceFreed ns) s = .next (setNs ns { nsAt s ns with state := 0, objects := 0, bytes := 0 } s) := by
  have none_under_way : s.dlr.inflight.any (fun f => decide (f.ns = ns) && isWrite f.cmd.opcode) = false := by
    simpa using idle
  change execNamespaceFreed ns s = _
  simp [execNamespaceFreed, whenRunning, guard, run, releasing, empty, none_under_way]
end

/-! ## Time -/

section
variable {s u : State} {v : Nat}

/-- The time of the fabric's own master does not hang on the fields of page 0x0502. -/
theorem write0502_time (asked : bits v 191 128 ≠ 0) (h : write0502 s v = some u) : ownMaster s = true ∧
    (s.clk.first = false → u.clk.time = bits v 191 128 ∧ (s.clk.stamped = true → s.clk.stamp.time < u.clk.time)) := by
  simp only [write0502, asked, if_false] at h
  split at h
  · cases h
  · simp only [setTime] at h
    split at h
    · cases h
    · next own =>
      refine ⟨by simpa [ownMaster, timeMaster, joined, reachedNodes] using own, fun first => ?_⟩
      simp only [first, if_true, pageIf] at h
      split at h
      · next later =>
        cases h
        exact ⟨rfl, fun stamped => by simpa [stepTime, stamped] using later⟩
      · cases h

theorem write0502_refused (asked : bits v 191 128 ≠ 0) (other : ownMaster s = false) : write0502 s v = none := by
  by_contra accepted
  obtain ⟨u, h⟩ := Option.ne_none_iff_exists'.mp accepted
  exact absurd (write0502_time asked h).1 (by simp [other])
end

/-! ## The event recorder -/

/-- What an event out of ROM leaves of the recorder: it waits among the pending ones (R628, R631). -/
def dated (e : Recorder) : List (Nat × EvRec) × Option (Nat × Nat) × Nat := (e.store, e.calendar, e.epoch)

section
variable {s : State} {r : EvRec}

theorem evr_finishBox (b st : Nat) (out : Bytes) : (finishBox b st out s).evr = s.evr :=
  finishBox_same b st out s (a := .evr) (by decide)

theorem dated_warn : dated (warn s).evr = dated s.evr :=
  congrArg dated ((warn_keeps (wB := [.host, .out]) rfl).mpr (Keeps.refl _ s) .evr (by decide) :)

theorem dated_countDrops (l : List EvRec) (e : Recorder) : dated (l.foldl (fun e x => countDrop x.sev e) e) = dated e := by
  induction l generalizing e with
  | nil => rfl
  | cons x l ih => exact ih (countDrop x.sev e)

theorem dated_startWrite : dated (startWrite s).evr = dated s.evr := by
  unfold startWrite
  split
  · split
    · split
      · rw [dated_warn]
        exact dated_countDrops _ s.evr
      · rfl
    · rfl
  · rfl

theorem dated_displace (need n : Nat) (e : Recorder) : dated (displace need n e) = dated e := by
  induction n generalizing e with
  | zero => rfl
  | succ n ih =>
    unfold displace
    split
    · rfl
    · split
      · rfl
      · exact ih _

theorem dated_enqueue : dated (enqueue r s).evr = dated s.evr := by
  have room : dated (if 2 ≤ r.sev then displace (recBytes r) s.evr.pending.length s.evr else s.evr) = dated s.evr := by
    split
    · exact dated_displace _ _ _
    · rfl
  unfold enqueue
  split
  · rfl
  · dsimp only
    generalize (if 2 ≤ r.sev then displace (recBytes r) s.evr.pending.length s.evr else s.evr) = e at room ⊢
    split
    · exact room
    · split
      · rw [dated_warn, dated_startWrite]
        exact room
      · rw [dated_startWrite]
        exact room

theorem dated_event {code : Nat} {payload : List Nat} (serves : s.boot.stage = 4) :
    dated (event code payload s).evr = dated s.evr := by
  have out : inRom s = false := by simp [inRom, serves]
  unfold event
  split
  · rfl
  · rw [out]
    simp only [Bool.false_eq_true, if_false]
    split
    · split
      · rw [dated_warn]
        rfl
      · rfl
    · exact dated_enqueue

theorem dated_reportDrops : dated (reportDrops s).evr = dated s.evr := by
  unfold reportDrops
  split
  · rfl
  · exact dated_enqueue

/-- The clear empties the store and leaves the calendar (R628). -/
theorem dated_clearStore (serves : s.boot.stage = 4) : dated (clearStore s).evr = ([], s.evr.calendar, s.evr.epoch) := by
  rw [clearStore, dated_reportDrops]
  exact dated_event serves

/-- A calendar that is given is counted from the operating time and starts an epoch (R633). -/
theorem dated_setCalendar {c : Nat} (serves : s.boot.stage = 4) (given : c ≠ 0xFFFFFFFF) (set : c ≠ 0) :
    dated (setCalendar c s).evr = (s.evr.store, some (c, opSeconds s), s.evr.epoch + 1) := by
  simp only [setCalendar, given, set, false_or, false_and, if_false]
  exact dated_event serves

theorem setCalendar_boot (c : Nat) : (setCalendar c s).boot = s.boot :=
  (setCalendar_keeps (wB := [.host, .evr, .out]) rfl).mpr (Keeps.refl _ s) .boot (by decide)

/-- What page 0x0B01 sets before its calendar and its clear. -/
def recorderSet (v : Nat) (s : State) : State :=
  { s with evr := { s.evr with stopFull := bit v 0, minSev := bits v 4 2, holdMs := bits v 79 64 } }

/-- What an accepted write of page 0x0B01 leaves. -/
def recorderWritten (v : Nat) (s : State) : State :=
  if bit v 1 then clearStore (setCalendar (bits v 63 32) (recorderSet v s)) else setCalendar (bits v 63 32) (recorderSet v s)

section
variable {v : Nat}

theorem write0b01_accepts (sev : fieldIn v 4 2 0 4 = true) (hold : fieldIn v 79 64 0 10000 = true) :
    write0b01 s v = some (recorderWritten v s) := by
  simp only [write0b01, sev, hold, pageIf, Bool.and_self, if_true]
  rfl

theorem serves_setCalendar (serves : s.boot.stage = 4) : (setCalendar (bits v 63 32) (recorderSet v s)).boot.stage = 4 := by
  rw [setCalendar_boot]
  exact serves

theorem calendar_recorderWritten (serves : s.boot.stage = 4) (given : bits v 63 32 ≠ 0xFFFFFFFF) (set : bits v 63 32 ≠ 0) :
    (recorderWritten v s).evr.calendar = some (bits v 63 32, opSeconds s) ∧
      (recorderWritten v s).evr.epoch = s.evr.epoch + 1 := by
  have counted : dated (setCalendar (bits v 63 32) (recorderSet v s)).evr = _ :=
    dated_setCalendar (s := recorderSet v s) serves given set
  obtain ⟨-, calendar, epoch⟩ : _ ∧ _ ∧ _ := by simpa only [dated, Prod.mk.injEq] using counted
  unfold recorderWritten
  split
  · have cleared := dated_clearStore (serves_setCalendar (v := v) serves)
    obtain ⟨-, calendar', epoch'⟩ : _ ∧ _ ∧ _ := by simpa only [dated, Prod.mk.injEq] using cleared
    exact ⟨calendar'.trans calendar, epoch'.trans epoch⟩
  · exact ⟨calendar, epoch⟩

theorem store_recorderWritten (serves : s.boot.stage = 4) (clear : bit v 1 = true) : (recorderWritten v s).evr.store = [] := by
  rw [recorderWritten, if_pos clear]
  exact congrArg Prod.fst (dated_clearStore (serves_setCalendar serves))
end
end

/-! ## The classifier -/

theorem orderedInsert_valid {a h : Nat} {e : EntryPage} {s : State} (valid : e.valid = true) :
    (tfind (orderedInsert a h e s).cam.entries a).isSome = true := by
  simp [orderedInsert, writeEntry, valid]

/-- Settles O36: each row is the write of its page, which the model's write of that page decides. -/
theorem settingsThatAct : Obligations.SettingsThatAct := by
  intro s b x
  refine ⟨fun h release u accepts => ?_, fun h release other => ?_, fun ns run releasing empty idle => ?_,
    fun h asked u accepts first => ?_, fun h asked other => ?_, fun h sev hold => ⟨fun given set => ?_, fun clear => ?_⟩,
    fun h fits valid => ?_, fun h unfit => ?_⟩
  · obtain ⟨held, gone, others⟩ := write0201_release_states release accepts
    refine ⟨_, pageRow_accepts h release accepts, finishBox_says b stOk [] u, held, ?_, fun n other => ?_⟩
    · rw [nsAt_finishBox, gone]
    · rw [nsAt_finishBox, others n other]
      rfl
  · exact ⟨_, pageRow_refuses h release (write0201_release_none release other), finishBox_says b stPageField [] _,
      finishBox_same b stPageField [] _ (a := .nss) (by decide)⟩
  · exact ⟨_, exec_namespaceFreed run releasing empty idle, nsAt_setNs_same ns _ s,
      fun n other => nsAt_setNs_ne ns _ s n other⟩
  · obtain ⟨stepped, later⟩ := (write0502_time asked accepts).2 first
    have same : (finishBox b stOk [] u).clk = u.clk := finishBox_same b stOk [] u (a := .clk) (by decide)
    refine ⟨_, pageRow_accepts h (decide_eq_true asked) accepts, finishBox_says b stOk [] u, ?_⟩
    rw [same]
    exact ⟨stepped, later⟩
  · exact ⟨_, pageRow_refuses h (decide_eq_true asked) (write0502_refused asked other), finishBox_says b stPageField [] _,
      finishBox_same b stPageField [] _ (a := .clk) (by decide)⟩
  · refine ⟨_, pageRow_accepts h (decide_eq_true given) (write0b01_accepts sev hold), finishBox_says b stOk [] _, ?_⟩
    rw [evr_finishBox]
    exact calendar_recorderWritten (stage_of_pageRuns h) given set
  · refine ⟨_, pageRow_accepts h clear (write0b01_accepts sev hold), finishBox_says b stOk [] _, ?_⟩
    rw [evr_finishBox]
    exact store_recorderWritten (stage_of_pageRuns h) clear
  · have placed : write0602 (boxTaken s) x.target (writtenPage x) = some (orderedInsert x.target (bits (writtenPage x) 14 0)
        (entryPage (writtenPage x) 64) (boxTaken s)) := if_pos fits
    have same := finishBox_same b stOk [] (orderedInsert x.target (bits (writtenPage x) 14 0)
        (entryPage (writtenPage x) 64) (boxTaken s)) (a := .cam) (by decide)
    refine ⟨_, pageRow_accepts h rfl placed, finishBox_says b stOk [] _, same, ?_⟩
    exact same ▸ orderedInsert_valid valid
  · have refused : write0602 (boxTaken s) x.target (writtenPage x) = none := if_neg (Bool.eq_false_iff.mp unfit)
    exact ⟨_, pageRow_refuses h rfl refused, finishBox_says b stPageField [] _,
      finishBox_same b stPageField [] _ (a := .cam) (by decide)⟩

end Sys2Proof.Machine
end

section
/-! PROOFS. What client datagrams do to their session (R142, R169, R331, R332, R337). -/

namespace Sys2Proof.Machine

open Sys2Proof

section
variable {s : State} {d : Dgram} {kind t id seq : Nat} {x : Session}

/-- A datagram reaches its session, which notes when (R331). -/
def reached (d : Dgram) (s : State) : State := modSess d.session (fun y => { y with lastAt := now s }) s

theorem sessionFor_eq_some (h : sessionFor s d t = some x) : sessFind s d.session = some x := by
  unfold sessionFor at h
  split at h
  · cases h
  · next y found =>
    split at h
    · split at h
      · exact found.trans h
      · cases h
    · cases h

/-- The row of a datagram that reaches its session does what its kind says there. -/
theorem handleDatagram_reaches (f : Session → State → State) (h : clientReaches s d kind t x) :
    whenRunning (handleDatagram kind d f) s = .next (f x (reached d s)) := by
  obtain ⟨run, trunk, header, known, sized, rfl, session⟩ := h
  simp [whenRunning, run, handleDatagram, trunk, header, known, sized, session, reached]

/-! ## Commands -/

theorem answer_dlr (status stamp orig : Nat) : (answer id seq status stamp orig s).dlr = s.dlr :=
  post_dlr _ _ _

theorem arriveSeq_next {c : Cmd} (live : x.draining = false)
    (new : ∀ b ∈ s.dlr.arrived, ¬ (b.session = id ∧ b.seq = x.next)) :
    arriveSeq id x.next x c s = { s with dlr := { s.dlr with arrived := s.dlr.arrived ++
      [{ session := id, seq := x.next, cmd := c, at_ := now s, queued := true }] } } := by
  have here : s.dlr.arrived.any (fun b => decide (b.session = id ∧ b.seq = x.next)) = false := by
    simpa only [List.any_eq_false, decide_eq_true_eq] using new
  simp only [arriveSeq, here, live, Bool.or_self, Bool.false_eq_true, if_false, if_true, decide_true]

theorem arriveSeq_beyond_window {c : Cmd} (other : seq ≠ x.next) (after : later seq x.next = true)
    (far : 4095 < (seq + 2 ^ 32 - x.next) % 2 ^ 32) :
    (arriveSeq id seq x c s).dlr = { s.dlr with oow := s.dlr.oow + 1 } := by
  unfold arriveSeq
  dsimp only
  rw [if_neg other, if_pos after, if_neg (Nat.not_le.mpr far), answer_dlr]

/-- A command is counted as taken, and its stage as touched (R169). -/
def staged (d : Dgram) (s : State) : State :=
  countTaken (if carriesData (clientCmd (bodyOf d)).opcode ∧ (clientCmd (bodyOf d)).stage ≠ 0 then
    touchStage d.session (clientCmd (bodyOf d)).stage s else s)

/-- A command of no withdrawn trick is counted as taken, and comes at its sequence. -/
theorem exec_clientCommand (h : clientReaches s d 3 t x)
    (stays : withdrawnTrick x d.sequence (clientCmd (bodyOf d)) = false) : ∃ u, u.dlr = (countTaken s).dlr ∧ now u = now s ∧
      exec (.clientCommand d) s = .next (arriveSeq d.session d.sequence x (clientCmd (bodyOf d)) u) := by
  refine ⟨staged d (reached d s), ?_, ?_, ?_⟩
  · unfold staged
    split <;> rfl
  · unfold staged
    split <;> rfl
  · refine (handleDatagram_reaches _ h).trans ?_
    simp only [stays, Bool.false_eq_true, if_false]
    rfl

/-! ## Stages -/

/-- Bytes of a handle that holds none begin its stage, when the session has the room (R169). -/
theorem exec_clientStage_new (h : clientReaches s d 4 t x)
    (new : ∀ p ∈ s.fab.stages, ¬ (p.1 = d.session ∧ p.2.handle = d.wordA))
    (room : stagedBytes s d.session + (stagePut [] d.wordB (bodyOf d)).length ≤ s.fab.stageMib * 1048576) :
    exec (.clientStage d) s = .next { reached d s with fab := { s.fab with stages := s.fab.stages ++
      [(d.session, { handle := d.wordA, at_ := now s, bytes := stagePut [] d.wordB (bodyOf d),
                     total := if d.final then some (d.wordB + (bodyOf d).length) else none })] } } := by
  refine (handleDatagram_reaches _ h).trans ?_
  have held : (reached d s).fab = s.fab := rfl
  have none_held : s.fab.stages.find? (fun p => decide (p.1 = d.session ∧ p.2.handle = d.wordA)) = none := by
    simpa only [List.find?_eq_none, decide_eq_true_eq] using new
  have all_stay : s.fab.stages.filter (fun p => !decide (p.1 = d.session ∧ p.2.handle = d.wordA)) = s.fab.stages := by
    simpa only [List.filter_eq_self, Bool.not_eq_true', decide_eq_false_iff_not] using new
  have fits : ¬ s.fab.stageMib * 1048576 < stagedBytes (reached d s) d.session +
      ((stagePut [] d.wordB (bodyOf d)).length - ([] : Tbl Byte).length) := Nat.not_lt.mpr room
  simp only [takeSegment, held, none_held, all_stay]
  rw [if_neg fits]
  rfl

/-! ## Withdrawals -/

theorem dropOrder_dlr : (dropOrder id seq s).dlr = s.dlr :=
  (dropOrder_keeps (wB := [.host, .lanes, .fab, .fabc, .out]) rfl).mpr (Keeps.refl _ s) .dlr (by decide)

theorem dropOrder_sessions : (dropOrder id seq s).sessions = s.sessions :=
  (dropOrder_keeps (wB := [.host, .lanes, .fab, .fabc, .out]) rfl).mpr (Keeps.refl _ s) .sessions (by decide)

/-- A withdrawn sequence is counted by the row that withdraws it, not for each member of its group. -/
theorem withdrawOne_withdrawn : (withdrawOne id seq s).dlr.withdrawn = s.dlr.withdrawn := by
  have dropped : (dropArrived id [seq] (dropOrder id seq s)).dlr.withdrawn = s.dlr.withdrawn :=
    (congrArg Dealer.withdrawn (dropOrder_dlr (id := id) (seq := seq) (s := s)) :)
  unfold withdrawOne
  dsimp only [modSess]
  split
  · exact dropped
  · split <;> exact dropped

theorem each_withdrawOne_withdrawn (l : List Nat) : (each (withdrawOne id) l s).dlr.withdrawn = s.dlr.withdrawn := by
  induction l generalizing s with
  | nil => rfl
  | cons n l ih => exact ih.trans withdrawOne_withdrawn

theorem withdraw_next (fresh : wasWithdrawn x x.next = false) (now_ : later x.next x.next = false) :
    (withdraw id x.next x s).dlr.withdrawn = s.dlr.withdrawn + 1 := by
  have counted : (passWithdrawn id (each (withdrawOne id) (withdrawGroup s id x.next) s)).dlr.withdrawn = s.dlr.withdrawn :=
    each_withdrawOne_withdrawn _
  simp [withdraw, now_, fresh, answer_dlr, counted]

/-! ## Closes -/

theorem sessFind_modSess_same (f : Session → Session) : sessFind (modSess id f s) id = (sessFind s id).map f :=
  tfind_tadj_same _ _ _

/-- Orders are no part of what the dealer holds, nor of the sessions. -/
theorem each_dropOrder_dlr (l : List Arrived) : (each (fun a s => dropOrder id a.seq s) l s).dlr = s.dlr := by
  induction l generalizing s with
  | nil => rfl
  | cons a l ih => exact ih.trans dropOrder_dlr

theorem each_dropOrder_sessions (l : List Arrived) : (each (fun a s => dropOrder id a.seq s) l s).sessions = s.sessions := by
  induction l generalizing s with
  | nil => rfl
  | cons a l ih => exact ih.trans dropOrder_sessions

/-- A session that is drained takes no more commands, and holds none that has not been admitted (R337). -/
theorem drain_session (found : sessFind s id = some x) : sessFind (drain id s) id = some { x with draining := true } ∧
    ∀ a ∈ (drain id s).dlr.arrived, a.session ≠ id := by
  have ends : ∀ u : State, u.sessions = tadj s.sessions id (fun y => { y with draining := true }) →
      u.dlr.arrived = (dropArrived id ((s.dlr.arrived.filter (fun a => decide (a.session = id))).map (·.seq)) s).dlr.arrived →
      sessFind u id = some { x with draining := true } ∧ ∀ a ∈ u.dlr.arrived, a.session ≠ id := by
    intro u sessions arrived
    refine ⟨?_, fun a held mine => ?_⟩
    · rw [sessFind, sessions, tfind_tadj_same]
      exact congrArg (Option.map _) found
    · rw [arrived, dropArrived, List.mem_filter] at held
      obtain ⟨here, kept⟩ := held
      have other := of_decide_eq_false ((Bool.not_eq_true' _).mp kept)
      refine other ⟨mine, ?_⟩
      exact List.mem_map_of_mem (List.mem_filter.mpr ⟨here, decide_eq_true mine⟩)
  unfold drain
  simp only [found]
  split
  · refine ends _ ?_ ?_
    · simp only [modSess, dropArrived, each_dropOrder_sessions]
    · simp only [modSess, dropArrived, each_dropOrder_dlr]
  · refine ends _ ?_ ?_
    · simp only [setQueue, setCtx, modSess, dropArrived, each_dropOrder_sessions]
    · simp only [setQueue, setCtx, modSess, dropArrived, each_dropOrder_dlr]

/-- A close drains the session and notes who closes it (R337); the answers that are kept are for sessions that are gone. -/
theorem exec_clientClose (h : clientReaches s d 8 t x) (live : x.draining = false) : exec (.clientClose d) s =
    .next (modSess d.session (fun y => { y with closer := some (d.srcAddr, d.srcPort) }) (drain d.session (reached d s))) := by
  have row := handleDatagram_reaches (fun x s => if x.draining then s
    else modSess d.session (fun y => { y with closer := some (d.srcAddr, d.srcPort) }) (drain d.session s)) h
  obtain ⟨run, trunk, -, -, -, -, session⟩ := h
  simp only [live, Bool.false_eq_true, if_false, whenRunning, run, if_true] at row
  change execClientClose d s = _
  simp only [execClientClose, whenRunning, run, if_true, trunk, sessionFor_eq_some session]
  generalize List.find? _ s.fab.closeAnswers = again
  cases again <;> exact row

end

/-- Settles O26: each row does at its session what its kind says. -/
theorem clientDatagrams : Obligations.ClientDatagrams := by
  intro s d t x
  refine ⟨fun h stays next live new => ?_, fun h stays other after far => ?_, fun h new room => ?_,
    fun h fresh next now_ => ?_, fun h live => ?_⟩
  · obtain ⟨u, dlr, time, row⟩ := exec_clientCommand h stays
    rw [next] at row new ⊢
    rw [arriveSeq_next live (by rw [dlr]; exact new), time] at row
    refine ⟨_, row, ?_, ?_⟩ <;> simp only [dlr, countTaken]
  · obtain ⟨u, dlr, -, row⟩ := exec_clientCommand h stays
    refine ⟨_, row, ?_, ?_⟩ <;> simp only [arriveSeq_beyond_window other after far, dlr, countTaken]
  · exact ⟨_, _, exec_clientStage_new h new room, rfl, rfl, rfl, rfl⟩
  · rw [next] at fresh now_
    refine ⟨_, handleDatagram_reaches _ h, ?_⟩
    rw [next]
    exact withdraw_next (s := reached d s) fresh now_
  · have found : sessFind (reached d s) d.session = some { x with lastAt := now s } := by
      obtain ⟨-, -, -, -, -, -, session⟩ := h
      exact (sessFind_modSess_same _).trans (congrArg (Option.map _) (sessionFor_eq_some session))
    obtain ⟨drained, gone⟩ := drain_session found
    exact ⟨_, _, exec_clientClose h live, (sessFind_modSess_same _).trans (congrArg (Option.map _) drained), rfl, rfl, gone⟩

end Sys2Proof.Machine
end

section
/-! PROOFS. The power states and the passing of time to a slot's boundary (R184, R203, R204, R588). -/

namespace Sys2Proof.Machine

open Sys2Proof

/-! ## Since when the module has been idle (R588) -/

/-- What a table made of the keys that `p` picks lists under one of them. -/
theorem tfind_map_filter {α : Type} (l : List Nat) (p : Nat → Bool) (f : Nat → α) (k : Nat) :
    tfind ((l.filter p).map fun j => (j, f j)) k = if k ∈ l ∧ p k = true then some (f k) else none := by
  induction l with
  | nil => rfl
  | cons j l ih =>
    by_cases picked : p j = true <;> by_cases here : j = k
    · subst here
      simp [picked, tfind]
    · simp [picked, tfind, here, ih, Ne.symm here]
    · subst here
      simp [picked, ih]
    · simp [picked, ih, Ne.symm here]

section
variable {s : State}

/-- A time goes on, or starts now, while the conditions of the state hold, and is forgotten while they do not. -/
theorem followIdle_idleAt {k : Nat} (hk : k ∈ [1, 2, 3]) : tfind (followIdle s).pwr.idleAt k =
    if idleState s k = true then some ((tfind s.pwr.idleAt k).getD (now s)) else none := by
  rw [followIdle, tfind_map_filter]
  simp only [hk, true_and]

theorem followIdle_state : (followIdle s).pwr.state = s.pwr.state := rfl

/-! ## Entry and exit (R203, R204) -/

theorem enterState_state (k : Nat) : (enterState k s).pwr.state = k := rfl

theorem exec_powerStateEntry (run : running s = true) (stage : s.boot.stage = 4) (normal : s.pwr.sup = .normal)
    (stays : s.pwr.exiting = none) : exec .powerStateEntry s = .next (if s.pwr.state < deepest (followIdle s)
      then enterState (deepest (followIdle s)) (followIdle s) else followIdle s) := by
  have may : decide (s.boot.stage = 4 ∧ s.pwr.sup = .normal ∧ s.pwr.exiting = none) = true :=
    decide_eq_true ⟨stage, normal, stays⟩
  exact congrArg Host.Outcome.next ((if_pos run).trans (if_pos may))

theorem yieldPast_pwr : (yieldPast s).pwr = s.pwr := rfl

theorem refreshSelf_pwr (on : Bool) : (refreshSelf on s).pwr = s.pwr := rfl

variable {e : Nat} (run : running s = true) (exiting : s.pwr.exiting = some e)
include run exiting

theorem exec_powerStateExitComplete_early (early : now s < e) : exec .powerStateExitComplete s = .next s := by
  simp only [exec, execPowerStateExitComplete, whenRunning_next run, exiting, if_pos early]

theorem exec_powerStateExitComplete (ended : e ≤ now s) : ∃ t, exec .powerStateExitComplete s = .next t ∧
    t.pwr = { s.pwr with state := 0, exiting := none, idleAt := [] } := by
  simp only [exec, execPowerStateExitComplete, whenRunning_next run, exiting, if_neg (Nat.not_lt.mpr ended)]
  exact ⟨_, rfl, by rw [yieldPast_pwr, refreshSelf_pwr]⟩

end

/-! ## The passing of time (R184, R320) -/

section
variable {s t : State}

theorem now_of_keeps {w : List Area} (h : Keeps w s t) (free : Area.clk ∉ w) : now t = now s :=
  congrArg Clk.time (h .clk free)

theorem now_railsUp : now (railsUp s) = now s := rfl

theorem now_event (code : Nat) (payload : List Nat) : now (event code payload s) = now s :=
  now_of_keeps ((event_keeps (wB := [.host, .evr, .out]) (by decide)).mpr (Keeps.refl _ s)) (by decide)

/-- Sampled straps and risen rails leave fabric time as it is. -/
theorem now_deassertPerst (port sel : Nat) (sep : Bool) : now (deassertPerst port sel sep s) = now s := by
  rw [deassertPerst, now_of_keeps ((modPort_keeps (wB := [.host]) (by decide)).mpr (Keeps.refl _ _)) (by decide), now_railsUp]
  simp only [apply_ite now, now_event, ite_self]
  exact ite_self _

theorem now_lateDeassert : now (lateDeassert s) = now s := by
  unfold lateDeassert
  split
  · rfl
  · exact each_invariant (fun _ _ => now_deassertPerst _ _ _) _ _

theorem now_advanceTime (d : Nat) : now (advanceTime d s) = now s + d := rfl

theorem now_followIdle : now (followIdle s) = now s := rfl

theorem now_newSlot : now (newSlot s) = now s := rfl

theorem now_followHeat (d : Nat) : now (followHeat d s) = now s :=
  now_of_keeps ((followHeat_keeps (wB := [.med]) (by decide)).mpr (Keeps.refl _ s)) (by decide)

theorem now_followPower : now (followPower s) = now s :=
  now_of_keeps ((followPower_keeps (wB := [.host, .pwr, .out]) (by decide)).mpr (Keeps.refl _ s)) (by decide)

theorem now_tryFreeze : now (tryFreeze s) = now s :=
  now_of_keeps ((tryFreeze_keeps (wB := [.mem, .frz, .out]) (by decide)).mpr (Keeps.refl _ s)) (by decide)

/-- Of what comes with time nothing moves the clock but its own advance. -/
theorem now_passTime (d : Nat) : now (passTime d s) = now s + d := by
  simp only [passTime, apply_ite now, now_tryFreeze, now_lateDeassert, now_followPower, now_newSlot, now_followHeat,
    now_advanceTime, now_followIdle, ite_self]

theorem exec_slotBoundary (left : now s + 16000 < 2 ^ 64) :
    exec .slotBoundary s = .next (passTime (16000 - now s % 16000) s) :=
  if_pos (timeLeft_iff.mpr (by simp only [Config.slotNs]; omega))

theorem exec_slotBoundary_exhausted (past : 2 ^ 64 ≤ now s + (16000 - now s % 16000)) :
    exec .slotBoundary s = .fault .fabricTimeExhausted :=
  if_neg fun left => absurd (timeLeft_iff.mp left) (Nat.not_lt.mpr past)

end

/-- Settles O7: each row by its equation; the times a state has been idle are one table, read off key by key. -/
theorem powerStatesAndTime : Obligations.PowerStatesAndTime := by
  intro s
  refine ⟨fun run stage normal stays => ⟨fun deeper => ?_, fun deep => ?_, fun k hk => ?_⟩, fun run state begun => ?_,
    fun e run exiting ended => ?_, fun e run exiting early => exec_powerStateExitComplete_early run exiting early,
    fun left => ?_, exec_slotBoundary_exhausted⟩
  · exact ⟨_, exec_powerStateEntry run stage normal stays, by rw [if_pos deeper, enterState_state]⟩
  · exact ⟨_, exec_powerStateEntry run stage normal stays, if_neg (Nat.not_lt.mpr deep)⟩
  · rw [followIdle_idleAt (by simpa using hk)]
    exact ⟨fun busy => by simp [busy], fun idle_ new => by simp [idle_, new], fun a idle_ since => by simp [idle_, since]⟩
  · have pwr := startExit_pwr (Nat.ne_of_gt state) begun
    exact ⟨_, exec_powerStateExit run, by rw [pwr], by rw [pwr]⟩
  · obtain ⟨t, ht, pwr⟩ := exec_powerStateExitComplete run exiting ended
    exact ⟨t, ht, by rw [pwr], by rw [pwr], by rw [pwr]⟩
  · refine ⟨_, exec_slotBoundary left, ?_⟩
    rw [now_passTime]
    omega

end Sys2Proof.Machine
end

section
/-! PROOFS. Doorbells, the fetch of submission entries, and queues left untaken (R209, R232, R237, R244 to R246, R267). -/

namespace Sys2Proof.Machine

open Sys2Proof

/-! ## Doorbells (R244 to R246) -/

/-- The queue once a doorbell write has given its head, if it gives one (R245). -/
def withHead (head : Option Nat) (q : Queue) : Queue :=
  match head with
  | some h => { q with cqHead := h }
  | none => q

section
variable {s : State} {p c tail : Nat} {q : Queue} {head : Option Nat}

/-- The start of an exit from a power state changes no more of the host block than WAKE# (R590, R661). -/
theorem startExit_host (s : State) : ∃ wake at_, (startExit s).host = { s.host with wake := wake, wakeAt := at_ } := by
  unfold startExit
  split
  · exact ⟨_, _, rfl⟩
  · split
    · exact ⟨_, _, rfl⟩
    · exact ⟨_, _, rfl⟩

theorem ctxAt_startExit (s : State) (c : Nat) : ctxAt (startExit s) c = ctxAt s c := by
  obtain ⟨wake, at_, host⟩ := startExit_host s
  simp only [ctxAt, host]

theorem startExit_doorErr (s : State) : (startExit s).host.doorErr = s.host.doorErr := by
  obtain ⟨wake, at_, host⟩ := startExit_host s
  rw [host]

theorem writeTail_queue (queue : (ctxAt s c).queue = some q) :
    (ctxAt (writeTail c q tail s) c).queue = some { q with tail := tail } := by
  have set_ : (ctxAt (setQueue c { q with tail := tail } s) c).queue = some { q with tail := tail } := by
    rw [ctxAt_setQueue_same]
  unfold writeTail
  split
  · next same => rw [queue, same]
  · dsimp only
    split
    · exact set_
    · exact set_

/-- A queue whose tail has moved off its fetch position is among those to be fetched (R244). -/
theorem writeTail_fetches (moved : tail ≠ q.tail) (waits : tail ≠ q.fetch) (good : q.error = false) :
    c ∈ (writeTail c q tail s).dlr.fetches := by
  simp only [writeTail, if_neg moved, waits, good, Bool.false_eq_true, false_or]
  split
  · next listed => exact listed
  · exact List.mem_append_right _ (List.mem_singleton_self c)

theorem doorbellError_queue : ctxAt (doorbellError p s) c = ctxAt s c :=
  ctxAt_of_hostTables (hostTables_raiseOn _ _ _) c

theorem doorbellError_doorErr : (doorbellError p s).host.doorErr = s.host.doorErr + 1 :=
  (congrArg HostBlock.doorErr (hostTables_raiseOn { s with host := { s.host with doorErr := s.host.doorErr + 1 } } 4 p) :)

variable (queue : (ctxAt s c).queue = some q) (live : q.deleting = false)
include queue live

theorem doorbell_tail (port : q.port = p) (inRange : tail < q.sqSize) (frees : ∀ h, head = some h → headOk q h = true) :
    doorbell p c (some tail) head s = writeTail c (withHead head q) tail (setQueue c (withHead head q) s) := by
  cases head with
  | none => simp [doorbell, queue, live, port, inRange, withHead]
  | some h => simp [doorbell, queue, live, port, inRange, withHead, frees h rfl]

theorem doorbell_head {h : Nat} (port : q.port = p) (frees : headOk q h = true) :
    doorbell p c none (some h) s = setQueue c { q with cqHead := h } s := by
  simp [doorbell, queue, live, port, frees]

/-- A doorbell write from another port, or with either field out of range, is an error of the port (R246). -/
theorem doorbell_refused {tail : Option Nat} (bad : q.port ≠ p ∨ (∃ t, tail = some t ∧ q.sqSize ≤ t) ∨
    ∃ h, head = some h ∧ headOk q h = false) : doorbell p c tail head s = doorbellError p s := by
  simp only [doorbell, queue, live, Bool.false_eq_true, if_false]
  refine if_pos ?_
  rcases bad with other | ⟨t, rfl, beyond⟩ | ⟨h, rfl, unposted⟩
  · simp [other]
  · simp [Nat.not_lt.mpr beyond]
  · simp [unposted]

end

section
variable {s : State} (run : running s = true)
include run

theorem exec_sqTailWrite (port c tail : Nat) (head : Option Nat) :
    exec (.sqTailWrite port c tail head) s = .next (doorbell port c (some tail) head (startExit s)) :=
  congrArg Host.Outcome.next (if_pos run)

theorem exec_cqHeadWrite (port c head : Nat) :
    exec (.cqHeadWrite port c head) s = .next (doorbell port c none (some head) (startExit s)) :=
  congrArg Host.Outcome.next (if_pos run)

/-! ## Fetches (R232, R237, R267) -/

variable {c : Nat} {q : Queue} (queue : (ctxAt s c).queue = some q)

/-- The read of the entry at the fetch position leaves for host memory. -/
def entryRead (q : Queue) (s : State) : State := emit (.hostRead q.port (q.sqBase + 64 * q.fetch) 64) s

/-- What the read brings: an entry, which is taken in, or a failure. -/
def readAnswered (c : Nat) (q : Queue) : Option Fetched → State → State
  | none, s => fetchFailed c q s
  | some f, s => entryFetched c q f (spendSearches (fetchedKeyed (some f)) s)

include queue

theorem exec_submissionEntryFetch {res : Option Fetched} (on : dealerOn s = true) (turn : nextFetch s = some c)
    (room : cacheFull s c = false) (takes : intakeHeld s (fetchedKeyed res) = false) :
    exec (.submissionEntryFetch c res) s = .next (readAnswered c q res (entryRead q s)) := by
  simp only [exec, execSubmissionEntryFetch, whenRunning_next run, queue, on, turn, room, takes, Bool.true_eq_false,
    Bool.false_eq_true, ne_eq, not_true, or_self, if_false]
  cases res <;> rfl

end

section
variable {s : State} {c : Nat} {q : Queue}

theorem entryFetched_queue (f : Fetched) : (ctxAt (entryFetched c q f s) c).queue = some { q with
    fetch := if q.fetch + 1 = q.sqSize then 0 else q.fetch + 1, nextSeq := seqAdd q.nextSeq 1, retried := false } :=
  congrArg Ctx.queue (ctxAt_setQueue_same c _ (countTaken s))

/-- A failed fetch is tried once more, and the second failure stops the queue (R267). -/
theorem fetchFailed_queue : (ctxAt (fetchFailed c q s) c).queue =
    some { q with error := q.error || q.retried, retried := !q.retried } := by
  unfold fetchFailed
  split
  · next repeated =>
    rw [ctxAt_of_hostTables (hostTables_raiseOn _ _ _), repeated, Bool.or_true]
    exact congrArg Ctx.queue (ctxAt_setQueue_same c _ s)
  · next new =>
    rw [Bool.eq_false_iff.mpr new, Bool.or_false]
    exact congrArg Ctx.queue (ctxAt_setQueue_same c _ s)

theorem fetchFailed_arrived : (fetchFailed c q s).dlr.arrived = s.dlr.arrived := by
  unfold fetchFailed
  split
  · exact (congrArg Dealer.arrived ((raiseOn_keeps (wB := [.host, .out]) (by decide)).mpr (Keeps.refl _ _) .dlr (by decide)) :)
  · rfl

/-! ## Queues left untaken (R209, R235) -/

/-- The contexts left untaken whose line can be cached by now. -/
def resumable (s : State) : List Nat := s.dlr.backlog.filter fun c => !cacheFull s c

theorem exec_intakeBacklogResume (run : running s = true) (on : dealerOn s = true) :
    exec .intakeBacklogResume s = .next { s with dlr := { s.dlr with
      backlog := s.dlr.backlog.filter (fun c => decide (c ∉ resumable s)),
      fetches := s.dlr.fetches ++ (resumable s).filter (fun c => decide (c ∉ s.dlr.fetches)) } } :=
  (whenRunning_next run).trans (congrArg Host.Outcome.next (if_pos on))

theorem mem_resumable (room : cacheFull s c = false) (left : c ∈ s.dlr.backlog) : c ∈ resumable s :=
  List.mem_filter.mpr ⟨left, by rw [room]; rfl⟩

end

/-- Settles O22: a doorbell is `doorbell` after the exit it may start, a fetch its equation with what arrives or fails. -/
theorem doorbellsAndFetch : Obligations.DoorbellsAndFetch := by
  intro s port ctx q run queue live
  have woken : (ctxAt (startExit s) ctx).queue = some q := by rw [ctxAt_startExit, queue]
  have counted (p : Nat) : (ctxAt (doorbellError p (startExit s)) ctx).queue = some q ∧
      (doorbellError p (startExit s)).host.doorErr = s.host.doorErr + 1 :=
    ⟨by rw [doorbellError_queue, woken], by rw [doorbellError_doorErr, startExit_doorErr]⟩
  have headed (q' : Queue) : (ctxAt (setQueue ctx q' (startExit s)) ctx).queue = some q' := by rw [ctxAt_setQueue_same]
  refine ⟨fun tail mine inRange => ?_, fun tail head mine inRange frees => ?_, fun head mine frees => ?_,
    fun tail head bad => ?_, fun head bad => ?_, fun fe on turn room taken => ?_, fun on turn room taken => ?_,
    fun on room left => ?_⟩
  · refine ⟨_, { q with tail := tail }, exec_sqTailWrite run port ctx tail none, ?_⟩
    rw [doorbell_tail woken live mine inRange (by simp)]
    exact ⟨writeTail_queue (headed _), rfl, rfl, rfl, writeTail_fetches⟩
  · refine ⟨_, { q with cqHead := head, tail := tail }, exec_sqTailWrite run port ctx tail (some head), ?_⟩
    rw [doorbell_tail woken live mine inRange (by simpa using frees)]
    exact ⟨writeTail_queue (headed _), rfl, rfl, rfl⟩
  · refine ⟨_, exec_cqHeadWrite run port ctx head, ?_⟩
    rw [doorbell_head woken live mine frees, headed]
  · refine ⟨_, exec_sqTailWrite run port ctx tail head, ?_⟩
    rw [doorbell_refused woken live (by simpa using bad)]
    exact counted port
  · refine ⟨_, exec_cqHeadWrite run port ctx head, ?_⟩
    rw [doorbell_refused woken live (by simpa using bad)]
    exact counted port
  · exact ⟨_, _, exec_submissionEntryFetch run queue on turn room taken, entryFetched_queue fe, rfl, rfl, rfl, rfl⟩
  · exact ⟨_, _, exec_submissionEntryFetch (res := none) run queue on turn room taken, fetchFailed_queue, rfl, rfl, rfl, rfl,
      fetchFailed_arrived⟩
  · have ready := mem_resumable room left
    refine ⟨_, exec_intakeBacklogResume run on, by simp [ready], ?_⟩
    by_cases listed : ctx ∈ s.dlr.fetches
    · exact List.mem_append_left _ listed
    · exact List.mem_append_right _ (List.mem_filter.mpr ⟨ready, decide_eq_true listed⟩)

end Sys2Proof.Machine
end

section
/-! PROOFS. How mailbox commands are turned away (R251, R252): where a port table lists its ports out of order. -/

namespace Sys2Proof.Machine

open Sys2Proof

/-- Ports 1 and 0 are listed in this order, and mailbox 0 of port 0 holds a DIAG_UNLOCK that asks for an interrupt and whose
input is longer than a mailbox (R251). -/
def portsMisordered : State :=
  { boot := { stage := 4 },
    host := { ports := [(1, {}), (0, {})], goQueue := [0],
              boxes := [(0, { busy := true, irq := true, command := 0x0040, inLen := 4033 })] } }

theorem portsMisordered_refused : boxRefusal portsMisordered 0 (boxAt portsMisordered 0) true = some stLength := by decide

/-- The interrupt of the refusal leaves vector 0 of port 0 pending, and lists port 0 a second time, before port 1. -/
theorem portsMisordered_diagUnlock : ∃ t, exec (.diagUnlock 0) portsMisordered = .next t ∧ t.host.ports.length = 3 :=
  ⟨_, rfl, by decide⟩

/-- Refutes O33: nothing in it says that the ports are listed in rising order (`keysRise`), and where they are not, the interrupt
of a refused DIAG_UNLOCK lists its port again, so that one more port reads as not unlocked. -/
theorem not_mailboxCommandsAreChecked : ¬ Obligations.MailboxCommandsAreChecked := by
  intro h
  obtain ⟨-, -, -, unlock, -⟩ := h portsMisordered 0 stLength _ rfl rfl rfl rfl
  obtain ⟨t, step, -, unlocks⟩ := unlock rfl portsMisordered_refused
  obtain ⟨u, step', listed⟩ := portsMisordered_diagUnlock
  obtain rfl : t = u := Host.Outcome.next.inj (step.symm.trans step')
  have same : t.host.ports.length = portsMisordered.host.ports.length := by
    simpa only [List.length_map] using congrArg List.length unlocks
  exact absurd (listed.symm.trans same) (by decide)

end Sys2Proof.Machine
end

section
/-! PROOFS. Setting pages as their mailbox commands read and write them (R254). -/

namespace Sys2Proof.Machine

open Sys2Proof

section
variable {s : State} {b size n : Nat} {x : Mailbox}

/-! ## SETTING_READ -/

theorem exec_settingRead_unknown (h : boxRuns s b x 0x0010 false) (page : pageOf x.page = none) :
    exec (.settingRead b) s = .next (finishBox b stPageUnknown [] (boxTaken s)) :=
  (takeBox_runs _ h).trans (by simp only [page])

theorem exec_settingRead_target (h : boxRuns s b x 0x0010 false) (page : pageOf x.page = some (size, n))
    (beyond : n ≤ x.target) : exec (.settingRead b) s = .next (finishBox b stPageField [] (boxTaken s)) :=
  (takeBox_runs _ h).trans (by simp only [page, if_pos beyond])

/-- The whole page is put into the mailbox, with its format version (R254). -/
theorem exec_settingRead (h : boxRuns s b x 0x0010 false) (page : pageOf x.page = some (size, n)) (inside : x.target < n) :
    exec (.settingRead b) s = .next (finishBox b stOk (natLe size (pageRead (boxTaken s) x.page x.target))
      (setBox b { x with format := pageFormat s x.page } (boxTaken s))) :=
  (takeBox_runs _ h).trans (by simp only [page, if_neg (Nat.not_le.mpr inside)]; rfl)

theorem finishBox_format (b st : Nat) (out : Bytes) (s : State) :
    (boxAt (finishBox b st out s) b).format = (boxAt s b).format := by
  rw [boxAt_of_hostTables (hostTables_finishBox b st out s), boxAt_setBox_same]

/-! ## SETTING_WRITE -/

theorem exec_settingWrite (h : boxRuns s b x 0x0011 true) :
    exec (.settingWrite b) s = .next (settingWrite b x (boxTaken s)) :=
  takeBox_runs _ h

theorem settingWrite_unknown (page : pageOf x.page = none) : settingWrite b x s = finishBox b stPageUnknown [] s := by
  simp only [settingWrite, page]

theorem settingWrite_format (page : pageOf x.page = some (size, n)) (other : x.format ≠ pageFormat s x.page) :
    settingWrite b x s = finishBox b stPageFormat [] s := by
  simp only [settingWrite, page, if_pos other]

theorem settingWrite_shape (page : pageOf x.page = some (size, n)) (format : x.format = pageFormat s x.page)
    (bad : x.inLen ≠ size ∨ n ≤ x.target) : settingWrite b x s = finishBox b stPageField [] s := by
  simp only [settingWrite, page, format, ne_eq, not_true, if_false, if_pos bad]

/-- A write that is refused gives its mailbox the status, and changes nothing else (R254). -/
theorem exec_settingWrite_refused {st : Nat} (h : boxRuns s b x 0x0011 true)
    (refused : settingWrite b x (boxTaken s) = finishBox b st [] (boxTaken s)) :
    ∃ t, exec (.settingWrite b) s = .next t ∧ boxSays t b st [] ∧ Keeps [.host, .out] s t := by
  refine ⟨_, exec_settingWrite h, ?_⟩
  rw [refused]
  exact ⟨finishBox_says .., (finishBox_keeps (by decide)).mpr ((boxTaken_keeps s).mono (by decide))⟩

end

/-- Settles O34: a read is one of three answers, and a write that is in order is what the write of its page decides. -/
theorem settingPagesReadAndWrite : Obligations.SettingPagesReadAndWrite := by
  intro s b x
  refine ⟨fun runs => ⟨fun size n page inside => ?_, fun size n page beyond => ?_, fun page => ?_⟩,
    fun runs => ⟨fun n u page format inside takes => ?_, fun n page format inside refuses => ?_,
      fun size n page format bad => ?_, fun size n page other => ?_, fun page => ?_⟩⟩
  · refine ⟨_, exec_settingRead runs page inside, finishBox_says .., ?_⟩
    rw [finishBox_format, boxAt_setBox_same]
  · exact ⟨_, exec_settingRead_target runs page beyond, finishBox_says ..⟩
  · exact ⟨_, exec_settingRead_unknown runs page, finishBox_says ..⟩
  · refine ⟨_, exec_settingWrite runs, ?_⟩
    rw [settingWrite_of_pageRuns ⟨runs, rfl, format, n, page, inside⟩, takes]
    exact ⟨finishBox_says .., (finishBox_keeps (by decide)).mpr (Keeps.refl _ u)⟩
  · refine exec_settingWrite_refused runs ?_
    rw [settingWrite_of_pageRuns ⟨runs, rfl, format, n, page, inside⟩, refuses, Option.elim_none]
  · exact exec_settingWrite_refused runs (settingWrite_shape page format bad)
  · exact exec_settingWrite_refused runs (settingWrite_format page other)
  · exact exec_settingWrite_refused runs (settingWrite_unknown page)

end Sys2Proof.Machine
end

section
/-! PROOFS. What interrupts change of the host ports (R247, R249, R677): cause bits and pending vectors. -/

namespace Sys2Proof.Machine

open Sys2Proof

theorem mem_of_tfind {α : Type} {t : Tbl α} {k : Nat} {a : α} (found : tfind t k = some a) : (k, a) ∈ t := by
  induction t with
  | nil => cases found
  | cons q t ih =>
    by_cases here : q.1 = k
    · simp only [tfind, if_pos here, Option.some.injEq] at found
      exact List.mem_cons.mpr (.inl (Prod.ext here.symm found.symm))
    · simp only [tfind, if_neg here] at found
      exact List.mem_cons_of_mem _ (ih found)

/-- In a table whose keys rise, an entry that is there is replaced in its place. -/
theorem tput_keys {α : Type} {t : Tbl α} {k : Nat} {b : α} (a : α) (rise : keysRise t = true) (found : tfind t k = some b) :
    (tput t k a).map (·.1) = t.map (·.1) := by
  induction t with
  | nil => cases found
  | cons q t ih =>
    obtain ⟨j, c⟩ := q
    rw [keysRise_iff, List.pairwise_cons] at rise
    obtain ⟨below, rise⟩ := rise
    by_cases here : j = k
    · simp [tput, here]
    · simp only [tfind, if_neg here] at found
      have later : j < k := below _ (mem_of_tfind found)
      simp [tput, Nat.lt_asymm later, Ne.symm here, ih ((keysRise_iff t).mpr rise) found]

/-- A port beside its cause bits and its MSI-X vectors. -/
def portPlain (x : Port) : Port := { x with cause := 0, vecs := [] }

/-- From the first state to the second the host block has changed by interrupts alone, if at all: cause bits and pending vectors of
the ports, and SMBALERT#. -/
inductive Signalled : State → State → Prop
  | idle {s t : State} (tables : hostTables t = hostTables s) (ports : t.host.ports = s.host.ports) : Signalled s t
  | port {s : State} {p : Nat} {x y : Port} (found : tfind s.host.ports p = some x) (plain : portPlain y = portPlain x) :
      Signalled s (setPort p y s)
  | trans {s t u : State} : Signalled s t → Signalled t u → Signalled s u

namespace Signalled

section
variable {s t : State}

theorem refl (s : State) : Signalled s s := idle rfl rfl

theorem of_host (h : t.host = s.host) : Signalled s t := idle (hostTables_of_host h) (congrArg HostBlock.ports h)

/-- As `trans`, the second step given first: it says in which state the first one ends. -/
theorem after {u : State} (second : Signalled t u) (first : Signalled s t) : Signalled s u := first.trans second

theorem emitted (o : Out) (h : Signalled s t) : Signalled s (emit o t) := h.trans (of_host rfl)

theorem ite {c : Prop} [Decidable c] {u : State} (yes : Signalled s t) (no : Signalled s u) :
    Signalled s (if c then t else u) := by
  split
  · exact yes
  · exact no

theorem each {α : Type} {f : α → State → State} (hf : ∀ a u, Signalled u (f a u)) (l : List α) (s : State) :
    Signalled s (Machine.each f l s) := by
  induction l generalizing s with
  | nil => exact refl s
  | cons a l ih => exact (hf a s).trans (ih _)

theorem tables_eq (h : Signalled s t) : hostTables t = hostTables s := by
  induction h with
  | idle tables => exact tables
  | port => rfl
  | trans _ _ ih ih' => exact ih'.trans ih

theorem port_plain (h : Signalled s t) (k : Nat) :
    (tfind t.host.ports k).map portPlain = (tfind s.host.ports k).map portPlain := by
  induction h with
  | idle _ ports => rw [ports]
  | @port s p x y found plain =>
    by_cases same : k = p
    · simp only [setPort, same, tfind_tput_same, found, Option.map_some, plain]
    · simp only [setPort, tfind_tput_ne _ _ same]
  | trans _ _ ih ih' => exact ih'.trans ih

/-- Ports that are listed in rising order stay listed so, and no port comes or goes. -/
theorem keys (h : Signalled s t) (rise : keysRise s.host.ports = true) :
    keysRise t.host.ports = true ∧ t.host.ports.map (·.1) = s.host.ports.map (·.1) := by
  induction h with
  | idle _ ports => exact ⟨by rw [ports, rise], by rw [ports]⟩
  | port found => exact ⟨keysRise_tput _ _ rise, tput_keys _ rise found⟩
  | trans _ _ ih ih' =>
    obtain ⟨rise', keys⟩ := ih rise
    obtain ⟨rise'', keys'⟩ := ih' rise'
    exact ⟨rise'', keys'.trans keys⟩

end

/-! ## Interrupts and event records -/

section
variable {s : State}

theorem msix (p v : Nat) (s : State) : Signalled s (Machine.msix p v s) := by
  unfold Machine.msix
  split
  · exact refl s
  · next found =>
    split
    · exact port found rfl
    · exact of_host rfl

theorem raiseOn (b p : Nat) (s : State) : Signalled s (Machine.raiseOn b p s) := by
  unfold Machine.raiseOn
  split
  · exact refl s
  · next x found =>
    have raised : Signalled s (setPort p { x with cause := x.cause + 2 ^ b } s) := port found rfl
    split
    · exact refl s
    · exact ite (raised.trans (msix _ _ _)) raised

theorem followAlert (s : State) : Signalled s (Machine.followAlert s) := by
  unfold Machine.followAlert
  exact ite (refl s) (idle rfl rfl)

theorem warn (s : State) : Signalled s (Machine.warn s) :=
  (each (fun _ u => raiseOn _ _ u) _ s).trans (followAlert _)

theorem recorded (e : Recorder) (s : State) : Signalled s { s with evr := e } := of_host rfl

theorem warned (e : Recorder) (s : State) : Signalled s (Machine.warn { s with evr := e }) := (recorded e s).trans (warn _)

theorem startWrite (s : State) : Signalled s (Machine.startWrite s) := by
  unfold Machine.startWrite
  split
  · exact ite (ite (warned _ s) (recorded _ s)) (refl s)
  · exact refl s

theorem enqueue (r : EvRec) (s : State) : Signalled s (Machine.enqueue r s) := by
  have written (e : Recorder) : Signalled s (Machine.startWrite { s with evr := e }) := (recorded e s).trans (startWrite _)
  unfold Machine.enqueue
  exact ite (recorded _ s) (ite (recorded _ s) (ite ((written _).trans (warn _)) (written _)))

theorem event (code : Nat) (payload : List Nat) (s : State) : Signalled s (Machine.event code payload s) := by
  unfold Machine.event
  refine ite (refl s) (ite (ite (recorded _ s) (ite (warned _ s) (recorded _ s))) ?_)
  dsimp only
  split
  · exact ite (warned _ s) (recorded _ s)
  · exact enqueue _ s

end

/-! ## Frames: the counters of a lane may signal a rollover (R370 to R372) -/

section

theorem countLane (n k v : Nat) (s : State) : Signalled s (Machine.countLane n k v s) := by
  have counted (l : Lane) : Signalled s (setLane n l s) := of_host rfl
  unfold Machine.countLane
  exact ite (counted _) (ite (counted _) (ite ((counted _).trans (msix _ _ _)) (counted _)))

theorem countSent (n : Nat) (f : TxFrame) (b : Bytes) (s : State) : Signalled s (Machine.countSent n f b s) := by
  have first : Signalled s (if f.stomp then Machine.countLane n 37 1 s else Machine.countLane n
      (if bit (beAt b 0 6) 40 then 27 else 26) 1 (Machine.countLane n 25 b.length (Machine.countLane n 24 1 s))) :=
    ite (countLane _ _ _ s) (((countLane _ _ _ s).trans (countLane _ _ _ _)).trans (countLane _ _ _ _))
  have second := first.trans (countLane n (txBin b.length) 1 _)
  exact ite (second.trans (countLane _ _ _ _)) second

theorem sendLink (n kind word : Nat) (payload : Bytes) (s : State) : Signalled s (Machine.sendLink n kind word payload s) :=
  emitted _ ((countSent _ _ _ _).after (of_host rfl))

theorem sendCredit (n : Nat) (nak : Bool) (s : State) : Signalled s (Machine.sendCredit n nak s) :=
  (sendLink _ _ _ _ _).after (of_host rfl)

theorem freeCells (n c k : Nat) (s : State) : Signalled s (Machine.freeCells n c k s) := by
  have freed (l : Lane) : Signalled s (setLane n l s) := of_host rfl
  unfold Machine.freeCells
  dsimp only
  split
  · exact refl s
  · exact ite ((sendCredit _ _ _).after (freed _)) (freed _)

theorem dropHop (f : TxFrame) (s : State) : Signalled s (Machine.dropHop f s) := by
  unfold Machine.dropHop frameGone
  split
  · exact (freeCells _ _ _ _).after (of_host rfl)
  · exact of_host rfl

theorem queueTo (node : Nat) (f : TxFrame) (s : State) : Signalled s (Machine.queueTo node f s) := by
  unfold Machine.queueTo
  split
  · exact of_host rfl
  · exact dropHop f s

theorem sendOwn (kind dst session seq word : Nat) (payload : Bytes) (bounded : Bool) (s : State) :
    Signalled s (Machine.sendOwn kind dst session seq word payload bounded s) := by
  unfold Machine.sendOwn
  refine ite (refl s) ?_
  dsimp only
  split
  · exact (queueTo _ _ _).after (of_host rfl)
  · exact dropHop _ s

theorem orderFrame (lead request ns d crc : Nat) (write : Bool) (until_ : Nat) (s : State) :
    Signalled s (Machine.orderFrame lead request ns d crc write until_ s) :=
  sendOwn _ _ _ _ _ _ _ s

theorem dropOrder (id seq : Nat) (s : State) : Signalled s (Machine.dropOrder id seq s) := by
  unfold Machine.dropOrder
  split
  · exact refl s
  · dsimp only
    split
    · exact ite (of_host rfl) ((orderFrame _ _ _ _ _ _ _ _).after (of_host rfl))
    · exact of_host rfl

end

end Signalled

end Sys2Proof.Machine
end

section
/-! PROOFS. The draining of a session as its queue and the ports see it (R219, R261 to R263), and queues and sessions by mailbox
(R256, R260 to R262, R266, R268). -/

namespace Sys2Proof.Machine

open Sys2Proof

/-! ## Draining (R261 to R263) -/

/-- The completions that the queue of a context holds are let go. -/
def dropHeld (c : Nat) (s : State) : State :=
  match (ctxAt s c).queue with
  | none => s
  | some q => setQueue c { q with held := [] } s

section
variable {s : State} {c id k : Nat} {x : Session} {q : Queue}

theorem dropHeld_queue (queue : (ctxAt s c).queue = some q) :
    (ctxAt (dropHeld c s) c).queue = some { q with held := [] } := by
  simp only [dropHeld, queue, ctxAt_setQueue_same]

theorem dropHeld_boxes (c : Nat) (s : State) : (dropHeld c s).host.boxes = s.host.boxes := by
  unfold dropHeld
  split <;> rfl

theorem dropHeld_ports (c : Nat) (s : State) : (dropHeld c s).host.ports = s.host.ports := by
  unfold dropHeld
  split <;> rfl

/-- Of a drained session the host block loses the completions its queue holds; the orders given up may signal. -/
theorem drain_eq (found : sessFind s id = some x) : ∃ u, Signalled s u ∧ drain id s = dropHeld x.ctx u := by
  simp only [drain, found]
  refine ⟨_, ?_, rfl⟩
  exact (Signalled.each (fun a : Arrived => Signalled.dropOrder id a.seq) _ s).trans (.of_host rfl)

theorem drain_absent (absent : sessFind s id = none) : drain id s = s := by
  simp only [drain, absent]

theorem drain_queue (found : sessFind s id = some x) (queue : (ctxAt s x.ctx).queue = some q) :
    (ctxAt (drain id s) x.ctx).queue = some { q with held := [] } := by
  obtain ⟨u, signalled, drained⟩ := drain_eq found
  rw [drained]
  exact dropHeld_queue (by rw [ctxAt_of_hostTables signalled.tables_eq, queue])

theorem boxAt_drain (id b : Nat) (s : State) : boxAt (drain id s) b = boxAt s b := by
  cases found : sessFind s id with
  | none => rw [drain_absent found]
  | some x =>
    obtain ⟨u, signalled, drained⟩ := drain_eq found
    rw [drained, boxAt_congr (dropHeld_boxes _ u), boxAt_of_hostTables signalled.tables_eq]

/-- What a port is beside interrupts is none of a session's. -/
theorem drain_port (id k : Nat) (s : State) :
    (tfind (drain id s).host.ports k).map portPlain = (tfind s.host.ports k).map portPlain := by
  cases found : sessFind s id with
  | none => rw [drain_absent found]
  | some x =>
    obtain ⟨u, signalled, drained⟩ := drain_eq found
    rw [drained, dropHeld_ports, signalled.port_plain]

/-! ## The deletion of a queue begins (R260 to R263) -/

/-- The context's queue takes no more commands, and its mailbox waits (R260). -/
def queueClosing (c : Nat) (q : Queue) (box : Option Nat) (s : State) : State :=
  setQueue c { q with deleting := true, box := box, unsig := 0 } s

theorem startDelete_eq {release : Bool} {box : Option Nat} (session : (ctxAt s c).session = some id)
    (queue : (ctxAt s c).queue = some q) : startDelete c release box s =
      modSess id (fun y => { y with release := release }) (drain id (queueClosing c q box s)) := by
  simp only [startDelete, session, queue, queueClosing]

theorem startDelete_drains {release : Bool} {box : Option Nat} (session : (ctxAt s c).session = some id)
    (queue : (ctxAt s c).queue = some q) (found : sessFind s id = some x) (own : x.ctx = c) :
    (ctxAt (startDelete c release box s) c).queue = some { q with deleting := true, box := box, unsig := 0, held := [] } ∧
    sessFind (startDelete c release box s) id = some { x with draining := true, release := release } ∧
    ∀ a ∈ (startDelete c release box s).dlr.arrived, a.session ≠ id := by
  subst own
  rw [startDelete_eq session queue]
  have here : sessFind (queueClosing x.ctx q box s) id = some x := found
  obtain ⟨drained, quiet⟩ := drain_session here
  refine ⟨?_, ?_, quiet⟩
  · exact drain_queue here (congrArg Ctx.queue (ctxAt_setQueue_same ..))
  · rw [sessFind_modSess_same, drained, Option.map_some]

theorem boxAt_startDelete (c : Nat) (release : Bool) (box : Option Nat) (s : State) (b : Nat) :
    boxAt (startDelete c release box s) b = boxAt s b := by
  unfold startDelete
  split
  · exact boxAt_drain _ b _
  · rfl

theorem startDelete_port (c : Nat) (release : Bool) (box : Option Nat) (s : State) (k : Nat) :
    (tfind (startDelete c release box s).host.ports k).map portPlain = (tfind s.host.ports k).map portPlain := by
  unfold startDelete
  split
  · exact drain_port _ k _
  · rfl

end

/-! ## Queues (R256, R260) -/

section
variable {s : State} {b : Nat} {x : Mailbox}

/-- The context bound to a new session with a new queue, as a QUEUE_CREATE asks for them (R256). -/
def queueOpened (b : Nat) (x : Mailbox) (id : Nat) (s : State) : State :=
  setQueue x.target (newQueue id (boxPort b) (leNat (boxInput x 32)))
    (openSession id { kind := .host, ctx := x.target, port := boxPort b } (bindCtx x.target (boxPort b) 0 s).1)

/-- The identifier that a QUEUE_CREATE answers with (R234, R256). -/
def createdId (b : Nat) (x : Mailbox) (s : State) : Nat :=
  sessionId x.target (ctxAt s x.target).generation (boxPort b) 0

theorem exec_queueCreate (h : boxRuns s b x 0x0020 false) : exec (.queueCreate b) s = .next
    (if createOk s (boxPort b) x.target (leNat (boxInput x 32)) = true then
      finishBox b stOk (natLe 8 (createdId b x s)) (queueOpened b x (createdId b x s) (boxTaken s))
     else finishBox b stQueue [] (boxTaken s)) :=
  takeBox_runs _ h

theorem queueOpened_ctx (id : Nat) (s : State) : ctxAt (queueOpened b x id s) x.target =
    { ctxAt (bindCtx x.target (boxPort b) 0 s).1 x.target with
      queue := some (newQueue id (boxPort b) (leNat (boxInput x 32))) } :=
  ctxAt_setQueue_same ..

theorem bindCtx_ctx (c port kind : Nat) (s : State) : ctxAt (bindCtx c port kind s).1 c =
    { ctxAt s c with generation := (ctxAt s c).generation + 1,
                     spent := decide (0x0FFFFFFF ≤ (ctxAt s c).generation + 1),
                     session := some (sessionId c (ctxAt s c).generation port kind) } :=
  ctxAt_setCtx_same ..

theorem queueOpened_session (id : Nat) (s : State) : sessFind (queueOpened b x id s) id =
    some { kind := .host, ctx := x.target, port := boxPort b } :=
  tfind_tput_same ..

theorem exec_queueDelete (h : boxRuns s b x 0x0021 false) : exec (.queueDelete b) s = .next
    (if deletable s x.target (boxPort b) = true then
      startDelete x.target (bit (leNat (boxInput x 1)) 0) (some b) (boxTaken s)
     else finishBox b stQueue [] (boxTaken s)) :=
  takeBox_runs _ h

/-! ## Sessions (R266, R268) -/

/-- A session of the mailbox's port that is deleted and whose context has no queue is released (R266). -/
theorem exec_sessionRelease {id : Nat} {y : Session} (h : boxRuns s b x 0x0022 false) (input : id = leNat (boxInput x 8))
    (found : sessFind s id = some y) : exec (.sessionRelease b) s = .next
      (if y.kind = .host ∧ y.port = boxPort b ∧ y.deleted = true ∧ (ctxAt s y.ctx).queue = none then
        finishBox b stOk [] (releaseSession id (boxTaken s))
       else finishBox b stQueue [] (boxTaken s)) := by
  have here : sessFind (boxTaken s) (leNat (boxInput x 8)) = some y := input ▸ found
  rw [input]
  exact (takeBox_runs _ h).trans (by simp only [here]; rfl)

theorem exec_sessionRelease_absent {id : Nat} (h : boxRuns s b x 0x0022 false) (input : id = leNat (boxInput x 8))
    (absent : sessFind s id = none) : exec (.sessionRelease b) s = .next (finishBox b stQueue [] (boxTaken s)) := by
  have unknown : sessFind (boxTaken s) (leNat (boxInput x 8)) = none := input ▸ absent
  exact (takeBox_runs _ h).trans (by simp only [unknown])

theorem releaseSession_ctx {id : Nat} {y : Session} (found : sessFind s id = some y) :
    (ctxAt (releaseSession id s) y.ctx).session = none := by
  simp only [releaseSession, found, ctxAt_setCtx_same]

theorem exec_sessionList (h : boxRuns s b x 0x0023 false) : exec (.sessionList b) s = .next
    (finishBox b stOk (((listedSessions s (boxPort b) x.target).take 252).flatMap (listEntry s)) (boxTaken s)) :=
  takeBox_runs _ h

theorem listEntries_length (s : State) (l : List (Nat × Session)) : (l.flatMap (listEntry s)).length = 16 * l.length := by
  simp [listEntry, Nat.mul_comm]

/-- A refusal leaves sessions, commands and contexts as they are. -/
theorem finishBox_refuses (b st : Nat) (s : State) : (finishBox b st [] (boxTaken s)).sessions = s.sessions ∧
    (finishBox b st [] (boxTaken s)).dlr = s.dlr ∧ (finishBox b st [] (boxTaken s)).host.ctxs = s.host.ctxs :=
  ⟨finishBox_same b st [] _ (a := .sessions) (by decide), finishBox_same b st [] _ (a := .dlr) (by decide),
    (congrArg HostBlock.ctxs (hostTables_finishBox b st [] (boxTaken s)) :)⟩

end

/-- Settles O37: each command by its equation, and what it says of the context, the queue and the session read off there. -/
theorem queuesAndSessionsByMailbox : Obligations.QueuesAndSessionsByMailbox := by
  intro s b x
  refine ⟨fun runs => ⟨fun ok id identifier => ?_, fun bad => ?_⟩,
    fun runs => ⟨fun id q y ok session queue found own => ?_, fun bad => ?_⟩,
    fun runs id input => ⟨fun y found host port deleted empty => ?_, fun y found other => ?_, fun absent => ?_⟩,
    fun runs => ?_⟩
  · obtain rfl : id = createdId b x s := identifier
    refine ⟨_, exec_queueCreate runs, ?_⟩
    simp only [if_pos ok, ctxAt_finishBox, queueOpened_ctx, bindCtx_ctx]
    refine ⟨finishBox_says .., rfl, trivial, rfl, ?_⟩
    rw [sessFind_of_sessions (finishBox_same b stOk _ _ (a := .sessions) (by decide))]
    exact queueOpened_session _ _
  · refine ⟨_, exec_queueCreate runs, ?_⟩
    obtain ⟨sessions, -, ctxs⟩ := finishBox_refuses b stQueue s
    rw [if_neg (by simp [bad])]
    exact ⟨finishBox_says .., sessions, ctxs⟩
  · have busy : (boxAt s b).busy = true := by
      obtain ⟨-, -, rfl, busy, -⟩ := runs
      exact busy
    obtain ⟨closing, draining, quiet⟩ := startDelete_drains (s := boxTaken s) (release := bit (leNat (boxInput x 1)) 0)
      (box := some b) session queue found own
    refine ⟨_, { q with deleting := true, box := some b, unsig := 0, held := [] }, exec_queueDelete runs, ?_⟩
    rw [if_pos ok]
    exact ⟨by rw [boxAt_startDelete]; exact busy, closing, rfl, rfl, rfl, ⟨_, draining, rfl, rfl⟩, quiet⟩
  · refine ⟨_, exec_queueDelete runs, ?_⟩
    obtain ⟨sessions, dlr, -⟩ := finishBox_refuses b stQueue s
    rw [if_neg (by simp [bad])]
    exact ⟨finishBox_says .., sessions, dlr⟩
  · refine ⟨_, exec_sessionRelease runs input found, ?_⟩
    rw [if_pos ⟨host, port, deleted, empty⟩, ctxAt_finishBox,
      sessFind_of_sessions (finishBox_same b stOk _ _ (a := .sessions) (by decide))]
    exact ⟨finishBox_says .., (releaseSession_gone (s := boxTaken s) found).1, releaseSession_ctx (s := boxTaken s) found⟩
  · have declined : ¬ (y.kind = .host ∧ y.port = boxPort b ∧ y.deleted = true ∧ (ctxAt s y.ctx).queue = none) := by
      rintro ⟨host, port, deleted, -⟩
      simp [host, port, deleted] at other
    obtain ⟨sessions, -, -⟩ := finishBox_refuses b stQueue s
    refine ⟨_, exec_sessionRelease runs input found, ?_⟩
    rw [if_neg declined]
    exact ⟨finishBox_says .., sessions⟩
  · obtain ⟨sessions, -, -⟩ := finishBox_refuses b stQueue s
    exact ⟨_, exec_sessionRelease_absent runs input absent, finishBox_says .., sessions⟩
  · refine ⟨_, exec_sessionList runs, finishBox_says .., ?_⟩
    obtain ⟨-, -, len, -⟩ := finishBox_says b stOk
      (((listedSessions s (boxPort b) x.target).take 252).flatMap (listEntry s)) (boxTaken s)
    rw [len, listEntries_length, List.length_take]
    omega

end Sys2Proof.Machine
end

section
/-! PROOFS. The host ports: straps, configuration, links, resets and WAKE# (R213, R215, R217 to R220, R661, R676). -/

namespace Sys2Proof.Machine

open Sys2Proof

theorem tadj_length {α : Type} (t : Tbl α) (k : Nat) (f : α → α) : (tadj t k f).length = t.length := by
  induction t with
  | nil => rfl
  | cons q t ih =>
    simp only [tadj]
    split
    · rfl
    · simp only [List.length_cons, ih]

/-! ## PERST# rises (R213, R220, R676) -/

section
variable {s : State} {port bifSel : Nat} {clkSep : Bool}

/-- The straps as sampled fix the ports (R213, Table 05-1). -/
def strapsTaken (bifSel : Nat) (clkSep : Bool) (s : State) : State :=
  { s with host := { s.host with sampled := true, bifSel := bifSel % 4, clkSep := clkSep,
                                 ports := (List.range (portCount (bifSel % 4))).map (fun p => (p, ({} : Port))) } }

/-- A port whose PERST# rises at a time: it answers configuration requests 100 ms later (log entry 92). -/
def perstRisen (at_ : Nat) (x : Port) : Port := { x with perst := false, cfgAt := at_ + 100000000 }

theorem exec_perstDeassert (run : running s = true) (due : s.boot.perstFrom ≤ now s) :
    exec (.perstDeassert port bifSel clkSep) s = .next (deassertPerst port bifSel clkSep s) := by
  simp only [exec, execPerstDeassert, whenRunning_next run, if_neg (Nat.not_lt.mpr due)]

theorem exec_perstDeassert_early (run : running s = true) (early : now s < s.boot.perstFrom) :
    exec (.perstDeassert port bifSel clkSep) s =
      .next { s with host := { s.host with early := s.host.early ++ [(port, bifSel, clkSep)] } } := by
  simp only [exec, execPerstDeassert, whenRunning_next run, if_pos early]

theorem deassertPerst_sampled (sampled : s.host.sampled = true) :
    deassertPerst port bifSel clkSep s = modPort port (perstRisen (now s)) (railsUp s) := by
  simp only [deassertPerst, sampled, if_true]
  rfl

/-- The first rise takes the straps; the reserved code is recorded, and of the ports its event may set cause bits (R213, R623). -/
theorem deassertPerst_first (first : s.host.sampled = false) : ∃ u, Signalled (strapsTaken bifSel clkSep s) u ∧
    deassertPerst port bifSel clkSep s = modPort port (perstRisen (now s)) (railsUp u) := by
  have time : now (if bifSel % 4 = 3 then event 0x0B01 [] (strapsTaken bifSel clkSep s) else strapsTaken bifSel clkSep s) =
      now s := by
    split
    · exact now_event _ _
    · rfl
  refine ⟨if bifSel % 4 = 3 then event 0x0B01 [] (strapsTaken bifSel clkSep s) else strapsTaken bifSel clkSep s,
    .ite (.event _ _ _) (.refl _), ?_⟩
  rw [← time]
  simp only [deassertPerst, first, Bool.false_eq_true, if_false]
  rfl

/-- The ports of a bifurcation are listed in rising order. -/
theorem strapsTaken_rise (bifSel : Nat) (clkSep : Bool) (s : State) :
    keysRise (strapsTaken bifSel clkSep s).host.ports = true := by
  simp only [strapsTaken, portCount]
  split
  · rfl
  · split <;> rfl

theorem strapsTaken_port (there : port < portCount (bifSel % 4)) :
    tfind (strapsTaken bifSel clkSep s).host.ports port = some {} := by
  have listed := tfind_map_filter (List.range (portCount (bifSel % 4))) (fun _ => true) (fun _ => ({} : Port)) port
  rw [List.filter_true, if_pos ⟨List.mem_range.mpr there, rfl⟩] at listed
  exact listed

end

/-! ## Configuration space (R215, R219, R220) -/

section
variable {s : State} {port reg : Nat} {write : Option Nat} {x : Port} (run : running s = true)
  (found : tfind s.host.ports port = some x) (risen : x.perst = false)
include run found risen

theorem exec_configRequest_early (early : now s < x.cfgAt) :
    exec (.configRequest ⟨port, reg, write⟩) s = .next (emit (.cfgRetry port) s) := by
  simp only [exec, execConfigRequest, whenRunning_next run, found, risen, Bool.false_eq_true, if_false, if_pos early]

theorem exec_configRequest_read (due : x.cfgAt ≤ now s) : exec (.configRequest ⟨port, reg, none⟩) s =
    .next (emit (.cfgAnswer port (configWord s.host.bifSel x reg)) s) := by
  simp only [exec, execConfigRequest, whenRunning_next run, found, risen, Bool.false_eq_true, if_false,
    if_neg (Nat.not_lt.mpr due)]

/-- A write that does not clear Bus Master Enable changes its register alone (R215). -/
theorem exec_configRequest_write {v : Nat} (due : x.cfgAt ≤ now s) (keeps : reg ≠ 0x004 ∨ bit v 2 = true) :
    exec (.configRequest ⟨port, reg, some v⟩) s =
      .next (emit (.cfgAnswer port 0) (modPort port (writeConfig reg v) s)) := by
  have stays : ¬ (reg = 0x004 ∧ bit x.command 2 = true ∧ bit v 2 = false) := by
    rintro ⟨command, -, cleared⟩
    simp [command, cleared] at keeps
  simp only [exec, execConfigRequest, whenRunning_next run, found, risen, Bool.false_eq_true, if_false,
    if_neg (Nat.not_lt.mpr due), if_neg stays]

end

/-! ## Links (R217, R218) -/

section
variable {s : State} {port width rate : Nat} {inL0 : Bool}

/-- The change is one that counts as a retrain: a return to L0, or another width or rate in it (R217). -/
def linkAgain (inL0 : Bool) (width rate : Nat) (x : Port) : Bool :=
  inL0 && (if x.inL0 then decide (x.width ≠ width ∨ x.rate ≠ rate) else x.wasUp)

/-- A port that has taken over a change of its link. -/
def linkTaken (inL0 : Bool) (width rate : Nat) (x : Port) : Port :=
  { x with inL0 := inL0, width := width, rate := rate, wasUp := x.wasUp || inL0,
           retrains := min 15 (x.retrains + b2n (linkAgain inL0 width rate x)) }

theorem exec_hostLinkChange (run : running s = true) (listed : width ∈ [1, 2, 4, 8, 16])
    (fits : width ≤ portLanes s.host.bifSel) (known : rate ≤ 5) :
    exec (.hostLinkChange port inL0 width rate) s = .next (modPort port (linkTaken inL0 width rate) s) :=
  (whenRunning_next run).trans (congrArg Host.Outcome.next (if_pos (decide_eq_true ⟨listed, fits, known⟩)))

/-! ## Resets (R219, R228, R255, R259) -/

theorem followAlert_ports (s : State) : (followAlert s).host.ports = s.host.ports := by
  simp only [followAlert]
  split <;> rfl

theorem deletePort_port (p k : Nat) (s : State) :
    (tfind (deletePort p s).host.ports k).map portPlain = (tfind s.host.ports k).map portPlain := by
  refine each_invariant (g := fun u => (tfind u.host.ports k).map portPlain) (fun c u => ?_) _ s
  split
  · split
    · rfl
    · exact startDelete_port _ _ _ u k
  · rfl

/-- A port that a reset has gone over (R219, R228). -/
def portReset (cause : PortResetCause) (at_ : Nat) (x : Port) : Port :=
  { x with unlock := none, latch := none, cause := 0, mask := 0, inL0 := x.inL0 && !takesDown cause,
           perst := x.perst || isPerst cause, perstAt := if isPerst cause && !x.perst then at_ else x.perstAt }

theorem resetPort_port {cause : PortResetCause} {x : Port} (found : tfind s.host.ports port = some x) : ∃ y,
    portPlain y = portPlain x ∧ tfind (resetPort port cause s).host.ports port = some (portReset cause (now s) y) := by
  have plain := deletePort_port port port s
  rw [found, Option.map_some, Option.map_eq_some_iff] at plain
  obtain ⟨y, here, same⟩ := plain
  refine ⟨y, same, ?_⟩
  rw [resetPort, followAlert_ports, tfind_modPort_same]
  exact congrArg (Option.map _) here

/-- A reset with PERST# also ends a deassertion that still waits for its time (R676). -/
def earlyForgotten (port : Nat) (cause : PortResetCause) (s : State) : State :=
  if isPerst cause then { s with host := { s.host with early := s.host.early.filter (fun x => decide (x.1 ≠ port)) } } else s

theorem earlyForgotten_ports (cause : PortResetCause) : (earlyForgotten port cause s).host.ports = s.host.ports := by
  unfold earlyForgotten
  split <;> rfl

theorem exec_portReset {cause : PortResetCause} {x : Port} (run : running s = true)
    (found : tfind s.host.ports port = some x) :
    exec (.portReset port cause) s = .next (resetPort port cause (earlyForgotten port cause s)) := by
  have there : (tfind (earlyForgotten port cause s).host.ports port).isSome = true := by
    rw [earlyForgotten_ports, found, Option.isSome_some]
  simp only [exec, execPortReset, whenRunning_next run, guard]
  exact congrArg Host.Outcome.next (if_pos there)

/-! ## WAKE# (R661) -/

theorem exec_wakeRelease (run : running s = true) (wake : s.host.wake = true)
    (due : (∀ p ∈ s.host.ports, p.2.inL0 = true) ∨ s.host.wakeAt + 100000000 ≤ now s) :
    exec .wakeRelease s = .next (emit (.wake false) { s with host := { s.host with wake := false } }) := by
  refine (whenRunning_next run).trans (congrArg Host.Outcome.next (if_pos ?_))
  simpa [wake] using due

theorem exec_wakeRelease_idle (wake : s.host.wake = false) : exec .wakeRelease s = .next s := by
  simp only [exec, execWakeRelease, whenRunning, guard, wake, Bool.false_and, Bool.false_eq_true, if_false, ite_self]

end

/-- Settles O24: each row by its equation; the ports after a rise or a reset are read off what interrupts leave of them. -/
theorem hostPortEvents : Obligations.HostPortEvents := by
  intro s port run
  refine ⟨fun bifSel clkSep first there due => ?_, fun bifSel clkSep x sampled found due => ?_,
    fun bifSel clkSep early => ⟨_, exec_perstDeassert_early run early, rfl⟩,
    fun x reg write found risen early => ⟨_, exec_configRequest_early run found risen early, rfl, rfl⟩,
    fun x reg found risen due => ⟨_, exec_configRequest_read run found risen due, rfl, rfl⟩,
    fun x reg v found risen due keeps => ?_, fun x inL0 width rate found listed fits known => ?_,
    fun x cause found => ?_, fun wake due => ⟨_, exec_wakeRelease run wake due, rfl, rfl⟩, exec_wakeRelease_idle⟩
  · obtain ⟨u, signalled, risen⟩ := deassertPerst_first (port := port) (bifSel := bifSel) (clkSep := clkSep) first
    have tables := signalled.tables_eq
    obtain ⟨-, keys⟩ := signalled.keys (strapsTaken_rise bifSel clkSep s)
    have plain := signalled.port_plain port
    rw [strapsTaken_port there, Option.map_some, Option.map_eq_some_iff] at plain
    obtain ⟨y, found, -⟩ := plain
    refine ⟨_, perstRisen (now s) y, exec_perstDeassert run due, ?_⟩
    rw [risen, tfind_modPort_same]
    refine ⟨congrArg HostBlock.sampled tables, congrArg HostBlock.bifSel tables, congrArg HostBlock.clkSep tables, ?_,
      congrArg (Option.map _) found, rfl, rfl⟩
    have listed := congrArg List.length keys
    simp only [strapsTaken, List.length_map, List.length_range] at listed
    exact (tadj_length ..).trans listed
  · refine ⟨_, exec_perstDeassert run due, ?_⟩
    rw [deassertPerst_sampled sampled, tfind_modPort_same]
    exact ⟨rfl, congrArg (Option.map _) found⟩
  · refine ⟨_, exec_configRequest_write run found risen due keeps, rfl, ?_⟩
    rw [emit_host, tfind_modPort_same, found, Option.map_some]
  · refine ⟨_, linkTaken inL0 width rate x, exec_hostLinkChange run listed fits known, ?_, rfl, rfl, rfl, rfl,
      fun down => ?_, fun up fell was => ?_⟩
    · rw [tfind_modPort_same, found, Option.map_some]
    · simp [linkTaken, linkAgain, down, b2n]
    · simp [linkTaken, linkAgain, up, fell, was, b2n]
  · obtain ⟨y, plain, reset⟩ := resetPort_port (cause := cause)
      ((congrArg (tfind · port) (earlyForgotten_ports cause)).trans found)
    refine ⟨_, _, exec_portReset run found, reset, rfl, rfl, rfl, ?_, ?_⟩
    · exact congrArg (· && !takesDown cause) (congrArg Port.inL0 plain :)
    · exact congrArg (· || isPerst cause) (congrArg Port.perst plain :)

end Sys2Proof.Machine
end

section
/-! PROOFS. A command on one lane, queue or memory channel leaves the others alone (R230, R346, R503). -/

namespace Sys2Proof.Machine

open Sys2Proof

/-- From `s` to `t` no unit of its kind but unit `n` has changed; `unit` reads a unit of a state. -/
def OnlyUnit {α : Type} (unit : State → Nat → α) (n : Nat) (s t : State) : Prop := ∀ k, k ≠ n → unit t k = unit s k

namespace OnlyUnit

section
variable {α : Type} {unit : State → Nat → α} {n : Nat} {s t u : State}

theorem refl (unit : State → Nat → α) (n : Nat) (s : State) : OnlyUnit unit n s s := fun _ _ => rfl

theorem trans (h : OnlyUnit unit n s t) (g : OnlyUnit unit n t u) : OnlyUnit unit n s u :=
  fun k other => (g k other).trans (h k other)

/-- As `trans`, the second step given first: it says in which state the first one ends. -/
theorem after (g : OnlyUnit unit n t u) (h : OnlyUnit unit n s t) : OnlyUnit unit n s u := h.trans g

theorem ite {c : Prop} [Decidable c] (yes : OnlyUnit unit n s t) (no : OnlyUnit unit n s u) :
    OnlyUnit unit n s (if c then t else u) := by
  split
  · exact yes
  · exact no

/-- A row changes only that unit if its meaning does. -/
theorem of_row {f : State → State} (row : whenRunning f s = .next t) (h : OnlyUnit unit n s (f s)) :
    OnlyUnit unit n s t :=
  Host.Outcome.next.inj row ▸ ite h (refl unit n s)

theorem of_laneRow {c : Lane → Bool} {f : State → State} (row : laneRow n c f s = .next t) (h : OnlyUnit unit n s (f s)) :
    OnlyUnit unit n s t :=
  of_row row (ite h (refl unit n s))

end

end OnlyUnit

/-! ## Lanes (R346) -/

/-- Only lane `n` has changed. -/
abbrev OnlyLane (n : Nat) (s t : State) : Prop := OnlyUnit laneAt n s t

namespace OnlyLane

section
variable {n : Nat} {s t : State}

theorem of_lanes (h : t.lanes = s.lanes) : OnlyLane n s t := fun k _ => by rw [laneAt, h, laneAt]

theorem of_keeps {w : List Area} (h : Keeps w s t) (free : Area.lanes ∉ w) : OnlyLane n s t := of_lanes (h .lanes free)

theorem set (n : Nat) (l : Lane) (s : State) : OnlyLane n s (setLane n l s) := fun k other => laneAt_setLane_ne n l s k other

theorem mod (n : Nat) (f : Lane → Lane) (s : State) : OnlyLane n s (modLane n f s) := set n _ s

theorem event (n code : Nat) (payload : List Nat) (s : State) : OnlyLane n s (Machine.event code payload s) :=
  of_keeps ((event_keeps (wB := [.host, .evr, .out]) (by decide)).mpr (Keeps.refl _ s)) (by decide)

theorem endTraining (n : Nat) (s : State) : OnlyLane n s (Machine.endTraining n s) :=
  of_keeps ((endTraining_keeps (wB := [.ante]) (by decide)).mpr (Keeps.refl _ s)) (by decide)

theorem askTraining (n : Nat) (s : State) : OnlyLane n s (Machine.askTraining n s) :=
  of_keeps ((askTraining_keeps (wB := [.ante]) (by decide)).mpr (Keeps.refl _ s)) (by decide)

/-- A lane counts in its own counters; the rollover of one may signal a vector (R370 to R372). -/
theorem count (n k v : Nat) (s : State) : OnlyLane n s (countLane n k v s) := by
  have signalled (p w : Nat) (u : State) : OnlyLane n u (msix p w u) :=
    of_keeps ((msix_keeps (wB := [.host, .out]) (by decide)).mpr (Keeps.refl _ u)) (by decide)
  unfold countLane
  exact .ite (set _ _ s) (.ite (set _ _ s) (.ite ((set _ _ s).trans (signalled _ _ _)) (set _ _ s)))

theorem countSent (n : Nat) (f : TxFrame) (b : Bytes) (s : State) : OnlyLane n s (Machine.countSent n f b s) := by
  have first : OnlyLane n s (if f.stomp then countLane n 37 1 s else countLane n (if bit (beAt b 0 6) 40 then 27 else 26) 1
      (countLane n 25 b.length (countLane n 24 1 s))) :=
    .ite (count _ _ _ s) (((count _ _ _ s).trans (count _ _ _ _)).trans (count _ _ _ _))
  have second := first.trans (count n (txBin b.length) 1 _)
  exact .ite (second.trans (count _ _ _ _)) second

theorem sendLink (n kind word : Nat) (payload : Bytes) (s : State) : OnlyLane n s (Machine.sendLink n kind word payload s) := by
  have sent (f : TxFrame) (b : Bytes) : OnlyLane n s (Machine.countSent n f b (wakeLane n s)) :=
    (mod n _ s).trans (countSent n f b _)
  exact (sent _ _).trans (of_lanes rfl)

theorem sendCredit (n : Nat) (nak : Bool) (s : State) : OnlyLane n s (Machine.sendCredit n nak s) :=
  (set n _ s).trans (sendLink n _ _ _ _)

/-! ### Pause (R361, R362) -/

theorem endHold (n : Nat) (s : State) : OnlyLane n s (Machine.endHold n s) := by
  unfold Machine.endHold
  dsimp only
  split
  · exact .refl _ n s
  · exact (set n _ s).trans (count n _ _ _)

theorem sendPause (n quanta : Nat) (s : State) : OnlyLane n s (Machine.sendPause n quanta s) := mod n _ s

theorem takePause (n : Nat) (pfc : Option Nat) (quanta : Nat) (s : State) : OnlyLane n s (Machine.takePause n pfc quanta s) := by
  have counted := count n (if pfc.isSome then 6 else 5) 1 s
  unfold Machine.takePause
  generalize Machine.countLane n _ 1 s = u at counted
  have held : OnlyLane n u (if heldLane u n then u else modLane n (fun l => { l with heldFrom := now u }) (Machine.endHold n u)) :=
    .ite (.refl _ n u) ((endHold n u).trans (mod n _ _))
  exact .ite counted (.ite (counted.trans (endHold n u)) (counted.trans (held.trans (mod n _ _))))

/-! ### Leaving UP (R346, R351) -/

/-- A lane that counts in no fabric trunk leaves UP by itself: no frame of it goes to another lane. -/
theorem leaveUp (alone : inFabricTrunk (laneAt s n) = false) : OnlyLane n s (Machine.leaveUp n s) := by
  unfold Machine.leaveUp revokeLane
  simp only [alone, if_true]
  refine .ite (.refl _ n s) (.ite ((set n _ s).trans (askTraining n _)) ?_)
  split
  · exact (set n _ s).trans (askTraining n _)
  · exact (set n _ s).trans (askTraining n _)

/-- A lane whose confirmation passes is in no fabric trunk yet: only a client lane counts in its trunk at once (R346). -/
theorem confirmed (n : Nat) (s : State) : inFabricTrunk (laneAt (Machine.endTraining n (modLane n (fun l =>
    { l with state := .up, since := now s, upAt := now s, emptyAt := now s, helloAt := now s, hellos := 0,
             inTrunk := l.cfg.client, hiBer := false }) s)) n) = false := by
  have lanes (u : State) : (Machine.endTraining n u).lanes = u.lanes :=
    (endTraining_keeps (wB := [.ante]) (by decide)).mpr (Keeps.refl _ u) .lanes (by decide)
  rw [laneAt, lanes]
  change inFabricTrunk (laneAt (setLane n _ s) n) = false
  rw [laneAt_setLane_same]
  simp [inFabricTrunk]

/-! ### The rows of one lane -/

theorem laneTrainingDone {pre main post : Nat} (row : execLaneTrainingDone n pre main post s = .next t) : OnlyLane n s t :=
  .of_laneRow row (mod n _ s)

theorem laneTrainingTimeout (row : execLaneTrainingTimeout n s = .next t) : OnlyLane n s t := by
  have ended (l : Lane) : OnlyLane n s (setLane n l (Machine.endTraining n s)) := (endTraining n s).trans (set n l _)
  exact .of_laneRow row (.ite ((ended _).trans (event n _ _ _)) ((ended _).trans (askTraining n _)))

theorem blockLock (row : execBlockLock n s = .next t) : OnlyLane n s t :=
  .of_laneRow row ((mod n (fun l => { l with state := .confirm, since := now s }) s).trans (of_lanes rfl))

theorem confirmPass (row : execConfirmPass n s = .next t) : OnlyLane n s t :=
  have up := (mod n _ s).trans (endTraining n _)
  .of_laneRow row (.ite (up.trans (leaveUp (confirmed n s))) up)

theorem falseLock (row : execFalseLock n s = .next t) : OnlyLane n s t :=
  .of_laneRow row ((mod n _ s).trans (count n _ _ _))

theorem attemptCountReset (row : execAttemptCountReset n s = .next t) : OnlyLane n s t :=
  .of_laneRow row (mod n _ s)

theorem pauseReceived {pfc : Option Nat} {quanta : Nat} (row : execPauseReceived n pfc quanta s = .next t) : OnlyLane n s t :=
  .of_laneRow row (takePause n _ _ s)

theorem pauseExpiry (row : execPauseExpiry n s = .next t) : OnlyLane n s t :=
  .of_laneRow row (endHold n s)

theorem pauseRepeatTimer (row : execPauseRepeatTimer n s = .next t) : OnlyLane n s t :=
  .of_laneRow row ((mod n _ s).trans (sendPause n _ _))

theorem pauseWatchdog (row : execPauseWatchdog n s = .next t) : OnlyLane n s t :=
  .of_laneRow row ((((count n _ _ s).trans (endHold n _)).trans (mod n _ _)).trans (event n _ _ _))

theorem pauseHoldoffEnd (row : execPauseHoldoffEnd n s = .next t) : OnlyLane n s t :=
  .of_laneRow row (mod n _ s)

theorem lpiEntry (row : execLpiEntry n s = .next t) : OnlyLane n s t :=
  .of_laneRow row ((mod n _ s).trans (count n _ _ _))

theorem lpiWake (row : execLpiWake n s = .next t) : OnlyLane n s t :=
  .of_laneRow row (mod n _ s)

theorem rxLowPowerIdle {enter : Bool} (row : execRxLowPowerIdle n enter s = .next t) : OnlyLane n s t :=
  .of_laneRow row (.ite ((mod n _ s).trans (count n _ _ _)) (mod n _ s))

theorem creditReturnTimer (row : execCreditReturnTimer n s = .next t) : OnlyLane n s t :=
  .of_laneRow row (sendCredit n _ s)

end

end OnlyLane

/-! ## Queues (R230) -/

/-- Only context `n` has changed. -/
abbrev OnlyCtx (n : Nat) (s t : State) : Prop := OnlyUnit ctxAt n s t

namespace OnlyCtx

section
variable {n : Nat} {s t : State}

theorem of_host (h : t.host = s.host) : OnlyCtx n s t := fun k _ => ctxAt_of_host h k

theorem of_signalled (h : Signalled s t) : OnlyCtx n s t := fun k _ => ctxAt_of_hostTables h.tables_eq k

theorem set (n : Nat) (q : Queue) (s : State) : OnlyCtx n s (setQueue n q s) :=
  fun k other => ctxAt_setCtx_ne n _ s k other

/-! ### Doorbells and fetches (R244 to R246, R267) -/

theorem writeTail (n : Nat) (q : Queue) (tail : Nat) (s : State) : OnlyCtx n s (Machine.writeTail n q tail s) := by
  unfold Machine.writeTail
  exact .ite (.refl _ n s) (.ite (set n _ s) (set n _ s))

theorem doorbell (p n : Nat) (tail head : Option Nat) (s : State) : OnlyCtx n s (Machine.doorbell p n tail head s) := by
  have error : OnlyCtx n s (doorbellError p s) := fun k _ => doorbellError_queue
  unfold Machine.doorbell
  split
  · exact .refl _ n s
  · refine .ite (.refl _ n s) (.ite error ?_)
    cases tail with
    | some t => exact (set n _ s).trans (writeTail n _ _ _)
    | none => exact set n _ s

theorem fetchFailed (n : Nat) (q : Queue) (s : State) : OnlyCtx n s (Machine.fetchFailed n q s) := by
  unfold Machine.fetchFailed
  refine .ite ?_ (set n _ s)
  have failed := set n { q with error := true, retried := false } s
  exact .after (of_signalled (.raiseOn _ _ _)) failed

theorem entryFetched (n : Nat) (q : Queue) (f : Fetched) (s : State) : OnlyCtx n s (Machine.entryFetched n q f s) :=
  set n _ s

/-! ### Completions (R79, R240, R249) -/

theorem signalQueue (n : Nat) (s : State) : OnlyCtx n s (Machine.signalQueue n s) := by
  unfold Machine.signalQueue
  split
  · exact .refl _ n s
  · exact .ite (.refl _ n s) (.ite ((set n _ s).trans (of_signalled (.msix _ _ _))) (set n _ s))

theorem writeCq (n : Nat) (q : Queue) (e : Completion) (s : State) : OnlyCtx n s (Machine.writeCq n q e s) := by
  have sent (u : State) : OnlyCtx n u (sendHostData q.port e u) :=
    of_host ((sendHostData_keeps (wB := [.out]) (by decide)).mpr (Keeps.refl _ u) .host (by decide))
  have delivered (u : State) : OnlyCtx n u (setDelivered e.session e.seq u) :=
    of_host ((setDelivered_keeps (wB := [.jnl, .sessions]) (by decide)).mpr (Keeps.refl _ u) .host (by decide))
  have written := fun (o : Out) (x : Queue) => (sent s).trans (set n x (emit o (sendHostData q.port e s)))
  exact (written _ _).trans ((delivered _).trans (signalQueue n _))

theorem postHeld (n m : Nat) (s : State) : OnlyCtx n s (Machine.postHeld n m s) := by
  induction m generalizing s with
  | zero => exact .refl _ n s
  | succ m ih =>
    unfold Machine.postHeld
    split
    · exact .refl _ n s
    · split
      · exact .refl _ n s
      · exact .ite (((set n _ s).trans (writeCq n _ _ _)).trans (ih _)) (.refl _ n s)

/-! ### The rows of one queue -/

theorem startExit (n : Nat) (s : State) : OnlyCtx n s (Machine.startExit s) := fun k _ => ctxAt_startExit s k

theorem sqTailWrite {port tail : Nat} {head : Option Nat} (row : execSqTailWrite port n tail head s = .next t) : OnlyCtx n s t :=
  .of_row row ((startExit n s).trans (doorbell _ n _ _ _))

theorem cqHeadWrite {port head : Nat} (row : execCqHeadWrite port n head s = .next t) : OnlyCtx n s t :=
  .of_row row ((startExit n s).trans (doorbell _ n _ _ _))

theorem submissionEntryFetch {res : Option Fetched} (row : execSubmissionEntryFetch n res s = .next t) : OnlyCtx n s t := by
  have dealer {u v : State} (h : Keeps [.dlr] u v) : OnlyCtx n u v := of_host (h .host (by decide))
  refine .of_row row ?_
  dsimp only
  split
  · exact .refl _ n s
  · next q _ =>
    refine .ite (.refl _ n s) (.ite (dealer ?_) (.ite (dealer ?_) ?_))
    · exact (leftUntaken_keeps (by decide)).mpr (Keeps.refl _ s)
    · exact (countStall_keeps (by decide)).mpr (Keeps.refl _ s)
    · cases res with
      | none => exact (of_host rfl : OnlyCtx n s (entryRead q s)).trans (fetchFailed n q _)
      | some f =>
        have searched : OnlyCtx n (entryRead q s) (spendSearches (fetchedKeyed (some f)) (entryRead q s)) :=
          dealer ((spendSearches_keeps (by decide)).mpr (Keeps.refl _ _))
        exact ((of_host rfl : OnlyCtx n s (entryRead q s)).trans searched).trans (entryFetched n q f _)

theorem coalesceTimerExpiry (row : execCoalesceTimerExpiry n s = .next t) : OnlyCtx n s t := by
  refine .of_row row ?_
  split
  · exact .refl _ n s
  · exact .ite ((set n _ s).trans (of_signalled (.msix _ _ _))) (.refl _ n s)

theorem postHeldCompletion (row : execPostHeldCompletion n s = .next t) : OnlyCtx n s t := by
  refine .of_row row ?_
  split
  · exact .refl _ n s
  · exact .ite (postHeld n _ s) (.refl _ n s)

end

end OnlyCtx

/-! ## Memory channels (R503) -/

/-- Only DRAM channel `n` has changed. -/
abbrev OnlyChan (n : Nat) (s t : State) : Prop := OnlyUnit chanAt n s t

namespace OnlyChan

section
variable {n : Nat} {s t : State}

theorem set (n : Nat) (x : Channel) (s : State) : OnlyChan n s (setChan n x s) :=
  fun k other => chanAt_setChan_ne n x s k other

theorem fail (n : Nat) (s : State) : OnlyChan n s (failChannel n s) :=
  fun k other => (chanAt_failChannel n s k).trans (if_neg other)

theorem dramLiveRetrain {finished : Bool} {eyes : List (Nat × Nat)} (row : execDramLiveRetrain n finished eyes s = .next t) :
    OnlyChan n s t := by
  have dropped (id : Nat) : OnlyChan n s (dropMaint id s) := fun k _ => chanAt_dropMaint id s k
  have asked (u : State) : OnlyChan n u (askRetrain n u) := fun k _ => chanAt_askRetrain n u k
  refine .of_row row (.ite ?_ (.refl _ n s))
  dsimp only
  split
  · exact .refl _ n s
  · exact .ite (.refl _ n s) (.ite (((dropped _).trans (set n _ _)).trans (asked _))
      (.ite ((dropped _).trans (fail n _)) ((dropped _).trans (set n _ _))))

theorem dramChannelFailure {cause : ChannelCause} (row : execDramChannelFailure n cause s = .next t) : OnlyChan n s t :=
  .of_row row (.ite (fail n s) (.refl _ n s))

end

end OnlyChan

/-- Settles O60: each row by what it leaves of the units of its kind. -/
theorem commandsOnOneUnitLeaveOthersAlone : Obligations.CommandsOnOneUnitLeaveOthersAlone := by
  intro s t n k other
  refine ⟨fun c rows row => ?_, fun c rows row => ?_, fun c rows row => ?_⟩
  · rcases rows with ⟨pre, main, post, rfl⟩ | rfl | rfl | rfl | rfl | rfl | ⟨pfc, quanta, rfl⟩ | rfl | rfl | rfl | rfl |
      rfl | rfl | ⟨enter, rfl⟩ | rfl
    · exact OnlyLane.laneTrainingDone row k other
    · exact OnlyLane.laneTrainingTimeout row k other
    · exact OnlyLane.blockLock row k other
    · exact OnlyLane.confirmPass row k other
    · exact OnlyLane.falseLock row k other
    · exact OnlyLane.attemptCountReset row k other
    · exact OnlyLane.pauseReceived row k other
    · exact OnlyLane.pauseExpiry row k other
    · exact OnlyLane.pauseRepeatTimer row k other
    · exact OnlyLane.pauseWatchdog row k other
    · exact OnlyLane.pauseHoldoffEnd row k other
    · exact OnlyLane.lpiEntry row k other
    · exact OnlyLane.lpiWake row k other
    · exact OnlyLane.rxLowPowerIdle row k other
    · exact OnlyLane.creditReturnTimer row k other
  · rcases rows with ⟨port, tail, head, rfl⟩ | ⟨port, head, rfl⟩ | ⟨res, rfl⟩ | rfl | rfl
    · exact OnlyCtx.sqTailWrite row k other
    · exact OnlyCtx.cqHeadWrite row k other
    · exact OnlyCtx.submissionEntryFetch row k other
    · exact OnlyCtx.coalesceTimerExpiry row k other
    · exact OnlyCtx.postHeldCompletion row k other
  · rcases rows with ⟨ch, finished, eyes, rfl, rfl⟩ | ⟨cause, rfl⟩
    · exact OnlyChan.dramLiveRetrain row k other
    · exact OnlyChan.dramChannelFailure row k other

end Sys2Proof.Machine
end

section
/-! PROOFS. What frames, requests and settled shards leave of the fabric block (R300 to R302, R314, R317). -/

namespace Sys2Proof.Machine

open Sys2Proof

/-! ## Frames of the module's own -/

/-- A frame of the module's own changes the rotating pointer of the fabric block alone (R288). -/
theorem sendOwn_fab (kind dst session seq word : Nat) (payload : Bytes) (bounded : Bool) (s : State) :
    ∃ r, (sendOwn kind dst session seq word payload bounded s).fab = { s.fab with rotor := r } := by
  have queued (node : Nat) (f : TxFrame) (u : State) : (queueTo node f u).fab = u.fab :=
    (queueTo_keeps (wB := [.host, .lanes, .fabc, .out]) rfl).mpr (Keeps.refl _ u) .fab (by decide)
  have dropped (f : TxFrame) (u : State) : (dropHop f u).fab = u.fab :=
    (dropHop_keeps (wB := [.host, .lanes, .fabc, .out]) rfl).mpr (Keeps.refl _ u) .fab (by decide)
  unfold sendOwn
  dsimp only
  split
  · exact ⟨_, rfl⟩
  · split
    · exact ⟨_, queued _ _ _⟩
    · exact ⟨_, dropped _ s⟩

theorem reqDone_fab (id seq st : Nat) (s : State) : ∃ r, (reqDone id seq st s).fab = { s.fab with rotor := r } := by
  have acked (u : State) : ∃ r, (sendAck id u).fab = { u.fab with rotor := r } := by
    unfold sendAck
    split
    · exact ⟨_, rfl⟩
    · exact sendOwn_fab _ _ _ _ _ _ _ u
  unfold reqDone
  split
  · exact ⟨_, rfl⟩
  · split
    · exact ⟨_, rfl⟩
    · exact acked _

/-! ## Requests -/

/-- The fabric block beside what a request that is sent changes: the sessions to peers and what waits for them. -/
def fabRest (f : Fabric) : Fabric := { f with rotor := 0, links := [], opens := [], nextReq := 0, unsent := [] }

theorem sendOwn_fabRest (kind dst session seq word : Nat) (payload : Bytes) (bounded : Bool) (s : State) :
    fabRest (sendOwn kind dst session seq word payload bounded s).fab = fabRest s.fab := by
  obtain ⟨r, fab⟩ := sendOwn_fab kind dst session seq word payload bounded s
  rw [fab]
  rfl

theorem launch_fabRest (node : Nat) (x : PeerLink) (r : Request) (s : State) : fabRest (launch node x r s).fab = fabRest s.fab := by
  have sent (session wanted : Nat) (r : Request) (u : State) : fabRest (dataFrame node session wanted r u).fab = fabRest u.fab :=
    each_invariant (g := fun u => fabRest u.fab) (fun _ u => sendOwn_fabRest _ _ _ _ _ _ _ u) _ u
  unfold launch
  split
  · exact sent _ _ _ _
  · exact sent _ _ _ _

theorem openPeer_fabRest (node : Nat) (s : State) : fabRest (openPeer node s).fab = fabRest s.fab := by
  unfold openPeer
  split
  · rfl
  · exact sendOwn_fabRest _ _ _ _ _ _ _ _

/-- A request that waits for its session or for credit. -/
def requestWaits (node : Nat) (r : Request) (s : State) : State :=
  { s with fab := { s.fab with unsent := s.fab.unsent ++ [(node, r)] } }

theorem sendRequest_unlinked {node : Nat} (r : Request) {s : State} (none_ : linkTo s node = none) :
    sendRequest node r s = openPeer node (requestWaits node r s) := by
  rw [sendRequest, none_]
  rfl

theorem sendRequest_linked {node : Nat} {x : PeerLink} (r : Request) {s : State} (link : linkTo s node = some x) :
    sendRequest node r s = if s.fab.unsent.any (fun p => decide (p.1 = node)) = true ∨ creditLeft x < r.units then
      requestWaits node r s else launch node x r s := by
  rw [sendRequest, link]
  rfl

theorem requestWaits_fabRest (node : Nat) (r : Request) (s : State) : fabRest (requestWaits node r s).fab = fabRest s.fab := rfl

theorem sendRequest_fabRest (node : Nat) (r : Request) (s : State) : fabRest (sendRequest node r s).fab = fabRest s.fab := by
  cases link : linkTo s node with
  | none => rw [sendRequest_unlinked r link, openPeer_fabRest, requestWaits_fabRest]
  | some x =>
    rw [sendRequest_linked r link]
    split
    · exact requestWaits_fabRest node r s
    · exact launch_fabRest node x r s

/-! ## Pending shards -/

/-- The commit of a pending shard takes it from those that pend, and changes nothing else of the fabric block. -/
theorem commitPend_fab (p : Pending) (s : State) : (commitPend p s).fab = { s.fab with pend := s.fab.pend.erase p } := by
  have committed (r : Record) (at_ : Rest) (u : State) : (commitRecord r at_ u).fab = u.fab :=
    (commitRecord_keeps (wB := [.nss, .commits, .ante, .host, .idx, .med, .mem, .evr, .out]) rfl).mpr (Keeps.refl _ u) .fab
      (by decide)
  have settled (reserved used : Nat) (u : State) : (settleKitty reserved used u).fab = u.fab := rfl
  change _ = (dropPend p s).fab
  rw [commitPend]
  split
  · rfl
  · split
    · exact committed _ _ (dropPend p s)
    · exact (settled _ _ _).trans (committed _ _ (dropPend p s))

theorem settleOne_fab (p : Pending) (ok : Bool) (s : State) :
    ∃ r, (settleOne p ok s).fab = { s.fab with pend := s.fab.pend.erase p, rotor := r } := by
  obtain ⟨r, done⟩ := reqDone_fab p.session p.seq stOk (if ok then commitPend p s else discardPend p s)
  refine ⟨r, done.trans ?_⟩
  split
  · rw [commitPend_fab]
  · rfl

theorem settleOne_pend (y : Pending) (ok : Bool) (s : State) : (settleOne y ok s).fab.pend = s.fab.pend.erase y := by
  obtain ⟨r, fab⟩ := settleOne_fab y ok s
  rw [fab]

/-- A shard that is discarded commits nothing, and leaves the index as it is. -/
theorem settleOne_discard (p : Pending) (s : State) : (settleOne p false s).commits = s.commits ∧
    (settleOne p false s).idx = s.idx :=
  have done := (reqDone_keeps (id := p.session) (seq := p.seq) (st := stOk) (wB := [.sessions, .host, .lanes, .fab, .fabc, .out])
    rfl).mpr (Keeps.refl _ (discardPend p s))
  ⟨done .commits (by decide), done .idx (by decide)⟩

end Sys2Proof.Machine
end

section
/-! PROOFS. How an OPEN is answered (R299, R335). -/

namespace Sys2Proof.Machine

open Sys2Proof

section
variable {s : State} {d : Dgram} {t : Nat} (run : running s = true) (trunk : arrivalTrunk s d = some t)
  (header : headerOk d = true) (opens : d.kind = 1) (sized : tooShortOrLong d = false)

/-- The session that an OPEN makes, its search counted (R335, R429). -/
def openMade (d : Dgram) (t st client : Nat) (s : State) : State :=
  (if st = stOk then openClient d t client (countSearch 1 (addressKey d.srcAddr d.srcPort t) s)
   else (countSearch 1 (addressKey d.srcAddr d.srcPort t) s, 0)).1

/-- The reply to an OPEN is sent, and kept for repeats (R335). -/
def openAnswered (d : Dgram) (t word : Nat) (kept : List (Nat × Nat × Nat × Nat × Nat)) (s : State) : State :=
  sendOpenReply t d.srcAddr d.srcPort word { s with fab := { s.fab with openAnswers := kept } }

/-- The reply is a datagram: it makes no session, and binds no context. -/
theorem openAnswered_same (word : Nat) (kept : List (Nat × Nat × Nat × Nat × Nat)) (u : State) :
    (openAnswered d t word kept u).sessions = u.sessions ∧ (openAnswered d t word kept u).host = u.host ∧
      (openAnswered d t word kept u).fabc = u.fabc :=
  have sent : Keeps [.lanes, .fab, .draws] u (openAnswered d t word kept u) := (sendOpenReply_keeps rfl).mpr (fun p away => by
    cases p
    case fab => exact absurd (by decide) away
    all_goals rfl)
  ⟨sent .sessions (by decide), sent .host (by decide), sent .fabc (by decide)⟩

include run trunk header opens sized

theorem exec_clientOpen_new {st client : Nat} (new : ∀ a ∈ s.fab.openAnswers, ¬ (a.1 = d.srcAddr ∧ a.2.1 = d.srcPort ∧ a.2.2.1 = d.wordA))
    (status : openStatus s d t = (st, client)) :
    ∃ word kept, exec (.clientOpen d) s = .next (openAnswered d t word kept (openMade d t st client s)) := by
  have none_kept : (s.fab.openAnswers.filter (fun a => decide (now s ≤ a.2.2.2.1 + 10000000000))).find?
      (fun a => decide (a.1 = d.srcAddr ∧ a.2.1 = d.srcPort ∧ a.2.2.1 = d.wordA)) = none :=
    List.find?_eq_none.mpr fun a held same =>
      new a (List.mem_filter.mp held).1 (decide_eq_true_eq.mp same)
  change ∃ word kept, execClientOpen d s = .next (openAnswered d t word kept (openMade d t st client s))
  simp only [execClientOpen, whenRunning_next run, trunk, header, opens, sized, none_kept, status]
  exact ⟨_, _, rfl⟩

theorem exec_clientOpen_again {a : Nat × Nat × Nat × Nat × Nat} (held : a ∈ s.fab.openAnswers)
    (recent : now s ≤ a.2.2.2.1 + 10000000000) (same : a.1 = d.srcAddr ∧ a.2.1 = d.srcPort ∧ a.2.2.1 = d.wordA) :
    ∃ word kept, exec (.clientOpen d) s = .next (openAnswered d t word kept s) := by
  have found : ((s.fab.openAnswers.filter (fun a => decide (now s ≤ a.2.2.2.1 + 10000000000))).find?
      (fun a => decide (a.1 = d.srcAddr ∧ a.2.1 = d.srcPort ∧ a.2.2.1 = d.wordA))).isSome = true :=
    List.find?_isSome.mpr ⟨a, List.mem_filter.mpr ⟨held, decide_eq_true recent⟩, decide_eq_true same⟩
  obtain ⟨b, found⟩ := Option.isSome_iff_exists.mp found
  change ∃ word kept, execClientOpen d s = .next (openAnswered d t word kept s)
  simp only [execClientOpen, whenRunning_next run, trunk, header, opens, sized, found]
  exact ⟨_, _, rfl⟩

end

section
variable {s : State} {d : Dgram} {t client c : Nat}

theorem countSearch_same (p key : Nat) : (countSearch p key s).sessions = s.sessions ∧ (countSearch p key s).host = s.host :=
  ⟨rfl, rfl⟩

theorem openMade_refused {st : Nat} (refused : st ≠ stOk) : (openMade d t st client s).sessions = s.sessions ∧
    (openMade d t st client s).host = s.host := by
  rw [openMade, if_neg refused]
  exact countSearch_same _ _

/-- A session that is granted stands in the lowest free context (R230, R299). -/
theorem openMade_granted (free : freeCtx s = some c) : ∃ id y, sessFind (openMade d t stOk client s) id = some y ∧
    y.kind = .client ∧ y.clientId = client ∧ y.addr = d.srcAddr ∧ y.udp = d.srcPort ∧ y.trunk = t ∧
    (ctxAt (openMade d t stOk client s) c).session = some id := by
  have free' : freeCtx (countSearch 1 (addressKey d.srcAddr d.srcPort t) s) = some c := free
  rw [openMade, if_pos rfl]
  simp only [openClient, free', bindCtx]
  refine ⟨_, _, tfind_tput_same _ _ _, rfl, rfl, rfl, rfl, rfl, ?_⟩
  exact congrArg Ctx.session (ctxAt_setCtx_same _ _ _)

end

/-- Settles O25: the OPEN makes what its status says, and the reply changes nothing of it. -/
theorem clientOpenAnswers : Obligations.ClientOpenAnswers := by
  intro s d t client run trunk header opens sized
  refine ⟨fun c new status free => ?_, fun st new status refused => ?_, fun a held recent addr port nonce => ?_⟩
  · obtain ⟨word, kept, row⟩ := exec_clientOpen_new run trunk header opens sized new status
    obtain ⟨id, y, found, kind, who, addr, udp, on, bound⟩ := openMade_granted (d := d) (t := t) (client := client) free
    obtain ⟨sessions, host, -⟩ := openAnswered_same (d := d) (t := t) word kept (openMade d t stOk client s)
    exact ⟨_, id, y, row, (sessFind_of_sessions sessions id).trans found, kind, who, addr, udp, on,
      (congrArg Ctx.session (ctxAt_of_host host c)).trans bound⟩
  · obtain ⟨word, kept, row⟩ := exec_clientOpen_new run trunk header opens sized new status
    obtain ⟨sessions, host⟩ := openMade_refused (s := s) (d := d) (t := t) (client := client) refused
    obtain ⟨sessions', host', -⟩ := openAnswered_same (d := d) (t := t) word kept (openMade d t st client s)
    exact ⟨_, row, sessions'.trans sessions, congrArg HostBlock.ctxs (host'.trans host)⟩
  · obtain ⟨word, kept, row⟩ := exec_clientOpen_again run trunk header opens sized held recent ⟨addr, port, nonce⟩
    obtain ⟨sessions, -, fabc⟩ := openAnswered_same (d := d) (t := t) word kept s
    exact ⟨_, row, sessions, fabc⟩

end Sys2Proof.Machine
end

section
/-! PROOFS. How client sessions and what they left end, and how the trunk's address is made known (R326, R329, R332, R337, R357,
R690, R692). -/

namespace Sys2Proof.Machine

open Sys2Proof

section
variable {s : State} {d : Dgram} {k session : Nat} {x : Session}

/-! ## Sessions and stages (R332, R337) -/

/-- A session that has been released is gone (R266). -/
theorem sessFind_releaseSession (id : Nat) (s : State) : sessFind (releaseSession id s) id = none := by
  unfold releaseSession
  split
  · assumption
  · exact tfind_tdel_same _ _

theorem exec_clientCloseComplete {addr port : Nat} (run : running s = true) (found : sessFind s session = some x)
    (client : x.kind = .client) (closer : x.closer = some (addr, port)) (draining : x.draining = true)
    (quiet : inflightOf s session = []) : ∃ t, exec (.clientCloseComplete session) s = .next t ∧ t.sessions =
      (releaseSession session (sendCloseReply x.trunk addr port session x.highest (watermark s session x) s)).sessions := by
  change ∃ t, execClientCloseComplete session s = .next t ∧ _
  simp only [execClientCloseComplete, whenRunning_next run, found, client, closer, draining, quiet]
  exact ⟨_, rfl, rfl⟩

theorem exec_clientSessionIdle (run : running s = true) (found : sessFind s session = some x) (client : x.kind = .client)
    (timed : s.fab.idleS ≠ 0) (idle : x.lastAt + s.fab.idleS * 1000000000 ≤ now s) (quiet : inflightOf s session = [])
    (live : x.draining = false) : exec (.clientSessionIdle session) s = .next (releaseSession session (drain session s)) := by
  change execClientSessionIdle session s = _
  simp [execClientSessionIdle, whenRunning_next run, found, client, guard, timed, idle, quiet, live]

theorem exec_stageIdleExpiry {handle : Nat} {p : Nat × Stage} (run : running s = true)
    (found : s.fab.stages.find? (fun p => decide (p.1 = session ∧ p.2.handle = handle)) = some p)
    (idle : p.2.at_ + s.fab.stageIdleMs * 1000000 ≤ now s) :
    exec (.stageIdleExpiry session handle) s = .next { s with fab := { s.fab with stages := s.fab.stages.erase p } } := by
  change execStageIdleExpiry session handle s = _
  simp only [execStageIdleExpiry, whenRunning_next run, found, guard, idle, decide_true, if_true]

/-! ## Datagrams and frames that reach no session (R329, R357, R690, R692) -/

theorem exec_clientDatagramDrop_header (run : running s = true) (trunk : arrivalTrunk s d = some k)
    (bad : headerOk d = false) : exec (.clientDatagramDrop d) s = .next (dropType s) := by
  change execClientDatagramDrop d s = _
  simp [execClientDatagramDrop, whenRunning_next run, handleDatagram, trunk, bad]

theorem exec_clientDatagramDrop_session (run : running s = true) (trunk : arrivalTrunk s d = some k) (other : d.kind ≠ 1)
    (header : headerOk d = true) (known : clientType d.kind = true) (sized : tooShortOrLong d = false)
    (absent : sessionFor s d k = none) : exec (.clientDatagramDrop d) s = .next (dropClient s) := by
  change execClientDatagramDrop d s = _
  simp [execClientDatagramDrop, whenRunning_next run, handleDatagram, trunk, other, header, known, sized, absent]

theorem exec_clientFrameFiltered {lane : Nat} (run : running s = true) (client : (laneAt s lane).cfg.client = true) :
    exec (.clientFrameFiltered lane) s = .next (dropFiltered lane s) :=
  (whenRunning_next run).trans (congrArg Host.Outcome.next (if_pos client))

theorem exec_clientCompletionDiscard (run : running s = true) : exec (.clientCompletionDiscard k) s =
    .next { setTrunk k { trunkAt s k with waiting := [] } s with
            fabc := { s.fabc with clientDrop := s.fabc.clientDrop + (trunkAt s k).waiting.length } } := by
  change execClientCompletionDiscard k s = _
  rw [execClientCompletionDiscard, whenRunning_next run]

/-! ## Discovery (R326) -/

/-- The trunk knows where a sender is. -/
def peerLearnt (v6 : Bool) (sender mac k : Nat) (s : State) : State :=
  setTrunk k { trunkAt s k with peers := (trunkAt s k).peers.filter (fun p => decide (p.1 ≠ mappedAddr v6 sender)) ++
    [(mappedAddr v6 sender, mac)] } s

theorem exec_neighbourDiscovery_v4 {lane target sender mac : Nat} (run : running s = true) (trunk : trunkOf s lane = some k)
    (v4 : (trunkAt s k).v4 = true) (mine : target = (trunkAt s k).addr4) (free : inActivation s = false) :
    exec (.neighbourDiscovery lane false target sender mac) s =
      .next (queueFrame lane (neighbourAnswer s lane false target sender mac) (peerLearnt false sender mac k s)) := by
  have asked : ((trunkAt s k).v4 && decide (target = (trunkAt s k).addr4)) = true := by simp [v4, mine]
  change execNeighbourDiscovery lane false target sender mac s = _
  simp only [execNeighbourDiscovery, whenRunning_next run, trunk, free, Bool.false_eq_true, if_false, asked]
  rfl

theorem laneAt_queueFrame (n : Nat) (b : Bytes) (s : State) : laneAt (queueFrame n b s) n =
    { laneAt s n with tx := (laneAt s n).tx ++ [{ bytes := b, cells := ceilDiv (b.length + 4) 256, at_ := now s }] } :=
  laneAt_setLane_same ..

end

/-- Settles O27: each row by what it comes to. -/
theorem clientSessionsEnd : Obligations.ClientSessionsEnd := by
  intro s session run
  refine ⟨fun x addr port found client closer draining quiet => ?_, fun x found client timed idle quiet live => ?_,
    fun handle p found idle => ?_, fun d k trunk bad => ?_, fun d k trunk other header known sized absent => ?_,
    fun lane client => ?_, fun lane k target sender mac trunk v4 mine free => ?_, fun trunk => ?_⟩
  · obtain ⟨t, row, sessions⟩ := exec_clientCloseComplete run found client closer draining quiet
    exact ⟨t, row, (sessFind_of_sessions sessions session).trans (sessFind_releaseSession _ _)⟩
  · exact ⟨_, exec_clientSessionIdle run found client timed idle quiet live, sessFind_releaseSession _ _⟩
  · exact ⟨_, exec_stageIdleExpiry run found idle, rfl⟩
  · exact ⟨_, exec_clientDatagramDrop_header run trunk bad, rfl, rfl, rfl⟩
  · exact ⟨_, exec_clientDatagramDrop_session run trunk other header known sized absent, rfl, rfl⟩
  · have filtered := (dropFiltered_keeps (lane := lane) (wB := [.host, .lanes, .out]) rfl).mpr (Keeps.refl _ s)
    exact ⟨_, exec_clientFrameFiltered run client, rfl, filtered .sessions (by decide), filtered .fab (by decide)⟩
  · refine ⟨_, exec_neighbourDiscovery_v4 run trunk v4 mine free,
      ⟨_, congrArg Lane.tx (laneAt_queueFrame ..), rfl⟩, ?_⟩
    change _ ∈ (trunkAt (peerLearnt false sender mac k s) k).peers
    rw [peerLearnt, trunkAt_setTrunk_same]
    exact List.mem_append_right _ (List.mem_singleton_self _)
  · exact ⟨_, exec_clientCompletionDiscard run, congrArg ClientTrunk.waiting (trunkAt_setTrunk_same ..), rfl⟩

end Sys2Proof.Machine
end

section
/-! PROOFS. What the requests of a fabric session do at the module that receives them (R302, R305, R314 to R319). -/

namespace Sys2Proof.Machine

open Sys2Proof

/-! ## A request that is taken (R301, R303) -/

section
variable {s : State} {id seq wanted : Nat} {q : FabReq} {x : Session}

/-- A session that goes on to the sequence after `seq`, charged with request `q`. -/
def wentOn (s : State) (seq : Nat) (q : FabReq) (y : Session) : Session :=
  { y with next := seqAdd seq 1, highest := seq, any := true, wrapped := y.wrapped || decide (seq < y.highest),
           lastAt := now s, credit := { y.credit with used := (y.credit.used + reqUnits q) % 2 ^ 32 } }

/-- The state in which a request that is accepted is carried out. -/
def charged (id seq : Nat) (q : FabReq) (s : State) : State :=
  redebit id (modSess id (fun y => { y with refusal := none }) (modSess id (wentOn s seq q) s))

/-- The state in which a request that its session takes is carried out: the grant raised, the request charged. -/
def taken (id seq wanted : Nat) (q : FabReq) (s : State) : State := charged id seq q (raiseGrant id wanted s)

theorem acceptReq_charged (found : sessFind s id = some x) : acceptReq id seq q s = runReq id seq x q (charged id seq q s) := by
  rw [acceptReq, found]
  rfl

theorem charged_keeps (id seq : Nat) (q : FabReq) (s : State) : Keeps [.sessions, .ante] s (charged id seq q s) := by
  unfold charged
  simp (disch := decide) only [redebit_keeps, modSess_keeps, keeps_self]

theorem taken_keeps (id seq wanted : Nat) (q : FabReq) (s : State) : Keeps [.sessions, .ante, .pwr] s (taken id seq wanted q s) :=
  ((raiseGrant_keeps rfl).mpr (Keeps.refl _ s)).trans ((charged_keeps id seq q _).mono rfl)

theorem redebit_sessFind (id : Nat) (s : State) (k : Nat) : sessFind (redebit id s) k = sessFind s k :=
  sessFind_of_sessions ((redebit_keeps (wB := [.ante]) rfl).mpr (Keeps.refl _ s) .sessions (by decide)) k

/-- A session's grant is all that is raised. -/
theorem raiseGrant_session (wanted : Nat) (found : sessFind s id = some x) :
    ∃ y, sessFind (raiseGrant id wanted s) id = some y ∧ y.credit.peer = x.credit.peer := by
  have kept (n : Nat) : sessFind (kittyReserve n s) id = some x := found
  rw [raiseGrant, found]
  simp only [redebit_sessFind, modCredit, sessFind_modSess_same, kept]
  exact ⟨_, rfl, rfl⟩

theorem taken_next (wanted : Nat) (q : FabReq) (found : sessFind s id = some x) :
    (sessFind (taken id seq wanted q s) id).map (·.next) = some (seqAdd seq 1) := by
  obtain ⟨y, granted, -⟩ := raiseGrant_session wanted found
  simp only [taken, charged, redebit_sessFind, sessFind_modSess_same, granted]
  rfl

/-- A request that asks for no credit reserves no kitty bytes. -/
theorem taken_pending (id seq : Nat) (q : FabReq) (s : State) : (taken id seq 0 q s).pwr.pending = s.pwr.pending := by
  have none_ (c : Credit) : addable s c 0 = 0 := by simp [addable]
  have debited (u : State) : (redebit id u).pwr = u.pwr :=
    (redebit_keeps (wB := [.ante]) rfl).mpr (Keeps.refl _ u) .pwr (by decide)
  have granted : (raiseGrant id 0 s).pwr.pending = s.pwr.pending := by
    unfold raiseGrant
    split
    · rfl
    · simp only [none_]
      rw [debited]
      rfl
  have power := charged_keeps id seq q (raiseGrant id 0 s) .pwr (by decide)
  exact (congrArg Power.pending power).trans granted

end

/-! ## A request that is done -/

theorem sendAck_sessFind (id : Nat) (s : State) (k : Nat) : sessFind (sendAck id s) k = sessFind s k :=
  sessFind_of_sessions ((sendAck_keeps (wB := [.host, .lanes, .fab, .fabc, .out]) rfl).mpr (Keeps.refl _ s) .sessions
    (by decide)) k

theorem reqDone_next (id seq st : Nat) (s : State) :
    (sessFind (reqDone id seq st s) id).map (·.next) = (sessFind s id).map (·.next) := by
  unfold reqDone
  split
  · rfl
  · split
    · rfl
    · simp only [sendAck_sessFind, modCredit, storeSet, sessFind_modSess_same, Option.map_map]
      rfl

/-- A request that is done changes its session and what carries its ACK. -/
theorem reqDone_kept (id seq st : Nat) (s : State) :
    Keeps [.sessions, .host, .lanes, .fab, .fabc, .out] s (reqDone id seq st s) :=
  (reqDone_keeps rfl).mpr (Keeps.refl _ s)

theorem reqDone_pend (id seq st : Nat) (s : State) : (reqDone id seq st s).fab.pend = s.fab.pend := by
  obtain ⟨r, fab⟩ := reqDone_fab id seq st s
  rw [fab]

theorem reqDone_decisions (id seq st : Nat) (s : State) : (reqDone id seq st s).fab.decisions = s.fab.decisions := by
  obtain ⟨r, fab⟩ := reqDone_fab id seq st s
  rw [fab]

theorem reqDone_unsent (id seq st : Nat) (s : State) : (reqDone id seq st s).fab.unsent = s.fab.unsent := by
  obtain ⟨r, fab⟩ := reqDone_fab id seq st s
  rw [fab]

theorem reqDone_early (id seq st : Nat) (s : State) : (reqDone id seq st s).fab.early = s.fab.early := by
  obtain ⟨r, fab⟩ := reqDone_fab id seq st s
  rw [fab]

/-! ## What the requests do (Table 06-8) -/

/-- A shard that a module takes in is debited, and changes the antes alone. -/
theorem debitShard_kept (id seq suit units : Nat) (s : State) : Keeps [.ante] s (debitShard id seq suit units s).1 :=
  (debitShard_keeps1 rfl).mpr (Keeps.refl _ s)

/-- A shard that is pending in the protected region. -/
def pendingShard (id seq slot : Nat) (sh : Shard) : Pending :=
  { sh := sh, session := id, seq := seq, deadline := (slot + 1) * Config.slotNs, kitty := 512 * ((shardRecord sh false).units + 1),
    medium := false, addr := 0 }

/-- A shard pends, the program time behind it debited. -/
def shardPends (id seq slot : Nat) (sh : Shard) (s : State) : State :=
  let u := (debitShard id seq sh.suit (shardRecord sh false).units s).1
  { u with fab := { u.fab with pend := u.fab.pend ++ [pendingShard id seq slot sh] } }

theorem holdPend_protected (id seq slot : Nat) (sh : Shard) (s : State) :
    holdPend id seq slot sh false s = reqDone id seq stOk (shardPends id seq slot sh s) := rfl

theorem shardPends_fab (id seq slot : Nat) (sh : Shard) (s : State) :
    (shardPends id seq slot sh s).fab = { s.fab with pend := s.fab.pend ++ [pendingShard id seq slot sh] } := by
  have kept := debitShard_kept id seq sh.suit (shardRecord sh false).units s .fab (by decide)
  rw [shardPends, kept]

theorem shardPends_commits (id seq slot : Nat) (sh : Shard) (s : State) : (shardPends id seq slot sh s).commits = s.commits :=
  debitShard_kept id seq sh.suit (shardRecord sh false).units s .commits (by decide)

theorem settlePend_fab (ns d : Nat) (t : Stamp) (ok : Bool) (s : State) :
    ∃ l r, (settlePend ns d t ok s).fab = { s.fab with pend := l, rotor := r } := by
  unfold settlePend
  split
  · exact ⟨_, _, rfl⟩
  · obtain ⟨r, fab⟩ := settleOne_fab ‹Pending› ok s
    exact ⟨_, r, fab⟩

theorem settlePend_found {ns d : Nat} {t : Stamp} {p : Pending} {s : State} (ok : Bool) (found : findPend s ns d t = some p) :
    settlePend ns d t ok s = settleOne p ok s := by
  rw [settlePend, found]

/-- A recorded outcome is among the decisions, as it was before or new. -/
theorem recordHere_decisions (ns d : Nat) (t : Stamp) (ok : Bool) (version : Nat) (s : State) :
    ∃ y ∈ (recordHere ns d t ok version s).fab.decisions, y.ns = ns ∧ y.digest = d ∧ y.stampTime = t.time ∧
      y.stampTie = t.tie ∧ y.stampNode = t.node := by
  have ended (u : State) : (if leadOf s ns d = some s.fab.nodeId then endOrder ns d u else u).fab.decisions = u.fab.decisions := by
    split <;> rfl
  unfold recordHere
  rw [ended]
  split
  case isTrue recorded =>
    obtain ⟨y, held, same⟩ := List.any_eq_true.mp recorded
    exact ⟨y, held, of_decide_eq_true same⟩
  case isFalse => exact ⟨_, List.mem_append_right _ (List.mem_singleton_self _), rfl, rfl, rfl, rfl, rfl⟩

theorem recordHere_early (ns d : Nat) (t : Stamp) (ok : Bool) (version : Nat) (s : State) :
    (recordHere ns d t ok version s).fab.early = s.fab.early := by
  unfold recordHere
  dsimp only
  split <;> split <;> rfl

/-- The outcome that a DECIDE brings is recorded. -/
def outcomeRecorded (ns d : Nat) (t : Stamp) (ok : Bool) (s : State) : State :=
  recordHere ns d t ok (match findPend s ns d t with | some p => p.sh.version | none => 0) (kittyCancel 512 s)

/-- A decided outcome settles the shard that pends, where this module is a recorder of the key. -/
def recorderSettles (i : Option Nat) (ns d : Nat) (t : Stamp) (ok : Bool) (s : State) : State :=
  match i with
  | some i => if i ≤ 1 then settlePend ns d t ok s else s
  | none => s

theorem runReq_decide (id seq ns d : Nat) (x : Session) (t : Stamp) (ok : Bool) (s : State) :
    runReq id seq x (.decide ns d t ok) s =
      reqDone id seq stOk (recorderSettles (holderIndex s ns d) ns d t ok (outcomeRecorded ns d t ok s)) := rfl

theorem recorderSettles_fab (i : Option Nat) (ns d : Nat) (t : Stamp) (ok : Bool) (s : State) :
    ∃ l r, (recorderSettles i ns d t ok s).fab = { s.fab with pend := l, rotor := r } := by
  unfold recorderSettles
  split
  · split
    · exact settlePend_fab ns d t ok s
    · exact ⟨_, _, rfl⟩
  · exact ⟨_, _, rfl⟩

theorem returnShard_fabRest (id seq peer ns : Nat) (key : Bytes) (s : State) :
    fabRest (returnShard id seq peer ns key s).fab = fabRest s.fab := by
  unfold returnShard
  split
  · rfl
  · exact sendRequest_fabRest _ _ s

theorem openPeer_unsent (node : Nat) (s : State) : (openPeer node s).fab.unsent = s.fab.unsent := by
  unfold openPeer
  split
  · rfl
  · obtain ⟨r, fab⟩ := sendOwn_fab 5 node 0 s.fab.nextReq 0 [] true
      { s with fab := { s.fab with opens := s.fab.opens ++ [(s.fab.nextReq, node)], nextReq := s.fab.nextReq + 1 } }
    exact (congrArg Fabric.unsent fab :)

/-- A shard that can be read waits for the session that this module opens to its reader (R318). -/
theorem returnShard_unlinked {id seq peer ns : Nat} {key : Bytes} {s : State} (serves : s.fab.readPct ≠ 0)
    (reads : shardUnread s ns key = false) (none_ : linkTo s peer = none) :
    ∃ q ∈ (returnShard id seq peer ns key s).fab.unsent, q.1 = peer ∧ q.2.answer = true ∧ q.2.own = (id, seq) ∧
      q.2.sh = some (readAnswer s ns key) := by
  have answers : ¬ (s.fab.readPct = 0 ∨ shardUnread s ns key = true) := by simp [serves, reads]
  rw [returnShard, if_neg answers, sendRequest_unlinked _ none_, openPeer_unsent]
  exact ⟨_, List.mem_append_right _ (List.mem_singleton_self _), rfl, rfl, rfl, rfl⟩

/-- A shard that is rebuilt here has been committed (R319). -/
def shardRebuilt (id seq : Nat) (sh : Shard) (s : State) : State :=
  let r := { shardRecord sh false with rebuilt := true }
  let n := 512 * r.units
  let u := debitShard id seq sh.suit r.units (rebuildAntes sh s)
  settleKitty n n (commitRecord r (.buffer (some u.2) n (id, seq)) u.1)

/-- What the debit for a shard that is rebuilt leaves. -/
theorem rebuildDebit_kept (id seq units : Nat) (sh : Shard) (s : State) :
    Keeps [.ante] s (debitShard id seq sh.suit units (rebuildAntes sh s)).1 :=
  (debitShard_keeps1 rfl).mpr ((rebuildAntes_keeps rfl).mpr (Keeps.refl _ s))

theorem shardRebuilt_kept (id seq : Nat) (sh : Shard) (s : State) :
    Keeps [.nss, .commits, .ante, .host, .idx, .med, .mem, .evr, .out, .pwr] s (shardRebuilt id seq sh s) :=
  (settleKitty_keeps rfl).mpr ((commitRecord_keeps rfl).mpr ((rebuildDebit_kept _ _ _ _ _).mono rfl))

theorem shardRebuilt_commits (id seq : Nat) (sh : Shard) (s : State) : (shardRebuilt id seq sh s).commits = s.commits + 1 := by
  have settled (reserved used : Nat) (u : State) : (settleKitty reserved used u).commits = u.commits := rfl
  have debited (units : Nat) : (debitShard id seq sh.suit units (rebuildAntes sh s)).1.commits = s.commits :=
    rebuildDebit_kept id seq units sh s .commits (by decide)
  simp only [shardRebuilt, settled, commitRecord_commits, debited]

section
variable {id seq : Nat} {x : Session} {s : State}

theorem runReq_rebuild_old {sh : Shard} (newer : haveNewer s sh = true) : runReq id seq x (.rebuild sh) s =
    reqDone id seq stOk (kittyCancel (512 * (shardRecord sh false).units) s) := by
  simp only [runReq, newer, if_true]

theorem runReq_rebuild_new {sh : Shard} (older : haveNewer s sh = false) : runReq id seq x (.rebuild sh) s =
    reqDone id seq stOk (shardRebuilt id seq sh s) := by
  simp only [runReq, older]
  rfl

end

theorem runReq_decide_decisions (id seq ns d : Nat) (x : Session) (t : Stamp) (ok : Bool) (s : State) :
    ∃ y ∈ (runReq id seq x (.decide ns d t ok) s).fab.decisions, y.ns = ns ∧ y.digest = d ∧ y.stampTime = t.time ∧
      y.stampTie = t.tie ∧ y.stampNode = t.node := by
  obtain ⟨l, r, fab⟩ := recorderSettles_fab (holderIndex s ns d) ns d t ok (outcomeRecorded ns d t ok s)
  rw [runReq_decide, reqDone_decisions, fab]
  exact recordHere_decisions _ _ _ _ _ _

/-- A request that is carried out takes no other that came early. -/
theorem runReq_early {q : FabReq} (id seq : Nat) (x : Session) (s : State) (held : ∀ sh slot, q ≠ .hold sh slot true) :
    (runReq id seq x q s).fab.early = s.fab.early := by
  have settled (ns d : Nat) (t : Stamp) (ok : Bool) (u : State) : (settlePend ns d t ok u).fab.early = u.fab.early := by
    obtain ⟨l, r, fab⟩ := settlePend_fab ns d t ok u
    rw [fab]
  cases q with
  | creditReturn n => exact reqDone_early _ _ _ _
  | hold sh slot medium =>
    obtain rfl : medium = false := by
      cases medium with
      | false => rfl
      | true => exact absurd rfl (held sh slot)
    rw [runReq, holdPend_protected, reqDone_early, shardPends_fab]
  | commit ns d t => rw [runReq, reqDone_early, settled]
  | discard ns d t => rw [runReq, reqDone_early, settled]
  | decide ns d t ok =>
    obtain ⟨l, r, fab⟩ := recorderSettles_fab (holderIndex s ns d) ns d t ok (outcomeRecorded ns d t ok s)
    rw [runReq_decide, reqDone_early, fab]
    exact recordHere_early _ _ _ _ _ _
  | read ns key =>
    rw [runReq, reqDone_early]
    exact (congrArg Fabric.early (returnShard_fabRest id seq x.credit.peer ns key (kittyCancel 512 s)) :)
  | rebuild sh =>
    cases newer : haveNewer s sh with
    | true => rw [runReq_rebuild_old newer]; exact reqDone_early _ _ _ _
    | false =>
      rw [runReq_rebuild_new newer, reqDone_early]
      exact congrArg Fabric.early (shardRebuilt_kept id seq sh s .fab (by decide))
  | invalid => rfl

/-! ## The requests of a session, in sequence -/

section
variable {s : State} {id seq : Nat} {q : FabReq} {x : Session}

/-- A request that its session takes is carried out, and no held one follows it. -/
theorem arriveReq_taken (wanted : Nat) (takes : takesNext s id seq q x) (acts : refusable q = false)
    (held : ∀ sh slot, q ≠ .hold sh slot true) :
    ∃ y, y.credit.peer = x.credit.peer ∧ arriveReq id seq wanted q s = runReq id seq y q (taken id seq wanted q s) := by
  obtain ⟨-, on, member, found, fabric, open_, next_, credit, noneEarly⟩ := takes
  obtain ⟨y, granted, peer⟩ := raiseGrant_session wanted found
  have early : (runReq id seq y q (taken id seq wanted q s)).fab.early = [] :=
    ((runReq_early id seq y _ held).trans (congrArg Fabric.early (taken_keeps id seq wanted q s .fab (by decide)))).trans
      noneEarly
  refine ⟨y, peer, ?_⟩
  simp only [arriveReq, found, fabric, on, member, open_, next_, acts, Nat.not_lt.mpr credit, if_true, if_false,
    Bool.true_eq_false, Bool.false_eq_true, or_self]
  rw [← next_, acceptReq_charged granted]
  change replay id (runReq id seq y q (taken id seq wanted q s)).fab.early.length _ = _
  rw [early]
  rfl

theorem arriveReq_refused (takes : takesNext s id seq .invalid x) : arriveReq id seq 0 .invalid s =
    refuseReq id seq stOpcode x s := by
  obtain ⟨-, on, member, found, fabric, open_, next_, -, -⟩ := takes
  simp [arriveReq, found, fabric, on, member, open_, next_, refusable]

/-- A refusal takes the requests of the session that came early, and notes its status (R143). -/
theorem refuseReq_session (st : Nat) (found : sessFind s id = some x) :
    sessFind (refuseReq id seq st x s) id = some { x with refusal := some (st, 0) } := by
  have acked (pairs : List (Nat × Nat)) (u : State) : sessFind (ackFrame id x.credit pairs u) id = sessFind u id :=
    sessFind_of_sessions ((ackFrame_keeps (wB := [.host, .lanes, .fab, .fabc, .out]) rfl).mpr (Keeps.refl _ u) .sessions
      (by decide)) id
  rw [refuseReq, sessFind_modSess_same, acked]
  exact congrArg (Option.map _) found

theorem refuseReq_early (st : Nat) (x : Session) (s : State) : ∀ e ∈ (refuseReq id seq st x s).fab.early, e.1 ≠ id := by
  have acked (pairs : List (Nat × Nat)) (u : State) : (ackFrame id x.credit pairs u).fab.early = u.fab.early := by
    obtain ⟨r, fab⟩ := sendOwn_fab 8 x.credit.peer id 0 (pack [(0, 32, x.credit.grant), (32, 32, x.credit.through)])
      ((pairs.take 64).flatMap (fun p => natBe 4 p.1 ++ natBe 2 p.2)) true u
    exact (congrArg Fabric.early fab :)
  intro e held
  rw [refuseReq, modSess, acked] at held
  exact of_decide_eq_true (List.mem_filter.mp held).2

theorem refuseReq_commits (st : Nat) (x : Session) (s : State) : (refuseReq id seq st x s).commits = s.commits :=
  (refuseReq_keeps (wB := [.sessions, .host, .lanes, .fab, .fabc, .out]) rfl).mpr (Keeps.refl _ s) .commits (by decide)

end

/-! ## What a request reads is what stood there before it was charged -/

section
variable {s t : State}

/-- A session and what it is charged are no part of what the index, the records and the fabric block hold. -/
def ChargeOnly (s t : State) : Prop := Keeps [.sessions, .ante, .pwr] s t

theorem lookup_of_charge (kept : ChargeOnly s t) (ns : Nat) (key : Bytes) : lookup t ns key = lookup s ns key := by
  have nss : t.nss = s.nss := kept .nss (by decide)
  have idx : t.idx = s.idx := kept .idx (by decide)
  have med : t.med = s.med := kept .med (by decide)
  have mem : t.mem = s.mem := kept .mem (by decide)
  unfold lookup candidates digestOf nsAt verifies deadAddr recordAt
  rw [nss, idx, med, mem]

theorem haveNewer_of_charge (kept : ChargeOnly s t) (sh : Shard) : haveNewer t sh = haveNewer s sh := by
  rw [haveNewer, lookup_of_charge kept, haveNewer]

theorem shardUnread_of_charge (kept : ChargeOnly s t) (ns : Nat) (key : Bytes) : shardUnread t ns key = shardUnread s ns key := by
  have med : t.med = s.med := kept .med (by decide)
  rw [shardUnread, lookup_of_charge kept, med, shardUnread]

theorem readAnswer_of_charge (kept : ChargeOnly s t) (ns : Nat) (key : Bytes) : readAnswer t ns key = readAnswer s ns key := by
  have nss : t.nss = s.nss := kept .nss (by decide)
  rw [readAnswer, readAnswer, ownShard, ownShard, lookup_of_charge kept, digestOf, digestOf, nsAt, nsAt, nss]

theorem findPend_of_charge (kept : ChargeOnly s t) (ns d : Nat) (v : Stamp) : findPend t ns d v = findPend s ns d v := by
  have fab : t.fab = s.fab := kept .fab (by decide)
  rw [findPend, fab, findPend]

theorem linkTo_of_charge (kept : ChargeOnly s t) (node : Nat) : linkTo t node = linkTo s node := by
  have fab : t.fab = s.fab := kept .fab (by decide)
  rw [linkTo, fab, linkTo]

theorem kittyCancel_charge (n : Nat) (s : State) : ChargeOnly s (kittyCancel n s) :=
  (kittyCancel_keeps rfl).mpr (Keeps.refl _ s)

end

section
variable {s : State} {id seq : Nat} {x : Session}

/-- What a request taken leaves of the fabric block and of the commits before it acts. -/
theorem taken_fab (id seq wanted : Nat) (q : FabReq) (s : State) : (taken id seq wanted q s).fab = s.fab :=
  taken_keeps id seq wanted q s .fab (by decide)

theorem taken_commits (id seq wanted : Nat) (q : FabReq) (s : State) : (taken id seq wanted q s).commits = s.commits :=
  taken_keeps id seq wanted q s .commits (by decide)

theorem taken_idx (id seq wanted : Nat) (q : FabReq) (s : State) : (taken id seq wanted q s).idx = s.idx :=
  taken_keeps id seq wanted q s .idx (by decide)

theorem creditReturn_runs {units : Nat} (takes : takesNext s id seq (.creditReturn units) x) :
    ∃ t, exec (.creditReturn id seq units) s = .next t ∧ t.pwr.pending = s.pwr.pending - 512 * units ∧
      (sessFind t id).map (·.next) = some (seqAdd seq 1) := by
  obtain ⟨y, -, ran⟩ := arriveReq_taken 0 takes rfl nofun
  obtain ⟨run, -, -, found, -⟩ := takes
  have power (u : State) : (reqDone id seq stOk u).pwr = u.pwr := reqDone_kept id seq stOk u .pwr (by decide)
  refine ⟨_, (whenRunning_next run).trans (congrArg _ ran), ?_, (reqDone_next _ _ _ _).trans (taken_next 0 _ found)⟩
  rw [runReq, power]
  exact congrArg (· - 512 * units) (taken_pending id seq _ s)

theorem shardHold_runs {sh : Shard} {slot : Nat} (wanted deadline : Nat) (takes : takesNext s id seq (.hold sh slot false) x) :
    ∃ t, exec (.shardHold id seq wanted ⟨deadline, slot⟩ sh false) s = .next t ∧
      t.fab.pend = s.fab.pend ++ [pendingShard id seq slot sh] ∧ t.commits = s.commits := by
  obtain ⟨y, -, ran⟩ := arriveReq_taken wanted takes rfl nofun
  obtain ⟨run, -⟩ := takes
  have commits (u : State) : (reqDone id seq stOk u).commits = u.commits := reqDone_kept id seq stOk u .commits (by decide)
  refine ⟨_, (whenRunning_next run).trans (congrArg _ ran), ?_, ?_⟩
  · rw [runReq, holdPend_protected, reqDone_pend, shardPends_fab, taken_fab]
  · rw [runReq, holdPend_protected, commits, shardPends_commits, taken_commits]

section
variable {ns d time tie node : Nat} {p : Pending} (found : findPend s ns d { time := time, tie := tie, node := node } = some p)
include found

theorem shardCommit_runs (takes : takesNext s id seq (.commit ns d { time := time, tie := tie, node := node }) x) :
    ∃ t, exec (.shardCommit id seq ns d time tie node) s = .next t ∧ t.fab.pend = s.fab.pend.erase p := by
  obtain ⟨y, -, ran⟩ := arriveReq_taken 0 takes rfl nofun
  obtain ⟨run, -⟩ := takes
  refine ⟨_, (whenRunning_next run).trans (congrArg _ ran), ?_⟩
  rw [runReq, settlePend_found true ((findPend_of_charge (taken_keeps _ _ _ _ _) _ _ _).trans found), reqDone_pend, settleOne_pend,
    taken_fab]

theorem shardDiscard_runs (takes : takesNext s id seq (.discard ns d { time := time, tie := tie, node := node }) x) :
    ∃ t, exec (.shardDiscard id seq ns d time tie node) s = .next t ∧ t.fab.pend = s.fab.pend.erase p ∧
      t.commits = s.commits ∧ t.idx = s.idx := by
  obtain ⟨y, -, ran⟩ := arriveReq_taken 0 takes rfl nofun
  obtain ⟨run, -⟩ := takes
  have done (u : State) := reqDone_kept id seq stOk u
  have commits (u : State) : (reqDone id seq stOk u).commits = u.commits := done u .commits (by decide)
  have idx (u : State) : (reqDone id seq stOk u).idx = u.idx := done u .idx (by decide)
  refine ⟨_, (whenRunning_next run).trans (congrArg _ ran), ?_⟩
  rw [runReq, settlePend_found false ((findPend_of_charge (taken_keeps _ _ _ _ _) _ _ _).trans found)]
  obtain ⟨settledCommits, settledIdx⟩ := settleOne_discard p (taken id seq 0 _ s)
  refine ⟨?_, ?_, ?_⟩
  · rw [reqDone_pend, settleOne_pend, taken_fab]
  · rw [commits, settledCommits, taken_commits]
  · rw [idx, settledIdx, taken_idx]

end

theorem decide_runs {ns d time tie node : Nat} {ok : Bool}
    (takes : takesNext s id seq (.decide ns d { time := time, tie := tie, node := node } ok) x) :
    ∃ t, exec (.decide id seq ns d time tie node ok) s = .next t ∧ ∃ y ∈ t.fab.decisions, y.ns = ns ∧ y.digest = d ∧
      y.stampTime = time ∧ y.stampTie = tie ∧ y.stampNode = node := by
  obtain ⟨y, -, ran⟩ := arriveReq_taken 0 takes rfl nofun
  exact ⟨_, (whenRunning_next takes.1).trans (congrArg _ ran), runReq_decide_decisions _ _ _ _ _ _ _ _⟩

/-- The state in which a read is answered. -/
def readCharged (id seq ns : Nat) (key : Bytes) (s : State) : State := kittyCancel 512 (taken id seq 0 (.read ns key) s)

theorem readCharged_charge (id seq ns : Nat) (key : Bytes) (s : State) : ChargeOnly s (readCharged id seq ns key s) :=
  (taken_keeps _ _ _ _ _).trans (kittyCancel_charge _ _)

theorem shardRead_runs {ns : Nat} {key : Bytes} (takes : takesNext s id seq (.read ns key) x) :
    ∃ t, exec (.shardRead id seq ns key) s = .next t ∧ t.commits = s.commits ∧ t.idx = s.idx ∧
      (sessFind t id).map (·.next) = some (seqAdd seq 1) ∧
      (s.fab.readPct ≠ 0 → shardUnread s ns key = false → linkTo s x.credit.peer = none → ∃ q ∈ t.fab.unsent,
        q.1 = x.credit.peer ∧ q.2.answer = true ∧ q.2.own = (id, seq) ∧ q.2.sh = some (readAnswer s ns key)) := by
  obtain ⟨y, peer, ran⟩ := arriveReq_taken 0 takes rfl nofun
  obtain ⟨run, -, -, found, -⟩ := takes
  have charge := readCharged_charge id seq ns key s
  have returned : Keeps [.sessions, .host, .lanes, .fab, .fabc, .out] (readCharged id seq ns key s)
      (returnShard id seq x.credit.peer ns key (readCharged id seq ns key s)) := (returnShard_keeps rfl).mpr (Keeps.refl _ _)
  have kept := returned.trans (reqDone_kept id seq stOk _)
  have ran' : arriveReq id seq 0 (.read ns key) s =
      reqDone id seq stOk (returnShard id seq x.credit.peer ns key (readCharged id seq ns key s)) := by
    rw [ran, runReq, peer]
    rfl
  refine ⟨_, (whenRunning_next run).trans (congrArg _ ran'), ?_, ?_, ?_, fun serves reads none_ => ?_⟩
  · exact (kept .commits (by decide)).trans (charge .commits (by decide))
  · exact (kept .idx (by decide)).trans (charge .idx (by decide))
  · have session : (returnShard id seq x.credit.peer ns key (readCharged id seq ns key s)).sessions =
        (readCharged id seq ns key s).sessions :=
      (returnShard_keeps (wB := [.host, .lanes, .fab, .fabc, .out]) rfl).mpr (Keeps.refl _ _) .sessions (by decide)
    rw [reqDone_next, sessFind_of_sessions session]
    exact taken_next 0 (.read ns key) found
  · have fab : (readCharged id seq ns key s).fab = s.fab := charge .fab (by decide)
    rw [reqDone_unsent, ← readAnswer_of_charge charge]
    exact returnShard_unlinked (fab ▸ serves) ((shardUnread_of_charge charge ns key).trans reads)
      ((linkTo_of_charge charge _).trans none_)

theorem rebuildWrite_old {sh : Shard} (takes : takesNext s id seq (.rebuild sh) x) (newer : haveNewer s sh = true) :
    ∃ t, exec (.rebuildWrite id seq sh) s = .next t ∧ t.commits = s.commits ∧ t.idx = s.idx ∧
      (sessFind t id).map (·.next) = some (seqAdd seq 1) := by
  obtain ⟨y, -, ran⟩ := arriveReq_taken 0 takes rfl nofun
  obtain ⟨run, -, -, found, -⟩ := takes
  have still := (haveNewer_of_charge (taken_keeps id seq 0 (.rebuild sh) s) sh).trans newer
  have done := reqDone_kept id seq stOk (kittyCancel (512 * (shardRecord sh false).units) (taken id seq 0 (.rebuild sh) s))
  refine ⟨_, (whenRunning_next run).trans (congrArg _ (ran.trans (runReq_rebuild_old still))), ?_, ?_, ?_⟩
  · exact (done .commits (by decide)).trans (taken_commits _ _ _ _ _)
  · exact (done .idx (by decide)).trans (taken_idx _ _ _ _ _)
  · exact (reqDone_next _ _ _ _).trans (taken_next 0 _ found)

theorem rebuildWrite_new {sh : Shard} (takes : takesNext s id seq (.rebuild sh) x) (older : haveNewer s sh = false) :
    ∃ t, exec (.rebuildWrite id seq sh) s = .next t ∧ t.commits = s.commits + 1 ∧
      (sessFind t id).map (·.next) = some (seqAdd seq 1) := by
  obtain ⟨y, -, ran⟩ := arriveReq_taken 0 takes rfl nofun
  obtain ⟨run, -, -, found, -⟩ := takes
  have still := (haveNewer_of_charge (taken_keeps id seq 0 (.rebuild sh) s) sh).trans older
  have commits (u : State) : (reqDone id seq stOk u).commits = u.commits := reqDone_kept id seq stOk u .commits (by decide)
  have session (u : State) : (shardRebuilt id seq sh u).sessions = u.sessions := shardRebuilt_kept id seq sh u .sessions (by decide)
  refine ⟨_, (whenRunning_next run).trans (congrArg _ (ran.trans (runReq_rebuild_new still))), ?_, ?_⟩
  · rw [commits, shardRebuilt_commits, taken_commits]
  · rw [reqDone_next, sessFind_of_sessions (session _)]
    exact taken_next 0 _ found

theorem fabricRequestInvalid_runs {code : Nat} (unlisted : 7 ≤ code) (takes : takesNext s id seq .invalid x) :
    exec (.fabricRequestInvalid id seq code) s = .next (refuseReq id seq stOpcode x s) := by
  change execFabricRequestInvalid id seq code s = _
  simp only [execFabricRequestInvalid, whenRunning_next takes.1, guard, unlisted, decide_true, if_true, arriveReq_refused takes]

end

/-- Settles O28: a request that its session takes is charged, carried out and done; a code that no table lists is refused. -/
theorem shardRequestsRun : Obligations.ShardRequestsRun := by
  unfold Obligations.ShardRequestsRun
  intro s id seq x
  refine ⟨fun units takes => creditReturn_runs takes, fun sh wanted deadline slot takes => ?_,
    fun ns d time tie node p takes found => shardCommit_runs found takes,
    fun ns d time tie node p takes found => shardDiscard_runs found takes,
    fun ns d time tie node ok takes => decide_runs takes, fun ns key takes => shardRead_runs takes,
    fun sh takes newer => rebuildWrite_old takes newer, fun sh takes older _ => rebuildWrite_new takes older,
    fun code unlisted takes => ?_⟩
  · obtain ⟨t, row, pend, commits⟩ := shardHold_runs wanted deadline takes
    exact ⟨t, _, row, pend, rfl, rfl, rfl, rfl, rfl, commits⟩
  · have ⟨_, _, _, found, _⟩ := takes
    exact ⟨_, _, fabricRequestInvalid_runs unlisted takes, refuseReq_session _ found, rfl, rfl, refuseReq_commits _ x s,
      refuseReq_early _ x s⟩

end Sys2Proof.Machine
end

section
/-! PROOFS. Orders as a lead gives and ends them, and as their answers reach the commands that asked (R311 to R313). -/

namespace Sys2Proof.Machine

open Sys2Proof

section
variable {s : State} {src request ns digest crc until_ : Nat} {write : Bool}

/-! ## The lead's answer (R311) -/

theorem leadAnswer_mismatch (other : crc ≠ mapCrc (nsAt s ns)) :
    leadAnswer ns digest crc write src until_ s = (s, .mismatch) := by
  simp only [leadAnswer, if_pos other]

/-- A write order is given: it takes the place of one that has ended (R312). -/
def orderGiven (ns digest src until_ : Nat) (s : State) : State :=
  { s with fab := { s.fab with orders := s.fab.orders.filter (fun o => !decide (o.ns = ns ∧ o.digest = digest)) ++
    [{ ns := ns, digest := digest, src := src, until_ := until_ }] } }

section
variable (map : crc = mapCrc (nsAt s ns)) (leads : leadWaits s = none)
include map leads

theorem leadAnswer_busy {o : WriteOrder} (held : heldOrder s ns digest = some o) :
    leadAnswer ns digest crc write src until_ s = (s, .busy o.until_) := by
  simp [leadAnswer, map, leads, held]

theorem leadAnswer_write (free : heldOrder s ns digest = none) : leadAnswer ns digest crc true src until_ s =
    (orderGiven ns digest src until_ s, .writeOrder (knownVersion s ns digest none)) := by
  simp [leadAnswer, map, leads, free, orderGiven]

theorem leadAnswer_read (free : heldOrder s ns digest = none) : leadAnswer ns digest crc false src until_ s =
    (s, .readGrant (knownVersion s ns digest none) (committedHolders s ns digest)) := by
  simp [leadAnswer, map, leads, free]

end

/-! ## The rows of a lead (R311, R312) -/

section
variable (run : running s = true) (on : dealerOn s = true) (member : joined s = true)
  (lead : leadOf s ns digest = some s.fab.nodeId)
include run on member lead

/-- A request that returns no order is answered. -/
theorem exec_orderRequest {u : State} {a : OrderAnswer} (asks : (write && decide (until_ = 0)) = false)
    (answer : leadAnswer ns digest crc write src until_ s = (u, a)) : exec (.orderRequest src request ns digest crc write until_) s =
      .next (sendOwn 11 src 0 request 0 (orderBytes a) true u) := by
  change execOrderRequest src request ns digest crc write until_ s = _
  simp [execOrderRequest, whenRunning_next run, guard, on, member, lead, asks, answer]

theorem exec_orderRequest_returns {o : WriteOrder} (held : heldOrder s ns digest = some o) (own : o.src = src) :
    exec (.orderRequest src request ns digest crc true 0) s = .next (endOrder ns digest s) := by
  change execOrderRequest src request ns digest crc true 0 s = _
  simp [execOrderRequest, whenRunning_next run, guard, on, member, lead, held, own]

end

theorem endOrder_orders (ns d : Nat) (s : State) : ∀ y ∈ (endOrder ns d s).fab.orders, ¬ (y.ns = ns ∧ y.digest = d) :=
  fun _ held => decide_eq_false_iff_not.mp ((Bool.not_eq_true' _).mp (List.mem_filter.mp held).2)

theorem exec_writeOrderExpiry {o : WriteOrder} (run : running s = true) (held : o ∈ s.fab.orders) (here : o.ns = ns)
    (key : o.digest = digest) (due : o.until_ ≤ now s) :
    exec (.writeOrderExpiry ns digest) s = .next (endOrder ns digest s) := by
  have ends : s.fab.orders.any (fun o => decide (o.ns = ns ∧ o.digest = digest ∧ o.until_ ≤ now s)) = true :=
    List.any_eq_true.mpr ⟨o, held, decide_eq_true ⟨here, key, due⟩⟩
  change execWriteOrderExpiry ns digest s = _
  simp only [execWriteOrderExpiry, whenRunning_next run, guard, ends, if_true]

theorem exec_leadHorizonEnd {node e : Nat} (run : running s = true) (waits : tfind s.fab.leadFrom node = some e)
    (due : e ≤ now s) : exec (.leadHorizonEnd node) s =
      .next { s with fab := { s.fab with leadFrom := tdel s.fab.leadFrom node } } := by
  change execLeadHorizonEnd node s = _
  simp only [execLeadHorizonEnd, whenRunning_next run, guard, waits, due, decide_true, if_true]

/-! ## The answer at the module that asked (R311) -/

/-- An answer to a command that is gone is kept, and nothing else follows. -/
theorem exec_orderReply_gone {o : OrderOut} {ans : OrderAnswer} (run : running s = true) (member : joined s = true)
    (asked : s.fab.orderOut.find? (fun o => decide (o.request = request ∧ o.lead = src) && o.answer.isNone) = some o)
    (gone : sessFind s o.session = none) : exec (.orderReply src request ans) s =
      .next { s with fab := { s.fab with orderOut := s.fab.orderOut.map (fun y =>
        if y.request = request then { y with answer := some ans } else y) } } := by
  have same (u : Fabric) : sessFind { s with fab := u } o.session = none := gone
  change execOrderReply src request ans s = _
  simp only [execOrderReply, whenRunning_next run, member, Bool.true_and, asked, same]

/-- A request without an answer whose command is gone is forgotten; no lead has given an order to it. -/
theorem exec_orderTimeout_gone {o : OrderOut} (run : running s = true)
    (asked : s.fab.orderOut.find? (fun o => decide (o.request = request) && o.answer.isNone) = some o)
    (late : o.at_ + 20000 ≤ now s) (gone : sessFind s o.session = none) (own : orderFor s o.session o.seq = some o) :
    exec (.orderTimeout request) s = .next { s with fab := { s.fab with
      orderOut := s.fab.orderOut.filter (fun x => !decide (x.session = o.session ∧ x.seq = o.seq)) } } := by
  have unanswered : o.answer = none := by
    have wanted := List.find?_some asked
    simp only [Bool.and_eq_true, Option.isNone_iff_eq_none] at wanted
    exact wanted.2
  change execOrderTimeout request s = _
  simp only [execOrderTimeout, whenRunning_next run, asked, if_neg (Nat.not_lt.mpr late), gone, dropOrder, own, unanswered]

end

/-- Settles O30: a lead's answers by `leadAnswer`, the other rows by their equations. -/
theorem ordersRun : Obligations.OrdersRun := by
  intro s src request ns digest crc until_ run
  refine ⟨fun on member lead => ⟨fun ends other => ?_, fun ends map leads free => ?_, fun o ends map leads held => ?_,
    fun map leads free => ?_, fun o held own => ?_⟩, fun o ans member asked gone => ?_, fun o asked late gone own => ?_,
    fun o held here key due => ?_, fun node e waits due => ?_⟩
  · have asks : (true && decide (until_ = 0)) = false := by simp [ends]
    exact ⟨_, exec_orderRequest run on member lead asks (leadAnswer_mismatch other), rfl⟩
  · have asks : (true && decide (until_ = 0)) = false := by simp [ends]
    refine ⟨_, _, exec_orderRequest run on member lead asks (leadAnswer_write map leads free), ?_, rfl⟩
    obtain ⟨r, fab⟩ := sendOwn_fab 11 src 0 request 0 (orderBytes (.writeOrder (knownVersion s ns digest none))) true
      (orderGiven ns digest src until_ s)
    rw [fab]
    exact ⟨_, List.mem_append_right _ (List.mem_singleton_self _), rfl, rfl, rfl, rfl⟩
  · have asks : (true && decide (until_ = 0)) = false := by simp [ends]
    exact ⟨_, exec_orderRequest run on member lead asks (leadAnswer_busy map leads held), rfl⟩
  · exact ⟨_, exec_orderRequest run on member lead rfl (leadAnswer_read map leads free), rfl⟩
  · exact ⟨_, exec_orderRequest_returns run on member lead held own, endOrder_orders ns digest s⟩
  · refine ⟨_, exec_orderReply_gone run member asked gone, fun y kept mine => ?_⟩
    obtain ⟨z, -, rfl⟩ := List.mem_map.mp kept
    split at mine
    · next wanted => rw [if_pos wanted]
    · next other => exact absurd mine other
  · refine ⟨_, exec_orderTimeout_gone run asked late gone own, fun y kept => ?_⟩
    exact decide_eq_false_iff_not.mp ((Bool.not_eq_true' _).mp (List.mem_filter.mp kept).2)
  · exact ⟨_, exec_writeOrderExpiry run held here key due, endOrder_orders ns digest s⟩
  · exact ⟨_, exec_leadHorizonEnd run waits due, tfind_tdel_same _ _⟩

end Sys2Proof.Machine
end

section
/-! PROOFS. Protected commands on their way, and modules that fail (R313 to R319). -/

namespace Sys2Proof.Machine

open Sys2Proof

section
variable {s : State} {id seq : Nat} {f : InFlight} {p : Protect}

/-! ## Decisions (R314) -/

/-- A write that is no trick's member is decided alone, when it is open and its hold deadline has come. -/
theorem tryDecide_alone (here : findFlight s id seq = some f) (prot : f.prot = some p) (alone : f.trick = none)
    (planned : f.phase = .planned) (effect : hasEffect f.plan = true) (set_ : p.deadline ≠ 0) (due : p.deadline ≤ now s)
    (open_ : p.decided = none) : tryDecide id seq s = decideNow (heldEnough s f) f s := by
  have group : groupOfFlight s f = [f] := by simp only [groupOfFlight, alone]
  have members : membersOf s f = [f] := by simp only [membersOf, alone]
  have with_ : decidedWith s f = [f] := by simp [decidedWith, group, prot, effect]
  have may : decidable s f = true := by simp [decidable, prot, set_, due, open_]
  simp only [tryDecide, here, with_, members, List.all_cons, List.all_nil, planned, may]
  cases held : heldEnough s f with
  | true => simp [held, each]
  | false => simp [held, each, abandonTrick, membersOf, alone]

theorem exec_shardHoldDeadline (run : running s = true) (here : findFlight s id seq = some f) (prot : f.prot = some p)
    (set_ : p.deadline ≠ 0) (due : p.deadline ≤ now s) : exec (.shardHoldDeadline id seq) s = .next (tryDecide id seq s) := by
  change execShardHoldDeadline id seq s = _
  simp [execShardHoldDeadline, whenRunning_next run, here, prot, guard, set_, due]

theorem exec_shardHoldDeadline_early (run : running s = true) (here : findFlight s id seq = some f) (prot : f.prot = some p)
    (early : now s < p.deadline) : exec (.shardHoldDeadline id seq) s = .next s := by
  change execShardHoldDeadline id seq s = _
  simp [execShardHoldDeadline, whenRunning_next run, here, prot, guard, early]

theorem exec_decideTimeout {ok : Bool} (run : running s = true) (here : findFlight s id seq = some f) (prot : f.prot = some p)
    (decided : p.decided = some ok) (unrecorded : p.recorded = []) (late : p.decideAt + s.fab.allowUs * 1000 / 6 ≤ now s) :
    exec (.decideTimeout id seq) s = .next (sendDecide f p ok (recorders s f.ns p.digest)
      (each (pressDecide f) (recorders s f.ns p.digest) (modProt id seq (fun q => { q with decideAt := now s }) s))) := by
  change execDecideTimeout id seq s = _
  simp only [execDecideTimeout, whenRunning_next run, here, prot, decided, guard, unrecorded, late, and_self, decide_true, if_true]

/-! ## Pending shards (R317) -/

section
variable {time tie node : Nat} {y : Pending} (run : running s = true)
  (pends : s.fab.pend.find? (fun p => decide (p.sh.stampTime = time ∧ p.sh.stampTie = tie ∧ p.sh.stampNode = node ∧
    p.deadline ≤ now s)) = some y)
include run pends

/-- This module's own record of the outcome comes first (log entry 100). -/
theorem exec_pendingShardResolve_own {ok : Bool} (answer : Recorded) (own : ownDecision s y = some ok) :
    exec (.pendingShardResolve time tie node answer) s = .next (settleOne y ok s) := by
  change execPendingShardResolve time tie node answer s = _
  simp only [execPendingShardResolve, whenRunning_next run, pends, own]

theorem exec_pendingShardResolve_told (answer : Recorded) (none_ : ownDecision s y = none) :
    exec (.pendingShardResolve time tie node answer) s = .next (settleOne y (decide (answer = .commit)) s) := by
  change execPendingShardResolve time tie node answer s = _
  simp only [execPendingShardResolve, whenRunning_next run, pends, none_]
  cases answer <;> rfl

end

/-! ## Reading (R318) -/

theorem exec_shardReadData_own {holder version : Nat} {sh : Shard} (run : running s = true) :
    exec (.shardReadData 0 seq holder true version sh) s =
      .next { s with fab := { s.fab with gather := s.fab.gather ++ [{ sh with version := version }] } } := by
  change execShardReadData 0 seq holder true version sh s = _
  simp only [execShardReadData, whenRunning_next run, if_true]

/-- A write that has its shards waits for its turn: it goes on by itself no further (R318). -/
theorem goOn_write {g : Protect → Protect} (here : findFlight s id seq = some f) (writes : isWrite f.cmd.opcode = true) :
    goOn id seq (modProt id seq g s) = modProt id seq g s := by
  have still : findFlight (modProt id seq g s) id seq = some { f with prot := f.prot.map g } :=
    findFlight_modFlight (fun _ => ⟨rfl, rfl⟩) here
  simp [goOn, still, writes]

theorem takeShard_write {holder : Nat} {h : Shard} {q : Protect} (here : findFlight s id seq = some f)
    (writes : isWrite f.cmd.opcode = true) (taken : q = { p with shards := p.shards ++ [h] }) :
    takeShard f p holder true h s = modProt id seq (fun _ => { q with read := readEnded (nsAt s f.ns) q }) s := by
  obtain ⟨rfl, rfl⟩ := findFlight_eq_some here
  subst taken
  exact goOn_write here writes

theorem exec_shardReadData_takes {holder version : Nat} {sh : Shard} (run : running s = true) (command : id ≠ 0)
    (here : findFlight s id seq = some f) (prot : f.prot = some p) (reads : p.read = false) (asked : holder ∈ p.sent)
    (silent : holder ∉ p.gone) (new : ∀ y ∈ p.shards, y.index ≠ sh.index) :
    exec (.shardReadData id seq holder true version sh) s =
      .next (takeShard f p holder true { sh with version := version } s) := by
  have fresh : ¬ (p.read = true ∨ holder ∉ p.sent ∨ holder ∈ p.gone ∨
      p.shards.any (fun y => decide (y.index = sh.index)) = true) := by
    simpa [reads, asked, silent] using new
  change execShardReadData id seq holder true version sh s = _
  simp only [execShardReadData, whenRunning_next run, if_neg command, here, prot, if_neg fresh]

theorem exec_shardReadAllowanceExpiry_write (run : running s = true) (here : findFlight s id seq = some f)
    (prot : f.prot = some p) (asked : p.asked ≠ 0) (late : p.asked + s.fab.allowUs * 1000 ≤ now s) (reads : p.read = false)
    (writes : isWrite f.cmd.opcode = true) : exec (.shardReadAllowanceExpiry id seq) s =
      .next (modProt id seq (fun q => { q with read := true, failed := true }) s) := by
  change execShardReadAllowanceExpiry id seq s = _
  simp [execShardReadAllowanceExpiry, whenRunning_next run, here, prot, guard, asked, late, reads, goOn_write here writes]

end

/-! ## Modules that fail (R313, R319) -/

section
variable {s t : State} {node : Nat}

/-- The fabric block beside what ends with a session. -/
def fabUnbound (f : Fabric) : Fabric := { f with stages := [], early := [] }

theorem endSessions_fab (node : Nat) (s : State) : fabUnbound (endSessions node s).fab = fabUnbound { s.fab with
    links := tdel s.fab.links node, opens := s.fab.opens.filter (fun p => decide (p.2 ≠ node)),
    unsent := s.fab.unsent.filter (fun p => decide (p.1 ≠ node)) } := by
  have released (k : Nat) (u : State) : fabUnbound (releaseSession k u).fab = fabUnbound u.fab := by
    unfold releaseSession
    split <;> rfl
  refine each_invariant (g := fun u => fabUnbound u.fab) (fun p u => ?_) _ _
  split
  · split
    · exact released _ _
    · rfl
  · rfl

theorem succeeds_congr (nss : t.nss = s.nss) (self : t.fab.nodeId = s.fab.nodeId) (dead : t.fab.dead = s.fab.dead) (n : Nat) :
    succeeds t n = succeeds s n := by
  simp only [succeeds, nss, self, dead]

/-- A module is dead, and its keys wait a horizon for orders of their new lead (R313). -/
def peerDead (node : Nat) (s : State) : State :=
  { s with fab := { s.fab with
      dead := s.fab.dead ++ [node], failedPeers := s.fab.failedPeers ++ [(node, now s)],
      leadFrom := if succeeds s node then tput s.fab.leadFrom node (now s + Config.horizon * Config.slotNs)
        else s.fab.leadFrom } }

theorem exec_peerFailure (run : running s = true) (other : node ≠ s.fab.nodeId) (live : node ∉ s.fab.dead)
    (away : reachable s node = false)
    (silent : tget (fun _ => 0) s.fab.lastSeen node + s.fab.peerFailMs * 1000000 ≤ now s) :
    exec (.peerFailure node) s = .next (peerDead node (endSessions node s)) := by
  have time : now (endSessions node s) = now s := congrArg Clk.time
    ((endSessions_keeps (wB := [.sessions, .ante, .host, .fab, .pwr]) rfl).mpr (Keeps.refl _ s) .clk (by decide))
  change execPeerFailure node s = _
  simp only [execPeerFailure, whenRunning_next run, guard, other, live, away, silent, ne_eq, not_false_eq_true, and_self,
    decide_true, Bool.not_false, Bool.and_self, if_true, peerDead, time]

theorem peerDead_endSessions (node : Nat) (s : State) : node ∈ (peerDead node (endSessions node s)).fab.dead ∧
    linkTo (peerDead node (endSessions node s)) node = none ∧ (peerDead node (endSessions node s)).fab.leadFrom =
      if succeeds s node then tput s.fab.leadFrom node (now s + Config.horizon * Config.slotNs) else s.fab.leadFrom := by
  have kept := (endSessions_keeps (node := node) (wB := [.sessions, .ante, .host, .fab, .pwr]) rfl).mpr (Keeps.refl _ s)
  have fab := endSessions_fab node s
  have links : (endSessions node s).fab.links = tdel s.fab.links node := (congrArg Fabric.links fab :)
  have dead : (endSessions node s).fab.dead = s.fab.dead := (congrArg Fabric.dead fab :)
  have self : (endSessions node s).fab.nodeId = s.fab.nodeId := (congrArg Fabric.nodeId fab :)
  have waits : (endSessions node s).fab.leadFrom = s.fab.leadFrom := (congrArg Fabric.leadFrom fab :)
  have time : now (endSessions node s) = now s := congrArg Clk.time (kept .clk (by decide))
  refine ⟨List.mem_append_right _ (List.mem_singleton_self _), ?_, ?_⟩
  · exact (congrArg (fun l => tfind l node) links).trans (tfind_tdel_same _ _)
  · simp only [peerDead, succeeds_congr (kept .nss (by decide)) self dead, waits, time]

end

/-! ## Shards owed (R315, R319) -/

section
variable {s : State} {ns digest : Nat} {o : Owed} (run : running s = true) (owed : owedNext s ns digest = some o)
include run owed

theorem exec_shardRebuild_struck (gone : (keyHolders s ns digest).idxOf? o.holder = none) :
    exec (.shardRebuild ns digest) s =
      .next (settleRebuild { s with fab := { s.fab with owedList := s.fab.owedList.erase o } }) := by
  change execShardRebuild ns digest s = _
  simp only [execShardRebuild, whenRunning_next run, owed, gone]

theorem exec_shardRebuild_from {i : Nat} (holds : (keyHolders s ns digest).idxOf? o.holder = some i) :
    exec (.shardRebuild ns digest) s = .next (rebuildFrom o i s) := by
  change execShardRebuild ns digest s = _
  simp only [execShardRebuild, whenRunning_next run, owed, holds]

end

section
variable {s : State} {o : Owed} {i : Nat}

theorem settleRebuild_owedList (s : State) : (settleRebuild s).fab.owedList = s.fab.owedList := by
  have told (p : Nat × Nat) (u : State) : (event 0x0A04 [p.1] u).fab = u.fab :=
    (event_keeps (wB := [.host, .evr, .out]) rfl).mpr (Keeps.refl _ u) .fab (by decide)
  have all_told (l : List (Nat × Nat)) (u : State) : (each (fun p s => event 0x0A04 [p.1] s) l u).fab = u.fab :=
    each_invariant (g := State.fab) told l u
  exact (congrArg Fabric.owedList (all_told _ _) :)

theorem rebuildFrom_few (few : (sources s o.ns o.digest).length < shardsNeeded (nsAt s o.ns)) :
    rebuildFrom o i s = askSources o (sources s o.ns o.digest) s :=
  if_pos few

theorem rebuildFrom_made {h : Shard} {u : State}
    (enough : shardsNeeded (nsAt s o.ns) ≤ (sources s o.ns o.digest).length)
    (made : rebuiltShard (nsAt s o.ns) (sources s o.ns o.digest) i = some h)
    (antes : takeAntes .shardRebuild false true o.digest (rebuildShape h) s = some u) :
    rebuildFrom o i s = rebuildOn o h (dropGathered o u) := by
  simp only [rebuildFrom, if_neg (Nat.not_lt.mpr enough), made, rebuildShard, antes]

end

/-- Settles O31: each row by its equation. -/
theorem protectedCommandsGoOn : Obligations.ProtectedCommandsGoOn := by
  intro s id seq f p run
  refine ⟨fun here prot alone planned effect set_ due open_ => ?_,
    fun here prot early => exec_shardHoldDeadline_early run here prot early,
    fun ok here prot decided unrecorded late => ⟨_, exec_decideTimeout run here prot decided unrecorded late, rfl⟩,
    fun y time tie node pends => ⟨fun none_ => ?_, fun ok answer own => ⟨_, exec_pendingShardResolve_own run pends answer own, rfl⟩⟩,
    fun holder version sh => ⟨_, exec_shardReadData_own run, rfl⟩,
    fun holder version sh q command here prot reads asked silent new writes taken =>
      ⟨_, exec_shardReadData_takes run command here prot reads asked silent new, takeShard_write here writes taken⟩,
    fun here prot asked late reads writes =>
      ⟨_, exec_shardReadAllowanceExpiry_write run here prot asked late reads writes, rfl⟩,
    fun node other live away silent => ?_,
    fun ns digest o owed => ⟨fun gone => ?_, fun i holds few => ?_, fun i h u holds enough made antes => ?_⟩⟩
  · exact ⟨_, exec_shardHoldDeadline run here prot set_ due, tryDecide_alone here prot alone planned effect set_ due open_⟩
  · have told (answer : Recorded) := exec_pendingShardResolve_told run pends answer none_
    exact ⟨⟨_, told .discard, settleOne_pend .., (settleOne_discard y s).1⟩,
      ⟨_, told .noRecord, settleOne_pend .., (settleOne_discard y s).1⟩, ⟨_, told .commit, settleOne_pend ..⟩⟩
  · obtain ⟨dead, link, waits⟩ := peerDead_endSessions node s
    refine ⟨_, exec_peerFailure run other live away silent, dead, link, fun next => ?_, fun next => ?_⟩
    · rw [waits, next]
      exact tfind_tput_same _ _ _
    · rw [waits, next]
      rfl
  · exact ⟨_, exec_shardRebuild_struck run owed gone, settleRebuild_owedList _⟩
  · exact ⟨_, exec_shardRebuild_from run owed holds, rebuildFrom_few few⟩
  · exact ⟨_, exec_shardRebuild_from run owed holds, rebuildFrom_made enough made antes⟩

end Sys2Proof.Machine
end

section
/-! PROOFS. Hellos, link credits and revocation (R277 to R281, R296). -/

namespace Sys2Proof.Machine

open Sys2Proof

/-! ## What a lane keeps while frames move -/

/-- Every lane reads the same in `s` and in `t`, as far as `view` shows of it. -/
def LanesAs {β : Type} (view : Lane → β) (s t : State) : Prop := ∀ k, view (laneAt t k) = view (laneAt s k)

namespace LanesAs

section
variable {β : Type} {view : Lane → β} {s t u : State}

theorem refl (view : Lane → β) (s : State) : LanesAs view s s := fun _ => rfl

theorem trans (h : LanesAs view s t) (g : LanesAs view t u) : LanesAs view s u := fun k => (g k).trans (h k)

/-- As `trans`, the second step given first: it says in which state the first one ends. -/
theorem after (g : LanesAs view t u) (h : LanesAs view s t) : LanesAs view s u := h.trans g

theorem ite {c : Prop} [Decidable c] (yes : LanesAs view s t) (no : LanesAs view s u) :
    LanesAs view s (if c then t else u) := by
  split
  · exact yes
  · exact no

theorem of_lanes (h : t.lanes = s.lanes) : LanesAs view s t := fun k => by rw [laneAt, h, laneAt]

theorem set {n : Nat} {l : Lane} (h : view l = view (laneAt s n)) : LanesAs view s (setLane n l s) := fun k => by
  by_cases here : k = n
  · rw [here, laneAt_setLane_same, h]
  · rw [laneAt_setLane_ne n l s k here]

end

end LanesAs

/-- A lane beside its counters and its low-power idle, which sending a link frame changes. -/
def laneQuiet (l : Lane) : Lane := { l with counters := [], rollPend := 0, txLpi := false, wakeSlot := none, emptyAt := 0 }

/-- A lane beside what frames on their way change of it: its queue, the cells that it has returned and owes, its counters and its
low-power idle. -/
def laneLink (l : Lane) : Lane := { laneQuiet l with tx := [], returned := [], owed := [], owedAt := 0 }

theorem LanesAs.link {s t : State} (h : LanesAs laneQuiet s t) : LanesAs laneLink s t :=
  fun k => congrArg (fun l : Lane => { l with tx := [], returned := [], owed := [], owedAt := 0 }) (h k)

section

theorem countLane_quiet (n k v : Nat) (s : State) : LanesAs laneQuiet s (countLane n k v s) := by
  have signalled (p w : Nat) (u : State) : LanesAs laneQuiet u (msix p w u) :=
    .of_lanes ((msix_keeps (wB := [.host, .out]) rfl).mpr (Keeps.refl _ u) .lanes (by decide))
  unfold countLane
  exact .ite (.set rfl) (.ite (.set rfl) (.ite ((signalled _ _ _).after (.set rfl)) (.set rfl)))

theorem countSent_quiet (n : Nat) (f : TxFrame) (b : Bytes) (s : State) : LanesAs laneQuiet s (countSent n f b s) := by
  have first : LanesAs laneQuiet s (if f.stomp then countLane n 37 1 s else countLane n (if bit (beAt b 0 6) 40 then 27 else 26) 1
      (countLane n 25 b.length (countLane n 24 1 s))) :=
    .ite (countLane_quiet _ _ _ s)
      (((countLane_quiet _ _ _ s).trans (countLane_quiet _ _ _ _)).trans (countLane_quiet _ _ _ _))
  have second := first.trans (countLane_quiet n (txBin b.length) 1 _)
  exact .ite (second.trans (countLane_quiet _ _ _ _)) second

theorem sendLink_quiet (n kind word : Nat) (payload : Bytes) (s : State) : LanesAs laneQuiet s (sendLink n kind word payload s) := by
  have woken : LanesAs laneQuiet s (wakeLane n s) := .set (by dsimp only; split <;> rfl)
  exact (woken.trans (countSent_quiet _ _ _ _)).trans (.of_lanes rfl)

end

/-- From `s` to `t` frames alone have moved: every lane stands as it did beside them, and no lane has been revoked. -/
structure FramesMove (s t : State) : Prop where
  lanes : LanesAs laneLink s t
  revokes : t.fabc.revokes = s.fabc.revokes

namespace FramesMove

section
variable {s t u : State}

theorem refl (s : State) : FramesMove s s := ⟨.refl _ s, rfl⟩

theorem trans (h : FramesMove s t) (g : FramesMove t u) : FramesMove s u := ⟨h.lanes.trans g.lanes, g.revokes.trans h.revokes⟩

/-- As `trans`, the second step given first: it says in which state the first one ends. -/
theorem after (g : FramesMove t u) (h : FramesMove s t) : FramesMove s u := h.trans g

theorem ite {c : Prop} [Decidable c] (yes : FramesMove s t) (no : FramesMove s u) : FramesMove s (if c then t else u) := by
  split
  · exact yes
  · exact no

theorem each {α : Type} {f : α → State → State} (hf : ∀ a u, FramesMove u (f a u)) (l : List α) (s : State) :
    FramesMove s (Machine.each f l s) := by
  induction l generalizing s with
  | nil => exact refl s
  | cons a l ih => exact (hf a s).trans (ih _)

theorem of_lanes (lanes : t.lanes = s.lanes) (revokes : t.fabc.revokes = s.fabc.revokes) : FramesMove s t :=
  ⟨.of_lanes lanes, revokes⟩

theorem set {n : Nat} {l : Lane} (h : laneLink l = laneLink (laneAt s n)) : FramesMove s (setLane n l s) := ⟨.set h, rfl⟩

theorem askTraining (n : Nat) (s : State) : FramesMove s (Machine.askTraining n s) :=
  have kept := (askTraining_keeps (n := n) (wB := [.ante]) rfl).mpr (Keeps.refl _ s)
  of_lanes (kept .lanes (by decide)) (congrArg FabCounters.revokes (kept .fabc (by decide)))

theorem sendLink (n kind word : Nat) (payload : Bytes) (s : State) : FramesMove s (Machine.sendLink n kind word payload s) :=
  have kept := (sendLink_keeps (n := n) (kind := kind) (word := word) (payload := payload) (wB := [.host, .lanes, .out]) rfl).mpr
    (Keeps.refl _ s)
  ⟨(sendLink_quiet n kind word payload s).link, congrArg FabCounters.revokes (kept .fabc (by decide))⟩

theorem sendCredit (n : Nat) (nak : Bool) (s : State) : FramesMove s (Machine.sendCredit n nak s) :=
  (sendLink _ _ _ _ _).after (set rfl)

theorem freeCells (n c k : Nat) (s : State) : FramesMove s (Machine.freeCells n c k s) := by
  unfold Machine.freeCells
  exact ite (refl s) (ite ((sendCredit _ _ _).after (set rfl)) (set rfl))

theorem frameGone (f : TxFrame) (s : State) : FramesMove s (Machine.frameGone f s) := by
  unfold Machine.frameGone
  split
  · exact freeCells _ _ _ s
  · exact refl s

theorem dropHop (f : TxFrame) (s : State) : FramesMove s (Machine.dropHop f s) := (frameGone f _).after (of_lanes rfl rfl)

theorem queueTo (node : Nat) (f : TxFrame) (s : State) : FramesMove s (Machine.queueTo node f s) := by
  unfold Machine.queueTo
  split
  · exact set rfl
  · exact dropHop f s

theorem queueAlternate (f : TxFrame) (s : State) : FramesMove s (Machine.queueAlternate f s) := by
  unfold Machine.queueAlternate
  dsimp only
  split
  · exact queueTo _ _ s
  · exact dropHop f s

theorem moveFrames (node : Nat) (l : List TxFrame) (s : State) : FramesMove s (Machine.moveFrames node l s) :=
  each (fun _ u => ite (queueAlternate _ u) (queueTo _ _ u)) l s

theorem floodRoute (s : State) : FramesMove s (Machine.floodRoute s) :=
  ite (refl s) ((each (fun _ u => ite (queueTo _ _ u) (refl u)) _ _).after (of_lanes rfl rfl))

theorem topologyChanged (own : Bool) (s : State) : FramesMove s (Machine.topologyChanged own s) :=
  ite ((floodRoute _).after (of_lanes rfl rfl)) (of_lanes rfl rfl)

end

end FramesMove

/-! ## Rows of a lane -/

section
variable {s : State} {n lane node far mac serial : Nat}

theorem laneRow_next {c : Lane → Bool} {f : State → State} (served : laneServed s n) (fits : c (laneAt s n) = true) :
    laneRow n c f s = .next (f s) := by
  obtain ⟨run, serve, low⟩ := served
  simp [laneRow, whenRunning, guard, run, serve, low, fits]

theorem laneRow_idle {c : Lane → Bool} {f : State → State} (served : laneServed s n) (unfit : c (laneAt s n) = false) :
    laneRow n c f s = .next s := by
  obtain ⟨run, -, -⟩ := served
  simp [laneRow, whenRunning, guard, run, unfit]

/-! ## Hellos (R277) -/

/-- A lane that has taken in a HELLO, the `k`th in a row that counts. -/
def greeted (node far mac k t : Nat) (l : Lane) : Lane :=
  { l with helloAt := t, hellos := k, farNode := some node, farLane := far, farMac := some mac }

section
variable (served : laneServed s lane) (up : (laneAt s lane).state = .up) (fabric : (laneAt s lane).cfg.client = false)
  (out : (laneAt s lane).inTrunk = false)
include served up fabric out

theorem exec_hello_valid (on : joined s = true) (other : node ≠ s.fab.nodeId) (same : (laneAt s lane).farNode = some node) :
    exec (.hello lane node true far mac serial) s = .next
      (if min 3 ((laneAt s lane).hellos + 1) = 3 ∧ (laneAt s lane).revoking = false then
        topologyChanged (decide (lanesTo (setLane lane (greeted node far mac (min 3 ((laneAt s lane).hellos + 1)) (now s)
          (laneAt s lane)) s) node = [])) (joinLane lane (setLane lane (greeted node far mac
          (min 3 ((laneAt s lane).hellos + 1)) (now s) (laneAt s lane)) s))
       else setLane lane (greeted node far mac (min 3 ((laneAt s lane).hellos + 1)) (now s) (laneAt s lane)) s) := by
  refine (laneRow_next served (by simp [up, fabric]) : execHello lane node true far mac serial s = _).trans ?_
  simp [on, other, same, out, greeted]

theorem exec_hello_invalid : exec (.hello lane node false far mac serial) s = .next
    (setLane lane (greeted node far mac 0 (now s) { laneAt s lane with hellos := 0 })
      (setLane lane { laneAt s lane with hellos := 0 } s)) := by
  have apart : inFabricTrunk (laneAt s lane) = false := by simp [inFabricTrunk, out]
  have left : unjoinLane lane s = setLane lane { laneAt s lane with hellos := 0 } s := by
    simp only [unjoinLane, apart, if_true]
  refine (laneRow_next served (by simp [up, fabric]) : execHello lane node false far mac serial s = _).trans ?_
  simp [left, greeted, now]

end

/-- The routes are to be computed again, at the time asked for first (R285). -/
theorem topologyChanged_routeDue (own : Bool) (s : State) :
    (topologyChanged own s).fab.routeDue = some (s.fab.routeDue.getD (now s + 2000000)) := by
  have passed (src : Nat) (x : NodeInfo) (u : State) : (passRoute src x u).fab = u.fab :=
    (passRoute_keeps (wB := [.host, .lanes, .fabc, .out]) rfl).mpr (Keeps.refl _ u) .fab (by decide)
  have flooded (u : State) : (floodRoute u).fab.routeDue = u.fab.routeDue := by
    unfold floodRoute
    split
    · rfl
    · exact (congrArg Fabric.routeDue (passed _ _ _) :)
  unfold topologyChanged
  dsimp only
  split
  · exact flooded _
  · rfl

/-- A lane that joins starts afresh, whatever flood follows (R277, R278, R282). -/
theorem topologyChanged_joinLane (own : Bool) (n : Nat) (s : State) :
    (laneAt (topologyChanged own (joinLane n s)) n).inTrunk = true ∧ (laneAt (topologyChanged own (joinLane n s)) n).seqOut = 0 ∧
      (laneAt (topologyChanged own (joinLane n s)) n).seqIn = 0 := by
  have moved := (FramesMove.topologyChanged own (joinLane n s)).lanes n
  have joined : ∀ {β : Type} (view : Lane → β) (v : β), (∀ l, view (laneLink l) = view l) → view (laneAt (joinLane n s) n) = v →
      view (laneAt (topologyChanged own (joinLane n s)) n) = v := fun view v shows is => by
    rw [← shows, moved, shows, is]
  exact ⟨joined Lane.inTrunk true (fun _ => rfl) (congrArg Lane.inTrunk (laneAt_setLane_same ..)),
    joined Lane.seqOut 0 (fun _ => rfl) (congrArg Lane.seqOut (laneAt_setLane_same ..)),
    joined Lane.seqIn 0 (fun _ => rfl) (congrArg Lane.seqIn (laneAt_setLane_same ..))⟩

theorem exec_helloTimer (run : running s = true) (due : s.fab.helloAt + 100000 ≤ now s) :
    ∃ t, exec .helloTimer s = .next t ∧ t.fab = { s.fab with helloAt := now s } := by
  refine ⟨_, (whenRunning_next run : execHelloTimer s = _).trans (congrArg Host.Outcome.next (if_pos (decide_eq_true due))), ?_⟩
  have sent (p : Nat × Lane) (u : State) :
      (if p.2.state = .up ∧ p.2.cfg.client = false then helloFrame p.1 u else u).fab = u.fab := by
    split
    · exact (helloFrame_keeps (wB := [.host, .lanes, .out]) rfl).mpr (Keeps.refl _ u) .fab (by decide)
    · rfl
  exact each_invariant (g := State.fab) sent _ _

theorem exec_helloTimer_early (early : now s < s.fab.helloAt + 100000) : exec .helloTimer s = .next s := by
  have notDue : ¬ s.fab.helloAt + 100000 ≤ now s := Nat.not_le.mpr early
  change execHelloTimer s = _
  simp [execHelloTimer, whenRunning, guard, notDue]

/-! ## Link credits (R279, R296) -/

theorem exec_credit_empty {next : Nat} {counts : List Nat} (served : laneServed s lane)
    (trunk : inFabricTrunk (laneAt s lane) = true) (none_kept : (laneAt s lane).kept = []) (five : counts.length = 5) :
    exec (.credit lane next false counts) s =
      .next (setLane lane { laneAt s lane with creditAt := now s, peerBack := counts } s) := by
  have told : (counts ++ (laneAt s lane).peerBack.drop 5).take 5 = counts := by rw [← five, List.take_left]
  refine (laneRow_next served trunk : execCredit lane next false counts s = _).trans ?_
  simp only [splitKept, none_kept, List.filter_nil, five, told, each]
  rw [← none_kept]
  rfl

theorem exec_credit_nak {next : Nat} {counts : List Nat} (served : laneServed s lane)
    (trunk : inFabricTrunk (laneAt s lane) = true)
    (ahead : ∀ f ∈ (laneAt s lane).kept, from16 f.seq (next % 65536) = true) : ∃ t,
    exec (.credit lane next true counts) s = .next t ∧ (laneAt t lane).kept = [] ∧ (laneAt t lane).seqOut = next % 65536 ∧
      (laneAt t lane).tx = (laneAt s lane).kept.map (fun f => { f with resent := true }) ++ (laneAt s lane).tx ∧
      t.fabc = { s.fabc with linkRetx := s.fabc.linkRetx + (laneAt s lane).kept.length } := by
  have split_ : splitKept (next % 65536) (laneAt s lane).kept = ([], (laneAt s lane).kept) := by
    refine Prod.ext (List.filter_eq_nil_iff.mpr fun f held => ?_) (List.filter_eq_self.mpr ahead)
    simp [ahead f held]
  refine ⟨_, (laneRow_next served trunk : execCredit lane next true counts s = _), ?_⟩
  simp only [split_, each, if_true]
  refine ⟨congrArg Lane.kept (laneAt_setLane_same ..), congrArg Lane.seqOut (laneAt_setLane_same ..),
    congrArg Lane.tx (laneAt_setLane_same ..), rfl⟩

theorem exec_creditReturnTimer (served : laneServed s lane) (trunk : inFabricTrunk (laneAt s lane) = true)
    (owes : sumOf id (laneAt s lane).owed ≠ 0) (due : (laneAt s lane).owedAt + 2000 ≤ now s) :
    exec (.creditReturnTimer lane) s = .next (sendCredit lane false s) := by
  refine (laneRow_next served ?_ : execCreditReturnTimer lane s = _)
  simp [trunk, owes, due]

theorem sendCredit_quiet (n : Nat) (nak : Bool) (s : State) :
    laneQuiet (laneAt (sendCredit n nak s) n) = laneQuiet { laneAt s n with owed := [0, 0, 0, 0, 0] } :=
  (sendLink_quiet _ _ _ _ _ n).trans (congrArg laneQuiet (laneAt_setLane_same ..))

/-! ## Failure and revocation (R280 to R283) -/

theorem laneAt_askTraining (n k : Nat) (s : State) : laneAt (askTraining n s) k = laneAt s k := by
  rw [laneAt, (askTraining_keeps (n := n) (wB := [.ante]) rfl).mpr (Keeps.refl _ s) .lanes (by decide), laneAt]

/-- A lane whose frames have moved is in the state it was in. -/
theorem FramesMove.state {t : State} (h : FramesMove s t) (n : Nat) : (laneAt t n).state = (laneAt s n).state :=
  (congrArg Lane.state (h.lanes n) :)

/-- A lane that fails waits for a retraining window (R280, R282). -/
theorem revokeLane_state (n : Nat) (s : State) : (laneAt (revokeLane n s) n).state = .waiting := by
  have asked (l : Lane) : (laneAt (askTraining n (setLane n (laneWaiting (now s) l) s)) n).state = .waiting := by
    rw [laneAt_askTraining, laneAt_setLane_same]
    rfl
  unfold revokeLane
  dsimp only
  split
  · exact asked _
  · next node far =>
    split
    · exact asked _
    · split
      · next k _ =>
        exact (((FramesMove.moveFrames node _ _).after (.sendLink _ _ _ _ _)).state n).trans (asked _)
      · refine (((FramesMove.topologyChanged true _).after (.moveFrames node _ _)).state n).trans ?_
        exact congrArg Lane.state (laneAt_setLane_same ..)

theorem lockLost_state (up : (laneAt s n).state = .up) (fabric : (laneAt s n).cfg.client = false) :
    (laneAt (lockLost n s) n).state = .waiting := by
  have counted := countLane_quiet n 41 1 s n
  have up' : (laneAt (countLane n 41 1 s) n).state = .up := (congrArg Lane.state counted).trans up
  have fabric' : (laneAt (countLane n 41 1 s) n).cfg.client = false := (congrArg (fun l => l.cfg.client) counted).trans fabric
  simp only [lockLost, leaveUp, up', fabric', ne_eq, not_true_eq_false, if_false, Bool.false_eq_true, revokeLane_state]

theorem exec_laneFailure {cause : LaneFault} (served : laneServed s lane) (up : (laneAt s lane).state = .up)
    (fabric : (laneAt s lane).cfg.client = false) (fails : laneFails (now s) (laneAt s lane) cause = true) :
    exec (.laneFailure lane cause) s = .next (if cause = .lockLost then lockLost lane s else revokeLane lane s) := by
  refine (laneRow_next served ?_ : execLaneFailure lane cause s = _)
  simp [up, fabric, fails]

theorem exec_laneFailure_idle {cause : LaneFault} (served : laneServed s lane)
    (holds : laneFails (now s) (laneAt s lane) cause = false) : exec (.laneFailure lane cause) s = .next s := by
  refine (laneRow_idle served ?_ : execLaneFailure lane cause s = _)
  simp [holds]

/-- The end of a revoke leaves nothing kept on the lane (R281). -/
theorem endRevoke_moves (n final : Nat) (s : State) :
    FramesMove (setLane n { laneAt s n with kept := [], revoking := false } s) (endRevoke n final s) :=
  ((FramesMove.topologyChanged _ _).after (.moveFrames _ _ _)).after (.each (fun _ u => .frameGone _ u) _ _)

theorem exec_revoke_ends {final revoked : Nat} {ack : Bool} (served : laneServed s lane)
    (trunk : inFabricTrunk (laneAt s lane) = true) (neighbour : (laneAt s lane).farNode = some node)
    (called : laneCalled s node revoked = some n) (revoking : (laneAt s n).revoking = true) :
    exec (.revoke lane revoked final ack) s = .next (endRevoke n final s) := by
  refine (laneRow_next served trunk : execRevoke lane revoked final ack s = _).trans ?_
  simp only [neighbour, called, revoking, if_true]

theorem exec_revoke_obeyed {final revoked : Nat} (served : laneServed s lane)
    (trunk : inFabricTrunk (laneAt s lane) = true) (neighbour : (laneAt s lane).farNode = some node)
    (called : laneCalled s node revoked = some n) (other : n ≠ lane) (revoking : (laneAt s n).revoking = false) :
    exec (.revoke lane revoked final false) s = .next (obeyRevoke lane n final s) := by
  refine (laneRow_next served trunk : execRevoke lane revoked final false s = _).trans ?_
  simp [neighbour, called, revoking, other]

/-- A lane whose other end has failed is counted as revoked, and waits for a retraining window (R281, R282). -/
theorem obeyRevoke_waits (via n final : Nat) (s : State) : (obeyRevoke via n final s).fabc.revokes = s.fabc.revokes + 1 ∧
    (laneAt (obeyRevoke via n final s) n).state = .waiting := by
  have moves (u : State) (l : List TxFrame) (node seq : Nat) :
      FramesMove (setLane n { laneAt u n with kept := [], revoking := false } u)
        (revokeFrame via n seq true (moveFrames node l (endRevoke n final u))) :=
    ((FramesMove.sendLink _ _ _ _ _).after (.moveFrames _ _ _)).after (endRevoke_moves n final u)
  have asked (l : Lane) : (laneAt (askTraining n (setLane n (laneWaiting (now s) l) s)) n).state = .waiting := by
    rw [laneAt_askTraining, laneAt_setLane_same]
    rfl
  have counts (l : Lane) : (askTraining n (setLane n l s)).fabc.revokes = s.fabc.revokes :=
    (FramesMove.askTraining n _).revokes
  refine ⟨(moves _ _ _ _).revokes.trans (congrArg (· + 1) (counts _)), ((moves _ _ _ _).state n).trans ?_⟩
  exact (congrArg Lane.state (laneAt_setLane_same ..)).trans (asked _)

end

/-- Settles O42: each row by its equation; beside it, frames alone move. -/
theorem hellosCreditsAndRevocation : Obligations.HellosCreditsAndRevocation := by
  rintro s lane _ served rfl
  have run : running s = true := served.1
  refine ⟨fun node far mac serial up fabric on other out same => ⟨fun two steady => ?_, fun few => ?_⟩,
    fun node far mac serial up fabric out => ?_, fun due => exec_helloTimer run due, exec_helloTimer_early,
    fun next counts trunk none_kept five => ?_, fun next counts trunk some_kept ahead five => ?_,
    fun trunk owes due => ?_, fun cause up fabric fails => ?_, fun cause up fabric holds => exec_laneFailure_idle served holds,
    fun node n revoked final ack trunk neighbour called revoking => ?_,
    fun node n revoked final trunk neighbour called away steady => ?_⟩
  · refine ⟨_, (exec_hello_valid served up fabric out on other same).trans (congrArg _ (if_pos ⟨by rw [two]; rfl, steady⟩)), ?_⟩
    obtain ⟨inTrunk, seqOut, seqIn⟩ := topologyChanged_joinLane _ lane _
    exact ⟨inTrunk, seqOut, seqIn, by rw [topologyChanged_routeDue]; rfl⟩
  · have short : min 3 ((laneAt s lane).hellos + 1) = (laneAt s lane).hellos + 1 := by omega
    refine ⟨_, (exec_hello_valid served up fabric out on other same).trans (congrArg _ (if_neg (by omega))), ?_⟩
    rw [laneAt_setLane_same, short]
    exact ⟨rfl, out, rfl⟩
  · refine ⟨_, exec_hello_invalid served up fabric out, ?_⟩
    rw [laneAt_setLane_same]
    exact ⟨rfl, rfl⟩
  · exact ⟨_, exec_credit_empty served trunk none_kept five, laneAt_setLane_same ..⟩
  · obtain ⟨t, row, kept, seqOut, tx, counted⟩ := exec_credit_nak (counts := counts) served trunk ahead
    exact ⟨t, row, kept, seqOut, by rw [tx, List.length_append, List.length_map], counted⟩
  · have quiet := sendCredit_quiet lane false s
    exact ⟨_, exec_creditReturnTimer served trunk owes due, rfl, (congrArg Lane.owed quiet :),
      (congrArg Lane.returned quiet :)⟩
  · refine ⟨_, exec_laneFailure served up fabric fails, ?_⟩
    split
    · exact lockLost_state up fabric
    · exact revokeLane_state lane s
  · have moves := (endRevoke_moves n final s).lanes n
    rw [laneAt_setLane_same] at moves
    exact ⟨_, exec_revoke_ends served trunk neighbour called revoking, congrArg Lane.revoking moves, congrArg Lane.kept moves⟩
  · exact ⟨_, exec_revoke_obeyed served trunk neighbour called away steady, obeyRevoke_waits lane n final s⟩

end Sys2Proof.Machine
end

section
/-! PROOFS. The exchange of time on a lane one of whose counters rolls over (R321, R370 to R372). -/

namespace Sys2Proof.Machine

open Sys2Proof

/-- A fabric lane to module 1 whose count of sent frames stands before the change of its bit 47 (Table 07-5). -/
def laneRolling : Lane :=
  { cfg := { client := false }, state := .up, farNode := some 1, inTrunk := true, counters := [(24, 2 ^ 47 - 1)] }

/-- Module 3 with module 1, which masters fabric time, behind lane 511; an exchange of time is due, and vector 0 of port 0 is
unmasked and signals the rollover of lane counters (R372). -/
def rolloverDue : State :=
  { clk := { time := 1000000 }, lanes := [(511, laneRolling)], wake := { rollIrq := true },
    host := { ports := [(0, { vecs := [(0, { masked := false })] })] },
    fab := { nodeId := 3, nodeValid := true, nodes := [(1, { trunks := [3], valid := true })],
             routes := [(1, { primary := some 1 })] } }

/-- The frame of the exchange is counted before it is put out, and the rollover of its counter puts out a message of its own. -/
theorem rolloverDue_exchange : ∃ t, exec .timeExchangeTimer rolloverDue = .next t ∧ t.out.length = 2 :=
  ⟨_, rfl, by decide +kernel⟩

/-- Refutes O43: the frame of an exchange is not all that goes out when a counter of its lane rolls over under roll_irq. -/
theorem not_routesAndTimeTravel : ¬ Obligations.RoutesAndTimeTravel := by
  intro h
  obtain ⟨-, -, -, -, exchange, -, -⟩ := h rolloverDue rfl
  obtain ⟨t, row, -, b, out⟩ := exchange 1 511 (by decide) (by decide +kernel) (by decide +kernel)
  obtain ⟨u, row', two⟩ := rolloverDue_exchange
  obtain rfl : t = u := Host.Outcome.next.inj (row.symm.trans row')
  have one : t.out.length = 1 := congrArg List.length out
  omega

end Sys2Proof.Machine
end

section
/-! PROOFS. What counting leaves of a lane, and the counters that frames on their way leave alone (R370 to R372, Table 07-5). -/

namespace Sys2Proof.Machine

open Sys2Proof

/-! ## A counter of a lane -/

/-- A lane whose counter `k` has counted `v` more: beside the counters, a rollover bit alone may have risen. -/
def countedLane (k v : Nat) (l : Lane) : Lane :=
  let b := (laneCount l k + v) % 2 ^ 48
  { l with counters := tset (fun _ => 0) l.counters k b,
           rollPend := if bit (laneCount l k) 47 = bit b 47 ∨ bit l.rollPend k = true then l.rollPend else l.rollPend + 2 ^ k }

section
variable (k v : Nat) (l : Lane)

@[simp] theorem countedLane_state : (countedLane k v l).state = l.state := rfl
@[simp] theorem countedLane_cfg : (countedLane k v l).cfg = l.cfg := rfl
@[simp] theorem countedLane_pending : (countedLane k v l).pending = l.pending := rfl
@[simp] theorem countedLane_hiBer : (countedLane k v l).hiBer = l.hiBer := rfl
@[simp] theorem countedLane_hiBerAt : (countedLane k v l).hiBerAt = l.hiBerAt := rfl

@[simp] theorem laneCount_countedLane : laneCount (countedLane k v l) k = (laneCount l k + v) % 2 ^ 48 :=
  tget_tset_same ..

variable {k} in
theorem laneCount_countedLane_ne {c : Nat} (other : c ≠ k) : laneCount (countedLane k v l) c = laneCount l c :=
  tget_tset_ne _ _ _ other

end

section
variable (n k v : Nat) (s : State)

/-- A signal of the rollover changes no lane. -/
@[simp] theorem laneAt_countLane : laneAt (countLane n k v s) n = countedLane k v (laneAt s n) := by
  have signalled (p w : Nat) (u : State) : laneAt (msix p w u) n = laneAt u n := by
    rw [laneAt, (msix_keeps (wB := [.host, .out]) (by decide)).mpr (Keeps.refl _ u) .lanes (by decide), laneAt]
  unfold countLane countedLane
  dsimp only
  split
  · next level => rw [laneAt_setLane_same, if_pos (.inl level)]
  · next level =>
    split
    · next risen => rw [laneAt_setLane_same, if_pos (.inr risen)]
    · next risen =>
      rw [apply_ite (fun u => laneAt u n), signalled, laneAt_setLane_same, ite_self, if_neg (not_or.mpr ⟨level, risen⟩)]

@[simp] theorem now_countLane : now (countLane n k v s) = now s :=
  now_of_keeps ((countLane_keeps (wB := [.host, .lanes, .out]) (by decide)).mpr (Keeps.refl _ s)) (by decide)

end

/-! ## Counters of other things than sent frames -/

/-- Every lane's counter `c` reads the same in `s` and in `t`. -/
abbrev CountStands (c : Nat) (s t : State) : Prop := LanesAs (fun l => laneCount l c) s t

namespace CountStands

section
variable {c : Nat} {s t u : State}

theorem each {α : Type} {f : α → State → State} (hf : ∀ a u, CountStands c u (f a u)) (l : List α) (s : State) :
    CountStands c s (Machine.each f l s) := by
  induction l generalizing s with
  | nil => exact .refl _ s
  | cons a l ih => exact (hf a s).trans (ih _)

/-- A lane is written whose counter `c` reads as it did. -/
theorem then_set {n : Nat} {l : Lane} (h : CountStands c s t) (same : laneCount l c = laneCount (laneAt s n) c) :
    CountStands c s (setLane n l t) := h.trans (.set (same.trans (h n).symm))

theorem countLane {k : Nat} (other : c ≠ k) (n v : Nat) (s : State) : CountStands c s (Machine.countLane n k v s) := fun j => by
  by_cases here : j = n
  · rw [here, laneAt_countLane]
    exact laneCount_countedLane_ne v _ other
  · rw [OnlyLane.count n k v s j here]

theorem askTraining (n : Nat) (s : State) : CountStands c s (Machine.askTraining n s) :=
  fun j => by rw [laneAt_askTraining]

end

section
variable {c : Nat} (unsent : c < 24 ∨ 37 < c)
include unsent

/-- A sent frame counts in counters 24 to 37 alone. -/
theorem countSent (n : Nat) (f : TxFrame) (b : Bytes) (s : State) : CountStands c s (Machine.countSent n f b s) := by
  have at_ {k : Nat} (low : 24 ≤ k) (high : k ≤ 37) (v : Nat) (u : State) : CountStands c u (Machine.countLane n k v u) :=
    countLane (by omega) n v u
  have cast : 24 ≤ (if bit (beAt b 0 6) 40 then 27 else 26) ∧ (if bit (beAt b 0 6) 40 then 27 else 26) ≤ 37 := by
    split <;> decide
  have bin : 24 ≤ txBin b.length ∧ txBin b.length ≤ 37 := by
    unfold txBin
    split_ifs <;> decide
  have pausing : 24 ≤ (if f.pfc then 29 else 28) ∧ (if f.pfc then 29 else 28) ≤ 37 := by split <;> decide
  have first : CountStands c s (if f.stomp then Machine.countLane n 37 1 s
      else Machine.countLane n (if bit (beAt b 0 6) 40 then 27 else 26) 1
        (Machine.countLane n 25 b.length (Machine.countLane n 24 1 s))) :=
    .ite (at_ (by decide) (by decide) _ s)
      (((at_ (by decide) (by decide) _ s).trans (at_ (by decide) (by decide) _ _)).trans (at_ cast.1 cast.2 _ _))
  have second := first.trans (at_ bin.1 bin.2 1 _)
  exact .ite (second.trans (at_ pausing.1 pausing.2 1 _)) second

theorem sendLink (n kind word : Nat) (payload : Bytes) (s : State) :
    CountStands c s (Machine.sendLink n kind word payload s) := by
  have woken : CountStands c s (wakeLane n s) := .set (by dsimp only; split <;> rfl)
  exact (woken.trans (countSent unsent _ _ _ _)).trans (.of_lanes rfl)

theorem sendCredit (n : Nat) (nak : Bool) (s : State) : CountStands c s (Machine.sendCredit n nak s) :=
  (sendLink unsent _ _ _ _ _).after (.set rfl)

theorem freeCells (n h k : Nat) (s : State) : CountStands c s (Machine.freeCells n h k s) := by
  unfold Machine.freeCells
  exact .ite (.refl _ s) (.ite ((sendCredit unsent _ _ _).after (.set rfl)) (.set rfl))

theorem dropHop (f : TxFrame) (s : State) : CountStands c s (Machine.dropHop f s) := by
  unfold Machine.dropHop frameGone
  split
  · exact (freeCells unsent _ _ _ _).after (.of_lanes rfl)
  · exact .of_lanes rfl

theorem queueTo (node : Nat) (f : TxFrame) (s : State) : CountStands c s (Machine.queueTo node f s) := by
  unfold Machine.queueTo
  split
  · exact .set rfl
  · exact dropHop unsent f s

theorem queueAlternate (f : TxFrame) (s : State) : CountStands c s (Machine.queueAlternate f s) := by
  unfold Machine.queueAlternate
  dsimp only
  split
  · exact queueTo unsent _ _ s
  · exact dropHop unsent f s

theorem moveFrames (node : Nat) (l : List TxFrame) (s : State) : CountStands c s (Machine.moveFrames node l s) :=
  each (fun _ u => .ite (queueAlternate unsent _ u) (queueTo unsent _ _ u)) l s

theorem floodRoute (s : State) : CountStands c s (Machine.floodRoute s) :=
  .ite (.refl _ s) ((each (fun _ u => .ite (queueTo unsent _ _ u) (.refl _ u)) _ _).after (.of_lanes rfl))

theorem topologyChanged (own : Bool) (s : State) : CountStands c s (Machine.topologyChanged own s) :=
  .ite ((floodRoute unsent _).after (.of_lanes rfl)) (.of_lanes rfl)

/-- The revocation of a lane puts out frames, and so counts sent frames alone. -/
theorem revokeLane (n : Nat) (s : State) : CountStands c s (Machine.revokeLane n s) := by
  have waits (l : Lane) (same : laneCount l c = laneCount (laneAt s n) c) :
      CountStands c s (Machine.askTraining n (setLane n l s)) := (askTraining n _).after (.set same)
  have revoked (l : Lane) (f : FabCounters) (same : laneCount l c = laneCount (laneAt s n) c) :
      CountStands c s { Machine.askTraining n (setLane n l s) with fabc := f } := (waits l same).trans (.of_lanes rfl)
  unfold Machine.revokeLane
  dsimp only
  split
  · exact waits _ rfl
  · refine .ite (waits _ rfl) ?_
    split
    · exact ((moveFrames unsent _ _ _).after (sendLink unsent _ _ _ _ _)).after (revoked _ _ rfl)
    · exact ((topologyChanged unsent _ _).after (moveFrames unsent _ _ _)).after (then_set (revoked _ _ rfl) rfl)

theorem leaveUp (n : Nat) (s : State) : CountStands c s (Machine.leaveUp n s) :=
  .ite (.refl _ s) (.ite ((askTraining n _).after (.set rfl)) (revokeLane unsent n s))

end

end CountStands

end Sys2Proof.Machine
end

section
/-! PROOFS. The lane state machine (R345 to R349, R351, Table 07-2). -/

namespace Sys2Proof.Machine

open Sys2Proof

theorem laneAt_endTraining (n k : Nat) (s : State) : laneAt (endTraining n s) k = laneAt s k := by
  rw [laneAt, (endTraining_keeps (wB := [.ante]) (by decide)).mpr (Keeps.refl _ s) .lanes (by decide), laneAt]

theorem laneAt_event (n code : Nat) (payload : List Nat) (s : State) : laneAt (event code payload s) n = laneAt s n := by
  rw [laneAt, (event_keeps (wB := [.host, .evr, .out]) (by decide)).mpr (Keeps.refl _ s) .lanes (by decide), laneAt]

/-- A lane leaves UP for WAITING, whichever kind it is (R351). -/
theorem leaveUp_state {n : Nat} {s : State} (up : (laneAt s n).state = .up) : (laneAt (leaveUp n s) n).state = .waiting := by
  unfold leaveUp
  dsimp only
  rw [if_neg (not_not.mpr up)]
  split
  · rw [laneAt_askTraining, laneAt_setLane_same]
    rfl
  · exact revokeLane_state n s

section
variable {s : State} {lane : Nat}

/-! ## Training (R345 to R347) -/

/-- The lane takes up its settings; a lane that they enable begins an attempt, another is OFF (Table 07-2). -/
theorem beginTraining_lane {c : LaneCfg} (steady : (laneAt s lane).revoking = false)
    (settings : (laneAt s lane).pending.getD (laneAt s lane).cfg = c) :
    (laneAt (beginTraining lane s) lane).cfg = c ∧ (laneAt (beginTraining lane s) lane).pending = none ∧
      (laneAt (beginTraining lane s) lane).state =
        (if c.enabled = false then .off else if c.backplane then .training else .locking) := by
  have settled : settleRevoke lane s = s := by simp only [settleRevoke, steady, Bool.false_eq_true, if_false]
  subst settings
  unfold beginTraining
  dsimp only
  rw [settled]
  split
  · next enabled => simp [enabled]
  · next disabled => simp [laneAt_endTraining, disabled]

/-- A lane that waits, or is OFF after a cold start, begins to train when its window has come (R345, log entry 28). -/
theorem exec_laneRetrainWindowStart (served : laneServed s lane)
    (waits : (laneAt s lane).state = .waiting ∨ (laneAt s lane).state = .off) : exec (.laneRetrainWindowStart lane) s =
      .next (if windowOpen s lane then beginTraining lane s else s) :=
  (laneRow_next served (decide_eq_true waits) : execLaneRetrainWindowStart lane s = _)

theorem exec_laneTrainingDone {pre main post : Nat} (served : laneServed s lane) (trains : (laneAt s lane).state = .training) :
    exec (.laneTrainingDone lane pre main post) s = .next (setLane lane { laneAt s lane with
      state := .locking, since := now s, trained := true, taps := (pre % 64, main % 64, post % 64) } s) :=
  (laneRow_next served (decide_eq_true trains) : execLaneTrainingDone lane pre main post s = _)

/-- An attempt that has run out of time is counted; the third in a row ends in FAILED (R347). -/
theorem exec_laneTrainingTimeout (served : laneServed s lane)
    (late : ((laneAt s lane).state = .training ∧ (laneAt s lane).since + 500000000 ≤ now s) ∨
      ((laneAt s lane).state = .locking ∧ (laneAt s lane).since + 50000000 ≤ now s)) : ∃ t,
    exec (.laneTrainingTimeout lane) s = .next t ∧ (laneAt t lane).attempts = (laneAt s lane).attempts + 1 ∧
      (laneAt t lane).state = (if 3 ≤ (laneAt s lane).attempts + 1 then .failed else .waiting) := by
  refine ⟨_, (laneRow_next served (decide_eq_true late) : execLaneTrainingTimeout lane s = _), ?_⟩
  by_cases third : 3 ≤ (laneAt s lane).attempts + 1
  · simp only [if_pos third, laneAt_event, laneAt_setLane_same, and_self]
  · simp only [if_neg third, laneAt_askTraining, laneAt_setLane_same, and_self]

/-! ## Block lock and its confirmation (R346, R348, R349) -/

theorem exec_blockLock (served : laneServed s lane) (locks : (laneAt s lane).state = .locking) : ∃ t,
    exec (.blockLock lane) s = .next t ∧ laneAt t lane = { laneAt s lane with state := .confirm, since := now s } ∧
      lane ∉ t.clk.unlocked := by
  refine ⟨_, (laneRow_next served (decide_eq_true locks) : execBlockLock lane s = _), laneAt_setLane_same .., ?_⟩
  simp

/-- A lane that has confirmed its lock (R346, R349). -/
def confirmedLane (t : Nat) (l : Lane) : Lane :=
  { l with state := .up, since := t, upAt := t, emptyAt := t, helloAt := t, hellos := 0, inTrunk := l.cfg.client,
           hiBer := false }

/-- The lane is UP, but leaves it at once for settings that came meanwhile (Table 07-2). -/
theorem exec_confirmPass (served : laneServed s lane) (confirms : (laneAt s lane).state = .confirm) : ∃ u,
    laneAt u lane = confirmedLane (now s) (laneAt s lane) ∧
      exec (.confirmPass lane) s = .next (if (laneAt s lane).pending.isSome then leaveUp lane u else u) := by
  have up : laneAt (endTraining lane (setLane lane (confirmedLane (now s) (laneAt s lane)) s)) lane =
      confirmedLane (now s) (laneAt s lane) := by rw [laneAt_endTraining, laneAt_setLane_same]
  refine ⟨_, up, (laneRow_next served (decide_eq_true confirms) : execConfirmPass lane s = _).trans ?_⟩
  have same : (laneAt s lane).pending =
      (laneAt (endTraining lane (setLane lane (confirmedLane (now s) (laneAt s lane)) s)) lane).pending :=
    (congrArg Lane.pending up).symm
  rw [same]
  rfl

theorem exec_falseLock (served : laneServed s lane) (confirms : (laneAt s lane).state = .confirm) :
    exec (.falseLock lane) s =
      .next (countLane lane 43 1 (setLane lane { laneAt s lane with state := .locking, since := now s } s)) :=
  (laneRow_next served (decide_eq_true confirms) : execFalseLock lane s = _)

/-! ## UP (R346, R347, R351) -/

/-- The loss is counted, and the frames that a revocation moves leave its counter alone (R282, R351). -/
theorem lockLost_lane (up : (laneAt s lane).state = .up) : (laneAt (lockLost lane s) lane).state = .waiting ∧
    laneCount (laneAt (lockLost lane s) lane) 41 = (laneCount (laneAt s lane) 41 + 1) % 2 ^ 48 := by
  have up' : (laneAt (countLane lane 41 1 s) lane).state = .up := by rw [laneAt_countLane]; exact up
  refine ⟨leaveUp_state up', (CountStands.leaveUp (.inr (by decide)) lane _ lane).trans ?_⟩
  rw [laneAt_countLane]
  exact laneCount_countedLane ..

theorem exec_lockLoss (served : laneServed s lane) (up : (laneAt s lane).state = .up) :
    exec (.lockLoss lane) s = .next (lockLost lane s) :=
  (laneRow_next served (decide_eq_true up) : execLockLoss lane s = _)

theorem exec_attemptCountReset (served : laneServed s lane) (up : (laneAt s lane).state = .up)
    (long : (laneAt s lane).upAt + 1000000000 ≤ now s) :
    exec (.attemptCountReset lane) s = .next (setLane lane { laneAt s lane with attempts := 0 } s) :=
  (laneRow_next served (decide_eq_true ⟨up, long⟩) : execAttemptCountReset lane s = _)

theorem exec_attemptCountReset_early (served : laneServed s lane) (early : now s < (laneAt s lane).upAt + 1000000000) :
    exec (.attemptCountReset lane) s = .next s :=
  (laneRow_idle served (decide_eq_false fun due => absurd due.2 (Nat.not_le.mpr early)) : execAttemptCountReset lane s = _)

end

/-- Settles O39: each event by its equation where the lane is in a state that the table names, and by its guard elsewhere. -/
theorem laneTrainingFollowsItsTable : Obligations.LaneTrainingFollowsItsTable := by
  rintro s lane _ served rfl
  refine ⟨fun waits opens steady => ?_, fun waits closed => ?_, fun pre main post trains => ?_,
    exec_laneTrainingTimeout served, exec_blockLock served, fun confirms settled => ?_, fun confirms changed => ?_,
    fun confirms => ?_, fun up => ?_, fun up long => ?_, fun _ => exec_attemptCountReset_early served,
    fun pre main post other => ?_, fun other => ?_, fun other => ⟨?_, ?_⟩, fun other => ?_⟩
  · exact ⟨_, (exec_laneRetrainWindowStart served waits).trans (congrArg _ (if_pos opens)), beginTraining_lane steady rfl⟩
  · exact (exec_laneRetrainWindowStart served waits).trans (congrArg _ (if_neg (by simp [closed])))
  · exact ⟨_, exec_laneTrainingDone served trains, laneAt_setLane_same ..⟩
  · obtain ⟨u, up, row⟩ := exec_confirmPass served confirms
    refine ⟨u, row.trans (congrArg _ (if_neg (by simp [settled]))), ?_⟩
    rw [up]
    exact ⟨rfl, rfl, rfl, rfl⟩
  · obtain ⟨u, up, row⟩ := exec_confirmPass served confirms
    exact ⟨_, row.trans (congrArg _ (if_pos changed)), leaveUp_state (congrArg Lane.state up)⟩
  · refine ⟨_, exec_falseLock served confirms, ?_⟩
    rw [laneAt_countLane, laneAt_setLane_same]
    exact ⟨rfl, laneCount_countedLane ..⟩
  · exact ⟨_, exec_lockLoss served up, lockLost_lane up⟩
  · exact ⟨_, exec_attemptCountReset served up long, laneAt_setLane_same ..⟩
  · exact (laneRow_idle served (decide_eq_false other) : execLaneTrainingDone lane pre main post s = _)
  · exact (laneRow_idle served (decide_eq_false other) : execBlockLock lane s = _)
  · exact (laneRow_idle served (decide_eq_false other) : execConfirmPass lane s = _)
  · exact (laneRow_idle served (decide_eq_false other) : execFalseLock lane s = _)
  · exact (laneRow_idle served (decide_eq_false other) : execLockLoss lane s = _)

end Sys2Proof.Machine
end

section
/-! PROOFS. The error-ratio monitor, received pause and low-power idle of a lane that is UP (R350, R361, R362, R365 to R367). -/

namespace Sys2Proof.Machine

open Sys2Proof

/-! ## A hold and its end (R361) -/

/-- A lane whose hold has ended at time `t`; how long it lasted is counted in counter 39. -/
def releasedLane (t : Nat) (l : Lane) : Lane :=
  match l.held with
  | none => l
  | some e => countedLane 39 ((min e t - l.heldFrom) / 1000) { l with held := none }

section
variable (t : Nat) (l : Lane)

@[simp] theorem releasedLane_held : (releasedLane t l).held = none := by
  unfold releasedLane
  split
  · next free => exact free
  · rfl

@[simp] theorem releasedLane_cfg : (releasedLane t l).cfg = l.cfg := by
  unfold releasedLane
  split <;> rfl

theorem laneCount_releasedLane {c : Nat} (other : c ≠ 39) : laneCount (releasedLane t l) c = laneCount l c := by
  unfold releasedLane
  split
  · rfl
  · exact laneCount_countedLane_ne _ _ other

end

section
variable (n : Nat) (s : State)

@[simp] theorem laneAt_endHold : laneAt (endHold n s) n = releasedLane (now s) (laneAt s n) := by
  cases held : (laneAt s n).held with
  | none => simp only [endHold, releasedLane, held]
  | some e => simp only [endHold, releasedLane, held, laneAt_countLane, laneAt_setLane_same]

theorem pauseFrame_pause (quanta : Nat) : (pauseFrame s n quanta).pause = true := by
  unfold pauseFrame
  dsimp only
  split <;> rfl

theorem inHoldoff_countLane (k v : Nat) (l : Lane) : inHoldoff (countLane n k v s) (countedLane k v l) = inHoldoff s l := by
  simp only [inHoldoff, now_countLane]
  rfl

end

section
variable {s : State} {lane : Nat}

/-- A PAUSE frame that the lane honours holds it for its quanta, and one of quanta 0 ends the hold (R361). -/
theorem takePause_honoured {q : Nat} (honours : (laneAt s lane).cfg.flow = 1)
    (hears : inHoldoff s (laneAt s lane) = false) : (laneAt (takePause lane none q s) lane).held =
      if q = 0 then none else some (now s + ceilDiv (q * 512) 10) := by
  simp only [takePause, Option.isSome_none, Bool.false_eq_true, if_false, laneAt_countLane, countedLane_cfg, honours,
    decide_true, inHoldoff_countLane, hears, reduceCtorEq, or_self]
  split
  · rw [laneAt_endHold, releasedLane_held]
  · simp only [modLane, laneAt_setLane_same, now_countLane]

/-- A PAUSE frame is counted where the lane honours none, and holds nothing (R361). -/
theorem takePause_ignored {q : Nat} (ignores : (laneAt s lane).cfg.flow = 0) :
    takePause lane none q s = countLane lane 5 1 s := by
  simp [takePause, ignores]

/-! ## Windows of the error-ratio monitor (R350) -/

theorem exec_hiBerWindow {k : Nat} (served : laneServed s lane) (up : (laneAt s lane).state = .up) :
    exec (.hiBerWindow lane k) s = .next
      (if k < 16 then setLane lane { countedLane 40 k (laneAt s lane) with hiBer := false } (countLane lane 40 k s)
       else if (laneAt s lane).hiBer then
         (if (laneAt s lane).hiBerAt + 1000000 ≤ now s then lockLost lane (countLane lane 40 k s) else countLane lane 40 k s)
       else countLane lane 42 1
         (setLane lane { countedLane 40 k (laneAt s lane) with hiBer := true, hiBerAt := now s } (countLane lane 40 k s))) := by
  refine (laneRow_next served (decide_eq_true up) : execHiBerWindow lane k s = _).trans ?_
  simp only [laneAt_countLane, countedLane_hiBer, countedLane_hiBerAt]

/-! ## Pause (R361, R362) -/

theorem exec_pauseReceived {q : Nat} (served : laneServed s lane) (up : (laneAt s lane).state = .up)
    (client : (laneAt s lane).cfg.client = true) :
    exec (.pauseReceived lane none q) s = .next (takePause lane none (q % 65536) s) :=
  (laneRow_next served (by simp [up, client]) : execPauseReceived lane none q s = _)

theorem exec_pauseExpiry {e : Nat} (served : laneServed s lane) (held : (laneAt s lane).held = some e) :
    exec (.pauseExpiry lane) s = .next (if e ≤ now s then endHold lane s else s) := by
  by_cases past : e ≤ now s
  · exact (laneRow_next served (by simp [held, past]) : execPauseExpiry lane s = _).trans (by rw [if_pos past])
  · exact (laneRow_idle served (by simp [held, past]) : execPauseExpiry lane s = _).trans (by rw [if_neg past])

/-- The pause frame that is repeated goes ahead of the frames queued on the lane (R361). -/
theorem exec_pauseRepeatTimer (served : laneServed s lane) (up : (laneAt s lane).state = .up)
    (asked : (laneAt s lane).pauseSent = true)
    (due : (laneAt s lane).pauseAt + (laneAt s lane).cfg.quanta * 256 / 10 ≤ now s)
    (full : (laneAt s lane).cfg.xon < ringCells (laneAt s lane)) : ∃ t f,
    exec (.pauseRepeatTimer lane) s = .next t ∧ (laneAt t lane).pauseAt = now s ∧ f.pause = true ∧
      f ∈ (laneAt t lane).tx := by
  refine ⟨_, pauseFrame (modLane lane (fun l => { l with pauseAt := now s }) s) lane (laneAt s lane).cfg.quanta,
    (laneRow_next served (by simp [up, asked, due, full]) : execPauseRepeatTimer lane s = _), ?_, pauseFrame_pause .., ?_⟩
  · simp [sendPause, modLane]
  · simp [sendPause, modLane]

/-- The watchdog drops and counts what waits, and the hold it ends goes on no longer (R362, log entry 73). -/
theorem exec_pauseWatchdog (served : laneServed s lane) (held : heldLane s lane = true)
    (set_ : (laneAt s lane).cfg.watchMs ≠ 0)
    (long : (laneAt s lane).heldFrom + (laneAt s lane).cfg.watchMs * 1000000 ≤ now s) : ∃ t,
    exec (.pauseWatchdog lane) s = .next t ∧ (laneAt t lane).tx = [] ∧ (laneAt t lane).held = none ∧
      laneCount (laneAt t lane) 38 = (laneCount (laneAt s lane) 38 + (laneAt s lane).tx.length) % 2 ^ 48 ∧
      (laneAt t lane).holdoff = (if (laneAt s lane).cfg.holdoffMs = 0 then none
        else some (now s + (laneAt s lane).cfg.holdoffMs * 1000000)) := by
  refine ⟨_, (laneRow_next served (by simp [held, set_, long]) : execPauseWatchdog lane s = _), ?_⟩
  rw [laneAt_event, modLane, laneAt_setLane_same, laneAt_endHold, laneAt_countLane]
  refine ⟨rfl, releasedLane_held .., ?_, by rw [releasedLane_cfg, countedLane_cfg]⟩
  exact (laneCount_releasedLane _ _ (by decide)).trans (laneCount_countedLane ..)

theorem exec_pauseHoldoffEnd {e : Nat} (served : laneServed s lane) (ignores : (laneAt s lane).holdoff = some e)
    (past : e ≤ now s) : exec (.pauseHoldoffEnd lane) s = .next (setLane lane { laneAt s lane with holdoff := none } s) :=
  (laneRow_next served (by simp [ignores, past]) : execPauseHoldoffEnd lane s = _)

/-! ## Low-power idle (R365 to R367) -/

theorem exec_lpiEntry (served : laneServed s lane) (up : (laneAt s lane).state = .up) (set_ : (laneAt s lane).cfg.lpiIdleUs ≠ 0)
    (empty : (laneAt s lane).tx = []) (long : (laneAt s lane).emptyAt + (laneAt s lane).cfg.lpiIdleUs * 1000 ≤ now s)
    (awake : (laneAt s lane).txLpi = false) :
    exec (.lpiEntry lane) s = .next (countLane lane 44 1 (setLane lane { laneAt s lane with txLpi := true } s)) :=
  (laneRow_next served (by simp [up, set_, empty, long, awake]) : execLpiEntry lane s = _)

theorem exec_lpiWake (served : laneServed s lane) (asleep : (laneAt s lane).txLpi = true) (queued : (laneAt s lane).tx ≠ []) :
    exec (.lpiWake lane) s = .next (setLane lane { laneAt s lane with
      txLpi := false, wakeSlot := some (slotOf (now s)), emptyAt := now s } s) := by
  refine (laneRow_next served (by simp [asleep, queued]) : execLpiWake lane s = _).trans ?_
  simp only [wakeLane, modLane, asleep, if_true]

theorem exec_rxLowPowerIdle {enter : Bool} (served : laneServed s lane) (up : (laneAt s lane).state = .up)
    (turns : (laneAt s lane).rxLpi ≠ enter) : exec (.rxLowPowerIdle lane enter) s = .next
      (if enter then countLane lane 45 1 (setLane lane { laneAt s lane with rxLpi := enter } s)
       else setLane lane { laneAt s lane with rxLpi := enter } s) :=
  (laneRow_next served (decide_eq_true ⟨up, turns⟩) : execRxLowPowerIdle lane enter s = _)

end

/-- Settles O40: each row by its equation, and what it says of the lane read off there. -/
theorem lanesHoldAndSleep : Obligations.LanesHoldAndSleep := by
  rintro s lane _ served rfl up
  refine ⟨fun k few => ?_, fun k many clear => ?_, fun k many marked long => ?_,
    fun client honours hears => ⟨fun q pos fits => ?_, ?_⟩, fun client ignores q => ?_,
    fun e held past => ?_, fun e held early => ?_, exec_pauseRepeatTimer served up,
    exec_pauseWatchdog served, fun e ignores past => ?_, fun set_ empty long awake => ?_, fun asleep queued => ?_,
    fun enter turns => ?_⟩
  · refine ⟨_, (exec_hiBerWindow served up).trans (congrArg _ (if_pos few)), ?_⟩
    rw [laneAt_setLane_same]
    exact ⟨rfl, up, laneCount_countedLane ..⟩
  · refine ⟨_, (exec_hiBerWindow served up).trans (by rw [if_neg (Nat.not_lt.mpr many), if_neg (by simp [clear])]), ?_⟩
    rw [laneAt_countLane, laneAt_setLane_same]
    refine ⟨rfl, rfl, (laneCount_countedLane ..).trans ?_⟩
    exact congrArg (fun c => (c + 1) % 2 ^ 48) (laneCount_countedLane_ne k (laneAt s lane) (by decide))
  · refine ⟨_, (exec_hiBerWindow served up).trans (by rw [if_neg (Nat.not_lt.mpr many), if_pos marked, if_pos long]), ?_⟩
    exact (lockLost_lane (by rw [laneAt_countLane]; exact up)).1
  · refine ⟨_, exec_pauseReceived served up client, ?_⟩
    rw [takePause_honoured honours hears, Nat.mod_eq_of_lt fits, if_neg pos.ne']
  · exact ⟨_, exec_pauseReceived served up client, (takePause_honoured honours hears).trans (if_pos rfl)⟩
  · refine ⟨_, exec_pauseReceived served up client, ?_⟩
    rw [takePause_ignored ignores, laneAt_countLane]
    exact ⟨rfl, laneCount_countedLane ..⟩
  · exact ⟨_, (exec_pauseExpiry served held).trans (by rw [if_pos past]), by rw [laneAt_endHold, releasedLane_held]⟩
  · exact (exec_pauseExpiry served held).trans (by rw [if_neg (Nat.not_le.mpr early)])
  · exact ⟨_, exec_pauseHoldoffEnd served ignores past, laneAt_setLane_same ..⟩
  · refine ⟨_, exec_lpiEntry served up set_ empty long awake, ?_⟩
    rw [laneAt_countLane, laneAt_setLane_same]
    exact ⟨rfl, laneCount_countedLane ..⟩
  · refine ⟨_, exec_lpiWake served asleep queued, ?_⟩
    rw [laneAt_setLane_same]
    exact ⟨rfl, rfl, rfl⟩
  · refine ⟨_, exec_rxLowPowerIdle served up turns, ?_⟩
    cases enter
    · simp only [Bool.false_eq_true, if_false, laneAt_setLane_same]
      exact ⟨trivial, rfl⟩
    · simp only [if_true, laneAt_countLane, laneAt_setLane_same]
      exact ⟨rfl, laneCount_countedLane ..⟩

end Sys2Proof.Machine
end

section
/-! PROOFS. A frame without credit whose answer makes a counter of its lane roll over (R297, R370 to R372). -/

namespace Sys2Proof.Machine

open Sys2Proof

/-- The module of `rolloverDue` in service, its lane 511 with one cell of credit given to its neighbour: a frame of two cells is
above it. -/
def refusalRolls : State :=
  { rolloverDue with boot := { stage := 4 }, lanes := [(511, { laneRolling with creditCells := 1 })] }

/-- A credited frame of 300 bytes of payload, which costs two cells (R294). -/
def twoCells : Hdr :=
  { version := 1, kind := 8, hop := 0, adaptive := false, bounded := false, via := 0, dst := 3, src := 1, laneSeq := 0,
    payload := 300, session := 0, sequence := 0, word := 0 }

/-- The NAK is counted before it is put out, and the rollover of its counter puts out a message of its own. -/
theorem refusalRolls_nak : ∃ t, exec (.nocreditDrop 511 twoCells) refusalRolls = .next t ∧ t.out.length = 2 :=
  ⟨_, rfl, by decide +kernel⟩

/-- Refutes O41: the NAK that answers a frame above its sender's credit is not all that goes out when a counter of its lane rolls
over under roll_irq. -/
theorem not_laneFramesAreCounted : ¬ Obligations.LaneFramesAreCounted := by
  intro h
  obtain ⟨-, -, -, -, -, refused, -⟩ := h refusalRolls 511 _ ⟨rfl, rfl, by decide⟩ rfl
  obtain ⟨t, b, row, -, out, -⟩ := refused twoCells (by decide +kernel) (by decide +kernel) (by decide) (by decide +kernel)
    (by decide +kernel)
  obtain ⟨u, row', two⟩ := refusalRolls_nak
  obtain rfl : t = u := Host.Outcome.next.inj (row.symm.trans row')
  have one : t.out.length = 1 := congrArg List.length out
  omega

end Sys2Proof.Machine
end

section
/-! PROOFS. What the passes of the index leave of its table, its stash and its checkpoint (R390, R392, R402, R403, R410). -/

namespace Sys2Proof.Machine

open Sys2Proof

/-! ## A command with a condition of its own -/

section
variable {c : Bool} {f : State → State} {s : State}

theorem guarded_next (run : running s = true) (holds : c = true) : whenRunning (guard c f) s = .next (f s) := by
  rw [whenRunning_next run, guard, if_pos holds]

theorem guarded_idle (fails : c = false) : whenRunning (guard c f) s = .next s := by
  simp only [whenRunning, guard, fails, Bool.false_eq_true, if_false, ite_self]

end

/-! ## The stash (R390 to R392) -/

theorem length_stashInsert (b : Nat) (e : Entry) (l : List (Nat × Entry)) : (stashInsert b e l).length = l.length + 1 := by
  induction l with
  | nil => rfl
  | cons p l ih =>
    rw [stashInsert]
    split
    · rfl
    · rw [List.length_cons, ih, List.length_cons]

@[simp] theorem stash_putSlot (k : Nat) (e : Entry) (x : Index) : (putSlot k e x).stash = x.stash := rfl

theorem stash_clearStash (i : Nat) (x : Index) : (clearStash i x).stash = x.stash.eraseIdx i := by
  unfold clearStash
  split
  · next absent => exact (List.eraseIdx_of_length_le (List.getElem?_eq_none_iff.mp absent)).symm
  · rfl

/-- A displacement walk moves entries of the table alone. -/
theorem stash_walk (pick : Nat → Nat) (n b : Nat) (e : Entry) (x : Index) : (walk pick n b e x).1.stash = x.stash := by
  induction n generalizing b e x with
  | zero =>
    rw [walk]
    split <;> rfl
  | succ n ih =>
    rw [walk]
    split
    · rfl
    · dsimp only
      split
      · rfl
      · exact ih ..

/-- A retry takes the entry out of the stash before its walk, which puts at most one back. -/
theorem length_retryStash (p : Nat × Entry) (s : State) :
    (retryStash p s).idx.stash.length ≤ s.idx.stash.length := by
  unfold retryStash
  split
  · exact le_rfl
  · next i found =>
    obtain ⟨inside, -⟩ := List.findIdx?_eq_some_iff_getElem.mp found
    have taken : ((clearStash i s.idx).stash).length + 1 = s.idx.stash.length := by
      rw [stash_clearStash, List.length_eraseIdx_add_one inside]
    dsimp only
    split
    · next walked =>
      have kept := congrArg (fun r => r.1.stash.length) walked
      simp only [stash_walk] at kept
      simp only [drawn]
      omega
    · next walked =>
      have kept := congrArg (fun r => r.1.stash.length) walked
      simp only [stash_walk] at kept
      simp only [drawn, logDelta, length_stashInsert]
      omega

/-- A measure that no step raises is not raised by a run of them. -/
theorem each_le {α : Type} {f : α → State → State} {g : State → Nat} (hf : ∀ a u, g (f a u) ≤ g u) (l : List α) (s : State) :
    g (each f l s) ≤ g s := by
  induction l generalizing s with
  | nil => exact le_rfl
  | cons a l ih => exact (ih (f a s)).trans (hf a s)

theorem exec_stashRetryPass {s : State} (run : running s = true) :
    exec .stashRetryPass s = .next (each retryStash s.idx.stash s) :=
  whenRunning_next run

/-! ## The checkpoint (R402 to R404, R410) -/

/-- The image of a group as the checkpoint writer copies it. -/
def groupImage (x : Index) (g : Nat) : Image :=
  { seq := x.deltaSeq, slots := x.slots.filter (fun p => decide (p.1 / 16384 = g)),
    stash := x.stash.filter (fun p => decide (groupOf p.1 = g)) }

/-- The index once the image of its group is taken, before older delta records are freed. -/
def imageTaken (x : Index) : Index :=
  { x with images := tset imageBlank x.images x.ckptGroup (groupImage x x.ckptGroup),
           ckptGroup := if decide (x.ckptGroup + 1 = Config.groups) then 0 else x.ckptGroup + 1,
           passes := x.passes + b2n (decide (x.ckptGroup + 1 = Config.groups)) }

theorem exec_checkpointGroupCopy {s : State} (run : running s = true) (good : s.idx.ckptGroup ∉ s.idx.failed) :
    ∃ t, exec .checkpointGroupCopy s = .next t ∧ t.idx = { imageTaken s.idx with
      deltas := s.idx.deltas.filter (fun d => decide (oldestImage (imageTaken s.idx) ≤ d.seq)) } :=
  ⟨_, guarded_next run (decide_eq_true good), rfl⟩

theorem exec_checkpointGroupCopy_failed {s : State} (failed : s.idx.ckptGroup ∈ s.idx.failed) :
    exec .checkpointGroupCopy s = .next s :=
  guarded_idle (decide_eq_false (not_not_intro failed))

/-! ## The rebuild of a group (R410) -/

section
variable {α : Type}

theorem tfind_filter (p : Nat → Bool) (t : Tbl α) {k : Nat} (h : p k = true) :
    tfind (t.filter fun x => p x.1) k = tfind t k := by
  induction t with
  | nil => rfl
  | cons x t ih =>
    obtain ⟨j, a⟩ := x
    by_cases kept : p j = true
    · simp only [List.filter_cons, kept, if_true, tfind, ih]
    · have other : j ≠ k := fun e => kept (e ▸ h)
      simp only [List.filter_cons, kept, Bool.false_eq_true, if_false, tfind, other, ih]

theorem tfind_foldl_tput_ne {l t : Tbl α} {k : Nat} (h : ∀ p ∈ l, p.1 ≠ k) :
    tfind (l.foldl (fun t p => tput t p.1 p.2) t) k = tfind t k := by
  induction l generalizing t with
  | nil => rfl
  | cons p l ih =>
    obtain ⟨first, rest⟩ := List.forall_mem_cons.mp h
    exact (ih rest).trans (tfind_tput_ne t p.2 first.symm)

end

/-- The table when group `g` has been rebuilt: the slots of the other groups, and those its image and the delta log give. -/
def rebuiltSlots (x : Index) (g : Nat) : Tbl Entry :=
  (rebuiltGroup x g).slots.foldl (fun t p => tput t p.1 p.2) (x.slots.filter fun p => decide (p.1 / 16384 ≠ g))

/-- A rebuild that gives slots of its group alone leaves every other group's slots as they were. -/
theorem tfind_rebuiltSlots_ne {x : Index} {g k : Nat} (own : ∀ p ∈ (rebuiltGroup x g).slots, p.1 / 16384 = g)
    (other : k / 16384 ≠ g) : tfind (rebuiltSlots x g) k = tfind x.slots k := by
  rw [rebuiltSlots, tfind_foldl_tput_ne fun p hp e => other ((congrArg (· / 16384) e.symm).trans (own p hp)),
    tfind_filter (fun j => decide (j / 16384 ≠ g)) x.slots (decide_eq_true other)]

theorem endGroupWindow_idx (g : Nat) (s : State) : (endGroupWindow g s).idx = s.idx :=
  (endGroupWindow_keeps (wB := [.ante]) (by decide)).mpr (Keeps.refl _ s) .idx (by decide)

theorem exec_indexGroupRebuild {s : State} {group : Nat} (run : running s = true) (failed : group ∈ s.idx.failed)
    (come : groupWindow s group = true) : ∃ t stash, exec (.indexGroupRebuild group) s = .next t ∧ t.idx = { s.idx with
      slots := rebuiltSlots s.idx group, stash := stash, rebuilds := s.idx.rebuilds + 1,
      failed := s.idx.failed.erase group } :=
  ⟨_, _, guarded_next run (by rw [decide_eq_true failed, come]; rfl), endGroupWindow_idx ..⟩

theorem exec_indexGroupRebuild_idle {s : State} {group : Nat} (idle : group ∉ s.idx.failed ∨ groupWindow s group = false) :
    exec (.indexGroupRebuild group) s = .next s := by
  refine guarded_idle (Bool.and_eq_false_iff.mpr ?_)
  rwa [decide_eq_false_iff_not]

/-- Settles O12: no retry of a stash entry makes the stash longer, and the other two passes by what they make of the index. -/
theorem indexPasses : Obligations.IndexPasses := by
  intro s run
  refine ⟨⟨_, exec_stashRetryPass run, each_le (g := fun u => u.idx.stash.length) length_retryStash _ s, fun empty => ?_⟩,
    fun good => ?_, exec_checkpointGroupCopy_failed, fun group failed come => ?_, fun group => exec_indexGroupRebuild_idle⟩
  · rw [empty, each]
  · obtain ⟨t, row, idx⟩ := exec_checkpointGroupCopy run good
    refine ⟨t, row, ?_⟩
    rw [idx]
    exact ⟨tget_tset_same .., fun g other => tget_tset_ne _ _ _ other, if_congr decide_eq_true_iff rfl rfl, rfl, rfl, rfl⟩
  · obtain ⟨t, stash, row, idx⟩ := exec_indexGroupRebuild run failed come
    refine ⟨t, row, ?_⟩
    rw [idx]
    exact ⟨rfl, rfl, rfl, rfl, fun own k other => tfind_rebuiltSlots_ne own other⟩

end Sys2Proof.Machine
end

section
/-! PROOFS. The classifier's banks: how a scrub takes one out of service, and how a rebuild ends (R427 to R429, R432). -/

namespace Sys2Proof.Machine

open Sys2Proof

theorem bankAt_of_cam {s t : State} (h : t.cam = s.cam) (b : Nat) : bankAt t b = bankAt s b := by rw [bankAt, h, bankAt]

/-! ## The scrub (R427, R429) -/

section
variable (s : State)

theorem yieldSlices_cam : (yieldSlices s).cam = s.cam :=
  (yieldSlices_keeps (wB := [.ante]) (by decide)).mpr (Keeps.refl _ s) .cam (by decide)

theorem event_cam (code : Nat) (payload : List Nat) : (event code payload s).cam = s.cam :=
  (event_keeps (wB := [.host, .evr, .out]) (by decide)).mpr (Keeps.refl _ s) .cam (by decide)

theorem reserveMaint_cam (kind : Maint) (target slots : Nat) : (reserveMaint kind target slots s).cam = s.cam := rfl

/-- A bank that goes OFFLINE is all that changes in the classifier: event and reservation stand elsewhere. -/
theorem bankOffline_cam {unit : Nat} (online : (bankAt s (unit / 2048)).state = 1) : (bankOffline unit s).cam =
    (setBank (unit / 2048) { bankAt s (unit / 2048) with state := 2 } s).cam := by
  rw [bankOffline, if_neg (not_not_intro online), reserveMaint_cam, yieldSlices_cam, event_cam]

/-- The state in which an error of a unit's own, not of its DRAM copy, is counted. -/
def countCamError (e : CamError) (s : State) : State :=
  { s with cam := { s.cam with lastUnit := e.unit, scrubErr := s.cam.scrubErr + b2n (!e.parity),
                               parityErr := s.cam.parityErr + b2n e.parity } }

theorem camError_cam {e : CamError} (own : e.dramBad = false) (online : (bankAt s (e.unit / 2048)).state = 1) :
    (camError e s).cam = (setBank (e.unit / 2048) { bankAt s (e.unit / 2048) with state := 2 } (countCamError e s)).cam := by
  rw [camError, own, if_neg Bool.false_ne_true]
  exact bankOffline_cam (countCamError e s) online

end

/-- The end of a scrub pass is counted. -/
def countPass (s : State) : State := { s with cam := { s.cam with passes := s.cam.passes + 1 } }

theorem exec_classifierScrub {s : State} (found : List CamError) (run : running s = true) :
    exec (.classifierScrub found) s =
      .next (countPass (each camError (found.filter fun e => decide (e.unit < 32768)) s)) := by
  simp only [exec, execClassifierScrub, whenRunning_next run, countPass]

theorem exec_classifierScrub_one {s : State} {e : CamError} (run : running s = true) (known : e.unit < 32768) :
    exec (.classifierScrub [e]) s = .next (countPass (camError e s)) := by
  rw [exec_classifierScrub _ run, List.filter_singleton, decide_eq_true known]
  rfl

/-! ## The rebuild of a bank (R432, Table 08-10) -/

/-- The failed rebuilds of a bank within the day, with one that fails now. -/
def failuresOfDay (x : Bank) (t : Nat) : List Nat := (x.fails ++ [t]).filter fun u => decide (t < u + 86400000000000)

theorem failuresOfDay_first {x : Bank} (none_ : x.fails = []) (t : Nat) : failuresOfDay x t = [t] := by
  simp [failuresOfDay, none_]

theorem exec_classifierBankRebuild {s : State} {bank : Nat} {m : MaintResv} (verified : Bool) (run : running s = true)
    (held : findMaint s .bankRebuild bank = some m) (down : (bankAt s bank).state = 2 ∨ (bankAt s bank).state = 3)
    (come : m.first ≤ slotOf (now s)) : exec (.classifierBankRebuild bank verified) s = .next
      (if verified then setBank bank { bankAt s bank with state := 1, fails := [] } (dropMaint m.id s)
       else if (bankAt s bank).state = 3 ∨ 3 ≤ (failuresOfDay (bankAt s bank) (now s)).length then
         setBank bank { bankAt s bank with state := 3, fails := failuresOfDay (bankAt s bank) (now s) } (dropMaint m.id s)
       else reserveMaint .bankRebuild bank 63
         (setBank bank { bankAt s bank with fails := failuresOfDay (bankAt s bank) (now s) } (dropMaint m.id s))) := by
  have runs : ¬(((bankAt s bank).state ≠ 2 ∧ (bankAt s bank).state ≠ 3) ∨ slotOf (now s) < m.first) := by omega
  simp only [exec, execClassifierBankRebuild, whenRunning_next run, held, if_neg runs]
  rfl

theorem exec_classifierBankRebuild_idle {s : State} {bank : Nat} (verified : Bool)
    (none_ : findMaint s .bankRebuild bank = none) : exec (.classifierBankRebuild bank verified) s = .next s := by
  simp only [exec, execClassifierBankRebuild, whenRunning, none_, ite_self]

/-- A reservation that is asked for is held from then on (R48). -/
theorem mem_reserveMaint (kind : Maint) (target slots : Nat) (s : State) :
    ∃ x ∈ (reserveMaint kind target slots s).ante.maint, x.kind = kind ∧ x.target = target :=
  ⟨_, List.mem_append_right _ (List.mem_singleton_self _), rfl, rfl⟩

/-- Settles O13: the classifier after each row by what the row makes of its bank. -/
theorem classifierUpkeep : Obligations.ClassifierUpkeep := by
  intro s run
  refine ⟨⟨_, exec_classifierScrub [] run, rfl⟩, fun unit known online => ?_, fun bank m held down come => ?_,
    fun bank verified => exec_classifierBankRebuild_idle verified⟩
  · have cam := camError_cam s (e := { unit := unit, parity := false, dramBad := false }) rfl online
    refine ⟨_, exec_classifierScrub_one run known, ?_, ?_⟩
    · show (tget bankBlank (camError _ s).cam.banks _).state = 2
      rw [cam]
      exact congrArg Bank.state (bankAt_setBank_same ..)
    · simp only [countPass, cam]
      exact ⟨rfl, rfl, rfl⟩
  · have row := fun verified => exec_classifierBankRebuild verified run held down come
    refine ⟨⟨_, row true, ?_⟩, fun failed => ⟨_, row false, ?_⟩, fun offline first => ⟨_, row false, ?_⟩⟩
    · rw [if_pos rfl, bankAt_setBank_same]
      exact ⟨rfl, rfl⟩
    · rw [if_neg Bool.false_ne_true, if_pos (.inl failed), bankAt_setBank_same]
    · have again : ¬((bankAt s bank).state = 3 ∨ 3 ≤ (failuresOfDay (bankAt s bank) (now s)).length) := by
        simp [offline, failuresOfDay_first first]
      rw [if_neg Bool.false_ne_true, if_neg again, bankAt_of_cam (reserveMaint_cam ..), bankAt_setBank_same]
      exact ⟨offline, failuresOfDay_first first _, mem_reserveMaint ..⟩

end Sys2Proof.Machine
end

section
/-! PROOFS. Recovery from a checkpoint, and by the full scan: how the module reaches boot_stage 4 (R407, R481, R483, R585, R612). -/

namespace Sys2Proof.Machine

open Sys2Proof

/-- The module has reached boot_stage 4 with nothing left of the loss: no recovery due or under way, no lost channel controller
noted, no flush set kept, no failed boot counted. -/
structure Recovered (t : State) : Prop where
  stage : t.boot.stage = 4
  recover : t.boot.recover = false
  chanFail : t.boot.chanFail = none
  written : t.pwr.written = none
  recovery : t.med.recovery = 0
  fails : t.upd.fails = 0

/-! ## boot_stage 4 (R612) -/

theorem recorded_fails (u v : Update) : (recorded u v).fails = v.fails := by
  unfold recorded
  split <;> rfl

/-- A FAILED bank is to be rebuilt once more (Table 08-10). -/
def rebuildBank (b : Nat) : State → State := reserveMaint .bankRebuild b 63

section
variable (s : State)

theorem reachFour_boot : (reachFour s).boot = { s.boot with stage := 4, recover := false, chanFail := none } :=
  each_invariant (f := rebuildBank) (g := State.boot) (fun _ _ => rfl) _ _

theorem reachFour_recovery : (reachFour s).med.recovery = 0 :=
  each_invariant (f := rebuildBank) (g := fun u => u.med.recovery) (fun _ _ => rfl) _ _

theorem reachFour_fails : (reachFour s).upd.fails = 0 :=
  (each_invariant (f := rebuildBank) (g := fun u => u.upd.fails) (fun _ _ => rfl) _ _).trans (recorded_fails _ _)

theorem reachFour_pwr : (reachFour s).pwr = s.pwr :=
  each_invariant (f := rebuildBank) (g := State.pwr) (fun _ _ => rfl) _ _

theorem zeroCounters_pwr : (zeroCounters s).pwr = s.pwr :=
  (zeroCounters_keeps (wB := [.lanes]) (by decide)).mpr (Keeps.refl _ s) .pwr (by decide)

theorem eraseSets_written : (eraseSets s).pwr.written = none := rfl

theorem recovered_reachFour (h : s.pwr.written = none) : Recovered (reachFour s) where
  stage := by rw [reachFour_boot]
  recover := by rw [reachFour_boot]
  chanFail := by rw [reachFour_boot]
  written := by rw [reachFour_pwr, h]
  recovery := reachFour_recovery s
  fails := reachFour_fails s

end

/-! ## Recovery (R481, R585) -/

/-- Whatever the index recovery does, the sets are erased after it, and boot_stage 4 follows. -/
theorem recovered_recoverAll (idx : State → State) (s : State) : Recovered (recoverAll idx s) :=
  recovered_reachFour _ (by rw [zeroCounters_pwr, eraseSets_written])

/-- READ_ONLY_MODE is a mark of its own beside the boot stage (R66). -/
theorem enterReadOnly_boot (cause : Nat) (payload : List Nat) (s : State) :
    ∃ mark why, (enterReadOnly cause payload s).boot = { s.boot with readOnly := mark, roCause := why } := by
  unfold enterReadOnly
  split
  · exact ⟨_, _, rfl⟩
  · exact ⟨_, _, (raiseAll_keeps (wB := [.host, .evr, .out]) (by decide)).mpr
      ((event_keeps (by decide)).mpr (Keeps.refl _ _)) .boot (by decide)⟩

theorem recovered_afterChannel {s t : State} (h : Recovered t) : Recovered (afterChannel s t) := by
  unfold afterChannel
  split
  · exact h
  · next c _ =>
    obtain ⟨mark, why, boot⟩ := enterReadOnly_boot 2 [2, c] t
    have kept := (enterReadOnly_keeps (cause := 2) (payload := [2, c]) (wB := [.boot, .host, .evr, .out]) (by decide)).mpr
      (Keeps.refl _ t)
    exact { stage := by rw [boot]; exact h.stage
            recover := by rw [boot]; exact h.recover
            chanFail := by rw [boot]; exact h.chanFail
            written := (congrArg _ (kept .pwr (by decide))).trans h.written
            recovery := (congrArg _ (kept .med (by decide))).trans h.recovery
            fails := (congrArg _ (kept .upd (by decide))).trans h.fails }

section
variable {s : State} (found : RecoveryInput) (run : running s = true) (stage : s.boot.stage = 3)
  (due : s.boot.recover = true)
include run stage due

theorem exec_powerLossRecovery : exec (.powerLossRecovery found) s = .next
    (if checkpointOk found s then recoverAll id s
     else { s with med := { s.med with recovery := 4 }, idx := { s.idx with mode := 3 } }) :=
  guarded_next run (by rw [stage, due]; rfl)

theorem exec_fullScanRebuild :
    exec (.fullScanRebuild found) s = .next (afterChannel s (recoverAll (rebuildIndex found) s)) := by
  simp only [exec, execFullScanRebuild, whenRunning_next run, stage, due, and_self, if_true]

end

/-- Settles O5: both ways of recovery end at boot_stage 4, and an unusable checkpoint asks for the scan. -/
theorem recoveryReachesService : Obligations.RecoveryReachesService := by
  intro s found run stage due
  have row := exec_powerLossRecovery found run stage due
  refine ⟨fun usable => ?_, fun unusable => ?_, ?_⟩
  · have r := recovered_recoverAll id s
    exact ⟨_, row.trans (congrArg _ (if_pos usable)), r.stage, r.recover, r.written, r.recovery, r.fails⟩
  · exact ⟨_, row.trans (congrArg _ (if_neg (Bool.eq_false_iff.mp unusable))), rfl, rfl, rfl⟩
  · have r := recovered_afterChannel (s := s) (recovered_recoverAll (rebuildIndex found) s)
    exact ⟨_, exec_fullScanRebuild found run stage due, r.stage, r.recover, r.chanFail, r.written, r.recovery⟩

end Sys2Proof.Machine
end

section
/-! PROOFS. What the death of melds, the failure of dies and the upkeep of both leave of the media (R455, R461, R475). -/

namespace Sys2Proof.Machine

open Sys2Proof

/-! ## What lies on the flash rests -/

/-- The media without what the placing of records and the end of melds may change: what lies on the flash, what is to be moved, what
was found lost, the hints, the dies, the settings and the counts of reads are left in it. -/
def resting (s : State) : Media :=
  { s.med with melds := [], blocks := [], deaths := [], systemSeq := 0, progSeq := 0, torn := 0, aborted := [] }

/-- What rests while dies and byte columns fail, too. -/
def restingOffDies (s : State) : Media := { resting s with dies := [], columns := [], colFails := [] }

section
variable {s t : State}

theorem resting_of_med (h : t.med = s.med) : resting t = resting s := by rw [resting, h, resting]

theorem resting_of_keeps {w : List Area} (h : Keeps w s t) (hm : Area.med ∉ w) : resting t = resting s :=
  resting_of_med (h .med hm)

theorem OnlyPlaces.resting (h : OnlyPlaces s t) : resting t = resting s := by
  obtain ⟨_, _, med⟩ := h.med
  rw [Machine.resting, med, Machine.resting]

theorem meldAt_of_melds {n : Nat} (h : t.med.melds = s.med.melds) : meldAt t n = meldAt s n := by rw [meldAt, h, meldAt]

theorem restingOffDies_of_resting (h : resting t = resting s) : restingOffDies t = restingOffDies s := by
  rw [restingOffDies, h, restingOffDies]

end

section
variable (s : State)

theorem event_med (code : Nat) (payload : List Nat) : (event code payload s).med = s.med :=
  (event_keeps (wB := [.host, .evr, .out]) (by decide)).mpr (Keeps.refl _ s) .med (by decide)

theorem placeSystem_resting (r : Record) : resting (placeSystem r s) = resting s := by
  unfold placeSystem
  dsimp only
  split
  · rfl
  · exact (placeRecord_onlyPlaces ..).resting.trans rfl

theorem killMeld_resting (n : Nat) (byReclaim : Bool) : resting (killMeld n byReclaim s) = resting s := by
  cases byReclaim
  · rfl
  · have kept := placeSystem_resting s (systemRecord 8 [n, (meldAt s n).seq0] s)
    simp only [killMeld, if_true]
    generalize placeSystem _ s = u at kept ⊢
    exact kept

/-- The erase of a meld is reserved, and nothing of the media changes but that meld. -/
theorem startErase_eq (n : Nat) : ∃ at_ u, u.med = s.med ∧
    startErase n s = setMeld n { meldAt s n with state := .erasing, eraseAt := some at_ } u := by
  unfold startErase
  dsimp only
  refine ⟨_, _, ?_, rfl⟩
  exact (reserveErase_keeps1 (wB := [.ante, .pwr]) (by decide)).mpr (Keeps.refl _ s) .med (by decide)

theorem startErase_resting (n : Nat) : resting (startErase n s) = resting s := by
  obtain ⟨_, u, med, erased⟩ := startErase_eq s n
  exact erased ▸ resting_of_med (s := s) (t := u) med

theorem placeAgain_onlyPlaces (stream : Nat) (x : Placed) : OnlyPlaces s (placeAgain stream x s) := by
  unfold placeAgain
  split
  · exact .refl s
  · next n u found =>
    have placed := (meldFor_onlyPlaces found).trans (placeIn_onlyPlaces n x.item x.dram x.src x.kitty x.owner x.medium u)
    dsimp only
    split
    · exact (placed.trans (sealRow_onlyPlaces n _)).trans (.of_med rfl)
    · exact placed

theorem stopMeld_resting (n : Nat) : resting (stopMeld n s).1 = resting s := by
  simp only [stopMeld]
  split <;> rfl

theorem leaveMeld_resting (n : Nat) : resting (leaveMeld n s) = resting s :=
  (settleMeld_onlyPlaces _ _).resting.trans
    ((OnlyPlaces.each (fun x u => placeAgain_onlyPlaces u _ x) _ _).resting.trans (stopMeld_resting s n))

end

/-! ## Melds that die (R461, Table 09-8) -/

section
variable (s : State)

theorem killMeld_melds (n : Nat) (byReclaim : Bool) : ∃ u, (killMeld n byReclaim s).med.melds =
    (setMeld n { meldAt s n with state := .dead, deadAt := now s, bySweep := byReclaim } u).med.melds := by
  cases byReclaim
  all_goals exact ⟨_, rfl⟩

theorem meldAt_killMeld_same (n : Nat) (byReclaim : Bool) : meldAt (killMeld n byReclaim s) n =
    { meldAt s n with state := .dead, deadAt := now s, bySweep := byReclaim } := by
  obtain ⟨_, melds⟩ := killMeld_melds s n byReclaim
  rw [meldAt_of_melds melds, meldAt_setMeld_same]

theorem meldAt_startErase_same (n : Nat) :
    (meldAt (startErase n s) n).state = .erasing ∧ (meldAt (startErase n s) n).eraseAt.isSome = true := by
  obtain ⟨_, _, _, erased⟩ := startErase_eq s n
  rw [erased, meldAt_setMeld_same]
  exact ⟨rfl, rfl⟩

theorem meldAt_startErase_ne {n k : Nat} (other : k ≠ n) : meldAt (startErase n s) k = meldAt s k := by
  obtain ⟨_, _, med, erased⟩ := startErase_eq s n
  rw [erased, meldAt_setMeld_ne _ _ _ _ other, meldAt_of_melds (congrArg Media.melds med)]

/-- A meld whose erase has begun goes on with it whichever melds are erased after it. -/
theorem startErase_stays_erasing (n : Nat) {k : Nat} (erasing : (meldAt s k).state = .erasing) :
    (meldAt (startErase n s) k).state = .erasing := by
  by_cases same : k = n
  · exact same ▸ (meldAt_startErase_same s k).1
  · rw [meldAt_startErase_ne s same, erasing]

end

/-! ## Dies and columns that fail (R453, R455) -/

section
variable (s : State)

theorem failDie_resting {die : Nat} (serves : (dieAt s die).state = 0) :
    resting (failDie die s) = resting (setDie die { dieAt s die with state := 1 } s) := by
  rw [failDie, if_neg (not_not_intro serves)]
  exact (each_invariant (fun _ u => leaveMeld_resting u _) _ _).trans (resting_of_med (event_med ..))

theorem failDie_state {die : Nat} (serves : (dieAt s die).state = 0) : (dieAt (failDie die s) die).state = 1 := by
  have dies : (failDie die s).med.dies = (setDie die { dieAt s die with state := 1 } s).med.dies :=
    (congrArg Media.dies (failDie_resting s serves) :)
  rw [dieAt, dies]
  exact congrArg Die.state (dieAt_setDie_same die _ s)

theorem failDie_restingOffDies (die : Nat) : restingOffDies (failDie die s) = restingOffDies s := by
  by_cases serves : (dieAt s die).state = 0
  · exact (restingOffDies_of_resting (failDie_resting s serves)).trans rfl
  · rw [failDie, if_pos serves]

theorem columnFails_restingOffDies (die plane addr pos : Nat) :
    restingOffDies (columnFails die plane addr pos s) = restingOffDies s := by
  unfold columnFails
  dsimp only
  split
  · rfl
  · split
    · rfl
    · split
      · exact failDie_restingOffDies _ die
      · rfl

theorem deepRead_restingOffDies (die : Nat) : restingOffDies (deepRead die s) = restingOffDies s := by
  unfold deepRead
  dsimp only
  split
  · exact failDie_restingOffDies _ die
  · rfl

end

end Sys2Proof.Machine
end

section
/-! PROOFS. The rows of a meld from the seal to the erase (R447, R448, R465, R475, R564). -/

namespace Sys2Proof.Machine

open Sys2Proof

/-! ## A row that is closed (R448) -/

section
variable {s : State}

theorem fitRow_from {p : Plot} {dies : List Nat} {bytes slot k n : Nat} {l l' : List Resv}
    (fits : fitRow s p dies bytes l n slot = some (k, l')) : slot ≤ k := by
  induction n generalizing slot with
  | zero => cases fits
  | succ n ih =>
    unfold fitRow at fits
    split at fits
    · cases fits
    · split at fits
      · cases fits
        exact Nat.le_refl _
      · exact Nat.le_of_succ_le (ih fits)

/-- A row that is closed gets its program after this slot and after the row before it, or stays without one (R193, R448). -/
theorem closeRow_cases (n r : Nat) (s : State) : closeRow n r s = s ∨ ∃ k u, slotOf (now s) < k ∧ (meldAt s n).lastEnd < k ∧
    closeRow n r s = setMeld n { meldAt s n with
      programs := (meldAt s n).programs ++ [(r, k)], lastEnd := k + 68, asmAt := none } u := by
  unfold closeRow
  dsimp only
  split
  · exact .inl rfl
  · next k l found =>
    have start : max (slotOf (now s) + 1) ((meldAt s n).lastEnd + 1) ≤ k := by
      split at found
      · next fits => exact fitRow_from (fits.trans found)
      · exact fitRow_from found
    exact .inr ⟨k, _, by omega, by omega, rfl⟩

/-- A meld whose row is filled up by a PAD record goes on with the next row (R448). -/
def rowPadded (m : Meld) : Meld := { m with next := (asmRow m + 1) * rowUnits m, headers := 0 }

theorem sealRow_eq {n : Nat} (part : (meldAt s n).next % rowUnits (meldAt s n) ≠ 0) :
    sealRow n s = closeRow n (asmRow (meldAt s n)) (setMeld n (rowPadded (meldAt s n)) s) := by
  simp only [sealRow, if_neg part]
  rfl

theorem exec_rowSealTimer {meld a : Nat} (run : running s = true) (waits : (meldAt s meld).asmAt = some a)
    (on_ : s.med.sealMs ≠ 0) (due : a + s.med.sealMs * 1000000 ≤ now s) (open_ : (meldAt s meld).state = .open_)
    (none_ : unreserved (meldAt s meld) = []) : exec (.rowSealTimer meld) s = .next (sealRow meld s) := by
  simp [exec, execRowSealTimer, whenRunning_next run, open_, none_, each, waits, guard, on_, due]

end

/-! ## A program that begins (R447, R564) -/

/-- The program of the meld's next row is under way (R447). -/
def programBegun (meld : Nat) (s : State) : State :=
  setMeld meld { meldAt s meld with running := some (now s + 69 * Config.slotNs) } s

section
variable {s : State} {meld : Nat} {p : Nat × Nat} {l : List (Nat × Nat)} (run : running s = true)
  (programs : (meldAt s meld).programs = p :: l) (idle : (meldAt s meld).running = none) (come : p.2 ≤ slotOf (now s))
  (open_ : (meldAt s meld).state = .open_) (ready : rowReady s meld p.1 = true)
include run programs idle come open_ ready

theorem exec_rowProgramStart (steady : inDip s = false) :
    exec (.rowProgramStart meld) s = .next (programBegun meld s) := by
  simp [exec, execRowProgramStart, whenRunning_next run, programs, idle, open_, ready, Nat.not_lt.mpr come, steady, programBegun]

theorem exec_rowProgramStart_held (dip : inDip s = true) (first : meld ∉ s.med.held) :
    exec (.rowProgramStart meld) s = .next { s with med := { s.med with held := s.med.held ++ [meld] },
                                                    pwr := { s.pwr with rcHeld := s.pwr.rcHeld + 1 } } := by
  simp [exec, execRowProgramStart, whenRunning_next run, programs, idle, open_, ready, Nat.not_lt.mpr come, dip, first]

end

/-! ## A meld that is shut (R465) -/

section
variable (s : State)

theorem settleMeld_shut (n : Nat) : (meldAt (settleMeld n s) n).shut = (meldAt s n).shut := by
  unfold settleMeld
  dsimp only
  split
  · refine (each_invariant (g := fun u => (meldAt u n).shut) (fun id u => ?_) _ _).trans ?_
    · split <;> rfl
    · rw [meldAt_setMeld_same]
  · rfl

theorem shutMeld_shut (n : Nat) : (meldAt (shutMeld n s) n).shut = true := by
  rw [shutMeld, settleMeld_shut, meldAt_setMeld_same]

end

/-! ## A meld that is erased (R465, R475) -/

section
variable (s : State)

theorem replaceBlock_melds (id : Nat) : (replaceBlock id s).med.melds = s.med.melds := by
  unfold replaceBlock
  dsimp only
  split
  · rfl
  · split <;> rfl

theorem retireBlock_melds (id : Nat) : (retireBlock id s).med.melds = s.med.melds := by
  have med : ∀ u, (checkStock u).med = u.med := fun u =>
    (checkStock_keeps (wB := [.boot, .host, .evr, .out]) (by decide)).mpr (Keeps.refl _ u) .med (by decide)
  rw [retireBlock, med, replaceBlock_melds]
  rfl

theorem eraseBlock_melds (failed : List Nat) (id : Nat) : (eraseBlock failed id s).med.melds = s.med.melds := by
  unfold eraseBlock
  dsimp only
  split
  · rfl
  · split
    · exact retireBlock_melds _ id
    · split
      · exact retireBlock_melds _ id
      · rfl

variable {s}

/-- A meld whose erase has ended is FREE with nothing on it, and no other meld has changed (R465, R475). -/
theorem exec_meldEraseComplete {meld e : Nat} (failed : List Nat) (run : running s = true)
    (erasing : (meldAt s meld).state = .erasing) (ends : (meldAt s meld).eraseAt = some e) (due : e ≤ now s) :
    ∃ u, exec (.meldEraseComplete meld failed) s = .next (setMeld meld {} u) ∧ u.med.melds = s.med.melds ∧
      ∀ p ∈ u.med.flash, p.1 / Config.meldSpan ≠ meld := by
  have runs : decide ((meldAt s meld).state = .erasing ∧ e ≤ now s) = true := decide_eq_true ⟨erasing, due⟩
  simp only [exec, execMeldEraseComplete, whenRunning_next run, ends, guard, runs, if_true]
  refine ⟨_, rfl, ?_, fun p on_ => of_decide_eq_true (List.mem_filter.mp on_).2⟩
  exact each_invariant (g := fun u => u.med.melds) (fun id u => eraseBlock_melds u failed id) _ s

theorem exec_meldEraseComplete_early {meld e : Nat} (failed : List Nat) (ends : (meldAt s meld).eraseAt = some e)
    (early : now s < e) : exec (.meldEraseComplete meld failed) s = .next s := by
  have waits : decide ((meldAt s meld).state = .erasing ∧ e ≤ now s) = false :=
    decide_eq_false fun h => Nat.not_le.mpr early h.2
  simp only [exec, execMeldEraseComplete, whenRunning, ends, guard, waits, Bool.false_eq_true, if_false, ite_self]

end

/-- Settles O14: each row of the opcode table by what it makes of its meld. -/
theorem mediaRows : Obligations.MediaRows := by
  intro s meld run
  refine ⟨fun a waits on_ due open_ none_ part => ?_,
    fun p l programs idle come open_ ready => ⟨fun steady => ?_, fun dip first => ?_⟩,
    fun open_ on_ old => ?_, fun e failed erasing ends due => ?_, fun e failed => exec_meldEraseComplete_early failed⟩
  · refine ⟨_, exec_rowSealTimer run waits on_ due open_ none_, ?_⟩
    rw [sealRow_eq part]
    obtain same | ⟨k, u, later, after_, closed⟩ :=
      closeRow_cases meld (asmRow (meldAt s meld)) (setMeld meld (rowPadded (meldAt s meld)) s)
    · rw [same, meldAt_setMeld_same]
      exact ⟨rfl, .inl ⟨rfl, waits⟩⟩
    · rw [meldAt_setMeld_same] at after_ closed
      rw [closed, meldAt_setMeld_same]
      exact ⟨rfl, .inr ⟨k, rfl, later, after_, rfl, rfl⟩⟩
  · exact ⟨_, exec_rowProgramStart run programs idle come open_ ready steady, by rw [programBegun, meldAt_setMeld_same]; rfl,
      fun n other => meldAt_setMeld_ne _ _ _ n other⟩
  · exact ⟨_, exec_rowProgramStart_held run programs idle come open_ ready dip first, rfl, rfl⟩
  · exact ⟨_, guarded_next run (decide_eq_true ⟨open_, on_, old⟩), shutMeld_shut s meld⟩
  · obtain ⟨u, row, melds, flash⟩ := exec_meldEraseComplete failed run erasing ends due
    refine ⟨_, row, meldAt_setMeld_same .., flash, fun n other => ?_⟩
    rw [meldAt_setMeld_ne _ _ _ _ other, meldAt_of_melds melds]

end Sys2Proof.Machine
end

section
/-! PROOFS. Codeword reads by the step of the ladder they end at, and entries that follow their record to flash (R396,
R450 to R453). -/

namespace Sys2Proof.Machine

open Sys2Proof

/-! ## Codeword reads (R451 to R453) -/

/-- The block that a media address is read from. -/
def readBlock (s : State) (addr : Nat) : Nat :=
  let n := addr / Config.meldSpan
  let m := meldAt s n
  match locate (width m) addr with
  | none => 0
  | some l => m.blocks.getD (4 * (dataSlots n m.narrow).getD l.dslot 0 + l.plane) 0

/-- The read is counted at its block, and each byte position that failed at its plane (R453, R472). -/
def readNoted (addr : Nat) (bad : List Nat) (s : State) : State :=
  each (columnFails (readPlace s addr).die (readPlace s addr).plane (addr / 8 * 8)) bad
    (setBlk (readBlock s addr) { blkAt s (readBlock s addr) with reads := (blkAt s (readBlock s addr)).reads + 1 } s)

theorem codewordRepaired_repairs (addr : Nat) (s : State) : (codewordRepaired addr s).med.repairs = s.med.repairs + 1 := rfl

theorem codewordRepaired_lost (addr : Nat) (s : State) : (codewordRepaired addr s).med.lost = s.med.lost := rfl

/-- A codeword that no step of the ladder gives back is remembered by its address (R451). -/
def codewordLost (channel word : Nat) (s : State) : State :=
  modFlashChan channel (fun c => { c with lost := c.lost + 1 })
    { s with med := { s.med with unrec := s.med.unrec + 1, lost := s.med.lost ++ [word] } }

theorem codewordLost_unrec (channel word : Nat) (s : State) : (codewordLost channel word s).med.unrec = s.med.unrec + 1 := rfl

theorem codewordLost_lost (channel word : Nat) (s : State) : (codewordLost channel word s).med.lost = s.med.lost ++ [word] := rfl

/-- The counts of the ladder and the list of lost codewords, after what changes dies and columns alone. -/
theorem ladder_of_restingOffDies {s t : State} (h : restingOffDies t = restingOffDies s) :
    t.med.cwCorr = s.med.cwCorr ∧ t.med.cwRetry = s.med.cwRetry ∧ t.med.repairs = s.med.repairs ∧ t.med.unrec = s.med.unrec ∧
      t.med.lost = s.med.lost :=
  ⟨(congrArg Media.cwCorr h :), (congrArg Media.cwRetry h :), (congrArg Media.repairs h :), (congrArg Media.unrec h :),
    (congrArg Media.lost h :)⟩

theorem setMeld_cwRetry (n : Nat) (m : Meld) (s : State) : (setMeld n m s).med.cwRetry = s.med.cwRetry := rfl

section
variable {s : State} (addr : Nat) (bad : List Nat)

/-- A read whose bytes are all good leaves every meld as it was. -/
theorem readNoted_good (s : State) (n : Nat) : meldAt (readNoted addr [] s) n = meldAt s n := rfl

theorem readNoted_restingOffDies (s : State) :
    restingOffDies (readNoted addr bad s) = restingOffDies s :=
  (each_invariant (fun pos u => columnFails_restingOffDies u _ _ _ pos) _ _).trans rfl

theorem exec_codewordReadComplete_clean (run : running s = true) :
    exec (.codewordReadComplete addr ⟨.clean, bad⟩) s = .next (readNoted addr bad s) := by
  simp only [exec, execCodewordReadComplete, whenRunning_next run]
  rfl

theorem exec_codewordReadComplete_corrected (run : running s = true) :
    ∃ t, exec (.codewordReadComplete addr ⟨.corrected, bad⟩) s = .next t ∧
      t.med.cwCorr = (readNoted addr bad s).med.cwCorr + 1 := by
  simp only [exec, execCodewordReadComplete, whenRunning_next run]
  exact ⟨_, rfl, rfl⟩

theorem exec_codewordReadComplete_shifted (run : running s = true) :
    ∃ m u, exec (.codewordReadComplete addr ⟨.shifted, bad⟩) s = .next (setMeld (addr / Config.meldSpan) m u) ∧
      u.med.cwRetry = (readNoted addr bad s).med.cwRetry + 1 ∧ m.retries =
        tmod (fun _ => 0) (meldAt (readNoted addr bad s) (addr / Config.meldSpan)).retries (addr / 8 * 8) (· + 1) := by
  simp only [exec, execCodewordReadComplete, whenRunning_next run]
  exact ⟨_, _, rfl, rfl, rfl⟩

theorem exec_codewordReadComplete_soft (run : running s = true) :
    ∃ m u, exec (.codewordReadComplete addr ⟨.soft, bad⟩) s = .next (setMeld (addr / Config.meldSpan) m u) ∧
      u.med.cwRetry = (readNoted addr bad s).med.cwRetry + 1 ∧ m.soft = true := by
  simp only [exec, execCodewordReadComplete, whenRunning_next run]
  exact ⟨_, _, rfl, rfl, rfl⟩

theorem exec_codewordReadComplete_reconstructed (run : running s = true) :
    exec (.codewordReadComplete addr ⟨.reconstructed, bad⟩) s = .next
      (deepRead (readPlace s addr).die (codewordRepaired addr (readNoted addr bad s))) := by
  simp only [exec, execCodewordReadComplete, whenRunning_next run]
  rfl

theorem exec_codewordReadComplete_lost (run : running s = true) :
    exec (.codewordReadComplete addr ⟨.lost, bad⟩) s = .next (event 0x0601 [] (deepRead (readPlace s addr).die
      (codewordLost (readPlace s addr).channel (addr / 8 * 8) (readNoted addr bad s)))) := by
  simp only [exec, execCodewordReadComplete, whenRunning_next run]
  rfl

end

/-! ## Entries that move to flash (R396, R450) -/

section
variable {s : State} {addr old : Nat}

theorem exec_indexMoveToMedia_fromDram (run : running s = true)
    (due : s.med.moves.find? (fun x => decide (x.1 = addr)) = some (addr, true, old)) :
    ∃ t, exec (.indexMoveToMedia addr) s = .next t ∧ t.mem.held = tdel (moveEntry true old false addr s).mem.held old ∧
      t.med.moves = (moveEntry true old false addr s).med.moves.erase (addr, true, old) := by
  simp only [exec, execIndexMoveToMedia, whenRunning_next run, due]
  exact ⟨_, rfl, rfl, rfl⟩

theorem exec_indexMoveToMedia_copied (run : running s = true)
    (due : s.med.moves.find? (fun x => decide (x.1 = addr)) = some (addr, false, old)) (readable : deadAddr s old = false) :
    ∃ u, exec (.indexMoveToMedia addr) s = .next (settleCopied (old / Config.meldSpan) u) ∧
      u.idx = (moveEntry false old false addr s).idx ∧ u.mem = (moveEntry false old false addr s).mem := by
  simp only [exec, execIndexMoveToMedia, whenRunning_next run, due, readable]
  exact ⟨_, rfl, rfl, rfl⟩

theorem exec_indexMoveToMedia_idle (none_ : s.med.moves.find? (fun x => decide (x.1 = addr)) = none) :
    exec (.indexMoveToMedia addr) s = .next s := by
  simp only [exec, execIndexMoveToMedia, whenRunning, none_, ite_self]

end

/-- Settles O15: each result of the ladder by its own count, and the two kinds of moves. -/
theorem mediaReadsAndMoves : Obligations.MediaReadsAndMoves := by
  intro s addr run
  have noted := fun bad => ladder_of_restingOffDies (readNoted_restingOffDies addr bad s)
  refine ⟨fun bad => ⟨_, exec_codewordReadComplete_clean addr bad run, noted bad⟩, fun bad => ?_, fun bad => ?_, fun bad => ?_,
    fun bad => ?_, fun bad => ?_, fun old due => ?_, fun old p e due readable entry => ?_, exec_indexMoveToMedia_idle⟩
  · obtain ⟨corr, _⟩ := noted bad
    obtain ⟨t, row, counted⟩ := exec_codewordReadComplete_corrected addr bad run
    exact ⟨t, row, by rw [counted, corr]⟩
  · obtain ⟨_, retry, _⟩ := noted bad
    obtain ⟨m, u, row, counted, retried⟩ := exec_codewordReadComplete_shifted addr bad run
    refine ⟨_, row, by rw [setMeld_cwRetry, counted, retry], fun good => ?_⟩
    rw [meldAt_setMeld_same, retried, tmod, tget_tset_same, good, readNoted_good]
  · obtain ⟨_, retry, _⟩ := noted bad
    obtain ⟨m, u, row, counted, soft⟩ := exec_codewordReadComplete_soft addr bad run
    exact ⟨_, row, by rw [setMeld_cwRetry, counted, retry], by rw [meldAt_setMeld_same, soft]⟩
  · obtain ⟨_, _, repairs, _, lost⟩ := noted bad
    obtain ⟨_, _, deepRepairs, _, deepLost⟩ := ladder_of_restingOffDies
      (deepRead_restingOffDies (codewordRepaired addr (readNoted addr bad s)) (readPlace s addr).die)
    exact ⟨_, exec_codewordReadComplete_reconstructed addr bad run, by rw [deepRepairs, codewordRepaired_repairs, repairs],
      by rw [deepLost, codewordRepaired_lost, lost]⟩
  · obtain ⟨_, _, _, unrec, lost⟩ := noted bad
    obtain ⟨_, _, _, deepUnrec, deepLost⟩ := ladder_of_restingOffDies (deepRead_restingOffDies
      (codewordLost (readPlace s addr).channel (addr / 8 * 8) (readNoted addr bad s)) (readPlace s addr).die)
    exact ⟨_, exec_codewordReadComplete_lost addr bad run, by rw [event_med, deepUnrec, codewordLost_unrec, unrec],
      by rw [event_med, deepLost, codewordLost_lost, lost]⟩
  · obtain ⟨t, row, held, moves⟩ := exec_indexMoveToMedia_fromDram run due
    have med := (moveEntry_keeps (oldDram := true) (old := old) (newDram := false) (new := addr) (wB := [.idx]) (by decide)).mpr
      (Keeps.refl _ s) .med (by decide)
    exact ⟨t, row, by rw [held, tfind_tdel_same], by rw [moves, med]⟩
  · obtain ⟨u, row, idx, mem⟩ := exec_indexMoveToMedia_copied run due readable
    have moved : moveEntry false old false addr s =
        { s with idx := rewriteSpot p { e with inDram := false, loc := addr } s.idx } := by simp only [moveEntry, entry]
    have kept := (settleCopied_keeps (n := old / Config.meldSpan) (wB := [.ante, .med, .pwr]) (by decide)).mpr (Keeps.refl _ u)
    exact ⟨_, row, (kept .idx (by decide)).trans (by rw [idx, moved]), (kept .mem (by decide)).trans (by rw [mem, moved])⟩

end Sys2Proof.Machine
end

section
/-! PROOFS. Reclaim: expiry and hints, dies that fail, garbage collection, refresh and wear levelling, the snapshot and the sweep
(R455, R456, R460 to R462, R469 to R473, R480). -/

namespace Sys2Proof.Machine

open Sys2Proof

/-! ## Passes over lists, and what tables list -/

section
variable {α : Type} {f : α → State → State} {P Q : State → Prop}

/-- Where each application leaves the state as it is, all of them do. -/
theorem each_eq_self {l : List α} {s : State} (h : ∀ a ∈ l, f a s = s) : each f l s = s := by
  induction l with
  | nil => rfl
  | cons a l ih => rw [each, h a List.mem_cons_self, ih fun b hb => h b (List.mem_cons_of_mem a hb)]

theorem each_stays (stays : ∀ b u, P u → P (f b u)) (l : List α) {s : State} (h : P s) : P (each f l s) := by
  induction l generalizing s with
  | nil => exact h
  | cons b l ih => exact ih (stays b s h)

/-- What one application brings about and none undoes holds after all of them. -/
theorem each_brings {l : List α} {a : α} (mem : a ∈ l) (brings : ∀ u, Q u → P (f a u)) (stays : ∀ b u, P u → P (f b u))
    (keeps : ∀ b u, Q u → Q (f b u)) {s : State} (h : Q s) : P (each f l s) := by
  induction l generalizing s with
  | nil => cases mem
  | cons b l ih =>
    rcases List.mem_cons.mp mem with rfl | later
    · exact each_stays stays l (brings s h)
    · exact ih later (keeps b s h)

/-- What a table holds under a key, other than the key's default, it lists. -/
theorem mem_of_tget_ne {d : Nat → α} {t : Tbl α} {k : Nat} (h : tget d t k ≠ d k) : (k, tget d t k) ∈ t := by
  induction t with
  | nil => exact absurd rfl h
  | cons p t ih =>
    obtain ⟨j, a⟩ := p
    rw [tget] at h ⊢
    split at h
    · next same => rw [if_pos same, same]; exact List.mem_cons_self
    · next other => rw [if_neg other]; exact List.mem_cons_of_mem _ (ih h)

end

/-! ## Expiry (R460) -/

section
variable {s : State}

theorem exec_expiryEvaluation_one {p : Nat × Meld} {e : Nat} (run : running s = true) (full : meldsIn s .full = [p])
    (expires : expiryOf s p.2 = some e) (past : e < now s) : exec .expiryEvaluation s = .next (killMeld p.1 true s) := by
  simp only [exec, execExpiryEvaluation, whenRunning_next run, full, each, expires, if_pos past]

theorem exec_expiryEvaluation_none (run : running s = true)
    (lasts : ∀ p ∈ meldsIn s .full, ∀ e, expiryOf s p.2 = some e → now s ≤ e) : exec .expiryEvaluation s = .next s := by
  simp only [exec, execExpiryEvaluation, whenRunning_next run]
  refine congrArg Host.Outcome.next (each_eq_self fun p member => ?_)
  cases expires : expiryOf s p.2 with
  | none => rfl
  | some e => exact if_neg (Nat.not_lt.mpr (lasts p member e expires))

end

/-! ## Hints (R462) -/

/-- What one hint kills and removes. -/
def hintPass (h : Hint) (s : State) : State := hintRecords h (hintMelds h s)

/-- The hint covers the whole of a meld of this kind: its namespace, its suit, its time. -/
def hintKills (h : Hint) (m : Meld) : Prop :=
  m.maxStamp < h.time ∧ m.nss = [h.ns] ∧ (h.scope = 0 ∨ (h.scope = 1 ∧ m.stream % 16 = h.suit)) ∧ m.stream < 32

section
variable {s : State}

theorem exec_hintReclaim (run : running s = true) : ∃ t, exec .hintReclaim s = .next t ∧
    t.med = { (each hintPass s.med.hints s).med with hints := (each hintPass s.med.hints s).med.hints.map (fun h =>
      { h with swept := h.swept || (decide (s.med.hintPct ≠ 0) && !s.mem.held.any (fun p => hintCovers h p.2)) }) } := by
  simp only [exec, execHintReclaim, whenRunning_next run]
  exact ⟨_, rfl, rfl⟩

theorem hintRecords_med (h : Hint) (s : State) : (hintRecords h s).med = s.med :=
  (hintRecords_keeps (wB := [.nss, .idx]) (by decide)).mpr (Keeps.refl _ s) .med (by decide)

theorem hintMelds_resting (h : Hint) (s : State) : resting (hintMelds h s) = resting s := by
  refine each_invariant (fun p u => ?_) _ s
  split
  · exact killMeld_resting u p.1 true
  · rfl

theorem hintPass_resting (h : Hint) (s : State) : resting (hintPass h s) = resting s :=
  (resting_of_med (hintRecords_med h _)).trans (hintMelds_resting h s)

/-- A hint that covers the one FULL meld kills it, and the records removed after that leave it DEAD. -/
theorem hintPass_kills {h : Hint} {p : Nat × Meld} (full : meldsIn s .full = [p]) (covers : hintKills h p.2) :
    (meldAt (hintPass h s) p.1).state = .dead := by
  have killed : hintMelds h s = killMeld p.1 true s := by
    rw [hintMelds, full]
    exact if_pos covers
  rw [hintPass, meldAt_of_melds (congrArg Media.melds (hintRecords_med h _)), killed, meldAt_killMeld_same]

end

/-! ## Dies (R456) -/

theorem exec_dieRebuild_empty {s : State} {die : Nat} (run : running s = true) (known : die < 512)
    (failed : (dieAt s die).state = 1) (empty : meldsOnDie s die = []) :
    exec (.dieRebuild die) s = .next (event 0x0603 [] (setDie die { dieAt s die with state := 2 } s)) := by
  simp only [exec, execDieRebuild]
  rw [guarded_next run (decide_eq_true ⟨known, failed⟩)]
  simp only [empty, List.filter_nil, each, if_true]

/-! ## Melds whose records are copied out (R469 to R473) -/

section
variable {s : State}

/-- A FULL meld with nothing live, from which nothing is on its way, begins its erase (Table 09-8). -/
theorem settleCopied_empty {n : Nat} (full : (meldAt s n).state = .full) (dead : liveRecords s n = [])
    (placed : ∀ q ∈ s.med.melds, q.2.asm = []) (moved : s.med.moves = []) :
    settleCopied n s = startErase n (killMeld n false s) := by
  refine if_pos ⟨full, dead, List.all_eq_true.mpr fun q member => ?_, by rw [moved]; rfl⟩
  rw [placed q member]
  rfl

theorem relocateMeld_empty (kind : Maint) (firm recovery : Bool) {n : Nat} (dead : liveRecords s n = []) :
    relocateMeld kind firm recovery n s = settleCopied n s := by
  simp only [relocateMeld, dead, List.filter_nil, if_true]

theorem exec_backgroundGc {set meld : Nat} (run : running s = true) (known : set < 32) (share : s.ante.gcPct ≠ 0)
    (low : setTalon s set < s.med.talonBg) (writes : s.boot.readOnly = false)
    (best : bestVictim s (victims s (some set) (now s + s.med.gcSkipH * 3600000000000)) = some meld) :
    exec (.backgroundGc set) s = .next (relocateMeld .backgroundGc false false meld s) := by
  simp only [exec, execBackgroundGc]
  rw [guarded_next run (by simp [known, share, low, writes]), best]

theorem exec_foregroundGc {set meld : Nat} (run : running s = true) (known : set < 32) (low : setTalon s set < s.med.talonFg)
    (best : bestVictim s (victims s (some set) (horizonTime s)) = some meld) :
    exec (.foregroundGc set) s = .next (relocateMeld .foregroundGc true false meld s) := by
  simp only [exec, execForegroundGc]
  rw [guarded_next run (decide_eq_true ⟨known, low⟩), best]

theorem exec_wearLevelRelocation_even (channel plane : Nat)
    (even : (talonWear s channel plane).2 - (talonWear s channel plane).1 ≤ s.med.wlGap) :
    exec (.wearLevelRelocation channel plane) s = .next s := by
  simp only [exec, execWearLevelRelocation, whenRunning, if_pos (Or.inr even), ite_self]

theorem exec_wearLevelRelocation_one {channel plane e : Nat} {p : Nat × Meld} (run : running s = true) (on_ : s.med.wlGap ≠ 0)
    (gap : s.med.wlGap < (talonWear s channel plane).2 - (talonWear s channel plane).1) (full : meldsIn s .full = [p])
    (wear : meldWear s p.2 channel plane = some e) :
    exec (.wearLevelRelocation channel plane) s = .next (relocateMeld .relocation false false p.1 s) := by
  have uneven : ¬(s.med.wlGap = 0 ∨ (talonWear s channel plane).2 - (talonWear s channel plane).1 ≤ s.med.wlGap) := by omega
  simp only [exec, execWearLevelRelocation, whenRunning_next run, if_neg uneven, full, List.filterMap_cons, List.filterMap_nil,
    wear, Option.map_some, List.foldl_nil]

end

/-! ## The factor of R470 -/

section
variable {s : State} (run : running s = true)
include run

theorem exec_gcFactorUpdate_enough (enough : 32 * s.med.talonFg ≤ talonSum s) :
    exec .gcFactorUpdate s = .next { s with med := { s.med with factor := 256 } } := by
  simp only [exec, execGcFactorUpdate, whenRunning_next run, if_neg (Nat.not_lt.mpr enough)]

theorem exec_gcFactorUpdate_low {n : Nat} (low : talonSum s < 32 * s.med.talonFg)
    (best : bestVictim s (victims s none (horizonTime s)) = some n) :
    exec .gcFactorUpdate s = .next { s with med := { s.med with factor := gcFactor (liveShare s n) } } := by
  simp only [exec, execGcFactorUpdate, whenRunning_next run, if_pos low, best]

/-! ## The snapshot (R480) -/

/-- A snapshot writes records of the system stream, counts the root page on and names melds; what is on flash stays. -/
theorem exec_meldTableSnapshot : ∃ u names t, resting u = resting s ∧ exec .meldTableSnapshot s = .next t ∧
    t.med = { u.med with rootSeq := s.med.rootSeq + 1, nextMelds := some names } := by
  have journal : resting (if s.sessions = [] then s else placeSystem (systemRecord 6 (journalWords s) s) s) = resting s := by
    split
    · rfl
    · exact placeSystem_resting s _
  simp only [exec, execMeldTableSnapshot, whenRunning_next run]
  generalize (if s.sessions = [] then s else placeSystem (systemRecord 6 (journalWords s) s) s) = v at journal ⊢
  exact ⟨_, _, _, (placeSystem_resting v _).trans journal, rfl, rfl⟩

end

/-! ## The sweep (R461) -/

/-- The sweep erases a meld that expiry or a hint killed before the pass began. -/
def sweepErase (p : Nat × Meld) (s : State) : State :=
  if p.2.bySweep ∧ p.2.deadAt ≤ s.med.sweepAt then startErase p.1 s else s

section
variable {s : State}

theorem sweepErase_resting (p : Nat × Meld) (s : State) : resting (sweepErase p s) = resting s := by
  unfold sweepErase
  split
  · exact startErase_resting s p.1
  · rfl

theorem exec_indexSweepPass (run : running s = true) : ∃ u t, u.med = s.med ∧ exec .indexSweepPass s = .next t ∧
    t.med = { (each sweepErase (meldsIn s .dead) u).med with sweepAt := now s } := by
  simp only [exec, execIndexSweepPass, whenRunning_next run]
  generalize removed : each _ _ s = u
  have med : u.med = s.med := by
    refine removed ▸ each_invariant (g := State.med) (fun p v => ?_) _ s
    split
    · exact (removeEntry_keeps (wB := [.nss, .idx]) (by decide)).mpr (Keeps.refl _ v) .med (by decide)
    · rfl
  refine ⟨u, _, med, rfl, ?_⟩
  rw [meldsIn, med, ← meldsIn]
  rfl

/-- A meld that was dead before the pass began is erased by it. -/
theorem each_sweepErase_erasing {u : State} {n : Nat} (med : u.med = s.med) (dead : (meldAt s n).state = .dead)
    (swept : (meldAt s n).bySweep = true) (before : (meldAt s n).deadAt ≤ s.med.sweepAt) :
    (meldAt (each sweepErase (meldsIn s .dead) u) n).state = .erasing := by
  have listed : (n, meldAt s n) ∈ meldsIn s .dead := by
    refine List.mem_filter.mpr ⟨mem_of_tget_ne fun blank => ?_, decide_eq_true dead⟩
    rw [show meldAt s n = meldBlank n from blank] at dead
    cases dead
  refine each_brings (Q := fun v => v.med.sweepAt = s.med.sweepAt) (P := fun v => (meldAt v n).state = .erasing) listed
    (fun v same => ?_) (fun p v erasing => ?_) (fun p v same => ?_) (congrArg Media.sweepAt med)
  · rw [sweepErase, if_pos ⟨swept, same ▸ before⟩]
    exact (meldAt_startErase_same v n).1
  · unfold sweepErase
    split
    · exact startErase_stays_erasing v p.1 erasing
    · exact erasing
  · exact (congrArg Media.sweepAt (sweepErase_resting p v) :).trans same

end

/-- Settles O16: each row of reclaim by what it does to the melds, the dies or the marks it acts on. -/
theorem mediaReclaim : Obligations.MediaReclaim := by
  intro s run
  refine ⟨fun p e full expires past => ?_, exec_expiryEvaluation_none run, ?_, fun die known serves => ?_,
    fun die known failed empty => ?_, fun meld full due may => ?_, fun set meld known share low writes best => ?_,
    fun set meld known low best => ?_, fun kind firm recovery meld full dead placed moved => ?_, exec_wearLevelRelocation_even,
    fun channel plane p e on_ gap full wear => ?_, fun enough => ?_, fun n low best => ?_, ?_, ?_⟩
  · refine ⟨_, exec_expiryEvaluation_one run full expires past, ?_⟩
    rw [meldAt_killMeld_same]
    exact ⟨rfl, rfl, rfl⟩
  · obtain ⟨t, row, med⟩ := exec_hintReclaim run
    have rests := each_invariant hintPass_resting s.med.hints s
    have hints : (each hintPass s.med.hints s).med.hints = s.med.hints := (congrArg Media.hints rests :)
    refine ⟨t, row, by rw [med]; exact (congrArg Media.flash rests :), by rw [med, hints],
      fun h p one full time ns host scope => ?_⟩
    have melds : t.med.melds = (hintPass h s).med.melds := by rw [med, one]; rfl
    rw [meldAt_of_melds melds]
    exact hintPass_kills full ⟨time, ns, scope, host⟩
  · exact ⟨_, guarded_next run (decide_eq_true known), failDie_state s serves⟩
  · refine ⟨_, exec_dieRebuild_empty run known failed empty, ?_⟩
    rw [dieAt, event_med]
    exact congrArg Die.state (dieAt_setDie_same die _ s)
  · exact ⟨_, guarded_next run (by simpa [full, due] using may), rfl⟩
  · exact ⟨_, exec_backgroundGc run known share low writes best, rfl⟩
  · exact ⟨_, exec_foregroundGc run known low best, rfl⟩
  · rw [relocateMeld_empty kind firm recovery dead, settleCopied_empty full dead placed moved]
    exact meldAt_startErase_same _ meld
  · exact ⟨_, exec_wearLevelRelocation_one run on_ gap full wear, rfl⟩
  · exact ⟨_, exec_gcFactorUpdate_enough run enough, rfl⟩
  · exact ⟨_, exec_gcFactorUpdate_low run low best, rfl⟩
  · obtain ⟨u, names, t, rests, row, med⟩ := exec_meldTableSnapshot run
    refine ⟨t, row, by rw [med], by rw [med]; rfl, ?_⟩
    rw [med]
    exact (congrArg Media.flash rests :)
  · obtain ⟨u, t, med, row, sweep⟩ := exec_indexSweepPass run
    have melds : t.med.melds = (each sweepErase (meldsIn s .dead) u).med.melds := by rw [sweep]
    refine ⟨t, row, by rw [sweep], fun n dead swept before => ?_⟩
    rw [meldAt_of_melds melds]
    exact each_sweepErase_erasing med dead swept before

end Sys2Proof.Machine
end

section
/-! PROOFS. DRAM channels: how a sub-channel queues and issues requests, refresh, rates, activate windows and throttles (R503 to
R508, R513, R515, R517). -/

namespace Sys2Proof.Machine

open Sys2Proof

/-! ## Sub-channels -/

section
variable {s : State} {c u : Nat}

/-- Sub-channel `u` of a channel whose list had it replaced by `b`. -/
theorem subAt_of_set {x : Channel} {l : List SubChan} {b : SubChan} (set : x.subs = l.set u b) (held : u < l.length) :
    subAt x u = b := by
  rw [subAt, set, List.getD_eq_getElem?_getD, List.getElem?_set_self held, Option.getD_some]

theorem subAt_setSub_same (b : SubChan) (held : u < (chanAt s c).subs.length) :
    subAt (chanAt (setSub c u b s) c) u = b :=
  subAt_of_set (congrArg Channel.subs (chanAt_setChan_same c _ s)) held

theorem length_subs_setSub (b : SubChan) : (chanAt (setSub c u b s) c).subs.length = (chanAt s c).subs.length := by
  rw [setSub, chanAt_setChan_same, List.length_set]

@[simp] theorem chanAt_emit (o : Out) (s : State) (k : Nat) : chanAt (emit o s) k = chanAt s k := rfl

end

/-! ## Requests that arrive (R503 to R505, R507) -/

section
variable {s : State} {c u : Nat} {q : DramReq}

@[simp] theorem powerDown_writes (s : State) (b : SubChan) : (powerDown s b).writes = b.writes := rfl

theorem unstall_none (quiet : s.mem.waiting = []) : unstall s = s := by
  rw [unstall, quiet, each, ← quiet]

theorem issueWaitingRfm_none (managed : (subAt (chanAt s c) u).rfmWait = []) : issueWaitingRfm c u s = s := by
  rw [issueWaitingRfm, managed, each]

/-- The write of the whole line of `d` at its place. -/
def wholeWrite (d : DramIn) (p : Place) (s : State) : DramReq :=
  { port := d.port, bank := p.bank, row := p.row, col := p.col, write := true, urgent := d.urgent, at_ := now s, use := useOf d }

theorem arriveDram_wholeWrite {d : DramIn} {p : Place} (write : d.write = true) (whole : d.whole = true)
    (place : placesOf s d = [p]) : arriveDram d s = enqueueDram p.chan p.sub (wholeWrite d p s) s := by
  simp only [arriveDram, place, each, wholeWrite, write, whole, Bool.not_true, Bool.and_false]

/-- A write of a whole line that finds no other write queued and nothing waiting is the one write of its queue. -/
theorem enqueueDram_firstWrite (write : q.write = true) (whole : q.merge = false) (quiet : s.mem.waiting = [])
    (empty : (subAt (chanAt s c) u).writes = []) : enqueueDram c u q s = setChan c { chanAt s c with
      subs := (chanAt s c).subs.set u { powerDown s (subAt (chanAt s c) u) with writes := [q] },
      wqMax := max (chanAt s c).wqMax 1 } s := by
  have room : dramRoom s c u q = true := by simp [dramRoom, empty, write, whole]
  have unqueued : writeQueued (powerDown s (subAt (chanAt s c) u)) q = false := by simp [writeQueued, empty]
  simp [enqueueDram, room, quiet, takeDram, unqueued, write, whole, empty]

end

/-! ## Requests that are issued (R506 to R508) -/

/-- The state in which the sub-channel is in its mode and the row of `q` is open: it is activated where it is not (R515). -/
def readied (mode : Bool) (c u : Nat) (q : DramReq) (s : State) : State :=
  let b := subAt (chanAt s c) u
  let v := setSub c u { b with writing := mode } s
  if tfind b.opened q.bank = some q.row then v else activate c u q v

/-- The state in which write `q` has gone to the device. -/
def writeGone (c u : Nat) (q : DramReq) (s : State) : State :=
  let b := subAt (chanAt s c) u
  emit (.dram c u q.port q.bank q.row q.col true false) (setSub c u { b with writes := b.writes.erase q } s)

/-- The state in which read `q` has left its queue. -/
def readGone (c u : Nat) (q : DramReq) (s : State) : State :=
  let b := subAt (chanAt s c) u
  setSub c u { b with reads := b.reads.erase q } s

section
variable {s : State} {c u : Nat} {q : DramReq}

/-- What the sub-channel is readied to: its queues are as they were. -/
theorem readied_opens (mode : Bool) (q : DramReq) (held : u < (chanAt s c).subs.length) :
    u < (chanAt (readied mode c u q s) c).subs.length ∧
    (subAt (chanAt (readied mode c u q s) c) u).reads = (subAt (chanAt s c) u).reads ∧
    (subAt (chanAt (readied mode c u q s) c) u).writes = (subAt (chanAt s c) u).writes ∧
    tfind (subAt (chanAt (readied mode c u q s) c) u).opened q.bank = some q.row := by
  unfold readied
  dsimp only
  split
  · next opened =>
    rw [length_subs_setSub, subAt_setSub_same _ held]
    exact ⟨held, rfl, rfl, opened⟩
  · rw [activate, length_subs_setSub, subAt_setSub_same _ (by rwa [length_subs_setSub]), length_subs_setSub,
      subAt_setSub_same _ held]
    exact ⟨held, rfl, rfl, tfind_tput_same _ _ _⟩

theorem subAt_writeGone (held : u < (chanAt s c).subs.length) : subAt (chanAt (writeGone c u q s) c) u =
    { subAt (chanAt s c) u with writes := (subAt (chanAt s c) u).writes.erase q } :=
  subAt_setSub_same _ held

theorem subAt_readGone (held : u < (chanAt s c).subs.length) : subAt (chanAt (readGone c u q s) c) u =
    { subAt (chanAt s c) u with reads := (subAt (chanAt s c) u).reads.erase q } :=
  subAt_setSub_same _ held

theorem issueDram_write (bad : List Nat) (mode : writeMode s (subAt (chanAt s c) u) = true)
    (first : ((subAt (chanAt s c) u).writes.filter (writeMay s (subAt (chanAt s c) u))).head? = some q) :
    issueDram c u bad s = writeGone c u q (readied true c u q s) := by
  simp only [issueDram, mode, if_true, first, readied, writeGone]

theorem issueDram_read (bad : List Nat) (mode : writeMode s (subAt (chanAt s c) u) = false)
    (first : nextRead s (subAt (chanAt s c) u) = some q) :
    issueDram c u bad s = lineRead c u q bad (readGone c u q (readied false c u q s)) := by
  simp only [issueDram, mode, Bool.false_eq_true, if_false, Option.isNone_none, if_true, first, readied, readGone]

/-- A request of a port that is not throttled may be issued (R517). -/
theorem mayIssue_unthrottled {b : SubChan} (free : tfind b.throttle q.port = none) : mayIssue s b q = true := by
  rw [mayIssue, free, Bool.or_true]

/-- The only request queued, a write, goes to the device. -/
theorem issueDram_onlyWrite (bad : List Nat) (held : u < (chanAt s c).subs.length)
    (free : tfind (subAt (chanAt s c) u).throttle q.port = none) (write : (subAt (chanAt s c) u).writes = [q])
    (unread : (subAt (chanAt s c) u).reads = []) :
    (subAt (chanAt (issueDram c u bad s) c) u).writes = [] ∧
    tfind (subAt (chanAt (issueDram c u bad s) c) u).opened q.bank = some q.row ∧
    Out.dram c u q.port q.bank q.row q.col true false ∈ (issueDram c u bad s).out := by
  have mode : writeMode s (subAt (chanAt s c) u) = true := by simp [writeMode, unread, write]
  have may : writeMay s (subAt (chanAt s c) u) q = true := by simp [writeMay, mayIssue_unthrottled free, unread]
  have first : ((subAt (chanAt s c) u).writes.filter (writeMay s (subAt (chanAt s c) u))).head? = some q := by
    rw [write, List.filter_cons_of_pos may, List.head?_cons]
  obtain ⟨held, -, writes, opened⟩ := readied_opens true q held
  rw [issueDram_write bad mode first, subAt_writeGone held, writes, write, List.erase_cons_head]
  exact ⟨rfl, opened, List.mem_append_right _ (List.mem_singleton_self _)⟩

/-! ### Reads (R493, R506) -/

/-- The one read queued is the read issued next, if it may go. -/
theorem nextRead_one {b : SubChan} (one : b.reads = [q]) (may : readMay s b q = true) : nextRead s b = some q := by
  have only : b.reads.filter (readMay s b) = [q] := by rw [one, List.filter_cons_of_pos may, List.filter_nil]
  have sole {p : DramReq → Bool} {x : DramReq} (found : [q].find? p = some x) : some x = some q :=
    congrArg some (List.mem_singleton.mp (List.mem_of_find?_eq_some found))
  rw [nextRead, only]
  split
  · next urgent => exact sole urgent
  split
  · next live => exact sole live
  split
  · next old => exact sole old
  split
  · next opened => exact sole opened
  · rfl

/-- A line without a wrong symbol, and without a copy to mend, answers its read. -/
theorem lineRead_clean (whole : q.merge = false) (own : q.mirror = none) :
    lineRead c u q [] s = answerRead c u q false s := by
  simp only [lineRead, verdict, List.eraseDups_nil, if_true, lineGiven, own, whole, Bool.false_eq_true, if_false]

theorem trumpUpdate_chans (s : State) : (trumpUpdate s).mem.chans = s.mem.chans := by
  unfold trumpUpdate
  dsimp only
  split
  · rfl
  · split <;> rfl

theorem chanAt_answerRead (poisoned : Bool) (k : Nat) : chanAt (answerRead c u q poisoned s) k = chanAt s k := by
  rw [answerRead, chanAt_emit]
  split
  · rw [chanAt, prefetched, trumpUpdate_chans, chanAt]
  · rfl

/-- The only request queued, a read that nothing holds back, is answered. -/
theorem issueDram_onlyRead (held : u < (chanAt s c).subs.length) (high : 0 < s.mem.wqHigh)
    (free : tfind (subAt (chanAt s c) u).throttle q.port = none) (unwritten : (subAt (chanAt s c) u).writes = [])
    (read : (subAt (chanAt s c) u).reads = [q]) (whole : q.merge = false) (own : q.mirror = none) :
    (subAt (chanAt (issueDram c u [] s) c) u).reads = [] ∧
    tfind (subAt (chanAt (issueDram c u [] s) c) u).opened q.bank = some q.row ∧
    Out.dram c u q.port q.bank q.row q.col false false ∈ (issueDram c u [] s).out := by
  have mode : writeMode s (subAt (chanAt s c) u) = false := by
    have below : ¬ (if (subAt (chanAt s c) u).writing then s.mem.wqLow + 1 else s.mem.wqHigh) ≤ 0 := by split <;> omega
    simp [writeMode, unwritten, read, below]
  have may : readMay s (subAt (chanAt s c) u) q = true := by simp [readMay, mayIssue_unthrottled free, read, whole]
  obtain ⟨held, reads, -, opened⟩ := readied_opens false q held
  rw [issueDram_read [] mode (nextRead_one read may), lineRead_clean whole own, chanAt_answerRead, subAt_readGone held,
    reads, read, List.erase_cons_head]
  exact ⟨rfl, opened, List.mem_append_right _ (List.mem_singleton_self _)⟩

end

/-! ## The rows of a channel -/

section
variable {s : State} {c u : Nat}

theorem exec_dramRequest (run : running s = true) (serves : chanServes s c = true) (known : u < 2)
    (arrived : List DramIn) (bad : List Nat) : exec (.dramRequest c u arrived bad) s =
      .next (issueDram c u bad (issueWaitingRfm c u (each arriveDram arrived (unstall s)))) :=
  guarded_next run (by rw [serves, decide_eq_true known, Bool.and_self])

/-- Where nothing waits, the sub-channel issues what is queued. -/
theorem exec_dramRequest_queued (run : running s = true) (serves : chanServes s c = true) (known : u < 2)
    (quiet : s.mem.waiting = []) (managed : (subAt (chanAt s c) u).rfmWait = []) :
    exec (.dramRequest c u [] []) s = .next (issueDram c u [] s) := by
  rw [exec_dramRequest run serves known, unstall_none quiet, each, issueWaitingRfm_none managed]

/-- Where nothing waits and nothing is queued, a write of a whole line that reaches its controller goes at once. -/
theorem exec_dramRequest_wholeWrite {d : DramIn} {p : Place} (run : running s = true)
    (serves : chanServes s p.chan = true) (known : p.sub < 2) (held : p.sub < (chanAt s p.chan).subs.length)
    (quiet : s.mem.waiting = []) (managed : (subAt (chanAt s p.chan) p.sub).rfmWait = [])
    (free : (subAt (chanAt s p.chan) p.sub).throttle = []) (writes : (subAt (chanAt s p.chan) p.sub).writes = [])
    (reads : (subAt (chanAt s p.chan) p.sub).reads = []) (write : d.write = true) (whole : d.whole = true)
    (place : placesOf s d = [p]) : ∃ t, exec (.dramRequest p.chan p.sub [d] []) s = .next t ∧
      (subAt (chanAt t p.chan) p.sub).writes = [] ∧
      Out.dram p.chan p.sub d.port p.bank p.row p.col true false ∈ t.out := by
  refine ⟨_, exec_dramRequest run serves known [d] [], ?_⟩
  rw [unstall_none quiet, each, each, arriveDram_wholeWrite write whole place, enqueueDram_firstWrite rfl rfl quiet writes]
  generalize queue : setChan p.chan _ s = v
  have chan := queue ▸ chanAt_setChan_same p.chan _ s
  have sub := subAt_of_set (congrArg Channel.subs chan) held
  have held' : p.sub < (chanAt v p.chan).subs.length := by rw [chan, List.length_set]; exact held
  rw [issueWaitingRfm_none (by rw [sub]; exact managed)]
  obtain ⟨gone, -, out⟩ := issueDram_onlyWrite (q := wholeWrite d p s) [] held'
    (by rw [sub]; exact (congrArg (tfind · d.port) free :)) (by rw [sub]) (by rw [sub]; exact reads)
  exact ⟨gone, out⟩

theorem exec_refreshCommand (run : running s = true) (serves : chanServes s c = true) (known : u < 2) :
    exec (.refreshCommand c u) s = .next
      (emit (.refresh c u (refreshBank s c (subAt (chanAt s c) u)) false) (setSub c u { subAt (chanAt s c) u with
        refBank := (refreshBank s c (subAt (chanAt s c) u) + 1) % 4,
        opened := (subAt (chanAt s c) u).opened.filter
          (fun o => decide (o.1 % 4 ≠ refreshBank s c (subAt (chanAt s c) u))) } s)) :=
  guarded_next run (by rw [serves, decide_eq_true known, Bool.and_self])

/-- What a reading of a channel that is not privileged does (R513). -/
theorem exec_tempModeRead (run : running s = true) (known : c < 12) (plain : bit s.mem.privNow c = false) (above : Bool) :
    exec (.tempModeRead c above) s = .next (setChan c
      (if above then { chanAt s c with doubled := true, atBase := 0 }
       else if (chanAt s c).atBase = 0 then { chanAt s c with atBase := 1 }
       else { chanAt s c with doubled := false, atBase := 2 }) s) := by
  refine (guarded_next run (by rw [plain, decide_eq_true known]; rfl)).trans (congrArg Host.Outcome.next ?_)
  rw [apply_ite (setChan c · s), apply_ite (setChan c · s)]

theorem exec_activateWindowReset (run : running s = true) (known : c < 12) : exec (.activateWindowReset c) s =
    .next (setChan c { chanAt s c with subs := (chanAt s c).subs.map fun b => { b with acts := [] } } s) :=
  guarded_next run (decide_eq_true known)

theorem exec_throttleEnd {port e : Nat} (run : running s = true) (known : c < 12) (sub : u < 2)
    (throttled : tfind (subAt (chanAt s c) u).throttle port = some e) (past : e ≤ now s) :
    exec (.throttleEnd c u port) s = .next (setSub c u { subAt (chanAt s c) u with
      throttle := tdel (subAt (chanAt s c) u).throttle port } s) := by
  simp only [exec, execThrottleEnd, whenRunning_next run, throttled, guard, known, sub, past, and_self, decide_true, if_true]

end

/-- Settles O10: the one request queued by the lemma for its kind, and each other row by what it makes of its channel. -/
theorem dramChannelService : Obligations.DramChannelService := by
  intro s c u run
  refine ⟨fun q serves known subs high quiet managed free => ⟨fun writes reads whole own => ?_, fun writes reads => ?_⟩,
    fun d p serves known subs quiet managed free writes reads write whole place chan sub => ?_,
    fun serves known subs => ?_, fun known plain => ?_, fun known plain atBase => ?_, fun known plain atBase => ?_,
    fun known => ?_, fun port e known sub subs throttled past => ?_⟩
  · exact ⟨_, exec_dramRequest_queued run serves known quiet managed,
      issueDram_onlyRead (subs ▸ known) high free writes reads whole own⟩
  · exact ⟨_, exec_dramRequest_queued run serves known quiet managed,
      issueDram_onlyWrite [] (subs ▸ known) free writes reads⟩
  · subst chan sub
    exact exec_dramRequest_wholeWrite run serves known (subs ▸ known) quiet managed free writes reads write whole place
  · refine ⟨_, _, exec_refreshCommand run serves known, rfl, ?_⟩
    rw [chanAt_emit, subAt_setSub_same _ (subs ▸ known)]
    exact ⟨rfl, fun o mem => of_decide_eq_true (List.mem_filter.mp mem).2, rfl⟩
  · refine ⟨_, exec_tempModeRead run known plain true, ?_⟩
    rw [chanAt_setChan_same]
    exact ⟨rfl, rfl⟩
  · refine ⟨_, exec_tempModeRead run known plain false, ?_⟩
    rw [chanAt_setChan_same, if_neg Bool.false_ne_true, if_pos atBase]
    exact ⟨rfl, rfl⟩
  · refine ⟨_, exec_tempModeRead run known plain false, ?_⟩
    rw [chanAt_setChan_same, if_neg Bool.false_ne_true, if_neg atBase]
  · refine ⟨_, exec_activateWindowReset run known, fun b mem => ?_, chanAt_setChan_ne c _ s⟩
    rw [chanAt_setChan_same] at mem
    obtain ⟨b', -, rfl⟩ := List.mem_map.mp mem
    rfl
  · refine ⟨_, exec_throttleEnd run known sub throttled past, ?_⟩
    rw [subAt_setSub_same _ (subs ▸ sub)]
    exact tfind_tdel_same _ _

end Sys2Proof.Machine
end

section
/-! PROOFS. What the patrol scrub counts, trump that lasts, and when a drift asks for a retraining (R495, R510, R519). -/

namespace Sys2Proof.Machine

open Sys2Proof

/-! ## What the reading of lines leaves of the scrub (R495) -/

/-- The progress of the patrol scrub: the lines of this pass, and when the last one ended. -/
def scrubPass (s : State) : Nat × Nat := (s.mem.scrubLines, s.mem.scrubAt)

section
variable (c u : Nat) (q : DramReq) (s : State)

theorem scrubPass_of_keeps {w : List Area} {t : State} (h : Keeps w s t) (free : Area.mem ∉ w) : scrubPass t = scrubPass s := by
  rw [scrubPass, h .mem free, scrubPass]

theorem scrubPass_event (code : Nat) (payload : List Nat) : scrubPass (event code payload s) = scrubPass s :=
  scrubPass_of_keeps s ((event_keeps (wB := [.host, .evr, .out]) (by decide)).mpr (Keeps.refl _ s)) (by decide)

theorem scrubPass_prefetched (n : Nat) : scrubPass (prefetched n s) = scrubPass s := by
  unfold prefetched trumpUpdate
  dsimp only
  split
  · rfl
  · split <;> rfl

theorem scrubPass_answerRead (poisoned : Bool) : scrubPass (answerRead c u q poisoned s) = scrubPass s := by
  have emitted (o : Out) (v : State) : scrubPass (emit o v) = scrubPass v := rfl
  rw [answerRead, emitted]
  split
  · exact scrubPass_prefetched s 1
  · rfl

theorem scrubPass_takeDram : scrubPass (takeDram c u q s) = scrubPass s := by
  unfold takeDram
  dsimp only
  split
  · split
    · exact scrubPass_answerRead c u q _ _
    · split <;> rfl
  · split <;> rfl

theorem scrubPass_enqueueDram : scrubPass (enqueueDram c u q s) = scrubPass s := by
  unfold enqueueDram
  split
  · exact scrubPass_takeDram c u q s
  · rfl

theorem scrubPass_lineCorrected (dev : Option Nat) : scrubPass (lineCorrected c u dev s) = scrubPass s := by
  cases dev with
  | none => rfl
  | some d =>
    rw [lineCorrected, deviceCorrected]
    dsimp only
    split
    · exact scrubPass_event _ _ _
    · rfl

theorem scrubPass_poisonTaken : scrubPass (poisonTaken c u q s) = scrubPass s := by
  have answered (poisoned : Bool) := scrubPass_answerRead c u q s poisoned
  unfold poisonTaken
  split
  · dsimp only
    split
    · exact answered true
    · exact answered true
  · split
    · exact answered false
    · exact answered true
  · exact answered true
  · exact answered true
  · exact answered true

theorem scrubPass_linePoisoned : scrubPass (linePoisoned c u q s) = scrubPass s := by
  unfold linePoisoned
  dsimp only
  generalize (if c = 0 then 6 else 0) = other
  split
  · exact scrubPass_enqueueDram _ u _ _
  · exact scrubPass_poisonTaken c u q _

theorem scrubPass_afterMerge : scrubPass (afterMerge c u q s) = scrubPass s :=
  each_invariant (fun r v => scrubPass_takeDram c u r v) _ _

theorem scrubPass_lineGiven : scrubPass (lineGiven c u q s) = scrubPass s := by
  have mended : scrubPass (match q.mirror with
      | some bad => enqueueDram bad u { q with write := true, merge := false, mirror := none, at_ := now s } s
      | none => s) = scrubPass s := by
    split
    · exact scrubPass_enqueueDram _ u _ s
    · rfl
  unfold lineGiven
  dsimp only
  split
  · exact (scrubPass_afterMerge c u q _).trans ((scrubPass_takeDram c u _ _).trans mended)
  · exact (scrubPass_answerRead c u q _ false).trans mended

theorem scrubPass_lineRead (bad : List Nat) : scrubPass (lineRead c u q bad s) = scrubPass s := by
  unfold lineRead
  split
  · exact scrubPass_lineGiven c u q s
  · dsimp only
    split
    · rw [scrubPass_lineGiven, scrubPass_lineCorrected]
    · rw [scrubPass_enqueueDram, scrubPass_lineGiven, scrubPass_lineCorrected]
  · exact scrubPass_linePoisoned c u q s

end

/-! ## The rows -/

section
variable {s : State} {c : Nat}

theorem exec_trumpLong (run : running s = true) (raised : s.mem.trump = true) (unmarked : s.mem.trumpLong = false)
    (long : s.mem.trumpAt + 1000000 < now s) : ∃ t, exec .trumpLong s = .next t ∧
      t.mem = { s.mem with trumpLong := true } :=
  ⟨_, guarded_next run (by rw [raised, unmarked, decide_eq_true long]; rfl),
    (event_keeps (wB := [.host, .evr, .out]) (by decide)).mpr (Keeps.refl _ _) .mem (by decide)⟩

/-- The scrub reads its lines, which counts no line of the pass and takes no time, and then counts them. -/
theorem exec_patrolScrub (run : running s = true) (serves : chanServes s c = true) (idle : chanIdle s c = true)
    (lines : Nat) (found : List ScrubLine) : ∃ v, scrubPass v = scrubPass s ∧ now v = now s ∧
      exec (.patrolScrub c lines found) s = .next
        (if allLines ≤ v.mem.scrubLines + lines then { v with mem := { v.mem with scrubLines := 0, scrubAt := now v } }
         else { v with mem := { v.mem with scrubLines := v.mem.scrubLines + lines } }) := by
  refine ⟨each (scrubbedLine c) found s, ?_, ?_, guarded_next run (by rw [serves, idle, Bool.and_self])⟩
  · exact each_invariant (fun x v => scrubPass_lineRead c x.sub _ v x.bad) found s
  · exact each_invariant (fun x v => now_of_keeps ((scrubbedLine_keeps (wB := [.dlr, .ante, .host, .idx, .mem, .evr, .out])
      (by decide)).mpr (Keeps.refl _ v)) (by decide)) found s

/-- Where no channel is to be retrained, a retraining of this one is reserved (R519). -/
theorem askRetrain_maint (c : Nat) (unasked : ∀ m ∈ s.ante.maint, m.kind ≠ .dramRetrain) :
    ∃ m, (askRetrain c s).ante.maint = s.ante.maint ++ [m] ∧ m.kind = .dramRetrain ∧ m.target = c ∧ m.slots = 125 := by
  have free : s.ante.maint.any (fun m => decide (m.kind = .dramRetrain)) = false :=
    List.any_eq_false.mpr fun m mem => by simpa using unasked m mem
  rw [askRetrain, free]
  exact ⟨_, rfl, rfl, rfl, rfl⟩

theorem exec_driftCheck {driftPct : Nat} {tempMoved : Bool} (run : running s = true) (known : c < 12)
    (serves : (chanAt s c).state = 1) (due : s.mem.driftPct < driftPct ∨ tempMoved = true ∨
      (s.mem.retrainH ≠ 0 ∧ (chanAt s c).trained + s.mem.retrainH * 3600000000000 ≤ now s)) :
    exec (.driftCheck c driftPct tempMoved) s = .next (askRetrain c s) :=
  guarded_next run (by simpa [known, serves, or_assoc] using due)

theorem exec_driftCheck_within {driftPct : Nat} (within : driftPct ≤ s.mem.driftPct) (off : s.mem.retrainH = 0) :
    exec (.driftCheck c driftPct false) s = .next s :=
  guarded_idle (by simp [within, off])

end

/-- Settles O11: the passes of the scrub by what the reading of lines leaves of its count, the rest by their rows. -/
theorem memoryUpkeep : Obligations.MemoryUpkeep := by
  intro s c run
  refine ⟨exec_trumpLong run, fun lines found serves idle more => ?_, fun lines found serves idle done => ?_,
    fun driftPct tempMoved known serves due unasked => ?_, fun driftPct _ within off => exec_driftCheck_within within off⟩
  · obtain ⟨v, pass, -, row⟩ := exec_patrolScrub run serves idle lines found
    obtain ⟨count, ended⟩ := Prod.mk.inj pass
    rw [count, if_neg (Nat.not_le.mpr more)] at row
    exact ⟨_, row, rfl, ended⟩
  · obtain ⟨v, pass, time, row⟩ := exec_patrolScrub run serves idle lines found
    obtain ⟨count, -⟩ := Prod.mk.inj pass
    rw [count, if_pos done] at row
    exact ⟨_, row, rfl, time⟩
  · obtain ⟨m, reserved, kind, target, slots⟩ := askRetrain_maint c unasked
    exact ⟨_, m, exec_driftCheck run known serves due, reserved, kind, target, slots⟩

end Sys2Proof.Machine
end

section
/-! PROOFS. The moves of the supply supervisor among NORMAL, DIP and RESUME (R562 to R565). -/

namespace Sys2Proof.Machine

open Sys2Proof

section
variable {s : State} {mv : Nat}

/-! ## The sample that meets a transition to FLUSH (R563) -/

theorem inDip_iff : inDip s = true ↔ s.pwr.sup = .dip ∨ s.pwr.sup = .resume := by
  cases sup : s.pwr.sup <;> simp [inDip, sup]

theorem flushInstead_isSome : (flushInstead mv s).isSome = true ↔
    mv < 9000 ∨ (inDip s = true ∧ s.pwr.leftAt + s.pwr.dipMaxMs * 1000000 ≤ now s) := by
  unfold flushInstead
  dsimp only
  split
  · next low => simp [low]
  · next high =>
    split
    · next late => simp [late]
    · next soon => simp only [Option.isSome_none, Bool.false_eq_true, high, soon, or_self]

theorem flushInstead_normal (normal : s.pwr.sup = .normal) (high : 9000 ≤ mv) : flushInstead mv s = none := by
  have no : ¬ (flushInstead mv s).isSome = true := by
    rw [flushInstead_isSome, inDip_iff, normal]
    simp [high]
  simpa using no

/-- Where a transition is met at all, FLUSH is entered. -/
theorem flushInstead_sup {t : State} (e : flushInstead mv s = some t) : t.pwr.sup = .flush := by
  unfold flushInstead at e
  dsimp only at e
  split at e
  · cases e
    rfl
  · split at e
    · cases e
      rfl
    · cases e

theorem flushInstead_getD_sup {u : State} (met : (flushInstead mv s).isSome = true) :
    ((flushInstead mv s).getD u).pwr.sup = .flush := by
  obtain ⟨t, e⟩ := Option.isSome_iff_exists.mp met
  rw [e]
  exact flushInstead_sup e

/-! ## What each event does in the states that Table 12-2 names, and in the others -/

theorem exec_supplyVWarn (normal : s.pwr.sup = .normal) :
    exec (.supplyVWarn mv) s = .next ((flushInstead mv s).getD (enterDip mv s)) := by
  simp only [exec, execSupplyVWarn, normal]

theorem exec_supplyVWarn_idle (h : s.pwr.sup ≠ .normal) : exec (.supplyVWarn mv) s = .next s := by
  cases sup : s.pwr.sup
  case normal => exact absurd sup h
  all_goals simp only [exec, execSupplyVWarn, sup]

theorem exec_supplyAboveVResume (dip : s.pwr.sup = .dip) : exec (.supplyAboveVResume mv) s =
    .next ((flushInstead mv s).getD { s with pwr := { s.pwr with sup := .resume, aboveAt := now s, supplyMv := mv } }) := by
  simp only [exec, execSupplyAboveVResume, dip]

theorem exec_supplyAboveVResume_reading (h : s.pwr.sup ≠ .dip) :
    exec (.supplyAboveVResume mv) s = .next { s with pwr := { s.pwr with supplyMv := mv } } := by
  cases sup : s.pwr.sup
  case dip => exact absurd sup h
  all_goals simp only [exec, execSupplyAboveVResume, sup]

theorem exec_supplyBelowVResume (resume : s.pwr.sup = .resume) : exec (.supplyBelowVResume mv) s =
    .next ((flushInstead mv s).getD
      { s with pwr := { s.pwr with sup := .dip, supplyMv := mv, dips := s.pwr.dips + 1, rcDips := s.pwr.rcDips + 1 } }) := by
  simp only [exec, execSupplyBelowVResume, resume]

theorem exec_supplyBelowVResume_reading (h : s.pwr.sup ≠ .resume) :
    exec (.supplyBelowVResume mv) s = .next { s with pwr := { s.pwr with supplyMv := mv } } := by
  cases sup : s.pwr.sup
  case resume => exact absurd sup h
  all_goals simp only [exec, execSupplyBelowVResume, sup]

theorem exec_resumeHoldEnd (resume : s.pwr.sup = .resume) (held : s.pwr.aboveAt + 5000000 ≤ now s) :
    exec .resumeHoldEnd s = .next ((flushInstead s.pwr.supplyMv s).getD (leaveDip s)) := by
  simp only [exec, execResumeHoldEnd, resume, guard, held, decide_true, if_true]

theorem exec_resumeHoldEnd_early (resume : s.pwr.sup = .resume) (early : now s < s.pwr.aboveAt + 5000000) :
    exec .resumeHoldEnd s = .next s := by
  simp only [exec, execResumeHoldEnd, resume, guard, decide_eq_true_eq, if_neg (Nat.not_le.mpr early)]

/-! ## The entry to DIP (R564, R650) -/

theorem thaw_clk (b : Bool) : (thaw b s).clk = s.clk :=
  (thaw_keeps (wB := [.dlr, .sessions, .ante, .host, .lanes, .fab, .fabc, .med, .mem, .pwr, .upd, .evr, .frz, .out])
    (by decide)).mpr (Keeps.refl _ s) .clk (by decide)

theorem enterDip_leftAt : (enterDip mv s).pwr.leftAt = now s := congrArg Clk.time (thaw_clk true)

theorem enterDip_dips : (enterDip mv s).pwr.dips = s.pwr.dips + 1 := by
  obtain ⟨a, b, pwr⟩ := thaw_pwr true s
  exact congrArg (·.dips + 1) pwr

end

/-- Settles O1: each event by its equation; a sample that meets FLUSH is `flushInstead`. -/
theorem supplySupervisorMoves : Obligations.SupplySupervisorMoves := by
  intro s mv
  refine ⟨fun normal high => ?_, exec_supplyVWarn_idle, fun dip unmet => ?_, fun other => ?_, fun resume unmet => ?_,
    fun other => ?_, fun resume unmet held => ?_, exec_resumeHoldEnd_early, fun normal low => ?_, fun dip met => ?_,
    fun resume met => ?_, fun dip => by rw [flushInstead_isSome, dip]; simp⟩
  · refine ⟨_, exec_supplyVWarn normal, ?_⟩
    rw [flushInstead_normal normal high]
    exact ⟨rfl, enterDip_leftAt, rfl, rfl, rfl, enterDip_dips, thaw_frz_state true s⟩
  · refine ⟨_, exec_supplyAboveVResume dip, ?_⟩
    rw [unmet, Option.getD_none]
  · exact ⟨_, exec_supplyAboveVResume_reading other, rfl⟩
  · refine ⟨_, exec_supplyBelowVResume resume, ?_⟩
    rw [unmet]
    exact ⟨rfl, rfl, rfl⟩
  · exact ⟨_, exec_supplyBelowVResume_reading other, rfl, rfl⟩
  · refine ⟨_, exec_resumeHoldEnd resume held, ?_⟩
    rw [unmet]
    exact ⟨rfl, rfl, rfl⟩
  · exact ⟨_, exec_supplyVWarn normal, flushInstead_getD_sup (flushInstead_isSome.mpr (.inl low))⟩
  · exact ⟨_, exec_supplyAboveVResume dip, flushInstead_getD_sup met⟩
  · exact ⟨_, exec_supplyBelowVResume resume, flushInstead_getD_sup met⟩

end Sys2Proof.Machine
end

section
/-! PROOFS. Claims of the cipher engines, their failures, and the generators (ch 11). -/

namespace Sys2Proof.Machine

open Sys2Proof

section
variable {s : State} {n : Nat}

/-! ## An engine that is granted, and one that releases blocks -/

theorem engineAt_grantEngine (n : Nat) (m : Msg) (s : State) :
    engineAt (grantEngine n m s) n = { engineAt s n with owner := some m, at_ := now s, leaving := none } :=
  engineAt_setEngine_same _ _ _

theorem engineAt_grantEngine_ne (m : Msg) {k : Nat} (other : k ≠ n) : engineAt (grantEngine n m s) k = engineAt s k :=
  engineAt_setEngine_ne _ _ _ _ other

theorem engineAt_blocksReleased (n k : Nat) (s : State) :
    engineAt (blocksReleased n k s) n = { engineAt s n with bytes := (engineAt s n).bytes + 16 * k } :=
  engineAt_setEngine_same _ _ s

theorem engineAt_blocksReleased_ne (b : Nat) {k : Nat} (other : k ≠ n) : engineAt (blocksReleased n b s) k = engineAt s k :=
  engineAt_setEngine_ne _ _ s _ other

/-- The mask requests of released blocks stop no generator (R551, R553). -/
theorem stopped_blocksReleased (n b k : Nat) : (genAt (blocksReleased n b s) k).stopped = (genAt s k).stopped := by
  by_cases same : k = n
  · subst same
    simp only [genAt, blocksReleased, tget_tset_same]
  · exact congrArg Gen.stopped (tget_tset_ne _ _ _ same)

/-! ## Claims (R546 to R548) -/

theorem exec_cipherClaim {requester keySlot tweak nextBlock blocks : Nat} {urgent encrypt : Bool} {m : Msg}
    (msg : m = { requester := requester, keySlot := keySlot, urgent := urgent, encrypt := encrypt, tweak := tweak % 2 ^ 128,
                 next := nextBlock, blocks := blocks })
    (on : cipherOn s = true) : exec (.cipherClaim requester keySlot urgent encrypt tweak nextBlock blocks) s =
      .next (guard (claimValid m) (claim m) s) := by
  subst msg
  simp only [exec, execCipherClaim, guard, on, Bool.true_and]

/-- The state in which a claim that finds no engine free is counted as one that waits. -/
def waitCounted (s : State) : State := { s with xts := { s.xts with waits := s.xts.waits + 1 } }

variable {m v : Msg}

theorem claim_free (free : freeEngine s = some n) : claim m s = grantEngine n m s := by
  simp only [claim, free]

theorem claim_waits (full : freeEngine s = none) (no : m.urgent = false ∨ normalEngine s = none) :
    claim m s = waitClaim m (waitCounted s) := by
  unfold claim
  simp only [full]
  change (if m.urgent = true then (match normalEngine s with | some n => _ | none => _) else _) = _
  rcases no with normal | none
  · simp only [normal, Bool.false_eq_true, if_false]
    rfl
  · simp only [none]
    exact ite_self _

theorem claim_urgent (full : freeEngine s = none) (urgent : m.urgent = true) (normal : normalEngine s = some n)
    (owner : (engineAt s n).owner = some v) : claim m s = takeOver n v m (waitCounted s) := by
  have normal' : normalEngine (waitCounted s) = some n := normal
  have owner' : (engineAt (waitCounted s) n).owner = some v := owner
  unfold claim
  simp only [full, urgent, if_true]
  change (match normalEngine (waitCounted s) with | some n => _ | none => _) = _
  simp only [normal']
  change (match (engineAt (waitCounted s) n).owner with | some v => _ | none => _) = _
  simp only [owner']
  rfl

/-! ## Engines that pass to an urgent claim (R547, R550) -/

theorem takeOver_released {s : State} (out : blocksOut (engineAt s n) v (now s) = v.blocks - v.next) :
    takeOver n v m s = grantEngine n m (blocksReleased n (v.blocks - v.next) s) :=
  if_pos out

theorem takeOver_suspended (inside : blocksOut (engineAt s n) v (now s) ≠ v.blocks - v.next) :
    takeOver n v m s = setEngine n { engineAt (suspendEngine n v s) n with owner := some m, at_ := now s + 20, leaving := some v }
      (suspendEngine n v s) :=
  if_neg inside

theorem suspends_suspendEngine : (engineAt (suspendEngine n v s) n).suspends = (engineAt s n).suspends + 1 :=
  congrArg Engine.suspends (tget_tset_same ..)

theorem waiting_suspendEngine : (suspendEngine n v s).xts.waiting =
    s.xts.waiting ++ [{ v with next := v.next + blocksTaken (engineAt s n) v (now s) }] := rfl

/-! ## Waiting claims that are granted (R546, R550) -/

theorem nextClaim_mem {w : List Msg} (next : nextClaim w = some m) : m ∈ w := by
  unfold nextClaim at next
  split at next
  · next found =>
    cases next
    exact List.mem_of_find?_eq_some found
  · split at next
    · next found =>
      cases next
      exact List.mem_of_find?_eq_some found
    · exact List.mem_of_mem_head? next

theorem nextClaim_isSome {w : List Msg} (some_ : w ≠ []) : ∃ m, nextClaim w = some m := by
  unfold nextClaim
  split
  · exact ⟨_, rfl⟩
  · split
    · exact ⟨_, rfl⟩
    · exact ⟨_, List.head?_eq_some_head some_⟩

/-- A grant to the next claim, after which as many as are left may be granted. -/
theorem grantWaiting_succ {k : Nat} (free : freeEngine s = some n) (next : nextClaim s.xts.waiting = some m) :
    grantWaiting (k + 1) s =
      grantWaiting k (grantEngine n m { s with xts := { s.xts with waiting := s.xts.waiting.erase m } }) := by
  simp only [grantWaiting, free, next]

theorem grantWaiting_nothing {k : Nat} (none : freeEngine s = none ∨ nextClaim s.xts.waiting = none) : grantWaiting k s = s := by
  cases k with
  | zero => rfl
  | succ k =>
    rw [grantWaiting]
    split
    · next free next => simp [free, next] at none
    · rfl

/-- What a run of grants leads to, when each grant leads from `P` to `P`. -/
theorem grantWaiting_induct {P : State → Prop} (grant : ∀ {u n m}, freeEngine u = some n → nextClaim u.xts.waiting = some m →
    P u → P (grantEngine n m { u with xts := { u.xts with waiting := u.xts.waiting.erase m } })) (k : Nat) (h : P s) :
    P (grantWaiting k s) := by
  induction k generalizing s with
  | zero => exact h
  | succ k ih =>
    rw [grantWaiting]
    split
    · next free next => exact ih (grant free next h)
    · exact h

theorem length_waiting_grantWaiting (k : Nat) : (grantWaiting k s).xts.waiting.length ≤ s.xts.waiting.length :=
  grantWaiting_induct (P := fun u => u.xts.waiting.length ≤ s.xts.waiting.length)
    (fun _ _ le => (List.length_erase_le).trans le) k le_rfl

theorem length_waiting_grantWaiting_lt {k : Nat} (free : freeEngine s = some n) (some_ : s.xts.waiting ≠ []) :
    (grantWaiting (k + 1) s).xts.waiting.length < s.xts.waiting.length := by
  obtain ⟨m, next⟩ := nextClaim_isSome some_
  rw [grantWaiting_succ free next]
  refine (length_waiting_grantWaiting k).trans_lt ?_
  show (s.xts.waiting.erase m).length < _
  rw [List.length_erase_of_mem (nextClaim_mem next)]
  exact Nat.sub_one_lt (by simpa using some_)

theorem freeEngine_isSome (inside : n < 16) (takes : engineTakes s n = true) (free : (engineAt s n).owner = none) :
    ∃ k, freeEngine s = some k := by
  refine Option.isSome_iff_exists.mp (List.find?_isSome.mpr ⟨n, List.mem_range.mpr inside, ?_⟩)
  simp [takes, free]

/-! ## Releases (R550) -/

/-- Engine `n` as its owner's release leaves it: the bytes of the message counted, and free. -/
def freed (n : Nat) (v : Msg) (s : State) : State :=
  setEngine n { engineAt (blocksReleased n (v.blocks - v.next) s) n with owner := none } (blocksReleased n (v.blocks - v.next) s)

theorem engineAt_freed : engineAt (freed n v s) n =
    { engineAt s n with owner := none, bytes := (engineAt s n).bytes + 16 * (v.blocks - v.next) } := by
  rw [freed, engineAt_setEngine_same, engineAt_blocksReleased]

theorem engineTakes_freed : engineTakes (freed n v s) n = engineTakes s n := by
  have stopped : (genAt (freed n v s) n).stopped = (genAt s n).stopped := stopped_blocksReleased n _ n
  simp only [engineTakes, engineAt_freed, stopped]

theorem exec_cipherRelease (on : cipherOn s = true) (owner : (engineAt s n).owner = some v) :
    exec (.cipherRelease n) s = .next (grantWaiting 16 (freed n v s)) := by
  simp only [exec, execCipherRelease, guard, on, owner, if_true]
  rfl

end

/-- Settles O8: a claim is granted, waits or takes over by its equation; a release grants what waits. -/
theorem cipherClaimAndRelease : Obligations.CipherClaimAndRelease := by
  intro s requester keySlot tweak nextBlock blocks urgent encrypt m msg on
  have urgent_ : m.urgent = urgent := by rw [msg]
  have claimed := exec_cipherClaim (s := s) msg on
  refine ⟨fun valid => ?_, fun invalid => by rw [claimed, guard, invalid]; rfl, fun engine v owner empty => ?_,
    fun engine v owner inside takes some_ => ?_⟩
  · rw [guard, if_pos valid] at claimed
    refine ⟨fun n free => ?_, fun full no => ?_, fun n v full urgent' normal owner inside => ?_,
      fun n v full urgent' normal owner out => ?_⟩
    · refine ⟨_, claimed, ?_⟩
      rw [claim_free free, engineAt_grantEngine]
      exact ⟨rfl, rfl, rfl, fun k other => engineAt_grantEngine_ne m other⟩
    · refine ⟨_, claimed, ?_⟩
      rw [claim_waits full (urgent_ ▸ no)]
      exact ⟨rfl, rfl, rfl⟩
    · refine ⟨_, claimed, ?_⟩
      rw [claim_urgent full (urgent_.trans urgent') normal owner, takeOver_suspended (s := waitCounted s) inside, engineAt_setEngine_same]
      exact ⟨rfl, rfl, rfl, suspends_suspendEngine, rfl⟩
    · refine ⟨_, claimed, ?_⟩
      rw [claim_urgent full (urgent_.trans urgent') normal owner, takeOver_released (s := waitCounted s) out, engineAt_grantEngine,
        engineAt_blocksReleased]
      exact ⟨rfl, rfl, rfl, rfl⟩
  · refine ⟨_, exec_cipherRelease on owner, ?_⟩
    rw [grantWaiting_nothing (.inr (by rw [show (freed engine v s).xts.waiting = [] from empty]; rfl)), engineAt_freed]
    exact ⟨rfl, rfl⟩
  · have free : (engineAt (freed engine v s) engine).owner = none := by rw [engineAt_freed]
    obtain ⟨n, found⟩ := freeEngine_isSome inside (engineTakes_freed.trans takes) free
    exact ⟨_, exec_cipherRelease on owner, length_waiting_grantWaiting_lt found some_⟩

section
variable {s : State} {n : Nat}

/-! ## Engines that are retired (R558) -/

/-- What retirement looks at: the engine `n` while it is retired, and which engines are. -/
theorem engineAt_grantWaiting (k : Nat) (retired : (engineAt s n).retired = true) :
    engineAt (grantWaiting k s) n = engineAt s n := by
  refine grantWaiting_induct (P := fun u => engineAt u n = engineAt s n) (fun {u j m} free _ same => ?_) k rfl
  have takes : engineTakes u j = true := by
    have found := List.find?_some free
    simp only [Bool.and_eq_true] at found
    exact found.1
  have other : n ≠ j := by
    rintro rfl
    simp [engineTakes, same, retired] at takes
  exact (engineAt_grantEngine_ne (s := { u with xts := _ }) m other).trans same

theorem retired_grantEngine (j : Nat) (m : Msg) (u : State) (n : Nat) :
    (engineAt (grantEngine j m u) n).retired = (engineAt u n).retired := by
  by_cases same : n = j
  · subst same
    rw [engineAt_grantEngine]
  · rw [engineAt_grantEngine_ne m same]

theorem retired_grantWaiting (k : Nat) (n : Nat) : (engineAt (grantWaiting k s) n).retired = (engineAt s n).retired :=
  grantWaiting_induct (P := fun u => (engineAt u n).retired = (engineAt s n).retired)
    (fun _ _ same => (retired_grantEngine _ _ _ n).trans same) k rfl

theorem event_xts (code : Nat) (payload : List Nat) : (event code payload s).xts = s.xts :=
  (event_keeps (wB := [.host, .evr, .out]) (by decide)).mpr (Keeps.refl _ s) .xts (by decide)

theorem engineAt_event (code : Nat) (payload : List Nat) (n : Nat) : engineAt (event code payload s) n = engineAt s n := by
  rw [engineAt, event_xts, engineAt]

/-- One engine more is retired: one fewer is left. -/
theorem enginesLeft_of_retired {t : State} (inside : n < 16) (was : (engineAt s n).retired = false)
    (is : (engineAt t n).retired = true) (others : ∀ k, k ≠ n → (engineAt t k).retired = (engineAt s k).retired) :
    enginesLeft t + 1 = enginesLeft s := by
  have order := List.perm_cons_erase (List.mem_range.mpr inside)
  have rest : ((List.range 16).erase n).filter (fun k => !(engineAt t k).retired) =
      ((List.range 16).erase n).filter (fun k => !(engineAt s k).retired) :=
    List.filter_congr fun k mem => by rw [others k (List.nodup_range.mem_erase_iff.mp mem).1]
  rw [enginesLeft, enginesLeft, (order.filter _).length_eq, (order.filter _).length_eq, List.filter_cons_of_neg (by simp [is]),
    List.filter_cons_of_pos (by simp [was]), List.length_cons, rest]

theorem engineAt_queued (w : List Msg) (f : Nat) (s : State) (k : Nat) :
    engineAt { s with xts := { s.xts with waiting := w, lockFault := f } } k = engineAt s k := rfl

/-- A retirement strikes the engine off, and then grants what waits to engines that are free. -/
theorem retireEngine_engines {c : EngineCause} (inside : n < 16) (was : (engineAt s n).retired = false) :
    ∃ u, (engineAt u n).retired = true ∧ (engineAt u n).owner = none ∧ (engineAt u n).cause = engineCause c ∧
      (∀ k, k ≠ n → engineAt u k = engineAt s k) ∧ ∀ k, engineAt (retireEngine n c s) k = engineAt (grantWaiting 16 u) k := by
  have stays : ¬ ((engineAt s n).retired = true ∨ 16 ≤ n) := by simp [was, inside]
  unfold retireEngine
  rw [if_neg stays]
  dsimp only
  generalize hu : event 0x0802 [engineCause c] _ = u
  have same : ∀ k, engineAt u k = engineAt (setEngine n _ (blocksReleased n _ s)) k := fun k => by
    rw [← hu, engineAt_event]
    exact engineAt_queued ..
  refine ⟨u, ?_, ?_, ?_, fun k other => ?_, fun k => ?_⟩
  case refine_5 =>
    split
    · exact engineAt_event _ _ k
    · rfl
  case refine_4 => exact (same k).trans ((engineAt_setEngine_ne n _ _ k other).trans (engineAt_blocksReleased_ne _ other))
  all_goals rw [same, engineAt_setEngine_same]

theorem exec_cipherEngineRetire {c : EngineCause} (run : running s = true) (fails : engineFails s n c = true) :
    exec (.cipherEngineRetire n c) s = .next (retireEngine n c s) :=
  guarded_next run fails

/-! ## Generators and noise sources (R553 to R555) -/

theorem exec_generatorReseed (run : running s = true) (passes : noisePasses s = true) (inside : n ≤ 16)
    (due : 1048576 ≤ (genAt s n).requests ∨ (genAt s n).at_ + s.xts.reseedMs * 1000000 ≤ now s) :
    exec (.generatorReseed n) s = .next (reseed n s) :=
  guarded_next run (by simp [passes, inside, due])

theorem genAt_reseed : genAt (reseed n s) n = { requests := 0, at_ := now s, stopped := false } := tget_tset_same ..

theorem genAt_reseed_ne {k : Nat} (other : k ≠ n) : genAt (reseed n s) k = genAt s k := tget_tset_ne _ _ _ other

/-- A source that fails a test is excluded, and the test that it failed is counted (R554). -/
theorem exec_noiseSourceFail {sourceB repetition : Bool} (run : running s = true)
    (ok : (if sourceB then s.xts.bOk else s.xts.aOk) = true) : ∃ t, exec (.noiseSourceFail sourceB repetition) s = .next t ∧
      t.xts = { s.xts with aOk := s.xts.aOk && sourceB, bOk := s.xts.bOk && !sourceB, rct := s.xts.rct + b2n repetition,
                           apt := s.xts.apt + b2n (!repetition) } := by
  refine ⟨_, by simp only [exec, execNoiseSourceFail, whenRunning_next run]; rfl, ?_⟩
  simp only [ok, Bool.true_eq_false, if_false]
  split
  · rw [event_xts]
  · rw [event_xts, event_xts]

theorem exec_noiseSourceRejoin {sourceB : Bool} (run : running s = true) : exec (.noiseSourceRejoin sourceB) s =
    .next { s with xts := { s.xts with aOk := s.xts.aOk || !sourceB, bOk := s.xts.bOk || sourceB } } := by
  simp only [exec, execNoiseSourceRejoin, whenRunning_next run]

theorem exec_maskGeneratorStop (run : running s = true) (none : noisePasses s = false) (inside : n < 16)
    (worn : 2 ^ 32 ≤ (genAt s n).requests) : exec (.maskGeneratorStop n) s = .next (event 0x0801 []
      { s with xts := { s.xts with gens := tset genBlank s.xts.gens n { genAt s n with stopped := true } } }) :=
  guarded_next run (by simpa [none, inside] using worn)

end

/-- Settles O9: each row by its equation; of a retirement what it strikes off before it grants what waits. -/
theorem cipherFailures : Obligations.CipherFailures := by
  intro s engine gen run
  refine ⟨fun cause inside was fails => ?_, fun passes inside due => ?_, fun repetition ok => ?_, fun repetition ok => ?_, ?_, ?_,
    fun none inside worn => ?_⟩
  · obtain ⟨u, retired, owner, code, others, same⟩ := retireEngine_engines (c := cause) inside was
    have struck : engineAt (retireEngine engine cause s) engine = engineAt u engine :=
      (same engine).trans (engineAt_grantWaiting 16 retired)
    refine ⟨_, exec_cipherEngineRetire run fails, ?_⟩
    rw [struck]
    refine ⟨retired, owner, code, enginesLeft_of_retired inside was (struck ▸ retired) fun k other => ?_⟩
    rw [same, retired_grantWaiting, others k other]
  · exact ⟨_, exec_generatorReseed run passes inside due, genAt_reseed, rfl, fun k other => genAt_reseed_ne other⟩
  · obtain ⟨t, ht, xts⟩ := exec_noiseSourceFail (sourceB := false) (repetition := repetition) run ok
    exact ⟨t, ht, by simp [xts]⟩
  · obtain ⟨t, ht, xts⟩ := exec_noiseSourceFail (sourceB := true) (repetition := repetition) run ok
    exact ⟨t, ht, by simp [xts]⟩
  · exact ⟨_, exec_noiseSourceRejoin run, by simp⟩
  · exact ⟨_, exec_noiseSourceRejoin run, by simp⟩
  · refine ⟨_, exec_maskGeneratorStop run none inside worn, ?_⟩
    have gens {k} := congrArg (fun x : Cipher => tget genBlank x.gens k) (event_xts (s := { s with xts := { s.xts with
      gens := tset genBlank s.xts.gens gen { genAt s gen with stopped := true } } }) 0x0801 [])
    exact ⟨congrArg Gen.stopped (gens.trans (tget_tset_same ..)), fun k other => gens.trans (tget_tset_ne _ _ _ other)⟩

end Sys2Proof.Machine
end

section
/-! PROOFS. A module that is frozen or has no supply (R563, R647). -/

namespace Sys2Proof.Machine

open Sys2Proof

/-- What a command that needs the part running comes to on one that does not run (log entry 3). -/
theorem next_of_stopped {s t : State} (stopped : running s = false) :
    (Host.Outcome.next (if running s = true then t else s) : R) = .next s := by
  rw [stopped, if_neg Bool.false_ne_true]

/-- Settles O56: the meaning of each such command is one that needs the part running. -/
theorem aStoppedModuleIgnoresCommands : Obligations.AStoppedModuleIgnoresCommands := by
  intro c s only stopped
  cases c
  case bankMeasurement | bankFault | bankFaultRetry | bankBelow35v | bankBelow2v | bankCharged | healthStale | cipherClaim
    | cipherRelease | supplyVWarn | supplyAboveVResume | supplyBelowVResume | resumeHoldEnd | supplyVBor | dipTimeout | supplyHigh
    | flushComplete | bankExhausted | supplyAbove7v | supplyBelow7v | coldStart | sidebandIdentityRead | sidebandStatusRead
    | smbusRecoveryWrite | smbusRecoveryCommit | smbusRecoveryStatus | freezeEntry | thaw | frzStatus | frzChain | frzMem
    | slotBoundary => cases only
  all_goals exact next_of_stopped stopped

end Sys2Proof.Machine
end

section
/-! PROOFS. What the write of a page may change of the power block, the freeze port and the update. -/

namespace Sys2Proof.Machine

open Sys2Proof

section
variable {s u : State} {page n v : Nat}

/-- The parts that a page's write may change, but for the power block, the freeze port and the update. -/
def pageParts : List Area :=
  [.clk, .cores, .buf, .nss, .ante, .host, .lanes, .wake, .fab, .fabc, .idx, .cam, .med, .mem, .xts, .evr, .ist, .out, .draws]

/-- The write of `v` to a page has led from `s` to `u`: by one of the three pages that lay fields of the power block, of the update
and of the freeze port, or by another page, which leaves these three as they are. -/
def PageWritten (s : State) (v : Nat) (u : State) : Prop :=
  write0a00 s v = some u ∨ write0b00 s v = some u ∨ write0b03 s v = some u ∨ Keeps pageParts s u

theorem PageWritten.other (k : Keeps pageParts s u ↔ Keeps pageParts s s) : PageWritten s v u :=
  .inr (.inr (.inr (k.mpr (Keeps.refl _ s))))

theorem pageWriteLast_written (e : pageWriteLast s page n v = some u) : PageWritten s v u := by
  unfold pageWriteLast at e
  split at e
  · exact .other (write0800_keeps e (by decide))
  · exact .other (write0900_keeps e (by decide))
  · exact .other (write0901_keeps e (by decide))
  · exact .inl e
  · exact .inr (.inl e)
  · exact .other (write0b01_keeps e (by decide))
  · exact .other (write0b02_keeps e (by decide))
  · exact .inr (.inr (.inl e))
  · cases e
    exact .other Iff.rfl

theorem pageWriteIndex_written (e : pageWriteIndex s page n v = some u) : PageWritten s v u := by
  unfold pageWriteIndex at e
  split at e
  · exact .other (write0600_keeps e (by decide))
  · exact .other (write0601_keeps e (by decide))
  · exact .other (write0602_keeps e (by decide))
  · exact .other (write0700_keeps e (by decide))
  · exact .other (write0701_keeps e (by decide))
  · exact pageWriteLast_written e

theorem pageWriteFabric_written (e : pageWriteFabric s page n v = some u) : PageWritten s v u := by
  unfold pageWriteFabric at e
  split at e
  · exact .other (write0500_keeps e (by decide))
  · exact .other (write0502_keeps e (by decide))
  · exact .other (write0503_keeps e (by decide))
  · exact .other (write0504_keeps e (by decide))
  · exact .other (write0505_keeps e (by decide))
  · exact pageWriteIndex_written e

/-- Of the pages, 0x0A00, 0x0B00 and 0x0B03 alone lay anything of the power block, the update and the freeze port. -/
theorem pageWrite_written (e : pageWrite s page n v = some u) : PageWritten s v u := by
  unfold pageWrite at e
  split at e
  · exact .other (write0104_keeps e (by decide))
  · exact .other (write0105_keeps e (by decide))
  · exact .other (write0106_keeps e (by decide))
  · exact .other (write0107_keeps e (by decide))
  · exact .other (write0201_keeps e (by decide))
  · exact .other (write0300_keeps e (by decide))
  · exact .other (write0301_keeps e (by decide))
  · exact .other (write0302_keeps e (by decide))
  · exact .other (write0400_keeps e (by decide))
  · exact .other (write0401_keeps e (by decide))
  · exact pageWriteFabric_written e

end
end Sys2Proof.Machine
end

section
/-! PROOFS. The hold-up bank: its faults, measurements and retries, low voltages and the kitty target (ch 12). -/

namespace Sys2Proof.Machine

open Sys2Proof

section
variable {s : State} {p : Power} {m : BankMeasure} {mv : Nat} {e : Nat}

/-! ## The kitty target (R580, R582) -/

theorem pwr_event (code : Nat) (payload : List Nat) (s : State) : (event code payload s).pwr = s.pwr :=
  (event_keeps (wB := [.host, .evr, .out]) (by decide)).mpr (Keeps.refl _ s) .pwr (by decide)

theorem pwr_raiseAll (b : Nat) (s : State) : (raiseAll b s).pwr = s.pwr :=
  (raiseAll_keeps (wB := [.host, .out]) (by decide)).mpr (Keeps.refl _ s) .pwr (by decide)

/-- The power block with its kitty target and kitty cap laid anew. -/
def retargeted (p : Power) : Power :=
  { p with target := kittyTarget p, cap := kittyCap { p with target := kittyTarget p } }

theorem pwr_retarget (s : State) : (retarget s).pwr = retargeted s.pwr := by
  unfold retarget
  dsimp only
  split
  · rfl
  · rw [pwr_raiseAll, pwr_event]
    rfl

theorem target_of_fault (fault : p.fault ≠ 0) : (retargeted p).target = 0 :=
  if_pos (.inr (.inl fault))

theorem target_of_low (low : p.low = true) : (retargeted p).target = 0 :=
  if_pos (.inr (.inr (.inl low)))

/-- Stale health leaves at most 1 GiB of kitty (R575). -/
theorem target_of_stale (stale : p.stale = true) : (retargeted p).target ≤ gib := by
  change kittyTarget p ≤ gib
  simp only [kittyTarget, stale, if_true]
  split
  · exact Nat.zero_le _
  · exact (Nat.min_le_right _ _).trans (Nat.min_le_right _ _)

/-! ## Faults and measurements -/

theorem pwr_bankFaulted (code : Nat) (s : State) : (bankFaulted code s).pwr =
    retargeted { s.pwr with fault := code, faultAt := now s, charger := false, measuring := false } := by
  unfold bankFaulted
  rw [pwr_retarget, pwr_event]

/-- What a measurement that ends leaves of the power block. -/
theorem pwr_measured (m : BankMeasure) (s : State) : ∃ l, (measured m s).pwr =
    retargeted { s.pwr with
      valid := true, stale := false, fault := 0, measuring := false, charger := decide (s.pwr.sup = .normal),
      chargeFrom := now s, wanted := false, health := healthPct (capOf m) (esrOf m), limit := l, capUf := capOf m,
      esr := esrOf m, availMj := availMj (capOf m) (esrOf m), measAt := now s, meas := s.pwr.meas + 1 } := by
  refine ⟨if s.pwr.valid then limitAfter s.pwr.limit (healthPct (capOf m) (esrOf m))
    else healthLimit (healthPct (capOf m) (esrOf m)), ?_⟩
  unfold measured
  dsimp only
  rw [pwr_retarget]
  split
  · rw [pwr_event]
  · rfl

/-! ## The events -/

theorem exec_bankFault {kind : BankFaultKind} (on : watching s = true) (seen : faultSeen s mv kind = true) :
    exec (.bankFault kind mv) s =
      .next (bankFaulted (bankFaultCode kind) { s with pwr := { s.pwr with bankMv := mv } }) := by
  simp only [exec, execBankFault, guard, on, seen, Bool.and_self, if_true]

theorem exec_bankMeasurement {res : Option BankMeasure} (on : watching s = true) (going : s.pwr.measuring = true) :
    exec (.bankMeasurement res) s = .next (endMeasure res s) := by
  simp only [exec, execBankMeasurement, guard, on, going, Bool.and_self, if_true]

theorem exec_bankFaultRetry {res : Option BankMeasure}
    (due : s.pwr.sup = .normal ∧ s.pwr.fault ≠ 0 ∧ s.pwr.faultAt + 10000000000 ≤ now s) :
    exec (.bankFaultRetry res) s = .next (match res with
      | some m => measured m s
      | none => { s with pwr := { s.pwr with faultAt := now s, meas := s.pwr.meas + 1 } }) :=
  congrArg Host.Outcome.next (if_pos (decide_eq_true due))

theorem exec_bankBelow35v (on : watching s = true) (idle : s.pwr.measuring = false) (low : mv < 35000) :
    exec (.bankBelow35v mv) s =
      .next (retarget { s with pwr := { s.pwr with low := true, valid := false, bankMv := mv } }) := by
  simp only [exec, execBankBelow35v, guard, on, idle, decide_eq_true low, Bool.not_false, Bool.and_self, if_true]

theorem exec_bankBelow2v (on : watching s = true) (idle : s.pwr.measuring = false) (low : mv < 2000) :
    exec (.bankBelow2v mv) s = .next (retarget { s with pwr :=
      { s.pwr with low := true, valid := false, bankMv := mv, chargeFrom := now s,
                   charger := decide (s.pwr.fault = 0 ∧ s.pwr.sup = .normal) } }) := by
  simp only [exec, execBankBelow2v, guard, on, idle, decide_eq_true low, Bool.not_false, Bool.and_self, if_true]

/-- The state in which the bank's voltage has been noted as high enough (R574). -/
def recharged (mv : Nat) (s : State) : State := { s with pwr := { s.pwr with low := false, bankMv := mv } }

theorem exec_bankCharged (on : watching s = true) (full : 35500 ≤ mv) (unmeasured : s.pwr.valid = false) (sound : s.pwr.fault = 0) :
    exec (.bankCharged mv) s = .next (if s.boot.stage < 4 ∧ s.pwr.sup = .normal then beginMeasure (retarget (recharged mv s))
      else retarget { s with pwr := { s.pwr with low := false, bankMv := mv, wanted := true } }) := by
  simp only [exec, execBankCharged, guard, on, decide_eq_true full, Bool.and_self, if_true]
  rw [if_neg (by simp only [unmeasured, sound, Bool.false_eq_true, ne_eq, not_true, or_self, not_false_eq_true])]
  rfl

theorem exec_healthStale (on : watching s = true) (due : s.pwr.measAt + 2 * s.pwr.healthH * 3600000000000 ≤ now s) :
    exec .healthStale s = .next (retarget { s with pwr := { s.pwr with stale := true } }) := by
  simp only [exec, execHealthStale, guard, on, decide_eq_true due, Bool.and_self, if_true]

theorem exec_flushSetErase_a (run : running s = true) (erasing : s.pwr.aErase = some e) (ended : e ≤ now s) :
    exec (.flushSetErase false) s = .next (retarget { s with pwr := { s.pwr with aReady := true, aErase := none } }) := by
  simp only [exec, execFlushSetErase, whenRunning_next run, erasing, guard, decide_eq_true ended, if_true, Bool.false_eq_true, if_false]

theorem exec_flushSetErase_b (run : running s = true) (erasing : s.pwr.bErase = some e) (ended : e ≤ now s) :
    exec (.flushSetErase true) s = .next (retarget { s with pwr := { s.pwr with bReady := true, bErase := none } }) := by
  simp only [exec, execFlushSetErase, whenRunning_next run, erasing, guard, decide_eq_true ended, if_true]

end

/-- Settles O6: each event lays its own fields of the power block, and the kitty target is computed from them after it. -/
theorem holdUpBankEvents : Obligations.HoldUpBankEvents := by
  intro s mv m on
  refine ⟨fun kind seen => ?_, fun going => ?_, fun going => ?_, fun normal faulty due => ?_, fun normal faulty due => ?_,
    fun idle low => ?_, fun idle low => ?_, fun unmeasured sound early normal full => ?_, fun unmeasured sound late full => ?_,
    fun due => ?_, fun e run erasing ended => ?_, fun e run erasing ended => ?_⟩
  · refine ⟨_, exec_bankFault on seen, ?_⟩
    rw [pwr_bankFaulted]
    have fault : bankFaultCode kind ≠ 0 := by cases kind <;> decide
    exact ⟨rfl, rfl, rfl, rfl, target_of_fault fault, rfl⟩
  · refine ⟨_, exec_bankMeasurement on going, ?_⟩
    obtain ⟨l, pwr⟩ := pwr_measured m s
    rw [endMeasure, pwr]
    exact ⟨rfl, rfl, rfl, rfl, rfl, rfl, rfl, rfl, rfl⟩
  · refine ⟨_, exec_bankMeasurement on going, ?_⟩
    rw [endMeasure, pwr_bankFaulted]
    exact ⟨rfl, target_of_fault (Nat.succ_ne_zero 4), rfl⟩
  · refine ⟨_, exec_bankFaultRetry ⟨normal, faulty, due⟩, ?_⟩
    obtain ⟨l, pwr⟩ := pwr_measured m s
    rw [pwr]
    exact ⟨rfl, rfl, decide_eq_true normal⟩
  · exact ⟨_, exec_bankFaultRetry ⟨normal, faulty, due⟩, rfl, rfl, rfl⟩
  · refine ⟨_, exec_bankBelow35v on idle low, ?_⟩
    rw [pwr_retarget]
    exact ⟨target_of_low rfl, rfl, rfl, rfl⟩
  · refine ⟨_, exec_bankBelow2v on idle low, ?_⟩
    rw [pwr_retarget]
    exact ⟨target_of_low rfl, rfl, rfl, rfl⟩
  · refine ⟨_, exec_bankCharged on full unmeasured sound, ?_⟩
    rw [if_pos ⟨early, normal⟩]
    unfold beginMeasure
    rw [pwr_retarget]
    exact ⟨rfl, rfl, rfl⟩
  · refine ⟨_, exec_bankCharged on full unmeasured sound, ?_⟩
    rw [if_neg (fun h => Nat.not_lt.mpr late h.1), pwr_retarget]
    exact ⟨rfl, rfl, rfl⟩
  · refine ⟨_, exec_healthStale on due, ?_⟩
    rw [pwr_retarget]
    exact ⟨rfl, target_of_stale rfl⟩
  · refine ⟨_, exec_flushSetErase_a run erasing ended, ?_⟩
    rw [pwr_retarget]
    exact ⟨rfl, rfl, rfl⟩
  · refine ⟨_, exec_flushSetErase_b run erasing ended, ?_⟩
    rw [pwr_retarget]
    exact ⟨rfl, rfl, rfl⟩

end Sys2Proof.Machine
end

section
/-! PROOFS. Event records that reach the store, and the slices of the in-service tests (ch 14). -/

namespace Sys2Proof.Machine

open Sys2Proof

section
variable {s u : State} {r : EvRec} {m : MaintResv}

/-! ## The recorder's writes (R626, R630) -/

theorem startWrite_due {rest : List EvRec} (free : s.evr.writing = none) (head : s.evr.pending = r :: rest)
    (room : s.evr.stopFull = false) (due : r.until_ ≤ now s) :
    startWrite s = { s with evr := { s.evr with pending := rest, writing := some r } } := by
  simp only [startWrite, free, head, room, due, if_true, Bool.false_eq_true, false_and, if_false]

theorem startWrite_held {rest : List EvRec} (free : s.evr.writing = none) (head : s.evr.pending = r :: rest)
    (held : now s < r.until_) : startWrite s = s := by
  simp only [startWrite, free, head, Nat.not_le.mpr held, if_false]

theorem evr_warn (s : State) : (warn s).evr = s.evr :=
  (warn_keeps (wB := [.host, .out]) (by decide)).mpr (Keeps.refl _ s) .evr (by decide)

theorem store_dropped (gone : List EvRec) (e : Recorder) :
    (gone.foldl (fun e x => countDrop x.sev e) e).store = e.store := by
  induction gone generalizing e with
  | nil => rfl
  | cons x gone ih => exact ih _

/-- A write that begins changes nothing that the store holds. -/
theorem store_startWrite (s : State) : (startWrite s).evr.store = s.evr.store := by
  unfold startWrite
  split
  · split
    · split
      · rw [evr_warn]
        exact store_dropped _ _
      · rfl
    · rfl
  · rfl

theorem store_displace (need n : Nat) (e : Recorder) : (displace need n e).store = e.store := by
  induction n generalizing e with
  | zero => rfl
  | succ n ih =>
    rw [displace]
    split
    · rfl
    · split
      · rfl
      · exact ih _

/-- A record that is queued waits in the pending buffer: the store stays as it is. -/
theorem store_enqueue (r : EvRec) (s : State) : (enqueue r s).evr.store = s.evr.store := by
  unfold enqueue
  extract_lets e ends q r' s1
  have displaced : e.store = s.evr.store := by
    dsimp only [e]
    split
    · exact store_displace ..
    · rfl
  have queued : s1.evr.store = s.evr.store := (store_startWrite _).trans displaced
  split
  · rfl
  split
  · exact displaced
  split
  · rw [evr_warn, queued]
  · exact queued

theorem store_reportDrops (s : State) : (reportDrops s).evr.store = s.evr.store := by
  unfold reportDrops
  split
  · rfl
  · exact store_enqueue _ _

/-- A record that fits the sector is stored in it. -/
theorem storeRecord_fits {e : Recorder} (fits : sectorBytes e e.sector + recBytes r ≤ 65536) :
    storeRecord r e = { e with store := e.store ++ [(e.sector, r)] } := by
  unfold storeRecord
  rw [if_neg (Nat.not_lt.mpr fits)]

theorem store_writeDone (writes : s.evr.writing = some r)
    (fits : sectorBytes s.evr s.evr.sector + recBytes r ≤ 65536) :
    (writeDone s).evr.store = s.evr.store ++ [(s.evr.sector, r)] := by
  simp only [writeDone, writes]
  rw [storeRecord_fits (e := { s.evr with writing := none }) fits, store_startWrite, store_reportDrops]

/-! ## Test slices (R640, R641) -/

theorem ist_event (code : Nat) (payload : List Nat) (s : State) : (event code payload s).ist = s.ist :=
  (event_keeps (wB := [.host, .evr, .out]) (by decide)).mpr (Keeps.refl _ s) .ist (by decide)

theorem ist_endMeasure (res : Option BankMeasure) (s : State) : (endMeasure res s).ist = s.ist :=
  (endMeasure_keeps (wB := [.host, .pwr, .evr, .out]) (by decide)).mpr (Keeps.refl _ s) .ist (by decide)

theorem ist_testFailed (t i c : Nat) (s : State) : (testFailed t i c s).ist = s.ist :=
  (testFailed_keeps (wB := [.cores, .dlr, .ante, .host, .med, .mem, .xts, .pwr, .upd, .evr, .out, .draws]) (by decide)).mpr
    (Keeps.refl _ s) .ist (by decide)

/-- A test that has run, whatever it found: when, and that it is no longer overdue. -/
theorem ist_testRan (t i : Nat) (res : TestResult) (measure : Option BankMeasure) (s : State) :
    (testRan t i res measure s).ist.lastRun = tput s.ist.lastRun t (now s) ∧
    (testRan t i res measure s).ist.runAt = tput s.ist.runAt (t * 1024 + i) s.clk.opNs ∧
    (testRan t i res measure s).ist.overdue = s.ist.overdue.filter (fun k => decide (k ≠ t * 1024 + i)) ∧
    (testRan t i res measure s).ist.draining = s.ist.draining := by
  unfold testRan
  extract_lets cause _ s1 s2
  clear_value cause
  have ran : s2.ist = s1.ist := by
    dsimp only [s2]
    split
    · exact ist_endMeasure _ _
    · rfl
  split
  · rw [ran]
    exact ⟨rfl, rfl, rfl, rfl⟩
  · rw [ist_testFailed, ist_event]
    exact ⟨(congrArg Ist.lastRun ran :), (congrArg Ist.runAt ran :), (congrArg Ist.overdue ran :),
      (congrArg Ist.draining ran :)⟩

/-- A placed slice that has run to its end notes when its test ran (R640). -/
theorem endSlice_notes {res : TestResult} {measure : Option BankMeasure}
    (can : testable s (m.target / 1024) (m.target % 1024) = true) :
    tfind (endSlice m res measure s).ist.lastRun (m.target / 1024) = some (now s) ∧
    tfind (endSlice m res measure s).ist.runAt m.target = some s.clk.opNs ∧
    m.target ∉ (endSlice m res measure s).ist.overdue ∧ (endSlice m res measure s).ist.draining = none := by
  obtain ⟨last, at_, overdue, draining⟩ := ist_testRan (m.target / 1024) (m.target % 1024) res measure
    (dropMaint m.id { s with ist := { s.ist with draining := none } })
  have ends : endSlice m res measure s = testRan (m.target / 1024) (m.target % 1024) res measure
      (dropMaint m.id { s with ist := { s.ist with draining := none } }) := if_pos can
  rw [ends, last, at_, overdue, draining, Nat.div_add_mod']
  exact ⟨tfind_tput_same .., tfind_tput_same .., by simp, rfl⟩

/-- A slice that is taken is the one that stands placed. -/
theorem placedSlice_takeSlice {target inst : Nat} (free : placedSlice s = none) (taken : takeSlice target inst s = some u) :
    (placedSlice u).map (·.target) = some (target * 1024 + inst) := by
  obtain ⟨k, -, rfl⟩ := Option.map_eq_some_iff.mp taken
  unfold placedSlice at free ⊢
  rw [List.find?_append, free]
  rfl

/-! ## The slice's event -/

section
variable {res : TestResult} {measure : Option BankMeasure} (run : running s = true)
  (idle : s.boot.stage = 4 ∧ s.pwr.state = 0 ∧ s.pwr.sup = .normal) (quiet : searching s = false)
include run idle quiet

theorem exec_istSlice_ends (placed : placedSlice s = some m) (ended : m.first + m.slots ≤ slotOf (now s))
    (free : m.target / 1024 = 2 → coreBusy s (m.target % 1024) = false) :
    exec (.istSlice res measure) s = .next (endSlice m res measure s) := by
  have late : ¬(slotOf (now s) < m.first + m.slots ∨ (m.target / 1024 = 2 ∧ coreBusy s (m.target % 1024) = true)) := by
    rintro (early | ⟨core, busy⟩)
    · exact Nat.not_le.mpr early ended
    · exact Bool.noConfusion (busy.symm.trans (free core))
  simp only [exec, execIstSlice, whenRunning_next run, guard, decide_eq_true idle, quiet, Bool.not_false, Bool.and_self, if_true,
    placed, if_neg late]

theorem exec_istSlice_takes {at_ target inst : Nat} (free : placedSlice s = none)
    (most : mostOverdue (dueTests s) = some (at_, target, inst)) (taken : takeSlice target inst s = some u) :
    exec (.istSlice res measure) s = .next u := by
  simp only [exec, execIstSlice, whenRunning_next run, guard, decide_eq_true idle, quiet, Bool.not_false, Bool.and_self, if_true,
    free, most, taken, Option.getD_some]

theorem exec_istSlice_rests (free : placedSlice s = none) (none : dueTests s = []) :
    exec (.istSlice res measure) s = .next s := by
  simp only [exec, execIstSlice, whenRunning_next run, guard, decide_eq_true idle, quiet, Bool.not_false, Bool.and_self, if_true,
    free, none, mostOverdue]

end

/-- Settles O45: what is written is the head of the queue, and no later step of the row touches the store or the test's notes. -/
theorem eventsAreStoredAndTestsRun : Obligations.EventsAreStoredAndTestsRun := by
  intro s run
  refine ⟨fun r rest rom free head room => ⟨fun due => ?_, fun held => ?_⟩, fun r writes fits => ?_, fun free => ?_,
    fun res measure stage power sup quiet => ⟨fun m placed ended free can => ?_, fun at_ target inst u free most taken => ?_,
      fun free none => ?_⟩, fun target inst test unit set_ late fresh => ?_⟩
  · refine ⟨_, guarded_next run (by simp only [rom, Bool.not_false]), ?_⟩
    rw [startWrite_due free head room due]
  · exact (guarded_next run (by simp only [rom, Bool.not_false])).trans (congrArg _ (startWrite_held free head held))
  · exact ⟨_, whenRunning_next run, store_writeDone writes fits⟩
  · exact (whenRunning_next run).trans (by simp only [writeDone, free])
  · exact ⟨_, exec_istSlice_ends run ⟨stage, power, sup⟩ quiet placed ended free, endSlice_notes can⟩
  · exact ⟨exec_istSlice_takes run ⟨stage, power, sup⟩ quiet free most taken, placedSlice_takeSlice free taken⟩
  · exact exec_istSlice_rests run ⟨stage, power, sup⟩ quiet free none
  · exact ⟨_, guarded_next run (decide_eq_true ⟨test, unit, set_, late, fresh⟩), ist_event ..⟩

end
end Sys2Proof.Machine
end

section
/-! PROOFS. The staging of an update (ch 13). -/

namespace Sys2Proof.Machine

open Sys2Proof

section
variable {s u : State} {b code st : Nat} {x : Mailbox} {out : Bytes} {f : Mailbox → State → Nat × Bytes × State}

/-- A command of the update answers what its row works out, and notes the status in the last result (R619). -/
theorem updateRow_next (runs : boxRuns s b x code true) : ∃ t, updateRow b code f s = .next t ∧
    boxSays t b (f x (boxTaken s)).1 (f x (boxTaken s)).2.1 ∧
    t.upd = { (f x (boxTaken s)).2.2.upd with last := (f x (boxTaken s)).1 } :=
  ⟨_, takeBox_runs _ runs, finishBox_says .., finishBox_same _ _ _ _ (a := .upd) (by decide)⟩

theorem upd_boxTaken (s : State) : (boxTaken s).upd = s.upd := rfl

theorem judge_boxTaken (s : State) (d : Bytes) : judge (boxTaken s) d = judge s d := rfl

theorem activeSlot_setOther (y : Slot) (v : Update) : activeSlot (setOther y v) = activeSlot v := by
  by_cases onB : v.activeB = true <;> simp [setOther, activeSlot, onB]

theorem otherSlot_setOther (y : Slot) (v : Update) : otherSlot (setOther y v) = y := by
  by_cases onB : v.activeB = true <;> simp [setOther, otherSlot, onB]

/-- Of the other slot alone is anything set. -/
theorem setOther_rest (y : Slot) (v : Update) : (setOther y v).state = v.state ∧ (setOther y v).man = v.man ∧
    (setOther y v).image = v.image ∧ (setOther y v).received = v.received := by
  unfold setOther
  split <;> exact ⟨rfl, rfl, rfl, rfl⟩

end

/-- Settles O46: every row answers through `updateRow`, which notes the status, and its own change comes before that. -/
theorem updateIsStaged : Obligations.UpdateIsStaged := by
  rintro s b x m rfl
  refine ⟨fun runs => ⟨?_, fun refused => ?_⟩, ?_, fun runs receiving => ?_, fun runs => ?_⟩
  · rintro d rfl idle off
    obtain ⟨t, next, said, upd⟩ := (updateRow_next runs : ∃ t, exec (.updateBegin b) s = .next t ∧ _)
    have free : ¬(s.upd.state ≠ .idle ∨ s.upd.trial = true) := by simp [idle, off]
    simp only [upd_boxTaken, judge_boxTaken, free, if_false] at said upd
    by_cases good : judge s (boxInput x x.inLen) = stOk
    · simp only [good, if_true] at said upd
      obtain ⟨state, man, image, received⟩ := setOther_rest {} { s.upd with
        state := .receiving, man := manifestOf (boxInput x x.inLen), image := [], received := 0 }
      rw [good]
      refine ⟨t, next, said, ?_⟩
      rw [upd]
      exact ⟨fun _ => ⟨state, man, image, received, rfl, activeSlot_setOther .., otherSlot_setOther ..⟩,
        fun bad => absurd rfl bad⟩
    · simp only [good, if_false] at said upd
      exact ⟨t, next, said, fun ok => absurd ok good, fun _ => upd⟩
  · obtain ⟨t, next, said, upd⟩ := (updateRow_next runs : ∃ t, exec (.updateBegin b) s = .next t ∧ _)
    simp only [upd_boxTaken, refused, if_true] at said upd
    exact ⟨t, next, said, upd⟩
  · rintro runs off d rfl rfl
    obtain ⟨t, next, said, upd⟩ := (updateRow_next runs : ∃ t, exec (.updateData b) s = .next t ∧ _)
    refine ⟨fun receiving head low high => ⟨t, next, ?_⟩, fun receiving outside => ⟨t, next, ?_⟩, fun other => ⟨t, next, ?_⟩⟩
    · have inside : ¬(x.inLen < 8 ∨ leAt (boxInput x x.inLen) 0 8 < s.upd.man.size ∨
          s.upd.man.length < leAt (boxInput x x.inLen) 0 8 + ((boxInput x x.inLen).drop 8).length) := by omega
      simp only [upd_boxTaken, receiving, ne_eq, not_true, if_false, inside] at said upd
      rw [upd]
      exact ⟨said, rfl, rfl, rfl⟩
    · simp only [upd_boxTaken, receiving, ne_eq, not_true, if_false, Or.inr outside, if_true] at said upd
      exact ⟨said, upd.trans (by dsimp only; rw [receiving])⟩
    · simp only [upd_boxTaken, other, ne_eq, not_false_eq_true, if_true] at said upd
      exact ⟨said, upd⟩
  · obtain ⟨t, next, said, upd⟩ := (updateRow_next runs : ∃ t, exec (.updateFinish b) s = .next t ∧ _)
    simp only [upd_boxTaken, receiving, ne_eq, not_true, if_false] at said upd
    refine ⟨fun whole holds => ⟨t, next, ?_⟩, fun whole fails => ⟨t, next, ?_⟩, fun short => ⟨t, next, ?_⟩⟩
    · simp only [whole, holds, Bool.true_eq_false, if_false] at said upd
      rw [upd]
      exact ⟨said, (setOther_rest ..).1, activeSlot_setOther .., otherSlot_setOther ..⟩
    · simp only [whole, fails, Bool.true_eq_false, if_false, if_true] at said upd
      exact ⟨said, by rw [upd]⟩
    · simp only [short, if_true] at said upd
      exact ⟨said, upd⟩
  · exact ⟨_, takeBox_runs _ runs, finishBox_says .., finishBox_same _ _ _ _ (a := .upd) (by decide)⟩

end Sys2Proof.Machine
end

section
/-! PROOFS. The activation of an update, its trial, and the end of it (ch 13). -/

namespace Sys2Proof.Machine

open Sys2Proof

section
variable {s u : State} {b code page n v cause : Nat} {inp : BootInput} {x : Mailbox} {m : MaintResv}

/-! ## The boot record (R607) -/

/-- A record that is written again changes its sequence and the older record alone. -/
theorem recorded_eq (u v : Update) : ∃ old seq, recorded u v = { v with older := old, recSeq := seq } := by
  unfold recorded
  split
  · exact ⟨v.older, v.recSeq, rfl⟩
  · exact ⟨_, _, rfl⟩

/-- What says from which slot the module boots: the active slot, the boots that have failed, and whether both slots are bad. -/
def bootsFrom (u : Update) : Bool × Nat × Bool := (u.activeB, u.fails, u.bothBad)

theorem bootsFrom_recorded (u v : Update) : bootsFrom (recorded u v) = bootsFrom v := by
  obtain ⟨_, _, e⟩ := recorded_eq u v
  rw [e]
  rfl

/-! ## The pages of a trial leave the choice of the slot (R606, R609) -/

theorem bootsFrom_pageWrite (e : pageWrite s page n v = some u) : bootsFrom u.upd = bootsFrom s.upd := by
  rcases pageWrite_written e with power | auto | frozen | other
  · exact congrArg bootsFrom ((write0a00_keeps (wB := [.host, .pwr, .evr, .out]) power (by decide)).mpr (Keeps.refl _ s) .upd (by decide))
  · exact pageIf_eq auto ▸ rfl
  · exact congrArg bootsFrom ((write0b03_keeps (wB := [.frz]) frozen (by decide)).mpr (Keeps.refl _ s) .upd (by decide))
  · exact congrArg bootsFrom (other .upd (by decide))

theorem bootsFrom_pagePut (page v : Nat) (s : State) : bootsFrom (pagePut page v s).upd = bootsFrom s.upd := by
  unfold pagePut
  split
  · next e => exact bootsFrom_pageWrite e
  · rfl

theorem bootsFrom_each {α : Type} {f : α → State → State} (same : ∀ y u, bootsFrom (f y u).upd = bootsFrom u.upd) (l : List α)
    (s : State) : bootsFrom (each f l s).upd = bootsFrom s.upd := by
  induction l generalizing s with
  | nil => rfl
  | cons y l ih => exact (ih _).trans (same y s)

theorem bootsFrom_beginTrial (s : State) : bootsFrom (beginTrial s).upd = bootsFrom s.upd :=
  bootsFrom_each (f := fun p : Nat × Nat => resetPage p.1 p.2) (fun p u => bootsFrom_pagePut p.1 (pageRead State.reset p.1 0) u)
    (changedPages s s.upd.man) { s with upd := { s.upd with
      reset := [], saved := savedPages s ((changedPages s s.upd.man).map (·.1)) } }

theorem bootsFrom_rollbackPages (s : State) : bootsFrom (rollbackPages s).upd = bootsFrom s.upd := by
  unfold rollbackPages
  exact bootsFrom_each (fun _ => bootsFrom_pagePut _ _) s.upd.saved s

/-! ## Windows -/

theorem upd_dropWindow (placed : placedWindow s = some m) : (dropWindow s).upd = { s.upd with window := none } := by
  unfold dropWindow
  rw [placed]
  rfl

theorem dropWindow_state (s : State) : (dropWindow s).upd.state = s.upd.state ∧ (dropWindow s).upd.last = s.upd.last := by
  unfold dropWindow
  split <;> exact ⟨rfl, rfl⟩

theorem upd_raiseAll (k : Nat) (s : State) : (raiseAll k s).upd = s.upd :=
  (raiseAll_keeps (wB := [.host, .out]) (by decide)).mpr (Keeps.refl _ s) .upd (by decide)

/-! ## Boots that fail (R612) -/

theorem coldStart_upd (cause : Nat) (inp : BootInput) (s : State) : (coldStart cause inp s).upd = updateAtStart (updateLoss s.upd) :=
  (followAlert_same (p := .upd) (by decide) _).trans
    (congrArg (fun u => updateAtStart (updateLoss u)) (rolesAtStart_same (p := .upd) (by decide) s))

theorem bootsFrom_updateLoss (u : Update) : bootsFrom (updateLoss u) = bootsFrom u := by
  unfold updateLoss
  split
  · simp only [dropOther]
    split <;> rfl
  · split <;> rfl
  · rfl
  · rfl
  · rfl
  · rfl

theorem bootsFrom_coldStart (cause : Nat) (inp : BootInput) (s : State) : bootsFrom (coldStart cause inp s).upd = bootsFrom s.upd := by
  rw [coldStart_upd]
  exact bootsFrom_updateLoss s.upd

theorem writePending_same {a : Area} (ha : a ∉ [Area.host, .evr, .out]) (s : State) : same a s (writePending s) :=
  (writePending_keeps (by decide)).mpr (Keeps.refl _ s) a ha

theorem event_same {a : Area} (ha : a ∉ [Area.host, .evr, .out]) (code : Nat) (payload : List Nat) (s : State) :
    same a s (event code payload s) :=
  (event_keeps (by decide)).mpr (Keeps.refl _ s) a ha

/-- The boot record after one boot more that has failed. -/
def failedOnce (s : State) : Update := recorded s.upd { s.upd with fails := s.upd.fails + 1, trialAt := s.clk.opNs }

theorem bootsFrom_failedOnce (s : State) : bootsFrom (failedOnce s) = (s.upd.activeB, s.upd.fails + 1, s.upd.bothBad) :=
  bootsFrom_recorded _ _

theorem failedOnce_fails (s : State) : (failedOnce s).fails = s.upd.fails + 1 := congrArg (·.2.1) (bootsFrom_failedOnce s)
theorem failedOnce_activeB (s : State) : (failedOnce s).activeB = s.upd.activeB := congrArg (·.1) (bootsFrom_failedOnce s)
theorem failedOnce_bothBad (s : State) : (failedOnce s).bothBad = s.upd.bothBad := congrArg (·.2.2) (bootsFrom_failedOnce s)

/-- The first two boots that fail start the same slot again. -/
theorem bootFailed_again (few : s.upd.fails < 2) :
    bootFailed s = coldStart 2 s.boot.input (writePending { s with upd := failedOnce s }) :=
  if_pos (show (failedOnce s).fails < 3 by rw [failedOnce_fails]; omega)

theorem bootFailed_rom (many : 2 ≤ s.upd.fails) (bad : s.upd.bothBad = true) :
    bootFailed s = romRecovery { s with upd := { failedOnce s with fails := 3 } } :=
  (if_neg (show ¬(failedOnce s).fails < 3 by rw [failedOnce_fails]; omega)).trans
    (if_pos (show (failedOnce s).bothBad = true by rw [failedOnce_bothBad, bad]))

/-- After the third, the module starts from the other slot, and notes it. -/
theorem bootFailed_other (many : 2 ≤ s.upd.fails) (good : s.upd.bothBad = false) (failed : bootFailed s = u) :
    ∃ t, bootsFrom t.upd = (!s.upd.activeB, 0, true) ∧ t.boot.stage = 0 ∧ event 0x0D01 [] t = u := by
  unfold bootFailed at failed
  extract_lets _ u v s1 s2 at failed
  have third : ¬u.fails < 3 := by
    rw [show u.fails = s.upd.fails + 1 from failedOnce_fails s]
    omega
  have sound : ¬u.bothBad = true := by
    rw [show u.bothBad = s.upd.bothBad from failedOnce_bothBad s, good]
    decide
  rw [if_neg third, if_neg sound] at failed
  have named : bootsFrom v = (!s.upd.activeB, 0, true) :=
    (bootsFrom_recorded _ _).trans (by rw [← failedOnce_activeB s]; rfl)
  have started : bootsFrom s2.upd = bootsFrom v := by
    refine (bootsFrom_coldStart ..).trans ((congrArg bootsFrom (writePending_same (a := .upd) (by decide) _)).trans ?_)
    split
    · exact bootsFrom_rollbackPages s1
    · rfl
  have stage : s2.boot.stage = 0 := coldStart_stage ..
  clear_value s2
  refine ⟨_, ?_, ?_, failed⟩
  · exact started.trans named
  · exact stage

/-! ## The rows of the activation -/

theorem upd_commitUpdate (s : State) : (commitUpdate s).upd.state = .idle ∧ (commitUpdate s).upd.trial = false ∧
    (commitUpdate s).upd.counter = max s.upd.counter (activeSlot s.upd).rollback := by
  obtain ⟨_, _, e⟩ := recorded_eq s.upd { s.upd with
    state := .idle, trial := false, saved := [], counter := max s.upd.counter (activeSlot s.upd).rollback }
  unfold commitUpdate
  dsimp only
  rw [e]
  exact ⟨rfl, rfl, rfl⟩

/-- At the midpoint a ready module begins its trial on the other slot (R606). -/
def trialBegun (s : State) : State :=
  let s1 := beginTrial { s with upd := { s.upd with activeB := !s.upd.activeB, last := stOk } }
  { s1 with upd := recorded s.upd s1.upd }

theorem trialBegun_says (s : State) : (trialBegun s).upd.state = .trial ∧ (trialBegun s).upd.trial = true ∧
    (trialBegun s).upd.activeB = !s.upd.activeB := by
  have active := congrArg (·.1) (bootsFrom_beginTrial { s with upd := { s.upd with activeB := !s.upd.activeB, last := stOk } })
  obtain ⟨_, _, e⟩ := recorded_eq s.upd (beginTrial { s with upd := { s.upd with activeB := !s.upd.activeB, last := stOk } }).upd
  unfold trialBegun
  dsimp only
  rw [e]
  exact ⟨rfl, rfl, active⟩

/-- One that is not ready has failed, and one rollback more is counted. -/
def midpointFailed (s : State) : State :=
  let s1 := activationFailed s
  { s1 with upd := { s1.upd with rollbacks := s1.upd.rollbacks + 1, switched := true } }

theorem exec_activationMidpoint {ready : Bool} (run : running s = true) (going : s.upd.state = .activating)
    (placed : placedWindow s = some m) (half : (2 * m.first + m.slots) * Config.slotNs ≤ 2 * now s) :
    exec (.activationMidpoint ready) s = .next (if ready then trialBegun s else midpointFailed s) := by
  refine guarded_next run ?_
  simp only [going, placed, half, decide_true, Bool.and_self]

/-- The window has ended: it is released, and an activation that has not begun its trial has failed (R605). -/
def windowEnded (s : State) : State :=
  let s1 := dropWindow s
  let s2 := if s1.upd.state = .scheduled ∨ s1.upd.state = .activating then activationFailed s1 else s1
  { s2 with upd := { s2.upd with switched := false } }

theorem exec_activationWindowEnd {ready : Bool} (run : running s = true) (placed : placedWindow s = some m)
    (ended : m.first + m.slots ≤ slotOf (now s)) : exec (.activationWindowEnd ready) s =
      .next (if s.upd.switched ∧ ready = false then restart 2 s.boot.input (windowEnded s) else windowEnded s) := by
  simp only [exec, execActivationWindowEnd, whenRunning_next run, placed, if_neg (Nat.not_lt.mpr ended)]
  rfl

theorem windowEnded_says (placed : placedWindow s = some m) : (windowEnded s).upd.window = none ∧
    (windowEnded s).upd.switched = false ∧ (s.upd.state = .scheduled ∨ s.upd.state = .activating →
      (windowEnded s).upd.state = .idle ∧ (windowEnded s).upd.last = stActivation) := by
  have upd := upd_dropWindow placed
  unfold windowEnded
  dsimp only
  rw [(dropWindow_state s).1]
  split
  · exact ⟨congrArg Update.window upd, rfl, fun _ => ⟨rfl, rfl⟩⟩
  · next closed => exact ⟨congrArg Update.window upd, rfl, fun h => absurd h closed⟩

theorem windowEnded_clk (s : State) : (windowEnded s).clk = s.clk := by
  have clk : (dropWindow s).clk = s.clk := (dropWindow_keeps (wB := [.ante, .upd]) (by decide)).mpr (Keeps.refl _ s) .clk (by decide)
  unfold windowEnded
  dsimp only
  split <;> exact clk

end

/-- Settles O47: the answers are `updateRow`'s; what begins or ends a trial leaves the choice of the slot to the boot record. -/
theorem updateIsActivated : Obligations.UpdateIsActivated := by
  intro s b x
  refine ⟨fun runs => ?_, fun runs => ?_, fun runs => ?_, fun run => ⟨fun scheduled warm => ?_, fun scheduled loaded here => ?_,
    fun m going placed half => ?_, fun m ready placed ended stays => ?_, fun m placed ended switched => ?_,
    fun trial auto stage fails due => ?_, fun early late => ?_⟩⟩
  · obtain ⟨t, next, said, upd⟩ := (updateRow_next runs : ∃ t, exec (.updateActivate b) s = .next t ∧ _)
    refine ⟨fun staged cold => ⟨t, next, ?_⟩, fun staged warm => ?_, fun other => ⟨t, next, ?_⟩⟩
    · simp only [upd_boxTaken, staged, cold, ne_eq, not_true, if_false, if_true] at said upd
      obtain ⟨_, _, e⟩ := recorded_eq s.upd { s.upd with state := .scheduled, activeB := !s.upd.activeB, trial := true }
      exact ⟨said, by rw [upd, e]; exact ⟨rfl, rfl, rfl⟩⟩
    · simp only [upd_boxTaken, staged, warm, ne_eq, not_true, if_false, Bool.false_eq_true, upd_raiseAll] at said upd
      exact ⟨t, _, next, said, by rw [upd]; exact ⟨rfl, rfl, rfl⟩⟩
    · simp only [upd_boxTaken, other, ne_eq, not_false_eq_true, if_true] at said upd
      exact ⟨said, upd⟩
  · obtain ⟨t, next, said, upd⟩ := (updateRow_next runs : ∃ t, exec (.updateCommit b) s = .next t ∧ _)
    refine ⟨fun trial => ⟨t, next, ?_⟩, fun other => ⟨t, next, ?_⟩⟩
    · simp only [upd_boxTaken, trial, if_true] at said upd
      obtain ⟨state, on, counter⟩ := upd_commitUpdate (boxTaken s)
      rw [upd]
      exact ⟨said, state, on, counter⟩
    · simp only [upd_boxTaken, other, if_false] at said upd
      exact ⟨said, upd⟩
  · obtain ⟨t, next, said, upd⟩ := (updateRow_next runs : ∃ t, exec (.updateAbort b) s = .next t ∧ _)
    refine ⟨?_, ?_, fun going => ⟨t, next, ?_⟩⟩
    · rintro (receiving | staged | scheduled) <;> refine ⟨t, next, ?_⟩
      · simp only [upd_boxTaken, receiving] at said upd
        exact ⟨said, by rw [upd]⟩
      · simp only [upd_boxTaken, staged] at said upd
        exact ⟨said, by rw [upd]⟩
      · simp only [upd_boxTaken, scheduled] at said upd
        exact ⟨said, by rw [upd]; exact (dropWindow_state _).1⟩
    · rintro (idle | trial) <;> refine ⟨t, next, ?_⟩
      · simp only [upd_boxTaken, idle] at said upd
        exact ⟨said, upd.trans (by dsimp only; rw [idle])⟩
      · simp only [upd_boxTaken, trial] at said upd
        exact ⟨said, upd.trans (by dsimp only; rw [trial])⟩
    · simp only [upd_boxTaken, going] at said upd
      exact ⟨said, upd.trans (by dsimp only; rw [going])⟩
  · have here : (decide (s.upd.state = .scheduled) && !s.upd.man.cold) = true := by simp only [scheduled, warm]; decide
    refine ⟨⟨_, guarded_next run here, rfl⟩, _, guarded_next run here, ?_⟩
    exact dropWindow_state (activationFailed s)
  · exact ⟨_, guarded_next run (by simp only [scheduled, loaded, here]; decide), rfl⟩
  · refine ⟨⟨_, exec_activationMidpoint run going placed half, ?_⟩, _, exec_activationMidpoint run going placed half, rfl, rfl, rfl, rfl⟩
    exact trialBegun_says s
  · have stay : ¬(s.upd.switched = true ∧ ready = false) := by
      rintro ⟨on, no⟩
      rcases stays with off | yes
      · exact Bool.noConfusion (on.symm.trans off)
      · exact Bool.noConfusion (yes.symm.trans no)
    exact ⟨_, exec_activationWindowEnd run placed ended, by rw [if_neg stay]; exact windowEnded_says placed⟩
  · refine ⟨_, exec_activationWindowEnd run placed ended, ?_⟩
    rw [if_pos ⟨switched, rfl⟩]
    exact ⟨restart_stage .., (restart_cycles ..).trans (congrArg (·.cycles + 1) (windowEnded_clk s))⟩
  · obtain ⟨state, on, counter⟩ := upd_commitUpdate s
    exact ⟨_, guarded_next run (decide_eq_true ⟨trial, auto, stage, fails, due⟩), state, on, counter⟩
  · refine ⟨fun few => ⟨_, guarded_next run (decide_eq_true ⟨early, late⟩), ?_⟩,
      fun many bad => ⟨_, guarded_next run (decide_eq_true ⟨early, late⟩), ?_⟩,
      fun many good => ⟨_, guarded_next run (decide_eq_true ⟨early, late⟩), ?_⟩⟩
    · have boots := bootsFrom_coldStart 2 s.boot.input (writePending { s with upd := failedOnce s })
      have upd : (writePending { s with upd := failedOnce s }).upd = failedOnce s := writePending_same (a := .upd) (by decide) _
      have clk : (writePending { s with upd := failedOnce s }).clk = s.clk := writePending_same (a := .clk) (by decide) _
      rw [upd, bootsFrom_failedOnce] at boots
      rw [bootFailed_again few, coldStart_clk, clk]
      exact ⟨coldStart_stage .., congrArg (·.2.1) boots, rfl⟩
    · rw [bootFailed_rom many bad]
      rfl
    · obtain ⟨u, boots, stage, next⟩ := bootFailed_other many good rfl
      have upd : (event 0x0D01 [] u).upd = u.upd := event_same (a := .upd) (by decide) ..
      have boot : (event 0x0D01 [] u).boot = u.boot := event_same (a := .boot) (by decide) ..
      rw [← next, upd, boot]
      exact ⟨stage, congrArg (·.2.1) boots, congrArg (·.1) boots⟩

end Sys2Proof.Machine
end

section
/-! PROOFS. The freeze port: entry, read-out and thaw (ch 14). -/

namespace Sys2Proof.Machine

open Sys2Proof

section
variable {s t : State} {n k : Nat}

/-! ## Frames that a port's reset sends move no lane -/

theorem FramesMove.sendOwn (kind dst session seq word : Nat) (payload : Bytes) (bounded : Bool) (s : State) :
    FramesMove s (Machine.sendOwn kind dst session seq word payload bounded s) := by
  unfold Machine.sendOwn
  dsimp only
  split
  · exact .refl s
  · split
    · exact (FramesMove.queueTo _ _ _).after (.of_lanes rfl rfl)
    · exact .dropHop _ s

theorem FramesMove.dropOrder (id seq : Nat) (s : State) : FramesMove s (Machine.dropOrder id seq s) := by
  unfold Machine.dropOrder
  split
  · exact .refl s
  · dsimp only
    split
    · exact .ite (.of_lanes rfl rfl) ((FramesMove.sendOwn ..).after (.of_lanes rfl rfl))
    · exact .of_lanes rfl rfl

theorem FramesMove.drain (id : Nat) (s : State) : FramesMove s (Machine.drain id s) := by
  unfold Machine.drain
  split
  · exact .refl s
  · have dropped (l : List Arrived) : FramesMove s (Machine.each (fun a s => Machine.dropOrder id a.seq s) l s) :=
      .each (fun _ u => .dropOrder _ _ u) l s
    dsimp only
    split
    · exact (dropped _).trans (.of_lanes rfl rfl)
    · exact (dropped _).trans (.of_lanes rfl rfl)

theorem FramesMove.startDelete (c : Nat) (release : Bool) (box : Option Nat) (s : State) :
    FramesMove s (Machine.startDelete c release box s) := by
  unfold Machine.startDelete
  split
  · have noted (id : Nat) (f : Session → Session) (u : State) : FramesMove u (modSess id f u) := .of_lanes rfl rfl
    exact (noted _ _ _).after ((FramesMove.drain _ _).after (.of_lanes rfl rfl))
  · exact .refl s

theorem FramesMove.deletePort (p : Nat) (s : State) : FramesMove s (Machine.deletePort p s) :=
  .each (fun c u => by
    split
    · exact .ite (.refl u) (.startDelete _ _ _ u)
    · exact .refl u) _ s

theorem FramesMove.resetPort (p : Nat) (cause : PortResetCause) (s : State) : FramesMove s (Machine.resetPort p cause s) := by
  have alert (u : State) : FramesMove u (followAlert u) :=
    .of_lanes (followAlert_same (p := .lanes) (by decide) u) (congrArg FabCounters.revokes (followAlert_same (p := .fabc) (by decide) u))
  unfold Machine.resetPort
  exact (alert _).after ((FramesMove.deletePort p s).trans (.of_lanes rfl rfl))

/-! ## After a thaw no lane is up (R651) -/

/-- The failure of one lane leaves the state of every other. -/
theorem revokeLane_other (other : k ≠ n) : (laneAt (revokeLane n s) k).state = (laneAt s k).state := by
  have asked (l : Lane) : (laneAt (askTraining n (setLane n l s)) k).state = (laneAt s k).state := by
    rw [laneAt_askTraining, laneAt_setLane_ne _ _ _ _ other]
  unfold revokeLane
  dsimp only
  split
  · exact asked _
  · next node far =>
    split
    · exact asked _
    · split
      · exact (((FramesMove.moveFrames node _ _).after (.sendLink _ _ _ _ _)).state k).trans (asked _)
      · refine (((FramesMove.topologyChanged true _).after (.moveFrames node _ _)).state k).trans ?_
        exact (congrArg Lane.state (laneAt_setLane_ne _ _ _ _ other)).trans (asked _)

theorem leaveUp_other (other : k ≠ n) : (laneAt (leaveUp n s) k).state = (laneAt s k).state := by
  unfold leaveUp
  dsimp only
  split
  · rfl
  · split
    · rw [laneAt_askTraining, laneAt_setLane_ne _ _ _ _ other]
    · exact revokeLane_other other

/-- A lane that leaves UP, or that is not in it, is not in it afterwards. -/
theorem leaveUp_notUp (h : k = n ∨ (laneAt s k).state ≠ .up) : (laneAt (leaveUp n s) k).state ≠ .up := by
  by_cases here : k = n
  · subst here
    by_cases up : (laneAt s k).state = .up
    · rw [leaveUp_state up]
      decide
    · unfold leaveUp
      dsimp only
      rwa [if_pos up]
  · rw [leaveUp_other here]
    exact h.resolve_left here

theorem each_leaveUp_notUp (l : List (Nat × Lane)) (h : (∃ p ∈ l, p.1 = k) ∨ (laneAt s k).state ≠ .up) :
    (laneAt (each (fun p s => leaveUp p.1 s) l s) k).state ≠ .up := by
  induction l generalizing s with
  | nil => exact h.resolve_left (by simp)
  | cons p l ih =>
    refine ih ?_
    rcases h with ⟨q, hq, key⟩ | notUp
    · rcases List.mem_cons.mp hq with rfl | later
      · exact .inr (leaveUp_notUp (.inl key.symm))
      · exact .inl ⟨q, later, key⟩
    · exact .inr (leaveUp_notUp (.inr notUp))

/-- A lane that the table does not list is as after reset. -/
theorem tget_unlisted {α : Type} (d : Nat → α) {l : Tbl α} (h : ¬∃ p ∈ l, p.1 = k) : tget d l k = d k := by
  induction l with
  | nil => rfl
  | cons p l ih =>
    rw [tget, if_neg fun e => h ⟨p, List.mem_cons_self, e⟩]
    exact ih fun ⟨q, hq, e⟩ => h ⟨q, List.mem_cons_of_mem _ hq, e⟩

theorem lanes_leave_up (s : State) (k : Nat) : (laneAt (each (fun p s => leaveUp p.1 s) s.lanes s) k).state ≠ .up := by
  refine each_leaveUp_notUp _ ?_
  by_cases listed : ∃ p ∈ s.lanes, p.1 = k
  · exact .inl listed
  · refine .inr ?_
    rw [laneAt, tget_unlisted laneBlank listed]
    exact LaneState.noConfusion

theorem thaw_notUp (b : Bool) (frozen : s.frz.state ≠ 0) (k : Nat) : (laneAt (thaw b s) k).state ≠ .up := by
  unfold thaw
  rw [if_neg frozen]
  dsimp only
  rw [laneAt_event, (FramesMove.each (fun _ u => .resetPort _ _ u) _ _).state k]
  exact lanes_leave_up _ k

theorem thaw_lastNs (b : Bool) (frozen : s.frz.state ≠ 0) : (thaw b s).frz.lastNs = now s - s.frz.at_ := by
  unfold thaw
  rw [if_neg frozen]
  exact congrArg Freeze.lastNs (thawed_keeps _ _ _ .frz (by decide))

/-! ## Entry (R646, R648) -/

/-- The writes that wait are drained and the memories refresh themselves; no other part of the module moves. -/
theorem quiesced_keeps (s : State) : Keeps [.mem, .out] s (refreshSelf true (drainDram s)) :=
  (refreshSelf_keeps (by decide)).mpr ((drainDram_keeps (by decide)).mpr (Keeps.refl _ s))

/-- A module in service whose mode allows it freezes. -/
theorem tryFreeze_frozen (asked : s.frz.asserted = true) (may : s.frz.mode ≠ 0 ∧ 1 ≤ s.boot.stage ∧ s.pwr.sup = .normal ∧ s.frz.state = 0) :
    tryFreeze s = freezeNow s := by
  simp only [tryFreeze, guard, asked, decide_eq_true may, Bool.and_self, if_true]

theorem tryFreeze_same (may : ¬(s.frz.mode ≠ 0 ∧ 1 ≤ s.boot.stage ∧ s.pwr.sup = .normal ∧ s.frz.state = 0)) : tryFreeze s = s := by
  simp only [tryFreeze, guard, decide_eq_false may, Bool.and_false, Bool.false_eq_true, if_false]

theorem frz_freezeNow (s : State) :
    (freezeNow s).frz = { s.frz with state := 2, count := s.frz.count + 1, at_ := now s, shifts := 0 } := by
  have frz : (refreshSelf true (drainDram s)).frz = s.frz := quiesced_keeps s .frz (by decide)
  unfold freezeNow
  dsimp only
  rw [frz]

end

/-- Settles O51: a freeze drains and refreshes the memories alone, and the lanes leave UP one by one at the thaw. -/
theorem freezeAndThaw : Obligations.FreezeAndThaw := by
  intro s
  refine ⟨fun mode stage sup live => ?_, fun refused => ?_, fun frozen => ?_, fun live => ?_, fun frozen => ?_,
    fun memory word frozen => ?_, fun memory word live => ?_⟩
  · refine ⟨_, congrArg Host.Outcome.next (tryFreeze_frozen rfl ⟨mode, stage, sup, live⟩), ?_⟩
    have kept := quiesced_keeps { s with frz := { s.frz with asserted := true } }
    have frz := frz_freezeNow { s with frz := { s.frz with asserted := true } }
    have state := congrArg Freeze.state frz
    refine ⟨state, congrArg Freeze.count frz, congrArg Freeze.at_ frz, ?_, kept .clk (by decide), kept .sessions (by decide),
      kept .med (by decide)⟩
    simp [running, state]
  · refine congrArg Host.Outcome.next (tryFreeze_same fun may => ?_)
    obtain ⟨mode, stage, sup, live⟩ := may
    rcases refused with off | early | dip | frozen
    · exact mode off
    · exact absurd stage (by simp [early])
    · exact dip sup
    · exact frozen live
  · refine ⟨_, rfl, thaw_frz_state .., thaw_lastNs _ frozen, thaw_clk _, thaw_notUp _ frozen⟩
  · exact congrArg Host.Outcome.next (if_pos live)
  · refine ⟨_, _, congrArg Host.Outcome.next (if_pos frozen), congrArg Host.Outcome.next (if_pos frozen), rfl, rfl, _, rfl⟩
  · exact ⟨_, congrArg Host.Outcome.next (if_pos frozen), rfl, rfl, rfl⟩
  · exact ⟨_, rfl, congrArg Host.Outcome.next (if_neg live), congrArg Host.Outcome.next (if_neg live),
      congrArg Host.Outcome.next (if_neg live)⟩

end Sys2Proof.Machine
end

section
/-! PROOFS. The keys of the cipher: pages 0x0900 and 0x0901 (ch 11). -/

namespace Sys2Proof.Machine

open Sys2Proof

section
variable {s u : State} {b page n v : Nat} {x : Mailbox} {asks : Nat → Bool}

/-! ## What a page's row answers -/

theorem xts_finishBox (b st : Nat) (out : Bytes) (s : State) : (finishBox b st out s).xts = s.xts :=
  finishBox_same b st out s (a := .xts) (by decide)

theorem exec_settingWrite_page (h : pageRuns s b page x) : exec (.settingWrite b) s =
    .next ((pageWrite (boxTaken s) page x.target (writtenPage x)).elim (finishBox b stPageField [] (boxTaken s)) (finishBox b stOk [])) :=
  (exec_settingWrite h.1).trans (congrArg Host.Outcome.next (settingWrite_of_pageRuns h))

/-- A write that the page takes is answered OK, and leaves the cipher as the page says. -/
theorem pageRow_takes (h : pageRuns s b page x) (asked : asks (writtenPage x) = true)
    (accepts : pageWrite (boxTaken s) page x.target (writtenPage x) = some u) :
    ∃ t, whenRunning (takeBox b (writesPage page asks) true (settingWrite b)) s = .next t ∧ boxSays t b stOk [] ∧ t.xts = u.xts :=
  ⟨_, pageRow_accepts h asked accepts, finishBox_says .., xts_finishBox ..⟩

/-- A write that the page refuses leaves the cipher. -/
theorem pageRow_turnsAway (h : pageRuns s b page x) (asked : asks (writtenPage x) = true)
    (refuses : pageWrite (boxTaken s) page x.target (writtenPage x) = none) :
    ∃ t, whenRunning (takeBox b (writesPage page asks) true (settingWrite b)) s = .next t ∧
      boxSays t b stPageField [] ∧ t.xts = s.xts :=
  ⟨_, pageRow_refuses h asked refuses, finishBox_says .., xts_finishBox ..⟩

/-! ## Page 0x0901: the slots (R540, R542) -/

/-- The reserved fields of the written page are 0. -/
def reservedClear (v : Nat) : Prop := bit v 3 = false ∧ bits v 15 6 = 0 ∧ bits v 31 29 = 0

theorem write0901_reserved (set : bit v 3 = true ∨ bits v 15 6 ≠ 0 ∨ bits v 31 29 ≠ 0) : write0901 s n v = none := by
  simp only [write0901, set, if_true]

theorem write0901_unfold (clear : reservedClear v) : write0901 s n v =
    if keyAction v = 0 then some s
    else if n = 4096 ∨ slotUsers s n ≠ 0 then none
    else if keyAction v = 1 then pageIf (noisePasses s) (keyGenerate n s)
    else if keyAction v = 2 then
      match s.xts.kik with
      | none => none
      | some kik => (importedKey kik (bits v 703 128)).map (fun k => loadKey n k true s)
    else some (keyZeroize n s) := by
  obtain ⟨low, middle, high⟩ := clear
  unfold write0901
  exact if_neg (by simp [low, middle, high])

theorem write0901_generates (clear : reservedClear v) (inside : n < 4096) (unused : slotUsers s n = 0) (asked : keyAction v = 1)
    (passes : noisePasses s = true) : write0901 s n v = some (keyGenerate n s) := by
  rw [write0901_unfold clear, asked, if_neg one_ne_zero, if_neg (by omega), if_pos rfl]
  exact if_pos passes

theorem write0901_imports {kik : BitVec 256} (clear : reservedClear v) (inside : n < 4096) (unused : slotUsers s n = 0)
    (asked : keyAction v = 2) (installed : s.xts.kik = some kik) :
    write0901 s n v = (importedKey kik (bits v 703 128)).map (fun k => loadKey n k true s) := by
  rw [write0901_unfold clear, asked, if_neg two_ne_zero, if_neg (by omega), if_neg (by decide), if_pos rfl, installed]

theorem write0901_zeroizes (clear : reservedClear v) (inside : n < 4096) (unused : slotUsers s n = 0) (asked : keyAction v = 3) :
    write0901 s n v = some (keyZeroize n s) := by
  rw [write0901_unfold clear, asked, if_neg three_ne_zero, if_neg (by omega), if_neg (by decide), if_neg (by decide)]

/-- Every case of R542. -/
theorem write0901_refused (because : (slotUsers s n ≠ 0 ∧ keyAction v ≠ 0) ∨ (keyAction v = 2 ∧ s.xts.kik = none) ∨
    (keyAction v = 1 ∧ noisePasses s = false) ∨ bit v 3 = true ∨ bits v 15 6 ≠ 0 ∨ bits v 31 29 ≠ 0) : write0901 s n v = none := by
  by_cases set : bit v 3 = true ∨ bits v 15 6 ≠ 0 ∨ bits v 31 29 ≠ 0
  · exact write0901_reserved set
  have clear : reservedClear v := by simpa [reservedClear] using set
  rw [write0901_unfold clear]
  rcases because with ⟨used, acts⟩ | ⟨asked, none⟩ | ⟨asked, quiet⟩ | set'
  · rw [if_neg acts, if_pos (.inr used)]
  · simp [asked, none]
  · simp [asked, quiet, pageIf]
  · exact absurd set' set

/-- A key that is loaded stands in its slot, with the time of its loading. -/
theorem slot_loadKey (n : Nat) (k : BitVec 512) (imported : Bool) (s : State) :
    tget keyBlank (loadKey n k imported s).xts.slots n = { key := some k, imported := imported, loadedAt := now s } := by
  simp only [loadKey, tget_tset_same]

theorem slot_keyGenerate (n : Nat) (s : State) :
    ∃ k, tget keyBlank (keyGenerate n s).xts.slots n = { key := some k, imported := false, loadedAt := now s } :=
  ⟨_, slot_loadKey n (drawnKey (reseed 16 s)) false (reseed 16 s)⟩

theorem slot_keyZeroize (n : Nat) (s : State) : tget keyBlank (keyZeroize n s).xts.slots n = {} ∧
    ∀ k, k ≠ n → tget keyBlank (keyZeroize n s).xts.slots k = tget keyBlank s.xts.slots k := by
  simp only [keyZeroize, tget_tset_same, true_and]
  exact fun k other => tget_tset_ne _ _ _ other

/-! ## Page 0x0900: the key-import key (R544) -/

theorem write0900_installs (rates : fieldIn v 23 16 0 168 = true ∧ fieldIn v 47 32 10 60000 = true) (key : bits v 319 64 ≠ 0)
    (open_ : s.xts.kikLocked = false) (stays : bit v 1 = false) : write0900 s v = some { s with xts := { s.xts with
      katH := bits v 23 16, reseedMs := bits v 47 32, kikLocked := false, kik := some (BitVec.ofNat 256 (bits v 319 64)) } } := by
  simp [write0900, pageIf, rates, key, open_, stays]

theorem write0900_locked (key : bits v 319 64 ≠ 0) (locked : s.xts.kikLocked = true) : write0900 s v = none := by
  simp [write0900, pageIf, key, locked]

theorem write0900_locks {k : BitVec 256} (rates : fieldIn v 23 16 0 168 = true ∧ fieldIn v 47 32 10 60000 = true)
    (key : bits v 319 64 = 0) (locks : bit v 1 = true) (installed : s.xts.kik = some k) : write0900 s v = some { s with
      xts := { s.xts with katH := bits v 23 16, reseedMs := bits v 47 32, kikLocked := true, kik := some k } } := by
  simp [write0900, pageIf, rates, key, locks, installed]

end

/-- Settles O35: the rows share the write of their page, and each case of R542 stops that write before it loads a slot. -/
theorem keysAreManaged : Obligations.KeysAreManaged := by
  intro s b x
  refine ⟨fun runs inside unused low middle high => ⟨fun asked passes => ?_, fun kik asked installed => ?_, fun asked => ?_⟩,
    fun runs inside because => ?_, fun runs every reseeds => ⟨fun key open_ stays => ?_, fun key locked => ?_, fun k key locks installed => ?_⟩⟩
  · obtain ⟨t, next, said, xts⟩ := pageRow_takes (asks := fun v => decide (keyAction v = 1)) runs (decide_eq_true asked)
      (write0901_generates (s := boxTaken s) ⟨low, middle, high⟩ inside unused asked passes)
    obtain ⟨k, slot⟩ := slot_keyGenerate x.target (boxTaken s)
    exact ⟨t, k, next, said, by rw [xts]; exact slot⟩
  · have imports := write0901_imports (s := boxTaken s) ⟨low, middle, high⟩ inside unused asked installed
    have page := exec_settingWrite_page runs
    cases unwraps : importedKey kik (bits (writtenPage x) 703 128) with
    | none =>
      rw [unwraps, Option.map_none] at imports
      refine ⟨_, pageRow_refuses runs (decide_eq_true asked) imports, page.trans ?_, finishBox_says .., xts_finishBox ..⟩
      exact congrArg (fun o => Host.Outcome.next (Option.elim o _ _)) imports
    | some k =>
      rw [unwraps, Option.map_some] at imports
      refine ⟨_, pageRow_accepts runs (decide_eq_true asked) imports, page.trans ?_, finishBox_says .., ?_⟩
      · exact congrArg (fun o => Host.Outcome.next (Option.elim o _ _)) imports
      · rw [xts_finishBox]
        exact slot_loadKey ..
  · obtain ⟨t, next, said, xts⟩ := pageRow_takes (asks := fun v => decide (keyAction v = 3)) runs (decide_eq_true asked)
      (write0901_zeroizes (s := boxTaken s) ⟨low, middle, high⟩ inside unused asked)
    refine ⟨t, next, said, ?_⟩
    rw [xts]
    exact slot_keyZeroize x.target (boxTaken s)
  · have refused : write0901 (boxTaken s) x.target (writtenPage x) = none := write0901_refused because
    refine ⟨⟨_, exec_settingWrite_page runs, ?_⟩, fun asked => pageRow_turnsAway runs (decide_eq_true asked) refused,
      fun asked => pageRow_turnsAway runs (decide_eq_true asked) refused, fun asked => pageRow_turnsAway runs (decide_eq_true asked) refused⟩
    rw [show pageWrite (boxTaken s) 0x0901 x.target (writtenPage x) = none from refused]
    exact ⟨finishBox_says .., xts_finishBox ..⟩
  · obtain ⟨t, next, said, xts⟩ := pageRow_takes (asks := fun v => decide (bits v 319 64 ≠ 0)) runs (decide_eq_true key)
      (write0900_installs (s := boxTaken s) ⟨every, reseeds⟩ key open_ stays)
    refine ⟨t, next, said, ?_⟩
    rw [xts]
    exact ⟨rfl, rfl⟩
  · exact pageRow_turnsAway runs (decide_eq_true key) (write0900_locked (s := boxTaken s) key locked)
  · obtain ⟨t, next, said, xts⟩ := pageRow_takes (asks := fun v => bit v 1) runs locks
      (write0900_locks (s := boxTaken s) ⟨every, reseeds⟩ key locks installed)
    refine ⟨t, next, said, ?_⟩
    rw [xts]
    exact ⟨rfl, rfl⟩

end Sys2Proof.Machine
end

section
/-! PROOFS. What the supply invariant looks at, and that the commands of every other unit leave it as it is. -/

namespace Sys2Proof.Machine

open Sys2Proof

-- Proofs elaborated side by side wait on one another's lemmas, each in a thread of its own; in order, one thread does.
set_option Elab.async false

/-- What the supply invariant looks at: the supervisor, the charger, the input path, the bleed, the bank fault and the freeze. -/
def supplyView (s : State) : Sup × Bool × Bool × Bool × Nat × Nat :=
  (s.pwr.sup, s.pwr.charger, s.pwr.input, s.pwr.bleed, s.pwr.fault, s.frz.state)

/-- The parts of the state that it does not look at. -/
def unpowered : List Area :=
  [.pending, .clk, .boot, .cores, .buf, .dlr, .jnl, .sessions, .nss, .commits, .ante, .host, .lanes, .wake, .fab, .fabc, .idx, .cam,
   .med, .mem, .xts, .upd, .evr, .ist, .out, .draws]

/-- What the supply invariant looks at is the same in `a` and in `s`. It is said with `Keeps`, so that one call of `simp` takes off
a chain both the operations outside the power block, by their frames `f_keeps`, and those that move other fields of the power
block, by the lemmas `steady_f` below. -/
abbrev Steady (a s : State) : Prop := ∃ t, supplyView t = supplyView a ∧ Keeps unpowered t s

section
variable {a s t : State}

theorem supplyView_of_keeps (k : Keeps unpowered s t) : supplyView t = supplyView s := by
  have pwr : t.pwr = s.pwr := k .pwr (by decide)
  have frz : t.frz = s.frz := k .frz (by decide)
  simp only [supplyView, pwr, frz]

theorem steady_iff : Steady a s ↔ supplyView s = supplyView a :=
  ⟨fun ⟨_, view, k⟩ => (supplyView_of_keeps k).trans view, fun view => ⟨s, view, Keeps.refl _ s⟩⟩

theorem Steady.refl (s : State) : Steady s s := steady_iff.mpr rfl

theorem steady_same (view : supplyView t = supplyView s := by rfl) : Steady a t ↔ Steady a s := by
  rw [steady_iff, steady_iff, view]

/-- A record update of other parts. -/
theorem keeps_unpowered {pending clk boot cores buf dlr jnl sessions nss commits ante host lanes wake fab fabc idx cam med mem xts
    upd evr ist out draws} :
    Keeps unpowered a ⟨pending, clk, boot, cores, buf, dlr, jnl, sessions, nss, commits, ante, host, lanes, wake, fab, fabc, idx,
      cam, med, mem, xts, s.pwr, upd, evr, ist, s.frz, out, draws⟩ ↔ Keeps unpowered a s := by
  refine Keeps.peel (v := unpowered) (fun p hp => ?_) (by decide)
  cases p
  case pwr | frz => rfl
  all_goals exact absurd (by decide) hp

theorem steady_ite {c : Prop} [Decidable c] : Steady a (if c then s else t) ↔ if c then Steady a s else Steady a t := by
  split <;> rfl

theorem steady_each {α : Type} {f : α → State → State} (hf : ∀ x u, Steady a (f x u) ↔ Steady a u) (l : List α) :
    Steady a (each f l s) ↔ Steady a s := by
  induction l generalizing s with
  | nil => exact Iff.rfl
  | cons x l ih => exact ih.trans (hf x s)

theorem steady_getD {o : Option State} (ho : ∀ t, o = some t → (Steady a t ↔ Steady a s)) : Steady a (o.getD s) ↔ Steady a s := by
  cases o with
  | none => exact Iff.rfl
  | some t => exact ho t rfl

/-! ## Kitty bytes and power states (R80, R204, R583) -/

theorem steady_retarget : Steady a (retarget s) ↔ Steady a s := by
  unfold retarget
  dsimp only
  split
  · exact steady_same
  · simp (disch := decide) only [Steady, raiseAll_keeps, event_keeps]
    exact steady_same

theorem steady_kittyReserve {n : Nat} : Steady a (kittyReserve n s) ↔ Steady a s := steady_same

theorem steady_kittyExpose {n : Nat} : Steady a (kittyExpose n s) ↔ Steady a s := steady_same

theorem steady_kittyCancel {n : Nat} : Steady a (kittyCancel n s) ↔ Steady a s := steady_same

theorem steady_kittyFree {n : Nat} : Steady a (kittyFree n s) ↔ Steady a s := steady_same

theorem steady_settleKitty {m n : Nat} : Steady a (settleKitty m n s) ↔ Steady a s := steady_same

theorem steady_startExit : Steady a (startExit s) ↔ Steady a s := by
  unfold startExit
  dsimp only
  repeat' split
  all_goals exact steady_same

theorem steady_followIdle : Steady a (followIdle s) ↔ Steady a s := steady_same

theorem steady_enterState {k : Nat} : Steady a (enterState k s) ↔ Steady a s := by
  refine (steady_same (s := if 2 ≤ k then refreshSelf true (drainDram s) else s)).trans ?_
  simp (disch := decide) only [Steady, steady_ite, refreshSelf_keeps, drainDram_keeps, ite_self]

theorem steady_followPower : Steady a (followPower s) ↔ Steady a s := by
  simp only [followPower, steady_ite, steady_startExit, steady_followIdle, ite_self]

/-! ## Erases and relocations (ch 09) -/

theorem steady_reserveErase {kind : Maint} {target n : Nat} {groups : List (List Nat)} :
    Steady a (reserveErase kind target groups n s).1 ↔ Steady a s := by
  unfold reserveErase
  dsimp only
  repeat' split
  all_goals exact steady_same

theorem steady_startErase {n : Nat} : Steady a (startErase n s) ↔ Steady a s := by
  simp (disch := decide) only [Steady, startErase, setMeld_keeps, steady_reserveErase]

theorem steady_settleCopied {n : Nat} : Steady a (settleCopied n s) ↔ Steady a s := by
  simp (disch := decide) only [Steady, settleCopied, steady_ite, steady_startErase, killMeld_keeps, ite_self]

theorem steady_relocateMeld {kind : Maint} {firm recovery : Bool} {n : Nat} :
    Steady a (relocateMeld kind firm recovery n s) ↔ Steady a s := by
  unfold relocateMeld
  dsimp only
  split
  · exact steady_settleCopied
  split
  · rfl
  split
  · rfl
  · next taken =>
    refine steady_settleCopied.trans ((steady_each (fun p u => ?_) _).trans ?_)
    · simp (disch := decide) only [Steady, steady_ite, placeRecord_keeps, ite_self]
    · simp (disch := decide) only [Steady, takeAntes_keeps taken]

theorem steady_eraseSet {setB : Bool} : Steady a (eraseSet setB s) ↔ Steady a s := by
  have reserved := steady_reserveErase (a := a) (s := s) (kind := .flushErase) (target := b2n setB)
    (groups := (flushDies setB).map ([·])) (n := 357)
  unfold eraseSet
  generalize reserveErase .flushErase (b2n setB) ((flushDies setB).map ([·])) 357 s = r at reserved ⊢
  refine steady_retarget.trans (Iff.trans ?_ reserved)
  cases setB <;> exact steady_same

theorem steady_eraseSets : Steady a (eraseSets s) ↔ Steady a s := by
  have first : Steady a (if s.pwr.aReady then s else eraseSet false s) ↔ Steady a s := by
    simp only [steady_ite, steady_eraseSet, ite_self]
  unfold eraseSets
  generalize (if s.pwr.aReady then s else eraseSet false s) = u at first ⊢
  refine (steady_same (s := if u.pwr.bReady then u else eraseSet true u)).trans ?_
  simp only [steady_ite, steady_eraseSet, ite_self, first]

theorem steady_findSets : Steady a (findSets s) ↔ Steady a s := by
  unfold findSets
  split
  · rfl
  · exact steady_retarget.trans steady_same

theorem steady_shiftCalendar {n : Nat} : Steady a (shiftCalendar n s) ↔ Steady a s := steady_same

/-! ## Admission (ch 04) -/

theorem steady_decideShape {cls bound qos from_ : Nat} {who : Owner} {shape : List Cost} {ans : Answer}
    (e : decideShape cls bound qos who shape from_ s = (t, ans)) : Steady a t ↔ Steady a s := by
  have started : Steady a (startExit (countRequest s)) ↔ Steady a s := by
    simp (disch := decide) only [Steady, steady_startExit, countRequest_keeps]
  unfold decideShape at e
  dsimp only at e
  repeat' split at e
  all_goals
    cases e
    simpa (disch := decide) only [Steady, refuseNever_keeps, refuseRetry_keeps, keeps_unpowered] using started

theorem steady_acceptStep {id cls bound : Nat} {set : Option Nat} {wait : Bool} {l : List (Job × Bill)} {seqs : List Nat} :
    Steady a (acceptStep id cls bound set wait l seqs s) ↔ Steady a s := by
  have debited : Steady a (match debitAll l s with | .ok t => t | .error _ => s) ↔ Steady a s := by
    split
    · next ok => simp (disch := decide) only [Steady, debitAll_keeps ok]
    · rfl
  have accepted : ∀ u, Steady a (each (acceptOne cls bound set wait) l u) ↔ Steady a u := fun u =>
    steady_each (fun _ _ => by simp (disch := decide) only [Steady, acceptOne_keeps]) _
  simp (disch := decide) only [Steady, acceptStep, modSess_keeps, dropArrived_keeps]
  exact (accepted _).trans (steady_kittyReserve.trans debited)

theorem steady_anteStep {id : Nat} {x : Session} {items : List Arrived} {h : Job} {members : List Job} :
    Steady a (anteStep id x items h members s) ↔ Steady a s := by
  unfold anteStep
  extract_lets _ _ _ _ _ refuse
  have refused : ∀ st time u, Steady a (refuse st time u) ↔ Steady a u := fun _ _ _ => by
    simp (disch := decide) only [refuse, Steady, refuseStep_keeps]
  split
  · refine (refused ..).trans ?_
    simp (disch := decide) only [Steady, refuseRetry_keeps, steady_startExit, countRequest_keeps]
  split
  · next e => exact (refused ..).trans (steady_decideShape e)
  · next e => exact (refused ..).trans (steady_decideShape e)
  · next e =>
    split
    · refine (refused ..).trans ?_
      simp (disch := decide) only [Steady, keeps_unpowered, refuseRetry_keeps, withoutGrant_keeps]
      exact steady_decideShape e
    · exact steady_acceptStep.trans (steady_decideShape e)

theorem steady_admitOrdered {id cls : Nat} {x : Session} {items : List Arrived} {h : Job} {members jobs : List Job} :
    Steady a (admitOrdered id x items h members cls jobs s) ↔ Steady a s := by
  unfold admitOrdered
  dsimp only
  repeat' split
  all_goals simp (disch := decide) only [Steady, refuseStep_keeps, refuseRetry_keeps, event_keeps, steady_anteStep, askOrders_keeps]

theorem steady_admitPeers {id seq cls : Nat} {x : Session} {items : List Arrived} {h : Job} {members jobs : List Job}
    {trial : Bill × List Bill} : Steady a (admitPeers id x items h members trial seq cls jobs s) ↔ Steady a s := by
  have opened : Steady a (each openPeer (unopened s jobs) s) ↔ Steady a s :=
    steady_each (fun _ _ => by simp (disch := decide) only [Steady, openPeer_keeps]) _
  simp (disch := decide) only [Steady, admitPeers, steady_ite, refuseStep_keeps, refuseNever_keeps, refuseRetry_keeps,
    steady_startExit, countRequest_keeps, keeps_unpowered, opened, steady_admitOrdered, ite_self]

theorem steady_admitItems {id : Nat} {x : Session} {items : List Arrived} : Steady a (admitItems id x items s) ↔ Steady a s := by
  unfold admitItems
  split
  · rfl
  extract_lets u _ _ _ _ _ _ _ _ v w
  have touched : Steady a u ↔ Steady a s := by simp (disch := decide) only [Steady, u, touchCtx_keeps]
  have counted : Steady a w ↔ Steady a s :=
    ((steady_each (fun _ _ => by simp (disch := decide) only [Steady, countClassify_keeps]) _).trans
      (by simp (disch := decide) only [Steady, v, countClassify_keeps])).trans touched
  have refused : ∀ l st time k u, Steady a (refuseStep id x l st time k u) ↔ Steady a u := fun _ _ _ _ _ => by
    simp (disch := decide) only [Steady, refuseStep_keeps]
  repeat' split
  · exact (refused ..).trans touched
  · exact (refused ..).trans counted
  · exact (refused ..).trans counted
  · exact (refused ..).trans counted
  · exact steady_admitPeers.trans counted

end
end Sys2Proof.Machine
end

section
/-! PROOFS. What the supply invariant looks at, in the commands of objects and of the fabric: none of them moves it. -/

namespace Sys2Proof.Machine

open Sys2Proof

-- Proofs elaborated side by side wait on one another's lemmas, each in a thread of its own; in order, one thread does.
set_option Elab.async false

section
variable {a s t : State}

/-! ## Commits (ch 04, ch 05) -/

theorem steady_applyEffect {f : InFlight} {e : Effect} : Steady a (applyEffect f e s) ↔ Steady a s := by
  unfold applyEffect
  dsimp only
  repeat' split
  all_goals simp (disch := decide) only [Steady, steady_settleKitty, steady_kittyCancel, commitRecord_keeps, commitHint_keeps]

theorem steady_noEffect {f : InFlight} : Steady a (noEffect f s) ↔ Steady a s := by
  simp (disch := decide) only [Steady, noEffect, steady_kittyCancel, undebit_keeps]

theorem steady_commitFlight {f : InFlight} : Steady a (commitFlight f s) ↔ Steady a s := by
  unfold commitFlight
  repeat' split
  all_goals simp (disch := decide) only [Steady, steady_applyEffect, steady_noEffect, recordOutcome_keeps, returnOrder_keeps,
    tellHolders_keeps]

theorem steady_commitGroup {f : InFlight} : Steady a (commitGroup f s) ↔ Steady a s := by
  unfold commitGroup
  split
  · exact steady_commitFlight
  split
  · rfl
  · exact steady_each (fun _ _ => steady_commitFlight) _

theorem steady_tryCommit {id seq : Nat} : Steady a (tryCommit id seq s) ↔ Steady a s := by
  unfold tryCommit
  split
  · rfl
  · simp only [steady_ite, steady_commitGroup, ite_self]

/-! ## Requests of other modules (ch 06) -/

theorem steady_raiseGrant {id wanted : Nat} : Steady a (raiseGrant id wanted s) ↔ Steady a s := by
  unfold raiseGrant
  split
  · rfl
  · simp (disch := decide) only [Steady, redebit_keeps, modCredit_keeps, steady_kittyReserve]

theorem steady_commitPend {p : Pending} : Steady a (commitPend p s) ↔ Steady a s := by
  unfold commitPend
  dsimp only
  repeat' split
  all_goals simp (disch := decide) only [Steady, steady_settleKitty, steady_kittyCancel, commitRecord_keeps, undebit_keeps,
    dropPend_keeps]

theorem steady_discardPend {p : Pending} : Steady a (discardPend p s) ↔ Steady a s := by
  simp (disch := decide) only [Steady, discardPend, steady_kittyCancel, undebit_keeps, dropPend_keeps]

theorem steady_settleOne {p : Pending} {ok : Bool} : Steady a (settleOne p ok s) ↔ Steady a s := by
  cases ok
  all_goals simp (disch := decide) only [Steady, settleOne, reqDone_keeps, steady_commitPend, steady_discardPend, if_true,
    Bool.false_eq_true, if_false]

theorem steady_settlePend {ns d : Nat} {time : Stamp} {ok : Bool} : Steady a (settlePend ns d time ok s) ↔ Steady a s := by
  unfold settlePend
  split
  · rfl
  · exact steady_settleOne

theorem steady_holdPend {id seq slot : Nat} {h : Shard} {medium : Bool} : Steady a (holdPend id seq slot h medium s) ↔ Steady a s := by
  unfold holdPend
  dsimp only
  split
  · next n u found =>
    have here : meldFor h.suit h.tombstone none (shardRecord h medium).units s = some (n, u) := by
      cases medium
      · cases found
      · exact found
    simp (disch := decide) only [Steady, keeps_unpowered, sealRow_keeps, placeIn_keeps, steady_kittyCancel, meldFor_keeps here]
  · simp (disch := decide) only [Steady, steady_ite, reqDone_keeps, keeps_unpowered, debitShard_keeps1, ite_self]

theorem steady_runReq {id seq : Nat} {x : Session} {q : FabReq} : Steady a (runReq id seq x q s) ↔ Steady a s := by
  unfold runReq
  dsimp only
  repeat' split
  all_goals simp (disch := decide) only [Steady, reqDone_keeps, steady_holdPend, steady_settlePend, steady_settleKitty,
    rebuildAntes_keeps, debitShard_keeps1, commitRecord_keeps, recordHere_keeps, returnShard_keeps, steady_kittyCancel]

theorem steady_acceptReq {id seq : Nat} {q : FabReq} : Steady a (acceptReq id seq q s) ↔ Steady a s := by
  unfold acceptReq
  split
  · rfl
  · simp (disch := decide) only [Steady, steady_runReq, redebit_keeps, modSess_keeps]

theorem steady_replay {id n : Nat} : Steady a (replay id n s) ↔ Steady a s := by
  induction n generalizing s with
  | zero => rfl
  | succ n ih =>
    unfold replay
    repeat' split
    all_goals simp (disch := decide) only [Steady, ih, steady_acceptReq, refuseReq_keeps, keeps_unpowered]

theorem steady_arriveReq {id seq wanted : Nat} {q : FabReq} : Steady a (arriveReq id seq wanted q s) ↔ Steady a s := by
  unfold arriveReq
  dsimp only
  repeat' split
  all_goals simp (disch := decide) only [Steady, steady_replay, steady_acceptReq, steady_raiseGrant, refuseReq_keeps, ackFrame_keeps,
    duplicateReq_keeps, keeps_unpowered]

/-! ## Shards (ch 06) -/

theorem steady_goOn {id seq : Nat} : Steady a (goOn id seq s) ↔ Steady a s := by
  unfold goOn
  repeat' split
  all_goals simp (disch := decide) only [Steady, steady_tryCommit, runKeyed_keeps]

theorem steady_takeShard {f : InFlight} {p : Protect} {holder : Nat} {committed : Bool} {sh : Shard} :
    Steady a (takeShard f p holder committed sh s) ↔ Steady a s := by
  unfold takeShard
  dsimp only
  repeat' split
  all_goals simp (disch := decide) only [Steady, steady_goOn, modProt_keeps, sendRequest_keeps]

theorem steady_endSessions {node : Nat} : Steady a (endSessions node s) ↔ Steady a s := by
  unfold endSessions
  refine (steady_each (fun p u => ?_) _).trans ?_
  · repeat' split
    all_goals simp (disch := decide) only [Steady, releaseSession_keeps, undebit_keeps, steady_kittyCancel]
  · simp (disch := decide) only [Steady, keeps_unpowered]

theorem steady_storeRebuilt {h : Shard} (e : storeRebuilt h s = some t) : Steady a t ↔ Steady a s := by
  unfold storeRebuilt at e
  dsimp only at e
  split at e
  · cases e
  split at e
  · cases e
  · next made =>
    cases e
    simp (disch := decide) only [Steady, steady_settleKitty, commitRecord_keeps, steady_kittyReserve, makeDebits_keeps made]

theorem steady_rebuildOn {o : Owed} {h : Shard} : Steady a (rebuildOn o h s) ↔ Steady a s := by
  unfold rebuildOn
  split
  · split
    · rfl
    · next stored =>
      simp (disch := decide) only [Steady, settleRebuild_keeps, keeps_unpowered]
      split at stored
      · cases stored
        rfl
      · exact steady_storeRebuilt stored
  · simp (disch := decide) only [Steady, sendRequest_keeps]

theorem steady_rebuildShard {o : Owed} {h : Shard} : Steady a (rebuildShard o h s) ↔ Steady a s := by
  unfold rebuildShard
  split
  · rfl
  · next taken => simp (disch := decide) only [Steady, steady_rebuildOn, dropGathered_keeps, takeAntes_keeps taken]

theorem steady_rebuildFrom {o : Owed} {i : Nat} : Steady a (rebuildFrom o i s) ↔ Steady a s := by
  unfold rebuildFrom
  dsimp only
  repeat' split
  all_goals simp (disch := decide) only [Steady, steady_rebuildShard, askSources_keeps]

/-! ## Rows of the flash (ch 09) -/

theorem steady_writeLanded {id seq : Nat} : Steady a (writeLanded id seq s) ↔ Steady a s := by
  unfold writeLanded
  dsimp only
  repeat' split
  all_goals simp (disch := decide) only [Steady, steady_tryCommit, tryDecide_keeps, modFlight_keeps]

theorem steady_recordLanded {x : Placed} : Steady a (recordLanded x s) ↔ Steady a s := by
  unfold recordLanded
  dsimp only
  repeat' split
  all_goals simp (disch := decide) only [Steady, keeps_unpowered, steady_kittyFree, onFlash_keeps, copyLanded_keeps,
    systemLanded_keeps, shardLanded_keeps, steady_writeLanded]

theorem steady_rowDone {n r : Nat} : Steady a (rowDone n r s) ↔ Steady a s := by
  simp (disch := decide) only [Steady, rowDone, settleMeld_keeps]
  refine (steady_each (fun _ _ => steady_recordLanded) _).trans ?_
  simp (disch := decide) only [Steady, setMeld_keeps, keeps_unpowered]

theorem steady_rowTorn {n : Nat} {failed : List ProgFail} : Steady a (rowTorn n failed s) ↔ Steady a s := by
  unfold rowTorn
  dsimp only
  refine steady_relocateMeld.trans ?_
  simp (disch := decide) only [Steady, settleMeld_keeps]
  refine (steady_each (fun _ _ => by simp (disch := decide) only [Steady, placeAgain_keeps]) _).trans
    ((steady_each (fun _ u => steady_each (fun _ _ => ?_) _) _).trans ?_)
  · simp (disch := decide) only [Steady, modFlashChan_keeps, keeps_unpowered, retireBlock_keeps]
  · simp (disch := decide) only [Steady, stopMeld_keeps1]

end
end Sys2Proof.Machine
end

section
/-! PROOFS. What the supply invariant looks at, in pages, registers, lanes, tests and the recovery: none of them moves it. -/

namespace Sys2Proof.Machine

open Sys2Proof

-- Proofs elaborated side by side wait on one another's lemmas, each in a thread of its own; in order, one thread does.
set_option Elab.async false

section
variable {a s t : State}

/-! ## Pages and the update (ch 10, ch 13) -/

theorem steady_pageWrite {page n v : Nat} (e : pageWrite s page n v = some t) : Steady a t ↔ Steady a s := by
  rcases pageWrite_written e with power | auto | frozen | other
  · exact pageIf_eq power ▸ steady_retarget.trans steady_same
  · exact pageIf_eq auto ▸ steady_same
  · exact pageIf_eq frozen ▸ steady_same
  · exact steady_same (supplyView_of_keeps (other.mono (by decide)))

theorem steady_pagePut {page v : Nat} : Steady a (pagePut page v s) ↔ Steady a s := by
  unfold pagePut
  split
  · next e => exact steady_pageWrite e
  · rfl

theorem steady_resetPage {page f : Nat} : Steady a (resetPage page f s) ↔ Steady a s :=
  Iff.trans steady_same steady_pagePut

theorem steady_beginTrial : Steady a (beginTrial s) ↔ Steady a s :=
  Iff.trans steady_same ((steady_each (fun _ _ => steady_resetPage) _).trans steady_same)

theorem steady_rollbackPages : Steady a (rollbackPages s) ↔ Steady a s :=
  Iff.trans steady_same (steady_each (fun _ _ => steady_pagePut) _)

theorem steady_settingWrite {b : Nat} {x : Mailbox} : Steady a (settingWrite b x s) ↔ Steady a s := by
  unfold settingWrite
  repeat' split
  all_goals simp (disch := decide) only [Steady, finishBox_keeps]
  next e => exact steady_pageWrite e

theorem steady_enterRecovery : Steady a (enterRecovery s) ↔ Steady a s := by
  have recorded : Steady a (recordCalendar { s with boot := { s.boot with stage := 3 } }) ↔ Steady a s := by
    simp (disch := decide) only [Steady, recordCalendar_keeps, keeps_unpowered]
  unfold enterRecovery
  dsimp only
  simp (disch := decide) only [Steady, steady_ite, keeps_unpowered, steady_beginTrial, ite_self]
  exact recorded

/-! ## Lanes (ch 07) -/

theorem steady_sleepTest {n : Nat} {m : Mark} {b : Bytes} : Steady a (sleepTest n m b s).1 ↔ Steady a s := by
  unfold sleepTest
  repeat' split
  all_goals simp (disch := decide) only [Steady, steady_startExit, countLane_keeps]

theorem steady_clientFrame {n : Nat} {m : Mark} {b : Bytes} : Steady a (clientFrame n m b s) ↔ Steady a s := by
  unfold clientFrame
  dsimp only
  repeat' split
  all_goals simp (disch := decide) only [Steady, pauseArrives_keeps, dropFiltered_keeps, storeClient_keeps, countGood_keeps,
    steady_sleepTest]

theorem steady_fabricFrame {n : Nat} {m : Mark} {b : Bytes} : Steady a (fabricFrame n m b s) ↔ Steady a s := by
  unfold fabricFrame
  dsimp only
  repeat' split
  all_goals simp (disch := decide) only [Steady, takeVoid_keeps, badFrame_keeps, dropFrame_keeps, creditedFrame_keeps, countGood_keeps,
    steady_sleepTest]

theorem steady_receiveFrame {n : Nat} {b : Bytes} : Steady a (receiveFrame n b s) ↔ Steady a s := by
  unfold receiveFrame
  dsimp only
  repeat' split
  all_goals simp (disch := decide) only [Steady, steady_clientFrame, steady_fabricFrame, countLane_keeps]

/-! ## Ledgers and tests (ch 02, ch 14) -/

theorem steady_ledgerResponse {l : Ledger} {unit : Nat} : Steady a (ledgerResponse l unit s) ↔ Steady a s := by
  have told {p} : Steady a (event 0x0301 p s) ↔ Steady a s := by simp (disch := decide) only [Steady, event_keeps]
  unfold ledgerResponse
  dsimp only
  repeat' split
  case h_4 => exact steady_retarget.trans (Iff.trans steady_same told)
  all_goals simp (disch := decide) only [Steady, revokeLane_keeps, reopenSession_keeps, raiseOn_keeps, setQueue_keeps, retireEngine_keeps,
    enterReadOnly_keeps, keeps_unpowered, event_keeps]

theorem steady_testFailed {n i c : Nat} : Steady a (testFailed n i c s) ↔ Steady a s := by
  unfold testFailed
  dsimp only
  repeat' split
  all_goals simp (disch := decide) only [Steady, retireEngine_keeps, retireCore_keeps, setDie_keeps, event_keeps, setSub_keeps,
    keeps_unpowered, steady_eraseSet, emptySlot_keeps]

/-! ## Registers (ch 10) -/

theorem steady_clearWord {o : Nat} : Steady a (clearWord o s) ↔ Steady a s := by
  unfold clearWord
  dsimp only
  split
  case h_61 => simp (disch := decide) only [Steady, clearIndexed_keeps]
  all_goals exact steady_same

theorem steady_writeTask {n o w : Nat} : Steady a (writeTask n o w s) ↔ Steady a s := by
  unfold writeTask
  dsimp only
  repeat' split
  all_goals simp (disch := decide) only [Steady, steady_startExit, setTask_keeps]

theorem steady_writeBox {n o w : Nat} : Steady a (writeBox n o w s) ↔ Steady a s := by
  unfold writeBox
  dsimp only
  repeat' split
  all_goals simp (disch := decide) only [Steady, steady_startExit, setBox_keeps, keeps_unpowered]

theorem steady_writeWord {p o w : Nat} : Steady a (writeWord p o w s) ↔ Steady a s := by
  unfold writeWord
  dsimp only
  repeat' split
  all_goals simp (disch := decide) only [Steady, followAlert_keeps, modPort_keeps, steady_writeTask, steady_writeBox, writeVec_keeps,
    writeDiag_keeps]

/-! ## The recovery (ch 04) -/

theorem steady_loseHeld : Steady a (loseHeld s) ↔ Steady a s := steady_same

theorem steady_carryPlan {f : InFlight} {p : Plan} : Steady a (carryPlan f p s) ↔ Steady a s := steady_commitFlight

theorem steady_carryTrick {lost : Bool} {f : InFlight} : Steady a (carryTrick lost f s) ↔ Steady a s := by
  have waits (l : List InFlight) (u : State) : Steady a (each carryWaits l u) ↔ Steady a u :=
    steady_each (fun _ _ => by simp (disch := decide) only [Steady, carryWaits_keeps]) l
  unfold carryTrick
  dsimp only
  split
  · exact steady_each (fun _ _ => steady_carryPlan) _
  split
  · exact steady_each (fun _ _ => steady_carryPlan) _
  split
  · exact waits _ s
  split
  · exact (steady_each (fun _ _ => steady_carryPlan) _).trans steady_carryPlan
  · exact (steady_each (fun _ _ => steady_carryPlan) _).trans steady_carryPlan

theorem steady_carryOne {lost : Bool} {f : InFlight} : Steady a (carryOne lost f s) ↔ Steady a s := by
  unfold carryOne
  repeat' split
  all_goals simp (disch := decide) only [Steady, steady_carryTrick, steady_carryPlan, carryWaits_keeps]

theorem steady_carryAll {lost : Bool} : Steady a (carryAll lost s) ↔ Steady a s :=
  (steady_each (fun _ _ => steady_carryOne) _).trans steady_same

theorem steady_reachFour : Steady a (reachFour s) ↔ Steady a s := by
  simp (disch := decide) only [Steady, reachFour_keeps]

theorem steady_recoverAll {idx : State → State} (hi : ∀ u, Steady a (idx u) ↔ Steady a u) : Steady a (recoverAll idx s) ↔ Steady a s := by
  have noted {c : Prop} [Decidable c] : Steady a (recordLoss (if c then event 0x0C06 [] (loseHeld s) else s)) ↔ Steady a s := by
    simp (disch := decide) only [Steady, recordLoss_keeps, steady_ite, event_keeps, steady_loseHeld, ite_self]
  unfold recoverAll
  dsimp only
  simp (disch := decide) only [Steady, steady_reachFour, zeroCounters_keeps, steady_eraseSets, steady_carryAll, steady_ite,
    returnRows_keeps, keeps_unpowered, ite_self]
  exact (hi _).trans noted

end
end Sys2Proof.Machine
end

section
/-! PROOFS. The commands that hand nothing to the supply: after each, what the invariant looks at reads as before. -/

namespace Sys2Proof.Machine

open Sys2Proof

-- Proofs elaborated side by side wait on one another's lemmas, each in a thread of its own; in order, one thread does.
set_option Elab.async false

section
variable {s t : State}

/-- Every next state shows the supply invariant what `s` shows it. -/
def Calm (s : State) (r : R) : Prop := ∀ t, r = .next t → Steady s t

theorem calm_of_keeps {w : List Area} {r : R} (k : KeepsR w s r) (hw : subB w unpowered = true) : Calm s r :=
  fun t e => steady_iff.mpr (supplyView_of_keeps ((k t e).mono hw))

theorem calm_next (k : Steady s t ↔ Steady s s) : Calm s (.next t) := fun _ e => by
  cases e
  exact k.mpr (Steady.refl s)

theorem steady_guard {a : State} {c : Bool} {f : State → State} (k : Steady a (f s) ↔ Steady a s) : Steady a (guard c f s) ↔ Steady a s := by
  unfold guard
  split
  · exact k
  · rfl

theorem calm_running {f : State → State} (k : Steady s (f s) ↔ Steady s s) : Calm s (whenRunning f s) :=
  calm_next (steady_ite.trans (by rw [k]; exact iff_of_eq (ite_self _)))

theorem calm_guarded {f : State → State} {c : Bool} (k : Steady s (f s) ↔ Steady s s) : Calm s (whenRunning (guard c f) s) :=
  calm_running (steady_guard k)

/-! ## Objects and the flash -/

theorem calm_rowProgramStart (meld : Nat) : Calm s (execRowProgramStart meld s) := by
  refine calm_running ?_
  dsimp only
  split
  · rfl
  split
  · rfl
  split
  · split
    · rfl
    · exact steady_same
  · simp (disch := decide) only [Steady, setMeld_keeps]

theorem calm_indexMoveToMedia (addr : Nat) : Calm s (execIndexMoveToMedia addr s) := by
  refine calm_running ?_
  dsimp only
  repeat' split
  all_goals simp (disch := decide) only [Steady, steady_settleCopied, moveEntry_keeps, keeps_unpowered]

theorem steady_relocateAll {a : State} {kind : Maint} {firm recovery : Bool} (l : List Nat) :
    Steady a (each (relocateMeld kind firm recovery) l s) ↔ Steady a s :=
  steady_each (fun _ _ => steady_relocateMeld) l

theorem calm_dieRebuild (die : Nat) : Calm s (execDieRebuild die s) := by
  refine calm_guarded ?_
  simp (disch := decide) only [Steady, steady_ite, event_keeps, setDie_keeps, steady_relocateAll, ite_self]

theorem calm_wearLevelRelocation (channel plane : Nat) : Calm s (execWearLevelRelocation channel plane s) := by
  refine calm_running ?_
  dsimp only
  repeat' split
  all_goals simp (disch := decide) only [Steady, steady_relocateMeld]

theorem calm_backgroundGc (set : Nat) : Calm s (execBackgroundGc set s) := by
  refine calm_guarded ?_
  split
  · rfl
  · exact steady_relocateMeld

theorem calm_foregroundGc (set : Nat) : Calm s (execForegroundGc set s) := by
  refine calm_guarded ?_
  split
  · rfl
  · exact steady_relocateMeld

theorem calm_indexSweepPass : Calm s (execIndexSweepPass s) := by
  refine calm_running (Iff.trans steady_same ((steady_each (fun _ _ => ?_) _).trans (steady_each (fun _ _ => ?_) _)))
  · simp only [steady_ite, steady_startErase, ite_self]
  · split
    · simp (disch := decide) only [Steady, removeEntry_keeps]
    · rfl

theorem calm_rowProgramComplete (meld : Nat) (failed : List ProgFail) : Calm s (execRowProgramComplete meld failed s) := by
  refine calm_running ?_
  dsimp only
  repeat' split
  all_goals simp (disch := decide) only [Steady, steady_rowDone, steady_rowTorn]

theorem calm_admissionStep (id : Nat) : Calm s (execAdmissionStep id s) := by
  refine calm_running ?_
  split
  · rfl
  · split
    · simp (disch := decide) only [Steady, countStall_keeps]
    · exact steady_guard steady_admitItems

theorem calm_powerLossRecovery (found : RecoveryInput) : Calm s (execPowerLossRecovery found s) := by
  refine calm_guarded ?_
  split
  · exact steady_recoverAll fun _ => Iff.rfl
  · exact steady_same

theorem calm_fullScanRebuild (found : RecoveryInput) : Calm s (execFullScanRebuild found s) := by
  have rebuilt (u : State) : Steady s (rebuildIndex found u) ↔ Steady s u := by
    simp (disch := decide) only [Steady, rebuildIndex_keeps]
  refine calm_running ?_
  dsimp only
  repeat' split
  all_goals simp (disch := decide) only [Steady, afterChannel_keeps, steady_reachFour, keeps_unpowered, rebuildIndex_keeps]
  exact steady_recoverAll rebuilt

/-! ## Queues, sessions and shards -/

theorem calm_sqTailWrite (port ctx tail : Nat) (head : Option Nat) : Calm s (execSqTailWrite port ctx tail head s) :=
  calm_running (by simp (disch := decide) only [Steady, doorbell_keeps, steady_startExit])

theorem calm_cqHeadWrite (port ctx head : Nat) : Calm s (execCqHeadWrite port ctx head s) :=
  calm_running (by simp (disch := decide) only [Steady, doorbell_keeps, steady_startExit])

theorem calm_fabricOpen (src request : Nat) : Calm s (execFabricOpen src request s) := by
  refine calm_guarded ?_
  dsimp only
  split
  · simp (disch := decide) only [Steady, sendOwn_keeps]
  · simp (disch := decide) only [Steady, sendAck_keeps, steady_raiseGrant, sendOwn_keeps, openSession_keeps, bindCtx_keeps1]

theorem calm_fabricClose (id : Nat) : Calm s (execFabricClose id s) := by
  refine calm_guarded ?_
  repeat' split
  all_goals simp (disch := decide) only [Steady, releaseSession_keeps, undebit_keeps, steady_kittyCancel]

theorem calm_orderReply (src request : Nat) (ans : OrderAnswer) : Calm s (execOrderReply src request ans s) := by
  refine calm_running ?_
  dsimp only
  repeat' split
  all_goals simp (disch := decide) only [Steady, steady_admitItems, keeps_unpowered]

theorem calm_pendingShardResolve (time tie node : Nat) (answer : Recorded) :
    Calm s (execPendingShardResolve time tie node answer s) := by
  refine calm_running ?_
  repeat' split
  all_goals simp only [Steady, steady_settleOne]

theorem calm_shardReadData (id seq holder : Nat) (committed : Bool) (version : Nat) (sh : Shard) :
    Calm s (execShardReadData id seq holder committed version sh s) := by
  refine calm_running ?_
  dsimp only
  repeat' split
  all_goals simp (disch := decide) only [Steady, steady_takeShard, keeps_unpowered]

theorem calm_shardReadAllowanceExpiry (id seq : Nat) : Calm s (execShardReadAllowanceExpiry id seq s) := by
  refine calm_running ?_
  repeat' split
  · rfl
  · rfl
  · refine steady_guard ?_
    simp (disch := decide) only [Steady, steady_goOn, modProt_keeps]

theorem calm_peerFailure (node : Nat) : Calm s (execPeerFailure node s) :=
  calm_guarded (Iff.trans steady_same steady_endSessions)

theorem calm_shardRebuild (ns digest : Nat) : Calm s (execShardRebuild ns digest s) := by
  refine calm_running ?_
  repeat' split
  all_goals simp (disch := decide) only [Steady, settleRebuild_keeps, steady_rebuildFrom, keeps_unpowered]

/-! ## Pages, registers, lanes -/

theorem calm_pageRow {b : Nat} {sel : Mailbox → Bool} : Calm s (whenRunning (takeBox b sel true (settingWrite b)) s) := by
  refine calm_running (takeBox_cases (P := fun u => Steady s u ↔ Steady s s) Iff.rfl (fun st => ?_) (fun _ => ?_))
  · simp (disch := decide) only [Steady, finishBox_keeps]
    exact steady_same
  · exact steady_settingWrite.trans steady_same

theorem calm_registerWrite (port bar offset size value : Nat) : Calm s (execRegisterWrite port bar offset size value s) := by
  refine calm_guarded ?_
  simp (disch := decide) only [Steady, steady_ite, badAccess_keeps, doorbell_keeps, steady_startExit, steady_writeWord, ite_self]

theorem steady_clearWords {a : State} {port offset size : Nat} (l : List Nat) :
    Steady a (each clearWord l (latchHigh port offset size s)) ↔ Steady a s :=
  (steady_each (fun _ _ => steady_clearWord) l).trans (by simp (disch := decide) only [Steady, latchHigh_keeps])

theorem calm_rcRegisterRead (port : Nat) (place : BarPlace) (size : Nat) : Calm s (execRcRegisterRead port place size s) := by
  refine calm_guarded ?_
  simp (disch := decide) only [Steady, steady_ite, steady_clearWords, modPort_keeps, emit_keeps, ite_self]

theorem calm_registerLowHalfRead (port offset : Nat) : Calm s (execRegisterLowHalfRead port offset s) := by
  refine calm_guarded ?_
  repeat' split
  all_goals simp (disch := decide) only [Steady, steady_clearWords, emit_keeps]

theorem calm_laneFrameReceive (lane : Nat) (frame : Bytes) (bad : Nat) : Calm s (execLaneFrameReceive lane frame bad s) := by
  refine calm_guarded ?_
  simp (disch := decide) only [Steady, steady_ite, countLane_keeps, steady_receiveFrame, ite_self]

theorem calm_ledgerFault (l : Ledger) (lhs rhs unit : Nat) : Calm s (execLedgerFault l lhs rhs unit s) := by
  refine calm_running ?_
  simp (disch := decide) only [Steady, steady_ite, steady_ledgerResponse, askRecount_keeps, raiseLedger_keeps, event_keeps, keeps_unpowered,
    ite_self]

theorem calm_frzChain : Calm s (execFrzChain s) := by
  refine calm_next ?_
  split <;> exact steady_same

/-! ## Power states, and the bank's sets -/

theorem calm_powerStateEntry : Calm s (execPowerStateEntry s) :=
  calm_guarded (by simp only [steady_ite, steady_enterState, steady_followIdle, ite_self])

theorem calm_powerStateExit : Calm s (execPowerStateExit s) := calm_running steady_startExit

theorem calm_powerStateExitComplete : Calm s (execPowerStateExitComplete s) := by
  refine calm_running ?_
  dsimp only
  repeat' split
  all_goals exact steady_same

theorem calm_flushSetErase (setB : Bool) : Calm s (execFlushSetErase setB s) := by
  refine calm_running ?_
  split
  · split
    · exact steady_guard (steady_retarget.trans steady_same)
    · rfl
  · split
    · exact steady_guard (steady_retarget.trans steady_same)
    · rfl

end
end Sys2Proof.Machine
end

section
/-! PROOFS. The supply invariant: each operation on the power block and the freeze port keeps it, and so does every step. -/

namespace Sys2Proof.Machine

open Sys2Proof

-- Proofs elaborated side by side wait on one another's lemmas, each in a thread of its own; in order, one thread does.
set_option Elab.async false

section
variable {s t : State}

/-! ## What the invariant rests on -/

theorem watching_of_sup (sup : t.pwr.sup = s.pwr.sup) : watching t = watching s := by
  unfold watching
  rw [sup]

theorem supplyOk_of_view (h : supplyOk s) (view : supplyView t = supplyView s) : supplyOk t := by
  obtain ⟨sup, charger, input, bleed, fault, frozen⟩ : t.pwr.sup = s.pwr.sup ∧ t.pwr.charger = s.pwr.charger ∧
      t.pwr.input = s.pwr.input ∧ t.pwr.bleed = s.pwr.bleed ∧ t.pwr.fault = s.pwr.fault ∧ t.frz.state = s.frz.state := by
    simpa only [supplyView, Prod.mk.injEq] using view
  unfold supplyOk
  rw [charger, sup, fault, input, watching_of_sup sup, bleed, frozen]
  exact h

theorem supplyOk_of_steady (h : supplyOk s) (k : Steady s t) : supplyOk t := supplyOk_of_view h (steady_iff.mp k)

/-- As `supplyOk_of_steady`, for an operation given by its lemma. -/
theorem supplyOk_past {f : State → State} (h : supplyOk s) (k : Steady s (f s) ↔ Steady s s) : supplyOk (f s) :=
  supplyOk_of_steady h (k.mpr (Steady.refl s))

theorem supplyOk_of_pwr {u : State} (pwr : t.pwr = u.pwr) (frz : t.frz = u.frz) (h : supplyOk u) : supplyOk t :=
  supplyOk_of_view h (by simp only [supplyView, pwr, frz])

/-- With the charger, the input path and the bleed off, and no freeze, the invariant holds whatever the supervisor's state. -/
theorem supplyOk_of_off (charger : t.pwr.charger = false) (input : t.pwr.input = false) (bleed : t.pwr.bleed = false)
    (live : t.frz.state = 0) : supplyOk t := by
  unfold supplyOk
  rw [charger, input, bleed, live]
  exact ⟨nofun, nofun, nofun, .inl rfl⟩

/-- The bleed is off wherever the supervisor watches (R586). -/
theorem bleed_off (h : supplyOk s) (on : watching s = true) : s.pwr.bleed = false := by
  obtain ⟨-, -, bleed, -⟩ := h
  by_contra set
  have off : s.pwr.sup = .off := bleed (Bool.eq_true_of_not_eq_false set)
  simp [watching, off] at on

/-- A frozen module is in NORMAL (R646). -/
theorem live_of_sup (h : supplyOk s) (other : s.pwr.sup ≠ .normal) : s.frz.state = 0 := by
  obtain ⟨-, -, -, frozen⟩ := h
  exact frozen.resolve_right fun ⟨_, normal⟩ => other normal

/-! ## The hold-up bank (R570, R573) -/

theorem supplyOk_bankFaulted {code : Nat} (h : supplyOk s) : supplyOk (bankFaulted code s) := by
  obtain ⟨-, input, bleed, frozen⟩ := h
  have frz : (bankFaulted code s).frz = s.frz :=
    (bankFaulted_keeps (wB := [.host, .pwr, .evr, .out]) (by decide)).mpr (Keeps.refl _ s) .frz (by decide)
  exact supplyOk_of_pwr (u := { s with pwr := _ }) (pwr_bankFaulted code s) frz ⟨nofun, input, bleed, frozen⟩

theorem supplyOk_measured {m : BankMeasure} (h : supplyOk s) : supplyOk (measured m s) := by
  obtain ⟨-, input, bleed, frozen⟩ := h
  obtain ⟨l, pwr⟩ := pwr_measured m s
  have frz : (measured m s).frz = s.frz :=
    (measured_keeps (wB := [.host, .pwr, .evr, .out]) (by decide)).mpr (Keeps.refl _ s) .frz (by decide)
  exact supplyOk_of_pwr (u := { s with pwr := _ }) pwr frz ⟨fun on => ⟨of_decide_eq_true on, rfl⟩, input, bleed, frozen⟩

theorem supplyOk_beginMeasure (h : supplyOk s) : supplyOk (beginMeasure s) := by
  obtain ⟨-, input, bleed, frozen⟩ := h
  exact ⟨nofun, input, bleed, frozen⟩

theorem supplyOk_endMeasure {res : Option BankMeasure} (h : supplyOk s) : supplyOk (endMeasure res s) := by
  cases res with
  | some m => exact supplyOk_measured h
  | none => exact supplyOk_bankFaulted (supplyOk_of_view h rfl)

theorem supplyOk_testRan {n i : Nat} {res : TestResult} {measure : Option BankMeasure} (h : supplyOk s) :
    supplyOk (testRan n i res measure s) := by
  unfold testRan
  extract_lets cause _ s1 s2
  clear_value cause
  have ran : supplyOk s2 := by
    dsimp only [s2]
    split
    · exact supplyOk_endMeasure (supplyOk_beginMeasure (supplyOk_of_view h rfl))
    · exact supplyOk_of_view h rfl
  split
  · exact ran
  · refine supplyOk_of_steady ran (steady_testFailed.mpr ?_)
    simp (disch := decide) only [Steady, event_keeps, keeps_unpowered]
    exact Steady.refl s2

theorem supplyOk_endSlice {m : MaintResv} {res : TestResult} {measure : Option BankMeasure} (h : supplyOk s) :
    supplyOk (endSlice m res measure s) := by
  have dropped {x} : supplyOk (dropMaint m.id { s with ist := x }) := supplyOk_of_view h rfl
  unfold endSlice
  dsimp only
  split
  · exact supplyOk_testRan dropped
  · exact dropped

theorem supplyOk_each {α : Type} {f : α → State → State} (hf : ∀ x {u}, supplyOk u → supplyOk (f x u)) (l : List α)
    (h : supplyOk s) : supplyOk (each f l s) := by
  induction l generalizing s with
  | nil => exact h
  | cons x l ih => exact ih (hf x h)

theorem supplyOk_testOne {n : Nat} {p : Nat × TestResult} (h : supplyOk s) : supplyOk (testOne n p s) := by
  unfold testOne
  split
  · exact supplyOk_testRan (supplyOk_of_view h rfl)
  · exact supplyOk_testRan h

/-! ## The supervisor (R562 to R565, R584) -/

theorem supplyOk_thaw {b : Bool} (h : supplyOk s) : supplyOk (thaw b s) := by
  obtain ⟨charger, input, bleed, -⟩ := h
  obtain ⟨e, f, pwr⟩ := thaw_pwr b s
  have power : supplyOk { s with pwr := { s.pwr with aErase := e, bErase := f }, frz := (thaw b s).frz } :=
    ⟨charger, input, bleed, .inl (thaw_frz_state b s)⟩
  exact supplyOk_of_pwr (u := { s with pwr := _, frz := _ }) pwr rfl power

theorem supplyOk_enterDip {mv : Nat} (h : supplyOk s) (on : watching s = true) : supplyOk (enterDip mv s) := by
  obtain ⟨e, f, pwr⟩ := thaw_pwr true s
  have off : (thaw true s).pwr.bleed = false := by
    rw [pwr]
    exact bleed_off h on
  refine ⟨nofun, fun _ => rfl, fun set => ?_, .inl (thaw_frz_state true s)⟩
  exact Bool.noConfusion (off.symm.trans set)

theorem supplyOk_enterFlush (h : supplyOk s) (on : watching s = true) : supplyOk (enterFlush s) := by
  obtain ⟨e, f, pwr⟩ := thaw_pwr true s
  have bleed : (enterFlush s).pwr.bleed = s.pwr.bleed := by
    change (silenced (thaw true s)).pwr.bleed = _
    rw [silenced_pwr, pwr]
  exact supplyOk_of_off rfl rfl (bleed.trans (bleed_off h on)) (enterFlush_frz s)

theorem supplyOk_flushInstead {mv : Nat} (h : supplyOk s) (on : watching s = true) (e : flushInstead mv s = some t) : supplyOk t := by
  unfold flushInstead at e
  dsimp only at e
  split at e
  · cases e
    exact supplyOk_enterFlush (supplyOk_of_view h rfl) on
  split at e
  · cases e
    exact supplyOk_enterFlush (supplyOk_of_view h rfl) on
  · cases e

/-- Where the sample meets a transition to FLUSH, FLUSH is entered; else what the event itself does (R563). -/
theorem supplyOk_flushElse {mv : Nat} (h : supplyOk s) (on : watching s = true) (k : supplyOk t) :
    supplyOk ((flushInstead mv s).getD t) := by
  cases e : flushInstead mv s with
  | none => exact k
  | some u => exact supplyOk_flushInstead h on e

theorem supplyOk_leaveDip (h : supplyOk s) (resumes : s.pwr.sup = .resume) : supplyOk (leaveDip s) := by
  have live := live_of_sup h (by rw [resumes]; decide)
  have bleed := bleed_off h (by rw [watching, resumes])
  refine ⟨fun on => ⟨rfl, of_decide_eq_true on⟩, fun _ => rfl, fun set => ?_, .inl live⟩
  exact Bool.noConfusion (bleed.symm.trans set)

theorem supplyOk_coldStart (cause : Nat) (inp : BootInput) (s : State) : supplyOk (coldStart cause inp s) := by
  have pwr := coldStart_pwr cause inp s
  exact supplyOk_of_off (by rw [pwr]; rfl) (by rw [pwr]; rfl) (by rw [pwr]; rfl) (coldStart_frz ..)

theorem supplyOk_restart (cause : Nat) (inp : BootInput) (s : State) : supplyOk (restart cause inp s) := supplyOk_coldStart ..

theorem view_closeFlush (s : State) : supplyView (closeFlush s) = supplyView s := by
  unfold closeFlush
  split <;> rfl

/-! ## The freeze (R646, R650) -/

theorem supplyOk_freezeNow (h : supplyOk s) (normal : s.pwr.sup = .normal) : supplyOk (freezeNow s) := by
  obtain ⟨charger, input, bleed, -⟩ := h
  have pwr : (freezeNow s).pwr = s.pwr :=
    (freezeNow_keeps (wB := [.mem, .out, .frz]) (by decide)).mpr (Keeps.refl _ s) .pwr (by decide)
  exact supplyOk_of_pwr (u := { s with frz := (freezeNow s).frz }) pwr rfl
    ⟨charger, input, bleed, .inr ⟨congrArg Freeze.state (frz_freezeNow s), normal⟩⟩

theorem supplyOk_tryFreeze (h : supplyOk s) : supplyOk (tryFreeze s) := by
  by_cases may : s.frz.mode ≠ 0 ∧ 1 ≤ s.boot.stage ∧ s.pwr.sup = .normal ∧ s.frz.state = 0
  · unfold tryFreeze guard
    split
    · exact supplyOk_freezeNow h may.2.2.1
    · exact h
  · rwa [tryFreeze_same may]

/-! ## The rails, the boot and time (R566, R647) -/

/-- The invariant holds, and the supervisor watches. -/
structure Watched (s : State) : Prop where
  ok : supplyOk s
  on : watching s = true

theorem Watched.of_view (h : Watched s) (view : supplyView t = supplyView s) : Watched t :=
  ⟨supplyOk_of_view h.ok view, (watching_of_sup (congrArg (·.1) view)).trans h.on⟩

theorem Watched.of_steady (h : Watched s) (k : Steady s t) : Watched t := h.of_view (steady_iff.mp k)

theorem watched_of_running (h : supplyOk s) (run : running s = true) : Watched s :=
  ⟨h, (Bool.and_eq_true_iff.mp run).1⟩

/-- The rails come up under a supervisor that watches: the charger starts in NORMAL alone, with no bank fault (R566). -/
theorem watched_railsUp (h : Watched s) : Watched (railsUp s) := by
  obtain ⟨⟨charger, -, bleed, frozen⟩, on⟩ := h
  refine ⟨⟨fun charges => ?_, fun _ => on, bleed, frozen⟩, on⟩
  rcases Bool.or_eq_true_iff.mp charges with already | starts
  · exact charger already
  · exact of_decide_eq_true (Bool.and_eq_true_iff.mp starts).2

theorem watched_modPort {p : Nat} {f : Port → Port} (h : Watched s) : Watched (modPort p f s) := h.of_view rfl

theorem watched_deassertPerst {port sel : Nat} {sep : Bool} (h : Watched s) : Watched (deassertPerst port sel sep s) := by
  unfold deassertPerst
  refine watched_modPort (watched_railsUp (h.of_steady ?_))
  simp (disch := decide) only [Steady, steady_ite, event_keeps, keeps_unpowered, ite_self]
  exact Steady.refl s

theorem watched_lateDeassert (h : Watched s) : Watched (lateDeassert s) := by
  unfold lateDeassert
  split
  · exact h
  · generalize s.host.early = l
    have cleared : Watched { s with host := { s.host with early := [] } } := h.of_view rfl
    generalize { s with host := { s.host with early := [] } } = u at cleared
    induction l generalizing u with
    | nil => exact cleared
    | cons x l ih => exact ih _ (watched_deassertPerst cleared)

theorem supplyOk_passTime {d : Nat} (h : supplyOk s) : supplyOk (passTime d s) := by
  unfold passTime
  extract_lets s1 s2
  have passed : Steady s s1 := by
    dsimp only [s1]
    simp (disch := decide) only [Steady, advanceTime, keeps_unpowered, steady_ite, steady_followIdle, ite_self]
    exact Steady.refl s
  split
  · exact supplyOk_of_steady h passed
  · next run =>
    have watched : Watched s1 := watched_of_running (supplyOk_of_steady h passed) (Bool.eq_true_of_not_eq_false run)
    refine supplyOk_tryFreeze (watched_lateDeassert (watched.of_steady ?_)).ok
    simp (disch := decide) only [Steady, steady_followPower, steady_ite, newSlot_keeps, s2, followHeat_keeps, ite_self]
    exact Steady.refl s1

theorem supplyOk_bootFailed (h : supplyOk s) : supplyOk (bootFailed s) := by
  have noted {u : State} {x : Update} (k : supplyOk u) : supplyOk (event 0x0D01 [] { u with upd := x }) :=
    supplyOk_of_steady k (by
      simp (disch := decide) only [Steady, event_keeps, keeps_unpowered]
      exact Steady.refl u)
  unfold bootFailed
  dsimp only
  split
  · exact supplyOk_coldStart ..
  split
  · exact supplyOk_of_view h rfl
  · exact noted (supplyOk_coldStart ..)

theorem supplyOk_bootStep (h : Watched s) : supplyOk (bootStep s) := by
  have read : supplyOk (readRecord (railsUp s)) := by
    unfold readRecord
    split
    · exact supplyOk_of_view (watched_railsUp h).ok rfl
    · exact (watched_railsUp h).ok
  unfold bootStep
  split
  · dsimp only
    split
    · exact supplyOk_of_view read rfl
    split
    · exact supplyOk_bootFailed read
    · exact supplyOk_of_steady read (steady_findSets.mpr (steady_iff.mpr rfl))
  · refine supplyOk_of_steady h.ok ?_
    simp (disch := decide) only [Steady, endPowerOnTraining_keeps]
    exact Steady.refl s
  · exact supplyOk_past h.ok steady_enterRecovery
  · split
    · exact h.ok
    · exact supplyOk_past h.ok steady_reachFour
  · exact h.ok

theorem supplyOk_recoveryCommit {reply : Nat → State → State} (h : supplyOk s)
    (hr : ∀ n u, supplyView (reply n u) = supplyView u) : supplyOk (recoveryCommit reply s) := by
  unfold recoveryCommit
  dsimp only
  split
  · exact supplyOk_coldStart ..
  · exact supplyOk_of_view h (hr _ _)

end
end Sys2Proof.Machine
end

section
/-! PROOFS. Every step keeps the invariant of charger, input path, bleed and freeze (ch 12, ch 14). -/

namespace Sys2Proof.Machine

open Sys2Proof

-- Proofs elaborated side by side wait on one another's lemmas, each in a thread of its own; in order, one thread does.
set_option Elab.async false

section
variable {s t : State}

/-- The supply invariant holds in every next state. -/
def Sound (r : R) : Prop := ∀ t, r = .next t → supplyOk t

theorem sound_of_calm {r : R} (h : supplyOk s) (k : Calm s r) : Sound r := fun t e => supplyOk_of_steady h (k t e)

theorem sound_next (h : supplyOk t) : Sound (.next t) := fun _ e => by
  cases e
  exact h

theorem supplyOk_guard {c : Bool} {f : State → State} (h : supplyOk s) (hf : c = true → supplyOk (f s)) : supplyOk (guard c f s) := by
  unfold guard
  split
  · next holds => exact hf holds
  · exact h

theorem sound_running {f : State → State} (h : supplyOk s) (hf : Watched s → supplyOk (f s)) : Sound (whenRunning f s) := by
  refine sound_next ?_
  split
  · next run => exact hf (watched_of_running h run)
  · exact h

theorem sound_guarded {f : State → State} {c : Bool} (h : supplyOk s) (hf : supplyOk (f s)) : Sound (whenRunning (guard c f) s) :=
  sound_running h fun _ => supplyOk_guard h fun _ => hf

/-- A command that lays other fields of the power block. -/
theorem supplyOk_pwr {p : Power} (h : supplyOk s) (view : supplyView { s with pwr := p } = supplyView s := by rfl) :
    supplyOk { s with pwr := p } := supplyOk_of_view h view

theorem supplyOk_retarget (h : supplyOk s) : supplyOk (retarget s) := supplyOk_past h steady_retarget

theorem supplyOk_event {code : Nat} {payload : List Nat} (h : supplyOk s) : supplyOk (event code payload s) :=
  supplyOk_past (f := event code payload) h (by simp (disch := decide) only [Steady, event_keeps])

/-! ## The bank -/

theorem sound_bankFault {kind : BankFaultKind} {mv : Nat} (h : supplyOk s) : Sound (execBankFault kind mv s) :=
  sound_next (supplyOk_guard h fun _ => supplyOk_bankFaulted (supplyOk_pwr h))

theorem sound_bankFaultRetry {res : Option BankMeasure} (h : supplyOk s) : Sound (execBankFaultRetry res s) := by
  refine sound_next (supplyOk_guard h fun _ => ?_)
  cases res with
  | some m => exact supplyOk_measured h
  | none => exact supplyOk_pwr h

theorem sound_bankBelow2v {mv : Nat} (h : supplyOk s) : Sound (execBankBelow2v mv s) := by
  refine sound_next (supplyOk_guard h fun _ => supplyOk_retarget ?_)
  obtain ⟨-, input, bleed, frozen⟩ := h
  exact ⟨fun on => (of_decide_eq_true on).symm, input, bleed, frozen⟩

theorem sound_bankCharged {mv : Nat} (h : supplyOk s) : Sound (execBankCharged mv s) := by
  refine sound_next (supplyOk_guard h fun _ => ?_)
  dsimp only
  split
  · exact supplyOk_retarget (supplyOk_pwr h)
  split
  · exact supplyOk_beginMeasure (supplyOk_retarget (supplyOk_pwr h))
  · exact supplyOk_retarget (supplyOk_pwr h)

/-! ## The supply -/

theorem sound_supplyHigh {mv : Nat} (h : supplyOk s) : Sound (execSupplyHigh mv s) := by
  exact sound_next (supplyOk_guard h fun _ => supplyOk_event (supplyOk_pwr h))

theorem sound_supplyVWarn {mv : Nat} (h : supplyOk s) : Sound (execSupplyVWarn mv s) := by
  refine sound_next ?_
  split
  · next normal =>
    have on : watching s = true := by rw [watching, normal]
    exact supplyOk_flushElse h on (supplyOk_enterDip h on)
  · exact h

/-- Between DIP and RESUME the charger is off and the module is not frozen. -/
theorem supplyOk_moves {p : Power} (h : supplyOk s) (from_ : s.pwr.sup ≠ .normal) (on : watching s = true)
    (to_ : watching { s with pwr := p } = true) (charger : p.charger = s.pwr.charger := by rfl)
    (bleed : p.bleed = s.pwr.bleed := by rfl) : supplyOk { s with pwr := p } := by
  refine ⟨fun charges => ?_, fun _ => to_, fun set => ?_, .inl (live_of_sup (s := s) h from_)⟩
  · exact absurd (h.1 (charger ▸ charges)).1 from_
  · exact Bool.noConfusion ((bleed_off h on).symm.trans (bleed.symm.trans set))

theorem sound_supplyAboveVResume {mv : Nat} (h : supplyOk s) : Sound (execSupplyAboveVResume mv s) := by
  refine sound_next ?_
  split
  · next dip =>
    have on : watching s = true := by rw [watching, dip]
    exact supplyOk_flushElse h on (supplyOk_moves h (by rw [dip]; decide) on rfl)
  · exact supplyOk_pwr h

theorem sound_supplyBelowVResume {mv : Nat} (h : supplyOk s) : Sound (execSupplyBelowVResume mv s) := by
  refine sound_next ?_
  split
  · next resume =>
    have on : watching s = true := by rw [watching, resume]
    exact supplyOk_flushElse h on (supplyOk_moves h (by rw [resume]; decide) on rfl)
  · exact supplyOk_pwr h

theorem sound_resumeHoldEnd (h : supplyOk s) : Sound (execResumeHoldEnd s) := by
  refine sound_next ?_
  split
  · next resume =>
    have on : watching s = true := by rw [watching, resume]
    exact supplyOk_guard h fun _ => supplyOk_flushElse h on (supplyOk_leaveDip h resume)
  · exact h

theorem sound_supplyVBor {mv : Nat} (h : supplyOk s) : Sound (execSupplyVBor mv s) :=
  sound_next (supplyOk_guard h fun on => supplyOk_enterFlush (supplyOk_pwr h) on)

theorem watching_of_inDip (dip : inDip s = true) : watching s = true := by
  unfold inDip at dip
  unfold watching
  cases sup : s.pwr.sup <;> simp_all

theorem sound_dipTimeout (h : supplyOk s) : Sound (execDipTimeout s) :=
  sound_next (supplyOk_guard h fun due =>
    supplyOk_enterFlush (supplyOk_pwr h) (watching_of_inDip (s := s) (Bool.and_eq_true_iff.mp due).1))

/-- Where the supervisor does not watch, charger and input path are off and the module is not frozen. -/
theorem unwatched (h : supplyOk s) (dark : watching s = false) :
    s.pwr.charger = false ∧ s.pwr.input = false ∧ s.frz.state = 0 := by
  have other : s.pwr.sup ≠ .normal := fun normal => by simp [watching, normal] at dark
  refine ⟨Bool.eq_false_iff.mpr fun on => other (h.1 on).1, Bool.eq_false_iff.mpr fun on => ?_, live_of_sup h other⟩
  exact Bool.noConfusion (dark.symm.trans (h.2.1 on))

theorem sound_flushComplete {us mj mv : Nat} (h : supplyOk s) : Sound (execFlushComplete us mj mv s) := by
  refine sound_next ?_
  split
  · next flush =>
    obtain ⟨charger, input, live⟩ := unwatched h (by rw [watching, flush])
    have bleed : s.pwr.bleed = false := Bool.eq_false_iff.mpr fun set => by
      simpa [flush] using h.2.2.1 set
    have view := view_closeFlush s
    simp only [supplyView, Prod.mk.injEq] at view
    obtain ⟨-, charger', input', bleed', -, live'⟩ := view
    exact supplyOk_of_off (charger'.trans charger) (input'.trans input) (bleed'.trans bleed) (live'.trans live)
  · exact h

/-- Once the bank is exhausted the bleed is on, in OFF (R586). -/
theorem supplyOk_bled {p : Power} {c : Clk} (h : supplyOk s) (dark : watching s = false) (off : p.sup = .off)
    (charger : p.charger = s.pwr.charger) (input : p.input = s.pwr.input) : supplyOk { s with pwr := p, clk := c } := by
  obtain ⟨charger', input', live⟩ := unwatched h dark
  refine ⟨fun on => ?_, fun on => ?_, fun _ => off, .inl live⟩
  · exact Bool.noConfusion (charger'.symm.trans (charger.symm.trans on))
  · exact Bool.noConfusion (input'.symm.trans (input.symm.trans on))

theorem sound_bankExhausted {mv : Nat} (h : supplyOk s) : Sound (execBankExhausted mv s) := by
  refine sound_next ?_
  split
  · exact h
  split
  · next flush => exact supplyOk_bled h (by rw [watching, flush]) rfl rfl rfl
  · next spent => exact supplyOk_bled h (by rw [watching, spent]) rfl rfl rfl
  · exact h

theorem sound_supplyAbove7v {mv : Nat} (h : supplyOk s) : Sound (execSupplyAbove7v mv s) := by
  refine sound_next ?_
  split <;> exact supplyOk_of_view h rfl

theorem sound_supplyBelow7v {mv : Nat} (h : supplyOk s) : Sound (execSupplyBelow7v mv s) := by
  refine sound_next ?_
  split <;> exact supplyOk_of_view h rfl

theorem sound_coldStart {inp : BootInput} (h : supplyOk s) : Sound (execColdStart inp s) := by
  refine sound_next ?_
  split
  · exact supplyOk_coldStart ..
  · exact supplyOk_coldStart ..
  · exact h

/-! ## Tests, the update, recovery, resets -/

theorem sound_istSlice {res : TestResult} {measure : Option BankMeasure} (h : supplyOk s) : Sound (execIstSlice res measure s) := by
  refine sound_guarded h ?_
  split
  · split
    · exact h
    · exact supplyOk_endSlice h
  split
  · exact h
  · next target inst _ =>
    cases taken : takeSlice target inst s with
    | none => exact h
    | some u => exact supplyOk_of_view h (supplyView_of_keeps ((takeSlice_keeps taken (by decide)).mpr (Keeps.refl _ s)))

theorem sound_taskRow {n code : Nat} {f : Task → State → State} (h : supplyOk s) (hf : ∀ x, supplyOk (f x s)) :
    Sound (taskRow n code f s) := by
  refine sound_running h fun _ => ?_
  dsimp only
  split
  · exact hf _
  · exact h

theorem supplyOk_finishTask {n st r : Nat} (h : supplyOk s) : supplyOk (finishTask n st r s) := supplyOk_of_view h rfl

theorem sound_selfTest {set : Nat} {results : List TestResult} (h : supplyOk s) : Sound (execSelfTest set results s) := by
  refine sound_taskRow h fun x => ?_
  dsimp only
  split
  · exact supplyOk_finishTask h
  split
  · exact supplyOk_finishTask h
  · exact supplyOk_finishTask (supplyOk_each (fun _ _ => supplyOk_testOne) _ h)

theorem sound_recoveryCommit {set : Nat} (h : supplyOk s) : Sound (execRecoveryCommit set s) :=
  sound_taskRow h fun _ => supplyOk_recoveryCommit h fun _ _ => rfl

theorem sound_uartRecoveryCommit {frame : Bytes} (h : supplyOk s) : Sound (execUartRecoveryCommit frame s) := by
  refine sound_guarded h ?_
  split
  · exact h
  · exact supplyOk_recoveryCommit h fun _ _ => rfl

theorem sound_smbusRecoveryCommit {block : Bytes} {pec : Option Byte} (h : supplyOk s) :
    Sound (execSmbusRecoveryCommit block pec s) := by
  refine sound_next ?_
  split
  · exact supplyOk_of_view h rfl
  split
  · exact supplyOk_recoveryCommit h fun _ _ => rfl
  · exact supplyOk_of_view h rfl

theorem sound_activationMidpoint {ready : Bool} (h : supplyOk s) : Sound (execActivationMidpoint ready s) := by
  refine sound_guarded h ?_
  dsimp only
  split
  · refine supplyOk_of_steady h ?_
    simp (disch := decide) only [Steady, keeps_unpowered, steady_beginTrial]
    exact Steady.refl s
  · exact supplyOk_of_view h rfl

theorem sound_activationWindowEnd {ready : Bool} (h : supplyOk s) : Sound (execActivationWindowEnd ready s) := by
  refine sound_running h fun _ => ?_
  dsimp only
  split
  · exact h
  split
  · exact h
  split
  · exact supplyOk_restart ..
  · refine supplyOk_of_steady h ?_
    simp (disch := decide) only [Steady, keeps_unpowered, steady_ite, activationFailed_keeps, dropWindow_keeps, ite_self]
    exact Steady.refl s

theorem sound_perstDeassert {port sel : Nat} {sep : Bool} (h : supplyOk s) : Sound (execPerstDeassert port sel sep s) := by
  refine sound_running h fun watched => ?_
  dsimp only
  split
  · exact supplyOk_of_view h rfl
  · exact (watched_deassertPerst watched).ok

theorem sound_clockMoves {d : Nat} (h : supplyOk s) : Sound (clockMoves d s) := by
  unfold clockMoves
  split
  · exact sound_next (supplyOk_passTime h)
  · intro _ e
    cases e

/-! ## Every command and every step -/

theorem exec_sound (c : Instr) (h : supplyOk s) : Sound (exec c s) := by
  cases c
  case bankFault => exact sound_bankFault h
  case bankMeasurement => exact sound_next (supplyOk_guard h fun _ => supplyOk_endMeasure h)
  case bankFaultRetry => exact sound_bankFaultRetry h
  case bankBelow35v => exact sound_next (supplyOk_guard h fun _ => supplyOk_retarget (supplyOk_pwr h))
  case bankBelow2v => exact sound_bankBelow2v h
  case bankCharged => exact sound_bankCharged h
  case healthStale => exact sound_next (supplyOk_guard h fun _ => supplyOk_retarget (supplyOk_pwr h))
  case supplyHigh => exact sound_supplyHigh h
  case supplyVWarn => exact sound_supplyVWarn h
  case supplyAboveVResume => exact sound_supplyAboveVResume h
  case supplyBelowVResume => exact sound_supplyBelowVResume h
  case resumeHoldEnd => exact sound_resumeHoldEnd h
  case supplyVBor => exact sound_supplyVBor h
  case dipTimeout => exact sound_dipTimeout h
  case flushComplete => exact sound_flushComplete h
  case bankExhausted => exact sound_bankExhausted h
  case supplyAbove7v => exact sound_supplyAbove7v h
  case supplyBelow7v => exact sound_supplyBelow7v h
  case coldStart => exact sound_coldStart h
  case istSlice => exact sound_istSlice h
  case selfTest => exact sound_selfTest h
  case recoveryCommit => exact sound_recoveryCommit h
  case uartRecoveryCommit => exact sound_uartRecoveryCommit h
  case smbusRecoveryCommit => exact sound_smbusRecoveryCommit h
  case activationMidpoint => exact sound_activationMidpoint h
  case activationWindowEnd => exact sound_activationWindowEnd h
  case bootTimeout => exact sound_guarded h (supplyOk_bootFailed h)
  case moduleResetExecute | allPortsReset => exact sound_guarded h (supplyOk_restart ..)
  case freezeEntry => exact sound_next (supplyOk_tryFreeze (supplyOk_of_view h rfl))
  case thaw => exact sound_next (supplyOk_thaw (supplyOk_of_view h rfl))
  case perstDeassert => exact sound_perstDeassert h
  case slotBoundary => exact sound_clockMoves h
  case rowProgramStart => exact sound_of_calm h (calm_rowProgramStart _)
  case indexMoveToMedia => exact sound_of_calm h (calm_indexMoveToMedia _)
  case dieRebuild => exact sound_of_calm h (calm_dieRebuild _)
  case refreshRelocation => exact sound_of_calm h (calm_guarded steady_relocateMeld)
  case wearLevelRelocation => exact sound_of_calm h (calm_wearLevelRelocation _ _)
  case backgroundGc => exact sound_of_calm h (calm_backgroundGc _)
  case foregroundGc => exact sound_of_calm h (calm_foregroundGc _)
  case indexSweepPass => exact sound_of_calm h calm_indexSweepPass
  case rowProgramComplete => exact sound_of_calm h (calm_rowProgramComplete _ _)
  case admissionStep => exact sound_of_calm h (calm_admissionStep _)
  case commitStep => exact sound_of_calm h (calm_running steady_tryCommit)
  case powerLossRecovery => exact sound_of_calm h (calm_powerLossRecovery _)
  case fullScanRebuild => exact sound_of_calm h (calm_fullScanRebuild _)
  case sqTailWrite => exact sound_of_calm h (calm_sqTailWrite _ _ _ _)
  case cqHeadWrite => exact sound_of_calm h (calm_cqHeadWrite _ _ _)
  case fabricOpen => exact sound_of_calm h (calm_fabricOpen _ _)
  case fabricClose => exact sound_of_calm h (calm_fabricClose _)
  case creditReturn | shardHold | shardCommit | shardDiscard | decide | shardRead | rebuildWrite =>
    exact sound_of_calm h (calm_running steady_arriveReq)
  case fabricRequestInvalid => exact sound_of_calm h (calm_guarded steady_arriveReq)
  case orderReply => exact sound_of_calm h (calm_orderReply _ _ _)
  case pendingShardResolve => exact sound_of_calm h (calm_pendingShardResolve _ _ _ _)
  case shardReadData => exact sound_of_calm h (calm_shardReadData _ _ _ _ _ _)
  case shardReadAllowanceExpiry => exact sound_of_calm h (calm_shardReadAllowanceExpiry _ _)
  case peerFailure => exact sound_of_calm h (calm_peerFailure _)
  case shardRebuild => exact sound_of_calm h (calm_shardRebuild _ _)
  case settingWrite | namespaceRelease | keyGenerate | keyImport | keyZeroize | kikInstall | kikLock | timeSet | calendarSet |
      eventStoreClear | classifierOrderedInsert => exact sound_of_calm h calm_pageRow
  case registerWrite => exact sound_of_calm h (calm_registerWrite _ _ _ _ _)
  case rcRegisterRead => exact sound_of_calm h (calm_rcRegisterRead _ _ _)
  case registerLowHalfRead => exact sound_of_calm h (calm_registerLowHalfRead _ _)
  case laneFrameReceive => exact sound_of_calm h (calm_laneFrameReceive _ _ _)
  case ledgerFault => exact sound_of_calm h (calm_ledgerFault _ _ _ _)
  case frzChain => exact sound_of_calm h calm_frzChain
  case powerStateEntry => exact sound_of_calm h calm_powerStateEntry
  case powerStateExit => exact sound_of_calm h calm_powerStateExit
  case powerStateExitComplete => exact sound_of_calm h calm_powerStateExitComplete
  case flushSetErase => exact sound_of_calm h (calm_flushSetErase _)
  all_goals exact sound_of_calm h (calm_of_keeps (exec_keeps s _) rfl)

theorem supplyOk_idle (h : supplyOk s) (e : idle s = .next t) : supplyOk t := by
  have passed : supplyOk (passTime 1000 s) := supplyOk_passTime h
  unfold idle at e
  split at e
  · cases e
    split
    · next boots => exact supplyOk_bootStep (watched_of_running passed (Bool.and_eq_true_iff.mp boots).1)
    · exact passed
  · cases e

end

/-- Settles O57: `exec_sound` for the command at the front of the queue, and the idle step where none waits. -/
theorem everyStepKeepsTheSupplyInvariant : Obligations.EveryStepKeepsTheSupplyInvariant := by
  intro s t h e
  cases queue : s.pending with
  | nil => exact supplyOk_idle h (step_nil queue ▸ e)
  | cons c rest =>
    have waits : supplyOk { s with pending := rest } := supplyOk_of_view h rfl
    exact exec_sound c waits t (step_cons queue ▸ e)

end Sys2Proof.Machine
end

section
/-! PROOFS. ROM recovery and the sideband reads (ch 13, ch 15): each path's row, and what the statement about them turns on. -/

namespace Sys2Proof.Machine

open Sys2Proof

section
variable {s : State} {n : Nat} {frame d block : Bytes} {off kind code : Nat} {pec : Option Byte}

/-! ## Image bytes (R615) -/

theorem length_bytesAt (m : List Host.Cell) (a n : Nat) : (bytesAt m a n).length = n := by
  induction n generalizing a with
  | zero => rfl
  | succ n ih => rw [bytesAt, List.length_cons, ih]

theorem recoveryWrite_fits (fits : off + d.length ≤ 125829120) : recoveryWrite off d s =
    ({ s with upd := { s.upd with rImage := imagePut s.upd.rImage off d, rBytes := (imagePut s.upd.rImage off d).length,
                                  rStatus := stOk } }, stOk) :=
  if_neg (by omega)

/-! ## A commit (R616) -/

/-- The recovery slot is in trial after the start too: a cold start ends no trial. -/
theorem updateLoss_trial {u : Update} (trial : u.state = .trial) : updateLoss u = { u with window := none } := by
  simp only [updateLoss, trial]

theorem recorded_started (u v : Update) : (recorded u v).state = v.state ∧ (recorded u v).trial = v.trial := by
  unfold recorded
  split <;> exact ⟨rfl, rfl⟩

theorem installRecovery_trial : (installRecovery s).upd.state = .trial ∧ (installRecovery s).upd.trial = true :=
  recorded_started ..

/-- The state that a commit leaves which answers by `reply`, before any start. -/
def commitAnswered (reply : Nat → State → State) (s : State) : State :=
  reply (recoveryStatus s) { s with upd := { s.upd with rStatus := recoveryStatus s } }

theorem recoveryCommit_refused (reply : Nat → State → State) (bad : recoveryStatus s ≠ stOk) :
    recoveryCommit reply s = commitAnswered reply s :=
  if_neg bad

/-- What the bootstrap sees once RECOV_N is released and the boot record is rewritten (log entry 37). -/
def recoveredInput (i : BootInput) : BootInput := { i with recovLow := false, recordOk := true, newerOk := true, partsOk := true }

theorem recoveryCommit_started (reply : Nat → State → State) (good : recoveryStatus s = stOk) : recoveryCommit reply s =
    coldStart 2 (recoveredInput s.boot.input) (installRecovery (commitAnswered reply s)) :=
  if_pos good

theorem stage_recoveryCommit (reply : Nat → State → State) (good : recoveryStatus s = stOk) :
    (recoveryCommit reply s).boot.stage = 0 := by
  rw [recoveryCommit_started reply good, coldStart_stage]

theorem cycles_recoveryCommit {reply : Nat → State → State} (still : (commitAnswered reply s).clk = s.clk)
    (good : recoveryStatus s = stOk) : (recoveryCommit reply s).clk.cycles = s.clk.cycles + 1 := by
  rw [recoveryCommit_started reply good, coldStart_clk]
  exact congrArg (·.cycles + 1) still

theorem upd_recoveryCommit (reply : Nat → State → State) (good : recoveryStatus s = stOk) :
    (recoveryCommit reply s).upd.trial = true ∧ (recoveryCommit reply s).upd.rStatus = stOk := by
  obtain ⟨state, trial⟩ := installRecovery_trial (s := commitAnswered reply s)
  rw [recoveryCommit_started reply good, coldStart_upd, updateLoss_trial state]
  exact ⟨trial, rfl⟩

/-! ## The rows of the paths -/

theorem uartRow_runs {f : Nat → Bytes → State → State} (run : running s = true) (stage : s.boot.stage = 0xE)
    (good : uartFrame kind frame = some (off, d)) : uartRow kind frame f s = .next (f off d s) := by
  simp only [uartRow, whenRunning, guard, run, stage, decide_true, if_true, good]

theorem uartRow_idle {f : Nat → Bytes → State → State} (stage : s.boot.stage ≠ 0xE) : uartRow kind frame f s = .next s := by
  simp only [uartRow, whenRunning, guard, stage, decide_false, Bool.false_eq_true, if_false, ite_self]

theorem smbusRow_runs {ok : State → Bool} {f : State → State} (run : running s = true) (taken : ok s = true) :
    smbusRow ok f s = .next (f s) := by
  simp only [smbusRow, run, taken, if_true, Bool.true_eq_false, if_false]

theorem recoveryRow_runs {ok : State → Bool} {f : State → State} (run : running s = true) (stage : s.boot.stage = 0xE)
    (taken : ok s = true) : recoveryRow ok f s = .next (f s) :=
  smbusRow_runs run (by simp only [stage, taken, decide_true, Bool.and_self])

theorem recoveryRow_nacks {ok : State → Bool} {f : State → State} (stage : s.boot.stage ≠ 0xE) :
    recoveryRow ok f s = .next (emit .nack s) := by
  simp only [recoveryRow, smbusRow, stage, decide_false, Bool.false_and, Bool.false_eq_true, if_false, ite_self]

/-- A Block Read's answer has a count, the data and, where it is asked for, a check byte. -/
theorem smbusAnswer_out (code : Nat) (pec : Bool) (d : Bytes) (s : State) : ∃ l,
    (smbusAnswer code pec d s).out = s.out ++ [.smbus l] ∧ l.length = d.length + 1 + (if pec then 1 else 0) := by
  refine ⟨_, rfl, ?_⟩
  cases pec <;> simp only [Bool.false_eq_true, if_true, if_false, List.length_append, natLe_length] <;> omega

/-! ## Each path in ROM recovery -/

theorem exec_recoveryWrite_row : exec (.recoveryWrite n) s = execRecoveryWrite n s := rfl
theorem exec_recoveryCommit_row : exec (.recoveryCommit n) s = execRecoveryCommit n s := rfl
theorem exec_uartRecoveryWrite_row : exec (.uartRecoveryWrite frame) s = execUartRecoveryWrite frame s := rfl
theorem exec_uartRecoveryCommit_row : exec (.uartRecoveryCommit frame) s = execUartRecoveryCommit frame s := rfl
theorem exec_uartRecoveryStatus_row : exec (.uartRecoveryStatus frame) s = execUartRecoveryStatus frame s := rfl
theorem exec_sidebandIdentityRead_row {pec : Bool} : exec (.sidebandIdentityRead pec) s = execSidebandIdentityRead pec s := rfl
theorem exec_sidebandStatusRead_row {temp : Nat} {pec : Bool} :
    exec (.sidebandStatusRead temp pec) s = execSidebandStatusRead temp pec s := rfl
theorem exec_smbusRecoveryWrite_row : exec (.smbusRecoveryWrite block pec) s = execSmbusRecoveryWrite block pec s := rfl
theorem exec_smbusRecoveryCommit_row : exec (.smbusRecoveryCommit block pec) s = execSmbusRecoveryCommit block pec s := rfl
theorem exec_smbusRecoveryStatus_row {pec : Bool} : exec (.smbusRecoveryStatus pec) s = execSmbusRecoveryStatus pec s := rfl

theorem exec_recoveryWrite (run : running s = true) (stage : s.boot.stage = 0xE) (busy : (taskAt s n).busy = true)
    (coded : (taskAt s n).code = 4) (few : (taskAt s n).dataLen ≤ 224)
    (fits : (taskAt s n).arg + (taskAt s n).dataLen ≤ 125829120) : ∃ t, exec (.recoveryWrite n) s = .next t ∧
      (taskAt t n).status = stOk ∧ (taskAt t n).busy = false ∧
      t.upd.rImage = imagePut s.upd.rImage (taskAt s n).arg (bytesAt (taskAt s n).data 0 (taskAt s n).dataLen) := by
  refine ⟨_, exec_recoveryWrite_row.trans (taskRow_runs _ run busy coded (by rw [stage]; decide)), ?_⟩
  rw [if_neg (by omega), recoveryWrite_fits (by rw [length_bytesAt]; exact fits), taskAt_finishTask]
  exact ⟨rfl, rfl, rfl⟩

theorem exec_recoveryWrite_long (run : running s = true) (stage : s.boot.stage = 0xE) (busy : (taskAt s n).busy = true)
    (coded : (taskAt s n).code = 4) (many : 224 < (taskAt s n).dataLen) :
    exec (.recoveryWrite n) s = .next (finishTask n stLength 0 s) :=
  exec_recoveryWrite_row.trans ((taskRow_runs _ run busy coded (by rw [stage]; decide)).trans (congrArg _ (if_pos many)))

theorem exec_recoveryCommit (run : running s = true) (stage : s.boot.stage = 0xE) (busy : (taskAt s n).busy = true)
    (coded : (taskAt s n).code = 5) : ∃ t, exec (.recoveryCommit n) s = .next t ∧
      (recoveryStatus s = stOk → t.boot.stage = 0 ∧ t.clk.cycles = s.clk.cycles + 1 ∧ t.upd.trial = true) ∧
      (recoveryStatus s ≠ stOk → t.boot = s.boot ∧ (taskAt t n).status = recoveryStatus s) := by
  refine ⟨_, exec_recoveryCommit_row.trans (taskRow_runs _ run busy coded (by rw [stage]; decide)), fun good => ?_,
    fun bad => ?_⟩
  · exact ⟨stage_recoveryCommit _ good, cycles_recoveryCommit rfl good, (upd_recoveryCommit _ good).1⟩
  · rw [recoveryCommit_refused _ bad, commitAnswered, taskAt_finishTask]
    exact ⟨rfl, rfl⟩

theorem exec_uartRecoveryCommit (run : running s = true) (stage : s.boot.stage = 0xE)
    (good : uartFrame 2 frame = some (off, d)) :
    exec (.uartRecoveryCommit frame) s = .next (recoveryCommit (fun st => emit (.uart 2 st)) s) :=
  exec_uartRecoveryCommit_row.trans (uartRow_runs run stage good)

theorem exec_smbusRecoveryCommit (run : running s = true) (stage : s.boot.stage = 0xE) (checked : pecHolds 0xE1 [] pec s = true) :
    ∃ t, exec (.smbusRecoveryCommit [] pec) s = .next t ∧ t.upd.rStatus = recoveryStatus s ∧
      (recoveryStatus s = stOk → t.boot.stage = 0) ∧ (recoveryStatus s ≠ stOk → t.boot = s.boot) := by
  refine ⟨_, exec_smbusRecoveryCommit_row.trans
    (recoveryRow_runs run stage (by simp only [checked, List.isEmpty_nil, Bool.and_self])), ?_,
    stage_recoveryCommit _, fun bad => by rw [recoveryCommit_refused _ bad]; rfl⟩
  by_cases good : recoveryStatus s = stOk
  · rw [(upd_recoveryCommit _ good).2, good]
  · rw [recoveryCommit_refused _ good]
    rfl

/-! ## Block Reads (Tables 13-6, 15-13) -/

theorem exec_sidebandIdentityRead (run : running s = true) (pec : Bool) : ∃ t l, exec (.sidebandIdentityRead pec) s = .next t ∧
    t.out = s.out ++ [.smbus l] ∧ l.length = 46 + (if pec then 1 else 0) := by
  have ran := exec_sidebandIdentityRead_row.trans (smbusRow_runs run rfl : execSidebandIdentityRead pec s = _)
  obtain ⟨l, out, length⟩ := smbusAnswer_out ..
  exact ⟨_, l, ran, out, by simpa only [List.length_append, natLe_length] using length⟩

theorem exec_sidebandStatusRead (run : running s = true) (temp : Nat) (pec : Bool) : ∃ t l,
    exec (.sidebandStatusRead temp pec) s = .next t ∧ t.out = s.out ++ [.smbus l] ∧ l.length = 13 + (if pec then 1 else 0) := by
  have ran := exec_sidebandStatusRead_row.trans (smbusRow_runs run rfl : execSidebandStatusRead temp pec s = _)
  obtain ⟨l, out, length⟩ := smbusAnswer_out ..
  exact ⟨_, l, ran, out, by simpa only [List.length_append, natLe_length] using length⟩

theorem exec_smbusRecoveryStatus (run : running s = true) (stage : s.boot.stage = 0xE) : ∃ t l,
    exec (.smbusRecoveryStatus true) s = .next t ∧ t.out = s.out ++ [.smbus l] ∧ l.length = 10 := by
  have ran := exec_smbusRecoveryStatus_row.trans (recoveryRow_runs run stage rfl : execSmbusRecoveryStatus true s = _)
  obtain ⟨l, out, length⟩ := smbusAnswer_out ..
  exact ⟨_, l, ran, out, by simpa only [List.length_append, natLe_length, if_true] using length⟩

/-- What the UART answers to a commit that starts nothing. -/
theorem exec_uartRecoveryCommit_refused (run : running s = true) (stage : s.boot.stage = 0xE)
    (framed : uartFrame 2 frame = some (off, d)) (bad : recoveryStatus s ≠ stOk) : ∃ t,
      exec (.uartRecoveryCommit frame) s = .next t ∧ t.out = s.out ++ [.uart 2 (recoveryStatus s)] ∧ t.boot = s.boot :=
  ⟨_, exec_uartRecoveryCommit run stage framed, by rw [recoveryCommit_refused _ bad]; exact ⟨rfl, rfl⟩⟩

theorem exec_smbusRecoveryWrite (run : running s = true) (stage : s.boot.stage = 0xE) (checked : pecHolds 0xE0 block pec s = true)
    (least : 5 ≤ block.length) (most : block.length ≤ 244) (fits : leAt block 0 4 + (block.drop 4).length ≤ 125829120) :
    ∃ t, exec (.smbusRecoveryWrite block pec) s = .next t ∧
      t.upd.rImage = imagePut s.upd.rImage (leAt block 0 4) (block.drop 4) ∧ t.out = s.out := by
  refine ⟨_, exec_smbusRecoveryWrite_row.trans
    (recoveryRow_runs run stage (by simp only [checked, least, most, and_self, decide_true, Bool.and_self])), ?_⟩
  rw [recoveryWrite_fits fits]
  exact ⟨rfl, rfl⟩
end

/-! ## What O50 turns on

Every clause of O50 holds but one: a UART commit of an image that verifies starts the module again, and SMBALERT#, if it was
asserted, is released with the start, which is put out after the answer. Whether an image verifies at all depends on the hashes and
revocations in the one-time-programmable memory, of which the model says nothing (`Config.otpKeyHash`, `Config.otpKeyRevoked`). -/

theorem followAlert_falls {s : State} (alert : s.host.alert = true) (none : s.host.ports = []) :
    (followAlert s).out = s.out ++ [.alert false] := by
  simp only [followAlert, none, alert, List.any_nil, Bool.false_eq_true, if_false]
  rfl

/-- A start of a module without ports releases SMBALERT#, since no cause bit stands any more. -/
theorem coldStart_releases {inp : BootInput} {s : State} (alert : s.host.alert = true) (none : s.host.ports = []) :
    (coldStart 2 inp s).out = s.out ++ [.alert false] := by
  have host : (rolesAtStart s).host = s.host := rolesAtStart_same (p := .host) (by decide) s
  have out : (rolesAtStart s).out = s.out := rolesAtStart_same (p := .out) (by decide) s
  rw [← out]
  refine followAlert_falls ?_ ?_
  · simpa [hostAtStart, host] using alert
  · simp [hostAtStart, host, none]

/-- The module in ROM recovery with the image of `s`, no port and SMBALERT# asserted. -/
def alertedRom (s : State) : State :=
  { State.reset with boot := { State.reset.boot with stage := 0xE }, host := { alert := true }, upd := s.upd }

/-- A UART frame that asks for a commit. -/
def commitFrame : Bytes := [0xA5, 2, 0, 0, 0, 0, 0, 0] ++ natLe 4 (crc32c [2, 0, 0, 0, 0, 0, 0])

theorem uartFrame_commitFrame : uartFrame 2 commitFrame = some (0, []) := by decide +kernel

theorem not_recoveryAndSideband_of_verified {s : State} (good : recoveryStatus s = stOk) : ¬ Obligations.RecoveryAndSideband := by
  intro h
  have same : recoveryStatus (alertedRom s) = stOk := good
  obtain ⟨-, -, -, -, commit, -⟩ := h (alertedRom s) rfl
  obtain ⟨t, ran, out, -⟩ := commit commitFrame 0 [] rfl uartFrame_commitFrame
  rw [exec_uartRecoveryCommit rfl rfl uartFrame_commitFrame, recoveryCommit_started _ same] at ran
  obtain rfl := Host.Outcome.next.inj ran
  rw [coldStart_releases rfl rfl] at out
  exact absurd (congrArg List.length out) (by simp [commitAnswered, installRecovery])

theorem recoveryAndSideband_of_none_verified (none : ∀ s, recoveryStatus s ≠ stOk) : Obligations.RecoveryAndSideband := by
  intro s run
  refine ⟨?_, ?_, ?_, ?_, ?_, ?_, ?_, ?_, ?_, ?_, ?_, ?_, ?_⟩
  · rintro set _ stage rfl busy coded few fits
    exact exec_recoveryWrite run stage busy coded few fits
  · rintro set _ stage rfl busy coded many
    exact ⟨_, exec_recoveryWrite_long run stage busy coded many, by rw [taskAt_finishTask], rfl⟩
  · rintro set _ stage rfl busy coded
    exact exec_recoveryCommit run stage busy coded
  · intro frame off d stage framed fits
    refine ⟨_, exec_uartRecoveryWrite_row.trans (uartRow_runs run stage framed), ?_⟩
    rw [recoveryWrite_fits fits]
    exact ⟨rfl, rfl⟩
  · intro frame off d stage framed
    obtain ⟨t, ran, out, boot⟩ := exec_uartRecoveryCommit_refused run stage framed (none s)
    exact ⟨t, ran, out, fun good => absurd good (none s), fun _ => boot⟩
  · intro frame off d stage framed
    exact ⟨_, exec_uartRecoveryStatus_row.trans (uartRow_runs run stage framed), rfl⟩
  · exact fun frame stage => ⟨uartRow_idle stage, uartRow_idle stage, uartRow_idle stage⟩
  · exact exec_sidebandIdentityRead run
  · exact exec_sidebandStatusRead run
  · exact fun block pec stage checked least most fits => exec_smbusRecoveryWrite run stage checked least most fits
  · exact fun pec stage checked => exec_smbusRecoveryCommit run stage checked
  · exact exec_smbusRecoveryStatus run
  · exact fun block pec stage => ⟨_, rfl, exec_smbusRecoveryWrite_row.trans (recoveryRow_nacks stage),
      exec_smbusRecoveryCommit_row.trans (recoveryRow_nacks stage), exec_smbusRecoveryStatus_row.trans (recoveryRow_nacks stage)⟩

/-- O50 is left unsettled: it says that no image verifies, which holds where every signing key is revoked and fails for a part whose
memory holds the hash of a key that signed one. -/
theorem recoveryAndSideband_iff : Obligations.RecoveryAndSideband ↔ ∀ s, recoveryStatus s ≠ stOk :=
  ⟨fun h _ good => not_recoveryAndSideband_of_verified good h, recoveryAndSideband_of_none_verified⟩

/-- One of the two parts: with every signing key revoked no image verifies. -/
theorem recoveryAndSideband_of_revoked (revoked : ∀ k, Config.otpKeyRevoked k = true) : Obligations.RecoveryAndSideband := by
  refine recoveryAndSideband_of_none_verified fun s good => ?_
  have unsigned : signatureOk (recoveryManifest s.upd.rImage) = false := by simp [signatureOk, revoked]
  unfold recoveryStatus at good
  simp only [unsigned, if_true] at good
  split at good <;> exact absurd good (by decide)

end Sys2Proof.Machine
end
